-- ==== Sys2Proof/Word.lean ====
section
/-!
DEFINITION. The word types of the Tirelaquin B9 and their plainest arithmetic: exact integers in, fixed widths out
(the helper table of 01_sequential_machine.md: SX, ZX, WRAP, SATS, SATU).
-/
namespace Sys2Proof

/-- A byte of memory. -/
abbrev Byte := BitVec 8
/-- A 32-bit register word (R9). -/
abbrev Word := BitVec 32
/-- A 64-bit pair, low word in the even register (R9). -/
abbrev DWord := BitVec 64

/-- `SX(x, n)`: the integer whose two's-complement n-bit form is x[n-1:0]. -/
def sx (x n : Nat) : Int :=
  let r := x % 2 ^ n
  if 2 * r < 2 ^ n then (r : Int) else (r : Int) - ((2 ^ n : Nat) : Int)

/-- `ZX(x, n)`: x[n-1:0] read as unsigned. -/
def zx (x n : Nat) : Int := ((x % 2 ^ n : Nat) : Int)

/-- `WRAP(x, n)`: x modulo 2^n. -/
def wrap (x : Int) (n : Nat) : Nat := (x % ((2 ^ n : Nat) : Int)).toNat

/-- `SATS(x, n)`: x clamped to the signed n-bit range. -/
def sats (x : Int) (n : Nat) : Int := min (max x (-((2 ^ (n - 1) : Nat) : Int))) (((2 ^ (n - 1) : Nat) : Int) - 1)

/-- `SATU(x, n)`: x clamped to the unsigned n-bit range. -/
def satu (x : Int) (n : Nat) : Int := min (max x 0) (((2 ^ n : Nat) : Int) - 1)

/-- Bits [hi:lo] of a number. -/
def bitsOf (x hi lo : Nat) : Nat := (x / 2 ^ lo) % 2 ^ (hi + 1 - lo)

/-- Bit n of a number. -/
def bitOf (x n : Nat) : Bool := (x / 2 ^ n) % 2 == 1

/-- A flag as the number 0 or 1. -/
def b2n (b : Bool) : Nat := if b then 1 else 0

end Sys2Proof
end

