-- ==== Sys2Proof/Machine/Cipher.lean ====
section
/-!
DEFINITION. The cipher of HBM (R261): AES-256 in XTS, a data unit of 64 bytes a line. The spec names the standard and gives the
data unit and the tweak; the rest is the public standard's, FIPS 197 and IEEE 1619 (log entry 12).
-/
namespace Sys2Proof.Machine.Cipher

/-- The substitution tables, sixteen bytes a row, the first leftmost. -/
def sboxRows : List Nat :=
  [0x637c777bf26b6fc53001672bfed7ab76, 0xca82c97dfa5947f0add4a2af9ca472c0, 0xb7fd9326363ff7cc34a5e5f171d83115, 0x04c723c31896059a071280e2eb27b275] ++
  [0x09832c1a1b6e5aa0523bd6b329e32f84, 0x53d100ed20fcb15b6acbbe394a4c58cf, 0xd0efaafb434d338545f9027f503c9fa8, 0x51a3408f929d38f5bcb6da2110fff3d2] ++
  [0xcd0c13ec5f974417c4a77e3d645d1973, 0x60814fdc222a908846eeb814de5e0bdb, 0xe0323a0a4906245cc2d3ac629195e479, 0xe7c8376d8dd54ea96c56f4ea657aae08] ++
  [0xba78252e1ca6b4c6e8dd741f4bbd8b8a, 0x703eb5664803f60e613557b986c11d9e, 0xe1f8981169d98e949b1e87e9ce5528df, 0x8ca1890dbfe6426841992d0fb054bb16]
def inverseRows : List Nat :=
  [0x52096ad53036a538bf40a39e81f3d7fb, 0x7ce339829b2fff87348e4344c4dee9cb, 0x547b9432a6c2233dee4c950b42fac34e, 0x082ea16628d924b2765ba2496d8bd125] ++
  [0x72f8f66486689816d4a45ccc5d65b692, 0x6c704850fdedb9da5e154657a78d9d84, 0x90d8ab008cbcd30af7e45805b8b34506, 0xd02c1e8fca3f0f02c1afbd0301138a6b] ++
  [0x3a9111414f67dcea97f2cfcef0b4e673, 0x96ac7422e7ad3585e2f937e81c75df6e, 0x47f11a711d29c5896fb7620eaa18be1b, 0xfc563e4bc6d279209adbc0fe78cd5af4] ++
  [0x1fdda8338807c731b11210592780ec5f, 0x60517fa919b54a0d2de57a9f93c99cef, 0xa0e03b4dae2af5b0c8ebbb3c83539961, 0x172b047eba77d626e169146355210c7d]

/-- An entry of a table. -/
def entryOf (rows : List Nat) (x : Nat) : Nat := rows.getD (x / 16 % 16) 0 / 2 ^ (8 * (15 - x % 16)) % 256
def sbox (x : Nat) : Nat := entryOf sboxRows x
def sboxInv (x : Nat) : Nat := entryOf inverseRows x

/-- Doubling in the field of the standard. -/
def double (x : Nat) : Nat := if x < 128 then 2 * x else (2 * x) ^^^ 0x11B

/-- The product of a byte with a factor below 16. -/
def times (k x : Nat) : Nat :=
  let d1 := double x
  let d2 := double d1
  let d3 := double d2
  let bit (i y : Nat) : Nat := if k / 2 ^ i % 2 = 1 then y else 0
  bit 0 x ^^^ bit 1 d1 ^^^ bit 2 d2 ^^^ bit 3 d3

/-- Bytes of two lists, added. -/
def addBytes (a b : List Nat) : List Nat := List.zipWith (· ^^^ ·) a b

/-! ## The key schedule -/

/-- The next word of the schedule from the word eight before it and the word before it. -/
def nextWord (i : Nat) (old last : List Nat) : List Nat :=
  let sub := last.map sbox
  if i % 8 = 0 then
    match sub with
    | a :: r => addBytes old (addBytes (r ++ [a]) [(List.range (i / 8 - 1)).foldl (fun x _ => double x) 1, 0, 0, 0])
    | [] => old
  else if i % 8 = 4 then addBytes old sub
  else addBytes old last

/-- n further words of the schedule; the words so far stand in reverse. -/
def schedule : Nat → Nat → List (List Nat) → List (List Nat)
  | 0, _, ws => ws.reverse
  | n + 1, i, ws => schedule n (i + 1) (nextWord i (ws.getD 7 []) (ws.getD 0 []) :: ws)

/-- Consecutive pieces of n of a list. -/
def pieces (n : Nat) : Nat → List Nat → List (List Nat)
  | 0, _ => []
  | k + 1, l => l.take n :: pieces n k (l.drop n)

/-- The fifteen round keys of a 32-byte key. -/
def roundKeys (key : List Nat) : List (List Nat) :=
  pieces 16 15 ((schedule 52 8 (pieces 4 8 key).reverse).flatMap id)

/-! ## A block -/

/-- A block's bytes taken in another order: byte j comes from place `src j`. -/
def permute (src : Nat → Nat) (b : List Nat) : List Nat := (List.range 16).map (fun j => b.getD (src j) 0)
def shiftRows (b : List Nat) : List Nat := permute (fun j => (j + 4 * (j % 4)) % 16) b
def shiftRowsInv (b : List Nat) : List Nat := permute (fun j => (j + 12 * (j % 4)) % 16) b

/-- Each column is multiplied by the circulant matrix of four factors. -/
def mixWith (f : List Nat) (b : List Nat) : List Nat :=
  (List.range 16).map (fun j =>
    (List.range 4).foldl (fun a k => a ^^^ times (f.getD ((k + 4 - j % 4) % 4) 0) (b.getD (j / 4 * 4 + k) 0)) 0)

/-- The rounds after the first key addition; the last mixes no column. -/
def encryptRounds : List (List Nat) → List Nat → List Nat
  | [], b => b
  | [k], b => addBytes (shiftRows (b.map sbox)) k
  | k :: r, b => encryptRounds r (addBytes (mixWith [2, 3, 1, 1] (shiftRows (b.map sbox))) k)

/-- The same rounds undone, the keys in reverse. -/
def decryptRounds : List (List Nat) → List Nat → List Nat
  | [], b => b
  | [k], b => addBytes ((shiftRowsInv b).map sboxInv) k
  | k :: r, b => decryptRounds r (mixWith [14, 11, 13, 9] (addBytes ((shiftRowsInv b).map sboxInv) k))

def encryptBlock (keys : List (List Nat)) (b : List Nat) : List Nat :=
  match keys with
  | [] => b
  | k :: r => encryptRounds r (addBytes b k)

def decryptBlock (keys : List (List Nat)) (b : List Nat) : List Nat :=
  match keys.reverse with
  | [] => b
  | k :: r => decryptRounds r (addBytes b k)

/-! ## A line -/

/-- The bytes of a number, low first. -/
def bytesLow : Nat → Nat → List Nat
  | 0, _ => []
  | n + 1, x => x % 256 :: bytesLow n (x / 256)

/-- The number that bytes, low first, make. -/
def ofBytesLow : List Nat → Nat
  | [] => 0
  | b :: r => b + 256 * ofBytesLow r

/-- The mask of the next block of a data unit. -/
def nextMask (t : List Nat) : List Nat :=
  let x := ofBytesLow t
  bytesLow 16 (if x < 2 ^ 127 then 2 * x else (2 * x) % 2 ^ 128 ^^^ 0x87)

/-- Blocks of a data unit under XTS, each between two additions of its mask. -/
def unitBlocks (f : List Nat → List Nat) : List Nat → List (List Nat) → List Nat
  | _, [] => []
  | t, b :: r => addBytes (f (addBytes b t)) t ++ unitBlocks f (nextMask t) r

/-- A line under a 64-byte key whose halves are the data key and the tweak key; the empty key leaves it plain. The tweak is
PA[51:6], the line's number. -/
def cryptLine (f : List (List Nat) → List Nat → List Nat) (key : List Byte) (line : Nat) (bytes : List Byte) : List Byte :=
  if key.isEmpty then bytes
  else
    let k := (List.range 64).map (fun i => (key.getD i 0).toNat)
    let mask := encryptBlock (roundKeys (k.drop 32)) (bytesLow 16 (line % 2 ^ 46))
    (unitBlocks (f (roundKeys (k.take 32))) mask (pieces 16 4 (bytes.map (·.toNat)))).map (BitVec.ofNat 8)

def encryptLine (key : List Byte) (line : Nat) (bytes : List Byte) : List Byte := cryptLine encryptBlock key line bytes
def decryptLine (key : List Byte) (line : Nat) (bytes : List Byte) : List Byte := cryptLine decryptBlock key line bytes

end Sys2Proof.Machine.Cipher
end

