-- ==== Sys2Proof/Config.lean ====
section
/-!
DEFINITION. What one device fixes and what the manual leaves open. Every value the manual leaves open is an opaque
constant: nothing can evaluate it, so a statement holds whatever it is (log entries 6, 12 to 15).
-/
namespace Sys2Proof
namespace Config

/-- Number of physical cores (R1, R3). -/
def nCores : Nat := 256
/-- Entries of a core's waiting-vector table (R165). -/
def wvtEntries : Nat := 128
/-- Thread slots of a core (R162). -/
def slotsPerCore : Nat := 2048
/-- Entries of a core's matrix FIFO (R312). -/
def fifoEntries : Nat := 32
/-- Entries of a core's speculative store hold (R421). -/
def sshEntries : Nat := 1024
/-- Accumulators of a core (R306). -/
def nAcc : Nat := 131072
/-- The byte an unlisted address of physical memory reads as. DESIGN CHOICE (log entry 4). -/
def unwrittenByte : Byte := 0

/-- A 32-bit value the manual leaves open, fresh for each count. -/
opaque freeWord : Nat → Word
/-- Estimated power of a die in W at given clock steps of its 32 pairs (R328 step 2). -/
opaque diePower : Nat → List Nat → Nat
/-- SHA-512 of a byte string (R384): the manual names the function and does not define it. -/
opaque sha512 : List Byte → List Byte
/-- Whether an image's RSA-4096 signature over its digest verifies under Elael's key (R384). -/
opaque signatureOk : List Byte → List Byte → Bool
/-- The device's attestation signature over a byte string (R384). -/
opaque attest : List Byte → List Byte
/-- The key a wrapped key unwraps to under RSA-4096 OAEP; none when decoding fails (R381). -/
opaque unwrapKey : List Byte → Option (List Byte)
/-- The correctly rounded pattern of a special function where the enclosure of this model does not settle it: function
number, format width, operand pattern. -/
opaque freeSpecial : Nat → Nat → Nat → Nat
/-- The host port that maps an address of system memory (R378): 0 for A, 1 for B. -/
opaque hostPort : Nat → Nat
/-- Chunks that the spill region of a partition holds (R401): firmware sets its size. -/
opaque spillRoom : Nat → Nat

end Config
end Sys2Proof
end

