-- ==== Sys2Proof/Syntax.lean ====
section
/-!
DEFINITION. The syntax of the machine: operand specifiers (R58 to R61), the fields of the base word (R52), the extensions
of the 128-bit forms (R54), the data that the device's events carry, and the one inductive `Instr`.
-/
namespace Sys2Proof

/-- The predicate guard of an instruction: PRED and PNEG (R10, R52). -/
structure Guard where
  pred : BitVec 3
  neg : Bool
  deriving DecidableEq, Repr, Inhabited

/-- The TYPE field (R27). The reserved values 0xD to 0xF have no constructor: a word that holds one is rejected. -/
inductive Ty where
  | u8 | s8 | u16 | s16 | u32 | s32 | u64 | s64 | f32 | f16 | bf16 | f16x2 | bf16x2
  deriving DecidableEq, Repr, Inhabited

/-- An operand specifier (R58). `special n`, n = 0..39, is specifier 0x158 + n (R59); `inline n`, n = 0..63, holds the value
n - 16; `const n` is entry 0x1C0 + n of the constant table (R60); `rsv n` is 0x1E0 + n, n = 0..23; `pred n` is 0x1F8 + n,
n = 0..6; `none` is 0x1FF. -/
inductive Operand where
  | v (n : BitVec 8)
  | g (n : BitVec 6)
  | t (n : BitVec 3)
  | q (n : BitVec 4)
  | special (n : Fin 40)
  | inline (n : BitVec 6)
  | const (n : BitVec 5)
  | rsv (n : Fin 24)
  | pred (n : Fin 7)
  | none
  deriving DecidableEq, Repr, Inhabited

/-- The fields of the base word (R52) less MAJOR and LEN, and the IMM32 of a 96-bit form (R53). -/
structure Fields where
  guard : Guard
  minor : BitVec 4
  ty : Ty
  md : BitVec 3
  slot : BitVec 3
  dst : Operand
  sa : Operand
  sb : Operand
  sc : Operand
  imm : Option Word
  deriving DecidableEq, Repr, Inhabited

/-- Extension of `tlay` (R290). -/
structure TlayExt where
  extm1 : BitVec 48
  esz : BitVec 2
  kind : Bool
  ly : BitVec 3
  deriving DecidableEq, Repr, Inhabited

/-- Extension of `tlay.grid` (R392). -/
structure GridExt where
  ly : BitVec 3
  deriving DecidableEq, Repr, Inhabited

/-- Extension of `tcopy` and `tcopyx` (R291, R296). -/
structure CopyExt where
  lyS : BitVec 3
  lyD : BitVec 3
  all : Bool
  deriving DecidableEq, Repr, Inhabited

/-- Extension of `mma` (R310). -/
structure MmaExt where
  msel : BitVec 2
  nenc : BitVec 6
  ksm1 : BitVec 12
  slotB : BitVec 3
  cbase : BitVec 17
  aGlobal : Bool
  bGlobal : Bool
  pair : Bool
  acc : Bool
  had : Bool
  deriving DecidableEq, Repr, Inhabited

/-- Extension of `ccoll` (R393). -/
structure CcollExt where
  lyS : BitVec 3
  lyD : BitVec 3
  all : Bool
  mreg : BitVec 4
  dx : BitVec 4
  dy : BitVec 4
  dz : BitVec 4
  deriving DecidableEq, Repr, Inhabited

/-- Extension of `cbr` (R411). `prd`: 0 own vote, 1 target, 2 fall-through, 3 no run-ahead. -/
structure CbrExt where
  off : Word
  reg : BitVec 4
  prd : BitVec 2
  deriving DecidableEq, Repr, Inhabited

/-- A fabric message: the header flit's fields and the data of its data flits (R387). -/
structure Msg where
  kind : BitVec 8
  sdev : BitVec 9
  ddev : BitVec 9
  dctx : BitVec 12
  chunk : BitVec 32
  tag : BitVec 32
  xtra : BitVec 32
  data : List Byte
  deriving DecidableEq, Repr, Inhabited

/-- The body of a PART command (R357, R380): the partition, the physical leader cores of its pairs in logical order (none
dissolves it), the root of its stage-2 tables and its key IDs. -/
structure PartCmd where
  part : Nat
  leaders : List Nat
  root : Nat
  keys : List Nat
  deriving DecidableEq, Repr, Inhabited

/-- The summed report of a membership sequence as the hosting switch returns it (R413 to R416). -/
structure SeqReport where
  t : Nat
  v : Nat
  /-- the reports differ in static fields or SEQ (R416) -/
  mismatch : Bool
  /-- some member is late or some device dead under ABORT (R415) -/
  aborted : Bool
  /-- SEQ in the TAG of the device's report that it answers (R414) -/
  seq : BitVec 16
  deriving DecidableEq, Repr, Inhabited

/-- One constructor per row of spec/opcode_table.json: the Amzais instructions, the firmware harts' Xamz instructions and
the device's own events. -/
inductive Instr where
  /-- IADD (R74): Adds two integers and applies the wrap or saturation mode. -/
  | iadd (f : Fields)
  /-- ISUB (R74): Subtracts two integers and applies the wrap or saturation mode. -/
  | isub (f : Fields)
  /-- ADDC (R75): Adds with an optional carry-in predicate and writes the carry-out to a predicate. -/
  | addc (f : Fields)
  /-- IMUL (R74): Multiplies two integers and applies the wrap or saturation mode. -/
  | imul (f : Fields)
  /-- IMULH (R74): Writes the high half of an exact integer product. -/
  | imulh (f : Fields)
  /-- IMAD (R74): Forms a·b + c exactly and applies the mode. -/
  | imad (f : Fields)
  /-- IABS (R74): Writes the absolute value of a signed integer. -/
  | iabs (f : Fields)
  /-- INEG (R74): Writes the negation of an integer. -/
  | ineg (f : Fields)
  /-- IMIN (R74): Writes the smaller of two integers. -/
  | imin (f : Fields)
  /-- IMAX (R74): Writes the larger of two integers. -/
  | imax (f : Fields)
  /-- ICLAMP (R74): Clamps a between b and c. -/
  | iclamp (f : Fields)
  /-- SHL (R77): Shifts left exactly and applies the mode. -/
  | shl (f : Fields)
  /-- SHR (R77): Shifts right logically. -/
  | shr (f : Fields)
  /-- SAR (R77): Shifts right arithmetically. -/
  | sar (f : Fields)
  /-- ROTL (R77): Rotates left by the amount modulo the width. -/
  | rotl (f : Fields)
  /-- AND (R78): Bitwise AND. -/
  | andOp (f : Fields)
  /-- OR (R78): Bitwise OR. -/
  | orOp (f : Fields)
  /-- XOR (R78): Bitwise XOR. -/
  | xorOp (f : Fields)
  /-- ANDN (R78): Bitwise a AND NOT b. -/
  | andn (f : Fields)
  /-- BLUT (R78): Computes a three-input bitwise function from an 8-bit lookup table. -/
  | blut (f : Fields)
  /-- POPC (R79): Counts the one bits. -/
  | popc (f : Fields)
  /-- CLZ (R79): Counts the leading zeros. -/
  | clz (f : Fields)
  /-- CTZ (R79): Counts the trailing zeros. -/
  | ctz (f : Fields)
  /-- BREV (R79): Reverses the bit order. -/
  | brev (f : Fields)
  /-- BFX (R80): Extracts a bit field and extends it. -/
  | bfx (f : Fields)
  /-- BFI (R80): Inserts a bit field into a word. -/
  | bfi (f : Fields)
  /-- BPERM (R81): Builds a word from selected bytes of two registers. -/
  | bperm (f : Fields)
  /-- ICMP (R83): Compares two integers into a predicate. -/
  | icmp (f : Fields)
  /-- ISEL (R84): Selects one of two values by a predicate. -/
  | isel (f : Fields)
  /-- LEA (R85): Forms a 64-bit address from a base and a scaled index. -/
  | lea (f : Fields)
  /-- MOV (R86): Copies a word or a pair as bits. -/
  | mov (f : Fields)
  /-- MOVI (R86): Writes a 32-bit immediate, extended by type. -/
  | movi (f : Fields)
  /-- TIDX (R88): Splits a linear index into a coordinate through the shape table. -/
  | tidx (f : Fields)
  /-- FADD (R91): Floating-point addition rounded once. -/
  | fadd (f : Fields)
  /-- FSUB (R91): Floating-point subtraction rounded once. -/
  | fsub (f : Fields)
  /-- FMUL (R91): Floating-point multiplication rounded once. -/
  | fmul (f : Fields)
  /-- FFMA (R91): Fused multiply-add rounded once. -/
  | ffma (f : Fields)
  /-- FMIN (R92): IEEE minimumNumber of two values. -/
  | fmin (f : Fields)
  /-- FMAX (R92): IEEE maximumNumber of two values. -/
  | fmax (f : Fields)
  /-- FCMP (R92): Compares two floating values into a predicate. -/
  | fcmp (f : Fields)
  /-- FSEL (R92): Selects a or b by comparing SC with +0. -/
  | fsel (f : Fields)
  /-- FCLASS (R93): Writes a one-hot class mask of a floating value. -/
  | fclass (f : Fields)
  /-- FRND (R94): Rounds to an integral value in the same format. -/
  | frnd (f : Fields)
  /-- HADD2 (R95): Adds two packed half-precision pairs. -/
  | hadd2 (f : Fields)
  /-- HMUL2 (R95): Multiplies two packed half-precision pairs. -/
  | hmul2 (f : Fields)
  /-- HFMA2 (R95): Fused multiply-add on packed half-precision pairs. -/
  | hfma2 (f : Fields)
  /-- FDOT2 (R96): Two-element dot product plus an FP32 addend, rounded once. -/
  | fdot2 (f : Fields)
  /-- FCVT (R98): Converts between floating formats. -/
  | fcvt (f : Fields)
  /-- I2F (R98): Converts an integer to a floating format. -/
  | i2f (f : Fields)
  /-- F2I (R98): Converts a floating value to an integer type. -/
  | f2i (f : Fields)
  /-- BXPACK (R100): Packs FP32 registers into a block-exponent or integer slot format. -/
  | bxpack (f : Fields)
  /-- BXUNPACK (R100): Unpacks a packed register group into FP32 registers. -/
  | bxunpack (f : Fields)
  /-- HCVT (R101): Applies the Hadamard transform and converts into the slot type. -/
  | hcvt (f : Fields)
  /-- FRCP (R102): Correctly rounded reciprocal. -/
  | frcp (f : Fields)
  /-- FRSQ (R102): Correctly rounded reciprocal square root. -/
  | frsq (f : Fields)
  /-- FSQRT (R102): Correctly rounded square root. -/
  | fsqrt (f : Fields)
  /-- FEX2 (R102): Correctly rounded power of two. -/
  | fex2 (f : Fields)
  /-- FLG2 (R102): Correctly rounded base-2 logarithm. -/
  | flg2 (f : Fields)
  /-- FSIN (R102): Correctly rounded sine. -/
  | fsin (f : Fields)
  /-- FCOS (R102): Correctly rounded cosine. -/
  | fcos (f : Fields)
  /-- FTANH (R102): Correctly rounded hyperbolic tangent. -/
  | ftanh (f : Fields)
  /-- VOTE (R184): Reduces a predicate over the participants of a tile. -/
  | vote (f : Fields)
  /-- BALLOT (R185): Writes the mask of tile participants whose predicate is set. -/
  | ballot (f : Fields)
  /-- MATCH (R186): Compares values across a tile and writes peer, uniform or head masks. -/
  | matchOp (f : Fields)
  /-- SHFL (R187): Gives each participant the value of a source lane in its tile. -/
  | shfl (f : Fields)
  /-- SCAN (R189): Inclusive or exclusive running scan over the tile participants. -/
  | scan (f : Fields)
  /-- LRED (R190): Reduces over the tile participants and writes the result to all. -/
  | lred (f : Fields)
  /-- LPART (R191): Sets the gang's tile width. -/
  | lpart (f : Fields)
  /-- UMOV (R192): Writes one chosen lane's value into a uniform register. -/
  | umov (f : Fields)
  /-- CHOPEN (R194): Registers the gang as a producer of a channel. -/
  | chopen (f : Fields)
  /-- CHCLOSE (R194): Deregisters the gang as a producer at the end of its pass. -/
  | chclose (f : Fields)
  /-- BAR_ARRIVE (R198): Returns the barrier generation and arrives without waiting. -/
  | barArrive (f : Fields)
  /-- BAR_WAIT (R199): Adds a barrier generation to the thread's wait set. -/
  | barWait (f : Fields)
  /-- BAR_SYNC (R200): Terminator that records the generation, arrives and takes fall-through. -/
  | barSync (f : Fields)
  /-- DMAKE (R146): Builds a distribution register from value and weight registers. -/
  | dmake (f : Fields)
  /-- DCONST (R147): Writes a constant distribution register. -/
  | dconst (f : Fields)
  /-- DLD (R148): Loads a whole distribution register image from memory. -/
  | dld (f : Fields)
  /-- DST (R148): Stores a whole distribution register image to memory. -/
  | dst (f : Fields)
  /-- DADD (R149): Adds two distributions with aligned or independent pairing. -/
  | dadd (f : Fields)
  /-- DSUB (R149): Subtracts two distributions. -/
  | dsub (f : Fields)
  /-- DMUL (R149): Multiplies two distributions. -/
  | dmul (f : Fields)
  /-- DMAX (R149): Maximum of two distributions. -/
  | dmax (f : Fields)
  /-- DMIN (R149): Minimum of two distributions. -/
  | dmin (f : Fields)
  /-- DFMA (R150): Computes a·x + c over distributions. -/
  | dfma (f : Fields)
  /-- DSCALE (R151): Scales every point of a distribution. -/
  | dscale (f : Fields)
  /-- DOFFS (R151): Offsets every point of a distribution. -/
  | doffs (f : Fields)
  /-- DCOND (R152): Conditions a distribution on an interval event. -/
  | dcond (f : Fields)
  /-- DTAG (R153): Retags a distribution with a new origin tag. -/
  | dtag (f : Fields)
  /-- DALIGN (R153): Takes values from a and weights, tag and lineage from b. -/
  | dalign (f : Fields)
  /-- DMOM (R155): Writes the mean or a central moment of a distribution. -/
  | dmom (f : Fields)
  /-- DQNT (R156): Writes a quantile of a distribution. -/
  | dqnt (f : Fields)
  /-- DCDF (R157): Writes P(X ≤ x) of a distribution. -/
  | dcdf (f : Fields)
  /-- DMIX (R154): Forms and condenses a mixture of two distributions. -/
  | dmix (f : Fields)
  /-- LD (R122): Loads memory into a register group, counted on a flag. -/
  | ld (f : Fields)
  /-- ST (R123): Stores a data group to memory. -/
  | st (f : Fields)
  /-- LDC (R126): Loads global words through the constant path. -/
  | ldc (f : Fields)
  /-- PREF (R127): Requests a line into L1 or L2 without faulting. -/
  | pref (f : Fields)
  /-- ATOM (R274): Atomic read-modify-write returning the old value. -/
  | atom (f : Fields)
  /-- ATOMCAS (R275): Atomic compare-and-swap. -/
  | atomcas (f : Fields)
  /-- RED (R274): Atomic reduction that returns nothing. -/
  | red (f : Fields)
  /-- FENCE (R272): Waits for acquire, release or full ordering at a scope. -/
  | fence (f : Fields)
  /-- RACQ (R279): Device-scope acquire load that promotes a tagged owner first. -/
  | racq (f : Fields)
  /-- TCOPY (R291): Supplies the gang's slice of a tile copy on a copy channel. -/
  | tcopy (f : Fields) (x : CopyExt)
  /-- TCOPYX (R296): Supplies a slice of a compacting or expanding copy. -/
  | tcopyx (f : Fields) (x : CopyExt)
  /-- TSEAL (R299): Moves the open set into a copy token batch. -/
  | tseal (f : Fields)
  /-- TLAY (R290): Writes a layout register of the team. -/
  | tlay (f : Fields) (x : TlayExt)
  /-- TLAY_GRID (R392): Writes the grid, mask and reduce fields of a layout register. -/
  | tlayGrid (f : Fields) (x : GridExt)
  /-- MMA (R311): Posts a matrix multiply-accumulate to the matrix FIFO. -/
  | mma (f : Fields) (x : MmaExt)
  /-- MZERO (R317): Posts a clear of a range of accumulators. -/
  | mzero (f : Fields)
  /-- MACCRD (R318): Reads accumulators into v registers. -/
  | maccrd (f : Fields)
  /-- MACCWR (R318): Writes v registers into accumulators. -/
  | maccwr (f : Fields)
  /-- BOBJ (R323): Initialises a barrier object. -/
  | bobj (f : Fields)
  /-- BSTAT (R324): Reads a barrier object's status and phase as an acquire. -/
  | bstat (f : Fields)
  /-- JMP (R109): Terminator that always branches to a direct target. -/
  | jmp (f : Fields)
  /-- BR (R109): Terminator that branches when its predicate holds. -/
  | br (f : Fields)
  /-- BRX (R110): Terminator that branches to a register address. -/
  | brx (f : Fields)
  /-- CALL (R111): Terminator that branches and writes the fall-through link. -/
  | call (f : Fields)
  /-- CALL_R (R111): Terminator that calls a register target and writes the link. -/
  | callR (f : Fields)
  /-- RET (R112): Terminator that branches to a link value. -/
  | ret (f : Fields)
  /-- RET_FAULT (R113): Fault return: restores position and temporaries and resumes mid-clause. -/
  | retFault (f : Fields)
  /-- EXIT (R114): Terminator that ends the thread. -/
  | exit (f : Fields)
  /-- PARK (R115): Terminator that takes fall-through after a cycle delay. -/
  | park (f : Fields)
  /-- CBR (R412): Agreed branch: casts the gang's vote and waits or runs ahead. -/
  | cbr (f : Fields) (x : CbrExt)
  /-- MJOIN (R426): The gang joins a membership set. -/
  | mjoin (f : Fields)
  /-- MLEAVE (R426): The gang leaves a membership set. -/
  | mleave (f : Fields)
  /-- MVOTE (R427): Casts a vote and receives result and count into a register. -/
  | mvote (f : Fields)
  /-- SFENCE (R428): Waits until the gang's held stores are performed. -/
  | sfence (f : Fields)
  /-- CCOLL (R393): Supplies a slice of a cross-device collective. -/
  | ccoll (f : Fields) (x : CcollExt)
  /-- SYSR (R129): Reads a system register, long-latency for registers marked long. -/
  | sysr (f : Fields)
  /-- SYSW (R129): Writes a system register that has no row of its own. -/
  | sysw (f : Fields)
  /-- TLBINV (R260): A write to TLBINV stalls until the named stage-1 translations are removed. -/
  | tlbinv (f : Fields)
  /-- LOOP_WRITE (R221): A write to a LOOP register is checked and may enable or re-time the loop. -/
  | loopWrite (f : Fields)
  /-- MSET_WRITE (R408): A write to a membership register resets its history and faults voters of an open sequence. -/
  | msetWrite (f : Fields)
  /-- PGBUDGET_WRITE (R327): A write to PGBUDGET clamps budget and ramp and applies from the next cycle. -/
  | pgbudgetWrite (f : Fields)
  /-- BEAT (R217): Adds a weight to the context's beat count and clears the watchdog. -/
  | beat (f : Fields)
  /-- LAUNCH (R219): Writes a packet into a device queue ring as a device-scope release. -/
  | launch (f : Fields)
  /-- TRAP (R132): Raises a software-trap fault with a value in FINFO. -/
  | trap (f : Fields)
  /-- BRK (R132): Raises a breakpoint fault. -/
  | brk (f : Fields)
  /-- NOP (R133): Does nothing. -/
  | nop (f : Fields)
  /-- HINT (R133): Gives a scheduling or fetch hint that changes no result. -/
  | hint (f : Fields)
  /-- LONG_LATENCY_COMPLETE (R18): A long-latency operation writes its destination and lowers its flag. -/
  | longLatencyComplete (core slot op word : Nat)
  /-- CONTEXT_KILL (R340): Firmware ends every thread of a stopped context and scrubs its cores. -/
  | contextKill (ctx : Nat)
  /-- PASS_FORM (R170): A free pipe chooses an entry and forms a pass with channel reservations. -/
  | passForm (core pipe : Nat)
  /-- PARK_DUE (R167): A continuation record's park count reaches zero and it becomes due. -/
  | parkDue (core slot : Nat)
  /-- SPILL (R168): After 4,096 idle cycles BSEL spills the highest entry to the bin. -/
  | spill (core : Nat)
  /-- TEMP_REFRESH_SWITCH (R17): A pass running 4 µs has its temporary rows switched to refreshed mode. -/
  | tempRefreshSwitch (core pipe : Nat)
  /-- ROW_REFRESH (R243): A gain-cell row is refreshed within its 7 µs bound. -/
  | rowRefresh (core row : Nat)
  /-- THREAD_FREE (R114): An exited thread's slot and window are freed once its flags are zero. -/
  | threadFree (core slot : Nat)
  /-- LAUNCH_PACKET (R208): A launch packet begins: the record is copied and checked. -/
  | launchPacket (q : Nat)
  /-- WAIT_SIGNAL (R205): A wait-signal packet reads its signal against the condition. -/
  | waitSignal (q : Nat)
  /-- WRITE_SIGNAL (R204): A write-signal packet sets, adds or subtracts a signal as a release. -/
  | writeSignal (q : Nat)
  /-- BARRIER_AND (R205): A barrier-and packet reads its five signals. -/
  | barrierAnd (q : Nat)
  /-- LOOP_CONFIG (R226): A loop-config packet checks and writes the context's loop state. -/
  | loopConfig (q : Nat)
  /-- SIGNAL_RECHECK (R205): The front end rereads an unsatisfied signal at least every 2 µs. -/
  | signalRecheck (q : Nat)
  /-- QUEUE_RESUME (R207): A supervisor write of QSTAT = 0 resumes the queue at RDIDX. -/
  | queueResume (q : Nat)
  /-- TEAM_PLACE (R214): A team is placed on a core once room exists and its entry records are written. -/
  | teamPlace (grid team : Nat)
  /-- TEAM_END (R305): A team ends and frees its footprint once its copies and matrix operations have ended. -/
  | teamEnd (team : Nat)
  /-- GRID_COMPLETE (R216): The grid completes and its completion signal is decremented as a release. -/
  | gridComplete (grid : Nat)
  /-- ALLOC_PASS (R220): At a 64 µs boundary the loops step, the allocator grants and clock steps are set. -/
  | allocPass
  /-- NC_PREEMPT (R351): The front end pre-empts a context held by NC for an interval when another waits. -/
  | ncPreempt (ctx core : Nat)
  /-- WATCHDOG_EXPIRE (R344): A watchdog count reaches WDLIMIT and the context stops. -/
  | watchdogExpire (core : Nat)
  /-- PREEMPT_REQUEST (R345): Cores stop forming passes of a context being pre-empted. -/
  | preemptRequest (ctx : Nat)
  /-- PASS_CUT (R345): A pass still running 8 µs after the request is cut between instructions. -/
  | passCut (core pipe : Nat)
  /-- PREEMPT_CHOOSE (R346): Once halted, each cluster drains, saves or discards its teams. -/
  | preemptChoose (ctx cluster : Nat)
  /-- DRAIN_DEADLINE (R346): A drain unfinished at the deadline halts and saves the rest, flagged late. -/
  | drainDeadline (ctx : Nat)
  /-- RESTORE (R350): A saved context resumes on a partition and its cut threads return. -/
  | restore (ctx partition : Nat)
  /-- TEMP_SAMPLE (R352): A core's temperature is read and may start a migration or a hold. -/
  | tempSample (core celsius : Nat)
  /-- THERMAL_MIGRATE (R353): A halted hot pair's teams move to a spare pair and the RMT is rewritten. -/
  | thermalMigrate (pair : Nat)
  /-- LIVE_MIGRATE (R355): Firmware moves a context to another device by pre-copy, stop and resume. -/
  | liveMigrate (ctx dev newCtx : Nat)
  /-- COPY_CHECK (R293): When every slice has arrived the copy is checked. -/
  | copyCheck (id : Nat)
  /-- LEAVE_REQUEST (R325): A large operation or copy asks its die's PGOV for leave. -/
  | leaveRequest (id : Nat)
  /-- LEAVE_GRANT (R326): The PGOV grants queued requests that fit budget and ramp. -/
  | leaveGrant (die : Nat)
  /-- COPY_DELIVER (R294): A queued copy starts delivering units in ascending offset. -/
  | copyDeliver (id : Nat)
  /-- COPY_UNIT_WRITE (R294): A 32-byte unit of a copy is written and the write pointer advances. -/
  | copyUnitWrite (id : Nat)
  /-- COPY_COMPLETE (R298): A copy ends and the count holding it falls, setting ERR on failure. -/
  | copyComplete (id : Nat)
  /-- MMA_START (R309): A matrix operation at the head of its FIFO begins computing. -/
  | mmaStart (core : Nat)
  /-- TFU_FETCH (R316): The tile fetch unit reads and pins an operand line. -/
  | tfuFetch (core va : Nat)
  /-- MMA_ARRIVE (R322): A finished operation arrives at its barrier object as a release. -/
  | mmaArrive (core : Nat)
  /-- MZERO_COMPLETE (R317): An mzero writes its accumulators and frees its FIFO entry. -/
  | mzeroComplete (core : Nat)
  /-- TRANSLATION_COMPLETE (R257): A page-table walk finishes and the waiting access proceeds or faults. -/
  | translationComplete (core va : Nat)
  /-- L2_REFETCH (R343): A shared line with an uncorrectable error is refetched from HBM. -/
  | l2Refetch (line : Nat)
  /-- SETUP (R396): A collective set-up message is received and compared. -/
  | setup (m : Msg)
  /-- COLLECTIVE_CHUNK (R401): A chunk segment arrives and is landed, spilled or reduced. -/
  | collectiveChunk (m : Msg)
  /-- CHUNK_ACKNOWLEDGEMENT (R400): A chunk acknowledgement is received. -/
  | chunkAcknowledgement (m : Msg)
  /-- NACK_WITH_REDIRECT (R389): A redirect rewrites the rank-table entry and the message is resent. -/
  | nackWithRedirect (m : Msg)
  /-- SLOT_REQUEST (R402): Member 0 requests switch slots for a switch collective. -/
  | slotRequest (id : Nat)
  /-- SLOT_GRANT (R400): A switch slot grant is received. -/
  | slotGrant (id switch : Nat)
  /-- SLOT_NACK (R400): A slot NACK causes release and fallback or failure. -/
  | slotNack (id switch : Nat)
  /-- SLOT_RELEASE (R402): Switch slots are released at completion or failure. -/
  | slotRelease (id : Nat)
  /-- BEAT_COUNT (R406): Interval beat counts are merged by minimum across a beat group. -/
  | beatCount (ctx merged : Nat)
  /-- BEAT_MERGE_TIMEOUT (R406): A count absent 4 µs after the boundary is left out and MISS set. -/
  | beatMergeTimeout (ctx : Nat)
  /-- PORT_DOWN (R403): A switch reports a port down, which may lose a member. -/
  | portDown (dev port : Nat)
  /-- RESERVED_KIND_DISCARD (R388): A message of reserved kind is discarded and counted in FABDROP. -/
  | reservedKindDiscard (m : Msg)
  /-- MEMBER_LOST (R404): A member passes its grace time and the collective completes or fails. -/
  | memberLost (id rank : Nat)
  /-- COLLECTIVE_COMPLETE (R398): A collective ends and writes its status record before the token falls. -/
  | collectiveComplete (id : Nat)
  /-- TALLY_CLOSE (R414): A device's tally for a sequence closes and its vote message is sent. -/
  | tallyClose (ctx reg : Nat)
  /-- GRACE_EXPIRE (R415): Members not voted GRACE µs after the first vote are late. -/
  | graceExpire (ctx reg : Nat)
  /-- SPEC_SQUASH (R423): A wrong run-ahead is discarded and the snapshot restored once its loads end. -/
  | specSquash (core gslot : Nat)
  /-- HEARTBEAT (R362): An active hart increments its heartbeat word every 10 µs. -/
  | heartbeat (hart : Nat)
  /-- TAKEOVER (R371): A standby finding the heartbeat stale halts its partner and replays the journal. -/
  | takeover (standby : Nat)
  /-- FWC_HALT (R363): Writing FWCCTL HALT halts a hart within 1 µs. -/
  | fwcHalt (bits : BitVec 4)
  /-- S2INV (R382): Writing S2INV stalls the hart until stage-2 translations are removed. -/
  | s2inv (value : BitVec 64)
  /-- AMZ_QFETCH (R366): Copies a queue's head packet without taking it. -/
  | amzQfetch (rd rs1 rs2 : BitVec 5)
  /-- AMZ_BFX (R367): Extracts an unsigned field of a 64-bit value. -/
  | amzBfx (rd rs1 rs2 : BitVec 5)
  /-- AMZ_BFX_S (R367): Extracts a signed field of a 64-bit value. -/
  | amzBfxS (rd rs1 rs2 : BitVec 5)
  /-- AMZ_SIGWAIT (R368): Waits on a signal condition or a pending interrupt. -/
  | amzSigwait (cond : BitVec 2) (rd rs1 rs2 : BitVec 5)
  /-- AMZ_DISPATCH (R369): Binds or unbinds a queue to a hardware slot. -/
  | amzDispatch (rd rs1 rs2 : BitVec 5)
  /-- NOTIFY (R373): A doorbell write ORs a KICK bit and signals the serving hart. -/
  | notify (vcp : Nat) (value : BitVec 32)
  /-- VCP_SCAN (R374): A hart exchanges KICK with zero and serves the notified queues. -/
  | vcpScan (hart vcp : Nat)
  /-- VCP_UNMAP (R374): Firmware removes a VCP's translations, drains and rescans KICK. -/
  | vcpUnmap (vcp : Nat)
  /-- VF_RESET (R376): A function-level reset advances the VF generation. -/
  | vfReset (vcp : Nat)
  /-- HSEM_ACQUIRE (R379): A read of a free semaphore acquires it for the reading port. -/
  | hsemAcquire (port sem : Nat)
  /-- HSEM_RELEASE (R379): A zero write by the owner releases a semaphore. -/
  | hsemRelease (port sem : Nat)
  /-- LINK_DOWN (R379): A port's link going down releases its semaphores within 1 ms. -/
  | linkDown (port : Nat)
  /-- QUOTE (R384): Returns the measurement registers and nonce signed by the attestation key. -/
  | quote (port : Nat) (nonce : List Byte)
  /-- KEYLOAD (R381): Unwraps a key into a KTAB entry and flushes lines of that key ID. -/
  | keyload (port keyId : Nat) (wrapped : List Byte)
  /-- PART (R357): Builds or dissolves a partition. -/
  | partOp (port : Nat) (p : PartCmd)
  /-- SEAL (R359): Seals or unseals a partition. -/
  | sealOp (port part : Nat) (on : Bool)
  /-- VFMAP (R372): Assigns a VCP and its queues to a VF. -/
  | vfmap (port vcp vf : Nat) (queues : List Nat)
  /-- FWUPDATE (R384): Stages a signed firmware image. -/
  | fwupdate (port : Nat) (image signature : List Byte)
  /-- BOOT (R240): At reset the device tests banks, maps out faulty ones and starts firmware from ROM. -/
  | boot (faulty : List (Nat × Nat)) (images : List (List Byte × List Byte))
  /-- SEQUENCE_RESOLUTION (R413): The summed tally of a membership sequence (KIND 0x0A vote result) reaches the device, which advances SEQ, shifts MOUT, and gives every member its direction, commit or squash, or an mvote result. -/
  | sequenceResolution (ctx reg : Nat) (r : SeqReport)
  /-- ACTUATOR_LEVELS_APPLY (R220): Within 8 µs of a boundary the new actuator levels take effect: ways change owner, HBM shares move, and pairs change clock step with an issue pause of up to 2 µs. -/
  | actuatorLevelsApply
  /-- FUNCTION_FAILURE (R383): A device function such as an HBM stack, a compute die or a fabric port fails, its RDY_MAP bit clears and the port's device interrupt is raised. -/
  | functionFailure (bit : Nat)
  /-- UNASSIGNED_OPCODE (R63): A body word whose MAJOR is reserved or unassigned executes as an illegal-encoding fault. -/
  | unassignedOpcode (guard : Guard) (major : BitVec 8)
  deriving DecidableEq, Repr, Inhabited

end Sys2Proof
end

