-- ==== Sys2Proof/Decode.lean ====
section
/-!
DEFINITION. Operand specifiers, the clause header's fields, the system-register map, the accepted forms of every
instruction (R51 to R64, R72 and each instruction's entry) and the decoder, total on any bytes; after it the encoder,
written from the same tables.
-/
namespace Sys2Proof

/-! ## Operand specifiers (R58) -/

/-- The operand a 9-bit specifier names. -/
def Operand.ofSpec (w : BitVec 9) : Operand :=
  let n := w.toNat
  if n < 0x100 then .v (BitVec.ofNat 8 n)
  else if n < 0x140 then .g (BitVec.ofNat 6 n)
  else if n < 0x148 then .t (BitVec.ofNat 3 n)
  else if n < 0x158 then .q (BitVec.ofNat 4 (n - 0x148))
  else if n < 0x180 then .special (Fin.ofNat 40 (n - 0x158))
  else if n < 0x1C0 then .inline (BitVec.ofNat 6 n)
  else if n < 0x1E0 then .const (BitVec.ofNat 5 n)
  else if n < 0x1F8 then .rsv (Fin.ofNat 24 (n - 0x1E0))
  else if n < 0x1FF then .pred (Fin.ofNat 7 (n - 0x1F8))
  else .none

/-- The specifier of an operand. -/
def Operand.toSpec : Operand → BitVec 9
  | .v n => BitVec.ofNat 9 n.toNat
  | .g n => BitVec.ofNat 9 (0x100 + n.toNat)
  | .t n => BitVec.ofNat 9 (0x140 + n.toNat)
  | .q n => BitVec.ofNat 9 (0x148 + n.toNat)
  | .special n => BitVec.ofNat 9 (0x158 + n.val)
  | .inline n => BitVec.ofNat 9 (0x180 + n.toNat)
  | .const n => BitVec.ofNat 9 (0x1C0 + n.toNat)
  | .rsv n => BitVec.ofNat 9 (0x1E0 + n.val)
  | .pred n => BitVec.ofNat 9 (0x1F8 + n.val)
  | .none => 0x1FF#9

/-- TYPE codes (R27). -/
def Ty.ofCode (c : BitVec 4) : Option Ty :=
  match c.toNat with
  | 0 => some .u8 | 1 => some .s8 | 2 => some .u16 | 3 => some .s16 | 4 => some .u32 | 5 => some .s32
  | 6 => some .u64 | 7 => some .s64 | 8 => some .f32 | 9 => some .f16 | 10 => some .bf16 | 11 => some .f16x2
  | 12 => some .bf16x2 | _ => none

def Ty.code : Ty → BitVec 4
  | .u8 => 0 | .s8 => 1 | .u16 => 2 | .s16 => 3 | .u32 => 4 | .s32 => 5 | .u64 => 6 | .s64 => 7
  | .f32 => 8 | .f16 => 9 | .bf16 => 10 | .f16x2 => 11 | .bf16x2 => 12

def Ty.isInt : Ty → Bool
  | .u8 | .s8 | .u16 | .s16 | .u32 | .s32 | .u64 | .s64 => true
  | _ => false
def Ty.isSigned : Ty → Bool
  | .s8 | .s16 | .s32 | .s64 => true
  | _ => false
def Ty.isPair : Ty → Bool
  | .u64 | .s64 => true
  | _ => false
def Ty.isScalarF : Ty → Bool
  | .f32 | .f16 | .bf16 => true
  | _ => false
def Ty.isPairF : Ty → Bool
  | .f16x2 | .bf16x2 => true
  | _ => false
/-- Width in bits of an element (R27). -/
def Ty.width : Ty → Nat
  | .u8 | .s8 => 8
  | .u16 | .s16 | .f16 | .bf16 => 16
  | .u32 | .s32 | .f32 | .f16x2 | .bf16x2 => 32
  | .u64 | .s64 => 64

/-! ## The clause header (R56) -/

namespace Hdr
def len (h : DWord) : BitVec 2 := h.extractLsb' 0 2
def fwait (h : DWord) (n : Nat) : Bool := h.getLsbD (2 + n)
def twait (h : DWord) (n : Nat) : Bool := h.getLsbD (14 + n)
def saf (h : DWord) : BitVec 4 := h.extractLsb' 22 4
def sav (h : DWord) : Bool := h.getLsbD 26
def sbf (h : DWord) : BitVec 4 := h.extractLsb' 27 4
def sbv (h : DWord) : Bool := h.getLsbD 31
def blen (h : DWord) : Nat := (h.extractLsb' 32 5).toNat
def conv (h : DWord) : Bool := h.getLsbD 37
def agreed (h : DWord) : Bool := h.getLsbD 38
def role (h : DWord) : BitVec 2 := h.extractLsb' 39 2
def rch (h : DWord) : BitVec 4 := h.extractLsb' 41 4
def rcv (h : DWord) : Bool := h.getLsbD 45
def wch (h : DWord) : BitVec 4 := h.extractLsb' 46 4
def wcv (h : DWord) : Bool := h.getLsbD 50
def prio (h : DWord) : Nat := (h.extractLsb' 51 4).toNat
def long (h : DWord) : Bool := h.getLsbD 55
def rsv (h : DWord) : BitVec 8 := h.extractLsb' 56 8

/-- The header checks of R13, R57 and R411 that raise an illegal encoding at the header. The channel check of R178 needs the
launch's CHANS and stands with the fetch. -/
def sound (h : DWord) : Bool :=
  len h == 3 && rsv h == 0 && role h != 3 && blen h != 0 && blen h ≤ 24
  && !(sav h && sbv h && saf h == sbf h)
  && !(sav h && (saf h).toNat > 11) && !(sbv h && (sbf h).toNat > 11)
  && (sav h || saf h == 0) && (sbv h || sbf h == 0) && (rcv h || rch h == 0) && (wcv h || wch h == 0)
  && (!agreed h || conv h)
end Hdr

/-! ## System registers (R130, R131 and the chapters that assign them) -/

/-- What the map says of a system register: its width, whether any privilege may write it, whether reading and whether
writing needs supervisor privilege, and whether it is marked long. -/
structure SysInfo where
  wide : Bool
  writable : Bool
  supRead : Bool
  supWrite : Bool
  long : Bool
  deriving DecidableEq, Repr, Inhabited

/-- The assigned system registers; none for a reserved number (R130). -/
def sysInfo (n : Nat) : Option SysInfo :=
  let ro (w : Bool) : Option SysInfo := some ⟨w, false, false, false, false⟩
  let rw (w : Bool) : Option SysInfo := some ⟨w, true, false, false, false⟩
  let usr (w : Bool) : Option SysInfo := some ⟨w, true, false, true, false⟩
  let srw (w : Bool) : Option SysInfo := some ⟨w, true, true, true, false⟩
  let sro (w : Bool) : Option SysInfo := some ⟨w, false, true, true, false⟩
  let lng (w : Bool) : Option SysInfo := some ⟨w, false, false, false, true⟩
  match n with
  | 0x000 => rw false | 0x001 => ro true | 0x002 => ro false | 0x003 => ro false | 0x004 => ro true
  | 0x005 => lng true | 0x006 => ro false | 0x007 => ro false
  | 0x020 => rw false | 0x021 => rw false | 0x022 => ro false | 0x023 => ro true | 0x024 => ro false
  | 0x025 => ro false | 0x026 => rw false | 0x027 => ro true | 0x028 => rw false | 0x029 => ro false
  | 0x02A => ro false | 0x02B => ro false | 0x02C => ro false
  | 0x040 => ro false | 0x041 => ro false | 0x042 => lng false | 0x043 => usr true | 0x044 => usr false
  | 0x045 => ro false | 0x046 => usr true | 0x047 => ro false | 0x048 => usr false | 0x049 => ro false
  | 0x080 => srw true | 0x081 => srw true | 0x082 => sro true | 0x083 => srw false
  | 0x100 => srw false | 0x101 => sro false | 0x102 => srw false | 0x103 => srw false | 0x104 => sro false
  | 0x105 => sro false
  | _ =>
    if 0x050 ≤ n ∧ n ≤ 0x05F then usr false
    else if 0x060 ≤ n ∧ n ≤ 0x07F then usr true
    else if 0x090 ≤ n ∧ n ≤ 0x09F then sro true
    else none

/-- The number N of `sysr` and `sysw` (R129): N[8:5] in MINOR, N[4:2] in SLOT, N[1:0] in MOD[2:1]. -/
def Fields.sysNum (f : Fields) : Nat := 32 * f.minor.toNat + 4 * f.slot.toNat + f.md.toNat / 2

/-! ## Forms: what an entry accepts (R64 steps 1 to 3) -/

/-- Which field IMM32 replaces in the 96-bit form (R53). -/
inductive ImmPlace where
  | no | sb | sc
  deriving DecidableEq, Repr, Inhabited

/-- What an instruction's entry accepts. -/
structure Form where
  len64 : Bool := true
  len96 : Bool := false
  len128 : Bool := false
  minor : BitVec 4 → Bool := fun m => m == 0
  ty : Ty → Bool := fun t => t == .u8
  md : BitVec 3 → Bool := fun m => m == 0
  slot : BitVec 3 → Bool := fun s => s == 0
  dst : Bool := false
  sa : Bool := false
  sb : Bool := false
  sc : Bool := false
  imm : ImmPlace := .no
  extra : Fields → Bool := fun _ => true

namespace Form
def any {α : Type} (_ : α) : Bool := true
def tyInt (t : Ty) : Bool := t.isInt
def tyU (t : Ty) : Bool := t == .u32 || t == .u64
def tyW (t : Ty) : Bool := t == .u32 || t == .s32 || t == .u64 || t == .s64
def tyF (t : Ty) : Bool := t.isScalarF
def tyP (t : Ty) : Bool := t.isPairF
def le {n : Nat} (k : Nat) (x : BitVec n) : Bool := x.toNat ≤ k
def is {n : Nat} (k : Nat) (x : BitVec n) : Bool := x.toNat == k
def isTy (t u : Ty) : Bool := t == u

def dsa : Form := { dst := true, sa := true }
def dsab : Form := { dst := true, sa := true, sb := true }
def dsabc : Form := { dst := true, sa := true, sb := true, sc := true }
/-- two sources, IMM32 in place of SB -/
def bin : Form := { dsab with len96 := true, imm := .sb }
/-- three sources, IMM32 in place of SB -/
def tri : Form := { dsabc with len96 := true, imm := .sb }
/-- three sources, IMM32 in place of SC -/
def triC : Form := { dsabc with len96 := true, imm := .sc }
/-- a 96-bit only form with IMM32 in place of SB -/
def imm96 : Form := { len64 := false, len96 := true, imm := .sb }
def wide : Form := { len64 := false, len128 := true }

/-- Space, policy and element-count limits of R116 shared by `ld` and `st`. -/
def memOk (f : Fields) : Bool :=
  let space := f.minor.toNat % 4
  let policy := f.minor.toNat / 4
  let cnt := f.md.toNat / 2
  space != 3 && policy != 3 && cnt != 3 && (space == 0 || policy == 0) && (cnt == 0 || f.ty.width ≥ 32)

/-- The types an atomic operation accepts (R274). -/
def atomTy (op : Nat) (t : Ty) : Bool :=
  if op ≤ 2 then tyW t || t == .f32 else tyU t

def atomOk (f : Fields) : Bool :=
  f.slot.toNat ≤ 5 && (f.minor.toNat < 8 || f.slot.toNat ≤ 1)

/-- The operator rows of `scan` and `lred` (R188). -/
def scanOk (f : Fields) : Bool :=
  let op := f.minor.toNat
  if op == 0 then f.ty.isInt && f.md.toNat ≤ 2
  else if op ≤ 2 then f.ty.isInt && f.md == 0
  else if op ≤ 5 then tyU f.ty && f.md == 0
  else if op == 6 then f.ty == .f32 && f.md.toNat ≤ 3
  else op ≤ 8 && f.ty == .f32 && f.md == 0

def noGuard (f : Fields) : Bool := f.guard.pred == 7 && !f.guard.neg

def sysOk (write : Bool) (f : Fields) : Bool :=
  match sysInfo f.sysNum with
  | none => false
  | some i => (f.ty == (if i.wide then .u64 else .u32)) && (!write || (i.writable && f.md.toNat % 2 == 0))

def smallImm (f : Fields) : Bool :=
  match f.imm with
  | none => true
  | some w => w.toNat < 65536
end Form


/-- Which row a `sysw` belongs to: TLBINV, LOOP, MSET and PGBUDGET writes have rows of their own. -/
def Fields.sysRow (f : Fields) : Nat :=
  let n := f.sysNum
  if n == 0x080 then 1
  else if 0x050 ≤ n && n ≤ 0x05F then 2
  else if 0x060 ≤ n && n ≤ 0x07F then 3
  else if n == 0x100 then 4
  else 0

/-! ## Extensions (R54): bits numbered from bit 64 of the instruction -/

def TlayExt.ofBits (x : BitVec 64) : TlayExt :=
  ⟨x.extractLsb' 0 48, x.extractLsb' 48 2, x.getLsbD 50, x.extractLsb' 51 3⟩
def TlayExt.bits (e : TlayExt) : BitVec 64 :=
  BitVec.ofNat 64 (e.extm1.toNat + 2 ^ 48 * e.esz.toNat + 2 ^ 50 * b2n e.kind + 2 ^ 51 * e.ly.toNat)
def GridExt.ofBits (x : BitVec 64) : GridExt := ⟨x.extractLsb' 51 3⟩
def GridExt.bits (e : GridExt) : BitVec 64 := BitVec.ofNat 64 (2 ^ 51 * e.ly.toNat)
def CopyExt.ofBits (x : BitVec 64) : CopyExt := ⟨x.extractLsb' 0 3, x.extractLsb' 3 3, x.getLsbD 6⟩
def CopyExt.bits (e : CopyExt) : BitVec 64 :=
  BitVec.ofNat 64 (e.lyS.toNat + 2 ^ 3 * e.lyD.toNat + 2 ^ 6 * b2n e.all)
def MmaExt.ofBits (x : BitVec 64) : MmaExt :=
  { msel := x.extractLsb' 0 2, nenc := x.extractLsb' 2 6, ksm1 := x.extractLsb' 8 12, slotB := x.extractLsb' 20 3,
    cbase := x.extractLsb' 23 17, aGlobal := x.getLsbD 40, bGlobal := x.getLsbD 41, pair := x.getLsbD 42,
    acc := x.getLsbD 43, had := x.getLsbD 44 }
def MmaExt.bits (e : MmaExt) : BitVec 64 :=
  BitVec.ofNat 64 (e.msel.toNat + 2 ^ 2 * e.nenc.toNat + 2 ^ 8 * e.ksm1.toNat + 2 ^ 20 * e.slotB.toNat
    + 2 ^ 23 * e.cbase.toNat + 2 ^ 40 * b2n e.aGlobal + 2 ^ 41 * b2n e.bGlobal + 2 ^ 42 * b2n e.pair
    + 2 ^ 43 * b2n e.acc + 2 ^ 44 * b2n e.had)
def CcollExt.ofBits (x : BitVec 64) : CcollExt :=
  { lyS := x.extractLsb' 0 3, lyD := x.extractLsb' 3 3, all := x.getLsbD 6, mreg := x.extractLsb' 7 4,
    dx := x.extractLsb' 11 4, dy := x.extractLsb' 15 4, dz := x.extractLsb' 19 4 }
def CcollExt.bits (e : CcollExt) : BitVec 64 :=
  BitVec.ofNat 64 (e.lyS.toNat + 2 ^ 3 * e.lyD.toNat + 2 ^ 6 * b2n e.all + 2 ^ 7 * e.mreg.toNat + 2 ^ 11 * e.dx.toNat
    + 2 ^ 15 * e.dy.toNat + 2 ^ 19 * e.dz.toNat)
def CbrExt.ofBits (x : BitVec 64) : CbrExt := ⟨x.extractLsb' 0 32, x.extractLsb' 32 4, x.extractLsb' 36 2⟩
def CbrExt.bits (e : CbrExt) : BitVec 64 :=
  BitVec.ofNat 64 (e.off.toNat + 2 ^ 32 * e.reg.toNat + 2 ^ 36 * e.prd.toNat)

open Form in
/-- The form of an instruction of the Amzais set; none for an event, an Xamz instruction or an unassigned word. -/
def Instr.form : Instr → Option Form
  | .iadd _ => some { bin with ty := tyInt, md := le 2 }
  | .isub _ => some { bin with ty := tyInt, md := le 2 }
  | .addc _ => some { tri with minor := le 1, ty := tyU, slot := any, extra := fun f => f.minor == 1 || f.sc == .none }
  | .imul _ => some { bin with ty := tyInt, md := le 2 }
  | .imulh _ => some { bin with ty := tyW }
  | .imad _ => some { tri with ty := tyInt, md := le 2 }
  | .iabs _ => some { dsa with ty := fun t => t.isInt && t.isSigned, md := le 1 }
  | .ineg _ => some { dsa with ty := tyInt, md := le 2 }
  | .imin _ => some { bin with ty := tyInt }
  | .imax _ => some { bin with ty := tyInt }
  | .iclamp _ => some { triC with ty := tyInt }
  | .shl _ => some { bin with ty := tyInt, md := le 2 }
  | .shr _ => some { bin with ty := tyInt }
  | .sar _ => some { bin with ty := tyInt }
  | .rotl _ => some { bin with ty := tyInt }
  | .andOp _ => some { bin with ty := tyInt, minor := is 0 }
  | .orOp _ => some { bin with ty := tyInt, minor := is 1 }
  | .xorOp _ => some { bin with ty := tyInt, minor := is 2 }
  | .andn _ => some { bin with ty := tyInt, minor := is 3 }
  | .blut _ => some { triC with minor := any, ty := tyU, md := le 1, slot := any }
  | .popc _ => some { dsa with ty := tyU }
  | .clz _ => some { dsa with ty := tyU }
  | .ctz _ => some { dsa with ty := tyU }
  | .brev _ => some { dsa with ty := tyU }
  | .bfx _ => some { bin with ty := tyW, extra := smallImm }
  | .bfi _ => some { tri with ty := tyU, extra := smallImm }
  | .bperm _ => some { triC with ty := isTy .u32 }
  | .icmp _ => some { bin with minor := le 5, ty := tyInt }
  | .isel _ => some { tri with ty := tyU }
  | .lea _ => some { bin with ty := fun t => t == .u32 || t == .s32, slot := any }
  | .mov _ => some { dsa with ty := tyU }
  | .movi _ => some { imm96 with dst := true, ty := any }
  | .tidx _ => some { dsab with minor := le 3, ty := isTy .u32 }
  | .fadd _ => some { bin with ty := tyF, md := le 3 }
  | .fsub _ => some { bin with ty := tyF, md := le 3 }
  | .fmul _ => some { bin with ty := tyF, md := le 3 }
  | .ffma _ => some { tri with ty := tyF, md := le 3 }
  | .fmin _ => some { bin with ty := tyF }
  | .fmax _ => some { bin with ty := tyF }
  | .fcmp _ => some { bin with minor := le 7, ty := tyF }
  | .fsel _ => some { tri with minor := le 7, ty := tyF }
  | .fclass _ => some { dsa with ty := tyF }
  | .frnd _ => some { dsa with minor := le 1, ty := tyF, md := le 3 }
  | .hadd2 _ => some { bin with ty := tyP, md := le 3 }
  | .hmul2 _ => some { bin with ty := tyP, md := le 3 }
  | .hfma2 _ => some { tri with ty := tyP, md := le 3 }
  | .fdot2 _ => some { tri with ty := tyP, md := le 3 }
  | .fcvt _ => some { dsa with minor := le 2, ty := tyF, md := le 3 }
  | .i2f _ => some { dsa with minor := le 7, ty := tyF, md := le 3 }
  | .f2i _ => some { dsa with minor := le 2, ty := tyInt, md := le 3 }
  | .bxpack _ => some { dsa with md := fun m => m.toNat ≤ 1 || m == 4, slot := any }
  | .bxunpack _ => some { dsa with md := le 4, slot := any }
  | .hcvt _ => some { dsa with md := le 4, slot := any }
  | .frcp _ => some { dsa with ty := tyF }
  | .frsq _ => some { dsa with ty := tyF }
  | .fsqrt _ => some { dsa with ty := tyF }
  | .fex2 _ => some { dsa with ty := tyF }
  | .flg2 _ => some { dsa with ty := tyF }
  | .fsin _ => some { dsa with ty := tyF }
  | .fcos _ => some { dsa with ty := tyF }
  | .ftanh _ => some { dsa with ty := tyF }
  | .vote _ => some { dsa with minor := le 3 }
  | .ballot _ => some { dsa with minor := le 1, extra := fun f => f.minor == 0 || f.sa == .none }
  | .matchOp _ => some { dsa with minor := le 2, ty := tyU, slot := any, extra := fun f => f.minor == 1 || f.slot == 0 }
  | .shfl _ => some { dsab with minor := le 4, ty := tyU, slot := any }
  | .scan _ => some { dsa with minor := le 8, ty := any, md := any, slot := le 1, extra := scanOk }
  | .lred _ => some { dsa with minor := le 8, ty := any, md := any, extra := scanOk }
  | .lpart _ => some { minor := fun m => 1 ≤ m.toNat && m.toNat ≤ 5 }
  | .umov _ => some { dsab with ty := tyU }
  | .chopen _ => some { minor := any }
  | .chclose _ => some { minor := any }
  | .barArrive _ => some { dsa with minor := any }
  | .barWait _ => some { minor := any, sa := true }
  | .dmake _ => some dsabc
  | .dconst _ => some { imm96 with dst := true }
  | .dld _ => some { triC with minor := any, slot := any, extra := fun f => f.minor.toNat % 4 != 3 && f.minor.toNat / 4 != 3 && (f.minor.toNat % 4 == 0 || f.minor.toNat / 4 == 0) }
  | .dst _ => some { triC with minor := any, slot := any, extra := fun f => f.minor.toNat % 4 != 3 && f.minor.toNat / 4 != 3 && (f.minor.toNat % 4 == 0 || f.minor.toNat / 4 == 0) }
  | .dadd _ => some { dsab with minor := is 0, md := le 3 }
  | .dsub _ => some { dsab with minor := is 1, md := le 3 }
  | .dmul _ => some { dsab with minor := is 2, md := le 3 }
  | .dmax _ => some { dsab with minor := is 3 }
  | .dmin _ => some { dsab with minor := is 4 }
  | .dfma _ => some { dsabc with md := le 3 }
  | .dscale _ => some { dsab with md := le 3 }
  | .doffs _ => some { dsab with md := le 3 }
  | .dcond _ => some dsabc
  | .dtag _ => some dsab
  | .dalign _ => some dsab
  | .dmom _ => some { dsa with minor := fun m => 1 ≤ m.toNat && m.toNat ≤ 4 }
  | .dqnt _ => some { dsab with minor := le 1 }
  | .dcdf _ => some dsab
  | .dmix _ => some dsabc
  | .ld _ => some { triC with minor := any, ty := any, md := any, slot := any, extra := memOk }
  | .st _ => some { triC with minor := any, ty := any, md := fun m => m.toNat % 2 == 0, slot := any, extra := memOk }
  | .ldc _ => some { triC with minor := is 3, ty := any, md := any, slot := any, extra := fun f => f.md.toNat / 2 != 3 && (f.md.toNat / 2 == 0 || f.ty.width ≥ 32) }
  | .pref _ => some { triC with dst := false, minor := any, slot := any, extra := fun f => f.minor.toNat % 4 == 0 && f.minor.toNat / 4 != 3 }
  | .atom _ => some { triC with minor := any, ty := any, md := any, slot := any, extra := fun f => atomOk f && atomTy (f.minor.toNat % 8) f.ty }
  | .atomcas _ => some { triC with minor := fun m => m == 0 || m == 8, ty := tyU, md := any, slot := any, extra := atomOk }
  | .red _ => some { triC with dst := false, minor := any, ty := any, md := fun m => m == 0 || m == 4, slot := any, extra := fun f => atomOk f && atomTy (f.minor.toNat % 8) f.ty }
  | .fence _ => some { md := fun m => m == 2 || m == 4 || m == 6, slot := le 5 }
  | .racq _ => some { triC with sb := false, ty := tyU, md := le 1 }
  | .tcopy _ _ => some { wide with minor := fun m => m.toNat / 4 != 3, slot := le 3, sa := true, sb := true }
  | .tseal _ => some { minor := le 7 }
  | .tlay _ _ => some { wide with minor := is 0, sa := true }
  | .tlayGrid _ _ => some { wide with minor := is 1, sa := true }
  | .tcopyx _ _ => some { wide with minor := le 7, slot := le 3, sa := true, sb := true, sc := true }
  | .mma _ _ => some { wide with slot := any, sa := true, sb := true, sc := true }
  | .mzero _ => some { sa := true, sb := true }
  | .maccrd _ => some { imm96 with ty := isTy .f32, md := fun m => m.toNat / 2 != 3, dst := true, sa := true }
  | .maccwr _ => some { imm96 with ty := isTy .f32, md := fun m => m.toNat / 2 != 3 && m.toNat % 2 == 0, sa := true, sb := true, imm := .sc }
  | .bobj _ => some { imm96 with sa := true }
  | .bstat _ => some { dsa with minor := le 1, md := le 1 }
  | .jmp _ => some { imm96 with extra := noGuard }
  | .br _ => some imm96
  | .brx _ => some { sa := true }
  | .call _ => some { imm96 with minor := is 0, dst := true }
  | .callR _ => some { imm96 with minor := is 1, dst := true, sa := true, extra := fun f => f.imm == some 0 }
  | .ret _ => some { minor := is 0, sa := true }
  | .retFault _ => some { minor := is 1, extra := noGuard }
  | .exit _ => some {}
  | .barSync _ => some { minor := any, sa := true }
  | .park _ => some { sa := true }
  | .cbr _ _ => some { wide with minor := le 2, sa := true }
  | .mjoin _ => some { minor := any }
  | .mleave _ => some { minor := any }
  | .mvote _ => some { dsa with minor := any, md := le 1 }
  | .sfence _ => some {}
  | .ccoll _ _ => some { wide with minor := any, ty := any, slot := le 3, sa := true, sb := true, sc := true, extra := fun f => if f.minor.toNat % 4 == 0 || f.minor.toNat % 4 == 2 then f.minor.toNat / 4 == 0 && f.ty == .u8 else f.ty == .u32 || f.ty == .s32 || f.ty == .u64 || f.ty == .f32 || f.ty == .bf16 }
  | .sysr _ => some { minor := any, ty := tyU, md := any, slot := any, dst := true, extra := sysOk false }
  | .sysw _ => some { minor := any, ty := tyU, md := any, slot := any, sa := true, extra := fun f => sysOk true f && f.sysRow == 0 }
  | .tlbinv _ => some { minor := any, ty := tyU, md := any, slot := any, sa := true, extra := fun f => sysOk true f && f.sysRow == 1 }
  | .loopWrite _ => some { minor := any, ty := tyU, md := any, slot := any, sa := true, extra := fun f => sysOk true f && f.sysRow == 2 }
  | .msetWrite _ => some { minor := any, ty := tyU, md := any, slot := any, sa := true, extra := fun f => sysOk true f && f.sysRow == 3 }
  | .pgbudgetWrite _ => some { minor := any, ty := tyU, md := any, slot := any, sa := true, extra := fun f => sysOk true f && f.sysRow == 4 }
  | .beat _ => some { sa := true }
  | .launch _ => some { dsab with md := le 1 }
  | .trap _ => some { sa := true }
  | .brk _ => some {}
  | .nop _ => some {}
  | .hint _ => some { minor := any }
  | _ => none

/-- MAJOR of an instruction of the Amzais set (R63). -/
def Instr.major : Instr → BitVec 8
  | .iadd _ => 0x00
  | .isub _ => 0x01
  | .addc _ => 0x02
  | .imul _ => 0x03
  | .imulh _ => 0x04
  | .imad _ => 0x05
  | .iabs _ => 0x06
  | .ineg _ => 0x07
  | .imin _ => 0x08
  | .imax _ => 0x09
  | .iclamp _ => 0x0A
  | .shl _ => 0x0B
  | .shr _ => 0x0C
  | .sar _ => 0x0D
  | .rotl _ => 0x0E
  | .andOp _ => 0x0F
  | .orOp _ => 0x0F
  | .xorOp _ => 0x0F
  | .andn _ => 0x0F
  | .blut _ => 0x10
  | .popc _ => 0x11
  | .clz _ => 0x12
  | .ctz _ => 0x13
  | .brev _ => 0x14
  | .bfx _ => 0x15
  | .bfi _ => 0x16
  | .bperm _ => 0x17
  | .icmp _ => 0x18
  | .isel _ => 0x19
  | .lea _ => 0x1A
  | .mov _ => 0x1B
  | .movi _ => 0x1C
  | .tidx _ => 0x1D
  | .fadd _ => 0x20
  | .fsub _ => 0x21
  | .fmul _ => 0x22
  | .ffma _ => 0x23
  | .fmin _ => 0x24
  | .fmax _ => 0x25
  | .fcmp _ => 0x26
  | .fsel _ => 0x27
  | .fclass _ => 0x28
  | .frnd _ => 0x29
  | .hadd2 _ => 0x2A
  | .hmul2 _ => 0x2B
  | .hfma2 _ => 0x2C
  | .fdot2 _ => 0x2D
  | .fcvt _ => 0x40
  | .i2f _ => 0x41
  | .f2i _ => 0x42
  | .bxpack _ => 0x43
  | .bxunpack _ => 0x44
  | .hcvt _ => 0x45
  | .frcp _ => 0x46
  | .frsq _ => 0x47
  | .fsqrt _ => 0x48
  | .fex2 _ => 0x49
  | .flg2 _ => 0x4A
  | .fsin _ => 0x4B
  | .fcos _ => 0x4C
  | .ftanh _ => 0x4D
  | .vote _ => 0x50
  | .ballot _ => 0x51
  | .matchOp _ => 0x52
  | .shfl _ => 0x53
  | .scan _ => 0x54
  | .lred _ => 0x55
  | .lpart _ => 0x56
  | .umov _ => 0x57
  | .chopen _ => 0x58
  | .chclose _ => 0x59
  | .barArrive _ => 0x5A
  | .barWait _ => 0x5B
  | .dmake _ => 0x60
  | .dconst _ => 0x61
  | .dld _ => 0x62
  | .dst _ => 0x63
  | .dadd _ => 0x64
  | .dsub _ => 0x64
  | .dmul _ => 0x64
  | .dmax _ => 0x64
  | .dmin _ => 0x64
  | .dfma _ => 0x65
  | .dscale _ => 0x66
  | .doffs _ => 0x67
  | .dcond _ => 0x68
  | .dtag _ => 0x69
  | .dalign _ => 0x6A
  | .dmom _ => 0x6B
  | .dqnt _ => 0x6C
  | .dcdf _ => 0x6D
  | .dmix _ => 0x6E
  | .ld _ => 0x70
  | .st _ => 0x71
  | .ldc _ => 0x72
  | .pref _ => 0x73
  | .atom _ => 0x80
  | .atomcas _ => 0x81
  | .red _ => 0x82
  | .fence _ => 0x83
  | .racq _ => 0x84
  | .tcopy _ _ => 0x90
  | .tseal _ => 0x91
  | .tlay _ _ => 0x92
  | .tlayGrid _ _ => 0x92
  | .tcopyx _ _ => 0x93
  | .mma _ _ => 0xA0
  | .mzero _ => 0xA1
  | .maccrd _ => 0xA2
  | .maccwr _ => 0xA3
  | .bobj _ => 0xA4
  | .bstat _ => 0xA5
  | .jmp _ => 0xB0
  | .br _ => 0xB1
  | .brx _ => 0xB2
  | .call _ => 0xB3
  | .callR _ => 0xB3
  | .ret _ => 0xB4
  | .retFault _ => 0xB4
  | .exit _ => 0xB5
  | .barSync _ => 0xB6
  | .park _ => 0xB7
  | .cbr _ _ => 0xC0
  | .mjoin _ => 0xC1
  | .mleave _ => 0xC2
  | .mvote _ => 0xC3
  | .sfence _ => 0xC4
  | .ccoll _ _ => 0xC5
  | .sysr _ => 0xD0
  | .sysw _ => 0xD1
  | .tlbinv _ => 0xD1
  | .loopWrite _ => 0xD1
  | .msetWrite _ => 0xD1
  | .pgbudgetWrite _ => 0xD1
  | .beat _ => 0xD2
  | .launch _ => 0xD3
  | .trap _ => 0xD4
  | .brk _ => 0xD5
  | .nop _ => 0xD6
  | .hint _ => 0xD7
  | .unassignedOpcode _ m => m
  | _ => 0xFF

/-- The base-word fields of an instruction of the Amzais set. -/
def Instr.fields : Instr → Option Fields
  | .iadd f => some f
  | .isub f => some f
  | .addc f => some f
  | .imul f => some f
  | .imulh f => some f
  | .imad f => some f
  | .iabs f => some f
  | .ineg f => some f
  | .imin f => some f
  | .imax f => some f
  | .iclamp f => some f
  | .shl f => some f
  | .shr f => some f
  | .sar f => some f
  | .rotl f => some f
  | .andOp f => some f
  | .orOp f => some f
  | .xorOp f => some f
  | .andn f => some f
  | .blut f => some f
  | .popc f => some f
  | .clz f => some f
  | .ctz f => some f
  | .brev f => some f
  | .bfx f => some f
  | .bfi f => some f
  | .bperm f => some f
  | .icmp f => some f
  | .isel f => some f
  | .lea f => some f
  | .mov f => some f
  | .movi f => some f
  | .tidx f => some f
  | .fadd f => some f
  | .fsub f => some f
  | .fmul f => some f
  | .ffma f => some f
  | .fmin f => some f
  | .fmax f => some f
  | .fcmp f => some f
  | .fsel f => some f
  | .fclass f => some f
  | .frnd f => some f
  | .hadd2 f => some f
  | .hmul2 f => some f
  | .hfma2 f => some f
  | .fdot2 f => some f
  | .fcvt f => some f
  | .i2f f => some f
  | .f2i f => some f
  | .bxpack f => some f
  | .bxunpack f => some f
  | .hcvt f => some f
  | .frcp f => some f
  | .frsq f => some f
  | .fsqrt f => some f
  | .fex2 f => some f
  | .flg2 f => some f
  | .fsin f => some f
  | .fcos f => some f
  | .ftanh f => some f
  | .vote f => some f
  | .ballot f => some f
  | .matchOp f => some f
  | .shfl f => some f
  | .scan f => some f
  | .lred f => some f
  | .lpart f => some f
  | .umov f => some f
  | .chopen f => some f
  | .chclose f => some f
  | .barArrive f => some f
  | .barWait f => some f
  | .dmake f => some f
  | .dconst f => some f
  | .dld f => some f
  | .dst f => some f
  | .dadd f => some f
  | .dsub f => some f
  | .dmul f => some f
  | .dmax f => some f
  | .dmin f => some f
  | .dfma f => some f
  | .dscale f => some f
  | .doffs f => some f
  | .dcond f => some f
  | .dtag f => some f
  | .dalign f => some f
  | .dmom f => some f
  | .dqnt f => some f
  | .dcdf f => some f
  | .dmix f => some f
  | .ld f => some f
  | .st f => some f
  | .ldc f => some f
  | .pref f => some f
  | .atom f => some f
  | .atomcas f => some f
  | .red f => some f
  | .fence f => some f
  | .racq f => some f
  | .tcopy f _ => some f
  | .tseal f => some f
  | .tlay f _ => some f
  | .tlayGrid f _ => some f
  | .tcopyx f _ => some f
  | .mma f _ => some f
  | .mzero f => some f
  | .maccrd f => some f
  | .maccwr f => some f
  | .bobj f => some f
  | .bstat f => some f
  | .jmp f => some f
  | .br f => some f
  | .brx f => some f
  | .call f => some f
  | .callR f => some f
  | .ret f => some f
  | .retFault f => some f
  | .exit f => some f
  | .barSync f => some f
  | .park f => some f
  | .cbr f _ => some f
  | .mjoin f => some f
  | .mleave f => some f
  | .mvote f => some f
  | .sfence f => some f
  | .ccoll f _ => some f
  | .sysr f => some f
  | .sysw f => some f
  | .tlbinv f => some f
  | .loopWrite f => some f
  | .msetWrite f => some f
  | .pgbudgetWrite f => some f
  | .beat f => some f
  | .launch f => some f
  | .trap f => some f
  | .brk f => some f
  | .nop f => some f
  | .hint f => some f
  | _ => none

/-- The extension's bits [127:64] (R54). -/
def Instr.extBits : Instr → BitVec 64
  | .tcopy _ x => x.bits
  | .tlay _ x => x.bits
  | .tlayGrid _ x => x.bits
  | .tcopyx _ x => x.bits
  | .mma _ x => x.bits
  | .cbr _ x => x.bits
  | .ccoll _ x => x.bits
  | _ => 0

/-- The instruction a MAJOR and MINOR name (R63), whatever its other fields hold; none for a reserved MAJOR. -/
def select (major : BitVec 8) (f : Fields) (x : BitVec 64) : Option Instr :=
  match major.toNat with
  | 0x00 => some (.iadd f)
  | 0x01 => some (.isub f)
  | 0x02 => some (.addc f)
  | 0x03 => some (.imul f)
  | 0x04 => some (.imulh f)
  | 0x05 => some (.imad f)
  | 0x06 => some (.iabs f)
  | 0x07 => some (.ineg f)
  | 0x08 => some (.imin f)
  | 0x09 => some (.imax f)
  | 0x0A => some (.iclamp f)
  | 0x0B => some (.shl f)
  | 0x0C => some (.shr f)
  | 0x0D => some (.sar f)
  | 0x0E => some (.rotl f)
  | 0x0F => some (match f.minor.toNat with | 1 => (.orOp f) | 2 => (.xorOp f) | 3 => (.andn f) | _ => (.andOp f))
  | 0x10 => some (.blut f)
  | 0x11 => some (.popc f)
  | 0x12 => some (.clz f)
  | 0x13 => some (.ctz f)
  | 0x14 => some (.brev f)
  | 0x15 => some (.bfx f)
  | 0x16 => some (.bfi f)
  | 0x17 => some (.bperm f)
  | 0x18 => some (.icmp f)
  | 0x19 => some (.isel f)
  | 0x1A => some (.lea f)
  | 0x1B => some (.mov f)
  | 0x1C => some (.movi f)
  | 0x1D => some (.tidx f)
  | 0x20 => some (.fadd f)
  | 0x21 => some (.fsub f)
  | 0x22 => some (.fmul f)
  | 0x23 => some (.ffma f)
  | 0x24 => some (.fmin f)
  | 0x25 => some (.fmax f)
  | 0x26 => some (.fcmp f)
  | 0x27 => some (.fsel f)
  | 0x28 => some (.fclass f)
  | 0x29 => some (.frnd f)
  | 0x2A => some (.hadd2 f)
  | 0x2B => some (.hmul2 f)
  | 0x2C => some (.hfma2 f)
  | 0x2D => some (.fdot2 f)
  | 0x40 => some (.fcvt f)
  | 0x41 => some (.i2f f)
  | 0x42 => some (.f2i f)
  | 0x43 => some (.bxpack f)
  | 0x44 => some (.bxunpack f)
  | 0x45 => some (.hcvt f)
  | 0x46 => some (.frcp f)
  | 0x47 => some (.frsq f)
  | 0x48 => some (.fsqrt f)
  | 0x49 => some (.fex2 f)
  | 0x4A => some (.flg2 f)
  | 0x4B => some (.fsin f)
  | 0x4C => some (.fcos f)
  | 0x4D => some (.ftanh f)
  | 0x50 => some (.vote f)
  | 0x51 => some (.ballot f)
  | 0x52 => some (.matchOp f)
  | 0x53 => some (.shfl f)
  | 0x54 => some (.scan f)
  | 0x55 => some (.lred f)
  | 0x56 => some (.lpart f)
  | 0x57 => some (.umov f)
  | 0x58 => some (.chopen f)
  | 0x59 => some (.chclose f)
  | 0x5A => some (.barArrive f)
  | 0x5B => some (.barWait f)
  | 0x60 => some (.dmake f)
  | 0x61 => some (.dconst f)
  | 0x62 => some (.dld f)
  | 0x63 => some (.dst f)
  | 0x64 => some (match f.minor.toNat with | 1 => (.dsub f) | 2 => (.dmul f) | 3 => (.dmax f) | 4 => (.dmin f) | _ => (.dadd f))
  | 0x65 => some (.dfma f)
  | 0x66 => some (.dscale f)
  | 0x67 => some (.doffs f)
  | 0x68 => some (.dcond f)
  | 0x69 => some (.dtag f)
  | 0x6A => some (.dalign f)
  | 0x6B => some (.dmom f)
  | 0x6C => some (.dqnt f)
  | 0x6D => some (.dcdf f)
  | 0x6E => some (.dmix f)
  | 0x70 => some (.ld f)
  | 0x71 => some (.st f)
  | 0x72 => some (.ldc f)
  | 0x73 => some (.pref f)
  | 0x80 => some (.atom f)
  | 0x81 => some (.atomcas f)
  | 0x82 => some (.red f)
  | 0x83 => some (.fence f)
  | 0x84 => some (.racq f)
  | 0x90 => some (.tcopy f (CopyExt.ofBits x))
  | 0x91 => some (.tseal f)
  | 0x92 => some (match f.minor.toNat with | 1 => (.tlayGrid f (GridExt.ofBits x)) | _ => (.tlay f (TlayExt.ofBits x)))
  | 0x93 => some (.tcopyx f (CopyExt.ofBits x))
  | 0xA0 => some (.mma f (MmaExt.ofBits x))
  | 0xA1 => some (.mzero f)
  | 0xA2 => some (.maccrd f)
  | 0xA3 => some (.maccwr f)
  | 0xA4 => some (.bobj f)
  | 0xA5 => some (.bstat f)
  | 0xB0 => some (.jmp f)
  | 0xB1 => some (.br f)
  | 0xB2 => some (.brx f)
  | 0xB3 => some (match f.minor.toNat with | 1 => (.callR f) | _ => (.call f))
  | 0xB4 => some (match f.minor.toNat with | 1 => (.retFault f) | _ => (.ret f))
  | 0xB5 => some (.exit f)
  | 0xB6 => some (.barSync f)
  | 0xB7 => some (.park f)
  | 0xC0 => some (.cbr f (CbrExt.ofBits x))
  | 0xC1 => some (.mjoin f)
  | 0xC2 => some (.mleave f)
  | 0xC3 => some (.mvote f)
  | 0xC4 => some (.sfence f)
  | 0xC5 => some (.ccoll f (CcollExt.ofBits x))
  | 0xD0 => some (.sysr f)
  | 0xD1 => some (match f.sysRow with | 0 => .sysw f | 1 => .tlbinv f | 2 => .loopWrite f | 3 => .msetWrite f | _ => .pgbudgetWrite f)
  | 0xD2 => some (.beat f)
  | 0xD3 => some (.launch f)
  | 0xD4 => some (.trap f)
  | 0xD5 => some (.brk f)
  | 0xD6 => some (.nop f)
  | 0xD7 => some (.hint f)
  | _ => none
/-! ## Decoding -/

/-- Why a body word is no instruction its entry accepts. Each raises an illegal-encoding fault (R64 steps 1 to 3, R13). -/
inductive Reject where
  /-- fewer bytes than the word's length -/
  | truncated
  /-- LEN = 0b11 in a body (R13) -/
  | headerInBody
  /-- LEN is not one of the entry's lengths (R72) -/
  | badLength
  | badMinor
  | badType
  | badMod
  | badSlot
  /-- an unused specifier field, or the one IMM32 replaces, does not hold 0x1FF (R53, R55) -/
  | fieldNotEmpty
  /-- a reserved bit of the extension is set (R54) -/
  | extensionReserved
  /-- a combination of field values the entry does not accept -/
  | badCombination
  /-- a word of the firmware harts that is no Xamz instruction (R364) -/
  | notXamz
  deriving DecidableEq, Repr, Inhabited

/-- One fetched body word: LEN, the base word and bits [127:64] (IMM32 in the low half of a 96-bit form). -/
structure Raw where
  base : DWord
  ext : DWord
  deriving DecidableEq, Repr, Inhabited

namespace Raw
def len (r : Raw) : BitVec 2 := r.base.extractLsb' 0 2
def major (r : Raw) : BitVec 8 := r.base.extractLsb' 2 8
def guard (r : Raw) : Guard := ⟨r.base.extractLsb' 14 3, r.base.getLsbD 17⟩
/-- Terminators by MAJOR (R62). -/
def isTerm (r : Raw) : Bool := (0xB0 ≤ r.major.toNat && r.major.toNat ≤ 0xB7) || r.major == 0xC0
/-- Bytes by which the fetch address advances (R12). -/
def size (r : Raw) : Nat := if r.len == 0 then 8 else 16
end Raw

/-- The fields of a base word (R52); none when TYPE is reserved (R27). -/
def Fields.ofRaw (r : Raw) : Option Fields :=
  match Ty.ofCode (r.base.extractLsb' 60 4) with
  | none => none
  | some t => some
    { guard := r.guard, minor := r.base.extractLsb' 10 4, ty := t, md := r.base.extractLsb' 57 3,
      slot := r.base.extractLsb' 54 3, dst := Operand.ofSpec (r.base.extractLsb' 18 9),
      sa := Operand.ofSpec (r.base.extractLsb' 27 9), sb := Operand.ofSpec (r.base.extractLsb' 36 9),
      sc := Operand.ofSpec (r.base.extractLsb' 45 9), imm := if r.len == 1 then some (r.ext.extractLsb' 0 32) else none }

/-- The first breach of R64 steps 1 to 3 that the fields show, for a word of length LEN. -/
def Form.breach (k : Form) (len : BitVec 2) (f : Fields) : Option Reject :=
  if !((len == 0 && k.len64) || (len == 1 && k.len96) || (len == 2 && k.len128)) then some .badLength
  else if !k.minor f.minor then some .badMinor
  else if !k.ty f.ty then some .badType
  else if !k.md f.md then some .badMod
  else if !k.slot f.slot then some .badSlot
  else if !(k.dst || f.dst == .none) || !(k.sa || f.sa == .none)
      || !((k.sb && !(len == 1 && k.imm == .sb)) || f.sb == .none)
      || !((k.sc && !(len == 1 && k.imm == .sc)) || f.sc == .none) then some .fieldNotEmpty
  else if !k.extra f then some .badCombination
  else none

/-- LEN of the word that carries an instruction: 128 bits for a form that has an extension, 96 for one with IMM32. -/
def Instr.lenCode (i : Instr) : BitVec 2 :=
  match i.form, i.fields with
  | some k, some f => if k.len128 then 2 else if f.imm.isSome then 1 else 0
  | _, _ => 0

/-- Breaches of the extension: deltas of a `ccoll` other than `.put` (R393). -/
def Instr.extBreach : Instr → Option Reject
  | .ccoll f x =>
    if f.minor.toNat % 4 != 0 && !(x.dx == 0 && x.dy == 0 && x.dz == 0) then some .badCombination else none
  | _ => none

/-- Decodes one body word. A reserved MAJOR is the row UNASSIGNED_OPCODE; every other breach is rejected by name. -/
def decodeRaw (r : Raw) : Except Reject Instr :=
  if r.len == 3 then .error .headerInBody
  else
    match Fields.ofRaw r with
    | none =>
      match select r.major default 0 with
      | none => .ok (.unassignedOpcode r.guard r.major)
      | some _ => .error .badType
    | some f =>
      match select r.major f r.ext with
      | none => .ok (.unassignedOpcode r.guard r.major)
      | some i =>
        match i.form with
        | none => .error .badCombination
        | some k =>
          match k.breach r.len f with
          | some b => .error b
          | none =>
            if r.len == 2 && i.extBits != r.ext then .error .extensionReserved
            else
              match i.extBreach with
              | some b => .error b
              | none => .ok i

/-- Little-endian number of a list of bytes (R5). -/
def leNat : List Byte → Nat
  | [] => 0
  | b :: r => b.toNat + 256 * leNat r

/-- The first n bytes of a number, little-endian (R5). -/
def leBytes : Nat → Nat → List Byte
  | 0, _ => []
  | n + 1, x => BitVec.ofNat 8 x :: leBytes n (x / 256)

/-- The body word that stands at the head of a list of bytes, with the bytes that follow it. -/
def rawOfBytes (bs : List Byte) : Except Reject (Raw × List Byte) :=
  if bs.length < 8 then .error .truncated
  else
    let base : DWord := BitVec.ofNat 64 (leNat (bs.take 8))
    let l := base.extractLsb' 0 2
    if l == 0 || l == 3 then .ok (⟨base, 0⟩, bs.drop 8)
    else if bs.length < 16 then .error .truncated
    else
      let e := leNat ((bs.drop 8).take 8)
      -- the core does not read the fill word of a 96-bit form (R12)
      let ext : DWord := if l == 1 then BitVec.ofNat 64 (e % 2 ^ 32) else BitVec.ofNat 64 e
      .ok (⟨base, ext⟩, bs.drop 16)

/-- The decoder on bytes: the instruction at the head of the list and the bytes after it. -/
def decode (bs : List Byte) : Except Reject (Instr × List Byte) :=
  match rawOfBytes bs with
  | .error e => .error e
  | .ok (r, rest) =>
    match decodeRaw r with
    | .error e => .error e
    | .ok i => .ok (i, rest)

/-- Decodes a 32-bit word of a firmware hart (R364): RISC-V custom-0, R-type. -/
def decodeAmz (w : BitVec 32) : Except Reject Instr :=
  let rd := w.extractLsb' 7 5
  let rs1 := w.extractLsb' 15 5
  let rs2 := w.extractLsb' 20 5
  let f7 := (w.extractLsb' 25 7).toNat
  if w.extractLsb' 0 7 != 0x0B then .error .notXamz
  else
    match (w.extractLsb' 12 3).toNat with
    | 0 => if f7 == 0 then .ok (.amzQfetch rd rs1 rs2) else .error .notXamz
    | 1 => if f7 == 0 then .ok (.amzBfx rd rs1 rs2) else if f7 == 1 then .ok (.amzBfxS rd rs1 rs2) else .error .notXamz
    | 2 => if f7 < 4 then .ok (.amzSigwait (BitVec.ofNat 2 f7) rd rs1 rs2) else .error .notXamz
    | 3 => if f7 == 0 then .ok (.amzDispatch rd rs1 rs2) else .error .notXamz
    | _ => .error .notXamz

/-- Whether a table word belongs to the firmware harts' 32-bit set. -/
def isAmzWord (nbits w : Nat) : Bool := nbits ≤ 32 && w % 128 == 0x0B

/-- The instruction the decoder reads from a word numbered as spec/opcode_table.json numbers it. -/
def decodeTableWord (nbits w : Nat) : Option Instr :=
  if isAmzWord nbits w then (decodeAmz (BitVec.ofNat 32 (leNat (leBytes 4 w)))).toOption
  else
    match decode (leBytes 16 w) with
    | .ok (i, _) => some i
    | .error _ => none

/-! ## Encoding -/

/-- The base word of an instruction from its fields (R52). -/
def encodeBase (len : BitVec 2) (major : BitVec 8) (f : Fields) : DWord :=
  BitVec.ofNat 64 (len.toNat + 2 ^ 2 * major.toNat + 2 ^ 10 * f.minor.toNat + 2 ^ 14 * f.guard.pred.toNat
    + 2 ^ 17 * b2n f.guard.neg + 2 ^ 18 * f.dst.toSpec.toNat + 2 ^ 27 * f.sa.toSpec.toNat
    + 2 ^ 36 * f.sb.toSpec.toNat + 2 ^ 45 * f.sc.toSpec.toNat + 2 ^ 54 * f.slot.toNat + 2 ^ 57 * f.md.toNat
    + 2 ^ 60 * f.ty.code.toNat)

/-- The body word of an instruction of the Amzais set; none for an event and for a word no entry accepts. -/
def encodeRaw (i : Instr) : Option Raw :=
  match i.fields with
  | none => none
  | some f =>
    let l := i.lenCode
    some ⟨encodeBase l i.major f, if l == 2 then i.extBits else if l == 1 then BitVec.ofNat 64 (f.imm.getD 0).toNat else 0⟩

/-- The 32-bit word of an Xamz instruction (R364). -/
def encodeAmz : Instr → Option (BitVec 32)
  | .amzQfetch rd a b => some (amz 0 0 rd a b)
  | .amzBfx rd a b => some (amz 1 0 rd a b)
  | .amzBfxS rd a b => some (amz 1 1 rd a b)
  | .amzSigwait c rd a b => some (amz 2 c.toNat rd a b)
  | .amzDispatch rd a b => some (amz 3 0 rd a b)
  | _ => none
where
  amz (f3 f7 : Nat) (rd a b : BitVec 5) : BitVec 32 :=
    BitVec.ofNat 32 (0x0B + 2 ^ 7 * rd.toNat + 2 ^ 12 * f3 + 2 ^ 15 * a.toNat + 2 ^ 20 * b.toNat + 2 ^ 25 * f7)

/-- The bytes of an instruction in memory, the fill word of a 96-bit form written as zero (R12). -/
def encode (i : Instr) : Option (List Byte) :=
  match encodeAmz i with
  | some w => some (leBytes 4 w.toNat)
  | none =>
    match encodeRaw i with
    | none => none
    | some r => some (if r.len == 0 then leBytes 8 r.base.toNat else leBytes 8 r.base.toNat ++ leBytes 8 r.ext.toNat)

end Sys2Proof
end

