-- ==== Sys2Proof/Machine/State.lean ====
section
/-!
DEFINITION. The state of one Tirelaquin B9 device as plain data, and State.reset. The state the spec gives a unit stands in
the record of that unit; INVENTORY.md lists each with its rule. Sparse tables are lists of (key, value) in rising key order.
-/
namespace Sys2Proof.Machine

/-- A sparse table, keys rising, no key twice. -/
abbrev Tbl (α : Type) := List (Nat × α)

/-! ## Faults and refusals of the model -/

/-- Stops of the machine. -/
inductive Fault where
  /-- Raised by an instruction that is executed while no pass stands on the pipe that has the turn: no run of `step` does
  so, since a pipe without a pass forms one. Safe. -/
  | noPass
  deriving DecidableEq, Repr, Inhabited

/-- Refusals of the machine. -/
inductive Refusal where
  /-- Raised by exec for an instruction whose meaning is not written yet. Safe. -/
  | notModelled (mnemonic : String)
  deriving DecidableEq, Repr, Inhabited

/-! ## Faults of the device (R22, R24) -/

/-- A fault about to be delivered: code, FINFO and FADDR (R22, R23). -/
structure FaultInfo where
  code : BitVec 8
  finfo : Word
  faddr : DWord
  deriving DecidableEq, Repr, Inhabited

/-! ## Threads -/

/-- A failed copy as a token reports it (R300, R301, R399); `stamp` orders failures in time. -/
structure CopyErr where
  code : BitVec 8
  finfo : Word
  faddr : DWord
  stamp : Nat
  deriving DecidableEq, Repr, Inhabited

/-- What a thread does between instructions. -/
inductive Place where
  /-- has no position to enter: exited, or stopped with its context -/
  | out
  /-- its bit is set in the entry of its position (R165) -/
  | entry
  /-- in the overflow bin (R167) -/
  | bin
  /-- in the pass of a pipe (R170) -/
  | pass (pipe : Nat)
  /-- waits at its `cbr` for a result (R412) -/
  | vote
  /-- stopped on a speculative path, or holds a fault there (R419, R422) -/
  | held
  deriving DecidableEq, Repr, Inhabited

/-- One thread (R9 and the chapters that add to it). -/
structure Thread where
  v : Tbl Word := []
  vPoison : Tbl Bool := []
  t : Tbl Word := []
  tvalid : BitVec 8 := 0
  preds : BitVec 7 := 0
  flags : Tbl Nat := []
  d : Tbl (BitVec 512) := []
  dPoison : Tbl Bool := []
  fpst : BitVec 5 := 0
  dst : BitVec 5 := 0
  linctr : BitVec 12 := 1
  clkh : Word := 0
  pos : DWord := 0
  priv : Bool := false
  hnd : Bool := false
  fcode : BitVec 8 := 0
  frame : BitVec 512 := 0
  exited : Bool := false
  place : Place := .out
  park : Nat := 0
  barArrived : BitVec 16 := 0
  barWait : Tbl (BitVec 16) := []
  /-- copies not yet ended that the thread holds: copy number, and the batch it is sealed into or none for the open set -/
  copies : Tbl (Option Nat) := []
  openErr : Option CopyErr := none
  batchErr : Tbl CopyErr := []
  /-- a membership fault an aborted `mvote` left for the header that waits on the flag (R427) -/
  flagFault : Tbl FaultInfo := []
  /-- SPEC, NCL and MREG of SPECST (R430) -/
  spec : Bool := false
  ncl : Nat := 0
  specReg : Nat := 0
  stopped : Bool := false
  heldFault : Option FaultInfo := none
  heldBeats : Nat := 0
  /-- a release fence of gang or team scope precedes the thread's next writes, which then act as releases (R266, R279) -/
  relFence : Bool := false
  deriving DecidableEq, Repr, Inhabited

/-! ## Gangs -/

/-- A run-ahead in progress (R418, R420): register, predicted direction, the executing lanes' slots, the two successors,
the `cbr`'s clause and index, and the snapshot. -/
structure GangSpec where
  reg : Nat
  seq : BitVec 16
  dir : Bool
  lanes : List Nat
  target : DWord
  ft : DWord
  clause : DWord
  idx : Nat
  snap : Tbl Thread
  snapG : Tbl Word
  snapTw : Nat
  /-- a squash under way (R423): 0 or 1 the result, 2 aborted, 3 mismatch -/
  squash : Option Nat := none
  deriving DecidableEq, Repr, Inhabited

/-- A gang's outstanding vote without run-ahead: register, sequence, the lanes that wait, the successors, and for `mvote`
the destination, flag and lanes. -/
structure VoteWait where
  reg : Nat
  seq : BitVec 16
  lanes : List Nat
  target : DWord
  ft : DWord
  clause : DWord
  idx : Nat
  /-- none for `cbr`; for `mvote`: the destination v register if any, and the flag -/
  mvote : Option (Option Nat × Nat)
  deriving DecidableEq, Repr, Inhabited

/-- Channel reservations a gang holds in a pass (R178): entry numbers reserved for reading and for writing, and whether the
instruction that uses each has executed. -/
structure Resv where
  rd : Option Nat := none
  wr : Option Nat := none
  rdDone : Bool := false
  wrDone : Bool := false
  /-- numbers in their gang of the lanes a cut took it from, which resume with it (R179) -/
  lanes : List Nat := []
  /-- channels that `chclose` named before a cut (R179, R194) -/
  closing : List Nat := []
  /-- header of the clause whose pass a cut took it from: it names the channels (R179) -/
  hdr : DWord := 0
  deriving DecidableEq, Repr, Inhabited

structure Gang where
  team : Nat
  num : Nat
  g : Tbl Word := []
  tw : Nat := 5
  bndmask : Word := 0
  /-- the pass number whose bounds faults BNDMASK records (R262) -/
  bndPass : Nat := 0
  mj : BitVec 16 := 0
  wait : BitVec 16 := 0
  /-- registers whose sequence it voted in a `sysw` ended before it took the outcome (R408) -/
  voided : BitVec 16 := 0
  gseq : Tbl (BitVec 16) := []
  drop : Tbl (BitVec 2) := []
  spec : Option GangSpec := none
  votes : List VoteWait := []
  /-- what a cut pass kept, by the position its threads resume at (R179) -/
  kept : List (DWord × Resv) := []
  deriving DecidableEq, Repr, Inhabited

/-! ## Teams -/

/-- State of a channel position (R178). -/
inductive ChanSt where
  | pending | filled | reading
  deriving DecidableEq, Repr, Inhabited

/-- One FIFO position of a channel: its number, state and 32 words. -/
structure ChanEntry where
  id : Nat
  st : ChanSt
  data : Tbl Word
  deriving DecidableEq, Repr, Inhabited

/-- A channel (R178, R193). -/
structure Chan where
  fifo : List ChanEntry := []
  pmask : Word := 0
  opened : Bool := false
  next : Nat := 0
  deriving DecidableEq, Repr, Inhabited

/-- A barrier (R196). -/
structure Barrier where
  gen : BitVec 16 := 0
  set : Bool := false
  fixed : Bool := false
  exp : Nat := 0
  arr : Nat := 0
  deriving DecidableEq, Repr, Inhabited

/-- States of a copy (R286). -/
inductive CopySt where
  | collecting | checking | leave | queued | delivering | completed | failed
  deriving DecidableEq, Repr, Inhabited

/-- The slice of one gang (R292): bases of source, destination and metadata. -/
structure Slice where
  src : DWord
  dst : DWord
  aux : DWord
  deriving DecidableEq, Repr, Inhabited

/-- Which copy instruction (R291, R296, R393). -/
inductive CopyKind where
  /-- direction -/
  | plain (dir : Nat)
  /-- direction, and whether it compacts (`.cmp`) -/
  | sparse (dir : Nat) (cmp : Bool)
  /-- a collective: kind, algorithm requested, TYPE, membership register, grid deltas -/
  | coll (kind alg : Nat) (ty : Ty) (reg : Nat) (dx dy dz : Int)
  deriving DecidableEq, Repr, Inhabited

/-- What a collective adds to its copy (R394 to R404). Ranks are those of the group, from 0. Stream r is the tile of rank r,
stream 512 the reduced tile; partner 512 is the switch of a chunk. -/
structure Coll where
  /-- the collective's count k on its channel (R396) -/
  k : Nat := 0
  /-- this member's rank, the group's size and first rank-table entry, and the ranks of the sub-group -/
  rank : Nat := 0
  size : Nat := 1
  base : Nat := 0
  group : List Nat := []
  /-- ranks whose set-up has arrived and agreed, and the number each chose for its tags -/
  setups : Tbl Nat := []
  /-- the algorithm of ALGU (R398), once it is fixed -/
  algo : Option Nat := none
  fallback : Bool := false
  /-- switch slots asked for and not answered, and slots granted (R402) -/
  asking : List Nat := []
  grants : List Nat := []
  /-- segments held: (stream, chunk, segment) with its bytes -/
  landed : List ((Nat × Nat × Nat) × List Byte) := []
  /-- chunks a reducer or a link of the chain has dealt with -/
  reduced : List Nat := []
  /-- chunk messages sent and not acknowledged: (partner, stream, chunk) -/
  unacked : List (Nat × Nat × Nat) := []
  /-- timebase from which a partner's acknowledgements have been awaited without a break (R403) -/
  sentAt : Tbl Nat := []
  /-- acknowledgements to send once the destination is written: partner, stream, chunk -/
  owed : List (Nat × Nat × Nat) := []
  sent : Bool := false
  /-- ranks lost (R403), and the rank whose failure failed the collective (R399) -/
  gone : List Nat := []
  /-- ranks lost under the switch whose contributions may still be in its results: timebase at the loss (R404) -/
  doubt : Tbl Nat := []
  /-- timebase at which the set-up exchange ended, and later at which the algorithm was fixed (R403) -/
  fixedAt : Nat := 0
  /-- timebase at its set-up, and at the last message from each rank (R403) -/
  since : Nat := 0
  heard : Tbl Nat := []
  failing : Option Nat := none
  deriving DecidableEq, Repr, Inhabited

/-- A copy or collective (R285, R286, R292). -/
structure Copy where
  id : Nat
  team : Nat
  chan : Nat
  num : Nat
  kind : CopyKind
  policy : Nat
  lyS : BitVec 256
  lyD : BitVec 256
  lySn : BitVec 3
  lyDn : BitVec 3
  all : Bool
  producer : Bool
  aux : DWord
  /-- privilege of the lane that supplied the first slice (log entry 22) -/
  user : Bool
  slices : Tbl Slice := []
  st : CopySt := .collecting
  /-- place in the order in which copies became ready on their TCU channel (R285) -/
  ready : Option Nat := none
  /-- the tokens that hold it have been told of its end -/
  told : Bool := false
  /-- units already written, and the write pointer (R302) -/
  unit : Nat := 0
  wp : Nat := 0
  /-- the cluster whose TCU delivers it: that stays when its team migrates (R354) -/
  tcu : Option Nat := none
  mismatch : Bool := false
  /-- words of the runs of eight under way on its scratchpad sides, source and destination (R304) -/
  srcRun : List Nat := []
  dstRun : List Nat := []
  err : Option CopyErr := none
  coll : Option Coll := none
  deriving DecidableEq, Repr, Inhabited

structure Team where
  grid : Nat
  num : Nat
  lcore : Nat
  /-- the home core: leader of a paired team -/
  core : Nat
  /-- the logical core under which the team is saved: that of the placement map (R350) -/
  home : Nat := 0
  footprint : Nat
  scratch : Tbl Byte := []
  chans : Tbl Chan := []
  bars : Tbl Barrier := []
  ly : Tbl (BitVec 256) := []
  /-- passes of each gang with a copy instruction on each channel: 4·gang + channel (R292) -/
  joined : Tbl Nat := []
  /-- copies started on each channel -/
  started : Tbl Nat := []
  chseq : Tbl (BitVec 8) := []
  collCount : Tbl Nat := []
  bankconf : Word := 0
  teamest : Word := 0
  deriving DecidableEq, Repr, Inhabited

/-! ## Grids -/

/-- A launch (R208, R216): the record's fields, the front end's copies of the tables, and progress. -/
structure Grid where
  ctx : Nat
  queue : Nat
  code : DWord
  entry : Word
  gx : Nat
  gy : Nat
  gz : Nat
  tx : Nat
  ty : Nat
  tz : Nat
  pgangs : Nat
  cgangs : Nat
  pregs : Nat
  cregs : Nat
  scrsize : Nat
  dregs : Nat
  chans : Nat
  policy : Nat
  l1fuse : Bool
  coop : Bool
  restart : Bool
  paired : Bool
  args : DWord
  slots : Tbl DWord
  /-- 128 bytes an entry (R87) -/
  shapes : List (BitVec 1024)
  traps : Tbl DWord
  place : List Nat
  signal : DWord
  prio : Nat
  /-- teams not yet placed, and teams placed and not ended -/
  unplaced : List Nat
  live : List Nat
  visible : Bool := false
  deriving DecidableEq, Repr, Inhabited

/-! ## Cores -/

/-- One entry of the waiting-vector table (R165): the key is a position word, the vector a list of thread slots. -/
structure WvtEntry where
  pos : DWord
  age : Nat
  prio : Nat
  policy : Nat
  spin : Bool
  slots : List Nat
  deriving DecidableEq, Repr, Inhabited

/-- One continuation record (R167). -/
structure ContRec where
  pos : DWord
  park : Nat
  seq : Nat
  slot : Nat
  deriving DecidableEq, Repr, Inhabited

/-- A pass on a pipe (R170, R171, R179). -/
structure Pass where
  /-- the pass's own number, for BNDMASK and the refresh of its temporaries -/
  id : Nat
  clause : DWord
  hdr : DWord
  /-- index the pass started at: 0, or the resume point of a mid-clause pass -/
  start : Nat
  idx : Nat
  /-- body words as fetched on entry -/
  body : List Raw
  /-- thread slots still in the pass, ascending -/
  slots : List Nat
  resv : Tbl Resv := []
  refreshed : Bool := false
  /-- time at which the pass began or resumed, in ps (R17, R25) -/
  since : Nat := 0
  /-- its next instruction waits on something another agent must bring (R19) -/
  stalled : Bool := false
  /-- channels to close when the pass ends: (gang slot, channel) (R194) -/
  closing : List (Nat × Nat) := []
  deriving DecidableEq, Repr, Inhabited

/-- A long-latency operation issued and not complete (R18, R21): the slot, the flag, and per destination word the v
register, the value and its poison. -/
structure Pending where
  id : Nat
  slot : Nat
  flag : Nat
  words : List (Nat × Word × Bool)
  /-- a system register read whose value is bound when it completes (R129) -/
  late : Option Nat := none
  /-- issued on a speculative path (R420) -/
  spec : Bool := false
  deriving DecidableEq, Repr, Inhabited

/-- An operand of a matrix operation: descriptor words and where it lies (R308, R310). -/
structure MmaOperand where
  base : DWord
  pitch : Nat
  soff : Int
  glob : Bool
  slot : DWord
  deriving DecidableEq, Repr, Inhabited

/-- An entry of the matrix FIFO (R312). -/
inductive FifoOp where
  | mzero (first count : Nat)
  /-- `user` is the posting lane's privilege, under which the tile fetch unit translates -/
  | mma (m n ksteps cbase : Nat) (acc had pair user : Bool) (a b : MmaOperand) (barrier : Nat)
  deriving DecidableEq, Repr, Inhabited

/-- A posted matrix operation and its progress. -/
structure FifoEntry where
  id : Nat
  team : Nat
  op : FifoOp
  /-- the follower's copy of a paired operation (R309) -/
  follower : Bool := false
  started : Bool := false
  /-- leave: 0 not asked, 1 queued, 2 granted (R325) -/
  leave : Nat := 0
  /-- status bits of R321 collected, and the first TFU fault's address -/
  status : BitVec 16 := 0
  cfaddr : DWord := 0
  /-- steps whose operand lines have been read: the array can do them (R316, R347) -/
  ready : Nat := 0
  /-- operand lines the tile fetch unit has fetched, of those its steps read in order, and the lines it holds pinned: the virtual
  line and the physical one (R316) -/
  fetched : Nat := 0
  pins : List (Nat × Nat) := []
  /-- operand words read ahead of the arrival: in global memory or not, address / 4, and the bytes with their errors (R314) -/
  early : List ((Bool × Nat) × List (Byte × Bool)) := []
  /-- accumulators of the operation, as i·N + j, that an error of the array poisons (R315) -/
  spoiled : List Nat := []
  deriving DecidableEq, Repr, Inhabited

/-- A held store (R421). -/
structure SshEntry where
  /-- program order within the gang -/
  seq : Nat
  gslot : Nat
  /-- 0 global (physical), 1 scratchpad -/
  space : Nat
  block : Nat
  key : Nat
  /-- some store merged into the entry had policy `byp` -/
  byp : Bool
  mask : BitVec 32
  data : BitVec 256
  deriving DecidableEq, Repr, Inhabited

/-- A line of a core's L1 portion (R244, R255, R269). -/
structure L1Line where
  line : Nat
  key : Nat
  ctx : Nat
  const : Bool
  data : BitVec 512
  dirty : BitVec 64
  bad : BitVec 16
  /-- brought in or used under `strm`: first for eviction (R125) -/
  first : Bool := false
  /-- the MODEL's own: when it was used last, by the core's count of L1 uses (log entry 79) -/
  use : Nat := 0
  deriving DecidableEq, Repr, Inhabited

/-- A cached translation (R259): context, page number and size in bits, and the leaf's facts. -/
structure TlbEntry where
  ctx : Nat
  page : Nat
  bits : Nat
  /-- size of its stage-1 page, which TLBINV names (R260) -/
  bits1 : Nat
  pa : Nat
  key : Nat
  /-- R, W, X, U of stage 1, then R, W, X of stage 2 -/
  perm1 : BitVec 4
  perm2 : BitVec 4
  deriving DecidableEq, Repr, Inhabited

/-- A shadow-tag monitor (R253): sampled sets with tags in use order, and the hit counters. -/
structure Monitor where
  tags : Tbl (List Nat) := []
  hitd : Tbl Nat := []
  deriving DecidableEq, Repr, Inhabited

structure Core where
  /-- usable banks u0, u1, ... (R240) -/
  banks : List Nat := List.range 64
  ctx : Option Nat := none
  cycle : DWord := 0
  /-- the part of a cycle under way, in units of 1/20000 of a cycle (log entry 8) -/
  phase : Nat := 0
  beatAcc : Nat := 0
  wd : Nat := 0
  wvt : List WvtEntry := []
  bin : List ContRec := []
  binSeq : Nat := 0
  idle : Nat := 0
  pipes : Tbl Pass := []
  pending : List Pending := []
  acc : Tbl Word := []
  accPoison : Tbl Bool := []
  /-- accumulators whose next read is uncorrectable (R306) -/
  accBad : List Nat := []
  fifo : List FifoEntry := []
  ssh : List SshEntry := []
  /-- teams that have used its accumulators since they were placed (R347) -/
  accUsed : List Nat := []
  l1 : Tbl L1Line := []
  /-- the MODEL's own: count of L1 uses (log entry 79) -/
  l1use : Nat := 0
  tlb : List TlbEntry := []
  monitor : Monitor := {}
  temp : BitVec 8 := 0
  /-- time of the last refresh of its rows, in ps (R243) -/
  refreshAt : Nat := 0
  step : Nat := 15
  /-- cycles that the array has spent on the steps of its started head (R347) -/
  arrayAt : Nat := 0
  /-- time at which NC began to pre-empt its context from it, in ps (R345, R351) -/
  ncAt : Option Nat := none
  halted : Bool := false
  /-- time at which its pair was halted to migrate, in ps (R345, R353) -/
  haltedAt : Nat := 0
  hot : Bool := false
  deriving DecidableEq, Repr, Inhabited

/-! ## Dies and the L2 -/

/-- A request for leave (R326): a copy, or the FIFO entry at the head of a core. -/
structure LeaveReq where
  id : Nat
  isCopy : Bool
  core : Nat
  cost : Nat
  ctx : Nat
  /-- time at which it was made, in ps -/
  since : Nat
  deriving DecidableEq, Repr, Inhabited

structure Die where
  budget : Nat := 80
  ramp : Nat := 64
  power : Nat := 700
  queue : List LeaveReq := []
  /-- permits held: operation, with its AE and context -/
  permits : Tbl (Nat × Nat) := []
  /-- grants of the last 1,000 ns: time and AE -/
  recent : List (Nat × Nat) := []
  sparepr : Word := 0
  /-- owner of each way: the context granted or lent it; an unlisted way is common -/
  ways : Tbl Nat := []
  lent : Tbl Nat := []
  deriving DecidableEq, Repr, Inhabited

/-- A line held in an L2 slice (R247, R251, R279, R316). -/
structure L2Line where
  key : Nat
  way : Nat
  use : Nat
  owner : Option Nat
  pins : Nat
  bad : Bool
  /-- brought in by a copy under `.strm`: first for eviction (R291) -/
  first : Bool := false
  /-- what HBM holds behind it, and under which key, since the line came in (R248) -/
  back : BitVec 512 := 0
  backKey : List Byte := []
  deriving DecidableEq, Repr, Inhabited

/-! ## Contexts -/

/-- The loop state (R221). -/
structure Loop where
  icount : Word := 0
  meas : Word := 0
  elast : Word := 0
  uval : Word := 0
  ival : Word := 0
  imax : Word := 0
  imin : Word := 0
  target : Word := 0
  ki : BitVec 16 := 0
  kp : BitVec 16 := 0
  limits : DWord := 0
  levels : Word := 0
  demand : BitVec 16 := 0
  ltop : BitVec 16 := 0
  ctrl : Word := 0x05000000
  deriving DecidableEq, Repr, Inhabited

/-- An open sequence of a membership register on this device (R414, R415). -/
structure OpenSeq where
  reg : Nat
  seq : BitVec 16
  t : Nat
  v : Nat
  closed : Bool
  /-- timebase at which it opened -/
  since : Nat := 0
  deriving DecidableEq, Repr, Inhabited

/-- Run state of a context (R340, R345). -/
inductive RunSt where
  | running | halting | saved | stopped | moved
  deriving DecidableEq, Repr, Inhabited

/-- A saved thread (R349): its gang number and lane, its place in SEQ order, and whether it waits for a position: a thread
that does has a continuation record. -/
structure SavedThread where
  gang : Nat
  lane : Nat
  seq : Nat
  waits : Bool
  th : Thread
  deriving DecidableEq, Repr, Inhabited

/-- A saved team with its gangs and threads (R349). -/
structure SavedTeam where
  id : Nat
  team : Team
  gangs : List Gang
  threads : List SavedThread
  copies : List Copy
  /-- unstarted operations: 0 of the home core, 1 of the follower's, each in FIFO order -/
  fifo : List (Nat × FifoEntry)
  late : Bool
  deriving DecidableEq, Repr, Inhabited

structure Ctx where
  part : Nat := 0
  run : RunSt := .running
  stop : DWord := 0
  /-- time of the recorded stop in ps, for the order of stops in one cycle (R341) -/
  stopAt : Option Nat := none
  ctxerr : Word := 0
  ptroot : DWord := 0
  xlctl : Word := 18
  loop : Loop := {}
  /-- the loop state that its last step, packet or enabling left: its requests stand until the next step (R221, R227) -/
  inForce : Loop := {}
  beats : Nat := 0
  /-- no moment of the interval found the context without a core; time from which the loop may step (R220, R226) -/
  heldCore : Bool := false
  firstStep : Nat := 0
  /-- cores every team of the context on which has been held by NC since the last boundary (R351) -/
  ncHeld : List Nat := []
  /-- cores so held throughout the interval before -/
  ncFull : List Nat := []
  lvwait : DWord := 0
  wylent : Tbl Nat := []
  /-- grants of ways and HBM share on each die, and levels waiting to apply (R220) -/
  wayGrant : Tbl Nat := []
  hbmGrant : Tbl Nat := []
  pendingLevels : Option Word := none
  wdlimit : DWord := 0x0000010000000000
  pdeadline : Word := 200
  mset : Tbl (BitVec 128) := []
  mout : Tbl DWord := []
  openSeqs : List OpenSeq := []
  /-- V of the last report of each register (R415) -/
  lastV : Tbl Nat := []
  bgstat : Word := 0
  /-- own count of the boundary under way, while its beat group merges, and whether a count was left out (R406) -/
  merged : Option Nat := none
  mergeMiss : Bool := false
  ranks : Tbl Word := []
  movedTo : Option (Nat × Nat) := none
  /-- its image has come from another device, and firmware has not enabled it here yet (R390) -/
  arriving : Bool := false
  /-- its live migration to this device ends when it resumes (R375) -/
  migDue : Bool := false
  saved : List SavedTeam := []
  /-- accumulator images of saved logical cores (R306, R349) -/
  savedAcc : Tbl (Tbl Word × Tbl Bool) := []
  savedWd : Nat := 0
  preemptAt : Nat := 0
  /-- time of the last halt of its cores, in ps: of the request, or of a stop (R345) -/
  haltAt : Nat := 0
  late : Bool := false
  /-- what each halted cluster chose: row of R346, and 5 for the save of one whose drain ran out -/
  chosen : Tbl Nat := []
  /-- time at which its drains ran out, in ps (R346) -/
  drainEnd : Nat := 0
  /-- a live migration under way: device and context it goes to (R355) -/
  migrate : Option (Nat × Nat) := none
  deriving DecidableEq, Repr, Inhabited

/-! ## Front end -/

/-- A user queue's descriptor (R202). -/
structure Queue where
  ring : DWord := 0
  qctl : Word := 0
  qstat : Word := 0
  wridx : DWord := 0
  rdidx : DWord := 0
  deriving DecidableEq, Repr, Inhabited

/-- A packet begun and not completed (R205): its queue, index and kind, and for barrier-and the signals not yet read as 0. -/
structure Begun where
  queue : Nat
  idx : DWord
  ptype : Nat
  grid : Nat
  left : List DWord
  /-- compare value and condition of a wait-signal -/
  cmp : DWord := 0
  cond : Nat := 0
  deriving DecidableEq, Repr, Inhabited

/-- A partition (R211, R357, R359). -/
structure Partition where
  built : Bool := false
  rmt : Tbl (BitVec 16) := []
  ncores : Nat := 0
  root : Nat := 0
  keys : List Nat := []
  isSealed : Bool := false
  deriving DecidableEq, Repr, Inhabited

/-! ## Firmware and host -/

/-- A journal record (R370): DATA as five 8-byte words. -/
structure Journal where
  seq : DWord
  kind : Nat
  obj : Nat
  data : List DWord
  chk : DWord
  deriving DecidableEq, Repr, Inhabited

/-- A take-over that a hart has begun (R371): the hart it takes over from, the records it has read and not replayed, the SEQ from which
it reads on, and the objects of which it has made a change late, by class and number. -/
structure Taking where
  partner : Nat
  left : List Journal
  next : Nat
  redone : List (Nat × Nat)
  deriving DecidableEq, Repr, Inhabited

/-- A firmware hart (R362 to R368): integer and floating registers of RV64GC, and RISC-V's machine-mode registers (log entries 5 and 109). -/
structure Hart where
  x : Tbl DWord := []
  pc : DWord := 0
  machine : Bool := true
  mie : Bool := false
  mpie : Bool := false
  mppMachine : Bool := true
  mepc : DWord := 0
  mcause : DWord := 0
  mtval : DWord := 0
  mtvec : DWord := 0
  mscratch : DWord := 0
  /-- floating registers, and frm with fflags -/
  f : Tbl DWord := []
  fcsr : BitVec 8 := 0
  /-- reservation of LR: address and bytes -/
  resv : Option (Nat × Nat) := none
  cycles : DWord := 0
  instret : DWord := 0
  irq : Bool := false
  halted : Bool := false
  heart : DWord := 0
  /-- a standby's last view of the word of each hart it watches, and since when it is unchanged, in ns -/
  seen : Tbl (DWord × Nat) := []
  /-- the staged images it is loaded with (R384) -/
  loaded : List (List Byte) := []
  taking : Option Taking := none
  deriving DecidableEq, Repr, Inhabited

/-- A range that the firmware's tables map: first address, bytes, the physical address it stands for, and the key ID (R365). -/
structure FwRange where
  base : Nat
  len : Nat
  pa : Nat
  key : Nat
  deriving DecidableEq, Repr, Inhabited

/-- A virtual command processor page (R372); QD i names the user queue assigned to slot i. -/
structure Vcp where
  kick : DWord := 0
  pend : DWord := 0
  vfgen : BitVec 16 := 0
  drop : DWord := 0
  st : Nat := 0
  qd : Tbl Nat := []
  vf : Option Nat := none
  mapped : Bool := false
  /-- bytes of the descriptor area at slots with no queue, by their offset in it -/
  area : Tbl Byte := []
  deriving DecidableEq, Repr, Inhabited

/-- A cause raised for a VCP and not delivered yet, with the generation current when it occurred (R376). -/
structure Cause where
  vcp : Nat
  bit : Nat
  gen : BitVec 16
  deriving DecidableEq, Repr, Inhabited

/-- What a checkpoint holds (R370): the state as of a record's SEQ, and the records whose changes it does not hold. Of each queue QCTL
and QSTAT. -/
structure Checkpoint where
  seq : DWord := 0
  slots : Tbl Nat := []
  descs : Tbl (Word × Word) := []
  vcps : Tbl Vcp := []
  pending : List Journal := []
  deriving DecidableEq, Repr, Inhabited

/-- A message sent to the host: a VF's MSI-X message or the device interrupt of a port (R376, R383), the answer to a read, or
the rejection of a request (R378). -/
inductive Irq where
  | msix (vcp : Nat)
  | device (port : Nat)
  | answer (port : Nat) (bytes : List Byte)
  | unsupported (port : Nat)
  deriving DecidableEq, Repr, Inhabited

/-- A hardware semaphore (R379): owner 0 none, 1 port A, 2 port B, 3 firmware; the port that lost the last tie. -/
structure Sem where
  owner : Nat := 0
  lastLoser : Nat := 1
  deriving DecidableEq, Repr, Inhabited

/-- A chunk that holds a landing slot of a base die, or spill space of its partition (R401): the collective, the stream and the
chunk. -/
structure Landing where
  base : Nat
  part : Nat
  coll : Nat
  stream : Nat
  chunk : Nat
  deriving DecidableEq, Repr, Inhabited

/-- Registers of the firmware space (R363, R382). -/
inductive FwReg where
  | fwcctl
  | s2inv
  deriving DecidableEq, Repr, Inhabited

/-- The save image of a context that migrates to another device (R349, R355): its entry, its grids by their names there, its
queues and the packets begun, the pages of its VF, by the numbers firmware gives them at the destination (R376), and the set-up
messages that the source performed and no collective of it has taken (R390). -/
structure Image where
  ctx : Ctx
  grids : Tbl Grid
  queues : Tbl Queue
  begun : List Begun
  vcps : Tbl Vcp
  setups : List Msg
  deriving DecidableEq, Repr, Inhabited

/-! ## Acts: what happens next -/

/-- An agent that can have the turn. -/
inductive Turn where
  | pipe (core pipe : Nat)
  | hart (n : Nat)
  deriving DecidableEq, Repr, Inhabited

/-- One act of the agenda: an event of the table, a turn given to an agent, or an input from outside that no row names. -/
inductive Act where
  | event (i : Instr)
  | turn (t : Turn)
  /-- a clean or dirty line leaves a core's L1 (R270 eviction) -/
  | evictL1 (core line : Nat)
  /-- a line leaves its L2 slice (R279 eviction) -/
  | evictL2 (line : Nat)
  /-- the cached translations of a core, or of a cluster, are dropped (R259) -/
  | dropTlb (core : Nat)
  | dropClusterTlb (cluster : Nat)
  /-- an uncorrectable error appears in a word of memory, in a line of an L2 slice, or in an accumulator (R128, R248, R306) -/
  | badWord (pa : Nat)
  | badLine (line : Nat)
  | badAcc (core idx : Nat)
  /-- the array meets an error in a started operation (R315): kind 0 parity in a row of A, 1 in a column of B (its number
  first in the list), 2 a residue mismatch in a cycle group, whose accumulators, as i·N + j, are listed -/
  | badMac (core kind : Nat) (cells : List Nat)
  /-- the matrix engine reads a word of an operand of a posted operation, at an address of global memory or of scratchpad (R314) -/
  | readOperand (core id : Nat) (glob : Bool) (addr : Nat)
  /-- the host writes bytes of memory -/
  | hostWrite (pa : Nat) (bytes : List Byte)
  /-- a fabric peer's remote write: its message, whose data are the bytes and whose DCTX is the context it is aimed at, and the physical
  address (R356, log entry 119) -/
  | peerWrite (m : Msg) (pa : Nat)
  /-- a queue's owner writes WRIDX, or the virtual command processor the whole descriptor (R202) -/
  | wridx (q : Nat) (value : DWord)
  | descriptor (q : Nat) (d : Queue)
  /-- a host write to system memory that reaches it inside the read-modify-write that the I/O die makes next (R378) -/
  | hostInside (pa : Nat) (bytes : List Byte)
  /-- a port completes an atomic request of the host on n bytes of device memory: 0 FetchAdd, 1 Swap, 2 CAS (R378) -/
  | hostAtomic (port op n pa operand compare : Nat)
  /-- which ports' roots report AtomicOp completion (R378) -/
  | rootAtomics (ports : BitVec 2)
  /-- a port reads or writes a register of its BAR0: RDY_MAP, a semaphore (R379, R383) -/
  | barRead (port offset : Nat)
  | barWrite (port offset : Nat) (value : Word)
  /-- a guest reads or writes bytes of a virtual command processor's page (R372) -/
  | vcpRead (vcp offset n : Nat)
  | vcpWrite (vcp offset : Nat) (bytes : List Byte)
  /-- firmware's tables, its descriptor table, the ring of its journal, and its virtual command processors' pages (R365, R370, R372) -/
  | fwTables (map : List FwRange) (descs ring len pages : Nat)
  /-- a hart performs the record of a change it is about to make (R370) -/
  | journal (hart kind obj : Nat) (data : List DWord)
  /-- a hart writes FWCCTL, or reads a register of the firmware space into one of its own (R363, R382), and a hart is loaded with the
  staged images (R384) -/
  | fwcWrite (hart : Nat) (value : Word)
  | fwRead (hart rd : Nat) (reg : FwReg)
  | loadHart (hart : Nat)
  /-- a function of RDY_MAP becomes ready (R383) -/
  | ready (bit : Nat)
  /-- firmware gives the device its ID in a domain (R386) -/
  | deviceId (id : Nat)
  /-- firmware halts a context for a debugger (R340) -/
  | debugHalt (ctx : Nat)
  /-- a live migration: firmware copies a round of dirty pages, the destination takes a save image, firmware frees the entry of a
  context that has moved (R355, R390) -/
  | copyPages (ctx : Nat) (pages : List Nat)
  | saveImage (ctx : Nat) (image : Image)
  | freeContext (ctx : Nat)
  /-- firmware writes a rank-table entry (R389), and a membership register in a context's entry, which acts as two `sysw` (R434) -/
  | rank (ctx r : Nat) (entry : Word)
  | mset (ctx n : Nat) (value : BitVec 128)
  /-- the first vote of the sequence that a register resolves next was cast in its group at a time of the timebase (R415) -/
  | groupVote (ctx n at' : Nat)
  /-- an enabled interrupt becomes pending at a hart -/
  | hartIrq (n : Nat)
  /-- firmware delivers the oldest held cause (R376) -/
  | deliverCause
  /-- the guest takes its causes by exchanging PEND with 0 (R376) -/
  | takePend (vcp : Nat)
  /-- firmware changes the STATE of a virtual command processor (R372, R376) -/
  | vcpState (vcp st : Nat)
  deriving DecidableEq, Repr, Inhabited

/-! ## The device -/

structure State where
  /-- the MODEL's own: acts still to come, oldest first; the agent that moves when there is none (log entry 2) -/
  agenda : List Act
  turn : Turn
  /-- the MODEL's own: counter of free values (log entry 6), and of names given to teams, grids, copies and operations -/
  free : Nat
  ids : Nat
  /-- time since reset in ps, from which the timebase and the cycle counters come; 64 µs boundaries passed (log entry 8) -/
  time : Nat
  boundaries : Nat
  /-- the MODEL's own: the core that formed the last pass, and passes formed since an event was looked for (log entry 2) -/
  lastCore : Nat
  burst : Nat
  mem : List Host.Cell
  /-- words of memory with an uncorrectable error, by PA / 4 -/
  badWords : List Nat
  /-- key under which an HBM line was last written; unlisted: none, plaintext (R261) -/
  lineKey : Tbl (List Byte)
  /-- 4 KiB pages of memory written since firmware last copied them, each with the migrating context it is dirty for; and the contexts
  whose live migrations track writes (R355) -/
  dirtyPages : List (Nat × Nat)
  tracking : List Nat
  l2 : Tbl L2Line
  l2use : Nat
  cores : Tbl Core
  /-- cached translations of each cluster, by 8·die + cluster (R259) -/
  ctlb : Tbl (List TlbEntry)
  threads : Tbl Thread
  gangs : Tbl Gang
  teams : Tbl Team
  grids : Tbl Grid
  copies : Tbl Copy
  dies : Tbl Die
  /-- clock steps that the last boundary set and that are not applied, by pair (R328, R329) -/
  pendingSteps : Tbl Nat
  /-- the pass of R220 under way, and whether some loop has stepped in it -/
  loopPass : Option Bool
  /-- a pass has granted ways that have not changed owner yet (R252) -/
  waysDue : Bool
  /-- clusters whose L1 portions are fused, by 8·die + cluster -/
  fused : List Nat
  ctxs : Tbl Ctx
  /-- front end -/
  queues : Tbl Queue
  hwSlots : Tbl Nat
  lastSlot : Nat
  begun : List Begun
  parts : Tbl Partition
  /-- firmware complex -/
  ktab : Tbl (List Byte)
  harts : Tbl Hart
  fwcActive : BitVec 4
  fwcHalted : BitVec 4
  /-- firmware that passed its check runs (R384) -/
  fwRuns : Bool
  /-- physical address of the journal's ring and the records it holds; SEQ of the last record; records whose change is not made -/
  ring : Nat
  ringLen : Nat
  journalSeq : DWord
  unmade : List Journal
  checkpoint : Checkpoint
  /-- what the firmware's tables map, and the address of the descriptor table in them (R365, R366) -/
  fwMap : List FwRange
  fwDescs : Nat
  vcps : Tbl Vcp
  /-- device memory address of the first page; the others follow it (R372) -/
  vcpPages : Option Nat
  causes : List Cause
  irqs : List Irq
  hsem : Tbl Sem
  /-- ports whose roots report AtomicOp completion (R378) -/
  rootAtomics : BitVec 2
  rdyMap : DWord
  measure : Tbl (List Byte)
  staged : List (List Byte)
  /-- status of the last mailbox command of each port, and its data -/
  mbox : Tbl (Nat × List Byte)
  /-- fabric -/
  devId : BitVec 9
  portsUp : Word
  /-- ports a switch reported down, by device ID -/
  peerDown : Tbl Word
  fabdrop : Word
  outbox : List (Nat × Msg)
  /-- set-up messages not yet taken by a collective (R396) -/
  setups : List Msg
  received : List (Nat × Nat × Nat × Nat × Nat)
  /-- chunk messages whose sender's set-up has not come yet (R388) -/
  early : List Msg
  /-- messages that a fabric port holds for a context that is not enabled here, each as its act (R390) -/
  held : List (Nat × Act)
  landing : List Landing
  spill : List Landing
  deriving DecidableEq, Repr, Inhabited

/-- The state right after reset: the values the spec gives, and the values of log entries 2 to 6 where it gives none. No
program, team or queue is present: software loads programs from outside the machine (log entry 1). -/
def State.reset : State where
  agenda := []
  turn := .pipe 0 0
  free := 0
  ids := 0
  time := 0
  boundaries := 0
  lastCore := 0
  burst := 0
  mem := []
  badWords := []
  lineKey := []
  dirtyPages := []
  tracking := []
  l2 := []
  l2use := 0
  cores := []
  ctlb := []
  threads := []
  gangs := []
  teams := []
  grids := []
  copies := []
  dies := []
  pendingSteps := []
  loopPass := none
  waysDue := false
  fused := []
  ctxs := []
  queues := []
  hwSlots := []
  lastSlot := 0
  begun := []
  parts := []
  ktab := []
  harts := []
  fwcActive := 0b0011
  fwcHalted := 0
  fwRuns := false
  ring := 191999475712
  ringLen := 8192
  journalSeq := 0
  unmade := []
  checkpoint := {}
  fwMap := []
  fwDescs := 0
  vcps := []
  vcpPages := none
  causes := []
  irqs := []
  hsem := []
  rootAtomics := 0
  rdyMap := 0
  measure := []
  staged := []
  mbox := []
  devId := 0
  portsUp := 0
  peerDown := []
  fabdrop := 0
  outbox := []
  setups := []
  received := []
  early := []
  held := []
  landing := []
  spill := []

/-- The device timebase in ns. -/
def State.timebase (s : State) : Nat := s.time / 1000

end Sys2Proof.Machine
end

