-- ==== Sys2Proof/Machine/Maps.lean ====
section
/-!
DEFINITION. Reading and writing sparse tables, and the one list that holds memory: its canonical form, reading a byte and
writing a byte.
-/
namespace Sys2Proof.Machine

/-- The entry under a key. -/
def Tbl.look {α : Type} : Tbl α → Nat → Option α
  | [], _ => none
  | (a, b) :: r, k => if a = k then some b else Tbl.look r k

/-- Sets the entry under a key, keeping the keys rising. -/
def Tbl.put {α : Type} : Tbl α → Nat → α → Tbl α
  | [], k, x => [(k, x)]
  | (a, b) :: r, k, x => if k < a then (k, x) :: (a, b) :: r else if a = k then (k, x) :: r else (a, b) :: Tbl.put r k x

/-- Removes the entries under a key. -/
def Tbl.drop {α : Type} : Tbl α → Nat → Tbl α
  | [], _ => []
  | (a, b) :: r, k => if a = k then Tbl.drop r k else (a, b) :: Tbl.drop r k

/-- The entry under a key, or a default. -/
def Tbl.at {α : Type} (t : Tbl α) (k : Nat) (d : α) : α := (Tbl.look t k).getD d

/-- Applies a function to every entry. -/
def Tbl.mapAll {α : Type} (f : Nat → α → α) (t : Tbl α) : Tbl α := t.map (fun e => (e.1, f e.1 e.2))

/-- Applies a function to the entry under a key, if there is one. -/
def Tbl.adjust {α : Type} (t : Tbl α) (k : Nat) (f : α → α) : Tbl α :=
  match Tbl.look t k with
  | some x => Tbl.put t k (f x)
  | none => t

def Tbl.keys {α : Type} (t : Tbl α) : List Nat := t.map (·.1)

def Tbl.vals {α : Type} (t : Tbl α) : List α := t.map (·.2)

/-! ## Memory -/

/-- Addresses strictly rise from one cell to the next. -/
def Memory.rising : List Host.Cell → Bool
  | [] => true
  | [_] => true
  | (a, _) :: (b, y) :: r => a < b && Memory.rising ((b, y) :: r)

/-- The canonical form: addresses rise strictly, and no cell holds what an unlisted address reads as. -/
def Memory.wf (m : List Host.Cell) : Bool := Memory.rising m && m.all (fun c => c.2 != Config.unwrittenByte)

/-- The byte at an address. -/
def Memory.get : List Host.Cell → Nat → Byte
  | [], _ => Config.unwrittenByte
  | (a, b) :: r, k => if a = k then b else Memory.get r k

/-- Writes a byte, keeping the canonical form. -/
def Memory.set : List Host.Cell → Nat → Byte → List Host.Cell
  | [], k, x => if x = Config.unwrittenByte then [] else [(k, x)]
  | (a, b) :: r, k, x =>
    if k < a then (if x = Config.unwrittenByte then (a, b) :: r else (k, x) :: (a, b) :: r)
    else if a = k then (if x = Config.unwrittenByte then r else (k, x) :: r)
    else (a, b) :: Memory.set r k x

/-- Writes the bytes of a list from an address upwards. -/
def Memory.setBytes (m : List Host.Cell) : Nat → List Byte → List Host.Cell
  | _, [] => m
  | a, b :: r => Memory.setBytes (Memory.set m a b) (a + 1) r

/-- The n bytes from an address upwards. -/
def Memory.getBytes (m : List Host.Cell) : Nat → Nat → List Byte
  | _, 0 => []
  | a, n + 1 => Memory.get m a :: Memory.getBytes m (a + 1) n

end Sys2Proof.Machine
end

