-- ==== Sys2Proof/Machine/Mem.lean ====
section
/-!
DEFINITION. Accessors of the tables of State, and the levels of memory: physical memory and its keys (R246 to R248, R261),
L2 lines with their ways, owner tags and monitors (R247, R251, R253, R279), the L1 portions (R244, R245, R255, R269, R270),
translation in two stages (R256 to R260), HBM's pseudo-channels (R249).
-/
namespace Sys2Proof.Machine

/-! ## Accessors -/

def threadKey (core slot : Nat) : Nat := core * 2048 + slot
def gangKey (core gslot : Nat) : Nat := core * 64 + gslot

namespace State

def core (s : State) (c : Nat) : Core := Tbl.at s.cores c {}
def setCore (s : State) (c : Nat) (x : Core) : State := { s with cores := Tbl.put s.cores c x }
def modCore (s : State) (c : Nat) (f : Core → Core) : State := s.setCore c (f (s.core c))

def thr (s : State) (c k : Nat) : Thread := Tbl.at s.threads (threadKey c k) {}
def setThr (s : State) (c k : Nat) (x : Thread) : State := { s with threads := Tbl.put s.threads (threadKey c k) x }
def modThr (s : State) (c k : Nat) (f : Thread → Thread) : State := s.setThr c k (f (s.thr c k))

def gang (s : State) (c g : Nat) : Gang := Tbl.at s.gangs (gangKey c g) { team := 0, num := 0 }
def setGang (s : State) (c g : Nat) (x : Gang) : State := { s with gangs := Tbl.put s.gangs (gangKey c g) x }
def modGang (s : State) (c g : Nat) (f : Gang → Gang) : State := s.setGang c g (f (s.gang c g))

def team (s : State) (t : Nat) : Team := Tbl.at s.teams t { grid := 0, num := 0, lcore := 0, core := 0, footprint := 0 }
def setTeam (s : State) (t : Nat) (x : Team) : State := { s with teams := Tbl.put s.teams t x }
def modTeam (s : State) (t : Nat) (f : Team → Team) : State := s.setTeam t (f (s.team t))

def grid (s : State) (g : Nat) : Grid := Tbl.at s.grids g default
def setGrid (s : State) (g : Nat) (x : Grid) : State := { s with grids := Tbl.put s.grids g x }
def modGrid (s : State) (g : Nat) (f : Grid → Grid) : State := s.setGrid g (f (s.grid g))

def ctx (s : State) (c : Nat) : Ctx := Tbl.at s.ctxs c {}
def setCtx (s : State) (c : Nat) (x : Ctx) : State := { s with ctxs := Tbl.put s.ctxs c x }
def modCtx (s : State) (c : Nat) (f : Ctx → Ctx) : State := s.setCtx c (f (s.ctx c))

def die (s : State) (d : Nat) : Die := Tbl.at s.dies d {}
def setDie (s : State) (d : Nat) (x : Die) : State := { s with dies := Tbl.put s.dies d x }
def modDie (s : State) (d : Nat) (f : Die → Die) : State := s.setDie d (f (s.die d))

/-- The team of the gang in a gang slot, and its grid. -/
def gangTeam (s : State) (c g : Nat) : Team := s.team (s.gang c g).team
def gangGrid (s : State) (c g : Nat) : Grid := s.grid (s.gangTeam c g).grid

end State

/-- Die and cluster (over the device) of a physical core (R1). -/
def dieOf (core : Nat) : Nat := core / 64
def clusterOf (core : Nat) : Nat := core / 8

/-- n ones from bit i. -/
def onesAt (w i n : Nat) : BitVec w := BitVec.ofNat w ((2 ^ n - 1) * 2 ^ i)

/-! ### Queues and the pages of virtual command processors (R202, R372) -/

def State.queue (s : State) (q : Nat) : Queue := Tbl.at s.queues q {}
def State.setQueue (s : State) (n : Nat) (q : Queue) : State := { s with queues := Tbl.put s.queues n q }

/-- A descriptor as it is stored: reserved bits ignore writes and read zero (R7, R202). -/
def Queue.clean (q : Queue) : Queue := { q with qctl := q.qctl &&& 0x3FFFFF, qstat := q.qstat &&& 0xFF }

/-- A 64-bit field of a packet or record. -/
def field64 (bs : List Byte) (i : Nat) : DWord := BitVec.ofNat 64 (leNat ((bs.drop i).take 8))
def field (bs : List Byte) (i n : Nat) : Nat := leNat ((bs.drop i).take n)

def State.vcp (s : State) (v : Nat) : Vcp := Tbl.at s.vcps v {}
def State.setVcp (s : State) (n : Nat) (v : Vcp) : State := { s with vcps := Tbl.put s.vcps n v }

/-- The 64 bytes of a descriptor: reserved bytes read zero. -/
def Queue.bytes (q : Queue) : List Byte :=
  leBytes 8 q.ring.toNat ++ leBytes 4 q.qctl.toNat ++ leBytes 4 q.qstat.toNat ++ leBytes 8 q.wridx.toNat ++ leBytes 8 q.rdidx.toNat
  ++ List.replicate 32 0

/-- The fields of a descriptor that 64 bytes write: all but RDIDX. -/
def Queue.written (q : Queue) (bs : List Byte) : Queue :=
  Queue.clean { q with
    ring := field64 bs 0, qctl := BitVec.ofNat 32 (field bs 8 4), qstat := BitVec.ofNat 32 (field bs 12 4), wridx := field64 bs 16 }

/-- The byte of a page at an offset. QD i is the descriptor of the queue assigned to slot i, and plain memory where none is. -/
def State.vcpByte (s : State) (n off : Nat) : Byte :=
  let v := s.vcp n
  let word (x : Nat) : Byte := BitVec.ofNat 8 (x / 2 ^ (8 * (off % 8)))
  if off < 8 then word v.kick.toNat
  else if off < 16 then word v.pend.toNat
  else if off < 24 then word v.vfgen.toNat
  else if off < 32 then word v.drop.toNat
  else if off < 40 then word v.st
  else if off < 2048 || 4096 ≤ off then 0
  else
    match Tbl.look v.qd ((off - 2048) / 64) with
    | none => Tbl.at v.area (off - 2048) 0
    | some q => (s.queue q).bytes.getD (off % 64) 0

/-- The bits of PEND that R375 gives a meaning: the causes 0 to 4, and the generation. -/
def pendMask : DWord := 0xFFFF00000000001F

/-- A byte written to a page: PEND, whose reserved bits ignore it (R7), and the fields of a descriptor that its owner may write. -/
def State.vcpSetByte (s : State) (n off : Nat) (b : Byte) : State :=
  let v := s.vcp n
  if 8 ≤ off && off < 16 then
    let x := (v.pend &&& ~~~(onesAt 64 (8 * (off - 8)) 8)) ||| BitVec.ofNat 64 (b.toNat * 2 ^ (8 * (off - 8)))
    s.setVcp n { v with pend := x &&& pendMask }
  else if off < 2048 || 4096 ≤ off then s
  else
    match Tbl.look v.qd ((off - 2048) / 64) with
    | none => s.setVcp n { v with area := if b == 0 then Tbl.drop v.area (off - 2048) else Tbl.put v.area (off - 2048) b }
    | some q => s.setQueue q ((s.queue q).written ((s.queue q).bytes.set (off % 64) b))

/-- The page and the offset in it of an address of device memory (R372, log entry 108). -/
def State.pageAt (s : State) (pa : Nat) : Option (Nat × Nat) :=
  match s.vcpPages with
  | none => none
  | some b => if b ≤ pa && pa < b + 4096 * 256 then some ((pa - b) / 4096, (pa - b) % 4096) else none

/-! ## Physical memory (R246) -/

/-- System memory lies in the upper half of the 52-bit space. -/
def isSystem (pa : Nat) : Bool := 2 ^ 51 ≤ pa && pa < 2 ^ 52

/-- Addresses a row of R246 covers; a die's region is three stacks of 64 GB (R3, R6). -/
def covered (pa : Nat) : Bool := isSystem pa || (pa < 2 ^ 40 && pa % 2 ^ 38 < 192000000000)

/-- Home die of an HBM line (R246). -/
def homeDie (pa : Nat) : Nat := pa / 2 ^ 38 % 4

/-- Slice and set of a line in its home die's L2 (R247). -/
def l2Slice (pa : Nat) : Nat := ((bitsOf pa 9 6 ^^^ bitsOf pa 13 10) ^^^ bitsOf pa 17 14) ^^^ bitsOf pa 21 18
def l2Set (pa : Nat) : Nat := bitsOf pa 21 10
/-- One number for die, slice and set. -/
def l2Place (pa : Nat) : Nat := (homeDie pa * 16 + l2Slice pa) * 4096 + l2Set pa

/-! ### Pseudo-channels (R249) -/

/-- Chunk of 256 bytes that holds an offset of a die's region, by its number in rotation over the 192 pseudo-channels. -/
def hbmRotation (o : Nat) : Nat := o / 256 % 192
/-- Stack, pseudo-channel within it, and byte within that, of an HBM address. -/
def hbmStack (pa : Nat) : Nat := 3 * homeDie pa + hbmRotation (pa % 2 ^ 38) % 3
def hbmChannel (pa : Nat) : Nat := hbmRotation (pa % 2 ^ 38) / 3
def hbmByte (pa : Nat) : Nat := 256 * (pa % 2 ^ 38 / 256 / 192) + pa % 256

/-! ### Keys (R261) -/

/-- The key a key ID names: none for ID 0, which is plaintext; an entry that nothing has loaded is zero (log entry 3). -/
def State.keyOf (s : State) (key : Nat) : List Byte := if key == 0 then [] else Tbl.at s.ktab key (List.replicate 64 0)

/-- The bytes of a line as its own key writes them. -/
def State.rawLine (s : State) (line : Nat) : List Byte := Memory.getBytes s.mem (64 * line) 64

/-- The byte that memory holds at a physical address as an access under a key ID sees it: a line written under another key is
encrypted under that key and decrypted under this one (R261). -/
def State.memByte (s : State) (key pa : Nat) : Byte :=
  let w := Tbl.at s.lineKey (pa / 64) []
  if isSystem pa || w == s.keyOf key then Memory.get s.mem pa
  else (Cipher.decryptLine (s.keyOf key) (pa / 64) (Cipher.encryptLine w (pa / 64) (s.rawLine (pa / 64)))).getD (pa % 64) 0

/-- The byte that an access under a key ID meets at a physical address: of a virtual command processor's page (R372), or of memory. -/
def State.physByte (s : State) (key pa : Nat) : Byte :=
  match s.pageAt pa with
  | some e => s.vcpByte e.1 e.2
  | none => s.memByte key pa

/-- n bytes from a physical address upwards. -/
def State.physBytes (s : State) (key : Nat) : Nat → Nat → List Byte
  | _, 0 => []
  | pa, n + 1 => s.physByte key pa :: s.physBytes key (pa + 1) n

/-- Gives a line the key an access writes it under: the line is fetched under the new key first (R247, R261). -/
def State.rekey (s : State) (key line : Nat) : State :=
  if isSystem (64 * line) || Tbl.at s.lineKey line [] == s.keyOf key then s
  else
    { s with
      mem := Memory.setBytes s.mem (64 * line) ((List.range 64).map (fun i => s.memByte key (64 * line + i)))
      lineKey := Tbl.put s.lineKey line (s.keyOf key) }

/-- A byte reaches its address: the page of a virtual command processor (R372), or memory. -/
def State.putByte (s : State) (pa : Nat) (b : Byte) : State :=
  match s.pageAt pa with
  | some e => s.vcpSetByte e.1 e.2 b
  | none => { s with mem := Memory.set s.mem pa b }

/-- Bytes reach their addresses one after another; with no page placed, memory alone. -/
def State.putEach (s : State) (pa : Nat) (bytes : List Byte) : State :=
  match s.vcpPages with
  | none => { s with mem := Memory.setBytes s.mem pa bytes }
  | some _ => ((List.range bytes.length).zip bytes).foldl (fun s e => s.putByte (pa + e.1) e.2) s

/-- Bytes stored within one line: the page counts as written while a migration tracks writes (R355), and a word stored whole loses
its uncorrectable error (R128, R248). -/
def State.putBytes (s : State) (pa : Nat) (bytes : List Byte) : State :=
  let n := bytes.length
  { s.putEach pa bytes with
    dirtyPages := s.dirtyPages ++ (s.tracking.map (fun c => (c, pa / 4096))).filter (fun e => !s.dirtyPages.contains e)
    badWords := s.badWords.filter (fun w => !(pa ≤ 4 * w && 4 * w + 4 ≤ pa + n)) }

/-- Writes bytes within one line under a key ID. -/
def State.physWrite (s : State) (key pa : Nat) (bytes : List Byte) : State := (s.rekey key (pa / 64)).putBytes pa bytes

/-- Whether some word of n bytes from an address has an uncorrectable error. -/
def State.physBad (s : State) (pa n : Nat) : Bool := s.badWords.any (fun w => pa < 4 * w + 4 && 4 * w < pa + n)

/-! ## Lines as numbers -/

def lineOfBytes (bs : List Byte) : BitVec 512 := BitVec.ofNat 512 (leNat bs)
def lineByte (d : BitVec 512) (i : Nat) : Byte := d.extractLsb' (8 * i) 8
def lineBytes (d : BitVec 512) (i : Nat) : Nat → List Byte
  | 0 => []
  | n + 1 => lineByte d i :: lineBytes d (i + 1) n
/-- Replaces bytes of a line from an offset. -/
def lineSet (d : BitVec 512) (i : Nat) (bs : List Byte) : BitVec 512 :=
  let m : BitVec 512 := BitVec.ofNat 512 ((2 ^ (8 * bs.length) - 1) * 2 ^ (8 * i))
  (d &&& ~~~m) ||| (BitVec.ofNat 512 (leNat bs * 2 ^ (8 * i)) &&& m)

/-- Bytes of a line marked by a mask, from an offset, each with its offset. -/
def maskedBytes (d : BitVec 512) (mask : BitVec 64) : Nat → Nat → List (Nat × Byte)
  | _, 0 => []
  | i, n + 1 => if mask.getLsbD i then (i, lineByte d i) :: maskedBytes d mask (i + 1) n else maskedBytes d mask (i + 1) n

/-- Writes the marked bytes of a line to memory. -/
def State.putMasked (s : State) (key line : Nat) (d : BitVec 512) (mask : BitVec 64) : State :=
  (maskedBytes d mask 0 64).foldl (fun s e => s.physWrite key (64 * line + e.1) [e.2]) s

/-- Clears the errors of words all of whose bytes a mask covers. -/
def State.clearBad (s : State) (line : Nat) (mask : BitVec 64) : State :=
  { s with
    badWords := s.badWords.filter (fun w => !(w / 16 == line && mask.extractLsb' (4 * (w % 16)) 4 == 15#4)) }

/-! ## The L1 portions -/

/-- Key of a line in an L1: constant lines stand apart (R255). -/
def l1Key (line : Nat) (const : Bool) : Nat := 2 * line + b2n const

/-- The core whose L1 serves a global access: the leader of a paired team (R162, R270), the line's core in a fused cluster
(R245). -/
def State.l1Core (s : State) (c : Nat) (team : Team) (pa : Nat) : Nat :=
  let base := if (s.grid team.grid).paired then team.core else c
  if s.fused.contains (clusterOf base) then 8 * clusterOf base + (bitsOf pa 8 6 ^^^ bitsOf pa 11 9) else base

/-- Writes a line's dirty bytes to the L2 and leaves it clean (R269, R270). -/
def State.writeBack (s : State) (c key : Nat) : State :=
  match Tbl.look (s.core c).l1 key with
  | none => s
  | some l =>
    if l.dirty == 0 then s
    else
      let s := (s.putMasked l.key l.line l.data l.dirty).clearBad l.line l.dirty
      s.modCore c (fun k => { k with l1 := Tbl.put k.l1 key { l with dirty := 0 } })

/-- Writes a line back and removes it. -/
def State.evictL1 (s : State) (c key : Nat) : State :=
  let s := s.writeBack c key
  s.modCore c (fun k => { k with l1 := Tbl.drop k.l1 key })

/-- Writes back every dirty line of a core's L1. -/
def State.writeBackAll (s : State) (c : Nat) : State :=
  (Tbl.keys (s.core c).l1).foldl (fun s k => s.writeBack c k) s

/-- Writes back and removes every line of a core's L1 but the constant ones, or those too. -/
def State.flushL1 (s : State) (c : Nat) (const : Bool) : State :=
  let s := s.writeBackAll c
  s.modCore c (fun k => { k with l1 := if const then [] else k.l1.filter (fun e => e.2.const) })

/-- The cores whose L1 portions hold the lines of a core's threads: itself, or its fused cluster (R245). -/
def State.l1Portions (s : State) (c : Nat) : List Nat :=
  if s.fused.contains (clusterOf c) then (List.range 8).map (8 * clusterOf c + ·) else [c]

/-- The cores whose L1 portions hold the lines of a thread's team. -/
def State.l1Cores (s : State) (c : Nat) (team : Team) : List Nat :=
  s.l1Portions (if (s.grid team.grid).paired then team.core else c)

/-- Every line that a core's threads may have left in an L1 is written back and removed. -/
def State.flushPortions (s : State) (c : Nat) (const : Bool) : State :=
  (s.l1Portions c).foldl (fun s k => s.flushL1 k const) s

/-! ### The store of a core (R118, R163, R213, R242) -/

/-- Producer gangs are the first PGANGS gangs of the team (R163). -/
def isProducer (g : Grid) (gang : Nat) : Bool := gang < g.pgangs

/-- REGS of a gang's role. -/
def regsOf (g : Grid) (gang : Nat) : Nat := if isProducer g gang then g.pregs else g.cregs

/-- Where the distribution registers and the fault frame start in a window, and its size (R23, R118). -/
def dregBase (regs : Nat) : Nat := (4 * regs + 63) / 64 * 64
def frameBase (regs dregs : Nat) : Nat := dregBase regs + 64 * dregs
def winSize (regs dregs : Nat) : Nat := frameBase regs dregs + 64

def Grid.gangs (g : Grid) : Nat := g.pgangs + g.cgangs
/-- Gangs of a team that run on its home core (R162). -/
def Grid.lead (g : Grid) : Nat := if g.paired then (g.gangs + 1) / 2 else g.gangs
/-- Windows of the gangs from one number up to another. -/
def Grid.windows (g : Grid) (lo hi : Nat) : Nat :=
  (List.range (hi - lo)).foldl (fun n i => n + 32 * winSize (regsOf g (lo + i)) g.dregs) 0
/-- A team's share of the store of its home core, or of the follower. -/
def Grid.share (g : Grid) (home : Bool) : Nat :=
  if home then g.windows 0 g.lead + g.scrsize + 2048 * g.chans + 128 else g.windows g.lead g.gangs
def Grid.footprint (g : Grid) : Nat := g.windows 0 g.gangs + g.scrsize + 2048 * g.chans + 128

/-- Bytes of a core's store that its resident teams hold. -/
def State.footprints (s : State) (c : Nat) : Nat :=
  s.teams.foldl (fun n e =>
    let g := s.grid e.2.grid
    if e.2.core == c then n + g.share true else if g.paired && e.2.core + 1 == c then n + g.share false else n) 0

/-- Lines that a core's L1 portion can hold: the store less the overflow bin and the footprints, and at least 128 KiB (R242,
R244). -/
def State.l1Room (s : State) (c : Nat) : Nat := max 2048 ((32768 * (s.core c).banks.length - 32768 - s.footprints c) / 64)

/-- Whether a line is replaced before another: a line marked first for eviction, then the one used longer ago (R125, log
entry 79). -/
def L1Line.before (a b : L1Line) : Bool := (a.first && !b.first) || (a.first == b.first && a.use < b.use)

/-- The key of the line of an L1 to replace. -/
def l1Victim : Tbl L1Line → Option (Nat × L1Line)
  | [] => none
  | e :: r =>
    match l1Victim r with
    | none => some e
    | some x => if x.2.before e.2 then some x else some e

/-- Lines leave an L1 until it holds no more than fit. The count bounds them. -/
def State.l1Trim (s : State) (c room : Nat) : Nat → State
  | 0 => s
  | n + 1 =>
    if (s.core c).l1.length ≤ room then s
    else
      match l1Victim (s.core c).l1 with
      | none => s
      | some e => (s.evictL1 c e.1).l1Trim c room n

/-- The L1 gives up the store that a team's footprint takes (R244). -/
def State.l1Reclaim (s : State) (c : Nat) : State := s.l1Trim c (s.l1Room c) (s.core c).l1.length

/-! ## The L2 -/

/-- An owner is promoted: its core, its pair's other core and the rest of a fused cluster write back every dirty line (R279). -/
def State.promoteCore (s : State) (o : Nat) : State :=
  let cores := if s.fused.contains (clusterOf o) then (List.range 8).map (8 * clusterOf o + ·)
    else [2 * (o / 2), 2 * (o / 2) + 1]
  cores.foldl (fun s c => s.writeBackAll c) s

/-- Promotes the owner named by a line's tag, and the tag clears (R279). -/
def State.promote (s : State) (line : Nat) : State :=
  match Tbl.look s.l2 line with
  | none => s
  | some l =>
    match l.owner with
    | none => s
    | some o => { s.promoteCore o with l2 := Tbl.put s.l2 line { l with owner := none } }

/-- A slice's bad copy of a line is not kept: what HBM holds behind it stays (R248, log entry 80). -/
def State.giveUp (s : State) (line : Nat) (l : L2Line) : State :=
  { s with
    l2 := Tbl.drop s.l2 line
    mem := Memory.setBytes s.mem (64 * line) (lineBytes l.back 0 64)
    lineKey := Tbl.put s.lineKey line l.backKey }

/-- The words of a line that its slice holds otherwise than HBM does, by PA / 4. -/
def State.newerWords (s : State) (line : Nat) (l : L2Line) : List Nat :=
  ((List.range 16).map (16 * line + ·)).filter (fun w =>
    Tbl.at s.lineKey line [] != l.backKey || Memory.getBytes s.mem (4 * w) 4 != lineBytes l.back (4 * (w % 16)) 4)

/-- A line leaves its slice; a tagged line promotes its owner first (R279). Of a bad line nothing newer can be written back: the words
that HBM does not hold are uncorrectable there from then on (R248, log entry 80). -/
def State.evictL2 (s : State) (line : Nat) : State :=
  let s := s.promote line
  match Tbl.look s.l2 line with
  | none => s
  | some l =>
    if l.bad then
      { s.giveUp line l with badWords := s.badWords ++ (s.newerWords line l).filter (fun w => !s.badWords.contains w) }
    else { s with l2 := Tbl.drop s.l2 line }

/-- Owner code of a way reserved by a sealed partition; other owners are context IDs (R251). -/
def wayOfPart (p : Nat) : Nat := 4096 + p

/-- Ways a context may allocate in on a die (R251). -/
def State.waysOf (s : State) (d ctx : Nat) : List Nat :=
  let die := s.die d
  let x := s.ctx ctx
  let own (w : Nat) : Bool :=
    match Tbl.look die.ways w with
    | some o => o == ctx || o == wayOfPart x.part
    | none => Tbl.look die.lent w == some ctx
        || (!x.loop.ctrl.getLsbD 31 && Tbl.look die.lent w == none)
  (List.range 16).filter own

/-- Counts an access in the shadow-tag monitor of the core on the line's die (R253). -/
def State.monitorAccess (s : State) (c line : Nat) : State :=
  let pa := 64 * line
  if l2Set pa % 64 != 0 then s
  else
    s.modCore c (fun k =>
      let place := l2Place pa
      let tags := Tbl.at k.monitor.tags place []
      let key := homeDie pa * 16 + tags.findIdx (· == line)
      let hitd := if tags.contains line then Tbl.put k.monitor.hitd key (Tbl.at k.monitor.hitd key 0 + 1) else k.monitor.hitd
      { k with monitor := { tags := Tbl.put k.monitor.tags place ((line :: tags.filter (· != line)).take 16), hitd := hitd } })

/-- Whether a line is replaced before another: one that a copy brought in as first for eviction, then the one used longer ago
(R251, R291). -/
def L2Line.before (a b : L2Line) : Bool := (a.first && !b.first) || (a.first == b.first && a.use < b.use)

/-- The line to replace in a set: the least recently used unpinned line that stands in one of the ways. -/
def oldestIn (lines : List (Nat × L2Line)) (ways : List Nat) : Option Nat :=
  ((lines.filter (fun e => ways.contains e.2.way && e.2.pins == 0)).foldl
    (fun (b : Option (Nat × L2Line)) e => match b with
      | none => some e
      | some x => if e.2.before x.2 then some e else some x) none).map (·.1)

/-- A line takes a way of its set. -/
def State.l2Fill (s : State) (key line way : Nat) : State :=
  let l : L2Line :=
    { key := key, way := way, use := s.l2use, owner := none, pins := 0, bad := false
      back := lineOfBytes (s.rawLine line), backKey := Tbl.at s.lineKey line [] }
  { s with l2 := Tbl.put s.l2 line l }

/-- A line that its slice does not hold takes a free way of those its context may allocate in, or the place of the line
used least recently there; when all are pinned it is not kept (R247, R251). -/
def State.l2Allocate (s : State) (ctx key line : Nat) : State :=
  let set := s.l2.filter (fun e => l2Place (64 * e.1) == l2Place (64 * line))
  let ways := s.waysOf (homeDie (64 * line)) ctx
  match ways.find? (fun w => !set.any (fun e => e.2.way == w)) with
  | some w => s.l2Fill key line w
  | none =>
    match oldestIn set ways with
    | none => s
    | some v =>
      match Tbl.look s.l2 v with
      | none => s
      | some l => (s.evictL2 v).l2Fill key line l.way

/-- Whether a slice holds a line under a key ID. -/
def State.l2Hit (s : State) (key line : Nat) : Bool :=
  match Tbl.look s.l2 line with
  | some l => l.key == key
  | none => false

/-- Whether a line stands in a way that a sealed partition other than the context's reserves: no lookup of the context hits
it there (R359). -/
def State.l2Hidden (s : State) (ctx line : Nat) : Bool :=
  match Tbl.look s.l2 line with
  | none => false
  | some l =>
    match Tbl.look (s.die (homeDie (64 * line))).ways l.way with
    | none => false
    | some o => 4096 ≤ o && o != wayOfPart (s.ctx ctx).part

/-- A line is used in its slice: one held there under the key stands as used last, another comes in. -/
def State.l2Use (s : State) (ctx key line : Nat) : State :=
  if s.l2Hidden ctx line then s
  else if s.l2Hit key line then { s with l2 := Tbl.adjust s.l2 line (fun l => { l with use := s.l2use, first := false }) }
  else (if (Tbl.look s.l2 line).isSome then s.evictL2 line else s).l2Allocate ctx key line

/-- Brings a line into its home slice for an access by a context from a core, under a key ID (R247, R251, R253). The data
of an L2 line are those of memory under its key. -/
def State.l2Touch (s : State) (c ctx key line : Nat) : State :=
  if isSystem (64 * line) then s else ({ s.monitorAccess c line with l2use := s.l2use + 1 } : State).l2Use ctx key line

/-- Whether the copy that a context's lookup finds in the slice is uncorrectable. -/
def State.l2Spoiled (s : State) (ctx line : Nat) : Bool :=
  !s.l2Hidden ctx line && (match Tbl.look s.l2 line with | some l => l.bad | none => false)

/-- Whether data of a line are uncorrectable for a context: by an error of the slice, or of the memory behind it. -/
def State.l2Bad (s : State) (ctx pa n : Nat) : Bool := s.physBad pa n || s.l2Spoiled ctx (pa / 64)

/-- A slice's bad copy of a line gives way to what HBM holds behind it. -/
def State.reload (s : State) (line : Nat) (l : L2Line) : State :=
  { s with
    l2 := Tbl.put s.l2 line { l with bad := false }
    mem := Memory.setBytes s.mem (64 * line) (lineBytes l.back 0 64)
    lineKey := Tbl.put s.lineKey line l.backKey }

/-- A line with an uncorrectable error is not kept in its slice (R248). -/
def State.l2Lose (s : State) (line : Nat) : State :=
  let s := s.promote line
  match Tbl.look s.l2 line with
  | none => s
  | some l =>
    if l.bad then s.giveUp line l
    else if s.physBad (64 * line) 64 then { s with l2 := Tbl.drop s.l2 line }
    else s

/-- A context's access to a line that several partitions share and whose slice copy is bad invalidates the line and refetches it from
HBM (R343). -/
def State.refetch (s : State) (ctx line : Nat) (shared : Bool) : State :=
  match Tbl.look s.l2 line with
  | none => s
  | some l => if s.l2Spoiled ctx line && shared then s.reload line l else s

/-- What an access leaves of a line it found bad. -/
def State.settleLine (s : State) (ctx line : Nat) : State := if s.l2Bad ctx (64 * line) 64 then s.l2Lose line else s

/-! ## Translation (R256 to R260) -/

/-- What a translation yields. Permissions: R, W, X, U of stage 1 in bits 0 to 3; R, W, X of stage 2. -/
structure Mapping where
  pa : Nat
  key : Nat
  perm1 : BitVec 4
  perm2 : BitVec 4
  /-- page size in bits, and that of the stage-1 page -/
  bits : Nat
  bits1 : Nat
  deriving DecidableEq, Repr, Inhabited

/-- A leaf of one stage: base, page size in bits, permissions and key ID. -/
structure Leaf where
  base : Nat
  bits : Nat
  perm : BitVec 4
  key : Nat
  deriving DecidableEq, Repr, Inhabited

def entryPerm (e : Nat) : BitVec 4 :=
  BitVec.ofNat 4 (b2n (bitOf e 2) + 2 * b2n (bitOf e 4) + 4 * b2n (bitOf e 5) + 8 * b2n (bitOf e 3))

/-- The checks of R257 on an entry that do not need its partners. `s2` marks the second stage. -/
def entrySound (s2 : Bool) (level e : Nat) : Bool :=
  let leaf := bitOf e 1
  let pageBits := 12 + 9 * level
  bitOf e 0 && !(level == 0 && !leaf) && !(level == 3 && leaf)
  && bitsOf e 53 52 == 0 && bitsOf e 11 7 == 0
  && (!leaf || e / 2 ^ 12 % 2 ^ (pageBits - 12) == 0)
  && (bitsOf e 63 54 == 0 || (s2 && leaf))
  && !(bitOf e 6 && !(level == 0 && leaf))

/-- The sixteen entries of a 64 KiB page agree in all but ADDR, and their addresses are consecutive from a 64 KiB boundary. -/
def contSound (es : List Nat) : Bool :=
  match es with
  | [] => false
  | e :: _ =>
    let strip (x : Nat) : Nat := x - bitsOf x 51 12 * 2 ^ 12
    bitsOf e 51 12 % 16 == 0
    && ((List.range 16).zip es).all (fun p => strip p.2 == strip e && bitsOf p.2 51 12 == bitsOf e 51 12 + p.1)

/-- Walks down from a level. `rd` reads the 64-bit entry at a table address; a fault is the code and its stage. -/
def walkLevel (rd : Nat → Except (Nat × Bool) Nat) (s2 : Bool) (va : Nat) : Nat → Nat → Nat → Except (Nat × Bool) Leaf
  | level, table, idxBits => do
    let idx := va / 2 ^ (12 + 9 * level) % 2 ^ idxBits
    let e ← rd (table + 8 * idx)
    if !entrySound s2 level e then .error (8, s2)
    else if bitOf e 1 then
      if bitOf e 6 then
        let es ← ((List.range 16).map (fun j => table + 8 * (16 * (idx / 16) + j))).mapM rd
        if !contSound es then .error (8, s2)
        else .ok ⟨bitsOf (es.headD 0) 51 12 * 2 ^ 12, 16, entryPerm e, bitsOf e 63 54⟩
      else .ok ⟨bitsOf e 51 12 * 2 ^ 12, 12 + 9 * level, entryPerm e, bitsOf e 63 54⟩
    else
      match level with
      | 0 => .error (8, s2)
      | l + 1 => walkLevel rd s2 va l (bitsOf e 51 12 * 2 ^ 12) 9

/-- A byte as a unit other than a thread's load reads it for a context: in a word with an uncorrectable error it has an open
value (log entry 6). A line that several partitions share is refetched first (R343). -/
def State.openByte (s : State) (ctx : Nat) (shared : Bool) (key pa : Nat) : Byte :=
  if (s.refetch ctx (pa / 64) shared).l2Bad ctx (4 * (pa / 4)) 4 then
    (Config.freeWord (s.free + pa / 4)).extractLsb' (8 * (pa % 4)) 8
  else (s.refetch ctx (pa / 64) shared).physByte key pa

/-- A 64-bit little-endian word of physical memory. -/
def State.physWord64 (s : State) (ctx : Nat) (shared : Bool) (key pa : Nat) : Nat :=
  leNat ((List.range 8).map (fun i => s.openByte ctx shared key (pa + i)))

/-- Whether the slice's copy of a line, or a word of the line behind it, is uncorrectable. -/
def State.lineBad (s : State) (line : Nat) : Bool :=
  s.physBad (64 * line) 64 || (match Tbl.look s.l2 line with | some l => l.bad | none => false)

/-- What an access that belongs to no context leaves of a line: a bad one is not kept (R248). -/
def State.lineMet (s : State) (line : Nat) : State := if s.lineBad line then s.l2Lose line else s

/-- What such an access leaves of the lines of n bytes. -/
def State.bytesMet (s : State) (pa n : Nat) : State :=
  ((List.range ((pa % 64 + n + 63) / 64)).map (pa / 64 + ·)).foldl State.lineMet s

/-- A byte as such an access reads it, `b` where it is good: in a word with an uncorrectable error it has an open value (log entry 6). -/
def State.orOpen (s : State) (pa : Nat) (b : Byte) : Byte :=
  if s.physBad (4 * (pa / 4)) 4 || (match Tbl.look s.l2 (pa / 64) with | some l => l.bad | none => false) then
    (Config.freeWord (s.free + pa / 4)).extractLsb' (8 * (pa % 4)) 8
  else b

/-- A byte that such an access reads under a key ID. -/
def State.deviceByte (s : State) (key pa : Nat) : Byte := s.orOpen pa (s.physByte key pa)

/-- A byte that such an access reads at the home of its line, as the line's own key gives it. -/
def State.ownByte (s : State) (pa : Nat) : Byte :=
  s.orOpen pa (match s.pageAt pa with
    | some e => s.vcpByte e.1 e.2
    | none => Memory.get s.mem pa)

/-- Bytes from outside are performed at the home of each line, under the key its line holds now, and a bad line that they meet is not
kept (R248). -/
def State.deviceStore (s : State) : Nat → List Byte → State
  | _, [] => s
  | a, b :: r => ((s.lineMet (a / 64)).putBytes a [b]).deviceStore (a + 1) r

/-! ### Lines that several partitions share (R343) -/

/-- The entries of a table of n in which some byte is listed in memory; every other entry reads as zero, and so is not valid. -/
def State.listedEntries (s : State) (table n : Nat) : List Nat :=
  s.mem.foldl (fun a c =>
    if table ≤ c.1 && c.1 < table + 8 * n && !a.contains ((c.1 - table) / 8) then (c.1 - table) / 8 :: a else a) []

/-- The leaves under a stage-2 table of a level. -/
def State.leavesUnder (s : State) : Nat → Nat → Nat → List Leaf
  | level, table, n =>
    (s.listedEntries table n).flatMap (fun i =>
      let e := leNat ((List.range 8).map (fun k => s.physByte 0 (table + 8 * i + k)))
      if !entrySound true level e then []
      else if bitOf e 1 then [⟨bitsOf e 51 12 * 2 ^ 12, 12 + 9 * level, entryPerm e, bitsOf e 63 54⟩]
      else
        match level with
        | 0 => []
        | l + 1 => State.leavesUnder s l (bitsOf e 51 12 * 2 ^ 12) 512)

/-- Whether a partition maps an address read-only under a key ID. -/
def State.mapsReadOnly (s : State) (p : Partition) (key pa : Nat) : Bool :=
  p.built && (s.leavesUnder 3 p.root (2 ^ 18)).any (fun l =>
    l.base ≤ pa && pa < l.base + 2 ^ l.bits && l.key == key && !l.perm.getLsbD 1)

/-- A line of a page that a leaf maps read-only, and that more than one partition maps so. -/
def State.sharedAt (s : State) (perm2 : BitVec 4) (key pa : Nat) : Bool :=
  !perm2.getLsbD 1 && 2 ≤ (s.parts.filter (fun e => s.mapsReadOnly e.2 key pa)).length

/-- An entry of a stage-2 table. -/
def State.entry2 (s : State) (ctx a : Nat) : Except (Nat × Bool) Nat :=
  if covered a then .ok (s.physWord64 ctx false 0 a) else .error (8, true)

/-- Stage 2: an intermediate address to its leaf, under the root of a partition. Bits [63:57] of an intermediate address, which a PTROOT
can hold, are not looked at (DESIGN CHOICE, log entry 113). -/
def State.walk2 (s : State) (ctx root ia : Nat) : Except (Nat × Bool) Leaf := walkLevel (s.entry2 ctx) true ia 3 root 18

def Leaf.addr (l : Leaf) (a : Nat) : Nat := l.base + a % 2 ^ l.bits

/-- Reads a stage-1 table entry through stage 2; the read needs load permission there (log entry 16). -/
def State.entryThrough2 (s : State) (ctx root ia : Nat) : Except (Nat × Bool) Nat := do
  let l ← s.walk2 ctx root ia
  if !l.perm.getLsbD 0 then .error (9, true)
  else if !covered (l.addr ia) then .error (8, true)
  else .ok (s.physWord64 ctx (s.sharedAt l.perm l.key (l.addr ia)) l.key (l.addr ia))

/-- What an access needs of a page. -/
structure Need where
  load : Bool := false
  store : Bool := false
  fetch : Bool := false
  user : Bool := true
  deriving DecidableEq, Repr, Inhabited

def Need.ok1 (n : Need) (p : BitVec 4) : Bool :=
  (!n.load || p.getLsbD 0) && (!n.store || p.getLsbD 1) && (!n.fetch || p.getLsbD 2) && (!n.user || p.getLsbD 3)
def Need.ok2 (n : Need) (p : BitVec 4) : Bool :=
  (!n.load || p.getLsbD 0) && (!n.store || p.getLsbD 1) && (!n.fetch || p.getLsbD 2)

/-- Walks both stages for a virtual address of a context (R257's order). A page that stage 2 forbids and no row of R246 covers is
reported as forbidden (DESIGN CHOICE, log entry 112). -/
def State.walk (s : State) (ctx : Nat) (n : Need) (va : Nat) : Except (Nat × Bool) Mapping := do
  let x := s.ctx ctx
  let root2 := (Tbl.at s.parts x.part {}).root
  let rbits := x.xlctl.toNat % 32
  if va / 2 ^ (39 + rbits) % 2 ^ (57 - (39 + rbits)) ≠ 0 then .error (8, false)
  else
    let l1 ← walkLevel (fun a => s.entryThrough2 ctx root2 a) false va 3 x.ptroot.toNat rbits
    if !n.ok1 l1.perm then .error (9, false)
    else
      let ia := l1.addr va
      let l2 ← s.walk2 ctx root2 ia
      if !n.ok2 l2.perm then .error (9, true)
      else if !covered (l2.addr ia) then .error (8, true)
      else .ok ⟨l2.addr ia, l2.key, l1.perm, l2.perm, min l1.bits l2.bits, l1.bits⟩

/-! ### Lines that a walk meets (R248) -/

/-- The addresses of the entries that `walkLevel` reads. -/
def walkReads (rd : Nat → Except (Nat × Bool) Nat) (s2 : Bool) (va : Nat) : Nat → Nat → Nat → List Nat
  | level, table, idxBits =>
    let idx := va / 2 ^ (12 + 9 * level) % 2 ^ idxBits
    let at' := table + 8 * idx
    at' :: (match rd at' with
      | .error _ => []
      | .ok e =>
        if !entrySound s2 level e then []
        else if bitOf e 1 then (if bitOf e 6 then (List.range 16).map (fun j => table + 8 * (16 * (idx / 16) + j)) else [])
        else
          match level with
          | 0 => []
          | l + 1 => walkReads rd s2 va l (bitsOf e 51 12 * 2 ^ 12) 9)

/-- The lines that a stage-2 walk reads, none of them shared. -/
def State.walk2Lines (s : State) (ctx root ia : Nat) : List (Nat × Bool) :=
  ((walkReads (s.entry2 ctx) true ia 3 root 18).filter covered).map (fun a => (a / 64, false))

/-- The lines that a read of a stage-1 entry meets, with whether each is shared. -/
def State.entryLines (s : State) (ctx root ia : Nat) : List (Nat × Bool) :=
  s.walk2Lines ctx root ia ++ (match s.walk2 ctx root ia with
    | .error _ => []
    | .ok l => if l.perm.getLsbD 0 && covered (l.addr ia) then [(l.addr ia / 64, s.sharedAt l.perm l.key (l.addr ia))] else [])

/-- The lines that a walk of both stages reads; `last` says whether it comes to the last stage-2 walk. -/
def State.walkLines (s : State) (ctx : Nat) (last : Bool) (va : Nat) : List (Nat × Bool) :=
  let x := s.ctx ctx
  let root2 := (Tbl.at s.parts x.part {}).root
  let rbits := x.xlctl.toNat % 32
  let rd (a : Nat) : Except (Nat × Bool) Nat := s.entryThrough2 ctx root2 a
  if va / 2 ^ (39 + rbits) % 2 ^ (57 - (39 + rbits)) ≠ 0 then []
  else
    (walkReads rd false va 3 x.ptroot.toNat rbits).flatMap (s.entryLines ctx root2)
      ++ (match last, walkLevel rd false va 3 x.ptroot.toNat rbits with
          | true, .ok l => s.walk2Lines ctx root2 (l.addr va)
          | _, _ => [])

/-- Whether anything on the device is uncorrectable. -/
def State.anyBad (s : State) : Bool := !s.badWords.isEmpty || s.l2.any (fun e => e.2.bad)

/-- What reads of lines by a context leave: a bad one is refetched when it is shared, and not kept when it is bad all the same. -/
def State.settleLines (s : State) (ctx : Nat) (ls : List (Nat × Bool)) : State :=
  ls.foldl (fun s l => (s.refetch ctx l.1 l.2).settleLine ctx l.1) s

/-- What a walk leaves of the lines it reads. -/
def State.walkMet (s : State) (ctx : Nat) (last : Bool) (va : Nat) : State :=
  if s.anyBad then s.settleLines ctx (s.walkLines ctx last va) else s

/-- The entry of a cache that holds a translation of an address. -/
def tlbFind (tlb : List TlbEntry) (ctx va : Nat) : Option TlbEntry :=
  tlb.find? (fun e => e.ctx == ctx && va / 2 ^ e.bits == e.page)

/-- The cached translations of a cluster. -/
def State.clusterTlb (s : State) (n : Nat) : List TlbEntry := Tbl.at s.ctlb n []

/-- The cached translation of an address: the core's, or its cluster's (R259). -/
def State.cached (s : State) (c ctx va : Nat) : Option TlbEntry :=
  match tlbFind (s.core c).tlb ctx va with
  | some e => some e
  | none => tlbFind (s.clusterTlb (clusterOf c)) ctx va

/-- A core caches a translation in its 64 entries. -/
def State.keepTlb (s : State) (c : Nat) (e : TlbEntry) : State :=
  s.modCore c (fun k => { k with tlb := (e :: k.tlb.filter (· != e)).take 64 })

/-- The result of a walk is cached by the core and by its cluster, in 2,048 entries. -/
def State.fillTlb (s : State) (c : Nat) (e : TlbEntry) : State :=
  ({ s with ctlb := Tbl.put s.ctlb (clusterOf c) ((e :: s.clusterTlb (clusterOf c)).take 2048) } : State).keepTlb c e

/-- Cached translations that a test names go, at every core and cluster. -/
def State.dropTlbs (s : State) (gone : TlbEntry → Bool) : State :=
  { s with
    cores := s.cores.map (fun (e : Nat × Core) => (e.1, { e.2 with tlb := e.2.tlb.filter (fun t => !gone t) }))
    ctlb := s.ctlb.map (fun e => (e.1, e.2.filter (fun t => !gone t))) }

/-- What a cached translation yields for an address. -/
def TlbEntry.mapping (e : TlbEntry) (va : Nat) : Mapping := ⟨e.pa + va % 2 ^ e.bits, e.key, e.perm1, e.perm2, e.bits, e.bits1⟩
/-- The entry that caches a walk. -/
def Mapping.entry (m : Mapping) (ctx va : Nat) : TlbEntry :=
  ⟨ctx, va / 2 ^ m.bits, m.bits, m.bits1, m.pa - va % 2 ^ m.bits, m.key, m.perm1, m.perm2⟩

/-- Translates a virtual address for an access; the state answered holds the new cached translation (R259), and no bad line that the
walk met (R248). The PA must lie in
a row of R246 for a cached translation too: a page may run past the end of a die's stacks. -/
def State.translate (s : State) (c ctx : Nat) (n : Need) (va : Nat) : Except (Nat × Bool) (State × Mapping) :=
  match s.cached c ctx va with
  | some e =>
    if !n.ok1 e.perm1 then .error (9, false)
    else if !n.ok2 e.perm2 then .error (9, true)
    else if !covered (e.mapping va).pa then .error (8, true)
    else .ok (s.keepTlb c e, e.mapping va)
  | none =>
    match s.walk ctx n va with
    | .error e => .error e
    | .ok m => .ok ((s.walkMet ctx true va).fillTlb c (m.entry ctx va), m)

/-- A canonical virtual address: bits [63:57] equal bit 56 (R118). -/
def canonical (va : Nat) : Bool := va / 2 ^ 56 % 2 ^ 8 == 0 || va / 2 ^ 56 % 2 ^ 8 == 255

/-! ## Global accesses after translation -/

/-- Who performs a global access: its core, the L1 that serves the line, and the context. -/
structure Via where
  core : Nat
  l1 : Nat
  ctx : Nat
  deriving DecidableEq, Repr, Inhabited

/-- A line as an L1 would hold it clean: its data and which of its words are uncorrectable. -/
def State.freshLine (s : State) (v : Via) (key line : Nat) (const : Bool) : L1Line :=
  { line := line, key := key, ctx := v.ctx, const := const, data := lineOfBytes (s.physBytes key (64 * line) 64), dirty := 0
    bad := BitVec.ofNat 16 (((List.range 16).filter (fun w => s.l2Bad v.ctx (64 * line + 4 * w) 4)).foldl (fun a w => a + 2 ^ w) 0) }

/-- A line as used now: under `strm` it is marked first for eviction (R125). -/
def L1Line.used (l : L1Line) (n policy : Nat) : L1Line := { l with use := n, first := policy == 2 }

/-- An L1 holds a line as used last, and gives up another where it has no room. -/
def State.l1Put (s : State) (l1 policy : Nat) (l : L1Line) : State :=
  let s := s.modCore l1 (fun c => { c with
    l1 := Tbl.put c.l1 (l1Key l.line l.const) (l.used (c.l1use + 1) policy), l1use := c.l1use + 1 })
  s.l1Trim l1 (s.l1Room l1) 1

/-- An L1 keeps a fetched line, unless it has an uncorrectable error: then neither it nor the slice keeps it (R248). -/
def State.l1Keep (s : State) (v : Via) (policy : Nat) (l : L1Line) : State :=
  if l.bad == 0 then s.l1Put v.l1 policy l else s.settleLine v.ctx l.line

/-- Fetches a line into an L1 by way of its slice. -/
def State.l1Fill (s : State) (v : Via) (policy key line : Nat) (const : Bool) : State × L1Line :=
  let s := s.l2Touch v.core v.ctx key line
  (s.l1Keep v policy (s.freshLine v key line const), s.freshLine v key line const)

/-- Brings a line into an L1, and answers it. A line held under another key ID is written back first. -/
def State.l1Fetch (s : State) (v : Via) (policy key line : Nat) (const : Bool) : State × L1Line :=
  match Tbl.look (s.core v.l1).l1 (l1Key line const) with
  | some l => if l.key == key then (s.l1Put v.l1 policy l, l) else (s.evictL1 v.l1 (l1Key line const)).l1Fill v policy key line const
  | none => s.l1Fill v policy key line const

/-- What a load yields: bytes, and whether any covered word carries an uncorrectable error, per byte. -/
abbrev Loaded := List (Byte × Bool)

/-- An access finds a shared line refetched (R343). -/
def State.meetLine (s : State) (v : Via) (m : Mapping) : State :=
  s.refetch v.ctx (m.pa / 64) (s.sharedAt m.perm2 m.key m.pa)

/-- A load of n bytes within one line under a policy (R125): 0 `dflt`, 1 `byp`, 2 `strm`. Under `byp` the thread's own earlier
stores are performed first (R124), and the L1 keeps no copy, which a later load would find older than what this one saw (R268). -/
def State.globalLoad (s : State) (v : Via) (m : Mapping) (policy n : Nat) (const : Bool) : State × Loaded :=
  let line := m.pa / 64
  if policy == 1 then
    let s := s.evictL1 v.l1 (l1Key line false)
    let s := (s.l2Touch v.core v.ctx m.key line).meetLine v m
    (s.settleLine v.ctx line, (List.range n).map (fun i => (s.physByte m.key (m.pa + i), s.l2Bad v.ctx (4 * ((m.pa + i) / 4)) 4)))
  else
    let r := (s.meetLine v m).l1Fetch v policy m.key line const
    (r.1, (List.range n).map (fun i => let o := m.pa % 64 + i; (lineByte r.2.data o, r.2.bad.getLsbD (o / 4))))

/-- A store of bytes within one line under a policy (R125). A line with an uncorrectable error is not kept: the store is then
performed at the slice (R248). -/
def State.globalStore (s : State) (v : Via) (m : Mapping) (policy : Nat) (bs : List Byte) : State :=
  let line := m.pa / 64
  if policy == 1 then
    let s := s.evictL1 v.l1 (l1Key line false)
    let s := (s.l2Touch v.core v.ctx m.key line).settleLine v.ctx line
    s.physWrite m.key m.pa bs
  else
    let r := s.l1Fetch v policy m.key line false
    let o := m.pa % 64
    if r.2.bad == 0 then
      r.1.l1Put v.l1 policy { r.2 with data := lineSet r.2.data o bs, dirty := r.2.dirty ||| onesAt 64 o bs.length }
    else r.1.physWrite m.key m.pa bs

/-- Puts a line at its home slice for an indivisible operation: the issuing L1's dirty bytes are written back and the line
leaves that L1 (R277). -/
def State.atHome (s : State) (v : Via) (m : Mapping) : State :=
  let line := m.pa / 64
  let s := s.evictL1 v.l1 (l1Key line false)
  s.l2Touch v.core v.ctx m.key line

/-- The byte a load under `dflt` by way of an L1 sees: the L1's copy, or the slice's. -/
def State.viewByte (s : State) (l1 key pa : Nat) : Byte :=
  match Tbl.look (s.core l1).l1 (l1Key (pa / 64) false) with
  | some l => if l.key == key then lineByte l.data (pa % 64) else s.physByte key pa
  | none => s.physByte key pa

/-- The release is about to replace a line's owner tag: another owner is promoted first (R279). -/
def State.yieldTag (s : State) (line core : Nat) : State :=
  match Tbl.look s.l2 line with
  | none => s
  | some l => if l.owner.isSome && l.owner != some core then s.promote line else s

/-- Sets a line's owner tag at a release of gang or team scope; another owner is promoted first. A line that no slice keeps can hold
no tag, so its owner is promoted at once (R279); so is that of a line of system memory, which no slice holds (R247, log entry
106). -/
def State.tagOwner (s : State) (line core : Nat) : State :=
  match Tbl.look s.l2 line with
  | none => s.promoteCore core
  | some l =>
    let s := if l.owner.isSome && l.owner != some core then s.promote line else s
    { s with l2 := Tbl.adjust s.l2 line (fun l => { l with owner := some core }) }

/-- A release or release fence at cluster scope or wider: the L1 portions write back (R270, R272). -/
def State.releaseAt (s : State) (c : Nat) (team : Team) (scope : Nat) : State :=
  if scope < 2 then s else (s.l1Cores c team).foldl (fun s k => s.writeBackAll k) s

/-- An acquire at cluster scope or wider: the clean global lines of the thread's L1 go; dirty lines are written back first,
which R270 allows at any time, so no stale byte of them stays. -/
def State.acquireAt (s : State) (c : Nat) (team : Team) (scope : Nat) : State :=
  if scope < 2 then s else (s.l1Cores c team).foldl (fun s k => s.flushL1 k false) s

/-! ## Accesses of the device's own units -/

/-- The mapping of the next byte of an access of the device's own units: the line's, while the access stays in it. Each line is
translated on its own. -/
def State.unitMap (s : State) (ctx : Nat) (n : Need) (last : Option Mapping) (va : Nat) : Except (Nat × Bool × Nat) Mapping :=
  match if va % 64 = 0 then none else last with
  | some m => .ok { m with pa := m.pa + 1 }
  | none =>
    if !canonical va then .error (11, false, va)
    else
      match s.walk ctx n va with
      | .error e => .error (e.1, e.2, va)
      | .ok m => .ok m

/-- Reads n bytes; `last` is the mapping of the byte before. -/
def State.unitReadFrom (s : State) (ctx : Nat) (n : Need) : Option Mapping → Nat → Nat → Except (Nat × Bool × Nat) (List Byte)
  | _, _, 0 => .ok []
  | last, va, k + 1 =>
    match s.unitMap ctx n last va with
    | .error e => .error e
    | .ok m =>
      match s.unitReadFrom ctx n (some m) (va + 1) k with
      | .error e => .error e
      | .ok r => .ok (s.openByte ctx (s.sharedAt m.perm2 m.key m.pa) m.key m.pa :: r)

/-- Reads n bytes of a context's global memory for a unit that walks no cache of a core: the front end, the tile units and
the firmware. -/
def State.unitRead (s : State) (ctx : Nat) (n : Need) (va k : Nat) : Except (Nat × Bool × Nat) (List Byte) := s.unitReadFrom ctx n none va k

/-- What an access of such a unit leaves of the lines it meets, from the one that holds an address: those of its walks, and those of its
data (R248). It ends with the first line that it cannot reach. -/
def State.unitLines (s : State) (ctx : Nat) (n : Need) : Nat → Nat → State
  | _, 0 => s
  | va, k + 1 =>
    if !canonical va then s
    else
      match s.walk ctx n va with
      | .error e => s.walkMet ctx (e != (9, false)) va
      | .ok m =>
        ((s.walkMet ctx true va).settleLines ctx [(m.pa / 64, s.sharedAt m.perm2 m.key m.pa)]).unitLines ctx n (64 * (va / 64) + 64) k

/-- What an access of k bytes by such a unit leaves of the bad lines it meets. -/
def State.unitMet (s : State) (ctx : Nat) (n : Need) (va k : Nat) : State :=
  if s.anyBad && k != 0 then s.unitLines ctx n va ((va % 64 + k + 63) / 64) else s

/-- A line that its slice holds under another key ID leaves it (R247). -/
def State.ownKey (s : State) (key line : Nat) : State :=
  match Tbl.look s.l2 line with
  | some l => if l.key == key then s else s.evictL2 line
  | none => s

/-- Writes bytes; `last` is the mapping of the byte before. -/
def State.unitWriteFrom (s : State) (ctx : Nat) (n : Need) : Option Mapping → Nat → List Byte → Except (Nat × Bool × Nat) State
  | _, _, [] => .ok s
  | last, va, b :: r =>
    match s.unitMap ctx n last va with
    | .error e => .error e
    | .ok m => State.unitWriteFrom ((s.ownKey m.key (m.pa / 64)).physWrite m.key m.pa [b]) ctx n (some m) (va + 1) r

/-- Writes bytes to a context's global memory for such a unit; every byte must be mapped. -/
def State.unitWrite (s : State) (ctx : Nat) (n : Need) (va : Nat) (bs : List Byte) : Except (Nat × Bool × Nat) State :=
  (s.unitMet ctx n va bs.length).unitWriteFrom ctx n none va bs

end Sys2Proof.Machine
end

