-- ==== Sys2Proof/Machine/Ops.lean ====
section
/-!
DEFINITION. The named operations over registers, windows and passes: a lane's view, the register window (R118) and the fault
frame (R23), clause fetch (R12, R13, R107), placement (R166 to R168), taking a fault and returning from one (R22, R338,
R113), long-latency operations (R18 to R21), and the two ways an instruction acts on the lanes of a pass (R171).
-/
namespace Sys2Proof.Machine

/-! ## The pass that has the turn -/

/-- Core, pipe and pass of the pipe that has the turn. -/
def State.curPass (s : State) : Option (Nat × Nat × Pass) :=
  match s.turn with
  | .pipe c p => (Tbl.look (s.core c).pipes p).map (fun x => (c, p, x))
  | .hart _ => none

def State.setPass (s : State) (c p : Nat) (x : Pass) : State :=
  s.modCore c (fun k => { k with pipes := Tbl.put k.pipes p x })

/-! ## A lane's view -/

/-- What a thread of a pass sees of the machine around it. -/
structure Lane where
  core : Nat
  slot : Nat
  hdr : DWord
  clause : DWord
  idx : Nat
  passId : Nat
  deriving DecidableEq, Repr, Inhabited

namespace Lane
def num (l : Lane) : Nat := l.slot % 32
def gslot (l : Lane) : Nat := l.slot / 32
end Lane

def Pass.lane (x : Pass) (c k : Nat) : Lane := ⟨c, k, x.hdr, x.clause, x.idx, x.id⟩

def Lane.thr (l : Lane) (s : State) : Thread := s.thr l.core l.slot
def Lane.gang (l : Lane) (s : State) : Gang := s.gang l.core l.gslot
def Lane.team (l : Lane) (s : State) : Team := s.gangTeam l.core l.gslot
def Lane.grid (l : Lane) (s : State) : Grid := s.gangGrid l.core l.gslot
def Lane.ctxId (l : Lane) (s : State) : Nat := (l.grid s).ctx

def Lane.regs (l : Lane) (s : State) : Nat := regsOf (l.grid s) (l.gang s).num

/-- Whether a guard lets an instruction execute for a thread (R10). -/
def Thread.holds (th : Thread) (g : Guard) : Bool :=
  let p := if g.pred == 7 then true else th.preds.getLsbD g.pred.toNat
  p != g.neg

def Thread.pred (th : Thread) (n : Nat) : Bool := if n ≥ 7 then true else th.preds.getLsbD n
/-- Sets a predicate; a write to p7 is discarded (R10). -/
def Thread.setPred (th : Thread) (n : Nat) (b : Bool) : Thread :=
  if n ≥ 7 then th
  else { th with preds := if b then th.preds ||| onesAt 7 n 1 else th.preds &&& ~~~(onesAt 7 n 1) }

/-! ## Registers (R58: a register beyond REGS reads zero and discards writes) -/

def Thread.readV (th : Thread) (regs n : Nat) : Word := if n < regs then Tbl.at th.v n 0 else 0
def Thread.poisonV (th : Thread) (regs n : Nat) : Bool := n < regs && Tbl.at th.vPoison n false
/-- Writes a v word with its poison bit (R128). -/
def Thread.putV (th : Thread) (regs n : Nat) (w : Word) (bad : Bool) : Thread :=
  if n < regs then { th with v := Tbl.put th.v n w, vPoison := if bad then Tbl.put th.vPoison n true else Tbl.drop th.vPoison n }
  else th
def Thread.readT (th : Thread) (n : Nat) : Word := Tbl.at th.t n 0
/-- Writes a temporary and makes it valid (R16). -/
def Thread.putT (th : Thread) (n : Nat) (w : Word) : Thread :=
  { th with t := Tbl.put th.t n w, tvalid := th.tvalid ||| onesAt 8 n 1 }
def Gang.readG (g : Gang) (n : Nat) : Word := Tbl.at g.g n 0
def Thread.flag (th : Thread) (n : Nat) : Nat := Tbl.at th.flags n 0
def Thread.setFlag (th : Thread) (n x : Nat) : Thread := { th with flags := Tbl.put th.flags n x }
def Thread.readD (th : Thread) (n : Nat) : BitVec 512 := Tbl.at th.d n 0

/-! ## The fault frame (R23) -/

/-- Bits of the frame that are not reserved: FPOS, FINFO, FADDR, TVALID and T0 to T7. -/
def frameMask : BitVec 512 :=
  BitVec.ofNat 512 ((2 ^ 160 - 1) + 0xFF * 2 ^ 224 + (2 ^ 256 - 1) * 2 ^ 256)

/-- The eight temporaries as a number. -/
def Thread.temps (th : Thread) : Nat :=
  (List.range 8).foldl (fun a n => a + (th.readT n).toNat * 2 ^ (32 * n)) 0

def Thread.writeFrame (th : Thread) (pos : DWord) (i : FaultInfo) : Thread :=
  { th with frame := BitVec.ofNat 512 (pos.toNat + 2 ^ 64 * i.finfo.toNat + 2 ^ 96 * i.faddr.toNat
      + 2 ^ 224 * th.tvalid.toNat + 2 ^ 256 * th.temps) }

def Thread.fpos (th : Thread) : DWord := th.frame.extractLsb' 0 64
def Thread.frameT (th : Thread) (n : Nat) : Word := th.frame.extractLsb' (256 + 32 * n) 32

/-- Position words (R11). -/
def entryPos (a : DWord) : DWord := a ||| 0x1F#64
def posAt (a : DWord) (idx : Nat) : DWord := a ||| BitVec.ofNat 64 (idx % 32)
def posClause (p : DWord) : DWord := p &&& ~~~0x1F#64
def posIdx (p : DWord) : Nat := p.toNat % 32

/-! ## The register window as memory (R118) -/

/-- Bits of a distribution register that are not reserved: bytes 0 to 51 but for LINF[15:14] (R134). -/
def dregMask : BitVec 512 := BitVec.ofNat 512 (2 ^ 414 - 1)

/-- Writes a distribution register; its reserved fields ignore it and read as zero (R7, R134). -/
def Thread.putD (th : Thread) (n : Nat) (x : BitVec 512) : Thread := { th with d := Tbl.put th.d n (x &&& dregMask) }

/-- A byte of a thread's window, with its poison. A byte of a poisoned distribution register is poisoned too, so that `ld.win`
copies it (DESIGN CHOICE, log entry 81). -/
def Thread.winByte (th : Thread) (regs dregs o : Nat) : Byte × Bool :=
  if o < 4 * regs then ((th.readV regs (o / 4)).extractLsb' (8 * (o % 4)) 8, th.poisonV regs (o / 4))
  else if o < dregBase regs then (0, false)
  else if o < frameBase regs dregs then
    let j := (o - dregBase regs) / 64
    ((th.readD j).extractLsb' (8 * ((o - dregBase regs) % 64)) 8, Tbl.at th.dPoison j false)
  else (th.frame.extractLsb' (8 * (o - frameBase regs dregs)) 8, false)

/-- Writes a byte of a window; padding and reserved frame bytes ignore it (R7, R118). -/
def Thread.setWinByte (th : Thread) (regs dregs o : Nat) (b : Byte) : Thread :=
  if o < 4 * regs then
    let n := o / 4
    let w := th.readV regs n
    let m : Word := BitVec.ofNat 32 (0xFF * 2 ^ (8 * (o % 4)))
    { th with v := Tbl.put th.v n ((w &&& ~~~m) ||| BitVec.ofNat 32 (b.toNat * 2 ^ (8 * (o % 4)))) }
  else if o < dregBase regs then th
  else if o < frameBase regs dregs then
    let j := (o - dregBase regs) / 64
    th.putD j (lineSet (th.readD j) ((o - dregBase regs) % 64) [b])
  else { th with frame := lineSet th.frame (o - frameBase regs dregs) [b] &&& frameMask }

def Thread.setWinBytes (th : Thread) (regs dregs : Nat) : Nat → List Byte → Thread
  | _, [] => th
  | o, b :: r => (th.setWinByte regs dregs o b).setWinBytes regs dregs (o + 1) r

/-- Poison bits after a store over n bytes of a window: a word or a distribution register written whole is clean (R128).
A store over a part of a poisoned word or distribution register leaves it poisoned, also when several together cover it (DESIGN CHOICE,
log entry 81). -/
def Thread.cleanWin (th : Thread) (regs dregs o n : Nat) : Thread :=
  let words := (List.range (n / 4 + 1)).map (fun i => o / 4 + i)
  let th := words.foldl (fun (t : Thread) w =>
    if w < regs && o ≤ 4 * w && 4 * w + 4 ≤ o + n then { t with vPoison := Tbl.drop t.vPoison w } else t) th
  if dregBase regs ≤ o && o < frameBase regs dregs && (o - dregBase regs) % 64 == 0 && n == 64 then
    { th with dPoison := Tbl.drop th.dPoison ((o - dregBase regs) / 64) }
  else th

/-! ## Scratchpad -/

def Team.spadByte (t : Team) (o : Nat) : Byte := Tbl.at t.scratch o 0
def Team.setSpad (t : Team) : Nat → List Byte → Team
  | _, [] => t
  | o, b :: r => ({ t with scratch := Tbl.put t.scratch o b } : Team).setSpad (o + 1) r

/-! ## Fault information -/

/-- FINFO of the operand layout (R23): specifier and place 0 DST, 1 SA, 2 SB, 3 SC, 4 the whole instruction. -/
def opInfo (code : BitVec 8) (spec place : Nat) : FaultInfo := ⟨code, BitVec.ofNat 32 (spec + place * 512), 0⟩
/-- An illegal encoding: R23 lets FINFO name an operand or none, and the model always names the whole instruction (DESIGN
CHOICE, log entry 82). -/
def illegalEncoding : FaultInfo := opInfo 1 0 4

/-- FINFO of codes 0x07 to 0x0B (R121). -/
def accessInfo (code : Nat) (addr : DWord) (space policy lsize : Nat) (wr fetch stage2 : Bool) : FaultInfo :=
  ⟨BitVec.ofNat 8 code, BitVec.ofNat 32 (space + 4 * b2n wr + 8 * b2n fetch + 16 * policy + 64 * lsize + 512 * b2n stage2), addr⟩

/-- A fault of the fetch of a clause, reported at the successor (R107, R121). -/
def fetchInfo (code : Nat) (addr : DWord) (stage2 : Bool) : FaultInfo := accessInfo code addr 0 0 5 false true stage2

/-! ## Clause fetch -/

/-- The bytes that a fetch delivers, and what it leaves of a bad line: those of an uncorrectable word have open values, and the line is not
kept (R248; DESIGN CHOICE, log entry 114). A fetch brings no line into a slice and counts in no monitor (DESIGN CHOICE, log entry 115). -/
def State.fetchedAt (s : State) (ctx : Nat) (m : Mapping) (n : Nat) : State × List Byte :=
  if s.anyBad then
    let shared := s.sharedAt m.perm2 m.key m.pa
    (s.settleLines ctx [(m.pa / 64, shared)], (List.range n).map (fun i => s.openByte ctx shared m.key (m.pa + i)))
  else (s, s.physBytes m.key m.pa n)

/-- Reads n bytes that lie in one 32-byte block for a fetch. -/
def State.fetchBytes (s : State) (c ctx : Nat) (user : Bool) (va n : Nat) : Except (Nat × Bool) (State × List Byte) :=
  match s.translate c ctx { fetch := true, user := user } va with
  | .error e => .error e
  | .ok (s, m) => .ok (s.fetchedAt ctx m n)

/-- A clause as fetched: header and body words; the body ends early at a word that faults structurally. -/
structure Fetched where
  hdr : DWord
  body : List Raw
  deriving DecidableEq, Repr, Inhabited

/-- A clause's header word as it stands in memory; the address must be canonical, also one that a fault return brings (R107,
log entry 18). -/
def State.fetchWord (s : State) (c : Nat) (g : Grid) (user : Bool) (a : DWord) : Except (Nat × Bool) (State × DWord) :=
  if !canonical a.toNat then .error (11, false)
  else
    match s.fetchBytes c g.ctx user a.toNat 8 with
    | .error e => .error e
    | .ok (s, bs) => .ok (s, BitVec.ofNat 64 (leNat bs))

/-- Fetches a clause's header with the checks made there (R13, R57, R178, R411): the fault is the code and its stage. -/
def State.fetchHdr (s : State) (c : Nat) (g : Grid) (user : Bool) (a : DWord) : Except (Nat × Bool) (State × DWord) :=
  match s.fetchWord c g user a with
  | .error e => .error e
  | .ok (s, h) =>
    if !Hdr.sound h || (Hdr.rcv h && g.chans ≤ (Hdr.rch h).toNat) || (Hdr.wcv h && g.chans ≤ (Hdr.wch h).toNat) then
      .error (1, false)
    else .ok (s, h)

/-- Fetches up to n body words from an address (R12, R13). -/
def State.fetchBody (s : State) (c ctx : Nat) (user : Bool) : Nat → Nat → Except (Nat × Bool) (State × List Raw)
  | _, 0 => .ok (s, [])
  | va, n + 1 =>
    match s.fetchBytes c ctx user va 8 with
    | .error e => .error e
    | .ok (s, bs) =>
      let base : DWord := BitVec.ofNat 64 (leNat bs)
      let l := base.extractLsb' 0 2
      if l == 3 || (l != 0 && va % 32 == 24) then .ok (s, [⟨base, 0⟩])
      else if l == 0 then
        match State.fetchBody s c ctx user (va + 8) n with
        | .error e => .error e
        | .ok (s, r) => .ok (s, ⟨base, 0⟩ :: r)
      else
        match s.fetchBytes c ctx user (va + 8) 8 with
        | .error e => .error e
        | .ok (s, es) =>
          let ext := if l == 1 then leNat es % 2 ^ 32 else leNat es
          match State.fetchBody s c ctx user (va + 16) n with
          | .error e => .error e
          | .ok (s, r) => .ok (s, ⟨base, BitVec.ofNat 64 ext⟩ :: r)

/-- Fetches a whole clause. -/
def State.fetchClause (s : State) (c : Nat) (g : Grid) (user : Bool) (a : DWord) : Except (Nat × Bool) (State × Fetched) :=
  match s.fetchHdr c g user a with
  | .error e => .error e
  | .ok (s, h) =>
    match s.fetchBody c g.ctx user (a.toNat + 8) (Hdr.blen h) with
    | .error e => .error e
    | .ok (s, body) => .ok (s, ⟨h, body⟩)

/-- Address of body instruction j (R12). -/
def bodyAddr (clause : DWord) (body : List Raw) (j : Nat) : Nat :=
  (body.take j).foldl (fun a r => a + r.size) (clause.toNat + 8)

/-- The fall-through address of a clause (R104). -/
def fallThrough (clause : DWord) (body : List Raw) : DWord :=
  let l := body.foldl (fun a (r : Raw) => a + r.size) 8
  clause + BitVec.ofNat 64 ((l + 31) / 32 * 32)

/-- Whether R13 or R57 finds a structural breach at body index j. -/
def bodyBreach (x : Pass) (j : Nat) : Bool :=
  match x.body[j]? with
  | none => true
  | some r =>
    let last := j + 1 == Hdr.blen x.hdr
    r.len == 3 || (r.len != 0 && bodyAddr x.clause x.body j % 32 == 24)
    || r.isTerm != last || (last && (Hdr.agreed x.hdr != (r.major == 0xC0)))

/-- The index of the first breach up to the one a pass has reached: a pass that resumes inside its clause meets one that lies before it,
which is reported there (R13). -/
def reachedBreach (x : Pass) : Option Nat := (List.range (x.idx + 1)).find? (bodyBreach x)

/-! ## Interrupt causes (R375) -/

/-- The VCP that serves a queue, and the one that serves some queue of a context. -/
def State.vcpOfQueue (s : State) (q : Nat) : Option Nat :=
  (s.vcps.find? (fun e => (Tbl.vals e.2.qd).contains q)).map (·.1)
def queueCtx (q : Queue) : Nat := bitsOf q.qctl.toNat 19 8
def State.vcpOfCtx (s : State) (ctx : Nat) : Option Nat :=
  (s.vcps.find? (fun e => (Tbl.vals e.2.qd).any (fun q => queueCtx (Tbl.at s.queues q {}) == ctx))).map (·.1)

/-- An event of a cause for a VCP, with the generation of that moment. -/
def State.raise (s : State) (vcp : Option Nat) (bit : Nat) : State :=
  match vcp with
  | none => s
  | some v => { s with causes := s.causes ++ [⟨v, bit, (Tbl.at s.vcps v {}).vfgen⟩] }

/-! ## Placement (R166 to R168) -/

/-- Inserts a number into a rising list. -/
def insertSorted (n : Nat) : List Nat → List Nat
  | [] => [n]
  | a :: r => if n < a then n :: a :: r else if n = a then a :: r else a :: insertSorted n r

/-- PRIO of a clause's header, copied when an entry is allocated (R165); 0 where the header cannot be fetched. -/
def State.peekPrio (s : State) (c : Nat) (g : Grid) (user : Bool) (pos : DWord) : Nat :=
  match s.fetchWord c g user (posClause pos) with
  | .error _ => 0
  | .ok (_, h) => Hdr.prio h

/-- Whether a clause holds a `hint.spin`. -/
def State.peekSpin (s : State) (c : Nat) (g : Grid) (user : Bool) (pos : DWord) : Bool :=
  match s.fetchClause c g user (posClause pos) with
  | .error _ => false
  | .ok (_, f) => f.body.any (fun r => r.major == 0xD7 && r.base.extractLsb' 10 4 == 1#4)

def State.newEntry (s : State) (c k : Nat) (pos : DWord) (slots : List Nat) : WvtEntry :=
  let g := s.gangGrid c (k / 32)
  let user := !(s.thr c k).priv
  ⟨pos, 0, s.peekPrio c g user pos, g.policy, s.peekSpin c g user pos, slots⟩

/-- Every due record of a position moves into the entry that stands for it (R167). -/
def State.joinDue (s : State) (c : Nat) (pos : DWord) : State :=
  let mine := (s.core c).bin.filter (fun r => r.park == 0 && r.pos == pos)
  let s := s.modCore c (fun k => { k with
    wvt := k.wvt.map (fun e => if e.pos == pos then { e with slots := mine.foldl (fun a r => insertSorted r.slot a) e.slots } else e)
    bin := k.bin.filter (fun r => !(r.park == 0 && r.pos == pos)) })
  mine.foldl (fun s r => s.modThr c r.slot (fun th => { th with place := .entry })) s

/-- Due records whose position has a valid entry join it (R167). -/
def State.joinEntries (s : State) (c : Nat) : State :=
  ((s.core c).wvt.filter (fun e => (s.core c).bin.any (fun r => r.park == 0 && r.pos == e.pos))).foldl
    (fun s e => s.joinDue c e.pos) s

/-- Gives each free entry to the due record of lowest SEQ, with every due record of its position (R168). The count bounds the
records moved. -/
def State.reintroduce (s : State) (c : Nat) : Nat → State
  | 0 => s
  | n + 1 =>
    let k := s.core c
    let due := k.bin.filter (fun r => r.park == 0)
    let first := due.foldl (fun (b : Option ContRec) r => match b with
      | none => some r
      | some x => if r.seq < x.seq then some r else some x) none
    match first with
    | none => s
    | some r =>
      if Config.wvtEntries ≤ k.wvt.length then s
      else
        let mine := due.filter (fun x => x.pos == r.pos)
        let slots := mine.foldl (fun a x => insertSorted x.slot a) []
        let e := s.newEntry c r.slot r.pos slots
        let s := s.modCore c (fun k => { k with
          wvt := k.wvt ++ [e], bin := k.bin.filter (fun x => !(x.park == 0 && x.pos == r.pos)) })
        State.reintroduce (slots.foldl (fun s t => s.modThr c t (fun th => { th with place := .entry })) s) c n

/-- Drops empty entries and returns due records to the table. -/
def State.tidy (s : State) (c : Nat) : State :=
  let s := (s.modCore c (fun k => { k with wvt := k.wvt.filter (fun e => !e.slots.isEmpty) })).joinEntries c
  s.reintroduce c (s.core c).bin.length

/-- Writes a continuation record for a thread. -/
def State.toBin (s : State) (c k : Nat) : State :=
  let th := s.thr c k
  let s := s.modCore c (fun x => { x with bin := x.bin ++ [⟨th.pos, th.park, x.binSeq, k⟩], binSeq := x.binSeq + 1 })
  s.setThr c k { th with place := .bin }

/-- Places a thread at its position by the first rule of R166 that holds. -/
def State.place (s : State) (c k : Nat) : State :=
  let th := s.thr c k
  let core := s.core c
  if core.wvt.any (fun e => e.pos == th.pos) then
    let s := s.modCore c (fun x => { x with
      wvt := x.wvt.map (fun e => if e.pos == th.pos then { e with slots := insertSorted k e.slots } else e) })
    s.setThr c k { th with place := .entry }
  else if th.park > 0 || core.bin.any (fun r => r.park == 0 && r.pos == th.pos)
      || Config.wvtEntries ≤ core.wvt.length then
    s.toBin c k
  else
    let e := s.newEntry c k th.pos [k]
    let s := s.modCore c (fun x => { x with wvt := x.wvt ++ [e] })
    s.setThr c k { th with place := .entry }

/-- Takes a thread out of the entry or record that holds it. -/
def State.unplace (s : State) (c k : Nat) : State :=
  let s := s.modCore c (fun x => { x with
    wvt := x.wvt.map (fun e => { e with slots := e.slots.filter (· != k) })
    bin := x.bin.filter (fun r => r.slot != k) })
  s.modThr c k (fun th => { th with place := .out })

/-! ## Stopping a context (R340, R341) -/

/-- The order (CAUSE, LCORE, SLOT) of stop records as a number. -/
def stopRank (w : DWord) : Nat :=
  (w.toNat % 256) * 2 ^ 20 + (bitsOf w.toNat 24 16) * 2 ^ 11 + bitsOf w.toNat 42 32

def stopWord (cause code lcore slot : Nat) : DWord :=
  BitVec.ofNat 64 (cause + 2 ^ 8 * code + 2 ^ 16 * lcore + 2 ^ 32 * slot)

/-- Logical core of a thread: the team's, or the next one for a follower of a paired team (R162). -/
def State.lcoreOf (s : State) (c g : Nat) : Nat :=
  let t := s.gangTeam c g
  if (s.grid t.grid).paired && c != t.core then t.lcore + 1 else t.lcore

/-- A core's cycles in 20 ns: its clock is 35 − step times 50 MHz (R2). -/
def Core.rate (k : Core) : Nat := 35 - k.step

/-- Whether a moment lies in the cycle that a core has under way. -/
def State.sameCycle (s : State) (core t : Nat) : Bool := (s.time - t) * (s.core core).rate ≤ (s.core core).phase

/-- Records a stop of a context and halts it: its teams are then saved, whatever a halt under way had chosen for them (R340).
Of stops in one cycle, on whichever cores, the lowest record stands (R341). -/
def State.stopCtx (s : State) (ctx core : Nat) (w : DWord) : State :=
  let x := s.ctx ctx
  if x.stop == 0 then
    let s := s.setCtx ctx { x with stop := w, stopAt := some s.time, haltAt := s.time, run := .stopped, chosen := [] }
    s.raise (s.vcpOfCtx ctx) 2
  else if x.stopAt.any (s.sameCycle core) && stopRank w < stopRank x.stop then s.setCtx ctx { x with stop := w }
  else s

/-! ## Taking a fault and returning from one (R22, R338, R113) -/

/-- Records a bounds fault in the gang's BNDMASK (R262). -/
def State.noteBounds (s : State) (c k pass : Nat) (code : BitVec 8) : State :=
  if code != 0x0A then s
  else s.modGang c (k / 32) (fun g =>
    let bit := onesAt 32 (k % 32) 1
    if g.bndPass == pass then { g with bndmask := g.bndmask ||| bit } else { g with bndmask := bit, bndPass := pass })

/-- DELIVER of R338: a thread takes a fault whose position is `pos`. -/
def State.deliver (s : State) (c k : Nat) (pos : DWord) (pass : Nat) (i : FaultInfo) : State :=
  let s := s.noteBounds c k pass i.code
  let th := s.thr c k
  let g := s.gangGrid c (k / 32)
  let slotWord (cause : Nat) : DWord := stopWord cause i.code.toNat (s.lcoreOf c (k / 32)) k
  if th.hnd then (s.setThr c k { th with pos := pos, place := .out }).stopCtx g.ctx c (slotWord 2)
  else
    let th := { th.writeFrame pos i with fcode := i.code, hnd := true, tvalid := 0 }
    let entry := Tbl.at g.traps i.code.toNat 0
    if !entry.getLsbD 0 then (s.setThr c k { th with pos := pos, place := .out }).stopCtx g.ctx c (slotWord 1)
    else (s.setThr c k { th with priv := true, pos := entryPos (posClause entry), park := 0 }).place c k

/-- A lane's walk that faulted has read lines: a bad one is not kept (R248). -/
def State.faultMet (s : State) (c k : Nat) (i : FaultInfo) : State :=
  let ctx := (s.gangGrid c (k / 32)).ctx
  if (i.code == 8 || i.code == 9) && (s.cached c ctx i.faddr.toNat).isNone then
    s.walkMet ctx (i.code == 8 || i.finfo.getLsbD 9) i.faddr.toNat
  else s

/-- A fault of a lane: held on a speculative path (R422), delivered otherwise. -/
def State.takeFault (s : State) (c k : Nat) (pos : DWord) (pass : Nat) (i : FaultInfo) : State :=
  let s := s.faultMet c k i
  let th := s.thr c k
  if th.spec then s.setThr c k { th with heldFault := some i, pos := pos, place := .held }
  else s.deliver c k pos pass i

/-- A lane stops on a speculative path before an instruction of R419. -/
def State.takeStop (s : State) (c k : Nat) (pos : DWord) : State :=
  s.modThr c k (fun th => { th with stopped := true, pos := pos, place := .held })

/-- The fault return of R113 and R25: position, TVALID and temporaries from the frame, user privilege, HND clear. -/
def Thread.faultReturn (th : Thread) : Thread :=
  { th with
    pos := th.fpos
    tvalid := th.frame.extractLsb' 224 8
    t := (List.range 8).foldl (fun t n => Tbl.put t n (th.frameT n)) []
    priv := false
    hnd := false }

/-! ## Long-latency operations (R18 to R21) -/

/-- The flag FS selects in a header, if that set-flag is valid. -/
def setFlag (hdr : DWord) (fs : Bool) : Option Nat :=
  if fs then (if Hdr.sbv hdr then some (Hdr.sbf hdr).toNat else none)
  else if Hdr.sav hdr then some (Hdr.saf hdr).toNat else none

/-- Issues a long-latency operation: the flag's count rises by 1. -/
def State.issue (s : State) (c k flag : Nat) (words : List (Nat × Word × Bool)) (late : Option Nat) : State :=
  let th := s.thr c k
  let op : Pending := ⟨s.ids, k, flag, words, late, th.spec⟩
  let s := s.setThr c k (th.setFlag flag (th.flag flag + 1))
  { s.modCore c (fun x => { x with pending := x.pending ++ [op] }) with ids := s.ids + 1 }

/-- Writes a word of a long-latency result; one issued before a run-ahead also reaches the snapshot (R420). -/
def State.putPending (s : State) (c : Nat) (op : Pending) (w : Nat × Word × Bool) : State :=
  let g := s.gang c (op.slot / 32)
  let regs := regsOf (s.gangGrid c (op.slot / 32)) g.num
  let s := s.modThr c op.slot (fun th => th.putV regs w.1 w.2.1 w.2.2)
  match g.spec with
  | none => s
  | some x =>
    if op.spec then s
    else
      s.setGang c (op.slot / 32)
        { g with spec := some { x with snap := Tbl.adjust x.snap op.slot (fun th => th.putV regs w.1 w.2.1 w.2.2) } }

/-- Lowers the flag of an operation and forgets it. -/
def State.endPending (s : State) (c : Nat) (op : Pending) : State :=
  let s := s.modThr c op.slot (fun th => th.setFlag op.flag (th.flag op.flag - 1))
  s.modCore c (fun x => { x with pending := x.pending.filter (fun o => o.id != op.id) })

/-! ## Channels (R178) -/

def Team.chan (t : Team) (n : Nat) : Chan := Tbl.at t.chans n {}
def Team.setChan (t : Team) (n : Nat) (x : Chan) : Team := { t with chans := Tbl.put t.chans n x }

/-- Removes a popped entry. -/
def Chan.pop (x : Chan) (id : Nat) : Chan := { x with fifo := x.fifo.filter (fun e => e.id != id) }
/-- Fills a reserved position. -/
def Chan.fill (x : Chan) (id : Nat) (data : Tbl Word) : Chan :=
  { x with fifo := x.fifo.map (fun e => if e.id == id then { e with st := .filled, data := data } else e) }

/-- The word a lane receives of its gang's entry. -/
def Chan.word (x : Chan) (id lane : Nat) : Word :=
  match x.fifo.find? (fun e => e.id == id) with
  | some e => Tbl.at e.data lane 0
  | none => 0

/-! ## Ends of a pass (R166, R178, R194) -/

/-- At the terminator a gang's unused reservations are popped and discarded, or filled with zeros. -/
def State.finishResv (s : State) (c : Nat) (x : Pass) : State :=
  x.resv.foldl (fun s e =>
    let gs := e.1
    let r := e.2
    let t := (s.gang c gs).team
    let s := match r.rd with
      | some id => if r.rdDone then s else s.modTeam t (fun t => t.setChan (Hdr.rch x.hdr).toNat ((t.chan (Hdr.rch x.hdr).toNat).pop id))
      | none => s
    match r.wr with
    | some id => if r.wrDone then s else s.modTeam t (fun t => t.setChan (Hdr.wch x.hdr).toNat ((t.chan (Hdr.wch x.hdr).toNat).fill id []))
    | none => s) s

/-- `chclose` takes effect after the terminator's fills (R194). -/
def State.closeChans (s : State) (c : Nat) (x : Pass) : State :=
  x.closing.foldl (fun s e =>
    let g := s.gang c e.1
    s.modTeam g.team (fun t => t.setChan e.2 { t.chan e.2 with pmask := (t.chan e.2).pmask &&& ~~~(onesAt 32 g.num 1) })) s

/-- What a cut pass kept for a thread that resumes at a position (R179). -/
def Gang.keptFor (g : Gang) (pos : DWord) (slot : Nat) : Option (DWord × Resv) :=
  g.kept.find? (fun e => e.1 == pos && e.2.lanes.contains (slot % 32))

/-- What a gang reserved and is to close, under a header, is settled as at the end of a pass. -/
def State.settleKept (s : State) (c gs : Nat) (r : Resv) : State :=
  let x : Pass := { (default : Pass) with hdr := r.hdr, resv := [(gs, r)], closing := r.closing.map (fun n => (gs, n)) }
  (s.finishResv c x).closeChans c x

/-- A thread of a cut pass leaves at the header instead of resuming. It leaves what the pass kept to the others; with the last of them
that is settled, so that no entry stays reserved (R178, R180). -/
def State.quitKept (s : State) (c k : Nat) : State :=
  let g := s.gang c (k / 32)
  match g.keptFor (s.thr c k).pos k with
  | none => s
  | some e =>
    let r := { e.2 with lanes := e.2.lanes.filter (· != k % 32) }
    if r.lanes.isEmpty then (s.setGang c (k / 32) { g with kept := g.kept.filter (· != e) }).settleKept c (k / 32) r
    else s.setGang c (k / 32) { g with kept := g.kept.map (fun y => if y == e then (e.1, r) else y) }

/-- A pass ends for a thread: no temporary survives it (R16). What a temporary that is not valid holds is the model's choice: 0
(DESIGN CHOICE, log entry 94). -/
def Thread.leavePass (th : Thread) : Thread := { th with tvalid := 0, t := [] }

/-- A pass ends: its reservations and closes are settled, the pipe is free, and the threads left in it leave it as `leave` says
and are placed in ascending slot, but for those that exited or wait for a vote. -/
def State.endPassBy (s : State) (leave : Thread → Thread) (c p : Nat) (x : Pass) : State :=
  let s := (s.finishResv c x).closeChans c x
  let s := s.modCore c (fun k => { k with pipes := Tbl.drop k.pipes p })
  x.slots.foldl (fun s k =>
    let s := s.modThr c k leave
    match (s.thr c k).place with
    | .pass _ => s.place c k
    | _ => s) s

/-- The end of a pass whose threads go on at the starts of clauses: they keep no temporary. -/
def State.endPass (s : State) (c p : Nat) (x : Pass) : State := s.endPassBy Thread.leavePass c p x

/-! ## Acting on the lanes of a pass (R171) -/

/-- Why a lane leaves its pass at an instruction. -/
inductive LaneFail where
  | fault (i : FaultInfo)
  | stop
  deriving DecidableEq, Repr, Inhabited

/-- What an instruction computes for a lane from registers alone: the thread as it becomes, g registers to write, a tile
width to set, and a word to push on the write channel. -/
structure LaneOut where
  th : Thread
  g : List (Nat × Word) := []
  tw : Option Nat := none
  push : Option Word := none
  deriving DecidableEq, Repr, Inhabited

abbrev LaneRes := Except LaneFail LaneOut

/-- The slots of a pass for which an instruction executes. -/
def State.executing (s : State) (c : Nat) (x : Pass) (g : Guard) : List Nat :=
  x.slots.filter (fun k => (s.thr c k).holds g)

/-- The first slot of a gang among the lanes that have a result. -/
def gangLead (outs : List (Nat × LaneRes)) (gs : Nat) : Option (Nat × LaneOut) :=
  match outs with
  | [] => none
  | (k, .ok o) :: r => if k / 32 = gs then some (k, o) else gangLead r gs
  | (_, .error _) :: r => gangLead r gs

/-- The rule of R176 for a lane's uniform writes: CONV = 0 faults it, and so does a value other than its gang's lowest
executing lane's. `dst` is the DST specifier. -/
def uniformRule (hdr : DWord) (dst : Nat) (outs : List (Nat × LaneRes)) (e : Nat × LaneRes) : Nat × LaneRes :=
  match e.2 with
  | .error _ => e
  | .ok o =>
    if o.g.isEmpty && o.tw.isNone then e
    else if !Hdr.conv hdr then (e.1, .error (.fault (opInfo 0x11 dst 0)))
    else
      match gangLead outs (e.1 / 32) with
      | none => e
      | some l => if l.2.g == o.g && l.2.tw == o.tw then e else (e.1, .error (.fault (opInfo 0x11 dst 0)))

/-- Takes lanes out of a pass. -/
def Pass.without (x : Pass) (gone : List Nat) : Pass := { x with slots := x.slots.filter (fun k => !gone.contains k) }

/-- The lanes that leave at an instruction take their faults and stops, in ascending slot. -/
def State.leave (s : State) (c : Nat) (x : Pass) (fails : List (Nat × LaneFail)) : State :=
  fails.foldl (fun s e => match e.2 with
    | .fault i => s.takeFault c e.1 (posAt x.clause x.idx) x.id i
    | .stop => s.takeStop c e.1 (posAt x.clause x.idx)) s

/-- After a body instruction: the pass, as the instruction leaves it, goes on to the next index without the lanes that
left, which are then delivered; a pass that no lane is left in ends. -/
def State.afterInstr (s : State) (c p : Nat) (x : Pass) (fails : List (Nat × LaneFail)) : State :=
  let y := x.without (fails.map (·.1))
  let y := { y with idx := x.idx + 1 }
  let s := (s.setPass c p y).leave c x fails
  if y.slots.isEmpty then s.endPass c p y else s

/-- Marks a gang's channel reservations used. -/
def Pass.useResv (x : Pass) (gs : Nat) (rd wr : Bool) : Pass :=
  { x with resv := Tbl.adjust x.resv gs (fun r => { r with rdDone := r.rdDone || rd, wrDone := r.wrDone || wr }) }

/-- The gang slots of a list of thread slots, each once, ascending. -/
def gangsOf (slots : List Nat) : List Nat := slots.foldl (fun a k => insertSorted (k / 32) a) []

/-- The words that the lanes of a gang push, each under its lane number. -/
def pushed (gs : Nat) (outs : List (Nat × LaneOut)) : Tbl Word :=
  outs.filterMap (fun o => if o.1 / 32 = gs then o.2.push.map (fun w => (o.1 % 32, w)) else none)

/-- Pops the entry a gang reserved, when the instruction reads its channel. -/
def State.popChan (s : State) (t : Nat) (hdr : DWord) (reads : Bool) (rd : Option Nat) : State :=
  match reads, rd with
  | true, some id => s.modTeam t (fun t => t.setChan (Hdr.rch hdr).toNat ((t.chan (Hdr.rch hdr).toNat).pop id))
  | _, _ => s

/-- Fills the position a gang reserved, when its lanes push. -/
def State.fillChan (s : State) (t : Nat) (hdr : DWord) (words : Tbl Word) (wr : Option Nat) : State :=
  match words, wr with
  | w :: ws, some id => s.modTeam t (fun t => t.setChan (Hdr.wch hdr).toNat ((t.chan (Hdr.wch hdr).toNat).fill id (w :: ws)))
  | _, _ => s

/-- Pop and push of one gang. -/
def useChan (c : Nat) (hdr : DWord) (reads : Bool) (outs : List (Nat × LaneOut)) (a : State × Pass) (gs : Nat) : State × Pass :=
  let r := Tbl.at a.2.resv gs {}
  let t := (a.1.gang c gs).team
  let words := pushed gs outs
  ((a.1.popChan t hdr reads r.rd).fillChan t hdr words r.wr, a.2.useResv gs (reads && r.rd.isSome) (!words.isEmpty))

/-- Pops and pushes of one instruction: each gang with a lane that took part pops its entry, then fills its position with
the lanes' words (R178). -/
def State.useChans (s : State) (c : Nat) (x : Pass) (reads : Bool) (outs : List (Nat × LaneOut)) : State × Pass :=
  (gangsOf (outs.map (·.1))).foldl (useChan c x.hdr reads outs) (s, x)

/-- Lanes with a result, and lanes that leave. -/
def oks (outs : List (Nat × LaneRes)) : List (Nat × LaneOut) :=
  outs.filterMap (fun e => match e.2 with | .ok o => some (e.1, o) | .error _ => none)
def fails (outs : List (Nat × LaneRes)) : List (Nat × LaneFail) :=
  outs.filterMap (fun e => match e.2 with | .ok _ => none | .error f => some (e.1, f))

/-- Writes the threads of the lanes that have a result. -/
def State.putThreads (s : State) (c : Nat) (outs : List (Nat × LaneOut)) : State :=
  outs.foldl (fun s e => s.setThr c e.1 e.2.th) s

/-- Writes the uniform registers and tile widths the gangs' lanes agree on. -/
def State.putUniform (s : State) (c : Nat) (outs : List (Nat × LaneOut)) : State :=
  outs.foldl (fun s e =>
    if e.2.g.isEmpty && e.2.tw.isNone then s
    else s.modGang c (e.1 / 32) (fun g =>
      { g with g := e.2.g.foldl (fun t w => Tbl.put t w.1 w.2) g.g, tw := e.2.tw.getD g.tw })) s

/-- An instruction on registers: every executing lane computes from the state before it, then all results are written
(R171, R182). `reads` says whether a source names the read channel. -/
def State.execLanes (s : State) (g : Guard) (dst : Nat) (reads : Bool) (compute : List Nat → Lane → LaneRes) :
    Host.Outcome State Fault Refusal :=
  match s.curPass with
  | none => .fault .noPass
  | some (c, p, x) =>
    let ex := s.executing c x g
    let raw := ex.map (fun k => (k, compute ex (x.lane c k)))
    let outs := raw.map (uniformRule x.hdr dst raw)
    let good := oks outs
    let r := ((s.putThreads c good).putUniform c good).useChans c x reads good
    .next (r.1.afterInstr c p r.2 (fails outs))

/-- One lane's act: the state it leaves, and why the lane leaves its pass if it does. -/
def laneStep (c : Nat) (x : Pass) (act : State → Lane → State × Option LaneFail) (a : State × List (Nat × LaneFail)) (k : Nat) :
    State × List (Nat × LaneFail) :=
  match act a.1 (x.lane c k) with
  | (s, none) => (s, a.2)
  | (s, some f) => (s, a.2 ++ [(k, f)])

/-- An instruction whose lanes act one after another in ascending slot (memory, engines, system). `reads` says whether a
source names the read channel, which the gangs of the lanes that took part then pop. -/
def State.execSeq (s : State) (g : Guard) (reads : Bool) (act : State → Lane → State × Option LaneFail) :
    Host.Outcome State Fault Refusal :=
  match s.curPass with
  | none => .fault .noPass
  | some (c, p, x) =>
    let r := (s.executing c x g).foldl (laneStep c x act) (s, [])
    -- an act may have changed the pass record (closing channels, reservations)
    let y := (Tbl.look (r.1.core c).pipes p).getD x
    let gone := r.2.map (·.1)
    let took := ((s.executing c x g).filter (fun k => !gone.contains k)).map (fun k => (k, ({ th := s.thr c k } : LaneOut)))
    let u := r.1.useChans c y reads took
    .next (u.1.afterInstr c p u.2 r.2)

/-- Waits at an instruction: nothing of it happens, and the event that ends the wait comes next. -/
def State.waitFor (s : State) (i : Instr) : Host.Outcome State Fault Refusal :=
  .next { s with agenda := .event i :: s.agenda }

/-- A port holds a message for a context that is not enabled on this device (R390). -/
def State.holdAct (s : State) (ctx : Nat) (a : Act) : State := { s with held := s.held ++ [(ctx, a)] }
def State.holdMsg (s : State) (ctx : Nat) (i : Instr) : State := s.holdAct ctx (.event i)

/-- The messages held for a context come to it. -/
def State.letIn (s : State) (ctx : Nat) : State :=
  { s with
    held := s.held.filter (fun e => e.1 != ctx)
    agenda := s.agenda ++ (s.held.filter (fun e => e.1 == ctx)).map (·.2) }

/-- A terminator: `act` runs for each lane of the pass in ascending slot, whatever its guard (R105); then the pass ends
without the lanes that faulted. -/
def State.execTerm (s : State) (act : State → Lane → State × Option LaneFail) : Host.Outcome State Fault Refusal :=
  match s.curPass with
  | none => .fault .noPass
  | some (c, p, x) =>
    let r := x.slots.foldl (laneStep c x act) (s, [])
    let y := (((Tbl.look (r.1.core c).pipes p).getD x).without (r.2.map (·.1)))
    .next ((r.1.leave c x r.2).endPass c p y)

end Sys2Proof.Machine
end

