-- ==== Sys2Proof/Machine/Flags.lean ====
section
/-!
DEFINITION. Floating-point formats, the one rounding of an exact value with its flags (R32 to R40), and the sticky flags of
%fpst (R39).
-/
namespace Sys2Proof.Machine

/-! ## Sticky flags (R39) -/

def fNV : BitVec 5 := 1
def fDZ : BitVec 5 := 2
def fOF : BitVec 5 := 4
def fUF : BitVec 5 := 8
def fNX : BitVec 5 := 16

/-- ORs the flags an instruction raised into a thread's %fpst. -/
def Thread.orFlags (th : Thread) (f : BitVec 5) : Thread := { th with fpst := th.fpst ||| f }

/-! ## Formats (R32) -/

/-- A floating format: exponent and fraction widths; the bias is 2^(ebits-1) - 1. -/
structure Fmt where
  ebits : Nat
  mbits : Nat
  deriving DecidableEq, Repr, Inhabited

namespace Fmt
def f32 : Fmt := ⟨8, 23⟩
def f16 : Fmt := ⟨5, 10⟩
def bf16 : Fmt := ⟨8, 7⟩
def bias (f : Fmt) : Nat := 2 ^ (f.ebits - 1) - 1
def width (f : Fmt) : Nat := f.ebits + f.mbits + 1
/-- Exponent of the smallest normal. -/
def emin (f : Fmt) : Int := 1 - (f.bias : Int)
def infPat (f : Fmt) (neg : Bool) : Nat := b2n neg * 2 ^ (f.width - 1) + (2 ^ f.ebits - 1) * 2 ^ f.mbits
def maxPat (f : Fmt) (neg : Bool) : Nat := f.infPat neg - 1
def zeroPat (f : Fmt) (neg : Bool) : Nat := b2n neg * 2 ^ (f.width - 1)
/-- The canonical quiet NaN (R35). -/
def nanPat (f : Fmt) : Nat := f.infPat false + 2 ^ (f.mbits - 1)
end Fmt

end Sys2Proof.Machine
namespace Sys2Proof
open Machine

/-- Element format of a scalar or pair type. -/
def Ty.fmt : Ty → Fmt
  | .f16 | .f16x2 => .f16
  | .bf16 | .bf16x2 => .bf16
  | _ => .f32

end Sys2Proof
namespace Sys2Proof.Machine

/-- What a pattern stands for: a NaN (signalling or not), an infinity, a zero, or ±m·2^e with m > 0. -/
inductive FVal where
  | nan (sig : Bool)
  | inf (neg : Bool)
  | zero (neg : Bool)
  | fin (neg : Bool) (m : Nat) (e : Int)
  deriving DecidableEq, Repr, Inhabited

def Fmt.unpack (f : Fmt) (p : Nat) : FVal :=
  let neg := bitOf p (f.width - 1)
  let ex := p / 2 ^ f.mbits % 2 ^ f.ebits
  let fr := p % 2 ^ f.mbits
  if ex = 2 ^ f.ebits - 1 then (if fr = 0 then .inf neg else .nan (!bitOf p (f.mbits - 1)))
  else if ex = 0 then
    if fr = 0 then .zero neg else .fin neg fr (f.emin - f.mbits)
  else .fin neg (2 ^ f.mbits + fr) (f.emin - f.mbits + (ex - 1 : Nat))

namespace FVal
def isNan : FVal → Bool
  | .nan _ => true
  | _ => false
def isSig : FVal → Bool
  | .nan s => s
  | _ => false
def isInf : FVal → Bool
  | .inf _ => true
  | _ => false
def isZero : FVal → Bool
  | .zero _ => true
  | _ => false
def neg : FVal → Bool
  | .nan _ => false
  | .inf n | .zero n | .fin n _ _ => n
end FVal

/-! ## Exact values -/

/-- The exact dyadic number m·2^e. -/
structure Dy where
  m : Int
  e : Int
  deriving DecidableEq, Repr, Inhabited

namespace Dy
/-- The integer of m·2^(e - k), for k at most e. -/
def scaled (x : Dy) (k : Int) : Int := x.m * ((2 ^ (x.e - k).toNat : Nat) : Int)
def add (x y : Dy) : Dy := let k := min x.e y.e; ⟨x.scaled k + y.scaled k, k⟩
def neg (x : Dy) : Dy := ⟨-x.m, x.e⟩
def sub (x y : Dy) : Dy := x.add y.neg
def mul (x y : Dy) : Dy := ⟨x.m * y.m, x.e + y.e⟩
def ofInt (i : Int) : Dy := ⟨i, 0⟩
def isZero (x : Dy) : Bool := x.m == 0
/-- Sign of x - y: less. -/
def lt (x y : Dy) : Bool := (x.sub y).m < 0
def le (x y : Dy) : Bool := (x.sub y).m ≤ 0
def eq (x y : Dy) : Bool := (x.sub y).m == 0
def abs (x : Dy) : Dy := ⟨x.m.natAbs, x.e⟩
def zero : Dy := ⟨0, 0⟩
def sum (xs : List Dy) : Dy := xs.foldl add zero
end Dy

/-- The exact value of a finite pattern; zero for a NaN or an infinity. -/
def FVal.dy : FVal → Dy
  | .fin n m e => ⟨if n then -(m : Int) else m, e⟩
  | _ => .zero

/-! ## Rounding (R34, R40) -/

/-- Rounds the quotient of two naturals to an integer for a magnitude of the given sign: 0 RNE, 1 RZ, 2 RU, 3 RD; and 4, to nearest
with ties away from zero, which only the firmware harts have. -/
def roundQuot (mode : Nat) (neg : Bool) (n d : Nat) : Nat :=
  let q := n / d
  let r := n % d
  let up := match mode with
    | 0 => 2 * r > d || (2 * r == d && q % 2 == 1)
    | 1 => false
    | 2 => !neg && r != 0
    | 3 => neg && r != 0
    | _ => 2 * r ≥ d
  if up then q + 1 else q

/-- floor(log2(n/d · 2^e)) for n, d > 0. -/
def floorLog2 (n d : Nat) (e : Int) : Int :=
  let k : Int := (Nat.log2 n : Int) - (Nat.log2 d : Int)
  -- n/d lies in (2^(k-1), 2^(k+1))
  let low := if 0 ≤ k then n < d * 2 ^ k.toNat else n * 2 ^ (-k).toNat < d
  (if low then k - 1 else k) + e

/-- n/d · 2^e counted in units of 2^q, as a quotient. -/
def inUnits (n d : Nat) (e q : Int) : Nat × Nat :=
  if q ≤ e then (n * 2 ^ (e - q).toNat, d) else (n, d * 2 ^ (q - e).toNat)

/-- RND(x, F, m) for x = ±n/d·2^e ≠ 0: the pattern and the flags OF, UF and NX (R34, R40). -/
def rndQ (f : Fmt) (mode : Nat) (neg : Bool) (n d : Nat) (e : Int) : Nat × BitVec 5 :=
  let ex := floorLog2 n d e
  let q := max ex f.emin - f.mbits
  let u := inUnits n d e q
  let r := roundQuot mode neg u.1 u.2
  let inexact := u.1 % u.2 != 0
  let mag := (q - (f.emin - f.mbits)).toNat * 2 ^ f.mbits + r
  let sign := b2n neg * 2 ^ (f.width - 1)
  if f.infPat false ≤ mag then
    let toInf := match mode with
      | 0 => true
      | 1 => false
      | 2 => !neg
      | 3 => neg
      | _ => true
    (if toInf then f.infPat neg else f.maxPat neg, fOF ||| fNX)
  else
    -- tininess after rounding with an unbounded exponent
    let u' := inUnits n d e (ex - f.mbits)
    let r' := roundQuot mode neg u'.1 u'.2
    let tiny := ex < f.emin && !(ex + 1 == f.emin && r' == 2 ^ (f.mbits + 1))
    (sign + mag, (if inexact then fNX else 0) ||| (if inexact && tiny then fUF else 0))

/-- RND of an exact dyadic value; an exact zero takes the sign given. -/
def rndDy (f : Fmt) (mode : Nat) (zeroNeg : Bool) (x : Dy) : Nat × BitVec 5 :=
  if x.m = 0 then (f.zeroPat zeroNeg, 0) else rndQ f mode (x.m < 0) x.m.natAbs 1 x.e

/-- RND of the exact quotient of two dyadic values, the divisor not zero. -/
def rndDiv (f : Fmt) (mode : Nat) (zeroNeg : Bool) (x y : Dy) : Nat × BitVec 5 :=
  if x.m = 0 then (f.zeroPat zeroNeg, 0)
  else rndQ f mode ((x.m < 0) != (y.m < 0)) x.m.natAbs y.m.natAbs (x.e - y.e)

/-- RINT(z, mode) of z = ±n/d·2^e, with whether it is inexact. -/
def rintQ (mode : Nat) (neg : Bool) (n d : Nat) (e : Int) : Nat × Bool :=
  let u := inUnits n d e 0
  (roundQuot mode neg u.1 u.2, u.1 % u.2 != 0)

/-- The sign of an exact zero sum of operands of opposite signs (R34). -/
def zeroSign (mode : Nat) : Bool := mode == 3

/-! ## Conversions of patterns -/

/-- A small integer as a pattern of a format, exact (R29). -/
def Fmt.ofInt (f : Fmt) (i : Int) : Nat := (rndDy f 0 false (Dy.ofInt i)).1

/-- Converts between formats by R37. -/
def convF (a b : Fmt) (mode p : Nat) : Nat × BitVec 5 :=
  match a.unpack p with
  | .nan sig => (b.nanPat, if sig then fNV else 0)
  | .inf n => (b.infPat n, 0)
  | .zero n => (b.zeroPat n, 0)
  | .fin n m e => rndQ b mode n m 1 e

/-- IEEE comparison of two values that are no NaN: less. -/
def FVal.lt : FVal → FVal → Bool
  | .inf n, y => n && !(match y with | .inf m => m | _ => false)
  | x, .inf m => !m && !(match x with | .inf n => !n | _ => false)
  | x, y => x.dy.lt y.dy

def FVal.eq : FVal → FVal → Bool
  | .inf n, .inf m => n == m
  | .inf _, _ => false
  | _, .inf _ => false
  | x, y => x.dy.eq y.dy

/-! ## The arithmetic of R91 and R36, shared by scalar, packed, lane, atomic and matrix operations -/

/-- a + b by R91. -/
def fAdd (f : Fmt) (mode a b : Nat) : Nat × BitVec 5 :=
  let x := f.unpack a
  let y := f.unpack b
  let nv := if x.isSig || y.isSig then fNV else 0
  if x.isNan || y.isNan then (f.nanPat, nv)
  else
    match x, y with
    | .inf m, .inf n => if m == n then (f.infPat m, 0) else (f.nanPat, fNV)
    | .inf m, _ => (f.infPat m, 0)
    | _, .inf n => (f.infPat n, 0)
    | _, _ =>
      let s := x.dy.add y.dy
      rndDy f mode (if x.neg == y.neg then x.neg else zeroSign mode) s

/-- Changes the sign of a pattern. -/
def Fmt.flip (f : Fmt) (p : Nat) : Nat := if bitOf p (f.width - 1) then p - 2 ^ (f.width - 1) else p + 2 ^ (f.width - 1)

/-- a · b by R91. -/
def fMul (f : Fmt) (mode a b : Nat) : Nat × BitVec 5 :=
  let x := f.unpack a
  let y := f.unpack b
  let nv := if x.isSig || y.isSig then fNV else 0
  let neg := x.neg != y.neg
  if x.isNan || y.isNan then (f.nanPat, nv)
  else if (x.isInf && y.isZero) || (x.isZero && y.isInf) then (f.nanPat, fNV)
  else if x.isInf || y.isInf then (f.infPat neg, 0)
  else rndDy f mode neg (x.dy.mul y.dy)

/-- a · b + c rounded once, by R91. -/
def fFma (f : Fmt) (mode a b c : Nat) : Nat × BitVec 5 :=
  let x := f.unpack a
  let y := f.unpack b
  let z := f.unpack c
  let nv := if x.isSig || y.isSig || z.isSig then fNV else 0
  let neg := x.neg != y.neg
  let inv := (x.isInf && y.isZero) || (x.isZero && y.isInf)
  if inv then (f.nanPat, nv ||| fNV)
  else if x.isNan || y.isNan || z.isNan then (f.nanPat, nv)
  else if x.isInf || y.isInf then
    match z with
    | .inf m => if m == neg then (f.infPat neg, 0) else (f.nanPat, fNV)
    | _ => (f.infPat neg, 0)
  else
    match z with
    | .inf m => (f.infPat m, 0)
    | _ =>
      let p := x.dy.mul y.dy
      let s := p.add z.dy
      rndDy f mode (if neg == z.neg then neg else zeroSign mode) s

/-- minimumNumber and maximumNumber (R36). -/
def fMinMax (f : Fmt) (max : Bool) (a b : Nat) : Nat × BitVec 5 :=
  let x := f.unpack a
  let y := f.unpack b
  let nv := if x.isSig || y.isSig then fNV else 0
  if x.isNan && y.isNan then (f.nanPat, nv)
  else if x.isNan then (b, nv)
  else if y.isNan then (a, nv)
  else
    let less := if x.eq y then x.neg && !y.neg else x.lt y
    ((if less != max then a else b), 0)

end Sys2Proof.Machine
end

