-- ==== Sys2Proof/Machine/Operands.lean ====
section
/-!
DEFINITION. Operand forms: what a field admits (R58 to R61, R64 step 4), reading a source under a type (R28, R29, R53, R59,
R60) with its stale-temporary and data-error faults (R16, R128), and writing a destination.
-/
namespace Sys2Proof.Machine

/-! ## Values of specifiers -/

/-- The FP32 constant table (R60). -/
def constTable : List Nat :=
  [0x00000000, 0x3F800000, 0x40000000, 0x40800000, 0x41000000, 0x41800000, 0x3F000000, 0x3E800000,
   0x3E000000, 0xBF800000, 0xC0000000, 0xBF000000, 0x40400000, 0x41200000, 0x3DCCCCCD, 0x3EAAAAAB] ++
  [0x3F317218, 0x3FB8AA3B, 0x40490FDB, 0x3FC90FDB, 0x40C90FDB, 0x3EA2F983, 0x402DF854, 0x3FB504F3,
   0x3F3504F3, 0x3E9A209B, 0x7F800000, 0xFF800000, 0x7F7FFFFF, 0x00800000, 0x80000000, 0x437F0000]

def constPat (n : BitVec 5) : Nat := constTable.getD n.toNat 0

/-- Value of an inline integer (R58). -/
def inlineVal (n : BitVec 6) : Int := (n.toNat : Int) - 16

/-- The current copy of a team's channel (R302): the lowest-numbered one not ended, else the last. A copy ends for a reader when
CHSEQ counts it (R303). -/
def State.currentCopy (s : State) (team chan : Nat) : Option Copy :=
  let mine := (Tbl.vals s.copies).filter (fun x => x.team == team && x.chan == chan)
  let live := mine.filter (fun x => !x.told)
  match live with
  | x :: r => some (r.foldl (fun a b => if b.num < a.num then b else a) x)
  | [] =>
    match mine with
    | x :: r => some (r.foldl (fun a b => if a.num < b.num then b else a) x)
    | [] => none

/-- %cwp of a channel; of a pointer at or beyond 2^32 its low 32 bits (DESIGN CHOICE, log entry 103). -/
def State.writePointer (s : State) (team chan : Nat) : Word :=
  match s.currentCopy team chan with
  | some x => BitVec.ofNat 32 x.wp
  | none => 0

/-- Coordinates of a team in its grid (R212). -/
def teamCoord (g : Grid) (num axis : Nat) : Nat :=
  match axis with
  | 0 => num % g.gx
  | 1 => num / g.gx % g.gy
  | _ => num / (g.gx * g.gy)

/-- The read-only specials (R59), by specifier less 0x158. -/
def Lane.special (l : Lane) (s : State) (n : Nat) : Word :=
  let gang := l.gang s
  let g := l.grid s
  let w (x : Nat) : Word := BitVec.ofNat 32 x
  match n with
  | 0 => w l.num
  | 1 => w gang.num
  | 2 => w (32 * gang.num + l.num)
  | 3 => w (teamCoord g (l.team s).num 0)
  | 4 => w (teamCoord g (l.team s).num 1)
  | 5 => w (teamCoord g (l.team s).num 2)
  | 6 => w g.gx
  | 7 => w g.gy
  | 8 => w g.gz
  | 9 => w (s.lcoreOf l.core l.gslot)
  | 10 => (s.core l.core).cycle.extractLsb' 0 32
  | 11 => (l.thr s).clkh
  | 12 => s.writePointer gang.team 0
  | 13 => s.writePointer gang.team 1
  | 14 => s.writePointer gang.team 2
  | 15 => s.writePointer gang.team 3
  | 16 => w (l.thr s).fpst.toNat
  | _ => w (b2n (!isProducer g gang.num))

/-! ## What a field admits (R58, R59, R61) -/

/-- The class an entry gives an operand field. -/
inductive OpKind where
  /-- a source of 32 bits, or of 64 under a pair type -/
  | src (wide : Bool)
  /-- the same, or 0x1FF for none -/
  | srcOpt (wide : Bool)
  /-- a v, g or t register, or an even pair of them, and no literal -/
  | reg (wide : Bool)
  /-- any destination -/
  | dst (wide : Bool)
  /-- destination of a long-latency instruction: v register, even v pair or none (R20) -/
  | load (wide : Bool)
  /-- a v register group of n registers, or none (R119) -/
  | loadGroup (n : Nat)
  /-- a v, g or t register group of n registers (R119, R275) -/
  | regGroup (n : Nat)
  /-- n consecutive v registers (R99) -/
  | vGroup (n : Nat)
  /-- the data of a store: a register group, an inline integer or a constant (R123) -/
  | dataGroup (n : Nat)
  /-- a v register or a temporary, or none, which discards the mask (R10, R93; DESIGN CHOICE, log entry 86) -/
  | vt
  /-- a v register only, or none -/
  | vOnly
  /-- a v register or an even v pair, and no literal (R85) -/
  | vReg (wide : Bool)
  /-- a v, g or t register or an even pair, or none (R183) -/
  | dstReg (wide : Bool)
  /-- a g register or an even g pair (R192) -/
  | gOnly (wide : Bool)
  /-- a predicate operand (R61) -/
  | pred
  /-- a distribution register (R61) -/
  | dist
  deriving DecidableEq, Repr, Inhabited

def even (n : Nat) : Bool := n % 2 == 0

/-- A group of n registers starts at a multiple of n and stays within its class (R119). -/
def groupOk (n start size : Nat) : Bool := start % n == 0 && start + n ≤ size

/-- Whether a field of a class admits an operand. `rd` and `wr` say of a channel whether it may be read or written here. -/
def OpKind.admits (k : OpKind) (rd wr : Nat → Bool) (o : Operand) : Bool :=
  let regOk (wide : Bool) : Bool := match o with
    | .v n => !wide || even n.toNat
    | .g n => !wide || even n.toNat
    | .t n => !wide || even n.toNat
    | _ => false
  let lit : Bool := match o with
    | .inline _ | .const _ => true
    | _ => false
  let srcOk (wide : Bool) : Bool := match o with
    | .q n => !wide && rd n.toNat
    | .special n => n.val < 18
    | _ => regOk wide || lit
  let group (n : Nat) : Bool := match o with
    | .v r => groupOk n r.toNat 256
    | .g r => groupOk n r.toNat 64
    | .t r => groupOk n r.toNat 8
    | _ => false
  match k with
  | .src w => srcOk w
  | .srcOpt w => o == .none || srcOk w
  | .reg w => regOk w
  | .dst w => o == .none || regOk w || (match o with | .q n => !w && wr n.toNat | _ => false)
  | .load w => o == .none || (match o with | .v n => !w || even n.toNat | _ => false)
  | .loadGroup n => o == .none || (match o with | .v r => groupOk n r.toNat 256 | _ => false)
  | .regGroup n => group n
  | .vGroup n => (match o with | .v r => r.toNat + n ≤ 256 | _ => false)
  | .dataGroup n => lit || group n
  | .vt => o == .none || (match o with | .v _ | .t _ => true | _ => false)
  | .vOnly => o == .none || (match o with | .v _ => true | _ => false)
  | .vReg w => (match o with | .v n => !w || even n.toNat | _ => false)
  | .dstReg w => o == .none || regOk w
  | .gOnly w => (match o with | .g n => !w || even n.toNat | _ => false)
  | .pred => (match o with | .pred _ | .none => true | _ => false)
  | .dist => (match o with | .v n => n.toNat < 16 | _ => false)

/-- Places of R23. -/
def pDST : Nat := 0
def pSA : Nat := 1
def pSB : Nat := 2
def pSC : Nat := 3

/-- Whether a body instruction may read a channel (R61): the header names it, and nothing has read it yet. -/
def Lane.mayRead (l : Lane) (r : Resv) (n : Nat) : Bool := Hdr.rcv l.hdr && (Hdr.rch l.hdr).toNat == n && !r.rdDone
def Lane.mayWrite (l : Lane) (r : Resv) (n : Nat) : Bool := Hdr.wcv l.hdr && (Hdr.wch l.hdr).toNat == n && !r.wrDone

/-- A gang's reservations in the pass that has the turn. -/
def Lane.resv (l : Lane) (s : State) : Resv :=
  match s.curPass with
  | some (_, _, x) => Tbl.at x.resv l.gslot {}
  | none => {}

/-- A gang's reservations once a field of the instruction has named its operand: a source that names a channel reads it. -/
def Resv.after (r : Resv) (place : Nat) (o : Operand) : Resv :=
  match place, o with
  | 0, _ => r
  | _, .q _ => { r with rdDone := true }
  | _, _ => r

/-- Step 4 of R64: the fields in the order given, the first breach reported. A second read of a channel within the
instruction is a breach too. -/
def checkFields (l : Lane) (r : Resv) : List (Nat × OpKind × Operand) → Except LaneFail Unit
  | [] => .ok ()
  | (place, k, o) :: rest =>
    if k.admits (l.mayRead r) (l.mayWrite r) o then checkFields l (r.after place o) rest
    else .error (.fault (opInfo 2 o.toSpec.toNat place))

def Lane.check (l : Lane) (s : State) (ks : List (Nat × OpKind × Operand)) : Except LaneFail Unit :=
  checkFields l (l.resv s) ks

/-! ## Reading sources -/

def dataError (o : Operand) (place : Nat) : LaneFail := .fault (opInfo 0x0C o.toSpec.toNat place)
def staleError (o : Operand) (place : Nat) : LaneFail := .fault (opInfo 3 o.toSpec.toNat place)

/-- The 32-bit word a source supplies, as a pattern of an integer type. -/
def Lane.readWord (l : Lane) (s : State) (place : Nat) (o : Operand) : Except LaneFail Word :=
  let th := l.thr s
  match o with
  | .v n => if th.poisonV (l.regs s) n.toNat then .error (dataError o place) else .ok (th.readV (l.regs s) n.toNat)
  | .g n => .ok ((l.gang s).readG n.toNat)
  | .t n => if th.tvalid.getLsbD n.toNat then .ok (th.readT n.toNat) else .error (staleError o place)
  | .q n =>
    match (l.resv s).rd with
    | some id => .ok (((l.team s).chan n.toNat).word id l.num)
    | none => .ok 0
  | .special n => .ok (l.special s n.val)
  | .inline n => .ok (BitVec.ofInt 32 (inlineVal n))
  | .const n => .ok (BitVec.ofNat 32 (constPat n))
  | _ => .ok 0

/-- Joins the words of a pair, low word first (R9). -/
def pairOf (lo hi : Word) : DWord := BitVec.ofNat 64 (lo.toNat + 2 ^ 32 * hi.toNat)
def loWord (x : DWord) : Word := x.extractLsb' 0 32
def hiWord (x : DWord) : Word := x.extractLsb' 32 32

end Sys2Proof.Machine
namespace Sys2Proof
open Machine

/-- The next register of a register operand. -/
def Operand.next (o : Operand) (k : Nat) : Operand :=
  match o with
  | .v n => .v (n + BitVec.ofNat 8 k)
  | .g n => .g (n + BitVec.ofNat 6 k)
  | .t n => .t (n + BitVec.ofNat 3 k)
  | o => o

def Operand.isReg : Operand → Bool
  | .v _ | .g _ | .t _ => true
  | _ => false

end Sys2Proof
namespace Sys2Proof.Machine

/-- Gives a fault of a group's later register the operand as it is encoded (R23: the offending operand specifier). -/
def asOperand (o : Operand) (place : Nat) : Except LaneFail Word → Except LaneFail Word
  | .error (.fault i) => .error (.fault { i with finfo := (opInfo i.code o.toSpec.toNat place).finfo })
  | r => r

/-- The 64-bit value of a source under a 64-bit type: a pair, or a literal extended (R29, R59, R60). -/
def Lane.readPair (l : Lane) (s : State) (place : Nat) (o : Operand) : Except LaneFail DWord :=
  match o with
  | .inline n => .ok (BitVec.ofInt 64 (inlineVal n))
  | .v _ | .g _ | .t _ => do
    let lo ← l.readWord s place o
    let hi ← asOperand o place (l.readWord s place (o.next 1))
    .ok (pairOf lo hi)
  | o => do
    let w ← l.readWord s place o
    .ok (BitVec.ofNat 64 w.toNat)

/-- Words of a register group (R119). -/
def Lane.readGroup (l : Lane) (s : State) (place : Nat) (o : Operand) : Nat → Nat → Except LaneFail (List Word)
  | _, 0 => .ok []
  | k, n + 1 => do
    let w ← asOperand o place (l.readWord s place (o.next k))
    let r ← l.readGroup s place o (k + 1) n
    .ok (w :: r)

/-- The pattern of an integer type, in its width, that a source supplies (R28). -/
def Lane.readInt (l : Lane) (s : State) (place : Nat) (o : Operand) (ty : Ty) : Except LaneFail Nat :=
  if ty.isPair then (l.readPair s place o).map (·.toNat) else (l.readWord s place o).map (fun w => w.toNat % 2 ^ ty.width)

/-- The pattern IMM32 supplies under an integer type (R53). -/
def immInt (w : Word) (ty : Ty) : Nat :=
  match ty with
  | .s64 => wrap (sx w.toNat 32) 64
  | .u64 => w.toNat
  | _ => w.toNat % 2 ^ ty.width

/-- A source that IMM32 may replace. -/
def Lane.readIntI (l : Lane) (s : State) (place : Nat) (o : Operand) (ty : Ty) (imm : Option Word) : Except LaneFail Nat :=
  match imm with
  | some w => .ok (immInt w ty)
  | none => l.readInt s place o ty

end Sys2Proof.Machine
namespace Sys2Proof
open Machine

/-- The exact value of a pattern of an integer type. -/
def Ty.val (ty : Ty) (p : Nat) : Int := if ty.isSigned then sx p ty.width else zx p ty.width

end Sys2Proof
namespace Sys2Proof.Machine

/-- The pattern of a scalar floating type that a source supplies (R28, R29). -/
def Lane.readF (l : Lane) (s : State) (place : Nat) (o : Operand) (ty : Ty) : Except LaneFail Nat :=
  match o with
  | .inline n => .ok (ty.fmt.ofInt (inlineVal n))
  | .const n => .ok (if ty == .f32 then constPat n else (convF .f32 ty.fmt 0 (constPat n)).1)
  | o => (l.readWord s place o).map (fun w => w.toNat % 2 ^ ty.fmt.width)

def Lane.readFI (l : Lane) (s : State) (place : Nat) (o : Operand) (ty : Ty) (imm : Option Word) : Except LaneFail Nat :=
  match imm with
  | some w => .ok (w.toNat % 2 ^ ty.fmt.width)
  | none => l.readF s place o ty

/-- The two element patterns of a pair type that a source supplies (R29, R53). -/
def Lane.readP2 (l : Lane) (s : State) (place : Nat) (o : Operand) (ty : Ty) (imm : Option Word) :
    Except LaneFail (Nat × Nat) :=
  match imm with
  | some w => .ok (w.toNat % 2 ^ 16, w.toNat / 2 ^ 16)
  | none =>
    match o with
    | .inline n => let p := ty.fmt.ofInt (inlineVal n); .ok (p, p)
    | .const n => let p := (convF .f32 ty.fmt 0 (constPat n)).1; .ok (p, p)
    | o => (l.readWord s place o).map (fun w => (w.toNat % 2 ^ 16, w.toNat / 2 ^ 16))

/-- A predicate operand; 0x1FF names p7 (R10, R61). -/
def Thread.readPred (th : Thread) : Operand → Bool
  | .pred n => th.pred n.val
  | _ => true

/-! ## Writing destinations -/

/-- What an instruction starts from: the lane's thread, with %clkh latched when %clk is a source (R59). Sources are read from
the state before, so an instruction that names both reads the %clkh of the latch before (DESIGN CHOICE, log entry 83). -/
def Lane.start (l : Lane) (s : State) (f : Fields) : LaneOut :=
  let th := l.thr s
  let clk : Operand := .special 10
  if f.sa == clk || f.sb == clk || f.sc == clk then { th := { th with clkh := (s.core l.core).cycle.extractLsb' 32 32 } }
  else { th := th }

/-- Writes a word to a destination (R58): an even later register of a pair has its own call. -/
def LaneOut.put (o : LaneOut) (regs : Nat) (d : Operand) (w : Word) : LaneOut :=
  match d with
  | .v n => { o with th := o.th.putV regs n.toNat w false }
  | .g n => { o with g := o.g ++ [(n.toNat, w)] }
  | .t n => { o with th := o.th.putT n.toNat w }
  | .q _ => { o with push := some w }
  | _ => o

def LaneOut.putPair (o : LaneOut) (regs : Nat) (d : Operand) (x : DWord) : LaneOut :=
  (o.put regs d (loWord x)).put regs (d.next 1) (hiWord x)

/-- Writes a pattern of an integer type, extended by R28. -/
def LaneOut.putInt (o : LaneOut) (regs : Nat) (d : Operand) (ty : Ty) (p : Nat) : LaneOut :=
  if ty.isPair then o.putPair regs d (BitVec.ofNat 64 p)
  else o.put regs d (BitVec.ofInt 32 (ty.val p))

def LaneOut.putPred (o : LaneOut) (d : Operand) (b : Bool) : LaneOut :=
  match d with
  | .pred n => { o with th := o.th.setPred n.val b }
  | _ => o

def LaneOut.orFlags (o : LaneOut) (f : BitVec 5) : LaneOut := { o with th := o.th.orFlags f }

end Sys2Proof.Machine
namespace Sys2Proof
open Machine

/-- Whether some source of the instruction names a channel. -/
def Fields.readsChannel (f : Fields) : Bool :=
  match f.sa, f.sb, f.sc with
  | .q _, _, _ => true
  | _, .q _, _ => true
  | _, _, .q _ => true
  | _, _, _ => false

end Sys2Proof
namespace Sys2Proof.Machine

/-- A lane stops on a speculative path before an instruction of R419. -/
def Lane.stopIfSpec (l : Lane) (s : State) : Except LaneFail Unit := if (l.thr s).spec then .error .stop else .ok ()

end Sys2Proof.Machine
end

