-- ==== Sys2Proof/Machine/Select.lean ====
section
/-!
DEFINITION. The block selector: eligibility (R169, R199, R225, R412, R418), faults at the header (R440), forming a pass
(R170, R173, R178), the overflow bin's events (R167, R168), orphaned channels (R195), and the core's clock.
-/
namespace Sys2Proof.Machine

/-! ## Tokens and live lanes -/

/-- Count of a token's copies not ended, and of the open set's (R298). -/
def Thread.tokenCount (th : Thread) (n : Nat) : Nat := ((Tbl.vals th.copies).filter (fun b => b == some n)).length
def Thread.openCount (th : Thread) : Nat := ((Tbl.vals th.copies).filter (fun b => b == none)).length

/-- A live lane has not exited (R175). -/
def State.live (s : State) (c k : Nat) : Bool :=
  match Tbl.look s.threads (threadKey c k) with
  | some th => !th.exited
  | none => false

/-- Slots of a gang's live lanes. -/
def State.liveLanes (s : State) (c gs : Nat) : List Nat := ((List.range 32).map (32 * gs + ·)).filter (fun k => s.live c k)

/-! ## Channels -/

def Chan.nfill (x : Chan) : Nat := (x.fifo.filter (fun e => e.st == .filled)).length
def Chan.npend (x : Chan) : Nat := (x.fifo.filter (fun e => e.st == .pending)).length
def Chan.nread (x : Chan) : Nat := (x.fifo.filter (fun e => e.st == .reading)).length

/-- An orphaned channel (R195). -/
def Chan.orphaned (x : Chan) : Bool := x.opened && x.pmask == 0 && x.nfill == 0 && x.npend == 0

/-- Reserves for reading the oldest entry that is not reserved so, once it is filled: a filled position behind one that is not
is not readable yet (R178). -/
def Chan.reserveRead (x : Chan) : Option (Nat × Chan) :=
  match x.fifo.find? (fun e => e.st != .reading) with
  | none => none
  | some e => if e.st != .filled then none else some (e.id, { x with fifo := x.fifo.map (fun y => if y.id == e.id then { y with st := .reading } else y) })

/-- Reserves the next free position for writing. -/
def Chan.reserveWrite (x : Chan) : Option (Nat × Chan) :=
  if 16 ≤ x.fifo.length then none
  else some (x.next, { x with fifo := x.fifo ++ [⟨x.next, .pending, []⟩], next := x.next + 1 })

/-- Whether some body word from index j on names a channel as a source, and as a destination (R179). -/
def bodyReads (body : List Raw) (j ch : Nat) : Bool :=
  (body.drop j).any (fun r => match Fields.ofRaw r with
    | some f => f.sa == .q (BitVec.ofNat 4 ch) || f.sb == .q (BitVec.ofNat 4 ch) || f.sc == .q (BitVec.ofNat 4 ch)
    | none => false)
def bodyWrites (body : List Raw) (j ch : Nat) : Bool :=
  (body.drop j).any (fun r => match Fields.ofRaw r with
    | some f => f.dst == .q (BitVec.ofNat 4 ch)
    | none => false)

/-- What a gang must reserve to enter at an index: read and write (R178, R179). -/
def wantsRead (f : Fetched) (idx : Nat) : Bool :=
  Hdr.rcv f.hdr && (idx == 31 || bodyReads f.body idx (Hdr.rch f.hdr).toNat)
def wantsWrite (f : Fetched) (idx : Nat) : Bool :=
  Hdr.wcv f.hdr && (idx == 31 || bodyWrites f.body idx (Hdr.wch f.hdr).toNat)

/-- Makes the reservations for the pass that a thread of a gang enters; none when one cannot be made. Threads of a cut pass carry
what it kept, and make no new ones (R179). -/
def State.reserve (s : State) (c slot : Nat) (pos : DWord) (f : Fetched) : Option (State × Resv) :=
  let gs := slot / 32
  let g := s.gang c gs
  let idx := posIdx pos
  match g.keptFor pos slot with
  | some r => some (s.setGang c gs { g with kept := g.kept.filter (· != r) }, r.2)
  | none =>
    let rch := (Hdr.rch f.hdr).toNat
    let wch := (Hdr.wch f.hdr).toNat
    let t := s.team g.team
    let step1 : Option (Team × Option Nat) :=
      if wantsRead f idx then
        match (t.chan rch).reserveRead with
        | some (id, x) => some (t.setChan rch x, some id)
        | none => none
      else some (t, none)
    match step1 with
    | none => none
    | some (t, rd) =>
      if wantsWrite f idx then
        match (t.chan wch).reserveWrite with
        | some (id, x) => some (s.setTeam g.team (t.setChan wch x), { rd := rd, wr := some id })
        | none => none
      else some (s.setTeam g.team t, { rd := rd })

/-! ## Faults at the header (R440) -/

/-- What happens to a thread that enters at a position: a fault at the header, with what its report changes in the thread;
a stop on a speculative path; or entry with the clause. -/
inductive Entry where
  | fault (i : FaultInfo) (th : Thread)
  | stop
  | enter (f : Fetched)
  deriving DecidableEq, Repr, Inhabited

/-- The copy or collective error a header reports: the lowest waited token whose count is 0 and whose ERR is set. -/
def Thread.tokenFault (th : Thread) (h : DWord) : Option (FaultInfo × Thread) :=
  match (List.range 8).find? (fun n => Hdr.twait h n && th.tokenCount n == 0 && (Tbl.look th.batchErr n).isSome) with
  | none => none
  | some n =>
    match Tbl.look th.batchErr n with
    | none => none
    | some e => some (⟨e.code, e.finfo + BitVec.ofNat 32 n, e.faddr⟩, { th with batchErr := Tbl.drop th.batchErr n })

/-- The membership fault an `mvote` left for a waited flag (R427). -/
def Thread.voteFault (th : Thread) (h : DWord) : Option (FaultInfo × Thread) :=
  match (List.range 12).find? (fun n => Hdr.fwait h n && (Tbl.look th.flagFault n).isSome) with
  | none => none
  | some n =>
    match Tbl.look th.flagFault n with
    | none => none
    | some i => some (i, { th with flagFault := Tbl.drop th.flagFault n })

/-- The role fault of R163. -/
def roleFault (g : Grid) (gang : Nat) (h : DWord) : Option FaultInfo :=
  let r := (Hdr.role h).toNat
  let consumer := !isProducer g gang
  if (r == 1 && consumer) || (r == 2 && !consumer) then some ⟨0x10, BitVec.ofNat 32 (r + 4 * b2n consumer), 0⟩ else none

/-- What entering its position brings a thread, in the order of R440; the state answered holds cached translations. -/
def State.entryOf (s : State) (c k : Nat) : State × Entry :=
  let th := s.thr c k
  let g := s.gangGrid c (k / 32)
  let a := posClause th.pos
  let idx := posIdx th.pos
  match s.fetchHdr c g (!th.priv) a with
  | .error e => (s, .fault (fetchInfo e.1 a e.2) th)
  | .ok (s, h) =>
    if idx != 31 && (24 ≤ idx || Hdr.blen h ≤ idx) then (s, .fault illegalEncoding th)
    else
      match s.fetchBody c g.ctx (!th.priv) (a.toNat + 8) (Hdr.blen h) with
      | .error e => (s, .fault (fetchInfo e.1 a e.2) th)
      | .ok (s, body) =>
        match roleFault g (s.gang c (k / 32)).num h with
        | some i => (s, .fault i th)
        | none =>
          match th.tokenFault h with
          | some (i, th) => (s, .fault i th)
          | none =>
            match th.voteFault h with
            | some (i, th) => (s, .fault i th)
            | none =>
              if th.spec && (Hdr.rcv h || Hdr.wcv h) then (s, .stop) else (s, .enter ⟨h, body⟩)

/-! ## Eligibility -/

/-- A team is held by the loop's levels (R225): its core is at or above NC, or a gang slot at or above GS. -/
def State.teamHeld (s : State) (teamId : Nat) : Bool :=
  let t := s.team teamId
  let g := s.grid t.grid
  let x := (s.ctx g.ctx).loop
  x.ctrl.getLsbD 31 && !g.coop
    && ((x.levels.extractLsb' 16 9).toNat ≤ t.lcore
        || (s.gangs.any (fun e => e.2.team == teamId && (x.levels.extractLsb' 25 7).toNat ≤ e.1 % 64)))

/-- Whether the cores of a cluster form passes of a context: a halted cluster does when it chose to drain (R345, R346). -/
def Ctx.issues (x : Ctx) (cluster : Nat) : Bool :=
  x.run == .running || (x.run == .halting && Tbl.at x.chosen cluster 0 == 1)

/-- Conditions on a thread alone: flags, tokens, `park`, its barriers' generations, its context and its team (R169, R115,
R199, R225, R418, R181). A barrier holds it at a clause entry, not where it resumes inside a clause (DEDUCED, log entry 97). -/
def State.threadReady (s : State) (c k : Nat) (h : DWord) : Bool :=
  let th := s.thr c k
  let gang := s.gang c (k / 32)
  let t := s.team gang.team
  let g := s.grid t.grid
  (List.range 12).all (fun n => !Hdr.fwait h n || th.flag n == 0)
  && (List.range 8).all (fun n => !Hdr.twait h n || th.tokenCount n == 0)
  && th.park == 0
  && !(posIdx th.pos == 31 && th.barWait.any (fun e => (Tbl.at t.bars e.1 {}).gen == e.2))
  && (s.ctx g.ctx).issues (clusterOf c) && !(s.core c).halted && (s.core c).ncAt.isNone && !s.teamHeld gang.team
  && !(th.spec && 64 ≤ th.ncl)
  && (!g.coop || g.unplaced.isEmpty)

/-- The header a thread's entry depends on, if it can be fetched. -/
def State.hdrAt (s : State) (c k : Nat) : Option DWord :=
  match s.fetchHdr c (s.gangGrid c (k / 32)) (!(s.thr c k).priv) (posClause (s.thr c k).pos) with
  | .ok (_, h) => some h
  | .error _ => none

/-- The slots of an entry that are eligible, before channels are reserved. A thread whose clause cannot be fetched is
eligible, and faults at entry. A fault return's position is checked at entry, so only once the header's flags and tokens are
clear (DESIGN CHOICE, log entry 84). -/
def State.readySlots (s : State) (c : Nat) (e : WvtEntry) : List Nat :=
  e.slots.filter (fun k =>
    match s.hdrAt c k with
    | none => s.threadReady c k 0
    | some h => s.threadReady c k h
        && (!(posIdx e.pos == 31 && Hdr.conv h) || (s.liveLanes c (k / 32)).all (fun j => e.slots.contains j)))

/-- A gang is taken whole or not at all, so a gang of a convergence clause with a lane that is not ready waits. The threads of a cut
pass resume together with what it kept, so each of them waits for the others (R179). -/
def State.eligible (s : State) (c : Nat) (e : WvtEntry) : List Nat :=
  let ready := s.readySlots c e
  ready.filter (fun k =>
    (match (s.gang c (k / 32)).keptFor e.pos k with
      | none => true
      | some r => r.2.lanes.all (fun j => ready.contains (32 * (k / 32) + j)))
    &&
    match s.hdrAt c k with
    | none => true
    | some h =>
      (!(posIdx e.pos == 31 && Hdr.conv h) || (s.liveLanes c (k / 32)).all (fun j => ready.contains j))
      && (match s.entryOf c k with
          | (_, .enter f) => (s.reserve c k e.pos f).isSome
          | _ => true))

/-! ## Selection (R173) -/

def WvtEntry.urgent (e : WvtEntry) : Bool := 4096 < e.age

/-- Compares keys one after another: the smaller list of naturals wins. -/
def keyLt : List Nat → List Nat → Bool
  | a :: r, b :: t => if a < b then true else if b < a then false else keyLt r t
  | _, _ => false

/-- The comparison key of an entry: smaller is chosen. Column 0 `oldest`, 1 `fill`, 2 `order`, 3 any urgent entry. -/
def selectKey (column : Nat) (e : WvtEntry) (n : Nat) : List Nat :=
  let old := 8191 - min e.age 8191
  let prio := 15 - e.prio
  let addr := (posClause e.pos).toNat
  let idx := posIdx e.pos
  let spin := b2n (e.spin && !e.urgent)
  match column with
  | 3 => [b2n (!e.urgent), old, prio, addr, idx]
  | 1 => [spin, 2048 - n, old, prio, addr, idx]
  | 2 => [spin, addr, idx, prio]
  | _ => [spin, old, prio, addr, idx]

/-- The entry BSEL chooses, with its eligible slots. -/
def State.choose (s : State) (c : Nat) : Option (WvtEntry × List Nat) :=
  let cands := ((s.core c).wvt.map (fun e => (e, s.eligible c e))).filter (fun p => !p.2.isEmpty)
  let column :=
    if cands.any (fun p => p.1.urgent) then 3
    else
      match cands with
      | [] => 0
      | p :: r => if r.all (fun q => q.1.policy == p.1.policy) then p.1.policy else 0
  cands.foldl (fun (b : Option (WvtEntry × List Nat)) p =>
    match b with
    | none => some p
    | some q => if keyLt (selectKey column p.1 p.2.length) (selectKey column q.1 q.2.length) then some p else some q) none

/-! ## Orphaned channels (R195) -/

/-- The orphaned channel that the header of a waiting thread's clause reads. -/
def State.orphanAt (s : State) (c k : Nat) : Option Nat :=
  match s.hdrAt c k with
  | none => none
  | some h =>
    let n := (Hdr.rch h).toNat
    if Hdr.rcv h && ((s.gangTeam c (k / 32)).chan n).orphaned then some n else none

/-- Whether some thread of a core waits on an orphaned channel. -/
def State.hasOrphan (s : State) (c : Nat) : Bool :=
  (s.core c).wvt.any (fun e => e.slots.any (fun k => (s.orphanAt c k).isSome))

/-- A core on which some thread waits on an orphaned channel. -/
def State.orphanCore (s : State) : Option Nat :=
  if s.teams.any (fun e => e.2.chans.any (fun x => x.2.orphaned)) then (Tbl.keys s.cores).find? s.hasOrphan else none

/-- Threads that wait in an entry whose header reads an orphaned channel of their team take the fault. -/
def State.sweepOrphans (s : State) (c : Nat) : State :=
  (s.core c).wvt.foldl (fun s e =>
    e.slots.foldl (fun s k =>
      match s.orphanAt c k with
      | none => s
      | some n => (((s.quitKept c k).unplace c k).takeFault c k (entryPos (posClause e.pos)) 0 ⟨0x12, BitVec.ofNat 32 n, 0⟩).tidy c) s) s

/-! ## PASS_FORM -/

/-- A thread enters a pass: at a clause start temporaries are invalidated (R14) and the wait set empties (R199), and a
speculating lane counts a clause (R418). A resumption inside a clause is no clause entry for the wait set (DEDUCED, log entry 97). -/
def Thread.enter (th : Thread) (pipe : Nat) : Thread :=
  { (if posIdx th.pos == 31 then th.leavePass else th) with
    barWait := if posIdx th.pos == 31 then [] else th.barWait
    ncl := if th.spec then th.ncl + 1 else th.ncl
    place := .pass pipe }

/-- Takes the gangs of a list of slots into a pass one after another: header faults and stops are settled, reservations
made, and a gang for which none remains stays in its entry (R170). -/
def State.takeIn (s : State) (c p : Nat) (pos : DWord) : List Nat → Option (Fetched × List Nat × Tbl Resv) →
    State × Option (Fetched × List Nat × Tbl Resv)
  | [], acc => (s, acc)
  | gs :: rest, acc =>
    let entry := (s.core c).wvt.find? (fun e => e.pos == pos)
    let slots := match entry with
      | some e => (s.eligible c e).filter (fun k => k / 32 == gs)
      | none => []
    -- threads that fault or stop at the header leave the entry
    let r := slots.foldl (fun (a : State × List Nat × Option Fetched) k =>
      let (s, kept, f) := a
      let (s, o) := s.entryOf c k
      match o with
      | .fault i th => ((((s.quitKept c k).unplace c k).modThr c k (fun x => { th with place := x.place })).takeFault c k (entryPos (posClause pos)) 0 i, kept, f)
      | .stop => (((s.quitKept c k).unplace c k).takeStop c k pos, kept, f)
      | .enter g => (s, kept ++ [k], some g)) (s, [], none)
    let (s, kept, f) := r
    match f, kept with
    | none, _ => State.takeIn s c p pos rest acc
    | _, [] => State.takeIn s c p pos rest acc
    | some f, first :: _ =>
      -- threads of a cut pass enter together, and others of the gang after them
      let mate := (s.gang c gs).keptFor pos first
      let kept := kept.filter (fun k => (s.gang c gs).keptFor pos k == mate)
      match s.reserve c first pos f with
      | none => State.takeIn s c p pos rest acc
      | some (s, resv) =>
        let s := kept.foldl (fun s k => (s.unplace c k).modThr c k (fun th => th.enter p)) s
        let acc := match acc with
          | none => (f, kept, [(gs, resv)])
          | some (f0, ks, rs) => (f0, ks ++ kept, Tbl.put rs gs resv)
        State.takeIn s c p pos rest (some acc)

/-- Forms a pass on a free pipe (R170 to R173). -/
def State.formPass (s : State) (c p : Nat) : State :=
  let s := s.sweepOrphans c
  match s.choose c with
  | none => s
  | some (e, slots) =>
    let s := s.modCore c (fun k => { k with
      wvt := k.wvt.map (fun x => if x.pos == e.pos then { x with age := 0 } else x), idle := 0 })
    match s.takeIn c p e.pos (gangsOf slots) none with
    | (s, none) => s.tidy c
    | (s, some (f, ks, rs)) =>
      let idx := if posIdx e.pos == 31 then 0 else posIdx e.pos
      let x : Pass :=
        { id := s.ids, clause := posClause e.pos, hdr := f.hdr, start := idx, idx := idx, body := f.body, slots := ks, resv := rs,
          refreshed := Hdr.long f.hdr, since := s.time, closing := rs.flatMap (fun e => e.2.closing.map (fun n => (e.1, n))) }
      ({ s with ids := s.ids + 1 }.setPass c p x).tidy c

/-- The lowest free pipe of a core's four (R172). -/
def State.freePipe (s : State) (c : Nat) : Option Nat := (List.range 4).find? (fun p => (Tbl.look (s.core c).pipes p).isNone)

/-- The pipe on which a core's next pass forms: the lowest free one, when an entry holds an eligible thread or a thread waits on
an orphaned channel. -/
def State.formable (s : State) (c : Nat) : Option Nat := if (s.choose c).isSome || s.hasOrphan c then s.freePipe c else none

/-- Free pipes choose in ascending pipe number, so only the lowest free one forms a pass (R172). -/
def execPassForm (core pipe : Nat) (s : State) : Host.Outcome State Fault Refusal :=
  if s.freePipe core == some pipe then .next ({ s with lastCore := core }.formPass core pipe) else .next s

/-! ## Time on a core -/

/-- Whether some entry holds an eligible thread, or a pass runs. -/
def State.coreBusy (s : State) (c : Nat) : Bool :=
  !(s.core c).pipes.isEmpty || (s.core c).wvt.any (fun e => !(s.eligible c e).isEmpty)

/-- Moves the due records of a position into its entry, if there is one (R167). -/
def State.moveDue (s : State) (c : Nat) (r : ContRec) : State :=
  if (s.core c).wvt.any (fun e => e.pos == r.pos) then
    let s := s.modCore c (fun k => { k with
      bin := k.bin.filter (fun x => x.slot != r.slot)
      wvt := k.wvt.map (fun e => if e.pos == r.pos then { e with slots := insertSorted r.slot e.slots } else e) })
    s.modThr c r.slot (fun th => { th with place := .entry })
  else s.tidy c

/-- The cycles after which a waiting thread's `park` count no longer holds it back: its own, and under CONV its whole gang's. -/
def State.ripeIn (s : State) (c : Nat) (e : WvtEntry) (k : Nat) : Nat :=
  let mates := match s.hdrAt c k with
    | some h => if posIdx e.pos == 31 && Hdr.conv h then s.liveLanes c (k / 32) else [k]
    | none => [k]
  mates.foldl (fun n j => max n (s.thr c j).park) 0

/-- For each entry of a core, the least count of cycles after which only `park` counts that have run out stood in its way. -/
def State.ripening (s : State) (c : Nat) : List (DWord × List (Nat × Nat)) :=
  (s.core c).wvt.map (fun e => (e.pos, e.slots.map (fun k => (k, s.ripeIn c e k))))

/-- The cycles of n in which an entry held an eligible thread: from when the first of its eligible threads was no longer parked
(R173). -/
def agedBy (n : Nat) (waits : List (Nat × Nat)) (eligible : List Nat) : Nat :=
  (waits.filter (fun w => eligible.contains w.1)).foldl (fun a w => max a (n - w.2)) 0

/-- Whether a core's watchdog counts: a team is resident there, and a debugger has not halted it (R344). A paired team is
resident on both its cores. -/
def State.watched (s : State) (c : Nat) : Bool :=
  s.teams.any (fun e =>
    (e.2.core == c || ((s.grid e.2.grid).paired && e.2.core + 1 == c))
    && !((s.ctx (s.grid e.2.grid).ctx).run == .stopped && (s.ctx (s.grid e.2.grid).ctx).stop.toNat % 256 == 5))

/-- The cycles the array has spent on its started head when n more have passed: it stands still while the next step waits for its
lines (R316, R347). -/
def Core.arrayCycles (k : Core) (n : Nat) : Nat :=
  match k.fifo with
  | [] => k.arrayAt
  | e :: _ => if e.started then max k.arrayAt (min (k.arrayAt + n) (512 * e.ready)) else k.arrayAt

/-- n cycles pass on a core: the cycle counter, the ages of entries that hold an eligible thread (R173), the counts of its
records (R167), the watchdog count of a resident context (R344), the idle cycles before a spill (R168), and the array's (R347). -/
def State.coreCycles (s : State) (c n : Nat) (waits : List (DWord × List (Nat × Nat))) : State :=
  if n = 0 then s
  else
    let busy := s.coreBusy c
    let ages := (s.core c).wvt.map (fun e =>
      { e with age := min 8191 (e.age + agedBy n (((waits.find? (fun w => w.1 == e.pos)).map (·.2)).getD []) (s.eligible c e)) })
    let resident := s.watched c
    let due := (s.core c).bin.filter (fun r => 0 < r.park && r.park ≤ n)
    let s := s.modCore c (fun k => { k with
      cycle := k.cycle + BitVec.ofNat 64 n
      wvt := ages
      bin := k.bin.map (fun r => { r with park := r.park - n })
      wd := if resident then k.wd + n else k.wd
      idle := if busy || !(k.bin.any (fun r => r.park == 0)) then 0 else k.idle + n
      arrayAt := k.arrayCycles n })
    due.foldl (fun s r => s.moveDue c r) s

/-- Time passes for the whole device: every core counts the cycles of its own clock, and `park` counts fall (R115). -/
def State.elapse (s : State) (ps : Nat) : State :=
  let run : Tbl (Nat × Nat) := s.cores.map (fun e => (e.1, (e.2.phase + ps * e.2.rate) / 20000, (e.2.phase + ps * e.2.rate) % 20000))
  let waits := s.cores.map (fun e => (e.1, s.ripening e.1))
  let s := { s with
    time := s.time + ps
    cores := s.cores.map (fun e => (e.1, { e.2 with phase := (e.2.phase + ps * e.2.rate) % 20000 }))
    threads := s.threads.map (fun e =>
      if e.2.park = 0 then e else (e.1, { e.2 with park := e.2.park - (Tbl.at run (e.1 / 2048) (0, 0)).1 })) }
  run.foldl (fun s e => s.coreCycles e.1 e.2.1 (Tbl.at waits e.1 [])) s

/-- Time passes up to a moment, in ps. -/
def State.toTime (s : State) (t : Nat) : State := if s.time < t then s.elapse (t - s.time) else s

/-- The ps that n cycles of a core take from now. -/
def Core.psOf (k : Core) (n : Nat) : Nat := (20000 * n - k.phase + k.rate - 1) / k.rate

/-- n cycles of a core pass. -/
def State.tick (s : State) (c n : Nat) : State := (s.setCore c (s.core c)).elapse ((s.core c).psOf n)

/-- The park count of a record runs out: the time it takes passes (R167). -/
def execParkDue (core slot : Nat) (s : State) : Host.Outcome State Fault Refusal :=
  match (s.core core).bin.find? (fun r => r.slot == slot) with
  | none =>
    -- the thread waits in an entry with its count (R115, R166)
    .next (if (s.thr core slot).park == 0 then s else s.tick core (s.thr core slot).park)
  | some r => .next (if r.park == 0 then s else s.tick core r.park)

/-- Spills the entry of the highest key to the bin (R168). Before the 4,096 idle cycles are over they pass first, and what they
bring is looked at again. -/
def execSpill (core : Nat) (s : State) : Host.Outcome State Fault Refusal :=
  let k := s.core core
  if s.coreBusy core || !(k.bin.any (fun r => r.park == 0)) then .next s
  else if k.idle < 4096 then .next (s.tick core (4096 - k.idle))
  else
    let top := (s.core core).wvt.foldl (fun (b : Option WvtEntry) e => match b with
      | none => some e
      | some x => if x.pos.toNat < e.pos.toNat then some e else some x) none
    match top with
    | none => .next s
    | some e =>
      let s := s.modCore core (fun k => { k with wvt := k.wvt.filter (fun x => x.pos != e.pos), idle := 0 })
      .next ((e.slots.foldl (fun s t => s.toBin core t) s).tidy core)

/-- The time at which the rows of a pass's temporaries switch to refreshed mode: 4 µs after it began or resumed (R17, R25). -/
def Pass.refreshAt (x : Pass) : Nat := x.since + 4000000

/-- A pass that has run for 4 µs has its temporary rows refreshed (R17). No result depends on it. -/
def execTempRefreshSwitch (core pipe : Nat) (s : State) : Host.Outcome State Fault Refusal :=
  match Tbl.look (s.core core).pipes pipe with
  | none => .next s
  | some x => .next (if x.refreshAt ≤ s.time then s.setPass core pipe { x with refreshed := true } else s)

/-- Store byte offset of the first word of row r of a core's usable bank i (R240): a row holds eight words, the banks' words
interleave. -/
def rowOffset (banks i r : Nat) : Nat := 4 * (8 * r * banks + i)

/-- Whether a core refreshes a row (R243). Row 1,024·b + r is row r of physical bank b: it is refreshed where it belongs to the
overflow bin, the L1 portion or a footprint, in the order of R242; store lent to the L1 that holds no line is free. Row 65,536 + k
holds the eight temporaries of thread slot k: it is refreshed in a pass of refreshed mode. The places are the model's choice (DESIGN
CHOICE, log entry 105). -/
def State.refreshes (s : State) (c row : Nat) : Bool :=
  let k := s.core c
  if 65536 ≤ row then (Tbl.vals k.pipes).any (fun x => x.refreshed && x.slots.contains (row - 65536))
  else
    k.banks.contains (row / 1024)
    && rowOffset k.banks.length (k.banks.findIdx (· == row / 1024)) (row % 1024) < 32768 + 64 * max 2048 k.l1.length + s.footprints c

/-- The time by which a core's rows are refreshed again: 7 µs after the last round (R243). -/
def Core.refreshDue (k : Core) : Nat := k.refreshAt + 7000000

/-- A row is refreshed, and with it in a round every row that the core refreshes; no result changes (R243). The bank cycle it takes
from an access that meets it is time alone (log entries 8 and 105). -/
def execRowRefresh (core row : Nat) (s : State) : Host.Outcome State Fault Refusal :=
  .next (if s.refreshes core row then s.modCore core (fun k => { k with refreshAt := s.time }) else s)

/-- A gang's slot is freed while a pass that all its lanes have left still runs: what the gang reserved and is to close there is
settled at once (DESIGN CHOICE, log entry 118). -/
def State.settleGang (s : State) (c gs : Nat) : State :=
  (s.core c).pipes.foldl (fun s e =>
    if e.2.resv.any (·.1 == gs) || e.2.closing.any (·.1 == gs) then
      let mine := { e.2 with resv := e.2.resv.filter (·.1 == gs), closing := e.2.closing.filter (·.1 == gs) }
      let rest := { e.2 with resv := e.2.resv.filter (·.1 != gs), closing := e.2.closing.filter (·.1 != gs) }
      ((s.finishResv c mine).closeChans c mine).setPass c e.1 rest
    else s) s

/-- An exited thread's slot and window are freed once its flags are zero (R114); with its last lane the gang's slot is
freed, and its producer bits clear (R162, R194). -/
def State.freeThread (s : State) (core slot : Nat) : State :=
  match Tbl.look s.threads (threadKey core slot) with
  | none => s
  | some th =>
    if !th.exited || th.flags.any (fun e => e.2 != 0) then s
    else
      let s := { s with threads := Tbl.drop s.threads (threadKey core slot) }
      let gs := slot / 32
      if ((List.range 32).map (32 * gs + ·)).any (fun k => (Tbl.look s.threads (threadKey core k)).isSome) then s
      else
        let g := s.gang core gs
        let s := s.settleGang core gs
        let s := s.modTeam g.team (fun t =>
          { t with chans := Tbl.mapAll (fun _ x => { x with pmask := x.pmask &&& ~~~(onesAt 32 g.num 1) }) t.chans })
        { s with gangs := Tbl.drop s.gangs (gangKey core gs) }

def execThreadFree (core slot : Nat) (s : State) : Host.Outcome State Fault Refusal := .next (s.freeThread core slot)

end Sys2Proof.Machine
end

