-- ==== Sys2Proof/Machine/Integer.lean ====
section
/-!
DEFINITION. Integer, shift, logic, bit-field, compare, select, address, move and index instructions (R72 to R88).
-/
namespace Sys2Proof.Machine

/-- APPLY of R73: 0 `wrap`, 1 `sats`, 2 `satu`, as an n-bit pattern. -/
def applyMode (md n : Nat) (x : Int) : Nat :=
  match md with
  | 0 => wrap x n
  | 1 => wrap (sats x n) n
  | _ => wrap (satu x n) n

/-- A field that IMM32 may replace: checked only when it does not. -/
def unlessImm (f : Fields) (e : Nat × OpKind × Operand) : List (Nat × OpKind × Operand) :=
  if f.imm.isSome then [] else [e]

/-- Register instructions: the fields are checked in order, then the lane's result is computed. -/
def regOp (s : State) (f : Fields) (ks : List (Nat × OpKind × Operand)) (compute : Lane → Except LaneFail LaneOut) :
    Host.Outcome State Fault Refusal :=
  s.execLanes f.guard f.dst.toSpec.toNat f.readsChannel (fun _ l => do
    l.check s ks
    compute l)

/-- One integer source. -/
def intUn (s : State) (f : Fields) (op : Nat → Nat) : Host.Outcome State Fault Refusal :=
  let w := f.ty.isPair
  regOp s f [(pSA, .src w, f.sa), (pDST, .dst w, f.dst)] (fun l => do
    let a ← l.readInt s pSA f.sa f.ty
    .ok ((l.start s f).putInt (l.regs s) f.dst f.ty (op a)))

/-- Two integer sources, patterns in and a pattern out; IMM32 replaces SB. -/
def intBin (s : State) (f : Fields) (op : Nat → Nat → Nat) : Host.Outcome State Fault Refusal :=
  let w := f.ty.isPair
  regOp s f ([(pSA, .src w, f.sa)] ++ unlessImm f (pSB, .src w, f.sb) ++ [(pDST, .dst w, f.dst)]) (fun l => do
    let a ← l.readInt s pSA f.sa f.ty
    let b ← l.readIntI s pSB f.sb f.ty f.imm
    .ok ((l.start s f).putInt (l.regs s) f.dst f.ty (op a b)))

/-- Three integer sources; IMM32 replaces SB. -/
def intTri (s : State) (f : Fields) (op : Nat → Nat → Nat → Nat) : Host.Outcome State Fault Refusal :=
  let w := f.ty.isPair
  regOp s f ([(pSA, .src w, f.sa)] ++ unlessImm f (pSB, .src w, f.sb) ++ [(pSC, .src w, f.sc), (pDST, .dst w, f.dst)]) (fun l => do
    let a ← l.readInt s pSA f.sa f.ty
    let b ← l.readIntI s pSB f.sb f.ty f.imm
    let c ← l.readInt s pSC f.sc f.ty
    .ok ((l.start s f).putInt (l.regs s) f.dst f.ty (op a b c)))

/-- Three integer sources; IMM32 replaces SC. -/
def intTriC (s : State) (f : Fields) (op : Nat → Nat → Nat → Nat) : Host.Outcome State Fault Refusal :=
  let w := f.ty.isPair
  regOp s f ([(pSA, .src w, f.sa), (pSB, .src w, f.sb)] ++ unlessImm f (pSC, .src w, f.sc) ++ [(pDST, .dst w, f.dst)]) (fun l => do
    let a ← l.readInt s pSA f.sa f.ty
    let b ← l.readInt s pSB f.sb f.ty
    let c ← l.readIntI s pSC f.sc f.ty f.imm
    .ok ((l.start s f).putInt (l.regs s) f.dst f.ty (op a b c)))

/-- An exact result under the instruction's mode (R73). -/
def intResult (f : Fields) (x : Int) : Nat := applyMode f.md.toNat f.ty.width x

/-! ## Arithmetic (R74, R75) -/

def execIadd (f : Fields) (s : State) : Host.Outcome State Fault Refusal :=
  intBin s f (fun a b => intResult f (f.ty.val a + f.ty.val b))

def execIsub (f : Fields) (s : State) : Host.Outcome State Fault Refusal :=
  intBin s f (fun a b => intResult f (f.ty.val a - f.ty.val b))

def execImul (f : Fields) (s : State) : Host.Outcome State Fault Refusal :=
  intBin s f (fun a b => intResult f (f.ty.val a * f.ty.val b))

/-- floor(a · b / 2^n). -/
def execImulh (f : Fields) (s : State) : Host.Outcome State Fault Refusal :=
  intBin s f (fun a b => wrap ((f.ty.val a * f.ty.val b) / ((2 ^ f.ty.width : Nat) : Int)) f.ty.width)

def execImad (f : Fields) (s : State) : Host.Outcome State Fault Refusal :=
  intTri s f (fun a b c => intResult f (f.ty.val a * f.ty.val b + f.ty.val c))

def execIabs (f : Fields) (s : State) : Host.Outcome State Fault Refusal :=
  intUn s f (fun a => intResult f ((f.ty.val a).natAbs : Int))

def execIneg (f : Fields) (s : State) : Host.Outcome State Fault Refusal :=
  intUn s f (fun a => intResult f (-(f.ty.val a)))

def execImin (f : Fields) (s : State) : Host.Outcome State Fault Refusal :=
  intBin s f (fun a b => if f.ty.val b < f.ty.val a then b else a)

def execImax (f : Fields) (s : State) : Host.Outcome State Fault Refusal :=
  intBin s f (fun a b => if f.ty.val a < f.ty.val b then b else a)

/-- min(max(a, b), c). -/
def execIclamp (f : Fields) (s : State) : Host.Outcome State Fault Refusal :=
  intTriC s f (fun a b c =>
    let m := if f.ty.val a < f.ty.val b then b else a
    if f.ty.val c < f.ty.val m then c else m)

/-- Addition with carry (R75). -/
def execAddc (f : Fields) (s : State) : Host.Outcome State Fault Refusal :=
  let w := f.ty.isPair
  regOp s f ([(pSA, .src w, f.sa)] ++ unlessImm f (pSB, .src w, f.sb)
      ++ (if f.minor == 1 then [(pSC, .pred, f.sc)] else []) ++ [(pDST, .dst w, f.dst)]) (fun l => do
    let a ← l.readInt s pSA f.sa f.ty
    let b ← l.readIntI s pSB f.sb f.ty f.imm
    let cin := if f.minor == 1 then b2n ((l.thr s).readPred f.sc) else 0
    let sum := a + b + cin
    let o := (l.start s f).putInt (l.regs s) f.dst f.ty (sum % 2 ^ f.ty.width)
    .ok { o with th := o.th.setPred f.slot.toNat (bitOf sum f.ty.width) })

/-! ## Shifts (R77): the amount is the low 32 bits of SB whatever the type -/

/-- The amount of a shift: under a narrow type the operand still supplies its low 32 bits. -/
def shiftIns (s : State) (f : Fields) (op : Nat → Nat → Nat) : Host.Outcome State Fault Refusal :=
  let w := f.ty.isPair
  regOp s f ([(pSA, .src w, f.sa)] ++ unlessImm f (pSB, .src w, f.sb) ++ [(pDST, .dst w, f.dst)]) (fun l => do
    let a ← l.readInt s pSA f.sa f.ty
    let b ← match f.imm with
      | some i => Except.ok i
      | none => if w then (l.readPair s pSB f.sb).map loWord else l.readWord s pSB f.sb
    .ok ((l.start s f).putInt (l.regs s) f.dst f.ty (op a b.toNat)))

/-- a · 2^s under the mode; s above 128 gives what 128 gives. -/
def execShl (f : Fields) (s : State) : Host.Outcome State Fault Refusal :=
  shiftIns s f (fun a n => intResult f (f.ty.val a * ((2 ^ (min n 128) : Nat) : Int)))

def execShr (f : Fields) (s : State) : Host.Outcome State Fault Refusal :=
  shiftIns s f (fun a n => a / 2 ^ (min n 128))

def execSar (f : Fields) (s : State) : Host.Outcome State Fault Refusal :=
  shiftIns s f (fun a n => wrap (sx a f.ty.width / ((2 ^ (min n 128) : Nat) : Int)) f.ty.width)

def execRotl (f : Fields) (s : State) : Host.Outcome State Fault Refusal :=
  shiftIns s f (fun a n =>
    let w := f.ty.width
    let k := n % w
    (a * 2 ^ k) % 2 ^ w + a / 2 ^ (w - k))

/-! ## Logic (R78) -/

def execAndOp (f : Fields) (s : State) : Host.Outcome State Fault Refusal := intBin s f (fun a b => a &&& b)

def execOrOp (f : Fields) (s : State) : Host.Outcome State Fault Refusal := intBin s f (fun a b => a ||| b)

def execXorOp (f : Fields) (s : State) : Host.Outcome State Fault Refusal := intBin s f (fun a b => a ^^^ b)

/-- a AND NOT b. -/
def execAndn (f : Fields) (s : State) : Host.Outcome State Fault Refusal := intBin s f (fun a b => a ^^^ (a &&& b))

/-- Bits 0 to n-1 given by a function of the bit number, as a number. -/
def natOfBits (g : Nat → Bool) : Nat → Nat
  | 0 => 0
  | n + 1 => natOfBits g n + (if g n then 2 ^ n else 0)

/-- The table of a `blut`: MINOR, SLOT and MOD[0]. -/
def lutOf (f : Fields) : Nat := 16 * f.minor.toNat + 2 * f.slot.toNat + f.md.toNat % 2

def execBlut (f : Fields) (s : State) : Host.Outcome State Fault Refusal :=
  intTriC s f (fun a b c =>
    natOfBits (fun i => bitOf (lutOf f) (b2n (bitOf a i) + 2 * b2n (bitOf b i) + 4 * b2n (bitOf c i))) f.ty.width)

/-! ## Bit counts (R79) -/

def popCount (a : Nat) : Nat → Nat
  | 0 => 0
  | n + 1 => popCount a n + b2n (bitOf a n)

/-- Zeros above the highest one of the low n bits. -/
def leadZeros (a : Nat) : Nat → Nat
  | 0 => 0
  | n + 1 => if bitOf a n then 0 else leadZeros a n + 1

/-- Zeros below the lowest one, counting up to n bits from bit k. -/
def trailZeros (a k : Nat) : Nat → Nat
  | 0 => 0
  | n + 1 => if bitOf a k then 0 else trailZeros a (k + 1) n + 1

def execPopc (f : Fields) (s : State) : Host.Outcome State Fault Refusal := intUn s f (fun a => popCount a f.ty.width)

def execClz (f : Fields) (s : State) : Host.Outcome State Fault Refusal := intUn s f (fun a => leadZeros a f.ty.width)

def execCtz (f : Fields) (s : State) : Host.Outcome State Fault Refusal := intUn s f (fun a => trailZeros a 0 f.ty.width)

def execBrev (f : Fields) (s : State) : Host.Outcome State Fault Refusal :=
  intUn s f (fun a => natOfBits (fun i => bitOf a (f.ty.width - 1 - i)) f.ty.width)

/-! ## Bit fields (R80, R81) -/

/-- The position and the end of a field of a w-bit operand, none when the descriptor names no bit. -/
def fieldOf (desc w : Nat) : Option (Nat × Nat) :=
  let pos := desc % 256
  let len := desc / 256 % 256
  if len = 0 || w ≤ pos then none else some (pos, min (pos + len) w)

/-- The field of A as `bfx` writes it: x as an integer. -/
def bfxVal (signed : Bool) (a w desc : Nat) : Int :=
  match fieldOf desc w with
  | none => 0
  | some (pos, hi) =>
    let x := a / 2 ^ pos % 2 ^ (hi - pos)
    if signed then sx x (hi - pos) else zx x (hi - pos)

/-- C with a field replaced by the low bits of A. -/
def bfiVal (a c w desc : Nat) : Nat :=
  match fieldOf desc w with
  | none => c
  | some (pos, hi) =>
    let n := hi - pos
    c % 2 ^ pos + (a % 2 ^ n) * 2 ^ pos + c / 2 ^ hi * 2 ^ hi

/-- The descriptor: SB's low 16 bits, or IMM32. Under a 64-bit type SB is a pair like any operand (R61). -/
def Lane.readDesc (l : Lane) (s : State) (f : Fields) : Except LaneFail Nat :=
  match f.imm with
  | some i => .ok i.toNat
  | none => (if f.ty.isPair then (l.readPair s pSB f.sb).map loWord else l.readWord s pSB f.sb).map (fun w => w.toNat % 2 ^ 16)

def execBfx (f : Fields) (s : State) : Host.Outcome State Fault Refusal :=
  let w := f.ty.isPair
  regOp s f ([(pSA, .src w, f.sa)] ++ unlessImm f (pSB, .src w, f.sb) ++ [(pDST, .dst w, f.dst)]) (fun l => do
    let a ← l.readInt s pSA f.sa f.ty
    let d ← l.readDesc s f
    .ok ((l.start s f).putInt (l.regs s) f.dst f.ty (wrap (bfxVal f.ty.isSigned a f.ty.width d) f.ty.width)))

def execBfi (f : Fields) (s : State) : Host.Outcome State Fault Refusal :=
  let w := f.ty.isPair
  regOp s f ([(pSA, .src w, f.sa)] ++ unlessImm f (pSB, .src w, f.sb) ++ [(pSC, .src w, f.sc), (pDST, .dst w, f.dst)]) (fun l => do
    let a ← l.readInt s pSA f.sa f.ty
    let d ← l.readDesc s f
    let c ← l.readInt s pSC f.sc f.ty
    .ok ((l.start s f).putInt (l.regs s) f.dst f.ty (bfiVal a c f.ty.width d)))

/-- Byte j of a `bperm` result. -/
def bpermByte (src c j : Nat) : Nat :=
  let sel := c / 2 ^ (4 * j) % 16
  let y := src / 2 ^ (8 * (sel % 8)) % 256
  if sel < 8 then y else if 128 ≤ y then 255 else 0

def execBperm (f : Fields) (s : State) : Host.Outcome State Fault Refusal :=
  intTriC s f (fun a b c =>
    let src := a + 2 ^ 32 * b
    bpermByte src c 0 + 2 ^ 8 * bpermByte src c 1 + 2 ^ 16 * bpermByte src c 2 + 2 ^ 24 * bpermByte src c 3)

/-! ## Compare, select, address, move (R83 to R86) -/

/-- The condition of an integer compare (R83). -/
def intCond (cond : Nat) (a b : Int) : Bool :=
  match cond with
  | 0 => a == b
  | 1 => a != b
  | 2 => a < b
  | 3 => a ≤ b
  | 4 => b < a
  | _ => b ≤ a

def execIcmp (f : Fields) (s : State) : Host.Outcome State Fault Refusal :=
  let w := f.ty.isPair
  regOp s f ([(pSA, .src w, f.sa)] ++ unlessImm f (pSB, .src w, f.sb) ++ [(pDST, .pred, f.dst)]) (fun l => do
    let a ← l.readInt s pSA f.sa f.ty
    let b ← l.readIntI s pSB f.sb f.ty f.imm
    .ok ((l.start s f).putPred f.dst (intCond f.minor.toNat (f.ty.val a) (f.ty.val b))))

def execIsel (f : Fields) (s : State) : Host.Outcome State Fault Refusal :=
  let w := f.ty.isPair
  regOp s f ([(pSA, .src w, f.sa)] ++ unlessImm f (pSB, .src w, f.sb) ++ [(pSC, .pred, f.sc), (pDST, .dst w, f.dst)]) (fun l => do
    let a ← l.readInt s pSA f.sa f.ty
    let b ← l.readIntI s pSB f.sb f.ty f.imm
    .ok ((l.start s f).putInt (l.regs s) f.dst f.ty (if (l.thr s).readPred f.sc then a else b)))

/-- Address formation (R85). DST names an even v pair, or 0x1FF, to which a write is discarded (R10; DESIGN CHOICE, log entry 86). -/
def execLea (f : Fields) (s : State) : Host.Outcome State Fault Refusal :=
  regOp s f ([(pSA, .vReg true, f.sa)] ++ unlessImm f (pSB, .src false, f.sb) ++ [(pDST, .load true, f.dst)]) (fun l => do
    let a ← l.readPair s pSA f.sa
    let b ← l.readIntI s pSB f.sb f.ty f.imm
    .ok ((l.start s f).putPair (l.regs s) f.dst
      (BitVec.ofInt 64 ((a.toNat : Int) + f.ty.val b * ((2 ^ f.slot.toNat : Nat) : Int)))))

def execMov (f : Fields) (s : State) : Host.Outcome State Fault Refusal := intUn s f (fun a => a)

/-- What `movi` writes of IMM32: extended by R53 and placed by R28. -/
def moviVal (ty : Ty) (w : Word) : DWord :=
  match ty with
  | .f32 | .f16x2 | .bf16x2 => BitVec.ofNat 64 w.toNat
  | .f16 | .bf16 => BitVec.ofNat 64 (w.toNat % 2 ^ 16)
  | ty => BitVec.ofInt 64 (ty.val (immInt w ty))

def execMovi (f : Fields) (s : State) : Host.Outcome State Fault Refusal :=
  let w := f.ty.isPair
  regOp s f [(pDST, .dst w, f.dst)] (fun l =>
    let x := moviVal f.ty (f.imm.getD 0)
    let o := l.start s f
    .ok (if w then o.putPair (l.regs s) f.dst x else o.put (l.regs s) f.dst (loWord x)))

/-! ## Index decomposition (R87, R88) -/

/-- The coordinate of x under record k of a shape entry. -/
def tidxVal (entry : BitVec 1024) (k x : Nat) : Nat :=
  let r := (entry.extractLsb' (256 * k) 256).toNat
  let dmul := bitsOf r 32 0
  let xmul := bitsOf r 96 64
  let ext := bitsOf r 159 128
  let dshift := bitsOf r 167 160
  let xshift := bitsOf r 175 168
  let q := x * dmul / 2 ^ (32 + dshift)
  if ext = 0 then q % 2 ^ 32 else wrap ((q : Int) - (ext * (q * xmul / 2 ^ (32 + xshift)) : Nat)) 32

def execTidx (f : Fields) (s : State) : Host.Outcome State Fault Refusal :=
  regOp s f [(pSA, .src false, f.sa), (pSB, .src false, f.sb), (pDST, .dst false, f.dst)] (fun l => do
    let x ← l.readWord s pSA f.sa
    let e ← l.readWord s pSB f.sb
    match (l.grid s).shapes[e.toNat]? with
    | none => .error (.fault (opInfo 2 f.sb.toSpec.toNat pSB))
    | some r => .ok ((l.start s f).put (l.regs s) f.dst (BitVec.ofNat 32 (tidxVal r f.minor.toNat x.toNat))))

end Sys2Proof.Machine
end

