-- ==== Sys2Proof/Machine/Float.lean ====
section
/-!
DEFINITION. Floating-point arithmetic: scalar, packed and dot-product instructions (R90 to R96).
-/
namespace Sys2Proof.Machine

/-- A scalar instruction with sources SA and SB (IMM32 for SB) that writes a pattern and raises flags. -/
def fpBin (s : State) (f : Fields) (op : Nat → Nat → Nat × BitVec 5) : Host.Outcome State Fault Refusal :=
  regOp s f ([(pSA, .src false, f.sa)] ++ unlessImm f (pSB, .src false, f.sb) ++ [(pDST, .dst false, f.dst)]) (fun l => do
    let a ← l.readF s pSA f.sa f.ty
    let b ← l.readFI s pSB f.sb f.ty f.imm
    let r := op a b
    .ok (((l.start s f).put (l.regs s) f.dst (BitVec.ofNat 32 r.1)).orFlags r.2))

def fpUn (s : State) (f : Fields) (op : Nat → Nat × BitVec 5) : Host.Outcome State Fault Refusal :=
  regOp s f [(pSA, .src false, f.sa), (pDST, .dst false, f.dst)] (fun l => do
    let a ← l.readF s pSA f.sa f.ty
    let r := op a
    .ok (((l.start s f).put (l.regs s) f.dst (BitVec.ofNat 32 r.1)).orFlags r.2))

/-- a - b: R91 on a and the negated b; the sign of a NaN is never carried. -/
def fSub (f : Fmt) (mode a b : Nat) : Nat × BitVec 5 := fAdd f mode a (f.flip b)

def execFadd (f : Fields) (s : State) : Host.Outcome State Fault Refusal := fpBin s f (fAdd f.ty.fmt f.md.toNat)

def execFsub (f : Fields) (s : State) : Host.Outcome State Fault Refusal := fpBin s f (fSub f.ty.fmt f.md.toNat)

def execFmul (f : Fields) (s : State) : Host.Outcome State Fault Refusal := fpBin s f (fMul f.ty.fmt f.md.toNat)

def execFfma (f : Fields) (s : State) : Host.Outcome State Fault Refusal :=
  regOp s f ([(pSA, .src false, f.sa)] ++ unlessImm f (pSB, .src false, f.sb)
      ++ [(pSC, .src false, f.sc), (pDST, .dst false, f.dst)]) (fun l => do
    let a ← l.readF s pSA f.sa f.ty
    let b ← l.readFI s pSB f.sb f.ty f.imm
    let c ← l.readF s pSC f.sc f.ty
    let r := fFma f.ty.fmt f.md.toNat a b c
    .ok (((l.start s f).put (l.regs s) f.dst (BitVec.ofNat 32 r.1)).orFlags r.2))

def execFmin (f : Fields) (s : State) : Host.Outcome State Fault Refusal := fpBin s f (fMinMax f.ty.fmt false)

def execFmax (f : Fields) (s : State) : Host.Outcome State Fault Refusal := fpBin s f (fMinMax f.ty.fmt true)

/-- The condition of a floating compare (R92). -/
def fpCond (cond : Nat) (x y : FVal) : Bool :=
  let ord := !x.isNan && !y.isNan
  match cond with
  | 0 => ord && x.eq y
  | 1 => !ord || !x.eq y
  | 2 => ord && x.lt y
  | 3 => ord && (x.lt y || x.eq y)
  | 4 => ord && y.lt x
  | 5 => ord && (y.lt x || x.eq y)
  | 6 => ord
  | _ => !ord

/-- NV of `fcmp`: a signalling NaN, or a quiet one under an ordering condition. -/
def fcmpFlags (cond : Nat) (x y : FVal) : BitVec 5 :=
  if x.isSig || y.isSig || (2 ≤ cond && cond ≤ 5 && (x.isNan || y.isNan)) then fNV else 0

def execFcmp (f : Fields) (s : State) : Host.Outcome State Fault Refusal :=
  regOp s f ([(pSA, .src false, f.sa)] ++ unlessImm f (pSB, .src false, f.sb) ++ [(pDST, .pred, f.dst)]) (fun l => do
    let a ← l.readF s pSA f.sa f.ty
    let b ← l.readFI s pSB f.sb f.ty f.imm
    let x := f.ty.fmt.unpack a
    let y := f.ty.fmt.unpack b
    .ok (((l.start s f).putPred f.dst (fpCond f.minor.toNat x y)).orFlags (fcmpFlags f.minor.toNat x y)))

def execFsel (f : Fields) (s : State) : Host.Outcome State Fault Refusal :=
  regOp s f ([(pSA, .src false, f.sa)] ++ unlessImm f (pSB, .src false, f.sb)
      ++ [(pSC, .src false, f.sc), (pDST, .dst false, f.dst)]) (fun l => do
    let a ← l.readF s pSA f.sa f.ty
    let b ← l.readFI s pSB f.sb f.ty f.imm
    let c ← l.readF s pSC f.sc f.ty
    .ok ((l.start s f).put (l.regs s) f.dst
      (BitVec.ofNat 32 (if fpCond f.minor.toNat (f.ty.fmt.unpack c) (.zero false) then a else b))))

/-- The class mask of a pattern (R93). -/
def classMask (f : Fmt) (p : Nat) : Nat :=
  match f.unpack p with
  | .nan sig => if sig then 1 else 2
  | .inf n => if n then 2 ^ 2 else 2 ^ 9
  | .zero n => if n then 2 ^ 5 else 2 ^ 6
  | .fin n m _ =>
    let sub := m < 2 ^ f.mbits
    if n then (if sub then 2 ^ 4 else 2 ^ 3) else (if sub then 2 ^ 7 else 2 ^ 8)

def execFclass (f : Fields) (s : State) : Host.Outcome State Fault Refusal :=
  regOp s f [(pSA, .src false, f.sa), (pDST, .vt, f.dst)] (fun l => do
    let a ← l.readF s pSA f.sa f.ty
    .ok ((l.start s f).put (l.regs s) f.dst (BitVec.ofNat 32 (classMask f.ty.fmt a))))

/-- Rounding to an integral value of the same format (R94); `nx` raises NX when the value changes. -/
def fRint (f : Fmt) (mode : Nat) (nx : Bool) (p : Nat) : Nat × BitVec 5 :=
  match f.unpack p with
  | .nan sig => (f.nanPat, if sig then fNV else 0)
  | .inf _ => (p, 0)
  | .zero _ => (p, 0)
  | .fin n m e =>
    let r := rintQ mode n m 1 e
    let fl := if nx && r.2 then fNX else 0
    if r.1 = 0 then (f.zeroPat n, fl) else ((rndQ f 0 n r.1 1 0).1, fl)

def execFrnd (f : Fields) (s : State) : Host.Outcome State Fault Refusal :=
  fpUn s f (fRint f.ty.fmt f.md.toNat (f.minor == 1))

/-! ## Packed pairs (R95, R96) -/

/-- Both elements of a packed result, with their flags joined. -/
def packPair (lo hi : Nat × BitVec 5) : Nat × BitVec 5 := (lo.1 + 2 ^ 16 * hi.1, lo.2 ||| hi.2)

def packBin (s : State) (f : Fields) (op : Nat → Nat → Nat × BitVec 5) : Host.Outcome State Fault Refusal :=
  regOp s f ([(pSA, .src false, f.sa)] ++ unlessImm f (pSB, .src false, f.sb) ++ [(pDST, .dst false, f.dst)]) (fun l => do
    let a ← l.readP2 s pSA f.sa f.ty none
    let b ← l.readP2 s pSB f.sb f.ty f.imm
    let r := packPair (op a.1 b.1) (op a.2 b.2)
    .ok (((l.start s f).put (l.regs s) f.dst (BitVec.ofNat 32 r.1)).orFlags r.2))

def execHadd2 (f : Fields) (s : State) : Host.Outcome State Fault Refusal := packBin s f (fAdd f.ty.fmt f.md.toNat)

def execHmul2 (f : Fields) (s : State) : Host.Outcome State Fault Refusal := packBin s f (fMul f.ty.fmt f.md.toNat)

def execHfma2 (f : Fields) (s : State) : Host.Outcome State Fault Refusal :=
  regOp s f ([(pSA, .src false, f.sa)] ++ unlessImm f (pSB, .src false, f.sb)
      ++ [(pSC, .src false, f.sc), (pDST, .dst false, f.dst)]) (fun l => do
    let a ← l.readP2 s pSA f.sa f.ty none
    let b ← l.readP2 s pSB f.sb f.ty f.imm
    let c ← l.readP2 s pSC f.sc f.ty none
    let op := fFma f.ty.fmt f.md.toNat
    let r := packPair (op a.1 b.1 c.1) (op a.2 b.2 c.2)
    .ok (((l.start s f).put (l.regs s) f.dst (BitVec.ofNat 32 r.1)).orFlags r.2))

/-- An exact product as a value; none for 0 × ∞. The sign of a NaN does not matter. -/
def FVal.times (x y : FVal) : Option FVal :=
  let neg := x.neg != y.neg
  if x.isNan || y.isNan then some (.nan false)
  else if (x.isInf && y.isZero) || (x.isZero && y.isInf) then none
  else if x.isInf || y.isInf then some (.inf neg)
  else
    let p := x.dy.mul y.dy
    if p.m = 0 then some (.zero neg) else some (.fin neg p.m.natAbs p.e)

/-- The single rounding of a sum of terms by the conditions of R91: signalling NaNs among the operands, an invalid product,
quiet NaNs, opposite infinities, an infinity, and the exact sum. -/
def sumRound (f : Fmt) (mode : Nat) (sig : Bool) (terms : List (Option FVal)) : Nat × BitVec 5 :=
  let vals := terms.filterMap id
  let nv := if sig then fNV else 0
  if terms.any (·.isNone) then (f.nanPat, nv ||| fNV)
  else if vals.any (·.isNan) then (f.nanPat, nv)
  else if vals.any (fun v => v == .inf true) && vals.any (fun v => v == .inf false) then (f.nanPat, fNV)
  else
    match vals.find? (·.isInf) with
    | some v => (f.infPat v.neg, 0)
    | none =>
      let sign := if vals.all (·.neg) then true else if vals.all (fun v => !v.neg) then false else zeroSign mode
      rndDy f mode sign (Dy.sum (vals.map (·.dy)))

/-- a0·b0 + a1·b1 + c rounded once to FP32. -/
def fDot2 (f : Fmt) (mode : Nat) (a b : Nat × Nat) (c : Nat) : Nat × BitVec 5 :=
  let a0 := f.unpack a.1
  let a1 := f.unpack a.2
  let b0 := f.unpack b.1
  let b1 := f.unpack b.2
  let z := Fmt.f32.unpack c
  sumRound .f32 mode (a0.isSig || a1.isSig || b0.isSig || b1.isSig || z.isSig) [a0.times b0, a1.times b1, some z]

def execFdot2 (f : Fields) (s : State) : Host.Outcome State Fault Refusal :=
  regOp s f ([(pSA, .src false, f.sa)] ++ unlessImm f (pSB, .src false, f.sb)
      ++ [(pSC, .src false, f.sc), (pDST, .dst false, f.dst)]) (fun l => do
    let a ← l.readP2 s pSA f.sa f.ty none
    let b ← l.readP2 s pSB f.sb f.ty f.imm
    let c ← l.readF s pSC f.sc .f32
    let r := fDot2 f.ty.fmt f.md.toNat a b c
    .ok (((l.start s f).put (l.regs s) f.dst (BitVec.ofNat 32 r.1)).orFlags r.2))

end Sys2Proof.Machine
end

