-- ==== Sys2Proof/Machine/Convert.lean ====
section
/-!
DEFINITION. Conversions (R97, R98), format slots (R48), packing and unpacking of block-exponent and integer groups (R41 to
R46, R99, R100) and the Hadamard conversion (R101).
-/
namespace Sys2Proof.Machine

/-- A floating format by the source code of `fcvt` and `f2i`. -/
def srcTy (minor : Nat) : Ty :=
  match minor with
  | 0 => .f32
  | 1 => .f16
  | _ => .bf16

/-- `fcvt`. TYPE names the destination, so a constant-table entry is rounded to the source's format, which MINOR names (DEDUCED, log
entry 99); so in `f2i`. -/
def execFcvt (f : Fields) (s : State) : Host.Outcome State Fault Refusal :=
  regOp s f [(pSA, .src false, f.sa), (pDST, .dst false, f.dst)] (fun l => do
    let t := srcTy f.minor.toNat
    let a ← l.readF s pSA f.sa t
    let r := convF t.fmt f.ty.fmt f.md.toNat a
    .ok (((l.start s f).put (l.regs s) f.dst (BitVec.ofNat 32 r.1)).orFlags r.2))

/-- The source type of `i2f` is a TYPE code in MINOR. -/
def intSrcTy (minor : BitVec 4) : Ty := (Ty.ofCode minor).getD .s32

/-- A constant-table source is the 32-bit pattern of its entry, read under the integer type that MINOR names: TYPE is the destination's
(DEDUCED, log entry 99). -/
def execI2f (f : Fields) (s : State) : Host.Outcome State Fault Refusal :=
  let t := intSrcTy f.minor
  regOp s f [(pSA, .src t.isPair, f.sa), (pDST, .dst false, f.dst)] (fun l => do
    let a ← l.readInt s pSA f.sa t
    let r := rndDy f.ty.fmt f.md.toNat false (Dy.ofInt (t.val a))
    .ok (((l.start s f).put (l.regs s) f.dst (BitVec.ofNat 32 r.1)).orFlags r.2))

/-- Largest and smallest value of an integer type. -/
def Ty.maxVal (t : Ty) : Int := if t.isSigned then ((2 ^ (t.width - 1) : Nat) : Int) - 1 else ((2 ^ t.width : Nat) : Int) - 1
def Ty.minVal (t : Ty) : Int := if t.isSigned then -((2 ^ (t.width - 1) : Nat) : Int) else 0

/-- Conversion to an integer type (R38). -/
def fToInt (f : Fmt) (t : Ty) (mode p : Nat) : Int × BitVec 5 :=
  match f.unpack p with
  | .nan _ => (0, fNV)
  | .inf n => (if n then Ty.minVal t else Ty.maxVal t, fNV)
  | .zero _ => (0, 0)
  | .fin n m e =>
    let r := rintQ mode n m 1 e
    let x : Int := if n then -(r.1 : Int) else r.1
    if Ty.maxVal t < x then (Ty.maxVal t, fNV)
    else if x < Ty.minVal t then (Ty.minVal t, fNV)
    else (x, if r.2 then fNX else 0)

def execF2i (f : Fields) (s : State) : Host.Outcome State Fault Refusal :=
  regOp s f [(pSA, .src false, f.sa), (pDST, .dst f.ty.isPair, f.dst)] (fun l => do
    let t := srcTy f.minor.toNat
    let a ← l.readF s pSA f.sa t
    let r := fToInt t.fmt f.ty f.md.toNat a
    .ok (((l.start s f).putInt (l.regs s) f.dst f.ty (wrap r.1 f.ty.width)).orFlags r.2))

/-! ## Format slots (R48) -/

structure FmtSlot where
  ftype : Nat
  blk : Nat
  gap : Nat
  had : Bool
  rmode : Nat
  scale : Nat
  deriving DecidableEq, Repr, Inhabited

/-- The fields of a slot word; BLK as the block size. -/
def FmtSlot.ofWord (w : DWord) : FmtSlot :=
  let x := w.toNat
  ⟨bitsOf x 3 0, if bitOf x 4 then 32 else 16, bitsOf x 8 5, bitOf x 9, bitsOf x 11 10, bitsOf x 63 32⟩

def Grid.slot (g : Grid) (n : Nat) : FmtSlot := FmtSlot.ofWord (Tbl.at g.slots n 0)

namespace FmtSlot
def isBx (z : FmtSlot) : Bool := z.ftype == 3 || z.ftype == 4
def isIntF (z : FmtSlot) : Bool := z.ftype == 5 || z.ftype == 6
def isFloat (z : FmtSlot) : Bool := z.ftype ≤ 2
/-- Bits of an element. -/
def ebits (z : FmtSlot) : Nat :=
  match z.ftype with
  | 0 => 32
  | 1 | 2 => 16
  | 3 | 5 => 8
  | _ => 4
/-- Registers of the packed side of a block (R99). -/
def packedRegs (z : FmtSlot) : Nat := z.blk * z.ebits / 32 + (if z.isBx then 1 else 0)
/-- SCALE as an exact value. -/
def scaleDy (z : FmtSlot) : Dy := (Fmt.f32.unpack z.scale).dy
/-- M and B of R43. -/
def maxM (z : FmtSlot) : Nat := if z.ftype == 3 then 63 else 3
def bOff (z : FmtSlot) : Int := if z.ftype == 3 then 132 else 128
end FmtSlot

/-- The rounding mode of an instruction that names a slot (R30). -/
def slotMode (md : BitVec 3) (z : FmtSlot) : Nat := if md == 4 then z.rmode else md.toNat

/-! ## Exact blocks -/

/-- An element before packing: an exact value with its sign, a NaN, or an infinity. -/
inductive Elem where
  | num (neg : Bool) (x : Dy)
  | inf (neg : Bool)
  | nan (sig : Bool)
  deriving DecidableEq, Repr, Inhabited

def Elem.ofPat (p : Nat) : Elem :=
  match Fmt.f32.unpack p with
  | .nan sig => .nan sig
  | .inf n => .inf n
  | v => .num v.neg v.dy

def Elem.flip : Elem → Elem
  | .num n x => .num (!n) x.neg
  | .inf n => .inf (!n)
  | .nan s => .nan s

/-- An exact sum of elements; opposite infinities give an invalid NaN (R34, R91). -/
def Elem.add (zeroNeg : Bool) : Elem → Elem → Elem
  | .nan a, .nan b => .nan (a || b)
  | .nan a, _ => .nan a
  | _, .nan b => .nan b
  | .inf m, .inf n => if m == n then .inf m else .nan true
  | .inf m, _ => .inf m
  | _, .inf n => .inf n
  | .num m x, .num n y =>
    let z := x.add y
    .num (if z.m = 0 then (if m == n then m else zeroNeg) else z.m < 0) z

/-- Parity of the ones of i AND j. -/
def signOf (i j : Nat) : Bool := popCount (i &&& j) 5 % 2 == 1

/-- The unnormalised Walsh-Hadamard transform of a block (R46), its terms added in ascending index. With a quiet NaN and opposite
infinities in one block, NV is raised where the infinities meet before the NaN (DESIGN CHOICE, log entry 85). -/
def hadamard (zeroNeg : Bool) (xs : List Elem) : List Elem :=
  (List.range xs.length).map (fun j =>
    match ((List.range xs.length).zip xs).map (fun e => if signOf e.1 j then e.2.flip else e.2) with
    | [] => .num false .zero
    | a :: r => r.foldl (Elem.add zeroNeg) a)

/-! ## Packing (R43, R45) -/

/-- Numerators of finite elements over one power of two 2^k. -/
def alignTo (k : Int) (xs : List Elem) : List Int :=
  xs.map (fun e => match e with
    | .num _ x => x.scaled k
    | _ => 0)

def minExp (xs : List Elem) : Int :=
  xs.foldl (fun k e => match e with
    | .num _ x => if x.m = 0 then k else min k x.e
    | _ => k) 0

/-- RINT of n/d · 2^e under RNE or RZ. -/
def rintMag (mode n d : Nat) (e : Int) : Nat := (rintQ mode false n d e).1

/-- A packed BX block: E1, E0, the elements' codes and flags. y = m/d · 2^k, with the signs given. -/
def packBx (z : FmtSlot) (mode : Nat) (ms : List (Bool × Nat)) (d : Nat) (k : Int) : Nat × Nat × List Nat × BitVec 5 :=
  let a := ms.foldl (fun x e => max x e.2) 0
  let found := (List.range 254).find? (fun e => rintMag mode a d (k + z.bOff - ((e + 1 : Nat) : Int)) ≤ z.maxM)
  let e1 := if a = 0 then 0 else match found with
    | some e => e + 1
    | none => 254
  let e0 := e1 - z.gap
  let ovf : BitVec 5 := if a ≠ 0 && found.isNone then fOF ||| fNX else 0
  let one (e : Bool × Nat) : Nat × BitVec 5 :=
    let q (ej : Nat) : Nat := if ej = 0 then 0 else min (rintMag mode e.2 d (k + z.bOff - (ej : Int))) z.maxM
    -- |y| - v, times d
    let err (ej : Nat) : Dy := ((⟨(e.2 : Int), k⟩ : Dy).sub ⟨((q ej * d : Nat) : Int), if ej = 0 then 0 else (ej : Int) - z.bOff⟩).abs
    let sel := (err e1).lt (err e0)
    let ej := if sel then e1 else e0
    let code := b2n e.1 * 2 ^ (z.ebits - 1) + b2n sel * 2 ^ (z.ebits - 2) + q ej
    (code, (if (err ej).isZero then 0 else fNX) ||| (if e.2 ≠ 0 && q ej = 0 then fUF else 0))
  let rs := ms.map one
  (e1, e0, rs.map (·.1), rs.foldl (fun f r => f ||| r.2) ovf)

/-- A packed integer element: its code and flags (R45). `scaleNeg` is the sign of SCALE. -/
def packInt (z : FmtSlot) (mode : Nat) (scaleNeg : Bool) (d : Nat) (k : Int) (e : Elem) : Nat × BitVec 5 :=
  let w := z.ebits
  match e with
  | .nan _ => (0, fNV)
  | .inf n => (wrap (sats (if n != scaleNeg then -((2 ^ w : Nat) : Int) else ((2 ^ w : Nat) : Int)) w) w, fNV)
  | .num n x =>
    let neg := n != scaleNeg
    let r := rintQ mode neg (x.scaled k).natAbs d k
    let v : Int := if neg then -(r.1 : Int) else r.1
    let t := sats v w
    (wrap t w, if t ≠ v then fNV else if r.2 then fNX else 0)

/-- Packs element codes of b bits into 32-bit words, the first lowest. -/
def packWords (b : Nat) (codes : List Nat) : List Word :=
  let per := 32 / b
  (List.range (codes.length / per)).map (fun j =>
    BitVec.ofNat 32 (((List.range per).map (fun i => codes.getD (j * per + i) 0 * 2 ^ (b * i))).foldl (· + ·) 0))

/-- The packed registers of a block of FP32 elements and the flags raised (R43, R45, R46). A zero divided by a SCALE has the sign that
the signs of both give, as any other element has (DEDUCED, log entry 29). -/
def packBlock (z : FmtSlot) (mode : Nat) (xs : List Elem) : List Word × BitVec 5 :=
  let ys := if z.had then hadamard (zeroSign mode) xs else xs
  let sc := z.scaleDy
  let d := sc.m.natAbs
  let neg := sc.m < 0
  -- y = x / SCALE = x.m · 2^(x.e - sc.e) / sc.m
  let k := minExp ys
  if z.isIntF then
    let rs := ys.map (fun e => packInt z mode neg d (k - sc.e)
      (match e with | .num n x => .num n ⟨x.scaled k, k - sc.e⟩ | e => e))
    (packWords z.ebits (rs.map (·.1)), rs.foldl (fun f r => f ||| r.2) 0)
  else if ys.any (fun e => match e with | .num _ _ => false | _ => true) then
    (packWords z.ebits (ys.map (fun _ => 0)) ++ [0xFFFF#32], fNV)
  else
    let signs := ys.map (fun e => match e with | .num n _ => n != neg | _ => false)
    let r := packBx z mode (signs.zip ((alignTo k ys).map Int.natAbs)) d (k - sc.e)
    (packWords z.ebits r.2.2.1 ++ [BitVec.ofNat 32 (r.1 * 256 + r.2.1)], r.2.2.2)

/-! ## Unpacking (R41, R44) -/

/-- A word list's element codes of b bits. -/
def unpackCodes (b n : Nat) (ws : List Word) : List Nat :=
  (List.range n).map (fun i => (ws.getD (i * b / 32) 0).toNat / 2 ^ (i * b % 32) % 2 ^ b)

/-- The value of a BX element code under its pair of exponents, without SCALE (R41). -/
def bxVal (z : FmtSlot) (e1 e0 code : Nat) : FVal :=
  let neg := bitOf code (z.ebits - 1)
  let e := if bitOf code (z.ebits - 2) then e1 else e0
  let m := code % 2 ^ (z.ebits - 2)
  if e = 0xFF then .nan false
  else if e = 0 || m = 0 then .zero neg
  else .fin neg m ((e : Int) - z.bOff)

/-- A value times SCALE, rounded to FP32. -/
def scaleRound (z : FmtSlot) (mode : Nat) (v : FVal) : Nat × BitVec 5 :=
  match v with
  | .nan _ => (Fmt.f32.nanPat, 0)
  | v => rndDy .f32 mode (v.neg != decide (z.scaleDy.m < 0)) (v.dy.mul z.scaleDy)

/-- The FP32 registers of a packed block, and the flags. Bits [31:16] of the scale register, zeros as `bxpack` writes them, are
ignored (DESIGN CHOICE, log entry 87). -/
def unpackBlock (z : FmtSlot) (mode : Nat) (ws : List Word) : List Word × BitVec 5 :=
  let codes := unpackCodes z.ebits z.blk ws
  let rs :=
    if z.isBx then
      let sc := (ws.getD (z.packedRegs - 1) 0).toNat
      codes.map (fun x => scaleRound z mode (bxVal z (sc / 256 % 256) (sc % 256) x))
    else codes.map (fun x => rndDy .f32 mode false ((Dy.ofInt (sx x z.ebits)).mul z.scaleDy))
  (rs.map (fun r => BitVec.ofNat 32 r.1), rs.foldl (fun f r => f ||| r.2) 0)

/-- Writes a group of words from a v register on. -/
def LaneOut.putGroup (o : LaneOut) (regs : Nat) (d : Operand) (k : Nat) : List Word → LaneOut
  | [] => o
  | w :: r => (o.put regs (d.next k) w).putGroup regs d (k + 1) r

/-- A block conversion: `srcN` and `dstN` registers, `ok` whether the entry accepts the slot and mode (R64 step 2). -/
def blockOp (s : State) (f : Fields) (ok : FmtSlot → Bool) (srcN dstN : FmtSlot → Nat)
    (conv : FmtSlot → Nat → List Word → List Word × BitVec 5) : Host.Outcome State Fault Refusal :=
  s.execLanes f.guard f.dst.toSpec.toNat false (fun _ l => do
    let z := (l.grid s).slot f.slot.toNat
    if !ok z then .error (.fault illegalEncoding)
    else
      l.check s [(pSA, .vGroup (srcN z), f.sa), (pDST, .vGroup (dstN z), f.dst)]
      let ws ← l.readGroup s pSA f.sa 0 (srcN z)
      let r := conv z (slotMode f.md z) ws
      .ok (((l.start s f).putGroup (l.regs s) f.dst 0 r.1).orFlags r.2))

def execBxpack (f : Fields) (s : State) : Host.Outcome State Fault Refusal :=
  blockOp s f (fun z => (z.isBx || z.isIntF) && slotMode f.md z ≤ 1) (·.blk) (·.packedRegs)
    (fun z mode ws => packBlock z mode (ws.map (fun w => Elem.ofPat w.toNat)))

def execBxunpack (f : Fields) (s : State) : Host.Outcome State Fault Refusal :=
  blockOp s f (fun z => z.isBx || z.isIntF) (·.packedRegs) (·.blk) unpackBlock

/-- One transformed element divided by SCALE and rounded once to a float slot's format (R101); its sign, also a zero's, is that of both
(DEDUCED, log entry 29). -/
def hadFloat (f : Fmt) (mode : Nat) (sc : Dy) : Elem → Nat × BitVec 5
  | .nan sig => (f.nanPat, if sig then fNV else 0)
  | .inf n => (f.infPat (n != decide (sc.m < 0)), 0)
  | .num n x => rndDiv f mode (n != decide (sc.m < 0)) x sc

def hcvtBlock (z : FmtSlot) (mode : Nat) (ws : List Word) : List Word × BitVec 5 :=
  let xs := ws.map (fun w => Elem.ofPat w.toNat)
  if z.isFloat then
    let f := if z.ftype == 0 then Fmt.f32 else if z.ftype == 1 then .f16 else .bf16
    let rs := (hadamard (zeroSign mode) xs).map (hadFloat f mode z.scaleDy)
    (packWords z.ebits (rs.map (·.1)), rs.foldl (fun f r => f ||| r.2) 0)
  else packBlock z mode xs

def execHcvt (f : Fields) (s : State) : Host.Outcome State Fault Refusal :=
  blockOp s f (fun z => z.had && (z.isFloat || slotMode f.md z ≤ 1)) (·.blk) (·.packedRegs) hcvtBlock

end Sys2Proof.Machine
end

