-- ==== Sys2Proof/Machine/FpSpecial.lean ====
section
/-!
DEFINITION. The special functions, correctly rounded (R102, R103). Roots and reciprocals are computed exactly with a sticky
bit; the others are enclosed between two fixed-point numbers of `wp` fraction bits, and the result stands when both ends
round alike. An enclosure that does not settle the rounding yields a value of Config.freeSpecial (log entry 17).
-/
namespace Sys2Proof.Machine

/-! ## Roots -/

/-- The integer square root of n, found bit by bit from bit k - 1 down. -/
def isqrt (n : Nat) : Nat → Nat → Nat
  | 0, r => r
  | k + 1, r => isqrt n k (if (r + 2 ^ k) * (r + 2 ^ k) ≤ n then r + 2 ^ k else r)

/-- RND of r·2^e, or of a value strictly between r and r + 1 times 2^e when not exact. -/
def rndSticky (f : Fmt) (exact : Bool) (r : Nat) (e : Int) : Nat × BitVec 5 :=
  if exact then rndQ f 0 false r 1 e else rndQ f 0 false (2 * r + 1) 1 (e - 1)

/-- √(m·2^e), m > 0. -/
def sqrtRnd (f : Fmt) (m : Nat) (e : Int) : Nat × BitVec 5 :=
  let e' := if e % 2 = 0 then e else e - 1
  let n := (if e % 2 = 0 then m else 2 * m) * 2 ^ 100
  let r := isqrt n 80 0
  rndSticky f (r * r == n) r (e' / 2 - 50)

/-- 1/√(m·2^e), m > 0. -/
def rsqrtRnd (f : Fmt) (m : Nat) (e : Int) : Nat × BitVec 5 :=
  let e' := if e % 2 = 0 then e else e - 1
  let m' := if e % 2 = 0 then m else 2 * m
  let r := isqrt (2 ^ 200 / m') 101 0
  rndSticky f (r * r * m' == 2 ^ 200) r (-(e' / 2) - 100)

/-! ## Fixed-point enclosures -/

/-- Fraction bits, and the number of terms of each series. -/
def wp : Nat := 524
def nTerms : Nat := 180

/-- A real number between lo/2^wp and hi/2^wp. -/
structure Encl where
  lo : Int
  hi : Int
  deriving DecidableEq, Repr, Inhabited

/-- Sum of x^j/j! from a term on, every division rounded down. -/
def expTerms (x : Nat) : Nat → Nat → Nat → Nat → Nat
  | 0, _, _, acc => acc
  | n + 1, j, t, acc => expTerms x n (j + 1) (t * x / 2 ^ wp / (j + 1)) (acc + t)

/-- e^x for 0 ≤ x < 1; every term is short by at most 4 units. -/
def expEncl (x : Encl) : Encl :=
  let s := expTerms x.lo.toNat nTerms 0 (2 ^ wp) 0
  ⟨s, s + 4 * nTerms + 4 * (x.hi - x.lo)⟩

/-- Sum of t^(2j+1)/(2j+1). -/
def atanhTerms (t2 : Nat) : Nat → Nat → Nat → Nat → Nat
  | 0, _, _, acc => acc
  | n + 1, j, p, acc => atanhTerms t2 n (j + 1) (p * t2 / 2 ^ wp) (acc + p / (2 * j + 1))

/-- ln z = 2 artanh((z-1)/(z+1)) for a rational z = n/d in [1, 2). -/
def lnEncl (n d : Nat) : Encl :=
  let t := (n - d) * 2 ^ wp / (n + d)
  let s := 2 * atanhTerms (t * t / 2 ^ wp) nTerms 0 t 0
  ⟨s, s + 12 * nTerms⟩

def ln2 : Encl := let s := 2 * atanhTerms (2 ^ wp / 9) nTerms 0 (2 ^ wp / 3) 0; ⟨s, s + 12 * nTerms⟩

/-- Alternating sum of (1/k)^(2j+1)/(2j+1), for π. -/
def atanTerms (k2 : Nat) : Nat → Nat → Nat → Int → Int
  | 0, _, _, acc => acc
  | n + 1, j, p, acc =>
    atanTerms k2 n (j + 1) (p / k2) (if j % 2 = 0 then acc + ((p / (2 * j + 1) : Nat) : Int) else acc - ((p / (2 * j + 1) : Nat) : Int))

/-- π/2 = 8 arctan(1/5) - 2 arctan(1/239). -/
def halfPi : Encl :=
  let s := 8 * atanTerms 25 nTerms 0 (2 ^ wp / 5) 0 - 2 * atanTerms 57121 nTerms 0 (2 ^ wp / 239) 0
  ⟨s - 30 * nTerms, s + 30 * nTerms⟩

/-- Alternating Taylor sum from a term of index j: t_{j+2} = t_j·x²/((j+1)(j+2)). -/
def trigTerms (x2 : Nat) : Nat → Nat → Nat → Bool → Int → Int
  | 0, _, _, _, acc => acc
  | n + 1, j, t, neg, acc =>
    trigTerms x2 n (j + 2) (t * x2 / 2 ^ wp / ((j + 1) * (j + 2))) (!neg) (if neg then acc - (t : Int) else acc + (t : Int))

/-- sin or cos of a nonnegative enclosure below 1. -/
def sinCosEncl (cos : Bool) (x : Encl) : Encl :=
  let x0 := x.lo.toNat
  let x2 := x0 * x0 / 2 ^ wp
  let s := if cos then trigTerms x2 nTerms 0 (2 ^ wp) false 0 else trigTerms x2 nTerms 1 x0 false 0
  let e : Int := 8 * nTerms + (x.hi - x.lo)
  ⟨s - e, s + e⟩

def Encl.negate (x : Encl) : Encl := ⟨-x.hi, -x.lo⟩

/-- Rounds an enclosed irrational number times 2^e under RNE, if both ends, moved outward to odd numerators, round alike. -/
def Encl.rnd (x : Encl) (f : Fmt) (e : Int) : Option (Nat × BitVec 5) :=
  let a := 2 * x.lo - 1
  let b := 2 * x.hi + 1
  if (a < 0) != (b < 0) then none
  else
    let r (y : Int) := rndQ f 0 (y < 0) y.natAbs 1 (e - 1 - (wp : Int))
    if r a == r b then some (r a) else none

/-! ## The functions of a finite operand ±m·2^e, m > 0 -/

/-- 2^a. -/
def exp2Rnd (f : Fmt) (neg : Bool) (m : Nat) (e : Int) : Option (Nat × BitVec 5) :=
  -- beyond 2^10 in magnitude every format overflows or underflows alike
  if 10 ≤ floorLog2 m 1 e then some (rndQ f 0 false 1 1 (if neg then -1000 else 1000))
  else
    let x : Dy := ⟨if neg then -(m : Int) else m, e⟩
    let d : Nat := 2 ^ (-e).toNat
    let num : Int := x.m * ((2 ^ e.toNat : Nat) : Int)
    let n := num / (d : Int)
    let r := (num % (d : Int)).toNat
    if r = 0 then some (rndQ f 0 false 1 1 n)
    else (expEncl ⟨ln2.lo * r / d, ln2.hi * r / d + 1⟩).rnd f n

/-- log₂ of a positive m·2^e. -/
def log2Rnd (f : Fmt) (m : Nat) (e : Int) : Option (Nat × BitVec 5) :=
  let k := Nat.log2 m
  let n : Int := k + e
  if m = 2 ^ k then some (if n = 0 then (f.zeroPat false, 0) else rndDy f 0 false (Dy.ofInt n))
  else
    let l := lnEncl m (2 ^ k)
    let one : Int := ((2 ^ wp : Nat) : Int)
    Encl.rnd ⟨n * one + l.lo * one / ln2.hi, n * one + l.hi * one / ln2.lo + 1⟩ f 0

/-- sin or cos. -/
def trigRnd (f : Fmt) (cos neg : Bool) (m : Nat) (e : Int) : Option (Nat × BitVec 5) :=
  let x : Int := ((m * 2 ^ (e + wp).toNat : Nat) : Int)
  let q := (2 * x + halfPi.lo) / (2 * halfPi.lo)
  let r : Encl := ⟨x - q * halfPi.hi, x - q * halfPi.lo⟩
  if (r.lo < 0) != (r.hi < 0) then none
  else
    let rn := r.lo < 0
    let a := if rn then r.negate else r
    let quad := (q % 4).toNat + b2n cos
    let s := sinCosEncl (quad % 2 == 1) a
    -- sin r is odd in r and cos r even; each half turn changes the sign
    let minus := xor (xor (decide (quad % 4 ≥ 2)) (quad % 2 == 0 && rn)) (!cos && neg)
    (if minus then s.negate else s).rnd f 0

/-- tanh. -/
def tanhRnd (f : Fmt) (neg : Bool) (m : Nat) (e : Int) : Option (Nat × BitVec 5) :=
  let one : Int := ((2 ^ wp : Nat) : Int)
  let y : Encl :=
    if 6 ≤ floorLog2 m 1 e then ⟨one - ((2 ^ (wp - 100) : Nat) : Int), one - 1⟩
    else
      let x : Int := ((m * 2 ^ (e + wp + 1).toNat : Nat) : Int)
      -- u = e^(-2|a|) = e^r / 2^n
      let n := x / ln2.lo + 1
      let u := expEncl ⟨max 0 (n * ln2.lo - x), n * ln2.hi - x⟩
      let p : Int := ((2 ^ n.toNat : Nat) : Int)
      let lo := u.lo / p
      let hi := u.hi / p + 1
      ⟨(one - hi) * one / (one + hi), (one - lo) * one / (one + lo) + 1⟩
  (if neg then y.negate else y).rnd f 0

/-! ## The instructions -/

inductive Special where
  | rcp | rsq | sqrt | ex2 | lg2 | sin | cos | tanh
  deriving DecidableEq, Repr, Inhabited

def Special.num : Special → Nat
  | .rcp => 0
  | .rsq => 1
  | .sqrt => 2
  | .ex2 => 3
  | .lg2 => 4
  | .sin => 5
  | .cos => 6
  | .tanh => 7

/-- 1.0 with a sign. -/
def Fmt.one (f : Fmt) (neg : Bool) : Nat := b2n neg * 2 ^ (f.width - 1) + f.bias * 2 ^ f.mbits

/-- The table of R103 for zeros, infinities and NaNs, and the value of R102 for a finite operand. -/
def specialFn (k : Special) (f : Fmt) (p : Nat) : Nat × BitVec 5 :=
  let nv : Nat × BitVec 5 := (f.nanPat, fNV)
  let settle (o : Option (Nat × BitVec 5)) : Nat × BitVec 5 :=
    o.getD (Config.freeSpecial k.num f.width p % 2 ^ f.width, fNX)
  match f.unpack p with
  | .nan sig => (f.nanPat, if sig then fNV else 0)
  | .inf n =>
    match k with
    | .rcp => (f.zeroPat n, 0)
    | .rsq => if n then nv else (f.zeroPat false, 0)
    | .sqrt | .lg2 => if n then nv else (f.infPat false, 0)
    | .ex2 => if n then (f.zeroPat false, 0) else (f.infPat false, 0)
    | .sin | .cos => nv
    | .tanh => (f.one n, 0)
  | .zero n =>
    match k with
    | .rcp | .rsq => (f.infPat n, fDZ)
    | .sqrt | .sin | .tanh => (f.zeroPat n, 0)
    | .ex2 | .cos => (f.one false, 0)
    | .lg2 => (f.infPat true, fDZ)
  | .fin n m e =>
    match k with
    | .rcp => rndQ f 0 n 1 m (-e)
    | .rsq => if n then nv else rsqrtRnd f m e
    | .sqrt => if n then nv else sqrtRnd f m e
    | .lg2 => if n then nv else settle (log2Rnd f m e)
    | .ex2 => settle (exp2Rnd f n m e)
    | .sin => settle (trigRnd f false n m e)
    | .cos => settle (trigRnd f true n m e)
    | .tanh => settle (tanhRnd f n m e)

def execFrcp (f : Fields) (s : State) : Host.Outcome State Fault Refusal := fpUn s f (specialFn .rcp f.ty.fmt)

def execFrsq (f : Fields) (s : State) : Host.Outcome State Fault Refusal := fpUn s f (specialFn .rsq f.ty.fmt)

def execFsqrt (f : Fields) (s : State) : Host.Outcome State Fault Refusal := fpUn s f (specialFn .sqrt f.ty.fmt)

def execFex2 (f : Fields) (s : State) : Host.Outcome State Fault Refusal := fpUn s f (specialFn .ex2 f.ty.fmt)

def execFlg2 (f : Fields) (s : State) : Host.Outcome State Fault Refusal := fpUn s f (specialFn .lg2 f.ty.fmt)

def execFsin (f : Fields) (s : State) : Host.Outcome State Fault Refusal := fpUn s f (specialFn .sin f.ty.fmt)

def execFcos (f : Fields) (s : State) : Host.Outcome State Fault Refusal := fpUn s f (specialFn .cos f.ty.fmt)

def execFtanh (f : Fields) (s : State) : Host.Outcome State Fault Refusal := fpUn s f (specialFn .tanh f.ty.fmt)

end Sys2Proof.Machine
end

