-- ==== Sys2Proof/Machine/Lane.lean ====
section
/-!
DEFINITION. Lane instructions (R182 to R192): the participants of a tile see each other's values.
-/
namespace Sys2Proof.Machine

/-- Lanes of a gang among the executing slots that pass their checks and source reads, with what they read (R182). -/
def participants {α : Type} (rd : Lane → Except LaneFail α) (ex : List Nat) (l : Lane) : List (Nat × α) :=
  ex.filterMap (fun k =>
    if k / 32 = l.gslot then
      match rd { l with slot := k } with
      | .ok x => some (k % 32, x)
      | .error _ => none
    else none)

/-- First lane of the tile of a lane, and the tile width (R177). -/
def tileWidth (s : State) (l : Lane) : Nat := 2 ^ (l.gang s).tw
def tileBase (s : State) (l : Lane) : Nat := l.num - l.num % tileWidth s l

/-- The participants in a lane's tile. -/
def inTile {α : Type} (s : State) (l : Lane) (ps : List (Nat × α)) : List (Nat × α) :=
  ps.filter (fun p => tileBase s l ≤ p.1 && p.1 < tileBase s l + tileWidth s l)

/-- The mask with a bit for each lane of a list. -/
def laneMask (ls : List Nat) : Word := ls.foldl (fun m i => m ||| onesAt 32 i 1) 0

/-- A lane instruction: `rd` reads a lane's sources, `out` makes a lane's result from the participants of its tile. -/
def tileOp {α : Type} (s : State) (f : Fields) (ks : List (Nat × OpKind × Operand)) (rd : Lane → Except LaneFail α)
    (out : List (Nat × α) → Lane → α → LaneOut → LaneOut) : Host.Outcome State Fault Refusal :=
  s.execLanes f.guard f.dst.toSpec.toNat f.readsChannel (fun ex l =>
    let rd1 (l : Lane) : Except LaneFail α := do
      l.check s ks
      rd l
    do
      let x ← rd1 l
      .ok (out (inTile s l (participants rd1 ex l)) l x (l.start s f)))

/-! ## Votes, ballots and matches (R184 to R186) -/

/-- The value of `vote` for the predicates of a tile. -/
def voteVal (minor : Nat) (xs : List Bool) : Bool :=
  match minor with
  | 0 => xs.any id
  | 1 => xs.all id
  | 2 => xs.any id == xs.all id
  | _ => xs.foldl xor false

def execVote (f : Fields) (s : State) : Host.Outcome State Fault Refusal :=
  tileOp s f [(pSA, .pred, f.sa), (pDST, .pred, f.dst)] (fun l => .ok ((l.thr s).readPred f.sa))
    (fun ps _ _ o => o.putPred f.dst (voteVal f.minor.toNat (ps.map (·.2))))

def execBallot (f : Fields) (s : State) : Host.Outcome State Fault Refusal :=
  tileOp s f ((if f.minor == 0 then [(pSA, .pred, f.sa)] else []) ++ [(pDST, .dstReg false, f.dst)])
    (fun l => .ok (f.minor == 1 || (l.thr s).readPred f.sa))
    (fun ps l _ o => o.put (l.regs s) f.dst (laneMask ((ps.filter (·.2)).map (·.1))))

def execMatchOp (f : Fields) (s : State) : Host.Outcome State Fault Refusal :=
  let w := f.ty.isPair
  tileOp s f [(pSA, .src w, f.sa), (pDST, .dstReg false, f.dst)] (fun l => l.readInt s pSA f.sa f.ty)
    (fun ps l x o =>
      let equal := ps.all (fun p => p.2 == x)
      match f.minor.toNat with
      | 0 => o.put (l.regs s) f.dst (laneMask ((ps.filter (fun p => p.2 == x)).map (·.1)))
      | 1 =>
        let o := o.put (l.regs s) f.dst (if equal then laneMask (ps.map (·.1)) else 0)
        { o with th := o.th.setPred f.slot.toNat equal }
      | _ => o.put (l.regs s) f.dst
          (laneMask ((ps.filter (fun p => !ps.any (fun q => q.1 < p.1 && q.2 == p.2))).map (·.1))))

/-! ## Shuffles (R187) -/

/-- The source lane of a shuffle, if there is one. -/
def shflLane (minor base w l b : Nat) : Option Nat :=
  match minor with
  | 0 => some (base + b % w)
  | 1 => if l < base + b then none else some (l - b)
  | 2 => if base + w - 1 < l + b then none else some (l + b)
  | 3 => some (base + ((l - base) ^^^ (b % w)))
  | _ => some (base + (l - base + b) % w)

def execShfl (f : Fields) (s : State) : Host.Outcome State Fault Refusal :=
  let w := f.ty.isPair
  tileOp s f [(pSA, .src w, f.sa), (pSB, .src false, f.sb), (pDST, .dstReg w, f.dst)]
    (fun l => do
      let a ← l.readInt s pSA f.sa f.ty
      let b ← l.readWord s pSB f.sb
      .ok (a, b.toNat))
    (fun ps l x o =>
      let j := shflLane f.minor.toNat (tileBase s l) (tileWidth s l) l.num x.2
      let hit := ps.find? (fun p => some p.1 == j)
      let o := o.putInt (l.regs s) f.dst f.ty (match hit with | some p => p.2.1 | none => x.1)
      { o with th := o.th.setPred f.slot.toNat hit.isSome })

/-! ## Scans and reductions (R188 to R190) -/

/-- The exclusive identity of an operator, as the accumulated value. -/
def scanIdentity (minor : Nat) (t : Ty) : Int :=
  match minor with
  | 1 => Ty.maxVal t
  | 2 => Ty.minVal t
  | 3 => ((2 ^ t.width - 1 : Nat) : Int)
  | 6 => 0x80000000
  | 7 => 0x7F800000
  | 8 => 0xFF800000
  | _ => 0

/-- The value a lane's pattern enters the chain as: exact for arithmetic, the pattern for the others. -/
def scanVal (minor : Nat) (t : Ty) (p : Nat) : Int := if minor ≤ 2 then t.val p else p

/-- The first step of the chain. -/
def scanFirst (minor : Nat) (x : Int) : Int × BitVec 5 :=
  if minor < 6 then (x, 0)
  else
    match Fmt.f32.unpack x.toNat with
    | .nan sig => (Fmt.f32.nanPat, if sig then fNV else 0)
    | _ => (x, 0)

/-- A later step. -/
def scanStep (minor md : Nat) (a x : Int) : Int × BitVec 5 :=
  match minor with
  | 0 => (a + x, 0)
  | 1 => (min a x, 0)
  | 2 => (max a x, 0)
  | 3 => ((a.toNat &&& x.toNat : Nat), 0)
  | 4 => ((a.toNat ||| x.toNat : Nat), 0)
  | 5 => ((a.toNat ^^^ x.toNat : Nat), 0)
  | 6 => let r := fAdd .f32 md a.toNat x.toNat; (r.1, r.2)
  | 7 => let r := fMinMax .f32 false a.toNat x.toNat; (r.1, r.2)
  | _ => let r := fMinMax .f32 true a.toNat x.toNat; (r.1, r.2)

/-- The chain over a list of values: the accumulated value, if any, and the flags raised. -/
def scanChain (minor md : Nat) (xs : List Int) : Option Int × BitVec 5 :=
  xs.foldl (fun a x => match a.1 with
    | none => let r := scanFirst minor x; (some r.1, a.2 ||| r.2)
    | some v => let r := scanStep minor md v x; (some r.1, a.2 ||| r.2)) (none, 0)

/-- The pattern written for an accumulated value; `.add` applies the mode to the exact prefix. -/
def scanPattern (f : Fields) (x : Int) : Nat :=
  if f.minor == 0 then intResult f x else wrap x f.ty.width

/-- Writes a pattern of the operator's type: an integer by R28, or FP32. -/
def putScan (f : Fields) (regs : Nat) (o : LaneOut) (p : Nat) : LaneOut :=
  if f.ty.isInt then o.putInt regs f.dst f.ty p else o.put regs f.dst (BitVec.ofNat 32 p)

/-- Reads an element of a scan or reduction. -/
def readScan (f : Fields) (s : State) (l : Lane) : Except LaneFail Nat :=
  if f.ty.isInt then l.readInt s pSA f.sa f.ty else l.readF s pSA f.sa f.ty

def scanOp (s : State) (f : Fields) (take : Nat → Nat → Bool) : Host.Outcome State Fault Refusal :=
  let w := f.ty.isPair
  tileOp s f [(pSA, .src w, f.sa), (pDST, .dstReg w, f.dst)] (readScan f s)
    (fun ps l _ o =>
      let xs := (ps.filter (fun p => take p.1 l.num)).map (fun p => scanVal f.minor.toNat f.ty p.2)
      let r := scanChain f.minor.toNat f.md.toNat xs
      let v := match r.1 with
        | some v => scanPattern f v
        | none => wrap (scanIdentity f.minor.toNat f.ty) f.ty.width
      (putScan f (l.regs s) o v).orFlags r.2)

def execScan (f : Fields) (s : State) : Host.Outcome State Fault Refusal :=
  scanOp s f (fun p l => if f.slot.getLsbD 0 then p < l else p ≤ l)

def execLred (f : Fields) (s : State) : Host.Outcome State Fault Refusal := scanOp s f (fun _ _ => true)

/-! ## Partition and uniform move (R191, R192) -/

/-- `lpart` has no destination: FINFO of a fault 0x11 holds the DST field, 0x1FF (DESIGN CHOICE, log entry 110). -/
def execLpart (f : Fields) (s : State) : Host.Outcome State Fault Refusal :=
  s.execLanes f.guard f.dst.toSpec.toNat false (fun _ l => .ok { l.start s f with tw := some f.minor.toNat })

/-- The first participant whose lane operand can be read, with the lane number it names. -/
def umovLead (f : Fields) (s : State) (l : Lane) : List (Nat × Nat) → Option (Nat × Nat)
  | [] => none
  | p :: r =>
    if f.sb == .none then some (p.1, p.1)
    else
      match ({ l with slot := 32 * l.gslot + p.1 } : Lane).readWord s pSB f.sb with
      | .ok b => some (p.1, b.toNat % 32)
      | .error _ => umovLead f s l r

/-- `umov` reads SB only in its leading lane, whose read fault is that lane's alone. %clkh latches in every lane that takes part
where SB names %clk (DESIGN CHOICE, log entry 83). -/
def execUmov (f : Fields) (s : State) : Host.Outcome State Fault Refusal :=
  let w := f.ty.isPair
  s.execLanes f.guard f.dst.toSpec.toNat f.readsChannel (fun ex l =>
    let rd1 (l : Lane) : Except LaneFail Nat := do
      l.check s [(pSA, .src w, f.sa), (pSB, .srcOpt false, f.sb), (pDST, .gOnly w, f.dst)]
      l.readInt s pSA f.sa f.ty
    do
      let _ ← rd1 l
      let ps := participants rd1 ex l
      let lead := umovLead f s l ps
      -- a lane before the leading one read SB and faulted
      let _ ← if f.sb == .none then .ok 0
        else match lead with
          | some p => if l.num < p.1 then l.readWord s pSB f.sb else .ok 0
          | none => l.readWord s pSB f.sb
      if !Hdr.conv l.hdr then .error (.fault (opInfo 0x11 f.dst.toSpec.toNat 0))
      else
        match lead with
        | none => .ok (l.start s f)
        | some p =>
          match ps.find? (fun q => q.1 == p.2 && p.1 ≤ q.1) with
          | some q => .ok ((l.start s f).putInt (l.regs s) f.dst f.ty q.2)
          | none => .ok (l.start s f))

end Sys2Proof.Machine
end

