-- ==== Sys2Proof/Machine/Team.lean ====
section
/-!
DEFINITION. Team instructions: opening and closing channels (R194), barriers (R196 to R199), and a thread's leaving the live
count (R197).
-/
namespace Sys2Proof.Machine

/-- Writes what a lane computed: its thread, and its uniform registers. -/
def State.commit (s : State) (c k : Nat) (o : LaneOut) : State := (s.setThr c k o.th).putUniform c [(k, o)]

/-- The keys of a team's threads: the gang key of a thread's key is the key divided by 32. -/
def State.teamThreads (s : State) (t : Nat) : List Nat :=
  (Tbl.keys s.threads).filter (fun k => (Tbl.at s.gangs (k / 32) { team := 0, num := 0 }).team == t && (Tbl.look s.gangs (k / 32)).isSome)

/-- Number of live threads of a team (R197). -/
def State.liveThreads (s : State) (t : Nat) : Nat :=
  ((s.teamThreads t).filter (fun k => !(Tbl.at s.threads k {}).exited)).length

/-! ## Channels (R194) -/

/-- A channel instruction: a channel at or above CHANS is an illegal encoding; a speculating lane stops. -/
def chanOp (s : State) (f : Fields) (act : State → Lane → State) : Host.Outcome State Fault Refusal :=
  s.execSeq f.guard false (fun s l =>
    if (l.grid s).chans ≤ f.minor.toNat then (s, some (.fault illegalEncoding))
    else if (l.thr s).spec then (s, some .stop)
    else (act s l, none))

def execChopen (f : Fields) (s : State) : Host.Outcome State Fault Refusal :=
  chanOp s f (fun s l =>
    let g := l.gang s
    s.modTeam g.team (fun t => t.setChan f.minor.toNat
      { t.chan f.minor.toNat with pmask := (t.chan f.minor.toNat).pmask ||| onesAt 32 g.num 1, opened := true }))

/-- The close is noted in the pass and takes effect when it ends. -/
def execChclose (f : Fields) (s : State) : Host.Outcome State Fault Refusal :=
  chanOp s f (fun s l =>
    match s.curPass with
    | none => s
    | some (c, p, x) =>
      if x.closing.contains (l.gslot, f.minor.toNat) then s
      else s.setPass c p { x with closing := x.closing ++ [(l.gslot, f.minor.toNat)] })

/-! ## Barriers (R196 to R199) -/

def Team.bar (t : Team) (b : Nat) : Barrier := Tbl.at t.bars b {}

/-- COMPLETE of R197. -/
def State.completeBar (s : State) (t b : Nat) : State :=
  let x := (s.team t).bar b
  if ((x.fixed && x.exp ≤ x.arr) || (!x.fixed && s.liveThreads t ≤ x.arr)) then
    let s := s.modTeam t (fun y => { y with bars := Tbl.put y.bars b { x with gen := x.gen + 1, arr := 0, set := false } })
    { s with threads := (s.teamThreads t).foldl (fun m k =>
        Tbl.adjust m k (fun th => { th with barArrived := th.barArrived &&& ~~~(onesAt 16 b 1) })) s.threads }
  else s

/-- One arrival at a barrier of a team by a thread; a count is given or not. -/
def State.arrive (s : State) (t b core slot : Nat) (count : Option Nat) : State :=
  let x := (s.team t).bar b
  let x := if x.set then x else { x with set := true, fixed := count.isSome, exp := count.getD 0 }
  let th := s.thr core slot
  let fresh := !th.barArrived.getLsbD b
  let x := if x.fixed || fresh then { x with arr := x.arr + 1 } else x
  let s := s.modTeam t (fun y => { y with bars := Tbl.put y.bars b x })
  let s := if x.fixed then s else s.setThr core slot { th with barArrived := th.barArrived ||| onesAt 16 b 1 }
  s.completeBar t b

/-- A thread leaves the live count: its arrival bits leave ARR, and COMPLETE runs for each barrier. -/
def State.leaveBars (s : State) (t core slot : Nat) : State :=
  (List.range 16).foldl (fun s b =>
    let th := s.thr core slot
    let s := if th.barArrived.getLsbD b then
        (s.modTeam t (fun y => let x := y.bar b; { y with bars := Tbl.put y.bars b { x with arr := x.arr - 1 } })).setThr core slot
          { th with barArrived := th.barArrived &&& ~~~(onesAt 16 b 1) }
      else s
    s.completeBar t b) s

/-- The count an arriving lane gives: none for all live threads. -/
def barCount (s : State) (l : Lane) (o : Operand) : Except LaneFail (Option Nat) :=
  if o == .none then .ok none
  else
    match l.readWord s pSA o with
    | .error e => .error e
    | .ok w => if w == 0 || 1024 < w.toNat then .error (.fault (opInfo 2 o.toSpec.toNat pSA)) else .ok (some w.toNat)

/-- Checks of `bar.arrive` on the state before it; the count is read there too. -/
def barArriveCheck (f : Fields) (s : State) (l : Lane) : Except LaneFail (Option Nat) := do
  l.check s [(pSA, .srcOpt false, f.sa), (pDST, .dstReg false, f.dst)]
  l.stopIfSpec s
  let n ← barCount s l f.sa
  match f.dst with
  | .g _ => if Hdr.conv l.hdr then .ok n else .error (.fault (opInfo 0x11 f.dst.toSpec.toNat pDST))
  | _ => .ok n

/-- The first executing lane of a gang that passes a check. -/
def leadLane {α : Type} (s : State) (g : Guard) (l : Lane) (ok : Lane → Except LaneFail α) : Option Nat :=
  match s.curPass with
  | none => none
  | some (c, _, x) => (s.executing c x g).find? (fun k => k / 32 == l.gslot && (match ok { l with slot := k } with | .ok _ => true | .error _ => false))

/-- Each lane takes GEN as it stands before its own arrival. A lane whose GEN differs from the one its gang's lowest lane
wrote to a g register faults by R176, and does not arrive. -/
def execBarArrive (f : Fields) (s0 : State) : Host.Outcome State Fault Refusal :=
  s0.execSeq f.guard f.readsChannel (fun s l =>
    match barArriveCheck f s0 l with
    | .error e => (s, some e)
    | .ok count =>
      let t := (l.gang s).team
      let gen : Word := (((s.team t).bar f.minor.toNat).gen).setWidth 32
      let lead := leadLane s0 f.guard l (barArriveCheck f s0) == some l.slot
      let clash := match f.dst with
        | .g n => !lead && (l.gang s).readG n.toNat != gen
        | _ => false
      if clash then (s, some (.fault (opInfo 0x11 f.dst.toSpec.toNat pDST)))
      else
        let clk := (l.start s0 f).th.clkh
        let o : LaneOut := { th := { l.thr s with clkh := clk } }
        let s := s.commit l.core l.slot (o.put (l.regs s0) f.dst gen)
        (s.arrive t f.minor.toNat l.core l.slot count, none))

def execBarWait (f : Fields) (s : State) : Host.Outcome State Fault Refusal :=
  regOp s f [(pSA, .src false, f.sa)] (fun l => do
    let w ← l.readWord s pSA f.sa
    let o := l.start s f
    .ok { o with th := { o.th with barWait := Tbl.put o.th.barWait f.minor.toNat (w.extractLsb' 0 16) } })

end Sys2Proof.Machine
end

