-- ==== Sys2Proof/Machine/Control.lean ====
section
/-!
DEFINITION. Terminators: successors and their checks (R104 to R107), branches, calls and returns (R109 to R112), the fault
return (R113), exit (R114), park (R115) and `bar.sync` (R200).
-/
namespace Sys2Proof.Machine

/-- The successor checks of R107, in the order of R120. -/
def checkSuccessor (a : DWord) : Except LaneFail DWord :=
  if a.toNat % 32 ≠ 0 then .error (.fault (fetchInfo 7 a false))
  else if !canonical a.toNat then .error (.fault (fetchInfo 0x0B a false))
  else .ok a

/-- A direct target (R106). -/
def directTarget (clause : DWord) (off : Word) : DWord := clause + BitVec.ofInt 64 (32 * off.toInt)

/-- FT of the clause a lane's pass runs. -/
def Lane.ft (l : Lane) (s : State) : DWord :=
  match s.curPass with
  | some (_, _, x) => fallThrough x.clause x.body
  | none => l.clause

/-- Gives a lane its successor position. -/
def State.succeed (s : State) (l : Lane) (a : DWord) : State :=
  s.modThr l.core l.slot (fun th => { th with pos := entryPos a })

/-- A terminator whose predicate is its condition (R105): the fields are checked whatever the predicate, and a lane whose
condition is false falls through. -/
def termOp (s0 : State) (f : Fields) (ks : List (Nat × OpKind × Operand))
    (act : State → Lane → Except LaneFail State) : Host.Outcome State Fault Refusal :=
  s0.execTerm (fun s l =>
    let r : Except LaneFail State := do
      l.check s0 ks
      if (l.thr s).holds f.guard then act s l
      else .ok (s.succeed l (l.ft s0))
    match r with
    | .ok t => (t, none)
    | .error e => (s, some e))

/-- A branch to a register or direct target, with the link written to DST once the target has passed its checks. -/
def branchTo (s0 : State) (f : Fields) (target : Lane → Except LaneFail DWord) (link : Bool) (s : State) (l : Lane) :
    Except LaneFail State := do
  let a ← checkSuccessor (← target l)
  let s := (s.setThr l.core l.slot (((⟨l.thr s, [], none, none⟩ : LaneOut)).putPair (l.regs s) (if link then f.dst else .none)
    (l.ft s0)).th)
  .ok (s.succeed l a)

/-- The direct target of a lane's clause. -/
def immTarget (f : Fields) (l : Lane) : Except LaneFail DWord := .ok (directTarget l.clause (f.imm.getD 0))

def execJmp (f : Fields) (s : State) : Host.Outcome State Fault Refusal :=
  termOp s f [] (branchTo s f (immTarget f) false)

def execBr (f : Fields) (s : State) : Host.Outcome State Fault Refusal :=
  termOp s f [] (branchTo s f (immTarget f) false)

def execBrx (f : Fields) (s : State) : Host.Outcome State Fault Refusal :=
  termOp s f [(pSA, .reg true, f.sa)] (branchTo s f (fun l => l.readPair s pSA f.sa) false)

def execCall (f : Fields) (s : State) : Host.Outcome State Fault Refusal :=
  termOp s f [(pDST, .load true, f.dst)] (branchTo s f (immTarget f) true)

def execCallR (f : Fields) (s : State) : Host.Outcome State Fault Refusal :=
  termOp s f [(pSA, .reg true, f.sa), (pDST, .load true, f.dst)] (branchTo s f (fun l => l.readPair s pSA f.sa) true)

def execRet (f : Fields) (s : State) : Host.Outcome State Fault Refusal :=
  termOp s f [(pSA, .reg true, f.sa)] (branchTo s f (fun l => l.readPair s pSA f.sa) false)

/-- The fault return: a privilege fault at user privilege; a lane at supervisor privilege leaves the pass with the frame's
position and temporaries, which it keeps (R25). -/
def execRetFault (_f : Fields) (s : State) : Host.Outcome State Fault Refusal :=
  match s.curPass with
  | none => .fault .noPass
  | some (c, p, x) =>
    let users := x.slots.filter (fun k => !(s.thr c k).priv)
    .next ((s.leave c x (users.map (fun k => (k, .fault (opInfo 4 0 4))))).endPassBy Thread.faultReturn c p (x.without users))

/-! ## Exit (R114, R197, R409) -/

/-- A gang none of whose lanes is live leaves every set it is a member of. -/
def State.leaveSets (s : State) (c gs : Nat) : State :=
  if (s.liveLanes c gs).isEmpty then s.modGang c gs (fun g => { g with mj := 0 }) else s

/-- A thread ends: its registers are discarded, and it leaves the live count of its team. Outstanding loads and its flag
counts stand until they complete. -/
def State.exitThread (s : State) (c k : Nat) : State :=
  let s := s.modThr c k (fun th =>
    { th with
      exited := true, place := .out, v := [], vPoison := [], t := [], tvalid := 0, preds := 0, d := [], dPoison := []
      fpst := 0, barWait := [], copies := [], openErr := none, batchErr := [] })
  let t := (s.gang c (k / 32)).team
  let s := (s.leaveBars t c k).leaveSets c (k / 32)
  let waiting := (s.copies.filter (fun e => e.2.team == t && e.2.st == .collecting)).map (·.1)
  { s with agenda := s.agenda ++ waiting.map (fun id => .event (.copyCheck id)) }

def execExit (f : Fields) (s : State) : Host.Outcome State Fault Refusal :=
  termOp s f [] (fun s l => do
    l.stopIfSpec s
    .ok (s.exitThread l.core l.slot))

/-! ## Park and bar.sync -/

def execPark (f : Fields) (s : State) : Host.Outcome State Fault Refusal :=
  termOp s f [(pSA, .srcOpt false, f.sa)] (fun t l => do
    let n ← if f.sa == .none then .ok 0 else (l.readWord s pSA f.sa).map (·.toNat)
    let a ← checkSuccessor (l.ft s)
    let clk := (l.start s f).th.clkh
    .ok ((t.modThr l.core l.slot (fun th => { th with park := n, clkh := clk })).succeed l a))

/-- `bar.sync`: the generation is recorded before the arrival, so a lane that completes the phase is released at once. -/
def execBarSync (f : Fields) (s : State) : Host.Outcome State Fault Refusal :=
  termOp s f [(pSA, .srcOpt false, f.sa)] (fun t l => do
    l.stopIfSpec t
    let count ← barCount s l f.sa
    let a ← checkSuccessor (l.ft s)
    let b := f.minor.toNat
    let team := (l.gang t).team
    let clk := (l.start s f).th.clkh
    let gen := ((t.team team).bar b).gen
    let t := t.modThr l.core l.slot (fun th => { th with barWait := Tbl.put th.barWait b gen, clkh := clk })
    .ok ((t.arrive team b l.core l.slot count).succeed l a))

end Sys2Proof.Machine
end

