-- ==== Sys2Proof/Machine/Access.lean ====
section
/-!
DEFINITION. A thread's memory access: the effective address (R117), its checks (R118 to R121), reading and writing the four
spaces (R122 to R125), the speculative store hold (R421), and long-latency instructions as a whole pass issues them (R18,
R19).
-/
namespace Sys2Proof.Machine

/-! ## Effective addresses -/

/-- Fields of a memory operand in the order of R64; IMM32 replaces SC. A 64-bit space takes an even pair as base. -/
def memFields (f : Fields) (space : Nat) (index : Bool) : List (Nat × OpKind × Operand) :=
  [(pSA, if space == 0 || space == 3 then .reg true else .src false, f.sa)]
    ++ (if index then [(pSB, .srcOpt false, f.sb)] else [])
    ++ unlessImm f (pSC, .srcOpt false, f.sc)

/-- A 32-bit signed term of an address; none is 0. -/
def Lane.readTerm (l : Lane) (s : State) (place : Nat) (o : Operand) : Except LaneFail Int :=
  if o == .none then .ok 0 else (l.readWord s place o).map (fun w => w.toInt)

/-- EA of R117. -/
def Lane.address (l : Lane) (s : State) (f : Fields) (space : Nat) (index : Bool) : Except LaneFail Nat := do
  let wide := space == 0 || space == 3
  let base : Nat ← if wide then (l.readPair s pSA f.sa).map (·.toNat) else (l.readWord s pSA f.sa).map (·.toNat)
  let idx ← if index then l.readTerm s pSB f.sb else .ok 0
  let off ← match f.imm with
    | some w => .ok w.toInt
    | none => l.readTerm s pSC f.sc
  .ok (wrap ((base : Int) + idx * ((2 ^ f.slot.toNat : Nat) : Int) * (if index then 1 else 0) + off) (if wide then 64 else 32))

/-! ## Checks -/

/-- Where an access goes once it has passed its checks. -/
inductive Target where
  | glob (m : Mapping)
  | spad
  | win
  deriving DecidableEq, Repr, Inhabited

def Lane.memFault (code : Nat) (ea space policy lsize : Nat) (wr stage2 : Bool) : LaneFail :=
  .fault (accessInfo code (BitVec.ofNat 64 ea) space policy lsize wr false stage2)

/-- Address, bounds, translation and permission of an access (R118, R120). -/
def Lane.reach (l : Lane) (s : State) (space policy lsize ea size : Nat) (n : Need) : Except LaneFail (State × Target) :=
  if space == 0 || space == 3 then
    if !canonical ea then .error (Lane.memFault 0x0B ea space policy lsize n.store false)
    else
      match s.translate l.core (l.ctxId s) { n with user := !(l.thr s).priv } ea with
      | .error e => .error (Lane.memFault e.1 ea space policy lsize n.store e.2)
      | .ok r => .ok (r.1, .glob r.2)
  else if space == 1 then
    if (l.grid s).scrsize < ea + size then .error (Lane.memFault 0x0A ea space policy lsize n.store false) else .ok (s, .spad)
  else
    if winSize (l.regs s) (l.grid s).dregs < ea + size then .error (Lane.memFault 0x0A ea space policy lsize n.store false)
    else .ok (s, .win)

/-- The checks of an access of `size` bytes, alignment first. -/
def Lane.reachAligned (l : Lane) (s : State) (space policy ea size : Nat) (n : Need) : Except LaneFail (State × Target) :=
  if ea % size ≠ 0 then .error (Lane.memFault 7 ea space policy (Nat.log2 size) n.store false)
  else l.reach s space policy (Nat.log2 size) ea size n

/-! ## The speculative store hold (R421) -/

/-- Space, block and key of an access in the store hold; the window is not held. -/
def Target.block (t : Target) (ea : Nat) : Option (Nat × Nat × Nat) :=
  match t with
  | .glob m => some (0, m.pa / 32, m.key)
  | .spad => some (1, ea / 32, 0)
  | .win => none

def Target.offset (t : Target) (ea : Nat) : Nat :=
  match t with
  | .glob m => m.pa % 32
  | _ => ea % 32

/-- The gang's entry for a block. -/
def Core.held (c : Core) (gslot : Nat) (b : Nat × Nat × Nat) : Option SshEntry :=
  c.ssh.find? (fun e => e.gslot == gslot && e.space == b.1 && e.block == b.2.1 && e.key == b.2.2)

/-- Bytes of an access with the gang's held stores laid over them. -/
def State.overlay (s : State) (l : Lane) (t : Target) (ea : Nat) (bs : Loaded) : Loaded :=
  match t.block ea with
  | none => bs
  | some b =>
    match (s.core l.core).held l.gslot b with
    | none => bs
    | some e =>
      let o := t.offset ea
      ((List.range bs.length).zip bs).map (fun p =>
        if e.mask.getLsbD (o + p.1) then (e.data.extractLsb' (8 * (o + p.1)) 8, false) else p.2)

/-- Holds a store; none when the hold is full. -/
def State.hold (s : State) (l : Lane) (b : Nat × Nat × Nat) (o : Nat) (bs : List Byte) (byp : Bool) : Option State :=
  let m : BitVec 32 := onesAt 32 o bs.length
  let bits : BitVec 256 := BitVec.ofNat 256 ((2 ^ (8 * bs.length) - 1) * 2 ^ (8 * o))
  let data : BitVec 256 := BitVec.ofNat 256 (leNat bs * 2 ^ (8 * o))
  let c := s.core l.core
  match c.held l.gslot b with
  | some e =>
    let e' := { e with mask := e.mask ||| m, data := (e.data &&& ~~~bits) ||| data, byp := e.byp || byp }
    some (s.setCore l.core { c with ssh := c.ssh.map (fun x => if x == e then e' else x) })
  | none =>
    if Config.sshEntries ≤ c.ssh.length then none
    else
      some (s.setCore l.core { c with
        ssh := c.ssh ++ [{ seq := c.ssh.length, gslot := l.gslot, space := b.1, block := b.2.1, key := b.2.2, byp := byp, mask := m, data := data }] })

/-! ## Reading and writing -/

def Lane.via (l : Lane) (s : State) (pa : Nat) : Via := ⟨l.core, s.l1Core l.core (l.team s) pa, l.ctxId s⟩

/-- The core an owner tag names for a lane's team (R279). -/
def Lane.owner (l : Lane) (s : State) : Nat := if (l.grid s).paired then (l.team s).core else l.core

/-- Bytes of an access that has passed its checks, each with whether it is uncorrectable. -/
def State.memRead (s : State) (l : Lane) (t : Target) (ea n policy : Nat) (const : Bool) : State × Loaded :=
  match t with
  | .glob m =>
    let r := s.globalLoad (l.via s m.pa) m policy n const
    (r.1, if const then r.2 else r.1.overlay l t ea r.2)
  | .spad => (s, s.overlay l t ea ((List.range n).map (fun i => ((l.team s).spadByte (ea + i), false))))
  | .win => (s, (List.range n).map (fun i => (l.thr s).winByte (l.regs s) (l.grid s).dregs (ea + i)))

/-- A grid performs a visible side effect (R348). -/
def State.markVisible (s : State) (g : Nat) : State := if (s.grid g).visible then s else s.modGrid g (fun x => { x with visible := true })

/-- A store to memory outside speculation, or to the window. -/
def State.memStore (s : State) (l : Lane) (t : Target) (ea policy : Nat) (bs : List Byte) : State :=
  match t with
  | .glob m =>
    let rel := (l.thr s).relFence
    let s := if rel then s.yieldTag (m.pa / 64) (l.owner s) else s
    let s := (s.globalStore (l.via s m.pa) m policy bs).markVisible (l.team s).grid
    if rel then s.tagOwner (m.pa / 64) (l.owner s) else s
  | .spad => s.modTeam (l.gang s).team (fun t => t.setSpad ea bs)
  | .win => s.modThr l.core l.slot (fun th =>
      (th.setWinBytes (l.regs s) (l.grid s).dregs ea bs).cleanWin (l.regs s) (l.grid s).dregs ea bs.length)

/-- A store of a lane: held while it speculates (R421), stopping when the hold is full (R419). -/
def State.memWrite (s : State) (l : Lane) (t : Target) (ea policy : Nat) (bs : List Byte) : Except LaneFail State :=
  if (l.thr s).spec then
    match t.block ea with
    | none => .ok (s.memStore l t ea policy bs)
    | some b =>
      match s.hold l b (t.offset ea) bs (policy == 1) with
      | some s => .ok s
      | none => .error .stop
  else .ok (s.memStore l t ea policy bs)

/-! ## Long-latency instructions -/

/-- The flag an instruction counts on; a set-flag that is not valid is an illegal encoding (R18). -/
def Lane.needFlag (l : Lane) (fs : Bool) : Except LaneFail Nat :=
  match setFlag l.hdr fs with
  | some n => .ok n
  | none => .error (.fault illegalEncoding)

/-- The slot of an executing lane whose flag count stands at its greatest value, and that flag (R19). -/
def State.fullFlag (s : State) (g : Guard) (fs : Bool) : Option (Nat × Nat × Nat) :=
  match s.curPass with
  | none => none
  | some (c, _, x) =>
    match setFlag x.hdr fs with
    | none => none
    | some n => ((s.executing c x g).find? (fun k => 63 ≤ (s.thr c k).flag n)).map (fun k => (c, k, n))

/-- The pass that has the turn stalls at its instruction, which runs again once something else has happened. -/
def State.stall (s : State) : State :=
  match s.curPass with
  | none => s
  | some (c, p, x) => s.setPass c p { x with stalled := true }

/-- A long-latency instruction: while some lane's flag stands at 63, the pass stalls, and an operation that holds the flag
completes. A flag that votes alone hold (R427) falls when one of them resolves. -/
def longOp (s : State) (f : Fields) (fs : Bool) (act : State → Lane → State × Option LaneFail) : Host.Outcome State Fault Refusal :=
  match s.fullFlag f.guard fs with
  | none => s.execSeq f.guard f.readsChannel act
  | some (c, k, n) =>
    match (s.core c).pending.find? (fun op => op.slot == k && op.flag == n) with
    | some op => s.waitFor (.longLatencyComplete c k op.id 0)
    | none => .next s.stall

/-- Destination words of a v register group: register and value, with poison. -/
def groupWords (d : Operand) (ws : List (Word × Bool)) : List (Nat × Word × Bool) :=
  match d with
  | .v n => ((List.range ws.length).zip ws).map (fun p => (n.toNat + p.1, p.2.1, p.2.2))
  | _ => []

/-- An act on a lane as a fallible update. -/
def seqAct (s : State) (r : Except LaneFail State) : State × Option LaneFail :=
  match r with
  | .ok t => (t, none)
  | .error e => (s, some e)

/-- Latches %clkh when %clk was a source (R59). -/
def State.latch (s : State) (l : Lane) (f : Fields) : State :=
  s.modThr l.core l.slot (fun th => { th with clkh := (l.start s f).th.clkh })

end Sys2Proof.Machine
end

