-- ==== Sys2Proof/Machine/Memory.lean ====
section
/-!
DEFINITION. Loads, stores, constant loads and prefetch (R116 to R128).
-/
namespace Sys2Proof.Machine

/-- Elements an access moves: 1, 2 or 4 (MOD[2:1]). -/
def accCount (f : Fields) : Nat := 2 ^ (f.md.toNat / 2)
def elemBytes (t : Ty) : Nat := t.width / 8
/-- Registers an element takes, and the registers of the group (R119). -/
def elemRegs (t : Ty) : Nat := if t.width == 64 then 2 else 1
def groupRegs (f : Fields) : Nat := accCount f * elemRegs f.ty
def accSize (f : Fields) : Nat := accCount f * elemBytes f.ty

/-- The registers an element of loaded bytes writes, extended by R28, each with whether its own bytes are uncorrectable. -/
def elemWords (t : Ty) (bs : Loaded) : List (Word × Bool) :=
  let p := leNat (bs.map (·.1))
  if t.width == 64 then
    [(BitVec.ofNat 32 p, (bs.take 4).any (·.2)), (BitVec.ofNat 32 (p / 2 ^ 32), (bs.drop 4).any (·.2))]
  else [(BitVec.ofInt 32 (t.val p), bs.any (·.2))]

/-- The words of a group of n elements. -/
def loadWords (t : Ty) : Nat → Loaded → List (Word × Bool)
  | 0, _ => []
  | n + 1, bs => elemWords t (bs.take (elemBytes t)) ++ loadWords t n (bs.drop (elemBytes t))

/-- Poison of a load's destination words (R128): data with an uncorrectable error poison them all; `ld.win` copies each word's
own poison. -/
def poisonAll (space : Nat) (ws : List (Word × Bool)) : List (Word × Bool) :=
  if space = 2 then ws else ws.map (fun w => (w.1, ws.any (·.2)))

/-- A load through a space (R122, R126): checked, performed, and its words written when the operation completes. -/
def loadAct (f : Fields) (space policy : Nat) (s : State) (l : Lane) : Except LaneFail State := do
  l.check s (memFields f space true ++ [(pDST, .loadGroup (groupRegs f), f.dst)])
  let flag ← l.needFlag (f.md.getLsbD 0)
  let ea ← l.address s f space true
  let (s, t) ← l.reachAligned (s.latch l f) space policy ea (accSize f) { load := true }
  let (s, bs) := s.memRead l t ea (accSize f) policy (space == 3)
  .ok (s.issue l.core l.slot flag (groupWords f.dst (poisonAll space (loadWords f.ty (accCount f) bs))) none)

def execLd (f : Fields) (s : State) : Host.Outcome State Fault Refusal :=
  longOp s f (f.md.getLsbD 0) (fun s l => seqAct s (loadAct f (f.minor.toNat % 4) (f.minor.toNat / 4) s l))

def execLdc (f : Fields) (s : State) : Host.Outcome State Fault Refusal :=
  longOp s f (f.md.getLsbD 0) (fun s l => seqAct s (loadAct f 3 0 s l))

/-- The pattern an element type gives a literal datum (R29, R123), or the low bits of one register. -/
def Lane.readDatum (l : Lane) (s : State) (place : Nat) (o : Operand) (t : Ty) : Except LaneFail Nat :=
  if t.isInt then l.readInt s place o t
  else if t.isPairF then (l.readP2 s place o t none).map (fun p => p.1 + 2 ^ 16 * p.2)
  else l.readF s place o t

/-- The bytes a store writes. -/
def Lane.storeBytes (l : Lane) (s : State) (f : Fields) : Except LaneFail (List Byte) :=
  if f.dst.isReg then do
    let ws ← l.readGroup s pDST f.dst 0 (groupRegs f)
    .ok ((ws.flatMap (fun w => leBytes (min 4 (elemBytes f.ty)) w.toNat)))
  else do
    let p ← l.readDatum s pDST f.dst f.ty
    .ok ((List.range (accCount f)).flatMap (fun _ => leBytes (elemBytes f.ty) p))

def storeAct (f : Fields) (s : State) (l : Lane) : Except LaneFail State := do
  let space := f.minor.toNat % 4
  let policy := f.minor.toNat / 4
  l.check s (memFields f space true ++ [(pDST, .dataGroup (groupRegs f), f.dst)])
  let ea ← l.address s f space true
  let bs ← l.storeBytes s f
  let (s, t) ← l.reachAligned (s.latch l f) space policy ea (accSize f) { store := true }
  s.memWrite l t ea policy bs

def execSt (f : Fields) (s : State) : Host.Outcome State Fault Refusal :=
  s.execSeq f.guard f.readsChannel (fun s l => seqAct s (storeAct f s l))

/-- The first stale temporary among the words an address is formed from. -/
def Lane.staleTerm (l : Lane) (s : State) (f : Fields) : Option FaultInfo :=
  let code {α : Type} : Except LaneFail α → Option FaultInfo
    | .error (.fault i) => if i.code == 3 then some i else none
    | _ => none
  match code (l.readPair s pSA f.sa), code (l.readTerm s pSB f.sb), (if f.imm.isSome then none else code (l.readTerm s pSC f.sc)) with
  | some i, _, _ => some i
  | none, some i, _ => some i
  | none, none, i => i

/-- `pref`: a stale temporary faults, be another word poisoned or not; its request is dropped when the address cannot be formed
from clean words, reached or allowed (R127). -/
def prefAct (f : Fields) (s : State) (l : Lane) : Except LaneFail State := do
  l.check s (memFields f 0 true)
  match l.staleTerm s f, l.address s f 0 true with
  | some i, _ => .error (.fault i)
  | none, .error _ => .ok (s.latch l f)
  | none, .ok ea =>
    let policy := f.minor.toNat / 4
    match l.reach (s.latch l f) 0 policy 0 ea 1 { load := true } with
    | .ok (t, .glob m) =>
      if policy == 1 then .ok (t.l2Touch l.core (l.ctxId t) m.key (m.pa / 64))
      else .ok (t.l1Fetch (l.via t m.pa) policy m.key (m.pa / 64) false).1
    | _ => .ok (s.latch l f)

def execPref (f : Fields) (s : State) : Host.Outcome State Fault Refusal :=
  s.execSeq f.guard f.readsChannel (fun s l => seqAct s (prefAct f s l))

end Sys2Proof.Machine
end

