-- ==== Sys2Proof/Machine/Atomic.lean ====
section
/-!
DEFINITION. Atomic operations, fences and the remote acquire (R272 to R279).
-/
namespace Sys2Proof.Machine

/-- The new value of an atomic operation on patterns of a type (R274); no flag is raised. -/
def atomNew (op : Nat) (t : Ty) (old b : Nat) : Nat :=
  if t == .f32 then
    match op with
    | 0 => (fAdd .f32 0 old b).1
    | 1 => (fMinMax .f32 false old b).1
    | _ => (fMinMax .f32 true old b).1
  else
    match op with
    | 0 => (old + b) % 2 ^ t.width
    | 1 => if t.val b < t.val old then b else old
    | 2 => if t.val old < t.val b then b else old
    | 3 => old &&& b
    | 4 => old ||| b
    | 5 => old ^^^ b
    | 6 => b
    | _ => if b = 0 then (old + 1) % 2 ^ t.width else (old + 1) % b

/-- A dropped `red` counts in REDDROP, and the first raises the context's interrupt (R276, R342). -/
def State.dropRed (s : State) (ctx : Nat) : State :=
  let x := s.ctx ctx
  let n := x.ctxerr.toNat / 2 ^ 16
  let s := s.setCtx ctx { x with ctxerr := BitVec.ofNat 32 (min (n + 1) 65535 * 2 ^ 16 + x.ctxerr.toNat % 2 ^ 16) }
  if n == 0 then s.raise (s.vcpOfCtx ctx) 1 else s

/-- Order bits of an atomic: MOD[2:1]. -/
def hasAcq (order : Nat) : Bool := order == 1 || order == 3
def hasRel (order : Nat) : Bool := order == 2 || order == 3

/-- A host write that reaches system memory inside a read-modify-write that the I/O die makes, when one comes next: only toward
the device's own threads is such an operation atomic (R378). -/
def State.hostInside (s : State) (pa n : Nat) : State :=
  match s.agenda with
  | .hostInside a bytes :: r =>
    if a < pa + n && pa < a + bytes.length && isSystem a && isSystem (a + bytes.length - 1) then { s.deviceStore a bytes with agenda := r } else s
  | _ => s

/-- Whether the port that maps an address carries an atomic as an AtomicOp of the bus (R378). -/
def State.rootPerforms (s : State) (pa : Nat) : Bool := s.rootAtomics.getLsbD (Config.hostPort pa)

/-- One indivisible read-modify-write of n bytes. `new` gives the bytes to write, if any. The old pattern, whether it is
uncorrectable, and the state after it. An operation whose line has an uncorrectable error is not performed (R276), so it is no
visible effect; one whose compare fails is performed (R277, R348). An owner that its release replaces is promoted first (R279).
`bus` says that system memory takes the operation as an AtomicOp where the root completes those; the I/O die makes every other one
(R378). -/
def State.readModify (s : State) (l : Lane) (t : Target) (ea n : Nat) (tag bus : Bool) (new : Nat → Option Nat) :
    State × Nat × Bool :=
  match t with
  | .glob m =>
    let v := l.via s m.pa
    let s := (s.atHome v m).meetLine v m
    let old := leNat (s.physBytes m.key m.pa n)
    if s.l2Bad v.ctx (64 * (m.pa / 64)) 64 then (s.settleLine v.ctx (m.pa / 64), old, true)
    else
      let s := s.markVisible (l.team s).grid
      match new old with
      | none => (s, old, false)
      | some x =>
        let s := if isSystem m.pa && !(bus && s.rootPerforms m.pa) then s.hostInside m.pa n else s
        let s := (if tag then s.yieldTag (m.pa / 64) (l.owner s) else s).physWrite m.key m.pa (leBytes n x)
        (if tag then s.tagOwner (m.pa / 64) (l.owner s) else s, old, false)
  | _ =>
    let old := leNat ((List.range n).map (fun i => (l.team s).spadByte (ea + i)))
    match new old with
    | none => (s, old, false)
    | some x => (s.modTeam (l.gang s).team (fun t => t.setSpad ea (leBytes n x)), old, false)

/-- Words of a 32-bit or 64-bit old value. -/
def oldWords (t : Ty) (old : Nat) (bad : Bool) : List (Word × Bool) :=
  if t.width == 64 then [(BitVec.ofNat 32 old, bad), (BitVec.ofNat 32 (old / 2 ^ 32), bad)] else [(BitVec.ofNat 32 old, bad)]

/-- Atomics that the bus has an AtomicOp for (R378): FetchAdd of integers and Swap. -/
def busAtomic (op : Nat) (t : Ty) : Bool := (op == 0 && t != .f32) || op == 6

/-- The shared course of `atom`, `atomcas` and `red`: `data` reads what the operation needs, `new` computes. -/
def atomicAct {α : Type} (f : Fields) (long bus : Bool) (data : State → Lane → Except LaneFail α) (sb : OpKind)
    (new : α → Nat → Option Nat) (s : State) (l : Lane) : Except LaneFail State := do
  let space := f.minor.toNat / 8
  let order := f.md.toNat / 2
  let scope := f.slot.toNat
  let n := elemBytes f.ty
  l.check s ([(pSA, if space == 0 then .reg true else .src false, f.sa), (pSB, sb, f.sb)]
    ++ unlessImm f (pSC, .srcOpt false, f.sc) ++ (if long then [(pDST, .load f.ty.isPair, f.dst)] else []))
  let flag ← if long then l.needFlag (f.md.getLsbD 0) else .ok 0
  l.stopIfSpec s
  let ea ← l.address s f space false
  let b ← data s l
  let (s, t) ← l.reachAligned (s.latch l f) space 0 ea n { load := true, store := true }
  let s := if hasRel order then s.releaseAt l.core (l.team s) scope else s
  let r := s.readModify l t ea n ((hasRel order && scope < 2) || (l.thr s).relFence) bus (new b)
  let s := if hasAcq order then r.1.acquireAt l.core (l.team r.1) scope else r.1
  if long then .ok (s.issue l.core l.slot flag (groupWords f.dst (oldWords f.ty r.2.1 r.2.2)) none)
  else .ok (if r.2.2 then s.dropRed (l.ctxId s) else s)

/-- Data of `atom` and `red`. -/
def atomData (f : Fields) (s : State) (l : Lane) : Except LaneFail Nat := l.readDatum s pSB f.sb f.ty

def execAtom (f : Fields) (s : State) : Host.Outcome State Fault Refusal :=
  longOp s f (f.md.getLsbD 0) (fun s l =>
    seqAct s (atomicAct f true (busAtomic (f.minor.toNat % 8) f.ty) (atomData f) (.src f.ty.isPair) (fun b old => some (atomNew (f.minor.toNat % 8) f.ty old b)) s l))

def execRed (f : Fields) (s : State) : Host.Outcome State Fault Refusal :=
  s.execSeq f.guard f.readsChannel (fun s l =>
    seqAct s (atomicAct f false (busAtomic (f.minor.toNat % 8) f.ty) (atomData f) (.src f.ty.isPair) (fun b old => some (atomNew (f.minor.toNat % 8) f.ty old b)) s l))

/-- The compare and new values of `atomcas` (R275). -/
def casData (f : Fields) (s : State) (l : Lane) : Except LaneFail (Nat × Nat) := do
  let k := elemRegs f.ty
  let c ← l.readGroup s pSB f.sb 0 k
  let n ← l.readGroup s pSB f.sb k k
  let num (ws : List Word) : Nat := leNat (ws.flatMap (fun w => leBytes 4 w.toNat))
  .ok (num c, num n)

def execAtomcas (f : Fields) (s : State) : Host.Outcome State Fault Refusal :=
  longOp s f (f.md.getLsbD 0) (fun s l =>
    seqAct s (atomicAct f true true (casData f) (.regGroup (2 * elemRegs f.ty)) (fun b old => if old = b.1 then some b.2 else none) s l))

/-! ## Fences (R272) and the remote acquire (R278, R279) -/

/-- Whether a gang holds a store (R421). -/
def State.holdsStore (s : State) (c gslot : Nat) : Bool := (s.core c).ssh.any (fun e => e.gslot == gslot)

/-- A fence: at cluster scope or wider the L1 writes back for a release and invalidates for an acquire; a release fence of
gang or team scope makes the thread's later writes act as releases (R266). -/
def fenceAct (f : Fields) (s : State) (l : Lane) : Except LaneFail State :=
  let order := f.md.toNat / 2
  let scope := f.slot.toNat
  if (l.thr s).spec && (2 ≤ scope || (hasRel order && s.holdsStore l.core l.gslot)) then .error .stop
  else
    let s := if hasRel order then s.releaseAt l.core (l.team s) scope else s
    let s := if hasRel order && scope < 2 then s.modThr l.core l.slot (fun th => { th with relFence := true }) else s
    .ok (if hasAcq order then s.acquireAt l.core (l.team s) scope else s)

def execFence (f : Fields) (s : State) : Host.Outcome State Fault Refusal :=
  s.execSeq f.guard false (fun s l => seqAct s (fenceAct f s l))

/-- `racq` first has a foreign owner of the line write back, then reads at the slice, then acquires at device scope. -/
def racqAct (f : Fields) (s : State) (l : Lane) : Except LaneFail State := do
  l.check s ([(pSA, .reg true, f.sa)] ++ unlessImm f (pSC, .srcOpt false, f.sc) ++ [(pDST, .load f.ty.isPair, f.dst)])
  let flag ← l.needFlag (f.md.getLsbD 0)
  l.stopIfSpec s
  let ea ← l.address s f 0 false
  let n := elemBytes f.ty
  let (s, t) ← l.reachAligned (s.latch l f) 0 0 ea n { load := true }
  match t with
  | .glob m =>
    let line := m.pa / 64
    let foreign := match Tbl.look s.l2 line with
      | some x => x.owner.isSome && x.owner != some (l.owner s)
      | none => false
    let s := if foreign then s.promote line else s
    let (s, bs) := s.globalLoad (l.via s m.pa) m 1 n false
    let s := s.acquireAt l.core (l.team s) 4
    .ok (s.issue l.core l.slot flag (groupWords f.dst (poisonAll 0 (loadWords f.ty 1 bs))) none)
  | _ => .ok s

def execRacq (f : Fields) (s : State) : Host.Outcome State Fault Refusal :=
  longOp s f (f.md.getLsbD 0) (fun s l => seqAct s (racqAct f s l))

end Sys2Proof.Machine
end

