-- ==== Sys2Proof/Machine/Dist.lean ====
section
/-!
DEFINITION. Distribution registers: their layout and view (R134 to R136), tags and lineage (R137, R138), the condensation
(R140, R141), and the instructions (R144 to R157).
-/
namespace Sys2Proof.Machine

/-! ## The register (R134) -/

structure DReg where
  v : List Nat
  w : List Nat
  tag : Nat
  lin : Nat
  cnd : Bool
  deriving DecidableEq, Repr, Inhabited

def DReg.ofBits (d : BitVec 512) : DReg :=
  let x := d.toNat
  { v := (List.range 8).map (fun i => x / 2 ^ (32 * i) % 2 ^ 32)
    w := (List.range 8).map (fun i => x / 2 ^ (256 + 16 * i) % 2 ^ 16)
    tag := bitsOf x 399 384, lin := bitsOf x 411 400, cnd := bitOf x 412 }

def isNan32 (p : Nat) : Bool := (Fmt.f32.unpack p).isNan

/-- NPT: some point of non-zero weight is a NaN. -/
def DReg.npt (r : DReg) : Bool := (r.w.zip r.v).any (fun p => p.1 ≠ 0 && isNan32 p.2)

def DReg.bits (r : DReg) : BitVec 512 :=
  BitVec.ofNat 512 (
    ((List.range 8).zip r.v).foldl (fun a p => a + p.2 * 2 ^ (32 * p.1)) 0
    + ((List.range 8).zip r.w).foldl (fun a p => a + p.2 * 2 ^ (256 + 16 * p.1)) 0
    + r.tag % 2 ^ 16 * 2 ^ 384 + r.lin % 2 ^ 12 * 2 ^ 400 + b2n r.cnd * 2 ^ 412 + b2n r.npt * 2 ^ 413)

/-! ## Status bits (R142) -/

def dDEP : BitVec 5 := 1
def dLWRAP : BitVec 5 := 2
def dWNORM : BitVec 5 := 4
def dNANP : BitVec 5 := 8
def dCEMP : BitVec 5 := 16

def Thread.orDst (th : Thread) (b : BitVec 5) : Thread := { th with dst := th.dst ||| b }

/-! ## Normalisation (R136) and shares of a total (R140 step 5) -/

/-- Adds 1 to the k indices of largest fraction, lower index first on equal fractions. -/
def giveUnits : Nat → List (Nat × Nat) → List (Nat × Nat)
  | 0, qs => qs
  | k + 1, qs =>
    let best := ((List.range qs.length).zip qs).foldl (fun (b : Option (Nat × Nat)) e => match b with
      | none => some (e.1, e.2.2)
      | some x => if x.2 < e.2.2 then some (e.1, e.2.2) else some x) none
    match best with
    | none => qs
    | some b =>
      giveUnits k (((List.range qs.length).zip qs).map (fun e => if e.1 = b.1 then (e.2.1 + 1, 0) else e.2))

/-- Shares q + 1 of 32,768 from quotients and remainders. -/
def shares (qs : List (Nat × Nat)) : List Nat :=
  (giveUnits (32768 - (qs.map (·.1)).foldl (· + ·) 0) qs).map (·.1)

def total (w : List Nat) : Nat := w.foldl (· + ·) 0

def norm (w : List Nat) (s : Nat) : List Nat :=
  if s = 0 then w.map (fun _ => 4096) else shares (w.map (fun x => (x * 32768 / s, x * 32768 % s)))

/-- The view of R136, and whether it normalised. -/
def DReg.view (r : DReg) : DReg × Bool :=
  let s := total r.w
  if s = 32768 then (r, false) else ({ r with w := norm r.w s }, true)

/-! ## Lineage (R137) -/

def Thread.fresh (th : Thread) : Thread × Nat :=
  let n := th.linctr.toNat
  (if n = 4095 then { th with linctr := 1 }.orDst dLWRAP else { th with linctr := BitVec.ofNat 12 (n + 1) }, n)

/-! ## Condensation (R140, R141) -/

def Fmt.f64 : Fmt := ⟨11, 52⟩

structure Cand where
  w : Nat
  v : Nat
  deriving DecidableEq, Repr, Inhabited

/-- Whether a point sorts strictly before another: by value, zeros equal, NaN above everything. -/
def sortsBefore (a b : Nat) : Bool :=
  let x := Fmt.f32.unpack a
  let y := Fmt.f32.unpack b
  if x.isNan then false else if y.isNan then true else !x.eq y && x.lt y

/-- Inserts after the elements it does not sort before, so equal values keep their order. -/
def insertBy (x : Cand) : List Cand → List Cand
  | [] => [x]
  | y :: r => if sortsBefore x.v y.v then x :: y :: r else y :: insertBy x r

def sortCands (cs : List Cand) : List Cand := (cs.filter (fun c => c.w ≠ 0)).foldl (fun a c => insertBy c a) []

/-- Pairs each sorted candidate with its group: the eighth of 2^30 in which its midpoint lies. -/
def groupCands : Nat → List Cand → List (Nat × Cand)
  | _, [] => []
  | c, x :: r => ((2 * c + x.w) / 2 ^ 28, x) :: groupCands (c + x.w) r

/-- An FP64 pattern of a natural, and of an FP32 pattern. -/
def f64Nat (n : Nat) : Nat := (rndDy .f64 0 false (Dy.ofInt n)).1
def f64Of (p : Nat) : Nat := (convF .f32 .f64 0 p).1

/-- Value of a group (R140 step 4, R141). -/
def groupValue (ms : List Cand) : Nat :=
  let us := ms.map (fun c => Fmt.f32.unpack c.v)
  let pos := us.any (fun u => u.isInf && !u.neg)
  let neg := us.any (fun u => u.isInf && u.neg)
  if us.any FVal.isNan || (pos && neg) then Fmt.f32.nanPat
  else if pos || neg then Fmt.f32.infPat neg
  else
    match ms with
    | [] => 0
    | c :: r =>
      let prod (c : Cand) : Nat := (fMul .f64 0 (f64Nat c.w) (f64Of c.v)).1
      let s := r.foldl (fun a c => (fAdd .f64 0 a (prod c)).1) (prod c)
      let g := total (ms.map (·.w))
      let x := Fmt.f64.unpack s
      (convF .f64 .f32 0 (rndDiv .f64 0 x.neg x.dy (Dy.ofInt g)).1).1

/-- The nearest lower non-empty group's value, or the nearest higher. R140 names the nearest higher for g = 0 alone; an empty group
above it with none lower takes it too, as group 0 has it (DEDUCED, log entry 98). -/
def nearest (vs : List (Option Nat)) (g : Nat) : Nat :=
  match ((vs.take (g + 1)).reverse.find? (·.isSome)).join with
  | some v => v
  | none => (((vs.drop g).find? (·.isSome)).join).getD 0

def condense (cs : List Cand) : List Nat × List Nat :=
  let gs := groupCands 0 (sortCands cs)
  let mem (g : Nat) : List Cand := (gs.filter (fun e => e.1 == g)).map (·.2)
  let groups := (List.range 8).map mem
  let vs : List (Option Nat) := groups.map (fun ms => if ms.isEmpty then none else some (groupValue ms))
  let ws := shares (groups.map (fun ms => let t := total (ms.map (·.w)); (t / 2 ^ 15, t % 2 ^ 15)))
  ((List.range 8).map (nearest vs),
   ((List.range 8).zip ws).map (fun e => if (groups.getD e.1 []).isEmpty then 0 else e.2))

/-! ## Operands -/

def dNum (o : Operand) : Nat :=
  match o with
  | .v n => n.toNat % 16
  | _ => 0

/-- A distribution field with its register below DREGS (R135). -/
def Lane.checkDist (l : Lane) (s : State) (place : Nat) (o : Operand) : Except LaneFail Unit :=
  if dNum o < (l.grid s).dregs then .ok () else .error (.fault (opInfo 2 o.toSpec.toNat place))

/-- The fields in order, as `checkFields` takes them; a distribution field's register must exist too. -/
def Lane.checkDFrom (l : Lane) (s : State) (r : Resv) : List (Nat × OpKind × Operand) → Except LaneFail Unit
  | [] => .ok ()
  | (p, k, o) :: rest => do
    checkFields l r [(p, k, o)]
    if k == .dist then l.checkDist s p o
    l.checkDFrom s (r.after p o) rest

/-- Checks each field in order. -/
def Lane.checkD (l : Lane) (s : State) (ks : List (Nat × OpKind × Operand)) : Except LaneFail Unit := l.checkDFrom s (l.resv s) ks

/-- A distribution source raw, with its data-error fault. -/
def Lane.dRaw (l : Lane) (s : State) (place : Nat) (o : Operand) : Except LaneFail DReg :=
  let th := l.thr s
  if Tbl.at th.dPoison (dNum o) false then .error (dataError o place) else .ok (DReg.ofBits (th.readD (dNum o)))

/-- DREAD: the view, with WNORM set in the lane's result. -/
def Lane.dRead (l : Lane) (s : State) (place : Nat) (o : Operand) (out : LaneOut) : Except LaneFail (DReg × LaneOut) := do
  let r ← l.dRaw s place o
  let v := r.view
  .ok (v.1, if v.2 then { out with th := out.th.orDst dWNORM } else out)

/-- A scalar value operand, read as FP32 (R144). -/
def Lane.dScalar (l : Lane) (s : State) (place : Nat) (o : Operand) : Except LaneFail Nat := l.readF s place o .f32

/-- Writes a distribution register, with NPT and NANP (R141). -/
def LaneOut.putD (o : LaneOut) (d : Operand) (r : DReg) : LaneOut :=
  let th := { o.th.putD (dNum d) r.bits with dPoison := Tbl.drop o.th.dPoison (dNum d) }
  { o with th := if r.npt then th.orDst dNANP else th }

/-- Takes a fresh lineage. -/
def LaneOut.fresh (o : LaneOut) : LaneOut × Nat := let r := o.th.fresh; ({ o with th := r.1 }, r.2)

/-- A distribution instruction on registers. -/
def distOp (s : State) (f : Fields) (ks : List (Nat × OpKind × Operand)) (compute : Lane → LaneOut → Except LaneFail LaneOut) :
    Host.Outcome State Fault Refusal :=
  s.execLanes f.guard f.dst.toSpec.toNat f.readsChannel (fun _ l => do
    l.checkD s ks
    compute l (l.start s f))

/-! ## Making (R146, R147) -/

def execDmake (f : Fields) (s : State) : Host.Outcome State Fault Refusal :=
  distOp s f [(pSA, .vGroup 8, f.sa), (pSB, .vGroup 4, f.sb), (pSC, .src false, f.sc), (pDST, .dist, f.dst)] (fun l o => do
    let vs ← l.readGroup s pSA f.sa 0 8
    let ws ← l.readGroup s pSB f.sb 0 4
    let tag ← l.readWord s pSC f.sc
    let w := ws.flatMap (fun x => [x.toNat % 2 ^ 16, x.toNat / 2 ^ 16])
    let t := tag.toNat % 2 ^ 16
    let o := if total w = 32768 then o else { o with th := o.th.orDst dWNORM }
    let w := if total w = 32768 then w else norm w (total w)
    let r := if t = 0 then (o, 0) else o.fresh
    .ok (r.1.putD f.dst ⟨vs.map (·.toNat), w, t, r.2, false⟩))

def execDconst (f : Fields) (s : State) : Host.Outcome State Fault Refusal :=
  distOp s f [(pDST, .dist, f.dst)] (fun _ o =>
    .ok (o.putD f.dst ⟨(List.range 8).map (fun _ => (f.imm.getD 0).toNat), (List.range 8).map (fun _ => 4096), 0, 0, false⟩))

/-! ## Loading and storing (R148) -/

/-- EA of an image, with every check of both halves made. -/
def distReach (f : Fields) (s : State) (l : Lane) (ea : Nat) (n : Need) : Except LaneFail (State × Target × Target) := do
  let space := f.minor.toNat % 4
  let policy := f.minor.toNat / 4
  if ea % 64 ≠ 0 then .error (Lane.memFault 7 ea space policy 5 n.store false)
  else
    let (s, lo) ← l.reach s space policy 5 ea 32 n
    let (s, hi) ← l.reach s space policy 5 (ea + 32) 32 n
    .ok (s, lo, hi)

def distFields (f : Fields) : List (Nat × OpKind × Operand) :=
  memFields f (f.minor.toNat % 4) true ++ [(pDST, .dist, f.dst)]

/-- `dld` copies bytes 0 to 51, with NPT set from the points as every distribution instruction sets it (R141, log entry 27); an
uncorrectable byte of the image poisons the register. -/
def dldAct (f : Fields) (s : State) (l : Lane) : Except LaneFail State := do
  let policy := f.minor.toNat / 4
  l.checkD s (distFields f)
  let ea ← l.address s f (f.minor.toNat % 4) true
  let (s, lo, hi) ← distReach f (s.latch l f) l ea { load := true }
  let (s, a) := s.memRead l lo ea 32 policy false
  let (s, b) := s.memRead l hi (ea + 32) 32 policy false
  let img := lineOfBytes (((a ++ b).take 52).map (·.1))
  let bad := (a ++ b).any (·.2)
  .ok (s.modThr l.core l.slot (fun th =>
    let u := (({ th := th } : LaneOut).putD f.dst (DReg.ofBits img)).th
    if bad then { u with dPoison := Tbl.put u.dPoison (dNum f.dst) true } else u))

def execDld (f : Fields) (s : State) : Host.Outcome State Fault Refusal :=
  s.execSeq f.guard f.readsChannel (fun s l => seqAct s (dldAct f s l))

/-- A window store of a whole distribution register leaves it clean (R135). -/
def State.cleanImage (s : State) (l : Lane) (t : Target) (ea : Nat) : State :=
  match t with
  | .win => s.modThr l.core l.slot (fun th => th.cleanWin (l.regs s) (l.grid s).dregs ea 64)
  | _ => s

/-- `dst` reads the register raw and writes 52 bytes and 12 zeros. On a speculative path a lane stops before the store
unless both halves find room in the store hold. -/
def dstAct (f : Fields) (s : State) (l : Lane) : Except LaneFail State := do
  let policy := f.minor.toNat / 4
  l.checkD s (distFields f)
  let ea ← l.address s f (f.minor.toNat % 4) true
  if Tbl.at (l.thr s).dPoison (dNum f.dst) false then .error (dataError f.dst pDST)
  else
    let img := lineBytes ((l.thr s).readD (dNum f.dst)) 0 52 ++ List.replicate 12 0
    let (s, lo, hi) ← distReach f (s.latch l f) l ea { store := true }
    let s ← s.memWrite l lo ea policy (img.take 32)
    let s ← s.memWrite l hi (ea + 32) policy (img.drop 32)
    .ok (s.cleanImage l lo ea)

def execDst (f : Fields) (s : State) : Host.Outcome State Fault Refusal :=
  s.execSeq f.guard f.readsChannel (fun s l => seqAct s (dstAct f s l))

/-! ## Pairing (R138, R139) -/

/-- Pairs two registers and combines their points with `op`; the flags of a pair count when its weight is not zero. -/
def pairDist (o : LaneOut) (a b : DReg) (op : Nat → Nat → Nat × BitVec 5) : LaneOut × DReg :=
  let flagsOf (xs : List (Nat × Nat × BitVec 5)) : BitVec 5 :=
    xs.foldl (fun f x => if x.1 = 0 then f else f ||| x.2.2) 0
  if a.tag &&& b.tag ≠ 0 && a.tag = b.tag && a.lin = b.lin then
    let rs := (a.w.zip (a.v.zip b.v)).map (fun p => (p.1, op p.2.1 p.2.2))
    (o.orFlags (flagsOf rs), ⟨rs.map (·.2.1), a.w, a.tag, a.lin, a.cnd⟩)
  else
    let rs := (a.w.zip a.v).flatMap (fun p => (b.w.zip b.v).map (fun q => (p.1 * q.1, op p.2 q.2)))
    let c := condense (rs.map (fun r => ⟨r.1, r.2.1⟩))
    let o := (o.orFlags (flagsOf rs))
    let o := if a.tag &&& b.tag ≠ 0 then { o with th := o.th.orDst dDEP } else o
    let r := o.fresh
    (r.1, ⟨c.1, c.2, a.tag ||| b.tag, r.2, true⟩)

/-- A binary distribution instruction. -/
def distBin (s : State) (f : Fields) (op : Nat → Nat → Nat × BitVec 5) : Host.Outcome State Fault Refusal :=
  distOp s f [(pSA, .dist, f.sa), (pSB, .dist, f.sb), (pDST, .dist, f.dst)] (fun l o => do
    let (a, o) ← l.dRead s pSA f.sa o
    let (b, o) ← l.dRead s pSB f.sb o
    let r := pairDist o a b op
    .ok (r.1.putD f.dst r.2))

def execDadd (f : Fields) (s : State) : Host.Outcome State Fault Refusal := distBin s f (fAdd .f32 f.md.toNat)

def execDsub (f : Fields) (s : State) : Host.Outcome State Fault Refusal := distBin s f (fSub .f32 f.md.toNat)

def execDmul (f : Fields) (s : State) : Host.Outcome State Fault Refusal := distBin s f (fMul .f32 f.md.toNat)

def execDmax (f : Fields) (s : State) : Host.Outcome State Fault Refusal := distBin s f (fMinMax .f32 true)

def execDmin (f : Fields) (s : State) : Host.Outcome State Fault Refusal := distBin s f (fMinMax .f32 false)

def execDfma (f : Fields) (s : State) : Host.Outcome State Fault Refusal :=
  distOp s f [(pSA, .dist, f.sa), (pSB, .src false, f.sb), (pSC, .dist, f.sc), (pDST, .dist, f.dst)] (fun l o => do
    let (a, o) ← l.dRead s pSA f.sa o
    let x ← l.dScalar s pSB f.sb
    let (c, o) ← l.dRead s pSC f.sc o
    let r := pairDist o a c (fun u w => fFma .f32 f.md.toNat u x w)
    .ok (r.1.putD f.dst r.2))

/-! ## Pointwise (R151) -/

def distPoint (s : State) (f : Fields) (op : Nat → Nat → Nat × BitVec 5) : Host.Outcome State Fault Refusal :=
  distOp s f [(pSA, .dist, f.sa), (pSB, .src false, f.sb), (pDST, .dist, f.dst)] (fun l o => do
    let (a, o) ← l.dRead s pSA f.sa o
    let x ← l.dScalar s pSB f.sb
    let rs := (a.w.zip a.v).map (fun p => (p.1, op p.2 x))
    let o := o.orFlags (rs.foldl (fun f r => if r.1 = 0 then f else f ||| r.2.2) 0)
    .ok (o.putD f.dst { a with v := rs.map (·.2.1) }))

def execDscale (f : Fields) (s : State) : Host.Outcome State Fault Refusal := distPoint s f (fMul .f32 f.md.toNat)

def execDoffs (f : Fields) (s : State) : Host.Outcome State Fault Refusal := distPoint s f (fAdd .f32 f.md.toNat)

/-! ## Conditioning and tags (R152, R153) -/

/-- Ordered a ≤ b of FP32 patterns. -/
def le32 (a b : Nat) : Bool :=
  let x := Fmt.f32.unpack a
  let y := Fmt.f32.unpack b
  !x.isNan && !y.isNan && (x.lt y || x.eq y)

/-- NV for signalling NaNs among scalar operands. -/
def sigFlags (ps : List Nat) : BitVec 5 := if ps.any (fun p => (Fmt.f32.unpack p).isSig) then fNV else 0

def execDcond (f : Fields) (s : State) : Host.Outcome State Fault Refusal :=
  distOp s f [(pSA, .dist, f.sa), (pSB, .src false, f.sb), (pSC, .src false, f.sc), (pDST, .dist, f.dst)] (fun l o => do
    let (a, o) ← l.dRead s pSA f.sa o
    let lo ← l.dScalar s pSB f.sb
    let hi ← l.dScalar s pSC f.sc
    let o := o.orFlags (sigFlags [lo, hi])
    let w := (a.w.zip a.v).map (fun p => if p.1 ≠ 0 && le32 lo p.2 && le32 p.2 hi then p.1 else 0)
    if total w = 0 then .ok ({ o with th := o.th.orDst dCEMP }.putD f.dst a)
    else
      let r := o.fresh
      .ok (r.1.putD f.dst { a with w := norm w (total w), lin := r.2 }))

def execDtag (f : Fields) (s : State) : Host.Outcome State Fault Refusal :=
  distOp s f [(pSA, .dist, f.sa), (pSB, .src false, f.sb), (pDST, .dist, f.dst)] (fun l o => do
    let (a, o) ← l.dRead s pSA f.sa o
    let t ← l.readWord s pSB f.sb
    let tag := t.toNat % 2 ^ 16
    let r := if tag = 0 then (o, 0) else o.fresh
    .ok (r.1.putD f.dst { a with tag := tag, lin := r.2 }))

def execDalign (f : Fields) (s : State) : Host.Outcome State Fault Refusal :=
  distOp s f [(pSA, .dist, f.sa), (pSB, .dist, f.sb), (pDST, .dist, f.dst)] (fun l o => do
    let (a, o) ← l.dRead s pSA f.sa o
    let (b, o) ← l.dRead s pSB f.sb o
    .ok (o.putD f.dst ⟨a.v, b.w, b.tag, b.lin, a.cnd⟩))

/-! ## Mixtures (R154) -/

def execDmix (f : Fields) (s : State) : Host.Outcome State Fault Refusal :=
  distOp s f [(pSA, .dist, f.sa), (pSB, .dist, f.sb), (pSC, .src false, f.sc), (pDST, .dist, f.dst)] (fun l o => do
    let (a, o) ← l.dRead s pSA f.sa o
    let (b, o) ← l.dRead s pSB f.sb o
    let alpha ← l.readWord s pSC f.sc
    let k := min alpha.toNat 32768
    let c := condense ((a.w.zip a.v).map (fun p => ⟨p.1 * k, p.2⟩) ++ (b.w.zip b.v).map (fun p => ⟨p.1 * (32768 - k), p.2⟩))
    let r := o.fresh
    .ok (r.1.putD f.dst ⟨c.1, c.2, a.tag ||| b.tag, r.2, true⟩))

/-! ## Extraction (R155 to R157) -/

/-- Points of non-zero weight. -/
def DReg.points (r : DReg) : List Cand := ((r.w.zip r.v).map (fun p => ⟨p.1, p.2⟩)).filter (fun c => c.w ≠ 0)

/-- e^k for k at least 1, each product rounded to FP64. -/
def f64Pow (e : Nat) : Nat → Nat
  | 0 => e
  | n + 1 => (fMul .f64 0 (f64Pow e n) e).1

def moment (k : Nat) (ps : List Cand) : Nat × BitVec 5 :=
  let us := ps.map (fun c => Fmt.f32.unpack c.v)
  let pos := us.any (fun u => u.isInf && !u.neg)
  let neg := us.any (fun u => u.isInf && u.neg)
  if us.any FVal.isNan then (Fmt.f32.nanPat, 0)
  else if k = 1 && pos && neg then (Fmt.f32.nanPat, fNV)
  else if k = 1 && (pos || neg) then (Fmt.f32.infPat neg, 0)
  else if pos || neg then (Fmt.f32.nanPat, fNV)
  else
    let prod (c : Cand) : Nat := (fMul .f64 0 (f64Nat c.w) (f64Of c.v)).1
    let scale (x : Nat) : Nat := let u := Fmt.f64.unpack x; (rndDiv .f64 0 u.neg u.dy (Dy.ofInt 32768)).1
    let mu := match ps with
      | [] => 0
      | c :: r => scale (r.foldl (fun a c => (fAdd .f64 0 a (prod c)).1) (prod c))
    let m := if k = 1 then mu
      else scale (ps.foldl (fun acc c =>
        let e := (fAdd .f64 0 (f64Of c.v) (Fmt.f64.flip mu)).1
        (fAdd .f64 0 acc (fMul .f64 0 (f64Nat c.w) (f64Pow e (k - 1))).1).1) 0)
    convF .f64 .f32 0 m

def execDmom (f : Fields) (s : State) : Host.Outcome State Fault Refusal :=
  distOp s f [(pSA, .dist, f.sa), (pDST, .dst false, f.dst)] (fun l o => do
    let (a, o) ← l.dRead s pSA f.sa o
    let r := moment f.minor.toNat a.points
    .ok ((o.put (l.regs s) f.dst (BitVec.ofNat 32 r.1)).orFlags r.2))

/-- Cumulative weights of a sorted list: each point with the weight before it. -/
def cumulate : Nat → List Cand → List (Nat × Cand)
  | _, [] => []
  | c, x :: r => (c, x) :: cumulate (c + x.w) r

/-- The plain quantile at q·32,768 = t. -/
def quantile (ps : List (Nat × Cand)) (t : Dy) : Nat :=
  match ps.find? (fun p => t.le (Dy.ofInt ((p.1 + p.2.w : Nat) : Int))) with
  | some p => if isNan32 p.2.v then Fmt.f32.nanPat else p.2.v
  | none => 0

/-- The interpolated quantile: `ps` sorted with the weight before each, midpoints doubled (2·C + W). -/
def quantileLin (ps : List (Nat × Cand)) (t : Dy) : Nat × BitVec 5 :=
  let t2 := t.add t
  let mid (p : Nat × Cand) : Dy := Dy.ofInt ((2 * p.1 + p.2.w : Nat) : Int)
  let plain := (quantile ps t, (0 : BitVec 5))
  match ps.head?, ps.getLast? with
  | some first, some last =>
    if t2.le (mid first) then (if isNan32 first.2.v then Fmt.f32.nanPat else first.2.v, 0)
    else if (mid last).le t2 then (if isNan32 last.2.v then Fmt.f32.nanPat else last.2.v, 0)
    else
      match (ps.zip (ps.drop 1)).find? (fun p => (mid p.1).le t2 && t2.lt (mid p.2)) with
      | none => plain
      | some p =>
        let u := Fmt.f32.unpack p.1.2.v
        let v := Fmt.f32.unpack p.2.2.v
        if u.isNan || u.isInf || v.isNan || v.isInf then plain
        else if t2.eq (mid p.1) then (p.1.2.v, 0)
        else
          let d := (mid p.2).sub (mid p.1)
          -- (u·d + (v - u)·(t - c)) / d
          let n := (u.dy.mul d).add ((v.dy.sub u.dy).mul (t2.sub (mid p.1)))
          rndDiv .f32 0 (u.isZero && u.neg && v.isZero && v.neg) n d
  | _, _ => plain

def quantileOf (lin : Bool) (ps : List Cand) (q : Nat) : Nat × BitVec 5 :=
  match Fmt.f32.unpack q with
  | .nan sig => (Fmt.f32.nanPat, if sig then fNV else 0)
  | .inf _ => (Fmt.f32.nanPat, fNV)
  | x =>
    if x.dy.lt .zero || Dy.lt ⟨1, 0⟩ x.dy then (Fmt.f32.nanPat, fNV)
    else
      let t : Dy := x.dy.mul ⟨1, 15⟩
      let c := cumulate 0 (sortCands ps)
      if lin then quantileLin c t else (quantile c t, 0)

def execDqnt (f : Fields) (s : State) : Host.Outcome State Fault Refusal :=
  distOp s f [(pSA, .dist, f.sa), (pSB, .src false, f.sb), (pDST, .dst false, f.dst)] (fun l o => do
    let (a, o) ← l.dRead s pSA f.sa o
    let q ← l.dScalar s pSB f.sb
    let r := quantileOf (f.minor == 1) a.points q
    .ok ((o.put (l.regs s) f.dst (BitVec.ofNat 32 r.1)).orFlags r.2))

def execDcdf (f : Fields) (s : State) : Host.Outcome State Fault Refusal :=
  distOp s f [(pSA, .dist, f.sa), (pSB, .src false, f.sb), (pDST, .dst false, f.dst)] (fun l o => do
    let (a, o) ← l.dRead s pSA f.sa o
    let x ← l.dScalar s pSB f.sb
    let r : Nat × BitVec 5 := match Fmt.f32.unpack x with
      | .nan sig => (Fmt.f32.nanPat, if sig then fNV else 0)
      | _ => rndDy .f32 0 false ⟨(total ((a.points.filter (fun c => le32 c.v x)).map (·.w)) : Nat), -15⟩
    .ok ((o.put (l.regs s) f.dst (BitVec.ofNat 32 r.1)).orFlags r.2))

end Sys2Proof.Machine
end

