-- ==== Sys2Proof/Machine/Agreed.lean ====
section
/-!
DEFINITION. The agreed branch: membership registers and histories (R408 to R410), `cbr` and its run-ahead (R411, R412, R418
to R424), the tally and its resolution (R413 to R417), and `mjoin`, `mleave`, `mvote`, `sfence` (R425 to R428).
-/
namespace Sys2Proof.Machine

/-! ## Membership registers (R408) -/

namespace Mset
def k (m : BitVec 128) : Nat := bitsOf m.toNat 127 104
def grace (m : BitVec 128) : Nat := bitsOf m.toNat 103 88
def dgn (m : BitVec 128) : Nat := bitsOf m.toNat 81 73
def dgbase (m : BitVec 128) : Nat := bitsOf m.toNat 72 64
def gmask (m : BitVec 128) : Word := m.extractLsb' 32 32
def seq (m : BitVec 128) : BitVec 16 := m.extractLsb' 16 16
def vop (m : BitVec 128) : Nat := bitsOf m.toNat 15 14
def defv (m : BitVec 128) : Bool := m.getLsbD 13
def dpol (m : BitVec 128) : Bool := m.getLsbD 12
def valid (m : BitVec 128) : Bool := m.getLsbD 0
/-- The register with SEQ advanced and LRES written. -/
def resolved (m : BitVec 128) (res : Bool) : BitVec 128 :=
  let q : BitVec 128 := BitVec.ofNat 128 ((seq m + 1).toNat * 2 ^ 16 + b2n res * 2 ^ 11)
  (m &&& ~~~(BitVec.ofNat 128 (0xFFFF * 2 ^ 16 + 2 ^ 11))) ||| q
end Mset

def Ctx.msetOf (x : Ctx) (n : Nat) : BitVec 128 := Tbl.at x.mset n 0
/-- A history that nothing has written holds no outcome (log entry 3). -/
def Ctx.moutOf (x : Ctx) (n : Nat) : DWord := Tbl.at x.mout n 0xFFFFFFFFFFFFFFFF

/-- Nibble d of a history; 0xF beyond it. -/
def moutNibble (h : DWord) (d : Nat) : Nat := if d ≤ 15 then bitsOf h.toNat (4 * d + 3) (4 * d) else 15

/-- The outcome held for a sequence already resolved (R410). -/
def Ctx.outcomeOf (x : Ctx) (n : Nat) (q : BitVec 16) : Nat :=
  moutNibble (x.moutOf n) (Mset.seq (x.msetOf n) - 1 - q).toNat

/-! ## A gang's membership state (R409) -/

namespace Gang
def member (g : Gang) (n : Nat) : Bool := g.mj.getLsbD n
def waiting (g : Gang) (n : Nat) : Bool := g.wait.getLsbD n
def seqOf (g : Gang) (n : Nat) : BitVec 16 := Tbl.at g.gseq n 0
def dropOf (g : Gang) (n : Nat) : BitVec 2 := Tbl.at g.drop n 0
def setMember (g : Gang) (n : Nat) (b : Bool) : Gang :=
  { g with mj := if b then g.mj ||| onesAt 16 n 1 else g.mj &&& ~~~(onesAt 16 n 1) }
/-- Sets or clears WAIT bit n; either way no vote of the register is void any more. -/
def setWait (g : Gang) (n : Nat) (b : Bool) : Gang :=
  { g with
    wait := if b then g.wait ||| onesAt 16 n 1 else g.wait &&& ~~~(onesAt 16 n 1)
    voided := g.voided &&& ~~~(onesAt 16 n 1) }
def setSeq (g : Gang) (n : Nat) (q : BitVec 16) : Gang := { g with gseq := Tbl.put g.gseq n q }
def setDrop (g : Gang) (n : Nat) (d : BitVec 2) : Gang := { g with drop := Tbl.put g.drop n d }
/-- A `sysw` of register n ends sequence q: a member that voted in it, and is not there to take the fault now, takes it where it
next comes for the outcome (R408). -/
def voidVote (g : Gang) (n : Nat) (q : BitVec 16) : Gang :=
  if g.member n && g.waiting n && g.seqOf n - 1 == q && !(g.spec.any (fun x => x.reg == n && x.seq == q)) then
    { g with voided := g.voided ||| onesAt 16 n 1 }
  else g
end Gang

/-- CATCHUP of R410. A history holds sixteen outcomes, so seventeen turns are enough. -/
def catchup (x : Ctx) (n : Nat) : Nat → Gang → Gang
  | 0, g => g
  | k + 1, g =>
    let ahead := (Mset.seq (x.msetOf n) - g.seqOf n).toNat
    if g.member n && !g.waiting n && 1 ≤ ahead && ahead ≤ 2 ^ 15 then
      match x.outcomeOf n (g.seqOf n) with
      | 0 => (g.setMember n false).setDrop n 1
      | 1 => (g.setMember n false).setDrop n 2
      | 2 | 3 => catchup x n k (g.setSeq n (g.seqOf n + 1))
      | _ => (g.setMember n false).setDrop n 3
    else g

/-- FINFO of a membership fault (R429). -/
def memberInfo (q : BitVec 16) (res : Bool) (n cause : Nat) : FaultInfo :=
  ⟨0x16, BitVec.ofNat 32 (q.toNat * 2 ^ 16 + b2n res * 2 ^ 15 + n * 16 + cause), 0⟩

/-- Whether the device stands in a valid rank-table entry of a register's group (R412). -/
def State.inGroup (s : State) (x : Ctx) (m : BitVec 128) : Bool :=
  (List.range (Mset.dgn m + 1)).any (fun i =>
    let e := Tbl.at x.ranks (Mset.dgbase m + i) 0
    e.getLsbD 31 && e.extractLsb' 20 9 == s.devId)

/-- What the checks of R412 come to. -/
inductive Verdict where
  | fault (i : FaultInfo)
  | result (r : Bool)
  | waits
  | casts
  deriving DecidableEq, Repr, Inhabited

/-- Takes the outcome of the sequence a gang voted in (OUTCOME of R410). A gang whose outcome is not held is no member from then on,
as R429 says of it (log entry 95). -/
def takeOutcome (x : Ctx) (n : Nat) (g : Gang) : Gang × Verdict :=
  let q := g.seqOf n - 1
  let g' := g.setWait n false
  match x.outcomeOf n q with
  | 0 => (g', .result false)
  | 1 => (g', .result true)
  | 2 => (g', .fault (memberInfo q false n 5))
  | 3 => (g', .fault (memberInfo q false n 3))
  | _ => (g'.setMember n false, .fault (memberInfo q false n 7))

/-- The checks of R412 on a gang that has caught up; `op` is the operator `cbr` names. A vote that a `sysw` made void faults first
(R408). -/
def State.voteCheck (s : State) (x : Ctx) (n : Nat) (op : Option Nat) (g : Gang) : Gang × Verdict :=
  let m := x.msetOf n
  let q := g.seqOf n
  if g.voided.getLsbD n then (g.setWait n false, .fault (memberInfo (q - 1) false n 3))
  else if !Mset.valid m then (g, .fault (memberInfo q false n 0))
  else if (match op with | some o => o != Mset.vop m | none => false) then (g, .fault (memberInfo q false n 1))
  else if g.dropOf n != 0 then
    (g.setDrop n 0, .fault (memberInfo q (g.dropOf n == 2) n (if g.dropOf n == 3 then 7 else 6)))
  else if !g.member n then (g, .fault (memberInfo q false n 2))
  else if !s.inGroup x m then (g, .fault (memberInfo q false n 4))
  else if g.waiting n then
    if Mset.seq m == q - 1 then (g, .waits) else takeOutcome x n g
  else (g, .casts)

/-- A vote joins the open sequence of its register (R414). -/
def State.castVote (s : State) (ctx n : Nat) (q : BitVec 16) (v : Bool) : State :=
  s.modCtx ctx (fun x =>
    if x.openSeqs.any (fun o => o.reg == n && o.seq == q) then
      { x with openSeqs := x.openSeqs.map (fun o =>
          if o.reg == n && o.seq == q && !o.closed then { o with t := o.t + b2n v, v := o.v + 1 } else o) }
    else { x with openSeqs := x.openSeqs ++ [⟨n, q, b2n v, 1, false, s.timebase⟩] })

/-! ## cbr (R411, R412, R418) -/

/-- Where a gang executes its `cbr`: register, clause, index and successors. -/
structure CbrSite where
  reg : Nat
  clause : DWord
  idx : Nat
  target : DWord
  ft : DWord
  deriving DecidableEq, Repr, Inhabited

/-- Gives lanes a successor. -/
def State.succeedAll (s : State) (c : Nat) (ks : List Nat) (a : DWord) : State :=
  ks.foldl (fun s k => s.modThr c k (fun th => { th with pos := entryPos a })) s

/-- Lanes wait at the `cbr` for the result. -/
def State.holdForVote (s : State) (c gs : Nat) (ks : List Nat) (x : CbrSite) (q : BitVec 16) : State :=
  let s := s.modGang c gs (fun g => { g with votes := g.votes ++ [⟨x.reg, q, ks, x.target, x.ft, x.clause, x.idx, none⟩] })
  ks.foldl (fun s k => s.modThr c k (fun th => { th with pos := posAt x.clause x.idx, place := .vote })) s

/-- A gang starts to run ahead in a direction: the snapshot is taken, and its lanes speculate (R418, R420). -/
def State.runAhead (s : State) (c gs : Nat) (ks : List Nat) (x : CbrSite) (q : BitVec 16) (dir : Bool) : State :=
  let g := s.gang c gs
  let snap : GangSpec :=
    { reg := x.reg, seq := q, dir := dir, lanes := ks, target := x.target, ft := x.ft, clause := x.clause, idx := x.idx,
      snap := ks.map (fun k => (k, s.thr c k)), snapG := g.g, snapTw := g.tw }
  let s := s.setGang c gs { g with spec := some snap }
  let s := ks.foldl (fun s k => s.modThr c k (fun th =>
    { th with spec := true, ncl := 0, specReg := x.reg, stopped := false, heldFault := none, heldBeats := 0 })) s
  s.succeedAll c ks (if dir then x.target else x.ft)

/-- The check of both successors, the target first (R412). -/
def checkBoth (x : CbrSite) : Option LaneFail :=
  match checkSuccessor x.target with
  | .error e => some e
  | .ok _ => match checkSuccessor x.ft with
    | .error e => some e
    | .ok _ => none

/-- A gang no lane of which executes the `cbr`: it casts DEFV when it passes every check with no vote outstanding. -/
def State.castDefault (s : State) (c gs ctx n op : Nat) : State :=
  let x := s.ctx ctx
  let g := catchup x n 17 (s.gang c gs)
  match s.voteCheck x n (some op) g with
  | (_, .casts) =>
    (s.setGang c gs (g.setSeq n (g.seqOf n + 1))).castVote ctx n (g.seqOf n) (Mset.defv (x.msetOf n))
  | _ => s.setGang c gs g

/-- A gang's `cbr` for its executing lanes: the fault all of them take, if any. `vote` is SA of the lowest lane. A gang that
already runs ahead waits for its result (log entry 20). -/
def State.cbrGang (s : State) (c gs ctx op : Nat) (ks : List Nat) (x : CbrSite) (vote : Bool) (prd : Nat) :
    State × Option LaneFail :=
  match checkBoth x with
  | some e => (s, some e)
  | none =>
    let y := s.ctx ctx
    match s.voteCheck y x.reg (some op) (catchup y x.reg 17 (s.gang c gs)) with
    | (g, .fault i) => (s.setGang c gs g, some (.fault i))
    | (g, .result r) => ((s.setGang c gs g).succeedAll c ks (if r then x.target else x.ft), none)
    | (g, .waits) => ((s.setGang c gs g).holdForVote c gs ks x (g.seqOf x.reg - 1), none)
    | (g, .casts) =>
      let q := g.seqOf x.reg
      let s := (s.setGang c gs ((g.setSeq x.reg (q + 1)).setWait x.reg true)).castVote ctx x.reg q vote
      if prd == 3 || g.spec.isSome then (s.holdForVote c gs ks x q, none)
      else (s.runAhead c gs ks x q (if prd == 0 then vote else prd == 1), none)

def execCbr (f : Fields) (e : CbrExt) (s : State) : Host.Outcome State Fault Refusal :=
  match s.curPass with
  | none => .fault .noPass
  | some (c, p, x) =>
    let bad : List (Nat × LaneFail) := x.slots.filterMap (fun k =>
      match (x.lane c k).check s [(pSA, .pred, f.sa)] with
      | .error e => some (k, e)
      | .ok _ => if (s.thr c k).spec then some (k, .stop) else none)
    let live := x.slots.filter (fun k => !bad.any (fun b => b.1 == k))
    let site : CbrSite := ⟨e.reg.toNat, x.clause, x.idx, directTarget x.clause e.off, fallThrough x.clause x.body⟩
    let op := f.minor.toNat % 4
    let r := (gangsOf live).foldl (fun (a : State × List (Nat × LaneFail)) gs =>
      let ks := live.filter (fun k => k / 32 == gs)
      let ex := ks.filter (fun k => (s.thr c k).holds f.guard)
      let ctx := (s.gangGrid c gs).ctx
      let t := a.1.succeedAll c (ks.filter (fun k => !ex.contains k)) site.ft
      match ex with
      | [] => (t.castDefault c gs ctx site.reg op, a.2)
      | k :: _ =>
        match t.cbrGang c gs ctx op ex site ((s.thr c k).readPred f.sa) e.prd.toNat with
        | (t, none) => (t, a.2)
        | (t, some e) => (t, a.2 ++ ex.map (fun k => (k, e)))) (s, bad)
    let y := x.without (r.2.map (·.1))
    .next ((r.1.leave c x r.2).endPass c p y)

/-! ## Resolution (R413, R415, R416, R423) -/

/-- Keys of the resident gangs of a context. -/
def State.ctxGangs (s : State) (ctx : Nat) : List Nat :=
  (s.gangs.filter (fun e => (s.grid (s.team e.2.team).grid).ctx == ctx)).map (·.1)

/-- Changes a thread and, when its gang runs ahead, the copy of it in the snapshot: for what was begun before the run-ahead. -/
def State.modThrBoth (s : State) (c k : Nat) (h : Thread → Thread) : State :=
  let s := s.modThr c k h
  s.modGang c (k / 32) (fun g => match g.spec with
    | none => g
    | some x => { g with spec := some { x with snap := Tbl.adjust x.snap k h } })

/-- Adds beats on a core and clears the watchdog on every core of the context (R218, R344). -/
def State.addBeats (s : State) (c ctx n : Nat) : State :=
  let s := s.modCore c (fun k => { k with beatAcc := k.beatAcc + n })
  let s := s.modCtx ctx (fun x => { x with savedWd := 0 })
  { s with cores := s.cores.map (fun e => if e.2.ctx == some ctx || e.1 == c then (e.1, { e.2 with wd := 0 }) else e) }

/-- The slots of a gang's lanes that speculate. -/
def State.specLanes (s : State) (c gs : Nat) : List Nat :=
  ((List.range 32).map (32 * gs + ·)).filter (fun k => (s.thr c k).spec)

/-- Performs a held store byte by byte. -/
def State.performHeld (s : State) (c gs : Nat) (e : SshEntry) : State :=
  let t := s.gangTeam c gs
  let rel := ((List.range 32).map (32 * gs + ·)).any (fun k => (s.thr c k).relFence)
  (List.range 32).foldl (fun s i =>
    if !e.mask.getLsbD i then s
    else
      let b : Byte := e.data.extractLsb' (8 * i) 8
      if e.space == 0 then
        let pa := 32 * e.block + i
        let v : Via := ⟨c, s.l1Core c t pa, (s.grid t.grid).ctx⟩
        let owner := if (s.grid t.grid).paired then t.core else c
        let s := if rel then s.yieldTag (pa / 64) owner else s
        let s := (s.globalStore v ⟨pa, e.key, 15, 7, 12, 12⟩ (b2n e.byp) [b]).markVisible t.grid
        if rel then s.tagOwner (pa / 64) owner else s
      else s.modTeam (s.gang c gs).team (fun t => t.setSpad (32 * e.block + i) [b])) s

/-- Leaves speculation: the marks of a lane clear. -/
def Thread.endSpec (th : Thread) : Thread :=
  { th with spec := false, ncl := 0, specReg := 0, stopped := false, heldFault := none, heldBeats := 0 }

/-- The commit of R423. -/
def State.commitSpec (s : State) (c gs : Nat) (x : GangSpec) : State :=
  let lanes := s.specLanes c gs
  let ctx := (s.gangGrid c gs).ctx
  let beats := lanes.foldl (fun n k => n + (s.thr c k).heldBeats) 0
  let s := s.modGang c gs (fun g => { (g.setWait x.reg false) with spec := none })
  let s := if beats = 0 then s else (s.addBeats c ctx beats).markVisible (s.gangTeam c gs).grid
  let held := (s.core c).ssh.filter (fun e => e.gslot == gs)
  let s := s.modCore c (fun k => { k with ssh := k.ssh.filter (fun e => e.gslot != gs) })
  let s := held.foldl (fun s e => s.performHeld c gs e) s
  let pass := s.ids
  let s := { s with ids := s.ids + 1 }
  lanes.foldl (fun s k =>
    let th := s.thr c k
    let s := s.setThr c k th.endSpec
    match th.heldFault with
    | some i => s.deliver c k th.pos pass i
    | none => if th.stopped then s.place c k else s) s

/-- Takes lanes out of whatever pass, entry or record holds them. A pass that no lane is left in ends: what it reserved and is to
close is settled (R178, R194). -/
def State.withdraw (s : State) (c : Nat) (ks : List Nat) : State :=
  let ended := (Tbl.vals (s.core c).pipes).filter (fun x => (x.without ks).slots.isEmpty)
  let s := ended.foldl (fun s x => (s.finishResv c x).closeChans c x) s
  let s := s.modCore c (fun x => { x with
    pipes := (x.pipes.map (fun e => (e.1, e.2.without ks))).filter (fun e => !e.2.slots.isEmpty) })
  ks.foldl (fun s k => s.unplace c k) s

/-- The squash of R423, once no speculative operation of the gang is outstanding: the snapshot returns but for the flags, the
barrier arrivals that completions have cleared (R197), and what ended meanwhile, and the lanes go to the other successor or take
the membership fault. A halt squashes with 4: the lanes return to the `cbr` with the vote outstanding (R431). -/
def State.squashSpec (s : State) (c gs : Nat) (x : GangSpec) (o : Nat) : State :=
  let lanes := s.specLanes c gs
  let s := s.withdraw c lanes
  let s := s.modCore c (fun k => { k with ssh := k.ssh.filter (fun e => e.gslot != gs) })
  let s := s.modGang c gs (fun g => { (g.setWait x.reg (o == 4)) with spec := none, g := x.snapG, tw := x.snapTw })
  let s := x.lanes.foldl (fun s k =>
    let th := s.thr c k
    let old := Tbl.at x.snap k th
    s.setThr c k { old.endSpec.leavePass with flags := th.flags, exited := th.exited, barArrived := th.barArrived, place := .out }) s
  x.lanes.foldl (fun s k =>
    if o ≤ 1 then
      (s.modThr c k (fun th => { th with pos := entryPos (if o = 1 then x.target else x.ft) })).place c k
    else if o = 4 then (s.modThr c k (fun th => { th with pos := posAt x.clause x.idx })).place c k
    else s.deliver c k (posAt x.clause x.idx) 0 (memberInfo x.seq false x.reg (if o = 2 then 5 else 3))) s

/-- Lanes that waited for a `cbr` take its outcome. -/
def State.endCbrWait (s : State) (c : Nat) (w : VoteWait) (o : Nat) : State :=
  (w.lanes.filter (fun k => (s.thr c k).place == .vote)).foldl (fun s k =>
    if o ≤ 1 then (s.modThr c k (fun th => { th with pos := entryPos (if o = 1 then w.target else w.ft) })).place c k
    else s.deliver c k (posAt w.clause w.idx) 0 (memberInfo w.seq false w.reg (if o = 2 then 5 else 3))) s

/-- Lanes of an `mvote` receive the word, or keep the fault for the header that waits on the flag (R427). -/
def State.endMvote (s : State) (c gs : Nat) (w : VoteWait) (dst : Option Nat) (flag o t : Nat) : State :=
  let regs := regsOf (s.gangGrid c gs) (s.gang c gs).num
  w.lanes.foldl (fun s k =>
    let s := s.modThr c k (fun th => th.setFlag flag (th.flag flag - 1))
    if o ≤ 1 then
      match dst with
      | some n => s.modThrBoth c k (fun th => th.putV regs n (BitVec.ofNat 32 (o + 2 ^ 8 * min t (2 ^ 24 - 1))) false)
      | none => s
    else s.modThrBoth c k (fun th =>
      { th with flagFault := Tbl.put th.flagFault flag (memberInfo w.seq false w.reg (if o = 2 then 5 else 3)) })) s

/-- A resident gang takes a resolution of register n, sequence q, outcome o. -/
def State.resolveGang (s : State) (key n : Nat) (q : BitVec 16) (o t : Nat) : State :=
  let c := key / 64
  let gs := key % 64
  let g := s.gang c gs
  let mine := g.votes.filter (fun w => w.reg == n && w.seq == q)
  let s := s.setGang c gs { g with votes := g.votes.filter (fun w => !(w.reg == n && w.seq == q)) }
  let s := if mine.isEmpty then s else s.modGang c gs (fun g => g.setWait n false)
  let s := mine.foldl (fun s w => match w.mvote with
    | none => s.endCbrWait c w o
    | some m => s.endMvote c gs w m.1 m.2 o t) s
  let s := match g.spec with
    | some x =>
      if x.reg == n && x.seq == q then
        if o ≤ 1 && x.dir == (o == 1) then s.commitSpec c gs x
        else { s.modGang c gs (fun g => { g with spec := some { x with squash := some o } }) with
          agenda := .event (.specSquash c gs) :: s.agenda }
      else s
    | none => s
  s.modGang c gs (catchup (s.ctx (s.gangGrid c gs).ctx) n 17)

/-- The result of R413, or 2 aborted, 3 mismatch. -/
def resolveReport (m : BitVec 128) (r : SeqReport) : Nat :=
  if r.mismatch then 3
  else if r.aborted then 2
  else
    match Mset.vop m with
    | 0 => b2n (1 ≤ r.t)
    | 1 => b2n (r.t == r.v)
    | _ => b2n (Mset.k m ≤ r.t)

/-- The lowest port that is up, from a first choice (R414). -/
def State.votePort (s : State) (h : Nat) : Nat :=
  if s.portsUp.getLsbD h then h else ((List.range 32).find? (fun p => s.portsUp.getLsbD p)).getD h

/-- The answer to a message addressed to a context that has moved: its new place stands in XTRA, and its data name the message (R389,
log entry 23). -/
def redirectMsg (s : State) (ddev : BitVec 9) (tag : Word) (kind chunk seg : Nat) (p : Nat × Nat) : Msg :=
  { kind := 4, sdev := s.devId, ddev := ddev, dctx := 0, chunk := 0, tag := tag
    xtra := BitVec.ofNat 32 (p.1 % 512 + 2 ^ 16 * (p.2 % 4096)), data := [kind, chunk, seg].flatMap (leBytes 8) }

/-- A switch's vote result or merged count that comes for a context which has moved is answered so (R389). -/
def State.redirectSwitch (s : State) (kind tag : Nat) (p : Nat × Nat) : State :=
  { s with outbox := s.outbox ++ [(s.votePort 0, redirectMsg s 0x1FF (BitVec.ofNat 32 tag) kind 0 0 p)] }

/-- The summed report reaches the device: SEQ, LRES and MOUT change in one step, and every resident gang takes the outcome. One for
another sequence than the register resolves next came before, and is discarded (R388; log entry 23). For a
context that has moved it is turned away (R389); for one not enabled here yet it is held (R390). -/
def execSequenceResolution (ctx reg : Nat) (r : SeqReport) (s : State) : Host.Outcome State Fault Refusal :=
  let x := s.ctx ctx
  let m := x.msetOf reg
  let q := Mset.seq m
  let o := resolveReport m r
  match x.movedTo, x.arriving with
  | some p, _ => .next (s.redirectSwitch 0x0A (reg * 2 ^ 16 + r.seq.toNat) p)
  | none, true => .next (s.holdMsg ctx (.sequenceResolution ctx reg r))
  | none, false =>
    if r.seq != q then .next s
    else
    let s := s.setCtx ctx { x with
      mset := Tbl.put x.mset reg (Mset.resolved m (if o ≤ 1 then o == 1 else Mset.defv m))
      mout := Tbl.put x.mout reg ((x.moutOf reg <<< 4) ||| BitVec.ofNat 64 o)
      openSeqs := x.openSeqs.filter (fun e => !(e.reg == reg && e.seq == q)) }
    .next ((s.ctxGangs ctx).foldl (fun s k => s.resolveGang k reg q o r.t) s)

/-- A wrong run-ahead is undone once its operations have completed. -/
def execSpecSquash (core gslot : Nat) (s : State) : Host.Outcome State Fault Refusal :=
  match (s.gang core gslot).spec with
  | none => .next s
  | some x =>
    match x.squash with
    | none => .next s
    | some o =>
      match (s.core core).pending.find? (fun op => op.slot / 32 == gslot && op.spec) with
      | some op => .next { s with agenda := .event (.longLatencyComplete core op.slot op.id 0) :: .event (.specSquash core gslot) :: s.agenda }
      | none => .next ((s.squashSpec core gslot x o).tidy core)

/-! ## The tally (R414, R415) -/

/-- Whether a gang is a member that is to vote in a sequence: once it has taken the outcomes resolved so far, as CATCHUP does at the
latest when it comes back (R410). -/
def Gang.owes (g : Gang) (x : Ctx) (n : Nat) (q : BitVec 16) : Bool :=
  let g := catchup x n 17 (g.setWait n false)
  g.member n && g.seqOf n == q

/-- Members of a register on this device that have not voted in a sequence, saved gangs among them. -/
def State.lateMembers (s : State) (ctx n : Nat) (q : BitVec 16) : Nat :=
  let late (g : Gang) : Bool := g.owes (s.ctx ctx) n q
  ((s.ctxGangs ctx).filter (fun k => late (s.gang (k / 64) (k % 64)))).length
    + (((s.ctx ctx).saved.flatMap (fun t => t.gangs)).filter late).length

/-- Vote message of a device (R387, R414): TAG is n and SEQ; the data carry T, V, the static fields and the flags,
abort in bit 0 and dead in bit 1. -/
def voteMsg (s : State) (n : Nat) (q : BitVec 16) (m : BitVec 128) (t v : Nat) (abort dead : Bool) : Msg :=
  { kind := 0x0A, sdev := s.devId, ddev := 0x1FF, dctx := 0, chunk := 0, tag := BitVec.ofNat 32 (n * 2 ^ 16 + q.toNat), xtra := 0
    data := leBytes 4 t ++ leBytes 4 v ++ leBytes 16 m.toNat ++ [BitVec.ofNat 8 (b2n abort + 2 * b2n dead)] }

/-- A device's report of a sequence: the vote message; a group of one device resolves at once. -/
def State.report (s : State) (ctx n : Nat) (o : OpenSeq) (abort dead : Bool) : State :=
  let x := s.ctx ctx
  let m := x.msetOf n
  let s := s.setCtx ctx { x with
    openSeqs := x.openSeqs.filter (fun e => !(e.reg == n && e.seq == o.seq)) ++ [{ o with closed := true }]
    lastV := Tbl.put x.lastV n o.v }
  if Mset.dgn m == 0 then
    { s with agenda := .event (.sequenceResolution ctx n ⟨o.t, o.v, false, abort, o.seq⟩) :: s.agenda }
  else
    { s with outbox := s.outbox ++ [(s.votePort ((n + o.seq.toNat) % 32), voteMsg s n o.seq m o.t o.v abort dead)] }

/-- The open tally of the sequence a register resolves next. -/
def State.openTally (s : State) (ctx reg : Nat) : Option OpenSeq :=
  (s.ctx ctx).openSeqs.find? (fun o => o.reg == reg && o.seq == Mset.seq ((s.ctx ctx).msetOf reg) && !o.closed)

def execTallyClose (ctx reg : Nat) (s : State) : Host.Outcome State Fault Refusal :=
  match s.openTally ctx reg with
  | none => .next s
  | some o => if s.lateMembers ctx reg o.seq = 0 then .next (s.report ctx reg o false false) else .next s

/-- What a device whose context is stopped counts with in the sequence a register resolves next: V′ votes of DEFV, V′ the V of its
last report; none when it has reported on the sequence, or when no other device is in the group and no vote was cast (R415). -/
def State.deadReport (s : State) (ctx reg : Nat) : Option OpenSeq :=
  let x := s.ctx ctx
  let m := x.msetOf reg
  let opens := x.openSeqs.filter (fun o => o.reg == reg && o.seq == Mset.seq m)
  let v := Tbl.at x.lastV reg 0
  if x.run != .stopped || !Mset.valid m || opens.any (·.closed) || (if Mset.dgn m = 0 then opens.isEmpty else !s.inGroup x m) then none
  else some ⟨reg, Mset.seq m, v * b2n (Mset.defv m), v, false, s.timebase⟩

/-- The tally whose GRACE runs out: the open one; on a device of a larger group none of whose members has voted, a new one
(R415). -/
def State.graceTally (s : State) (ctx reg : Nat) : Option OpenSeq :=
  let m := (s.ctx ctx).msetOf reg
  match s.openTally ctx reg with
  | some o => some o
  | none =>
    if Mset.valid m && Mset.dgn m != 0 && !(s.ctx ctx).openSeqs.any (fun o => o.reg == reg && o.seq == Mset.seq m) then
      some ⟨reg, Mset.seq m, 0, 0, false, s.timebase - 1000 * Mset.grace m⟩
    else none

/-- GRACE runs out: late members count as DEFV, or the sequence aborts. On a device whose context is stopped every member is late at
once; one without a late member aborts nothing, and reports what its members have voted (R415). -/
def execGraceExpire (ctx reg : Nat) (s : State) : Host.Outcome State Fault Refusal :=
  let m := (s.ctx ctx).msetOf reg
  match s.deadReport ctx reg with
  | some o =>
    if !Mset.dpol m then .next (s.report ctx reg o false true)
    else if s.lateMembers ctx reg o.seq = 0 then .next (s.report ctx reg ((s.openTally ctx reg).getD { o with t := 0, v := 0 }) false true)
    else .next (s.report ctx reg o true true)
  | none =>
    match s.graceTally ctx reg with
    | none => .next s
    | some o =>
      let s := s.toTime (1000 * (o.since + 1000 * Mset.grace m))
      let late := s.lateMembers ctx reg o.seq
      if late = 0 then .next (s.report ctx reg o false false)
      else if Mset.dpol m then .next (s.report ctx reg o true false)
      else .next (s.report ctx reg { o with t := o.t + late * b2n (Mset.defv m), v := o.v + late } false false)

/-- The first vote of the sequence a register resolves next was cast somewhere in the group at a time: the tally opens on this
device, and GRACE runs from then (R415). -/
def State.groupVote (s : State) (ctx reg at' : Nat) : State :=
  let q := Mset.seq ((s.ctx ctx).msetOf reg)
  let first := min at' s.timebase
  s.modCtx ctx (fun x =>
    if x.openSeqs.any (fun o => o.reg == reg && o.seq == q) then
      { x with openSeqs := x.openSeqs.map (fun o => if o.reg == reg && o.seq == q then { o with since := min o.since first } else o) }
    else { x with openSeqs := x.openSeqs ++ [⟨reg, q, 0, 0, false, first⟩] })

/-! ## mjoin, mleave, mvote, sfence (R425 to R428) -/

/-- An instruction that changes gang state once for the gang: CONV = 0 faults each executing lane. FINFO names the DST field, 0x1FF where
the instruction has no destination (DESIGN CHOICE, log entry 110). -/
def gangOp (s : State) (f : Fields) (act : State → Lane → State) : Host.Outcome State Fault Refusal :=
  s.execSeq f.guard false (fun s l =>
    if !Hdr.conv l.hdr then (s, some (.fault (opInfo 0x11 f.dst.toSpec.toNat pDST)))
    else if (l.thr s).spec then (s, some .stop)
    else (act s l, none))

def execMjoin (f : Fields) (s : State) : Host.Outcome State Fault Refusal :=
  let n := f.minor.toNat
  gangOp s f (fun s l =>
    let x := s.ctx (l.ctxId s)
    let q := Mset.seq (x.msetOf n)
    let voted := x.openSeqs.any (fun o => o.reg == n && o.seq == q && 0 < o.v)
    s.modGang l.core l.gslot (fun g =>
      if g.member n then g
      else (((g.setMember n true).setWait n false).setDrop n 0).setSeq n (if voted then q + 1 else q)))

def execMleave (f : Fields) (s : State) : Host.Outcome State Fault Refusal :=
  gangOp s f (fun s l => s.modGang l.core l.gslot (fun g => g.setMember f.minor.toNat false))

def execSfence (f : Fields) (s : State) : Host.Outcome State Fault Refusal :=
  s.execSeq f.guard false (fun s l => if (l.thr s).spec then (s, some .stop) else (s, none))

/-- The destination register of an `mvote`. -/
def mvoteDst (o : Operand) : Option Nat :=
  match o with
  | .v n => some n.toNat
  | _ => none

/-- The checks of an `mvote` in a lane. -/
def mvoteLane (f : Fields) (s : State) (l : Lane) : Except LaneFail Nat := do
  l.check s [(pSA, .pred, f.sa), (pDST, .vOnly, f.dst)]
  let flag ← l.needFlag (f.md.getLsbD 0)
  if !Hdr.conv l.hdr then .error (.fault (opInfo 0x11 f.dst.toSpec.toNat pDST))
  else
    l.stopIfSpec s
    .ok flag

/-- A gang's `mvote` for its executing lanes. -/
def State.mvoteGang (s : State) (f : Fields) (c gs n flag : Nat) (ks : List Nat) (vote : Bool) : State × Option LaneFail :=
  let ctx := (s.gangGrid c gs).ctx
  let y := s.ctx ctx
  let wait (s : State) (q : BitVec 16) : State :=
    let s := s.modGang c gs (fun g => { g with votes := g.votes ++ [⟨n, q, ks, 0, 0, 0, 0, some (mvoteDst f.dst, flag)⟩] })
    ks.foldl (fun s k => s.modThr c k (fun th => th.setFlag flag (th.flag flag + 1))) s
  match s.voteCheck y n none (catchup y n 17 (s.gang c gs)) with
  | (g, .fault i) => (s.setGang c gs g, some (.fault i))
  | (g, .result r) =>
    (ks.foldl (fun s k => s.issue c k flag (groupWords f.dst [(BitVec.ofNat 32 (b2n r), false)]) none) (s.setGang c gs g), none)
  | (g, .waits) => (wait (s.setGang c gs g) (g.seqOf n - 1), none)
  | (g, .casts) =>
    let q := g.seqOf n
    (wait ((s.setGang c gs ((g.setSeq n (q + 1)).setWait n true)).castVote ctx n q vote) q, none)

/-- `mvote` acts once for each gang. A lane whose flag stands at its greatest value stalls the pass. -/
def execMvote (f : Fields) (s : State) : Host.Outcome State Fault Refusal :=
  match s.curPass, s.fullFlag f.guard (f.md.getLsbD 0) with
  | none, _ => .fault .noPass
  | some _, some (c, k, n) =>
    match (s.core c).pending.find? (fun op => op.slot == k && op.flag == n) with
    | some op => s.waitFor (.longLatencyComplete c k op.id 0)
    | none => .next s.stall
  | some (c, p, x), none =>
    let ex := s.executing c x f.guard
    let chk := ex.map (fun k => (k, mvoteLane f s (x.lane c k)))
    let bad : List (Nat × LaneFail) := chk.filterMap (fun e => match e.2 with | .error r => some (e.1, r) | .ok _ => none)
    let ok := chk.filterMap (fun e => match e.2 with | .ok n => some (e.1, n) | .error _ => none)
    let r := (gangsOf (ok.map (·.1))).foldl (fun (a : State × List (Nat × LaneFail)) gs =>
      match ok.filter (fun e => e.1 / 32 == gs) with
      | [] => a
      | e :: es =>
        let ks := e.1 :: es.map (·.1)
        match a.1.mvoteGang f c gs f.minor.toNat e.2 ks ((s.thr c e.1).readPred f.sa) with
        | (t, none) => (t, a.2)
        | (t, some q) => (t, a.2 ++ ks.map (fun k => (k, q)))) (s, bad)
    .next (r.1.afterInstr c p x r.2)

end Sys2Proof.Machine
end

