-- ==== Sys2Proof/Machine/LoopCtl.lean ====
section
/-!
DEFINITION. The progress loop: the loop state and its image (R221), the ladder (R222, R223), the checks of a configuration
(R221, R230), the step (R224), the allocation pass (R218, R220, R227, R228), lent ways (R251 to R253), clock
steps (R328, R329), the beat group (R406), enabling (R438) and the packets and registers that write the loop (R226).
-/
namespace Sys2Proof.Machine

/-! ## Fields of the loop state (R221) -/

namespace Loop
def lim (l : Loop) (hi lo : Nat) : Nat := bitsOf l.limits.toNat hi lo
def gsCeil (l : Loop) : Nat := l.lim 63 57
def gsFloor (l : Loop) : Nat := l.lim 56 50
def ncCeil (l : Loop) : Nat := l.lim 49 41
def ncFloor (l : Loop) : Nat := l.lim 40 32
def wyCeil (l : Loop) : Nat := l.lim 31 27
def wyFloor (l : Loop) : Nat := l.lim 26 22
def hbCeil (l : Loop) : Nat := l.lim 21 15
def hbFloor (l : Loop) : Nat := l.lim 14 8
def ckFast (l : Loop) : Nat := l.lim 7 4
def ckSlow (l : Loop) : Nat := l.lim 3 0
def en (l : Loop) : Bool := l.ctrl.getLsbD 31
def short (l : Loop) : Bool := l.ctrl.getLsbD 30
def cls (l : Loop) : Nat := bitsOf l.ctrl.toNat 28 27
def intk (l : Loop) : Nat := bitsOf l.ctrl.toNat 26 23
def bgrp (l : Loop) : Nat := bitsOf l.ctrl.toNat 11 0
/-- The interval T in ns (R220). With EN = 0 INTK may hold a value below 6, for which R220 gives no boundary: such a context has one at
every 64 µs boundary, which clears its beats (DESIGN CHOICE, log entry 111). -/
def interval (l : Loop) : Nat := 2 ^ l.intk * 1000
def setShort (l : Loop) (b : Bool) : Loop :=
  { l with ctrl := if b then l.ctrl ||| onesAt 32 30 1 else l.ctrl &&& ~~~(onesAt 32 30 1) }
def setSkip (l : Loop) (b : Bool) : Loop :=
  { l with ctrl := if b then l.ctrl ||| onesAt 32 29 1 else l.ctrl &&& ~~~(onesAt 32 29 1) }
end Loop

/-- The five actuator levels: gang slots, cores, ways, HBM share, clock step. -/
structure Levels where
  gs : Nat
  nc : Nat
  wy : Nat
  hb : Nat
  ck : Nat
  deriving DecidableEq, Repr, Inhabited

def Levels.word (v : Levels) : Word :=
  BitVec.ofNat 32 (v.gs * 2 ^ 25 + v.nc * 2 ^ 16 + v.wy * 2 ^ 11 + v.hb * 2 ^ 4 + v.ck)

def levelsOf (w : Word) : Levels :=
  ⟨bitsOf w.toNat 31 25, bitsOf w.toNat 24 16, bitsOf w.toNat 15 11, bitsOf w.toNat 10 4, bitsOf w.toNat 3 0⟩

/-! ## The ladder (R222, R223) -/

namespace Loop
def nGS (l : Loop) : Nat := (l.gsCeil - l.gsFloor) / 4
def nNC (l : Loop) : Nat := (l.ncCeil - l.ncFloor) / 2
def nWY (l : Loop) : Nat := l.wyCeil - l.wyFloor
def nHB (l : Loop) : Nat := l.hbCeil - l.hbFloor
def nCK (l : Loop) : Nat := l.ckSlow - l.ckFast
def top (l : Loop) : Nat := l.nGS + l.nNC + l.nWY + l.nHB + l.nCK

/-- LADDER(D). -/
def ladder (l : Loop) (d : Nat) : Levels :=
  let r1 := d - min d l.nGS
  let r2 := r1 - min r1 l.nNC
  let r3 := r2 - min r2 l.nWY
  let r4 := r3 - min r3 l.nHB
  { gs := l.gsFloor + 4 * min d l.nGS
    nc := l.ncFloor + 2 * min r1 l.nNC
    wy := l.wyFloor + min r2 l.nWY
    hb := l.hbFloor + min r3 l.nHB
    ck := l.ckSlow - min r4 l.nCK }

/-- Recomputes LTOP and clamps IVAL and DEMAND (R221, R226). -/
def settle (l : Loop) : Loop :=
  { l with
    ltop := BitVec.ofNat 16 l.top
    ival := BitVec.ofInt 32 (min (max l.ival.toInt l.imin.toInt) l.imax.toInt)
    demand := BitVec.ofNat 16 (min l.demand.toNat l.top) }

/-- The ranges of R221 for a partition of n cores. -/
def ranges (l : Loop) (n : Nat) : Bool :=
  let pair (f c lo hi m : Nat) : Bool := lo ≤ f && f ≤ c && c ≤ hi && f % m == 0 && c % m == 0
  decide (l.imin.toInt ≤ l.imax.toInt) && decide (0 ≤ l.target.toInt) && 6 ≤ l.intk && l.intk ≤ 16
  && pair l.gsFloor l.gsCeil 4 64 4 && pair l.ncFloor l.ncCeil 2 n 2 && pair l.wyFloor l.wyCeil 1 16 1
  && pair l.hbFloor l.hbCeil 1 64 1 && l.ckFast ≤ l.ckSlow

/-- The step of R224 on a count of beats. -/
def step (l0 : Loop) (beats : Nat) : Loop :=
  let l := l0.settle
  let m : Int := beats * 256
  let e := sats (l.target.toInt - m) 32
  let hold := 0 < e && (l.demand == l.ltop || l.short)
  let ival := if hold then l.ival.toInt
    else min (max (l.ival.toInt + (l.ki.toNat * e) / 16) l.imin.toInt) l.imax.toInt
  let u := sats ((l.kp.toNat * e) / 16 + ival) 32
  let d := min ((u + 0x8000) / 65536).toNat l.ltop.toNat
  ({ l with
    ival := BitVec.ofInt 32 ival, meas := BitVec.ofInt 32 m, elast := BitVec.ofInt 32 e, uval := BitVec.ofInt 32 u
    demand := BitVec.ofNat 16 d, icount := l.icount + 1 } : Loop).setSkip false

/-- A skipped boundary (R220). -/
def skip (l : Loop) : Loop := ({ l with icount := l.icount + 1 } : Loop).setSkip true
end Loop

/-! ## Contexts on cores and dies -/

/-- The context of a resident team. -/
def State.teamCtx (s : State) (t : Team) : Nat := (s.grid t.grid).ctx

/-- Cores a team occupies: the follower too for a paired one (R212). -/
def State.teamCores (s : State) (t : Team) : List Nat := if (s.grid t.grid).paired then [t.core, t.core + 1] else [t.core]

/-- The resident teams of a context. -/
def State.ctxTeams (s : State) (ctx : Nat) : List (Nat × Team) := s.teams.filter (fun e => s.teamCtx e.2 == ctx)

/-- Cores a context holds (R220), each once. -/
def State.coresOf (s : State) (ctx : Nat) : List Nat :=
  (s.ctxTeams ctx).foldl (fun a e => (s.teamCores e.2).foldl (fun a c => insertSorted c a) a) []

/-- Dies on which a context has a team resident (R227). -/
def State.diesOf (s : State) (ctx : Nat) : List Nat := (s.coresOf ctx).foldl (fun a c => insertSorted (dieOf c) a) []

/-- Teams on a core. -/
def State.teamsOn (s : State) (c : Nat) : List (Nat × Team) := s.teams.filter (fun e => (s.teamCores e.2).contains c)

/-- A team is held by NC alone (R225, R351). -/
def State.heldByNc (s : State) (t : Team) : Bool :=
  let l := (s.ctx (s.teamCtx t)).loop
  l.en && !(s.grid t.grid).coop && (levelsOf l.levels).nc ≤ t.lcore

/-- Cores every team of a context on which is held by NC. -/
def State.ncHeldCores (s : State) (ctx : Nat) : List Nat :=
  (s.coresOf ctx).filter (fun c => (s.teamsOn c).all (fun e => s.heldByNc e.2))

/-- After a change of teams or levels: the marks of R220 and R351 that must hold throughout an interval. -/
def State.refreshHeld (s : State) (ctx : Nat) : State :=
  let now := s.ncHeldCores ctx
  s.modCtx ctx (fun x => { x with
    heldCore := x.heldCore && !(s.coresOf ctx).isEmpty
    ncHeld := x.ncHeld.filter now.contains
    ncFull := x.ncFull.filter now.contains })

def State.isSealed (s : State) (ctx : Nat) : Bool := (Tbl.at s.parts (s.ctx ctx).part {}).isSealed

/-! ## Pools and floors (R227, R230) -/

/-- Ways of a die that sealed partitions reserve, and their HBM share (R359): the shares of their contexts. -/
def State.reservedWays (s : State) (d : Nat) : Nat := ((s.die d).ways.filter (fun e => 4096 ≤ e.2)).length
def State.reservedHbm (s : State) (d : Nat) : Nat :=
  (s.ctxs.filter (fun e => s.isSealed e.1)).foldl (fun n e => n + Tbl.at e.2.hbmGrant d 0) 0

/-- The contexts that take part in pools: unsealed with EN = 1, with their loops; one of them may be a candidate. -/
def State.enabledLoops (s : State) (cand : Nat) (l : Loop) : List (Nat × Nat × Loop) :=
  let ids := insertSorted cand (Tbl.keys s.ctxs)
  (ids.map (fun c => (c, (s.ctx c).part, if c == cand then l else (s.ctx c).loop))).filter
    (fun e => e.2.2.en && !s.isSealed e.1)

/-- The floors of the enabled loops fit every pool's supply (R230). -/
def State.floorsFit (s : State) (cand : Nat) (l : Loop) : Bool :=
  let es := s.enabledLoops cand l
  let sum (f : Loop → Nat) (es : List (Nat × Nat × Loop)) : Nat := es.foldl (fun n e => n + f e.2.2) 0
  let p := (s.ctx cand).part
  (s.isSealed cand || sum Loop.ncFloor (es.filter (fun e => e.2.1 == p)) ≤ (Tbl.at s.parts p {}).ncores)
  && (List.range 4).all (fun d => sum Loop.wyFloor es ≤ 16 - s.reservedWays d && sum Loop.hbFloor es ≤ 64 - s.reservedHbm d)

/-! ## The allocator (R228) -/

/-- One context's part in a pool: its ID, class, request and floor. -/
structure Claim where
  ctx : Nat
  cls : Nat
  r : Nat
  f : Nat
  deriving DecidableEq, Repr, Inhabited

/-- Cuts of one class when X units are shed from A above the floors: the floor of each share, and one more unit to the
contexts of largest remainder, lower ID first. -/
def cutsOf (cs : List Claim) (x a : Nat) : Tbl Nat :=
  let base := cs.map (fun c => (c.ctx, x * (c.r - c.f) / a, x * (c.r - c.f) % a))
  let more := x - (base.map (·.2.1)).foldl (· + ·) 0
  let before (p q : Nat × Nat × Nat) : Bool := q.2.2 < p.2.2 || (p.2.2 == q.2.2 && p.1 < q.1)
  base.map (fun p => (p.1, p.2.1 + b2n ((base.filter (fun q => before q p)).length < more)))

/-- Sheds X from the classes k - 1, ..., 0: the grants of the classes reached. -/
def shedClasses (cs : List Claim) : Nat → Nat → Tbl Nat → Tbl Nat
  | 0, _, g => g
  | k + 1, x, g =>
    if x = 0 then g
    else
      let mine := cs.filter (fun c => c.cls == k)
      let a := (mine.map (fun c => c.r - c.f)).foldl (· + ·) 0
      if a ≤ x then shedClasses cs k (x - a) (mine.foldl (fun g c => Tbl.put g c.ctx c.f) g)
      else
        let cut := cutsOf mine x a
        mine.foldl (fun g c => Tbl.put g c.ctx (c.r - Tbl.at cut c.ctx 0)) g

/-- The grants of one pool. -/
def shed (cs : List Claim) (supply : Nat) : Tbl Nat :=
  let full : Tbl Nat := cs.foldl (fun g c => Tbl.put g c.ctx c.r) []
  shedClasses cs 4 ((cs.map (·.r)).foldl (· + ·) 0 - supply) full

/-! ## Lent ways (R253) -/

/-- HITD[w] of a context on a die, summed over the cores that run it. -/
def State.hitd (s : State) (ctx d w : Nat) : Nat :=
  (s.cores.filter (fun e => e.2.ctx == some ctx)).foldl (fun n e => n + Tbl.at e.2.monitor.hitd (d * 16 + w) 0) 0

/-- Lends spare ways one at a time: contexts with the ways they hold so far and their WYCEIL. -/
def lendWays (hit : Nat → Nat → Nat) : Nat → List (Nat × Nat × Nat) → List (Nat × Nat × Nat)
  | 0, cs => cs
  | n + 1, cs =>
    let best := (cs.filter (fun c => c.2.1 < c.2.2)).foldl (fun (b : Option (Nat × Nat)) c => match b with
      | none => some (c.1, hit c.1 c.2.1)
      | some x => if x.2 < hit c.1 c.2.1 then some (c.1, hit c.1 c.2.1) else some x) none
    match best with
    | none => cs
    | some b => lendWays hit n (cs.map (fun c => if c.1 == b.1 then (c.1, c.2.1 + 1, c.2.2) else c))

/-! ## The pass (R220) -/

/-- A pass takes back what the one before granted and lent of the ways (R253). -/
def Ctx.ungranted (x : Ctx) : Ctx := { x with wayGrant := [], wylent := [] }

/-- Grants every pool to the enabled contexts, as each last asked (R227): LEVELS to apply, SHORT, and each die's grants. -/
def State.allocate (s : State) : State :=
  let es := (Tbl.keys s.ctxs).filter (fun c => (s.ctx c).loop.en && !s.isSealed c)
  let loopOf (c : Nat) : Loop := (s.ctx c).inForce
  let req (c : Nat) : Levels := (loopOf c).ladder (loopOf c).demand.toNat
  let claim (r f : Nat → Nat) (c : Nat) : Claim := ⟨c, (loopOf c).cls, r c, f c⟩
  let cores (c : Nat) : Nat :=
    let p := (s.ctx c).part
    let cs := es.filter (fun e => (s.ctx e).part == p)
    2 * Tbl.at (shed (cs.map (claim (fun c => (req c).nc / 2) (fun c => (loopOf c).ncFloor / 2))) ((Tbl.at s.parts p {}).ncores / 2)) c 0
  let on (d : Nat) : List Nat := es.filter (fun c => (s.diesOf c).contains d)
  let ways (d : Nat) : Tbl Nat := shed ((on d).map (claim (fun c => (req c).wy) (fun c => (loopOf c).wyFloor))) (16 - s.reservedWays d)
  let share (d : Nat) : Tbl Nat := shed ((on d).map (claim (fun c => (req c).hb) (fun c => (loopOf c).hbFloor))) (64 - s.reservedHbm d)
  let lent (d : Nat) : Tbl Nat :=
    let plain := s.ctxs.any (fun e => !e.2.loop.en && (s.diesOf e.1).contains d)
    if plain then []
    else
      let spare := 16 - s.reservedWays d - ((Tbl.vals (ways d)).foldl (· + ·) 0)
      let held := (on d).map (fun c => (c, Tbl.at (ways d) c 0, (loopOf c).wyCeil))
      (lendWays (fun c w => s.hitd c d w) spare held).map (fun c => (c.1, c.2.1 - Tbl.at (ways d) c.1 0))
  let s' := { s with waysDue := true, ctxs := s.ctxs.map (fun e => (e.1, e.2.ungranted)) }
  let s' := es.foldl (fun (t : State) c =>
    let ds := s.diesOf c
    let q := req c
    let old := levelsOf (s.ctx c).loop.levels
    let nc := cores c
    let wy := ds.map (fun d => Tbl.at (ways d) c 0)
    let hb := ds.map (fun d => Tbl.at (share d) c 0)
    let least (xs : List Nat) (z : Nat) : Nat := match xs with
      | [] => z
      | x :: r => r.foldl min x
    let g : Levels := { q with nc := nc, wy := least wy old.wy, hb := least hb old.hb }
    let cut := nc < q.nc || wy.any (· < q.wy) || hb.any (· < q.hb)
    t.modCtx c (fun x => { x with
      loop := x.loop.setShort cut
      pendingLevels := some g.word
      wayGrant := ds.map (fun d => (d, Tbl.at (ways d) c 0))
      hbmGrant := ds.map (fun d => (d, Tbl.at (share d) c 0))
      wylent := (ds.map (fun d => (d, Tbl.at (lent d) c 0))) })) s'
  { s' with cores := s'.cores.map (fun e => (e.1, { e.2 with monitor := { e.2.monitor with hitd := [] } })) }

/-- CK a context counts with at a boundary: as granted at its pass, and fastest without a loop (R328). -/
def State.ckOf (s : State) (ctx : Nat) : Nat :=
  let x := s.ctx ctx
  if x.loop.en then (levelsOf (x.pendingLevels.getD x.loop.levels)).ck else 0

/-- Contexts with a team on a pair of cores. -/
def State.pairCtxs (s : State) (pair : Nat) : List Nat :=
  (s.teams.filter (fun e => (s.teamCores e.2).any (fun c => c / 2 == pair))).foldl (fun a e => insertSorted (s.teamCtx e.2) a) []

/-- The partition that holds a pair, if one does (R357). -/
def State.partOfPair (s : State) (pair : Nat) : Option Nat :=
  (s.parts.find? (fun e => e.2.built && e.2.rmt.any (fun r => r.2.getLsbD 15 && bitsOf r.2.toNat 7 0 / 2 == pair))).map (·.1)

def State.pairSealed (s : State) (pair : Nat) : Bool :=
  match s.partOfPair pair with
  | some p => (Tbl.at s.parts p {}).isSealed
  | none => false

/-- Step 2 of R328 on the steps of a die's pairs: the power limit. Each turn slows one pair by a step, so 480 turns are
enough. -/
def State.slowDown (s : State) (d : Nat) : Nat → List (Nat × Nat) → List (Nat × Nat)
  | 0, ps => ps
  | n + 1, ps =>
    if Config.diePower d (ps.map (·.2)) ≤ (s.die d).power then ps
    else
      let key (p : Nat) : Nat :=
        let cs := s.pairCtxs p
        let fast := cs.foldl (fun b c => min b (s.ckOf c)) 15
        let top := (cs.filter (fun c => s.ckOf c == fast)).foldl (fun b c => max b ((s.ctx c).inForce.cls * 2 ^ 12 + c)) 0
        top * 2 ^ 8 + p
      let can := ps.filter (fun p => p.2 < 15 && !s.pairSealed p.1)
      match can.foldl (fun (b : Option Nat) p => match b with
        | none => some p.1
        | some q => if key q < key p.1 then some p.1 else some q) none with
      | none => ps
      | some q => s.slowDown d n (ps.map (fun p => if p.1 == q then (p.1, p.2 + 1) else p))

/-- The clock steps of R328 at a boundary, and their shortfalls. -/
def State.setSteps (s : State) : State :=
  (List.range 4).foldl (fun s d =>
    let pairs := (List.range 32).map (32 * d + ·)
    let want := pairs.map (fun p =>
      if s.pairSealed p then (p, (s.core (2 * p)).step)
      else if (s.core (2 * p)).hot || (s.core (2 * p + 1)).hot then (p, 15)
      else (p, (s.pairCtxs p).foldl (fun b c => min b (s.ckOf c)) 15))
    let got := s.slowDown d 480 want
    let s := { s with pendingSteps := got.foldl (fun t p => Tbl.put t p.1 p.2) s.pendingSteps }
    got.foldl (fun s p => (s.pairCtxs p.1).foldl (fun s c =>
      if s.ckOf c < p.2 then s.modCtx c (fun x => { x with loop := x.loop.setShort true }) else s) s) s) s

/-- Ends the pass: the allocator when a loop has stepped, the clock steps, and the levels to apply. -/
def State.finishPass (s : State) : State :=
  let s := if s.loopPass == some true then s.allocate else s
  let s := s.setSteps
  { s with loopPass := none, agenda := s.agenda ++ [.event .actuatorLevelsApply] }

/-- The count of an interval, read and cleared (R218). -/
def State.takeBeats (s : State) (ctx : Nat) : State × Nat :=
  let n := s.cores.foldl (fun n e => if e.2.ctx == some ctx then n + e.2.beatAcc else n) (s.ctx ctx).beats
  ({ s.modCtx ctx (fun x => { x with beats := 0 }) with
    cores := s.cores.map (fun e => if e.2.ctx == some ctx then (e.1, { e.2 with beatAcc := 0 }) else e) }, min n (2 ^ 24 - 1))

/-- Beat message of a group (R387, R406): TAG is BGRP, and the count is its data (log entry 23). R406 names no port:
it takes the lowest that is up (DESIGN CHOICE, log entry 89). -/
def beatMsg (s : State) (ctx n : Nat) : Msg :=
  { kind := 0x09, sdev := s.devId, ddev := 0x1FF, dctx := BitVec.ofNat 12 ctx, chunk := 0
    tag := BitVec.ofNat 32 (s.ctx ctx).loop.bgrp, xtra := 0, data := leBytes 8 n }

/-- A context's loop steps on a count, and what it then asks for is in force. -/
def Ctx.stepped (x : Ctx) (n : Nat) : Ctx := { x with loop := x.loop.step n, inForce := x.loop.step n }

/-- One context at a boundary: its interval's count, and its step, its skip, or its count sent to its beat group. What a merge of the
last boundary left out counts no more (R407). -/
def State.boundary (s : State) (now ctx : Nat) : State :=
  let x := s.ctx ctx
  if now % x.loop.interval ≠ 0 then s
  else
    let r := s.takeBeats ctx
    let s := r.1
    let s := s.modCtx ctx (fun y => { y with
      heldCore := !(s.coresOf ctx).isEmpty, ncFull := y.ncHeld, ncHeld := s.ncHeldCores ctx, mergeMiss := false })
    if !x.loop.en || now < x.firstStep then s
    else if !x.heldCore then s.modCtx ctx (fun y => { y with loop := y.loop.skip })
    else if x.loop.bgrp = 0 then
      { s.modCtx ctx (fun y => y.stepped r.2) with loopPass := some true }
    else
      { s.modCtx ctx (fun y => { y with merged := some r.2 }) with
        outbox := if s.portsUp == 0 then s.outbox else s.outbox ++ [(s.votePort 0, beatMsg s ctx r.2)] }

/-- Whether some context waits for its beat group. -/
def State.awaitsMerge (s : State) : Bool := s.ctxs.any (fun e => e.2.merged.isSome)

/-- The next 64 µs boundary. A boundary whose beat groups have not merged is still under way. -/
def execAllocPass (s : State) : Host.Outcome State Fault Refusal :=
  if s.loopPass.isSome then .next s
  else
    let now := 64000 * (s.boundaries + 1)
    let s := { s.toTime (1000 * now) with boundaries := s.boundaries + 1, loopPass := some false }
    let s := (Tbl.keys s.ctxs).foldl (fun s c => s.boundary now c) s
    .next (if s.awaitsMerge then s else s.finishPass)

/-- Assigns the ways of a die from the grants: a context keeps ways it holds, and takes the lowest free ones. -/
def State.assignWays (s : State) (d : Nat) : State :=
  let die := s.die d
  let grant (c : Nat) : Nat := Tbl.at (s.ctx c).wayGrant d 0
  let kept := die.ways.foldl (fun (a : Tbl Nat) e =>
    if 4096 ≤ e.2 || (a.filter (fun x => x.2 == e.2)).length < grant e.2 then Tbl.put a e.1 e.2 else a) []
  let take (a : Tbl Nat) (c n : Nat) (used : Tbl Nat) : Tbl Nat :=
    (((List.range 16).filter (fun w => (Tbl.look used w).isNone && (Tbl.look a w).isNone)).take n).foldl (fun a w => Tbl.put a w c) a
  let ways := (Tbl.keys s.ctxs).foldl (fun a c => take a c (grant c - (a.filter (fun x => x.2 == c)).length) []) kept
  let lent := (Tbl.keys s.ctxs).foldl (fun a c => take a c (Tbl.at (s.ctx c).wylent d 0) ways) []
  s.setDie d { die with ways := ways, lent := lent }

/-- A pair takes the clock step of a boundary, unless its sensors hold it at step 15 (R352) or a seal fixes it (R359). -/
def State.applyStep (s : State) (p : Nat × Nat) : State :=
  if s.pairSealed p.1 then s
  else
    let n := if (s.core (2 * p.1)).hot || (s.core (2 * p.1 + 1)).hot then 15 else p.2
    (s.modCore (2 * p.1) (fun k => { k with step := n })).modCore (2 * p.1 + 1) (fun k => { k with step := n })

/-- The new levels and clock steps apply (R220, R329), and ways change owner as a pass granted them (R252). -/
def execActuatorLevelsApply (s : State) : Host.Outcome State Fault Refusal :=
  let s := (Tbl.keys s.ctxs).foldl (fun s c =>
    match (s.ctx c).pendingLevels with
    | none => s
    | some w => (s.modCtx c (fun x => { x with loop := { x.loop with levels := w }, pendingLevels := none })).refreshHeld c) s
  let s := if s.waysDue then { (List.range 4).foldl (fun s d => s.assignWays d) s with waysDue := false } else s
  .next { s.pendingSteps.foldl State.applyStep s with pendingSteps := [] }

/-! ## The beat group (R406, R407) -/

/-- BGSTAT. -/
def bgWord (miss : Bool) (merged : Nat) : Word := BitVec.ofNat 32 (merged % 2 ^ 24 + 2 ^ 31 * b2n miss)

/-- A pass under way ends once no context waits for its group. -/
def State.passOn (s : State) : State := if s.awaitsMerge || s.loopPass.isNone then s else s.finishPass

/-- Ends a context's wait for its group, and the pass when it was the last. -/
def State.endMerge (s : State) (ctx : Nat) : State := (s.modCtx ctx (fun x => { x with merged := none })).passOn

/-- The merged minimum arrives and the context steps with it; for a context that has moved it is turned away (R389), and
for one not enabled here yet it is held (R390). A member that does not wait for it, having skipped the boundary, reads it in BGSTAT and
takes no step (DEDUCED, log entry 120). -/
def execBeatCount (ctx merged : Nat) (s : State) : Host.Outcome State Fault Refusal :=
  let x := s.ctx ctx
  match x.merged, x.movedTo, x.arriving with
  | _, some p, _ => .next (s.redirectSwitch 0x09 x.loop.bgrp p)
  | _, none, true => .next (s.holdMsg ctx (.beatCount ctx merged))
  | none, none, false =>
    .next (if x.loop.bgrp = 0 then s else s.setCtx ctx { x with bgstat := bgWord x.mergeMiss (min merged (2 ^ 24 - 1)) })
  | some _, none, false =>
    let n := min merged (2 ^ 24 - 1)
    let s := s.setCtx ctx { x.stepped n with bgstat := bgWord x.mergeMiss n }
    .next ({ s with loopPass := some true }.endMerge ctx)

/-- A count has not reached the switches 4 µs after the boundary: MISS is set at every member of the group, also at one that skipped the
boundary (R406). A context to which no merged count has come by then
with no port up, or 8 µs after the boundary, when the merge is over, skips: no count has arrived (log entry 41). -/
def execBeatMergeTimeout (ctx : Nat) (s : State) : Host.Outcome State Fault Refusal :=
  let waits := (s.ctx ctx).merged.isSome
  if !waits && (s.ctx ctx).loop.bgrp = 0 then .next s
  else
    let at' := 64000000 * s.boundaries
    let s := s.toTime (at' + 4000000)
    let s := s.modCtx ctx (fun x => { x with mergeMiss := true, bgstat := x.bgstat ||| onesAt 32 31 1 })
    if !waits then .next s
    else if s.portsUp == 0 || at' + 8000000 ≤ s.time then .next ((s.modCtx ctx (fun y => { y with loop := y.loop.skip })).endMerge ctx)
    else .next s

/-! ## Enabling and re-timing (R438) -/

/-- The first boundary of an interval at least one whole interval away. -/
def firstBoundary (now t : Nat) : Nat := (now + t + t - 1) / t * t

/-- LEVELS := LADDER(DEMAND), which applies at once, so that the holds start from it; the levels of a sealed context are fixed
(R226, R438, R359). -/
def Loop.leveled (l : Loop) (fixed : Bool) : Loop := if fixed then l else { l with levels := (l.ladder l.demand.toNat).word }

/-- Installs a checked loop state, of a packet or of a `sysw`; one that a `sysw` writes without enabling is in force from the next
step on, and one with EN = 0, which never steps, at once (R221). Enabling sets LEVELS and leaves ICOUNT, which then goes on counting steps
and skips (DESIGN CHOICE, log entry 100). Disabling, and whatever moves the first step to a later boundary (R226, R438), ends a wait for
the beat group; disabling drops grants that have not applied. -/
def State.installLoop (s : State) (ctx : Nat) (l : Loop) (packet : Bool) : State :=
  let x := s.ctx ctx
  let on := l.en && !x.loop.en
  let move := l.en && (on || l.intk != x.loop.intk || packet)
  let l := if on then l.settle.leveled (s.isSealed ctx) else l
  let s := s.setCtx ctx { x with
    loop := l
    inForce := if on || packet || !l.en then l else x.inForce
    firstStep := if move then firstBoundary s.timebase l.interval else x.firstStep
    heldCore := if on then !(s.coresOf ctx).isEmpty else x.heldCore
    pendingLevels := if on || !l.en then none else x.pendingLevels
    wayGrant := if l.en then x.wayGrant else []
    hbmGrant := if l.en || s.isSealed ctx then x.hbmGrant else [] }
  (if l.en && !move then s else s.endMerge ctx).refreshHeld ctx

/-! ## The LOOP registers (R221) -/

/-- Word i of the image of R221. -/
def Loop.reg (l : Loop) (i : Nat) : Word :=
  match i with
  | 2 => l.ctrl
  | 3 => BitVec.ofNat 32 (l.ltop.toNat + 2 ^ 16 * l.demand.toNat)
  | 4 => l.levels
  | 5 => l.limits.extractLsb' 0 32
  | 6 => l.limits.extractLsb' 32 32
  | 7 => BitVec.ofNat 32 (l.kp.toNat + 2 ^ 16 * l.ki.toNat)
  | 8 => l.target
  | 9 => l.imin
  | 10 => l.imax
  | 11 => l.ival
  | 12 => l.uval
  | 13 => l.elast
  | 14 => l.meas
  | 15 => l.icount
  | _ => 0

/-- Fields of CTRL that a write reaches. -/
def ctrlMask : Word := 0x9F800FFF

/-- The loop state with the RW fields of word i written. -/
def Loop.setReg (l : Loop) (i : Nat) (w : Word) : Loop :=
  match i with
  | 2 => { l with ctrl := (l.ctrl &&& ~~~ctrlMask) ||| (w &&& ctrlMask) }
  | 5 => { l with limits := (l.limits.extractLsb' 32 32 ++ w : BitVec 64) }
  | 6 => { l with limits := (w ++ l.limits.extractLsb' 0 32 : BitVec 64) }
  | 7 => { l with kp := w.extractLsb' 0 16, ki := w.extractLsb' 16 16 }
  | 8 => { l with target := w }
  | 9 => { l with imin := w }
  | 10 => { l with imax := w }
  | 11 => { l with ival := w }
  | _ => l

/-- A write of a LOOP register: none for a breach. -/
def State.writeLoop (s : State) (ctx i : Nat) (w : Word) : Option State :=
  let x := s.ctx ctx
  let l := x.loop.setReg i w
  if l.en && !(l.ranges (Tbl.at s.parts x.part {}).ncores && s.floorsFit ctx l) then none
  else some (s.installLoop ctx l false)

/-! ## Loop-config packets (R226, R230, R438) -/

/-- A loop-config body of 64 bytes: the status, and the state after it when the status is 0. -/
def State.loopBody (s : State) (ctx : Nat) (b : List Byte) : Nat × State :=
  let le (i n : Nat) : Nat := leNat ((b.drop i).take n)
  let x := s.ctx ctx
  let ctrl : Word := BitVec.ofNat 32 (le 32 4)
  let rst := le 38 1 % 2 == 1
  if 1 < le 38 1 || (b.drop 39).any (· != 0) || bitsOf ctrl.toNat 22 12 ≠ 0 then (1, s)
  else
    let l := { x.loop with
      limits := BitVec.ofNat 64 (le 8 8), target := BitVec.ofNat 32 (le 16 4), kp := BitVec.ofNat 16 (le 20 2)
      ki := BitVec.ofNat 16 (le 22 2), imin := BitVec.ofNat 32 (le 24 4), imax := BitVec.ofNat 32 (le 28 4)
      ctrl := (x.loop.ctrl &&& ~~~ctrlMask) ||| (ctrl &&& ctrlMask) }
    if !l.ranges (Tbl.at s.parts x.part {}).ncores then (9, s)
    else if !s.floorsFit ctx l then (10, s)
    else
      let l := l.settle
      if rst then
        let l := { l with
          ival := BitVec.ofInt 32 (min (max 0 l.imin.toInt) l.imax.toInt), meas := 0, elast := 0, uval := 0
          demand := BitVec.ofNat 16 (min (le 36 2) l.top) }
        let s := s.modCtx ctx (fun x => { x with pendingLevels := none })
        (0, s.installLoop ctx (l.leveled (s.isSealed ctx)) true)
      else (0, s.installLoop ctx l true)

end Sys2Proof.Machine
end

