-- ==== Sys2Proof/Machine/System.lean ====
section
/-!
DEFINITION. System registers (R129 to R131 and the chapters that assign them), their writes with rows of their own (R221,
R260, R327, R408), `beat` and `launch` (R217 to R219), `trap`, `brk`, `nop`, `hint` (R132, R133), unassigned words (R63), and
the ends of long-latency operations and walks (R18, R257, R343).
-/
namespace Sys2Proof.Machine

/-! ## Reading (R129, R130) -/

def w32 (n : Nat) : DWord := BitVec.ofNat 64 (n % 2 ^ 32)

/-- TOKST (R298). -/
def Thread.tokst (th : Thread) : DWord :=
  let ks := (List.range 8).foldl (fun a n => a + min (th.tokenCount n) 63 * 2 ^ (6 * n)) 0
  let errs := (List.range 8).foldl (fun a n => a + b2n (Tbl.look th.batchErr n).isSome * 2 ^ (56 + n)) 0
  BitVec.ofNat 64 (ks + min th.openCount 63 * 2 ^ 48 + b2n th.openErr.isSome * 2 ^ 54 + errs)

/-- SPECST (R430). -/
def Thread.specst (th : Thread) : DWord :=
  BitVec.ofNat 64 (b2n th.spec * 2 ^ 31 + b2n th.heldFault.isSome * 2 ^ 30 + b2n th.stopped * 2 ^ 29
    + min th.ncl 64 * 2 ^ 16 + th.specReg % 16 * 2 ^ 12)

/-- AE granted on a die in the last 1,000 ns, and AE held (R326). -/
def State.window (s : State) (d : Nat) : Nat :=
  ((s.die d).recent.filter (fun e => s.timebase < e.1 + 1000)).foldl (fun n e => n + e.2) 0
def State.inflight (s : State) (d : Nat) : Nat := (Tbl.vals (s.die d).permits).foldl (fun n e => n + e.1) 0

/-- BEATS (R218). -/
def State.beatsNow (s : State) (ctx : Nat) : Nat := (s.takeBeats ctx).2

/-- The largest watchdog count over a context's cores (R344). -/
def State.wdCount (s : State) (ctx : Nat) : Nat :=
  s.cores.foldl (fun n e => if e.2.ctx == some ctx then max n e.2.wd else n) 0

/-- The value of system register n for a lane. -/
def Lane.sysRead (l : Lane) (s : State) (n : Nat) : DWord :=
  let th := l.thr s
  let gang := l.gang s
  let team := l.team s
  let g := l.grid s
  let x := s.ctx (l.ctxId s)
  let core := s.core l.core
  let die := s.die (dieOf l.core)
  match n with
  | 0x000 => w32 th.fpst.toNat
  | 0x001 => l.clause
  | 0x002 => w32 (b2n th.priv)
  | 0x003 => w32 ((List.range 12).foldl (fun a i => a + b2n (th.flag i != 0) * 2 ^ i) 0)
  | 0x004 => core.cycle
  | 0x005 => BitVec.ofNat 64 s.timebase
  | 0x006 => w32 (winSize (l.regs s) g.dregs)
  | 0x007 => w32 g.scrsize
  | 0x020 => w32 th.dst.toNat
  | 0x021 => w32 th.linctr.toNat
  | 0x022 => w32 gang.tw
  | 0x023 => g.args
  | 0x024 => w32 gang.bndmask.toNat
  | 0x025 => w32 ((List.range 4).foldl (fun a i => a + (Tbl.at team.chseq i 0).toNat * 2 ^ (8 * i)) 0)
  | 0x026 => w32 team.bankconf.toNat
  | 0x027 => th.tokst
  | 0x028 => w32 team.teamest.toNat
  | 0x029 => w32 (th.fcode.toNat + 256 * b2n th.hnd)
  | 0x02A => w32 (frameBase (l.regs s) g.dregs)
  | 0x02B => w32 (gang.mj.toNat + 2 ^ 16 * gang.wait.toNat)
  | 0x02C => th.specst
  | 0x040 => w32 (l.ctxId s)
  | 0x041 => w32 (32768 * core.banks.length)
  | 0x042 => w32 (s.beatsNow (l.ctxId s))
  | 0x043 => x.ptroot
  | 0x044 => w32 x.xlctl.toNat
  | 0x045 => w32 (Tbl.at x.wylent (dieOf l.core) 0)
  | 0x046 => x.lvwait
  | 0x047 => w32 core.step
  | 0x048 => w32 x.ctxerr.toNat
  | 0x049 => w32 x.bgstat.toNat
  | 0x081 => x.wdlimit
  | 0x082 => BitVec.ofNat 64 (s.wdCount (l.ctxId s))
  | 0x083 => w32 x.pdeadline.toNat
  | 0x100 => w32 (die.budget + 256 * die.ramp)
  | 0x101 => w32 (min (s.inflight (dieOf l.core)) 255 + 256 * min (s.window (dieOf l.core)) 255 + 65536 * min die.queue.length 255)
  | 0x102 => w32 die.power
  | 0x103 => w32 die.sparepr.toNat
  | 0x104 => w32 core.temp.toNat
  | 0x105 => w32 s.fabdrop.toNat
  | _ =>
    if 0x050 ≤ n && n ≤ 0x05F then w32 (x.loop.reg (n - 0x050)).toNat
    else if 0x060 ≤ n && n ≤ 0x07F then
      if n % 2 == 0 then (x.msetOf ((n - 0x060) / 2)).extractLsb' 0 64 else (x.msetOf ((n - 0x060) / 2)).extractLsb' 64 64
    else if 0x090 ≤ n && n ≤ 0x09F then x.moutOf (n - 0x090)
    else 0

/-- The privilege check of R130. -/
def Lane.sysPriv (l : Lane) (s : State) (n : Nat) (write : Bool) : Except LaneFail Unit :=
  match sysInfo n with
  | none => .error (.fault illegalEncoding)
  | some i => if (if write then i.supWrite else i.supRead) && !(l.thr s).priv then .error (.fault (opInfo 4 n 4)) else .ok ()

def isLongSys (n : Nat) : Bool :=
  match sysInfo n with
  | some i => i.long
  | none => false

/-- `sysr` of a register marked long: its value is bound when the operation completes. -/
def sysrLong (f : Fields) (s : State) (l : Lane) : Except LaneFail State := do
  l.check s [(pDST, .load f.ty.isPair, f.dst)]
  l.sysPriv s f.sysNum false
  let flag ← l.needFlag (f.md.getLsbD 0)
  .ok (s.issue l.core l.slot flag (groupWords f.dst (List.replicate (if f.ty.isPair then 2 else 1) (0, false))) (some f.sysNum))

def execSysr (f : Fields) (s : State) : Host.Outcome State Fault Refusal :=
  if isLongSys f.sysNum then longOp s f (f.md.getLsbD 0) (fun s l => seqAct s (sysrLong f s l))
  else
    let w := f.ty.isPair
    regOp s f [(pDST, .dst w, f.dst)] (fun l => do
      l.sysPriv s f.sysNum false
      let x := l.sysRead s f.sysNum
      let o := l.start s f
      .ok (if w then o.putPair (l.regs s) f.dst x else o.put (l.regs s) f.dst (loWord x)))

/-! ## Writing (R129, R131) -/

/-- The effect of a write on the state. -/
def Lane.sysWrite (l : Lane) (s : State) (n x : Nat) : State :=
  let thr (h : Thread → Thread) : State := s.modThr l.core l.slot h
  let ctx (h : Ctx → Ctx) : State := s.modCtx (l.ctxId s) h
  let die (h : Die → Die) : State := s.modDie (dieOf l.core) h
  match n with
  | 0x000 => thr (fun th => { th with fpst := BitVec.ofNat 5 x })
  | 0x020 => thr (fun th => { th with dst := BitVec.ofNat 5 x })
  | 0x021 => thr (fun th => { th with linctr := if x % 4096 = 0 then 1 else BitVec.ofNat 12 x })
  | 0x026 => s.modTeam (l.gang s).team (fun t => { t with bankconf := BitVec.ofNat 32 x })
  | 0x028 => s.modTeam (l.gang s).team (fun t => { t with teamest := BitVec.ofNat 32 x })
  | 0x043 => ctx (fun y => { y with ptroot := BitVec.ofNat 64 x })
  | 0x044 => ctx (fun y => { y with xlctl := if x % 32 = 0 || 18 < x % 32 then 18 else BitVec.ofNat 32 (x % 32) })
  | 0x046 => ctx (fun y => { y with lvwait := BitVec.ofNat 64 x })
  | 0x048 => ctx (fun y => { y with ctxerr := BitVec.ofNat 32 (x / 2 ^ 16 % 2 ^ 16 * 2 ^ 16) })
  | 0x081 => ctx (fun y => { y with wdlimit := BitVec.ofNat 64 x })
  | 0x083 => ctx (fun y => { y with pdeadline := BitVec.ofNat 32 (min (max (x % 2 ^ 16) 50) 10000) })
  | 0x102 => die (fun d => { d with power := min (max (x % 2 ^ 16) 100) 1400 })
  | 0x103 => die (fun d => { d with sparepr := BitVec.ofNat 32 x })
  | _ => s

/-- The shared course of a `sysw`: the checks, the value of SA, and the write. -/
def sysw (f : Fields) (write : State → Lane → Nat → Except LaneFail State) (s : State) : Host.Outcome State Fault Refusal :=
  s.execSeq f.guard f.readsChannel (fun s l => seqAct s (do
    l.check s [(pSA, .src f.ty.isPair, f.sa)]
    l.sysPriv s f.sysNum true
    l.stopIfSpec s
    let x ← l.readInt s pSA f.sa f.ty
    write (s.latch l f) l x))

def execSysw (f : Fields) (s : State) : Host.Outcome State Fault Refusal :=
  sysw f (fun s l x => .ok (l.sysWrite s f.sysNum x)) s

/-- Whether a write of TLBINV names a cached translation (R260): every stage-1 page that covers the VPN, whatever its size, and
all that is cached of it, though stage 2 backs it in smaller pages. -/
def tlbNamed (ctx x : Nat) (e : TlbEntry) : Bool :=
  e.ctx == ctx && (bitOf x 0 || e.page * 2 ^ e.bits / 2 ^ e.bits1 % 2 ^ (57 - e.bits1) == bitsOf x 56 12 * 2 ^ 12 / 2 ^ e.bits1)

/-- What TLBINV does: the lines that its thread's own stores may have left in an L1 reach memory, so that a walk that follows sees the
entries stored (DEDUCED, log entry 107); and every named translation goes from the cores and clusters (R260). -/
def State.invalidate (s : State) (l : Lane) (x : Nat) : State :=
  ((s.l1Cores l.core (l.team s)).foldl (fun s c => s.writeBackAll c) s).dropTlbs (tlbNamed (l.ctxId s) x)

/-- TLBINV: the thread goes on when every named translation is gone. -/
def execTlbinv (f : Fields) (s : State) : Host.Outcome State Fault Refusal :=
  sysw f (fun s l x => .ok (s.invalidate l x)) s

def execLoopWrite (f : Fields) (s : State) : Host.Outcome State Fault Refusal :=
  sysw f (fun s l x =>
    match s.writeLoop (l.ctxId s) (f.sysNum - 0x050) (BitVec.ofNat 32 x) with
    | some t => .ok t
    | none => .error (.fault (opInfo 2 f.sa.toSpec.toNat pSA))) s

/-- A membership register with one half written (R408): reserved fields stay 0, GRACE 0 is stored as 1, VOP 3 as 0, and LRES
is read-only. -/
def Mset.write (m : BitVec 128) (high : Bool) (x : Nat) : BitVec 128 :=
  if high then
    let grace := bitsOf x 39 24
    let h := bitsOf x 17 0 + (if grace = 0 then 1 else grace) * 2 ^ 24 + bitsOf x 63 40 * 2 ^ 40
    BitVec.ofNat 128 (h * 2 ^ 64 + m.toNat % 2 ^ 64)
  else
    let vop := bitsOf x 15 14
    let l := bitsOf x 63 16 * 2 ^ 16 + (if vop = 3 then 0 else vop) * 2 ^ 14 + bitsOf x 13 12 * 2 ^ 12
      + bitsOf m.toNat 11 11 * 2 ^ 11 + x % 2
    BitVec.ofNat 128 (bitsOf m.toNat 127 64 * 2 ^ 64 + l)

/-- A membership register takes a new value: the voters of its open sequences take the membership fault with cause 3, those that
are saved or on their way back too, and the history holds nothing (R408). -/
def State.setMset (s : State) (ctx n : Nat) (m : BitVec 128) : State :=
  let opens := (s.ctx ctx).openSeqs.filter (fun o => o.reg == n)
  let s := opens.foldl (fun s o => (s.ctxGangs ctx).foldl (fun s k =>
    (s.resolveGang k n o.seq 3 0).modGang (k / 64) (k % 64) (fun g => g.voidVote n o.seq)) s) s
  s.modCtx ctx (fun y => { y with
    mset := Tbl.put y.mset n m
    mout := Tbl.put y.mout n 0xFFFFFFFFFFFFFFFF
    openSeqs := y.openSeqs.filter (fun o => o.reg != n)
    saved := y.saved.map (fun t => { t with gangs := t.gangs.map (fun g => opens.foldl (fun g o => g.voidVote n o.seq) g) }) })

/-- A write of half a membership register. -/
def State.writeMset (s : State) (ctx n : Nat) (high : Bool) (x : Nat) : State :=
  s.setMset ctx n (Mset.write ((s.ctx ctx).msetOf n) high x)

/-- Firmware writes a register in the context's entry, with the effect of a `sysw` of each half (R434). -/
def State.loadMset (s : State) (ctx n : Nat) (v : BitVec 128) : State :=
  (s.writeMset ctx n false (v.toNat % 2 ^ 64)).writeMset ctx n true (v.toNat / 2 ^ 64)

def execMsetWrite (f : Fields) (s : State) : Host.Outcome State Fault Refusal :=
  sysw f (fun s l x => .ok (s.writeMset (l.ctxId s) ((f.sysNum - 0x060) / 2) (f.sysNum % 2 == 1) x)) s

def execPgbudgetWrite (f : Fields) (s : State) : Host.Outcome State Fault Refusal :=
  sysw f (fun s l x =>
    .ok (s.modDie (dieOf l.core) (fun d =>
      { d with budget := max (x % 256) 1, ramp := min (max (x / 256 % 256) 1) 64 }))) s

/-! ## Beats and device launch (R217 to R219) -/

/-- `beat`: held on a speculative path (R422). -/
def beatAct (f : Fields) (s : State) (l : Lane) : Except LaneFail State := do
  l.check s [(pSA, .src false, f.sa)]
  let w ← l.readWord s pSA f.sa
  if w == 0 || 255 < w.toNat then .error (.fault (opInfo 2 f.sa.toSpec.toNat pSA))
  else
    let s := s.latch l f
    if (l.thr s).spec then .ok (s.modThr l.core l.slot (fun th => { th with heldBeats := th.heldBeats + w.toNat }))
    else .ok ((s.addBeats l.core (l.ctxId s) w.toNat).markVisible (l.team s).grid)

def execBeat (f : Fields) (s : State) : Host.Outcome State Fault Refusal :=
  s.execSeq f.guard f.readsChannel (fun s l => seqAct s (beatAct f s l))

/-- Fields of a queue's QCTL (R202). -/
def Queue.log2n (q : Queue) : Nat := q.qctl.toNat % 32
def Queue.prio (q : Queue) : Nat := bitsOf q.qctl.toNat 7 5
def Queue.en (q : Queue) : Bool := q.qctl.getLsbD 20
def Queue.devq (q : Queue) : Bool := q.qctl.getLsbD 21
def Queue.count (q : Queue) : Nat := (q.wridx - q.rdidx).toNat
def Queue.slotAddr (q : Queue) (i : DWord) : Nat := (q.ring + BitVec.ofNat 64 (64 * (i.toNat % 2 ^ q.log2n))).toNat

/-- Writes a `launch`'s packet into its ring: the status of R219, and the state. A ring address that is not mapped takes
nothing, and WRIDX still advances (log entry 21). -/
def State.launchInto (s : State) (ctx n : Nat) (priv : Bool) (img : List Byte) : Nat × State :=
  let q := Tbl.at s.queues n {}
  let ptype := (img.headD 0).toNat % 16
  if 4095 < n || !q.en || !q.devq || q.log2n < 4 || 16 < q.log2n || queueCtx q != ctx then (2, s)
  else if ptype = 0 || (if priv then 5 else 4) < ptype then (3, s)
  else if q.count = 2 ^ q.log2n then (1, s)
  else
    let t := match s.unitWrite ctx { store := true, user := false } (q.slotAddr q.wridx) img with
      | .ok t => t
      | .error _ => s
    (0, { t with queues := Tbl.put t.queues n { Tbl.at t.queues n {} with wridx := q.wridx + 1 } })

/-- The bytes of an image: a word with an uncorrectable error has an open value (log entry 6). -/
def openBytes (free : Nat) (bs : Loaded) : List Byte :=
  ((List.range bs.length).zip bs).map (fun p =>
    if p.2.2 then (Config.freeWord (free + p.1 / 4)).extractLsb' (8 * (p.1 % 4)) 8 else p.2.1)

/-- `launch`: the image is loaded and checked as `dld` does, the issuing thread's stores are released at device scope, and
the packet goes into the ring. -/
def launchAct (f : Fields) (s : State) (l : Lane) : Except LaneFail State := do
  l.check s [(pSA, .reg true, f.sa), (pSB, .src false, f.sb), (pDST, .load false, f.dst)]
  let flag ← l.needFlag (f.md.getLsbD 0)
  l.stopIfSpec s
  let ea ← (l.readPair s pSA f.sa).map (·.toNat)
  let n ← l.readWord s pSB f.sb
  let (s, lo, hi) ← distReach f (s.latch l f) l ea { load := true }
  let (s, a) := s.memRead l lo ea 32 0 false
  let (s, b) := s.memRead l hi (ea + 32) 32 0 false
  let img := openBytes s.free (a ++ b)
  let s := if (a ++ b).any (·.2) then { s with free := s.free + 16 } else s
  let s := (s.releaseAt l.core (l.team s) 4).markVisible (l.team s).grid
  let r := s.launchInto (l.ctxId s) n.toNat (l.thr s).priv img
  .ok (r.2.issue l.core l.slot flag (groupWords f.dst [(BitVec.ofNat 32 r.1, false)]) none)

def execLaunch (f : Fields) (s : State) : Host.Outcome State Fault Refusal :=
  longOp s f (f.md.getLsbD 0) (fun s l => seqAct s (launchAct f s l))

/-! ## Traps, no-operations and unassigned words (R132, R133, R63) -/

def trapAct (f : Fields) (s : State) (l : Lane) : LaneFail :=
  let r : Except LaneFail Word := do
    l.check s [(pSA, .srcOpt false, f.sa)]
    if f.sa == .none then .ok 0 else l.readWord s pSA f.sa
  match r with
  | .error e => e
  | .ok w => .fault ⟨5, w, 0⟩

/-- A trap has no effect but its fault; a source %clk is read all the same, and latches %clkh (DESIGN CHOICE, log entry 83). -/
def execTrap (f : Fields) (s : State) : Host.Outcome State Fault Refusal :=
  s.execSeq f.guard f.readsChannel (fun s l => (s.latch l f, some (trapAct f s l)))

def execBrk (f : Fields) (s : State) : Host.Outcome State Fault Refusal :=
  s.execSeq f.guard false (fun s _ => (s, some (.fault ⟨6, 0, 0⟩)))

def execNop (f : Fields) (s : State) : Host.Outcome State Fault Refusal := s.execSeq f.guard false (fun s _ => (s, none))

/-- A hint changes no result; `hint.spin` is read when an entry is allocated (R133, R173). -/
def execHint (f : Fields) (s : State) : Host.Outcome State Fault Refusal := s.execSeq f.guard false (fun s _ => (s, none))

def execUnassignedOpcode (g : Guard) (_major : BitVec 8) (s : State) : Host.Outcome State Fault Refusal :=
  s.execSeq g false (fun s _ => (s, some (.fault illegalEncoding)))

/-! ## Ends of long-latency operations, walks and refetches -/

/-- Words of an operation: a system register read takes its value now (R129). -/
def State.bindLate (s : State) (c : Nat) (op : Pending) : Pending :=
  match op.late with
  | none => op
  | some n =>
    let x := (⟨c, op.slot, 0, 0, 0, 0⟩ : Lane).sysRead s n
    { op with
      late := none
      words := ((List.range op.words.length).zip op.words).map (fun p =>
        (p.2.1, if p.1 = 0 then loWord x else hiWord x, false)) }

/-- A word of an operation's result is written; with the last the flag falls (R18, R21). -/
def execLongLatencyComplete (core _slot op word : Nat) (s : State) : Host.Outcome State Fault Refusal :=
  match (s.core core).pending.find? (fun o => o.id == op) with
  | none => .next s
  | some o =>
    let o := s.bindLate core o
    match o.words[word]? with
    | none => if o.words.isEmpty then .next (s.endPending core o) else .next s
    | some w =>
      let s := s.putPending core o w
      let o := { o with words := o.words.eraseIdx word }
      if o.words.isEmpty then .next (s.endPending core o)
      else .next (s.modCore core (fun k => { k with pending := k.pending.map (fun x => if x.id == op then o else x) }))

/-- A walk finishes: the core's context has the translation cached (R257, R259). -/
def execTranslationComplete (core va : Nat) (s : State) : Host.Outcome State Fault Refusal :=
  match (s.core core).ctx with
  | none => .next s
  | some x =>
    match s.translate core x { user := false } va with
    | .ok (t, _) => .next t
    | .error _ => .next s

/-- A bad line that several partitions share is fetched again from HBM; when that is bad as well the line is not kept (R343). -/
def execL2Refetch (line : Nat) (s : State) : Host.Outcome State Fault Refusal :=
  match Tbl.look s.l2 line with
  | none => .next s
  | some x =>
    if !x.bad || !s.sharedAt 0 x.key (64 * line) then .next s
    else if s.physBad (64 * line) 64 then .next (s.l2Lose line)
    else .next (s.reload line x)

end Sys2Proof.Machine
end

