-- ==== Sys2Proof/Machine/Layout.lean ====
section
/-!
DEFINITION. Layout registers (R287 to R290, R391, R392), the joining of slices into copies (R285, R291, R292, R296, R393),
copy tokens (R298 to R300), the end of a copy (R301, R303), and leave from the power governor (R325, R326).
-/
namespace Sys2Proof.Machine

/-! ## Layouts (R287 to R289) -/

namespace Ly
def ext (y : BitVec 256) (k : Nat) : Nat := bitsOf y.toNat (12 * k + 11) (12 * k) + 1
def esz (y : BitVec 256) : Nat := 2 ^ bitsOf y.toNat 49 48
def tiled (y : BitVec 256) : Bool := y.getLsbD 50
def word (y : BitVec 256) (k : Nat) : Nat := y.toNat / 2 ^ (128 + 32 * k) % 2 ^ 32
/-- Extents, element size and grid fields as numbers to compare. -/
def exts (y : BitVec 256) : List Nat := (List.range 4).map (ext y)
/-- The grid fields (R391). -/
def grid (y : BitVec 256) : Nat := bitsOf y.toNat 114 51
def gx (y : BitVec 256) : Nat := bitsOf (grid y) 8 0 + 1
def gy (y : BitVec 256) : Nat := bitsOf (grid y) 17 9 + 1
def gz (y : BitVec 256) : Nat := bitsOf (grid y) 26 18 + 1
def rmask (y : BitVec 256) (d : Nat) : Bool := bitOf (grid y) (27 + d)
def rop (y : BitVec 256) : Nat := bitsOf (grid y) 32 30

/-- The offset of an element. -/
def offset (y : BitVec 256) (i0 i1 i2 i3 : Nat) : Int :=
  if !tiled y then
    (i0 : Int) * sx (word y 0) 32 + (i1 : Int) * sx (word y 1) 32 + (i2 : Int) * sx (word y 2) 32 + (i3 : Int) * sx (word y 3) 32
  else
    let bw := 2 ^ bitsOf (word y 1) 3 0
    let bh := 2 ^ bitsOf (word y 1) 7 4
    let bx := i0 / bw
    let xi := i0 % bw
    let ey := i1 / bh
    let yi := i1 % bh
    let blk := if bitOf (word y 0) 0 then ey + ext y 1 / bh * bx else bx + ext y 0 / bw * ey
    let inn := if bitOf (word y 1) 8 then yi + bh * xi else xi + bw * yi
    let o := (blk * bw * bh + inn) * esz y
    ((o ^^^ ((o / 2 ^ bitsOf (word y 2) 7 4 % 2 ^ bitsOf (word y 2) 1 0) * 32) : Nat) : Int)

/-- The checks of R290 on the words of a `tlay`. -/
def wordsOk (kind : Bool) (ws : List Nat) (es : List Nat) (size : Nat) : Bool :=
  if !kind then ws.all (fun w => sx w 32 % (size : Int) == 0)
  else
    let w0 := ws.getD 0 0
    let w1 := ws.getD 1 0
    let w2 := ws.getD 2 0
    let bw := bitsOf w1 3 0
    let bh := bitsOf w1 7 4
    let swb := bitsOf w2 1 0
    w0 < 2 && w1 < 512 && bitsOf w2 31 8 == 0 && bitsOf w2 3 2 == 0 && ws.getD 3 0 == 0
    && es.getD 2 0 == 1 && es.getD 3 0 == 1 && bw ≤ 8 && bh ≤ 8
    && es.getD 0 0 % 2 ^ bw == 0 && es.getD 1 0 % 2 ^ bh == 0
    && 5 + swb ≤ bitsOf w2 7 4
    && (swb == 0 || 2 ^ (5 + swb) ≤ 2 ^ bw * 2 ^ bh * size)
end Ly

def Team.lyOf (t : Team) (n : Nat) : BitVec 256 := Tbl.at t.ly n 0

/-! ## Instructions that act once for a gang (R290, R291) -/

/-- The executing lanes of each gang of a pass, with the lanes a per-lane check turns away. -/
def laneChecks (s : State) (c : Nat) (x : Pass) (g : Guard) (chk : Lane → Except LaneFail Unit) :
    List (Nat × LaneFail) × List Nat :=
  let rs := (s.executing c x g).map (fun k => (k, chk (x.lane c k)))
  (rs.filterMap (fun e => match e.2 with | .error r => some (e.1, r) | .ok _ => none),
   rs.filterMap (fun e => match e.2 with | .ok _ => some e.1 | .error _ => none))

/-- The lowest participant: lanes that fault in their reads leave, and the first that reads supplies the value. -/
def leadRead {α : Type} (rd : Nat → Except LaneFail α) : List Nat → List (Nat × LaneFail) × Option (Nat × α)
  | [] => ([], none)
  | k :: r =>
    match rd k with
    | .ok a => ([], some (k, a))
    | .error e => let t := leadRead rd r; ((k, e) :: t.1, t.2)

/-- An instruction of a gang whose lowest participant reads its operands. `act` gets the gang slot, the lead lane, its value
and the gang's lanes that remain, and may turn the lead lane away. -/
def gangRead {α : Type} (s : State) (f : Fields) (chk : Lane → Except LaneFail Unit) (rd : Lane → Except LaneFail α)
    (act : State → Nat → Lane → α → List Nat → Except LaneFail State) : Host.Outcome State Fault Refusal :=
  match s.curPass with
  | none => .fault .noPass
  | some (c, p, x) =>
    let r := laneChecks s c x f.guard chk
    let t := (gangsOf r.2).foldl (fun (a : State × List (Nat × LaneFail)) gs =>
      let ks := r.2.filter (fun k => k / 32 == gs)
      match leadRead (fun k => rd (x.lane c k)) ks with
      | (bad, none) => (a.1, a.2 ++ bad)
      | (bad, some (k, v)) =>
        let rest := ks.filter (fun j => !bad.any (fun b => b.1 == j))
        match act (a.1.latch (x.lane c k) f) gs (x.lane c k) v rest with
        | .ok t => (t, a.2 ++ bad)
        | .error e => (a.1, a.2 ++ bad ++ [(k, e)])) (s, r.1)
    let gone := t.2.map (·.1)
    let took := (r.2.filter (fun k => !gone.contains k)).map (fun k => (k, ({ th := s.thr c k } : LaneOut)))
    let u := t.1.useChans c x f.readsChannel took
    .next (u.1.afterInstr c p u.2 t.2)

/-- Four v registers from a multiple of 4, or an even v pair, as the source of a layout word group. -/
def vGroupAt (n : Nat) (o : Operand) : Bool :=
  match o with
  | .v r => r.toNat % n == 0
  | _ => false

def badSA (f : Fields) : LaneFail := .fault (opInfo 2 f.sa.toSpec.toNat pSA)

/-- Checks of a layout instruction in a lane. -/
def tlayCheck (f : Fields) (n : Nat) (s : State) (l : Lane) : Except LaneFail Unit :=
  if !vGroupAt n f.sa then .error (badSA f) else l.stopIfSpec s

/-- `tlay` keeps the grid fields (R391). -/
def execTlay (f : Fields) (e : TlayExt) (s : State) : Host.Outcome State Fault Refusal :=
  gangRead s f (tlayCheck f 4 s) (fun l => l.readGroup s pSA f.sa 0 4) (fun s _ l ws _ =>
    let es := (List.range 4).map (fun k => bitsOf e.extm1.toNat (12 * k + 11) (12 * k) + 1)
    let ns := ws.map (fun (w : Word) => w.toNat)
    if !Ly.wordsOk e.kind ns es (2 ^ e.esz.toNat) then .error (badSA f)
    else
      .ok (s.modTeam (l.gang s).team (fun t =>
        let old := t.lyOf e.ly.toNat
        let y := e.extm1.toNat + e.esz.toNat * 2 ^ 48 + b2n e.kind * 2 ^ 50 + Ly.grid old * 2 ^ 51
          + ((List.range 4).zip ns).foldl (fun a p => a + p.2 * 2 ^ (128 + 32 * p.1)) 0
        { t with ly := Tbl.put t.ly e.ly.toNat (BitVec.ofNat 256 y) })))

/-- Whether the value of a `tlay.grid` breaches R392. -/
def gridOk (x : Nat) : Bool :=
  x / 2 ^ 33 == 0 && bitsOf x 32 30 != 7 && (bitsOf x 8 0 + 1) * (bitsOf x 17 9 + 1) * (bitsOf x 26 18 + 1) ≤ 512

def execTlayGrid (f : Fields) (e : GridExt) (s : State) : Host.Outcome State Fault Refusal :=
  gangRead s f (tlayCheck f 2 s) (fun l => l.readPair s pSA f.sa) (fun s _ l x _ =>
    if !gridOk x.toNat then .error (badSA f)
    else
      .ok (s.modTeam (l.gang s).team (fun t =>
        let old := (t.lyOf e.ly.toNat).toNat
        let y := old % 2 ^ 51 + x.toNat * 2 ^ 51 + old / 2 ^ 115 * 2 ^ 115
        { t with ly := Tbl.put t.ly e.ly.toNat (BitVec.ofNat 256 y) })))

/-! ## Copies of a team -/

namespace CopySt
def ended : CopySt → Bool
  | .completed | .failed => true
  | _ => false
end CopySt

def State.copy (s : State) (id : Nat) : Option Copy := Tbl.look s.copies id
def State.setCopy (s : State) (x : Copy) : State := { s with copies := Tbl.put s.copies x.id x }
def State.modCopy (s : State) (id : Nat) (h : Copy → Copy) : State := { s with copies := Tbl.adjust s.copies id h }
def State.due (s : State) (i : Instr) : State := { s with agenda := s.agenda ++ [.event i] }
/-- An event comes next of all. -/
def State.dueNow (s : State) (i : Instr) : State := { s with agenda := .event i :: s.agenda }

def CopyKind.isColl : CopyKind → Bool
  | .coll .. => true
  | _ => false

/-- Whether the source and the destination are global (R291). -/
def CopyKind.srcGlobal : CopyKind → Bool
  | .plain d => d == 0 || d == 2
  | .sparse d _ => d == 0 || d == 2
  | .coll .. => true
def CopyKind.dstGlobal : CopyKind → Bool
  | .plain d => d == 1 || d == 2
  | .sparse d _ => d == 1 || d == 2
  | .coll .. => true
/-- Whether the metadata or the status record lies in global memory (R296, R393). -/
def CopyKind.auxGlobal (k : CopyKind) : Bool :=
  match k with
  | .sparse _ cmp => if cmp then k.dstGlobal else k.srcGlobal
  | _ => false

/-- The gangs that participate in a copy, and the rank of the first (R291). -/
def Copy.gangs (x : Copy) (g : Grid) : List Nat :=
  if x.all then List.range (g.pgangs + g.cgangs)
  else if x.producer then List.range g.pgangs
  else (List.range g.cgangs).map (g.pgangs + ·)
def Copy.rankOf (x : Copy) (g : Grid) (gang : Nat) : Nat := if x.all || x.producer then gang else gang - g.pgangs

/-- Whether a gang of a team still has a live lane. -/
def State.gangLive (s : State) (team gang : Nat) : Bool :=
  s.gangs.any (fun e => e.2.team == team && e.2.num == gang && !(s.liveLanes (e.1 / 64) (e.1 % 64)).isEmpty)

/-- Every slice has arrived: a gang with no live lane counts with an empty one (R292). -/
def State.allArrived (s : State) (x : Copy) : Bool :=
  let g := s.grid (s.team x.team).grid
  (x.gangs g).all (fun n => (Tbl.look x.slices (x.rankOf g n)).isSome || !s.gangLive x.team n)

/-- The next event of a copy: what a thread that waits for it lets happen. -/
def State.copyEvent (s : State) (id : Nat) : Option Instr :=
  match s.copy id with
  | none => none
  | some x =>
    match x.st with
    | .collecting | .checking => if s.allArrived x then some (.copyCheck id) else none
    | .leave => if (s.die (dieOf (s.team x.team).core)).queue.any (fun r => r.id == id) then some (.leaveGrant (dieOf (s.team x.team).core))
        else some (.leaveRequest id)
    | .queued => some (.copyDeliver id)
    | .delivering => some (.copyUnitWrite id)
    | _ => if x.told then none else if x.kind.isColl then some (.collectiveComplete id) else some (.copyComplete id)

/-- What a lane supplies of a slice. -/
structure SliceArgs where
  src : DWord
  dst : DWord
  aux : DWord
  deriving DecidableEq, Repr, Inhabited

/-- Reads a base: a pair for a global side, a 32-bit operand for a scratchpad side. -/
def Lane.readBase (l : Lane) (s : State) (glob : Bool) (place : Nat) (o : Operand) : Except LaneFail DWord :=
  if glob then l.readPair s place o else (l.readWord s place o).map (fun w => w.setWidth 64)

/-- The copy a slice joins: a new one for the first slice (R292). -/
def newCopy (s : State) (team : Nat) (g : Grid) (gang chan num : Nat) (kind : CopyKind) (policy : Nat)
    (a b : BitVec 3) (all user : Bool) (aux : DWord) : Copy :=
  let t := s.team team
  { id := s.ids, team := team, chan := chan, num := num, kind := kind, policy := policy, lyS := t.lyOf a.toNat
    lyD := t.lyOf b.toNat, lySn := a, lyDn := b, all := all, producer := isProducer g gang, aux := aux, user := user }

/-- A failed copy's record as a token holds it (R301, R399). -/
def Copy.errOf (x : Copy) (cause : Nat) (wr stage2 : Bool) (faddr : DWord) (stamp : Nat) : CopyErr :=
  if x.kind.isColl then ⟨0x15, BitVec.ofNat 32 (8 * x.chan + 32 * cause), x.aux, stamp⟩
  else ⟨0x13, BitVec.ofNat 32 (8 * x.chan + 32 * cause + 256 * b2n wr + 512 * b2n stage2), faddr, stamp⟩

/-- The earlier of two failures. -/
def firstErr (a b : Option CopyErr) : Option CopyErr :=
  match a, b with
  | some x, some y => if y.stamp < x.stamp then some y else some x
  | some x, none => some x
  | none, y => y

/-- A thread holds a copy in its open set; one that has already ended leaves only its error (R299), which is the set's first if
it failed before the others (R300). -/
def Thread.hold (th : Thread) (x : Copy) : Thread :=
  if x.told then { th with openErr := firstErr th.openErr x.err } else { th with copies := Tbl.put th.copies x.id none }

/-- A gang supplies a slice: it joins the copy of its number on the channel. One that differs from the first makes the copy fail,
also when it comes after the copy's checks: the event of the check then comes next (R292). -/
def State.joinCopy (s : State) (c gs : Nat) (kind : CopyKind) (chan policy : Nat) (a b : BitVec 3) (all user : Bool)
    (args : SliceArgs) (ks : List Nat) : State :=
  let gang := s.gang c gs
  let team := gang.team
  let t := s.team team
  let g := s.grid t.grid
  let s := if kind.dstGlobal && !kind.isColl then s.markVisible t.grid else s
  -- the source reads come after the lanes' earlier stores (R280)
  let s := (s.l1Cores c t).foldl (fun s k => s.writeBackAll k) s
  let m := Tbl.at t.joined (4 * gang.num + chan) 0
  let s := s.modTeam team (fun t => { t with joined := Tbl.put t.joined (4 * gang.num + chan) (m + 1) })
  let old := (Tbl.vals s.copies).find? (fun x => x.team == team && x.chan == chan && x.num == m)
  let x := match old with
    | some x => x
    | none => newCopy s team g gang.num chan m kind policy a b all user args.aux
  let s := match old with
    | some _ => s
    | none => { s.modTeam team (fun t => { t with started := Tbl.put t.started chan (Tbl.at t.started chan 0 + 1) }) with ids := s.ids + 1 }
  let same := x.kind == kind && x.policy == policy && x.lySn == a && x.lyDn == b && x.all == all && x.aux == args.aux
  let mine := (x.gangs g).contains gang.num
  let bad := !same || !mine
  let x := if x.st.ended then x
    else
      { x with
        mismatch := x.mismatch || bad
        slices := if mine && x.st == .collecting then Tbl.put x.slices (x.rankOf g gang.num) ⟨args.src, args.dst, args.aux⟩ else x.slices }
  let s := s.setCopy x
  let s := ks.foldl (fun s k => s.modThr c k (fun th => th.hold x)) s
  if x.st == .collecting then (if s.allArrived x then s.due (.copyCheck x.id) else s)
  else if bad && !x.st.ended then s.dueNow (.copyCheck x.id) else s

/-- The slot of an executing lane whose open set is full, with a copy it holds there (R298). -/
def State.fullOpen (s : State) (g : Guard) : Option (Nat × Nat) :=
  match s.curPass with
  | none => none
  | some (c, _, x) =>
    match (s.executing c x g).find? (fun k => 63 ≤ (s.thr c k).openCount) with
    | none => none
    | some k => ((s.thr c k).copies.find? (fun e => e.2 == none)).map (fun e => (k, e.1))

/-- The lowest-numbered copy on a copy's channel that has not ended: the one its end waits for. -/
def State.firstOnChannel (s : State) (id : Nat) : Nat :=
  match s.copy id with
  | none => id
  | some x => ((s.currentCopy x.team x.chan).map (·.id)).getD id

/-- Lets a copy that a stalled pass waits for go on; a pass whose copy waits for other gangs gives the turn away (R298, R299). -/
def State.waitCopy (s : State) (id : Nat) : Host.Outcome State Fault Refusal :=
  match s.copyEvent (s.firstOnChannel id) with
  | some i => s.waitFor i
  | none => .next s.stall

/-- A copy instruction: its fields, its lowest participant's bases, and its slice. -/
def copyInstr (s : State) (f : Fields) (kind : CopyKind) (policy : Nat) (a b : BitVec 3) (all : Bool) : Host.Outcome State Fault Refusal :=
  match s.fullOpen f.guard with
  | some (_, id) => s.waitCopy id
  | none =>
    let sideKind (glob : Bool) : OpKind := if glob then .reg true else .src false
    let sparse := match kind with
      | .plain _ => false
      | _ => true
    gangRead s f
      (fun l => do
        l.check s ([(pSA, sideKind kind.srcGlobal, f.sa), (pSB, sideKind kind.dstGlobal, f.sb)]
          ++ (if sparse then [(pSC, sideKind kind.auxGlobal, f.sc)] else []))
        l.stopIfSpec s)
      (fun l => do
        let x ← l.readBase s kind.srcGlobal pSA f.sa
        let y ← l.readBase s kind.dstGlobal pSB f.sb
        let z ← if sparse then l.readBase s kind.auxGlobal pSC f.sc else .ok 0
        .ok (⟨x, y, z⟩ : SliceArgs))
      (fun s gs l args ks => .ok (s.joinCopy l.core gs kind (f.slot.toNat % 4) policy a b all (!(l.thr s).priv) args ks))

def execTcopy (f : Fields) (e : CopyExt) (s : State) : Host.Outcome State Fault Refusal :=
  copyInstr s f (.plain (f.minor.toNat % 4)) (f.minor.toNat / 4) e.lyS e.lyD e.all

def execTcopyx (f : Fields) (e : CopyExt) (s : State) : Host.Outcome State Fault Refusal :=
  copyInstr s f (.sparse (f.minor.toNat % 4) (f.minor.getLsbD 2)) 0 e.lyS e.lyD e.all

/-- `ccoll` is a copy on its team channel (R394). -/
def execCcoll (f : Fields) (e : CcollExt) (s : State) : Host.Outcome State Fault Refusal :=
  copyInstr s f (.coll (f.minor.toNat % 4) (f.minor.toNat / 4) f.ty e.mreg.toNat e.dx.toInt e.dy.toInt e.dz.toInt) 0 e.lyS e.lyD e.all

/-! ## Tokens (R298, R299) -/

def Tbl.putOpt {α : Type} (t : Tbl α) (k : Nat) : Option α → Tbl α
  | some x => Tbl.put t k x
  | none => t

/-- Seals the open set into a batch. -/
def Thread.seal (th : Thread) (n : Nat) : Thread :=
  { th with
    copies := th.copies.map (fun e => if e.2 == none then (e.1, some n) else e)
    batchErr := Tbl.putOpt th.batchErr n (firstErr (Tbl.look th.batchErr n) th.openErr)
    openErr := none }

/-- `tseal` waits while a lane's batch and open set would exceed 63 copies. -/
def execTseal (f : Fields) (s : State) : Host.Outcome State Fault Refusal :=
  let n := f.minor.toNat
  match s.curPass with
  | none => .fault .noPass
  | some (c, _, x) =>
    match (s.executing c x f.guard).find? (fun k => 63 < (s.thr c k).tokenCount n + (s.thr c k).openCount) with
    | some k =>
      match (s.thr c k).copies.find? (fun e => e.2 == none || e.2 == some n) with
      | some e => s.waitCopy e.1
      | none => .next s
    | none => s.execSeq f.guard false (fun s l => (s.modThr l.core l.slot (fun th => th.seal n), none))

/-! ## Leave (R325, R326) -/

/-- Pairs of a sealed partition on a die, each with 2 AE of its own (R359). -/
def State.sealedPairs (s : State) (d p : Nat) : Nat :=
  ((List.range 32).filter (fun i => s.partOfPair (32 * d + i) == some p && s.pairSealed (32 * d + i))).length

/-- The budget of a die left to unsealed partitions. -/
def State.openBudget (s : State) (d : Nat) : Nat :=
  (s.die d).budget - 2 * ((List.range 32).filter (fun i => s.pairSealed (32 * d + i))).length

/-- AE held on a die by the contexts that satisfy a test. -/
def State.heldAE (s : State) (d : Nat) (p : Nat → Bool) : Nat :=
  (Tbl.vals (s.die d).permits).foldl (fun n e => if p e.2 then n + e.1 else n) 0

/-- Copies that are queued with every earlier copy of their channel ended become ready, in the order met (R285). -/
def State.markReady (s : State) : State :=
  s.copies.foldl (fun s e =>
    match s.copy e.1 with
    | none => s
    | some x =>
      if x.st == .queued && x.ready.isNone && s.firstOnChannel x.id == x.id then
        { s.setCopy { x with ready := some s.ids } with ids := s.ids + 1 }
      else s) s

/-- The time a request has stood in the queue counts for its context (R327), once it leaves the queue (DESIGN CHOICE, log entry 116). -/
def State.addWait (s : State) (r : LeaveReq) : State :=
  s.modCtx r.ctx (fun x => { x with lvwait := x.lvwait + BitVec.ofNat 64 ((s.time - r.since) / 1000) })

/-- Grants a request: the permit, the window, and the waiting time of its context (R327). -/
def State.grantLeave (s : State) (d : Nat) (r : LeaveReq) (cost : Nat) : State :=
  let s := s.modDie d (fun y => { y with
    queue := y.queue.filter (fun q => q.id != r.id)
    permits := Tbl.put y.permits r.id (cost, r.ctx)
    recent := y.recent ++ [(s.timebase, cost)] })
  let s := s.addWait r
  if r.isCopy then ((s.modCopy r.id (fun x => { x with st := .queued })).markReady).due (.copyDeliver r.id)
  else
    (s.modCore r.core (fun k => { k with fifo := k.fifo.map (fun e => if e.id == r.id then { e with leave := 2 } else e) })).due (.mmaStart r.core)

/-- Whether a request is the first of its sealed partition in a queue. -/
def State.firstOfPart (s : State) (y : Die) (r : LeaveReq) : Bool :=
  (y.queue.find? (fun q => s.isSealed q.ctx && (s.ctx q.ctx).part == (s.ctx r.ctx).part)).any (·.id == r.id)

/-- Grants from the head of the queue while the head fits (R326). A sealed partition's requests take its own budget ahead of
the queue, in their order (R359). When only the window is full, its time passes. Where the sealed pairs' shares use up BUDGET, the
budget left is 0, and an unsealed request is granted with 0 AE, as min(cost, BUDGET, RAMP) then gives it (DESIGN CHOICE, log entry
117). -/
def State.grantAll (s : State) (d : Nat) : Nat → State
  | 0 => s
  | n + 1 =>
    let y := s.die d
    let sealedReq := y.queue.find? (fun r =>
      s.isSealed r.ctx && s.firstOfPart y r && s.heldAE d (fun c => (s.ctx c).part == (s.ctx r.ctx).part) + r.cost
        ≤ 2 * s.sealedPairs d (s.ctx r.ctx).part)
    match sealedReq with
    | some r => (s.grantLeave d r r.cost).grantAll d n
    | none =>
      match y.queue.find? (fun r => !s.isSealed r.ctx) with
      | none => s
      | some r =>
        let c := min (min r.cost (s.openBudget d)) y.ramp
        if s.openBudget d < s.heldAE d (fun x => !s.isSealed x) + c then s
        else if s.window d + c ≤ y.ramp then (s.grantLeave d r c).grantAll d n
        else
          -- the oldest grant leaves the window
          match (y.recent.filter (fun e => s.timebase < e.1 + 1000)).map (·.1) with
          | [] => s
          | t :: ts => (s.toTime (1000 * (ts.foldl min t + 1000))).grantAll d n

def execLeaveGrant (die : Nat) (s : State) : Host.Outcome State Fault Refusal :=
  .next (s.grantAll die (2 * ((s.die die).queue.length + (s.die die).recent.length)))

/-- Puts a request behind those of earlier cycles, and in ascending core among those of its own cycle (R326). -/
def insertReq (same : LeaveReq → Bool) (r : LeaveReq) : List LeaveReq → List LeaveReq
  | [] => [r]
  | q :: l => if same q && r.core < q.core then r :: q :: l else q :: insertReq same r l

/-- A request joins the queue of its die. -/
def State.askLeave (s : State) (r : LeaveReq) : State :=
  let d := dieOf r.core
  if (s.die d).queue.any (fun q => q.id == r.id) then s
  else (s.modDie d (fun y => { y with queue := insertReq (fun q => s.sameCycle q.core q.since) r y.queue })).due (.leaveGrant d)

/-- A request that waits is taken back; the time it has waited counts (R327). -/
def State.dropRequest (s : State) (d id : Nat) : State :=
  (((s.die d).queue.filter (fun q => q.id == id)).foldl State.addWait s).modDie d (fun y => { y with queue := y.queue.filter (fun q => q.id != id) })

/-- Releases a permit, which may let the queue go on. -/
def State.releaseLeave (s : State) (d id : Nat) : State :=
  if (Tbl.look (s.die d).permits id).isNone then s
  else (s.modDie d (fun y => { y with permits := Tbl.drop y.permits id })).due (.leaveGrant d)

/-! ## The end of a copy (R285, R298, R303) -/

/-- A thread learns of a copy's end: the count that holds it falls, and a failure is noted with it. -/
def Thread.copyEnded (th : Thread) (id : Nat) (err : Option CopyErr) : Thread :=
  match Tbl.look th.copies id with
  | none => th
  | some none => { th with copies := Tbl.drop th.copies id, openErr := firstErr th.openErr err }
  | some (some n) =>
    { th with copies := Tbl.drop th.copies id, batchErr := Tbl.putOpt th.batchErr n (firstErr (Tbl.look th.batchErr n) err) }

/-- The cluster whose TCU serves a copy: its team's, or the one that began to deliver it (R285, R354). -/
def State.tcuOf (s : State) (x : Copy) : Nat := x.tcu.getD (clusterOf (s.team x.team).core)

/-- Copies that may now start on the TCU channel of a cluster. -/
def State.wakeChannel (s : State) (cluster chan : Nat) : State :=
  s.copies.foldl (fun s e =>
    if e.2.st == .queued && e.2.chan == chan && s.tcuOf e.2 == cluster then s.due (.copyDeliver e.1) else s) s

/-- A copy that has completed or failed ends: every thread that holds it is told, CHSEQ rises, its permit goes, and the next
copy may start. -/
def State.endCopy (s : State) (x : Copy) : State :=
  let stamp := s.ids
  let err := x.err.map (fun e => { e with stamp := stamp })
  let s := { s.setCopy { x with told := true, err := err } with ids := s.ids + 1 }
  let s := (s.teamThreads x.team).foldl (fun s k => s.modThrBoth (k / 2048) (k % 2048) (fun th => th.copyEnded x.id err)) s
  let s := s.modTeam x.team (fun t => { t with chseq := Tbl.put t.chseq x.chan (Tbl.at t.chseq x.chan 0 + 1) })
  let s := s.releaseLeave (dieOf (s.team x.team).core) x.id
  (s.markReady).wakeChannel (s.tcuOf x) x.chan

/-- A copy fails, and asks for leave no more; its tokens are told by its completion event. -/
def State.failCopy (s : State) (x : Copy) (cause : Nat) (wr stage2 : Bool) (faddr : DWord) : State :=
  if x.st.ended then s
  else
    ((s.setCopy { x with st := .failed, err := some (x.errOf cause wr stage2 faddr 0) }).dropRequest
        (dieOf (s.team x.team).core) x.id).due
      (if x.kind.isColl then .collectiveComplete x.id else .copyComplete x.id)

end Sys2Proof.Machine
end

