-- ==== Sys2Proof/Machine/Copy.lean ====
section
/-!
DEFINITION. What a copy does: its elements and units (R292, R294), the checks of R293, reading and writing its sides, the
compacting and expanding copies (R296, R297), and bank conflicts (R304).
-/
namespace Sys2Proof.Machine

/-! ## Elements -/

/-- An element of a copy's destination: its slice and its index. -/
structure CopyElem where
  rank : Nat
  i3 : Nat
  i2 : Nat
  i1 : Nat
  i0 : Nat
  deriving DecidableEq, Repr, Inhabited

/-- Index order: a later element has the larger index (R294). -/
def CopyElem.after (a b : CopyElem) : Bool := keyLt [b.i3, b.i2, b.i1, b.i0] [a.i3, a.i2, a.i1, a.i0]

/-- The elements of one i3. -/
def elemsAt (y : BitVec 256) (rank i3 : Nat) : List CopyElem :=
  (List.range (Ly.ext y 2)).flatMap (fun i2 => (List.range (Ly.ext y 1)).flatMap (fun i1 =>
    (List.range (Ly.ext y 0)).map (fun i0 => ⟨rank, i3, i2, i1, i0⟩)))

/-- Number of gangs that take part. -/
def Copy.count (x : Copy) (g : Grid) : Nat := (x.gangs g).length

/-- The elements that the slices which are not empty cover in a layout, in index order (R292). -/
def Copy.elems (x : Copy) (g : Grid) (y : BitVec 256) : List CopyElem :=
  let q := Ly.ext y 3 / x.count g
  x.slices.flatMap (fun e => (List.range q).flatMap (fun t => elemsAt y e.1 (e.1 * q + t)))

def CopyElem.off (e : CopyElem) (y : BitVec 256) : Int := Ly.offset y e.i0 e.i1 e.i2 e.i3

def Copy.slice (x : Copy) (rank : Nat) : Slice := Tbl.at x.slices rank ⟨0, 0, 0⟩

/-- Exact addresses of an element on either side: the base, unsigned, plus the offset. -/
def Copy.srcAt (x : Copy) (e : CopyElem) : Int := (x.slice e.rank).src.toNat + e.off x.lyS
def Copy.dstAt (x : Copy) (e : CopyElem) : Int := (x.slice e.rank).dst.toNat + e.off x.lyD

/-- Destination elements of a copy. -/
def Copy.dstElems (x : Copy) (g : Grid) : List CopyElem := x.elems g x.lyD

/-! ## Metadata (R296, R297) -/

/-- The group of a dense element, and its place in it. -/
def denseGroup (y : BitVec 256) (e : CopyElem) : Nat := (e.i0 + Ly.ext y 0 * (e.i1 + Ly.ext y 1 * (e.i2 + Ly.ext y 2 * e.i3))) / 4
/-- The group of a compressed element, and which of the two kept ones it is. -/
def packedGroup (y : BitVec 256) (e : CopyElem) : Nat := (e.i0 + Ly.ext y 0 * (e.i1 + Ly.ext y 1 * (e.i2 + Ly.ext y 2 * e.i3))) / 2

/-- The groups of a dense layout. -/
def groupCount (y : BitVec 256) : Nat := Ly.ext y 0 * Ly.ext y 1 * Ly.ext y 2 * Ly.ext y 3 / 4

/-- The metadata bytes that the slices touch. -/
def Copy.metaBytes (x : Copy) (g : Grid) : List Nat :=
  match x.kind with
  | .sparse _ cmp =>
    let dense := if cmp then x.lyS else x.lyD
    (x.elems g dense).foldl (fun a e => insertSorted (denseGroup dense e / 2) a) []
  | _ => []

/-! ## The checks of R293 -/

/-- What a check comes to: nothing wrong, or a cause with its side and address. -/
abbrev Breach := Option (Nat × Bool × DWord)

/-- The first of a list of breaches. -/
def firstBreach : List Breach → Breach
  | [] => none
  | some b :: _ => some b
  | none :: r => firstBreach r

/-- Check 1: extents, element size, slices, tilings and offsets. -/
def Copy.shapeOk (x : Copy) (g : Grid) : Bool :=
  let n := x.count g
  let es := Ly.exts x.lyS
  let ed := Ly.exts x.lyD
  let half (dense packed : List Nat) : Bool :=
    dense.getD 0 0 % 4 == 0 && packed.getD 0 0 == dense.getD 0 0 / 2 && packed.drop 1 == dense.drop 1
  let shapes := match x.kind with
    | .plain _ => es == ed
    | .sparse _ cmp => (if cmp then half es ed else half ed es) && (Ly.esz x.lyS == 2 || Ly.esz x.lyS == 4)
    | .coll .. => true
  !x.mismatch && shapes && Ly.esz x.lyS == Ly.esz x.lyD && Ly.ext x.lyD 3 % n == 0 && Ly.ext x.lyS 3 % n == 0
  && !(x.kind.srcGlobal && Ly.tiled x.lyS) && !(x.kind.dstGlobal && Ly.tiled x.lyD)
  && (x.dstElems g).all (fun e => decide (0 ≤ e.off x.lyD))

/-- Check 2: a base that is no multiple of the element size, source before destination in each slice. -/
def Copy.baseBreach (x : Copy) : Breach :=
  let z := Ly.esz x.lyD
  firstBreach (x.slices.flatMap (fun e =>
    [if e.2.src.toNat % z == 0 then none else some (3, false, e.2.src), if e.2.dst.toNat % z == 0 then none else some (3, true, e.2.dst)]))

/-- The lowest of a list of exact byte addresses that satisfies a test. -/
def lowestOf (xs : List Int) (bad : Int → Bool) : Option Int :=
  (xs.filter bad).foldl (fun b a => match b with
    | none => some a
    | some y => some (min y a)) none

/-- The bytes an element covers from an exact address. -/
def bytesFrom (n : Nat) (a : Int) : List Int := (List.range n).map (fun (i : Nat) => a + i)

/-- Exact byte addresses of one side: a slice's source, its destination, or the metadata. -/
def Copy.sideBytes (x : Copy) (g : Grid) (rank : Nat) (dst : Bool) : List Int :=
  let y := if dst then x.lyD else x.lyS
  ((x.elems g y).filter (fun e => e.rank == rank)).flatMap (fun e => bytesFrom (Ly.esz y) (if dst then x.dstAt e else x.srcAt e))

/-- Breaches of checks 3 and 4 on the bytes of a side. -/
def byteBreach (glob wr : Bool) (scr : Nat) (canon : Bool) (xs : List Int) : Breach :=
  if glob then
    if canon then (lowestOf xs (fun a => !canonical (wrap a 64))).map (fun a => (4, wr, BitVec.ofInt 64 a)) else none
  else if canon then none
  else (lowestOf xs (fun a => a < 0 || (scr : Int) ≤ a)).map (fun a => (2, wr, BitVec.ofInt 64 a))

/-- Checks 3 or 4 over every slice, then the metadata. -/
def Copy.addrBreach (x : Copy) (g : Grid) (canon : Bool) : Breach :=
  let wrMeta := match x.kind with
    | .sparse _ cmp => cmp
    | _ => false
  firstBreach (x.slices.flatMap (fun e =>
      [byteBreach x.kind.srcGlobal false g.scrsize canon (x.sideBytes g e.1 false),
       byteBreach x.kind.dstGlobal true g.scrsize canon (x.sideBytes g e.1 true)])
    ++ [byteBreach x.kind.auxGlobal wrMeta g.scrsize canon ((x.metaBytes g).map (fun b => ((x.aux.toNat + b : Nat) : Int)))])

/-- The first breach of R293 in the order of its table. -/
def Copy.breach (x : Copy) (g : Grid) : Breach :=
  if !x.shapeOk g then some (6, false, 0)
  else firstBreach [x.baseBreach, x.addrBreach g true, x.addrBreach g false]

/-- Bytes a copy moves, counted on the destination side (R295). -/
def Copy.moved (x : Copy) : Nat := (Ly.exts x.lyD).foldl (· * ·) 1 * Ly.esz x.lyD

/-! ## Reading and writing a side (R294) -/

/-- Why a unit fails: cause, write side, stage, address. -/
structure UnitFail where
  cause : Nat
  wr : Bool := false
  stage2 : Bool := false
  addr : DWord
  deriving DecidableEq, Repr, Inhabited

/-- Translates an address of a global side. -/
def State.tcuMap (s : State) (x : Copy) (store : Bool) (a : Nat) : Except UnitFail Mapping :=
  match s.walk (s.teamCtx (s.team x.team)) { load := !store, store := store, user := x.user } a with
  | .ok m => .ok m
  | .error e => .error ⟨if e.1 == 8 then 0 else 1, store, e.2, BitVec.ofNat 64 a⟩

/-- Reads n bytes of a side. A shared line whose slice copy is bad is refetched first (R343). -/
def State.tcuRead (s : State) (x : Copy) (glob : Bool) (a : Int) (n : Nat) : Except UnitFail (List Byte) :=
  if glob then
    match s.tcuMap x false (wrap a 64) with
    | .error e => .error e
    | .ok m =>
      let ctx := s.teamCtx (s.team x.team)
      if (s.refetch ctx (m.pa / 64) (s.sharedAt m.perm2 m.key m.pa)).l2Bad ctx m.pa n then .error { cause := 5, addr := BitVec.ofInt 64 a }
      else .ok (s.physBytes m.key m.pa n)
  else .ok ((List.range n).map (fun i => (s.team x.team).spadByte (a.toNat + i)))

/-- What an access of the TCU leaves of a line in its slice: `.nalloc` brings none in, `.strm` marks it first for eviction (R291);
one that is bad is refetched or not kept (R248, R343). -/
def State.tcuTouch (s : State) (x : Copy) (store : Bool) (a : Int) : State :=
  match s.tcuMap x store (wrap a 64) with
  | .error _ => s
  | .ok m =>
    let t := s.team x.team
    let ctx := s.teamCtx t
    let line := m.pa / 64
    let s := if x.policy == 1 then s.ownKey m.key line else s.l2Touch t.core ctx m.key line
    let s := if x.policy == 2 then { s with l2 := Tbl.adjust s.l2 line (fun l => { l with first := true }) } else s
    (s.refetch ctx line (s.sharedAt m.perm2 m.key m.pa)).settleLine ctx line

/-- Writes bytes of a side; a global line leaves the L1 of the issuing team's core, whose later loads then see it (R280). -/
def State.tcuWrite (s : State) (x : Copy) (glob : Bool) (a : Int) (bs : List Byte) : Except UnitFail State :=
  if glob then
    match s.tcuMap x true (wrap a 64) with
    | .error e => .error e
    | .ok m =>
      let t := s.team x.team
      let s := (s.l1Cores t.core t).foldl (fun s c => s.evictL1 c (l1Key (m.pa / 64) false)) s
      .ok ((s.tcuTouch x true a).physWrite m.key m.pa bs)
  else .ok (s.modTeam x.team (fun t => t.setSpad a.toNat bs))

/-! ## Values (R292, R297) -/

/-- The kept places of a group of four magnitudes: the two largest, the lower index on a tie. -/
def keepTwo (ms : List Nat) : Nat × Nat :=
  let beats (i j : Nat) : Bool := ms.getD j 0 < ms.getD i 0 || (ms.getD i 0 == ms.getD j 0 && i < j)
  let rank (i : Nat) : Nat := ((List.range 4).filter (fun j => j != i && beats j i)).length
  match (List.range 4).filter (fun i => rank i < 2) with
  | a :: b :: _ => (a, b)
  | _ => (0, 1)

/-- Bytes that an access touches: the first address, and how many. -/
abbrev Span := Int × Nat

/-- What an element contributes: its bytes, unless an element of larger index takes its place; the nibble of its group; and what
was read for it. -/
structure Value where
  bytes : Option (List Byte) := none
  nibble : Option (Nat × Nat) := none
  reads : List Span := []
  deriving DecidableEq, Repr, Inhabited

/-- Reads an element's bytes at an address of the source. -/
def State.readElem (s : State) (x : Copy) (a : Int) : Except UnitFail Value :=
  (s.tcuRead x x.kind.srcGlobal a (Ly.esz x.lyS)).map (fun b => { bytes := some b, reads := [(a, Ly.esz x.lyS)] })

/-- Address of the metadata byte of a group. -/
def Copy.metaAt (x : Copy) (g : Nat) : Int := ((x.aux.toNat + g / 2 : Nat) : Int)

/-- A compacting copy's element: the group is read, its first kept element carries the nibble. -/
def State.packElem (s : State) (x : Copy) (e : CopyElem) (kept : Bool) : Except UnitFail Value := do
  let z := Ly.esz x.lyS
  let at' (k : Nat) : Int := x.srcAt { e with i0 := 4 * (e.i0 / 2) + k }
  let vs ← (List.range 4).mapM (fun k => s.tcuRead x x.kind.srcGlobal (at' k) z)
  let js := keepTwo (vs.map (fun v => leNat v % 2 ^ (8 * z - 1)))
  .ok { bytes := if kept then some (vs.getD (if e.i0 % 2 = 0 then js.1 else js.2) []) else none
        nibble := if e.i0 % 2 = 0 then some (packedGroup x.lyD e, js.1 + 4 * js.2) else none
        reads := (List.range 4).map (fun k => (at' k, z)) }

/-- An expanding copy's element: the group's nibble says where the two kept ones go; it is checked at the first element. -/
def State.spreadElem (s : State) (x : Copy) (e : CopyElem) (kept : Bool) : Except UnitFail Value := do
  let g := denseGroup x.lyD e
  let m ← s.tcuRead x x.kind.auxGlobal (x.metaAt g) 1
  let nib := leNat m / 16 ^ (g % 2) % 16
  let p := e.i0 % 4
  let read : Span := (x.metaAt g, 1)
  let from' (k : Nat) : Except UnitFail Value :=
    (s.readElem x (x.srcAt { e with i0 := 2 * (e.i0 / 4) + k })).map (fun v => { v with reads := read :: v.reads })
  if p = 0 && nib / 4 ≤ nib % 4 then .error { cause := 7, addr := 0 }
  else if !kept then .ok { reads := [read] }
  else if p = nib % 4 then from' 0
  else if p = nib / 4 then from' 1
  else .ok { bytes := some (List.replicate (Ly.esz x.lyS) 0), reads := [read] }

/-- The value of a destination element; `kept` says that no element of larger index takes its place. A compacting copy keeps its
elements' bits (R297): it packs no BX block, though R43 names such copies (DEDUCED, log entry 90). -/
def State.copyValue (s : State) (x : Copy) (e : CopyElem) (kept : Bool) : Except UnitFail Value :=
  match x.kind with
  | .sparse _ true => if kept || e.i0 % 2 = 0 then s.packElem x e kept else .ok {}
  | .sparse _ false => if kept || e.i0 % 4 = 0 then s.spreadElem x e kept else .ok {}
  | _ => if kept then s.readElem x (x.srcAt e) else .ok {}

/-! ## Units -/

def CopyElem.unit (e : CopyElem) (y : BitVec 256) : Nat := (e.off y).toNat / 32

/-- Sorts elements by destination offset, then index. -/
def insertElem (y : BitVec 256) (e : CopyElem) : List CopyElem → List CopyElem
  | [] => [e]
  | a :: r => if decide (e.off y < a.off y) || (e.off y == a.off y && a.after e) then e :: a :: r else a :: insertElem y e r

/-- The next unit that holds an element, from a unit number on. -/
def Copy.nextUnit (x : Copy) (g : Grid) : Option Nat :=
  ((x.dstElems g).filter (fun e => x.unit ≤ e.unit x.lyD)).foldl (fun b e => match b with
    | none => some (e.unit x.lyD)
    | some u => some (min u (e.unit x.lyD))) none

/-- One past the largest destination offset (R302). -/
def Copy.endOffset (x : Copy) (g : Grid) : Nat :=
  (x.dstElems g).foldl (fun m e => max m ((e.off x.lyD).toNat + Ly.esz x.lyD)) 0

/-- The elements of a unit in the order of their writes, each with whether it is kept: no element of larger index in a unit no
later covers its bytes (R294). -/
def Copy.unitElems (x : Copy) (g : Grid) (u : Nat) : List (CopyElem × Bool) :=
  let all := x.dstElems g
  ((all.filter (fun e => e.unit x.lyD == u)).foldl (fun a e => insertElem x.lyD e a) []).map (fun e =>
    (e, !all.any (fun o => x.dstAt o == x.dstAt e && o.after e && o.unit x.lyD ≤ u)))

/-- Extra cycles of a run of word numbers over B banks: the most words in one bank, less one (R304). -/
def bankExtra (banks : Nat) (ws : List Nat) : Nat :=
  ((List.range banks).foldl (fun m b => max m (ws.filter (fun w => w % banks == b)).length) 0) - 1

/-- The words that accesses touch in order, each run of one word once, behind those of a run under way. -/
def wordsOf (run : List Nat) (as : List Span) : List Nat :=
  (as.flatMap (fun a => (List.range ((a.2 + 3) / 4)).map (fun i => (a.1.toNat + 4 * i) / 4))).foldl
    (fun ws w => if ws.getLast? == some w then ws else ws ++ [w]) run

/-- Extra cycles of the full runs of eight at the head of a list of words, and the words left over. The count bounds the runs. -/
def bankRuns (banks : Nat) : Nat → List Nat → Nat × List Nat
  | 0, ws => (0, ws)
  | n + 1, ws =>
    if ws.length < 8 then (0, ws)
    else let r := bankRuns banks n (ws.drop 8); (bankExtra banks (ws.take 8) + r.1, r.2)

/-- MX_BANKCONF rises, and saturates (R304). -/
def State.addConflicts (s : State) (team n : Nat) : State :=
  if n = 0 then s
  else s.modTeam team (fun t => { t with bankconf := BitVec.ofNat 32 (min (t.bankconf.toNat + n) (2 ^ 32 - 1)) })

/-- Counts the bank conflicts of the accesses of a unit on the copy's scratchpad sides; a run may go on in the next unit. -/
def State.countBanks (s : State) (x : Copy) (src dst : List Span) : State :=
  let banks := (s.core (s.team x.team).core).banks.length
  let side (glob : Bool) (run : List Nat) (as : List Span) : Nat × List Nat :=
    if glob then (0, run) else let ws := wordsOf run as; bankRuns banks ws.length ws
  let a := side x.kind.srcGlobal x.srcRun src
  let b := side x.kind.dstGlobal x.dstRun dst
  (s.addConflicts x.team (a.1 + b.1)).modCopy x.id (fun y => { y with srcRun := a.2, dstRun := b.2 })

/-- The last runs of a copy that ends, of fewer than eight words. -/
def State.endRuns (s : State) (x : Copy) : State :=
  let banks := (s.core (s.team x.team).core).banks.length
  s.addConflicts x.team (bankExtra banks x.srcRun + bankExtra banks x.dstRun)

/-- A metadata byte as it stands, whose other nibble a compacting copy keeps: it needs no permission to read it (R294, R296). -/
def State.metaByte (s : State) (x : Copy) (a : Int) : Byte :=
  if x.kind.auxGlobal then
    match s.tcuMap x true (wrap a 64) with
    | .ok m => s.openByte (s.teamCtx (s.team x.team)) (s.sharedAt m.perm2 m.key m.pa) m.key m.pa
    | .error _ => 0
  else (s.team x.team).spadByte a.toNat

/-- Writes the nibble of a group; the last byte's other one is zero when the group count is odd. -/
def State.writeNibble (s : State) (x : Copy) (m : Nat × Nat) : Except UnitFail State :=
  let old := (s.metaByte x (x.metaAt m.1)).toNat
  let new := if m.1 % 2 = 0 then (if m.1 + 1 = groupCount x.lyS then m.2 else old / 16 * 16 + m.2) else old % 16 + m.2 * 16
  s.tcuWrite x x.kind.auxGlobal (x.metaAt m.1) [BitVec.ofNat 8 new]

/-- What a write needs of the destination side before any byte of its unit is written. -/
def State.mayWrite (s : State) (x : Copy) (glob : Bool) (a : Int) : Except UnitFail Unit :=
  if glob then (s.tcuMap x true (wrap a 64)).map (fun _ => ()) else .ok ()

/-- The values of a unit, with every translation of its writes made: a unit that fails writes nothing. Of several accesses that would
fail the first in this order is reported: elements in ascending destination offset, of each its reads before the translation of
its write (DESIGN CHOICE, log entry 104). -/
def State.unitValues (s : State) (x : Copy) (es : List (CopyElem × Bool)) (value : CopyElem → Bool → Except UnitFail Value) :
    Except UnitFail (List (CopyElem × Value)) :=
  es.mapM (fun p => do
    let v ← value p.1 p.2
    if v.bytes.isSome then s.mayWrite x x.kind.dstGlobal (x.dstAt p.1)
    match v.nibble with
    | some m => s.mayWrite x x.kind.auxGlobal (x.metaAt m.1)
    | none => pure ()
    .ok (p.1, v))

/-- Writes an element and its group's nibble. -/
def State.writeElem (s : State) (x : Copy) (p : CopyElem × Value) : Except UnitFail State := do
  let s ← match p.2.bytes with
    | some bs => s.tcuWrite x x.kind.dstGlobal (x.dstAt p.1) bs
    | none => .ok s
  match p.2.nibble with
  | some m => s.writeNibble x m
  | none => .ok s

/-- The accesses of a unit's writes on the destination side. -/
def Copy.writeSpans (x : Copy) (vs : List (CopyElem × Value)) : List Span :=
  vs.flatMap (fun p => (match p.2.bytes with | some bs => [(x.dstAt p.1, bs.length)] | none => [])
    ++ (match p.2.nibble with | some m => [(x.metaAt m.1, 1)] | none => []))

/-- Delivers a unit: every read and every translation comes first, then the writes, then its bank conflicts are counted. -/
def State.writeUnit (s : State) (x : Copy) (es : List (CopyElem × Bool)) (value : CopyElem → Bool → Except UnitFail Value) :
    Except UnitFail State := do
  let vs ← s.unitValues x es value
  let reads := vs.flatMap (fun p => p.2.reads)
  let s := if x.kind.srcGlobal then reads.foldl (fun s a => s.tcuTouch x false a.1) s else s
  let s ← vs.foldlM (fun s p => s.writeElem x p) s
  .ok (s.countBanks x reads (x.writeSpans vs))

end Sys2Proof.Machine
end

