-- ==== Sys2Proof/Machine/Fabric.lean ====
section
/-!
DEFINITION. Fabric messages (R387 to R390), collectives (R393 to R404, R439) and the events of copies (R286, R293 to R295, R298),
which collectives share. The layout of a message's data bytes, which the manual leaves to the devices, is log entry 23.
-/
namespace Sys2Proof.Machine

/-! ## Ranks (R389, R391) -/

/-- A rank-table entry: device and context, if it is valid. -/
def rankPlace (x : Ctx) (r : Nat) : Option (Nat × Nat) :=
  let e := Tbl.at x.ranks r 0
  if e.getLsbD 31 then some (bitsOf e.toNat 28 20, bitsOf e.toNat 11 0) else none

/-- Coordinates of a rank in the grid of a layout. -/
def rankCoord (y : BitVec 256) (r d : Nat) : Nat :=
  match d with
  | 0 => r % Ly.gx y
  | 1 => r / Ly.gx y % Ly.gy y
  | _ => r / (Ly.gx y * Ly.gy y)

/-- The sub-group of a rank: equal coordinates on every dimension outside RMASK. -/
def subGroup (y : BitVec 256) (size r : Nat) : List Nat :=
  (List.range size).filter (fun q => (List.range 3).all (fun d => Ly.rmask y d || rankCoord y q d == rankCoord y r d))

/-- The rank at an offset of coordinates, each modulo its extent. -/
def rankAt (y : BitVec 256) (r : Nat) (dx dy dz : Int) : Nat :=
  let wrapTo (c : Nat) (d : Int) (n : Nat) : Nat := (((c : Int) + d) % (n : Int)).toNat
  wrapTo (rankCoord y r 0) dx (Ly.gx y) + Ly.gx y * (wrapTo (rankCoord y r 1) dy (Ly.gy y) + Ly.gy y * wrapTo (rankCoord y r 2) dz (Ly.gz y))

/-! ## Sending (R387, R388) -/

/-- The port of a message to a device: h, or the first port up after it. -/
def State.portFor (s : State) (h : Nat) : Nat :=
  (((List.range 32).map (fun i => (h + i) % 32)).find? (fun p => s.portsUp.getLsbD p)).getD h

def State.send (s : State) (m : Msg) : State :=
  let h := ((m.ddev.toNat ^^^ m.tag.toNat) ^^^ m.chunk.toNat) % 32
  { s with outbox := s.outbox ++ [(s.portFor h, m)] }

/-- A message to the switch of a port. R400 and R402 name no other: one whose port is down stays at that port (R388). -/
def State.sendSwitch (s : State) (port : Nat) (m : Msg) : State := { s with outbox := s.outbox ++ [(port, m)] }

/-- A message to a rank of a collective's group; roles of tags: 0 set-up and contributions, 1 results, 2 choice, 3 failure, 4 the
second half of a segment of FP32 partials. -/
def State.toRank (s : State) (x : Copy) (c : Coll) (r kind role chunk seg : Nat) (data : List Byte) : State :=
  let ctx := s.teamCtx (s.team x.team)
  match rankPlace (s.ctx ctx) (c.base + r) with
  | none => s
  | some p =>
    s.send { kind := BitVec.ofNat 8 kind, sdev := s.devId, ddev := BitVec.ofNat 9 p.1, dctx := BitVec.ofNat 12 p.2
             chunk := BitVec.ofNat 32 chunk, tag := BitVec.ofNat 32 (8 * x.id + role), xtra := BitVec.ofNat 32 seg, data := data }

/-- A message to a switch. -/
def State.toSwitch (s : State) (x : Copy) (port kind role chunk seg : Nat) (data : List Byte) : State :=
  s.sendSwitch port
    { kind := BitVec.ofNat 8 kind, sdev := s.devId, ddev := 0x1FF, dctx := BitVec.ofNat 12 (s.teamCtx (s.team x.team))
      chunk := BitVec.ofNat 32 chunk, tag := BitVec.ofNat 32 (8 * x.id + role), xtra := BitVec.ofNat 32 seg, data := data }

/-- Numbers of a control message: what it is, channel, the team's coordinates (R396) and the rank, then its body. -/
def ctlData (what chan : Nat) (team : List Nat) (rank : Nat) (body : List Nat) : List Byte :=
  ([what, chan] ++ team ++ [rank] ++ body).flatMap (leBytes 8)
/-- %team of a copy's team, as collectives of other devices know it. -/
def State.teamName (s : State) (x : Copy) : List Nat :=
  let t := s.team x.team
  (List.range 3).map (teamCoord (s.grid t.grid) t.num)
def ctlWord (m : Msg) (i : Nat) : Nat := leNat ((m.data.drop (8 * i)).take 8)

/-! ## Checks (R394, R439) -/

/-- Whether a TYPE suits an operator, with the element size of its width. -/
def ropSuits (ty : Ty) (rop esz : Nat) : Bool :=
  8 * esz == ty.width
  && (if rop ≤ 3 then ty == .s32 || ty == .f32 || ty == .bf16 else ty == .u32 || ty == .u64)

/-- The layout conditions of R394 for a sub-group of n ranks. -/
def Copy.collShape (x : Copy) (n : Nat) : Bool :=
  let es := Ly.exts x.lyS
  let ed := Ly.exts x.lyD
  let rop := Ly.rop x.lyD
  match x.kind with
  | .coll 0 _ _ _ _ _ _ => es == ed && rop == 0
  | .coll 1 _ ty _ _ _ _ => es == ed && rop != 0 && ropSuits ty rop (Ly.esz x.lyS)
  | .coll 2 _ _ _ _ _ _ => es.take 3 == ed.take 3 && ed.getD 3 0 == n * es.getD 3 0 && rop == 0
  | .coll _ _ ty _ _ _ _ => es.take 3 == ed.take 3 && es.getD 3 0 == n * ed.getD 3 0 && rop != 0 && ropSuits ty rop (Ly.esz x.lyS)
  | _ => false

/-- The membership register of a collective. -/
def Copy.mreg (x : Copy) : Nat :=
  match x.kind with
  | .coll _ _ _ m _ _ _ => m
  | _ => 0

/-- Check 3 of R439: the group, if it is sound. -/
def State.collGroup (s : State) (x : Copy) : Option Coll :=
  let ctx := s.teamCtx (s.team x.team)
  let y := s.ctx ctx
  let m := y.msetOf x.mreg
  let size := Mset.dgn m + 1
  let base := Mset.dgbase m
  let places := (List.range size).map (fun r => rankPlace y (base + r))
  let me := (List.range size).find? (fun r => places.getD r none == some (s.devId.toNat, ctx))
  match me with
  | none => none
  | some r =>
    if Mset.valid m && size == Ly.gx x.lyD * Ly.gy x.lyD * Ly.gz x.lyD && places.all (·.isSome) then
      some { rank := r, size := size, base := base, group := subGroup x.lyD size r }
    else none

/-- The members a failed check is reported to (R399): those of the register, whatever the grid says; a device that is none of
them has no rank to name, 0xFFFF. -/
def State.collReach (s : State) (x : Copy) : Option Coll :=
  let ctx := s.teamCtx (s.team x.team)
  let y := s.ctx ctx
  let m := y.msetOf x.mreg
  let size := Mset.dgn m + 1
  let base := Mset.dgbase m
  let me := (List.range size).find? (fun r => rankPlace y (base + r) == some (s.devId.toNat, ctx))
  if Mset.valid m then some { rank := me.getD 0xFFFF, size := size, base := base } else none

/-- The checks of R439 before the set-up, in order: a breach, or the collective. -/
def State.collCheck (s : State) (x : Copy) : Except (Nat × Bool × DWord) Coll :=
  let g := s.grid (s.team x.team).grid
  if x.aux.toNat % 16 ≠ 0 then .error (3, true, x.aux)
  else if g.scrsize < x.aux.toNat + 16 then .error (2, true, x.aux)
  else
    match s.collGroup x with
    | none => .error (11, false, 0)
    | some c =>
      match x.breach g with
      | some b => .error b
      | none => if x.collShape c.group.length then .ok c else .error (6, false, 0)

/-! ## Failure (R399) -/

/-- Tells every other rank of the group of a failure: its cause there, and the rank to name. -/
def State.tellFailure (s : State) (x : Copy) (c : Coll) (cause rank : Nat) : State :=
  ((List.range c.size).filter (fun r => r != c.rank && !c.gone.contains r)).foldl (fun s r =>
    s.toRank x c r 1 3 0 0 (ctlData 2 x.chan (s.teamName x) c.rank [c.k, cause, rank])) s

/-- A collective fails at this member: a cause of its own, which the others record as 12; a disagreement's 8, a lost member's
9 and a pre-emption's 13 are the cause at every member (R396, R404, R405). -/
def State.failColl (s : State) (x : Copy) (cause : Nat) (wr stage2 : Bool) (lost : Option Nat) : State :=
  match x.coll with
  | none => s.failCopy x cause wr stage2 0
  | some c =>
    let named := lost.getD c.rank
    let told := if cause == 8 || cause == 9 || cause == 13 then cause else 12
    (s.tellFailure x c told named).failCopy { x with coll := some { c with failing := some named } } cause wr stage2 0

/-! ## The source tile as a stream (R400) -/

/-- Bytes of a rank's source tile, its chunks, and the segments of a chunk. -/
def Copy.tileBytes (x : Copy) : Nat := (Ly.exts x.lyS).foldl (· * ·) 1 * Ly.esz x.lyS
def Copy.chunks (x : Copy) : Nat := (x.tileBytes + 65535) / 65536
def Copy.segments (x : Copy) (q : Nat) : Nat := (min 65536 (x.tileBytes - 65536 * q) + 16383) / 16384
def Copy.segBytes (x : Copy) (q seg : Nat) : Nat := min 16384 (x.tileBytes - (65536 * q + 16384 * seg))

/-- The element of a linear index in the source tile. -/
def Copy.srcElem (x : Copy) (g : Grid) (n : Nat) : CopyElem :=
  let e0 := Ly.ext x.lyS 0
  let e1 := Ly.ext x.lyS 1
  let e2 := Ly.ext x.lyS 2
  let i3 := n / (e0 * e1 * e2)
  { rank := i3 / (Ly.ext x.lyS 3 / x.count g), i3 := i3, i2 := n / (e0 * e1) % e2, i1 := n / e0 % e1, i0 := n % e0 }

/-- An element of this member's own tile. One of an empty slice is not read and has an open value (R292, log entry 6). -/
def State.ownElem (s : State) (x : Copy) (n : Nat) : Except UnitFail Value :=
  let e := x.srcElem (s.grid (s.team x.team).grid) n
  if (Tbl.look x.slices e.rank).isNone then
    .ok { bytes := some ((List.range (Ly.esz x.lyS)).map (fun i => (Config.freeWord (s.free + n)).extractLsb' (8 * (i % 4)) 8)) }
  else s.readElem x (x.srcAt e)

/-- The elements of a segment of this member's tile. -/
def State.ownSeg (s : State) (x : Copy) (q seg : Nat) : Except UnitFail (List Value) :=
  let z := Ly.esz x.lyS
  (List.range (x.segBytes q seg / z)).mapM (fun i => s.ownElem x ((65536 * q + 16384 * seg) / z + i))

/-! ## Reduction (R395) -/

/-- Whether partial sums are wider than elements: BF16 sums accumulate in FP32. -/
def Copy.widePartials (x : Copy) : Bool :=
  match x.kind with
  | .coll _ _ .bf16 _ _ _ _ => Ly.rop x.lyD == 1
  | _ => false

def Copy.ty (x : Copy) : Ty :=
  match x.kind with
  | .coll _ _ t _ _ _ _ => t
  | _ => .u8

/-- Cuts bytes into numbers of z bytes. -/
def numbersOf (z : Nat) : Nat → List Byte → List Nat
  | 0, _ => []
  | n + 1, bs => if bs.isEmpty then [] else leNat (bs.take z) :: numbersOf z n (bs.drop z)

/-- A member's elements as the accumulator takes them. -/
def Copy.widen (x : Copy) (bs : List Byte) : List Nat :=
  let ns := numbersOf (Ly.esz x.lyS) bs.length bs
  if x.widePartials then ns.map (fun n => (convF .bf16 .f32 0 n).1) else ns

/-- One operand joins an accumulated value. -/
def Copy.combine (x : Copy) (a b : Nat) : Nat :=
  let t := x.ty
  match Ly.rop x.lyD with
  | 1 => if t == .s32 then (a + b) % 2 ^ 32 else (fAdd .f32 0 a b).1
  | 2 => if t == .s32 then (if t.val a < t.val b then b else a) else (fMinMax t.fmt true a b).1
  | 3 => if t == .s32 then (if t.val b < t.val a then b else a) else (fMinMax t.fmt false a b).1
  | 4 => a &&& b
  | 5 => a ||| b
  | _ => a ^^^ b

/-- Bytes of accumulated values as partials travel, and as the result is. -/
def Copy.partialBytes (x : Copy) (ns : List Nat) : List Byte :=
  ns.flatMap (leBytes (if x.widePartials then 4 else Ly.esz x.lyS))
def Copy.finalBytes (x : Copy) (ns : List Nat) : List Byte :=
  if x.widePartials then ns.flatMap (fun n => leBytes 2 (convF .f32 .bf16 0 n).1) else x.partialBytes ns
def Copy.ofPartial (x : Copy) (bs : List Byte) : List Nat := numbersOf (if x.widePartials then 4 else Ly.esz x.lyS) bs.length bs

/-- Adds the members' parts of a segment in ascending index. -/
def Copy.reduceAll (x : Copy) (parts : List (List Byte)) : List Nat :=
  match parts.map x.widen with
  | [] => []
  | p :: ps => ps.foldl (fun a b => List.zipWith x.combine a b) p

/-! ## Landed segments (R401) -/

def Coll.seg (c : Coll) (stream q seg : Nat) : Option (List Byte) := (c.landed.find? (fun e => e.1 == (stream, q, seg))).map (·.2)
def Coll.land (c : Coll) (stream q seg : Nat) (bs : List Byte) : Coll :=
  if (c.seg stream q seg).isSome then c else { c with landed := c.landed ++ [((stream, q, seg), bs)] }
/-- A segment travels in two messages when it holds FP32 partials of more than 64 flits: half j + 4 is the second (R387). -/
def Coll.halved (c : Coll) (x : Copy) (stream q j : Nat) : Bool :=
  x.widePartials && c.algo == some 1 && stream != 512 && 8192 < x.segBytes q j
/-- Every segment of a chunk of a stream is here. -/
def Coll.hasChunk (c : Coll) (x : Copy) (stream q : Nat) : Bool :=
  (List.range (x.segments q)).all (fun j =>
    (c.seg stream q j).isSome && (!c.halved x stream q j || (c.seg stream q (j + 4)).isSome))
/-- The bytes of a segment that is here. -/
def Coll.segData (c : Coll) (stream q j : Nat) : List Byte := (c.seg stream q j).getD [] ++ (c.seg stream q (j + 4)).getD []
def Coll.hasTile (c : Coll) (x : Copy) (stream : Nat) : Bool := (List.range x.chunks).all (fun q => c.hasChunk x stream q)

/-- A landing slot that is free takes back the chunk that was spilled first of those its base die homes (R401). -/
def State.fetchSpilled (s : State) (base : Nat) : State :=
  match s.spill.find? (fun l => l.base == base) with
  | none => s
  | some l =>
    if (s.landing.filter (fun y => y.base == base)).length < 64 then
      { s with landing := s.landing ++ [l], spill := s.spill.filter (· != l) }
    else s

/-- Frees the landing slot or spill space of chunks. -/
def State.freeLandings (s : State) (gone : Landing → Bool) : State :=
  let bases := ((s.landing.filter gone).map (·.base))
  bases.foldl (fun s b => s.fetchSpilled b)
    { s with landing := s.landing.filter (fun l => !gone l), spill := s.spill.filter (fun l => !gone l) }

def State.freeLanding (s : State) (id stream q : Nat) : State :=
  s.freeLandings (fun l => l.coll == id && l.stream == stream && l.chunk == q)

/-- The HBM base die of a physical address (R249): its stack. -/
def baseDie (pa : Nat) : Nat := hbmStack pa

/-- The destination element that takes the first element of a chunk of a stream: an all-gather puts each rank's tile at the place
of its index, a reduce-scatter keeps a slice of the source's (R394). -/
def Copy.landElem (x : Copy) (g : Grid) (c : Coll) (stream q : Nat) : CopyElem :=
  let e := x.srcElem g (65536 * q / Ly.esz x.lyS)
  let i3 := match x.kind with
    | .coll 2 _ _ _ _ _ _ => c.group.findIdx (· == stream) * Ly.ext x.lyS 3 + e.i3
    | .coll 3 _ _ _ _ _ _ => e.i3 % Ly.ext x.lyD 3
    | _ => e.i3
  { e with i3 := i3, rank := i3 / (Ly.ext x.lyD 3 / x.count g) }

/-- The base die that homes a chunk's destination. -/
def State.chunkBase (s : State) (x : Copy) (c : Coll) (stream q : Nat) : Nat :=
  match s.tcuMap x true (wrap (x.dstAt (x.landElem (s.grid (s.team x.team).grid) c stream q)) 64) with
  | .ok m => baseDie m.pa
  | .error _ => 0

/-! ## Sending chunks (R400) -/

/-- The messages of a chunk: role, segment and data. A segment of more than 64 data flits goes in two (R387). -/
def chunkMsgs (role : Nat) (segs : List (List Byte)) : List (Nat × Nat × List Byte) :=
  ((List.range segs.length).zip segs).flatMap (fun p =>
    if p.2.length ≤ 16384 then [(role, p.1, p.2)] else [(role, p.1, p.2.take 16384), (role + 4, p.1, p.2.drop 16384)])

/-- An acknowledgement is awaited: the wait begins with the first chunk a partner has not acknowledged (R403). -/
def Coll.await (c : Coll) (now partner role q : Nat) : Coll :=
  { c with
    sent := true
    unacked := c.unacked ++ [(partner, role, q)]
    sentAt := if c.unacked.any (fun u => u.1 == partner) then c.sentAt else Tbl.put c.sentAt partner now }

/-- Sends a chunk of bytes segment by segment to a partner, rank or switch (512), and notes that its acknowledgement is
awaited. Nothing goes to a rank that is lost (R404). -/
def State.sendChunk (s : State) (x : Copy) (partner role q : Nat) (segs : List (List Byte)) : State :=
  match (s.copy x.id).bind (·.coll) with
  | none => s
  | some c =>
    if c.gone.contains partner then s
    else
    let s := (chunkMsgs role segs).foldl (fun s p =>
      if partner == 512 then s.toSwitch x (q % 32) 2 p.1 q p.2.1 p.2.2 else s.toRank x c partner 2 p.1 q p.2.1 p.2.2) s
    s.modCopy x.id (fun y => { y with coll := y.coll.map (fun c => c.await s.timebase partner role q) })

/-- Acknowledges a chunk to the partner that sent it (R400): the tag is the sender's. -/
def State.ackChunk (s : State) (x : Copy) (c : Coll) (partner role q : Nat) : State :=
  let tag := if partner == 512 then x.id else Tbl.at c.setups partner 0
  let m : Msg := { kind := 3, sdev := s.devId, ddev := 0x1FF, dctx := 0, chunk := BitVec.ofNat 32 q
                   tag := BitVec.ofNat 32 (8 * tag + role), xtra := 0, data := [] }
  if partner == 512 then s.sendSwitch (q % 32) m
  else
    match rankPlace (s.ctx (s.teamCtx (s.team x.team))) (c.base + partner) with
    | none => s
    | some p => s.send { m with ddev := BitVec.ofNat 9 p.1, dctx := BitVec.ofNat 12 p.2 }

/-- This member's chunk, segment by segment, with the state that its reads leave. -/
def State.ownChunk (s : State) (x : Copy) (q : Nat) : Except UnitFail (State × List (List Byte)) := do
  let vs ← (List.range (x.segments q)).mapM (fun j => s.ownSeg x q j)
  let s := vs.flatten.foldl (fun s v => v.reads.foldl (fun s a => s.tcuTouch x false a.1) s) s
  .ok (s, vs.map (fun seg => seg.flatMap (fun v => v.bytes.getD [])))

/-- Kind of a collective: 0 put, 1 all-reduce, 2 all-gather, 3 reduce-scatter. -/
def Copy.collKind (x : Copy) : Nat :=
  match x.kind with
  | .coll k _ _ _ _ _ _ => k
  | _ => 0
def Copy.algReq (x : Copy) : Nat :=
  match x.kind with
  | .coll _ a _ _ _ _ _ => a
  | _ => 0
def Copy.putRank (x : Copy) (r : Nat) (back : Bool) : Nat :=
  match x.kind with
  | .coll _ _ _ _ dx dy dz => if back then rankAt x.lyD r (-dx) (-dy) (-dz) else rankAt x.lyD r dx dy dz
  | _ => r

/-- Own chunks to the partners that a rule names for each, or a failure to read them. -/
def State.sendOwn (s : State) (x : Copy) (to' : Nat → List Nat) (wide : Bool) : Except UnitFail State :=
  (List.range x.chunks).foldlM (fun s q =>
    match to' q with
    | [] => .ok s
    | ps => do
      let (s, segs) ← s.ownChunk x q
      let segs := if wide then segs.map (fun b => x.partialBytes (x.widen b)) else segs
      .ok (ps.foldl (fun s p => s.sendChunk x p 0 q segs) s)) s

/-- The chunks a member sends when its collective starts to deliver. -/
def State.sendFirst (s : State) (x : Copy) (c : Coll) : Except UnitFail State :=
  let n := c.group.length
  let index := c.group.findIdx (· == c.rank)
  match x.collKind, c.algo with
  | 0, _ => let t := x.putRank c.rank false; s.sendOwn x (fun _ => if t == c.rank then [] else [t]) false
  | 2, _ => s.sendOwn x (fun _ => c.group.filter (· != c.rank)) false
  | _, some 1 => s.sendOwn x (fun _ => if index == 0 && 1 < n then [c.group.getD 1 0] else []) true
  | _, some 2 => s.sendOwn x (fun q => if q % n == index then [] else [c.group.getD (q % n) 0]) false
  | _, some 3 => s.sendOwn x (fun _ => [512]) false
  | _, _ => .ok s

/-! ## Progress -/

/-- Adds parts of a star's chunk and sends the result to the other members (R400). -/
def State.starStep (s : State) (x : Copy) (c : Coll) (q : Nat) : Except UnitFail State := do
  let (s, own) ← s.ownChunk x q
  let segs := (List.range (x.segments q)).map (fun j =>
    x.finalBytes (x.reduceAll (c.group.map (fun r => if r == c.rank then own.getD j [] else c.segData r q j))))
  let c' := ((List.range segs.length).zip segs).foldl (fun (c : Coll) p => c.land 512 q p.1 p.2) { c with reduced := q :: c.reduced }
  let s := s.modCopy x.id (fun y => { y with coll := some c' })
  let others := c.group.filter (fun r => r != c.rank && !c.gone.contains r)
  let s := others.foldl (fun s r => ((s.ackChunk x c r 0 q).freeLanding x.id r q).sendChunk x r 1 q segs) s
  .ok s

/-- A link of the chain: its own part joins the partial chunk of its predecessor (R400). -/
def State.ringStep (s : State) (x : Copy) (c : Coll) (index q : Nat) : Except UnitFail State := do
  let n := c.group.length
  let before := c.group.getD (index - 1) 0
  let (s, own) ← s.ownChunk x q
  let sums := (List.range (x.segments q)).map (fun j =>
    List.zipWith x.combine (x.ofPartial (c.segData before q j)) (x.widen (own.getD j [])))
  let last := index + 1 == n
  let finals := sums.map x.finalBytes
  let c1 := { c with reduced := q :: c.reduced }
  let c1 := if last then ((List.range finals.length).zip finals).foldl (fun (c : Coll) p => c.land 512 q p.1 p.2) c1 else c1
  let s := s.modCopy x.id (fun y => { y with coll := some c1 })
  let s := (s.ackChunk x c before 0 q).freeLanding x.id before q
  .ok (if last then s.sendChunk x (c.group.getD 0 0) 1 q finals
       else s.sendChunk x (c.group.getD (index + 1) 0) 0 q (sums.map x.partialBytes))

/-- One step of a chunk at a member, if it has what the step needs. -/
def State.chunkStep (s : State) (x : Copy) (q : Nat) : Except UnitFail State :=
  match (s.copy x.id).bind (·.coll) with
  | none => .ok s
  | some c =>
    let n := c.group.length
    let index := c.group.findIdx (· == c.rank)
    if c.reduced.contains q then .ok s
    else
      match c.algo with
      | some 2 =>
        if q % n == index && c.group.all (fun r => r == c.rank || c.hasChunk x r q) then s.starStep x c q else .ok s
      | some 1 => if 0 < index && c.hasChunk x (c.group.getD (index - 1) 0) q then s.ringStep x c index q else .ok s
      | _ => .ok s

/-- What a unit's failure leaves of the line it met: one with an uncorrectable error is not kept (R248). -/
def State.settleUnit (s : State) (x : Copy) (e : UnitFail) : State := if e.cause == 5 then s.tcuTouch x e.wr e.addr.toNat else s

/-- Fails a copy or a collective by a unit's failure. -/
def State.failUnit (s : State) (x : Copy) (e : UnitFail) : State :=
  let s := s.settleUnit x e
  match x.coll with
  | some _ => s.failColl x e.cause e.wr e.stage2 none
  | none => s.failCopy x e.cause e.wr e.stage2 e.addr

/-- The chunks of a collective, those that were spilled first and in the order of their arrival (R401). -/
def State.stepOrder (s : State) (x : Copy) : List Nat :=
  ((s.spill.filter (fun l => l.coll == x.id)).map (·.chunk)) ++ List.range x.chunks

/-- Every chunk steps as far as it can, and the writing of units goes on. -/
def State.advanceColl (s : State) (id : Nat) : State :=
  match s.copy id with
  | none => s
  | some x =>
    if x.st != .delivering then s
    else
      match (s.stepOrder x).foldlM (fun s q => s.chunkStep x q) s with
      | .ok t => t.due (.copyUnitWrite id)
      | .error e => s.failUnit x e

/-- The first chunks go out once the algorithm is fixed and the collective delivers. -/
def State.startColl (s : State) (id : Nat) : State :=
  match s.copy id with
  | none => s
  | some x =>
    match x.coll with
    | none => s
    | some c =>
      if x.st != .delivering || c.algo.isNone || c.sent then s
      else
        match s.sendFirst x c with
        | .ok t => t.advanceColl id
        | .error e => s.failUnit x e

/-- Fixes the algorithm at member 0, which tells the other members of the sub-group before any chunk (R400). -/
def State.chooseAlgo (s : State) (x : Copy) (c : Coll) (algo : Nat) (fallback : Bool) : State :=
  let c := { c with algo := some algo, fallback := c.fallback || fallback, asking := [], fixedAt := s.timebase }
  let s := s.modCopy x.id (fun y => { y with coll := some c })
  let s := (c.group.filter (· != c.rank)).foldl (fun s r =>
    s.toRank x c r 1 2 0 0 (ctlData 1 x.chan (s.teamName x) c.rank [c.k, algo, b2n c.fallback])) s
  s.startColl x.id

/-- After the set-up exchange: the choice of algorithm, then leave or the queue (R286, R400). -/
def State.setupDone (s : State) (x : Copy) (c : Coll) : State :=
  let c := { c with fixedAt := s.timebase }
  let s := if 1048576 ≤ x.moved then (s.setCopy { x with st := .leave, coll := some c }).due (.leaveRequest x.id)
    else ((s.setCopy { x with st := .queued, coll := some c }).markReady).due (.copyDeliver x.id)
  if x.collKind == 0 || x.collKind == 2 || c.group.length == 1 then s.modCopy x.id (fun y => { y with coll := some { c with algo := some 0 } })
  else if c.group.head? != some c.rank then s
  else
    match x.algReq with
    | 1 => s.chooseAlgo x c 1 false
    | 2 => s.chooseAlgo x c 2 false
    | _ => s.due (.slotRequest x.id)

/-- The numbers a set-up compares (R396). -/
def Copy.setupBody (x : Copy) (c : Coll) : List Nat :=
  let d (i : Int) : Nat := wrap i 64
  match x.kind with
  | .coll k a t _ dx dy dz =>
    [c.k, k, a, t.code.toNat, Ly.grid x.lyD, bitsOf x.lyS.toNat 47 0, bitsOf x.lyD.toNat 47 0, Ly.esz x.lyS, d dx, d dy, d dz]
  | _ => []

/-- Chunks that came before their sender's set-up come again (R388). -/
def State.wakeEarly (s : State) (dev : BitVec 9) : State :=
  let mine := s.early.filter (fun m => m.sdev == dev)
  mine.foldl (fun s m => s.due (.collectiveChunk m)) { s with early := s.early.filter (fun m => m.sdev != dev) }

/-- A set-up, choice or failure message reaches the collective it names. -/
def State.takeSetup (s : State) (id : Nat) (m : Msg) : State :=
  match s.copy id with
  | none => s
  | some x =>
    match x.coll with
    | none => s
    | some c =>
      let rank := ctlWord m 5
      match ctlWord m 0 with
      | 0 =>
        if x.st != .checking then s
        else if m.data.drop 48 != (x.setupBody c).flatMap (leBytes 8) then s.failColl x 8 false false none
        else
          let c := { c with setups := Tbl.put c.setups rank (m.tag.toNat / 8), heard := Tbl.put c.heard rank s.timebase }
          let s := (s.setCopy { x with coll := some c }).wakeEarly m.sdev
          if c.setups.length + 1 < c.size then s else s.setupDone x c
      | 1 =>
        let c := { c with algo := some (ctlWord m 7), fallback := ctlWord m 8 == 1, fixedAt := s.timebase }
        (s.setCopy { x with coll := some c }).startColl id
      | _ =>
        let lost := ctlWord m 8
        let gone := if ctlWord m 7 == 9 then c.gone ++ [lost] else c.gone
        s.failCopy { x with coll := some { c with failing := some lost, gone := gone } } (ctlWord m 7) false false 0

/-- Whether a control message names a collective: context, channel, the team's coordinates and the count (R396). -/
def State.namedBy (s : State) (x : Copy) (m : Msg) : Bool :=
  match x.coll with
  | none => false
  | some c => !x.st.ended && s.teamCtx (s.team x.team) == m.dctx.toNat && x.chan == ctlWord m 1
      && s.teamName x == [ctlWord m 2, ctlWord m 3, ctlWord m 4] && c.k == ctlWord m 6

/-- Delivers the stored control messages that name a collective of this device. -/
def State.matchSetups (s : State) : State :=
  s.setups.foldl (fun s m =>
    match (Tbl.vals s.copies).find? (fun x => s.namedBy x m) with
    | none => s
    | some x => ({ s with setups := s.setups.filter (· != m) }).takeSetup x.id m) s

/-! ## Events of copies -/

/-- Checks of a plain or sparse copy: it fails, asks for leave or queues. -/
def State.checkPlain (s : State) (x : Copy) : State :=
  match x.breach (s.grid (s.team x.team).grid) with
  | some b => s.failCopy x b.1 b.2.1 false b.2.2
  | none =>
    if 1048576 ≤ x.moved then (s.setCopy { x with st := .leave }).due (.leaveRequest x.id)
    else ((s.setCopy { x with st := .queued }).markReady).due (.copyDeliver x.id)

/-- Ranks of a collective's group whose device every switch has reported lost (R403). -/
def State.deadRanks (s : State) (x : Copy) (c : Coll) : List Nat :=
  let y := s.ctx (s.teamCtx (s.team x.team))
  (List.range c.size).filter (fun r => r != c.rank
    && (rankPlace y (c.base + r)).any (fun p => Tbl.at s.peerDown p.1 0 == 0xFFFFFFFF))

/-- Checks of a collective, and its set-up messages to the other ranks of its group. A rank that is lost already is lost to it. -/
def State.checkColl (s : State) (x : Copy) : State :=
  let t := s.team x.team
  let k := Tbl.at t.collCount x.chan 0
  let s := s.modTeam x.team (fun t => { t with collCount := Tbl.put t.collCount x.chan (k + 1) })
  match s.collCheck x with
  | .error b =>
    match s.collReach x with
    | some c => s.failColl { x with coll := some { c with k := k } } b.1 b.2.1 false none
    | none => s.failCopy x b.1 b.2.1 false b.2.2
  | .ok c =>
    let c := { c with k := k, since := s.timebase }
    if c.size == 1 then s.setupDone x c
    else
      let s := s.setCopy { x with st := .checking, coll := some c }
      let s := ((List.range c.size).filter (· != c.rank)).foldl (fun s r =>
        s.toRank x c r 1 0 0 0 (ctlData 0 x.chan (s.teamName x) c.rank (x.setupBody c))) s
      ((s.deadRanks x c).foldl (fun s r => s.due (.memberLost x.id r)) s).matchSetups

/-- Every slice has arrived and the copy is checked. A slice that came later and differs fails it (R292). -/
def execCopyCheck (id : Nat) (s : State) : Host.Outcome State Fault Refusal :=
  match s.copy id with
  | none => .next s
  | some x =>
    if x.mismatch && !x.st.ended && x.st != .collecting then
      .next (if x.kind.isColl then s.failColl x 6 false false none else s.failCopy x 6 false false 0)
    else if x.st != .collecting || !s.allArrived x then .next s
    else if x.kind.isColl then .next (s.checkColl x)
    else .next (s.checkPlain x)

/-- A queued copy starts when the copies before it on its team channel have ended, the channel of its cluster's TCU is free,
and no copy became ready there before it (R285). -/
def execCopyDeliver (id : Nat) (s0 : State) : Host.Outcome State Fault Refusal :=
  let s := s0.markReady
  match s.copy id with
  | none => .next s
  | some x =>
    let cluster := s.tcuOf x
    let sameTcu (y : Copy) : Bool := y.id != id && y.chan == x.chan && s.tcuOf y == cluster
    let first (y : Copy) : Bool := match y.ready, x.ready with
      | some a, some b => a < b
      | _, _ => false
    let blocked := (Tbl.vals s.copies).any (fun y => sameTcu y && (y.st == .delivering || (y.st == .queued && first y)))
    if x.st != .queued || x.ready.isNone || blocked then .next s
    else
      let s := s.setCopy { x with st := .delivering, tcu := some cluster }
      if x.kind.isColl then .next (s.startColl id) else .next (s.due (.copyUnitWrite id))

/-- The linear index in the source tile that a destination element of a reduction takes. -/
def Copy.reducedIndex (x : Copy) (c : Coll) (e : CopyElem) : Nat :=
  let i3 := if x.collKind == 3 then c.group.findIdx (· == c.rank) * Ly.ext x.lyD 3 + e.i3 else e.i3
  e.i0 + Ly.ext x.lyS 0 * (e.i1 + Ly.ext x.lyS 1 * (e.i2 + Ly.ext x.lyS 2 * i3))

/-- An element of a stream held here. -/
def Coll.elem (c : Coll) (x : Copy) (stream n : Nat) : Option (List Byte) :=
  let z := Ly.esz x.lyS
  let b := n * z
  (c.seg stream (b / 65536) (b % 65536 / 16384)).map (fun bs => (bs.drop (b % 16384)).take z)

/-- The value of a collective's destination element, once it is here (R394). -/
def State.collElem (s : State) (x : Copy) (c : Coll) (e : CopyElem) : Except UnitFail (Option Value) :=
  let own (n : Nat) : Except UnitFail (Option Value) := (s.ownElem x n).map some
  let of' (stream n : Nat) : Option Value := (c.elem x stream n).map (fun b => { bytes := some b })
  match x.collKind with
  | 0 =>
    let n := x.reducedIndex c e
    let r := x.putRank c.rank true
    if r == c.rank then own n else .ok (of' r n)
  | 2 =>
    let e3 := Ly.ext x.lyS 3
    let r := c.group.getD (e.i3 / e3) 0
    let n := x.reducedIndex c { e with i3 := e.i3 % e3 }
    if r == c.rank then own n else .ok (of' r n)
  | _ => if c.group.length == 1 then own (x.reducedIndex c e) else .ok (of' 512 (x.reducedIndex c e))

/-- The values of a unit's elements, if all are here; an element that another takes the place of needs none. -/
def State.collUnit (s : State) (x : Copy) (c : Coll) (es : List (CopyElem × Bool)) : Except UnitFail (Option (List (CopyElem × Value))) :=
  es.foldrM (fun e acc => do
    match ← (if e.2 then s.collElem x c e.1 else .ok (some {})), acc with
    | some b, some bs => .ok (some ((e.1, b) :: bs))
    | _, _ => .ok none) (some [])

/-- All units are written: a copy completes; a collective acknowledges what it landed and completes when its own chunks
are acknowledged (R396). -/
def State.unitsDone (s : State) (x : Copy) : State :=
  match x.coll with
  | none => s.due (.copyComplete x.id)
  | some c =>
    let s := c.owed.foldl (fun s o => (s.ackChunk x c o.1 (if o.2.1 == 512 then 1 else 0) o.2.2).freeLanding x.id o.2.1 o.2.2) s
    let s := s.modCopy x.id (fun y => { y with coll := some { c with owed := [] } })
    if c.unacked.isEmpty then s.due (.collectiveComplete x.id) else s

/-- One unit of a delivering copy: its values are read and written and the write pointer moves, or the copy fails there. The pointer
stands after the last unit written, also while the next units hold no element (DESIGN CHOICE, log entry 103). -/
def State.unitWriteOf (s : State) (x : Copy) : State :=
  let g := s.grid (s.team x.team).grid
  match x.nextUnit g with
  | none => s.unitsDone x
  | some u =>
    let es := x.unitElems g u
    let y := { x with unit := u + 1, wp := min (32 * (u + 1)) (x.endOffset g) }
    let done (t : State) : State :=
      let t := t.modCopy x.id (fun z => { z with unit := y.unit, wp := y.wp })
      if (y.nextUnit g).isNone then t.unitsDone y else t.due (.copyUnitWrite x.id)
    match x.coll with
    | none =>
      match s.writeUnit x es (s.copyValue x) with
      | .ok t => done t
      | .error e => s.failUnit { x with wp := 32 * u } e
    | some c =>
      match s.collUnit x c es with
      | .error e => s.failUnit { x with wp := 32 * u } e
      | .ok none => s
      | .ok (some vs) =>
        match s.writeUnit x es (fun e _ => .ok (((vs.find? (fun p => p.1 == e)).map (·.2)).getD {})) with
        | .ok t => done t
        | .error e => s.failUnit { x with wp := 32 * u } e

def execCopyUnitWrite (id : Nat) (s : State) : Host.Outcome State Fault Refusal :=
  match s.copy id with
  | none => .next s
  | some x => if x.st != .delivering then .next s else .next (s.unitWriteOf x)

/-- A copy that has written every unit, or failed, ends. -/
def execCopyComplete (id : Nat) (s : State) : Host.Outcome State Fault Refusal :=
  match s.copy id with
  | none => .next s
  | some x =>
    if x.told || x.kind.isColl then .next s
    else if x.st == .failed then .next ((s.endRuns x).endCopy x)
    else if x.st == .delivering && (x.nextUnit (s.grid (s.team x.team).grid)).isNone then
      .next ((s.endRuns x).endCopy { x with st := .completed })
    else .next s

/-! ## The status record and the end of a collective (R398) -/

/-- CAUSE of a failed collective. -/
def Copy.causeOf (x : Copy) : Nat :=
  match x.err with
  | some e => bitsOf e.finfo.toNat 9 5
  | none => 0

/-- The status record. LOST names the failing rank, and of lost ranks the lowest (R398, R404). -/
def Copy.statusBytes (x : Copy) : List Byte :=
  let c := x.coll.getD {}
  let cause := x.causeOf
  let least (xs : List Nat) : Nat := match xs with
    | [] => 0xFFFF
    | a :: r => r.foldl min a
  let lost := match c.failing with
    | some r => if cause == 9 then c.gone.foldl min r else r
    | none => least c.gone
  let flags := b2n (x.st == .completed) + 2 * b2n (!c.gone.isEmpty) + 4 * b2n (cause == 9 || cause == 13) + 8 * b2n c.fallback
  [BitVec.ofNat 8 flags, 0, 0, 0, BitVec.ofNat 8 cause, BitVec.ofNat 8 (c.algo.getD 0)] ++ leBytes 2 lost ++ leBytes 8 x.wp

/-- Writes the record, if its place is sound, then ends the collective and gives its slots back. -/
def State.endColl (s : State) (x : Copy) : State :=
  let g := s.grid (s.team x.team).grid
  let s := if x.aux.toNat % 16 = 0 && x.aux.toNat + 16 ≤ g.scrsize then s.modTeam x.team (fun t => t.setSpad x.aux.toNat x.statusBytes)
    else s
  let s := s.freeLandings (fun l => l.coll == x.id)
  let s := match x.coll with
    | some c => if c.grants.isEmpty then s else s.due (.slotRelease x.id)
    | none => s
  s.endCopy x

def execCollectiveComplete (id : Nat) (s : State) : Host.Outcome State Fault Refusal :=
  match s.copy id with
  | none => .next s
  | some x =>
    let idle := match x.coll with
      | some c => c.unacked.isEmpty
      | none => true
    if x.told || !x.kind.isColl then .next s
    else if x.st == .failed then .next (s.endColl x)
    else if x.st == .delivering && idle && (x.nextUnit (s.grid (s.team x.team).grid)).isNone then
      .next (s.endColl { x with st := .completed })
    else .next s

/-! ## Messages received (R388, R389) -/

/-- The name by which duplicates are known. -/
def msgName (m : Msg) : Nat × Nat × Nat × Nat × Nat := (m.sdev.toNat, m.kind.toNat, m.tag.toNat, m.chunk.toNat, m.xtra.toNat % 4)

/-- Turns a message away with the place its context has moved to (R389). -/
def State.turnAway (s : State) (m : Msg) (p : Nat × Nat) : State :=
  let r := redirectMsg s m.sdev m.tag m.kind.toNat m.chunk.toNat (m.xtra.toNat % 4) p
  if m.sdev == 0x1FF then { s with outbox := s.outbox ++ [(s.votePort 0, r)] } else s.send r

/-- A message to a context: turned away when the context has moved, held at its port while the context is not enabled here (R390),
discarded when it came before (R388). `again` is its act. -/
def State.receive (s : State) (m : Msg) (again : Act) (act : State → State) : State :=
  match (s.ctx m.dctx.toNat).movedTo with
  | some p => s.turnAway m p
  | none =>
    if (s.ctx m.dctx.toNat).arriving then s.holdAct m.dctx.toNat again
    else if s.received.contains (msgName m) then s
    else act { s with received := s.received ++ [msgName m] }

def execSetup (m : Msg) (s : State) : Host.Outcome State Fault Refusal :=
  .next (s.receive m (.event (.setup m)) (fun s => State.matchSetups { s with setups := s.setups ++ [m] }))

/-- The collective and the partner a chunk message or its acknowledgement belongs to, by the tag its sender chose. -/
def State.chunkOwner (s : State) (m : Msg) (own : Bool) : Option (Copy × Coll × Nat) :=
  (Tbl.vals s.copies).findSome? (fun x =>
    match x.coll with
    | none => none
    | some c =>
      if x.st.ended || s.teamCtx (s.team x.team) != m.dctx.toNat && m.sdev != 0x1FF then none
      else
        let dev (r : Nat) : Bool := (rankPlace (s.ctx (s.teamCtx (s.team x.team))) (c.base + r)).any (fun p => p.1 == m.sdev.toNat)
        if m.sdev == 0x1FF then (if m.tag.toNat / 8 == x.id then some (x, c, 512) else none)
        else if own then
          (if m.tag.toNat / 8 == x.id then ((List.range c.size).find? (fun r => r != c.rank && dev r
            && c.unacked.contains (r, m.tag.toNat % 8, m.chunk.toNat))).map (fun r => (x, c, r)) else none)
        else ((c.setups.find? (fun e => e.2 == m.tag.toNat / 8 && dev e.1)).map (fun e => (x, c, e.1))))

/-- Room for a chunk: a landing slot, else spill space of its partition (R401). A free slot goes to what was spilled before it. -/
def State.landChunk (s : State) (x : Copy) (c : Coll) (stream q : Nat) : Option State :=
  let here (l : Landing) : Bool := l.coll == x.id && l.stream == stream && l.chunk == q
  if s.landing.any here || s.spill.any here then some s
  else
    let b := s.chunkBase x c stream q
    let p := (s.ctx (s.teamCtx (s.team x.team))).part
    let l : Landing := ⟨b, p, x.id, stream, q⟩
    if (s.landing.filter (fun y => y.base == b)).length < 64 then some { s with landing := s.landing ++ [l] }
    else if (s.spill.filter (fun y => y.part == p)).length < Config.spillRoom p then some { s with spill := s.spill ++ [l] }
    else none

/-- A final chunk of the chain goes on to the next member that has not had it (R400). -/
def State.forwardFinal (s : State) (x : Copy) (c : Coll) (q : Nat) : State :=
  let index := c.group.findIdx (· == c.rank)
  if c.algo == some 1 && index + 2 < c.group.length then
    s.sendChunk x (c.group.getD (index + 1) 0) 1 q ((List.range (x.segments q)).map (fun j => (c.seg 512 q j).getD []))
  else s

/-- A segment arrives: it takes room, and with its last segment the chunk is passed on, reduced or kept to be written. When
there is no room, the sender waits. One that comes before its sender's set-up is kept (R388). -/
def State.takeChunk (s : State) (m : Msg) : State :=
  match s.chunkOwner m false with
  | none => if s.early.contains m then s else { s with early := s.early ++ [m] }
  | some (x, c, partner) =>
    let q := m.chunk.toNat
    let stream := if m.tag.toNat % 8 == 1 then 512 else partner
    match s.landChunk x c stream q with
    | none => s.due (.collectiveChunk m)
    | some s =>
      let s := { s with received := s.received ++ [msgName m] }
      let c1 := { c.land stream q (m.xtra.toNat % 4 + m.tag.toNat % 8 / 4 * 4) m.data with heard := Tbl.put c.heard partner s.timebase }
      let full := c1.hasChunk x stream q && !c.hasChunk x stream q
      let keep := full && (stream == 512 || x.collKind == 0 || x.collKind == 2)
      let c2 := if keep then { c1 with owed := c1.owed ++ [(partner, stream, q)] } else c1
      let s := s.setCopy { x with coll := some c2 }
      let s := if full && stream == 512 then s.forwardFinal x c2 q else s
      s.advanceColl x.id

def execCollectiveChunk (m : Msg) (s : State) : Host.Outcome State Fault Refusal :=
  if (s.ctx m.dctx.toNat).movedTo.isSome || (s.ctx m.dctx.toNat).arriving then .next (s.receive m (.event (.collectiveChunk m)) id)
  else .next (if s.received.contains (msgName m) then s else s.takeChunk m)

def execChunkAcknowledgement (m : Msg) (s : State) : Host.Outcome State Fault Refusal :=
  match s.chunkOwner m true with
  | none => .next s
  | some (x, c, partner) =>
    let c := { c with
      unacked := c.unacked.filter (· != (partner, m.tag.toNat % 8, m.chunk.toNat)), heard := Tbl.put c.heard partner s.timebase }
    let s := s.setCopy { x with coll := some c }
    .next (if c.unacked.isEmpty then s.due (.collectiveComplete x.id) else s)

/-- The name by which a duplicate of a redirect is known: the data name the message that it answers (R388, log entry 23). -/
def nackName (m : Msg) : Nat × Nat × Nat × Nat × Nat :=
  (m.sdev.toNat, 4, m.tag.toNat, ctlWord m 1, ctlWord m 0 + 2 ^ 8 * ctlWord m 2 + 2 ^ 10 * m.xtra.toNat)

/-- A redirect: the entry that named the old place names the new one, and the message that was turned away goes again (R389): its
data name it. A redirect that came before is discarded (R388). -/
def execNackWithRedirect (m : Msg) (s : State) : Host.Outcome State Fault Refusal :=
  let dev := bitsOf m.xtra.toNat 8 0
  let ctx := bitsOf m.xtra.toNat 27 16
  match (s.outbox.filter (fun o => o.2.ddev == m.sdev && o.2.tag == m.tag && o.2.kind.toNat == ctlWord m 0
      && o.2.chunk.toNat == ctlWord m 1 && o.2.xtra.toNat % 4 == ctlWord m 2)).getLast? with
  | none => .next s
  | some o =>
    if s.received.contains (nackName m) then .next s
    else
    let s := { s with received := s.received ++ [nackName m] }
    let old := o.2.dctx.toNat
    let move (r : Nat × Word) : Nat × Word :=
      if r.2.getLsbD 31 && r.2.extractLsb' 20 9 == m.sdev && bitsOf r.2.toNat 11 0 == old
      then (r.1, BitVec.ofNat 32 (2 ^ 31 + dev * 2 ^ 20 + ctx)) else r
    let s : State := { s with ctxs := s.ctxs.map (fun (e : Nat × Ctx) => (e.1, { e.2 with ranks := e.2.ranks.map move })) }
    .next (s.send { o.2 with ddev := BitVec.ofNat 9 dev, dctx := BitVec.ofNat 12 ctx })

/-! ## Switch slots (R400, R402) -/

/-- Member 0 asks all 32 switches at once. -/
def execSlotRequest (id : Nat) (s : State) : Host.Outcome State Fault Refusal :=
  match s.copy id with
  | none => .next s
  | some x =>
    match x.coll with
    | none => .next s
    | some c =>
      if x.st.ended || c.algo.isSome || !c.asking.isEmpty || c.group.head? != some c.rank then .next s
      else
        let s := s.setCopy { x with coll := some { c with asking := List.range 32 } }
        .next ((List.range 32).foldl (fun s p => s.toSwitch x p 5 0 0 0 []) s)

/-- A slot goes back to its switch. -/
def State.giveBack (s : State) (id switch : Nat) : State :=
  s.sendSwitch switch
    { kind := 8, sdev := s.devId, ddev := 0x1FF, dctx := 0, chunk := 0, tag := BitVec.ofNat 32 (8 * id), xtra := 0, data := [] }

/-- The name by which a duplicate of a switch's answer to a slot request is known (R388): a collective asks each switch once. -/
def slotName (id switch kind : Nat) : Nat × Nat × Nat × Nat × Nat := (512 + switch, kind, 8 * id, 0, 0)

/-- A switch's answer is discarded when it came before. -/
def State.answered (s : State) (id switch kind : Nat) (act : State → State) : State :=
  if s.received.contains (slotName id switch kind) then s else act { s with received := s.received ++ [slotName id switch kind] }

/-- A grant; with the last one the switch is the algorithm. A grant that comes after a NACK, or once the collective has ended, is
given back. -/
def State.takeGrant (s : State) (id switch : Nat) : State :=
  match (s.copy id).bind (fun x => x.coll.map (fun c => (x, c))) with
  | none => s.giveBack id switch
  | some (x, c) =>
    if x.st.ended || !c.asking.contains switch then s.giveBack id switch
    else
      let c := { c with asking := c.asking.filter (· != switch), grants := c.grants ++ [switch] }
      let s := s.setCopy { x with coll := some c }
      if c.asking.isEmpty then s.chooseAlgo x c 3 false else s

def execSlotGrant (id switch : Nat) (s : State) : Host.Outcome State Fault Refusal :=
  .next (s.answered id switch 6 (fun s => s.takeGrant id switch))

/-- A NACK: the granted slots go back, and the collective falls back or fails. One that comes after another, or once the collective
has ended, changes nothing. -/
def State.takeNack (s : State) (id switch : Nat) : State :=
  match (s.copy id).bind (fun x => x.coll.map (fun c => (x, c))) with
  | none => s
  | some (x, c) =>
    if x.st.ended || !c.asking.contains switch then s
    else
      let s := c.grants.foldl (fun s p => s.giveBack id p) s
      let c := { c with asking := [], grants := [] }
      let x := { x with coll := some c }
      let s := s.setCopy x
      if x.algReq == 3 then s.failColl x 10 false false none
      else s.chooseAlgo x c (if c.group.length ≤ 8 then 2 else 1) true

def execSlotNack (id switch : Nat) (s : State) : Host.Outcome State Fault Refusal :=
  .next (s.answered id switch 7 (fun s => s.takeNack id switch))

def execSlotRelease (id : Nat) (s : State) : Host.Outcome State Fault Refusal :=
  match s.copy id with
  | none => .next s
  | some x =>
    match x.coll with
    | none => .next s
    | some c =>
      if !x.st.ended then .next s
      else
        let s := s.setCopy { x with coll := some { c with grants := [] } }
        .next (c.grants.foldl (fun s p => s.giveBack id p) s)

/-! ## Lost members (R403, R404), reserved kinds (R388) -/

/-- Whether a lost member had done its part toward this one. -/
def Coll.hadAll (c : Coll) (x : Copy) (r : Nat) : Bool :=
  let n := c.group.length
  let index := c.group.findIdx (· == c.rank)
  let mine := (List.range x.chunks).filter (fun q => q % n == index)
  let his := (List.range x.chunks).filter (fun q => c.group.getD (q % n) 0 == r)
  if !(Tbl.look c.setups r).isSome then false
  else if !c.group.contains r && x.collKind != 0 then true
  else
    match x.collKind, c.algo with
    | 0, _ => x.putRank c.rank true != r || c.hasTile x r
    | 2, _ => c.hasTile x r
    | _, some 1 =>
      if 0 < index && c.group.getD (index - 1) 0 == r then
        (List.range x.chunks).all (fun q => c.reduced.contains q || c.hasChunk x r q)
        && (index + 1 == n || c.hasTile x 512)
      else index != 0 || c.group.getD (n - 1) 0 != r || c.hasTile x 512
    | _, some 2 => mine.all (fun q => c.reduced.contains q || c.hasChunk x r q) && his.all (fun q => c.hasChunk x 512 q)
    | _, some 3 => c.hasTile x 512
    | _, _ => false

/-- Whether a collective waits for a message that only a rank can send (R396, R400): its set-up, member 0's choice of the algorithm, or
chunks. The results of the switch come from the switch. -/
def Coll.awaits (c : Coll) (x : Copy) (r : Nat) : Bool :=
  if !(Tbl.look c.setups r).isSome then true
  else if c.setups.length + 1 < c.size then false
  else
    match x.collKind, c.algo with
    | 1, none => c.group.head? == some r
    | 3, none => c.group.head? == some r
    | 1, some 3 => false
    | 3, some 3 => false
    | _, _ => !c.hadAll x r

/-- Timebase from which a collective has waited for the next message of a rank (R403): since its set-up and the rank's last message;
for chunks and member 0's choice since the exchange, and the fixing of the algorithm, were over; for acknowledgements since the chunk. -/
def Coll.waitStart (c : Coll) (x : Copy) (r : Nat) : Nat :=
  let last := max c.since (Tbl.at c.heard r 0)
  if c.hadAll x r then max last (Tbl.at c.sentAt r 0)
  else if (Tbl.look c.setups r).isSome then max last c.fixedAt
  else last

/-- Ranks a collective waits to hear from, each with the time at which the wait for its next message passes GRACE of the membership
register (R403); a rank lost in doubt is waited for as long again. -/
def State.silences (s : State) (x : Copy) : List (Nat × Nat) :=
  match x.coll with
  | none => []
  | some c =>
    let grace := Mset.grace ((s.ctx (s.teamCtx (s.team x.team))).msetOf x.mreg)
    let waits (r : Nat) : Bool := r != c.rank && !c.gone.contains r && (c.awaits x r || c.unacked.any (fun u => u.1 == r))
    if x.st.ended || x.st == .collecting then []
    else ((List.range c.size).filter waits).map (fun r => (r, 1000 * (c.waitStart x r + 1000 * grace)))
      ++ (c.doubt.filter (fun e => !c.hadAll x e.1)).map (fun e => (e.1, 1000 * (e.2 + 1000 * grace)))

/-- A member is lost to a collective: it goes on without it, or fails at every survivor with cause 9. Under the switch nobody here
knows whether its contributions were delivered: the results show it, and the collective fails when they do not come (R404). -/
def execMemberLost (id rank : Nat) (s : State) : Host.Outcome State Fault Refusal :=
  match s.copy id with
  | none => .next s
  | some x =>
    match x.coll with
    | none => .next s
    | some c =>
      let doubted := (Tbl.look c.doubt rank).isSome
      if x.st.ended || rank == c.rank || c.size ≤ rank || (c.gone.contains rank && !doubted) then .next s
      else
        let ok := c.hadAll x rank
        let unsure := c.algo == some 3 && !ok && !doubted
        let c := { c with
          gone := if doubted then c.gone else c.gone ++ [rank], unacked := c.unacked.filter (fun u => u.1 != rank)
          doubt := if unsure then Tbl.put c.doubt rank s.timebase else Tbl.drop c.doubt rank }
        let x := { x with coll := some c }
        let s := s.setCopy x
        if ok then .next (s.due (.copyUnitWrite id))
        else if unsure then .next s
        else .next (s.failColl x 9 false false (some (c.gone.foldl min rank)))

/-- Whether a message sent may still be in flight: a chunk that has been acknowledged is not. -/
def State.inFlight (s : State) (m : Msg) : Bool :=
  m.kind != 2 || match (s.copy (m.tag.toNat / 8)).bind (·.coll) with
    | none => false
    | some c => c.unacked.any (fun u => u.2.2 == m.chunk.toNat && u.2.1 == m.tag.toNat % 4)

/-- A port of this device goes down: what is in flight on it is dropped and sent again by the same rules (R388). A message that R400
or R402 sends on that port stays there. -/
def State.resend (s : State) (port : Nat) : State :=
  let mine := s.outbox.filter (fun o => o.1 == port && s.inFlight o.2)
  mine.foldl (fun s o =>
    if o.2.ddev != 0x1FF then s.send o.2
    else if o.2.kind == 4 || o.2.kind == 9 || o.2.kind == 0x0A then { s with outbox := s.outbox ++ [(s.votePort 0, o.2)] }
    else s.sendSwitch port o.2) { s with outbox := s.outbox.filter (fun o => !mine.contains o) }

/-- A port of this device is down: what was in flight on it goes again. -/
def State.losePort (s : State) (port : Nat) : State :=
  ({ s with portsUp := s.portsUp &&& ~~~(onesAt 32 port 1) } : State).resend port

/-- A switch reports a port of a device down; a device none of whose ports is left is lost (R403). -/
def execPortDown (dev port : Nat) (s : State) : Host.Outcome State Fault Refusal :=
  let down := Tbl.at s.peerDown dev 0 ||| onesAt 32 (port % 32) 1
  let s := { s with peerDown := Tbl.put s.peerDown dev down }
  let s := if dev == s.devId.toNat then s.losePort (port % 32) else s
  if down != 0xFFFFFFFF then .next s
  else
    .next ((Tbl.vals s.copies).foldl (fun s x =>
      match x.coll with
      | none => s
      | some c =>
        let y := s.ctx (s.teamCtx (s.team x.team))
        ((List.range c.size).filter (fun r => (rankPlace y (c.base + r)).any (fun p => p.1 == dev))).foldl (fun s r =>
          s.due (.memberLost x.id r)) s) s)

def execReservedKindDiscard (m : Msg) (s : State) : Host.Outcome State Fault Refusal :=
  if m.kind == 0 || 0x0C ≤ m.kind.toNat then .next { s with fabdrop := BitVec.ofNat 32 (min (s.fabdrop.toNat + 1) (2 ^ 32 - 1)) }
  else .next s

end Sys2Proof.Machine
end

