-- ==== Sys2Proof/Machine/Matrix.lean ====
section
/-!
DEFINITION. The matrix engine: posting and its checks (R307 to R312, R317), the array's computation (R47, R49, R313, R315), the
tile fetch unit (R316), accumulator moves (R318 to R320), barrier objects (R321 to R324), and the requests for leave (R325).
-/
namespace Sys2Proof.Machine

/-! ## Instructions that only the lowest executing lane of the pass performs (R311, R317, R323) -/

/-- The lanes that speculate stop (R419); the lowest of the others acts. -/
def State.execFirst (s : State) (g : Guard) (reads : Bool) (act : State → Lane → Except LaneFail State) :
    Host.Outcome State Fault Refusal :=
  match s.curPass with
  | none => .fault .noPass
  | some (c, p, x) =>
    let ex := s.executing c x g
    let stops := (ex.filter (fun k => (s.thr c k).spec)).map (fun k => (k, LaneFail.stop))
    match ex.find? (fun k => !(s.thr c k).spec) with
    | none => .next (s.afterInstr c p x stops)
    | some k =>
      match act s (x.lane c k) with
      | .error e => .next (s.afterInstr c p x (stops ++ [(k, e)]))
      | .ok t =>
        let u := t.useChans c x reads [(k, { th := s.thr c k })]
        .next (u.1.afterInstr c p u.2 stops)

/-! ## Shapes (R307) -/

/-- K of a step: 256 over the wider element. -/
def stepK (a b : FmtSlot) : Nat := 256 / max a.ebits b.ebits

def Grid.slotOf (g : Grid) (w : DWord) : FmtSlot := g.slot w.toNat

/-- Bytes of one row of A or column of B. -/
def rowBytes (z : FmtSlot) (ktot : Nat) : Nat := ktot * z.ebits / 8

/-! ## Intervals of bytes an operand touches (R308) -/

/-- The intervals of an operand with a number of rows: every row, then the scale pairs, each as start and length. -/
def MmaOperand.spans (o : MmaOperand) (z : FmtSlot) (rows ktot : Nat) : List (Int × Nat) :=
  (List.range rows).map (fun i => ((o.base.toNat : Int) + ((i * o.pitch : Nat) : Int), rowBytes z ktot))
    ++ (if z.isBx then [((o.base.toNat : Int) + o.soff, 2 * (rows * (ktot / z.blk)))] else [])

/-- The first byte of an interval that is not canonical: addresses wrap at 64 bits. -/
def firstBad (p : Int × Nat) : Option Int :=
  let r := wrap p.1 64
  let next : Nat := if r < 2 ^ 56 then 2 ^ 56 - r else if r < 2 ^ 64 - 2 ^ 56 then 0 else 2 ^ 64 + 2 ^ 56 - r
  if next < p.2 then some (p.1 + next) else none

/-- The first byte of an interval outside a scratchpad of n bytes. -/
def firstOut (n : Nat) (p : Int × Nat) : Option Int :=
  if p.2 = 0 then none
  else if p.1 < 0 then some p.1
  else if (n : Int) < p.1 + p.2 then some (max p.1 n)
  else none

/-- The lowest of the bytes that a test finds in a list of intervals. -/
def lowestIn (ps : List (Int × Nat)) (t : Int × Nat → Option Int) : Option Int :=
  (ps.filterMap t).foldl (fun b a => match b with
    | none => some a
    | some x => some (min x a)) none

/-! ## Posting (R311, R312) -/

/-- The fault of checks 4 to 7: SPACE, WR 0 and LSIZE 5. -/
def unitFault (code : Nat) (glob : Bool) (a : Int) : LaneFail :=
  .fault (accessInfo code (BitVec.ofInt 64 a) (if glob then 0 else 1) 0 5 false false false)

/-- Poison of a descriptor word (R311). -/
def Lane.groupPoison (l : Lane) (s : State) (place : Nat) (o : Operand) : Except LaneFail Unit :=
  match o with
  | .v n =>
    if (List.range 4).any (fun k => (l.thr s).poisonV (l.regs s) (n.toNat + k)) then .error (dataError o place) else .ok ()
  | _ => .ok ()

/-- A descriptor group: four v registers from a multiple of 4. -/
def Lane.descriptor (l : Lane) (s : State) (place : Nat) (o : Operand) (glob : Bool) (slot : Nat) : Except LaneFail MmaOperand :=
  match o with
  | .v n =>
    if n.toNat % 4 ≠ 0 then .error (.fault (opInfo 2 o.toSpec.toNat place))
    else
      let w (k : Nat) : Word := (l.thr s).readV (l.regs s) (n.toNat + k)
      .ok { base := if glob then pairOf (w 0) (w 1) else (w 0).setWidth 64, pitch := (w 2).toNat, soff := (w 3).toInt
            glob := glob, slot := BitVec.ofNat 64 slot }
  | _ => .error (.fault (opInfo 2 o.toSpec.toNat place))

/-- Check 4 for an operand. -/
def MmaOperand.aligned (o : MmaOperand) (z : FmtSlot) : Except LaneFail Unit :=
  let b : Int := o.base.toNat
  if o.base.toNat % 32 ≠ 0 then .error (unitFault 7 o.glob b)
  else if o.pitch % 32 ≠ 0 then .error (unitFault 7 o.glob (b + o.pitch))
  else if z.isBx && (b + o.soff) % 2 != 0 then .error (unitFault 7 o.glob (b + o.soff))
  else .ok ()

/-- Check 5 for an operand. -/
def MmaOperand.canon (o : MmaOperand) (z : FmtSlot) (rows ktot : Nat) : Except LaneFail Unit :=
  match (if o.glob then lowestIn (o.spans z rows ktot) firstBad else none) with
  | some a => .error (unitFault 0x0B o.glob a)
  | none => .ok ()

/-- Check 6 for an operand. -/
def MmaOperand.inside (o : MmaOperand) (z : FmtSlot) (rows ktot scr : Nat) : Except LaneFail Unit :=
  match (if o.glob then none else lowestIn (o.spans z rows ktot) (firstOut scr)) with
  | some a => .error (unitFault 0x0A o.glob a)
  | none => .ok ()

/-- Check 7: the offset of a barrier object. -/
def checkObject (scr off : Nat) : Except LaneFail Unit :=
  if off % 32 ≠ 0 then .error (unitFault 7 false off)
  else if scr < off + 32 then .error (unitFault 0x0A false off)
  else .ok ()

/-- Checks of an `mma` on its posting lane, in R311's order: the operation to post. -/
def mmaChecks (f : Fields) (e : MmaExt) (s : State) (l : Lane) : Except LaneFail FifoOp := do
  let g := l.grid s
  l.check s [(pSA, .src false, f.sa), (pSB, .src false, f.sb), (pSC, .src false, f.sc)]
  l.groupPoison s pSA f.sa
  l.groupPoison s pSB f.sb
  let a ← l.descriptor s pSA f.sa e.aGlobal f.slot.toNat
  let b ← l.descriptor s pSB f.sb e.bGlobal e.slotB.toNat
  let m := 64 * 2 ^ e.msel.toNat
  let n := 16 * (e.nenc.toNat + 1)
  let ks := e.ksm1.toNat + 1
  let own := if e.pair then m / 2 else m
  if e.msel == 3 || Config.nAcc < e.cbase.toNat + own * n || (e.pair && !(g.paired && (l.team s).core == l.core)) then
    .error (.fault illegalEncoding)
  else
    let za := g.slot f.slot.toNat
    let zb := g.slot e.slotB.toNat
    let ktot := stepK za zb * ks
    let whole (z : FmtSlot) : Bool := !z.isBx || ktot % z.blk == 0
    if (e.had && !(za.had && zb.had && za.blk == zb.blk && ktot % za.blk == 0)) || !whole za || !whole zb then
      .error (.fault illegalEncoding)
    else
      a.aligned za
      b.aligned zb
      a.canon za m ktot
      b.canon zb n ktot
      a.inside za m ktot g.scrsize
      b.inside zb n ktot g.scrsize
      let off ← l.readWord s pSC f.sc
      checkObject g.scrsize off.toNat
      .ok (.mma m n ks e.cbase.toNat e.acc e.had e.pair (!(l.thr s).priv) a b off.toNat)

/-- Whether an operation asks for leave (R325). -/
def FifoOp.large (op : FifoOp) (g : Grid) : Bool :=
  match op with
  | .mma m n ks _ _ _ _ _ a b _ => 2 ^ 20 ≤ m * n * stepK (g.slotOf a.slot) (g.slotOf b.slot) * ks
  | .mzero .. => false

def FifoOp.paired : FifoOp → Bool
  | .mma _ _ _ _ _ _ p _ _ _ _ => p
  | .mzero .. => false

/-! ### Operand lines (R316) -/

/-- The intervals of an operand that a step reads for some of its rows: their elements, then the scale pairs of their blocks. -/
def MmaOperand.stepSpans (o : MmaOperand) (z : FmtSlot) (k ktot first rows step : Nat) : List (Int × Nat) :=
  let b : Int := o.base.toNat
  let lo := step * k / z.blk
  let hi := (step * k + k - 1) / z.blk
  ((List.range rows).map (fun r => (b + (((first + r) * o.pitch + step * (k * z.ebits / 8) : Nat) : Int), k * z.ebits / 8)))
    ++ (if z.isBx then (List.range rows).map (fun r =>
          (b + o.soff + ((2 * ((first + r) * (ktot / z.blk) + lo) : Nat) : Int), 2 * (hi - lo + 1))) else [])

/-- The virtual lines of an interval. -/
def linesOf (p : Int × Nat) : List Nat :=
  let a := wrap p.1 64
  (List.range ((a % 64 + p.2 + 63) / 64)).map (fun i => (a / 64 + i) % 2 ^ 58)

/-- The lines that the tile fetch unit of a core reads for its entry, each with its step, in ascending step. A follower reads the
lower half of A's rows and all of B, a leader the upper half (R309). -/
def FifoEntry.requests (e : FifoEntry) (g : Grid) : List (Nat × Nat) :=
  match e.op with
  | .mzero .. => []
  | .mma m n ks _ _ _ pair _ a b _ =>
    let za := g.slotOf a.slot
    let zb := g.slotOf b.slot
    let k := stepK za zb
    let own := if pair then m / 2 else m
    (List.range ks).flatMap (fun t =>
      (((if a.glob then a.stepSpans za k (k * ks) (if e.follower then own else 0) own t else [])
        ++ (if b.glob then b.stepSpans zb k (k * ks) 0 n t else [])).flatMap linesOf).eraseDups.map (fun l => (t, l)))

/-- Steps of an operation. -/
def FifoOp.steps : FifoOp → Nat
  | .mma _ _ ks _ _ _ _ _ _ _ _ => ks
  | .mzero .. => 0

/-- Steps that an operation can do before any line is fetched: those before the first that reads one. -/
def FifoEntry.readySteps (e : FifoEntry) (g : Grid) : Nat := ((e.requests g).head?.map (·.1)).getD e.op.steps

/-- What the head of a core still has to fetch; nothing after a fault of a fetch (R315). -/
def State.pendingLines (s : State) (c : Nat) : List (Nat × Nat) :=
  match (s.core c).fifo with
  | [] => []
  | e :: _ => if !e.started || e.status.getLsbD 2 || e.status.getLsbD 3 then [] else (e.requests (s.grid (s.team e.team).grid)).drop e.fetched

/-- Whether a set of a slice holds as many pinned lines as tile fetch units may pin there: 4 (R251, R316). -/
def State.setPinned (s : State) (line : Nat) : Bool :=
  4 ≤ (s.l2.filter (fun e => 0 < e.2.pins && l2Place (64 * e.1) == l2Place (64 * line))).length

/-- The privilege under which an operation's operands are translated. -/
def FifoOp.user : FifoOp → Bool
  | .mma _ _ _ _ _ _ _ u _ _ _ => u
  | .mzero .. => true

/-- What an operation's operand reads need of a page. -/
def FifoOp.need (op : FifoOp) : Need := { load := true, user := op.user }

/-- Whether a core has pinned a line of the set that a line lies in. -/
def State.pinsSet (s : State) (c line : Nat) : Bool :=
  ((s.core c).fifo.head?).any (fun e => e.pins.any (fun p => l2Place (64 * p.2) == l2Place (64 * line)))

/-- The line whose set a core's next fetch finds full. -/
def State.stuckLine (s : State) (c : Nat) : Option Nat :=
  match (s.core c).fifo, s.pendingLines c with
  | e :: _, r :: _ =>
    (match s.walk (s.teamCtx (s.team e.team)) e.op.need (64 * r.2) with
      | .error _ => none
      | .ok m => if !isSystem m.pa && !e.pins.contains (r.2, m.pa / 64) && s.setPinned (m.pa / 64) then some (m.pa / 64) else none)
  | _, _ => none

/-- The other cores that have pinned a line of the set that a line lies in. -/
def State.holders (s : State) (c line : Nat) : List Nat := (Tbl.keys s.cores).filter (fun k => k != c && s.pinsSet k line)

/-- The cores that a wait depends on: holders, and those that the fetches of holders wait for in their turn. The number bounds the
turns. -/
def State.waitChain (s : State) (c : Nat) : Nat → List Nat → List Nat
  | 0, ks => ks
  | n + 1, ks =>
    let next := (ks.flatMap (fun k => match s.stuckLine k with
      | none => []
      | some l => (s.holders k l).filter (fun j => j != c && !ks.contains j))).eraseDups
    if next.isEmpty then ks else s.waitChain c n (ks ++ next)

/-- The core for which a fetch that finds its set full waits in the end: one that goes on by itself, so that the waits that depend on it
end. -/
def State.pinHolder (s : State) (c line : Nat) : Option Nat :=
  (s.waitChain c s.cores.length (s.holders c line)).find? (fun k => (s.stuckLine k).isNone)

/-- The event of a core's started head. -/
def State.startedEvent (s : State) (lead : Nat) (e : FifoEntry) : Instr :=
  let next (c : Nat) : Option Instr := (s.pendingLines c).head?.map (fun r => .tfuFetch c (64 * r.2))
  ((next lead).or (if e.op.paired then next (lead + 1) else none)).getD (.mmaArrive lead)

/-- What the head of a core's FIFO does next. A paired operation starts only at the head of both FIFOs (R309), so one that
waits lets the other core's head go first. -/
def State.headEvent (s : State) (c : Nat) : Option Instr :=
  match (s.core c).fifo with
  | [] => none
  | e :: _ =>
    let lead := if e.follower then c - 1 else c
    let other := if e.follower then c - 1 else c + 1
    match e.op with
    | .mzero .. => some (.mzeroComplete c)
    | .mma .. =>
      if e.op.paired && ((s.core other).fifo.head?).map (·.id) != some e.id then
        match (s.core other).fifo with
        | [] => none
        | h :: _ =>
          match h.op with
          | .mzero .. => some (.mzeroComplete other)
          | .mma .. => if h.started then some (s.startedEvent other h) else if h.op.large (s.grid (s.team h.team).grid) && h.leave != 2 then
              (if h.leave = 0 then some (.leaveRequest h.id) else some (.leaveGrant (dieOf other))) else some (.mmaStart other)
      else if e.started then some (s.startedEvent lead e)
      else if e.op.large (s.grid (s.team e.team).grid) && e.leave != 2 then
        (if e.leave = 0 then some (.leaveRequest e.id) else some (.leaveGrant (dieOf lead)))
      else some (.mmaStart lead)

/-- The event of a core's head follows. -/
def State.wakeHead (s : State) (c : Nat) : State :=
  match s.headEvent c with
  | some i => s.due i
  | none => s

/-- The poster's earlier stores to global memory reach the slices, where the operands are read (R314). -/
def State.storesFirst (s : State) (c team : Nat) (op : FifoOp) : State :=
  match op with
  | .mma _ _ _ _ _ _ _ _ a b _ => if a.glob || b.glob then (s.l1Cores c (s.team team)).foldl (fun s k => s.writeBackAll k) s else s
  | .mzero .. => s

/-- Posts an operation: one entry, or one in each core of a pair in one step (R309, R312). -/
def State.post (s : State) (c team : Nat) (op : FifoOp) : State :=
  let s := s.storesFirst c team op
  let cores := if op.paired then [c, c + 1] else [c]
  let e : FifoEntry := { id := s.ids, team := team, op := op }
  let s := { s with ids := s.ids + 1 }
  let s := cores.foldl (fun s k => s.modCore k (fun x => { x with fifo := x.fifo ++ [{ e with follower := k != c }], accUsed := insertSorted team x.accUsed })) s
  cores.foldl (fun s k => if (s.core k).fifo.length = 1 then s.wakeHead k else s) s

/-- The cores among those an operation posts to whose FIFO is full. -/
def State.fullFifo (s : State) (pair : Bool) : Option Nat :=
  match s.curPass with
  | none => none
  | some (c, _, _) => (if pair then [c, c + 1] else [c]).find? (fun k => Config.fifoEntries ≤ (s.core k).fifo.length)

/-- Waits for the head of a core's FIFO. -/
def State.waitHead (s : State) (c : Nat) : Host.Outcome State Fault Refusal :=
  match s.headEvent c with
  | some i => s.waitFor i
  | none => .next s.stall

/-- Whether some lane that does not speculate executes an instruction: only then is it posted. -/
def State.anyPoster (s : State) (g : Guard) : Bool :=
  match s.curPass with
  | none => false
  | some (c, _, x) => (s.executing c x g).any (fun k => !(s.thr c k).spec)

/-- A posting instruction: the lowest executing lane checks, and its post needs room. -/
def postInstr (s : State) (f : Fields) (pair : Bool) (chk : State → Lane → Except LaneFail FifoOp) : Host.Outcome State Fault Refusal :=
  let go (s : State) : Host.Outcome State Fault Refusal :=
    s.execFirst f.guard f.readsChannel (fun s l => do
      let op ← chk s l
      .ok ((s.latch l f).post l.core (l.gang s).team op))
  if !s.anyPoster f.guard then go s
  else
    match s.fullFifo pair with
    | none => go s
    | some c => s.waitHead c

def execMma (f : Fields) (e : MmaExt) (s : State) : Host.Outcome State Fault Refusal := postInstr s f e.pair (mmaChecks f e)

/-- The accumulator fault (R317, R318, R320). -/
def accFault (o : Operand) (place : Nat) (a : Int) : LaneFail :=
  .fault ⟨0x14, (opInfo 0x14 o.toSpec.toNat place).finfo, BitVec.ofInt 64 a⟩

def mzeroChecks (f : Fields) (s : State) (l : Lane) : Except LaneFail FifoOp := do
  l.check s [(pSA, .src false, f.sa), (pSB, .src false, f.sb)]
  let a ← l.readWord s pSA f.sa
  let c ← l.readWord s pSB f.sb
  if c == 0 then .error (accFault f.sb pSB a.toNat)
  else if Config.nAcc < a.toNat + c.toNat then .error (accFault f.sa pSA a.toNat)
  else .ok (.mzero a.toNat c.toNat)

def execMzero (f : Fields) (s : State) : Host.Outcome State Fault Refusal := postInstr s f false (mzeroChecks f)

/-! ## Accumulators (R306, R318, R319) -/

/-- An accumulator's pattern and poison; an uncorrectable error poisons it when it is read. -/
def Core.accAt (k : Core) (n : Nat) : Word × Bool := (Tbl.at k.acc n 0, Tbl.at k.accPoison n false || k.accBad.contains n)

/-- Writes an accumulator. -/
def Core.putAcc (k : Core) (n : Nat) (w : Word) (bad : Bool) : Core :=
  { k with
    acc := if w == 0 then Tbl.drop k.acc n else Tbl.put k.acc n w
    accPoison := if bad then Tbl.put k.accPoison n true else Tbl.drop k.accPoison n
    accBad := k.accBad.filter (· != n) }

/-- The core of the pass whose FIFO still holds entries: those reached the core earlier (R319). -/
def State.busyFifo (s : State) : Option Nat :=
  match s.curPass with
  | none => none
  | some (c, _, _) => if (s.core c).fifo.isEmpty then none else some c

/-- Waits until the entries posted before have taken effect. -/
def afterFifo (s : State) (go : State → Host.Outcome State Fault Refusal) : Host.Outcome State Fault Refusal :=
  match s.busyFifo with
  | none => go s
  | some c => s.waitHead c

/-- Accumulators an instruction moves. -/
def macCount (f : Fields) : Nat := 2 ^ (f.md.toNat / 2)

/-- The index of `maccrd` and `maccwr`, with its check. -/
def macIndex (f : Fields) (s : State) (l : Lane) : Except LaneFail Nat := do
  let w ← l.readWord s pSA f.sa
  let a : Int := (w.toNat : Int) + (f.imm.getD 0).toInt
  let c := macCount f
  if a < 0 || (Config.nAcc : Int) < a + c || a % c != 0 then .error (accFault f.sa pSA a) else .ok a.toNat

def maccrdAct (f : Fields) (s : State) (l : Lane) : Except LaneFail State := do
  l.check s [(pSA, .src false, f.sa), (pDST, .loadGroup (macCount f), f.dst)]
  let flag ← l.needFlag (f.md.getLsbD 0)
  let a ← macIndex f s l
  let k := s.core l.core
  let ws := (List.range (macCount f)).map (fun e => k.accAt (a + e))
  let k := (List.range (macCount f)).foldl (fun (k : Core) e =>
    if k.accBad.contains (a + e) then k.putAcc (a + e) (k.accAt (a + e)).1 true else k) { k with accUsed := insertSorted (l.gang s).team k.accUsed }
  .ok (((s.latch l f).setCore l.core k).issue l.core l.slot flag (groupWords f.dst ws) none)

def execMaccrd (f : Fields) (s : State) : Host.Outcome State Fault Refusal :=
  afterFifo s (fun s => longOp s f (f.md.getLsbD 0) (fun s l => seqAct s (maccrdAct f s l)))

def maccwrAct (f : Fields) (s : State) (l : Lane) : Except LaneFail State := do
  l.check s [(pSA, .src false, f.sa), (pSB, .loadGroup (macCount f), f.sb)]
  if f.sb == .none then .error (.fault (opInfo 2 f.sb.toSpec.toNat pSB))
  else
    l.stopIfSpec s
    let a ← macIndex f s l
    let ws ← l.readGroup s pSB f.sb 0 (macCount f)
    let k := ((List.range ws.length).zip ws).foldl (fun (k : Core) p => k.putAcc (a + p.1) p.2 false) { s.core l.core with accUsed := insertSorted (l.gang s).team (s.core l.core).accUsed }
    .ok ((s.latch l f).setCore l.core k)

def execMaccwr (f : Fields) (s : State) : Host.Outcome State Fault Refusal :=
  afterFifo s (fun s => s.execSeq f.guard f.readsChannel (fun s l => seqAct s (maccwrAct f s l)))

/-! ## Elements (R41, R42, R45, R308) -/

/-- The format of a plain floating slot. -/
def FmtSlot.fmt (z : FmtSlot) : Fmt := if z.ftype == 0 then .f32 else if z.ftype == 1 then .f16 else .bf16

/-- A small integer as a value. -/
def FVal.ofInt (i : Int) : FVal := if i = 0 then .zero false else .fin (decide (i < 0)) i.natAbs 0

/-- The values of a row: its element bytes, and the scale pairs of its blocks. -/
def decodeRow (z : FmtSlot) (ktot : Nat) (data scales : List Byte) : List FVal :=
  (List.range ktot).map (fun k =>
    let w := z.ebits
    let at' := k * w / 8
    let code := if w = 4 then leNat (data.drop at' |>.take 1) / 2 ^ (4 * (k % 2)) % 16 else leNat (data.drop at' |>.take (w / 8))
    if z.isBx then
      let b := k / z.blk
      bxVal z (leNat (scales.drop (2 * b + 1) |>.take 1)) (leNat (scales.drop (2 * b) |>.take 1)) code
    else if z.isIntF then .ofInt (sx code w)
    else z.fmt.unpack code)

/-! ## One step (R47, R49) -/

/-- A factor as an exact value: SCALE_A·SCALE_B and 1/n under `.h`. -/
def stepFactor (za zb : FmtSlot) (had : Bool) : Dy :=
  let p := za.scaleDy.mul zb.scaleDy
  if had then ⟨p.m, p.e - Nat.log2 za.blk⟩ else p

/-- A product with the factor in it. -/
def FVal.scaled (v : FVal) (f : Dy) : FVal :=
  let flip := decide (f.m < 0)
  match v with
  | .nan s => .nan s
  | .inf n => .inf (n != flip)
  | .zero n => .zero (n != flip)
  | .fin n m e => .fin (n != flip) (m * f.m.natAbs) (e + f.e)

/-- C after one step over the element pairs of the step. The products are taken without the scales, which multiply only their
sum; P is −0 when every product is, whatever the sign of the scales (DEDUCED, log entry 88). -/
def macStep (factor : Dy) (c : Nat) (xs ys : List FVal) : Nat :=
  let z := Fmt.f32.unpack c
  let ps := (xs.zip ys).map (fun p => p.1.times p.2)
  let vs := ps.filterMap id
  if z.isNan || xs.any (·.isNan) || ys.any (·.isNan) then Fmt.f32.nanPat
  else if ps.any (·.isNone) then Fmt.f32.nanPat
  else if vs.contains (.inf true) && vs.contains (.inf false) then Fmt.f32.nanPat
  else
    match z, vs.find? (·.isInf) with
    | .inf n, some v => if v.neg == n then c else Fmt.f32.nanPat
    | .inf _, none => c
    | _, some v => Fmt.f32.infPat v.neg
    | _, none =>
      let minus := z == .zero true && !vs.isEmpty && vs.all (fun v => v == .zero true)
      (rndDy .f32 0 minus (Dy.sum (z.dy :: vs.map (fun v => (v.scaled factor).dy)))).1

/-- The steps of one accumulator in ascending k. -/
def macSteps (factor : Dy) (k : Nat) : Nat → Nat → List FVal → List FVal → Nat
  | 0, c, _, _ => c
  | n + 1, c, xs, ys => macSteps factor k n (macStep factor c (xs.take k) (ys.take k)) (xs.drop k) (ys.drop k)

/-! ## Operand reads (R314, R316) -/

/-- Status bits of R321. -/
def stSTG2 : Nat := 1
def stXLATE : Nat := 2
def stPERM : Nat := 3
def stDATA : Nat := 4
def stAPAR : Nat := 5
def stACCUE : Nat := 6
def stRESID : Nat := 7
def stPIN : Nat := 8

def FifoEntry.mark (e : FifoEntry) (b : Nat) : FifoEntry := { e with status := e.status ||| onesAt 16 b 1 }
def FifoEntry.has (e : FifoEntry) (b : Nat) : Bool := e.status.getLsbD b
/-- A TFU fetch of the operation has faulted. -/
def FifoEntry.fetchFault (e : FifoEntry) : Bool := e.has stXLATE || e.has stPERM

/-- Notes a TFU fault: its status bits, and the first one's address. -/
def FifoEntry.noteFault (e : FifoEntry) (code : Nat) (stage2 : Bool) (a : Nat) : FifoEntry :=
  if e.fetchFault then e
  else
    let e := e.mark (if code == 8 then stXLATE else stPERM)
    let e := if stage2 then e.mark stSTG2 else e
    { e with cfaddr := BitVec.ofNat 64 a, ready := e.op.steps }

/-- A byte of an operand as memory holds it now, with whether it is uncorrectable, or a TFU fault. -/
def State.operandByte (s : State) (e : FifoEntry) (glob : Bool) (a : Int) : Except (Nat × Bool × Nat) (Byte × Bool) :=
  if !glob then .ok ((s.team e.team).spadByte a.toNat, false)
  else
    let ctx := s.teamCtx (s.team e.team)
    match s.walk ctx e.op.need (wrap a 64) with
    | .error r => .error (r.1, r.2, wrap a 64)
    | .ok m =>
      let s := s.refetch ctx (m.pa / 64) (s.sharedAt m.perm2 m.key m.pa)
      .ok (s.physByte m.key m.pa, s.l2Bad ctx (4 * (m.pa / 4)) 4)

/-- A word of an operand that was read ahead of the arrival (R314). -/
def FifoEntry.readEarly (e : FifoEntry) (glob : Bool) (word : Nat) : Option (List (Byte × Bool)) :=
  (e.early.find? (fun w => w.1 == (glob, word))).map (·.2)

/-- Reads n bytes of an operand from an exact address. -/
def State.operandBytes (s : State) (e : FifoEntry) (glob : Bool) : Int → Nat → Except (Nat × Bool × Nat) Loaded
  | _, 0 => .ok []
  | a, n + 1 => do
    let b ← match e.readEarly glob (wrap a 64 / 4) with
      | some w => .ok (w.getD (wrap a 64 % 4) (0, false))
      | none => s.operandByte e glob a
    let r ← s.operandBytes e glob (a + 1) n
    .ok (b :: r)

/-- One row of an operand: its values, and whether its data are uncorrectable. -/
def State.operandRow (s : State) (e : FifoEntry) (o : MmaOperand) (z : FmtSlot) (ktot i : Nat) :
    Except (Nat × Bool × Nat) (List FVal × Bool) := do
  let d ← s.operandBytes e o.glob ((o.base.toNat : Int) + ((i * o.pitch : Nat) : Int)) (rowBytes z ktot)
  let nb := ktot / z.blk
  let c ← if z.isBx then s.operandBytes e o.glob ((o.base.toNat : Int) + o.soff + ((2 * i * nb : Nat) : Int)) (2 * nb) else .ok []
  .ok (decodeRow z ktot (d.map (·.1)) (c.map (·.1)), d.any (·.2) || c.any (·.2))

def State.operandRows (s : State) (e : FifoEntry) (o : MmaOperand) (z : FmtSlot) (ktot rows : Nat) :
    Except (Nat × Bool × Nat) (List (List FVal × Bool)) :=
  (List.range rows).mapM (s.operandRow e o z ktot)

/-! ## The computation (R313, R315) -/

/-- The result of an operation for one accumulator, with its poison; the status bits of its read: PIN for one that was poisoned,
ACCUE for an uncorrectable one. An accumulator that an error of this operation poisons has an open value (log entry 6). -/
def cellResult (old : Word) (poisoned bad acc spoiled : Bool) (free : Word) (steps : Nat → Nat) : Word × Bool × List Nat :=
  let c := if acc then old.toNat else 0
  let st := (if acc && poisoned then [stPIN] else []) ++ (if acc && bad then [stACCUE] else [])
  (if spoiled then free else BitVec.ofNat 32 (steps c), (acc && (poisoned || bad)) || spoiled, st)

/-- Rows of one core of an operation: the core with its accumulators written, and the status bits collected. `cell` gives the
steps of an accumulator, `spoil` says which ones an error poisons. -/
def computeRows (k : Core) (free : Nat) (cbase n first rows : Nat) (acc : Bool) (cell : Nat → Nat → Nat → Nat)
    (spoil : Nat → Nat → Bool) : Core × List Nat :=
  (List.range rows).foldl (fun a r => (List.range n).foldl (fun (a : Core × List Nat) j =>
    let idx := cbase + r * n + j
    let i := first + r
    let res := cellResult (Tbl.at a.1.acc idx 0) (Tbl.at a.1.accPoison idx false) (a.1.accBad.contains idx) acc (spoil i j) (Config.freeWord (free + i * n + j)) (cell i j)
    (a.1.putAcc idx res.1 res.2.1, a.2 ++ res.2.2)) a) (k, [])

/-- Whether a word lies in one of some intervals. -/
def wordIn (w : Nat) (spans : List (Int × Nat)) : Bool :=
  spans.any (fun p => decide (wrap p.1 64 < 4 * w + 4 ∧ 4 * w < wrap p.1 64 + p.2))

/-- Whether a word of the operands that was read before the arrival is uncorrectable: it sets DATA also where a later fetch faults
(R315). -/
def FifoEntry.earlyBad (e : FifoEntry) (sa sb : List (Int × Nat)) (ga gb : Bool) : Bool :=
  e.early.any (fun w => w.2.any (·.2) && ((w.1.1 == ga && wordIn w.1.2 sa) || (w.1.1 == gb && wordIn w.1.2 sb)))

/-- Performs an operation of a leader's or a single core's head: the state with the accumulators written on every core, and
the entry with its status. -/
def State.compute (s : State) (c : Nat) (e : FifoEntry) : State × FifoEntry :=
  match e.op with
  | .mzero .. => (s, e)
  | .mma m n ks cbase acc had pair _ a b _ =>
    let g := s.grid (s.team e.team).grid
    let za := g.slotOf a.slot
    let zb := g.slotOf b.slot
    let k := stepK za zb
    let ktot := k * ks
    let read : Except (Nat × Bool × Nat) (List (List FVal × Bool) × List (List FVal × Bool)) := do
      let x ← s.operandRows e a za ktot m
      let y ← s.operandRows e b zb ktot n
      .ok (x, y)
    let e := if e.earlyBad (a.spans za m ktot) (b.spans zb n ktot) a.glob b.glob then e.mark stDATA else e
    let e := match read with
      | .error r => e.noteFault r.1 r.2.1 r.2.2
      | .ok p => if !e.fetchFault && (p.1.any (·.2) || p.2.any (·.2)) then e.mark stDATA else e
    let p := match read with
      | .ok p => p
      | .error _ => ([], [])
    let row (xs : List (List FVal × Bool)) (i : Nat) : List FVal × Bool := xs.getD i ([], false)
    let cell (i j x : Nat) : Nat := macSteps (stepFactor za zb had) k ks x (row p.1 i).1 (row p.2 j).1
    let spoil (i j : Nat) : Bool := e.fetchFault || (row p.1 i).2 || (row p.2 j).2 || e.spoiled.contains (i * n + j)
    let own := if pair then m / 2 else m
    let r1 := computeRows (s.core c) s.free cbase n 0 own acc cell spoil
    let s := { s.setCore c r1.1 with free := s.free + m * n }
    let r2 := if pair then computeRows (s.core (c + 1)) (s.free - m * n) cbase n own own acc cell spoil else (s.core (c + 1), [])
    let s := if pair then s.setCore (c + 1) r2.1 else s
    (s, (r1.2 ++ r2.2).foldl FifoEntry.mark e)

/-! ## Barrier objects (R321 to R324) -/

/-- A field of a barrier object. -/
def Team.objField (t : Team) (off i n : Nat) : Nat := leNat ((List.range n).map (fun j => t.spadByte (off + i + j)))

/-- The arrival of R322 at the object at an offset. -/
def Team.arrive (t : Team) (off : Nat) (status : BitVec 16) (fault : Option DWord) : Team :=
  let st := t.objField off 0 4
  let cur := (BitVec.ofNat 16 (st / 2 ^ 16)) ||| status
  let arr := (t.objField off 8 2 + 1) % 2 ^ 16
  let cf := if t.objField off 16 8 = 0 then (fault.map (·.toNat)).getD 0 else t.objField off 16 8
  if t.objField off 10 2 ≤ t.objField off 8 2 + 1 then
    (((t.setSpad off (leBytes 4 cur.toNat)).setSpad (off + 4) (leBytes 4 ((t.objField off 4 4 + 1) % 2 ^ 32))).setSpad (off + 8)
      (leBytes 2 0)).setSpad (off + 16) (leBytes 8 0 ++ leBytes 8 cf)
  else
    ((t.setSpad off (leBytes 4 (st % 2 ^ 16 + cur.toNat * 2 ^ 16))).setSpad (off + 8) (leBytes 2 arr)).setSpad (off + 16) (leBytes 8 cf)

/-- `bobj`: the lowest executing lane initialises an object. -/
def execBobj (f : Fields) (s : State) : Host.Outcome State Fault Refusal :=
  s.execFirst f.guard f.readsChannel (fun s l => do
    let count := (f.imm.getD 0).toNat
    l.check s [(pSA, .src false, f.sa)]
    if count = 0 || 65535 < count then .error (.fault illegalEncoding)
    else
      let off ← l.readWord s pSA f.sa
      checkObject (l.grid s).scrsize off.toNat
      .ok ((s.latch l f).modTeam (l.gang s).team (fun t =>
        (t.setSpad off.toNat (leBytes 4 0 ++ leBytes 4 0 ++ leBytes 2 0 ++ leBytes 2 count)).setSpad (off.toNat + 16)
          (leBytes 8 0 ++ leBytes 8 0))))

def bstatAct (f : Fields) (s : State) (l : Lane) : Except LaneFail State := do
  l.check s [(pSA, .src false, f.sa), (pDST, .load true, f.dst)]
  let flag ← l.needFlag (f.md.getLsbD 0)
  let off ← l.readWord s pSA f.sa
  checkObject (l.grid s).scrsize off.toNat
  let at' := off.toNat + (if f.minor == 1 then 24 else 0)
  let bs := (s.overlay l .spad at' ((List.range 8).map (fun i => ((l.team s).spadByte (at' + i), false)))).map (·.1)
  let x := leNat bs
  .ok ((s.latch l f).issue l.core l.slot flag
    (groupWords f.dst [(BitVec.ofNat 32 x, false), (BitVec.ofNat 32 (x / 2 ^ 32), false)]) none)

def execBstat (f : Fields) (s : State) : Host.Outcome State Fault Refusal :=
  longOp s f (f.md.getLsbD 0) (fun s l => seqAct s (bstatAct f s l))

/-! ## Events of the FIFO -/

/-- Asks for leave: a copy that has left Checking, or an operation at the head of its FIFO (R325). -/
def execLeaveRequest (id : Nat) (s : State) : Host.Outcome State Fault Refusal :=
  match s.copy id with
  | some x =>
    if x.st != .leave then .next s
    else
      let t := s.team x.team
      .next (s.askLeave { id := id, isCopy := true, core := t.core, cost := 1, ctx := s.teamCtx t, since := s.time })
  | none =>
    match s.cores.find? (fun e => (e.2.fifo.head?).any (fun h => h.id == id && !h.follower)) with
    | none => .next s
    | some (c, k) =>
      match k.fifo with
      | [] => .next s
      | h :: r =>
        let t := s.team h.team
        let both := !h.op.paired || ((s.core (c + 1)).fifo.head?).map (·.id) == some id
        if h.leave != 0 || h.started || !both || !h.op.large (s.grid t.grid) then .next s
        else
          let s := s.setCore c { k with fifo := { h with leave := 1 } :: r }
          .next (s.askLeave { id := id, isCopy := false, core := c, cost := if h.op.paired then 2 else 1
                              ctx := s.teamCtx t, since := s.time })

/-- Marks an operation of a core's head. -/
def State.modHead (s : State) (c : Nat) (h : FifoEntry → FifoEntry) : State :=
  s.modCore c (fun k => { k with fifo := match k.fifo with
    | [] => []
    | e :: r => h e :: r })

/-- The operation at the head begins, on both cores when it is paired. -/
def execMmaStart (core : Nat) (s : State) : Host.Outcome State Fault Refusal :=
  if s.headEvent core != some (.mmaStart core) then .next s
  else
    match (s.core core).fifo with
    | [] => .next s
    | e :: _ =>
      let go (s : State) (c : Nat) : State :=
        (s.modHead c (fun h => { h with started := true, ready := h.readySteps (s.grid (s.team e.team).grid) })).modCore c
          (fun k => { k with arrayAt := 0 })
      let s := go s core
      .next ((if e.op.paired then go s (core + 1) else s).wakeHead core)

/-- Releases pins on lines of the L2. -/
def State.unpin (s : State) (pins : List (Nat × Nat)) : State :=
  pins.foldl (fun s p => { s with l2 := Tbl.adjust s.l2 p.2 (fun l => { l with pins := l.pins - 1 }) }) s

/-- The head of a core has fetched its next line; with the last line of a step, the step completes, and the lines that no later
step reads are released. -/
def State.nextLine (s : State) (c : Nat) : State :=
  match (s.core c).fifo, s.pendingLines c with
  | e :: _, r :: rest =>
    let stepOver := rest.head?.all (fun q => q.1 != r.1)
    let gone := if stepOver then e.pins.filter (fun p => !rest.any (fun q => q.2 == p.1)) else []
    (s.unpin gone).modHead c (fun h => { h with
      fetched := h.fetched + 1, pins := h.pins.filter (fun p => !gone.contains p), ready := (rest.head?.map (·.1)).getD h.op.steps })
  | _, _ => s

/-- A fetch of a line has been made: the steps go on when it was the next one. -/
def State.lineDone (s : State) (c va : Nat) : State :=
  if (s.pendingLines c).head?.any (fun r => r.2 == va / 64) then s.nextLine c else s

/-- The head of a core pins a line. -/
def State.pinLine (s : State) (c va line : Nat) : State :=
  { s with l2 := Tbl.adjust s.l2 line (fun l => { l with pins := l.pins + 1 }) }.modHead c (fun h =>
    { h with pins := h.pins ++ [(va / 64, line)] })

/-- Keeps the words of an operand's line as read now in the leader's entry of an operation. -/
def State.keepWords (s : State) (lead : Nat) (e : FifoEntry) (va : Nat) : State :=
  let ws := (List.range 16).filterMap (fun i =>
    let w := 16 * (va / 64) + i
    match (List.range 4).mapM (fun j => s.operandByte e true ((4 * w + j : Nat) : Int)) with
    | .ok bs => if (e.readEarly true w).isSome then none else some ((true, w), bs)
    | .error _ => none)
  s.modHead lead (fun h => { h with early := h.early ++ ws })

/-- The event by which a core that has pinned lines comes to release one. -/
def State.holderEvent (s : State) (h : Nat) : Instr :=
  match (s.pendingLines h).head? with
  | some r => .tfuFetch h (64 * r.2)
  | none => .mmaArrive (if ((s.core h).fifo.head?).any (·.follower) then h - 1 else h)

/-- A fetch that finds its set full waits until a pin there is released, which the core at the end of the chain of waits brings about.
Where the chain closes, so that the wait would be for ever, the core gives up its own earliest pin in that set, or else its earliest (DESIGN CHOICE, log
entry 45). -/
def State.fetchWait (s : State) (c line : Nat) (pins : List (Nat × Nat)) : State :=
  match s.pinHolder c line with
  | some h => s.dueNow (s.holderEvent h)
  | none =>
    match (pins.find? (fun p => l2Place (64 * p.2) == l2Place (64 * line))).or pins.head? with
    | some p => (s.unpin [p]).modHead c (fun h => { h with pins := h.pins.erase p })
    | none =>
      match (s.holders c line).head? with
      | some h => s.dueNow (s.holderEvent h)
      | none => s

/-- A fetch of an operand line by the head of a core, translated. A line of system memory, one that its slice cannot keep, and one that
stands hidden in a sealed partition's way (R359) are read without a pin; of a bad line the words read stay with the operation, and
the line does not stay in its slice (R248). -/
def State.fetchLine (s : State) (c lead ctx va : Nat) (m : Mapping) (e : FifoEntry) : State :=
  let line := m.pa / 64
  if isSystem m.pa || e.pins.contains (va / 64, line) || s.l2Hidden ctx line then s.lineDone c va
  else if s.setPinned line then s.fetchWait c line e.pins
  else
    let s := (s.l2Touch c ctx m.key line).refetch ctx line (s.sharedAt m.perm2 m.key m.pa)
    if s.l2Bad ctx (64 * line) 64 then ((s.keepWords lead ((s.core lead).fifo.headD e) va).settleLine ctx line).lineDone c va
    else (if (Tbl.look s.l2 line).isNone then s else s.pinLine c va line).lineDone c va

/-- The tile fetch unit of a core fetches an operand line that its started head has still to read. A fault of the fetch ends all
fetches of the operation, on both cores of a pair (R315). -/
def execTfuFetch (core va : Nat) (s : State) : Host.Outcome State Fault Refusal :=
  match (s.core core).fifo with
  | [] => .next s
  | e :: _ =>
    let ctx := s.teamCtx (s.team e.team)
    let lead := if e.follower then core - 1 else core
    if !(s.pendingLines core).any (fun r => r.2 == va / 64) then .next s
    else
      match s.walk ctx e.op.need va with
      | .error r =>
        let s := (s.walkMet ctx (r != (9, false)) va).modHead core (fun h => h.noteFault r.1 r.2 va)
        .next ((if e.op.paired then s.modHead (if core == lead then core + 1 else lead) (fun h => h.noteFault r.1 r.2 va) else s).wakeHead lead)
      | .ok m => .next (((s.walkMet ctx true va).fetchLine core lead ctx va m e).wakeHead lead)

/-- A word of an operand is read ahead of its operation's arrival (R314); a fault of the read is left to the fetch that meets it, and
a bad line is not kept (R248). -/
def State.readAhead (s : State) (core id : Nat) (glob : Bool) (addr : Nat) : State :=
  let core := if (s.core core).fifo.any (fun e => e.id == id && e.follower) then core - 1 else core
  match (s.core core).fifo.find? (fun e => e.id == id) with
  | none => s
  | some e =>
    let w := addr / 4
    if (e.readEarly glob w).isSome then s
    else
      match (List.range 4).mapM (fun i => s.operandByte e glob ((4 * w + i : Nat) : Int)) with
      | .error _ => s
      | .ok bs =>
        (if glob then s.unitMet (s.teamCtx (s.team e.team)) e.op.need (4 * w) 4 else s).modCore core (fun k => { k with
          fifo := k.fifo.map (fun x => if x.id == id then { x with early := x.early ++ [((glob, w), bs)] } else x) })

/-- What the operand reads of an operation that arrives leave of the bad lines they meet (R248). -/
def State.operandsMet (s : State) (e : FifoEntry) : State :=
  if !s.anyBad || e.fetchFault then s
  else
    let g := s.grid (s.team e.team).grid
    let rs := e.requests g ++ (if e.op.paired then FifoEntry.requests { e with follower := true } g else [])
    rs.foldl (fun s r => s.unitMet (s.teamCtx (s.team e.team)) e.op.need (64 * r.2) 64) s

/-- Takes the head off a core's FIFO and releases its pins. -/
def State.popHead (s : State) (c : Nat) : State :=
  match (s.core c).fifo with
  | [] => s
  | e :: r =>
    (s.modCore c (fun k => { k with fifo := r })).unpin e.pins

/-- The end of an operation may be the end of its team (R330). -/
def State.afterOp (s : State) (team : Nat) : State := if (s.teamThreads team).isEmpty then s.due (.teamEnd team) else s

/-- A started operation has written its accumulators: its pins and permit go, it arrives, and the next head follows. -/
def execMmaArrive (core : Nat) (s : State) : Host.Outcome State Fault Refusal :=
  match (s.core core).fifo with
  | [] => .next s
  | e :: _ =>
    if !e.started || e.follower || s.startedEvent core e != .mmaArrive core then .next s
    else
      match e.op with
      | .mzero .. => .next s
      | .mma _ _ _ _ _ _ pair _ _ _ off =>
        let r := s.compute core e
        let s := (r.1.operandsMet e).popHead core
        let s := if pair then s.popHead (core + 1) else s
        let s := s.releaseLeave (dieOf core) e.id
        let e := r.2
        let status := if e.status >>> 2 == 0 then e.status else e.status ||| 1
        let s := s.modTeam e.team (fun t => t.arrive off status (if e.fetchFault then some e.cfaddr else none))
        let s := s.wakeHead core
        .next ((if pair then s.wakeHead (core + 1) else s).afterOp e.team)

/-- An `mzero` at the head writes its accumulators. -/
def execMzeroComplete (core : Nat) (s : State) : Host.Outcome State Fault Refusal :=
  match (s.core core).fifo with
  | [] => .next s
  | e :: _ =>
    match e.op with
    | .mma .. => .next s
    | .mzero first count =>
      let s := s.modCore core (fun k => (List.range count).foldl (fun (k : Core) i => k.putAcc (first + i) 0 false) k)
      .next (((s.popHead core).wakeHead core).afterOp e.team)

end Sys2Proof.Machine
end

