-- ==== Sys2Proof/Machine/FrontEnd.lean ====
section
/-!
DEFINITION. The front end: queues and packets (R202 to R207), launch records and their checks (R87, R208 to R213, R337), the
placing of teams (R161, R162, R203, R210, R214, R244, R245, R255, R358, R409), the ends of teams and grids (R216, R305, R330).
-/
namespace Sys2Proof.Machine

/-! ## The store of a core (R213, R242) -/

/-- Bytes of a core's store for footprints: CAP_STORE less the bin and the least L1 portion. -/
def State.budget (s : State) (c : Nat) : Nat := 32768 * (s.core c).banks.length - 32768 - 131072

/-- The free gang slots of a core, ascending. -/
def State.freeSlots (s : State) (c : Nat) : List Nat := (List.range 64).filter (fun g => (Tbl.look s.gangs (gangKey c g)).isNone)

/-- Physical core of a logical one (R211). -/
def State.physCore (s : State) (part lcore : Nat) : Option Nat :=
  let p := Tbl.at s.parts part {}
  let e := Tbl.at p.rmt lcore 0
  if lcore < p.ncores && e.getLsbD 15 then some (bitsOf e.toNat 7 0) else none

/-- The logical core of a partition on which a logical core of a context runs (R350). -/
def State.foldCore (s : State) (part lcore : Nat) : Nat := lcore % (Tbl.at s.parts part {}).ncores

/-- Cores a team of a grid would take from a home core on. -/
def Grid.coresAt (g : Grid) (c : Nat) : List Nat := if g.paired then [c, c + 1] else [c]

/-- Whether `n` teams of a grid fit on cores now. A core runs one context at a time, and the teams of one saved logical core:
`home` is the one these teams belong to (R350). -/
def State.fits (s : State) (g : Grid) (c home n : Nat) : Bool :=
  (g.coresAt c).all (fun k =>
    s.footprints k + n * g.share (k == c) ≤ s.budget k
    && n * (if k == c then g.lead else g.gangs - g.lead) ≤ (s.freeSlots k).length
    && !(s.core k).halted
    && (s.teamsOn k).all (fun e => s.teamCtx e.2 == g.ctx && e.2.home + (k - e.2.core) == home + (k - c)))

/-! ## Taking a core (R244, R245, R255, R358) -/

/-- The scrub of R358: the L1 is written back and invalidated, and the accumulators are cleared. Windows and scratchpads of a
team start at zero in this model, as a scrubbed store gives them. -/
def State.scrub (s : State) (c : Nat) : State :=
  (s.flushL1 c true).modCore c (fun k => { k with acc := [], accPoison := [], accBad := [], accUsed := [] })

/-- A core takes a team of a context: every L1 portion that serves it is written back and dropped, constant lines with it (R255),
so that the new team's first accesses meet what was performed before (R126, R206, R219, R266); and the context switch when
the context changes. The watchdog count starts from what a save of the context left (R344). -/
def State.takeCore (s : State) (c ctx : Nat) : State :=
  let k := s.core c
  let s := s.flushPortions c true
  if k.ctx == some ctx then s
  else
    let s := match k.ctx with
      | some old => s.modCtx old (fun x => { x with beats := x.beats + k.beatAcc })
      | none => s
    (s.scrub c).modCore c (fun k => { k with ctx := some ctx, beatAcc := 0, wd := (s.ctx ctx).savedWd, monitor := {} })

/-- A cluster's L1 portions fuse or split by the launches of its resident teams. -/
def State.refuse (s : State) (cluster : Nat) : State :=
  let cores := (List.range 8).map (8 * cluster + ·)
  let here := s.teams.filter (fun e => (s.teamCores e.2).any (fun c => clusterOf c == cluster))
  let want := !here.isEmpty && here.all (fun e => (s.grid e.2.grid).l1fuse)
  if want == s.fused.contains cluster then s
  else
    let s := cores.foldl (fun s c => s.flushL1 c true) s
    { s with fused := if want then insertSorted cluster s.fused else s.fused.filter (· != cluster) }

/-! ## Seating teams (R162, R214) -/

/-- A gang at its start (R409). -/
def Gang.start (x : Ctx) (team num : Nat) : Gang :=
  let ns := List.range 16
  { team := team, num := num
    mj := ns.foldl (fun m n => if (Mset.gmask (x.msetOf n)).getLsbD num then m ||| onesAt 16 n 1 else m) 0
    gseq := ns.foldl (fun t n => Tbl.put t n (Mset.seq (x.msetOf n))) [] }

/-- The lowest free gang slot of a core takes a gang; the slot is answered. -/
def State.seatGang (s : State) (c : Nat) (g : Gang) : State × Nat :=
  match s.freeSlots c with
  | [] => (s, 0)
  | gs :: _ => (s.setGang c gs g, gs)

/-- A team's gangs take slots in ascending gang order: their numbers, cores and slots. -/
def State.seatGangs (s : State) (g : Grid) (core : Nat) (gangs : List Gang) : State × List (Nat × Nat × Nat) :=
  gangs.foldl (fun (a : State × List (Nat × Nat × Nat)) x =>
    let c := if x.num < g.lead then core else core + 1
    let r := a.1.seatGang c x
    (r.1, a.2 ++ [(x.num, c, r.2)])) (s, [])

/-- Takes a team's cores, and settles the clusters' L1 mode once the team is there; its cores' L1 portions give up the store it
takes (R244). -/
def State.seatTeam (s : State) (id : Nat) (t : Team) : State :=
  let g := s.grid t.grid
  let cores := g.coresAt t.core
  let s := cores.foldl (fun s c => s.takeCore c g.ctx) s
  let s := (s.setTeam id t).refuse (clusterOf t.core)
  (cores.foldl (fun s c => s.l1Reclaim c) s).refreshHeld g.ctx

/-- The live threads of a new team: a due record each, at the launch's entry (R210, R214). -/
def State.startThreads (s : State) (g : Grid) (seats : List (Nat × Nat × Nat)) : State :=
  let live := g.tx * g.ty * g.tz
  let pos := entryPos (g.code + g.entry.setWidth 64)
  seats.foldl (fun s e => (List.range 32).foldl (fun s i =>
    if 32 * e.1 + i < live then
      let k := 32 * e.2.2 + i
      (s.setThr e.2.1 k { pos := pos }).toBin e.2.1 k
    else s) s) s

/-- Gangs none of whose lanes is live free their slots at once. -/
def State.freeEmptyGangs (s : State) (team : Nat) : State :=
  { s with gangs := s.gangs.filter (fun e => e.2.team != team || ((List.range 32).any (fun i => (Tbl.look s.threads (32 * e.1 + i)).isSome))) }

/-- Places one team of a grid on a core. -/
def State.placeTeam (s : State) (grid num home core : Nat) : State :=
  let g := s.grid grid
  let id := s.ids
  let s := { s with ids := s.ids + 1 }
  let s := s.modGrid grid (fun g => { g with unplaced := g.unplaced.filter (· != num), live := g.live ++ [id] })
  let s := s.seatTeam id { grid := grid, num := num, lcore := s.foldCore (s.ctx g.ctx).part home, core := core, home := home
                           footprint := g.footprint }
  let r := s.seatGangs g core ((List.range g.gangs).map (fun n => Gang.start (s.ctx g.ctx) id n))
  let s := (r.1.startThreads g r.2).freeEmptyGangs id
  let s := (g.coresAt core).foldl (fun s c => s.tidy c) s
  if (s.teamThreads id).isEmpty then s.due (.teamEnd id) else s

/-! ## Which team is placed next (R203) -/

/-- Whether a context's teams may be placed. -/
def Ctx.places (x : Ctx) : Bool := x.run == .running

/-- Home core of an unplaced team. -/
def State.homeOf (s : State) (g : Grid) (num : Nat) : Option Nat :=
  s.physCore (s.ctx g.ctx).part (s.foldCore (s.ctx g.ctx).part (g.place.getD num 0))

/-- A cooperative launch runs only where the partition has every logical core of its placement map (R350). -/
def State.coopFits (s : State) (g : Grid) : Bool := !g.coop || g.place.all (· < (Tbl.at s.parts (s.ctx g.ctx).part {}).ncores)

/-- A team of a grid waits for one of some cores. -/
def State.waitsFor (s : State) (g : Grid) (cores : List Nat) : Bool :=
  (s.ctx g.ctx).places && s.coopFits g && g.unplaced.any (fun n =>
    match s.homeOf g n with
    | some c => (g.coresAt c).any cores.contains
    | none => false)

/-- Whether grid a is served before grid b: higher PRIO, then earlier acceptance. -/
def gridBefore (a b : Nat × Grid) : Bool := b.2.prio < a.2.prio || (a.2.prio == b.2.prio && a.1 < b.1)

/-- Whether no team that comes first waits for some cores. -/
def State.firstInLine (s : State) (grid : Nat) (cores : List Nat) : Bool :=
  !s.grids.any (fun e => gridBefore e (grid, s.grid grid) && s.waitsFor e.2 cores)

/-- Saved teams of a context whose accumulator image belongs on a logical core come before new ones there (R350). -/
def State.imageFree (s : State) (g : Grid) (home : Nat) : Bool :=
  let fold := s.foldCore (s.ctx g.ctx).part
  !(s.ctx g.ctx).saved.any (fun t => ((s.grid t.team.grid).coresAt (fold t.team.home)).any (g.coresAt (fold home)).contains)

/-- Whether a team can be placed now. A cooperative grid is placed whole (R181); the teams of another in ascending order (R234). -/
def State.canPlace (s : State) (grid num : Nat) : Bool :=
  let g := s.grid grid
  let one (n k : Nat) : Bool :=
    match s.homeOf g n with
    | none => false
    | some c => s.fits g c (g.place.getD n 0) k && s.firstInLine grid (g.coresAt c) && s.imageFree g (g.place.getD n 0)
  (s.ctx g.ctx).places && s.coopFits g && g.unplaced.contains num
  && (if g.coop then g.unplaced.all (fun n => one n ((g.unplaced.filter (fun m => s.homeOf g m == s.homeOf g n)).length))
      else one num 1 && !g.unplaced.any (· < num))

/-- The next team that can be placed. -/
def State.nextPlace (s : State) : Option (Nat × Nat) :=
  s.grids.foldl (fun (b : Option (Nat × Nat)) e =>
    match b with
    | some x => some x
    | none => (e.2.unplaced.find? (fun n => s.canPlace e.1 n)).map (fun n => (e.1, n))) none

/-- The placing of a team follows when one can be placed. -/
def State.wakePlace (s : State) : State :=
  match s.nextPlace with
  | some x => s.due (.teamPlace x.1 x.2)
  | none => s

def execTeamPlace (grid team : Nat) (s : State) : Host.Outcome State Fault Refusal :=
  if !s.canPlace grid team then .next s
  else
    let g := s.grid grid
    let ns := if g.coop then g.unplaced else [team]
    .next (ns.foldl (fun s n =>
      match s.homeOf g n with
      | some c => s.placeTeam grid n (g.place.getD n 0) c
      | none => s) s).wakePlace

/-! ## Ends of teams and grids (R216, R305, R330) -/

/-- A saved team goes back as soon as its core takes it (R350, R351). -/
def State.wakeSaved (s : State) (ctx : Nat) : State :=
  if (s.ctx ctx).run == .running && !(s.ctx ctx).saved.isEmpty then s.due (.restore ctx (s.ctx ctx).part) else s

/-- A halted context with no team left on a core is saved (R346). A live migration goes on then (R355). -/
def State.settleHalt (s : State) (ctx : Nat) : State :=
  if (s.ctx ctx).run == .halting && (s.ctxTeams ctx).isEmpty then
    let s := s.modCtx ctx (fun x => { x with run := .saved, chosen := [] })
    match (s.ctx ctx).migrate with
    | some m => s.due (.liveMigrate ctx m.1 m.2)
    | none => s
  else s

/-- Every copy a team started has ended, and every operation it posted. -/
def State.teamQuiet (s : State) (team : Nat) : Bool :=
  (Tbl.vals s.copies).all (fun x => x.team != team || x.told)
  && s.cores.all (fun e => e.2.fifo.all (fun f => f.team != team))

def State.gridDone (s : State) (grid : Nat) : Bool :=
  let g := s.grid grid
  (Tbl.look s.grids grid).isSome && g.unplaced.isEmpty && g.live.isEmpty

/-- The largest watchdog count of a context's cores joins the one that is saved with it (R344). -/
def State.keepWd (s : State) (ctx : Nat) : State :=
  s.modCtx ctx (fun x => { x with
    savedWd := s.cores.foldl (fun n e => if e.2.ctx == some ctx then max n e.2.wd else n) x.savedWd })

/-- A team leaves its cores: its stores are performed at the L2, and its footprint is free. Of a context that is being put away the
watchdog counts are kept. -/
def State.dropTeam (s : State) (id : Nat) : State :=
  let t := s.team id
  let g := s.grid t.grid
  let s := if (s.ctx g.ctx).run == .running then s else s.keepWd g.ctx
  let s := (g.coresAt t.core).foldl (fun s c => (s.l1Cores c t).foldl (fun s k => s.writeBackAll k) s) s
  let s := { s with
    teams := Tbl.drop s.teams id
    copies := s.copies.filter (fun e => e.2.team != id)
    gangs := s.gangs.filter (fun e => e.2.team != id)
    cores := s.cores.map (fun (e : Nat × Core) => (e.1, { e.2 with accUsed := e.2.accUsed.filter (· != id) })) }
  (s.refuse (clusterOf t.core)).refreshHeld g.ctx

/-- The cores that the saved teams of a context left, each with the logical core it was for them (R306). -/
def State.savedCores (s : State) (ctx : Nat) : List (Nat × Nat) :=
  (s.ctx ctx).saved.flatMap (fun t =>
    match s.physCore (s.ctx ctx).part (s.foldCore (s.ctx ctx).part t.team.home) with
    | none => []
    | some c => ((s.grid t.team.grid).coresAt c).map (fun k => (k, t.team.home + (k - c))))

/-- The accumulator images of cores that no team is left on are kept for the saved teams of a context that left them (R306), whichever
team was the last there. -/
def State.keepImages (s : State) (ctx : Nat) (cores : List Nat) : State :=
  (s.savedCores ctx).foldl (fun s e =>
    if !cores.contains e.1 || !(s.teamsOn e.1).isEmpty || (Tbl.look (s.ctx ctx).savedAcc e.2).isSome then s
    else
      let k := s.core e.1
      s.modCtx ctx (fun x => { x with
        savedAcc := Tbl.put x.savedAcc e.2 (k.acc, k.accBad.foldl (fun t i => Tbl.put t i true) k.accPoison) })) s

def execTeamEnd (team : Nat) (s : State) : Host.Outcome State Fault Refusal :=
  match Tbl.look s.teams team with
  | none => .next s
  | some t =>
    if !(s.teamThreads team).isEmpty || !s.teamQuiet team then .next s
    else
      let ctx := s.teamCtx t
      let s := (s.dropTeam team).keepImages ctx ((s.grid t.grid).coresAt t.core)
      let s := s.modGrid t.grid (fun g => { g with live := g.live.filter (· != team) })
      let s := if s.gridDone t.grid then s.due (.gridComplete t.grid) else s
      .next (((s.settleHalt ctx).wakeSaved ctx).wakePlace)

/-! ## Signals (R204 to R206) -/

/-- What the front end's accesses need: supervisor rights of the context's own pages. -/
def feNeed (store : Bool) : Need := { load := true, store := store, user := false }

/-- A signal's value, if it can be read. -/
def State.readSignal (s : State) (ctx : Nat) (a : DWord) : Option Int :=
  match s.unitRead ctx (feNeed false) a.toNat 8 with
  | .ok bs => some (sx (leNat bs) 64)
  | .error _ => none

/-- What reads of signals leave of the bad lines they meet (R248). -/
def State.signalsMet (s : State) (ctx : Nat) (as : List DWord) : State :=
  as.foldl (fun s a => s.unitMet ctx (feNeed false) a.toNat 8) s

/-- Writes a signal: other copies of its line that a core holds stay as they are until that core acquires. -/
def State.writeSignalAt (s : State) (ctx : Nat) (a : DWord) (x : Int) : State :=
  match s.unitWrite ctx (feNeed true) a.toNat (leBytes 8 (wrap x 64)) with
  | .ok t => t
  | .error _ => s

/-- Whether a signal address may be named: 0, or aligned, canonical and mapped. -/
def State.signalOk (s : State) (ctx : Nat) (store : Bool) (a : DWord) : Bool :=
  a == 0 || (a.toNat % 8 == 0 && (match s.unitRead ctx (feNeed store) a.toNat 8 with | .ok _ => true | .error _ => false))

/-- The condition of a wait-signal. -/
def signalCond (cond : Nat) (v c : Int) : Bool :=
  match cond with
  | 0 => v == c
  | 1 => v != c
  | 2 => decide (v < c)
  | _ => decide (c ≤ v)

/-- Reads the signals of a packet that waits: those not met stay. A packet with none left has completed. -/
def State.recheck (s : State) (ctx : Nat) (b : Begun) : Begun :=
  { b with left := b.left.filter (fun a => match s.readSignal ctx a with
      | none => true
      | some v => if b.ptype = 2 then !signalCond b.cond v (sx b.cmp.toNat 64) else v != 0) }

def Begun.waits (b : Begun) : Bool := b.ptype == 2 || b.ptype == 4

/-- Every queue with an unsatisfied signal reads it again (R205). -/
def State.wakeSignals (s : State) : State :=
  (s.begun.filter (·.waits)).foldl (fun s b => s.due (.signalRecheck b.queue)) s

/-! ## Serving queues (R202, R203, R205, R207) -/

/-- Contexts whose queues the front end serves: one that is saved, stopped or moved is not on the device's cores. -/
def Ctx.served (x : Ctx) : Bool := x.run == .running || x.run == .halting

/-- Where a queue's head packet lies, when its descriptor is in order. -/
def Queue.headAt (q : Queue) : Option Nat :=
  if q.log2n < 4 || 16 < q.log2n || 2 ^ q.log2n < q.count || q.ring.toNat % 64 ≠ 0 then none else some (q.slotAddr q.rdidx)

/-- The head packet of a queue, or the status that stops the queue (R202, R207). -/
def State.headPacket (s : State) (n : Nat) : Except Nat (List Byte) :=
  let q := s.queue n
  if q.log2n < 4 || 16 < q.log2n then .error 0x01
  else if 2 ^ q.log2n < q.count || q.ring.toNat % 64 ≠ 0 then .error 0x02
  else
    match s.unitRead (queueCtx q) (feNeed false) (q.slotAddr q.rdidx) 64 with
    | .error _ => .error 0x02
    | .ok bs =>
      let h := leNat (bs.take 8)
      if h / 32 ≠ 0 || h % 16 = 0 || 5 < h % 16 then .error 0x01 else .ok bs

/-- The front end serves a queue from a hardware slot: it has read the head packet, and a bad line of it is not kept (R205, R248). -/
def State.serve (s : State) (slot n : Nat) : State :=
  let q := s.queue n
  let s := { s with lastSlot := slot }
  match q.headAt with
  | none => s
  | some a => s.unitMet (queueCtx q) (feNeed false) a 64

def packetType (bs : List Byte) : Nat := leNat (bs.take 8) % 16
def packetBar (bs : List Byte) : Bool := bitOf (leNat (bs.take 8)) 4
def zeros (bs : List Byte) : Bool := bs.all (· == 0)

/-- A queue has a head packet that may begin. A packet whose header is in error is found at once, also behind BAR = 1 while earlier
packets are not complete: BAR itself is a bit of the header that is in error (DESIGN CHOICE, log entry 101). -/
def State.queueReady (s : State) (n : Nat) : Bool :=
  let q := s.queue n
  q.en && q.qstat == 0 && q.count != 0 && (s.ctx (queueCtx q)).served
  && !s.begun.any (fun b => b.queue == n && b.waits)
  && (match s.headPacket n with
      | .error _ => true
      | .ok bs => !(packetBar bs && s.begun.any (fun b => b.queue == n)))

/-- The queue served next: the highest PRIO, then the slot that follows the one served last. -/
def State.nextQueue (s : State) : Option (Nat × Nat) :=
  let after (slot : Nat) : Nat := (slot + 255 - s.lastSlot) % 256
  (s.hwSlots.filter (fun e => s.queueReady e.2)).foldl (fun (b : Option (Nat × Nat)) e =>
    match b with
    | none => some e
    | some x =>
      let p := (s.queue e.2).prio
      let q := (s.queue x.2).prio
      if q < p || (p == q && after e.1 < after x.1) then some e else some x) none

/-- The packet event the front end comes to next. -/
def State.frontEvent (s : State) : Option Instr :=
  match s.nextQueue with
  | none => none
  | some (_, q) =>
    match s.headPacket q with
    | .error _ => some (.launchPacket q)
    | .ok bs =>
      match packetType bs with
      | 1 => some (.launchPacket q)
      | 2 => some (.waitSignal q)
      | 3 => some (.writeSignal q)
      | 4 => some (.barrierAnd q)
      | _ => some (.loopConfig q)

def State.wakeFront (s : State) : State :=
  match s.frontEvent with
  | some i => s.due i
  | none => s

/-- An error stops the queue at its head packet, and raises its interrupt (R207). -/
def State.stopQueue (s : State) (q code : Nat) : State :=
  (s.setQueue q { s.queue q with qstat := BitVec.ofNat 32 code }).raise (s.vcpOfQueue q) 0

/-- A packet has begun: RDIDX advances. -/
def State.advance (s : State) (q : Nat) : State := s.setQueue q { s.queue q with rdidx := (s.queue q).rdidx + 1 }

/-- The head packet of the queue that is served next, when it is of a type; the packet's effect answers a status other than 0
to stop the queue. -/
def beginPacket (s : State) (q ptype : Nat) (act : State → Nat → List Byte → Nat × State) : Host.Outcome State Fault Refusal :=
  match s.nextQueue with
  | none => .next s
  | some (slot, n) =>
    if n != q then .next s
    else
      match s.headPacket q with
      | .error code => .next ((s.serve slot q).stopQueue q code).wakeFront
      | .ok bs =>
        if packetType bs != ptype then .next s
        else
          match act (s.serve slot q) (queueCtx (s.queue q)) bs with
          | (0, t) => .next (t.advance q).wakeFront
          | (code, t) => .next (t.stopQueue q code).wakeFront

/-- A packet that waits for signals has begun. -/
def State.beginWait (s : State) (ctx : Nat) (b : Begun) : State :=
  let t := s.signalsMet ctx b.left
  let b := s.recheck ctx b
  if b.left.isEmpty then t else { t with begun := s.begun ++ [b] }

/-- Of a packet that is wrong in two ways the first check in the order written gives the status: 0x01 before 0x02, and in a
loop-config packet 0x01, 0x09, 0x0A (DESIGN CHOICE, log entry 102). -/
def execWaitSignal (q : Nat) (s : State) : Host.Outcome State Fault Refusal :=
  beginPacket s q 2 (fun s ctx bs =>
    let a := field64 bs 8
    if 3 < field bs 24 1 || !zeros (bs.drop 25) then (1, s)
    else if !s.signalOk ctx false a then (2, s)
    else (0, s.beginWait ctx { queue := q, idx := (s.queue q).rdidx, ptype := 2, grid := 0, left := if a == 0 then [] else [a]
                               cmp := field64 bs 16, cond := field bs 24 1 }))

def execBarrierAnd (q : Nat) (s : State) : Host.Outcome State Fault Refusal :=
  beginPacket s q 4 (fun s ctx bs =>
    let as := (List.range 5).map (fun i => field64 bs (8 + 8 * i))
    if !zeros (bs.drop 48) then (1, s)
    else if !as.all (s.signalOk ctx false) then (2, s)
    else (0, s.beginWait ctx { queue := q, idx := (s.queue q).rdidx, ptype := 4, grid := 0, left := as.filter (· != 0) }))

def execWriteSignal (q : Nat) (s : State) : Host.Outcome State Fault Refusal :=
  beginPacket s q 3 (fun s ctx bs =>
    let a := field64 bs 8
    let x := (field64 bs 16).toInt
    if 2 < field bs 24 1 || !zeros (bs.drop 25) then (1, s)
    else if !s.signalOk ctx true a then (2, s)
    else if a == 0 then (0, s)
    else
      let old := (s.readSignal ctx a).getD 0
      (0, (s.writeSignalAt ctx a (match field bs 24 1 with
        | 0 => x
        | 1 => old + x
        | _ => old - x)).wakeSignals))

/-- A loop-config packet writes the loop state of its queue's context. -/
def execLoopConfig (q : Nat) (s : State) : Host.Outcome State Fault Refusal :=
  beginPacket s q 5 (fun s ctx bs => s.loopBody ctx bs)

/-- The signals of a queue's waiting packet are read again. -/
def execSignalRecheck (q : Nat) (s : State) : Host.Outcome State Fault Refusal :=
  let ctx := queueCtx (s.queue q)
  if !(s.ctx ctx).served || !s.begun.any (fun b => b.queue == q && b.waits) then .next s
  else
    let bs := s.begun.map (fun b => if b.queue == q && b.waits then s.recheck ctx b else b)
    let s := s.signalsMet ctx ((s.begun.filter (fun b => b.queue == q && b.waits)).flatMap (·.left))
    .next { s with begun := bs.filter (fun b => !(b.waits && b.left.isEmpty)) }.wakeFront

/-! ## Launch records (R48, R208 to R213, R337) -/

/-- Reads the bytes a launch names, or its status 0x02. -/
def State.readTable (s : State) (ctx al n : Nat) (a : DWord) : Except Nat (List Byte) :=
  if a.toNat % al ≠ 0 then .error 2
  else
    match s.unitRead ctx (feNeed false) a.toNat n with
    | .ok bs => .ok bs
    | .error _ => .error 2

/-- A check of a launch: a status when it does not hold. -/
def need (ok : Bool) (code : Nat) : Except Nat Unit := if ok then .ok () else .error code

/-- Slot words that R48 accepts. -/
def slotOk (w : DWord) : Bool :=
  let z := FmtSlot.ofWord w
  z.ftype ≤ 6 && !(z.isBx && z.gap == 0) && !((z.isBx || z.isIntF) && 2 ≤ z.rmode)
  && (match Fmt.f32.unpack z.scale with | .fin _ m _ => 2 ^ 23 ≤ m | _ => false)

/-- The fields of a record, with empty tables. -/
def recordGrid (q prio ctx : Nat) (signal : DWord) (r : List Byte) : Grid :=
  let team := field r 28 4
  let misc := field r 36 4
  { ctx := ctx, queue := q, code := field64 r 0, entry := BitVec.ofNat 32 (field r 8 4)
    gx := field r 12 4, gy := field r 16 4, gz := field r 20 4
    tx := field r 24 1, ty := field r 25 1, tz := field r 26 1
    pgangs := bitsOf team 5 0, cgangs := bitsOf team 11 6, pregs := bitsOf team 20 12, cregs := bitsOf team 29 21
    scrsize := field r 32 4, dregs := bitsOf misc 4 0, chans := bitsOf misc 9 5, policy := bitsOf misc 11 10
    l1fuse := bitOf misc 12, coop := bitOf misc 13, restart := bitOf misc 14, paired := bitOf misc 15
    args := field64 r 64, slots := (List.range 8).map (fun i => (i, field64 r (80 + 8 * i)))
    shapes := [], traps := [], place := [], signal := signal, prio := prio, unplaced := [], live := [] }

/-- Number of shape records a record names (R208). -/
def recordShapes (r : List Byte) : Nat := bitsOf (field r 36 4) 22 16
/-- Teams of a grid. -/
def Grid.teams (g : Grid) : Nat := g.gx * g.gy * g.gz

/-- Reserved bits and bytes of a record are zero. -/
def recordClean (r : List Byte) : Bool :=
  zeros ((r.drop 76).take 4) && zeros (r.drop 144) && bitsOf (field r 28 4) 31 30 == 0 && field r 27 1 == 0
  && field r 72 4 / 2 ^ 12 == 0 && field r 36 4 / 2 ^ 23 == 0
  && (List.range 8).all (fun i => bitsOf (field64 r (80 + 8 * i)).toNat 31 12 == 0)

/-- The conditions of R209. -/
def Grid.shapeOk (g : Grid) (nshape : Nat) : Bool :=
  1 ≤ g.gx && 1 ≤ g.gy && 1 ≤ g.gz && g.gx * g.gy * g.gz < 2 ^ 32
  && 1 ≤ g.gangs && g.gangs ≤ 32
  && (g.pgangs == 0 || (1 ≤ g.pregs && g.pregs ≤ 256)) && (g.cgangs == 0 || (1 ≤ g.cregs && g.cregs ≤ 256))
  && 1 ≤ g.tx && 1 ≤ g.ty && 1 ≤ g.tz && g.tx * g.ty * g.tz ≤ 32 * g.gangs
  && (g.code + g.entry.setWidth 64).toNat % 32 == 0
  && g.dregs ≤ 16 && g.chans ≤ 16 && nshape ≤ 64 && g.scrsize % 256 == 0
  && (!g.paired || 2 ≤ g.gangs)

/-- A placement entry that R212 accepts: a logical core of the partition. -/
def State.placeOk (s : State) (ctx : Nat) (paired : Bool) (e : Nat) : Bool :=
  let p := (s.ctx ctx).part
  e < 512 && (s.physCore p e).isSome && (!paired || (e % 2 == 0 && (s.physCore p (e + 1)).isSome))

/-- The trap table of R337: its valid entries. -/
def State.readTraps (s : State) (ctx : Nat) (a : DWord) : Except Nat (Tbl DWord) :=
  if a == 0 then .ok []
  else
    match s.readTable ctx 512 512 a with
    | .error e => .error e
    | .ok bs =>
      let es := (List.range 64).map (fun c => (c, field64 bs (8 * c)))
      let bad (e : Nat × DWord) : Bool :=
        e.2.getLsbD 0 && (e.1 == 0 || e.2.extractLsb' 1 4 != 0 || !canonical (posClause e.2).toNat)
      if es.any bad then .error 1 else .ok (es.filter (fun e => e.2.getLsbD 0))

/-- Each share of a footprint fits the budget of its core (R213). -/
def State.budgetOk (s : State) (g : Grid) (lcore : Nat) : Bool :=
  match s.physCore (s.ctx g.ctx).part lcore with
  | none => false
  | some c => (g.coresAt c).all (fun k => g.share (k == c) ≤ s.budget k)

/-- The teams of a cooperative launch fit their cores together (R181, R213). -/
def State.coopOk (s : State) (g : Grid) : Bool :=
  g.place.all (fun e =>
    match s.physCore (s.ctx g.ctx).part e with
    | none => false
    | some c => (g.coresAt c).all (fun k =>
        let home := k == c
        let n := (g.place.filter (· == e)).length
        n * g.share home ≤ s.budget k && n * (if home then g.lead else g.gangs - g.lead) ≤ 64))

/-- A launch's record as far as the front end checks it by itself: its grid, without its tables. -/
def State.launchHead (s : State) (q ctx : Nat) (bs : List Byte) : Except Nat (List Byte × Grid) := do
  need (zeros (bs.drop 24)) 1
  let r ← s.readTable ctx 256 256 (field64 bs 8)
  need (s.signalOk ctx true (field64 bs 16)) 2
  need (recordClean r) 1
  let g := recordGrid q (s.queue q).prio ctx (field64 bs 16) r
  need (bitsOf (field r 72 4) 11 0 == ctx) 4
  need (g.shapeOk (recordShapes r)) 4
  need ((Tbl.vals g.slots).all slotOk) 3
  need (g.policy != 3) 5
  .ok (r, g)

/-- A launch's placement map (R212). -/
def State.launchMap (s : State) (ctx : Nat) (r : List Byte) (g : Grid) : Except Nat (List Nat) := do
  let map ← s.readTable ctx 2 (2 * g.teams) (field64 r 48)
  let place := (List.range g.teams).map (fun i => field map (2 * i) 2)
  need (place.all (s.placeOk ctx g.paired)) 6
  .ok place

/-- Accepts a launch: its grid with the front end's copies of its tables, or the status. -/
def State.acceptLaunch (s : State) (q ctx : Nat) (bs : List Byte) : Except Nat Grid := do
  let (r, g) ← s.launchHead q ctx bs
  let place ← s.launchMap ctx r g
  let nshape := recordShapes r
  let traps ← s.readTraps ctx (field64 r 56)
  let shapes ← if nshape = 0 then .ok [] else s.readTable ctx 128 (128 * nshape) (field64 r 40)
  let g := { g with
    place := place, traps := traps, unplaced := List.range g.teams
    shapes := (List.range nshape).map (fun i => BitVec.ofNat 1024 (field shapes (128 * i) 128)) }
  need (place.all (s.budgetOk g)) 8
  need (!g.coop || s.coopOk g) 7
  .ok g

/-- What the front end has read of memory for a launch, up to the check that fails: each read's address, the alignment it needs, and its length. -/
def State.launchReads (s : State) (q ctx : Nat) (bs : List Byte) : List (DWord × Nat × Nat) :=
  (if zeros (bs.drop 24) then [(field64 bs 8, 256, 256)] else [])
  ++ (match s.launchHead q ctx bs with
    | .error _ => []
    | .ok (r, g) =>
      (field64 r 48, 2, 2 * g.teams) :: (match s.launchMap ctx r g with
        | .error _ => []
        | .ok _ =>
          (if field64 r 56 == 0 then [] else [(field64 r 56, 512, 512)])
            ++ (match s.readTraps ctx (field64 r 56) with
              | .error _ => []
              | .ok _ => [(field64 r 40, 128, 128 * recordShapes r)])))

/-- What a launch's reads leave of the bad lines they meet (R248). -/
def State.launchMet (s : State) (q ctx : Nat) (bs : List Byte) : State :=
  (s.launchReads q ctx bs).foldl (fun s a => if a.1.toNat % a.2.1 = 0 then s.unitMet ctx (feNeed false) a.1.toNat a.2.2 else s) s

def execLaunchPacket (q : Nat) (s : State) : Host.Outcome State Fault Refusal :=
  beginPacket s q 1 (fun s ctx bs =>
    match s.acceptLaunch q ctx bs with
    | .error code => (code, s.launchMet q ctx bs)
    | .ok g =>
      let s := s.launchMet q ctx bs
      let id := s.ids
      let b : Begun := { queue := q, idx := (s.queue q).rdidx, ptype := 1, grid := id, left := [] }
      (0, ({ s with ids := id + 1, grids := Tbl.put s.grids id g, begun := s.begun ++ [b] }).wakePlace))

/-! ## Grid completion (R216, R344) -/

def execGridComplete (grid : Nat) (s : State) : Host.Outcome State Fault Refusal :=
  if !s.gridDone grid then .next s
  else
    let g := s.grid grid
    let s := match g.signal == 0, s.readSignal g.ctx g.signal with
      | false, some v => s.writeSignalAt g.ctx g.signal (v - 1)
      | _, _ => s
    let s := { s with
      grids := Tbl.drop s.grids grid
      begun := s.begun.filter (fun b => !(b.ptype == 1 && b.grid == grid))
      cores := s.cores.map (fun (e : Nat × Core) => if e.2.ctx == some g.ctx then (e.1, { e.2 with wd := 0 }) else e) }
    .next ((s.modCtx g.ctx (fun x => { x with savedWd := 0 })).wakeSignals).wakeFront

end Sys2Proof.Machine
end

