-- ==== Sys2Proof/Machine/Preempt.lean ====
section
/-!
DEFINITION. Halting a context and putting it away: the request and the cut (R345, R431), the choice of each cluster (R346 to
R348, R405), saving and restoring (R305, R306, R330, R349 to R351), the watchdog (R344), the kill (R340, R358), thermal
migration (R352 to R354) and live migration (R355, R356, R390).
-/
namespace Sys2Proof.Machine

/-! ## Halting (R345, R431) -/

/-- Keys of the gangs of a team. -/
def State.teamGangs (s : State) (id : Nat) : List Nat := (s.gangs.filter (fun e => e.2.team == id)).map (·.1)

/-- The speculating gangs of some teams are squashed: each returns to its `cbr`, its vote standing. -/
def State.squashHalted (s : State) (teams : List Nat) : State :=
  (teams.flatMap s.teamGangs).foldl (fun s k =>
    match (s.gang (k / 64) (k % 64)).spec with
    | none => s
    | some x =>
      let s := s.modGang (k / 64) (k % 64) (fun g => { g with spec := some { x with squash := some (x.squash.getD 4) } })
      { s with agenda := .event (.specSquash (k / 64) (k % 64)) :: s.agenda }) s

/-- A context halts: its cores form no further pass of it. -/
def State.halt (s : State) (ctx : Nat) : State :=
  let s := s.modCtx ctx (fun x => { x with run := .halting, preemptAt := s.timebase, late := false, haltAt := s.time, chosen := [], savedWd := 0 })
  (s.squashHalted ((s.ctxTeams ctx).map (·.1))).settleHalt ctx

def execPreemptRequest (ctx : Nat) (s : State) : Host.Outcome State Fault Refusal :=
  .next (if (s.ctx ctx).run == .running then s.halt ctx else s)

/-- The context a core runs. -/
def State.coreCtx (s : State) (c : Nat) : Ctx := match (s.core c).ctx with
  | some x => s.ctx x
  | none => {}

/-- Whether the passes of a core are to end: its context is halted there, NC pre-empts it from there, or its pair is to migrate. -/
def State.halting (s : State) (c : Nat) : Bool :=
  (s.core c).halted || (s.core c).ncAt.isSome || !(s.coreCtx c).issues (clusterOf c)

/-- What a pass reserved and is to close for gangs none of whose lanes is left in it. -/
def Pass.orphans (x : Pass) : Pass :=
  let left := gangsOf x.slots
  { x with resv := x.resv.filter (fun e => !left.contains e.1), closing := x.closing.filter (fun e => !left.contains e.1) }

/-- A pass is cut between two instructions: each gang keeps its reservations and the closes it still owes (R179, R194), and
each thread keeps its temporaries and resumes at the index reached. For a gang whose lanes have all left, nobody resumes: what
it reserved and is to close is settled at the cut. -/
def State.cutPass (s : State) (c p : Nat) (x : Pass) : State :=
  let pos := posAt x.clause x.idx
  let s := (s.finishResv c x.orphans).closeChans c x.orphans
  let s := s.modCore c (fun k => { k with pipes := Tbl.drop k.pipes p })
  let s := (gangsOf x.slots).foldl (fun s gs =>
    let r := { Tbl.at x.resv gs {} with
      hdr := x.hdr, closing := (x.closing.filter (fun e => e.1 == gs)).map (·.2), lanes := (x.slots.filter (fun k => k / 32 == gs)).map (· % 32) }
    if r.rd.isNone && r.wr.isNone && r.closing.isEmpty then s
    else s.modGang c gs (fun g => { g with kept := g.kept ++ [(pos, r)] })) s
  x.slots.foldl (fun s k => (s.modThr c k (fun th => { th with pos := pos })).place c k) s

/-- The time from which the passes of a halting core are cut: 8 µs after the request (R345), or after the end of a drain that ran out
(R346), in ps. -/
def State.cutAt (s : State) (c : Nat) : Nat :=
  let x := s.coreCtx c
  let ctxAt := if Tbl.at x.chosen (clusterOf c) 0 == 5 then x.drainEnd else x.haltAt
  8000000 + (if (s.core c).halted then (s.core c).haltedAt else ((s.core c).ncAt).getD ctxAt)

/-- A pass still running 8 µs after the request is cut (R345). -/
def execPassCut (core pipe : Nat) (s : State) : Host.Outcome State Fault Refusal :=
  match Tbl.look (s.core core).pipes pipe with
  | none => .next s
  | some x => .next (if s.halting core && s.cutAt core ≤ s.time then s.cutPass core pipe x else s)

/-! ## When halted teams can be put away (R345, R305, R330) -/

/-- No pass of the teams runs, no gang of theirs speculates, and every flag count is zero. -/
def State.quiet (s : State) (teams : List Nat) : Bool :=
  teams.all (fun id =>
    (s.teamGangs id).all (fun k => (s.gang (k / 64) (k % 64)).spec.isNone)
    && (s.teamThreads id).all (fun k =>
      let th := Tbl.at s.threads k {}
      (match th.place with | .pass _ => false | _ => true) && th.flags.all (fun e => e.2 == 0)))

/-- The next event of the operation that a core's head has started. -/
def State.headRuns (s : State) (c : Nat) : Option Instr :=
  match (s.core c).fifo with
  | f :: _ => if f.started && !f.follower then some (s.startedEvent c f) else none
  | [] => none

/-- What a save or a discard waits for: the next event of a copy in Delivering, Leave or Queued, or of one that has ended and
whose tokens are not told; or of a started operation. -/
def State.unfinished (s : State) (teams : List Nat) : Option Instr :=
  let busy := (Tbl.vals s.copies).filter (fun x => teams.contains x.team && !x.told && x.st != .collecting && x.st != .checking)
  match busy.findSome? (fun x => s.copyEvent (s.firstOnChannel x.id)) with
  | some i => some i
  | none => s.cores.findSome? (fun e => if (e.2.fifo.head?).any (fun f => teams.contains f.team) then s.headRuns e.1 else none)

/-- Whether such a copy or operation stands. -/
def State.settled (s : State) (teams : List Nat) : Bool :=
  (Tbl.vals s.copies).all (fun x => !teams.contains x.team || x.told || x.st == .collecting || x.st == .checking)
  && s.cores.all (fun e => e.2.fifo.all (fun f => !f.started || !teams.contains f.team))

/-! ## Saving (R349) -/

/-- Requests and permits of a team's unstarted operations go back. -/
def State.withdrawOps (s : State) (id : Nat) : State :=
  let ops := s.cores.flatMap (fun e => (e.2.fifo.filter (fun f => f.team == id && !f.follower)).map (fun f => (e.1, f.id)))
  let s := ops.foldl (fun s o => (s.dropRequest (dieOf o.1) o.2).releaseLeave (dieOf o.1) o.2) s
  { s with cores := s.cores.map (fun (e : Nat × Core) => (e.1, { e.2 with fifo := e.2.fifo.filter (fun f => f.team != id) })) }

/-- The place of a thread in the order of its saved record: records first, by SEQ, then the threads of entries. -/
def State.recordSeq (s : State) (c k : Nat) : Nat :=
  match (s.core c).bin.find? (fun r => r.slot == k) with
  | some r => r.seq
  | none => (s.core c).binSeq + k

/-- A thread as saved. One at a `cbr` without its result waits for a position like any other (R417). One that a fault or a trap has
stopped waits for none: it never runs again, also when firmware resumes its context (DEDUCED, log entry 56). -/
def State.saveThread (s : State) (key : Nat) : SavedThread :=
  let th := Tbl.at s.threads key {}
  { gang := (Tbl.at s.gangs (key / 32) { team := 0, num := 0 }).num, lane := key % 32, seq := s.recordSeq (key / 2048) (key % 2048)
    waits := match th.place with
      | .entry | .bin | .vote => true
      | _ => false
    th := { th with place := .out } }

/-- Takes a slot out of the entries and records of a core. -/
def State.forget (s : State) (c k : Nat) : State :=
  s.modCore c (fun x => { x with
    wvt := (x.wvt.map (fun e => { e with slots := e.slots.filter (· != k) })).filter (fun e => !e.slots.isEmpty)
    bin := x.bin.filter (fun r => r.slot != k) })

/-- A team leaves its cores with its threads and unstarted operations. -/
def State.removeTeam (s : State) (id : Nat) : State :=
  let keys := s.teamThreads id
  let cores := (s.grid (s.team id).grid).coresAt (s.team id).core
  let s := keys.foldl (fun s k => s.forget (k / 2048) (k % 2048)) s
  let s := (s.withdrawOps id).dropTeam id
  let s := { s with threads := s.threads.filter (fun e => !keys.contains e.1) }
  cores.foldl (fun s c => s.wakeHead c) s

/-- A team's unstarted operations, each with the core it waits on: 0 the home core, 1 the follower's. What was read ahead for one
is read again. -/
def State.unstarted (s : State) (id : Nat) (cores : List Nat) : List (Nat × FifoEntry) :=
  ((List.range cores.length).zip cores).flatMap (fun c =>
    ((s.core c.2).fifo.filter (fun f => f.team == id)).map (fun f => (c.1, { f with leave := 0, early := [] })))

/-- Puts a team away: its gangs, threads, copies and unstarted operations, with the caches of its cores written back, and with the last
team of a core the core's accumulators. -/
def State.saveTeam (s : State) (id : Nat) (late : Bool) : State :=
  let t := s.team id
  let g := s.grid t.grid
  let cores := g.coresAt t.core
  let s := (s.teamThreads id).foldl (fun s k => s.freeThread (k / 2048) (k % 2048)) s
  let keys := s.teamThreads id
  let rec' : SavedTeam :=
    { id := id, team := s.team id
      gangs := (s.teamGangs id).map (fun k => { s.gang (k / 64) (k % 64) with votes := [] })
      threads := keys.map s.saveThread
      copies := (Tbl.vals s.copies).filter (fun x => x.team == id)
      fifo := s.unstarted id cores
      late := late }
  let s := s.modCtx g.ctx (fun x => { x with
    saved := x.saved ++ [rec'], late := x.late || late
    savedWd := cores.foldl (fun n c => max n (s.core c).wd) x.savedWd })
  (s.removeTeam id).keepImages g.ctx cores

/-! ## The estimates (R2, R347, R348) -/

/-- Clock of a core in MHz (R2). -/
def Core.mhz (k : Core) : Nat := 1750 - 50 * k.step

/-- D in µs (R348). -/
def Ctx.deadline (x : Ctx) : Nat := x.pdeadline.toNat % 2 ^ 16

/-- E_drain ≤ D/2. -/
def State.drainFits (s : State) (d : Nat) (teams : List (Nat × Team)) : Bool :=
  teams.all (fun e => e.2.teamest != 0 && e.2.teamest.toNat * 1000 ≤ 500 * d * (s.core e.2.core).mhz)

/-- Bytes of a delivering copy not yet written. -/
def State.bytesLeft (s : State) (x : Copy) : Nat :=
  let g := s.grid (s.team x.team).grid
  ((x.dstElems g).filter (fun e => x.unit ≤ e.unit x.lyD)).length * Ly.esz x.lyD

/-- Steps left in a started operation: one takes 512 cycles of its core, and the array waits for the lines of each (R316, R347). -/
def State.stepsLeft (s : State) (c : Nat) (f : FifoEntry) : Nat := f.op.steps - (s.core c).arrayAt / 512

/-- Dirty bytes of an L1. -/
def Core.dirtyBytes (k : Core) : Nat :=
  (Tbl.vals k.l1).foldl (fun n l => n + ((List.range 64).filter (fun i => l.dirty.getLsbD i)).length) 0

/-- A common multiple of the clocks of R2 over 50 MHz, so that the estimates are exact. -/
def clockMultiple : Nat := (List.range 16).foldl (fun l n => Nat.lcm l (35 - n)) 1

/-- E_save ≤ D, both in units of 1 ns / (256 · clockMultiple). -/
def State.saveFits (s : State) (d : Nat) (cores : List Nat) (teams : List (Nat × Team)) : Bool :=
  let foot := teams.foldl (fun n e => n + e.2.footprint) 0
  let nacc := (cores.filter (fun c => teams.any (fun e => (s.core c).accUsed.contains e.1))).length
  let dirty := cores.foldl (fun n c => n + (s.core c).dirtyBytes) 0
  let mma := cores.foldl (fun n c => match (s.core c).fifo with
    | f :: _ => if f.started then max n (s.stepsLeft c f * 512 * 20 * 256 * clockMultiple / (35 - (s.core c).step)) else n
    | [] => n) 0
  let left := (Tbl.vals s.copies).foldl (fun n x =>
    if x.st == .delivering && teams.any (fun e => e.1 == x.team) then max n (s.bytesLeft x) else n) 0
  (foot + 524288 * nacc + dirty) * clockMultiple + mma + left * 4 * clockMultiple ≤ d * 1000 * 256 * clockMultiple

/-- The row of R346 that a cluster takes; a stopped context is saved (R340), and so is one that migrates (R355). -/
def State.choice (s : State) (ctx : Nat) (cores : List Nat) (teams : List (Nat × Team)) : Nat :=
  let x := s.ctx ctx
  let gridOf (e : Nat × Team) : Grid := s.grid e.2.grid
  if x.run == .stopped || x.migrate.isSome then 2
  else if s.drainFits x.deadline teams && teams.all (fun e => !(gridOf e).coop) then 1
  else if s.saveFits x.deadline cores teams then 2
  else if teams.all (fun e => (gridOf e).restart && !(gridOf e).visible) then 3
  else 4

/-! ## The choice (R346) -/

/-- A team returns to unplaced, to start again from its entry. -/
def State.discardTeam (s : State) (id : Nat) : State :=
  let t := s.team id
  let s := s.removeTeam id
  s.modGrid t.grid (fun g => { g with live := g.live.filter (· != id), unplaced := insertSorted t.num g.unplaced })

/-- The cores no team is left on are scrubbed (R358). -/
def State.scrubEmpty (s : State) (cores : List Nat) : State :=
  cores.foldl (fun s c => if (s.teamsOn c).isEmpty then s.scrub c else s) s

/-- A halted cluster puts its teams away once nothing of theirs is unfinished; the event it waits for comes first. A gang that a pass has
brought to run ahead since the request is squashed like those before (R431). -/
def State.putAway (s : State) (ctx : Nat) (again : Instr) (choice : Nat) (teams : List Nat) : State :=
  let s := s.squashHalted teams
  if !s.quiet teams then s
  else if !s.settled teams then
    match s.unfinished teams with
    | some i => { s with agenda := .event i :: .event again :: s.agenda }
    | none => s
  else
    let cores := teams.flatMap (fun id => (s.grid (s.team id).grid).coresAt (s.team id).core)
    (if choice = 3 then ((teams.foldl (fun s id => s.discardTeam id) s).keepImages ctx cores).scrubEmpty cores
     else teams.foldl (fun s id => s.saveTeam id (choice == 4 || choice == 5)) s).settleHalt ctx

def execPreemptChoose (ctx cluster : Nat) (s : State) : Host.Outcome State Fault Refusal :=
  let x := s.ctx ctx
  let teams := (s.ctxTeams ctx).filter (fun e => clusterOf e.2.core == cluster)
  let ids := teams.map (·.1)
  if teams.isEmpty || !(x.run == .halting || x.run == .stopped) then .next s
  else
    match Tbl.look x.chosen cluster with
    | some 1 => .next s
    | some n => .next (s.putAway ctx (.preemptChoose ctx cluster) n ids)
    | none =>
      let s := s.squashHalted ids
      if !s.quiet ids then .next s
      else
        let n := s.choice ctx ((List.range 8).map (8 * cluster + ·)) teams
        let s := s.modCtx ctx (fun x => { x with chosen := Tbl.put x.chosen cluster n })
        if n = 1 then .next s else .next (s.putAway ctx (.preemptChoose ctx cluster) n ids)

/-- What a cluster has chosen once D is over: a drain halts and is saved late (5), and so is the team of a collective that has not ended
(4, R405). -/
def chosenAtEnd (chosen : Tbl Nat) (slow : List Nat) : Tbl Nat :=
  slow.foldl (fun t n => if Tbl.at t n 0 == 5 then t else Tbl.put t n 4) (chosen.map (fun e => if e.2 == 1 then (e.1, 5) else e))

/-- D after the request: drains halt and are saved late, and a collective that has not ended fails with cause 13 (R405). -/
def execDrainDeadline (ctx : Nat) (s : State) : Host.Outcome State Fault Refusal :=
  let x := s.ctx ctx
  if x.run != .halting then .next s
  else
    let s := s.toTime (1000 * (x.preemptAt + 1000 * x.deadline))
    let teams := s.ctxTeams ctx
    let colls := (Tbl.vals s.copies).filter (fun y =>
      y.kind.isColl && !y.st.ended && y.st != .collecting && y.st != .checking && teams.any (fun e => e.1 == y.team))
    let slow := colls.map (fun y => clusterOf (s.team y.team).core)
    let s := s.modCtx ctx (fun x => { x with
      chosen := chosenAtEnd x.chosen slow
      drainEnd := if x.chosen.any (·.2 == 1) && !x.chosen.any (·.2 == 5) then s.time else x.drainEnd })
    let s := s.squashHalted (teams.map (·.1))
    .next (colls.foldl (fun s y => match s.copy y.id with
      | some y => s.failColl y 13 false false none
      | none => s) s)

/-! ## Pre-emption by NC (R351) -/

/-- A team of another context waits for a core. -/
def State.wanted (s : State) (ctx core : Nat) : Bool :=
  s.grids.any (fun e => e.2.ctx != ctx && s.waitsFor e.2 [core])
  || s.ctxs.any (fun e => e.1 != ctx && e.2.run == .running && e.2.saved.any (fun t =>
      (s.physCore e.2.part (s.foldCore e.2.part t.team.home)).any (fun c => ((s.grid t.team.grid).coresAt c).contains core)))

/-- NC begins to pre-empt a context from a core: the cores of the teams there form no pass, and those in flight are cut after 8 µs
(R345, R351). -/
def State.beginNc (s : State) (core : Nat) (ids : List Nat) : State :=
  (ids.flatMap (fun id => (s.grid (s.team id).grid).coresAt (s.team id).core)).foldl (fun s c =>
    s.modCore c (fun k => { k with ncAt := some (k.ncAt.getD s.time) })) (s.modCore core (fun k => { k with ncAt := some s.time }))

/-- NC's pre-emption of a context from a core is over; the other core of the pair stays halted only for one of its own. -/
def State.endNc (s : State) (ctx core : Nat) : State :=
  [2 * (core / 2), 2 * (core / 2) + 1].foldl (fun s c =>
    if c != core && (s.ctx ctx).ncFull.contains c && !(s.teamsOn c).isEmpty then s
    else s.modCore c (fun k => { k with ncAt := none })) s

def execNcPreempt (ctx core : Nat) (s : State) : Host.Outcome State Fault Refusal :=
  let x := s.ctx ctx
  let ids := ((s.teamsOn core).filter (fun e => s.teamCtx e.2 == ctx)).map (·.1)
  if (s.core core).ncAt.isSome then
    if x.run != .running || ids.isEmpty then .next (s.endNc ctx core)
    else
      let s := s.putAway ctx (.ncPreempt ctx core) 2 ids
      .next (if ((s.teamsOn core).filter (fun e => s.teamCtx e.2 == ctx)).isEmpty then (s.endNc ctx core).wakePlace else s)
  else if x.run != .running || !x.ncFull.contains core || ids.isEmpty || !s.wanted ctx core then .next s
  else .next ((s.beginNc core ids).squashHalted ids |>.due (.ncPreempt ctx core))

/-! ## Restoring (R345, R350) -/

/-- The least saved logical core, and of its teams the first. -/
def savedBefore (a b : SavedTeam) : Bool := a.team.home < b.team.home || (a.team.home == b.team.home && a.id < b.id)

/-- Whether a saved team can take its core now: lower saved logical cores that fold onto it come first, a cooperative launch needs
every core of its map (R350), and a team that NC put away waits until NC covers its core (R351). -/
def State.canRestore (s : State) (ctx : Nat) (t : SavedTeam) : Bool :=
  let x := s.ctx ctx
  let g := s.grid t.team.grid
  let lcore := s.foldCore x.part t.team.home
  match s.physCore x.part lcore with
  | none => false
  | some c =>
    s.fits g c t.team.home 1 && s.coopFits g
    && !s.heldByNc { t.team with lcore := lcore, core := c }
    && !x.saved.any (fun o => o.team.home < t.team.home
        && ((s.grid o.team.grid).coresAt (s.foldCore x.part o.team.home)).any (g.coresAt lcore).contains)

/-- A thread that is to wait for a position again: its SEQ when it was saved, its core and its slot. -/
structure Waiter where
  seq : Nat
  core : Nat
  slot : Nat
  deriving DecidableEq, Repr, Inhabited

/-- Records in SEQ order. -/
def insertRecord (r : Waiter) : List Waiter → List Waiter
  | [] => [r]
  | a :: l => if r.seq < a.seq then r :: a :: l else a :: insertRecord r l

/-- Brings a saved gang up to date with every register (R410). -/
def catchupAll (x : Ctx) (g : Gang) : Gang := (List.range 16).foldl (fun g n => catchup x n 17 g) g

/-- A core's accumulators as they were saved, if they still are. -/
def State.restoreImage (s : State) (ctx core home : Nat) : State :=
  match Tbl.look (s.ctx ctx).savedAcc home with
  | none => s
  | some a =>
    (s.modCore core (fun k => { k with acc := a.1, accPoison := a.2, accBad := [] })).modCtx ctx
      (fun x => { x with savedAcc := Tbl.drop x.savedAcc home })

/-- A saved team takes its core with its image, gangs, threads, copies and unstarted operations. The threads that are to wait for
a position are answered. -/
def State.restoreTeam (s : State) (ctx : Nat) (t : SavedTeam) (core : Nat) : State × List Waiter :=
  let g := s.grid t.team.grid
  let x := s.ctx ctx
  let s := s.modCtx ctx (fun x => { x with saved := x.saved.filter (fun o => o.id != t.id) })
  let s := s.seatTeam t.id { t.team with core := core, lcore := s.foldCore x.part t.team.home }
  let cores := g.coresAt core
  let s := cores.foldl (fun s c => s.restoreImage ctx c (t.team.home + (c - core))) s
  let r := s.seatGangs g core (t.gangs.map (catchupAll x))
  let seats := t.threads.flatMap (fun e => (r.2.filter (fun p => p.1 == e.gang)).map (fun p => (p.2.1, 32 * p.2.2 + e.lane, e)))
  let s := seats.foldl (fun s p => s.setThr p.1 p.2.1 p.2.2.th) r.1
  let s := t.copies.foldl (fun s y => s.setCopy y) s
  let s := t.fifo.foldl (fun s f =>
    s.modCore (core + f.1) (fun k => { k with fifo := k.fifo ++ [f.2], accUsed := insertSorted t.id k.accUsed })) s
  let s := cores.foldl (fun s c => s.wakeHead c) s
  let s := t.copies.foldl (fun s y => match s.copyEvent y.id with
    | some i => s.due i
    | none => s) s
  (if (s.teamThreads t.id).isEmpty then s.due (.teamEnd t.id) else s,
    (seats.filter (fun p => p.2.2.waits)).map (fun p => ⟨p.2.2.seq, p.1, p.2.1⟩))

/-- Waiting threads become due records in SEQ order, and their cores' tables refill (R168, R349, R350). -/
def State.refill (s : State) (ws : List Waiter) : State :=
  let s := (ws.foldl (fun l w => insertRecord w l) []).foldl (fun s w => s.toBin w.core w.slot) s
  (ws.foldl (fun l w => insertSorted w.core l) []).foldl (fun s c => s.tidy c) s

/-- The next saved team that can take its core: of the lowest saved logical core. -/
def State.nextRestore (s : State) (ctx : Nat) : Option SavedTeam :=
  ((s.ctx ctx).saved.filter (fun t => s.canRestore ctx t)).foldl (fun (b : Option SavedTeam) t => match b with
    | none => some t
    | some o => if savedBefore t o then some t else some o) none

/-- The saved teams that can take their cores do so, lower saved logical cores first, and then their threads wait again; each turn
restores one. -/
def State.restoreAll (s : State) (ctx : Nat) : Nat → List Waiter → State
  | 0, ws => s.refill ws
  | n + 1, ws =>
    match s.nextRestore ctx with
    | none => s.refill ws
    | some t =>
      match s.physCore (s.ctx ctx).part (s.foldCore (s.ctx ctx).part t.team.home) with
      | none => s.refill ws
      | some c =>
        let r := s.restoreTeam ctx t c
        r.1.restoreAll ctx n (ws ++ r.2)

/-- A context's entry as it resumes on a partition. -/
def Ctx.resumed (x : Ctx) (part : Nat) : Ctx :=
  { x with part := part, run := .running, stop := 0, stopAt := none, chosen := [], late := false, migDue := false }

/-- A saved context resumes on a partition, its cores' watchdog counts at the saved one (R344), with no translation cached that another
partition's tables gave (R360); a running one takes back the teams
that now find room. A stopped one resumes when firmware hands it to a debugger (R340). The VF of a context that has come by live
migration takes the cause MIGDONE (R375). -/
def execRestore (ctx partition : Nat) (s : State) : Host.Outcome State Fault Refusal :=
  let x := s.ctx ctx
  let p := Tbl.at s.parts partition {}
  if x.run == .running then .next ((s.restoreAll ctx x.saved.length []).wakePlace)
  else if !(x.run == .saved || (x.run == .stopped && (s.ctxTeams ctx).isEmpty)) || p.ncores = 0 || x.arriving then .next s
  else
    let s := (if partition == x.part then s else s.dropTlbs (fun e => e.ctx == ctx)).setCtx ctx (x.resumed partition)
    let s := { s with cores := s.cores.map (fun (e : Nat × Core) => if e.2.ctx == some ctx then (e.1, { e.2 with wd := x.savedWd }) else e) }
    let s := if x.migDue then s.raise (s.vcpOfCtx ctx) 3 else s
    .next (((s.restoreAll ctx x.saved.length []).wakeSignals).wakePlace).wakeFront

/-! ## The watchdog (R344) -/

/-- The logical core a physical core is in a partition. -/
def State.logicalOf (s : State) (part core : Nat) : Nat :=
  (((Tbl.at s.parts part {}).rmt.find? (fun e => e.2.getLsbD 15 && bitsOf e.2.toNat 7 0 == core)).map (·.1)).getD 0

/-- Whether a core's count has reached its context's limit while a team of it is resident. A context that another stop of the same cycle
has stopped still compares (R341). -/
def State.expired (s : State) (c : Nat) : Bool :=
  match (s.core c).ctx with
  | none => false
  | some x => (s.ctx x).wdlimit != 0 && (s.ctx x).wdlimit.toNat ≤ (s.core c).wd && !(s.teamsOn c).isEmpty
      && ((s.ctx x).stop == 0 || (s.ctx x).stopAt.any (s.sameCycle c))

def execWatchdogExpire (core : Nat) (s : State) : Host.Outcome State Fault Refusal :=
  match (s.core core).ctx with
  | none => .next s
  | some x =>
    if !s.expired core then .next s
    else .next (s.stopCtx x core (stopWord 3 0 (s.logicalOf (s.ctx x).part core) 0))

/-! ## The kill, and the halt for a debugger (R340, R358) -/

/-- Firmware halts a context for a debugger: a stop of cause 5 (R340). -/
def State.debugHalt (s : State) (ctx : Nat) : State :=
  if (s.ctx ctx).served then s.stopCtx ctx ((s.coresOf ctx).headD 0) (stopWord 5 0 0 0) else s

/-- A context's live migration tracks writes no more. -/
def State.untrack (s : State) (ctx : Nat) : State :=
  { s with tracking := s.tracking.filter (· != ctx), dirtyPages := s.dirtyPages.filter (fun e => e.1 != ctx) }

/-- Every thread of a context ends: its teams, saved and resident, and its grids go, and its cores are scrubbed. -/
def State.endContext (s : State) (ctx : Nat) : State :=
  let teams := (s.ctxTeams ctx).map (·.1)
  let cores := s.coresOf ctx
  let s := { s with cores := s.cores.map (fun (e : Nat × Core) =>
    if cores.contains e.1 then (e.1, { e.2 with pipes := [], pending := [], ssh := [] }) else e) }
  let s := (teams.foldl (fun s id => s.removeTeam id) s).scrubEmpty cores
  let gone := (s.grids.filter (fun e => e.2.ctx == ctx)).map (·.1)
  let s := (s.modCtx ctx (fun x => { x with saved := [], savedAcc := [], chosen := [], migrate := none, stop := stopWord 4 0 0 0 })).untrack ctx
  { s with
    grids := s.grids.filter (fun e => !gone.contains e.1)
    begun := s.begun.filter (fun b => queueCtx (s.queue b.queue) != ctx) }

/-- Firmware kills a stopped context; its copies and started operations end first. -/
def execContextKill (ctx : Nat) (s : State) : Host.Outcome State Fault Refusal :=
  let teams := (s.ctxTeams ctx).map (·.1)
  if (s.ctx ctx).run != .stopped then .next s
  else if s.settled teams then .next (s.endContext ctx).wakePlace
  else
    match s.unfinished teams with
    | some i => .next { s with agenda := .event i :: .event (.contextKill ctx) :: s.agenda }
    | none => .next s

/-! ## Thermal migration (R352 to R354) -/

/-- The pair a hot pair's teams move to: the lowest spare pair of the die that no partition holds and that is cool; both its cores
are enabled (R240). -/
def State.sparePair (s : State) (pair : Nat) : Option Nat :=
  ((List.range 32).map (32 * (pair / 32) + ·)).find? (fun p =>
    (s.die (pair / 32)).sparepr.getLsbD (p % 32) && (s.partOfPair p).isNone
    && 56 ≤ (s.core (2 * p)).banks.length && 56 ≤ (s.core (2 * p + 1)).banks.length
    && (s.core (2 * p)).temp < 85 && (s.core (2 * p + 1)).temp < 85)

/-- Changes both cores of a pair. -/
def State.modPair (s : State) (pair : Nat) (h : Core → Core) : State := (s.modCore (2 * pair) h).modCore (2 * pair + 1) h

/-- No pair can take a hot pair's teams: the governor holds it at step 15, unless a seal fixes its step (R359), and its contexts
fall short (R352). -/
def State.holdHot (s : State) (pair : Nat) : State :=
  let s := s.modPair pair (fun k => { k with hot := true, halted := false, step := if s.pairSealed pair then k.step else 15 })
  (s.pairCtxs pair).foldl (fun s c => s.modCtx c (fun x => { x with loop := x.loop.setShort true })) s

def execTempSample (core celsius : Nat) (s : State) : Host.Outcome State Fault Refusal :=
  let pair := core / 2
  let s := s.modCore core (fun k => { k with temp := BitVec.ofNat 8 celsius })
  let cool := (s.core (2 * pair)).temp < 85 && (s.core (2 * pair + 1)).temp < 85
  let s := if cool then s.modPair pair (fun k => { k with hot := false }) else s
  if celsius < 95 || (s.core core).halted then .next s
  else
    match s.sparePair pair with
    | some _ =>
      let teams := (s.teamsOn (2 * pair) ++ s.teamsOn (2 * pair + 1)).map (·.1)
      .next (((s.modPair pair (fun k => { k with halted := true, haltedAt := s.time })).squashHalted teams).due (.thermalMigrate pair))
    | none => .next (s.holdHot pair)

/-- What a core takes over from the core it replaces: all but what belongs to the silicon. -/
def Core.moved (hot cool : Core) : Core :=
  { hot with banks := cool.banks, cycle := cool.cycle, temp := cool.temp, l1 := [], tlb := [], monitor := {}, halted := false, hot := false }

/-- What stays of a core whose pair has left: its store is scrubbed (R358). -/
def Core.vacated (hot : Core) : Core :=
  { banks := hot.banks, cycle := hot.cycle, temp := hot.temp, step := hot.step }

/-- Moves everything keyed by one core to another. -/
def State.moveCore (s : State) (a b : Nat) : State :=
  let ka := s.core a
  let kb := s.core b
  let put {α : Type} (w : Nat) (t : Tbl α) : Tbl α :=
    (t.filter (fun e => e.1 / w == a)).foldl (fun (r : Tbl α) e => Tbl.put r (b * w + e.1 % w) e.2) (t.filter (fun e => e.1 / w != a))
  let s := s.setCore b (ka.moved kb)
  let s := s.setCore a ka.vacated
  { s with
    threads := put 2048 s.threads
    gangs := put 64 s.gangs
    teams := s.teams.map (fun (e : Nat × Team) => if e.2.core == a then (e.1, { e.2 with core := b }) else e)
    dies := s.dies.map (fun (e : Nat × Die) =>
      (e.1, { e.2 with queue := e.2.queue.map (fun q => if q.core == a then { q with core := b } else q) })) }

/-- RMT entries of a core name another. -/
def State.remap (s : State) (a b : Nat) : State :=
  { s with parts := s.parts.map (fun (e : Nat × Partition) =>
      (e.1, { e.2 with rmt := e.2.rmt.map (fun (r : Nat × BitVec 16) =>
        if r.2.getLsbD 15 && bitsOf r.2.toNat 7 0 == a then (r.1, BitVec.ofNat 16 (2 ^ 15 + b)) else r) })) }

/-- A spare bit of a die. -/
def State.setSpare (s : State) (pair : Nat) (b : Bool) : State :=
  s.modDie (pair / 32) (fun d => { d with
    sparepr := if b then d.sparepr ||| onesAt 32 (pair % 32) 1 else d.sparepr &&& ~~~(onesAt 32 (pair % 32) 1) })

/-- Moves a halted pair's teams to a spare pair. Every L1 portion that holds lines of either pair is written back first: of a fused
cluster, all eight (R267, R270, R353). -/
def State.movePair (s : State) (pair to' : Nat) : State :=
  let a := 2 * pair
  let b := 2 * to'
  let s := [a, a + 1, b, b + 1].foldl (fun s c => s.flushPortions c true) s
  let s := (s.moveCore a b).moveCore (a + 1) (b + 1)
  let s := ((s.remap a b).remap (a + 1) (b + 1))
  let s := (s.setSpare to' false).setSpare pair true
  let s := { s with pendingSteps := match Tbl.look s.pendingSteps pair with
    | some n => Tbl.put (Tbl.drop s.pendingSteps pair) to' n
    | none => s.pendingSteps }
  let s := (s.refuse (clusterOf a)).refuse (clusterOf b)
  (s.wakeHead b).wakeHead (b + 1)

/-- The halted pair's passes have ended or been cut and its started operations have arrived: its teams move. Queued copies run
on the target's TCU, and one in Delivering stays with its own (R354). -/
def execThermalMigrate (pair : Nat) (s : State) : Host.Outcome State Fault Refusal :=
  let cores := [2 * pair, 2 * pair + 1]
  let teams := (cores.flatMap s.teamsOn).map (·.1)
  if !(s.core (2 * pair)).halted then .next s
  else
    let s := s.squashHalted teams
    if !s.quiet teams then .next s
    else
    match cores.findSome? s.headRuns with
    | some i => .next { s with agenda := .event i :: .event (.thermalMigrate pair) :: s.agenda }
    | none =>
      match s.sparePair pair with
      | none => .next (s.holdHot pair)
      | some p => .next (s.movePair pair p)

/-! ## Live migration (R355, R356, R390) -/

/-- Rank-table entries that name a context of this device name its new place. -/
def State.redirect (s : State) (ctx dev newCtx : Nat) : State :=
  let move (r : Nat × Word) : Nat × Word :=
    if r.2.getLsbD 31 && r.2.extractLsb' 20 9 == s.devId && bitsOf r.2.toNat 11 0 == ctx
    then (r.1, BitVec.ofNat 32 (2 ^ 31 + dev * 2 ^ 20 + newCtx)) else r
  { s with ctxs := s.ctxs.map (fun (e : Nat × Ctx) => (e.1, { e.2 with ranks := e.2.ranks.map move })) }

/-- Chunks for a context that came before their sender's set-up, and so have been performed nowhere, are turned away as it moves (R356,
R390). -/
def State.turnEarly (s : State) (ctx : Nat) (p : Nat × Nat) : State :=
  (s.early.filter (fun m => m.dctx.toNat == ctx)).foldl (fun s m => s.turnAway m p)
    { s with early := s.early.filter (fun m => m.dctx.toNat != ctx) }

/-- Firmware moves a context to another device. The first request begins the pre-copy, with every write tracked; the next
stops the context, every cluster saving; once it is saved and firmware has copied the last dirty pages, the cut-over marks it MOVED. On the destination device, which the
event names then, firmware enables the context whose image has come, and it resumes. -/
def execLiveMigrate (ctx dev newCtx : Nat) (s : State) : Host.Outcome State Fault Refusal :=
  let x := s.ctx ctx
  let y := s.ctx newCtx
  if dev == s.devId.toNat then
    if y.run != .saved then .next s
    else .next (((s.setCtx newCtx { y with arriving := false, migDue := true }).letIn newCtx).due (.restore newCtx y.part))
  else if x.run == .running && x.migrate.isNone then
    .next { s.modCtx ctx (fun x => { x with migrate := some (dev, newCtx) }) with tracking := ctx :: s.tracking.filter (· != ctx) }
  else if x.run == .running then .next (s.halt ctx)
  else if x.run == .saved && !s.dirtyPages.any (·.1 == ctx) then
    let s := s.modCtx ctx (fun x => { x with run := .moved, movedTo := some (dev, newCtx), migrate := none })
    .next (((s.redirect ctx dev newCtx).untrack ctx).turnEarly ctx (dev, newCtx))
  else .next s

/-- Firmware copies dirty pages of a context: they are clean until the next write. The last copy lets the cut-over go on (R355). -/
def State.copyPages (s : State) (ctx : Nat) (pages : List Nat) : State :=
  let s := { s with dirtyPages := s.dirtyPages.filter (fun e => !(e.1 == ctx && pages.contains e.2)) }
  match (s.ctx ctx).run == .saved, (s.ctx ctx).migrate with
  | true, some m => s.due (.liveMigrate ctx m.1 m.2)
  | _, _ => s

/-! ### The save image at the destination (R349, R355) -/

/-- A saved team under names that begin at n. -/
def SavedTeam.renamed (t : SavedTeam) (n : Nat) : SavedTeam :=
  { t with
    id := t.id + n, team := { t.team with grid := t.team.grid + n }
    gangs := t.gangs.map (fun g => { g with team := g.team + n, bndPass := g.bndPass + n })
    threads := t.threads.map (fun e => { e with th := { e.th with copies := e.th.copies.map (fun c => (c.1 + n, c.2)) } })
    copies := t.copies.map (fun y => { y with id := y.id + n, team := y.team + n })
    fifo := t.fifo.map (fun f => (f.1, { f.2 with id := f.2.id + n, team := f.2.team + n })) }

/-- One more than the greatest name of an image. -/
def Image.names (i : Image) : Nat :=
  let all := Tbl.keys i.grids ++ i.ctx.saved.flatMap (fun t =>
    t.id :: t.gangs.map (·.bndPass) ++ t.copies.map (·.id) ++ t.fifo.map (·.2.id))
  all.foldl max 0 + 1

end Sys2Proof.Machine
end

