-- ==== Sys2Proof/Machine/Firmware.lean ====
section
/-!
DEFINITION. The firmware complex and the host's side: the harts and their Xamz instructions (R362 to R369), journal and
take-over (R370, R371), virtual command processors and interrupts (R372 to R376), the semaphore block (R379), mailbox commands
(R357, R359, R380, R381, R384), S2INV (R382), boot and readiness (R240, R383, R384).
-/
namespace Sys2Proof.Machine

/-! ## Harts -/

def State.hart (s : State) (n : Nat) : Hart := Tbl.at s.harts n {}
def State.setHart (s : State) (n : Nat) (h : Hart) : State := { s with harts := Tbl.put s.harts n h }

/-- Registers of a hart: x0 reads zero and discards writes. -/
def Hart.get (h : Hart) (r : BitVec 5) : DWord := if r == 0 then 0 else Tbl.at h.x r.toNat 0
def Hart.set (h : Hart) (r : BitVec 5) (v : DWord) : Hart := if r == 0 then h else { h with x := Tbl.put h.x r.toNat v }

/-- A trap of a hart to machine mode (log entry 5). -/
def Hart.trap (h : Hart) (cause val : DWord) : Hart :=
  { h with
    mepc := h.pc, mcause := cause, mtval := val, mpie := h.mie, mie := false
    mppMachine := h.machine, machine := true, pc := h.mtvec &&& ~~~3#64, cycles := h.cycles + 1 }

/-- The 32-bit word at a hart's pc, which is a physical address (log entries 5 and 114). -/
def State.hartWord (s : State) (n : Nat) : BitVec 32 :=
  BitVec.ofNat 32 (leNat ((List.range 4).map (fun i => s.ownByte ((s.hart n).pc.toNat + i))))

/-- What its fetch leaves of a bad line (R248). -/
def State.hartMet (s : State) (n : Nat) : State := if s.anyBad then s.bytesMet (s.hart n).pc.toNat 4 else s

/-- The physical address and key ID that firmware's tables give n bytes from an address; none when they are not mapped (R365). -/
def State.fwAddr (s : State) (a n : Nat) : Option (Nat × Nat) :=
  (s.fwMap.find? (fun r => r.base ≤ a && a + n ≤ r.base + r.len)).map (fun r => (r.pa + (a - r.base), r.key))

/-- n bytes as a hart reads them. -/
def State.fwRead (s : State) (m : Nat × Nat) (n : Nat) : List Byte := (List.range n).map (fun i => s.deviceByte m.2 (m.1 + i))

/-- What that read leaves of the bad lines it meets (R248). -/
def State.fwMet (s : State) (m : Nat × Nat) (n : Nat) : State := if s.anyBad then s.bytesMet m.1 n else s

/-- Bytes that a hart writes under a key ID: each line leaves its slice where that holds it under another (R247). -/
def State.fwWrite (s : State) (m : Nat × Nat) (bs : List Byte) : State :=
  ((List.range bs.length).zip bs).foldl (fun (s : State) e => (s.ownKey m.2 ((m.1 + e.1) / 64)).physWrite m.2 (m.1 + e.1) [e.2])
    (s.fwMet m bs.length)

/-- Address of a queue's descriptor in the firmware's tables: they lie one after another (log entry 61). -/
def State.descAddr (s : State) (q : Nat) : Nat := s.fwDescs + 64 * q

/-- What an Xamz instruction comes to: a trap with cause and mtval, a register to write with the device after it, or a wait in a device.
-/
inductive AmzOut where
  | trap (cause : Nat) (val : DWord)
  | done (rd : DWord) (s : State)
  | wait (s : State)
  deriving DecidableEq, Repr, Inhabited

/-- Runs an Xamz instruction on the hart that has the turn: only in machine mode (R364). A trap writes no register. -/
def runAmz (s : State) (rd : BitVec 5) (act : State → Hart → AmzOut) : Host.Outcome State Fault Refusal :=
  match s.turn with
  | .pipe .. => .fault .noPass
  | .hart n =>
    let h := s.hart n
    let w := s.hartWord n
    let s := s.hartMet n
    if !h.machine then .next (s.setHart n (h.trap 2 (w.setWidth 64)))
    else
      match act s h with
      | .trap c v => .next (s.setHart n (h.trap (BitVec.ofNat 64 c) v))
      | .done v t => .next (t.setHart n { h.set rd v with pc := h.pc + 4, cycles := h.cycles + 1, instret := h.instret + 1 })
      | .wait t => .next t

/-- R366. -/
def execAmzQfetch (rd rs1 rs2 : BitVec 5) (s : State) : Host.Outcome State Fault Refusal :=
  runAmz s rd (fun s h =>
    let q := h.get rs1
    let b := h.get rs2
    let d := s.queue q.toNat
    let ring := d.slotAddr d.rdidx
    if 4095 < q.toNat then .trap 24 q
    else if b.toNat % 64 ≠ 0 then .trap 25 b
    else if (s.fwAddr (s.descAddr q.toNat) 64).isNone then .trap 26 (BitVec.ofNat 64 (s.descAddr q.toNat))
    else if 2 ^ d.log2n < d.count then .trap 28 q
    else if d.count = 0 then .done 0 s
    else
      match s.fwAddr ring 64, s.fwAddr b.toNat 64 with
      | none, _ => .trap 26 (BitVec.ofNat 64 ring)
      | _, none => .trap 26 b
      | some a, some t => .done (BitVec.ofNat 64 d.count) ((s.fwMet a 64).fwWrite t (s.fwRead a 64)))

/-- R367. -/
def amzBfx (signed : Bool) (rd rs1 rs2 : BitVec 5) (s : State) : Host.Outcome State Fault Refusal :=
  runAmz s rd (fun s h =>
    let f := (h.get rs2).toNat
    let pos := f % 256
    let len := f / 256 % 256
    if len = 0 || 64 < pos + len || f / 2 ^ 16 ≠ 0 then .trap 27 (h.get rs2)
    else
      let x := (h.get rs1).toNat / 2 ^ pos % 2 ^ len
      .done (if signed then BitVec.ofInt 64 (sx x len) else BitVec.ofNat 64 x) s)

def execAmzBfx (rd rs1 rs2 : BitVec 5) (s : State) : Host.Outcome State Fault Refusal := amzBfx false rd rs1 rs2 s
def execAmzBfxS (rd rs1 rs2 : BitVec 5) (s : State) : Host.Outcome State Fault Refusal := amzBfx true rd rs1 rs2 s

/-- R368. A wait leaves the hart at the instruction, which reads the signal again; an enabled interrupt ends it with 0, and is
taken after the instruction. -/
def execAmzSigwait (cond : BitVec 2) (rd rs1 rs2 : BitVec 5) (s : State) : Host.Outcome State Fault Refusal :=
  runAmz s rd (fun s h =>
    let a := h.get rs1
    if a.toNat % 8 ≠ 0 then .trap 25 a
    else
      match s.fwAddr a.toNat 8 with
      | none => .trap 26 a
      | some p =>
        if signalCond cond.toNat (sx (leNat (s.fwRead p 8)) 64) (h.get rs2).toInt then .done 1 (s.fwMet p 8)
        else if h.irq then .done 0 (s.fwMet p 8)
        else .wait (s.fwMet p 8))

/-! ## The journal (R370) -/

/-- XOR of the other seven words of a record. -/
def Journal.check (j : Journal) : DWord :=
  j.seq ^^^ (BitVec.ofNat 64 (j.kind + 2 ^ 32 * j.obj)) ^^^ j.data.foldl (· ^^^ ·) 0

/-- The 64 bytes of a record. -/
def Journal.bytes (j : Journal) : List Byte :=
  leBytes 8 j.seq.toNat ++ leBytes 4 j.kind ++ leBytes 4 j.obj
  ++ (List.range 5).flatMap (fun i => leBytes 8 (j.data.getD i 0).toNat) ++ leBytes 8 j.chk.toNat

/-- The record that 64 bytes hold. -/
def Journal.ofBytes (bs : List Byte) : Journal :=
  { seq := field64 bs 0, kind := field bs 8 4, obj := field bs 12 4
    data := (List.range 5).map (fun i => field64 bs (16 + 8 * i)), chk := field64 bs 56 }

/-- Where the ring holds the record of a SEQ. -/
def State.recordAddr (s : State) (q : Nat) : Nat := s.ring + 64 * (q % s.ringLen)

/-- The record in the place of a SEQ. -/
def State.recordAt (s : State) (q : Nat) : Journal := Journal.ofBytes (s.physBytes 0 (s.recordAddr q) 64)

/-- A record's DATA: five words. -/
def recordData (data : List DWord) : List DWord := data ++ List.replicate (5 - data.length) 0

/-- The record that comes next, of a change. -/
def State.nextRecord (s : State) (kind obj : Nat) (data : List DWord) : Journal :=
  let j : Journal := { seq := s.journalSeq + 1, kind := kind, obj := obj, data := recordData data, chk := 0 }
  { j with chk := j.check }

/-- Performs a record: 64 bytes in the ring. -/
def State.record (s : State) (kind obj : Nat) (data : List DWord) : State :=
  let j := s.nextRecord kind obj data
  let a := s.recordAddr j.seq.toNat
  { (s.ownKey 0 (a / 64)).physWrite 0 a j.bytes with journalSeq := s.journalSeq + 1 }

/-- Writes a checkpoint: the whole journalled state, its record, and the records whose changes the state does not hold yet, which a
take-over replays first (R371). -/
def State.writeCheckpoint (s : State) : State :=
  let s := s.record 7 0 []
  { s with checkpoint :=
      { seq := s.journalSeq, slots := s.hwSlots, vcps := s.vcps, descs := s.queues.map (fun e => (e.1, (e.2.qctl, e.2.qstat)))
        pending := s.unmade } }

/-- A hart announces a change by its record. After every 4,096 records it writes a checkpoint. -/
def State.announce (s : State) (kind obj : Nat) (data : List DWord) : State :=
  let s := if s.journalSeq.toNat % 4096 = 4095 then s.writeCheckpoint else s
  { s.record kind obj data with unmade := s.unmade ++ [s.nextRecord kind obj data] }

/-- The change of a record has been made. -/
def State.settleRecord (s : State) (q : Nat) : State := { s with unmade := s.unmade.filter (·.seq.toNat != q) }

/-- The SEQ of a record, not made yet, that announces a change. -/
def State.announced (s : State) (kind obj : Nat) (data : List DWord) : Option Nat :=
  (s.unmade.find? (fun j => j.kind == kind && j.obj == obj && j.data == recordData data)).map (·.seq.toNat)

/-- A hart makes a change after its record: one that a hart has performed before, or else one that it performs now (R370, log entry
62). -/
def State.journalled (s : State) (kind obj : Nat) (data : List DWord) (change : State → State) : State :=
  match s.announced kind obj data with
  | some n => (change s).settleRecord n
  | none =>
    let s := s.announce kind obj data
    (change s).settleRecord s.journalSeq.toNat

/-- A hart performs the record of a change that it makes later. -/
def State.performRecord (s : State) (hart kind obj : Nat) (data : List DWord) : State :=
  if (s.hart hart).halted || !s.fwcActive.getLsbD hart || kind = 0 || 6 < kind then s else s.announce kind obj data

/-! ## Binding queues to slots (R369) -/

/-- The status of a binding and the state after it. -/
def State.bindSlot (s : State) (slot : Nat) (q : DWord) : Nat × State :=
  let old := Tbl.look s.hwSlots slot
  let busy := match old with
    | some o => s.begun.any (fun b => b.queue == o)
    | none => false
  if busy then (1, s)
  else if q == BitVec.allOnes 64 then (0, { s with hwSlots := Tbl.drop s.hwSlots slot })
  else if old == some q.toNat then (3, s)
  else if s.hwSlots.any (fun e => e.2 == q.toNat) then (2, s)
  else (0, ({ s with hwSlots := Tbl.put s.hwSlots slot q.toNat } : State).wakeFront)

/-- The record, not made yet, that announces a binding. -/
def State.bindRecord (s : State) (slot : Nat) (q : DWord) : Option Nat :=
  (s.unmade.find? (fun j =>
    j.obj == slot && (if q == BitVec.allOnes 64 then j.kind == 2 else j.kind == 1 && j.data.getD 0 0 == q))).map (·.seq.toNat)

/-- A hart binds or unbinds a slot. The record of the change comes first: one that the hart has performed before, or else one that it
performs now (R370, log entry 62). A binding that stands has its record settled. -/
def State.dispatch (s : State) (slot : Nat) (q : DWord) : Nat × State :=
  let r := s.bindSlot slot q
  match s.bindRecord slot q with
  | some n => (r.1, if r.1 = 0 || r.1 = 3 then r.2.settleRecord n else r.2)
  | none =>
    if r.1 != 0 then r
    else if q == BitVec.allOnes 64 then (0, s.journalled 2 slot [] (fun s => (s.bindSlot slot q).2))
    else (0, s.journalled 1 slot [q] (fun s => (s.bindSlot slot q).2))

def execAmzDispatch (rd rs1 rs2 : BitVec 5) (s : State) : Host.Outcome State Fault Refusal :=
  runAmz s rd (fun s h =>
    let q := h.get rs1
    let slot := h.get rs2
    if 255 < slot.toNat then .trap 24 slot
    else if q != BitVec.allOnes 64 && 4095 < q.toNat then .trap 24 q
    else
      let r := s.dispatch slot.toNat q
      .done (BitVec.ofNat 64 r.1) r.2)

/-- A hart binds a queue that holds no slot, with its record: to the lowest empty slot of its half, or to the lowest whose queue is
idle and has no packet (log entry 93). The queue answered has a slot or not. -/
def State.bindIn (s : State) (half q : Nat) : Bool × State :=
  let mine := (List.range 128).map (128 * half + ·)
  if s.hwSlots.any (fun e => e.2 == q) then (true, s)
  else
    let idle (n : Nat) : Bool := match Tbl.look s.hwSlots n with
      | none => true
      | some o => (s.queue o).count = 0 && !s.begun.any (fun b => b.queue == o)
    match (mine.find? (fun n => (Tbl.look s.hwSlots n).isNone)).or (mine.find? idle) with
    | none => (false, s)
    | some n => (true, s.journalled 1 n [BitVec.ofNat 64 q] (fun s => (s.bindSlot n (BitVec.ofNat 64 q)).2))

/-! ## Descriptors (R202, R207, R370) -/

/-- Firmware writes a descriptor: RDIDX is the front end's. -/
def State.writeDesc (s : State) (q : Nat) (d : Queue) : State :=
  let d := { d.clean with rdidx := (s.queue q).rdidx }
  (s.journalled 3 q [d.qctl.setWidth 64, d.qstat.setWidth 64] (fun s => s.setQueue q d)).wakeFront

/-- A supervisor writes QSTAT = 0. -/
def execQueueResume (q : Nat) (s : State) : Host.Outcome State Fault Refusal := .next (s.writeDesc q { s.queue q with qstat := 0 })

/-! ## Halting, heartbeat and take-over (R362, R363, R371) -/

/-- Halts the harts of a mask. -/
def State.haltHarts (s : State) (bits : BitVec 4) : State :=
  let s := { s with fwcHalted := s.fwcHalted ||| bits }
  ((List.range 4).filter (fun n => bits.getLsbD n)).foldl (fun s n => s.setHart n { s.hart n with halted := true }) s

/-- FWCCTL as a hart reads it. -/
def State.fwcctl (s : State) : Word := BitVec.ofNat 32 (2 ^ 8 * s.fwcActive.toNat + 2 ^ 4 * s.fwcHalted.toNat)

/-- A hart writes FWCCTL, in machine mode. -/
def State.writeFwcctl (s : State) (hart : Nat) (v : Word) : State :=
  if 4 ≤ hart || !(s.hart hart).machine || (s.hart hart).halted then s
  else ({ s with fwcActive := v.extractLsb' 8 4 } : State).haltHarts (v.extractLsb' 0 4)

/-- Whether some hart runs in machine mode, which may write the registers of the firmware space. -/
def State.machineHart (s : State) : Bool := (List.range 4).any (fun n => (s.hart n).machine && !(s.hart n).halted)

/-- FWCCTL.HALT, which some hart in machine mode writes. -/
def execFwcHalt (bits : BitVec 4) (s : State) : Host.Outcome State Fault Refusal :=
  .next (if s.machineHart then s.haltHarts bits else s)

/-- A register of the firmware space as a hart reads it: S2INV reads as zero (R363, R382). -/
def State.fwReg (s : State) (r : FwReg) : DWord :=
  match r with
  | .fwcctl => s.fwcctl.setWidth 64
  | .s2inv => 0

/-- A hart in machine mode reads a register of the firmware space into a register of its own. -/
def State.fwRegRead (s : State) (hart rd : Nat) (r : FwReg) : State :=
  if 4 ≤ hart || !(s.hart hart).machine || (s.hart hart).halted then s
  else s.setHart hart ((s.hart hart).set (BitVec.ofNat 5 rd) (s.fwReg r))

def execHeartbeat (hart : Nat) (s : State) : Host.Outcome State Fault Refusal :=
  if 4 ≤ hart || !s.fwcActive.getLsbD hart || (s.hart hart).halted then .next s
  else .next (s.setHart hart { s.hart hart with heart := (s.hart hart).heart + 1 })

/-- The hart that serves a half: its own, or a standby that has taken it over. -/
def State.serverOf (s : State) (half : Nat) : Nat :=
  if s.fwcActive.getLsbD half then half else if s.fwcActive.getLsbD (2 + half) then 2 + half else 3 - half

/-- PEND with some causes more, of a generation; its reserved bits are never set (R375). -/
def Vcp.causes (v : Vcp) (bits : DWord) (gen : BitVec 16) : DWord :=
  ((v.pend ||| bits) &&& 0x1F) ||| BitVec.ofNat 64 (2 ^ 48 * gen.toNat)

/-- The queues that a record of KIND 4 assigns: 16 from the first slot it names. -/
def recordQueues (d : Nat → DWord) : List (Nat × Nat) :=
  let first := bitsOf (d 0).toNat 31 16
  let n := min 16 (bitsOf (d 0).toNat 47 32 - first)
  (List.range n).map (fun i => (first + i, bitsOf (d (1 + i / 4)).toNat (16 * (i % 4) + 15) (16 * (i % 4))))

/-- The data of the record that assigns queues from a slot on: the VF's name, the first slot and the number of all, and 16 queues. -/
def vfmapData (name first : Nat) (queues : List Nat) : List DWord :=
  let q (i : Nat) : Nat := queues.getD (first + i) 0
  BitVec.ofNat 64 (name + 1 + 2 ^ 16 * first + 2 ^ 32 * queues.length)
    :: (List.range 4).map (fun i => BitVec.ofNat 64 (q (4 * i) + 2 ^ 16 * q (4 * i + 1) + 2 ^ 32 * q (4 * i + 2) + 2 ^ 48 * q (4 * i + 3)))

/-- A VCP under such a record: assigned to a VF with some of its queues, or unmapped when none is named. -/
def Vcp.assigned (v : Vcp) (d : Nat → DWord) : Vcp :=
  let name := bitsOf (d 0).toNat 15 0
  if name = 0 then { v with mapped := false }
  else
    { v with vf := some (name - 1), mapped := true
             qd := (recordQueues d).foldl (fun t e => Tbl.put t e.1 e.2) (if bitsOf (d 0).toNat 31 16 = 0 then [] else v.qd) }

/-- Applies a journalled change that was not made (R371); what its registers reserve stays zero (R7). A record that names nothing the
device has changes nothing. -/
def State.replay (s : State) (j : Journal) : State :=
  let d (i : Nat) : DWord := j.data.getD i 0
  let vcp := s.vcp j.obj
  if (if j.kind = 3 then 4096 else 256) ≤ j.obj then s
  else
    match j.kind with
    | 1 => if 4095 < (d 0).toNat then s else (s.bindSlot j.obj (d 0)).2
    | 2 => (s.bindSlot j.obj (BitVec.allOnes 64)).2
    | 3 => s.setQueue j.obj (Queue.clean { s.queue j.obj with qctl := (d 0).setWidth 32, qstat := (d 1).setWidth 32 })
    | 4 => s.setVcp j.obj (vcp.assigned d)
    | 5 => s.setVcp j.obj { vcp with st := (d 0).toNat % 4, vfgen := (d 1).setWidth 16 }
    | 6 => s.setVcp j.obj { vcp with pend := vcp.causes (d 0) ((d 1).setWidth 16) }
    | _ => s

/-- The object of a record: a change replaces what earlier records of its object have set. -/
def Journal.object (j : Journal) : Nat × Nat := (if j.kind = 2 then 1 else j.kind, j.obj)

/-- A record whose change stands, as it is applied once more behind an earlier one of its object that is made late: held interrupts, which
a guest may have taken since, are not held again. -/
def Journal.again (j : Journal) : Journal := if j.kind = 6 then { j with data := 0 :: j.data.drop 1 } else j

/-- Whether a record's change cannot be made yet: its slot holds a queue with a packet begun and not completed (R369). -/
def State.replayWaits (s : State) (j : Journal) : Bool :=
  (j.kind == 1 || j.kind == 2) && j.obj < 256
  && (s.bindSlot j.obj (if j.kind = 2 then BitVec.allOnes 64 else j.data.getD 0 0)).1 == 1

/-- The records from a SEQ on, up to the first whose CHK fails or whose SEQ breaks the series (R371). The ring's length bounds them. -/
def State.series (s : State) (q : Nat) : Nat → List Journal
  | 0 => []
  | n + 1 =>
    let j := s.recordAt q
    if j.seq.toNat != q || j.chk != j.check then [] else j :: s.series (q + 1) n

/-- Replays records in the order of the journal: a change that was not made is made now, and one that was made stands, and is applied
once more behind an earlier one of its object that is made now, so that the later record has the last word. What stands from the first
record that must wait is answered, with the objects of the changes made now. -/
def State.replayList (s : State) (redone : List (Nat × Nat)) : List Journal → State × List Journal × List (Nat × Nat)
  | [] => (s, [], redone)
  | j :: r =>
    let due := s.unmade.any (·.seq == j.seq)
    if !due && !redone.contains j.object then s.replayList redone r
    else if s.replayWaits j then (s, j :: r, redone)
    else if due then ((s.replay j).settleRecord j.seq.toNat).replayList (j.object :: redone) r
    else (s.replay j.again).replayList redone r

/-- Exchanges a KICK word with 0 and serves the queues it names: each is given a slot, from which the front end takes its packets. One
that finds none stays kicked (R374, log entry 93). -/
def State.scan (s : State) (vcp : Nat) : State :=
  let v := Tbl.at s.vcps vcp {}
  if v.kick == 0 then s
  else
    let s : State := { s with vcps := Tbl.put s.vcps vcp { v with kick := 0 } }
    (((List.range 32).filter (fun i => v.kick.getLsbD i)).foldl (fun (s : State) i =>
      match Tbl.look v.qd i with
      | none => s
      | some q =>
        let r := s.bindIn (vcp / 128) q
        if r.1 then r.2 else { s with vcps := Tbl.adjust s.vcps vcp (fun v => { v with kick := v.kick ||| onesAt 64 i 1 ||| onesAt 64 63 1 }) }) s).wakeFront

/-- SHA-512 extension of a measurement register (R384). -/
def State.extend (s : State) (n : Nat) (image : List Byte) : State :=
  let old := Tbl.at s.measure n (List.replicate 64 0)
  { s with measure := Tbl.put s.measure n (Config.sha512 (old ++ Config.sha512 image)) }

/-- The staged images that a standby is loaded with run once it takes over: their digests are extended before (R384). -/
def State.runStaged (s : State) (standby : Nat) : State :=
  let mine := s.staged.filter (s.hart standby).loaded.contains
  { mine.foldl (fun (s : State) i => s.extend 0 i) s with staged := s.staged.filter (fun i => !mine.contains i) }

/-- The end of a take-over: the KICK bits of the halves are scanned, and the standby serves them. -/
def State.finishTake (s : State) (standby partner : Nat) : State :=
  let mine : List Nat := (Tbl.keys s.vcps).filter (fun v => s.serverOf (v / 128) == partner)
  let s := mine.foldl (fun s v => s.scan v) s
  let s := s.runStaged standby
  let s := { s with fwcActive := (s.fwcActive &&& ~~~(BitVec.ofNat 4 (2 ^ partner))) ||| BitVec.ofNat 4 (2 ^ standby) }
  let s := s.setHart standby { s.hart standby with heart := (s.hart standby).heart + 1, loaded := [], taking := none }
  mine.foldl (fun s v => s.raise (some v) 4) s

/-- A take-over goes on with the replay, of the records it has read before and of those that the ring holds after them, and ends once
every record is replayed. -/
def State.takeOn (s : State) (standby : Nat) (t : Taking) : State :=
  let new := s.series t.next s.ringLen
  match s.replayList t.redone (t.left ++ new) with
  | (s, [], _) => s.finishTake standby t.partner
  | (s, left, redone) => s.setHart standby { s.hart standby with taking := some ⟨t.partner, left, t.next + new.length, redone⟩ }

/-- A take-over begins with the records whose changes the last checkpoint does not hold (R371). -/
def State.firstTaking (s : State) (partner : Nat) : Taking := ⟨partner, s.checkpoint.pending, s.checkpoint.seq.toNat + 1, []⟩

/-- A standby takes over the halves that a hart served: it halts the hart and replays the journal (R371). -/
def State.takeOver (s : State) (standby partner : Nat) : State :=
  (s.haltHarts (BitVec.ofNat 4 (2 ^ partner))).takeOn standby (s.firstTaking partner)

/-- The harts whose words a standby reads: its partner's, while that serves its half, and that of the other standby once it serves. -/
def State.watchedBy (s : State) (standby : Nat) : List Nat :=
  let other := 5 - standby
  (if s.fwcActive.getLsbD (standby - 2) then [standby - 2] else [])
  ++ (if s.fwcActive.getLsbD other && (s.serverOf 0 == other || s.serverOf 1 == other) then [other] else [])

/-- A standby's read of the words it watches, every 10 µs: it takes over from the first that it finds unchanged for 50 µs. CP2 watches
CP0 and CP3 CP1; a standby also watches the other once that serves (R362). A take-over under way goes on. -/
def execTakeover (standby : Nat) (s : State) : Host.Outcome State Fault Refusal :=
  if standby < 2 || 4 ≤ standby || (s.hart standby).halted then .next s
  else
    let h := s.hart standby
    let fresh (p : Nat) : DWord × Nat := match Tbl.look h.seen p with
      | some e => if e.1 == (s.hart p).heart then e else ((s.hart p).heart, s.timebase)
      | none => ((s.hart p).heart, s.timebase)
    let ps := s.watchedBy standby
    match h.taking, ps.find? (fun p => (fresh p).2 + 50000 ≤ s.timebase) with
    | some t, _ => .next (s.takeOn standby t)
    | none, some p => .next (s.takeOver standby p)
    | none, none => .next (s.setHart standby { h with seen := ps.map (fun p => (p, fresh p)) })

/-! ## Virtual command processors (R372 to R376) -/

/-- A doorbell write: one atomic OR into KICK, and a signal to the serving hart; nothing when the doorbell is not mapped. -/
def execNotify (vcp : Nat) (value : BitVec 32) (s : State) : Host.Outcome State Fault Refusal :=
  let v := s.vcp vcp
  if !v.mapped then .next s
  else
    let s := s.setVcp vcp { v with kick := v.kick ||| onesAt 64 (value.toNat % 32) 1 ||| onesAt 64 63 1 }
    let h := s.serverOf (vcp / 128)
    .next (s.setHart h { s.hart h with irq := true })

def execVcpScan (hart vcp : Nat) (s : State) : Host.Outcome State Fault Refusal :=
  .next (if (s.hart hart).halted then s else s.scan vcp)

/-- Firmware unmaps a page: doorbell and page translations go, and KICK is scanned once more. -/
def execVcpUnmap (vcp : Nat) (s : State) : Host.Outcome State Fault Refusal :=
  .next ((s.journalled 4 vcp [0] (fun s => s.setVcp vcp { s.vcp vcp with mapped := false })).scan vcp)

/-- A function-level reset advances the generation of every page of the VF. -/
def execVfReset (vcp : Nat) (s : State) : Host.Outcome State Fault Refusal :=
  let vf := (s.vcp vcp).vf
  let pages := if vf.isNone then [vcp] else (s.vcps.filter (fun e => e.2.vf == vf)).map (·.1)
  .next (pages.foldl (fun s n =>
    let v := s.vcp n
    s.journalled 5 n [BitVec.ofNat 64 v.st, (v.vfgen + 1).setWidth 64] (fun s => s.setVcp n { s.vcp n with vfgen := v.vfgen + 1 })) s)

/-- PEND with a cause and the generation of it. -/
def Vcp.cause (v : Vcp) (c : Cause) : DWord := v.causes (onesAt 64 c.bit 1) c.gen

/-- Delivers the oldest cause by the first row of R376 that holds. -/
def State.deliverCause (s : State) : State :=
  match s.causes with
  | [] => s
  | c :: r =>
    let s := { s with causes := r }
    let v := s.vcp c.vcp
    let dropped : State := s.setVcp c.vcp { v with drop := if v.drop == BitVec.allOnes 64 then v.drop else v.drop + 1 }
    if c.gen != v.vfgen then dropped
    else
      match v.st with
      | 2 => s.journalled 6 c.vcp [onesAt 64 c.bit 1, c.gen.setWidth 64] (fun s => s.setVcp c.vcp { v with pend := v.cause c })
      | 3 => dropped
      | _ => { s.setVcp c.vcp { v with pend := v.cause c } with irqs := s.irqs ++ [.msix c.vcp] }

/-- Firmware changes a STATE; a paused VF that resumes is sent one message when PEND ≠ 0. -/
def State.setVcpState (s : State) (n st : Nat) : State :=
  let v := s.vcp n
  let s := s.journalled 5 n [BitVec.ofNat 64 st, v.vfgen.setWidth 64] (fun s => s.setVcp n { v with st := st })
  if v.st = 2 && st ≤ 1 && v.pend != 0 then { s with irqs := s.irqs ++ [.msix n] } else s

/-- The guest exchanges PEND with 0, and gets what it held; a page that is not mapped is not reached (R376). -/
def State.takePend (s : State) (n : Nat) : State :=
  let v := s.vcp n
  if !v.mapped then s
  else { s.setVcp n { v with pend := 0 } with irqs := s.irqs ++ [.answer ((v.vf.getD 0) / 256) (leBytes 8 v.pend.toNat)] }

/-! ## Semaphores (R379) -/

/-- Owner code of a reader: port A, port B, firmware. -/
def semOwner (port : Nat) : Nat := port + 1

/-- A semaphore's register: HELD and OWNER. -/
def Sem.word (x : Sem) : Word := BitVec.ofNat 32 (if x.owner = 0 then 0 else 2 ^ 31 + 2 ^ 29 * x.owner)

/-- The ports that a read comes from: 3 stands for both in one cycle. -/
def readers (port : Nat) : List Nat := if port = 3 then [0, 1] else if port < 2 then [port] else []

/-- A read by port A (0), port B (1) or firmware (2), or by both ports in one cycle (3): a free semaphore is acquired, and the ports
are answered with the new state. -/
def State.semRead (s : State) (port sem : Nat) : State :=
  let x := Tbl.at s.hsem sem {}
  if 32 ≤ sem || 4 ≤ port then s
  else
    let winner := if port = 3 then x.lastLoser else semOwner port
    let loser := if port = 3 then 3 - x.lastLoser else x.lastLoser
    let y : Sem := if x.owner = 0 then { owner := winner, lastLoser := loser } else x
    { s with hsem := if x.owner = 0 then Tbl.put s.hsem sem y else s.hsem
             irqs := s.irqs ++ (readers port).map (fun p => .answer p (leBytes 4 y.word.toNat)) }

def execHsemAcquire (port sem : Nat) (s : State) : Host.Outcome State Fault Refusal := .next (s.semRead port sem)

/-- A write: of 0 by the owner it releases, and any other is ignored. -/
def State.semWrite (s : State) (port sem : Nat) (v : Word) : State :=
  let x := Tbl.at s.hsem sem {}
  if v == 0 && x.owner = semOwner port && port < 3 then { s with hsem := Tbl.put s.hsem sem { x with owner := 0 } } else s

def execHsemRelease (port sem : Nat) (s : State) : Host.Outcome State Fault Refusal := .next (s.semWrite port sem 0)

/-- A host port's link goes down. -/
def execLinkDown (port : Nat) (s : State) : Host.Outcome State Fault Refusal :=
  if 2 ≤ port then .next s
  else .next { s with hsem := Tbl.mapAll (fun _ x => if x.owner = semOwner port then { x with owner := 0 } else x) s.hsem }

/-- BAR0 of a port: RDY_MAP at 0x000, the semaphores from 0x100. -/
def State.barRead (s : State) (port off : Nat) : State :=
  if 2 ≤ port then s
  else if off = 0 then { s with irqs := s.irqs ++ [.answer port (leBytes 8 s.rdyMap.toNat)] }
  else if 0x100 ≤ off && off < 0x180 && off % 4 = 0 then s.semRead port ((off - 0x100) / 4) else s

def State.barWrite (s : State) (port off : Nat) (v : Word) : State :=
  if port < 2 && 0x100 ≤ off && off < 0x180 && off % 4 = 0 then s.semWrite port ((off - 0x100) / 4) v else s

/-! ## Pages of virtual command processors (R372) -/

/-- The port whose VF a page is assigned to (R377). -/
def Vcp.port (v : Vcp) : Nat := (v.vf.getD 0) / 256

/-- A guest reads bytes of its page, or writes them; a page that is not mapped is not reached. -/
def State.vcpRead (s : State) (n off k : Nat) : State :=
  if !(s.vcp n).mapped then s
  else { s with irqs := s.irqs ++ [.answer (s.vcp n).port ((List.range k).map (fun i => s.vcpByte n (off + i)))] }

def State.vcpWrite (s : State) (n off : Nat) (bs : List Byte) : State :=
  if !(s.vcp n).mapped then s
  else (((List.range bs.length).zip bs).foldl (fun (s : State) e => s.vcpSetByte n (off + e.1) e.2) s).wakeFront

/-! ## Atomics of the host on device memory (R378) -/

/-- A port completes FetchAdd (0), Swap (1) or CAS (2) of 4 or 8 bytes, at the home of the line, and answers with the old value; any
other request is unsupported. -/
def State.hostAtomic (s : State) (port op n pa x y : Nat) : State :=
  if !(n = 4 || n = 8) || 2 < op || pa % n ≠ 0 || !covered pa || isSystem pa then { s with irqs := s.irqs ++ [.unsupported port] }
  else
    let bs := (List.range n).map (fun i => s.ownByte (pa + i))
    let old := leNat bs
    let new := match op with
      | 0 => (old + x) % 2 ^ (8 * n)
      | 1 => x
      | _ => if old = y then x else old
    { s.deviceStore pa (leBytes n new) with irqs := s.irqs ++ [.answer port bs] }

/-! ## Mailbox commands (R380) -/

/-- Completes a command with a status and data. -/
def State.reply (s : State) (port status : Nat) (data : List Byte) : State := { s with mbox := Tbl.put s.mbox port (status, data) }

/-- A command of a port: the functions it needs, its class, its status and the state after status 0. -/
def command (s : State) (port : Nat) (needs : List Nat) (management : Bool) (act : State → Nat × State) :
    Host.Outcome State Fault Refusal :=
  if !needs.all (fun b => s.rdyMap.getLsbD b) then .next (s.reply port 0x0D [])
  else if management && (Tbl.at s.hsem 0 {}).owner != semOwner port then .next (s.reply port 0x0E [])
  else
    match act s with
    | (0, t) => .next t
    | (code, _) => .next (s.reply port code [])

/-- Bits of RDY_MAP. -/
def rdySEC : Nat := 17
def rdyFWC : Nat := 18

def execQuote (port : Nat) (nonce : List Byte) (s : State) : Host.Outcome State Fault Refusal :=
  command s port [rdyFWC, rdySEC] false (fun s =>
    let body := (List.range 8).flatMap (fun n => Tbl.at s.measure n (List.replicate 64 0)) ++ nonce
    (0, s.reply port 0 (body ++ Config.attest body)))

/-- Every line that a cache holds under a key ID is written back and leaves it. -/
def State.dropKey (s : State) (keyId : Nat) : State :=
  let held := s.cores.flatMap (fun e => (e.2.l1.filter (fun l => l.2.key == keyId)).map (fun l => (e.1, l.1)))
  let s := held.foldl (fun s l => s.evictL1 l.1 l.2) s
  ((s.l2.filter (fun e => e.2.key == keyId)).map (·.1)).foldl (fun s l => s.evictL2 l) s

/-- HBM lines stay as they were written: `lineKey` holds the key of each (R261). -/
def execKeyload (port keyId : Nat) (wrapped : List Byte) (s : State) : Host.Outcome State Fault Refusal :=
  command s port [rdyFWC, rdySEC] true (fun s =>
    if keyId = 0 || 1023 < keyId then (0x10, s)
    else
      match Config.unwrapKey wrapped with
      | none => (0x11, s)
      | some k => (0, ({ s.dropKey keyId with ktab := Tbl.put s.ktab keyId k } : State).reply port 0 []))

/-- Lines in a way of a die are written back and invalidated. -/
def State.flushWay (s : State) (d w : Nat) : State :=
  ((s.l2.filter (fun e => homeDie (64 * e.1) == d && e.2.way == w)).map (·.1)).foldl (fun s l => s.evictL2 l) s

/-- Ways leave a partition's reservation (R358). -/
def State.unreserve (s : State) (part : Nat) : State :=
  (List.range 4).foldl (fun s d =>
    let mine := ((s.die d).ways.filter (fun e => e.2 == wayOfPart part)).map (·.1)
    let s := mine.foldl (fun s w => s.flushWay d w) s
    s.modDie d (fun y => { y with ways := y.ways.filter (fun e => e.2 != wayOfPart part) })) s

/-- Cores of a partition. -/
def Partition.cores (p : Partition) : List Nat :=
  (p.rmt.filter (fun e => e.2.getLsbD 15)).map (fun e => bitsOf e.2.toNat 7 0)

/-- Whether the pairs of a PART command may form the partition: whole pairs of enabled cores that no other partition holds, and
no team stands on a core that joins or leaves (R240, R357). -/
def State.partOk (s : State) (p : PartCmd) : Bool :=
  let old := Tbl.at s.parts p.part {}
  let cores := p.leaders.flatMap (fun c => [c, c + 1])
  p.part < 128 && decide p.leaders.Nodup && !old.isSealed
  && p.leaders.all (fun c => c % 2 == 0 && c < Config.nCores
      && (match s.partOfPair (c / 2) with | some q => q == p.part | none => true))
  && cores.all (fun c => 56 ≤ (s.core c).banks.length)
  && old.cores.all (fun c => (s.teamsOn c).isEmpty)

/-- The new table of a partition; the cores that leave it are scrubbed. -/
def State.buildPart (s : State) (p : PartCmd) : State :=
  let old := Tbl.at s.parts p.part {}
  let cores := p.leaders.flatMap (fun c => [c, c + 1])
  let s := (old.cores.filter (fun c => !cores.contains c)).foldl (fun s c => s.scrub c) s
  let s := if p.leaders.isEmpty then s.unreserve p.part else s
  let rmt := ((List.range cores.length).zip cores).map (fun e => (e.1, BitVec.ofNat 16 (2 ^ 15 + e.2)))
  let new : Partition :=
    { built := !p.leaders.isEmpty, rmt := rmt, ncores := cores.length, root := p.root, keys := p.keys, isSealed := false }
  { s with parts := Tbl.put s.parts p.part new }

def execPartOp (port : Nat) (p : PartCmd) (s : State) : Host.Outcome State Fault Refusal :=
  command s port (rdyFWC :: p.leaders.map (fun c => 12 + dieOf c)) true (fun s =>
    if !s.partOk p then (0x0D, s) else (0, (s.buildPart p).reply port 0 []))

/-- A partition of whole clusters (R357). -/
def Partition.wholeClusters (p : Partition) : Bool :=
  p.cores.all (fun c => ((List.range 8).map (8 * clusterOf c + ·)).all p.cores.contains)

/-- Sealing reserves for the partition the ways that its contexts hold, and fixes their levels (R359). -/
def State.sealPart (s : State) (part : Nat) : State :=
  let s := { s with
    parts := Tbl.adjust s.parts part (fun p => { p with isSealed := true })
    ctxs := s.ctxs.map (fun (e : Nat × Ctx) =>
      if e.2.part == part then (e.1, { e.2 with wayGrant := [], wylent := [], pendingLevels := none }) else e) }
  (List.range 4).foldl (fun s d => s.modDie d (fun y => { y with
    ways := y.ways.map (fun e => if e.2 < 4096 && (s.ctx e.2).part == part then (e.1, wayOfPart part) else e)
    lent := y.lent.filter (fun e => (s.ctx e.2).part != part) })) s

def State.unsealPart (s : State) (part : Nat) : State :=
  ({ s with parts := Tbl.adjust s.parts part (fun p => { p with isSealed := false }) } : State).unreserve part

def execSealOp (port part : Nat) (on : Bool) (s : State) : Host.Outcome State Fault Refusal :=
  command s port [rdyFWC] true (fun s =>
    let p := Tbl.at s.parts part {}
    if !p.built || (on && !p.wholeClusters) then (0x0D, s)
    else (0, (if on then (if p.isSealed then s else s.sealPart part) else s.unsealPart part).reply port 0 []))

/-- Assigns a VCP and its queues to a VF of a port; VFs of port B are numbered from 256. A record names 16 queues. -/
def execVfmap (port vcp vf : Nat) (queues : List Nat) (s : State) : Host.Outcome State Fault Refusal :=
  command s port [rdyFWC] true (fun s =>
    if 256 ≤ vcp || 255 ≤ vf || 32 < queues.length || queues.any (4096 ≤ ·) then (0x0D, s)
    else
      let name := 256 * port + vf
      let part (s : State) (first : Nat) : State :=
        let d := vfmapData name first queues
        s.journalled 4 vcp d (fun s => s.setVcp vcp ((s.vcp vcp).assigned (fun i => d.getD i 0)))
      let s := part s 0
      (0, (if 16 < queues.length then part s 16 else s).reply port 0 []))

def execFwupdate (port : Nat) (image signature : List Byte) (s : State) : Host.Outcome State Fault Refusal :=
  command s port [rdyFWC, rdySEC] true (fun s =>
    if !Config.signatureOk image signature then (0x0F, s)
    else (0, ({ s with staged := s.staged ++ [image] } : State).reply port 0 []))

/-! ## The save image and freed entries (R349, R355, R370, R376, R390) -/

/-- A queue's descriptor changes, with its record first. -/
def State.putDesc (s : State) (n : Nat) (q : Queue) : State :=
  s.journalled 3 n [q.qctl.setWidth 64, q.qstat.setWidth 64] (fun s => s.setQueue n q)

/-- The page of a VF that has come with its context: its KICK, PEND, DROP, VFGEN and STATE, in the page that firmware has assigned here. -/
def State.putPage (s : State) (n : Nat) (v : Vcp) : State :=
  let s := s.journalled 5 n [BitVec.ofNat 64 v.st, v.vfgen.setWidth 64] (fun s => s.setVcp n { s.vcp n with st := v.st, vfgen := v.vfgen })
  let s := s.journalled 6 n [v.pend, v.pend >>> 48] (fun s => s.setVcp n { s.vcp n with pend := v.pend &&& pendMask })
  s.setVcp n { s.vcp n with kick := v.kick, drop := v.drop }

/-- What firmware copies of a context that has been put away: its save image (R355, R390). -/
def State.imageOf (s : State) (ctx : Nat) : Image :=
  { ctx := s.ctx ctx
    grids := s.grids.filter (fun e => e.2.ctx == ctx)
    queues := s.queues.filter (fun e => queueCtx e.2 == ctx)
    begun := s.begun.filter (fun b => queueCtx (s.queue b.queue) == ctx)
    vcps := s.vcps.filter (fun e => (Tbl.vals e.2.qd).any (fun q => queueCtx (s.queue q) == ctx))
    setups := s.setups.filter (fun m => m.dctx.toNat == ctx) }

/-- A set-up message that the source of a migration has performed comes with the image (R390): a collective can match it here. -/
def State.takeLate (s : State) (m : Msg) : State := { s with setups := s.setups ++ [m], received := s.received ++ [msgName m] }

/-- A device takes the save image of a context in an entry that holds no grid: every name in it is made new, its queues name the
entry, the pages of its VF and the set-ups performed at the source come with it, and it runs once firmware has enabled it. -/
def State.takeImage (s : State) (ctx : Nat) (i : Image) : State :=
  if s.grids.any (fun e => e.2.ctx == ctx) || !(s.ctxTeams ctx).isEmpty then s
  else
    let n := s.ids
    let s := s.setCtx ctx { i.ctx with
      part := (s.ctx ctx).part, run := .saved, arriving := true, movedTo := none, migrate := none, merged := none
      saved := i.ctx.saved.map (fun t => t.renamed n) }
    let own (q : Queue) : Queue := { q with qctl := (q.qctl &&& 0x3000FF) ||| BitVec.ofNat 32 (2 ^ 8 * ctx) }
    let s := i.queues.foldl (fun s e => s.putDesc e.1 (own e.2).clean) s
    let s := i.vcps.foldl (fun s e => s.putPage e.1 e.2) s
    let s := i.setups.foldl (fun s m => s.takeLate { m with dctx := BitVec.ofNat 12 ctx, ddev := s.devId }) s
    State.passOn { s with
      ids := n + i.names
      grids := i.grids.foldl (fun t e => Tbl.put t (e.1 + n) { e.2 with ctx := ctx, live := e.2.live.map (· + n) }) s.grids
      begun := s.begun ++ i.begun.map (fun b => { b with grid := b.grid + n }) }

/-- Firmware frees the entry of a context that has moved: its queues are unbound and cleared, each change recorded first, and no
translation of it stays cached (R370, R390). A boundary that waited for its beat group waits no more. -/
def State.freeContext (s : State) (ctx : Nat) : State :=
  if (s.ctx ctx).run != .moved then s
  else
    let gone := (s.queues.filter (fun e => queueCtx e.2 == ctx)).map (·.1)
    let s := { s with
      ctxs := Tbl.drop s.ctxs ctx
      grids := s.grids.filter (fun e => e.2.ctx != ctx)
      begun := s.begun.filter (fun b => !gone.contains b.queue)
      setups := s.setups.filter (fun m => m.dctx.toNat != ctx) }
    let slots := (s.hwSlots.filter (fun e => gone.contains e.2)).map (·.1)
    let s := slots.foldl (fun s n => s.journalled 2 n [] (fun s => (s.bindSlot n (BitVec.allOnes 64)).2)) s
    let s := gone.foldl (fun s n => s.journalled 3 n [0, 0] (fun s => { s with queues := Tbl.drop s.queues n })) s
    (s.dropTlbs (fun e => e.ctx == ctx)).passOn

/-! ## S2INV (R382) -/

/-- A hart in machine mode writes S2INV: every cached translation built through stage 2 of the partition's contexts goes, at every core
and cluster. -/
def execS2inv (value : BitVec 64) (s : State) : Host.Outcome State Fault Refusal :=
  let part := bitsOf value.toNat 7 1
  if !(Tbl.at s.parts part {}).built || !s.machineHart then .next s
  else .next (s.dropTlbs (fun t => (s.ctx t.ctx).part == part))

/-! ## Boot and failures (R240, R383, R384) -/

/-- The banks of a core that pass their test. -/
def mapOut (faulty : List (Nat × Nat)) (c : Nat) : List Nat := (List.range 64).filter (fun b => !faulty.contains (c, b))

/-- Measures the images in order; whether every signature verifies. -/
def State.measureImages (s : State) : Nat → List (List Byte × List Byte) → Bool × State
  | _, [] => (true, s)
  | n, i :: r =>
    let t := (s.extend (n % 8) i.1).measureImages (n + 1) r
    (Config.signatureOk i.1 i.2 && t.1, t.2)

/-- At reset the device maps out its faulty banks and checks its firmware: images of which one fails do not run. Functions then become
ready one by one (R383). -/
def execBoot (faulty : List (Nat × Nat)) (images : List (List Byte × List Byte)) (s : State) : Host.Outcome State Fault Refusal :=
  if s.rdyMap != 0 || s.fwRuns then .next s
  else
    let bad := faulty.foldl (fun a e => insertSorted e.1 a) []
    let s := bad.foldl (fun s c => s.modCore c (fun k => { k with banks := mapOut faulty c })) s
    let r := s.measureImages 0 images
    .next { r.2 with fwRuns := r.1 && !images.isEmpty }

/-- A function of RDY_MAP becomes ready, and software may use it: FWC only with firmware that passed its check, and a fabric port
once it is trained (R383, R384). -/
def State.ready (s : State) (bit : Nat) : State :=
  if 52 ≤ bit || (bit = rdyFWC && !s.fwRuns) then s
  else
    { s with rdyMap := s.rdyMap ||| onesAt 64 bit 1
             portsUp := if 20 ≤ bit then s.portsUp ||| onesAt 32 (bit - 20) 1 else s.portsUp }

/-- A function fails: its bit clears, and each port raises its device interrupt. A fabric port that fails is down, and
what was in flight on it goes again (R388). -/
def execFunctionFailure (bit : Nat) (s : State) : Host.Outcome State Fault Refusal :=
  if 52 ≤ bit || !s.rdyMap.getLsbD bit then .next s
  else
    let s := { s with rdyMap := s.rdyMap &&& ~~~(onesAt 64 bit 1), irqs := s.irqs ++ [.device 0, .device 1] }
    .next (if 20 ≤ bit then s.losePort (bit - 20) else s)

end Sys2Proof.Machine
end

