-- ==== Sys2Proof/Machine/Dispatch.lean ====
section
/-!
DEFINITION. One arm per instruction of the table: the meaning of each.
-/
namespace Sys2Proof.Machine

def exec (i : Instr) (s : State) : Host.Outcome State Fault Refusal :=
  match i with
  | .iadd f => Sys2Proof.Machine.execIadd f s
  | .isub f => Sys2Proof.Machine.execIsub f s
  | .addc f => Sys2Proof.Machine.execAddc f s
  | .imul f => Sys2Proof.Machine.execImul f s
  | .imulh f => Sys2Proof.Machine.execImulh f s
  | .imad f => Sys2Proof.Machine.execImad f s
  | .iabs f => Sys2Proof.Machine.execIabs f s
  | .ineg f => Sys2Proof.Machine.execIneg f s
  | .imin f => Sys2Proof.Machine.execImin f s
  | .imax f => Sys2Proof.Machine.execImax f s
  | .iclamp f => Sys2Proof.Machine.execIclamp f s
  | .shl f => Sys2Proof.Machine.execShl f s
  | .shr f => Sys2Proof.Machine.execShr f s
  | .sar f => Sys2Proof.Machine.execSar f s
  | .rotl f => Sys2Proof.Machine.execRotl f s
  | .andOp f => Sys2Proof.Machine.execAndOp f s
  | .orOp f => Sys2Proof.Machine.execOrOp f s
  | .xorOp f => Sys2Proof.Machine.execXorOp f s
  | .andn f => Sys2Proof.Machine.execAndn f s
  | .blut f => Sys2Proof.Machine.execBlut f s
  | .popc f => Sys2Proof.Machine.execPopc f s
  | .clz f => Sys2Proof.Machine.execClz f s
  | .ctz f => Sys2Proof.Machine.execCtz f s
  | .brev f => Sys2Proof.Machine.execBrev f s
  | .bfx f => Sys2Proof.Machine.execBfx f s
  | .bfi f => Sys2Proof.Machine.execBfi f s
  | .bperm f => Sys2Proof.Machine.execBperm f s
  | .icmp f => Sys2Proof.Machine.execIcmp f s
  | .isel f => Sys2Proof.Machine.execIsel f s
  | .lea f => Sys2Proof.Machine.execLea f s
  | .mov f => Sys2Proof.Machine.execMov f s
  | .movi f => Sys2Proof.Machine.execMovi f s
  | .tidx f => Sys2Proof.Machine.execTidx f s
  | .fadd f => Sys2Proof.Machine.execFadd f s
  | .fsub f => Sys2Proof.Machine.execFsub f s
  | .fmul f => Sys2Proof.Machine.execFmul f s
  | .ffma f => Sys2Proof.Machine.execFfma f s
  | .fmin f => Sys2Proof.Machine.execFmin f s
  | .fmax f => Sys2Proof.Machine.execFmax f s
  | .fcmp f => Sys2Proof.Machine.execFcmp f s
  | .fsel f => Sys2Proof.Machine.execFsel f s
  | .fclass f => Sys2Proof.Machine.execFclass f s
  | .frnd f => Sys2Proof.Machine.execFrnd f s
  | .hadd2 f => Sys2Proof.Machine.execHadd2 f s
  | .hmul2 f => Sys2Proof.Machine.execHmul2 f s
  | .hfma2 f => Sys2Proof.Machine.execHfma2 f s
  | .fdot2 f => Sys2Proof.Machine.execFdot2 f s
  | .fcvt f => Sys2Proof.Machine.execFcvt f s
  | .i2f f => Sys2Proof.Machine.execI2f f s
  | .f2i f => Sys2Proof.Machine.execF2i f s
  | .bxpack f => Sys2Proof.Machine.execBxpack f s
  | .bxunpack f => Sys2Proof.Machine.execBxunpack f s
  | .hcvt f => Sys2Proof.Machine.execHcvt f s
  | .frcp f => Sys2Proof.Machine.execFrcp f s
  | .frsq f => Sys2Proof.Machine.execFrsq f s
  | .fsqrt f => Sys2Proof.Machine.execFsqrt f s
  | .fex2 f => Sys2Proof.Machine.execFex2 f s
  | .flg2 f => Sys2Proof.Machine.execFlg2 f s
  | .fsin f => Sys2Proof.Machine.execFsin f s
  | .fcos f => Sys2Proof.Machine.execFcos f s
  | .ftanh f => Sys2Proof.Machine.execFtanh f s
  | .vote f => Sys2Proof.Machine.execVote f s
  | .ballot f => Sys2Proof.Machine.execBallot f s
  | .matchOp f => Sys2Proof.Machine.execMatchOp f s
  | .shfl f => Sys2Proof.Machine.execShfl f s
  | .scan f => Sys2Proof.Machine.execScan f s
  | .lred f => Sys2Proof.Machine.execLred f s
  | .lpart f => Sys2Proof.Machine.execLpart f s
  | .umov f => Sys2Proof.Machine.execUmov f s
  | .chopen f => Sys2Proof.Machine.execChopen f s
  | .chclose f => Sys2Proof.Machine.execChclose f s
  | .barArrive f => Sys2Proof.Machine.execBarArrive f s
  | .barWait f => Sys2Proof.Machine.execBarWait f s
  | .barSync f => Sys2Proof.Machine.execBarSync f s
  | .dmake f => Sys2Proof.Machine.execDmake f s
  | .dconst f => Sys2Proof.Machine.execDconst f s
  | .dld f => Sys2Proof.Machine.execDld f s
  | .dst f => Sys2Proof.Machine.execDst f s
  | .dadd f => Sys2Proof.Machine.execDadd f s
  | .dsub f => Sys2Proof.Machine.execDsub f s
  | .dmul f => Sys2Proof.Machine.execDmul f s
  | .dmax f => Sys2Proof.Machine.execDmax f s
  | .dmin f => Sys2Proof.Machine.execDmin f s
  | .dfma f => Sys2Proof.Machine.execDfma f s
  | .dscale f => Sys2Proof.Machine.execDscale f s
  | .doffs f => Sys2Proof.Machine.execDoffs f s
  | .dcond f => Sys2Proof.Machine.execDcond f s
  | .dtag f => Sys2Proof.Machine.execDtag f s
  | .dalign f => Sys2Proof.Machine.execDalign f s
  | .dmom f => Sys2Proof.Machine.execDmom f s
  | .dqnt f => Sys2Proof.Machine.execDqnt f s
  | .dcdf f => Sys2Proof.Machine.execDcdf f s
  | .dmix f => Sys2Proof.Machine.execDmix f s
  | .ld f => Sys2Proof.Machine.execLd f s
  | .st f => Sys2Proof.Machine.execSt f s
  | .ldc f => Sys2Proof.Machine.execLdc f s
  | .pref f => Sys2Proof.Machine.execPref f s
  | .atom f => Sys2Proof.Machine.execAtom f s
  | .atomcas f => Sys2Proof.Machine.execAtomcas f s
  | .red f => Sys2Proof.Machine.execRed f s
  | .fence f => Sys2Proof.Machine.execFence f s
  | .racq f => Sys2Proof.Machine.execRacq f s
  | .tcopy f x => Sys2Proof.Machine.execTcopy f x s
  | .tcopyx f x => Sys2Proof.Machine.execTcopyx f x s
  | .tseal f => Sys2Proof.Machine.execTseal f s
  | .tlay f x => Sys2Proof.Machine.execTlay f x s
  | .tlayGrid f x => Sys2Proof.Machine.execTlayGrid f x s
  | .mma f x => Sys2Proof.Machine.execMma f x s
  | .mzero f => Sys2Proof.Machine.execMzero f s
  | .maccrd f => Sys2Proof.Machine.execMaccrd f s
  | .maccwr f => Sys2Proof.Machine.execMaccwr f s
  | .bobj f => Sys2Proof.Machine.execBobj f s
  | .bstat f => Sys2Proof.Machine.execBstat f s
  | .jmp f => Sys2Proof.Machine.execJmp f s
  | .br f => Sys2Proof.Machine.execBr f s
  | .brx f => Sys2Proof.Machine.execBrx f s
  | .call f => Sys2Proof.Machine.execCall f s
  | .callR f => Sys2Proof.Machine.execCallR f s
  | .ret f => Sys2Proof.Machine.execRet f s
  | .retFault f => Sys2Proof.Machine.execRetFault f s
  | .exit f => Sys2Proof.Machine.execExit f s
  | .park f => Sys2Proof.Machine.execPark f s
  | .cbr f x => Sys2Proof.Machine.execCbr f x s
  | .mjoin f => Sys2Proof.Machine.execMjoin f s
  | .mleave f => Sys2Proof.Machine.execMleave f s
  | .mvote f => Sys2Proof.Machine.execMvote f s
  | .sfence f => Sys2Proof.Machine.execSfence f s
  | .ccoll f x => Sys2Proof.Machine.execCcoll f x s
  | .sysr f => Sys2Proof.Machine.execSysr f s
  | .sysw f => Sys2Proof.Machine.execSysw f s
  | .tlbinv f => Sys2Proof.Machine.execTlbinv f s
  | .loopWrite f => Sys2Proof.Machine.execLoopWrite f s
  | .msetWrite f => Sys2Proof.Machine.execMsetWrite f s
  | .pgbudgetWrite f => Sys2Proof.Machine.execPgbudgetWrite f s
  | .beat f => Sys2Proof.Machine.execBeat f s
  | .launch f => Sys2Proof.Machine.execLaunch f s
  | .trap f => Sys2Proof.Machine.execTrap f s
  | .brk f => Sys2Proof.Machine.execBrk f s
  | .nop f => Sys2Proof.Machine.execNop f s
  | .hint f => Sys2Proof.Machine.execHint f s
  | .longLatencyComplete core slot op word => Sys2Proof.Machine.execLongLatencyComplete core slot op word s
  | .contextKill ctx => Sys2Proof.Machine.execContextKill ctx s
  | .passForm core pipe => Sys2Proof.Machine.execPassForm core pipe s
  | .parkDue core slot => Sys2Proof.Machine.execParkDue core slot s
  | .spill core => Sys2Proof.Machine.execSpill core s
  | .tempRefreshSwitch core pipe => Sys2Proof.Machine.execTempRefreshSwitch core pipe s
  | .rowRefresh core row => Sys2Proof.Machine.execRowRefresh core row s
  | .threadFree core slot => Sys2Proof.Machine.execThreadFree core slot s
  | .launchPacket q => Sys2Proof.Machine.execLaunchPacket q s
  | .waitSignal q => Sys2Proof.Machine.execWaitSignal q s
  | .writeSignal q => Sys2Proof.Machine.execWriteSignal q s
  | .barrierAnd q => Sys2Proof.Machine.execBarrierAnd q s
  | .loopConfig q => Sys2Proof.Machine.execLoopConfig q s
  | .signalRecheck q => Sys2Proof.Machine.execSignalRecheck q s
  | .queueResume q => Sys2Proof.Machine.execQueueResume q s
  | .teamPlace grid team => Sys2Proof.Machine.execTeamPlace grid team s
  | .teamEnd team => Sys2Proof.Machine.execTeamEnd team s
  | .gridComplete grid => Sys2Proof.Machine.execGridComplete grid s
  | .allocPass => Sys2Proof.Machine.execAllocPass s
  | .ncPreempt ctx core => Sys2Proof.Machine.execNcPreempt ctx core s
  | .watchdogExpire core => Sys2Proof.Machine.execWatchdogExpire core s
  | .preemptRequest ctx => Sys2Proof.Machine.execPreemptRequest ctx s
  | .passCut core pipe => Sys2Proof.Machine.execPassCut core pipe s
  | .preemptChoose ctx cluster => Sys2Proof.Machine.execPreemptChoose ctx cluster s
  | .drainDeadline ctx => Sys2Proof.Machine.execDrainDeadline ctx s
  | .restore ctx partition => Sys2Proof.Machine.execRestore ctx partition s
  | .tempSample core celsius => Sys2Proof.Machine.execTempSample core celsius s
  | .thermalMigrate pair => Sys2Proof.Machine.execThermalMigrate pair s
  | .liveMigrate ctx dev newCtx => Sys2Proof.Machine.execLiveMigrate ctx dev newCtx s
  | .copyCheck id => Sys2Proof.Machine.execCopyCheck id s
  | .leaveRequest id => Sys2Proof.Machine.execLeaveRequest id s
  | .leaveGrant die => Sys2Proof.Machine.execLeaveGrant die s
  | .copyDeliver id => Sys2Proof.Machine.execCopyDeliver id s
  | .copyUnitWrite id => Sys2Proof.Machine.execCopyUnitWrite id s
  | .copyComplete id => Sys2Proof.Machine.execCopyComplete id s
  | .mmaStart core => Sys2Proof.Machine.execMmaStart core s
  | .tfuFetch core va => Sys2Proof.Machine.execTfuFetch core va s
  | .mmaArrive core => Sys2Proof.Machine.execMmaArrive core s
  | .mzeroComplete core => Sys2Proof.Machine.execMzeroComplete core s
  | .translationComplete core va => Sys2Proof.Machine.execTranslationComplete core va s
  | .l2Refetch line => Sys2Proof.Machine.execL2Refetch line s
  | .setup m => Sys2Proof.Machine.execSetup m s
  | .collectiveChunk m => Sys2Proof.Machine.execCollectiveChunk m s
  | .chunkAcknowledgement m => Sys2Proof.Machine.execChunkAcknowledgement m s
  | .nackWithRedirect m => Sys2Proof.Machine.execNackWithRedirect m s
  | .slotRequest id => Sys2Proof.Machine.execSlotRequest id s
  | .slotGrant id switch => Sys2Proof.Machine.execSlotGrant id switch s
  | .slotNack id switch => Sys2Proof.Machine.execSlotNack id switch s
  | .slotRelease id => Sys2Proof.Machine.execSlotRelease id s
  | .beatCount ctx merged => Sys2Proof.Machine.execBeatCount ctx merged s
  | .beatMergeTimeout ctx => Sys2Proof.Machine.execBeatMergeTimeout ctx s
  | .portDown dev port => Sys2Proof.Machine.execPortDown dev port s
  | .reservedKindDiscard m => Sys2Proof.Machine.execReservedKindDiscard m s
  | .memberLost id rank => Sys2Proof.Machine.execMemberLost id rank s
  | .collectiveComplete id => Sys2Proof.Machine.execCollectiveComplete id s
  | .tallyClose ctx reg => Sys2Proof.Machine.execTallyClose ctx reg s
  | .graceExpire ctx reg => Sys2Proof.Machine.execGraceExpire ctx reg s
  | .specSquash core gslot => Sys2Proof.Machine.execSpecSquash core gslot s
  | .heartbeat hart => Sys2Proof.Machine.execHeartbeat hart s
  | .takeover standby => Sys2Proof.Machine.execTakeover standby s
  | .fwcHalt bits => Sys2Proof.Machine.execFwcHalt bits s
  | .s2inv value => Sys2Proof.Machine.execS2inv value s
  | .amzQfetch rd rs1 rs2 => Sys2Proof.Machine.execAmzQfetch rd rs1 rs2 s
  | .amzBfx rd rs1 rs2 => Sys2Proof.Machine.execAmzBfx rd rs1 rs2 s
  | .amzBfxS rd rs1 rs2 => Sys2Proof.Machine.execAmzBfxS rd rs1 rs2 s
  | .amzSigwait cond rd rs1 rs2 => Sys2Proof.Machine.execAmzSigwait cond rd rs1 rs2 s
  | .amzDispatch rd rs1 rs2 => Sys2Proof.Machine.execAmzDispatch rd rs1 rs2 s
  | .notify vcp value => Sys2Proof.Machine.execNotify vcp value s
  | .vcpScan hart vcp => Sys2Proof.Machine.execVcpScan hart vcp s
  | .vcpUnmap vcp => Sys2Proof.Machine.execVcpUnmap vcp s
  | .vfReset vcp => Sys2Proof.Machine.execVfReset vcp s
  | .hsemAcquire port sem => Sys2Proof.Machine.execHsemAcquire port sem s
  | .hsemRelease port sem => Sys2Proof.Machine.execHsemRelease port sem s
  | .linkDown port => Sys2Proof.Machine.execLinkDown port s
  | .quote port nonce => Sys2Proof.Machine.execQuote port nonce s
  | .keyload port keyId wrapped => Sys2Proof.Machine.execKeyload port keyId wrapped s
  | .partOp port p => Sys2Proof.Machine.execPartOp port p s
  | .sealOp port part on => Sys2Proof.Machine.execSealOp port part on s
  | .vfmap port vcp vf queues => Sys2Proof.Machine.execVfmap port vcp vf queues s
  | .fwupdate port image signature => Sys2Proof.Machine.execFwupdate port image signature s
  | .boot faulty images => Sys2Proof.Machine.execBoot faulty images s
  | .sequenceResolution ctx reg r => Sys2Proof.Machine.execSequenceResolution ctx reg r s
  | .actuatorLevelsApply => Sys2Proof.Machine.execActuatorLevelsApply s
  | .functionFailure bit => Sys2Proof.Machine.execFunctionFailure bit s
  | .unassignedOpcode guard major => Sys2Proof.Machine.execUnassignedOpcode guard major s

end Sys2Proof.Machine
end

