-- ==== Sys2Proof/Machine/Rv.lean ====
section
/-!
DEFINITION. What the firmware harts have of RV64GC beside Xamz (R362). The spec names that instruction set and describes none of it:
all of this file is PRESUMED from the RISC-V architecture (log entry 109). It has RV64I, M, A, F, D, Zicsr, Zifencei and C, in machine
and user mode.
-/
namespace Sys2Proof.Machine

/-! ## Instructions -/

/-- Operations of the integer unit. -/
inductive RvAlu where
  | add | sub | sll | slt | sltu | xor | srl | sra | or | and
  | mul | mulh | mulhsu | mulhu | div | divu | rem | remu
  deriving DecidableEq, Repr, Inhabited

/-- An instruction of a hart. `word` marks a 32-bit operation, `dbl` the D format, `wide` a doubleword access; `k` of a branch, load
or store is its funct3. -/
inductive Rv where
  | lui (rd : BitVec 5) (imm : DWord)
  | auipc (rd : BitVec 5) (imm : DWord)
  | jal (rd : BitVec 5) (off : DWord)
  | jalr (rd rs1 : BitVec 5) (off : DWord)
  | branch (k : Nat) (rs1 rs2 : BitVec 5) (off : DWord)
  | load (k : Nat) (rd rs1 : BitVec 5) (off : DWord)
  | store (k : Nat) (rs1 rs2 : BitVec 5) (off : DWord)
  | opImm (op : RvAlu) (word : Bool) (rd rs1 : BitVec 5) (imm : DWord)
  | op (op : RvAlu) (word : Bool) (rd rs1 rs2 : BitVec 5)
  | fence
  | lr (wide : Bool) (rd rs1 : BitVec 5)
  | sc (wide : Bool) (rd rs1 rs2 : BitVec 5)
  | amo (f5 : Nat) (wide : Bool) (rd rs1 rs2 : BitVec 5)
  | csr (f3 : Nat) (rd rs1 : BitVec 5) (num : Nat)
  | ecall
  | ebreak
  | mret
  | wfi
  | fload (dbl : Bool) (rd rs1 : BitVec 5) (off : DWord)
  | fstore (dbl : Bool) (rs1 rs2 : BitVec 5) (off : DWord)
  | fma (k : Nat) (dbl : Bool) (rm : Nat) (rd rs1 rs2 rs3 : BitVec 5)
  | fop (f5 : Nat) (dbl : Bool) (rm : Nat) (rd rs1 rs2 : BitVec 5)
  deriving DecidableEq, Repr, Inhabited

/-! ## Decoding -/

def rvSx (n w : Nat) : DWord := BitVec.ofInt 64 (sx n w)

/-- The operation of OP and OP-IMM by funct3 and funct7. -/
def rvAlu (f3 f7 : Nat) : Option RvAlu :=
  match f7 with
  | 0 => [RvAlu.add, .sll, .slt, .sltu, .xor, .srl, .or, .and][f3]?
  | 1 => [RvAlu.mul, .mulh, .mulhsu, .mulhu, .div, .divu, .rem, .remu][f3]?
  | 0x20 => if f3 = 0 then some .sub else if f3 = 5 then some .sra else none
  | _ => none

/-- The operations that have a 32-bit form. -/
def RvAlu.hasWord : RvAlu → Bool
  | .add | .sub | .sll | .srl | .sra | .mul | .div | .divu | .rem | .remu => true
  | _ => false

/-- The floating operations: funct5, format, rounding mode field and rs2 that name one. -/
def rvFopOk (f5 : Nat) (dbl : Bool) (rm rs2 : Nat) : Bool :=
  match f5 with
  | 0 | 1 | 2 | 3 => true
  | 0x0B => rs2 = 0
  | 4 => rm ≤ 2
  | 5 => rm ≤ 1
  | 0x14 => rm ≤ 2
  | 0x18 | 0x1A => rs2 ≤ 3
  | 0x1C => rs2 = 0 && rm ≤ 1
  | 0x1E => rs2 = 0 && rm = 0
  | 8 => rs2 = (if dbl then 0 else 1)
  | _ => false

/-- A 32-bit word of a hart. -/
def rvDecode (w : BitVec 32) : Option Rv :=
  let x := w.toNat
  let rd := w.extractLsb' 7 5
  let rs1 := w.extractLsb' 15 5
  let rs2 := w.extractLsb' 20 5
  let f3 := bitsOf x 14 12
  let f7 := bitsOf x 31 25
  let immI := rvSx (bitsOf x 31 20) 12
  let immS := rvSx (32 * f7 + bitsOf x 11 7) 12
  let immB := rvSx (4096 * bitsOf x 31 31 + 2048 * bitsOf x 7 7 + 32 * bitsOf x 30 25 + 2 * bitsOf x 11 8) 13
  let immU := rvSx (4096 * bitsOf x 31 12) 32
  let immJ := rvSx (2 ^ 20 * bitsOf x 31 31 + 4096 * bitsOf x 19 12 + 2048 * bitsOf x 20 20 + 2 * bitsOf x 30 21) 21
  let dbl := bitsOf f7 1 0 == 1
  match bitsOf x 6 0 with
  | 0x37 => some (.lui rd immU)
  | 0x17 => some (.auipc rd immU)
  | 0x6F => some (.jal rd immJ)
  | 0x67 => if f3 = 0 then some (.jalr rd rs1 immI) else none
  | 0x63 => if f3 = 2 || f3 = 3 then none else some (.branch f3 rs1 rs2 immB)
  | 0x03 => if f3 = 7 then none else some (.load f3 rd rs1 immI)
  | 0x23 => if 3 < f3 then none else some (.store f3 rs1 rs2 immS)
  | 0x13 =>
    if f3 = 1 || f3 = 5 then (rvAlu f3 (f7 / 2 * 2)).bind (fun o =>
      if o.hasWord then some (.opImm o false rd rs1 (BitVec.ofNat 64 (bitsOf x 25 20))) else none)
    else (rvAlu f3 0).map (fun o => .opImm o false rd rs1 immI)
  | 0x1B =>
    if f3 = 0 then some (.opImm .add true rd rs1 immI)
    else if f3 = 1 || f3 = 5 then
      (if f7 = 1 then none else (rvAlu f3 f7).map (fun o => .opImm o true rd rs1 (BitVec.ofNat 64 (bitsOf x 24 20))))
    else none
  | 0x33 => (rvAlu f3 f7).map (fun o => .op o false rd rs1 rs2)
  | 0x3B => (rvAlu f3 f7).bind (fun o => if o.hasWord then some (.op o true rd rs1 rs2) else none)
  | 0x0F => if f3 ≤ 1 then some .fence else none
  | 0x2F =>
    let f5 := bitsOf x 31 27
    if f3 != 2 && f3 != 3 then none
    else
      match f5 with
      | 2 => if rs2 == 0 then some (.lr (f3 == 3) rd rs1) else none
      | 3 => some (.sc (f3 == 3) rd rs1 rs2)
      | 0 | 1 | 4 | 8 | 0x0C | 0x10 | 0x14 | 0x18 | 0x1C => some (.amo f5 (f3 == 3) rd rs1 rs2)
      | _ => none
  | 0x73 =>
    if f3 = 0 then
      (if x = 0x00000073 then some .ecall
       else if x = 0x00100073 then some .ebreak
       else if x = 0x30200073 then some .mret
       else if x = 0x10500073 then some .wfi
       else none)
    else if f3 = 4 then none
    else some (.csr f3 rd rs1 (bitsOf x 31 20))
  | 0x07 => if f3 = 2 || f3 = 3 then some (.fload (f3 == 3) rd rs1 immI) else none
  | 0x27 => if f3 = 2 || f3 = 3 then some (.fstore (f3 == 3) rs1 rs2 immS) else none
  | 0x43 => if bitsOf f7 1 0 ≤ 1 then some (.fma 0 dbl f3 rd rs1 rs2 (w.extractLsb' 27 5)) else none
  | 0x47 => if bitsOf f7 1 0 ≤ 1 then some (.fma 1 dbl f3 rd rs1 rs2 (w.extractLsb' 27 5)) else none
  | 0x4B => if bitsOf f7 1 0 ≤ 1 then some (.fma 2 dbl f3 rd rs1 rs2 (w.extractLsb' 27 5)) else none
  | 0x4F => if bitsOf f7 1 0 ≤ 1 then some (.fma 3 dbl f3 rd rs1 rs2 (w.extractLsb' 27 5)) else none
  | 0x53 => if bitsOf f7 1 0 ≤ 1 && rvFopOk (f7 / 4) dbl f3 rs2.toNat then some (.fop (f7 / 4) dbl f3 rd rs1 rs2) else none
  | _ => none

/-- A 16-bit word of a hart (C). -/
def rvDecodeC (x : Nat) : Option Rv :=
  let b (hi lo : Nat) : Nat := bitsOf x hi lo
  let r (n : Nat) : BitVec 5 := BitVec.ofNat 5 n
  let rd := r (b 11 7)
  let rs2 := r (b 6 2)
  let rp := r (8 + b 4 2)
  let rq := r (8 + b 9 7)
  let off (n : Nat) : DWord := BitVec.ofNat 64 n
  let imm6 := rvSx (32 * b 12 12 + b 6 2) 6
  let sh := off (32 * b 12 12 + b 6 2)
  let d8 := off (8 * b 12 10 + 64 * b 6 5)
  let w4 := off (8 * b 12 10 + 4 * b 6 6 + 64 * b 5 5)
  let sp : BitVec 5 := 2
  match x % 4, b 15 13 with
  | 0, 0 =>
    let n := 64 * b 10 7 + 16 * b 12 11 + 8 * b 5 5 + 4 * b 6 6
    if n = 0 then none else some (.opImm .add false rp sp (off n))
  | 0, 1 => some (.fload true rp rq d8)
  | 0, 2 => some (.load 2 rp rq w4)
  | 0, 3 => some (.load 3 rp rq d8)
  | 0, 5 => some (.fstore true rq rp d8)
  | 0, 6 => some (.store 2 rq rp w4)
  | 0, 7 => some (.store 3 rq rp d8)
  | 1, 0 => some (.opImm .add false rd rd imm6)
  | 1, 1 => if rd == 0 then none else some (.opImm .add true rd rd imm6)
  | 1, 2 => some (.opImm .add false rd 0 imm6)
  | 1, 3 =>
    if rd == sp then
      let n := 512 * b 12 12 + 16 * b 6 6 + 64 * b 5 5 + 128 * b 4 3 + 32 * b 2 2
      if n = 0 then none else some (.opImm .add false sp sp (rvSx n 10))
    else
      let n := 2 ^ 17 * b 12 12 + 4096 * b 6 2
      if n = 0 then none else some (.lui rd (rvSx n 18))
  | 1, 4 =>
    match b 11 10 with
    | 0 => some (.opImm .srl false rq rq sh)
    | 1 => some (.opImm .sra false rq rq sh)
    | 2 => some (.opImm .and false rq rq imm6)
    | _ =>
      match b 12 12, b 6 5 with
      | 0, 0 => some (.op .sub false rq rq rp)
      | 0, 1 => some (.op .xor false rq rq rp)
      | 0, 2 => some (.op .or false rq rq rp)
      | 0, _ => some (.op .and false rq rq rp)
      | _, 0 => some (.op .sub true rq rq rp)
      | _, 1 => some (.op .add true rq rq rp)
      | _, _ => none
  | 1, 5 =>
    some (.jal 0 (rvSx (2048 * b 12 12 + 16 * b 11 11 + 256 * b 10 9 + 1024 * b 8 8 + 64 * b 7 7 + 128 * b 6 6 + 2 * b 5 3 + 32 * b 2 2) 12))
  | 1, k =>
    some (.branch (k - 6) rq 0 (rvSx (256 * b 12 12 + 8 * b 11 10 + 64 * b 6 5 + 2 * b 4 3 + 32 * b 2 2) 9))
  | 2, 0 => some (.opImm .sll false rd rd sh)
  | 2, 1 => some (.fload true rd sp (off (32 * b 12 12 + 8 * b 6 5 + 64 * b 4 2)))
  | 2, 2 => if rd == 0 then none else some (.load 2 rd sp (off (32 * b 12 12 + 4 * b 6 4 + 64 * b 3 2)))
  | 2, 3 => if rd == 0 then none else some (.load 3 rd sp (off (32 * b 12 12 + 8 * b 6 5 + 64 * b 4 2)))
  | 2, 4 =>
    if b 12 12 = 0 then
      (if rs2 == 0 then (if rd == 0 then none else some (.jalr 0 rd 0)) else some (.op .add false rd 0 rs2))
    else if rs2 == 0 then (if rd == 0 then some .ebreak else some (.jalr 1 rd 0))
    else some (.op .add false rd rd rs2)
  | 2, 5 => some (.fstore true sp rs2 (off (8 * b 12 10 + 64 * b 9 7)))
  | 2, 6 => some (.store 2 sp rs2 (off (4 * b 12 9 + 64 * b 8 7)))
  | 2, 7 => some (.store 3 sp rs2 (off (8 * b 12 10 + 64 * b 9 7)))
  | _, _ => none

/-! ## Integer operations -/

/-- An operation on w bits: shifts take their count modulo w, and a division by zero gives all ones, its remainder the dividend. -/
def RvAlu.eval {w : Nat} (op : RvAlu) (a b : BitVec w) : BitVec w :=
  match op with
  | .add => a + b
  | .sub => a - b
  | .sll => a <<< (b.toNat % w)
  | .slt => if a.toInt < b.toInt then 1 else 0
  | .sltu => if a.toNat < b.toNat then 1 else 0
  | .xor => a ^^^ b
  | .srl => a >>> (b.toNat % w)
  | .sra => a.sshiftRight (b.toNat % w)
  | .or => a ||| b
  | .and => a &&& b
  | .mul => a * b
  | .mulh => BitVec.ofInt w (a.toInt * b.toInt / 2 ^ w)
  | .mulhsu => BitVec.ofInt w (a.toInt * (b.toNat : Int) / 2 ^ w)
  | .mulhu => BitVec.ofNat w (a.toNat * b.toNat / 2 ^ w)
  | .div => if b == 0 then BitVec.allOnes w else BitVec.ofInt w (a.toInt.tdiv b.toInt)
  | .divu => if b == 0 then BitVec.allOnes w else BitVec.ofNat w (a.toNat / b.toNat)
  | .rem => if b == 0 then a else BitVec.ofInt w (a.toInt.tmod b.toInt)
  | .remu => if b == 0 then a else BitVec.ofNat w (a.toNat % b.toNat)

/-- An operation on registers: a 32-bit one extends its result by sign. -/
def RvAlu.run (op : RvAlu) (word : Bool) (a b : DWord) : DWord :=
  if word then (op.eval (a.setWidth 32) (b.setWidth 32)).signExtend 64 else op.eval a b

/-- The condition of a branch. -/
def rvTaken (k : Nat) (a b : DWord) : Bool :=
  match k with
  | 0 => a == b
  | 1 => a != b
  | 4 => a.toInt < b.toInt
  | 5 => b.toInt ≤ a.toInt
  | 6 => a.toNat < b.toNat
  | _ => b.toNat ≤ a.toNat

/-- What an AMO writes. -/
def rvAmo {w : Nat} (f5 : Nat) (old b : BitVec w) : BitVec w :=
  match f5 with
  | 0 => old + b
  | 1 => b
  | 4 => old ^^^ b
  | 8 => old ||| b
  | 0x0C => old &&& b
  | 0x10 => if old.toInt ≤ b.toInt then old else b
  | 0x14 => if old.toInt ≤ b.toInt then b else old
  | 0x18 => if old.toNat ≤ b.toNat then old else b
  | _ => if old.toNat ≤ b.toNat then b else old

/-! ## Floating operations -/

/-- The rounding of a mode field, 7 naming that of fcsr: RNE, RTZ, RDN, RUP, RMM. -/
def Hart.rounding (h : Hart) (rm : Nat) : Option Nat :=
  [0, 1, 3, 2, 4][if rm = 7 then bitsOf h.fcsr.toNat 7 5 else rm]?

/-- Flags in the order of fflags: NX, UF, OF, DZ, NV from bit 0. -/
def rvFlags (f : BitVec 5) : BitVec 8 :=
  BitVec.ofNat 8 (b2n (f.getLsbD 4) + 2 * b2n (f.getLsbD 3) + 4 * b2n (f.getLsbD 2) + 8 * b2n (f.getLsbD 1) + 16 * b2n (f.getLsbD 0))

def rvFmt (dbl : Bool) : Fmt := if dbl then .f64 else .f32

/-- The pattern in an f register: a single that is not boxed in ones is the canonical NaN. -/
def Hart.fget (h : Hart) (dbl : Bool) (r : BitVec 5) : Nat :=
  let v := (Tbl.at h.f r.toNat 0).toNat
  if dbl then v else if v / 2 ^ 32 = 2 ^ 32 - 1 then v % 2 ^ 32 else Fmt.f32.nanPat
/-- Writes a pattern to an f register, a single boxed in ones. -/
def Hart.fput (h : Hart) (dbl : Bool) (r : BitVec 5) (p : Nat) : Hart :=
  { h with f := Tbl.put h.f r.toNat (BitVec.ofNat 64 (if dbl then p else (2 ^ 32 - 1) * 2 ^ 32 + p)) }
def Hart.flagged (h : Hart) (f : BitVec 5) : Hart := { h with fcsr := h.fcsr ||| rvFlags f }

def rvDiv (f : Fmt) (mode a b : Nat) : Nat × BitVec 5 :=
  let x := f.unpack a
  let y := f.unpack b
  let neg := x.neg != y.neg
  if x.isNan || y.isNan then (f.nanPat, if x.isSig || y.isSig then fNV else 0)
  else if (x.isInf && y.isInf) || (x.isZero && y.isZero) then (f.nanPat, fNV)
  else if x.isInf then (f.infPat neg, 0)
  else if y.isInf then (f.zeroPat neg, 0)
  else if y.isZero then (f.infPat neg, fDZ)
  else rndDiv f mode neg x.dy y.dy

/-- A square root, computed to more bits than the format has and rounded with what is left as a sticky bit. -/
def rvSqrt (f : Fmt) (mode a : Nat) : Nat × BitVec 5 :=
  match f.unpack a with
  | .nan sig => (f.nanPat, if sig then fNV else 0)
  | .zero n => (f.zeroPat n, 0)
  | .inf false => (f.infPat false, 0)
  | .inf true => (f.nanPat, fNV)
  | .fin true _ _ => (f.nanPat, fNV)
  | .fin false m e =>
    let n := (if e % 2 = 0 then m else 2 * m) * 2 ^ 200
    let half := (if e % 2 = 0 then e else e - 1) / 2 - 100
    let r := isqrt n 130 0
    if r * r = n then rndQ f mode false r 1 half else rndQ f mode false (2 * r + 1) 1 (half - 1)

/-- Addition, subtraction, multiplication, division and square root by funct5. -/
def rvArith (f : Fmt) (f5 mode a b : Nat) : Nat × BitVec 5 :=
  match f5 with
  | 0 => fAdd f mode a b
  | 1 => fAdd f mode a (f.flip b)
  | 2 => fMul f mode a b
  | 3 => rvDiv f mode a b
  | _ => rvSqrt f mode a

/-- The comparisons: 0 fle, 1 flt, 2 feq, which is quiet. -/
def rvCompare (f : Fmt) (k a b : Nat) : Bool × BitVec 5 :=
  let x := f.unpack a
  let y := f.unpack b
  if x.isNan || y.isNan then (false, if k != 2 || x.isSig || y.isSig then fNV else 0)
  else
    match k with
    | 0 => (x.eq y || x.lt y, 0)
    | 1 => (!x.eq y && x.lt y, 0)
    | _ => (x.eq y, 0)

/-- The class of a pattern as one bit of ten. -/
def rvClass (f : Fmt) (a : Nat) : Nat :=
  let small := a / 2 ^ f.mbits % 2 ^ f.ebits = 0
  match f.unpack a with
  | .nan sig => if sig then 2 ^ 8 else 2 ^ 9
  | .inf n => if n then 1 else 2 ^ 7
  | .zero n => if n then 2 ^ 3 else 2 ^ 4
  | .fin n _ _ => if small then (if n then 2 ^ 2 else 2 ^ 5) else (if n then 2 ^ 1 else 2 ^ 6)

/-- An integer of w bits from a pattern: out of range it saturates, and a NaN gives the greatest, with NV. -/
def rvToInt (f : Fmt) (mode w : Nat) (signed : Bool) (a : Nat) : Int × BitVec 5 :=
  let lo : Int := if signed then -(2 ^ (w - 1)) else 0
  let hi : Int := if signed then 2 ^ (w - 1) - 1 else 2 ^ w - 1
  match f.unpack a with
  | .nan _ => (hi, fNV)
  | .inf n => (if n then lo else hi, fNV)
  | .zero _ => (0, 0)
  | .fin n m e =>
    let q := rintQ mode n m 1 e
    let i : Int := if n then -(q.1 : Int) else q.1
    if i < lo then (lo, fNV) else if hi < i then (hi, fNV) else (i, if q.2 then fNX else 0)

/-- Integer formats of the conversions: 0 w, 1 wu, 2 l, 3 lu. -/
def rvIntWidth (k : Nat) : Nat := if k ≤ 1 then 32 else 64
def rvIntOf (k : Nat) (x : DWord) : Int :=
  match k with
  | 0 => (x.setWidth 32).toInt
  | 1 => (x.setWidth 32).toNat
  | 2 => x.toInt
  | _ => x.toNat

/-! ## Memory of a hart -/

/-- Bytes that a hart loads: of what the firmware's tables map (log entry 61), with what the load leaves of bad lines; elsewhere an access
fault. -/
def State.rvLoad (s : State) (a n code : Nat) : Except (Nat × DWord) (State × List Byte) :=
  match s.fwAddr a n with
  | some m => if covered m.1 && covered (m.1 + n - 1) then .ok (s.fwMet m n, s.fwRead m n) else .error (code, BitVec.ofNat 64 a)
  | none => .error (code, BitVec.ofNat 64 a)

/-- Reservations that meet some bytes go. -/
def State.dropResv (s : State) (a n : Nat) : State :=
  { s with harts := Tbl.mapAll (fun _ h => match h.resv with
      | some r => if a < r.1 + r.2 && r.1 < a + n then { h with resv := none } else h
      | none => h) s.harts }

/-- Bytes that a hart stores. -/
def State.rvStore (s : State) (a : Nat) (bs : List Byte) : Except (Nat × DWord) State :=
  match s.fwAddr a bs.length with
  | some m =>
    if !(covered m.1 && covered (m.1 + bs.length - 1)) then .error (7, BitVec.ofNat 64 a)
    else .ok ((s.dropResv a bs.length).fwWrite m bs)
  | none => .error (7, BitVec.ofNat 64 a)

/-! ## Control and status registers -/

/-- mstatus: MIE, MPIE, MPP; the floating unit is always on, and user mode has 64 bits. -/
def Hart.mstatus (h : Hart) : DWord :=
  BitVec.ofNat 64 (8 * b2n h.mie + 128 * b2n h.mpie + (if h.mppMachine then 3 * 2 ^ 11 else 0) + 3 * 2 ^ 13 + 2 ^ 33 + 2 ^ 63)

/-- misa: RV64 with A, C, D, F, I, M, user mode and X. -/
def rvMisa : DWord := 0x800000000090112D

/-- A register that a hart has, by its number. -/
def State.csrRead (s : State) (n : Nat) (h : Hart) (num : Nat) : Option DWord :=
  if num = 0x001 then some (h.fcsr.setWidth 64 &&& 0x1F)
  else if num = 0x002 then some (BitVec.ofNat 64 (bitsOf h.fcsr.toNat 7 5))
  else if num = 0x003 then some (h.fcsr.setWidth 64)
  else if num = 0xC00 || num = 0xB00 then some h.cycles
  else if num = 0xC01 then some (BitVec.ofNat 64 s.timebase)
  else if num = 0xC02 || num = 0xB02 then some h.instret
  else if (0xC03 ≤ num && num ≤ 0xC1F) || (0xB03 ≤ num && num ≤ 0xB1F) || (0x323 ≤ num && num ≤ 0x33F) || num = 0x320
      || (0x3A0 ≤ num && num ≤ 0x3EF) || (0xF11 ≤ num && num ≤ 0xF13) || num = 0xF15 then some 0
  else if num = 0xF14 then some (BitVec.ofNat 64 n)
  else if num = 0x300 then some h.mstatus
  else if num = 0x301 then some rvMisa
  else if num = 0x304 then some 0x800
  else if num = 0x305 then some h.mtvec
  else if num = 0x306 then some 7
  else if num = 0x340 then some h.mscratch
  else if num = 0x341 then some h.mepc
  else if num = 0x342 then some h.mcause
  else if num = 0x343 then some h.mtval
  else if num = 0x344 then some (if h.irq then 0x800 else 0)
  else none

/-- Writes a register; what its fields cannot hold is kept. -/
def Hart.csrWrite (h : Hart) (num : Nat) (v : DWord) : Hart :=
  match num with
  | 0x001 => { h with fcsr := (h.fcsr &&& 0xE0) ||| (v.setWidth 8 &&& 0x1F) }
  | 0x002 => { h with fcsr := (h.fcsr &&& 0x1F) ||| BitVec.ofNat 8 (32 * (v.toNat % 8)) }
  | 0x003 => { h with fcsr := v.setWidth 8 }
  | 0xB00 => { h with cycles := v }
  | 0xB02 => { h with instret := v }
  | 0x300 =>
    { h with
      mie := v.getLsbD 3, mpie := v.getLsbD 7
      mppMachine := if bitsOf v.toNat 12 11 = 3 then true else if bitsOf v.toNat 12 11 = 0 then false else h.mppMachine }
  | 0x305 => { h with mtvec := v &&& ~~~3#64 }
  | 0x340 => { h with mscratch := v }
  | 0x341 => { h with mepc := v &&& ~~~1#64 }
  | 0x342 => { h with mcause := v }
  | 0x343 => { h with mtval := v }
  | _ => h

/-! ## Execution -/

/-- What an instruction comes to: a trap with mcause and mtval, or the device and the hart after it. -/
abbrev RvOut := Except (Nat × DWord) (State × Hart)

/-- The bytes of a load as a register takes them, by funct3. -/
def rvExtend (k : Nat) (bs : List Byte) : DWord :=
  let v := leNat bs
  if 4 ≤ k then BitVec.ofNat 64 v else rvSx v (8 * 2 ^ k)

/-- A CSR instruction: the register must exist and its privilege hold, and one that is read-only is not written. -/
def State.rvCsr (s : State) (n : Nat) (h : Hart) (f3 : Nat) (rd rs1 : BitVec 5) (num : Nat) (illegal : RvOut) : RvOut :=
  let src : DWord := if 4 ≤ f3 then rs1.setWidth 64 else h.get rs1
  let writes := f3 % 4 = 1 || rs1 != 0
  match s.csrRead n h num with
  | none => illegal
  | some old =>
    if (!h.machine && bitsOf num 9 8 != 0) || (writes && bitsOf num 11 10 = 3) then illegal
    else
      let new := match f3 % 4 with
        | 1 => src
        | 2 => old ||| src
        | _ => old &&& ~~~src
      .ok (s, { (if writes then h.csrWrite num new else h).set rd old with pc := h.pc + 4 })

/-- A floating operation of OP-FP; the hart's pc is moved by the caller. -/
def Hart.rvFop (h : Hart) (f5 : Nat) (dbl : Bool) (rm : Nat) (rd rs1 rs2 : BitVec 5) (mode : Nat) : Hart :=
  let f := rvFmt dbl
  let a := h.fget dbl rs1
  let b := h.fget dbl rs2
  let put (r : Nat × BitVec 5) : Hart := (h.fput dbl rd r.1).flagged r.2
  match f5 with
  | 4 =>
    let sign := match rm with
      | 0 => bitOf b (f.width - 1)
      | 1 => !bitOf b (f.width - 1)
      | _ => bitOf a (f.width - 1) != bitOf b (f.width - 1)
    h.fput dbl rd (a % 2 ^ (f.width - 1) + (if sign then 2 ^ (f.width - 1) else 0))
  | 5 => put (fMinMax f (rm == 1) a b)
  | 8 => put (convF (rvFmt (!dbl)) f mode (h.fget (!dbl) rs1))
  | 0x14 => let r := rvCompare f rm a b; (h.set rd (BitVec.ofNat 64 (b2n r.1))).flagged r.2
  | 0x18 =>
    let r := rvToInt f mode (rvIntWidth rs2.toNat) (rs2.toNat % 2 == 0) a
    let v := BitVec.ofInt 64 r.1
    (h.set rd (if rs2.toNat ≤ 1 then (v.setWidth 32).signExtend 64 else v)).flagged r.2
  | 0x1A => put (rndDy f mode false (Dy.ofInt (rvIntOf rs2.toNat (h.get rs1))))
  | 0x1C =>
    if rm = 1 then h.set rd (BitVec.ofNat 64 (rvClass f a))
    else
      let raw := Tbl.at h.f rs1.toNat 0
      h.set rd (if dbl then raw else (raw.setWidth 32).signExtend 64)
  | 0x1E => h.fput dbl rd ((h.get rs1).toNat % 2 ^ f.width)
  | _ => put (rvArith f f5 mode a b)

/-- Whether a floating operation rounds, so that its mode field must name a rounding. -/
def rvRounds (f5 : Nat) : Bool := f5 ≤ 3 || f5 = 0x0B || f5 = 8 || f5 = 0x18 || f5 = 0x1A

/-- Executes an instruction of len bytes on a hart; `word` is the instruction, for mtval. -/
def State.rvExec (s : State) (n : Nat) (i : Rv) (len : Nat) (word : DWord) : RvOut :=
  let h := s.hart n
  let next := h.pc + BitVec.ofNat 64 len
  let illegal : RvOut := .error (2, word)
  let go (g : Hart) : RvOut := .ok (s, { g with pc := next })
  let at' (r : BitVec 5) (off : DWord) : Nat := (h.get r + off).toNat
  match i with
  | .lui rd imm => go (h.set rd imm)
  | .auipc rd imm => go (h.set rd (h.pc + imm))
  | .jal rd off => .ok (s, { h.set rd next with pc := h.pc + off })
  | .jalr rd rs1 off => .ok (s, { h.set rd next with pc := (h.get rs1 + off) &&& ~~~1#64 })
  | .branch k rs1 rs2 off => .ok (s, { h with pc := if rvTaken k (h.get rs1) (h.get rs2) then h.pc + off else next })
  | .load k rd rs1 off => do
    let (t, bs) ← s.rvLoad (at' rs1 off) (2 ^ (k % 4)) 5
    .ok (t, { h.set rd (rvExtend k bs) with pc := next })
  | .store k rs1 rs2 off => do
    let t ← s.rvStore (at' rs1 off) (leBytes (2 ^ k) (h.get rs2).toNat)
    .ok (t, { t.hart n with pc := next })
  | .opImm op w rd rs1 imm => go (h.set rd (op.run w (h.get rs1) imm))
  | .op op w rd rs1 rs2 => go (h.set rd (op.run w (h.get rs1) (h.get rs2)))
  | .fence => go h
  | .lr wide rd rs1 =>
    let a := (h.get rs1).toNat
    let z := if wide then 8 else 4
    if a % z ≠ 0 then .error (4, h.get rs1)
    else do
      let (t, bs) ← s.rvLoad a z 5
      .ok (t, { h.set rd (rvSx (leNat bs) (8 * z)) with resv := some (a, z), pc := next })
  | .sc wide rd rs1 rs2 =>
    let a := (h.get rs1).toNat
    let z := if wide then 8 else 4
    if a % z ≠ 0 then .error (6, h.get rs1)
    else if h.resv != some (a, z) then go { h.set rd 1 with resv := none }
    else do
      let t ← s.rvStore a (leBytes z (h.get rs2).toNat)
      .ok (t, { (t.hart n).set rd 0 with pc := next, resv := none })
  | .amo f5 wide rd rs1 rs2 =>
    let a := (h.get rs1).toNat
    let z := if wide then 8 else 4
    if a % z ≠ 0 then .error (6, h.get rs1)
    else do
      let (s, bs) ← s.rvLoad a z 7
      let new := if wide then (rvAmo f5 (BitVec.ofNat 64 (leNat bs)) (h.get rs2)).toNat
        else (rvAmo f5 (BitVec.ofNat 32 (leNat bs)) ((h.get rs2).setWidth 32)).toNat
      let t ← s.rvStore a (leBytes z new)
      .ok (t, { (t.hart n).set rd (rvSx (leNat bs) (8 * z)) with pc := next })
  | .csr f3 rd rs1 num => s.rvCsr n h f3 rd rs1 num illegal
  | .ecall => .error (if h.machine then 11 else 8, 0)
  | .ebreak => .error (3, h.pc)
  | .mret =>
    if !h.machine then illegal
    else .ok (s, { h with machine := h.mppMachine, mie := h.mpie, mpie := true, mppMachine := false, pc := h.mepc })
  | .wfi => go h
  | .fload dbl rd rs1 off => do
    let (t, bs) ← s.rvLoad (at' rs1 off) (if dbl then 8 else 4) 5
    .ok (t, { h.fput dbl rd (leNat bs) with pc := next })
  | .fstore dbl rs1 rs2 off => do
    let t ← s.rvStore (at' rs1 off) (leBytes (if dbl then 8 else 4) (Tbl.at h.f rs2.toNat 0).toNat)
    .ok (t, { t.hart n with pc := next })
  | .fma k dbl rm rd rs1 rs2 rs3 =>
    match h.rounding rm with
    | none => illegal
    | some mode =>
      let f := rvFmt dbl
      let a := h.fget dbl rs1
      let c := h.fget dbl rs3
      let r := fFma f mode (if 2 ≤ k then f.flip a else a) (h.fget dbl rs2) (if k = 1 || k = 3 then f.flip c else c)
      go ((h.fput dbl rd r.1).flagged r.2)
  | .fop f5 dbl rm rd rs1 rs2 =>
    match (if rvRounds f5 then h.rounding rm else some 0) with
    | none => illegal
    | some mode => go (h.rvFop f5 dbl rm rd rs1 rs2 mode)

/-- A hart executes the instruction at its pc, of 2 or 4 bytes, or takes its trap. -/
def State.rvTurn (s : State) (n : Nat) : State :=
  let h := s.hart n
  let w := s.hartWord n
  let s := s.hartMet n
  let short := w.toNat % 4 != 3
  let len := if short then 2 else 4
  let word : DWord := if short then BitVec.ofNat 64 (w.toNat % 2 ^ 16) else w.setWidth 64
  if !(covered h.pc.toNat && covered (h.pc.toNat + len - 1)) then s.setHart n (h.trap 1 h.pc)
  else
    match (if short then rvDecodeC (w.toNat % 2 ^ 16) else rvDecode w) with
    | none => s.setHart n (h.trap 2 word)
    | some i =>
      match s.rvExec n i len word with
      | .error e => s.setHart n (h.trap (BitVec.ofNat 64 e.1) e.2)
      | .ok r => r.1.setHart n { r.2 with cycles := r.2.cycles + 1, instret := r.2.instret + 1 }

end Sys2Proof.Machine
end

