-- ==== Sys2Proof/Machine/Next.lean ====
section
/-!
DEFINITION. What the agent that has the turn does next: a pipe's next body instruction with the checks of R13, R57 and R64,
or the forming of its next pass; a firmware hart's next word; when a pipe has nothing to do, the next event of the device that
changes something; and the inputs from outside.
-/
namespace Sys2Proof.Machine

/-- What a turn comes to: an instruction to execute in a state, a state, or a stop. -/
inductive Work where
  | run (i : Instr) (s : State)
  | done (s : State)
  | stop (f : Fault)
  deriving DecidableEq, Repr, Inhabited

/-! ## Pipes -/

/-- Every lane a word executes for takes an illegal-encoding fault (R64 steps 1 to 3). -/
def State.rejectWord (s : State) (c p : Nat) (x : Pass) (slots : List Nat) (term : Bool) : State :=
  let gone := slots.map (fun k => (k, LaneFail.fault illegalEncoding))
  if term then (s.leave c x gone).endPass c p (x.without slots) else s.afterInstr c p x gone

/-- Words of the instructions that one lane posts: `mma`, `mzero` and `bobj` (R311, R317, R323). -/
def isPost (r : Raw) : Bool := r.major == 0xA0 || r.major == 0xA1 || r.major == 0xA4

/-- A word of such an instruction that breaches R64: only the posting lane takes the fault (R311). -/
def State.rejectPost (s : State) (g : Guard) : Work :=
  match s.execFirst g false (fun _ _ => .error (.fault illegalEncoding)) with
  | .next t => .done t
  | .fault f => .stop f
  | .refused _ => .done s

/-- The next body word of a pass. Structural breaches fault every lane whatever its guard; a terminator's word is checked
whatever its guard (R64). -/
def State.bodyWork (s : State) (c p : Nat) (x : Pass) : Work :=
  match reachedBreach x with
  | some j => .done (s.rejectWord c p { x with idx := j } x.slots true)
  | none =>
    match x.body[x.idx]? with
    | none => .done (s.rejectWord c p x x.slots true)
    | some r =>
      match decodeRaw r with
      | .ok i => .run i s
      | .error _ =>
        if isPost r then s.rejectPost r.guard
        else if r.isTerm then .done (s.rejectWord c p x x.slots true)
        else .done (s.rejectWord c p x (s.executing c x r.guard) false)

/-- Issue groups of an instruction (R171). -/
def Pass.groups (x : Pass) : Nat := (x.slots.length + 15) / 16

/-! ## What comes by itself -/

/-- The events of a core: freed threads, its FIFO, a halted pair, a context that NC pre-empts from it. -/
def State.coreEvents (s : State) (c : Nat) : List Instr :=
  ((s.threads.find? (fun e => e.1 / 2048 == c && e.2.exited)).map (fun e => Instr.threadFree c (e.1 % 2048))).toList
  ++ (s.headEvent c).toList
  ++ (if (s.core c).halted then [.thermalMigrate (c / 2)] else [])
  ++ (match (s.core c).ncAt, (s.core c).ctx with
      | some _, some x => [.ncPreempt x c]
      | _, _ => [])

/-- The events of a context: its clusters' choices, its teams, its tallies. -/
def State.ctxEvents (s : State) (ctx : Nat) : List Instr :=
  let x := s.ctx ctx
  (if x.run == .halting || x.run == .stopped then (List.range 32).map (fun n => Instr.preemptChoose ctx n) else [])
  ++ (if x.run == .running && !x.saved.isEmpty then [.restore ctx x.part] else [])
  ++ x.ncFull.map (fun c => Instr.ncPreempt ctx c)
  ++ x.openSeqs.map (fun o => Instr.tallyClose ctx o.reg)
  ++ ((List.range 16).filter (fun n => (s.deadReport ctx n).isSome)).map (Instr.graceExpire ctx)

/-- Events that may be due anywhere on the device, those of a core first. -/
def State.dueEvents (s : State) (c : Nat) : List Instr :=
  s.coreEvents c
  ++ (Tbl.keys s.cores).flatMap s.coreEvents
  ++ (Tbl.keys s.copies).filterMap (fun id => s.copyEvent (s.firstOnChannel id))
  ++ (Tbl.keys s.teams).filterMap (fun t => if (s.teamThreads t).isEmpty then some (Instr.teamEnd t) else none)
  ++ (Tbl.keys s.grids).filterMap (fun g => if s.gridDone g then some (Instr.gridComplete g) else none)
  ++ (Tbl.keys s.ctxs).flatMap s.ctxEvents
  ++ (s.nextPlace.map (fun p => Instr.teamPlace p.1 p.2)).toList
  ++ s.frontEvent.toList
  ++ ((s.begun.filter (·.waits)).map (fun b => Instr.signalRecheck b.queue))
  ++ ((Tbl.keys s.harts).filter (fun h => (s.hart h).taking.isSome)).map Instr.takeover

/-- An event with the time, in ps, at which it falls due. -/
abbrev Timed := Nat × Instr

/-- The timed events of a core: the next `park` count to end, the spill, and the watchdog. -/
def State.coreTimed (s : State) (c : Nat) : List Timed :=
  let k := s.core c
  let after (n : Nat) : Nat := s.time + k.psOf n
  let parked := s.threads.filter (fun e => e.1 / 2048 == c && e.2.park != 0)
  let first := parked.foldl (fun (b : Option (Nat × Thread)) e => match b with
    | none => some e
    | some x => if e.2.park < x.2.park then some e else some x) none
  (first.map (fun e => (after e.2.park, Instr.parkDue c (e.1 % 2048)))).toList
  ++ (if k.bin.any (fun r => r.park == 0) then [(after (4096 - k.idle), .spill c)] else [])
  ++ (match k.ctx with
    | none => []
    | some x => if (s.ctx x).wdlimit = 0 then [] else [(after ((s.ctx x).wdlimit.toNat - k.wd), .watchdogExpire c)])
  ++ [(k.refreshDue, .rowRefresh c (1024 * k.banks.headD 0))]
  -- passes that have run for 4 µs (R17), and passes still running 8 µs after a halt (R345)
  ++ (k.pipes.filter (fun e => !e.2.refreshed)).map (fun e => (e.2.refreshAt, .tempRefreshSwitch c e.1))
  ++ (if s.halting c then k.pipes.map (fun e => (s.cutAt c, .passCut c e.1)) else [])

/-- The timed events of a context: the end of a drain, GRACE of its open sequences, and the end of its wait for its beat group
(R406). -/
def State.ctxTimed (s : State) (ctx : Nat) : List Timed :=
  let x := s.ctx ctx
  (if x.run == .halting then [(1000 * (x.preemptAt + 1000 * x.deadline), .drainDeadline ctx)] else [])
  ++ x.openSeqs.map (fun o => (1000 * (o.since + 1000 * Mset.grace (x.msetOf o.reg)), .graceExpire ctx o.reg))
  ++ (if x.merged.isSome then
      [(64000000 * s.boundaries + (if s.portsUp == 0 then 4000000 else 8000000), .beatMergeTimeout ctx)] else [])

/-- Members of a collective that are silent too long (R403). -/
def State.copyTimed (s : State) (id : Nat) : List Timed :=
  match s.copy id with
  | none => []
  | some x => (s.silences x).map (fun r => (r.2, .memberLost id r.1))

/-- Puts a timed event before those due later. -/
def insertTimed (e : Timed) : List Timed → List Timed
  | [] => [e]
  | x :: r => if e.1 < x.1 then e :: x :: r else x :: insertTimed e r

/-- What time brings, the earliest first; the boundary of R220 is always to come. -/
def State.timedEvents (s : State) : List Timed :=
  ((Tbl.keys s.cores).flatMap s.coreTimed ++ (Tbl.keys s.ctxs).flatMap s.ctxTimed
    ++ (Tbl.keys s.copies).flatMap s.copyTimed
    ++ [(64000000 * (s.boundaries + 1), Instr.allocPass)]).foldl (fun l e => insertTimed e l) []

/-- Whether an event changes the device. -/
def State.moves (s : State) (i : Instr) : Bool :=
  match exec i s with
  | .next t => decide (t ≠ s)
  | _ => false

/-- What may still clear the watchdog counts of a core's context now: threads whose slots are to be freed, teams that have ended, and
grids that have completed. A clear in the cycle in which a count reaches its limit wins (R344). -/
def State.clearing (s : State) (c : Nat) : Option Instr :=
  match (s.core c).ctx with
  | none => none
  | some x =>
    ((s.threads.filter (fun e => e.2.exited && (s.gangGrid (e.1 / 2048) (e.1 % 2048 / 32)).ctx == x)).map
        (fun e => Instr.threadFree (e.1 / 2048) (e.1 % 2048))
      ++ (s.ctxTeams x).map (fun e => Instr.teamEnd e.1)
      ++ (s.grids.filter (fun e => e.2.ctx == x)).map (fun e => Instr.gridComplete e.1)).find? s.moves

/-- What takes the place of a timed event: of a watchdog's expiry what clears the count first. -/
def State.instead (s : State) (i : Instr) : Instr :=
  match i with
  | .watchdogExpire c => if s.expired c then (s.clearing c).getD i else i
  | _ => i

/-- The first timed event that passes a test and changes something, with the state at its time. -/
def State.timedWhere (s : State) (ok : Timed → Bool) : Option (Instr × State) :=
  (s.timedEvents.filter ok).findSome? (fun e =>
    let t := s.toTime e.1
    if s.time < t.time || t.moves e.2 then some (t.instead e.2, t) else none)

/-- The first timed event that falls due by a moment, or ever. -/
def State.timedBy (s : State) (limit : Option Nat) : Option (Instr × State) :=
  s.timedWhere (fun e => match limit with
    | none => true
    | some t => e.1 ≤ t)

/-- Whether a timed event comes before an instruction that completes at a moment. A watchdog count that reaches its limit in the
cycle in which the instruction completes does not: a clear in that cycle wins (R344). -/
def State.precedes (s : State) (t : Nat) (e : Timed) : Bool :=
  match e.2 with
  | .watchdogExpire c => e.1 + (20000 + (s.core c).rate - 1) / (s.core c).rate ≤ t
  | _ => e.1 ≤ t

/-- The pipe of a core that has a pass to form or to run: a free one forms a pass as soon as it can (R170). -/
def State.corePipe (s : State) (c : Nat) : Option Nat :=
  match s.formable c with
  | some p => some p
  | none => ((s.core c).pipes.find? (fun e => !e.2.stalled)).map (·.1)

/-- The next pipe that has a pass to run or to form: each core in turn after the one that formed the last pass. -/
def State.busyPipe (s : State) : Option Turn :=
  (s.cores.filter (fun e => s.lastCore < e.1) ++ s.cores.filter (fun e => e.1 ≤ s.lastCore)).findSome? (fun e =>
    (s.corePipe e.1).map (Turn.pipe e.1))

/-- Every stalled pass looks again whether its instruction can go on. -/
def State.unstall (s : State) : State :=
  { s with cores := s.cores.map (fun (e : Nat × Core) =>
      (e.1, { e.2 with pipes := e.2.pipes.map (fun p => (p.1, { p.2 with stalled := false })) })) }

/-- The next pass, when a pipe has one to run or to form. -/
def State.passWork (s : State) (c p : Nat) : Option Work :=
  match s.busyPipe with
  | none => none
  | some t => some (if t == .pipe c p then .run (.passForm c p) { s with burst := s.burst + 1 } else .done { s with turn := t })

/-- The next thing that is due: the delivery of a cause, or an event; then stalled passes look again. -/
def State.eventWork (s : State) (c : Nat) : Option Work :=
  if !s.causes.isEmpty then some (.done s.deliverCause)
  else ((s.dueEvents c).find? s.moves).map (fun i => .run i { s.unstall with burst := 0 })

/-- Readers that wait on a channel when it becomes orphaned, or are placed at one that is, take their fault before anything else
happens (R195). -/
def State.orphanWork (s : State) : Option Work := s.orphanCore.map (fun c => .done (s.sweepOrphans c))

/-- What comes before a pass's next instruction: the faults of an orphaned channel's readers; an event that falls due by the time the
instruction has issued, so that what the instruction does counts after it (R218); or the forming of a pass on another pipe of the
core (R170, R172). -/
def State.comesFirst (s : State) (c : Nat) (x : Pass) : Option Work :=
  match s.orphanWork with
  | some w => some w
  | none =>
    match s.timedWhere (s.precedes (s.tick c x.groups).time) with
    | some (i, t) => some (.run i t)
    | none => (s.formable c).map (fun p => .run (.passForm c p) s)

/-- A pipe's turn: its pass runs on, unless it is stalled. Between passes the pending operations of the core complete, so that the lanes of a gang
that wait for one load stay together; then what time has brought takes place; then the next pass is formed, or, when there is
none or 64 have been formed, what else is due takes place; and with nothing to do time passes (log entry 2). -/
def State.pipeWork (s : State) (c p : Nat) : Work :=
  match (Tbl.look (s.core c).pipes p).filter (fun x => !x.stalled) with
  | some x =>
    match s.comesFirst c x with
    | some w => w
    | none => (s.tick c x.groups).bodyWork c p x
  | none =>
    match s.orphanWork, (s.core c).pending with
    | some w, _ => w
    | none, op :: _ => .run (.longLatencyComplete c op.slot op.id 0) s.unstall
    | none, [] =>
      match s.timedBy (some s.time) with
      | some (i, t) => .run i t.unstall
      | none =>
        match (if s.burst < 64 then s.passWork c p else none) with
        | some w => w
        | none =>
          match s.eventWork c with
          | some w => w
          | none =>
            match (if s.busyPipe.isSome then { s.unstall with burst := 0 }.passWork c p else none) with
            | some w => w
            | none =>
              match s.timedBy none with
              | some (i, t) => .run i t.unstall
              | none => .done (s.tick c 1).unstall

/-! ## Harts -/

/-- Whether a hart stands at a sigwait, which an enabled interrupt ends before it is taken (R368). -/
def Hart.awaits (h : Hart) (w : BitVec 32) : Bool :=
  h.machine && (match decodeAmz w with
    | .ok (.amzSigwait ..) => true
    | _ => false)

/-- A hart's turn: a hart that is halted, or whose firmware failed its check (R384), does nothing; an enabled interrupt is taken; a word
of Xamz is an instruction of the table, and every other is one of RV64GC, or illegal (R362, R364, log entries 5 and 109). -/
def State.hartWork (s : State) (n : Nat) : Work :=
  let h := s.hart n
  let w := s.hartWord n
  if h.halted || !s.fwRuns then .done s
  else if h.irq && h.mie && !h.awaits w then .done (s.setHart n { h.trap (BitVec.ofNat 64 (2 ^ 63 + 11)) 0 with irq := false })
  else
    match decodeAmz w with
    | .ok i => .run i s
    | .error _ => .done (s.rvTurn n)

def State.turnWork (s : State) : Work :=
  match s.turn with
  | .pipe c p => s.pipeWork c p
  | .hart n => s.hartWork n

/-! ## Inputs that no row of the table names -/

/-- An error of the array in the started head of a core (R315). -/
def FifoEntry.meet (e : FifoEntry) (kind : Nat) (cells : List Nat) : FifoEntry :=
  match e.op with
  | .mzero .. => e
  | .mma m n _ _ _ _ _ _ _ _ _ =>
    let at' := cells.headD 0
    match kind with
    | 0 => { e.mark stAPAR with spoiled := e.spoiled ++ (List.range n).map (fun j => at' * n + j) }
    | 1 => { e.mark stAPAR with spoiled := e.spoiled ++ (List.range m).map (fun i => i * n + at') }
    | _ => { e.mark stRESID with spoiled := e.spoiled ++ cells.take 256 }

/-- One input. -/
def State.input (s : State) (a : Act) : State :=
  match a with
  | .event _ => s
  | .turn _ => s
  | .evictL1 c line => (s.evictL1 c (l1Key line false)).evictL1 c (l1Key line true)
  | .evictL2 line => if (Tbl.look s.l2 line).any (fun l => l.pins == 0) then s.evictL2 line else s
  | .dropTlb c => s.modCore c (fun k => { k with tlb := [] })
  | .dropClusterTlb n => { s with ctlb := Tbl.drop s.ctlb n }
  | .badWord pa => if covered pa && !s.badWords.contains (pa / 4) then { s with badWords := s.badWords ++ [pa / 4] } else s
  | .badLine line => { s with l2 := Tbl.adjust s.l2 line (fun l => { l with bad := true }) }
  | .badAcc c i => if i < Config.nAcc then s.modCore c (fun k => { k with accBad := insertSorted i k.accBad }) else s
  | .badMac c kind cells =>
    match (s.core c).fifo with
    | e :: _ => if e.started && !e.follower then s.modHead c (fun e => e.meet kind cells) else s
    | [] => s
  | .readOperand c id glob addr => s.readAhead c id glob addr
  | .hostInside pa bytes => if bytes.isEmpty || !(covered pa && covered (pa + bytes.length - 1)) then s else s.deviceStore pa bytes
  | .hostAtomic port op n pa x y => s.hostAtomic port op n pa x y
  | .rootAtomics b => { s with rootAtomics := b }
  | .barRead port off => s.barRead port off
  | .barWrite port off v => s.barWrite port off v
  | .vcpRead v off n => s.vcpRead v off n
  | .vcpWrite v off bytes => s.vcpWrite v off bytes
  | .fwTables m descs ring len pages => { s with fwMap := m, fwDescs := descs, ring := ring, ringLen := len, vcpPages := some pages }
  | .journal h kind obj data => s.performRecord h kind obj (data.take 5)
  | .fwcWrite h v => s.writeFwcctl h v
  | .fwRead h rd r => s.fwRegRead h rd r
  | .loadHart h => if s.fwcActive.getLsbD h then s else s.setHart h { s.hart h with loaded := s.staged }
  | .ready b => s.ready b
  | .deviceId id => if id < 512 then { s with devId := BitVec.ofNat 9 id } else s
  | .debugHalt ctx => s.debugHalt ctx
  | .copyPages ctx ps => s.copyPages ctx ps
  | .saveImage ctx i => s.takeImage ctx i
  | .freeContext ctx => s.freeContext ctx
  | .peerWrite m pa => s.receive m (.peerWrite m pa) (fun s =>
      if m.data.isEmpty || !(covered pa && covered (pa + m.data.length - 1)) then s else s.deviceStore pa m.data)
  | .hostWrite pa bytes => if bytes.isEmpty || !(covered pa && covered (pa + bytes.length - 1)) then s else s.deviceStore pa bytes
  | .wridx q v => (s.setQueue q { s.queue q with wridx := v }).wakeFront
  | .descriptor q d => s.writeDesc q d
  | .rank ctx r w => if r < 512 then s.modCtx ctx (fun x => { x with ranks := Tbl.put x.ranks r w }) else s
  | .mset ctx n v => if n < 16 then s.loadMset ctx n v else s
  | .groupVote ctx n t => if n < 16 then s.groupVote ctx n t else s
  | .hartIrq n => s.setHart n { s.hart n with irq := true }
  | .deliverCause => s.deliverCause
  | .takePend v => s.takePend v
  | .vcpState v st => if st < 4 then s.setVcpState v st else s

end Sys2Proof.Machine
end

