-- ==== Sys2Proof/Machine/Step.lean ====
section
/-!
DEFINITION. One step of the device, and the placing of an instruction where the next step fetches it.
-/
namespace Sys2Proof.Machine

/-- The agent that has the turn does its next piece of work. -/
def runTurn (s : State) : Host.Outcome State Fault Refusal :=
  match s.turnWork with
  | .run i t => exec i t
  | .done t => .next t
  | .stop f => .fault f

/-- One step: the first act of the agenda, or, when there is none, the work of the agent that has the turn. -/
def step (s : State) : Host.Outcome State Fault Refusal :=
  match s.agenda with
  | [] => runTurn s
  | .event i :: r => exec i { s with agenda := r }
  | .turn t :: r => runTurn { s with agenda := r, turn := t }
  | a :: r => .next ({ s with agenda := r }.input a)

/-- The pass that holds one word at index 0 for thread slot 0 (log entry 1): its header selects flags f0 and f1, is a
convergence clause, and counts 24 instructions, or one when the word is a terminator. -/
def fetchPass (r : Raw) : Pass :=
  { id := 0, clause := 0x1000, start := 0, idx := 0, body := [r], slots := [0],
    hdr := BitVec.ofNat 64 (3 + 2 ^ 26 + 2 ^ 27 + 2 ^ 31 + 2 ^ 32 * (if r.isTerm then 1 else 24) + 2 ^ 37
      + (if r.major == 0xC0 then 2 ^ 38 else 0)) }

/-- A state whose next step fetches and runs a table word: a word of the firmware harts is stored at CP0's pc and CP0 has
the turn; a body word is the next word of a pass of one thread on pipe 0 of core 0. -/
def State.withFetchWord (s : State) (nbits w : Nat) : State :=
  if isAmzWord nbits w then
    { s with agenda := [], turn := .hart 0, fwRuns := true, mem := Memory.setBytes s.mem (s.hart 0).pc.toNat (leBytes 4 w) }
  else
    let raw : Raw := match rawOfBytes (leBytes 16 w) with
      | .ok (r, _) => r
      | .error _ => ⟨0, 0⟩
    { s with
      agenda := []
      turn := .pipe 0 0
      cores := Tbl.put s.cores 0 { s.core 0 with pipes := Tbl.put (s.core 0).pipes 0 (fetchPass raw) }
      threads := Tbl.put s.threads 0 { place := .pass 0, pos := 0x101F }
      gangs := Tbl.put s.gangs 0 { team := 0, num := 0 }
      teams := Tbl.put s.teams 0 { grid := 0, num := 0, lcore := 0, core := 0, footprint := 0 }
      grids := Tbl.put s.grids 0 { (default : Grid) with gx := 1, gy := 1, gz := 1, tx := 1, ty := 1, tz := 1, cgangs := 1, cregs := 256 } }

end Sys2Proof.Machine
end

