-- ==== Sys2Proof/Safety.lean ====
section
/-!
DEFINITION. The terms in which statements speak of an instruction's effect on a pass: what the lanes leave, what stays as it
was, and how the pass goes on.
-/
namespace Sys2Proof.Machine

/-- An instruction with this guard has the turn, and executes for the lanes `ks` of pass `x` of pipe `p` of core `c`. -/
def Executes (s : State) (c p : Nat) (x : Pass) (g : Guard) (ks : List Nat) : Prop :=
  s.curPass = some (c, p, x) ∧ s.executing c x g = ks ∧ x.slots ≠ []

/-- R176: what the lanes of one gang write to uniform registers is equal, and a lane writes one only where CONV is 1. -/
def Agree (hdr : DWord) (ks : List Nat) (out : Nat → LaneOut) : Prop :=
  ∀ k ∈ ks, ((out k).g = [] ∧ (out k).tw = none) ∨
    (Hdr.conv hdr = true ∧ ∀ j ∈ ks, j / 32 = k / 32 → (out j).g = (out k).g ∧ (out j).tw = (out k).tw)

/-- Lanes with their results. -/
def results (ks : List Nat) (out : Nat → LaneOut) : List (Nat × LaneOut) := ks.map (fun k => (k, out k))

/-- The pass that goes on after an instruction: its index and the use of its channel reservations (R178). -/
def nextPass (s : State) (c : Nat) (x : Pass) (reads : Bool) (outs : List (Nat × LaneOut)) : Pass :=
  { (s.useChans c x reads outs).2 with idx := x.idx + 1 }

/-- After an instruction that changed the state to `s` the pass goes on to `t`: its index and reservations change, the
entries of R178 are popped and filled, and nothing else. -/
structure GoesOn (s t : State) (c p : Nat) (x : Pass) (reads : Bool) (outs : List (Nat × LaneOut)) : Prop where
  rest : t = { s with cores := t.cores, teams := t.teams }
  teams : t.teams = (s.useChans c x reads outs).1.teams
  cores : t.cores = (s.setPass c p (nextPass s c x reads outs)).cores

/-- The effect of an instruction that acts on registers: each lane leaves the thread, the uniform registers and the tile
width of its result, nothing else of a gang and no other thread changes, and the pass goes on. -/
structure LaneEffect (s t : State) (c p : Nat) (x : Pass) (ks : List Nat) (reads : Bool) (out : Nat → LaneOut) : Prop where
  thread : ∀ k ∈ ks, t.thr c k = (out k).th
  otherThreads : ∀ n, (∀ k ∈ ks, n ≠ threadKey c k) → Tbl.look t.threads n = Tbl.look s.threads n
  uniform : ∀ k ∈ ks, ∀ n, Tbl.look (t.gang c (k / 32)).g n
    = Tbl.look ((out k).g.foldl (fun g w => Tbl.put g w.1 w.2) (s.gang c (k / 32)).g) n
  gang : ∀ k ∈ ks, t.gang c (k / 32)
    = { s.gang c (k / 32) with g := (t.gang c (k / 32)).g, tw := (out k).tw.getD (s.gang c (k / 32)).tw }
  otherGangs : ∀ n, (∀ k ∈ ks, n ≠ gangKey c (k / 32)) → Tbl.look t.gangs n = Tbl.look s.gangs n
  teams : t.teams = (s.useChans c x reads (results ks out)).1.teams
  cores : t.cores = (s.setPass c p (nextPass s c x reads (results ks out))).cores
  rest : t = { s with threads := t.threads, gangs := t.gangs, teams := t.teams, cores := t.cores }

/-- Lanes act one after another in ascending slot, each on the state that the one before left, and none leaves its pass. -/
def InTurn (act : State → Lane → State × Option LaneFail) (c : Nat) (x : Pass) : List Nat → State → State → Prop
  | [], s, t => t = s
  | k :: r, s, t => ∃ u, act s (x.lane c k) = (u, none) ∧ InTurn act c x r u t

/-- Lanes take their turns one after another in ascending slot, each from the state that the one before left to a state that
the relation allows. -/
def Each (R : State → Lane → State → Prop) (c : Nat) (x : Pass) : List Nat → State → State → Prop
  | [], s, t => t = s
  | k :: r, s, t => ∃ u, R s (x.lane c k) u ∧ Each R c x r u t

/-- The lanes `ks` of a pass take their turns by a relation, and the pass goes on. -/
def LanesRun (R : State → Lane → State → Prop) (s : State) (c p : Nat) (x : Pass) (ks : List Nat) (reads : Bool) (t : State) : Prop :=
  ∃ u, Each R c x ks s u ∧ GoesOn u t c p x reads (ks.map (fun k => (k, ({ th := s.thr c k } : LaneOut))))

/-- The lanes of a pass take their turns at its terminator, and the pass ends (R166). -/
def LanesEnd (R : State → Lane → State → Prop) (s : State) (c p : Nat) (x : Pass) (t : State) : Prop :=
  ∃ u, Each R c x x.slots s u ∧ t = u.endPass c p x

/-- At a terminator the lanes that `fault` names take their faults, the others take their turns before them, and the pass ends for
those (R105, R107, R166). -/
def LanesSplit (R : State → Lane → State → Prop) (s : State) (c p : Nat) (x : Pass) (fault : Nat → Option FaultInfo) (t : State) : Prop :=
  let bad := x.slots.filter (fun k => (fault k).isSome)
  ∃ u, Each R c x (x.slots.filter (fun k => (fault k).isNone)) s u
    ∧ t = (u.leave c x (bad.map (fun k => (k, LaneFail.fault ((fault k).getD default))))).endPass c p (x.without bad)

/-- What a branch leaves of a lane: one whose predicate holds at its target, with the link register pair holding FT after a call;
any other at FT. -/
def BranchLane (f : Fields) (ft : DWord) (a : Nat → DWord) (linked : Bool) (u : State) (l : Lane) (v : State) : Prop :=
  v = u.setThr l.core l.slot (if (l.thr u).holds f.guard then
    { (if linked then (({ th := l.thr u } : LaneOut).putPair (l.regs u) f.dst ft).th else l.thr u) with pos := entryPos (a l.slot) }
    else { l.thr u with pos := entryPos ft })

/-- The membership faults of R412 and R429 for register `n`: `g` is the gang after CATCHUP, `op` the operator that a `cbr` names, and
`faults i h` says that the instruction raises fault `i` and leaves the gang as `h`. -/
def VoteFaults (s : State) (y : Ctx) (n : Nat) (op : Option Nat) (g : Gang) (faults : FaultInfo → Gang → Prop) : Prop :=
  let m := y.msetOf n
  let q := g.seqOf n
  let info := fun (q : BitVec 16) (res : Bool) (cause : Nat) =>
    (⟨0x16, BitVec.ofNat 32 (q.toNat * 2 ^ 16 + b2n res * 2 ^ 15 + n * 16 + cause), 0⟩ : FaultInfo)
  let fits := Mset.valid m = true ∧ ∀ o, op = some o → o = Mset.vop m
  (g.voided.getLsbD n = true → faults (info (q - 1) false 3) (g.setWait n false))
  ∧ (g.voided.getLsbD n = false →
    (Mset.valid m = false → faults (info q false 0) g)
    ∧ (∀ o, Mset.valid m = true → op = some o → o ≠ Mset.vop m → faults (info q false 1) g)
    ∧ (fits → g.dropOf n ≠ 0 → faults (info q (decide (g.dropOf n = 2)) (if g.dropOf n = 3 then 7 else 6)) (g.setDrop n 0))
    ∧ (fits → g.dropOf n = 0 → g.member n = false → faults (info q false 2) g)
    ∧ (fits → g.dropOf n = 0 → g.member n = true → s.inGroup y m = false → faults (info q false 4) g)
    ∧ (fits → g.dropOf n = 0 → g.member n = true → s.inGroup y m = true → g.waiting n = true → Mset.seq m ≠ q - 1 →
      let o := y.outcomeOf n (q - 1)
      (o = 2 → faults (info (q - 1) false 5) (g.setWait n false)) ∧ (o = 3 → faults (info (q - 1) false 3) (g.setWait n false))
      ∧ (3 < o → faults (info (q - 1) false 7) ((g.setWait n false).setMember n false))))

/-- A thread has taken the membership fault of R429 at a position: its frame and FARG.CODE hold it, and the handler runs. -/
def MemberFaulted (th : Thread) (pos : DWord) (finfo : Word) : Prop :=
  th.hnd = true ∧ th.fcode = 0x16 ∧ th.fpos = pos ∧ th.frame.extractLsb' 64 32 = finfo ∧ th.frame.extractLsb' 96 64 = 0

/-- What the levels of memory change when an access goes through them: bytes of memory with their keys and errors, lines of
the L2 and of the L1 portions, cached translations and monitors. Memory keeps its canonical form. Where the pages of virtual command
processors are placed (R372), a store to them changes PEND, the plain bytes of a page, and the descriptor fields that an owner writes. -/
structure MemSide (s t : State) : Prop where
  rest : t = { s with
    mem := t.mem, badWords := t.badWords, lineKey := t.lineKey, dirtyPages := t.dirtyPages, l2 := t.l2, l2use := t.l2use
    cores := t.cores, ctlb := t.ctlb, vcps := t.vcps, queues := t.queues }
  core : ∀ c, t.core c = { s.core c with
    l1 := (t.core c).l1, l1use := (t.core c).l1use, tlb := (t.core c).tlb, monitor := (t.core c).monitor }
  wf : Memory.wf s.mem = true → Memory.wf t.mem = true
  unplaced : s.vcpPages = none → t.vcps = s.vcps ∧ t.queues = s.queues
  page : ∀ n, t.vcp n = { s.vcp n with pend := (t.vcp n).pend, area := (t.vcp n).area }
  queue : ∀ n, t.queue n = { s.queue n with
    ring := (t.queue n).ring, qctl := (t.queue n).qctl, qstat := (t.queue n).qstat, wridx := (t.queue n).wridx }

/-- Time passes: a core's clock, its counters and the places and counts of waiting threads change, and nothing else. -/
structure TimePasses (s t : State) : Prop where
  rest : t = { s with time := t.time, cores := t.cores, threads := t.threads }
  core : ∀ c, t.core c = { s.core c with
    phase := (t.core c).phase, cycle := (t.core c).cycle, wvt := (t.core c).wvt, bin := (t.core c).bin, wd := (t.core c).wd
    idle := (t.core c).idle, arrayAt := (t.core c).arrayAt }
  thread : ∀ c k, t.thr c k = { s.thr c k with park := (t.thr c k).park, place := (t.thr c k).place }

/-- Every byte of memory reads as before: physical memory under each key, the scratchpads, and what each L1 portion shows. -/
def SameBytes (s t : State) : Prop :=
  (∀ key pa, t.physByte key pa = s.physByte key pa) ∧ (∀ l1 key pa, t.viewByte l1 key pa = s.viewByte l1 key pa)
    ∧ (∀ m o, (t.team m).spadByte o = (s.team m).spadByte o)

/-- Events follow: acts join the end of the agenda, and nothing else changes. -/
def Follows (s t : State) : Prop := ∃ l, t = { s with agenda := s.agenda ++ l }

/-- What leaving a core brings with it: bytes of memory below the L1 portions, the L1 portions themselves, and the clusters'
L1 mode. -/
def Leaves (s t : State) : Prop :=
  t = { s with
    mem := t.mem, badWords := t.badWords, lineKey := t.lineKey, dirtyPages := t.dirtyPages, l2 := t.l2, cores := t.cores
    dies := t.dies, fused := t.fused, threads := t.threads, gangs := t.gangs, teams := t.teams, grids := t.grids
    copies := t.copies, ctxs := t.ctxs, agenda := t.agenda, vcps := t.vcps, queues := t.queues }

/-! ## What accesses to global memory see -/

/-- The copy of a line that an L1 portion holds. -/
def State.l1Line (s : State) (l1 pa : Nat) (const : Bool) : Option L1Line := Tbl.look (s.core l1).l1 (l1Key (pa / 64) const)

/-- What a load by way of an L1 portion sees at an address: the byte, and whether its word has an uncorrectable error. -/
def State.seen (s : State) (l1 key pa : Nat) (const : Bool) : Byte × Bool :=
  match s.l1Line l1 pa const with
  | some l => (lineByte l.data (pa % 64), l.bad.getLsbD (pa % 64 / 4))
  | none => (s.physByte key pa, s.physBad (4 * (pa / 4)) 4)

/-- The byte at the home slice once the L1 portion has written its dirty bytes back. -/
def State.homeByte (s : State) (l1 key pa : Nat) : Byte :=
  match s.l1Line l1 pa false with
  | some l => if l.dirty.getLsbD (pa % 64) then lineByte l.data (pa % 64) else s.physByte key pa
  | none => s.physByte key pa

/-- No line of a slice has an owner tag or an error, and the L1 portion holds the line of `pa`, if at all, as that line under
the key and without an error (it keeps no other, R248): then no other core's stores, no error of a slice and no second key takes
part in an access. -/
structure Plain (s : State) (l1 key pa : Nat) (const : Bool) : Prop where
  slices : ∀ n l, Tbl.look s.l2 n = some l → l.owner = none ∧ l.bad = false
  l1 : ∀ l, s.l1Line l1 pa const = some l → l.key = key ∧ l.line = pa / 64 ∧ l.bad = 0
  wf : Memory.wf s.mem = true

/-- An L1 portion has room for one more line, so that none leaves it for the line an access brings in (R244). -/
def Roomy (s : State) (l1 : Nat) : Prop := (s.core l1).l1.length < s.l1Room l1

/-- The byte that a store held for the gang of a lane gives at offset `i` of an access (R421). -/
def State.heldByte (s : State) (l : Lane) (t : Target) (ea i : Nat) : Option (Byte × Bool) :=
  match (t.block ea).bind ((s.core l.core).held l.gslot) with
  | some e => if e.mask.getLsbD (t.offset ea + i) then some (e.data.extractLsb' (8 * (t.offset ea + i)) 8, false) else none
  | none => none

/-- `n` bytes stored to a thread's window from `ea`: each lands in the word, the distribution register or the frame that lies there, but for
padding, and for reserved fields of a distribution register, which ignore it and read as zero (R7, R118, R134). The frame changes only
where the bytes reach it, and nothing else changes. -/
def WinStored (w v : State) (l : Lane) (regs dregs ea n : Nat) (bs : List Byte) : Prop :=
  let th := w.thr l.core l.slot
  let u := v.thr l.core l.slot
  let padding := fun (a : Nat) => 4 * regs ≤ a ∧ a < dregBase regs
  let kept := fun (a : Nat) => if a < dregBase regs then (0xFF : Byte) else
    if (a - dregBase regs) % 64 < 51 then 0xFF else if (a - dregBase regs) % 64 = 51 then 0x3F else 0
  v = { w with threads := v.threads } ∧ (∀ q, q ≠ threadKey l.core l.slot → Tbl.look v.threads q = Tbl.look w.threads q)
  ∧ u = { th with v := u.v, vPoison := u.vPoison, d := u.d, dPoison := u.dPoison, frame := u.frame }
  ∧ (ea + n ≤ frameBase regs dregs → u.frame = th.frame)
  ∧ ∀ a < frameBase regs dregs,
    let stored := ea ≤ a ∧ a < ea + n
    (u.winByte regs dregs a).1 &&& kept a
      = (if stored ∧ ¬ padding a then bs.getD (a - ea) 0 else (th.winByte regs dregs a).1) &&& kept a
    ∧ (stored → dregBase regs ≤ a → (u.winByte regs dregs a).1 &&& ~~~(kept a) = 0)

/-! ## What the sources of a register instruction give a lane, and what its result is -/

/-- The fields of an integer instruction hold operands its entry admits: SA, then SB unless IMM32 replaces it, and DST. -/
def AdmitsUn (s : State) (f : Fields) (l : Lane) : Prop :=
  l.check s [(pSA, .src f.ty.isPair, f.sa), (pDST, .dst f.ty.isPair, f.dst)] = .ok ()
def AdmitsBin (s : State) (f : Fields) (l : Lane) : Prop :=
  l.check s ([(pSA, .src f.ty.isPair, f.sa)] ++ unlessImm f (pSB, .src f.ty.isPair, f.sb) ++ [(pDST, .dst f.ty.isPair, f.dst)])
    = .ok ()

/-- A lane reads the pattern `a` from SA. -/
def ReadsA (s : State) (f : Fields) (l : Lane) (a : Nat) : Prop := l.readInt s pSA f.sa f.ty = .ok a
/-- A lane reads the pattern `b` from SB, or IMM32 gives it. -/
def ReadsB (s : State) (f : Fields) (l : Lane) (b : Nat) : Prop := l.readIntI s pSB f.sb f.ty f.imm = .ok b

/-- What the destination of an integer instruction becomes for a lane: the pattern extended by R28. -/
def IntResult (s : State) (f : Fields) (l : Lane) (p : Nat) : LaneOut := (l.start s f).putInt (l.regs s) f.dst f.ty p

/-- The shift amount of R77: IMM32, or the low 32 bits of SB. -/
def ShiftAmount (s : State) (f : Fields) (l : Lane) (n : Nat) : Prop :=
  match f.imm with
  | some i => n = i.toNat
  | none => if f.ty.isPair then ∃ d, l.readPair s pSB f.sb = .ok d ∧ n = (loWord d).toNat
    else ∃ w, l.readWord s pSB f.sb = .ok w ∧ n = w.toNat

/-- The fields of a three-source integer instruction, IMM32 standing for SB or for SC. -/
def AdmitsTri (s : State) (f : Fields) (l : Lane) : Prop :=
  l.check s ([(pSA, .src f.ty.isPair, f.sa)] ++ unlessImm f (pSB, .src f.ty.isPair, f.sb)
    ++ [(pSC, .src f.ty.isPair, f.sc), (pDST, .dst f.ty.isPair, f.dst)]) = .ok ()
def AdmitsTriC (s : State) (f : Fields) (l : Lane) : Prop :=
  l.check s ([(pSA, .src f.ty.isPair, f.sa), (pSB, .src f.ty.isPair, f.sb)] ++ unlessImm f (pSC, .src f.ty.isPair, f.sc)
    ++ [(pDST, .dst f.ty.isPair, f.dst)]) = .ok ()

/-- A floating-point result: its pattern, and the flags it raises in FPST. -/
def FpResult (s : State) (f : Fields) (l : Lane) (r : Nat × BitVec 5) : LaneOut :=
  ((l.start s f).put (l.regs s) f.dst (BitVec.ofNat 32 r.1)).orFlags r.2

/-- The slots of a lane's tile among the lanes for which an instruction executes (R177, R182). -/
def tileSlots (s : State) (l : Lane) (ks : List Nat) : List Nat :=
  ks.filter (fun k => k / 32 = l.gslot && tileBase s l ≤ k % 32 && k % 32 < tileBase s l + tileWidth s l)

/-- The lanes of a tile with what each supplies, by lane number. -/
def tileReads {α : Type} (s : State) (l : Lane) (ks : List Nat) (v : Nat → α) : List (Nat × α) :=
  (tileSlots s l ks).map (fun k => (k % 32, v k))

/-- WNORM for each distribution operand whose weights the view normalised (R136). -/
def noteViews (o : LaneOut) (rs : List DReg) : LaneOut :=
  rs.foldl (fun o r => if r.view.2 then { o with th := o.th.orDst dWNORM } else o) o

end Sys2Proof.Machine
end

