-- ==== Sys2Proof/WellFormed.lean ====
section
/-!
DEFINITION. Which instructions are well formed: the fields hold values the instruction's entry accepts (R64 steps 1 to 3).
Events and Xamz instructions carry no field a word could get wrong.
-/
namespace Sys2Proof

/-- A breach of the instruction's own form, if any. -/
def Instr.breach (i : Instr) : Option Reject :=
  match i with
  | .unassignedOpcode _ _ => some .badCombination
  | _ =>
    match i.form, i.fields with
    | some k, some f =>
      -- a 128-bit form carries an extension in place of IMM32 (R52 to R54)
      if k.len128 && f.imm.isSome then some .badLength
      else
      match k.breach i.lenCode f with
      | some b => some b
      | none => i.extBreach
    | _, _ => none

/-- Every field holds a value the entry accepts. -/
def Instr.wf (i : Instr) : Bool := i.breach.isNone

end Sys2Proof
end

