-- ==== Sys2Proof/Certificates/Slice0/Obligations.lean ====
section
/-!
DEFINITION. The statements for the provers. Each docstring says which rules it formalises, or on what it is derived.
-/
open Sys2Proof Sys2Proof.Machine

/-! ## Decoding, reset, and the step -/

/-- Derived from R12, R52 to R64, R364: encoding and decoding agree. Every well-formed instruction that has a word comes
back from the bytes of its encoding, whatever bytes follow. -/
def Obligations.DecodeOfEncode : Prop :=
  ∀ (i : Instr) (bs : List Byte), i.wf = true → encode i = some bs →
    (∀ w, encodeAmz i = some w → bs = leBytes 4 w.toNat ∧ decodeAmz w = .ok i)
    ∧ (encodeAmz i = none → ∀ rest, decode (bs ++ rest) = .ok (i, rest))

/-- Derived from R13, R63, R64: a body word decodes to no instruction but a well-formed one, whose encoding is that word
(the fill word of a 96-bit form apart, which the core does not read); LEN 0b11 is refused; a reserved MAJOR is the row
of unassigned opcodes whatever else the word holds. -/
def Obligations.DecodedWordsAreWellFormed : Prop :=
  (∀ (r : Raw) (i : Instr), decodeRaw r = .ok i → (∀ g m, i ≠ .unassignedOpcode g m) →
    i.wf = true ∧ ((r.len = 0 → r.ext = 0) → (r.len = 1 → r.ext.toNat < 2 ^ 32) → encodeRaw i = some r))
  ∧ (∀ r : Raw, r.len = 3 → decodeRaw r = .error .headerInBody)
  ∧ (∀ r : Raw, r.len ≠ 3 → (let m := r.major.toNat
      (0x1E ≤ m ∧ m ≤ 0x1F) ∨ (0x2E ≤ m ∧ m ≤ 0x3F) ∨ (0x4E ≤ m ∧ m ≤ 0x4F) ∨ (0x5C ≤ m ∧ m ≤ 0x5F) ∨ m = 0x6F
        ∨ (0x74 ≤ m ∧ m ≤ 0x7F) ∨ (0x85 ≤ m ∧ m ≤ 0x8F) ∨ (0x94 ≤ m ∧ m ≤ 0x9F) ∨ (0xA6 ≤ m ∧ m ≤ 0xAF)
        ∨ (0xB8 ≤ m ∧ m ≤ 0xBF) ∨ (0xC6 ≤ m ∧ m ≤ 0xCF) ∨ 0xD8 ≤ m) →
      decodeRaw r = .ok (.unassignedOpcode r.guard r.major))

/-- Derived from the worked encodings after R64 and those of the instructions' own chapters: words written out in the spec
decode to the instructions they stand for. -/
def Obligations.SpecWordsDecode : Prop :=
  decodeRaw ⟨0x503FF9500005C000, 0⟩ = .ok (.iadd
      { ty := .s32, dst := .v 1, sa := .v 0, sb := .inline 21, sc := .none, guard := ⟨7, false⟩, minor := 0, md := 0, slot := 0, imm := none })
  ∧ decodeRaw ⟨0x403FFFFFF809C071, 0x12345678⟩ = .ok (.movi
      { ty := .u32, dst := .v 2, sa := .none, sb := .none, sc := .none, guard := ⟨7, false⟩, minor := 0, md := 0, slot := 0, imm := some 0x12345678 })
  ∧ decodeRaw ⟨0x003FFFFFFFFDC358, 0⟩ = .ok (.nop
      { ty := .u8, dst := .none, sa := .none, sb := .none, sc := .none, guard := ⟨7, false⟩, minor := 0, md := 0, slot := 0, imm := none })
  ∧ decodeAmz 0x00C5850B = .ok (.amzQfetch 10 11 12)
  ∧ decodeAmz 0x00B5328B = .ok (.amzDispatch 5 10 11)

/-- Derived from R2, R9, R16, R23, R143, R177, R221, R246, R258, R262, R327, R340, R344, R348, R363, R407 and log entries
1, 3, 4: reset leaves each register at the value the spec states: the thread's zeros, invalid temporaries and user
privilege (R9, R16), the frame (R23), BNDMASK (R262), the stop record (R340), BGSTAT (R407) and the others named. A
register of the statement for which the spec states no value reads zero by the model's choice (log entry 3), and the
program, teams and queues that reset leaves absent are its choice too (log entry 1). Memory is in its canonical form,
with nothing listed; what an unlisted byte reads as is the model's choice (log entry 4). -/
def Obligations.ResetLeavesTheStatedValues : Prop :=
  (
    (∀ c k, (State.reset.thr c k).linctr = 1 ∧ (State.reset.thr c k).tvalid = 0 ∧ (State.reset.thr c k).preds = 0
      ∧ (State.reset.thr c k).fpst = 0 ∧ (State.reset.thr c k).frame = 0 ∧ (State.reset.thr c k).fcode = 0
      ∧ (State.reset.thr c k).priv = false ∧ (State.reset.thr c k).hnd = false ∧ (∀ f, (State.reset.thr c k).flag f = 0)
      ∧ (∀ n, (State.reset.thr c k).readV 256 n = 0 ∧ (State.reset.thr c k).readD n = 0))
    ∧ (∀ c g, (State.reset.gang c g).tw = 5 ∧ (State.reset.gang c g).bndmask = 0 ∧ ∀ n, (State.reset.gang c g).readG n = 0)
    ∧ (∀ c, (State.reset.core c).step = 15)
    ∧ (∀ d, (State.reset.die d).budget = 80 ∧ (State.reset.die d).ramp = 64 ∧ (State.reset.die d).power = 700)
    ∧ (∀ x, (State.reset.ctx x).ptroot = 0 ∧ (State.reset.ctx x).xlctl = 18 ∧ (State.reset.ctx x).wdlimit = 0x10000000000
      ∧ (State.reset.ctx x).pdeadline = 200 ∧ (State.reset.ctx x).loop.ctrl = 0x05000000 ∧ (State.reset.ctx x).bgstat = 0
      ∧ (State.reset.ctx x).stop = 0 ∧ (State.reset.ctx x).run = .running)
    ∧ State.reset.fwcActive = 0b0011) ∧
  (
    Memory.wf State.reset.mem = true ∧ ∀ a, Memory.get State.reset.mem a = Config.unwrittenByte)

/-- Derived from R246 to R248 and log entry 4: memory stays in its canonical form, addresses rising and no entry equal to
what an unlisted address reads as, over every step from every state. -/
def Obligations.MemoryStaysCanonical : Prop :=
  ∀ s t : State, Memory.wf s.mem = true → step s = .next t → Memory.wf t.mem = true

/-- Derived from R12, R13, R64, R171, R248, R364, R372, R384 and log entries 2, 5, 8, 9, 114 and 115: a step runs the
decoded instruction. A pipe runs its pass's next body word, after the cycles of the issue take their time, unless the
pass is stalled, an event falls due by then or another pipe's pass forms first; the words of a body are those that its
bytes in memory decode to; a hart whose firmware passed its check runs the word at its pc; an event of the agenda runs
next. The order of the agenda, the turn and what falls due (log entry 2), the hart's fetch from the physical address
in its pc (log entry 5), the time that an issue takes (log entry 8), a fetch that reads the L2 (log entry 9), the open
values that it delivers of an uncorrectable line (log entry 114) and that it brings no line into a slice (log entry
115) are the model's choices. -/
def Obligations.StepRunsTheDecodedInstruction : Prop :=
  (∀ (s : State) (c p : Nat) (x : Pass) (r : Raw) (i : Instr), s.agenda = [] → s.turn = .pipe c p →
      Tbl.look (s.core c).pipes p = some x → x.body[x.idx]? = some r → reachedBreach x = none → decodeRaw r = .ok i →
      x.stalled = false → s.comesFirst c x = none →
      step s = exec i (s.tick c x.groups) ∧ (s.tick c x.groups).curPass = some (c, p, x) ∧ TimePasses s (s.tick c x.groups))
  ∧ (∀ (s : State) (n : Nat) (i : Instr), s.agenda = [] → s.turn = .hart n → (s.hart n).halted = false → s.fwRuns = true →
      ¬ ((s.hart n).irq = true ∧ (s.hart n).mie = true) →
      decodeAmz (s.hartWord n) = .ok i → step s = exec i s)
  ∧ (∀ (s : State) (n : Nat), s.anyBad = false → s.vcpPages = none →
      s.hartWord n = BitVec.ofNat 32 (leNat (Memory.getBytes s.mem (s.hart n).pc.toNat 4)))
  ∧ (∀ (s : State) (i : Instr) (r : List Act), s.agenda = .event i :: r → step s = exec i { s with agenda := r })
  ∧ (∀ (s s1 : State) (m : Mapping) (c ctx : Nat) (user : Bool) (va n : Nat),
      s.translate c ctx { fetch := true, user := user } va = .ok (s1, m) →
      ∃ (t : State) (bs : List Byte), s.fetchBytes c ctx user va n = .ok (t, bs) ∧ MemSide s1 t ∧ bs.length = n
        ∧ (s1.anyBad = false → t = s1 ∧ bs = s1.physBytes m.key m.pa n))
  ∧ (∀ (s s1 : State) (c ctx : Nat) (user : Bool) (va n : Nat) (bs : List Byte) (r : Raw),
      s.fetchBytes c ctx user va 8 = .ok (s1, bs) → rawOfBytes bs = .ok (r, []) → r.len = 0 →
      s.fetchBody c ctx user va (n + 1) = (s1.fetchBody c ctx user (va + 8) n).map (fun q => (q.1, r :: q.2)))
  ∧ (∀ (s s1 s2 : State) (c ctx : Nat) (user : Bool) (va n : Nat) (bs es : List Byte) (r : Raw), va % 32 ≠ 24 →
      s.fetchBytes c ctx user va 8 = .ok (s1, bs) → s1.fetchBytes c ctx user (va + 8) 8 = .ok (s2, es) →
      rawOfBytes (bs ++ es) = .ok (r, []) → r.len = 1 ∨ r.len = 2 →
      s.fetchBody c ctx user va (n + 1) = (s2.fetchBody c ctx user (va + 16) n).map (fun q => (q.1, r :: q.2)))

/-! ## Integer instructions (R72 to R88) -/

/-- Derived from R74, R78, R79, R86: the one-source and two-source integer and logic instructions, IMM32 standing for SB
where it does. Each lane's destination takes the pattern that the instruction gives for its sources, and nothing
changes but what `LaneEffect` names. -/
def Obligations.OneAndTwoSourceIntegerResults : Prop :=
  (
    ∀ e ∈ ([
        (Instr.iabs, fun f a r => r = applyMode f.md.toNat f.ty.width ((f.ty.val a).natAbs : Int)),
        (Instr.ineg, fun f a r => r = applyMode f.md.toNat f.ty.width (-(f.ty.val a))),
        (Instr.mov, fun _ a r => r = a),
        (Instr.popc, fun f a r => r = (List.range f.ty.width).countP (fun i => bitOf a i)),
        (Instr.clz, fun f a r => r ≤ f.ty.width ∧ a < 2 ^ (f.ty.width - r) ∧ (r < f.ty.width → 2 ^ (f.ty.width - r - 1) ≤ a)),
        (Instr.ctz, fun f a r => r ≤ f.ty.width ∧ a % 2 ^ r = 0 ∧ (r < f.ty.width → bitOf a r = true)),
        (Instr.brev, fun f a r => r < 2 ^ f.ty.width ∧ ∀ i < f.ty.width, bitOf r i = bitOf a (f.ty.width - 1 - i))]
        : List ((Fields → Instr) × (Fields → Nat → Nat → Prop))),
      ∀ (f : Fields) (s : State) (c p : Nat) (x : Pass) (ks : List Nat) (a r : Nat → Nat), Executes s c p x f.guard ks →
        (∀ k ∈ ks, AdmitsUn s f (x.lane c k) ∧ ReadsA s f (x.lane c k) (a k) ∧ e.2 f (a k) (r k)) →
        Agree x.hdr ks (fun k => IntResult s f (x.lane c k) (r k)) →
        ∃ t, exec (e.1 f) s = .next t ∧ LaneEffect s t c p x ks f.readsChannel (fun k => IntResult s f (x.lane c k) (r k))) ∧
  (
    ∀ e ∈ ([
        (Instr.iadd, fun f a b r => r = applyMode f.md.toNat f.ty.width (f.ty.val a + f.ty.val b)),
        (Instr.isub, fun f a b r => r = applyMode f.md.toNat f.ty.width (f.ty.val a - f.ty.val b)),
        (Instr.imul, fun f a b r => r = applyMode f.md.toNat f.ty.width (f.ty.val a * f.ty.val b)),
        (Instr.imulh, fun f a b r => r = wrap ((f.ty.val a * f.ty.val b) / ((2 ^ f.ty.width : Nat) : Int)) f.ty.width),
        (Instr.imin, fun f a b r => r = if f.ty.val a ≤ f.ty.val b then a else b),
        (Instr.imax, fun f a b r => r = if f.ty.val b ≤ f.ty.val a then a else b),
        (Instr.andOp, fun f a b r => r < 2 ^ f.ty.width ∧ ∀ i < f.ty.width, bitOf r i = (bitOf a i && bitOf b i)),
        (Instr.orOp, fun f a b r => r < 2 ^ f.ty.width ∧ ∀ i < f.ty.width, bitOf r i = (bitOf a i || bitOf b i)),
        (Instr.xorOp, fun f a b r => r < 2 ^ f.ty.width ∧ ∀ i < f.ty.width, bitOf r i = (bitOf a i != bitOf b i)),
        (Instr.andn, fun f a b r => r < 2 ^ f.ty.width ∧ ∀ i < f.ty.width, bitOf r i = (bitOf a i && !bitOf b i))]
        : List ((Fields → Instr) × (Fields → Nat → Nat → Nat → Prop))),
      ∀ (f : Fields) (s : State) (c p : Nat) (x : Pass) (ks : List Nat) (a b r : Nat → Nat), Executes s c p x f.guard ks →
        (∀ k ∈ ks, AdmitsBin s f (x.lane c k) ∧ ReadsA s f (x.lane c k) (a k) ∧ ReadsB s f (x.lane c k) (b k)
          ∧ e.2 f (a k) (b k) (r k)) →
        Agree x.hdr ks (fun k => IntResult s f (x.lane c k) (r k)) →
        ∃ t, exec (e.1 f) s = .next t ∧ LaneEffect s t c p x ks f.readsChannel (fun k => IntResult s f (x.lane c k) (r k)))

/-- R77: shifts and rotates, for every amount of 32 bits. -/
def Obligations.ShiftResults : Prop :=
  ∀ e ∈ ([
      (Instr.shl, fun f a n r => r = applyMode f.md.toNat f.ty.width (f.ty.val a * ((2 ^ n : Nat) : Int))),
      (Instr.shr, fun _ a n r => r = a / 2 ^ n),
      (Instr.sar, fun f a n r => r = wrap (sx a f.ty.width / ((2 ^ n : Nat) : Int)) f.ty.width),
      (Instr.rotl, fun f a n r => r < 2 ^ f.ty.width ∧ ∀ i < f.ty.width, bitOf r ((i + n) % f.ty.width) = bitOf a i)]
      : List ((Fields → Instr) × (Fields → Nat → Nat → Nat → Prop))),
    ∀ (f : Fields) (s : State) (c p : Nat) (x : Pass) (ks : List Nat) (a n r : Nat → Nat), Executes s c p x f.guard ks →
      (∀ k ∈ ks, AdmitsBin s f (x.lane c k) ∧ ReadsA s f (x.lane c k) (a k) ∧ ShiftAmount s f (x.lane c k) (n k)
        ∧ e.2 f (a k) (n k) (r k)) →
      Agree x.hdr ks (fun k => IntResult s f (x.lane c k) (r k)) →
      ∃ t, exec (e.1 f) s = .next t ∧ LaneEffect s t c p x ks f.readsChannel (fun k => IntResult s f (x.lane c k) (r k))

/-- Derived from R74, R78, R80, R81: the three-source integer instructions; IMM32 stands for SB of `imad` and for SC of
the others. Bit fields: the descriptor gives the position in bits [7:0] and the length in bits [15:8]; a field past
the top bit is cut there. -/
def Obligations.ThreeSourceAndBitFieldResults : Prop :=
  (
    (∀ (f : Fields) (s : State) (c p : Nat) (x : Pass) (ks : List Nat) (a b d : Nat → Nat), Executes s c p x f.guard ks →
        (∀ k ∈ ks, AdmitsTri s f (x.lane c k) ∧ ReadsA s f (x.lane c k) (a k) ∧ ReadsB s f (x.lane c k) (b k)
          ∧ (x.lane c k).readInt s pSC f.sc f.ty = .ok (d k)) →
        let out := fun k => IntResult s f (x.lane c k)
          (applyMode f.md.toNat f.ty.width (f.ty.val (a k) * f.ty.val (b k) + f.ty.val (d k)))
        Agree x.hdr ks out → ∃ t, exec (.imad f) s = .next t ∧ LaneEffect s t c p x ks f.readsChannel out)
    ∧ ∀ e ∈ ([
        (Instr.iclamp, fun f a b d r => r < 2 ^ f.ty.width ∧ f.ty.val r = min (max (f.ty.val a) (f.ty.val b)) (f.ty.val d)),
        (Instr.blut, fun f a b d r => r < 2 ^ f.ty.width ∧ ∀ i < f.ty.width,
          bitOf r i = bitOf (lutOf f) (b2n (bitOf a i) + 2 * b2n (bitOf b i) + 4 * b2n (bitOf d i))),
        (Instr.bperm, fun f a b d r => f.ty = .u32 ∧ r < 2 ^ 32 ∧ ∀ j < 4,
          let sel := d / 2 ^ (4 * j) % 16
          let y := (if sel % 8 < 4 then a / 2 ^ (8 * (sel % 8)) else b / 2 ^ (8 * (sel % 8 - 4))) % 256
          r / 2 ^ (8 * j) % 256 = if sel < 8 then y else if 128 ≤ y then 255 else 0)]
        : List ((Fields → Instr) × (Fields → Nat → Nat → Nat → Nat → Prop))),
      ∀ (f : Fields) (s : State) (c p : Nat) (x : Pass) (ks : List Nat) (a b d r : Nat → Nat), Executes s c p x f.guard ks →
        (∀ k ∈ ks, AdmitsTriC s f (x.lane c k) ∧ ReadsA s f (x.lane c k) (a k)
          ∧ (x.lane c k).readInt s pSB f.sb f.ty = .ok (b k)
          ∧ (x.lane c k).readIntI s pSC f.sc f.ty f.imm = .ok (d k) ∧ e.2 f (a k) (b k) (d k) (r k)) →
        Agree x.hdr ks (fun k => IntResult s f (x.lane c k) (r k)) →
        ∃ t, exec (e.1 f) s = .next t ∧ LaneEffect s t c p x ks f.readsChannel (fun k => IntResult s f (x.lane c k) (r k))) ∧
  (
    ∀ (f : Fields) (s : State) (c p : Nat) (x : Pass) (ks : List Nat) (a b d r : Nat → Nat), Executes s c p x f.guard ks →
      (∀ k ∈ ks, ReadsA s f (x.lane c k) (a k) ∧ (x.lane c k).readDesc s f = .ok (d k)) →
      let w := f.ty.width
      let pos := fun k => d k % 256
      let n := fun k => min (d k / 256 % 256) (w - pos k)
      let out := fun k => IntResult s f (x.lane c k) (r k)
      Agree x.hdr ks out →
      ((∀ k ∈ ks, (x.lane c k).check s ([(pSA, OpKind.src f.ty.isPair, f.sa)] ++ unlessImm f (pSB, OpKind.src f.ty.isPair, f.sb)
            ++ [(pDST, OpKind.dst f.ty.isPair, f.dst)]) = .ok ()
          ∧ r k < 2 ^ w ∧ ∀ i < w, bitOf (r k) i = if i < n k then bitOf (a k) (pos k + i)
            else (f.ty.isSigned && decide (0 < n k) && bitOf (a k) (pos k + n k - 1))) →
        ∃ t, exec (.bfx f) s = .next t ∧ LaneEffect s t c p x ks f.readsChannel out)
      ∧ ((∀ k ∈ ks, (x.lane c k).check s ([(pSA, OpKind.src f.ty.isPair, f.sa)] ++ unlessImm f (pSB, OpKind.src f.ty.isPair, f.sb)
            ++ [(pSC, OpKind.src f.ty.isPair, f.sc), (pDST, OpKind.dst f.ty.isPair, f.dst)]) = .ok ()
          ∧ (x.lane c k).readInt s pSC f.sc f.ty = .ok (b k)
          ∧ r k < 2 ^ w ∧ ∀ i < w, bitOf (r k) i
            = if pos k ≤ i ∧ i < pos k + n k then bitOf (a k) (i - pos k) else bitOf (b k) i) →
        ∃ t, exec (.bfi f) s = .next t ∧ LaneEffect s t c p x ks f.readsChannel out))

/-- Derived from R75, R83, R84: addition with carry writes the sum and the carry out; a compare writes its predicate; a
select copies the source that its predicate chooses. A write to p7 is discarded. -/
def Obligations.CarryCompareAndSelectResults : Prop :=
  ∀ (f : Fields) (s : State) (c p : Nat) (x : Pass) (ks : List Nat) (a b : Nat → Nat), Executes s c p x f.guard ks →
    (∀ k ∈ ks, ReadsA s f (x.lane c k) (a k) ∧ ReadsB s f (x.lane c k) (b k)) →
    ((∀ k ∈ ks, (x.lane c k).check s ([(pSA, OpKind.src f.ty.isPair, f.sa)] ++ unlessImm f (pSB, OpKind.src f.ty.isPair, f.sb)
          ++ (if f.minor == 1 then [(pSC, OpKind.pred, f.sc)] else []) ++ [(pDST, OpKind.dst f.ty.isPair, f.dst)]) = .ok ()) →
      let sum := fun k => a k + b k + (if f.minor = 1 ∧ (s.thr c k).readPred f.sc = true then 1 else 0)
      let out := fun k =>
        let o := IntResult s f (x.lane c k) (sum k % 2 ^ f.ty.width)
        { o with th := o.th.setPred f.slot.toNat (decide (2 ^ f.ty.width ≤ sum k)) }
      Agree x.hdr ks out → ∃ t, exec (.addc f) s = .next t ∧ LaneEffect s t c p x ks f.readsChannel out)
    ∧ ((∀ k ∈ ks, (x.lane c k).check s ([(pSA, OpKind.src f.ty.isPair, f.sa)] ++ unlessImm f (pSB, OpKind.src f.ty.isPair, f.sb)
          ++ [(pDST, OpKind.pred, f.dst)]) = .ok ()) → f.minor.toNat ≤ 5 →
      let va := fun k => f.ty.val (a k)
      let vb := fun k => f.ty.val (b k)
      let holds := fun k => [va k = vb k, va k ≠ vb k, va k < vb k, va k ≤ vb k, va k > vb k, va k ≥ vb k][f.minor.toNat]?
      ∀ q : Nat → Bool, (∀ k ∈ ks, holds k = some (q k = true)) →
      ∃ t, exec (.icmp f) s = .next t
        ∧ LaneEffect s t c p x ks f.readsChannel (fun k => ((x.lane c k).start s f).putPred f.dst (q k)))
    ∧ ((∀ k ∈ ks, (x.lane c k).check s ([(pSA, OpKind.src f.ty.isPair, f.sa)] ++ unlessImm f (pSB, OpKind.src f.ty.isPair, f.sb)
          ++ [(pSC, OpKind.pred, f.sc), (pDST, OpKind.dst f.ty.isPair, f.dst)]) = .ok ()) →
      let out := fun k => IntResult s f (x.lane c k) (if (s.thr c k).readPred f.sc = true then a k else b k)
      Agree x.hdr ks out → ∃ t, exec (.isel f) s = .next t ∧ LaneEffect s t c p x ks f.readsChannel out)

/-- Derived from R85, R86, R88 and log entry 86: address formation, the move of IMM32, and index decomposition. That `lea`
accepts 0x1FF as DST, and discards the result, is the model's choice (log entry 86). -/
def Obligations.AddressMoveAndIndexResults : Prop :=
  ∀ (f : Fields) (s : State) (c p : Nat) (x : Pass) (ks : List Nat), Executes s c p x f.guard ks →
    (∀ (a : Nat → DWord) (b : Nat → Nat), (∀ k ∈ ks, (x.lane c k).check s ([(pSA, OpKind.vReg true, f.sa)]
          ++ unlessImm f (pSB, OpKind.src false, f.sb) ++ [(pDST, OpKind.load true, f.dst)]) = .ok ()
        ∧ (x.lane c k).readPair s pSA f.sa = .ok (a k) ∧ ReadsB s f (x.lane c k) (b k)) →
      let out := fun k => ((x.lane c k).start s f).putPair ((x.lane c k).regs s) f.dst
        (a k + BitVec.ofInt 64 (f.ty.val (b k)) * BitVec.ofNat 64 (2 ^ f.slot.toNat))
      Agree x.hdr ks out → ∃ t, exec (.lea f) s = .next t ∧ LaneEffect s t c p x ks f.readsChannel out)
    ∧ (∀ w, f.imm = some w → (∀ k ∈ ks, (x.lane c k).check s [(pDST, OpKind.dst f.ty.isPair, f.dst)] = .ok ()) →
      let out := fun k => if f.ty.isInt then IntResult s f (x.lane c k) (immInt w f.ty)
        else ((x.lane c k).start s f).put ((x.lane c k).regs s) f.dst
          (if f.ty = .f16 ∨ f.ty = .bf16 then BitVec.ofNat 32 (w.toNat % 2 ^ 16) else w)
      Agree x.hdr ks out → ∃ t, exec (.movi f) s = .next t ∧ LaneEffect s t c p x ks f.readsChannel out)
    ∧ (∀ (a e : Nat → Word) (r : Nat → BitVec 1024), (∀ k ∈ ks, (x.lane c k).check s [(pSA, OpKind.src false, f.sa),
          (pSB, OpKind.src false, f.sb), (pDST, OpKind.dst false, f.dst)] = .ok ()
        ∧ (x.lane c k).readWord s pSA f.sa = .ok (a k) ∧ (x.lane c k).readWord s pSB f.sb = .ok (e k)
        ∧ ((x.lane c k).grid s).shapes[(e k).toNat]? = some (r k)) →
      let out := fun k => ((x.lane c k).start s f).put ((x.lane c k).regs s) f.dst
        (BitVec.ofNat 32 (tidxVal (r k) f.minor.toNat (a k).toNat))
      Agree x.hdr ks out → ∃ t, exec (.tidx f) s = .next t ∧ LaneEffect s t c p x ks f.readsChannel out)

/-! ## Floating-point instructions (R90 to R103) -/

/-- Derived from R91, R92: the two-source scalar instructions write the pattern of the operation and raise its flags in
FPST. -/
def Obligations.ScalarFloatResults : Prop :=
  (∀ e ∈ ([
      (Instr.fadd, fun f a b => fAdd f.ty.fmt f.md.toNat a b),
      (Instr.fsub, fun f a b => fAdd f.ty.fmt f.md.toNat a (f.ty.fmt.flip b)),
      (Instr.fmul, fun f a b => fMul f.ty.fmt f.md.toNat a b),
      (Instr.fmin, fun f a b => fMinMax f.ty.fmt false a b),
      (Instr.fmax, fun f a b => fMinMax f.ty.fmt true a b)] : List ((Fields → Instr) × (Fields → Nat → Nat → Nat × BitVec 5))),
    ∀ (f : Fields) (s : State) (c p : Nat) (x : Pass) (ks : List Nat) (a b : Nat → Nat), Executes s c p x f.guard ks →
      (∀ k ∈ ks, (x.lane c k).check s ([(pSA, OpKind.src false, f.sa)] ++ unlessImm f (pSB, OpKind.src false, f.sb)
          ++ [(pDST, OpKind.dst false, f.dst)]) = .ok ()
        ∧ (x.lane c k).readF s pSA f.sa f.ty = .ok (a k) ∧ (x.lane c k).readFI s pSB f.sb f.ty f.imm = .ok (b k)) →
      let out := fun k => FpResult s f (x.lane c k) (e.2 f (a k) (b k))
      Agree x.hdr ks out → ∃ t, exec (e.1 f) s = .next t ∧ LaneEffect s t c p x ks f.readsChannel out)
  ∧ ∀ (f : Fields) (s : State) (c p : Nat) (x : Pass) (ks : List Nat) (a b d : Nat → Nat), Executes s c p x f.guard ks →
      (∀ k ∈ ks, (x.lane c k).check s ([(pSA, OpKind.src false, f.sa)] ++ unlessImm f (pSB, OpKind.src false, f.sb)
          ++ [(pSC, OpKind.src false, f.sc), (pDST, OpKind.dst false, f.dst)]) = .ok ()
        ∧ (x.lane c k).readF s pSA f.sa f.ty = .ok (a k) ∧ (x.lane c k).readFI s pSB f.sb f.ty f.imm = .ok (b k)
        ∧ (x.lane c k).readF s pSC f.sc f.ty = .ok (d k)) →
      let fma := fun k => FpResult s f (x.lane c k) (fFma f.ty.fmt f.md.toNat (a k) (b k) (d k))
      let sel := fun k => ((x.lane c k).start s f).put ((x.lane c k).regs s) f.dst
        (BitVec.ofNat 32 (if fpCond f.minor.toNat (f.ty.fmt.unpack (d k)) (.zero false) then a k else b k))
      (Agree x.hdr ks fma → ∃ t, exec (.ffma f) s = .next t ∧ LaneEffect s t c p x ks f.readsChannel fma)
      ∧ (Agree x.hdr ks sel → ∃ t, exec (.fsel f) s = .next t ∧ LaneEffect s t c p x ks f.readsChannel sel)

/-- Derived from R92, R93, R94 and log entry 86: compare, class and rounding to an integral value. A class mask has
exactly one bit set, the one that the table of R93 gives the sign, exponent field and fraction of the pattern; a
compare raises NV for a signalling NaN and, under an ordering condition, for a quiet one. That `fclass` accepts 0x1FF
as DST, and discards the result, is the model's choice (log entry 86). -/
def Obligations.FloatCompareClassAndRoundResults : Prop :=
  ∀ (f : Fields) (s : State) (c p : Nat) (x : Pass) (ks : List Nat) (a : Nat → Nat), Executes s c p x f.guard ks →
    (∀ k ∈ ks, (x.lane c k).readF s pSA f.sa f.ty = .ok (a k)) →
    (∀ b : Nat → Nat, (∀ k ∈ ks, (x.lane c k).check s ([(pSA, OpKind.src false, f.sa)] ++ unlessImm f (pSB, OpKind.src false, f.sb)
          ++ [(pDST, OpKind.pred, f.dst)]) = .ok () ∧ (x.lane c k).readFI s pSB f.sb f.ty f.imm = .ok (b k)) → f.minor.toNat ≤ 7 →
      let u := fun k => f.ty.fmt.unpack (a k)
      let v := fun k => f.ty.fmt.unpack (b k)
      let unord := fun k => (u k).isNan || (v k).isNan
      let holds := fun k => [!unord k && (u k).eq (v k), unord k || !(u k).eq (v k), !unord k && (u k).lt (v k),
        !unord k && ((u k).lt (v k) || (u k).eq (v k)), !unord k && (v k).lt (u k),
        !unord k && ((v k).lt (u k) || (u k).eq (v k)), !unord k, unord k][f.minor.toNat]?
      let nv := fun k => (u k).isSig || (v k).isSig || (decide (2 ≤ f.minor.toNat ∧ f.minor.toNat ≤ 5) && unord k)
      ∀ q : Nat → Bool, (∀ k ∈ ks, holds k = some (q k)) →
      ∃ t, exec (.fcmp f) s = .next t ∧ LaneEffect s t c p x ks f.readsChannel
        (fun k => (((x.lane c k).start s f).putPred f.dst (q k)).orFlags (if nv k then fNV else 0)))
    ∧ ((∀ k ∈ ks, (x.lane c k).check s [(pSA, OpKind.src false, f.sa), (pDST, OpKind.vt, f.dst)] = .ok ()) →
      let out := fun k => ((x.lane c k).start s f).put ((x.lane c k).regs s) f.dst (BitVec.ofNat 32 (classMask f.ty.fmt (a k)))
      (∃ t, exec (.fclass f) s = .next t ∧ LaneEffect s t c p x ks f.readsChannel out)
        ∧ ∀ k, ∃ b, b ≤ 9 ∧ classMask f.ty.fmt (a k) = 2 ^ b ∧
          let fmt := f.ty.fmt
          let neg := bitOf (a k) (fmt.width - 1)
          let ex := a k / 2 ^ fmt.mbits % 2 ^ fmt.ebits
          let fr := a k % 2 ^ fmt.mbits
          (ex = 2 ^ fmt.ebits - 1 → fr ≠ 0 → b = if fr < 2 ^ (fmt.mbits - 1) then 0 else 1)
          ∧ (ex = 2 ^ fmt.ebits - 1 → fr = 0 → b = if neg then 2 else 9)
          ∧ (ex ≠ 0 → ex ≠ 2 ^ fmt.ebits - 1 → b = if neg then 3 else 8)
          ∧ (ex = 0 → fr ≠ 0 → b = if neg then 4 else 7)
          ∧ (ex = 0 → fr = 0 → b = if neg then 5 else 6))
    ∧ ((∀ k ∈ ks, (x.lane c k).check s [(pSA, OpKind.src false, f.sa), (pDST, OpKind.dst false, f.dst)] = .ok ()) →
      let out := fun k => FpResult s f (x.lane c k) (fRint f.ty.fmt f.md.toNat (f.minor == 1) (a k))
      Agree x.hdr ks out → ∃ t, exec (.frnd f) s = .next t ∧ LaneEffect s t c p x ks f.readsChannel out)

/-- Derived from R95, R96: each element of a packed pair is computed by the scalar rule, and the flags of both are joined;
the dot product is rounded once. -/
def Obligations.PackedFloatResults : Prop :=
  ∀ (f : Fields) (s : State) (c p : Nat) (x : Pass) (ks : List Nat) (a b : Nat → Nat × Nat), Executes s c p x f.guard ks →
    (∀ k ∈ ks, (x.lane c k).readP2 s pSA f.sa f.ty none = .ok (a k) ∧ (x.lane c k).readP2 s pSB f.sb f.ty f.imm = .ok (b k)) →
    let pair := fun (lo hi : Nat × BitVec 5) => (lo.1 + 2 ^ 16 * hi.1, lo.2 ||| hi.2)
    let mode := f.md.toNat
    let fmt := f.ty.fmt
    ((∀ k ∈ ks, (x.lane c k).check s ([(pSA, OpKind.src false, f.sa)] ++ unlessImm f (pSB, OpKind.src false, f.sb)
          ++ [(pDST, OpKind.dst false, f.dst)]) = .ok ()) →
      let sum := fun k => FpResult s f (x.lane c k) (pair (fAdd fmt mode (a k).1 (b k).1) (fAdd fmt mode (a k).2 (b k).2))
      let prod := fun k => FpResult s f (x.lane c k) (pair (fMul fmt mode (a k).1 (b k).1) (fMul fmt mode (a k).2 (b k).2))
      (Agree x.hdr ks sum → ∃ t, exec (.hadd2 f) s = .next t ∧ LaneEffect s t c p x ks f.readsChannel sum)
      ∧ (Agree x.hdr ks prod → ∃ t, exec (.hmul2 f) s = .next t ∧ LaneEffect s t c p x ks f.readsChannel prod))
    ∧ ((∀ k ∈ ks, (x.lane c k).check s ([(pSA, OpKind.src false, f.sa)] ++ unlessImm f (pSB, OpKind.src false, f.sb)
          ++ [(pSC, OpKind.src false, f.sc), (pDST, OpKind.dst false, f.dst)]) = .ok ()) →
      (∀ d : Nat → Nat × Nat, (∀ k ∈ ks, (x.lane c k).readP2 s pSC f.sc f.ty none = .ok (d k)) →
        let out := fun k => FpResult s f (x.lane c k)
          (pair (fFma fmt mode (a k).1 (b k).1 (d k).1) (fFma fmt mode (a k).2 (b k).2 (d k).2))
        Agree x.hdr ks out → ∃ t, exec (.hfma2 f) s = .next t ∧ LaneEffect s t c p x ks f.readsChannel out)
      ∧ (∀ d : Nat → Nat, (∀ k ∈ ks, (x.lane c k).readF s pSC f.sc .f32 = .ok (d k)) →
        let out := fun k => FpResult s f (x.lane c k) (fDot2 fmt mode (a k) (b k) (d k))
        Agree x.hdr ks out → ∃ t, exec (.fdot2 f) s = .next t ∧ LaneEffect s t c p x ks f.readsChannel out))

/-- Derived from R34, R40, R91: the special operands of addition, multiplication and multiply-add, by the first condition
that holds, and otherwise the exact value rounded once, with the sign that R34 gives an exact zero. Rounding the
quotient n/d of a magnitude picks, under each mode, the neighbour the mode names: the nearer with ties to even, the
one nearer zero, the one nearer +∞, the one nearer −∞. Where the magnitude n/d·2^e, rounded in units of the last place
of the largest finite value, exceeds that value, the mode decides between it and infinity, with OF and NX. -/
def Obligations.SpecialOperandsAndRoundingOfFloats : Prop :=
  (
    ∀ (fmt : Fmt) (mode a b d : Nat),
      let u := fmt.unpack a
      let v := fmt.unpack b
      let w := fmt.unpack d
      let nan := fmt.nanPat
      ((u.isSig ∨ v.isSig) → fAdd fmt mode a b = (nan, fNV) ∧ fMul fmt mode a b = (nan, fNV))
      ∧ (u.isSig ∨ v.isSig ∨ w.isSig → fFma fmt mode a b d = (nan, fNV))
      ∧ (¬ u.isSig → ¬ v.isSig → (u.isZero ∧ v.isInf ∨ u.isInf ∧ v.isZero) →
          fMul fmt mode a b = (nan, fNV) ∧ fFma fmt mode a b d = (nan, fNV))
      ∧ (¬ u.isSig → ¬ v.isSig → (u.isNan ∨ v.isNan) → fAdd fmt mode a b = (nan, 0) ∧ fMul fmt mode a b = (nan, 0))
      ∧ (u.isInf → v.isInf → u.neg ≠ v.neg → fAdd fmt mode a b = (nan, fNV))
      ∧ (u.isInf → ¬ v.isNan → (v.isInf → u.neg = v.neg) → fAdd fmt mode a b = (fmt.infPat u.neg, 0))
      ∧ (v.isInf → ¬ u.isNan → (u.isInf → u.neg = v.neg) → fAdd fmt mode a b = (fmt.infPat v.neg, 0))
      ∧ (¬ u.isNan → ¬ v.isNan → (u.isInf ∧ ¬ v.isZero ∨ v.isInf ∧ ¬ u.isZero) → fMul fmt mode a b = (fmt.infPat (u.neg != v.neg), 0))
      ∧ (¬ u.isSig → ¬ v.isSig → ¬ w.isSig → (u.isNan ∨ v.isNan ∨ w.isNan) → ¬ (u.isZero ∧ v.isInf ∨ u.isInf ∧ v.isZero) →
          fFma fmt mode a b d = (nan, 0))
      ∧ (¬ u.isNan → ¬ v.isNan → ¬ w.isNan → (u.isInf ∧ ¬ v.isZero ∨ v.isInf ∧ ¬ u.isZero) →
          fFma fmt mode a b d = if w.isInf ∧ w.neg ≠ (u.neg != v.neg) then (nan, fNV) else (fmt.infPat (u.neg != v.neg), 0))
      ∧ (¬ u.isNan → ¬ v.isNan → ¬ u.isInf → ¬ v.isInf → w.isInf → fFma fmt mode a b d = (fmt.infPat w.neg, 0))
      ∧ (¬ u.isNan → ¬ v.isNan → ¬ u.isInf → ¬ v.isInf →
          fAdd fmt mode a b = rndDy fmt mode (if u.neg = v.neg then u.neg else decide (mode = 3)) (u.dy.add v.dy)
          ∧ fMul fmt mode a b = rndDy fmt mode (u.neg != v.neg) (u.dy.mul v.dy)
          ∧ (¬ w.isNan → ¬ w.isInf → fFma fmt mode a b d = rndDy fmt mode
              (if (u.neg != v.neg) = w.neg then w.neg else decide (mode = 3)) ((u.dy.mul v.dy).add w.dy)))) ∧
  (
    (∀ (neg : Bool) (n d : Nat), 0 < d →
      let floor := n / d
      let ceil := (n + d - 1) / d
      roundQuot 1 neg n d = floor
      ∧ roundQuot 2 neg n d = (if neg then floor else ceil)
      ∧ roundQuot 3 neg n d = (if neg then ceil else floor)
      ∧ (2 * n < (2 * floor + 1) * d → roundQuot 0 neg n d = floor)
      ∧ (2 * n > (2 * floor + 1) * d → roundQuot 0 neg n d = floor + 1)
      ∧ (2 * n = (2 * floor + 1) * d → roundQuot 0 neg n d % 2 = 0 ∧ (roundQuot 0 neg n d = floor ∨ roundQuot 0 neg n d = floor + 1)))
    ∧ ∀ fmt ∈ [Fmt.f16, Fmt.bf16, Fmt.f32], ∀ (mode : Nat) (neg : Bool) (n d : Nat) (e : Int), mode < 4 → 0 < n → 0 < d →
        let u := inUnits n d e (fmt.emin + 2 ^ fmt.ebits - 3 - fmt.mbits)
        2 ^ (fmt.mbits + 1) ≤ roundQuot mode neg u.1 u.2 →
        rndQ fmt mode neg n d e
          = (if mode = 0 ∨ (mode = 2 ∧ neg = false) ∨ (mode = 3 ∧ neg = true) then fmt.infPat neg else fmt.maxPat neg, fOF ||| fNX))

/-- Derived from R98 and log entry 99: conversions among floating formats and from integers. That a constant-table source
is read in the source format or type that MINOR names is the model's choice (log entry 99). -/
def Obligations.ConversionResults : Prop :=
  ∀ (f : Fields) (s : State) (c p : Nat) (x : Pass) (ks : List Nat) (a : Nat → Nat), Executes s c p x f.guard ks →
    let src := if f.minor = 0 then Ty.f32 else if f.minor = 1 then Ty.f16 else Ty.bf16
    (f.minor.toNat ≤ 2 → (∀ k ∈ ks, (x.lane c k).check s [(pSA, OpKind.src false, f.sa), (pDST, OpKind.dst false, f.dst)] = .ok ()
        ∧ (x.lane c k).readF s pSA f.sa src = .ok (a k)) →
      let out := fun k => FpResult s f (x.lane c k) (convF src.fmt f.ty.fmt f.md.toNat (a k))
      Agree x.hdr ks out → ∃ t, exec (.fcvt f) s = .next t ∧ LaneEffect s t c p x ks f.readsChannel out)
    ∧ (∀ ty, Ty.ofCode f.minor = some ty → (∀ k ∈ ks,
          (x.lane c k).check s [(pSA, OpKind.src ty.isPair, f.sa), (pDST, OpKind.dst false, f.dst)] = .ok ()
          ∧ (x.lane c k).readInt s pSA f.sa ty = .ok (a k)) →
      let out := fun k => FpResult s f (x.lane c k) (rndDy f.ty.fmt f.md.toNat false (Dy.ofInt (ty.val (a k))))
      Agree x.hdr ks out → ∃ t, exec (.i2f f) s = .next t ∧ LaneEffect s t c p x ks f.readsChannel out)

/-- R38: a conversion to an integer type gives the rounded value when it lies in the type's range, with NX when rounding
changed it; the type's bound with NV alone when it does not; and 0 with NV for a NaN. `f2i` writes that value and
raises those flags; that it reads a constant-table source in the format that MINOR names is the model's choice (log
entry 99). -/
def Obligations.FloatToIntegerConversionSaturates : Prop :=
  (∀ (fmt : Fmt) (ty : Ty) (mode a : Nat), ty.isInt = true →
    let r := fToInt fmt ty mode a
    let lo := Ty.minVal ty
    let hi := Ty.maxVal ty
    lo ≤ r.1 ∧ r.1 ≤ hi
    ∧ (∀ sig, fmt.unpack a = .nan sig → r = (0, fNV))
    ∧ (∀ neg, fmt.unpack a = .inf neg → r = (if neg then lo else hi, fNV))
    ∧ (∀ neg, fmt.unpack a = .zero neg → r = (0, 0))
    ∧ (∀ neg m e, fmt.unpack a = .fin neg m e →
        let z := rintQ mode neg m 1 e
        let v : Int := if neg then -(z.1 : Int) else z.1
        (hi < v → r = (hi, fNV)) ∧ (v < lo → r = (lo, fNV)) ∧ (lo ≤ v → v ≤ hi → r = (v, if z.2 then fNX else 0))))
  ∧ ∀ (f : Fields) (s : State) (c p : Nat) (x : Pass) (ks : List Nat) (a : Nat → Nat), Executes s c p x f.guard ks →
    let src := if f.minor = 0 then Ty.f32 else if f.minor = 1 then Ty.f16 else Ty.bf16
    f.minor.toNat ≤ 2 → (∀ k ∈ ks, (x.lane c k).check s [(pSA, OpKind.src false, f.sa), (pDST, OpKind.dst f.ty.isPair, f.dst)] = .ok ()
      ∧ (x.lane c k).readF s pSA f.sa src = .ok (a k)) →
    let v := fun k => fToInt src.fmt f.ty f.md.toNat (a k)
    let out := fun k => (IntResult s f (x.lane c k) (wrap (v k).1 f.ty.width)).orFlags (v k).2
    Agree x.hdr ks out → ∃ t, exec (.f2i f) s = .next t ∧ LaneEffect s t c p x ks f.readsChannel out

/-- Derived from R99 to R103 and log entries 17, 29, 85, 87: the special functions write the pattern and raise the flags
of their function. The block conversions read a whole group and write a whole group, in the sizes that the slot gives,
for the slots and modes that the entry accepts. How a function is evaluated (log entry 17), the sign of a zero that a
negative scale divides or multiplies (log entry 29), whether a rotation of a block with a quiet NaN and opposite
infinities raises NV (log entry 85), and that bits [31:16] of the scale register are ignored (log entry 87), are the
model's choices. -/
def Obligations.SpecialFunctionAndBlockConversionResults : Prop :=
  (
    ∀ e ∈ ([(Instr.frcp, Special.rcp), (.frsq, .rsq), (.fsqrt, .sqrt), (.fex2, .ex2), (.flg2, .lg2), (.fsin, .sin), (.fcos, .cos),
        (.ftanh, .tanh)] : List ((Fields → Instr) × Special)),
      ∀ (f : Fields) (s : State) (c p : Nat) (x : Pass) (ks : List Nat) (a : Nat → Nat), Executes s c p x f.guard ks →
        (∀ k ∈ ks, (x.lane c k).check s [(pSA, OpKind.src false, f.sa), (pDST, OpKind.dst false, f.dst)] = .ok ()
          ∧ (x.lane c k).readF s pSA f.sa f.ty = .ok (a k)) →
        let out := fun k => FpResult s f (x.lane c k) (specialFn e.2 f.ty.fmt (a k))
        (Agree x.hdr ks out → ∃ t, exec (e.1 f) s = .next t ∧ LaneEffect s t c p x ks f.readsChannel out)
        ∧ ∀ k, (f.ty.fmt.unpack (a k)).isNan →
            specialFn e.2 f.ty.fmt (a k) = (f.ty.fmt.nanPat, if (f.ty.fmt.unpack (a k)).isSig then fNV else 0)) ∧
  (
    ∀ e ∈ ([
        (Instr.bxpack, fun z md => (z.isBx || z.isIntF) && decide (slotMode md z ≤ 1), fun z => z.blk, fun z => z.packedRegs,
          fun z mode ws => packBlock z mode (ws.map (fun w => Elem.ofPat w.toNat))),
        (Instr.bxunpack, fun z _ => z.isBx || z.isIntF, fun z => z.packedRegs, fun z => z.blk, unpackBlock),
        (Instr.hcvt, fun z md => z.had && (z.isFloat || decide (slotMode md z ≤ 1)), fun z => z.blk, fun z => z.packedRegs, hcvtBlock)]
        : List ((Fields → Instr) × (FmtSlot → BitVec 3 → Bool) × (FmtSlot → Nat) × (FmtSlot → Nat)
            × (FmtSlot → Nat → List Word → List Word × BitVec 5))),
      ∀ (f : Fields) (s : State) (c p : Nat) (x : Pass) (ks : List Nat) (ws : Nat → List Word), Executes s c p x f.guard ks →
        let z := fun k => ((x.lane c k).grid s).slot f.slot.toNat
        (∀ k ∈ ks, e.2.1 (z k) f.md = true
          ∧ (x.lane c k).check s [(pSA, OpKind.vGroup (e.2.2.1 (z k)), f.sa), (pDST, OpKind.vGroup (e.2.2.2.1 (z k)), f.dst)] = .ok ()
          ∧ (x.lane c k).readGroup s pSA f.sa 0 (e.2.2.1 (z k)) = .ok (ws k)) →
        let r := fun k => e.2.2.2.2 (z k) (slotMode f.md (z k)) (ws k)
        let out := fun k => (((x.lane c k).start s f).putGroup ((x.lane c k).regs s) f.dst 0 (r k).1).orFlags (r k).2
        Agree x.hdr ks out → ∃ t, exec (e.1 f) s = .next t ∧ LaneEffect s t c p x ks false out)

/-! ## Lane instructions (R182 to R192) -/

/-- Derived from R184 to R187: a vote combines the predicates of the participants of a lane's tile, a ballot gives their
mask; `match` gives the lanes of equal value, whether all are equal, or the first lane of each value; a shuffle gives
the value of its source lane when that lane takes part, and the lane's own value otherwise. -/
def Obligations.VoteMatchAndShuffleResults : Prop :=
  (
    ∀ (f : Fields) (s : State) (c p : Nat) (x : Pass) (ks : List Nat), Executes s c p x f.guard ks →
      let q := fun k => (s.thr c k).readPred f.sa
      let tile := fun k => tileSlots s (x.lane c k) ks
      (∀ b : Nat → Bool, f.minor.toNat ≤ 3 →
        (∀ k ∈ ks, (x.lane c k).check s [(pSA, OpKind.pred, f.sa), (pDST, OpKind.pred, f.dst)] = .ok ()
          ∧ [∃ j ∈ tile k, q j = true, ∀ j ∈ tile k, q j = true, ∀ i ∈ tile k, ∀ j ∈ tile k, q i = q j,
              (tile k).countP q % 2 = 1][f.minor.toNat]? = some (b k = true)) →
        ∃ t, exec (.vote f) s = .next t
          ∧ LaneEffect s t c p x ks f.readsChannel (fun k => ((x.lane c k).start s f).putPred f.dst (b k)))
      ∧ ∀ m : Nat → Word, (∀ k ∈ ks, (x.lane c k).check s ((if f.minor == 0 then [(pSA, OpKind.pred, f.sa)] else [])
            ++ [(pDST, OpKind.dstReg false, f.dst)]) = .ok ()
          ∧ ∀ j, (m k).getLsbD j = decide (∃ i ∈ tile k, i % 32 = j ∧ (f.minor = 1 ∨ q i = true))) →
        let out := fun k => ((x.lane c k).start s f).put ((x.lane c k).regs s) f.dst (m k)
        Agree x.hdr ks out → ∃ t, exec (.ballot f) s = .next t ∧ LaneEffect s t c p x ks f.readsChannel out) ∧
  (
    ∀ (f : Fields) (s : State) (c p : Nat) (x : Pass) (ks : List Nat) (a : Nat → Nat), Executes s c p x f.guard ks →
      (∀ k ∈ ks, (x.lane c k).readInt s pSA f.sa f.ty = .ok (a k)) →
      let tile := fun k => tileSlots s (x.lane c k) ks
      (∀ m : Nat → Word, f.minor.toNat ≤ 2 →
        (∀ k ∈ ks, (x.lane c k).check s [(pSA, OpKind.src f.ty.isPair, f.sa), (pDST, OpKind.dstReg false, f.dst)] = .ok ()
          ∧ ∀ j, (m k).getLsbD j = decide (∃ i ∈ tile k, i % 32 = j
            ∧ (f.minor = 0 → a i = a k) ∧ (f.minor = 1 → ∀ h ∈ tile k, a h = a k)
            ∧ (f.minor = 2 → ∀ h ∈ tile k, h % 32 < i % 32 → a h ≠ a i))) →
        let out := fun k =>
          let o := ((x.lane c k).start s f).put ((x.lane c k).regs s) f.dst (m k)
          if f.minor = 1 then { o with th := o.th.setPred f.slot.toNat (decide (∀ h ∈ tile k, a h = a k)) } else o
        Agree x.hdr ks out → ∃ t, exec (.matchOp f) s = .next t ∧ LaneEffect s t c p x ks f.readsChannel out)
      ∧ (∀ b : Nat → Word, f.minor.toNat ≤ 4 →
        (∀ k ∈ ks, (x.lane c k).check s [(pSA, OpKind.src f.ty.isPair, f.sa), (pSB, OpKind.src false, f.sb),
              (pDST, OpKind.dstReg f.ty.isPair, f.dst)] = .ok ()
          ∧ (x.lane c k).readWord s pSB f.sb = .ok (b k)) →
        let w := fun k => tileWidth s (x.lane c k)
        let base := fun k => tileBase s (x.lane c k)
        let n := fun k => (b k).toNat
        let src := fun k => [some (base k + n k % w k), if base k + n k ≤ k % 32 then some (k % 32 - n k) else none,
          if k % 32 + n k < base k + w k then some (k % 32 + n k) else none,
          some (base k + ((k % 32 - base k) ^^^ (n k % w k))), some (base k + (k % 32 - base k + n k) % w k)][f.minor.toNat]?
        let hit := fun k => (tile k).find? (fun i => decide (src k = some (some (i % 32))))
        let out := fun k =>
          let o := IntResult s f (x.lane c k) (match hit k with | some i => a i | none => a k)
          { o with th := o.th.setPred f.slot.toNat (hit k).isSome }
        Agree x.hdr ks out → ∃ t, exec (.shfl f) s = .next t ∧ LaneEffect s t c p x ks f.readsChannel out))

/-- Derived from R189 to R192 and log entry 110: a scan gives each participant the chain over the participants of its tile
up to it (before it, under `.excl`), a reduction the chain over all of them; an exclusive scan with none before it
gives the operator's identity; for integer `.add` the chain is the exact sum under the instruction's mode. `lpart`
sets the tile width of its gang, and `umov` writes to a uniform register the value of the lane that the gang's lowest
executing lane names in SB (its own without SB), or nothing when that lane does not take part. In a clause with CONV =
0 `lpart` faults each executing lane with code 0x11, and nothing else changes; that FINFO names 0x1FF for its absent
DST is the model's choice (log entry 110). -/
def Obligations.ScanPartitionAndUniformMoveResults : Prop :=
  (
    ∀ (f : Fields) (s : State) (c p : Nat) (x : Pass) (ks : List Nat) (a : Nat → Nat), Executes s c p x f.guard ks →
      (∀ k ∈ ks, (x.lane c k).check s [(pSA, OpKind.src f.ty.isPair, f.sa), (pDST, OpKind.dstReg f.ty.isPair, f.dst)] = .ok ()
        ∧ readScan f s (x.lane c k) = .ok (a k)) →
      let chain := fun (js : List Nat) => scanChain f.minor.toNat f.md.toNat (js.map (fun j => scanVal f.minor.toNat f.ty (a j)))
      let res := fun k (js : List Nat) => (putScan f ((x.lane c k).regs s) ((x.lane c k).start s f)
        (match (chain js).1 with
          | some v => scanPattern f v
          | none => wrap (scanIdentity f.minor.toNat f.ty) f.ty.width)).orFlags (chain js).2
      let scanOut := fun k => res k ((tileSlots s (x.lane c k) ks).filter
        (fun j => if f.slot.getLsbD 0 then j % 32 < k % 32 else j % 32 ≤ k % 32))
      let redOut := fun k => res k (tileSlots s (x.lane c k) ks)
      (Agree x.hdr ks scanOut → ∃ t, exec (.scan f) s = .next t ∧ LaneEffect s t c p x ks f.readsChannel scanOut)
      ∧ (Agree x.hdr ks redOut → ∃ t, exec (.lred f) s = .next t ∧ LaneEffect s t c p x ks f.readsChannel redOut)
      ∧ (f.minor = 0 → ∀ j js, (chain (j :: js)).1 = some (((j :: js).map (fun j => f.ty.val (a j))).sum)
          ∧ ∀ v, scanPattern f v = applyMode f.md.toNat f.ty.width v)) ∧
  (
    ∀ (f : Fields) (s : State) (c p : Nat) (x : Pass) (ks : List Nat), Executes s c p x f.guard ks →
      (Hdr.conv x.hdr = false → exec (.lpart f) s = .next (s.afterInstr c p x
        (ks.map (fun k => (k, LaneFail.fault ⟨0x11, BitVec.ofNat 32 f.dst.toSpec.toNat, 0⟩)))))
      ∧ (Hdr.conv x.hdr = true → (∃ t, exec (.lpart f) s = .next t
        ∧ LaneEffect s t c p x ks false (fun k => { (x.lane c k).start s f with tw := some f.minor.toNat }))
      ∧ ∀ (a : Nat → Nat) (b : Nat → Word), ks.Pairwise (· < ·) →
        (∀ k ∈ ks, (x.lane c k).check s [(pSA, OpKind.src f.ty.isPair, f.sa), (pSB, OpKind.srcOpt false, f.sb),
              (pDST, OpKind.gOnly f.ty.isPair, f.dst)] = .ok ()
          ∧ (x.lane c k).readInt s pSA f.sa f.ty = .ok (a k) ∧ (f.sb ≠ .none → (x.lane c k).readWord s pSB f.sb = .ok (b k))) →
        let first := fun k => (ks.find? (fun j => decide (j / 32 = k / 32))).getD k
        let lane := fun k => if f.sb = .none then first k else 32 * (k / 32) + (b (first k)).toNat % 32
        let out := fun k => if lane k ∈ ks then IntResult s f (x.lane c k) (a (lane k)) else (x.lane c k).start s f
        Agree x.hdr ks out → ∃ t, exec (.umov f) s = .next t ∧ LaneEffect s t c p x ks f.readsChannel out))

/-! ## Distribution registers (R134 to R157) -/

/-- Derived from R136, R137, R138: the weights of a view total 32,768 whatever the weights of the register. A fresh
lineage is the counter's value, from 1 to 4,095; after 4,095 the counter goes on at 1 and LWRAP is set. Registers
whose tags are equal and not 0 and whose lineages are equal combine point by point and keep weights, tag and lineage;
others combine over all pairs under a fresh lineage and the union of the tags, with DEP when tags overlap. -/
def Obligations.DistributionViewsLineagesAndPairing : Prop :=
  (
    ∀ d : BitVec 512, total (DReg.ofBits d).view.1.w = 32768 ∧ (DReg.ofBits d).view.1.w.length = 8
      ∧ ((DReg.ofBits d).view.2 = true ↔ total (DReg.ofBits d).w ≠ 32768)) ∧
  (
    ∀ th : Thread, th.linctr ≠ 0 →
      th.fresh.2 = th.linctr.toNat ∧ 1 ≤ th.fresh.2 ∧ th.fresh.2 ≤ 4095 ∧ th.fresh.1.linctr ≠ 0
      ∧ (th.linctr = 4095 → th.fresh.1 = { th with linctr := 1, dst := th.dst ||| dLWRAP })
      ∧ (th.linctr ≠ 4095 → th.fresh.1 = { th with linctr := th.linctr + 1 })) ∧
  (
    ∀ (o : LaneOut) (a b : DReg) (op : Nat → Nat → Nat × BitVec 5),
      let r := pairDist o a b op
      (a.tag ≠ 0 → a.tag = b.tag → a.lin = b.lin → a.v.length = 8 → b.v.length = 8 → a.w.length = 8 →
        r.2.w = a.w ∧ r.2.tag = a.tag ∧ r.2.lin = a.lin ∧ r.1.th.linctr = o.th.linctr ∧ r.1.th.dst = o.th.dst
        ∧ ∀ i < 8, r.2.v.getD i 0 = (op (a.v.getD i 0) (b.v.getD i 0)).1)
      ∧ (¬ (a.tag &&& b.tag ≠ 0 ∧ a.tag = b.tag ∧ a.lin = b.lin) →
        r.2.tag = a.tag ||| b.tag ∧ r.2.lin = o.th.linctr.toNat ∧ r.2.cnd = true ∧ r.1.th.linctr = o.th.fresh.1.linctr
        ∧ (a.tag &&& b.tag ≠ 0 → r.1.th.dst &&& dDEP = dDEP)))

/-- Derived from R149, R150, R151: the binary distribution instructions and multiply-add combine the views of their
operands by R138; the pointwise ones keep the weights and combine each point with a scalar. -/
def Obligations.DistributionArithmeticResults : Prop :=
  (∀ e ∈ ([
      (Instr.dadd, fun f a b => fAdd .f32 f.md.toNat a b),
      (Instr.dsub, fun f a b => fAdd .f32 f.md.toNat a (Fmt.f32.flip b)),
      (Instr.dmul, fun f a b => fMul .f32 f.md.toNat a b),
      (Instr.dmax, fun _ a b => fMinMax .f32 true a b),
      (Instr.dmin, fun _ a b => fMinMax .f32 false a b)] : List ((Fields → Instr) × (Fields → Nat → Nat → Nat × BitVec 5))),
    ∀ (f : Fields) (s : State) (c p : Nat) (x : Pass) (ks : List Nat) (a b : Nat → DReg), Executes s c p x f.guard ks →
      (∀ k ∈ ks, (x.lane c k).checkD s [(pSA, OpKind.dist, f.sa), (pSB, OpKind.dist, f.sb), (pDST, OpKind.dist, f.dst)] = .ok ()
        ∧ (x.lane c k).dRaw s pSA f.sa = .ok (a k) ∧ (x.lane c k).dRaw s pSB f.sb = .ok (b k)) →
      let out := fun k =>
        let r := pairDist (noteViews ((x.lane c k).start s f) [a k, b k]) (a k).view.1 (b k).view.1 (e.2 f)
        r.1.putD f.dst r.2
      ∃ t, exec (e.1 f) s = .next t ∧ LaneEffect s t c p x ks f.readsChannel out)
  ∧ (∀ (f : Fields) (s : State) (c p : Nat) (x : Pass) (ks : List Nat) (a b : Nat → DReg) (y : Nat → Nat),
      Executes s c p x f.guard ks →
      (∀ k ∈ ks, (x.lane c k).checkD s [(pSA, OpKind.dist, f.sa), (pSB, OpKind.src false, f.sb), (pSC, OpKind.dist, f.sc), (pDST, OpKind.dist, f.dst)]
          = .ok ()
        ∧ (x.lane c k).dRaw s pSA f.sa = .ok (a k) ∧ (x.lane c k).dScalar s pSB f.sb = .ok (y k)
        ∧ (x.lane c k).dRaw s pSC f.sc = .ok (b k)) →
      let out := fun k =>
        let r := pairDist (noteViews ((x.lane c k).start s f) [a k, b k]) (a k).view.1 (b k).view.1
          (fun u w => fFma .f32 f.md.toNat u (y k) w)
        r.1.putD f.dst r.2
      ∃ t, exec (.dfma f) s = .next t ∧ LaneEffect s t c p x ks f.readsChannel out)
  ∧ ∀ e ∈ ([(Instr.dscale, fun f a b => fMul .f32 f.md.toNat a b), (Instr.doffs, fun f a b => fAdd .f32 f.md.toNat a b)]
      : List ((Fields → Instr) × (Fields → Nat → Nat → Nat × BitVec 5))),
    ∀ (f : Fields) (s : State) (c p : Nat) (x : Pass) (ks : List Nat) (a : Nat → DReg) (y : Nat → Nat),
      Executes s c p x f.guard ks →
      (∀ k ∈ ks, (x.lane c k).checkD s [(pSA, OpKind.dist, f.sa), (pSB, OpKind.src false, f.sb), (pDST, OpKind.dist, f.dst)] = .ok ()
        ∧ (x.lane c k).dRaw s pSA f.sa = .ok (a k) ∧ (x.lane c k).dScalar s pSB f.sb = .ok (y k)) →
      let v := fun k => (a k).view.1
      let rs := fun k => ((v k).w.zip (v k).v).map (fun q => (q.1, e.2 f q.2 (y k)))
      let out := fun k => ((noteViews ((x.lane c k).start s f) [a k]).orFlags
        ((rs k).foldl (fun g r => if r.1 = 0 then g else g ||| r.2.2) 0)).putD f.dst { v k with v := (rs k).map (fun r => r.2.1) }
      ∃ t, exec (e.1 f) s = .next t ∧ LaneEffect s t c p x ks f.readsChannel out

/-- Derived from R146, R147, R152, R153, R154: making, conditioning, tagging, aligning and mixing distributions. -/
def Obligations.DistributionMakingResults : Prop :=
  ∀ (f : Fields) (s : State) (c p : Nat) (x : Pass) (ks : List Nat) (a b : Nat → DReg), Executes s c p x f.guard ks →
    let o := fun k => (x.lane c k).start s f
    (∀ (vs ws : Nat → List Word) (tag : Nat → Word), (∀ k ∈ ks,
        (x.lane c k).checkD s [(pSA, OpKind.vGroup 8, f.sa), (pSB, OpKind.vGroup 4, f.sb), (pSC, OpKind.src false, f.sc), (pDST, OpKind.dist, f.dst)] = .ok ()
        ∧ (x.lane c k).readGroup s pSA f.sa 0 8 = .ok (vs k) ∧ (x.lane c k).readGroup s pSB f.sb 0 4 = .ok (ws k)
        ∧ (x.lane c k).readWord s pSC f.sc = .ok (tag k)) →
      let w := fun k => (ws k).flatMap (fun z => [z.toNat % 2 ^ 16, z.toNat / 2 ^ 16])
      let n := fun k => if total (w k) = 32768 then (o k, w k)
        else ({ o k with th := (o k).th.orDst dWNORM }, norm (w k) (total (w k)))
      let out := fun k => if (tag k).toNat % 2 ^ 16 = 0 then (n k).1.putD f.dst ⟨(vs k).map (·.toNat), (n k).2, 0, 0, false⟩
        else (n k).1.fresh.1.putD f.dst ⟨(vs k).map (·.toNat), (n k).2, (tag k).toNat % 2 ^ 16, (n k).1.fresh.2, false⟩
      ∃ t, exec (.dmake f) s = .next t ∧ LaneEffect s t c p x ks f.readsChannel out)
    ∧ (∀ w, f.imm = some w → (∀ k ∈ ks, (x.lane c k).checkD s [(pDST, OpKind.dist, f.dst)] = .ok ()) →
      ∃ t, exec (.dconst f) s = .next t ∧ LaneEffect s t c p x ks f.readsChannel
        (fun k => (o k).putD f.dst ⟨List.replicate 8 w.toNat, List.replicate 8 4096, 0, 0, false⟩))
    ∧ ((∀ k ∈ ks, (x.lane c k).dRaw s pSA f.sa = .ok (a k)) →
      let v := fun k => (a k).view.1
      let n := fun k => noteViews (o k) [a k]
      (∀ lo hi : Nat → Nat, (∀ k ∈ ks, (x.lane c k).checkD s [(pSA, OpKind.dist, f.sa), (pSB, OpKind.src false, f.sb), (pSC, OpKind.src false, f.sc),
            (pDST, OpKind.dist, f.dst)] = .ok ()
          ∧ (x.lane c k).dScalar s pSB f.sb = .ok (lo k) ∧ (x.lane c k).dScalar s pSC f.sc = .ok (hi k)) →
        let m := fun k => (n k).orFlags (sigFlags [lo k, hi k])
        let w := fun k => ((v k).w.zip (v k).v).map (fun q => if q.1 ≠ 0 && le32 (lo k) q.2 && le32 q.2 (hi k) then q.1 else 0)
        ∃ t, exec (.dcond f) s = .next t ∧ LaneEffect s t c p x ks f.readsChannel (fun k =>
          if total (w k) = 0 then ({ m k with th := (m k).th.orDst dCEMP } : LaneOut).putD f.dst (v k)
          else (m k).fresh.1.putD f.dst { v k with w := norm (w k) (total (w k)), lin := (m k).fresh.2 }))
      ∧ (∀ tag : Nat → Word, (∀ k ∈ ks, (x.lane c k).checkD s [(pSA, OpKind.dist, f.sa), (pSB, OpKind.src false, f.sb), (pDST, OpKind.dist, f.dst)]
            = .ok () ∧ (x.lane c k).readWord s pSB f.sb = .ok (tag k)) →
        ∃ t, exec (.dtag f) s = .next t ∧ LaneEffect s t c p x ks f.readsChannel (fun k =>
          if (tag k).toNat % 2 ^ 16 = 0 then (n k).putD f.dst { v k with tag := 0, lin := 0 }
          else (n k).fresh.1.putD f.dst { v k with tag := (tag k).toNat % 2 ^ 16, lin := (n k).fresh.2 }))
      ∧ ((∀ k ∈ ks, (x.lane c k).dRaw s pSB f.sb = .ok (b k)) →
        let u := fun k => (b k).view.1
        let n2 := fun k => noteViews (o k) [a k, b k]
        ((∀ k ∈ ks, (x.lane c k).checkD s [(pSA, OpKind.dist, f.sa), (pSB, OpKind.dist, f.sb), (pDST, OpKind.dist, f.dst)] = .ok ()) →
          ∃ t, exec (.dalign f) s = .next t ∧ LaneEffect s t c p x ks f.readsChannel
            (fun k => (n2 k).putD f.dst ⟨(v k).v, (u k).w, (u k).tag, (u k).lin, (v k).cnd⟩))
        ∧ ∀ alpha : Nat → Word, (∀ k ∈ ks, (x.lane c k).checkD s [(pSA, OpKind.dist, f.sa), (pSB, OpKind.dist, f.sb), (pSC, OpKind.src false, f.sc),
              (pDST, OpKind.dist, f.dst)] = .ok () ∧ (x.lane c k).readWord s pSC f.sc = .ok (alpha k)) →
          let z := fun k => min (alpha k).toNat 32768
          let cs := fun k => condense (((v k).w.zip (v k).v).map (fun q => ⟨q.1 * z k, q.2⟩)
            ++ ((u k).w.zip (u k).v).map (fun q => ⟨q.1 * (32768 - z k), q.2⟩))
          ∃ t, exec (.dmix f) s = .next t ∧ LaneEffect s t c p x ks f.readsChannel
            (fun k => (n2 k).fresh.1.putD f.dst ⟨(cs k).1, (cs k).2, (v k).tag ||| (u k).tag, (n2 k).fresh.2, true⟩)))

/-- Derived from R155, R156, R157: a moment, a quantile and a cumulative weight of the points of non-zero weight of a
view. -/
def Obligations.DistributionExtractionResults : Prop :=
  ∀ (f : Fields) (s : State) (c p : Nat) (x : Pass) (ks : List Nat) (a : Nat → DReg) (y : Nat → Nat),
    Executes s c p x f.guard ks → (∀ k ∈ ks, (x.lane c k).dRaw s pSA f.sa = .ok (a k)) →
    let fp := fun k (r : Nat × BitVec 5) =>
      ((noteViews ((x.lane c k).start s f) [a k]).put ((x.lane c k).regs s) f.dst (BitVec.ofNat 32 r.1)).orFlags r.2
    ((∀ k ∈ ks, (x.lane c k).checkD s [(pSA, OpKind.dist, f.sa), (pDST, OpKind.dst false, f.dst)] = .ok ()) →
      let out := fun k => fp k (moment f.minor.toNat (a k).view.1.points)
      Agree x.hdr ks out → ∃ t, exec (.dmom f) s = .next t ∧ LaneEffect s t c p x ks f.readsChannel out)
    ∧ ((∀ k ∈ ks, (x.lane c k).checkD s [(pSA, OpKind.dist, f.sa), (pSB, OpKind.src false, f.sb), (pDST, OpKind.dst false, f.dst)] = .ok ()
        ∧ (x.lane c k).dScalar s pSB f.sb = .ok (y k)) →
      let qnt := fun k => fp k (quantileOf (f.minor == 1) (a k).view.1.points (y k))
      let below := fun k => total (((a k).view.1.points.filter (fun q => le32 q.v (y k))).map (·.w))
      let cdf := fun k => fp k (match Fmt.f32.unpack (y k) with
        | .nan sig => (Fmt.f32.nanPat, if sig then fNV else 0)
        | _ => rndDy .f32 0 false ⟨(below k : Nat), -15⟩)
      (Agree x.hdr ks qnt → ∃ t, exec (.dqnt f) s = .next t ∧ LaneEffect s t c p x ks f.readsChannel qnt)
      ∧ (Agree x.hdr ks cdf → ∃ t, exec (.dcdf f) s = .next t ∧ LaneEffect s t c p x ks f.readsChannel cdf))

/-! ## Faults, placement, uniform registers and channels -/

/-- Derived from R338, with R23, R113 and R341: taking a fault. A thread with a handler running stops its context with
cause 2 and keeps its frame; otherwise the frame takes the position, FINFO, FADDR, TVALID and the temporaries,
FARG.CODE the code, HND becomes 1, and the thread becomes supervisor at the handler's clause, where it is placed; an
invalid entry of the trap table stops the context with cause 1. No other thread, no memory and no register outside the
frame changes. A fault return takes all of it back. TVALID is 0 from then on: the handler finds the temporaries in the
frame alone. -/
def Obligations.TakingAFaultAndReturning : Prop :=
  ∀ (s : State) (c k : Nat) (pos : DWord) (pass : Nat) (i : FaultInfo),
    let th := s.thr c k
    let g := s.gangGrid c (k / 32)
    let entry := Tbl.at g.traps i.code.toNat 0
    let t := s.deliver c k pos pass i
    let framed : Thread → Prop := fun u => u.fpos = pos ∧ u.frame.extractLsb' 64 32 = i.finfo ∧ u.frame.extractLsb' 96 64 = i.faddr
      ∧ u.frame.extractLsb' 224 8 = th.tvalid ∧ (∀ n < 8, u.frameT n = th.readT n) ∧ u.fcode = i.code ∧ u.hnd = true
    let stops : Nat → Prop := fun cause => (t.thr c k).place = .out ∧ (t.thr c k).pos = pos
      ∧ ((s.ctx g.ctx).stop = 0 → (t.ctx g.ctx).run = .stopped
        ∧ (t.ctx g.ctx).stop = stopWord cause i.code.toNat (s.lcoreOf c (k / 32)) k)
    (th.hnd = true → (t.thr c k) = { th with pos := pos, place := .out } ∧ stops 2)
    ∧ (th.hnd = false → framed (t.thr c k)
        ∧ t.thr c k = { th with
            frame := (t.thr c k).frame, fcode := i.code, hnd := true, tvalid := 0, priv := (t.thr c k).priv, pos := (t.thr c k).pos
            park := (t.thr c k).park, place := (t.thr c k).place }
        ∧ (entry.getLsbD 0 = false → stops 1 ∧ (t.thr c k).priv = th.priv)
        ∧ (entry.getLsbD 0 = true → (t.thr c k).priv = true ∧ (t.thr c k).pos = entryPos (posClause entry)
            ∧ ((t.thr c k).place = .entry ∨ (t.thr c k).place = .bin)
            ∧ (t.thr c k).faultReturn.pos = pos ∧ (t.thr c k).faultReturn.tvalid = th.tvalid
            ∧ (t.thr c k).faultReturn.priv = false ∧ (t.thr c k).faultReturn.hnd = false
            ∧ ∀ n < 8, (t.thr c k).faultReturn.readT n = th.readT n))
    ∧ (∀ n, n ≠ threadKey c k → Tbl.look t.threads n = Tbl.look s.threads n)
    ∧ t = { s with threads := t.threads, cores := t.cores, gangs := t.gangs, ctxs := t.ctxs, causes := t.causes }
    ∧ (∀ d j, t.gang d j = { s.gang d j with bndmask := (t.gang d j).bndmask, bndPass := (t.gang d j).bndPass })
    ∧ (∀ d, t.core d = { s.core d with wvt := (t.core d).wvt, bin := (t.core d).bin, binSeq := (t.core d).binSeq })

/-- Derived from R16, R166, R167, R168, R178, R194: at the end of a pass the pipe is free; each thread still in the pass
is placed, keeping its position but no temporary; no other thread changes; an unused reservation is popped and
discarded, or filled with zeros; a closed channel loses its gang. A thread is placed by the first rule that holds, and
a free entry of the waiting-vector table is never left idle while a due record waits. That a temporary that is not
valid holds 0 is the model's choice (log entry 94). -/
def Obligations.EndOfAPassAndPlacement : Prop :=
  (
    (∀ (s : State) (c p : Nat) (x : Pass),
      let t := s.endPass c p x
      Tbl.look (t.core c).pipes p = none
      ∧ (∀ q, q ≠ p → Tbl.look (t.core c).pipes q = Tbl.look (s.core c).pipes q)
      ∧ (∀ k ∈ x.slots, (∃ q, (s.thr c k).place = .pass q) → ∃ q, t.thr c k = { s.thr c k with place := q, tvalid := 0, t := [] } ∧ (q = .entry ∨ q = .bin))
      ∧ (∀ k, (k ∈ x.slots → ∀ q, (s.thr c k).place ≠ .pass q) → t.thr c k = if k ∈ x.slots then { s.thr c k with tvalid := 0, t := [] } else s.thr c k)
      ∧ t = { s with threads := t.threads, cores := t.cores, teams := t.teams })
    ∧ (∀ (s : State) (c p gs : Nat) (x : Pass) (r : Resv), x.resv = [(gs, r)] → x.closing = [] →
      let m := (s.gang c gs).team
      let after := fun n => (((s.endPass c p x).team m).chan n).fifo
      (∀ id, r.rd = some id → r.rdDone = false → ∀ e ∈ after (Hdr.rch x.hdr).toNat, e.id ≠ id)
      ∧ (∀ id, r.wr = some id → r.wrDone = false → ∀ e ∈ after (Hdr.wch x.hdr).toNat, e.id = id → e.st = .filled ∧ ∀ i, Tbl.at e.data i 0 = 0)
      ∧ (∀ n, ∀ e ∈ ((s.team m).chan n).fifo, r.rd ≠ some e.id → r.wr ≠ some e.id → e ∈ after n))
    ∧ (∀ (s : State) (c p gs n : Nat) (x : Pass), x.resv = [] → x.closing = [(gs, n)] →
      let g := s.gang c gs
      let a := ((s.endPass c p x).team g.team).chan n
      a.fifo = ((s.team g.team).chan n).fifo
      ∧ ∀ i < 32, a.pmask.getLsbD i = (((s.team g.team).chan n).pmask.getLsbD i && decide (i ≠ g.num)))) ∧
  (
    (∀ (s : State) (c k : Nat),
      let th := s.thr c k
      let x := s.core c
      let t := s.place c k
      let keyed := ∃ e ∈ x.wvt, e.pos = th.pos
      let record := 0 < th.park ∨ (∃ r ∈ x.bin, r.park = 0 ∧ r.pos = th.pos) ∨ Config.wvtEntries ≤ x.wvt.length
      (keyed → t.core c = { x with wvt := x.wvt.map (fun e =>
            if e.pos = th.pos then { e with slots := insertSorted k e.slots } else e) }
          ∧ t.thr c k = { th with place := .entry })
      ∧ (¬ keyed → record → t.core c = { x with bin := x.bin ++ [⟨th.pos, th.park, x.binSeq, k⟩], binSeq := x.binSeq + 1 }
          ∧ t.thr c k = { th with place := .bin })
      ∧ (¬ keyed → ¬ record → ∃ e : WvtEntry, t.core c = { x with wvt := x.wvt ++ [e] } ∧ e.pos = th.pos ∧ e.age = 0
          ∧ e.policy = (s.gangGrid c (k / 32)).policy ∧ e.slots = [k] ∧ t.thr c k = { th with place := .entry })
      ∧ (∀ d, d ≠ c → Tbl.look t.cores d = Tbl.look s.cores d)
      ∧ (∀ n, n ≠ threadKey c k → Tbl.look t.threads n = Tbl.look s.threads n)
      ∧ t = { s with cores := t.cores, threads := t.threads })
    ∧ (∀ (s : State) (c : Nat),
      let x := (s.tidy c).core c
      (∀ e ∈ x.wvt, e.slots ≠ []) ∧ ((∃ r ∈ x.bin, r.park = 0) → Config.wvtEntries ≤ x.wvt.length)))

/-- Derived from R16, R58, R60, R128: what operands supply and what destinations take. A v register beyond REGS reads zero
and discards writes; a poisoned word faults with code 0x0C and an invalid temporary with 0x03, both in the operand
layout of R23; a write to a temporary makes it valid, to a v word clears its poison, to p7 or 0x1FF is discarded; a
pair holds its low word first. -/
def Obligations.RegisterOperandsReadAndWrite : Prop :=
  (∀ (s : State) (l : Lane) (place : Nat),
    let th := l.thr s
    let regs := l.regs s
    (∀ n : BitVec 8, (regs ≤ n.toNat → l.readWord s place (.v n) = .ok 0)
      ∧ (n.toNat < regs → Tbl.at th.vPoison n.toNat false = false → l.readWord s place (.v n) = .ok (Tbl.at th.v n.toNat 0))
      ∧ (n.toNat < regs → Tbl.at th.vPoison n.toNat false = true →
          l.readWord s place (.v n) = .error (.fault ⟨0x0C, BitVec.ofNat 32 (n.toNat + 512 * place), 0⟩)))
    ∧ (∀ n : BitVec 3, (th.tvalid.getLsbD n.toNat = true → l.readWord s place (.t n) = .ok (Tbl.at th.t n.toNat 0))
      ∧ (th.tvalid.getLsbD n.toNat = false →
          l.readWord s place (.t n) = .error (.fault ⟨3, BitVec.ofNat 32 (0x140 + n.toNat + 512 * place), 0⟩)))
    ∧ (∀ n : BitVec 6, l.readWord s place (.g n) = .ok (Tbl.at (l.gang s).g n.toNat 0)
      ∧ l.readWord s place (.inline n) = .ok (BitVec.ofInt 32 ((n.toNat : Int) - 16)))
    ∧ (∀ o : Operand, (∃ n, o = .v n) ∨ (∃ n, o = .g n) ∨ (∃ n, o = .t n) → ∀ lo hi, l.readWord s place o = .ok lo →
        l.readWord s place (o.next 1) = .ok hi → l.readPair s place o = .ok (hi ++ lo)))
  ∧ (∀ (o : LaneOut) (regs : Nat) (w : Word),
    (∀ n : BitVec 8, (regs ≤ n.toNat → o.put regs (.v n) w = o)
      ∧ (n.toNat < regs → (o.put regs (.v n) w).th.readV regs n.toNat = w ∧ (o.put regs (.v n) w).th.poisonV regs n.toNat = false
          ∧ ∀ j, j ≠ n.toNat → (o.put regs (.v n) w).th.readV regs j = o.th.readV regs j
            ∧ (o.put regs (.v n) w).th.poisonV regs j = o.th.poisonV regs j))
    ∧ (∀ n : BitVec 3, (o.put regs (.t n) w).th.readT n.toNat = w ∧ (o.put regs (.t n) w).th.tvalid.getLsbD n.toNat = true
        ∧ ∀ j, j ≠ n.toNat → (o.put regs (.t n) w).th.readT j = o.th.readT j
          ∧ (o.put regs (.t n) w).th.tvalid.getLsbD j = o.th.tvalid.getLsbD j)
    ∧ (∀ n : BitVec 6, o.put regs (.g n) w = { o with g := o.g ++ [(n.toNat, w)] })
    ∧ (∀ n : BitVec 4, o.put regs (.q n) w = { o with push := some w })
    ∧ o.put regs .none w = o)
  ∧ (∀ (th : Thread) (n : Nat) (b : Bool), (7 ≤ n → th.setPred n b = th ∧ th.pred n = true)
    ∧ (n < 7 → (th.setPred n b).pred n = b ∧ ∀ j, j ≠ n → (th.setPred n b).pred j = th.pred j))

/-- Derived from R176, R178: a write to a g register in a clause with CONV = 0 faults every executing lane with code 0x11
and place DST; with CONV = 1 the register takes the value of the gang's lowest executing lane, and the lanes whose
value differs fault there (the statement is about a lane move of one gang, by `mov`). In an instruction of one gang, a
read of the channel pops the reserved entry and no other; a write fills the reserved position, word i being lane i's
value where it executed and 0 elsewhere. -/
def Obligations.UniformWritesAndChannelUses : Prop :=
  (
    ∀ (f : Fields) (s : State) (c p : Nat) (x : Pass) (ks : List Nat) (gs : Nat) (n : BitVec 6) (a : Nat → Nat),
      Executes s c p x f.guard ks → (∀ k ∈ ks, k / 32 = gs) → f.dst = .g n → f.ty.isPair = false →
      (∀ k ∈ ks, AdmitsUn s f (x.lane c k) ∧ ReadsA s f (x.lane c k) (a k)) →
      let w := fun k => BitVec.ofInt 32 (f.ty.val (a k))
      let fault : LaneFail := .fault ⟨0x11, BitVec.ofNat 32 (0x100 + n.toNat), 0⟩
      (Hdr.conv x.hdr = false → exec (.mov f) s = .next (s.afterInstr c p x (ks.map (fun k => (k, fault)))))
      ∧ (Hdr.conv x.hdr = true → (∀ o ∈ [f.sa, f.sb, f.sc], o ≠ .special 10 ∧ ∀ q, o ≠ .q q) → ∀ k0, ks.head? = some k0 → ∃ (t : State) (y : Pass),
          (t.gang c gs).readG n.toNat = w k0 ∧ (∀ j, j ≠ n.toNat → (t.gang c gs).readG j = (s.gang c gs).readG j)
          ∧ t = { s with threads := t.threads, gangs := t.gangs } ∧ (∀ k, t.thr c k = s.thr c k)
          ∧ y = { x with resv := y.resv } ∧ (∀ g, Tbl.look y.resv g = Tbl.look x.resv g)
          ∧ exec (.mov f) s = .next (t.afterInstr c p y ((ks.filter (fun k => w k ≠ w k0)).map (fun k => (k, fault)))))) ∧
  (
    ∀ (s : State) (c : Nat) (x : Pass) (reads : Bool) (outs : List (Nat × LaneOut)) (gs : Nat) (r : Resv),
      outs ≠ [] → (∀ o ∈ outs, o.1 / 32 = gs) → (outs.map (·.1)).Nodup → Tbl.look x.resv gs = some r →
      let m := (s.gang c gs).team
      let t := s.useChans c x reads outs
      let before := fun n => ((s.team m).chan n).fifo
      let after := fun n => ((t.1.team m).chan n).fifo
      let pushes := ∃ o ∈ outs, o.2.push.isSome = true
      (∀ id e, r.rd = some id → reads = true → e ∈ after (Hdr.rch x.hdr).toNat → e.id ≠ id)
      ∧ (∀ n e, e ∈ before n → r.rd ≠ some e.id → r.wr ≠ some e.id → e ∈ after n)
      ∧ (∀ id e, r.wr = some id → pushes → e ∈ after (Hdr.wch x.hdr).toNat → e.id = id → e.st = .filled
          ∧ ∀ i < 32, Tbl.at e.data i 0 = ((outs.find? (fun o => o.1 % 32 == i)).bind (fun o => o.2.push)).getD 0)
      ∧ (∀ n, n ≠ (Hdr.rch x.hdr).toNat → n ≠ (Hdr.wch x.hdr).toNat → after n = before n)
      ∧ (∀ q, q ≠ m → t.1.team q = s.team q)
      ∧ t.1 = { s with teams := t.1.teams }
      ∧ t.2 = { x with resv := t.2.resv }
      ∧ Tbl.look t.2.resv gs = some { r with
          rdDone := r.rdDone || (reads && r.rd.isSome)
          wrDone := r.wrDone || (outs.any (fun o => o.2.push.isSome)) })

/-! ## Terminators, team instructions, traps and the agreed branch -/

/-- Derived from R104 to R107, R109 to R112, R120, R121 and log entry 25: branches, calls and returns. Each lane whose
predicate holds goes to its target, aligned and canonical, with FT in the link register pair of a call; every other
lane falls through; then the pass ends. A taken target that is misaligned faults with code 0x07, one that is not
canonical with 0x0B (the order of the two checks is the model's choice, log entry 25), in the layout of a fetch, and
the lane leaves the pass before it ends; the other lanes of the pass branch or fall through, and nothing is linked for
a lane that faults. -/
def Obligations.BranchesAndBadSuccessors : Prop :=
  (
    ∀ (f : Fields) (s : State) (c p : Nat) (x : Pass) (a : Nat → DWord), s.curPass = some (c, p, x) →
      let ft := fallThrough x.clause x.body
      let direct := x.clause + BitVec.ofInt 64 (32 * (f.imm.getD 0).toInt)
      let taken := fun k => (s.thr c k).holds f.guard = true
      let R := BranchLane f ft a
      (∀ k ∈ x.slots, taken k → (a k).toNat % 32 = 0 ∧ canonical (a k).toNat = true) →
      ((∀ k ∈ x.slots, a k = direct) →
        (∃ t, exec (.jmp f) s = .next t ∧ LanesEnd (R false) s c p x t)
        ∧ (∃ t, exec (.br f) s = .next t ∧ LanesEnd (R false) s c p x t)
        ∧ ((∀ k ∈ x.slots, (x.lane c k).check s [(pDST, OpKind.load true, f.dst)] = .ok ()) →
            ∃ t, exec (.call f) s = .next t ∧ LanesEnd (R true) s c p x t))
      ∧ ((∀ k ∈ x.slots, taken k → (x.lane c k).readPair s pSA f.sa = .ok (a k)) →
        ((∀ k ∈ x.slots, (x.lane c k).check s [(pSA, OpKind.reg true, f.sa)] = .ok ()) →
          (∃ t, exec (.brx f) s = .next t ∧ LanesEnd (R false) s c p x t)
          ∧ (∃ t, exec (.ret f) s = .next t ∧ LanesEnd (R false) s c p x t))
        ∧ ((∀ k ∈ x.slots, (x.lane c k).check s [(pSA, OpKind.reg true, f.sa), (pDST, OpKind.load true, f.dst)] = .ok ()) →
            ∃ t, exec (.callR f) s = .next t ∧ LanesEnd (R true) s c p x t))) ∧
  (
    ∀ (f : Fields) (s : State) (c p : Nat) (x : Pass) (a : Nat → DWord), s.curPass = some (c, p, x) →
      let ft := fallThrough x.clause x.body
      let direct := x.clause + BitVec.ofInt 64 (32 * (f.imm.getD 0).toInt)
      let taken := fun k => (s.thr c k).holds f.guard = true
      let fault := fun k => if (s.thr c k).holds f.guard && (decide ((a k).toNat % 32 ≠ 0) || !canonical (a k).toNat) then
        some (⟨if (a k).toNat % 32 ≠ 0 then 7 else 0x0B, 0x148, a k⟩ : FaultInfo) else none
      ((∀ k ∈ x.slots, a k = direct) →
        (∃ t, exec (.jmp f) s = .next t ∧ LanesSplit (BranchLane f ft a false) s c p x fault t)
        ∧ (∃ t, exec (.br f) s = .next t ∧ LanesSplit (BranchLane f ft a false) s c p x fault t)
        ∧ ((∀ k ∈ x.slots, (x.lane c k).check s [(pDST, OpKind.load true, f.dst)] = .ok ()) →
            ∃ t, exec (.call f) s = .next t ∧ LanesSplit (BranchLane f ft a true) s c p x fault t))
      ∧ ((∀ k ∈ x.slots, taken k → (x.lane c k).readPair s pSA f.sa = .ok (a k)) →
        ((∀ k ∈ x.slots, (x.lane c k).check s [(pSA, OpKind.reg true, f.sa)] = .ok ()) →
          (∃ t, exec (.brx f) s = .next t ∧ LanesSplit (BranchLane f ft a false) s c p x fault t)
          ∧ (∃ t, exec (.ret f) s = .next t ∧ LanesSplit (BranchLane f ft a false) s c p x fault t))
        ∧ ((∀ k ∈ x.slots, (x.lane c k).check s [(pSA, OpKind.reg true, f.sa), (pDST, OpKind.load true, f.dst)] = .ok ()) →
            ∃ t, exec (.callR f) s = .next t ∧ LanesSplit (BranchLane f ft a true) s c p x fault t)))

/-- Derived from R25, R113, R114, R115, R197: exit ends a lane, whose arrivals at barriers no longer count, park gives it
a count to wait. A fault return of any pass faults each lane at user privilege with code 0x04, and gives each at
supervisor privilege the position, TVALID and temporaries of its frame, which it keeps when it enters its clause again
inside the body. -/
def Obligations.ExitParkAndFaultReturn : Prop :=
  (∀ (f : Fields) (s : State) (c p : Nat) (x : Pass), s.curPass = some (c, p, x) →
    let ft := fallThrough x.clause x.body
    ((∀ k ∈ x.slots, (s.thr c k).holds f.guard = true → (s.thr c k).spec = false) →
      ∃ t, exec (.exit f) s = .next t ∧ LanesEnd (fun u l v =>
        if (l.thr u).holds f.guard then v = u.exitThread l.core l.slot
        else v = u.setThr l.core l.slot { l.thr u with pos := entryPos ft }) s c p x t)
    ∧ (∀ n : Nat → Word, ft.toNat % 32 = 0 → canonical ft.toNat = true →
      (∀ k ∈ x.slots, (x.lane c k).check s [(pSA, OpKind.srcOpt false, f.sa)] = .ok () ∧ ((s.thr c k).holds f.guard = true →
        if f.sa = .none then n k = 0 else (x.lane c k).readWord s pSA f.sa = .ok (n k))) →
      ∃ t, exec (.park f) s = .next t ∧ LanesEnd (fun u l v => v = u.setThr l.core l.slot
        (if (l.thr u).holds f.guard then { l.thr u with park := (n l.slot).toNat, clkh := (l.start s f).th.clkh, pos := entryPos ft }
          else { l.thr u with pos := entryPos ft })) s c p x t)
    ∧ (let users := x.slots.filter (fun k => !(s.thr c k).priv)
      ∃ t, exec (.retFault f) s = .next t
        ∧ t = (s.leave c x (users.map (fun k => (k, LaneFail.fault ⟨4, 2048, 0⟩)))).endPassBy Thread.faultReturn c p (x.without users)
        ∧ (∀ k ∈ x.slots, (s.thr c k).priv = true →
            t.thr c k = { (s.thr c k).faultReturn with place := (t.thr c k).place }
            ∧ (t.thr c k).pos = (s.thr c k).fpos ∧ (t.thr c k).tvalid = (s.thr c k).frame.extractLsb' 224 8
            ∧ (∀ n < 8, (t.thr c k).readT n = (s.thr c k).frameT n) ∧ (t.thr c k).priv = false ∧ (t.thr c k).hnd = false
            ∧ ((∃ q, (s.thr c k).place = .pass q) → (t.thr c k).place = .entry ∨ (t.thr c k).place = .bin)
            ∧ (posIdx (t.thr c k).pos ≠ 31 → ∀ pipe, ((t.thr c k).enter pipe).tvalid = (t.thr c k).tvalid
                ∧ ∀ n < 8, ((t.thr c k).enter pipe).readT n = (s.thr c k).frameT n))))
  ∧ (∀ (s : State) (c k : Nat),
    let t := s.exitThread c k
    (t.thr c k).exited = true ∧ (t.thr c k).place = .out ∧ (t.thr c k).flags = (s.thr c k).flags ∧ (t.thr c k).barArrived = 0
      ∧ (t.thr c k).v = [] ∧ (t.thr c k).preds = 0 ∧ (t.thr c k).d = [] ∧ (t.thr c k).copies = []
      ∧ (∀ d j, threadKey d j ≠ threadKey c k →
          t.thr d j = { s.thr d j with barArrived := (t.thr d j).barArrived })
      ∧ t = { s with threads := t.threads, gangs := t.gangs, teams := t.teams, agenda := t.agenda })

/-- Derived from R194, R196 to R200: one arrival at a barrier: the first of a phase fixes its kind and count; the phase
completes when the arrivals reach the count, or the live threads of the team; GEN then advances, ARR becomes 0 and no
thread has arrived. The team instructions: opening and closing a channel (a number at or above CHANS faults with code
0x01), arriving at a barrier with its generation in the destination, recording a generation to wait for, and
`bar.sync`, which does both and ends the pass. -/
def Obligations.BarriersAndTeamInstructionResults : Prop :=
  (
    ∀ (s : State) (m b c k : Nat) (count : Option Nat), (Tbl.keys s.threads).Pairwise (· < ·) →
      (Tbl.look s.threads (threadKey c k)).isSome = true → b < 16 →
      let x := (s.team m).bar b
      let fixed := if x.set then x.fixed else count.isSome
      let exp := if x.set then x.exp else count.getD 0
      let arrived := (s.thr c k).barArrived.getLsbD b
      let arr := if fixed ∨ arrived = false then x.arr + 1 else x.arr
      let done := if fixed then exp ≤ arr else s.liveThreads m ≤ arr
      let t := s.arrive m b c k count
      ((t.team m).bar b = if done then ⟨x.gen + 1, false, fixed, exp, 0⟩ else ⟨x.gen, true, fixed, exp, arr⟩)
      ∧ (∀ n, n ≠ b → (t.team m).bar n = (s.team m).bar n)
      ∧ ((t.thr c k).barArrived.getLsbD b = if done then (if (threadKey c k) ∈ s.teamThreads m then false else (!fixed || arrived)) else (!fixed || arrived))
      ∧ (done → ∀ n ∈ s.teamThreads m, ((Tbl.at t.threads n {}).barArrived.getLsbD b) = false)
      ∧ (∀ d j, t.thr d j = { s.thr d j with barArrived := (t.thr d j).barArrived })
      ∧ t = { s with threads := t.threads, teams := t.teams }) ∧
  (
    ∀ (f : Fields) (s : State) (c p : Nat) (x : Pass) (ks : List Nat),
      let b := f.minor.toNat
      (Executes s c p x f.guard ks → (∀ k ∈ ks, ((x.lane c k).grid s).chans ≤ b) →
        let t := s.afterInstr c p x (ks.map (fun k => (k, LaneFail.fault ⟨1, 2048, 0⟩)))
        exec (.chopen f) s = .next t ∧ exec (.chclose f) s = .next t)
      ∧ (Executes s c p x f.guard ks → (∀ k ∈ ks, (s.thr c k).spec = false ∧ b < ((x.lane c k).grid s).chans) →
        (∃ t, exec (.chopen f) s = .next t ∧ LanesRun (fun u l v =>
          v = u.modTeam (l.gang u).team (fun m => m.setChan b { m.chan b with
            pmask := (m.chan b).pmask ||| onesAt 32 (l.gang u).num 1, opened := true })) s c p x ks false t)
        ∧ (∃ t z, exec (.chclose f) s = .next t ∧ Tbl.look (t.core c).pipes p = some z
            ∧ z = { x with idx := x.idx + 1, resv := z.resv, closing := z.closing }
            ∧ (∀ e, e ∈ z.closing ↔ e ∈ x.closing ∨ ∃ k ∈ ks, e = (k / 32, b))
            ∧ t = { s with cores := t.cores, teams := t.teams } ∧ (∀ q, t.team q = s.team q)
            ∧ ∀ d, t.core d = { s.core d with pipes := (t.core d).pipes }))
      ∧ (∀ w : Nat → Word, Executes s c p x f.guard ks →
        (∀ k ∈ ks, (x.lane c k).check s [(pSA, OpKind.src false, f.sa)] = .ok () ∧ (x.lane c k).readWord s pSA f.sa = .ok (w k)) →
        ∃ t, exec (.barWait f) s = .next t ∧ LaneEffect s t c p x ks f.readsChannel (fun k =>
          let o := (x.lane c k).start s f
          { o with th := { o.th with barWait := Tbl.put o.th.barWait b ((w k).extractLsb' 0 16) } }))
      ∧ (∀ n : Nat → Option Nat,
        (∀ k ∈ x.slots, (s.thr c k).holds f.guard = true → if f.sa = .none then n k = none else
          ∃ w, (x.lane c k).readWord s pSA f.sa = .ok w ∧ 1 ≤ w.toNat ∧ w.toNat ≤ 1024 ∧ n k = some w.toNat) →
        (Executes s c p x f.guard ks →
          (∀ k ∈ ks, (x.lane c k).check s [(pSA, OpKind.srcOpt false, f.sa), (pDST, OpKind.dstReg false, f.dst)] = .ok () ∧ (s.thr c k).spec = false) →
          ((∃ r, f.dst = .g r) → Hdr.conv x.hdr = true ∧ ks.Pairwise (fun i j => i / 32 ≠ j / 32)) →
          ∃ t, exec (.barArrive f) s = .next t ∧ LanesRun (fun u l v =>
            let gen := ((u.team (l.gang u).team).bar b).gen.setWidth 32
            v = (u.commit l.core l.slot (({ th := { l.thr u with clkh := (l.start s f).th.clkh } } : LaneOut).put (l.regs u) f.dst gen)).arrive (l.gang u).team b l.core l.slot (n l.slot))
            s c p x ks f.readsChannel t)
        ∧ (s.curPass = some (c, p, x) → (fallThrough x.clause x.body).toNat % 32 = 0 →
          canonical (fallThrough x.clause x.body).toNat = true →
          (∀ k ∈ x.slots, (x.lane c k).check s [(pSA, OpKind.srcOpt false, f.sa)] = .ok ()
            ∧ ((s.thr c k).holds f.guard = true → (s.thr c k).spec = false)) →
          ∃ t, exec (.barSync f) s = .next t ∧ LanesEnd (fun u l v =>
            let m := (l.gang u).team
            let waits := u.setThr l.core l.slot { l.thr u with
              barWait := Tbl.put (l.thr u).barWait b ((u.team m).bar b).gen, clkh := (l.start s f).th.clkh }
            let w := waits.arrive m b l.core l.slot (n l.slot)
            if (l.thr u).holds f.guard then v = w.setThr l.core l.slot { l.thr w with pos := entryPos (fallThrough x.clause x.body) }
            else v = u.setThr l.core l.slot { l.thr u with pos := entryPos (fallThrough x.clause x.body) }) s c p x t)))

/-- Derived from R13, R55, R63, R64, R132, R311 and log entry 82: software traps and words that are no instruction. Each
lane a trap, a breakpoint or an unassigned opcode executes for leaves its pass with that fault; a structural breach,
the first up to the word that the pass has reached, faults every lane at its index whatever its guard; any other word
no entry accepts faults the lanes it executes for, or the posting lane alone when it is a word of `mma`, `mzero` or
`bobj`. What such a lane then takes is `TakingAFaultAndReturning`. That FINFO of an illegal word is always 2048,
specifier 0 in place 4, is the model's choice (log entry 82). -/
def Obligations.TrapsAndIllegalWordsFault : Prop :=
  ∀ (f : Fields) (s : State) (c p : Nat) (x : Pass) (ks : List Nat),
    let illegal : LaneFail := .fault ⟨1, 2048, 0⟩
    (Executes s c p x f.guard ks →
      (∀ w : Nat → Word, (∀ k ∈ ks, (x.lane c k).check s [(pSA, OpKind.srcOpt false, f.sa)] = .ok ()
          ∧ (if f.sa = .none then w k = 0 else (x.lane c k).readWord s pSA f.sa = .ok (w k))) →
        ∃ u : State, exec (.trap f) s = .next (u.afterInstr c p x (ks.map (fun k => (k, .fault ⟨5, w k, 0⟩))))
          ∧ u = { s with threads := u.threads }
          ∧ ∀ d j, u.thr d j = { s.thr d j with clkh := (u.thr d j).clkh }
            ∧ ((∀ o ∈ [f.sa, f.sb, f.sc], o ≠ .special 10) → u.thr d j = s.thr d j))
      ∧ exec (.brk f) s = .next (s.afterInstr c p x (ks.map (fun k => (k, .fault ⟨6, 0, 0⟩))))
      ∧ ∀ major, exec (.unassignedOpcode f.guard major) s = .next (s.afterInstr c p x (ks.map (fun k => (k, illegal)))))
    ∧ (s.agenda = [] → s.turn = .pipe c p → Tbl.look (s.core c).pipes p = some x →
      x.stalled = false → s.comesFirst c x = none →
      let u := s.tick c x.groups
      (∀ j, reachedBreach x = some j → j ≤ x.idx ∧ bodyBreach x j = true ∧ (∀ i < j, bodyBreach x i = false)
        ∧ (let y := { x with idx := j }
          step s = .next ((u.leave c y (x.slots.map (fun k => (k, illegal)))).endPass c p (y.without x.slots))))
      ∧ (∀ r e, bodyBreach x x.idx = false → x.body[x.idx]? = some r → decodeRaw r = .error e → isPost r = false → r.isTerm = false →
          step s = .next (u.afterInstr c p x ((u.executing c x r.guard).map (fun k => (k, illegal)))))
      ∧ (∀ r e, bodyBreach x x.idx = false → x.body[x.idx]? = some r → decodeRaw r = .error e → isPost r = false → r.isTerm = true →
          step s = .next ((u.leave c x (x.slots.map (fun k => (k, illegal)))).endPass c p (x.without x.slots)))
      ∧ (∀ r e k l, bodyBreach x x.idx = false → x.body[x.idx]? = some r → decodeRaw r = .error e → isPost r = true →
          u.executing c x r.guard = k :: l → (∀ j ∈ k :: l, (s.thr c j).spec = false) →
          step s = .next (u.afterInstr c p x [(k, illegal)])))
    ∧ (∀ (k : Nat) (i : FaultInfo), k ∈ x.slots → (s.thr c k).spec = false →
      let y := { x.without [k] with idx := x.idx + 1 }
      let u := (s.setPass c p y).faultMet c k i
      let t := u.deliver c k (posAt x.clause x.idx) x.id i
      s.afterInstr c p x [(k, .fault i)] = (if y.slots = [] then t.endPass c p y else t)
        ∧ MemSide (s.setPass c p y) u ∧ (i.code ≠ 8 → i.code ≠ 9 → u = s.setPass c p y))

/-- Derived from R132, R133, R409, R425, R426, R428: instructions that change nothing but a gang's memberships, or nothing
at all. A join makes the gang a member at the sequence it votes in next; a leave ends the membership; both fault every
executing lane with code 0x11 in a clause with CONV = 0, and nothing else changes. `nop`, `hint` and `sfence` only go
on. -/
def Obligations.MembershipAndNoOperationResults : Prop :=
  ∀ (f : Fields) (s : State) (c p : Nat) (x : Pass) (ks : List Nat), Executes s c p x f.guard ks →
    let n := f.minor.toNat
    let same := fun (u : State) (_ : Lane) (v : State) => v = u
    (∃ t, exec (.nop f) s = .next t ∧ LanesRun same s c p x ks false t)
    ∧ (∃ t, exec (.hint f) s = .next t ∧ LanesRun same s c p x ks false t)
    ∧ ((∀ k ∈ ks, (s.thr c k).spec = false) → ∃ t, exec (.sfence f) s = .next t ∧ LanesRun same s c p x ks false t)
    ∧ (Hdr.conv x.hdr = false →
      let t := s.afterInstr c p x (ks.map (fun k => (k, LaneFail.fault ⟨0x11, BitVec.ofNat 32 f.dst.toSpec.toNat, 0⟩)))
      exec (.mjoin f) s = .next t ∧ exec (.mleave f) s = .next t)
    ∧ ((∀ k ∈ ks, (s.thr c k).spec = false) → Hdr.conv x.hdr = true →
      (∃ t, exec (.mleave f) s = .next t ∧ LanesRun (fun u l v =>
        v = u.setGang l.core l.gslot { l.gang u with mj := (l.gang u).mj &&& ~~~(BitVec.ofNat 16 (2 ^ n)) }) s c p x ks false t)
      ∧ ∃ t, exec (.mjoin f) s = .next t ∧ LanesRun (fun u l v =>
        let y := u.ctx (l.ctxId u)
        let q := Mset.seq (y.msetOf n)
        let next := if y.openSeqs.any (fun o => o.reg == n && o.seq == q && 0 < o.v) then q + 1 else q
        v = u.setGang l.core l.gslot (if (l.gang u).mj.getLsbD n then l.gang u else { l.gang u with
          mj := (l.gang u).mj ||| BitVec.ofNat 16 (2 ^ n), wait := (l.gang u).wait &&& ~~~(BitVec.ofNat 16 (2 ^ n)), voided := (l.gang u).voided &&& ~~~(BitVec.ofNat 16 (2 ^ n))
          gseq := Tbl.put (l.gang u).gseq n next, drop := Tbl.put (l.gang u).drop n 0 })) s c p x ks false t)

/-- Derived from R105, R107, R409 to R412, R417, R418, R420, R425, R427, R429 and log entries 20, 28, 95, 96 and 110: an
agreed branch and an agreed vote of one gang. One that passes the checks and has no vote outstanding casts its vote,
which joins the tally; the gang's sequence advances and it waits. One with a vote outstanding casts none: it waits
while that sequence is open, and else takes its result, a branch to the target or FT, an `mvote` in bit 0 of its word.
A gang no lane of which executes a `cbr` takes FT and, when it passes the checks with no vote outstanding, casts DEFV.
With a prediction the lanes run ahead from a snapshot; without one, or (the model's choice, log entry 20) while the
gang runs ahead already, they wait at the `cbr`. An `mvote` raises the flag and goes on. A breach of a successor and
each membership fault of the checks, in their order, faults every executing lane, and nothing is cast; that cause 7
ends the membership is the model's choice (log entry 95), and so are the gang's own number in SEQ of FINFO for causes
0, 1, 2 and 4 (log entry 28) and that a vote which a write of the register made void takes its cause 3 before every
other check (log entry 96). An `mvote` in a clause with CONV = 0 faults each executing lane with code 0x11; its FINFO
names the DST field, 0x1FF where there is none (log entry 110). -/
def Obligations.AgreedVotesAreCast : Prop :=
  ∀ (f : Fields) (e : CbrExt) (s : State) (c p gs : Nat) (x : Pass), s.curPass = some (c, p, x) → (∀ k ∈ x.slots, k / 32 = gs) →
    (∀ k ∈ x.slots, (s.thr c k).spec = false) →
    let g := s.gang c gs
    let cx := (s.gangGrid c gs).ctx
    let y := s.ctx cx
    let ready := fun (n : Nat) => Mset.valid (y.msetOf n) = true ∧ g.dropOf n = 0 ∧ g.member n = true ∧ g.waiting n = false
      ∧ g.voided.getLsbD n = false ∧ s.inGroup y (y.msetOf n) = true ∧ g.seqOf n = Mset.seq (y.msetOf n)
    let tally := fun (n : Nat) (q : BitVec 16) (vote : Bool) =>
      if y.openSeqs.any (fun o => o.reg == n && o.seq == q) then y.openSeqs.map (fun o =>
        if o.reg == n && o.seq == q && !o.closed then { o with t := o.t + b2n vote, v := o.v + 1 } else o)
      else y.openSeqs ++ [⟨n, q, b2n vote, 1, false, s.timebase⟩]
    let others := fun (ks : List Nat) (u : State) => (∀ j, j ≠ cx → u.ctx j = s.ctx j)
      ∧ (∀ d j, gangKey d j ≠ gangKey c gs → u.gang d j = s.gang d j)
      ∧ ∀ d j, (∀ k ∈ ks, threadKey d j ≠ threadKey c k) → u.thr d j = s.thr d j
    let cast := fun (n : Nat) (vote : Bool) (u : State) => u.ctx cx = { y with openSeqs := tally n (g.seqOf n) vote }
      ∧ (u.gang c gs).seqOf n = g.seqOf n + 1 ∧ (u.gang c gs).waiting n = true ∧ (u.gang c gs).member n = true
      ∧ (∀ m, m ≠ n → (u.gang c gs).seqOf m = g.seqOf m ∧ (u.gang c gs).waiting m = g.waiting m)
      ∧ (u.gang c gs).mj = g.mj ∧ (u.gang c gs).drop = g.drop ∧ (u.gang c gs).g = g.g ∧ (u.gang c gs).tw = g.tw
    (∀ (k0 : Nat), let ex := x.slots.filter (fun k => (s.thr c k).holds f.guard)
      let n := e.reg.toNat
      let target := x.clause + BitVec.ofInt 64 (32 * e.off.toInt)
      let ft := fallThrough x.clause x.body
      let vote := (s.thr c k0).readPred f.sa
      let dir := if e.prd = 0 then vote else decide (e.prd = 1)
      ex.head? = some k0 → (∀ k ∈ x.slots, (x.lane c k).check s [(pSA, OpKind.pred, f.sa)] = .ok ()) → ready n →
      Mset.vop (y.msetOf n) = f.minor.toNat % 4 → (∀ a ∈ [target, ft], a.toNat % 32 = 0 ∧ canonical a.toNat = true) →
      ∃ u : State, exec (.cbr f e) s = .next (u.endPass c p x) ∧ u = { s with gangs := u.gangs, threads := u.threads, ctxs := u.ctxs }
        ∧ cast n vote u ∧ others x.slots u
        ∧ (∀ k ∈ x.slots, k ∉ ex → u.thr c k = { s.thr c k with pos := entryPos ft })
        ∧ (e.prd = 3 ∨ g.spec.isSome = true → (u.gang c gs).votes = g.votes ++ [⟨n, g.seqOf n, ex, target, ft, x.clause, x.idx, none⟩]
          ∧ (u.gang c gs).spec = g.spec
          ∧ ∀ k ∈ ex, u.thr c k = { s.thr c k with pos := posAt x.clause x.idx, place := .vote })
        ∧ (e.prd ≠ 3 → g.spec = none → (u.gang c gs).votes = g.votes
          ∧ (∃ sp, (u.gang c gs).spec = some sp ∧ sp.reg = n ∧ sp.seq = g.seqOf n ∧ sp.dir = dir ∧ sp.lanes = ex ∧ sp.target = target
              ∧ sp.ft = ft ∧ sp.clause = x.clause ∧ sp.idx = x.idx ∧ sp.snapG = g.g ∧ sp.snapTw = g.tw ∧ sp.squash = none
              ∧ ∀ k ∈ ex, Tbl.look sp.snap k = some (s.thr c k))
          ∧ ∀ k ∈ ex, u.thr c k = { s.thr c k with
              spec := true, ncl := 0, specReg := n, stopped := false, heldFault := none, heldBeats := 0
              pos := entryPos (if dir then target else ft) }))
    ∧ (∀ (ks : List Nat) (k0 flag : Nat), Executes s c p x f.guard ks → ks.Nodup → ks.head? = some k0 →
      s.fullFlag f.guard (f.md.getLsbD 0) = none → setFlag x.hdr (f.md.getLsbD 0) = some flag → Hdr.conv x.hdr = true →
      (∀ k ∈ ks, (x.lane c k).check s [(pSA, OpKind.pred, f.sa), (pDST, OpKind.vOnly, f.dst)] = .ok ()) → ready f.minor.toNat →
      ∃ u : State, exec (.mvote f) s = .next (u.afterInstr c p x []) ∧ u = { s with gangs := u.gangs, threads := u.threads, ctxs := u.ctxs }
        ∧ cast f.minor.toNat ((s.thr c k0).readPred f.sa) u
        ∧ (u.gang c gs).votes = g.votes ++ [⟨f.minor.toNat, g.seqOf f.minor.toNat, ks, 0, 0, 0, 0, some (mvoteDst f.dst, flag)⟩]
        ∧ (∀ k ∈ ks, u.thr c k = (s.thr c k).setFlag flag ((s.thr c k).flag flag + 1)) ∧ others ks u)
    ∧ (let outstanding := fun (n : Nat) => Mset.valid (y.msetOf n) = true ∧ g.dropOf n = 0 ∧ g.member n = true ∧ g.waiting n = true
        ∧ g.voided.getLsbD n = false ∧ s.inGroup y (y.msetOf n) = true
      let voted := fun (n : Nat) => g.seqOf n - 1
      let taken := { g with wait := g.wait &&& ~~~(onesAt 16 e.reg.toNat 1), voided := g.voided &&& ~~~(onesAt 16 e.reg.toNat 1) }
      let mtaken := { g with wait := g.wait &&& ~~~(onesAt 16 f.minor.toNat 1), voided := g.voided &&& ~~~(onesAt 16 f.minor.toNat 1) }
      (let ex := x.slots.filter (fun k => (s.thr c k).holds f.guard)
        let n := e.reg.toNat
        let target := x.clause + BitVec.ofInt 64 (32 * e.off.toInt)
        let ft := fallThrough x.clause x.body
        let rests := fun (h : Gang) (w : Thread → Thread) => ∃ u : State, exec (.cbr f e) s = .next (u.endPass c p x)
          ∧ u = { s with gangs := u.gangs, threads := u.threads } ∧ u.gang c gs = h ∧ others x.slots u
          ∧ ∀ k ∈ x.slots, u.thr c k = if k ∈ ex then w (s.thr c k) else { s.thr c k with pos := entryPos ft }
        ex ≠ [] → (∀ k ∈ x.slots, (x.lane c k).check s [(pSA, OpKind.pred, f.sa)] = .ok ()) → outstanding n →
        Mset.vop (y.msetOf n) = f.minor.toNat % 4 → (∀ a ∈ [target, ft], a.toNat % 32 = 0 ∧ canonical a.toNat = true) →
        (Mset.seq (y.msetOf n) = voted n →
          rests { g with votes := g.votes ++ [⟨n, voted n, ex, target, ft, x.clause, x.idx, none⟩] }
            (fun th => { th with pos := posAt x.clause x.idx, place := .vote }))
        ∧ (Mset.seq (y.msetOf n) ≠ voted n → y.outcomeOf n (voted n) ≤ 1 →
          rests taken (fun th => { th with pos := entryPos (if y.outcomeOf n (voted n) = 1 then target else ft) })))
      ∧ (∀ (ks : List Nat) (flag : Nat), Executes s c p x f.guard ks → ks.Nodup → ks ≠ [] →
        s.fullFlag f.guard (f.md.getLsbD 0) = none → setFlag x.hdr (f.md.getLsbD 0) = some flag → Hdr.conv x.hdr = true →
        (∀ k ∈ ks, (x.lane c k).check s [(pSA, OpKind.pred, f.sa), (pDST, OpKind.vOnly, f.dst)] = .ok ()) → outstanding f.minor.toNat →
        (Mset.seq (y.msetOf f.minor.toNat) = voted f.minor.toNat → ∃ u : State, exec (.mvote f) s = .next (u.afterInstr c p x [])
          ∧ u = { s with gangs := u.gangs, threads := u.threads } ∧ others ks u
          ∧ u.gang c gs = { g with votes := g.votes ++ [⟨f.minor.toNat, voted f.minor.toNat, ks, 0, 0, 0, 0, some (mvoteDst f.dst, flag)⟩] }
          ∧ ∀ k ∈ ks, u.thr c k = (s.thr c k).setFlag flag ((s.thr c k).flag flag + 1))
        ∧ (Mset.seq (y.msetOf f.minor.toNat) ≠ voted f.minor.toNat → ∀ r : Bool, y.outcomeOf f.minor.toNat (voted f.minor.toNat) = b2n r →
          exec (.mvote f) s = .next ((ks.foldl (fun u k => u.issue c k flag (groupWords f.dst [(BitVec.ofNat 32 (b2n r), false)]) none)
            (s.setGang c gs mtaken)).afterInstr c p x []))))
    ∧ (let n := e.reg.toNat
      let h := catchup y n 17 g
      let votes := Mset.valid (y.msetOf n) = true ∧ Mset.vop (y.msetOf n) = f.minor.toNat % 4 ∧ h.dropOf n = 0 ∧ h.member n = true
        ∧ h.voided.getLsbD n = false ∧ s.inGroup y (y.msetOf n) = true ∧ h.waiting n = false
      x.slots ≠ [] → (∀ k ∈ x.slots, (s.thr c k).holds f.guard = false ∧ (x.lane c k).check s [(pSA, OpKind.pred, f.sa)] = .ok ()) →
      ∃ u : State, exec (.cbr f e) s = .next (u.endPass c p x) ∧ u = { s with gangs := u.gangs, threads := u.threads, ctxs := u.ctxs }
        ∧ others x.slots u ∧ (∀ k ∈ x.slots, u.thr c k = { s.thr c k with pos := entryPos (fallThrough x.clause x.body) })
        ∧ (votes → u.gang c gs = { h with gseq := Tbl.put h.gseq n (h.seqOf n + 1) }
          ∧ u.ctx cx = { y with openSeqs := tally n (h.seqOf n) (Mset.defv (y.msetOf n)) })
        ∧ (¬ votes → u.gang c gs = h ∧ u.ctx cx = y))
    ∧ (∀ (k0 : Nat), let ex := x.slots.filter (fun k => (s.thr c k).holds f.guard)
      let n := e.reg.toNat
      let target := x.clause + BitVec.ofInt 64 (32 * e.off.toInt)
      let ft := fallThrough x.clause x.body
      let good := fun (a : DWord) => a.toNat % 32 = 0 ∧ canonical a.toNat = true
      let bad := fun (a : DWord) => (⟨if a.toNat % 32 ≠ 0 then 7 else 0x0B, 0x148, a⟩ : FaultInfo)
      let faults := fun (i : FaultInfo) (h : Gang) => ∃ u : State,
        exec (.cbr f e) s = .next ((u.leave c x (ex.map (fun k => (k, LaneFail.fault i)))).endPass c p (x.without ex))
        ∧ u = { s with gangs := u.gangs, threads := u.threads } ∧ u.gang c gs = h
        ∧ (∀ d j, gangKey d j ≠ gangKey c gs → u.gang d j = s.gang d j)
        ∧ ∀ k ∈ x.slots, u.thr c k = if k ∈ ex then s.thr c k else { s.thr c k with pos := entryPos ft }
      ex.head? = some k0 → (∀ k ∈ x.slots, (x.lane c k).check s [(pSA, OpKind.pred, f.sa)] = .ok ()) →
      (¬ good target → faults (bad target) g) ∧ (good target → ¬ good ft → faults (bad ft) g)
      ∧ (good target → good ft → VoteFaults s y n (some (f.minor.toNat % 4)) (catchup y n 17 g) faults))
    ∧ (∀ (ks : List Nat) (flag : Nat), Executes s c p x f.guard ks → ks ≠ [] →
      s.fullFlag f.guard (f.md.getLsbD 0) = none → setFlag x.hdr (f.md.getLsbD 0) = some flag →
      (∀ k ∈ ks, (x.lane c k).check s [(pSA, OpKind.pred, f.sa), (pDST, OpKind.vOnly, f.dst)] = .ok ()) →
      (Hdr.conv x.hdr = false → exec (.mvote f) s = .next (s.afterInstr c p x
        (ks.map (fun k => (k, LaneFail.fault ⟨0x11, BitVec.ofNat 32 f.dst.toSpec.toNat, 0⟩)))))
      ∧ (Hdr.conv x.hdr = true → VoteFaults s y f.minor.toNat none (catchup y f.minor.toNat 17 g) (fun i h => ∃ u : State,
        exec (.mvote f) s = .next (u.afterInstr c p x (ks.map (fun k => (k, LaneFail.fault i))))
        ∧ u = { s with gangs := u.gangs } ∧ u.gang c gs = h ∧ ∀ d j, gangKey d j ≠ gangKey c gs → u.gang d j = s.gang d j)))

/-! ## Memory accesses -/

/-- Derived from R117, R249, and derived from R118 to R121, R276 and log entries 112, 113: effective addresses, and the
checks of an access in their order: alignment, canonical form, bounds, translation and permission. The fault's FADDR
is EA and its FINFO names space, direction, policy, size and stage; the lane leaves the pass, and of memory only a
line with an error that the walk met changes. An atomic needs both permissions and sets WR in FINFO; `racq` needs load
permission. An address of a die's region has its stack, pseudo-channel and byte; no two bytes of the regions share all
three, and 48 KiB of a stream touch every pseudo-channel of the die once. That a walk reports a page that stage 2
forbids before one that no row covers (log entry 112), and looks at no bit of a table's address above bit 56 (log
entry 113), are the model's choices. -/
def Obligations.AddressesAccessFaultsAndPlaces : Prop :=
  (
    (∀ (s : State) (l : Lane) (f : Fields) (space : Nat) (index : Bool) (idx off : Int),
      (if index = false ∨ f.sb = .none then idx = 0 else ∃ w, l.readWord s pSB f.sb = .ok w ∧ idx = w.toInt) →
      (match f.imm with
        | some i => off = i.toInt
        | none => if f.sc = .none then off = 0 else ∃ w, l.readWord s pSC f.sc = .ok w ∧ off = w.toInt) →
      (space = 0 ∨ space = 3 → ∀ b, l.readPair s pSA f.sa = .ok b →
        l.address s f space index = .ok (wrap ((b.toNat : Int) + idx * ((2 ^ f.slot.toNat : Nat) : Int) + off) 64))
      ∧ (space = 1 ∨ space = 2 → ∀ b, l.readWord s pSA f.sa = .ok b →
        l.address s f space index = .ok (wrap ((b.toNat : Int) + idx * ((2 ^ f.slot.toNat : Nat) : Int) + off) 32)))
    ∧ (∀ (f : Fields) (s : State) (c p : Nat) (x : Pass) (ks : List Nat) (ea : Nat → Nat) (e : Nat → Nat × Bool),
      Executes s c p x f.guard ks →
      let size := accSize f
      let info := fun (size space policy : Nat) (wr : Bool) (k : Nat) => LaneFail.fault ⟨BitVec.ofNat 8 (e k).1,
        BitVec.ofNat 32 (space + 4 * b2n wr + 16 * policy + 64 * Nat.log2 size + 512 * b2n (e k).2), BitVec.ofNat 64 (ea k)⟩
      let breach := fun (size space : Nat) (n : Need) (k : Nat) =>
        (ea k % size ≠ 0 ∧ e k = (7, false))
        ∨ (ea k % size = 0 ∧ (space = 0 ∨ space = 3) ∧ canonical (ea k) = false ∧ e k = (0x0B, false))
        ∨ (ea k % size = 0 ∧ space = 1 ∧ ((x.lane c k).grid s).scrsize < ea k + size ∧ e k = (0x0A, false))
        ∨ (ea k % size = 0 ∧ space = 2 ∧ winSize ((x.lane c k).regs s) ((x.lane c k).grid s).dregs < ea k + size ∧ e k = (0x0A, false))
        ∨ (ea k % size = 0 ∧ (space = 0 ∨ space = 3) ∧ canonical (ea k) = true
          ∧ (s.latch (x.lane c k) f).translate c ((x.lane c k).ctxId s) { n with user := !(s.thr c k).priv } (ea k) = .error (e k))
      (∀ space policy, (space = f.minor.toNat % 4 ∧ policy = f.minor.toNat / 4 ∧ space < 3) →
        (∀ k ∈ ks, (x.lane c k).check s (memFields f space true ++ [(pDST, OpKind.loadGroup (groupRegs f), f.dst)]) = .ok ()
          ∧ (x.lane c k).address s f space true = .ok (ea k) ∧ breach size space { load := true } k) →
        s.fullFlag f.guard (f.md.getLsbD 0) = none → (setFlag x.hdr (f.md.getLsbD 0)).isSome = true →
        exec (.ld f) s = .next (s.afterInstr c p x (ks.map (fun k => (k, info size space policy false k)))))
      ∧ ((∀ k ∈ ks, (x.lane c k).check s (memFields f 3 true ++ [(pDST, OpKind.loadGroup (groupRegs f), f.dst)]) = .ok ()
          ∧ (x.lane c k).address s f 3 true = .ok (ea k) ∧ breach size 3 { load := true } k) →
        s.fullFlag f.guard (f.md.getLsbD 0) = none → (setFlag x.hdr (f.md.getLsbD 0)).isSome = true →
        exec (.ldc f) s = .next (s.afterInstr c p x (ks.map (fun k => (k, info size 3 0 false k)))))
      ∧ (∀ space policy, (space = f.minor.toNat % 4 ∧ policy = f.minor.toNat / 4 ∧ space < 3) →
        (∀ k ∈ ks, (x.lane c k).check s (memFields f space true ++ [(pDST, OpKind.dataGroup (groupRegs f), f.dst)]) = .ok ()
          ∧ (x.lane c k).address s f space true = .ok (ea k) ∧ (∃ bs, (x.lane c k).storeBytes s f = .ok bs)
          ∧ breach size space { store := true } k) →
        exec (.st f) s = .next (s.afterInstr c p x (ks.map (fun k => (k, info size space policy true k)))))
      ∧ (let space := f.minor.toNat / 8
        let fields := [(pSA, if space = 0 then OpKind.reg true else OpKind.src false, f.sa)]
        let n := elemBytes f.ty
        let hit := fun (space : Nat) (need : Need) (k : Nat) => (s.thr c k).spec = false
          ∧ (x.lane c k).address s f space false = .ok (ea k) ∧ breach n space need k
        let both : Need := { load := true, store := true }
        let long := fun (pass : List (Nat × OpKind × Operand)) (k : Nat) => (x.lane c k).check s
          (pass ++ unlessImm f (pSC, OpKind.srcOpt false, f.sc) ++ [(pDST, OpKind.load f.ty.isPair, f.dst)]) = .ok ()
        let flagged := s.fullFlag f.guard (f.md.getLsbD 0) = none ∧ (setFlag x.hdr (f.md.getLsbD 0)).isSome = true
        (flagged → (∀ k ∈ ks, long (fields ++ [(pSB, OpKind.src f.ty.isPair, f.sb)]) k ∧ hit space both k
            ∧ ∃ b, (x.lane c k).readDatum s pSB f.sb f.ty = .ok b) →
          exec (.atom f) s = .next (s.afterInstr c p x (ks.map (fun k => (k, info n space 0 true k)))))
        ∧ (flagged → (∀ k ∈ ks, long (fields ++ [(pSB, OpKind.regGroup (2 * elemRegs f.ty), f.sb)]) k ∧ hit space both k
            ∧ ∃ b, casData f s (x.lane c k) = .ok b) →
          exec (.atomcas f) s = .next (s.afterInstr c p x (ks.map (fun k => (k, info n space 0 true k)))))
        ∧ ((∀ k ∈ ks, (x.lane c k).check s (fields ++ [(pSB, OpKind.src f.ty.isPair, f.sb)] ++ unlessImm f (pSC, OpKind.srcOpt false, f.sc)) = .ok ()
            ∧ hit space both k ∧ ∃ b, (x.lane c k).readDatum s pSB f.sb f.ty = .ok b) →
          exec (.red f) s = .next (s.afterInstr c p x (ks.map (fun k => (k, info n space 0 true k)))))
        ∧ (flagged → (∀ k ∈ ks, long [(pSA, OpKind.reg true, f.sa)] k ∧ hit 0 { load := true } k) →
          exec (.racq f) s = .next (s.afterInstr c p x (ks.map (fun k => (k, info n 0 0 false k)))))))) ∧
  (
    (∀ d < 4, ∀ o < 2 ^ 38, let pa := d * 2 ^ 38 + o
      hbmStack pa = 3 * d + o / 2 ^ 8 % 192 % 3 ∧ hbmChannel pa = o / 2 ^ 8 % 192 / 3
      ∧ hbmByte pa = 256 * (o / 2 ^ 8 / 192) + o % 256)
    ∧ (∀ a < 2 ^ 40, ∀ b < 2 ^ 40, hbmStack a = hbmStack b → hbmChannel a = hbmChannel b → hbmByte a = hbmByte b → a = b)
    ∧ (∀ d < 4, ∀ o, o % 256 = 0 → o + 49152 ≤ 2 ^ 38 → ∀ j < 3, ∀ ch < 64, ∃ k < 192,
      (hbmStack (d * 2 ^ 38 + o + 256 * k) = 3 * d + j ∧ hbmChannel (d * 2 ^ 38 + o + 256 * k) = ch)
      ∧ ∀ i < 192, hbmStack (d * 2 ^ 38 + o + 256 * i) = 3 * d + j → hbmChannel (d * 2 ^ 38 + o + 256 * i) = ch → i = k))

/-- Derived from R18, R28, R117 to R119, R122, R125, R126, R128, R244, R269, R372, R421 and log entries 7, 31 and 108:
loads. The access of each lane yields the bytes at EA, those of its gang's held stores laid over them, but for `ldc`
(that a held store is not laid over an `ldc`, log entry 31, that the bytes are bound as the load issues, log entry 7,
and that an access by any thread meets a page of a virtual command processor at its address, log entry 108, are the
model's choices); the words of the group are those bytes, little-endian, extended by R28, all poisoned when one covers
an uncorrectable error; they are written, and the flag falls, when the operation that the load issues completes. A
load that makes no line of the L1 portion leave it for room changes no byte. -/
def Obligations.LoadResults : Prop :=
  (∀ (f : Fields) (s : State) (c p : Nat) (x : Pass) (space policy flag : Nat) (isLdc : Bool),
    let i := if isLdc then Instr.ldc f else Instr.ld f
    let n := accSize f
    (if isLdc then space = 3 ∧ policy = 0 else space = f.minor.toNat % 4 ∧ policy = f.minor.toNat / 4 ∧ space < 3) →
    s.fullFlag f.guard (f.md.getLsbD 0) = none → setFlag x.hdr (f.md.getLsbD 0) = some flag →
    let admits := fun (k ea : Nat) => (x.lane c k).check s (memFields f space true ++ [(pDST, OpKind.loadGroup (groupRegs f), f.dst)]) = .ok ()
      ∧ (x.lane c k).address s f space true = .ok ea ∧ ea % n = 0
    let done := fun (u : State) (k : Nat) (bs : Loaded) =>
      u.issue c k flag (groupWords f.dst (poisonAll space (loadWords f.ty (accCount f) bs))) none
    (∀ (ks : List Nat) (ea : Nat → Nat), Executes s c p x f.guard ks → space = 1 ∨ space = 2 →
      (∀ k ∈ ks, admits k (ea k) ∧ ea k + n ≤ (if space = 1 then ((x.lane c k).grid s).scrsize
        else winSize ((x.lane c k).regs s) ((x.lane c k).grid s).dregs)) →
      let byte := fun (k i : Nat) => if space = 1
        then (s.heldByte (x.lane c k) .spad (ea k) i).getD (((x.lane c k).team s).spadByte (ea k + i), false)
        else (s.thr c k).winByte ((x.lane c k).regs s) ((x.lane c k).grid s).dregs (ea k + i)
      ∃ t, exec i s = .next t ∧ LanesRun (fun u l v =>
        v = done (u.latch l f) l.slot ((List.range n).map (byte l.slot))) s c p x ks f.readsChannel t)
    ∧ (∀ (k ea : Nat) (s1 : State) (m : Mapping), Executes s c p x f.guard [k] → space = 0 ∨ space = 3 → admits k ea →
      (x.lane c k).reachAligned (s.latch (x.lane c k) f) space policy ea n { load := true } = .ok (s1, .glob m) →
      let l1 := s.l1Core c ((x.lane c k).team s) m.pa
      let const := decide (space = 3)
      Plain s l1 m.key m.pa const → Plain s1 l1 m.key m.pa const → m.pa % 64 = ea % 64 →
      ∃ (w t : State) (bs : Loaded), exec i s = .next t
        ∧ GoesOn (done w k bs) t c p x f.readsChannel [(k, ({ th := s.thr c k } : LaneOut))]
        ∧ MemSide (s.latch (x.lane c k) f) w ∧ bs.length = n
        ∧ (policy ≠ 1 → (Roomy s1 l1 → SameBytes s w) ∧ ∀ i < n, bs[i]? = some ((if const then none else s.heldByte (x.lane c k) (.glob m) ea i).getD
            (s.seen l1 m.key (m.pa + i) const)))
        ∧ (policy = 1 → ∀ i < n, let held := (s.heldByte (x.lane c k) (.glob m) ea i).map (·.1)
            (bs[i]?).map (·.1) = some (held.getD ((s.evictL1 l1 (l1Key (m.pa / 64) false)).physByte m.key (m.pa + i)))
            ∧ (s.pageAt (m.pa + i) = none → (bs[i]?).map (·.1) = some (held.getD (s.homeByte l1 m.key (m.pa + i)))))))
  ∧ (∀ (t : Ty) (n : Nat) (bs : Loaded) (j : Nat), j < n → bs.length = n * elemBytes t →
    let p := leNat (((bs.drop (j * elemBytes t)).take (elemBytes t)).map (·.1))
    let bad := fun (a b : Nat) => ((bs.drop a).take b).any (·.2)
    (t.width ≠ 64 → (loadWords t n bs)[j]? = some (BitVec.ofInt 32 (t.val p), bad (j * elemBytes t) (elemBytes t)))
    ∧ (t.width = 64 → (loadWords t n bs)[2 * j]? = some (BitVec.ofNat 32 p, bad (8 * j) 4)
      ∧ (loadWords t n bs)[2 * j + 1]? = some (BitVec.ofNat 32 (p / 2 ^ 32), bad (8 * j + 4) 4)))
  ∧ (∀ (space : Nat) (ws : List (Word × Bool)) (j : Nat) (w : Word × Bool), ws[j]? = some w →
    (poisonAll space ws)[j]? = some (w.1, if space = 2 then w.2 else decide (∃ v ∈ ws, v.2 = true)))

/-- Derived from R7, R117 to R119, R123 to R125, R134, R244, R248, R266, R269, R279, R372, R421 and log entry 108: stores.
Outside speculation the bytes of the data group, low bytes first, land at EA: in the scratchpad, in the thread's
window (where reserved fields of a distribution register ignore them and read as zero), in the thread's L1 portion, or
at the home slice, under `byp` and for a line with an uncorrectable error; every other byte reads as before, and bytes
that come there to a page of a virtual command processor reach its registers (that a thread's store does so is the
model's choice, log entry 108). After a narrow release fence the line's owner tag is then set. On a speculative path
the store is held and no byte changes; with the hold full the lane stops. -/
def Obligations.StoreResults : Prop :=
  ∀ (f : Fields) (s : State) (c p : Nat) (x : Pass) (space policy : Nat),
    space = f.minor.toNat % 4 → policy = f.minor.toNat / 4 → space < 3 →
    let n := accSize f
    let admits := fun (k ea : Nat) (bs : List Byte) =>
      (x.lane c k).check s (memFields f space true ++ [(pDST, OpKind.dataGroup (groupRegs f), f.dst)]) = .ok ()
      ∧ (x.lane c k).address s f space true = .ok ea ∧ (x.lane c k).storeBytes s f = .ok bs ∧ ea % n = 0
    (∀ (k ea : Nat) (bs : List Byte), admits k ea bs →
      bs.length = n
      ∧ (f.dst.isReg = true → ∀ j < groupRegs f, ∃ w, (x.lane c k).readWord s pDST (f.dst.next j) = .ok w
          ∧ ∀ b < min 4 (elemBytes f.ty), bs[j * min 4 (elemBytes f.ty) + b]? = some (w.extractLsb' (8 * b) 8)))
    ∧ (∀ (ks : List Nat) (ea : Nat → Nat) (bs : Nat → List Byte), Executes s c p x f.guard ks → space = 1 →
      (∀ k ∈ ks, admits k (ea k) (bs k) ∧ ea k + n ≤ ((x.lane c k).grid s).scrsize ∧ (s.thr c k).spec = false) →
      ∃ t, exec (.st f) s = .next t ∧ LanesRun (fun u l v =>
        let w := u.latch l f
        let m := (l.gang w).team
        v = { w with teams := v.teams } ∧ (∀ q, q ≠ m → v.team q = w.team q) ∧ v.team m = { w.team m with scratch := (v.team m).scratch }
        ∧ ∀ a, (v.team m).spadByte a = if ea l.slot ≤ a ∧ a < ea l.slot + n then (bs l.slot).getD (a - ea l.slot) 0
            else (w.team m).spadByte a) s c p x ks f.readsChannel t)
    ∧ (∀ (ks : List Nat) (ea : Nat → Nat) (bs : Nat → List Byte), Executes s c p x f.guard ks → ks.Nodup → space = 2 →
      (∀ k ∈ ks, admits k (ea k) (bs k) ∧ ea k + n ≤ winSize ((x.lane c k).regs s) ((x.lane c k).grid s).dregs) →
      ∃ t, exec (.st f) s = .next t ∧ LanesRun (fun u l v =>
        WinStored (u.latch l f) v l (l.regs s) (l.grid s).dregs (ea l.slot) n (bs l.slot)) s c p x ks f.readsChannel t)
    ∧ (∀ (k ea : Nat) (bs : List Byte) (s1 : State) (m : Mapping), Executes s c p x f.guard [k] → space = 0 → admits k ea bs →
      (x.lane c k).reachAligned (s.latch (x.lane c k) f) 0 policy ea n { store := true } = .ok (s1, .glob m) →
      (s.thr c k).spec = false →
      let l := x.lane c k
      let l1 := s.l1Core c (l.team s) m.pa
      Plain s l1 m.key m.pa false → Plain s1 l1 m.key m.pa false → m.pa % 64 = ea % 64 →
      let atSlice := policy = 1 ∨ (s1.l1Line l1 m.pa false = none ∧ s1.physBad (64 * (m.pa / 64)) 64 = true)
      ∃ w t : State, exec (.st f) s = .next t
        ∧ GoesOn (if (s.thr c k).relFence then w.tagOwner (m.pa / 64) (l.owner s) else w) t c p x f.readsChannel
            [(k, ({ th := s.thr c k } : LaneOut))]
        ∧ MemSide ((s.latch l f).markVisible (l.team s).grid) w
        ∧ (∀ q o, (w.team q).spadByte o = (s.team q).spadByte o)
        ∧ (¬ atSlice → Roomy s1 l1 → (∀ key pa, w.physByte key pa = s.physByte key pa)
          ∧ ∀ l1' key pa, w.viewByte l1' key pa = if l1' = l1 ∧ key = m.key ∧ m.pa ≤ pa ∧ pa < m.pa + n
              then bs.getD (pa - m.pa) 0 else s.viewByte l1' key pa)
        ∧ (atSlice → w.l1Line l1 m.pa false = none
          ∧ (∀ pa, s.pageAt pa = none → pa / 64 = m.pa / 64 →
              w.physByte m.key pa = if m.pa ≤ pa ∧ pa < m.pa + n then bs.getD (pa - m.pa) 0 else s.homeByte l1 m.key pa)
          ∧ (∀ key pa, s.pageAt pa = none → pa / 64 ≠ m.pa / 64 → w.physByte key pa = s.physByte key pa)
          ∧ (let v := (s.evictL1 l1 (l1Key (m.pa / 64) false)).putEach m.pa bs
            w.vcps = v.vcps ∧ w.queues = v.queues)))
    ∧ (∀ (k ea : Nat) (bs : List Byte) (s1 : State) (t : Target) (b : Nat × Nat × Nat), Executes s c p x f.guard [k] → admits k ea bs →
      (x.lane c k).reachAligned (s.latch (x.lane c k) f) space policy ea n { store := true } = .ok (s1, t) →
      (s.thr c k).spec = true → t.block ea = some b →
      let l := x.lane c k
      let before := (s.core c).held l.gslot b
      (before = none → Config.sshEntries ≤ (s.core c).ssh.length → exec (.st f) s = .next (s.afterInstr c p x [(k, .stop)]))
      ∧ (before.isSome = true ∨ (s.core c).ssh.length < Config.sshEntries →
        ∃ (w u : State) (e : SshEntry), exec (.st f) s = .next u
          ∧ GoesOn w u c p x f.readsChannel [(k, ({ th := s.thr c k } : LaneOut))]
          ∧ w = { s1 with cores := w.cores } ∧ MemSide (s.latch l f) s1
          ∧ (∀ d, w.core d = { s1.core d with ssh := (w.core d).ssh })
          ∧ ((∀ a y, Tbl.look s.l2 a = some y → y.owner = none ∧ y.bad = false) → SameBytes s w)
          ∧ (w.core c).held l.gslot b = some e
          ∧ ∀ i < 32, let inside := decide (t.offset ea ≤ i ∧ i < t.offset ea + n)
            e.mask.getLsbD i = (inside || (before.map (fun o => o.mask.getLsbD i)).getD false)
            ∧ (inside = true → e.data.extractLsb' (8 * i) 8 = bs.getD (i - t.offset ea) 0)
            ∧ (inside = false → ∀ o, before = some o → e.data.extractLsb' (8 * i) 8 = o.data.extractLsb' (8 * i) 8)))

/-- Derived from R270, R272, R274 to R277, R279, R348, R372, R378 and log entries 7, 92, 106, 108: the new value of each
atomic operation on patterns of its type, and the atomic instructions. The old value is the one at the home of the
address, once the thread's L1 portion has written its dirty bytes back and given the line up; the new value stands
there in one step; the old value goes to the destination, for `red` nowhere. A release writes the L1 portion back
before, an acquire empties it after. That the old value is bound as the atomic issues (log entry 7), which atomics on
system memory go out as bus requests (log entry 92), the owner tag on a line of system memory (log entry 106), and
that an atomic meets a page of a virtual command processor at its address (log entry 108), are the model's choices. -/
def Obligations.AtomicValuesAndResults : Prop :=
  (
    ∀ (t : Ty) (old b : Nat), old < 2 ^ t.width → b < 2 ^ t.width →
      (t.isInt = true →
        atomNew 0 t old b = (old + b) % 2 ^ t.width
        ∧ t.val (atomNew 1 t old b) = min (t.val old) (t.val b) ∧ t.val (atomNew 2 t old b) = max (t.val old) (t.val b)
        ∧ (∀ i, bitOf (atomNew 3 t old b) i = (bitOf old i && bitOf b i)) ∧ (∀ i, bitOf (atomNew 4 t old b) i = (bitOf old i || bitOf b i))
        ∧ (∀ i, bitOf (atomNew 5 t old b) i = (bitOf old i != bitOf b i)) ∧ atomNew 6 t old b = b)
      ∧ (t = .u32 ∨ t = .u64 → atomNew 7 t old b = if b = 0 then (old + 1) % 2 ^ t.width else (old + 1) % b)
      ∧ (t = .f32 → atomNew 0 t old b = (fAdd .f32 0 old b).1 ∧ atomNew 1 t old b = (fMinMax .f32 false old b).1
        ∧ atomNew 2 t old b = (fMinMax .f32 true old b).1)) ∧
  (
    ∀ (f : Fields) (s : State) (c p : Nat) (x : Pass) (flag : Nat),
      let space := f.minor.toNat / 8
      let n := elemBytes f.ty
      let order := f.md.toNat / 2
      let scope := f.slot.toNat
      ∀ (i : Instr) (long : Bool) (new : Nat → Nat → Option Nat),
        (long = true → s.fullFlag f.guard (f.md.getLsbD 0) = none ∧ setFlag x.hdr (f.md.getLsbD 0) = some flag) →
        ((i = .atom f ∧ long = true ∨ i = .red f ∧ long = false)
            ∧ (∀ k old, ∀ b, (x.lane c k).readDatum s pSB f.sb f.ty = .ok b → new k old = some (atomNew (f.minor.toNat % 8) f.ty old b))
          ∨ i = .atomcas f ∧ long = true ∧ ∀ k old, ∀ b, casData f s (x.lane c k) = .ok b → new k old = if old = b.1 then some b.2 else none) →
        let admits := fun (k ea : Nat) => (x.lane c k).check s ([(pSA, if space = 0 then OpKind.reg true else OpKind.src false, f.sa),
            (pSB, if i = .atomcas f then OpKind.regGroup (2 * elemRegs f.ty) else OpKind.src f.ty.isPair, f.sb)]
            ++ unlessImm f (pSC, OpKind.srcOpt false, f.sc) ++ (if long then [(pDST, OpKind.load f.ty.isPair, f.dst)] else [])) = .ok ()
          ∧ (x.lane c k).address s f space false = .ok ea ∧ ea % n = 0 ∧ (s.thr c k).spec = false
          ∧ (if i = .atomcas f then ∃ b, casData f s (x.lane c k) = .ok b else ∃ b, (x.lane c k).readDatum s pSB f.sb f.ty = .ok b)
        let released := fun (u : State) (l : Lane) => if order = 2 ∨ order = 3 then u.releaseAt l.core (l.team u) scope else u
        let acquired := fun (u : State) (l : Lane) => if order = 1 ∨ order = 3 then u.acquireAt l.core (l.team u) scope else u
        let answered := fun (u : State) (k old : Nat) (bad : Bool) => if long then
            u.issue c k flag (groupWords f.dst (if f.ty.width = 64 then [(BitVec.ofNat 32 old, bad), (BitVec.ofNat 32 (old / 2 ^ 32), bad)]
              else [(BitVec.ofNat 32 old, bad)])) none
          else if bad then u.dropRed ((x.lane c k).ctxId s) else u
        (∀ (ks : List Nat) (ea : Nat → Nat), Executes s c p x f.guard ks → space ≠ 0 →
          (∀ k ∈ ks, admits k (ea k) ∧ ea k + n ≤ ((x.lane c k).grid s).scrsize) →
          ∃ t, exec i s = .next t ∧ LanesRun (fun u l v =>
            let w := released (u.latch l f) l
            let old := leNat ((List.range n).map (fun j => (l.team w).spadByte (ea l.slot + j)))
            ∃ y : State, v = answered (acquired y l) l.slot old false ∧ y = { w with teams := y.teams }
              ∧ (∀ q, q ≠ (l.gang w).team → y.team q = w.team q)
              ∧ (l.team y) = { l.team w with scratch := (l.team y).scratch }
              ∧ ∀ a, (l.team y).spadByte a = match new l.slot old with
                | some z => if ea l.slot ≤ a ∧ a < ea l.slot + n then (leBytes n z).getD (a - ea l.slot) 0 else (l.team w).spadByte a
                | none => (l.team w).spadByte a) s c p x ks f.readsChannel t)
        ∧ (∀ (k ea : Nat) (s1 : State) (m : Mapping), Executes s c p x f.guard [k] → space = 0 → admits k ea →
          (x.lane c k).reachAligned (s.latch (x.lane c k) f) 0 0 ea n { load := true, store := true } = .ok (s1, .glob m) →
          let l := x.lane c k
          let l1 := s.l1Core c (l.team s) m.pa
          let s2 := released s1 l
          Plain s2 l1 m.key m.pa false → m.pa % 64 = ea % 64 →
          (isSystem m.pa = true → ∀ a b r, s.agenda ≠ .hostInside a b :: r) →
          let tags := decide ((order = 2 ∨ order = 3) ∧ scope < 2) || (s.thr c k).relFence
          let tagged := fun (u : State) (o : Nat) => if tags && (new k o).isSome then u.tagOwner (m.pa / 64) (l.owner s) else u
          let home := s2.evictL1 l1 (l1Key (m.pa / 64) false)
          let old := leNat ((List.range n).map (fun j => home.physByte m.key (m.pa + j)))
          (∀ pa, s.pageAt pa = none → pa / 64 = m.pa / 64 → home.physByte m.key pa = s2.homeByte l1 m.key pa)
          ∧ (s2.physBad (64 * (m.pa / 64)) 64 = false → ∃ (w t : State), exec i s = .next t
            ∧ GoesOn (answered (acquired (tagged w old) l) k old false) t c p x f.readsChannel [(k, ({ th := s.thr c k } : LaneOut))]
            ∧ (match new k old with
              | some z => MemSide (s2.markVisible (l.team s).grid) w ∧ (∀ pa, s.pageAt pa = none → pa / 64 = m.pa / 64 → w.physByte m.key pa
                  = if m.pa ≤ pa ∧ pa < m.pa + n then (leBytes n z).getD (pa - m.pa) 0 else home.physByte m.key pa)
                  ∧ w.vcps = (home.putEach m.pa (leBytes n z)).vcps ∧ w.queues = (home.putEach m.pa (leBytes n z)).queues
              | none => MemSide (s2.markVisible (l.team s).grid) w ∧ (∀ pa, pa / 64 = m.pa / 64 → w.physByte m.key pa = home.physByte m.key pa)
                  ∧ w.vcps = home.vcps ∧ w.queues = home.queues)
            ∧ w.l1Line l1 m.pa false = none
            ∧ (∀ key pa, s.pageAt pa = none → pa / 64 ≠ m.pa / 64 → w.physByte key pa = s2.physByte key pa)
            ∧ ∀ q o, (w.team q).spadByte o = (s.team q).spadByte o)
          ∧ (s2.physBad (64 * (m.pa / 64)) 64 = true → s2.l1Line l1 m.pa false = none → ∃ (w t : State), exec i s = .next t
            ∧ GoesOn (answered (acquired w l) k old true) t c p x f.readsChannel [(k, ({ th := s.thr c k } : LaneOut))]
            ∧ MemSide s2 w ∧ (∀ key pa, w.physByte key pa = s2.physByte key pa))))

/-- Derived from R127, R128, R270, R272, R278, R279 and log entries 7, 26, 106 and 108: fences, prefetch and the remote
acquire. A release at cluster scope or wider leaves no dirty byte in the L1 portions of the thread; an acquire leaves
no line but constant ones (that it takes every global line, dirty ones after their bytes are written back, is the
model's choice, log entry 26); a narrower release makes later writes releases. A prefetch changes no register and,
where no line leaves the L1 portion for room, no byte; a stale temporary in its address faults. A remote acquire of a
line with a foreign owner tag promotes its owner first and reads the home slice; the bytes that it returns are bound
as it issues (the model's choice, log entry 7). -/
def Obligations.FencePrefetchAndRemoteAcquireResults : Prop :=
  (∀ (f : Fields) (s : State) (c p : Nat) (x : Pass) (ks : List Nat), Executes s c p x f.guard ks →
    let order := f.md.toNat / 2
    let rel := decide (order = 2 ∨ order = 3)
    let acq := decide (order = 1 ∨ order = 3)
    let scope := f.slot.toNat
    ((∀ k ∈ ks, (s.thr c k).spec = true → scope < 2 ∧ (rel = true → ∀ e ∈ (s.core c).ssh, e.gslot ≠ k / 32)) →
      ∃ t, exec (.fence f) s = .next t ∧ LanesRun (fun u l v =>
        let marked := if rel && decide (scope < 2) then u.modThr l.core l.slot (fun th => { th with relFence := true }) else u
        (scope < 2 → v = marked) ∧ (2 ≤ scope → MemSide u v
          ∧ (rel = false → acq = false → v = u)
          ∧ (rel = true → acq = false → ∀ d ∈ u.l1Cores l.core (l.team u), ∀ key y, Tbl.look (v.core d).l1 key = some y → y.dirty = 0)
          ∧ (acq = true → ∀ d ∈ u.l1Cores l.core (l.team u), ∀ key y, Tbl.look (v.core d).l1 key = some y → y.const = true)))
        s c p x ks false t))
  ∧ (∀ (f : Fields) (s : State) (c p k : Nat) (x : Pass) (ea : Nat), Executes s c p x f.guard [k] →
    (x.lane c k).check s (memFields f 0 true) = .ok () → (x.lane c k).address s f 0 true = .ok ea →
    let l := x.lane c k
    (∃ w t : State, exec (.pref f) s = .next t
      ∧ GoesOn w t c p x f.readsChannel [(k, ({ th := s.thr c k } : LaneOut))] ∧ MemSide (s.latch l f) w
      ∧ (∀ m s1, l.reach (s.latch l f) 0 (f.minor.toNat / 4) 0 ea 1 { load := true } = .ok (s1, .glob m) →
          Plain s (s.l1Core c (l.team s) m.pa) m.key m.pa false → Plain s1 (s.l1Core c (l.team s) m.pa) m.key m.pa false → Roomy s1 (s.l1Core c (l.team s) m.pa) → SameBytes s w)
      ∧ (∀ e, l.reach (s.latch l f) 0 (f.minor.toNat / 4) 0 ea 1 { load := true } = .error e → w = s.latch l f)))
  ∧ (∀ (f : Fields) (s : State) (c p k : Nat) (x : Pass) (i : FaultInfo), Executes s c p x f.guard [k] →
    (x.lane c k).check s (memFields f 0 true) = .ok () → (x.lane c k).staleTerm s f = some i →
    i.code = 3 ∧ exec (.pref f) s = .next (s.afterInstr c p x [(k, .fault i)]))
  ∧ (∀ (f : Fields) (s : State) (c p k flag ea : Nat) (x : Pass) (s1 : State) (m : Mapping), Executes s c p x f.guard [k] →
    s.fullFlag f.guard (f.md.getLsbD 0) = none → setFlag x.hdr (f.md.getLsbD 0) = some flag →
    let l := x.lane c k
    let n := elemBytes f.ty
    l.check s ([(pSA, OpKind.reg true, f.sa)] ++ unlessImm f (pSC, OpKind.srcOpt false, f.sc) ++ [(pDST, OpKind.load f.ty.isPair, f.dst)]) = .ok () →
    (s.thr c k).spec = false → l.address s f 0 false = .ok ea → ea % n = 0 → m.pa % 64 = ea % 64 →
    l.reachAligned (s.latch l f) 0 0 ea n { load := true } = .ok (s1, .glob m) →
    let l1 := s.l1Core c (l.team s) m.pa
    let foreign := ∃ y o, Tbl.look s1.l2 (m.pa / 64) = some y ∧ y.owner = some o ∧ o ≠ l.owner s
    ∃ (w t : State) (bs : Loaded), exec (.racq f) s = .next t
      ∧ GoesOn ((w.acquireAt c (l.team s) 4).issue c k flag (groupWords f.dst (poisonAll 0 (loadWords f.ty 1 bs))) none) t c p x f.readsChannel
          [(k, ({ th := s.thr c k } : LaneOut))]
      ∧ MemSide (s.latch l f) w ∧ bs.length = n
      ∧ (foreign → ∃ w1, w1 = s1.promote (m.pa / 64) ∧ (w, bs) = w1.globalLoad (l.via s m.pa) m 1 n false)
      ∧ (¬ foreign → Plain s l1 m.key m.pa false → Plain s1 l1 m.key m.pa false → ∀ i < n,
          (bs[i]?).map (·.1) = some ((s.evictL1 l1 (l1Key (m.pa / 64) false)).physByte m.key (m.pa + i))
          ∧ (s.pageAt (m.pa + i) = none → (bs[i]?).map (·.1) = some (s.homeByte l1 m.key (m.pa + i)))))

/-- Derived from R7, R117 to R120, R125, R134, R135, R141, R148, R372, R419, R421 and log entries 7, 27, 81, 108: `dld`
and `dst` move the 64-byte image of a distribution register, in scratchpad, in the window or in global memory under
each policy. A load takes bytes 0 to 51, but for the reserved bits of the last and NPT, which is set from the points,
with NANP, as R141 sets it (that R141 holds of `dld` is the model's choice, log entry 27), and leaves the register
poisoned when an uncorrectable byte comes with them; a store writes 52 bytes and 12 zeros. A load sees the stores that
its gang holds; on a speculative path a store to scratchpad or global memory is held, or the lane stops when the hold
has no room for both of its halves. That a load binds its bytes as it issues (log entry 7), that one through the
window copies the poison of what it reads (log entry 81), and that a store to a page of a virtual command processor
reaches its registers (log entry 108), are the model's choices. -/
def Obligations.DistributionLoadAndStoreResults : Prop :=
  ∀ (f : Fields) (s : State) (c p : Nat) (x : Pass) (r : Nat), f.dst = .v (BitVec.ofNat 8 r) → r < 16 →
    let space := f.minor.toNat % 4
    let policy := f.minor.toNat / 4
    let admits := fun (k ea : Nat) => (x.lane c k).checkD s (distFields f) = .ok () ∧ (x.lane c k).address s f space true = .ok ea ∧ ea % 64 = 0
    let image := fun (k : Nat) => lineBytes ((s.thr c k).readD r) 0 52 ++ List.replicate 12 (0 : Byte)
    let loaded := fun (th u : Thread) (byte : Nat → Byte × Bool) =>
      let npt := (DReg.ofBits (u.readD r)).npt
      u = { th with d := u.d, dPoison := u.dPoison, dst := if npt then th.dst ||| dNANP else th.dst }
      ∧ (∀ i < 64, lineByte (u.readD r) i = if i < 51 then (byte i).1
          else if i = 51 then ((byte i).1 &&& 0x1F) ||| (if npt then 0x20 else 0) else 0)
      ∧ (Tbl.at u.dPoison r false = true ↔ ∃ i < 64, (byte i).2 = true)
      ∧ (∀ j, j ≠ r → u.readD j = th.readD j ∧ Tbl.at u.dPoison j false = Tbl.at th.dPoison j false)
    (∀ (ks : List Nat) (ea : Nat → Nat), Executes s c p x f.guard ks → space = 1 ∨ space = 2 →
      (∀ k ∈ ks, admits k (ea k) ∧ ea k + 64 ≤ (if space = 1 then ((x.lane c k).grid s).scrsize
        else winSize ((x.lane c k).regs s) ((x.lane c k).grid s).dregs)) →
      (∃ t, exec (.dld f) s = .next t ∧ LanesRun (fun u l v =>
        let w := u.latch l f
        let byte := fun (i : Nat) => if space = 1
          then (s.heldByte l .spad (ea l.slot + i / 32 * 32) (i % 32)).getD ((l.team s).spadByte (ea l.slot + i), false)
          else (w.thr l.core l.slot).winByte (l.regs s) (l.grid s).dregs (ea l.slot + i)
        v = w.setThr l.core l.slot (v.thr l.core l.slot) ∧ loaded (w.thr l.core l.slot) (v.thr l.core l.slot) byte) s c p x ks f.readsChannel t)
      ∧ (space = 1 → (∀ k ∈ ks, Tbl.at (s.thr c k).dPoison r false = false ∧ (s.thr c k).spec = false) → ∃ t, exec (.dst f) s = .next t ∧ LanesRun (fun u l v =>
        let w := u.latch l f
        let m := (l.gang w).team
        v = { w with teams := v.teams } ∧ (∀ q, q ≠ m → v.team q = w.team q) ∧ v.team m = { w.team m with scratch := (v.team m).scratch }
        ∧ ∀ a, (v.team m).spadByte a = if ea l.slot ≤ a ∧ a < ea l.slot + 64 then (image l.slot).getD (a - ea l.slot) 0
            else (w.team m).spadByte a) s c p x ks f.readsChannel t)
      ∧ (space = 2 → ks.Nodup → (∀ k ∈ ks, Tbl.at (s.thr c k).dPoison r false = false) → ∃ t, exec (.dst f) s = .next t ∧ LanesRun (fun u l v =>
        let regs := l.regs s
        let dregs := (l.grid s).dregs
        WinStored (u.latch l f) v l regs dregs (ea l.slot) 64 (image l.slot)
        ∧ (∀ j < regs, Tbl.at (v.thr c l.slot).vPoison j false
            = (Tbl.at (u.thr c l.slot).vPoison j false && !(decide (ea l.slot ≤ 4 * j) && decide (4 * j + 4 ≤ ea l.slot + 64))))
        ∧ ∀ j < dregs, Tbl.at (v.thr c l.slot).dPoison j false
            = (Tbl.at (u.thr c l.slot).dPoison j false && decide (ea l.slot ≠ dregBase regs + 64 * j))) s c p x ks f.readsChannel t))
    ∧ (∀ (k ea : Nat) (s1 : State) (lo hi : Mapping), Executes s c p x f.guard [k] → space = 0 → admits k ea →
      hi.pa = lo.pa + 32 → hi.key = lo.key → lo.pa % 64 = 0 →
      let l := x.lane c k
      let l1 := s.l1Core c (l.team s) lo.pa
      let held := fun (i : Nat) => if i < 32 then s.heldByte l (.glob lo) ea i else s.heldByte l (.glob hi) (ea + 32) (i - 32)
      let home := s.evictL1 l1 (l1Key (lo.pa / 64) false)
      Plain s l1 lo.key lo.pa false → Plain s1 l1 lo.key lo.pa false → Roomy s1 l1 →
      (distReach f (s.latch l f) l ea { load := true } = .ok (s1, .glob lo, .glob hi) →
        ∃ w t : State, exec (.dld f) s = .next t ∧ GoesOn w t c p x f.readsChannel [(k, ({ th := s.thr c k } : LaneOut))]
          ∧ MemSide (s.latch l f) { w with threads := (s.latch l f).threads }
          ∧ (policy ≠ 1 → SameBytes s w ∧ loaded ((s.latch l f).thr c k) (w.thr c k) (fun i =>
              (held i).getD (s.seen l1 lo.key (lo.pa + i) false)))
          ∧ (policy = 1 → loaded ((s.latch l f).thr c k) (w.thr c k) (fun i =>
              (held i).getD (home.physByte lo.key (lo.pa + i), home.physBad (4 * ((lo.pa + i) / 4)) 4)))
          ∧ ∀ d j, threadKey d j ≠ threadKey c k → w.thr d j = s.thr d j)
      ∧ (∀ pa, s.pageAt pa = none → pa / 64 = lo.pa / 64 → home.physByte lo.key pa = s.homeByte l1 lo.key pa)
      ∧ (distReach f (s.latch l f) l ea { store := true } = .ok (s1, .glob lo, .glob hi) → policy ≠ 1 →
        Tbl.at (s.thr c k).dPoison r false = false → (s.thr c k).spec = false → (s.thr c k).relFence = false →
        (s1.physBad lo.pa 64 = false ∨ (s1.l1Line l1 lo.pa false).isSome = true) →
        ∃ w t : State, exec (.dst f) s = .next t ∧ GoesOn w t c p x f.readsChannel [(k, ({ th := s.thr c k } : LaneOut))]
          ∧ MemSide ((s.latch l f).markVisible (l.team s).grid) w
          ∧ (∀ key pa, w.physByte key pa = s.physByte key pa)
          ∧ ∀ l1' key pa, w.viewByte l1' key pa = if l1' = l1 ∧ key = lo.key ∧ lo.pa ≤ pa ∧ pa < lo.pa + 64
              then (image k).getD (pa - lo.pa) 0 else s.viewByte l1' key pa)
      ∧ (distReach f (s.latch l f) l ea { store := true } = .ok (s1, .glob lo, .glob hi) → policy = 1 →
        Tbl.at (s.thr c k).dPoison r false = false → (s.thr c k).spec = false → (s.thr c k).relFence = false →
        ∃ w t : State, exec (.dst f) s = .next t ∧ GoesOn w t c p x f.readsChannel [(k, ({ th := s.thr c k } : LaneOut))]
          ∧ MemSide ((s.latch l f).markVisible (l.team s).grid) w ∧ w.l1Line l1 lo.pa false = none
          ∧ (∀ pa, s.pageAt pa = none → lo.pa ≤ pa → pa < lo.pa + 64 → w.physByte lo.key pa = (image k).getD (pa - lo.pa) 0)
          ∧ (∀ key pa, s.pageAt pa = none → pa / 64 ≠ lo.pa / 64 → w.physByte key pa = s.physByte key pa)
          ∧ (let v := home.putEach lo.pa (image k)
            w.vcps = v.vcps ∧ w.queues = v.queues)))
    ∧ (∀ (k ea : Nat) (s1 : State) (lo hi : Target) (b0 b1 : Nat × Nat × Nat), Executes s c p x f.guard [k] → admits k ea →
      (space = 1 ∨ space = 0 ∧ ∃ m n, lo = .glob m ∧ hi = .glob n ∧ n.pa = m.pa + 32 ∧ n.key = m.key ∧ m.pa % 64 = 0) →
      distReach f (s.latch (x.lane c k) f) (x.lane c k) ea { store := true } = .ok (s1, lo, hi) →
      Tbl.at (s.thr c k).dPoison r false = false → (s.thr c k).spec = true → lo.block ea = some b0 → hi.block (ea + 32) = some b1 →
      let l := x.lane c k
      let new := fun (b : Nat × Nat × Nat) => b2n ((s.core c).held l.gslot b).isNone
      let room := new b0 + new b1 = 0 ∨ (s.core c).ssh.length + new b0 + new b1 ≤ Config.sshEntries
      (¬ room → exec (.dst f) s = .next (s.afterInstr c p x [(k, .stop)]))
      ∧ (room → ∃ w u : State, exec (.dst f) s = .next u
          ∧ GoesOn w u c p x f.readsChannel [(k, ({ th := s.thr c k } : LaneOut))]
          ∧ w = { s1 with cores := w.cores } ∧ MemSide (s.latch l f) s1
          ∧ (∀ d, w.core d = { s1.core d with ssh := (w.core d).ssh })
          ∧ ((∀ a y, Tbl.look s.l2 a = some y → y.owner = none ∧ y.bad = false) → SameBytes s w)
          ∧ ∀ e ∈ [(b0, 0), (b1, 32)], ∃ h, (w.core c).held l.gslot e.1 = some h
            ∧ ∀ i < 32, h.mask.getLsbD i = true ∧ h.data.extractLsb' (8 * i) 8 = (image k).getD (e.2 + i) 0))

/-! ## Layouts, copies, the matrix engine, system registers, beats and launches -/

/-- Derived from R287 to R291, R391, R392: `tlay` and `tlay.grid` write a layout register once for a gang, from the words
of its lowest lane; each keeps the fields the other writes. Words that breach the checks of R290 or R392 fault that
lane. -/
def Obligations.LayoutInstructionResults : Prop :=
  ∀ (f : Fields) (s : State) (c p gs k0 : Nat) (x : Pass) (ks : List Nat), Executes s c p x f.guard ks → (∀ k ∈ ks, k / 32 = gs) →
    ks.head? = some k0 → (∀ k ∈ ks, (s.thr c k).spec = false) → f.sb = .none → f.sc = .none →
    let m := (s.gang c gs).team
    let written := fun (i : Instr) (n : Nat) (old y : BitVec 256) => ∃ u t : State, exec i s = .next t
      ∧ GoesOn u t c p x false (ks.map (fun k => (k, ({ th := s.thr c k } : LaneOut))))
      ∧ u = { s with threads := u.threads, teams := u.teams } ∧ (∀ d j, u.thr d j = s.thr d j)
      ∧ (∀ q, q ≠ m → u.team q = s.team q) ∧ u.team m = { s.team m with ly := (u.team m).ly }
      ∧ (s.team m).lyOf n = old ∧ (u.team m).lyOf n = y ∧ ∀ j, j ≠ n → (u.team m).lyOf j = (s.team m).lyOf j
    let refused := fun (i : Instr) => ∃ y : Pass, y = { x with resv := y.resv } ∧ (∀ g, Tbl.look y.resv g = Tbl.look x.resv g)
      ∧ exec i s = .next (s.afterInstr c p y [(k0, .fault ⟨2, BitVec.ofNat 32 (f.sa.toSpec.toNat + 512), 0⟩)])
    (∀ (e : TlayExt) (r : BitVec 8) (ws : List Word), f.sa = .v r → r.toNat % 4 = 0 →
      (x.lane c k0).readGroup s pSA f.sa 0 4 = .ok ws →
      let ok := Ly.wordsOk e.kind (ws.map (fun w => w.toNat))
        ((List.range 4).map (fun k => e.extm1.toNat / 2 ^ (12 * k) % 2 ^ 12 + 1)) (2 ^ e.esz.toNat)
      (ok = true → ∃ old y : BitVec 256, written (.tlay f e) e.ly.toNat old y
        ∧ y.extractLsb' 0 48 = e.extm1 ∧ y.extractLsb' 48 2 = e.esz ∧ y.getLsbD 50 = e.kind
        ∧ y.extractLsb' 51 64 = old.extractLsb' 51 64 ∧ ∀ j < 4, ws[j]? = some (y.extractLsb' (128 + 32 * j) 32))
      ∧ (ok = false → refused (.tlay f e)))
    ∧ (∀ (e : GridExt) (r : BitVec 8) (v : DWord), f.sa = .v r → r.toNat % 2 = 0 → (x.lane c k0).readPair s pSA f.sa = .ok v →
      let ok := v.toNat < 2 ^ 33 ∧ (v.extractLsb' 30 3).toNat ≠ 7 ∧ ((v.extractLsb' 0 9).toNat + 1)
        * ((v.extractLsb' 9 9).toNat + 1) * ((v.extractLsb' 18 9).toNat + 1) ≤ 512
      (ok → ∃ old y : BitVec 256, written (.tlayGrid f e) e.ly.toNat old y
        ∧ y.extractLsb' 0 51 = old.extractLsb' 0 51 ∧ y.extractLsb' 51 64 = v ∧ y.extractLsb' 115 141 = old.extractLsb' 115 141)
      ∧ (¬ ok → refused (.tlayGrid f e)))

/-- Derived from R280, R285, R286, R291, R292, R296, R298, R299, R393, R394 and log entry 22: copy instructions. A gang's
slice starts a copy of its channel, or joins the one of its number; its bases, layouts and participants are noted,
every executing lane holds the copy in its open set, the team's stores reach the slices first, and the copy is checked
when every slice has arrived, or next of all when a slice that differs from the first comes later. That a copy has the
privilege of the lane that gave its first slice is the model's choice (log entry 22). `tseal` moves the open set into
a batch. -/
def Obligations.CopyInstructionResults : Prop :=
  (∀ (f : Fields) (s : State) (c p gs k0 : Nat) (x : Pass) (ks : List Nat) (i : Instr) (kind : CopyKind) (policy : Nat)
    (a b : BitVec 3) (all : Bool) (src dst aux : DWord),
    ((∃ e : CopyExt, i = .tcopy f e ∧ kind = .plain (f.minor.toNat % 4) ∧ policy = f.minor.toNat / 4 ∧ a = e.lyS ∧ b = e.lyD
        ∧ all = e.all ∧ aux = 0)
      ∨ (∃ e : CopyExt, i = .tcopyx f e ∧ kind = .sparse (f.minor.toNat % 4) (f.minor.getLsbD 2) ∧ policy = 0 ∧ a = e.lyS ∧ b = e.lyD
        ∧ all = e.all ∧ (x.lane c k0).readBase s kind.auxGlobal pSC f.sc = .ok aux)
      ∨ (∃ e : CcollExt, i = .ccoll f e ∧ kind = .coll (f.minor.toNat % 4) (f.minor.toNat / 4) f.ty e.mreg.toNat e.dx.toInt e.dy.toInt e.dz.toInt
        ∧ policy = 0 ∧ a = e.lyS ∧ b = e.lyD ∧ all = e.all ∧ (x.lane c k0).readBase s kind.auxGlobal pSC f.sc = .ok aux)) →
    Executes s c p x f.guard ks → ks.Nodup → (∀ k ∈ ks, k / 32 = gs) → ks.head? = some k0 → s.fullOpen f.guard = none →
    (∀ k ∈ ks, (s.thr c k).spec = false ∧ (x.lane c k).check s ([(pSA, if kind.srcGlobal then OpKind.reg true else OpKind.src false, f.sa),
      (pSB, if kind.dstGlobal then OpKind.reg true else OpKind.src false, f.sb)]
      ++ (match kind with
        | .plain _ => []
        | _ => [(pSC, if kind.auxGlobal then OpKind.reg true else OpKind.src false, f.sc)])) = .ok ()) →
    (x.lane c k0).readBase s kind.srcGlobal pSA f.sa = .ok src → (x.lane c k0).readBase s kind.dstGlobal pSB f.sb = .ok dst →
    let gang := s.gang c gs
    let m := gang.team
    let chan := f.slot.toNat % 4
    let num := Tbl.at (s.team m).joined (4 * gang.num + chan) 0
    let prior := (Tbl.vals s.copies).find? (fun y => y.team == m && y.chan == chan && y.num == num)
    let differs := fun (o : Copy) => o.kind ≠ kind ∨ o.policy ≠ policy ∨ o.lySn ≠ a ∨ o.lyDn ≠ b ∨ o.all ≠ all ∨ o.aux ≠ aux
      ∨ gang.num ∉ o.gangs (s.grid (s.team m).grid)
    ∃ (w u t : State) (y : Copy), exec i s = .next t ∧ GoesOn u t c p x f.readsChannel (ks.map (fun k => (k, ({ th := s.thr c k } : LaneOut))))
      ∧ MemSide (if kind.dstGlobal && !kind.isColl then (s.latch (x.lane c k0) f).markVisible (s.team m).grid else s.latch (x.lane c k0) f) w
      ∧ u = { w with copies := u.copies, teams := u.teams, threads := u.threads, ids := u.ids, agenda := u.agenda }
      ∧ (∀ q, q ≠ m → u.team q = s.team q) ∧ Tbl.at (u.team m).joined (4 * gang.num + chan) 0 = num + 1
      ∧ Tbl.look u.copies y.id = some y ∧ (∀ n, n ≠ y.id → Tbl.look u.copies n = Tbl.look s.copies n)
      ∧ (prior = none → y.id = s.ids ∧ u.ids = s.ids + 1 ∧ y.team = m ∧ y.chan = chan ∧ y.num = num ∧ y.kind = kind ∧ y.policy = policy
        ∧ y.lyS = (s.team m).lyOf a.toNat ∧ y.lyD = (s.team m).lyOf b.toNat ∧ y.lySn = a ∧ y.lyDn = b ∧ y.all = all ∧ y.aux = aux
        ∧ y.user = !(s.thr c k0).priv ∧ y.st = .collecting
        ∧ Tbl.at (u.team m).started chan 0 = Tbl.at (s.team m).started chan 0 + 1)
      ∧ (∀ o, prior = some o → y.id = o.id ∧ u.ids = s.ids ∧ (u.team m).started = (s.team m).started
        ∧ (o.st.ended = true → y = o)
        ∧ (o.st.ended = false → o.st ≠ .collecting → y = { o with mismatch := o.mismatch || decide (differs o) })
        ∧ (o.st = .collecting → y = { o with mismatch := y.mismatch, slices := y.slices }
          ∧ y.mismatch = (o.mismatch || decide (differs o))))
      ∧ ((prior = none ∨ ∃ o, prior = some o ∧ o.st = .collecting) → gang.num ∈ y.gangs (s.grid (s.team m).grid) →
        Tbl.look y.slices (y.rankOf (s.grid (s.team m).grid) gang.num) = some ⟨src, dst, aux⟩)
      ∧ (y.told = false → ∀ k ∈ ks, Tbl.look (u.thr c k).copies y.id = some none
        ∧ ∀ n, n ≠ y.id → Tbl.look (u.thr c k).copies n = Tbl.look (s.thr c k).copies n)
      ∧ u.agenda = (if y.st = .collecting then s.agenda ++ (if u.allArrived y then [.event (.copyCheck y.id)] else [])
          else if y.st.ended = false ∧ ∃ o, prior = some o ∧ differs o then .event (.copyCheck y.id) :: s.agenda else s.agenda))
  ∧ (∀ (f : Fields) (s : State) (c p : Nat) (x : Pass) (ks : List Nat), Executes s c p x f.guard ks →
    let n := f.minor.toNat
    (∀ k ∈ ks, (s.thr c k).tokenCount n + (s.thr c k).openCount ≤ 63) →
    ∃ t, exec (.tseal f) s = .next t ∧ LanesRun (fun u l v =>
      let th := l.thr u
      v = u.setThr l.core l.slot { th with
        copies := th.copies.map (fun e => if e.2 = none then (e.1, some n) else e), openErr := none
        batchErr := (l.thr v).batchErr }
      ∧ Tbl.look (l.thr v).batchErr n = firstErr (Tbl.look th.batchErr n) th.openErr
      ∧ ∀ j, j ≠ n → Tbl.look (l.thr v).batchErr j = Tbl.look th.batchErr j) s c p x ks false t)

/-- Derived from R306, R307, R310 to R312, R317 to R324 and log entries 7, 22, 44, 82: the matrix instructions. `mma` and
`mzero` post one entry from the lowest executing lane, a paired one in both cores, once the team's stores have reached
the slices when an operand is global; `maccrd` and `maccwr` move accumulators once the entries posted before have
taken effect; `bobj` initialises a barrier object and `bstat` reads one. The model's choices are that `maccrd` binds
its words as it issues (log entry 7), the privilege of an `mma`, that of its posting lane (log entry 22), when its
descriptor words, offset and operands are read (log entry 44), and the FINFO of a `bobj` whose count is illegal (log
entry 82). -/
def Obligations.MatrixInstructionResults : Prop :=
  ∀ (f : Fields) (s : State) (c p : Nat) (x : Pass) (ks : List Nat), Executes s c p x f.guard ks → (∀ k ∈ ks, (s.thr c k).spec = false) →
    let posted := fun (i : Instr) (k0 : Nat) (op : FifoOp) (glob : Bool) => ∃ w u t : State, exec i s = .next t
      ∧ MemSide (s.latch (x.lane c k0) f) w ∧ (glob = false → w = s.latch (x.lane c k0) f)
      ∧ (glob = true → ∀ d ∈ s.l1Cores c (s.gangTeam c (k0 / 32)), ∀ n y, Tbl.look (w.core d).l1 n = some y → y.dirty = 0)
      ∧ GoesOn u t c p x f.readsChannel [(k0, ({ th := s.thr c k0 } : LaneOut))]
      ∧ (u.core c).fifo = (s.core c).fifo ++ [{ id := s.ids, team := (s.gang c (k0 / 32)).team, op := op, follower := false }]
      ∧ (u.core (c + 1)).fifo = (s.core (c + 1)).fifo ++ (if op.paired then
          [{ id := s.ids, team := (s.gang c (k0 / 32)).team, op := op, follower := true }] else [])
      ∧ (∀ d, u.core d = { w.core d with fifo := (u.core d).fifo, accUsed := (u.core d).accUsed })
      ∧ (∀ d, d ≠ c → d ≠ c + 1 → u.core d = w.core d) ∧ (s.gang c (k0 / 32)).team ∈ (u.core c).accUsed ∧ u.ids = s.ids + 1
      ∧ u = { w with cores := u.cores, ids := u.ids, agenda := u.agenda }
      ∧ ∀ d j, u.thr d j = { s.thr d j with clkh := (u.thr d j).clkh }
    (∀ k0, ks.head? = some k0 →
      (∀ (e : MmaExt) (op : FifoOp), s.fullFifo e.pair = none → mmaChecks f e s (x.lane c k0) = .ok op →
        posted (.mma f e) k0 op (e.aGlobal || e.bGlobal) ∧ ∃ a b off, op = .mma (64 * 2 ^ e.msel.toNat) (16 * (e.nenc.toNat + 1)) (e.ksm1.toNat + 1) e.cbase.toNat
          e.acc e.had e.pair (!(s.thr c k0).priv) a b off ∧ (x.lane c k0).readWord s pSC f.sc = .ok (BitVec.ofNat 32 off)
          ∧ off % 32 = 0 ∧ off + 32 ≤ ((x.lane c k0).grid s).scrsize ∧ a.glob = e.aGlobal ∧ b.glob = e.bGlobal
          ∧ a.base.toNat % 32 = 0 ∧ a.pitch % 32 = 0 ∧ b.base.toNat % 32 = 0 ∧ b.pitch % 32 = 0)
      ∧ (∀ a n : Word, s.fullFifo false = none → (x.lane c k0).check s [(pSA, OpKind.src false, f.sa), (pSB, OpKind.src false, f.sb)] = .ok () →
        (x.lane c k0).readWord s pSA f.sa = .ok a → (x.lane c k0).readWord s pSB f.sb = .ok n → n ≠ 0 → a.toNat + n.toNat ≤ Config.nAcc →
        posted (.mzero f) k0 (.mzero a.toNat n.toNat) false)
      ∧ (∀ off : Word, (x.lane c k0).check s [(pSA, OpKind.src false, f.sa)] = .ok () → (x.lane c k0).readWord s pSA f.sa = .ok off →
        let count := (f.imm.getD 0).toNat
        1 ≤ count → count ≤ 65535 → off.toNat % 32 = 0 → off.toNat + 32 ≤ ((x.lane c k0).grid s).scrsize →
        ∃ u t : State, exec (.bobj f) s = .next t ∧ GoesOn u t c p x f.readsChannel [(k0, ({ th := s.thr c k0 } : LaneOut))]
          ∧ u = { s with threads := u.threads, teams := u.teams }
          ∧ ∀ q a, (u.team q).spadByte a = if q = (s.gang c (k0 / 32)).team ∧ off.toNat ≤ a ∧ a < off.toNat + 32 ∧ ¬ (off.toNat + 12 ≤ a ∧ a < off.toNat + 16)
              then (if a = off.toNat + 10 then BitVec.ofNat 8 count else if a = off.toNat + 11 then BitVec.ofNat 8 (count / 256) else 0)
              else (s.team q).spadByte a)
      ∧ ((x.lane c k0).check s [(pSA, OpKind.src false, f.sa)] = .ok () → ((f.imm.getD 0).toNat = 0 ∨ 65535 < (f.imm.getD 0).toNat) →
        exec (.bobj f) s = .next (s.afterInstr c p x [(k0, .fault ⟨1, 2048, 0⟩)])))
    ∧ (∀ (flag : Nat) (a : Nat → Nat), setFlag x.hdr (f.md.getLsbD 0) = some flag → s.fullFlag f.guard (f.md.getLsbD 0) = none →
      let n := macCount f
      (∀ off : Nat → Word, (∀ k ∈ ks, (x.lane c k).check s [(pSA, OpKind.src false, f.sa), (pDST, OpKind.load true, f.dst)] = .ok ()
        ∧ (x.lane c k).readWord s pSA f.sa = .ok (off k) ∧ (off k).toNat % 32 = 0 ∧ (off k).toNat + 32 ≤ ((x.lane c k).grid s).scrsize) →
        ∃ t, exec (.bstat f) s = .next t ∧ LanesRun (fun u l v =>
          let at' := (off l.slot).toNat + (if f.minor = 1 then 24 else 0)
          let bytes := fun (from' : Nat) => leNat ((List.range 4).map (fun i => ((s.heldByte l .spad at' (from' + i)).map (·.1)).getD
            ((l.team s).spadByte (at' + from' + i))))
          v = (u.latch l f).issue l.core l.slot flag (groupWords f.dst [(BitVec.ofNat 32 (bytes 0), false), (BitVec.ofNat 32 (bytes 4), false)]) none)
          s c p x ks f.readsChannel t)
      ∧ ((s.core c).fifo = [] → (∀ k ∈ ks, ∃ w, (x.lane c k).readWord s pSA f.sa = .ok w ∧ (a k : Int) = (w.toNat : Int) + (f.imm.getD 0).toInt
          ∧ a k + n ≤ Config.nAcc ∧ a k % n = 0) →
        ((∀ k ∈ ks, (x.lane c k).check s [(pSA, OpKind.src false, f.sa), (pDST, OpKind.loadGroup n, f.dst)] = .ok ()) →
          ∃ t, exec (.maccrd f) s = .next t ∧ LanesRun (fun u l v => ∃ K : Core,
            K = { u.core c with acc := K.acc, accPoison := K.accPoison, accBad := K.accBad, accUsed := insertSorted (l.gang u).team (u.core c).accUsed }
            ∧ (∀ j, K.accAt j = (u.core c).accAt j)
            ∧ v = ((u.latch l f).setCore c K).issue l.core l.slot flag
              (groupWords f.dst ((List.range n).map (fun j => (u.core c).accAt (a l.slot + j)))) none) s c p x ks f.readsChannel t)
        ∧ (∀ w : Nat → Nat → Word, (∀ k ∈ ks, f.sb ≠ .none ∧ (x.lane c k).check s [(pSA, OpKind.src false, f.sa), (pSB, OpKind.loadGroup n, f.sb)] = .ok ()
            ∧ (x.lane c k).readGroup s pSB f.sb 0 n = .ok ((List.range n).map (w k))) →
          ∃ t, exec (.maccwr f) s = .next t ∧ LanesRun (fun u l v => ∃ K : Core,
            K = { u.core c with acc := K.acc, accPoison := K.accPoison, accBad := K.accBad, accUsed := insertSorted (l.gang u).team (u.core c).accUsed }
            ∧ (∀ j, K.accAt j = if a l.slot ≤ j ∧ j < a l.slot + n then (w l.slot (j - a l.slot), false) else (u.core c).accAt j)
            ∧ v = (u.latch l f).setCore c K) s c p x ks f.readsChannel t)))

/-- Derived from R129 to R131, R143, R221, R258, R260, R327, R342, R344, R348, R408 and log entries 7, 42, 107: system
registers. A read gives the register's value at once, or, for one marked long, when the operation completes; a write
changes what the register stands for; a register that needs supervisor privilege faults a user with code 0x04 and its
number. What the writes come to: the fields kept, the clamped ones, and the values that zero or an out-of-range value
takes. The model's choices are that a register marked long is read when the operation completes (log entry 7), that
PTROOT is stored as written, aligned or not (log entry 42), and that a TLBINV first has the thread's L1 portions write
back (log entry 107). -/
def Obligations.SystemRegisterReadsWritesAndClamps : Prop :=
  (
    ∀ (f : Fields) (s : State) (c p : Nat) (x : Pass) (ks : List Nat) (info : SysInfo), Executes s c p x f.guard ks →
      let n := f.sysNum
      let w := f.ty.isPair
      let reads := [(pDST, OpKind.dst w, f.dst)]
      sysInfo n = some info →
      (info.long = false → (∀ k ∈ ks, (x.lane c k).check s reads = .ok ()) →
        ((∀ k ∈ ks, info.supRead = true → (s.thr c k).priv = true) →
          let out := fun k => let l := x.lane c k
            if w then (l.start s f).putPair (l.regs s) f.dst (l.sysRead s n) else (l.start s f).put (l.regs s) f.dst (loWord (l.sysRead s n))
          Agree x.hdr ks out → ∃ t, exec (.sysr f) s = .next t ∧ LaneEffect s t c p x ks f.readsChannel out)
        ∧ (info.supRead = true → (∀ k ∈ ks, (s.thr c k).priv = false) →
          exec (.sysr f) s = .next (s.afterInstr c p x (ks.map (fun k => (k, .fault ⟨4, BitVec.ofNat 32 (n + 2048), 0⟩))))))
      ∧ (∀ flag, info.long = true → setFlag x.hdr (f.md.getLsbD 0) = some flag → s.fullFlag f.guard (f.md.getLsbD 0) = none →
        (∀ k ∈ ks, (x.lane c k).check s [(pDST, OpKind.load w, f.dst)] = .ok () ∧ (info.supRead = true → (s.thr c k).priv = true)) →
        ∃ t, exec (.sysr f) s = .next t ∧ LanesRun (fun u l v =>
          v = u.issue l.core l.slot flag (groupWords f.dst (List.replicate (if w then 2 else 1) (0, false))) (some n)) s c p x ks f.readsChannel t)
      ∧ (∀ a : Nat → Nat, ks.Nodup → (∀ k ∈ ks, (x.lane c k).check s [(pSA, OpKind.src w, f.sa)] = .ok () ∧ (s.thr c k).spec = false
          ∧ (x.lane c k).readInt s pSA f.sa f.ty = .ok (a k)) →
        (info.supWrite = true → (∀ k ∈ ks, (s.thr c k).priv = false) → ∀ i ∈ [Instr.sysw f, .tlbinv f, .loopWrite f, .msetWrite f, .pgbudgetWrite f],
          exec i s = .next (s.afterInstr c p x (ks.map (fun k => (k, .fault ⟨4, BitVec.ofNat 32 (n + 2048), 0⟩)))))
        ∧ ((∀ k ∈ ks, info.supWrite = true → (s.thr c k).priv = true) →
          (∃ t, exec (.sysw f) s = .next t ∧ LanesRun (fun u l v => v = l.sysWrite (u.latch l f) n (a l.slot)) s c p x ks f.readsChannel t)
          ∧ (∃ t, exec (.tlbinv f) s = .next t ∧ LanesRun (fun u l v =>
              let w := u.latch l f
              let kept := fun (e : TlbEntry) => !(e.ctx == l.ctxId s && (bitOf (a l.slot) 0
                || e.page * 2 ^ e.bits / 2 ^ e.bits1 % 2 ^ (57 - e.bits1) == bitsOf (a l.slot) 56 12 * 2 ^ 12 / 2 ^ e.bits1))
              ∃ y : State, MemSide w y ∧ y.l2 = w.l2
                ∧ (∀ d ∈ w.l1Cores c (l.team w), ∀ key z, Tbl.look (y.core d).l1 key = some z → z.dirty = 0)
                ∧ v = { y with cores := v.cores, ctlb := v.ctlb } ∧ (∀ d, v.core d = { y.core d with tlb := (w.core d).tlb.filter kept })
                ∧ ∀ n, v.clusterTlb n = (w.clusterTlb n).filter kept)
              s c p x ks f.readsChannel t)
          ∧ (∃ t, exec (.pgbudgetWrite f) s = .next t ∧ LanesRun (fun u l v => v = (u.latch l f).setDie (dieOf c) { u.die (dieOf c) with
              budget := max (a l.slot % 256) 1, ramp := min (max (a l.slot / 256 % 256) 1) 64 }) s c p x ks f.readsChannel t)
          ∧ (∀ k, ks = [k] → let l := x.lane c k
            let outs := [(k, ({ th := s.thr c k } : LaneOut))]
            (∀ u, (s.latch l f).writeLoop (l.ctxId s) (n - 0x050) (BitVec.ofNat 32 (a k)) = some u →
              ∃ t, exec (.loopWrite f) s = .next t ∧ GoesOn u t c p x f.readsChannel outs)
            ∧ ((s.latch l f).writeLoop (l.ctxId s) (n - 0x050) (BitVec.ofNat 32 (a k)) = none →
              exec (.loopWrite f) s = .next (s.afterInstr c p x [(k, .fault ⟨2, BitVec.ofNat 32 (f.sa.toSpec.toNat + 512), 0⟩)]))
            ∧ ∃ u t, exec (.msetWrite f) s = .next t ∧ GoesOn u t c p x f.readsChannel outs
              ∧ (∀ o ∈ (u.ctx (l.ctxId s)).openSeqs, o.reg ≠ (n - 0x060) / 2)
              ∧ (u.ctx (l.ctxId s)).moutOf ((n - 0x060) / 2) = 0xFFFFFFFFFFFFFFFF
              ∧ (u.ctx (l.ctxId s)).msetOf ((n - 0x060) / 2)
                = Mset.write ((s.ctx (l.ctxId s)).msetOf ((n - 0x060) / 2)) (decide (n % 2 = 1)) (a k))))) ∧
  (
    (∀ (s : State) (l : Lane) (v : Nat),
      let ctx := fun (n : Nat) => (l.sysWrite s n v).ctx (l.ctxId s)
      let thr := fun (n : Nat) => l.thr (l.sysWrite s n v)
      thr 0x000 = { l.thr s with fpst := BitVec.ofNat 5 v } ∧ thr 0x020 = { l.thr s with dst := BitVec.ofNat 5 v }
      ∧ (thr 0x021 = { l.thr s with linctr := (thr 0x021).linctr } ∧ (thr 0x021).linctr ≠ 0
          ∧ (v % 4096 ≠ 0 → (thr 0x021).linctr.toNat = v % 4096) ∧ (v % 4096 = 0 → (thr 0x021).linctr = 1))
      ∧ (l.team (l.sysWrite s 0x026 v)).bankconf = BitVec.ofNat 32 v ∧ (l.team (l.sysWrite s 0x028 v)).teamest = BitVec.ofNat 32 v
      ∧ (ctx 0x043).ptroot = BitVec.ofNat 64 v
      ∧ ((ctx 0x044).xlctl.toNat = if 1 ≤ v % 32 ∧ v % 32 ≤ 18 then v % 32 else 18)
      ∧ (ctx 0x046).lvwait = BitVec.ofNat 64 v ∧ (ctx 0x048).ctxerr = BitVec.ofNat 32 v &&& 0xFFFF0000
      ∧ (ctx 0x081).wdlimit = BitVec.ofNat 64 v ∧ (ctx 0x083).pdeadline.toNat = min (max (v % 65536) 50) 10000
      ∧ ((l.sysWrite s 0x102 v).die (dieOf l.core)).power = min (max (v % 65536) 100) 1400
      ∧ ((l.sysWrite s 0x103 v).die (dieOf l.core)).sparepr = BitVec.ofNat 32 v
      ∧ ∀ n, (l.sysWrite s n v).mem = s.mem ∧ (l.sysWrite s n v).cores = s.cores ∧ (l.sysWrite s n v).gangs = s.gangs)
    ∧ (∀ (m : BitVec 128) (v : Nat), v < 2 ^ 64 →
      let hi := Mset.write m true v
      let lo := Mset.write m false v
      Mset.k hi = v / 2 ^ 40 ∧ Mset.grace hi = max (v / 2 ^ 24 % 2 ^ 16) 1 ∧ Mset.dgn hi = v / 2 ^ 9 % 2 ^ 9 ∧ Mset.dgbase hi = v % 2 ^ 9
      ∧ hi.extractLsb' 0 64 = m.extractLsb' 0 64
      ∧ (Mset.gmask lo).toNat = v / 2 ^ 32 ∧ (Mset.seq lo).toNat = v / 2 ^ 16 % 2 ^ 16
      ∧ Mset.vop lo = (if v / 2 ^ 14 % 4 = 3 then 0 else v / 2 ^ 14 % 4) ∧ Mset.defv lo = bitOf v 13 ∧ Mset.dpol lo = bitOf v 12
      ∧ lo.getLsbD 11 = m.getLsbD 11 ∧ lo.extractLsb' 1 10 = 0 ∧ Mset.valid lo = bitOf v 0 ∧ lo.extractLsb' 64 64 = m.extractLsb' 64 64))

/-- Derived from R202, R217 to R219, R344, R422 and log entries 21 and 32: beats and launches. A beat of 1 to 255 counts
on the core, clears the watchdog and marks its grid; on a speculative path it is held. A launch reads a packet image,
releases the thread's stores, writes the packet into a device-writable queue of its own context and advances WRIDX,
and its destination takes the status. The order of the statuses 2, 3 and 1 (log entry 32) and that WRIDX advances
where the packet cannot be written (log entry 21) are the model's choices. -/
def Obligations.BeatAndLaunchResults : Prop :=
  (∀ (f : Fields) (s : State) (c p : Nat) (x : Pass) (ks : List Nat) (n : Nat → Word), Executes s c p x f.guard ks →
    (∀ k ∈ ks, (x.lane c k).check s [(pSA, OpKind.src false, f.sa)] = .ok () ∧ (x.lane c k).readWord s pSA f.sa = .ok (n k)) →
    ((∀ k ∈ ks, 1 ≤ (n k).toNat ∧ (n k).toNat ≤ 255) → ∃ t, exec (.beat f) s = .next t ∧ LanesRun (fun u l v =>
      let w := u.latch l f
      if (l.thr u).spec then v = w.setThr l.core l.slot { l.thr w with heldBeats := (l.thr u).heldBeats + (n l.slot).toNat }
      else v = { w with cores := v.cores, ctxs := v.ctxs, grids := v.grids }
        ∧ (v.core c).beatAcc = (u.core c).beatAcc + (n l.slot).toNat ∧ (v.core c).wd = 0
        ∧ (∀ d, v.core d = { u.core d with beatAcc := (v.core d).beatAcc, wd := (v.core d).wd })
        ∧ (∀ d, d ≠ c → (v.core d).beatAcc = (u.core d).beatAcc)
        ∧ (v.grid (l.team s).grid).visible = true) s c p x ks f.readsChannel t)
    ∧ ((∀ k ∈ ks, (n k).toNat = 0 ∨ 255 < (n k).toNat) → exec (.beat f) s
      = .next (s.afterInstr c p x (ks.map (fun k => (k, .fault ⟨2, BitVec.ofNat 32 (f.sa.toSpec.toNat + 512), 0⟩))))))
  ∧ (∀ (f : Fields) (s s1 : State) (c p k flag ea : Nat) (x : Pass) (n : Word) (lo hi : Mapping), Executes s c p x f.guard [k] →
    (s.thr c k).spec = false → s.fullFlag f.guard (f.md.getLsbD 0) = none → setFlag x.hdr (f.md.getLsbD 0) = some flag → f.minor = 0 →
    let l := x.lane c k
    let l1 := s.l1Core c (l.team s) lo.pa
    l.check s [(pSA, OpKind.reg true, f.sa), (pSB, OpKind.src false, f.sb), (pDST, OpKind.load false, f.dst)] = .ok () →
    (l.readPair s pSA f.sa).map (·.toNat) = .ok ea → l.readWord s pSB f.sb = .ok n →
    distReach f (s.latch l f) l ea { load := true } = .ok (s1, .glob lo, .glob hi) →
    hi.pa = lo.pa + 32 → hi.key = lo.key → lo.pa % 64 = 0 → Plain s l1 lo.key lo.pa false → Plain s1 l1 lo.key lo.pa false → Roomy s1 l1 →
    (∀ e ∈ (s.core c).ssh, e.gslot ≠ k / 32) → (∀ i < 64, (s.seen l1 lo.key (lo.pa + i) false).2 = false) →
    let img := (List.range 64).map (fun i => (s.seen l1 lo.key (lo.pa + i) false).1)
    ∃ w t : State, MemSide (s.latch l f) w ∧ SameBytes s w ∧ exec (.launch f) s = .next t
      ∧ (let r := ((w.releaseAt c (l.team s) 4).markVisible (l.team s).grid).launchInto (l.ctxId s) n.toNat (s.thr c k).priv img
        GoesOn (r.2.issue c k flag (groupWords f.dst [(BitVec.ofNat 32 r.1, false)]) none) t c p x f.readsChannel
          [(k, ({ th := s.thr c k } : LaneOut))]))
  ∧ (∀ (s : State) (ctx n : Nat) (priv : Bool) (img : List Byte),
    let q := Tbl.at s.queues n {}
    let ptype := (img.headD 0).toNat % 16
    let r := s.launchInto ctx n priv img
    let usable := n ≤ 4095 ∧ q.en = true ∧ q.devq = true ∧ 4 ≤ q.log2n ∧ q.log2n ≤ 16 ∧ queueCtx q = ctx
    let kind := 1 ≤ ptype ∧ ptype ≤ (if priv then 5 else 4)
    (¬ usable → r = (2, s)) ∧ (usable → ¬ kind → r = (3, s))
    ∧ (usable → kind → q.count = 2 ^ q.log2n → r = (1, s))
    ∧ (usable → kind → q.count ≠ 2 ^ q.log2n → r.1 = 0 ∧ Tbl.at r.2.queues n {} = { q with wridx := q.wridx + 1 }
      ∧ (∀ j, j ≠ n → Tbl.look r.2.queues j = Tbl.look s.queues j)
      ∧ ∀ t, s.unitWrite ctx { store := true, user := false } (q.slotAddr q.wridx) img = .ok t → r.2 = { t with queues := r.2.queues }))

/-! ## Events of a core -/

/-- Derived from R17 to R21, R114, R129, R165 to R168, R173, R178, R194, R243, R259, R343 and log entries 7, 8, 19, 43,
80, 105 and 118: the events of a core. A word of a long-latency result is written and with the last the flag falls; a
system register marked long gives the value that it has then; a `park` count ends when its cycles have passed; a core
idle for 4,096 cycles spills the entry of the highest key to the bin; after 4 µs a pass's temporaries are refreshed;
refreshes change no result; an exited thread's slot is freed, and with its last lane the gang's, whose reservations
and closings in passes still running are settled; a finished walk is cached; a bad line that partitions share is
fetched again from HBM unless memory is bad too. The model's choices are when a long system register is read (log
entry 7), that the gang's reservations are settled as its slot is freed (log entry 118), that an event of a time moves
the clock to it and that a refresh takes no time (log entry 8), which rows are a pass's temporaries (log entry 105),
which lines partitions share (log entry 19), that a finished walk is cached in both levels (log entry 43), and what a
lost line leaves in memory (log entry 80). -/
def Obligations.CoreEventResults : Prop :=
  (∀ (s : State) (c slot id i : Nat) (o : Pending) (w : Nat × Word × Bool), (s.core c).pending.find? (fun y => y.id == id) = some o →
    let words := match o.late with
      | none => o.words
      | some n => let value := (⟨c, o.slot, 0, 0, 0, 0⟩ : Lane).sysRead s n
        ((List.range o.words.length).zip o.words).map (fun (y : Nat × Nat × Word × Bool) => (y.2.1, value.extractLsb' (if y.1 = 0 then 0 else 32) 32, false))
    words[i]? = some w → (s.gang c (o.slot / 32)).spec = none →
    let regs := regsOf (s.gangGrid c (o.slot / 32)) (s.gang c (o.slot / 32)).num
    let u := (s.thr c o.slot).putV regs w.1 w.2.1 w.2.2
    let rest := words.eraseIdx i
    ∃ t, exec (.longLatencyComplete c slot id i) s = .next t
      ∧ t.thr c o.slot = (if rest = [] then u.setFlag o.flag (u.flag o.flag - 1) else u)
      ∧ t.core c = { s.core c with pending := if rest = [] then (s.core c).pending.filter (fun y => y.id != id)
          else (s.core c).pending.map (fun y => if y.id == id then { o with late := none, words := rest } else y) }
      ∧ (∀ n, n ≠ threadKey c o.slot → Tbl.look t.threads n = Tbl.look s.threads n)
      ∧ (∀ d, d ≠ c → Tbl.look t.cores d = Tbl.look s.cores d) ∧ t = { s with threads := t.threads, cores := t.cores })
  ∧ (∀ (s : State) (c k : Nat) (r : ContRec), (s.core c).bin.find? (fun y => y.slot == k) = some r → 0 < r.park → (s.core c).step ≤ 15 →
    ∃ t, exec (.parkDue c k) s = .next t ∧ TimePasses s t ∧ t.time = s.time + (s.core c).psOf r.park
      ∧ ((∀ y ∈ (s.core c).bin, y.slot = k → y = r) → ∀ y ∈ (t.core c).bin, y.slot = k → y.park = 0))
  ∧ (∀ (s : State) (c : Nat) (e : WvtEntry), s.coreBusy c = false → (∃ r ∈ (s.core c).bin, r.park = 0) → 4096 ≤ (s.core c).idle →
    e ∈ (s.core c).wvt → (∀ y ∈ (s.core c).wvt, y ≠ e → y.pos.toNat < e.pos.toNat) →
    ∃ u t, exec (.spill c) s = .next t ∧ TimePasses u t
      ∧ (u.core c).wvt = (s.core c).wvt.filter (fun y => y.pos != e.pos)
      ∧ (u.core c).bin = (s.core c).bin ++ ((List.range e.slots.length).zip e.slots).map (fun p =>
          ⟨(s.thr c p.2).pos, (s.thr c p.2).park, (s.core c).binSeq + p.1, p.2⟩)
      ∧ u = { s with cores := u.cores, threads := u.threads } ∧ ∀ d k, u.thr d k = { s.thr d k with place := (u.thr d k).place })
  ∧ (∀ (s : State) (c : Nat), s.coreBusy c = false → (∃ r ∈ (s.core c).bin, r.park = 0) → (s.core c).idle < 4096 →
    ∃ t, exec (.spill c) s = .next t ∧ TimePasses s t ∧ t.time = s.time + (s.core c).psOf (4096 - (s.core c).idle))
  ∧ (∀ (s : State) (c p : Nat) (x : Pass), Tbl.look (s.core c).pipes p = some x → s.time < x.since + 4000000 →
    exec (.tempRefreshSwitch c p) s = .next s)
  ∧ (∀ (s : State) (c p : Nat) (x : Pass), Tbl.look (s.core c).pipes p = some x → x.since + 4000000 ≤ s.time →
    ∃ t, exec (.tempRefreshSwitch c p) s = .next t ∧ Tbl.look (t.core c).pipes p = some { x with refreshed := true }
      ∧ t.core c = { s.core c with pipes := (t.core c).pipes } ∧ t = { s with cores := t.cores })
  ∧ (∀ (s : State) (c row : Nat),
    (s.refreshes c row = false → exec (.rowRefresh c row) s = .next s)
    ∧ (s.refreshes c row = true → ∃ t, exec (.rowRefresh c row) s = .next t ∧ t.core c = { s.core c with refreshAt := s.time }
      ∧ (∀ d, d ≠ c → Tbl.look t.cores d = Tbl.look s.cores d) ∧ t = { s with cores := t.cores })
    ∧ (65536 ≤ row → (s.refreshes c row = true ↔ ∃ x ∈ Tbl.vals (s.core c).pipes, x.refreshed = true ∧ row - 65536 ∈ x.slots)))
  ∧ (∀ (s : State) (c k : Nat) (th : Thread), Tbl.look s.threads (threadKey c k) = some th →
    let gs := k / 32
    let g := s.gang c gs
    let others := ∃ j < 32, 32 * gs + j ≠ k ∧ (Tbl.look s.threads (threadKey c (32 * gs + j))).isSome = true
    (th.exited = false ∨ (∃ e ∈ th.flags, e.2 ≠ 0) → exec (.threadFree c k) s = .next s)
    ∧ (th.exited = true → (∀ e ∈ th.flags, e.2 = 0) → ∃ t, exec (.threadFree c k) s = .next t
      ∧ Tbl.look t.threads (threadKey c k) = none ∧ (∀ n, n ≠ threadKey c k → Tbl.look t.threads n = Tbl.look s.threads n)
      ∧ (others → t = { s with threads := t.threads })
      ∧ (¬ others → Tbl.look t.gangs (gangKey c gs) = none ∧ (∀ n, n ≠ gangKey c gs → Tbl.look t.gangs n = Tbl.look s.gangs n)
        ∧ t = { s with threads := t.threads, gangs := t.gangs, teams := t.teams, cores := t.cores }
        ∧ (∀ d, t.core d = { s.core d with pipes := (t.core d).pipes }) ∧ (∀ d, d ≠ c → (t.core d).pipes = (s.core d).pipes)
        ∧ ((Tbl.keys (s.core c).pipes).Nodup → ∀ p, Tbl.look (t.core c).pipes p = (Tbl.look (s.core c).pipes p).map (fun y =>
            { y with resv := y.resv.filter (·.1 != gs), closing := y.closing.filter (·.1 != gs) }))
        ∧ (∀ n, ∀ i < 32, ((t.team g.team).chan n).pmask.getLsbD i = (((s.team g.team).chan n).pmask.getLsbD i && decide (i ≠ g.num)))
        ∧ ((∀ y ∈ Tbl.vals (s.core c).pipes, ∀ r ∈ y.resv, r.1 ≠ gs) → ∀ n, ((t.team g.team).chan n).fifo = ((s.team g.team).chan n).fifo)
        ∧ (∀ y ∈ Tbl.vals (s.core c).pipes, ∀ r : Resv, (gs, r) ∈ y.resv →
          let after := fun n => ((t.team g.team).chan n).fifo
          (∀ q, r.rd = some q → r.rdDone = false → ∀ e ∈ after (Hdr.rch y.hdr).toNat, e.id ≠ q)
          ∧ (∀ q, r.wr = some q → r.wrDone = false → ∀ e ∈ after (Hdr.wch y.hdr).toNat, e.id = q → e.st = .filled ∧ ∀ i, Tbl.at e.data i 0 = 0)))))
  ∧ (∀ (s : State) (c x va : Nat) (m : Mapping), (s.core c).ctx = some x → s.cached c x va = none → s.walk x { user := false } va = .ok m →
    ∃ w t, exec (.translationComplete c va) s = .next t ∧ MemSide s w ∧ (s.anyBad = false → w = s)
      ∧ t.cached c x va = some ⟨x, va / 2 ^ m.bits, m.bits, m.bits1, m.pa - va % 2 ^ m.bits, m.key, m.perm1, m.perm2⟩
      ∧ t.core c = { w.core c with tlb := (t.core c).tlb } ∧ (∀ e ∈ (t.core c).tlb.tail, e ∈ (s.core c).tlb)
      ∧ (∀ d, d ≠ c → Tbl.look t.cores d = Tbl.look w.cores d) ∧ t = { w with cores := t.cores, ctlb := t.ctlb }
      ∧ tlbFind (t.clusterTlb (clusterOf c)) x va = (t.cached c x va) ∧ ∀ n, n ≠ clusterOf c → t.clusterTlb n = s.clusterTlb n)
  ∧ (∀ (s : State) (line : Nat) (x : L2Line), Tbl.look s.l2 line = some x →
    (x.bad = false ∨ s.sharedAt 0 x.key (64 * line) = false → exec (.l2Refetch line) s = .next s)
    ∧ (x.bad = true → s.sharedAt 0 x.key (64 * line) = true → ∃ t, exec (.l2Refetch line) s = .next t ∧ MemSide s t
      ∧ (s.physBad (64 * line) 64 = false → Tbl.look t.l2 line = some { x with bad := false }
        ∧ (∀ n, n ≠ line → Tbl.look t.l2 n = Tbl.look s.l2 n) ∧ t = { s with l2 := t.l2, mem := t.mem, lineKey := t.lineKey }
        ∧ (Memory.wf s.mem = true → (∀ i < 64, Memory.get t.mem (64 * line + i) = lineByte x.back i)
          ∧ ∀ key pa, pa / 64 ≠ line → t.physByte key pa = s.physByte key pa))
      ∧ (s.physBad (64 * line) 64 = true → Tbl.look t.l2 line = none ∧ (x.owner = none →
        (∀ n, n ≠ line → Tbl.look t.l2 n = Tbl.look s.l2 n) ∧ (∀ key pa, pa / 64 ≠ line → t.physByte key pa = s.physByte key pa)))))

/-- Derived from R14, R115, R169, R170 to R173, R178 to R180, R199, R344, R351, R418, R440 and log entries 11, 94 and 97:
forming a pass. Only the lowest free pipe of a core forms one. The block selector chooses, among the entries with an
eligible thread, one of the smallest key; the chosen entry's gangs enter, each thread with its temporaries invalid at
a clause start, its wait set empty, and its gang's reservations made; the threads of a cut pass enter together with
what it kept and make none; a thread whose header faults leaves with that fault and leaves what was kept to the
others, and with the last of them that is settled. The model's choices are that a thread with a `park` count left is
not eligible (log entry 11), that an invalid temporary holds 0 (log entry 94), and that a resumption inside a clause
neither waits on the wait set nor empties it (log entry 97). -/
def Obligations.PassFormingResults : Prop :=
  (∀ (s : State) (c p : Nat), (s.freePipe c ≠ some p → exec (.passForm c p) s = .next s) ∧ (s.freePipe c = some p →
    let s1 := ({ s with lastCore := c } : State).sweepOrphans c
    (s1.choose c = none → exec (.passForm c p) s = .next s1)
    ∧ (∀ e slots, s1.choose c = some (e, slots) →
      let s2 := s1.modCore c (fun k => { k with wvt := k.wvt.map (fun x => if x.pos == e.pos then { x with age := 0 } else x), idle := 0 })
      ∀ u f ks rs, s2.takeIn c p e.pos (gangsOf slots) none = (u, some (f, ks, rs)) → ∃ t y v, exec (.passForm c p) s = .next t
        ∧ v = ({ u with ids := u.ids + 1 } : State).setPass c p y ∧ TimePasses v t
        ∧ y.clause = posClause e.pos ∧ y.hdr = f.hdr ∧ y.body = f.body ∧ y.slots = ks ∧ y.resv = rs ∧ y.id = u.ids
        ∧ y.idx = (if posIdx e.pos = 31 then 0 else posIdx e.pos) ∧ y.start = y.idx ∧ y.since = u.time ∧ y.stalled = false)))
  ∧ (∀ (s : State) (c : Nat) (e : WvtEntry) (slots : List Nat), s.choose c = some (e, slots) →
    e ∈ (s.core c).wvt ∧ slots = s.eligible c e ∧ slots ≠ []
    ∧ ∃ column, (∀ y ∈ (s.core c).wvt, s.eligible c y ≠ [] →
          keyLt (selectKey column y (s.eligible c y).length) (selectKey column e slots.length) = false)
      ∧ ((∃ y ∈ (s.core c).wvt, s.eligible c y ≠ [] ∧ y.urgent = true) → column = 3)
      ∧ ((∀ y ∈ (s.core c).wvt, s.eligible c y ≠ [] → y.urgent = false ∧ y.policy = e.policy) → column = e.policy)
      ∧ ((∀ y ∈ (s.core c).wvt, s.eligible c y ≠ [] → y.urgent = false) →
          (∃ y ∈ (s.core c).wvt, s.eligible c y ≠ [] ∧ y.policy ≠ e.policy) → column = 0))
  ∧ (∀ (s u v : State) (c p k : Nat) (pos : DWord) (e : WvtEntry), (s.core c).wvt.find? (fun y => y.pos == pos) = some e →
    (s.eligible c e).filter (fun j => j / 32 == k / 32) = [k] →
    (∀ f r, s.entryOf c k = (u, .enter f) → u.reserve c k pos f = some (v, r) →
      let t := s.takeIn c p pos [k / 32] none
      t.2 = some (f, [k], [(k / 32, r)])
      ∧ t.1.thr c k = { v.thr c k with
          tvalid := if posIdx (v.thr c k).pos = 31 then 0 else (v.thr c k).tvalid
          t := if posIdx (v.thr c k).pos = 31 then [] else (v.thr c k).t
          barWait := if posIdx (v.thr c k).pos = 31 then [] else (v.thr c k).barWait, place := .pass p
          ncl := if (v.thr c k).spec then (v.thr c k).ncl + 1 else (v.thr c k).ncl }
      ∧ (∀ y ∈ (t.1.core c).wvt, k ∉ y.slots))
    ∧ (∀ i th, s.entryOf c k = (u, .fault i th) →
      s.takeIn c p pos [k / 32] none
        = (((((u.quitKept c k).unplace c k).modThr c k (fun x => { th with place := x.place })).takeFault c k (entryPos (posClause pos)) 0 i), none)))
  ∧ (∀ (s : State) (c k : Nat) (pos : DWord) (r : DWord × Resv), (s.gang c (k / 32)).keptFor pos k = some r →
    (∀ f, ∃ v, s.reserve c k pos f = some (v, r.2) ∧ v = { s with gangs := v.gangs }
      ∧ v.gang c (k / 32) = { s.gang c (k / 32) with kept := (s.gang c (k / 32)).kept.filter (fun e => e != r) })
    ∧ (∀ e : WvtEntry, e.pos = pos → k ∈ s.eligible c e → ∀ j ∈ r.2.lanes, 32 * (k / 32) + j ∈ s.readySlots c e)
    ∧ (pos = (s.thr c k).pos → let rest := r.2.lanes.filter (fun j => j != k % 32)
      (rest ≠ [] → (s.quitKept c k) = s.setGang c (k / 32) { s.gang c (k / 32) with
          kept := (s.gang c (k / 32)).kept.map (fun e => if e == r then (r.1, { r.2 with lanes := rest }) else e) })
      ∧ (rest = [] → ∀ g, g = s.gang c (k / 32) →
        let t := s.quitKept c k
        let after := fun n => ((t.team g.team).chan n).fifo
        t = { s with gangs := t.gangs, teams := t.teams } ∧ t.gang c (k / 32) = { g with kept := g.kept.filter (fun e => e != r) }
        ∧ (∀ q, q ≠ g.team → t.team q = s.team q)
        ∧ (∀ q, r.2.rd = some q → r.2.rdDone = false → ∀ e ∈ after (Hdr.rch r.2.hdr).toNat, e.id ≠ q)
        ∧ (∀ q, r.2.wr = some q → r.2.wrDone = false → ∀ e ∈ after (Hdr.wch r.2.hdr).toNat, e.id = q →
            e.st = .filled ∧ ∀ i, Tbl.at e.data i 0 = 0)
        ∧ (∀ n, ∀ e ∈ ((s.team g.team).chan n).fifo, r.2.rd ≠ some e.id → r.2.wr ≠ some e.id → e ∈ after n)
        ∧ ∀ n ∈ r.2.closing, g.num < 32 → ((t.team g.team).chan n).pmask.getLsbD g.num = false)))
  ∧ (∀ (s : State) (c k : Nat) (h : DWord), s.threadReady c k h = true →
    let th := s.thr c k
    (∀ n < 12, Hdr.fwait h n = true → th.flag n = 0) ∧ (∀ n < 8, Hdr.twait h n = true → th.tokenCount n = 0) ∧ th.park = 0
    ∧ (posIdx th.pos = 31 → ∀ e ∈ th.barWait, (Tbl.at (s.gangTeam c (k / 32)).bars e.1 {}).gen ≠ e.2)
    ∧ (s.core c).halted = false ∧ (s.core c).ncAt = none ∧ (th.spec = true → th.ncl < 64))

/-! ## Events of the front end -/

/-- Derived from R202 to R207, R226, R248, R359, R438 and log entries 46, 48, 101 and 102: packets that wait for signals,
write one, or configure the loop, whose levels follow the ladder at once when the packet enables it or resets it,
unless the context is sealed, and which then waits for its beat group no more. The head packet of the queue served
next begins: RDIDX advances, and its effect happens; a packet or queue in error stops its queue with the status and
raises its interrupt. A line with an error that the front end reads is not kept. The model's choices are the order of
the statuses of a packet wrong in two ways, 1 before 2 and 1, 9, 10 for the loop (log entry 102; for a launch log
entry 46), that an error of the header is found whatever BAR is (log entry 101), and that the front end reads and
writes with supervisor rights (log entry 48). -/
def Obligations.PacketResults : Prop :=
  ∀ (s : State) (q slot : Nat), s.nextQueue = some (slot, q) →
    let cx := queueCtx (s.queue q)
    let u := s.serve slot q
    let packets := [Instr.launchPacket q, .waitSignal q, .writeSignal q, .barrierAnd q, .loopConfig q]
    let stops := fun (t : State) (code : Nat) =>
      t.queue q = { u.queue q with qstat := BitVec.ofNat 32 code } ∧ (∀ j, j ≠ q → Tbl.look t.queues j = Tbl.look u.queues j)
      ∧ t.causes = (match u.vcpOfQueue q with | none => s.causes | some v => s.causes ++ [⟨v, 0, (u.vcp v).vfgen⟩])
      ∧ t = { u with queues := t.queues, causes := t.causes, agenda := t.agenda }
    let begins := fun (w t : State) =>
      t.queue q = { w.queue q with rdidx := (w.queue q).rdidx + 1 } ∧ (∀ j, j ≠ q → Tbl.look t.queues j = Tbl.look w.queues j)
      ∧ t.lastSlot = slot
    let reads := fun (as : List DWord) => u.signalsMet cx (as.filter (fun a => a != 0))
    MemSide { s with lastSlot := slot } u ∧ (s.anyBad = false → u = { s with lastSlot := slot }) ∧ (∀ as, MemSide u (reads as))
    ∧ (∀ code, s.headPacket q = .error code → ∀ i ∈ packets, ∃ t, exec i s = .next t ∧ stops t code)
    ∧ (∀ bs, s.headPacket q = .ok bs →
      let a := field64 bs 8
      let cond := field bs 24 1
      let clean := zeros (bs.drop 25) = true
      (packetType bs = 2 → (3 < cond ∨ ¬ clean → ∃ t, exec (.waitSignal q) s = .next t ∧ stops t 1)
        ∧ (cond ≤ 3 → clean → u.signalOk cx false a = false → ∃ t, exec (.waitSignal q) s = .next t ∧ stops t 2)
        ∧ (cond ≤ 3 → clean → u.signalOk cx false a = true → ∃ t, exec (.waitSignal q) s = .next t ∧ begins (reads [a]) t
          ∧ t = { reads [a] with queues := t.queues, begun := t.begun, agenda := t.agenda }
          ∧ t.begun = (if a = 0 ∨ (∃ v, u.readSignal cx a = some v ∧ signalCond cond v (field64 bs 16).toInt = true) then s.begun
              else s.begun ++ [⟨q, (s.queue q).rdidx, 2, 0, [a], field64 bs 16, cond⟩])))
      ∧ (packetType bs = 3 → (2 < cond ∨ ¬ clean → ∃ t, exec (.writeSignal q) s = .next t ∧ stops t 1)
        ∧ (cond ≤ 2 → clean → u.signalOk cx true a = false → ∃ t, exec (.writeSignal q) s = .next t ∧ stops t 2)
        ∧ (cond ≤ 2 → clean → u.signalOk cx true a = true → a = 0 → ∃ t, exec (.writeSignal q) s = .next t ∧ begins u t
          ∧ t = { u with queues := t.queues, agenda := t.agenda })
        ∧ (∀ old w, cond ≤ 2 → clean → u.signalOk cx true a = true → a ≠ 0 → u.readSignal cx a = some old →
          let x := (field64 bs 16).toInt
          let new := if cond = 0 then x else if cond = 1 then old + x else old - x
          u.unitWrite cx (feNeed true) a.toNat (leBytes 8 (wrap new 64)) = .ok w →
          ∃ t, exec (.writeSignal q) s = .next t ∧ begins w t ∧ t = { w with queues := t.queues, agenda := t.agenda }))
      ∧ (packetType bs = 4 → ∀ as, as = (List.range 5).map (fun i => field64 bs (8 + 8 * i)) →
        (zeros (bs.drop 48) = false → ∃ t, exec (.barrierAnd q) s = .next t ∧ stops t 1)
        ∧ (zeros (bs.drop 48) = true → (∃ b ∈ as, u.signalOk cx false b = false) → ∃ t, exec (.barrierAnd q) s = .next t ∧ stops t 2)
        ∧ (zeros (bs.drop 48) = true → (∀ b ∈ as, u.signalOk cx false b = true) → ∃ t, exec (.barrierAnd q) s = .next t ∧ begins (reads as) t
          ∧ t = { reads as with queues := t.queues, begun := t.begun, agenda := t.agenda }
          ∧ (let left := as.filter (fun b => b != 0 && u.readSignal cx b != some 0)
            t.begun = if left = [] then s.begun else s.begun ++ [⟨q, (s.queue q).rdidx, 4, 0, left, 0, 0⟩])))
      ∧ (packetType bs = 5 →
        let le := fun (i n : Nat) => leNat ((bs.drop i).take n)
        let ctrl : Word := BitVec.ofNat 32 (le 32 4)
        let x := s.ctx cx
        let l := { x.loop with
          limits := BitVec.ofNat 64 (le 8 8), target := BitVec.ofNat 32 (le 16 4), kp := BitVec.ofNat 16 (le 20 2)
          ki := BitVec.ofNat 16 (le 22 2), imin := BitVec.ofNat 32 (le 24 4), imax := BitVec.ofNat 32 (le 28 4)
          ctrl := (x.loop.ctrl &&& ~~~ctrlMask) ||| (ctrl &&& ctrlMask) }
        let sound := le 38 1 ≤ 1 ∧ (∀ b ∈ bs.drop 39, b = 0) ∧ bitsOf ctrl.toNat 22 12 = 0
        (¬ sound → ∃ t, exec (.loopConfig q) s = .next t ∧ stops t 1)
        ∧ (sound → l.ranges (Tbl.at s.parts x.part {}).ncores = false → ∃ t, exec (.loopConfig q) s = .next t ∧ stops t 9)
        ∧ (sound → l.ranges (Tbl.at s.parts x.part {}).ncores = true → u.floorsFit cx l = false →
          ∃ t, exec (.loopConfig q) s = .next t ∧ stops t 10)
        ∧ (sound → l.ranges (Tbl.at s.parts x.part {}).ncores = true → u.floorsFit cx l = true →
          let on := l.en && !x.loop.en
          let calm := s.loopPass = none
          let stepped := { l.settle with
            ival := BitVec.ofInt 32 (min (max 0 l.imin.toInt) l.imax.toInt), meas := 0, elast := 0, uval := 0
            demand := BitVec.ofNat 16 (min (le 36 2) l.top) }
          let held := fun (a : Loop) (sets : Bool) => { a with
            levels := if sets && !s.isSealed cx then (a.ladder a.demand.toNat).word else x.loop.levels }
          ∃ t, exec (.loopConfig q) s = .next t ∧ begins u t ∧ (t.ctx cx).merged = none
            ∧ t = { u with
              queues := t.queues, ctxs := t.ctxs, agenda := t.agenda, cores := t.cores, loopPass := t.loopPass
              pendingSteps := t.pendingSteps, waysDue := t.waysDue }
            ∧ (calm → t = { u with queues := t.queues, ctxs := t.ctxs, agenda := t.agenda }
              ∧ (∀ d, d ≠ cx → Tbl.look t.ctxs d = Tbl.look s.ctxs d) ∧ (t.ctx cx).inForce = (t.ctx cx).loop
              ∧ (le 38 1 = 0 → (t.ctx cx).loop = held l.settle on) ∧ (le 38 1 = 1 → (t.ctx cx).loop = held stepped true))
            ∧ (le 38 1 = 0 → (t.ctx cx).loop = { held l.settle on with ctrl := (t.ctx cx).loop.ctrl })
            ∧ (le 38 1 = 1 → (t.ctx cx).loop = { held stepped true with ctrl := (t.ctx cx).loop.ctrl }))))

/-- Derived from R203, R207 to R216, R248, R305, R306, R330, R344, R370 and log entries 21, 24, 46, 48, 50, 62 and 77: a
launch, the placing and the end of a team, the end of a grid, and what lets a queue go on. A line with an error that
the front end reads is not kept. The model's choices are the order of a launch's checks (log entry 46), the front
end's supervisor rights (log entry 48), that a team's LCORE is its placement number folded into the partition with the
number itself kept (log entry 24), that a team waits for the lower ones of its launch (log entry 50), that a grid
whose signal cannot be written completes all the same (log entry 21), that the registers and the scratchpad of a new
team read as zero (log entry 77), and that what lets a queue go on performs its record in the same step where none has
been performed before (log entry 62). -/
def Obligations.LaunchAndTeamEventResults : Prop :=
  (∀ (s : State) (q slot : Nat) (bs : List Byte), s.nextQueue = some (slot, q) → s.headPacket q = .ok bs → packetType bs = 1 →
    let cx := queueCtx (s.queue q)
    let u := s.serve slot q
    let v := u.launchMet q cx bs
    MemSide u v ∧ (s.anyBad = false → v = { s with lastSlot := slot })
    ∧ (∀ code, u.acceptLaunch q cx bs = .error code → ∃ t, exec (.launchPacket q) s = .next t
      ∧ t.queue q = { v.queue q with qstat := BitVec.ofNat 32 code } ∧ t = { v with queues := t.queues, causes := t.causes, agenda := t.agenda })
    ∧ (∀ g, u.acceptLaunch q cx bs = .ok g → (∃ t, exec (.launchPacket q) s = .next t
        ∧ t.queue q = { v.queue q with rdidx := (v.queue q).rdidx + 1 } ∧ (∀ j, j ≠ q → Tbl.look t.queues j = Tbl.look v.queues j)
        ∧ Tbl.look t.grids s.ids = some g ∧ (∀ j, j ≠ s.ids → Tbl.look t.grids j = Tbl.look s.grids j)
        ∧ t = { v with
          ids := s.ids + 1, grids := t.grids, queues := t.queues, agenda := t.agenda
          begun := s.begun ++ [⟨q, (s.queue q).rdidx, 1, s.ids, [], 0, 0⟩] })
      ∧ g.ctx = cx ∧ g.queue = q ∧ g.prio = (s.queue q).prio ∧ g.live = [] ∧ g.unplaced = List.range (g.gx * g.gy * g.gz)
      ∧ g.place.length = g.gx * g.gy * g.gz ∧ 1 ≤ g.gx ∧ 1 ≤ g.gy ∧ 1 ≤ g.gz ∧ g.gx * g.gy * g.gz < 2 ^ 32
      ∧ 1 ≤ g.pgangs + g.cgangs ∧ g.pgangs + g.cgangs ≤ 32 ∧ 1 ≤ g.tx * g.ty * g.tz ∧ g.tx * g.ty * g.tz ≤ 32 * (g.pgangs + g.cgangs)
      ∧ (g.code + g.entry.setWidth 64).toNat % 32 = 0 ∧ g.dregs ≤ 16 ∧ g.chans ≤ 16 ∧ g.policy ≠ 3 ∧ g.scrsize % 256 = 0
      ∧ (g.pgangs ≠ 0 → 1 ≤ g.pregs ∧ g.pregs ≤ 256) ∧ (g.cgangs ≠ 0 → 1 ≤ g.cregs ∧ g.cregs ≤ 256)
      ∧ ∀ e ∈ g.place, (u.physCore (s.ctx cx).part e).isSome = true ∧ u.budgetOk g e = true))
  ∧ (∀ (s : State) (q : Nat), (s.ctx (queueCtx (s.queue q))).served = true → (∃ b ∈ s.begun, b.queue = q ∧ b.waits = true) →
    let v := s.signalsMet (queueCtx (s.queue q)) ((s.begun.filter (fun b => b.queue == q && b.waits)).flatMap (fun b => b.left))
    ∃ t, exec (.signalRecheck q) s = .next t ∧ t = { v with begun := t.begun, agenda := t.agenda } ∧ MemSide s v ∧ (s.anyBad = false → v = s)
      ∧ t.begun = (s.begun.map (fun b => if b.queue == q && b.waits then s.recheck (queueCtx (s.queue q)) b else b)).filter
          (fun b => !(b.waits && b.left.isEmpty)))
  ∧ (∀ (s : State) (q : Nat), ∃ t, exec (.queueResume q) s = .next t
      ∧ t.queue q = { s.queue q with qctl := (s.queue q).qctl &&& 0x3FFFFF, qstat := 0 }
      ∧ (let data : List DWord := [((s.queue q).qctl &&& 0x3FFFFF).setWidth 64, 0]
        let u := match s.announced 3 q data with
          | some _ => s
          | none => s.announce 3 q data
        t = { u with queues := t.queues, agenda := t.agenda, unmade := t.unmade } ∧ (∀ j, j ≠ q → Tbl.look t.queues j = Tbl.look u.queues j)
        ∧ t.unmade = u.unmade.filter (fun j => j.seq.toNat != (s.announced 3 q data).getD u.journalSeq.toNat)))
  ∧ (∀ (s : State) (grid num c : Nat), s.canPlace grid num = true → (s.grid grid).coop = false → s.homeOf (s.grid grid) num = some c →
    let g := s.grid grid
    let id := s.ids
    let home := g.place.getD num 0
    ∃ t, exec (.teamPlace grid num) s = .next t ∧ Leaves { s with ids := s.ids + 1 } t
      ∧ t.grid grid = { g with unplaced := g.unplaced.filter (· != num), live := g.live ++ [id] }
      ∧ (∀ n, n ≠ grid → Tbl.look t.grids n = Tbl.look s.grids n)
      ∧ t.team id = { grid := grid, num := num, lcore := s.foldCore (s.ctx g.ctx).part home, core := c, home := home, footprint := g.footprint }
      ∧ (∀ n, n ≠ id → Tbl.look t.teams n = Tbl.look s.teams n)
      ∧ ∀ n i, n < g.gangs → i < 32 → 32 * n + i < g.tx * g.ty * g.tz → ∃ gs q,
        let cc := if n < g.lead then c else c + 1
        Tbl.look s.gangs (gangKey cc gs) = none ∧ t.gang cc gs = Gang.start (s.ctx g.ctx) id n
        ∧ t.thr cc (32 * gs + i) = { pos := entryPos (g.code + g.entry.setWidth 64), place := q } ∧ (q = .entry ∨ q = .bin))
  ∧ (∀ (s : State) (id : Nat) (tm : Team), Tbl.look s.teams id = some tm → s.teamThreads id = [] → s.teamQuiet id = true →
    ∃ t, exec (.teamEnd id) s = .next t ∧ Leaves s t ∧ t.threads = s.threads ∧ Tbl.look t.teams id = none
      ∧ (∀ n, n ≠ id → Tbl.look t.teams n = Tbl.look s.teams n)
      ∧ t.grid tm.grid = { s.grid tm.grid with live := (s.grid tm.grid).live.filter (· != id) }
      ∧ (∀ e ∈ t.gangs, e.2.team ≠ id) ∧ (∀ e ∈ t.copies, e.2.team ≠ id)
      ∧ (∀ n y, Tbl.look s.copies n = some y → y.team ≠ id → Tbl.look t.copies n = some y))
  ∧ (∀ (s : State) (n : Nat), s.gridDone n = true →
    let g := s.grid n
    ∃ w t, exec (.gridComplete n) s = .next t ∧ MemSide s w ∧ Tbl.look t.grids n = none ∧ (∀ j, j ≠ n → Tbl.look t.grids j = Tbl.look s.grids j)
      ∧ t.begun = s.begun.filter (fun b => !(b.ptype == 1 && b.grid == n))
      ∧ (∀ c, t.core c = if (s.core c).ctx = some g.ctx then { w.core c with wd := 0 } else w.core c)
      ∧ t.ctx g.ctx = { s.ctx g.ctx with savedWd := 0 } ∧ (∀ j, j ≠ g.ctx → Tbl.look t.ctxs j = Tbl.look s.ctxs j)
      ∧ t = { w with grids := t.grids, begun := t.begun, cores := t.cores, ctxs := t.ctxs, agenda := t.agenda }
      ∧ (g.signal = 0 ∨ s.readSignal g.ctx g.signal = none → w = s)
      ∧ (∀ v, g.signal ≠ 0 → s.readSignal g.ctx g.signal = some v →
          match s.unitWrite g.ctx (feNeed true) g.signal.toNat (leBytes 8 (wrap (v - 1) 64)) with
          | .ok z => w = z
          | .error _ => w = s))

/-! ## The progress loop and the agreed votes -/

/-- Derived from R218, R220 to R224, R226, R228, R252, R329, R351, R352, R359, R389, R390, R406, R407 and log entries 33,
41, 89, 91, 100, 111, 120: the loop's arithmetic: a rung of the ladder moves one actuator after another and no level
leaves its range; a step computes the error, the integral within its limits and the demand; a pool that is too small
is shed class by class, no grant below its floor or above its request, and the whole supply is granted; the clause of
a step is for a count below 2²³. The boundary: each context whose interval ends there reads and clears its count, and
steps, skips or sends its count to its beat group; when none waits the pass ends and the levels apply, but no clock
step to a sealed pair and none but 15 to a hot one; a merged count steps its context, unless that has moved, and is
held while it is not enabled here yet; a count that does not come marks MISS at every member, one that skipped the
boundary too. The model's choices are that the count is cleared whatever EN is (log entry 33), what a context does
whose merged count does not come (log entry 41), the port of a beat message (log entry 89), the step of a hot pair
that is sealed (log entry 91), that ICOUNT counts steps and skips (log entry 100), that a context with EN = 0 and an
interval below 64 µs has a boundary every 64 µs (log entry 111), and what BGSTAT shows of a merge at a member that
skipped it (log entry 120). -/
def Obligations.LoopArithmeticAndBoundaryResults : Prop :=
  (
    (∀ (l : Loop) (d : Nat), l.ckFast ≤ l.ckSlow →
      let v := l.ladder d
      let turned := min d l.top
      min d l.nGS + min (d - l.nGS) l.nNC + min (d - l.nGS - l.nNC) l.nWY + min (d - l.nGS - l.nNC - l.nWY) l.nHB
          + min (d - l.nGS - l.nNC - l.nWY - l.nHB) l.nCK = turned
      ∧ v.gs = l.gsFloor + 4 * min d l.nGS ∧ v.nc = l.ncFloor + 2 * min (d - l.nGS) l.nNC
      ∧ v.wy = l.wyFloor + min (d - l.nGS - l.nNC) l.nWY ∧ v.hb = l.hbFloor + min (d - l.nGS - l.nNC - l.nWY) l.nHB
      ∧ v.ck + min (d - l.nGS - l.nNC - l.nWY - l.nHB) l.nCK = l.ckSlow ∧ l.ckFast ≤ v.ck
      ∧ (l.wyFloor ≤ l.wyCeil → v.wy ≤ l.wyCeil) ∧ (l.hbFloor ≤ l.hbCeil → v.hb ≤ l.hbCeil)
      ∧ (l.gsFloor ≤ l.gsCeil → v.gs ≤ l.gsCeil) ∧ (l.ncFloor ≤ l.ncCeil → v.nc ≤ l.ncCeil))
    ∧ (∀ (l : Loop) (n : Nat), n < 2 ^ 23 → 0 ≤ l.target.toInt → l.imin.toInt ≤ l.imax.toInt →
      let a := l.settle
      let e := l.target.toInt - 256 * n
      let hold := 0 < e ∧ (a.demand = a.ltop ∨ a.short = true)
      let i := if hold then a.ival.toInt else min (max (a.ival.toInt + (l.ki.toNat * e) / 16) l.imin.toInt) l.imax.toInt
      let u := min (max ((l.kp.toNat * e) / 16 + i) (-2 ^ 31)) (2 ^ 31 - 1)
      let b := l.step n
      b.meas.toInt = 256 * n ∧ b.elast.toInt = e ∧ b.ival.toInt = i ∧ b.uval.toInt = u
      ∧ b.demand.toNat = min ((u + 0x8000) / 65536).toNat l.top ∧ b.ltop.toNat = l.top ∧ b.icount = l.icount + 1
      ∧ b = { l with
        ival := b.ival, meas := b.meas, elast := b.elast, uval := b.uval, demand := b.demand, ltop := b.ltop, icount := b.icount
        ctrl := l.ctrl &&& ~~~(onesAt 32 29 1) })
    ∧ (∀ (cs : List Claim) (supply : Nat), (cs.map (·.ctx)).Nodup → (∀ c ∈ cs, c.f ≤ c.r ∧ c.cls < 4) →
      (cs.map (·.f)).foldl (· + ·) 0 ≤ supply →
      let g := fun (c : Claim) => Tbl.at (shed cs supply) c.ctx 0
      (∀ c ∈ cs, c.f ≤ g c ∧ g c ≤ c.r)
      ∧ (cs.map g).foldl (· + ·) 0 = min ((cs.map (·.r)).foldl (· + ·) 0) supply
      ∧ (∀ c ∈ cs, ∀ d ∈ cs, c.cls < d.cls → g c < c.r → g d = d.f))) ∧
  (
    (∀ s : State, s.loopPass = none → ∃ t, exec .allocPass s = .next t ∧ t.boundaries = s.boundaries + 1
      ∧ t.time = max s.time (64000000 * (s.boundaries + 1)) ∧ t.mem = s.mem ∧ t.teams = s.teams ∧ t.grids = s.grids ∧ t.gangs = s.gangs
      ∧ t.copies = s.copies ∧ t.queues = s.queues
      ∧ (if t.awaitsMerge then t.loopPass.isSome = true else t.loopPass = none ∧ Act.event .actuatorLevelsApply ∈ t.agenda))
    ∧ (∀ (s : State) (now n : Nat),
      let x := s.ctx n
      let l := x.loop
      let beats := (s.takeBeats n).2
      let u := s.boundary now n
      let y := u.ctx n
      let steps := l.en = true ∧ x.firstStep ≤ now
      (now % l.interval ≠ 0 → u = s)
      ∧ (now % l.interval = 0 → y.beats = 0 ∧ (∀ c, (u.core c).beatAcc = if (s.core c).ctx = some n then 0 else (s.core c).beatAcc)
        ∧ y.mergeMiss = false ∧ y.ncFull = x.ncHeld ∧ y.ncHeld = s.ncHeldCores n ∧ y.heldCore = !(s.coresOf n).isEmpty
        ∧ (¬ steps → y.loop = l ∧ u.outbox = s.outbox ∧ u.loopPass = s.loopPass)
        ∧ (steps → x.heldCore = false → y.loop = l.skip ∧ u.outbox = s.outbox ∧ u.loopPass = s.loopPass)
        ∧ (steps → x.heldCore = true → l.bgrp = 0 → y.loop = l.step beats ∧ y.inForce = y.loop ∧ u.outbox = s.outbox ∧ u.loopPass = some true)
        ∧ (steps → x.heldCore = true → l.bgrp ≠ 0 → y.loop = l ∧ y.merged = some beats
          ∧ u.outbox = if s.portsUp = 0 then s.outbox else s.outbox ++ [(s.votePort 0, beatMsg s n beats)])
        ∧ u = { s with cores := u.cores, ctxs := u.ctxs, outbox := u.outbox, loopPass := u.loopPass }
        ∧ ∀ d, d ≠ n → Tbl.look u.ctxs d = Tbl.look s.ctxs d))
    ∧ (∀ s : State, (Tbl.keys s.pendingSteps).Nodup → ∃ t, exec .actuatorLevelsApply s = .next t
      ∧ (∀ n, (t.ctx n).loop = { (s.ctx n).loop with levels := (s.ctx n).pendingLevels.getD (s.ctx n).loop.levels }
          ∧ (t.ctx n).pendingLevels = none)
      ∧ (∀ p n, Tbl.look s.pendingSteps p = some n → s.pairSealed p = false →
          let hot := (s.core (2 * p)).hot || (s.core (2 * p + 1)).hot
          (t.core (2 * p)).step = (if hot then 15 else n) ∧ (t.core (2 * p + 1)).step = (if hot then 15 else n))
      ∧ (∀ p, Tbl.look s.pendingSteps p = none ∨ s.pairSealed p = true → t.core (2 * p) = s.core (2 * p) ∧ t.core (2 * p + 1) = s.core (2 * p + 1))
      ∧ (∀ c, t.core c = { s.core c with step := (t.core c).step })
      ∧ t = { s with cores := t.cores, ctxs := t.ctxs, dies := t.dies, pendingSteps := [], waysDue := false }
      ∧ (s.waysDue = false → t.dies = s.dies))
    ∧ (∀ (s : State) (n m : Nat),
      let x := s.ctx n
      let word := fun (w : Word) (k : Nat) => w.toNat = k + (if x.mergeMiss then 2 ^ 31 else 0)
      (∀ p, x.movedTo = some p → exec (.beatCount n m) s = .next (s.redirectSwitch 0x09 x.loop.bgrp p))
      ∧ (x.movedTo = none → x.arriving = true → exec (.beatCount n m) s = .next (s.holdMsg n (.beatCount n m)))
      ∧ (x.movedTo = none → x.arriving = false → x.merged = none → x.loop.bgrp = 0 → exec (.beatCount n m) s = .next s)
      ∧ (x.movedTo = none → x.arriving = false → x.merged = none → x.loop.bgrp ≠ 0 →
        ∃ b : Word, word b (min m (2 ^ 24 - 1)) ∧ exec (.beatCount n m) s = .next (s.setCtx n { x with bgstat := b }))
      ∧ (x.movedTo = none → x.arriving = false → x.merged.isSome = true → let k := min m (2 ^ 24 - 1)
        ∃ t, exec (.beatCount n m) s = .next t ∧ (t.ctx n).merged = none ∧ (t.ctx n).mergeMiss = x.mergeMiss
          ∧ word (t.ctx n).bgstat k
          ∧ (t.ctx n).loop = { x.loop.step k with ctrl := (t.ctx n).loop.ctrl }
          ∧ (t.awaitsMerge = true → (t.ctx n).loop = x.loop.step k ∧ (t.ctx n).inForce = x.loop.step k ∧ t = { s with ctxs := t.ctxs, loopPass := some true })
          ∧ (t.awaitsMerge = false → t.loopPass = none))
      ∧ (x.merged = none → x.loop.bgrp = 0 → exec (.beatMergeTimeout n) s = .next s)
      ∧ (x.merged.isSome = true ∨ x.loop.bgrp ≠ 0 → let at' := 64000000 * s.boundaries
        ∃ u t, exec (.beatMergeTimeout n) s = .next t ∧ TimePasses s u ∧ u.time = max s.time (at' + 4000000)
        ∧ (t.ctx n).bgstat = x.bgstat ||| onesAt 32 31 1 ∧ (t.ctx n).mergeMiss = true
        ∧ (x.merged = none ∨ s.portsUp ≠ 0 ∧ u.time < at' + 8000000 →
            t.ctx n = { x with mergeMiss := true, bgstat := x.bgstat ||| onesAt 32 31 1 } ∧ t = { u with ctxs := t.ctxs })
        ∧ (x.merged.isSome = true → s.portsUp = 0 ∨ at' + 8000000 ≤ u.time →
            (t.ctx n).merged = none ∧ (t.ctx n).loop.icount = x.loop.icount + 1))))

/-- Derived from R197, R388 to R390, R410, R413 to R416, R420, R421, R423, R427, R429, R431, R440 and log entries 20, 23,
94, 96 and 108: reporting, resolving and undoing an agreed vote. A tally closes when every member has voted or GRACE
has run out; the resolution advances SEQ, writes LRES and the history, and gives the waiting lanes of a `cbr` their
successor and those of an `mvote` the result word, and with it the flag falls; with no direction the lanes of a `cbr`
take the membership fault, and those of an `mvote` at the header that next waits for the flag. A run-ahead in the
direction of the result commits: its held beats count, its held stores are performed, its held faults are taken and
its stopped lanes resume; a wrong run-ahead is undone from its snapshot, but for flags, exits and barrier arrivals,
and its lanes go to the other successor or take the membership fault. A result for a context that has moved is turned
away, and one for a context not enabled here yet is held. On a device whose context is stopped the members count as
dead: its last V votes, of DEFV. A report for another sequence than the register resolves next came before, and is
discarded. The model's choices are the layout of a vote message and the sequence that a report names (log entry 23),
that a held store meets the page of a virtual command processor at its address (log entry 108), that an invalid
temporary holds 0 (log entry 94), and that a stopped context reports so once per sequence (log entry 96). -/
def Obligations.VoteEventResults : Prop :=
  (∀ (s : State) (n reg : Nat) (o : OpenSeq) (abort dead : Bool),
    let m := (s.ctx n).msetOf reg
    let t := s.report n reg o abort dead
    (t.ctx n).lastV = Tbl.put (s.ctx n).lastV reg o.v
    ∧ (t.ctx n).openSeqs = (s.ctx n).openSeqs.filter (fun e => !(e.reg == reg && e.seq == o.seq)) ++ [{ o with closed := true }]
    ∧ t = { s with ctxs := t.ctxs, agenda := t.agenda, outbox := t.outbox }
    ∧ (Mset.dgn m = 0 → t.outbox = s.outbox ∧ t.agenda = .event (.sequenceResolution n reg ⟨o.t, o.v, false, abort, o.seq⟩) :: s.agenda)
    ∧ (Mset.dgn m ≠ 0 → t.agenda = s.agenda
        ∧ t.outbox = s.outbox ++ [(s.votePort ((reg + o.seq.toNat) % 32), voteMsg s reg o.seq m o.t o.v abort dead)]))
  ∧ (∀ (s : State) (n reg : Nat) (o : OpenSeq), s.openTally n reg = some o →
    exec (.tallyClose n reg) s = .next (if s.lateMembers n reg o.seq = 0 then s.report n reg o false false else s))
  ∧ (∀ (s : State) (n reg : Nat) (o : OpenSeq), s.deadReport n reg = none → s.graceTally n reg = some o →
    let m := (s.ctx n).msetOf reg
    let late := s.lateMembers n reg o.seq
    1000 * (o.since + 1000 * Mset.grace m) ≤ s.time →
    exec (.graceExpire n reg) s = .next (
      if late = 0 then s.report n reg o false false
      else if Mset.dpol m then s.report n reg o true false
      else s.report n reg { o with t := o.t + (if Mset.defv m then late else 0), v := o.v + late } false false))
  ∧ (∀ (s : State) (n reg : Nat),
    let x := s.ctx n
    let m := x.msetOf reg
    let v := Tbl.at x.lastV reg 0
    x.run = .stopped → Mset.valid m = true → (∀ o ∈ x.openSeqs, o.reg = reg → o.seq = Mset.seq m → o.closed = false) →
    (Mset.dgn m = 0 → ∃ o ∈ x.openSeqs, o.reg = reg ∧ o.seq = Mset.seq m) → (Mset.dgn m ≠ 0 → s.inGroup x m = true) →
    let dead : OpenSeq := ⟨reg, Mset.seq m, if Mset.defv m then v else 0, v, false, s.timebase⟩
    exec (.graceExpire n reg) s = .next (
      if Mset.dpol m = false then s.report n reg dead false true
      else if s.lateMembers n reg (Mset.seq m) = 0 then s.report n reg ((s.openTally n reg).getD { dead with t := 0, v := 0 }) false true
      else s.report n reg dead true true))
  ∧ (∀ (s : State) (n reg : Nat) (r : SeqReport),
    let x := s.ctx n
    let m := x.msetOf reg
    let taken := if Mset.vop m = 0 then decide (1 ≤ r.t) else if Mset.vop m = 1 then decide (r.t = r.v) else decide (Mset.k m ≤ r.t)
    let o := if r.mismatch then 3 else if r.aborted then 2 else if taken then 1 else 0
    (∀ p, x.movedTo = some p →
      exec (.sequenceResolution n reg r) s = .next (s.redirectSwitch 0x0A (reg * 2 ^ 16 + r.seq.toNat) p))
    ∧ (x.movedTo = none → x.arriving = true →
      exec (.sequenceResolution n reg r) s = .next (s.holdMsg n (.sequenceResolution n reg r)))
    ∧ (x.movedTo = none → x.arriving = false → r.seq ≠ Mset.seq m → exec (.sequenceResolution n reg r) s = .next s)
    ∧ (x.movedTo = none → x.arriving = false → r.seq = Mset.seq m → ∃ t, exec (.sequenceResolution n reg r) s = .next t
      ∧ (let y := t.ctx n
        Mset.seq (y.msetOf reg) = Mset.seq m + 1 ∧ (y.msetOf reg).getLsbD 11 = (if o ≤ 1 then decide (o = 1) else Mset.defv m)
        ∧ (∀ i, (i < 11 ∨ 11 < i ∧ i < 16 ∨ 32 ≤ i) → (y.msetOf reg).getLsbD i = m.getLsbD i)
        ∧ y.moutOf reg = (x.moutOf reg <<< 4) ||| BitVec.ofNat 64 o
        ∧ y.openSeqs = x.openSeqs.filter (fun e => !(e.reg == reg && e.seq == Mset.seq m))
        ∧ ∀ j, j ≠ reg → y.msetOf j = x.msetOf j ∧ y.moutOf j = x.moutOf j)
      ∧ (s.ctxGangs n = [] → t = { s with ctxs := t.ctxs } ∧ ∀ d, d ≠ n → Tbl.look t.ctxs d = Tbl.look s.ctxs d)
      ∧ (∀ (c gs : Nat) (w : VoteWait), gs < 64 → s.ctxGangs n = [gangKey c gs] → (s.gang c gs).votes = [w] → (s.gang c gs).spec = none →
        w.reg = reg → w.seq = Mset.seq m → w.lanes.Nodup → (∀ k ∈ w.lanes, k / 32 = gs) →
        let fault := BitVec.ofNat 32 (w.seq.toNat * 2 ^ 16 + reg * 16 + (if o = 2 then 5 else 3))
        (t.gang c gs).votes = [] ∧ (t.gang c gs).waiting reg = false
        ∧ (w.mvote = none → ∀ k ∈ w.lanes, (s.thr c k).place = .vote →
          (o ≤ 1 → ∃ q, t.thr c k = { s.thr c k with pos := entryPos (if o = 1 then w.target else w.ft), place := q } ∧ (q = .entry ∨ q = .bin))
          ∧ (2 ≤ o → (s.thr c k).hnd = false → MemberFaulted (t.thr c k) (posAt w.clause w.idx) fault))
        ∧ (∀ dst flag, w.mvote = some (dst, flag) → ∀ k ∈ w.lanes,
          let u := (s.thr c k).setFlag flag ((s.thr c k).flag flag - 1)
          let regs := regsOf (s.gangGrid c gs) (s.gang c gs).num
          t.thr c k = if 2 ≤ o then { u with flagFault := Tbl.put u.flagFault flag ⟨0x16, fault, 0⟩ }
            else match dst with
              | some d => u.putV regs d (BitVec.ofNat 32 (o + 2 ^ 8 * min r.t (2 ^ 24 - 1))) false
              | none => u))
      ∧ (∀ (c gs : Nat) (z : GangSpec), gs < 64 → s.ctxGangs n = [gangKey c gs] → (s.gang c gs).spec = some z →
        z.reg = reg → z.seq = Mset.seq m → o ≤ 1 → z.dir = decide (o = 1) →
        (∀ w ∈ (s.gang c gs).votes, ¬ (w.reg = reg ∧ w.seq = Mset.seq m)) →
        let ahead := fun (k : Nat) => k / 32 = gs ∧ (s.thr c k).spec = true
        let beats := ((s.specLanes c gs).map (fun k => (s.thr c k).heldBeats)).foldl (· + ·) 0
        let held := (s.core c).ssh.filter (fun e => e.gslot == gs)
        ∃ v w : State, v = { s with ctxs := v.ctxs, gangs := v.gangs, cores := v.cores, grids := v.grids }
          ∧ (∀ j, v.gang c gs = { s.gang c gs with spec := none, wait := (v.gang c gs).wait, voided := (v.gang c gs).voided }
            ∧ (j < 16 → (v.gang c gs).waiting j = ((s.gang c gs).waiting j && decide (j ≠ reg))))
          ∧ (v.core c).ssh = (s.core c).ssh.filter (fun e => e.gslot != gs) ∧ (v.core c).beatAcc = (s.core c).beatAcc + beats
          ∧ (∀ d, v.core d = { s.core d with ssh := (v.core d).ssh, beatAcc := (v.core d).beatAcc, wd := (v.core d).wd }
            ∧ (d ≠ c → (v.core d).ssh = (s.core d).ssh ∧ (v.core d).beatAcc = (s.core d).beatAcc)
            ∧ (v.core d).wd = if beats ≠ 0 ∧ ((s.core d).ctx = some (s.gangGrid c gs).ctx ∧ (Tbl.look s.cores d).isSome ∨ d = c) then 0 else (s.core d).wd)
          ∧ w = held.foldl (fun u e => u.performHeld c gs e) v
          ∧ t = { w with threads := t.threads, cores := t.cores, gangs := t.gangs, ctxs := t.ctxs, causes := t.causes, ids := s.ids + 1 }
          ∧ (t.gang c gs).spec = none ∧ (t.gang c gs).waiting reg = false
          ∧ (∀ k, ahead k → (s.thr c k).heldFault = none → ∃ q, t.thr c k = { (s.thr c k).endSpec with place := q }
            ∧ if (s.thr c k).stopped then q = .entry ∨ q = .bin else q = (s.thr c k).place)
          ∧ (∀ k i, ahead k → (s.thr c k).heldFault = some i → (s.thr c k).hnd = false → (t.thr c k).spec = false ∧ (t.thr c k).hnd = true
            ∧ (t.thr c k).fpos = (s.thr c k).pos ∧ (t.thr c k).fcode = i.code ∧ (t.thr c k).frame.extractLsb' 64 32 = i.finfo
            ∧ (t.thr c k).frame.extractLsb' 96 64 = i.faddr)
          ∧ ∀ d j, (∀ k, ahead k → threadKey d j ≠ threadKey c k) → t.thr d j = s.thr d j)))
  ∧ (∀ (s : State) (c k : Nat) (h : DWord) (i : FaultInfo) (flag : Nat) (u1 u2 : State) (body : List Raw),
    let th := s.thr c k
    let g := s.gangGrid c (k / 32)
    posIdx th.pos = 31 → s.fetchHdr c g (!th.priv) (posClause th.pos) = .ok (u1, h) →
    u1.fetchBody c g.ctx (!th.priv) ((posClause th.pos).toNat + 8) (Hdr.blen h) = .ok (u2, body) →
    roleFault g (s.gang c (k / 32)).num h = none → th.tokenFault h = none →
    flag < 12 → Hdr.fwait h flag = true → Tbl.look th.flagFault flag = some i →
    (∀ j < flag, Hdr.fwait h j = true → Tbl.look th.flagFault j = none) →
    s.entryOf c k = (u2, .fault i { th with flagFault := Tbl.drop th.flagFault flag }))
  ∧ (∀ (s : State) (c gs : Nat) (e : SshEntry),
    let t := s.performHeld c gs e
    let tm := s.gangTeam c gs
    let pa := 32 * e.block
    let l1 := s.l1Core c tm pa
    let hit := fun (a : Nat) => pa ≤ a ∧ a < pa + 32 ∧ e.mask.getLsbD (a - pa) = true
    let byte := fun (a : Nat) => e.data.extractLsb' (8 * (a - pa)) 8
    (e.space ≠ 0 → let m := (s.gang c gs).team
      t = { s with teams := t.teams } ∧ (∀ q, q ≠ m → t.team q = s.team q) ∧ t.team m = { s.team m with scratch := (t.team m).scratch }
      ∧ ∀ a, (hit a → (t.team m).spadByte a = byte a) ∧ (¬ hit a → (t.team m).spadByte a = (s.team m).spadByte a))
    ∧ (e.space = 0 → e.mask ≠ 0 → MemSide (s.markVisible tm.grid) t)
    ∧ (e.space = 0 → e.mask ≠ 0 → (∀ i < 32, (s.thr c (32 * gs + i)).relFence = false) → Plain s l1 e.key pa false → Roomy s l1 →
      (e.byp = false → s.physBad (64 * (pa / 64)) 64 = false ∨ (s.l1Line l1 pa false).isSome = true →
        (∀ key a, t.physByte key a = s.physByte key a)
        ∧ ∀ l1' key a, (l1' = l1 → key = e.key → hit a → t.viewByte l1' key a = byte a)
          ∧ (¬ (l1' = l1 ∧ key = e.key ∧ hit a) → t.viewByte l1' key a = s.viewByte l1' key a))
      ∧ (e.byp = true → t.l1Line l1 pa false = none
        ∧ ∀ a, s.pageAt a = none → (hit a → t.physByte e.key a = byte a)
          ∧ (¬ hit a → a / 64 = pa / 64 → t.physByte e.key a = s.homeByte l1 e.key a)
          ∧ (a / 64 ≠ pa / 64 → ∀ key, t.physByte key a = s.physByte key a))))
  ∧ (∀ (s : State) (c gs o : Nat) (x : GangSpec), (s.gang c gs).spec = some x → x.squash = some o → gs < 64 → x.lanes.Nodup →
    (∀ y ∈ (s.core c).pending, ¬ (y.slot / 32 = gs ∧ y.spec = true)) →
    ∃ t, exec (.specSquash c gs) s = .next t ∧ (t.gang c gs).spec = none ∧ (t.gang c gs).g = x.snapG ∧ (t.gang c gs).tw = x.snapTw
      ∧ (∀ i < 16, (t.gang c gs).waiting i = if i = x.reg then decide (o = 4) else (s.gang c gs).waiting i)
      ∧ (t.core c).ssh = (s.core c).ssh.filter (fun e => e.gslot != gs)
      ∧ (∀ k ∈ x.lanes, ∀ old, Tbl.look x.snap k = some old →
        (o ≤ 1 ∨ o = 4 → ∃ q, t.thr c k = { old.endSpec with
          flags := (s.thr c k).flags, exited := (s.thr c k).exited, barArrived := (s.thr c k).barArrived, tvalid := 0, t := []
          pos := if o = 4 then posAt x.clause x.idx else entryPos (if o = 1 then x.target else x.ft), place := q } ∧ (q = .entry ∨ q = .bin))
        ∧ (o = 2 ∨ o = 3 → old.hnd = false → MemberFaulted (t.thr c k) (posAt x.clause x.idx)
            (BitVec.ofNat 32 (x.seq.toNat * 2 ^ 16 + x.reg * 16 + (if o = 2 then 5 else 3)))))
      ∧ t.mem = s.mem
      ∧ ((∀ e ∈ (s.core c).pipes, e.2.slots ≠ [] ∧ ∀ k ∈ x.lanes, k ∉ e.2.slots) → t.teams = s.teams))

/-! ## Halting, saving, moving and ending contexts -/

/-- Derived from R179, R194, R340, R341, R344 to R351, R355, R356, R360, R375, R390, R431 and log entries 24, 51, 52, 55,
56 and 57: halting a context and putting it away. A request halts a running context; a pass still running 8 µs later
is cut between two instructions, its threads keeping their temporaries and its reservations staying for its lanes; a
cluster that chose to save, or whose drain has run out, puts each team away with its threads, one that chose to
discard returns it to unplaced; NC halts a core whose context it pre-empts there in the same way; the watchdog stops a
context, unless what clears its count comes in the same cycle; a kill ends all of it; a saved context resumes, with
its watchdog counts and with no translation of another partition, unless its image has come and is not enabled yet,
and the VF of one that has migrated is told; a live migration tracks writes, halts, and leaves the context moved once
no page is dirty, turning away the chunks that no collective has taken. That a team's LCORE is its placement number
folded into the partition, with the number itself kept (log entry 24), that the closes of a cut pass wait for its
resumption (log entry 51), that a restore clears the record of a stop and a thread that a fault or a trap has stopped
is saved to run no more (log entry 56), that a halt squashes run-ahead gangs (log entry 52), the zeros of the stop
record of a kill (log entry 55), and what the event of a live migration does in each run state and for an image that
has come (log entry 57), are the model's choices. -/
def Obligations.PreemptionEventResults : Prop :=
  let saves := fun (s t : State) (n id : Nat) (tm : Team) (late : Bool) =>
    Tbl.look t.teams id = none ∧ (∀ k ∈ s.teamThreads id, Tbl.look t.threads k = none) ∧ (∀ e ∈ t.gangs, e.2.team ≠ id)
    ∧ ∃ r, (t.ctx n).saved = (s.ctx n).saved ++ [r] ∧ r.id = id ∧ r.team = tm ∧ r.late = late
      ∧ r.threads.length = (s.teamThreads id).length
      ∧ ∀ k ∈ s.teamThreads id, ∃ e ∈ r.threads, e.lane = k % 32 ∧ e.th = { Tbl.at s.threads k {} with place := .out }
  let calm := fun (s : State) (id : Nat) => s.quiet [id] = true ∧ s.settled [id] = true
    ∧ (∀ k ∈ s.teamThreads id, (Tbl.at s.threads k {}).exited = false)
  (∀ (s : State) (n : Nat),
    ((s.ctx n).run ≠ .running → exec (.preemptRequest n) s = .next s)
    ∧ ((s.ctx n).run = .running → ∃ t, exec (.preemptRequest n) s = .next t
      ∧ (t.ctx n).run = (if s.ctxTeams n = [] then .saved else .halting) ∧ (t.ctx n).preemptAt = s.timebase ∧ (t.ctx n).haltAt = s.time ∧ (t.ctx n).chosen = []
      ∧ (∀ d, d ≠ n → Tbl.look t.ctxs d = Tbl.look s.ctxs d)
      ∧ t = { s with ctxs := t.ctxs, gangs := t.gangs, agenda := t.agenda }
      ∧ ∀ c g, t.gang c g = { s.gang c g with spec := (t.gang c g).spec }))
  ∧ (∀ (s : State) (c p : Nat) (x : Pass), Tbl.look (s.core c).pipes p = some x →
    (s.halting c = false ∨ s.time < s.cutAt c → exec (.passCut c p) s = .next s)
    ∧ (s.halting c = true → s.cutAt c ≤ s.time → ∃ t, exec (.passCut c p) s = .next t ∧ Tbl.look (t.core c).pipes p = none
      ∧ (∀ k ∈ x.slots, ∃ q, t.thr c k = { s.thr c k with pos := posAt x.clause x.idx, place := q } ∧ (q = .entry ∨ q = .bin))
      ∧ (∀ n, (∀ k ∈ x.slots, n ≠ threadKey c k) → Tbl.look t.threads n = Tbl.look s.threads n)
      ∧ (∀ gs ∈ gangsOf x.slots, ∀ r, Tbl.look x.resv gs = some r → r.rd ≠ none ∨ r.wr ≠ none →
        ∃ q, (posAt x.clause x.idx, q) ∈ (t.gang c gs).kept ∧ q.hdr = x.hdr ∧ q.rd = r.rd ∧ q.wr = r.wr
          ∧ q.lanes = (x.slots.filter (fun k => k / 32 == gs)).map (· % 32))
      ∧ (∀ d g, t.gang d g = { s.gang d g with kept := (t.gang d g).kept })
      ∧ t = { s with cores := t.cores, threads := t.threads, gangs := t.gangs, teams := t.teams }
      ∧ ((∀ e ∈ x.resv, e.1 ∈ gangsOf x.slots) → (∀ e ∈ x.closing, e.1 ∈ gangsOf x.slots) → t.teams = s.teams)))
  ∧ (∀ (s : State) (c n : Nat), (s.core c).ctx = some n → s.cutAt c
    = (if (s.core c).halted then (s.core c).haltedAt else ((s.core c).ncAt).getD
        (if Tbl.at (s.ctx n).chosen (clusterOf c) 0 = 5 then (s.ctx n).drainEnd else (s.ctx n).haltAt)) + 8000000)
  ∧ (∀ (s : State) (c n : Nat), (s.core c).ctx = some n →
    (s.expired c = false → exec (.watchdogExpire c) s = .next s)
    ∧ (s.expired c = true → (s.ctx n).stop ≠ 0 → ∃ t, exec (.watchdogExpire c) s = .next t ∧ t = { s with ctxs := t.ctxs }
      ∧ (let w := stopWord 3 0 (s.logicalOf (s.ctx n).part c) 0
        let least := if stopRank w < stopRank (s.ctx n).stop then w else (s.ctx n).stop
        t.ctx n = { s.ctx n with stop := least }))
    ∧ (s.expired c = true → (s.ctx n).stop = 0 → ∃ t, exec (.watchdogExpire c) s = .next t ∧ (t.ctx n).run = .stopped
      ∧ (t.ctx n).stop = stopWord 3 0 (s.logicalOf (s.ctx n).part c) 0
      ∧ t.ctx n = { s.ctx n with run := (t.ctx n).run, stop := (t.ctx n).stop, stopAt := some s.time, haltAt := s.time, chosen := [] }
      ∧ t = { s with ctxs := t.ctxs, causes := t.causes })
    ∧ (s.expired c = true → s.instead (.watchdogExpire c) = (s.clearing c).getD (.watchdogExpire c))
    ∧ (∀ i, s.clearing c = some i → s.moves i = true
      ∧ ((∃ d k, i = .threadFree d k ∧ (s.gangGrid d (k / 32)).ctx = n) ∨ (∃ id tm, i = .teamEnd id ∧ (id, tm) ∈ s.ctxTeams n)
        ∨ ∃ g y, i = .gridComplete g ∧ (g, y) ∈ s.grids ∧ y.ctx = n)))
  ∧ (∀ (s : State) (n cl id : Nat) (tm : Team), (s.ctx n).run = .halting → Tbl.look s.teams id = some tm →
    (s.ctxTeams n).filter (fun e => clusterOf e.2.core == cl) = [(id, tm)] → calm s id →
    let pick := s.choice n ((List.range 8).map (8 * cl + ·)) [(id, tm)]
    let chosen := Tbl.look (s.ctx n).chosen cl
    (chosen = some 1 → exec (.preemptChoose n cl) s = .next s)
    ∧ (chosen = none → pick = 1 → ∃ t, exec (.preemptChoose n cl) s = .next t ∧ t = { s with ctxs := t.ctxs }
      ∧ t.ctx n = { s.ctx n with chosen := Tbl.put (s.ctx n).chosen cl 1 })
    ∧ (∀ k, (chosen = some k ∨ chosen = none ∧ pick = k) → k = 2 ∨ k = 4 ∨ k = 5 →
      ∃ t, exec (.preemptChoose n cl) s = .next t ∧ Leaves s t ∧ saves s t n id tm (k != 2))
    ∧ ((chosen = some 3 ∨ chosen = none ∧ pick = 3) → ∃ t, exec (.preemptChoose n cl) s = .next t ∧ Leaves s t
      ∧ Tbl.look t.teams id = none ∧ (t.ctx n).saved = (s.ctx n).saved
      ∧ (t.grid tm.grid).live = (s.grid tm.grid).live.filter (· != id)
      ∧ (t.grid tm.grid).unplaced = insertSorted tm.num (s.grid tm.grid).unplaced))
  ∧ (∀ (s : State) (n : Nat), (s.ctx n).run = .halting → 1000 * ((s.ctx n).preemptAt + 1000 * (s.ctx n).deadline) ≤ s.time →
    (∀ e ∈ s.copies, e.2.kind.isColl = false) → ∃ t, exec (.drainDeadline n) s = .next t
      ∧ t.ctx n = { s.ctx n with
          chosen := (s.ctx n).chosen.map (fun e => if e.2 = 1 then (e.1, 5) else e)
          drainEnd := if (∃ e ∈ (s.ctx n).chosen, e.2 = 1) ∧ (∀ e ∈ (s.ctx n).chosen, e.2 ≠ 5) then s.time else (s.ctx n).drainEnd }
      ∧ t = { s with ctxs := t.ctxs, gangs := t.gangs, agenda := t.agenda })
  ∧ (∀ (s : State) (n c id : Nat) (tm : Team), (s.ctx n).run = .running →
    Tbl.look s.teams id = some tm → (s.teamsOn c).filter (fun e => s.teamCtx e.2 == n) = [(id, tm)] →
    ((s.core c).ncAt = none → c ∈ (s.ctx n).ncFull → s.wanted n c = true → ∃ t, exec (.ncPreempt n c) s = .next t
      ∧ (t.core c).ncAt = some s.time ∧ t.halting c = true ∧ Act.event (.ncPreempt n c) ∈ t.agenda
      ∧ (∀ d, t.core d = { s.core d with ncAt := (t.core d).ncAt })
      ∧ (∀ d g, t.gang d g = { s.gang d g with spec := (t.gang d g).spec })
      ∧ t = { s with cores := t.cores, gangs := t.gangs, agenda := t.agenda })
    ∧ ((s.core c).ncAt = none → (c ∉ (s.ctx n).ncFull ∨ s.wanted n c = false) → exec (.ncPreempt n c) s = .next s)
    ∧ ((s.core c).ncAt ≠ none → calm s id → ∃ t, exec (.ncPreempt n c) s = .next t ∧ Leaves s t ∧ saves s t n id tm false
      ∧ (t.core c).ncAt = none))
  ∧ (∀ (s : State) (n part : Nat) (r : SavedTeam) (g : Gang) (e : SavedThread) (c : Nat), (s.ctx n).run = .saved →
    (Tbl.at s.parts part {}).ncores ≠ 0 → (s.ctx n).arriving = false →
    let u := s.setCtx n ((s.ctx n).resumed part)
    let told := if (s.ctx n).migDue then (match s.vcpOfCtx n with | none => s.causes | some v => s.causes ++ [⟨v, 3, (s.vcp v).vfgen⟩]) else s.causes
    let gr := s.grid r.team.grid
    let fresh := fun (l : List TlbEntry) => if part = (s.ctx n).part then l else l.filter (fun y => !(y.ctx == n))
    ((s.ctx n).saved = [] → ∃ t, exec (.restore n part) s = .next t ∧ t.ctx n = u.ctx n ∧ t.causes = told
      ∧ t = { s with ctxs := t.ctxs, agenda := t.agenda, causes := t.causes, cores := t.cores, ctlb := t.ctlb }
      ∧ (∀ k, Tbl.at t.ctlb k [] = fresh (Tbl.at s.ctlb k []))
      ∧ ∀ d, t.core d = { s.core d with
          tlb := fresh (s.core d).tlb, wd := if (s.core d).ctx = some n then (s.ctx n).savedWd else (s.core d).wd })
    ∧ ((s.ctx n).saved = [r] → r.gangs = [g] → r.threads = [e] → gr.paired = false → g.num < gr.gangs → e.gang = g.num → e.lane < 32 →
      u.canRestore n r = true → u.physCore part (u.foldCore part r.team.home) = some c → gr.ctx = n →
      ∃ t, exec (.restore n part) s = .next t ∧ Leaves { s with causes := told, ctlb := t.ctlb } t ∧ (t.ctx n).run = .running ∧ (t.ctx n).part = part ∧ (t.ctx n).saved = []
        ∧ (∃ tm, Tbl.look t.teams r.id = some tm ∧ tm = { r.team with core := c, lcore := u.foldCore part r.team.home })
        ∧ ∃ gs q, Tbl.look s.gangs (gangKey c gs) = none ∧ t.gang c gs = catchupAll (s.ctx n) g
          ∧ t.thr c (32 * gs + e.lane) = { e.th with place := q }
          ∧ (e.waits = true → q = .entry ∨ q = .bin)))
  ∧ (∀ (s : State) (n part : Nat), (s.ctx n).run = .saved → (s.ctx n).arriving = true → exec (.restore n part) s = .next s)
  ∧ (∀ (s : State) (n : Nat),
    ((s.ctx n).run ≠ .stopped → exec (.contextKill n) s = .next s)
    ∧ ((s.ctx n).run = .stopped → s.settled ((s.ctxTeams n).map (·.1)) = true → (Tbl.keys s.grids).Nodup → ∃ t, exec (.contextKill n) s = .next t
      ∧ (∀ e ∈ s.ctxTeams n, Tbl.look t.teams e.1 = none) ∧ (∀ e ∈ t.grids, e.2.ctx ≠ n)
      ∧ (∀ j g, Tbl.look s.grids j = some g → g.ctx ≠ n → Tbl.look t.grids j = some g)
      ∧ (t.ctx n).saved = [] ∧ (t.ctx n).stop = stopWord 4 0 0 0 ∧ (t.ctx n).run = .stopped
      ∧ t.begun = s.begun.filter (fun b => queueCtx (t.queue b.queue) != n) ∧ (s.vcpPages = none → t.queues = s.queues)))
  ∧ (∀ (s : State) (n dev new : Nat),
    (dev ≠ s.devId.toNat → (s.ctx n).run = .running → (s.ctx n).migrate = none → ∃ t, exec (.liveMigrate n dev new) s = .next t
      ∧ t.ctx n = { s.ctx n with migrate := some (dev, new) } ∧ t = { s with ctxs := t.ctxs, tracking := n :: s.tracking.filter (· != n) })
    ∧ (dev ≠ s.devId.toNat → (s.ctx n).run = .running → (s.ctx n).migrate ≠ none → s.ctxTeams n ≠ [] →
      ∃ t, exec (.liveMigrate n dev new) s = .next t ∧ (t.ctx n).run = .halting ∧ (t.ctx n).preemptAt = s.timebase
        ∧ t = { s with ctxs := t.ctxs, gangs := t.gangs, agenda := t.agenda })
    ∧ (dev ≠ s.devId.toNat → (s.ctx n).run = .saved → (∃ y ∈ s.dirtyPages, y.1 = n) → exec (.liveMigrate n dev new) s = .next s)
    ∧ (dev ≠ s.devId.toNat → (s.ctx n).run = .saved → (∀ y ∈ s.dirtyPages, y.1 ≠ n) → ∃ t, exec (.liveMigrate n dev new) s = .next t
      ∧ (t.ctx n).run = .moved ∧ (t.ctx n).movedTo = some (dev, new) ∧ (t.ctx n).migrate = none
      ∧ (∃ u : State, u = { s with ctxs := t.ctxs, tracking := s.tracking.filter (· != n), dirtyPages := t.dirtyPages }
        ∧ t = (s.early.filter (fun m => m.dctx.toNat == n)).foldl (fun y m => y.turnAway m (dev, new))
            { u with early := s.early.filter (fun m => m.dctx.toNat != n) })
      ∧ (∀ y, y ∈ t.dirtyPages ↔ y ∈ s.dirtyPages)
      ∧ (dev < 2 ^ 9 → new < 2 ^ 12 → ∀ d r, let e := Tbl.at (s.ctx d).ranks r 0
        Tbl.at (t.ctx d).ranks r 0 = if e.getLsbD 31 = true ∧ e.extractLsb' 20 9 = s.devId ∧ e.toNat % 2 ^ 12 = n
          then BitVec.ofNat 32 (2 ^ 31 + dev * 2 ^ 20 + new) else e))
    ∧ (dev = s.devId.toNat → (s.ctx new).run = .saved → ∃ t, exec (.liveMigrate n dev new) s = .next t
      ∧ t.ctx new = { s.ctx new with arriving := false, migDue := true }
      ∧ (∀ d, d ≠ new → Tbl.look t.ctxs d = Tbl.look s.ctxs d)
      ∧ t = { s with
        ctxs := t.ctxs, held := s.held.filter (fun e => e.1 != new)
        agenda := s.agenda ++ (s.held.filter (fun e => e.1 == new)).map (fun e => e.2) ++ [.event (.restore new (s.ctx new).part)] }))

/-- Derived from R240, R352 to R354, R358, R359, R431 and log entries 52, 58 and 91: heat. A sample is recorded; at 95
degrees a core's pair halts to move when a cool spare stands on its die, and otherwise slows down, unless a seal fixes
its step; the move takes teams and threads with everything keyed by their cores to the spare pair. That a halted
pair's run-ahead gangs are squashed (log entry 52), what the spare keeps of its own, and what starts empty there (log
entry 58), and the step of a hot pair that is sealed (log entry 91), are the model's choices. -/
def Obligations.ThermalEventResults : Prop :=
  (∀ (s : State) (c deg : Nat), deg < 256 →
    let pair := c / 2
    let u := s.modCore c (fun k => { k with temp := BitVec.ofNat 8 deg })
    ∃ t, exec (.tempSample c deg) s = .next t ∧ (t.core c).temp.toNat = deg
      ∧ (∀ d, d / 2 ≠ pair → t.core d = s.core d)
      ∧ (∀ d, t.core d = { s.core d with
          temp := (t.core d).temp, hot := (t.core d).hot, halted := (t.core d).halted, haltedAt := (t.core d).haltedAt
          step := (t.core d).step })
      ∧ (deg < 95 → t = { s with cores := t.cores } ∧ (t.core c).halted = (s.core c).halted ∧ (t.core c).step = (s.core c).step)
      ∧ (deg < 85 → (∀ d, d / 2 = pair → d ≠ c → (s.core d).temp.toNat < 85) → ∀ d, d / 2 = pair → (t.core d).hot = false)
      ∧ (95 ≤ deg → (s.core c).halted = false →
        ((∃ p, u.sparePair pair = some p) → (∀ d, d / 2 = pair → (t.core d).halted = true ∧ (t.core d).haltedAt = s.time) ∧ Act.event (.thermalMigrate pair) ∈ t.agenda)
        ∧ (u.sparePair pair = none → (∀ d, d / 2 = pair → (t.core d).hot = true ∧ (t.core d).halted = false
            ∧ (t.core d).step = if s.pairSealed pair then (s.core d).step else 15)
          ∧ (∀ n, (t.ctx n).loop = if n ∈ u.pairCtxs pair then (s.ctx n).loop.setShort true else (s.ctx n).loop)
          ∧ t = { s with cores := t.cores, ctxs := t.ctxs })))
  ∧ (∀ (s : State) (pair p : Nat),
    let cores := [2 * pair, 2 * pair + 1]
    (s.core (2 * pair)).halted = true → s.quiet ((cores.flatMap s.teamsOn).map (·.1)) = true →
    (∀ c ∈ cores, ∀ f ∈ (s.core c).fifo.head?, f.started = false ∨ f.follower = true) →
    (s.sparePair pair = none → ∃ t, exec (.thermalMigrate pair) s = .next t
      ∧ (∀ c, t.core c = if c / 2 = pair then { s.core c with
          hot := true, halted := false, step := if s.pairSealed pair then (s.core c).step else 15 } else s.core c)
      ∧ (∀ n, (t.ctx n).loop = if n ∈ s.pairCtxs pair then (s.ctx n).loop.setShort true else (s.ctx n).loop)
      ∧ t = { s with cores := t.cores, ctxs := t.ctxs })
    ∧ (s.sparePair pair = some p → p ≠ pair → (Tbl.keys s.threads).Nodup → (Tbl.keys s.gangs).Nodup →
      ∃ t, exec (.thermalMigrate pair) s = .next t
        ∧ (∀ n tm, Tbl.look s.teams n = some tm → Tbl.look t.teams n
            = some { tm with core := if tm.core / 2 = pair then 2 * p + tm.core % 2 else tm.core })
        ∧ (∀ i < 2, ∀ k < 2048, ∀ th, Tbl.look s.threads (threadKey (2 * pair + i) k) = some th →
            Tbl.look t.threads (threadKey (2 * p + i) k) = some th ∧ Tbl.look t.threads (threadKey (2 * pair + i) k) = none)
        ∧ (∀ i < 2, ∀ g < 64, ∀ y, Tbl.look s.gangs (gangKey (2 * pair + i) g) = some y →
            Tbl.look t.gangs (gangKey (2 * p + i) g) = some y)
        ∧ (∀ i < 2, t.core (2 * p + i) = { s.core (2 * pair + i) with
            banks := (s.core (2 * p + i)).banks, cycle := (s.core (2 * p + i)).cycle, temp := (s.core (2 * p + i)).temp
            l1 := [], tlb := [], monitor := {}, halted := false, hot := false })
        ∧ ((t.die (pair / 32)).sparepr.getLsbD (pair % 32) = true) ∧ ((t.die (p / 32)).sparepr.getLsbD (p % 32) = false)))

/-! ## Events of the tile units -/

/-- Derived from R285, R286, R292 to R295, R298, R301 to R303, R325 to R327, R359 and log entries 38, 103, 104, 116, 117:
the events of a copy. A copy whose slices have arrived is checked, and fails, queues or asks for leave, a request that
it takes back counting as waited; a queued copy starts when it is first on its TCU channel; each unit is written
whole, or the copy fails there; a slice that comes late and differs fails it; requests of one cycle queue in ascending
core; the end of a copy is told to the threads that hold it and raises CHSEQ. A sealed partition's requests are
granted in their order. The prefix that counts as written after a unit, up to the end of the copy (log entry 103),
which of a unit's accesses is reported where several fail (log entries 38 and 104), that a wait counts in LVWAIT when
the request leaves the queue (log entry 116), and the grant of 0 AE where sealed pairs use up the budget (log entry
117), are the model's choices. -/
def Obligations.CopyEventResults : Prop :=
  (∀ (s : State) (id : Nat) (x : Copy), s.copy id = some x → (∀ e ∈ s.copies, e.2.id = e.1) → x.kind.isColl = false →
    let g := s.grid (s.team x.team).grid
    let err := fun (cause : Nat) (wr stage2 : Bool) (a : DWord) => (⟨0x13, BitVec.ofNat 32 (8 * x.chan + 32 * cause + 256 * b2n wr + 512 * b2n stage2), a, 0⟩ : CopyErr)
    let home := dieOf (s.team x.team).core
    let fails := fun (t : State) (y : Copy) (e : CopyErr) => t.copy id = some { y with st := .failed, err := some e }
      ∧ (∀ n, n ≠ id → t.copy n = s.copy n)
      ∧ (∀ d, t.die d = if d = home then { s.die d with queue := (s.die d).queue.filter (fun q => q.id != id) } else s.die d)
      ∧ ∀ n, t.ctx n = { s.ctx n with
          lvwait := (((s.die home).queue.filter (fun q => q.id == id && q.ctx == n)).map (fun q => BitVec.ofNat 64 ((s.time - q.since) / 1000))).foldl
            (· + ·) (s.ctx n).lvwait }
    (x.st = .collecting → s.allArrived x = true → ∃ t, exec (.copyCheck id) s = .next t
      ∧ (∀ b, x.breach g = some b → fails t x (err b.1 b.2.1 false b.2.2)
          ∧ t = { s with copies := t.copies, dies := t.dies, ctxs := t.ctxs, agenda := s.agenda ++ [.event (.copyComplete id)] })
      ∧ (x.breach g = none → t = { s with copies := t.copies, agenda := t.agenda, ids := t.ids })
      ∧ (x.breach g = none → 1048576 ≤ x.moved → t.copy id = some { x with st := .leave }
          ∧ t.agenda = s.agenda ++ [.event (.leaveRequest id)] ∧ ∀ n, n ≠ id → t.copy n = s.copy n)
      ∧ (x.breach g = none → x.moved < 1048576 → (∃ r, t.copy id = some { x with st := .queued, ready := r })
          ∧ t.agenda = s.agenda ++ [.event (.copyDeliver id)]
          ∧ ∀ n y, n ≠ id → s.copy n = some y → ∃ r, t.copy n = some { y with ready := r }))
    ∧ (x.st ≠ .collecting → x.st.ended = false → x.mismatch = true → ∃ t, exec (.copyCheck id) s = .next t ∧ fails t x (err 6 false false 0)
      ∧ t = { s with copies := t.copies, dies := t.dies, ctxs := t.ctxs, agenda := s.agenda ++ [.event (.copyComplete id)] })
    ∧ ((x.st = .collecting ∧ s.allArrived x = false ∨ x.st ≠ .collecting ∧ (x.st.ended = true ∨ x.mismatch = false)) →
      exec (.copyCheck id) s = .next s)
    ∧ (x.st = .queued → x.ready.isSome = true → (∀ y ∈ Tbl.vals s.copies, y.st = .queued → y.ready.isSome = true) →
      (∀ y ∈ Tbl.vals s.copies, y.id ≠ id → y.chan = x.chan → s.tcuOf y = s.tcuOf x →
        y.st ≠ .delivering ∧ (y.st = .queued → y.ready.getD 0 ≥ x.ready.getD 0)) →
      ∃ t, exec (.copyDeliver id) s = .next t ∧ t.copy id = some { x with st := .delivering, tcu := some (s.tcuOf x) }
        ∧ (∀ n, n ≠ id → t.copy n = s.copy n) ∧ t = { s with copies := t.copies, agenda := s.agenda ++ [.event (.copyUnitWrite id)] })
    ∧ (∀ u, x.st = .delivering → x.coll = none → x.nextUnit g = some u →
      let es := x.unitElems g u
      let y := { x with unit := u + 1, wp := min (32 * (u + 1)) (x.endOffset g) }
      (∀ e, s.writeUnit x es (s.copyValue x) = .error e → ∃ w t, exec (.copyUnitWrite id) s = .next t
        ∧ fails t { x with wp := 32 * u } (err e.cause e.wr e.stage2 e.addr) ∧ (e.cause ≠ 5 → w = s) ∧ w = s.settleUnit x e
        ∧ t = { w with copies := t.copies, dies := t.dies, ctxs := t.ctxs, agenda := s.agenda ++ [.event (.copyComplete id)] })
      ∧ (∀ w, s.writeUnit x es (s.copyValue x) = .ok w → ∃ z t, w.copy id = some z ∧ z = { x with srcRun := z.srcRun, dstRun := z.dstRun }
        ∧ exec (.copyUnitWrite id) s = .next t ∧ t.copy id = some { z with unit := y.unit, wp := y.wp } ∧ (∀ n, n ≠ id → t.copy n = w.copy n)
        ∧ t = { w with copies := t.copies, agenda := s.agenda ++ [.event (if (y.nextUnit g).isNone then .copyComplete id else .copyUnitWrite id)] }))
    ∧ ((x.st = .failed ∨ x.st = .delivering ∧ x.nextUnit g = none) → x.told = false →
      ∃ t, exec (.copyComplete id) s = .next t
        ∧ (∃ y, t.copy id = some y ∧ y.told = true ∧ y.st = (if x.st = .failed then .failed else .completed)
          ∧ y.err = x.err.map (fun e => { e with stamp := s.ids }))
        ∧ (∀ k ∈ s.teamThreads x.team, ∃ th, Tbl.look t.threads k = some th ∧ Tbl.look th.copies id = none
            ∧ th = { Tbl.at s.threads k {} with copies := th.copies, openErr := th.openErr, batchErr := th.batchErr })
        ∧ Tbl.at (t.team x.team).chseq x.chan 0 = Tbl.at (s.team x.team).chseq x.chan 0 + 1
        ∧ Tbl.look (t.die (dieOf (s.team x.team).core)).permits id = none
        ∧ t = { s with
          copies := t.copies, ids := t.ids, threads := t.threads, gangs := t.gangs, teams := t.teams, dies := t.dies, agenda := t.agenda }))
  ∧ (∀ (s : State) (id : Nat) (x : Copy), s.copy id = some x → x.st = .leave →
    let m := s.team x.team
    let d := dieOf m.core
    (∀ q ∈ (s.die d).queue, q.id ≠ id) → ∃ t a b, exec (.leaveRequest id) s = .next t
      ∧ (s.die d).queue = a ++ b ∧ t.die d = { s.die d with queue := a ++ ⟨id, true, m.core, 1, s.teamCtx m, s.time⟩ :: b }
      ∧ (∀ q ∈ a, s.sameCycle q.core q.since = true → q.core ≤ m.core)
      ∧ (∀ q, b.head? = some q → s.sameCycle q.core q.since = true ∧ m.core < q.core)
      ∧ (∀ e, e ≠ d → Tbl.look t.dies e = Tbl.look s.dies e)
      ∧ t = { s with dies := t.dies, agenda := s.agenda ++ [.event (.leaveGrant d)] })
  ∧ (∀ (s : State) (d : Nat) (r q : LeaveReq), (s.die d).queue = [r, q] → r.id ≠ q.id → s.isSealed r.ctx = true → s.isSealed q.ctx = true →
    (s.ctx q.ctx).part = (s.ctx r.ctx).part →
    2 * s.sealedPairs d (s.ctx r.ctx).part < s.heldAE d (fun c => (s.ctx c).part == (s.ctx r.ctx).part) + r.cost →
    exec (.leaveGrant d) s = .next s)
  ∧ (∀ (s : State) (d : Nat), (∀ r ∈ (s.die d).queue, s.isSealed r.ctx = false) →
    ((s.die d).queue = [] → exec (.leaveGrant d) s = .next s)
    ∧ (∀ r, (s.die d).queue = [r] →
      let cost := min (min r.cost (s.openBudget d)) (s.die d).ramp
      let held := s.heldAE d (fun x => !s.isSealed x)
      (s.openBudget d < held + cost → exec (.leaveGrant d) s = .next s)
      ∧ (held + cost ≤ s.openBudget d → s.window d + cost ≤ (s.die d).ramp → ∃ t, exec (.leaveGrant d) s = .next t
        ∧ t.die d = { s.die d with
          queue := [], permits := Tbl.put (s.die d).permits r.id (cost, r.ctx), recent := (s.die d).recent ++ [(s.timebase, cost)] }
        ∧ (t.ctx r.ctx).lvwait = (s.ctx r.ctx).lvwait + BitVec.ofNat 64 ((s.time - r.since) / 1000)
        ∧ (r.isCopy = true → (let u : State := { s with copies := Tbl.adjust s.copies r.id (fun x => { x with st := .queued }) }
            t.copies = u.markReady.copies ∧ t.ids = u.markReady.ids) ∧ Act.event (.copyDeliver r.id) ∈ t.agenda)
        ∧ (r.isCopy = false → t.copies = s.copies ∧ t.ids = s.ids ∧ (t.core r.core).fifo = (s.core r.core).fifo.map (fun e => if e.id == r.id then { e with leave := 2 } else e)
          ∧ Act.event (.mmaStart r.core) ∈ t.agenda)
        ∧ t = { s with dies := t.dies, ctxs := t.ctxs, copies := t.copies, cores := t.cores, ids := t.ids, agenda := t.agenda })))

/-- Derived from R248, R309, R312, R315, R316, R321, R322, R325, R330 and log entries 6 and 45: the events of the matrix
FIFO. The head of a FIFO asks for leave when it is large, starts, fetches and pins the lines of its operands step by
step, and arrives once it has them all: the accumulators are written, pins and permit go, and its barrier object takes
the arrival; an `mzero` at the head clears its accumulators. A line hidden in a sealed partition's way, and a bad
line, are read without a pin. A fetch that finds its set full waits, as long as a holder there goes on or waits for
one that does. That the fetch of a core whose waits close gives up its own earliest pin (log entry 45), and what
`compute` reads for bytes with an error (log entry 6), are the model's choices. -/
def Obligations.MatrixEventResults : Prop :=
  ∀ (s : State) (c : Nat) (e : FifoEntry) (rest : List FifoEntry), (s.core c).fifo = e :: rest →
    let team := s.team e.team
    let g := s.grid team.grid
    (∀ first count, e.op = .mzero first count → ∃ t, exec (.mzeroComplete c) s = .next t
      ∧ t.core c = { s.core c with
          fifo := rest, acc := (t.core c).acc, accPoison := (t.core c).accPoison, accBad := (t.core c).accBad }
      ∧ (∀ i, (t.core c).accAt i = if first ≤ i ∧ i < first + count then (0, false) else (s.core c).accAt i)
      ∧ (∀ d, d ≠ c → Tbl.look t.cores d = Tbl.look s.cores d) ∧ t = { s with cores := t.cores, l2 := t.l2, agenda := t.agenda }
      ∧ (e.pins = [] → t.l2 = s.l2))
    ∧ (s.headEvent c = some (.mmaStart c) → e.op.paired = false → ∃ t, exec (.mmaStart c) s = .next t
      ∧ t.core c = { s.core c with fifo := { e with started := true, ready := e.readySteps g } :: rest, arrayAt := 0 }
      ∧ (∀ d, d ≠ c → Tbl.look t.cores d = Tbl.look s.cores d)
      ∧ ∃ i, t.headEvent c = some i ∧ (e.requests g = [] → i = .mmaArrive c)
        ∧ t = { s with cores := t.cores, agenda := s.agenda ++ [.event i] })
    ∧ (s.copy e.id = none → s.cores.find? (fun k => (k.2.fifo.head?).any (fun h => h.id == e.id && !h.follower)) = some (c, s.core c) →
      e.op.paired = false → e.op.large g = true → e.leave = 0 → e.started = false → (∀ q ∈ (s.die (dieOf c)).queue, q.id ≠ e.id) →
      ∃ t a b, exec (.leaveRequest e.id) s = .next t ∧ t.core c = { s.core c with fifo := { e with leave := 1 } :: rest }
        ∧ (s.die (dieOf c)).queue = a ++ b
        ∧ t.die (dieOf c) = { s.die (dieOf c) with queue := a ++ ⟨e.id, false, c, 1, s.teamCtx team, s.time⟩ :: b }
        ∧ (∀ q ∈ a, s.sameCycle q.core q.since = true → q.core ≤ c)
        ∧ (∀ q, b.head? = some q → s.sameCycle q.core q.since = true ∧ c < q.core)
        ∧ t = { s with cores := t.cores, dies := t.dies, agenda := s.agenda ++ [.event (.leaveGrant (dieOf c))] })
    ∧ (∀ m n ks cbase acc had user a b off va, e.op = .mma m n ks cbase acc had false user a b off → e.started = true →
      e.follower = false →
      let cx := s.teamCtx team
      let need : Need := { load := true, user := user }
      ((∀ r ∈ s.pendingLines c, r.2 ≠ va / 64) → exec (.tfuFetch c va) s = .next s)
      ∧ (∀ mp k ls, s.pendingLines c = (k, va / 64) :: ls → s.walk cx need va = .ok mp →
        let line := mp.pa / 64
        let v := s.walkMet cx true va
        let w := (v.l2Touch c cx mp.key line).refetch cx line (v.sharedAt mp.perm2 mp.key mp.pa)
        let goes := fun (u t : State) (held : List (Nat × Nat)) (early : List ((Bool × Nat) × List (Byte × Bool))) =>
          let gone := if (∃ q, ls.head? = some q ∧ q.1 = k) then [] else held.filter (fun p => !ls.any (fun q => q.2 == p.1))
          exec (.tfuFetch c va) s = .next t ∧ t = { u with l2 := t.l2, cores := t.cores, agenda := t.agenda }
            ∧ t.core c = { u.core c with fifo := { e with
                fetched := e.fetched + 1, pins := held.filter (fun p => !gone.contains p), ready := (ls.head?.map (·.1)).getD ks, early := early } :: rest }
            ∧ (∀ n, Tbl.look t.l2 n = (Tbl.look u.l2 n).map (fun y => { y with
                pins := y.pins + (held.filter (fun p => p.2 == n && !e.pins.contains p)).length - (gone.filter (fun p => p.2 == n)).length }))
        (s.anyBad = false → v = s)
        ∧ (isSystem mp.pa = true ∨ (va / 64, line) ∈ e.pins ∨ v.l2Hidden cx line = true → ∃ t, goes v t e.pins e.early)
        ∧ ((va / 64, line) ∉ e.pins → isSystem mp.pa = false → v.l2Hidden cx line = false →
          (v.setPinned line = false → w.l2Bad cx (64 * line) 64 = false →
            ∃ t, goes w t (if (Tbl.look w.l2 line).isNone then e.pins else e.pins ++ [(va / 64, line)]) e.early)
          ∧ (v.setPinned line = false → w.l2Bad cx (64 * line) 64 = true →
            ∃ t early, goes ((w.keepWords c e va).settleLine cx line) t e.pins early
              ∧ ∀ i < 16, ∀ bs, (List.range 4).mapM (fun j => w.operandByte e true ((4 * (16 * (va / 64) + i) + j : Nat) : Int)) = .ok bs →
                FifoEntry.readEarly { e with early := early } true (16 * (va / 64) + i) = some ((e.readEarly true (16 * (va / 64) + i)).getD bs))
          ∧ (v.setPinned line = true →
            (∀ h, v.pinHolder c line = some h → ∃ t, exec (.tfuFetch c va) s = .next t ∧ t = { v with agenda := t.agenda })
            ∧ (∀ k ∈ v.holders c line, ∀ l h, (v.stuckLine k = none ∨ v.stuckLine k = some l ∧ h ∈ v.holders k l ∧ h ≠ c ∧ v.stuckLine h = none) →
              (v.pinHolder c line).isSome = true)
            ∧ (v.pinHolder c line = none → e.pins = [] → ∃ t, exec (.tfuFetch c va) s = .next t ∧ t = { v with agenda := t.agenda })
            ∧ (∀ p, v.pinHolder c line = none →
              ((e.pins.find? (fun p => l2Place (64 * p.2) == l2Place (64 * line))).or e.pins.head?) = some p →
              ∃ t, exec (.tfuFetch c va) s = .next t ∧ t = { v with l2 := t.l2, cores := t.cores, agenda := t.agenda }
                ∧ t.core c = { v.core c with fifo := { e with pins := e.pins.erase p } :: rest }
                ∧ t.l2 = Tbl.adjust v.l2 p.2 (fun l => { l with pins := l.pins - 1 })))))
      ∧ (∀ r, (∃ q ∈ s.pendingLines c, q.2 = va / 64) → s.walk cx need va = .error r →
        let u := s.walkMet cx (r != (9, false)) va
        ∃ t f, exec (.tfuFetch c va) s = .next t
          ∧ t.core c = { u.core c with fifo := f :: rest } ∧ f = { e with status := f.status, cfaddr := BitVec.ofNat 64 va, ready := ks }
          ∧ (∀ i < 16, f.status.getLsbD i = (e.status.getLsbD i || decide (i = if r.1 = 8 then 2 else 3) || (r.2 && decide (i = 1))))
          ∧ t = { u with cores := t.cores, agenda := s.agenda ++ [.event (.mmaArrive c)] })
      ∧ (s.pendingLines c ≠ [] → exec (.mmaArrive c) s = .next s)
      ∧ (s.pendingLines c = [] → ∃ t f, exec (.mmaArrive c) s = .next t ∧ (s.compute c e).2 = f
        ∧ (t.core c).fifo = rest ∧ (∀ i, (t.core c).accAt i = ((s.compute c e).1.core c).accAt i)
        ∧ (s.anyBad = false → (s.compute c e).1.operandsMet e = (s.compute c e).1)
        ∧ t.free = s.free + m * n
        ∧ t.team e.team = team.arrive off (if f.status >>> 2 = 0 then f.status else f.status ||| 1)
            (if f.fetchFault then some f.cfaddr else none)
        ∧ (∀ k, k ≠ e.team → Tbl.look t.teams k = Tbl.look s.teams k)
        ∧ Tbl.look (t.die (dieOf c)).permits e.id = none ∧ (e.pins = [] → t.l2 = ((s.compute c e).1.operandsMet e).l2)
        ∧ t = { (s.compute c e).1.operandsMet e with
          cores := t.cores, teams := t.teams, dies := t.dies, l2 := t.l2, agenda := t.agenda }))

/-! ## Events of the fabric -/

/-- Derived from R387 to R390, R396, R400 to R403 and log entries 23 and 57: messages. A message to a context that moved
is turned away with its new place, one to a context that is not enabled yet is held until it is, and one that came
before is discarded; a segment that precedes its set-up is kept; a set-up is kept for its collective; a segment lands
and is kept, or waits for room; an acknowledgement is noted; a redirect mends the rank table and sends the message it
names again, and one that came before is discarded; a reserved kind is counted; what is in flight on a port that goes
down is sent again, and a device whose ports are all down is lost. The layout of the messages' data and tags (log
entry 23), and that a message to a context that is not enabled yet is held, for the enabling to bring back (log entry
57), are the model's choices. -/
def Obligations.FabricMessageResults : Prop :=
  (∀ (s : State) (m : Msg) (p : Nat × Nat), (s.ctx m.dctx.toNat).movedTo = some p →
    ∀ i ∈ [Instr.setup m, .collectiveChunk m], ∃ t port, exec i s = .next t ∧ t = { s with
      outbox := s.outbox ++ [(port, {
        kind := 4, sdev := s.devId, ddev := m.sdev, dctx := 0, chunk := 0, tag := m.tag
        xtra := BitVec.ofNat 32 (p.1 % 512 + 2 ^ 16 * (p.2 % 4096))
        data := [m.kind.toNat, m.chunk.toNat, m.xtra.toNat % 4].flatMap (leBytes 8) })] })
  ∧ (∀ (s : State) (m : Msg), (s.ctx m.dctx.toNat).movedTo = none → (s.ctx m.dctx.toNat).arriving = true →
    ∀ i ∈ [Instr.setup m, .collectiveChunk m], exec i s = .next { s with held := s.held ++ [(m.dctx.toNat, .event i)] })
  ∧ (∀ (s : State) (m : Msg), (s.ctx m.dctx.toNat).movedTo = none → (s.ctx m.dctx.toNat).arriving = false →
    (msgName m ∈ s.received → exec (.setup m) s = .next s ∧ exec (.collectiveChunk m) s = .next s)
    ∧ (msgName m ∉ s.received →
      let u := { s with received := s.received ++ [msgName m] }
      ((∀ y ∈ Tbl.vals s.copies, ∀ w ∈ s.setups ++ [m], s.namedBy y w = false) →
        exec (.setup m) s = .next { u with setups := s.setups ++ [m] })
      ∧ (∀ x, s.setups = [] → (Tbl.vals s.copies).find? (fun y => s.namedBy y m) = some x → exec (.setup m) s = .next (u.takeSetup x.id m))
      ∧ (s.chunkOwner m false = none → exec (.collectiveChunk m) s = .next (if m ∈ s.early then s else { s with early := s.early ++ [m] }))
      ∧ (∀ x c partner, s.chunkOwner m false = some (x, c, partner) → m.tag.toNat % 8 ≠ 1 → partner ≠ 512 →
        let q := m.chunk.toNat
        let seg := m.xtra.toNat % 4 + (if 4 ≤ m.tag.toNat % 8 then 4 else 0)
        (s.landChunk x c partner q = none → exec (.collectiveChunk m) s = .next { s with agenda := s.agenda ++ [.event (.collectiveChunk m)] })
        ∧ (∀ w, s.landChunk x c partner q = some w → x.st ≠ .delivering → ∃ t d, exec (.collectiveChunk m) s = .next t
          ∧ t = { w with received := s.received ++ [msgName m], copies := t.copies } ∧ t.copy x.id = some { x with coll := some d }
          ∧ d = { c with landed := d.landed, heard := Tbl.put c.heard partner s.timebase, owed := d.owed }
          ∧ d.seg partner q seg = some ((c.seg partner q seg).getD m.data)
          ∧ ∀ a, a ≠ (partner, q, seg) → d.seg a.1 a.2.1 a.2.2 = c.seg a.1 a.2.1 a.2.2))))
  ∧ (∀ (s : State) (id : Nat) (m : Msg) (x : Copy) (c : Coll), s.copy id = some x → x.id = id → x.coll = some c → ctlWord m 0 = 0 →
    x.st = .checking → x.kind.isColl = true →
    (m.data.drop 48 = (x.setupBody c).flatMap (leBytes 8) → (Tbl.put c.setups (ctlWord m 5) (m.tag.toNat / 8)).length + 1 < c.size →
      (s.takeSetup id m).copy id = some { x with coll := some { c with
        setups := Tbl.put c.setups (ctlWord m 5) (m.tag.toNat / 8), heard := Tbl.put c.heard (ctlWord m 5) s.timebase } })
    ∧ (m.data.drop 48 ≠ (x.setupBody c).flatMap (leBytes 8) → ∃ y, (s.takeSetup id m).copy id = some y ∧ y.st = .failed
        ∧ y.err = some ⟨0x15, BitVec.ofNat 32 (8 * x.chan + 32 * 8), x.aux, 0⟩))
  ∧ (∀ (s : State) (m : Msg),
    (s.chunkOwner m true = none → exec (.chunkAcknowledgement m) s = .next s)
    ∧ (∀ x c r, s.chunkOwner m true = some (x, c, r) → ∃ t d, exec (.chunkAcknowledgement m) s = .next t
      ∧ t.copy x.id = some { x with coll := some d }
      ∧ d = { c with unacked := c.unacked.filter (· != (r, m.tag.toNat % 8, m.chunk.toNat)), heard := Tbl.put c.heard r s.timebase }
      ∧ (∀ n, n ≠ x.id → t.copy n = s.copy n)
      ∧ t = { s with copies := t.copies, agenda := s.agenda ++ (if d.unacked = [] then [.event (.collectiveComplete x.id)] else []) }))
  ∧ (∀ (s : State) (m : Msg),
    let sent := s.outbox.filter (fun o => o.2.ddev == m.sdev && o.2.tag == m.tag && o.2.kind.toNat == ctlWord m 0
      && o.2.chunk.toNat == ctlWord m 1 && o.2.xtra.toNat % 4 == ctlWord m 2)
    let dev := m.xtra.toNat % 2 ^ 9
    let new := m.xtra.toNat / 2 ^ 16 % 2 ^ 12
    (sent = [] ∨ nackName m ∈ s.received → exec (.nackWithRedirect m) s = .next s)
    ∧ (∀ o, sent.getLast? = some o → nackName m ∉ s.received → ∃ t port, exec (.nackWithRedirect m) s = .next t
      ∧ t = { s with
          ctxs := t.ctxs, received := s.received ++ [nackName m], outbox := s.outbox ++ [(port, { o.2 with ddev := BitVec.ofNat 9 dev, dctx := BitVec.ofNat 12 new })] }
      ∧ ∀ d r, let e := Tbl.at (s.ctx d).ranks r 0
        Tbl.at (t.ctx d).ranks r 0 = if e.getLsbD 31 = true ∧ e.extractLsb' 20 9 = m.sdev ∧ e.toNat % 2 ^ 12 = o.2.dctx.toNat
          then BitVec.ofNat 32 (2 ^ 31 + dev * 2 ^ 20 + new) else e))
  ∧ (∀ (s : State) (m : Msg), exec (.reservedKindDiscard m) s
    = .next (if m.kind.toNat = 0 ∨ 12 ≤ m.kind.toNat then { s with fabdrop := BitVec.ofNat 32 (min (s.fabdrop.toNat + 1) (2 ^ 32 - 1)) } else s))
  ∧ (∀ (s : State) (dev port : Nat), port < 32 → ∃ t, exec (.portDown dev port) s = .next t
    ∧ (∀ i < 32, (Tbl.at t.peerDown dev 0).getLsbD i = ((Tbl.at s.peerDown dev 0).getLsbD i || decide (i = port)))
    ∧ (∀ d, d ≠ dev → Tbl.look t.peerDown d = Tbl.look s.peerDown d)
    ∧ (∀ i < 32, t.portsUp.getLsbD i = (s.portsUp.getLsbD i && decide ¬ (dev = s.devId.toNat ∧ i = port)))
    ∧ t = { s with peerDown := t.peerDown, portsUp := t.portsUp, outbox := t.outbox, agenda := t.agenda }
    ∧ (dev ≠ s.devId.toNat → t.outbox = s.outbox)
    ∧ (dev = s.devId.toNat → ∀ o ∈ s.outbox, (o.1 ≠ port ∨ s.inFlight o.2 = false → o ∈ t.outbox)
      ∧ (o.1 = port → s.inFlight o.2 = true → ∃ p, (p, o.2) ∈ t.outbox
        ∧ (o.2.ddev ≠ 0x1FF → t.portsUp ≠ 0 → t.portsUp.getLsbD p = true)))
    ∧ (if Tbl.at t.peerDown dev 0 ≠ 0xFFFFFFFF then t.agenda = s.agenda else
        ∀ x ∈ Tbl.vals s.copies, ∀ c, x.coll = some c → ∀ r < c.size, ∀ n,
          rankPlace (s.ctx (s.teamCtx (s.team x.team))) (c.base + r) = some (dev, n) → Act.event (.memberLost x.id r) ∈ t.agenda))

/-- Derived from R388, R396, R398 to R405 and log entries 23, 70, 71: switch slots, lost members and the end of a
collective. Member 0 asks all switches; the last grant makes the switch the algorithm, and one that comes after the
end goes back; a refusal gives the slots back and falls back or fails; an answer that came before is discarded, and a
refusal of an ended collective changes nothing; a lost member that had done its part is left behind, and otherwise the
collective fails with cause 9, under the switch once the results have been waited for; the end writes the status
record, where LOST is the lowest lost rank, and tells the threads. The tags of the messages, 8 times the copy's number
and a role (log entry 23), that a failure is told to every rank that can be named (log entry 70), and the moment from
which the results of the switch are waited for (log entry 71), are the model's choices. -/
def Obligations.CollectiveEventResults : Prop :=
  ∀ (s : State) (id : Nat) (x : Copy) (c : Coll), s.copy id = some x → (∀ e ∈ s.copies, e.2.id = e.1) → x.coll = some c →
    x.kind.isColl = true →
    let fails := fun (t : State) (cause : Nat) => ∃ y, t.copy id = some y ∧ y.st = .failed
      ∧ y.err = some ⟨0x15, BitVec.ofNat 32 (8 * x.chan + 32 * cause), x.aux, 0⟩
    let same := fun (t : State) => ∀ n, n ≠ id → t.copy n = s.copy n
    let gives := fun (t : State) (ps : List Nat) => ∃ l l', t.outbox = s.outbox ++ l ++ l' ∧ l.length = ps.length
      ∧ ∀ o ∈ l, o.2.kind = 8 ∧ o.2.tag = BitVec.ofNat 32 (8 * id) ∧ o.2.sdev = s.devId
    (x.st.ended = false → c.algo = none → c.asking = [] → c.group.head? = some c.rank → ∃ t l, exec (.slotRequest id) s = .next t
      ∧ t = { s with copies := t.copies, outbox := s.outbox ++ l } ∧ l.length = 32 ∧ (∀ o ∈ l, o.2.kind = 5 ∧ o.2.tag = BitVec.ofNat 32 (8 * id))
      ∧ t.copy id = some { x with coll := some { c with asking := List.range 32 } } ∧ same t)
    ∧ (∀ sw,
      let granted := { s with received := s.received ++ [slotName id sw 6] }
      let refused := { s with received := s.received ++ [slotName id sw 7] }
      (slotName id sw 6 ∈ s.received → exec (.slotGrant id sw) s = .next s)
      ∧ (slotName id sw 7 ∈ s.received → exec (.slotNack id sw) s = .next s)
      ∧ (slotName id sw 6 ∉ s.received →
        (x.st.ended = true ∨ sw ∉ c.asking → ∃ t, exec (.slotGrant id sw) s = .next t ∧ t = { granted with outbox := t.outbox } ∧ gives t [sw])
        ∧ (x.st.ended = false → sw ∈ c.asking → c.asking.filter (· != sw) ≠ [] → ∃ t, exec (.slotGrant id sw) s = .next t
          ∧ t = { granted with copies := t.copies }
          ∧ t.copy id = some { x with coll := some { c with asking := c.asking.filter (· != sw), grants := c.grants ++ [sw] } } ∧ same t)
        ∧ (x.st.ended = false → sw ∈ c.asking → c.asking.filter (· != sw) = [] → x.st ≠ .delivering → ∃ t, exec (.slotGrant id sw) s = .next t
          ∧ t = { granted with copies := t.copies, outbox := t.outbox } ∧ same t
          ∧ t.copy id = some { x with coll := some { c with asking := [], grants := c.grants ++ [sw], algo := some 3, fixedAt := s.timebase } }))
      ∧ (slotName id sw 7 ∉ s.received →
        (x.st.ended = true ∨ sw ∉ c.asking → exec (.slotNack id sw) s = .next refused)
        ∧ (sw ∈ c.asking → x.st ≠ .delivering → x.st.ended = false → ∃ t, exec (.slotNack id sw) s = .next t
          ∧ t = { refused with copies := t.copies, outbox := t.outbox, agenda := t.agenda, dies := t.dies, ctxs := t.ctxs } ∧ same t ∧ gives t c.grants
          ∧ (if x.algReq = 3 then fails t 10 else t.ctxs = s.ctxs ∧ t.copy id = some { x with coll := some { c with
              asking := [], grants := [], algo := some (if c.group.length ≤ 8 then 2 else 1), fallback := true, fixedAt := s.timebase } }))))
    ∧ (x.st.ended = true → ∃ t, exec (.slotRelease id) s = .next t ∧ t = { s with copies := t.copies, outbox := t.outbox } ∧ same t
      ∧ gives t c.grants ∧ t.copy id = some { x with coll := some { c with grants := [] } })
    ∧ (∀ r, x.st.ended = false → r ≠ c.rank → r < c.size → (Tbl.look c.doubt r = none → r ∉ c.gone) → ∃ t,
      exec (.memberLost id r) s = .next t ∧ same t
      ∧ t = { s with copies := t.copies, outbox := t.outbox, agenda := t.agenda, dies := t.dies, ctxs := t.ctxs }
      ∧ (let doubted := (Tbl.look c.doubt r).isSome
        let had := c.hadAll x r
        let left := { c with
          gone := if doubted then c.gone else c.gone ++ [r], unacked := c.unacked.filter (fun u => u.1 != r)
          doubt := if c.algo = some 3 ∧ had = false ∧ doubted = false then Tbl.put c.doubt r s.timebase else Tbl.drop c.doubt r }
        if had then t.outbox = s.outbox ∧ t.agenda = s.agenda ++ [.event (.copyUnitWrite id)] ∧ t.copy id = some { x with coll := some left }
        else if c.algo = some 3 ∧ doubted = false then t = { s with copies := t.copies } ∧ t.copy id = some { x with coll := some left }
        else fails t 9 ∧ t.agenda = s.agenda ++ [.event (.collectiveComplete id)]))
    ∧ (∀ partner role q segs, partner ∈ c.gone → s.sendChunk x partner role q segs = s)
    ∧ (x.told = false → (x.st = .failed ∨ x.st = .delivering ∧ c.unacked = [] ∧ x.nextUnit (s.grid (s.team x.team).grid) = none) →
      let y := if x.st = .failed then x else { x with st := .completed }
      ∃ t, exec (.collectiveComplete id) s = .next t
        ∧ (∃ z, t.copy id = some z ∧ z.told = true ∧ z.st = y.st)
        ∧ (x.aux.toNat % 16 = 0 → x.aux.toNat + 16 ≤ (s.grid (s.team x.team).grid).scrsize →
            ∀ i < 16, (t.team x.team).spadByte (x.aux.toNat + i) = y.statusBytes.getD i 0)
        ∧ (x.causeOf = 9 → ∀ r ∈ c.gone, r < 2 ^ 16 → leNat ((y.statusBytes.drop 6).take 2) ≤ r)
        ∧ (∀ o, (o < x.aux.toNat ∨ x.aux.toNat + 16 ≤ o) → (t.team x.team).spadByte o = (s.team x.team).spadByte o)
        ∧ (∀ k ∈ s.teamThreads x.team, ∃ th, Tbl.look t.threads k = some th ∧ Tbl.look th.copies id = none)
        ∧ Tbl.at (t.team x.team).chseq x.chan 0 = Tbl.at (s.team x.team).chseq x.chan 0 + 1
        ∧ (∀ l ∈ t.landing ++ t.spill, l.coll ≠ id) ∧ (c.grants ≠ [] → Act.event (.slotRelease id) ∈ t.agenda)
        ∧ t.mem = s.mem)

/-! ## The firmware harts and the host -/

/-- Derived from R248, R364 to R370 and log entries 5, 6, 61, 62, 108, 114: the Xamz instructions. In machine mode each
has its effect and the pc moves to the next word, or traps with its cause; a wait whose condition fails, with no
interrupt pending, stays; in any other mode each raises illegal-instruction. The fetch and the reads leave what they
leave of bad lines, and nothing else. The trap's registers and its target (log entry 5), firmware's address map, the
place of the descriptors and the order of the checks of `amz.qfetch` (log entry 61), the journal's record of a
binding, performed before or else by the dispatch itself (log entry 62), and where pages of virtual command processors
stand (log entry 108), and what reads and fetches meet in bad lines (log entries 6 and 114), are the model's choices. -/
def Obligations.HartInstructionResults : Prop :=
  ∀ (z : State) (n : Nat) (rd rs1 rs2 : BitVec 5), z.turn = .hart n →
    let s := z.hartMet n
    let h := z.hart n
    let a := h.get rs1
    let b := h.get rs2
    let traps := fun (i : Instr) (cause val : DWord) => ∃ t, exec i z = .next t ∧ t = { s with harts := t.harts }
      ∧ (∀ j, j ≠ n → Tbl.look t.harts j = Tbl.look z.harts j)
      ∧ t.hart n = { h with
        mepc := h.pc, mcause := cause, mtval := val, mpie := h.mie, mie := false, mppMachine := h.machine, machine := true
        pc := h.mtvec &&& ~~~3#64, cycles := h.cycles + 1 }
    let done := fun (i : Instr) (v : DWord) (u : State) => ∃ t, exec i z = .next t ∧ t = { u with harts := t.harts }
      ∧ (∀ j, j ≠ n → Tbl.look t.harts j = Tbl.look z.harts j)
      ∧ t.hart n = { h with pc := h.pc + 4, cycles := h.cycles + 1, instret := h.instret + 1, x := if rd = 0 then h.x else Tbl.put h.x rd.toNat v }
    let all := [Instr.amzQfetch rd rs1 rs2, .amzBfx rd rs1 rs2, .amzBfxS rd rs1 rs2, .amzDispatch rd rs1 rs2] ++
      (List.range 4).map (fun c => Instr.amzSigwait (BitVec.ofNat 2 c) rd rs1 rs2)
    (z.anyBad = false → s = z ∧ ∀ y k, s.fwMet y k = s)
    ∧ (h.machine = false → ∀ i ∈ all, traps i 2 ((z.hartWord n).setWidth 64))
    ∧ (h.machine = true →
      (let q := s.queue a.toNat
        let slot := q.slotAddr q.rdidx
        let desc := s.descAddr a.toNat
        (4095 < a.toNat → traps (.amzQfetch rd rs1 rs2) 24 a)
        ∧ (a.toNat ≤ 4095 → b.toNat % 64 ≠ 0 → traps (.amzQfetch rd rs1 rs2) 25 b)
        ∧ (a.toNat ≤ 4095 → b.toNat % 64 = 0 → s.fwAddr desc 64 = none → traps (.amzQfetch rd rs1 rs2) 26 (BitVec.ofNat 64 desc))
        ∧ (a.toNat ≤ 4095 → b.toNat % 64 = 0 → s.fwAddr desc 64 ≠ none → 2 ^ q.log2n < q.count → traps (.amzQfetch rd rs1 rs2) 28 a)
        ∧ (a.toNat ≤ 4095 → b.toNat % 64 = 0 → s.fwAddr desc 64 ≠ none → q.count = 0 → done (.amzQfetch rd rs1 rs2) 0 s)
        ∧ (a.toNat ≤ 4095 → b.toNat % 64 = 0 → s.fwAddr desc 64 ≠ none → q.count ≤ 2 ^ q.log2n → q.count ≠ 0 →
          (s.fwAddr slot 64 = none → traps (.amzQfetch rd rs1 rs2) 26 (BitVec.ofNat 64 slot))
          ∧ (s.fwAddr slot 64 ≠ none → s.fwAddr b.toNat 64 = none → traps (.amzQfetch rd rs1 rs2) 26 b)
          ∧ (∀ x y, s.fwAddr slot 64 = some x → s.fwAddr b.toNat 64 = some y →
              done (.amzQfetch rd rs1 rs2) (BitVec.ofNat 64 q.count) 
                ((s.fwMet x 64).fwWrite y (s.fwRead x 64)))))
      ∧ (let pos := b.toNat % 256
        let len := b.toNat / 256 % 256
        let bad := len = 0 ∨ 64 < pos + len ∨ b.toNat / 2 ^ 16 ≠ 0
        let field := a.toNat / 2 ^ pos % 2 ^ len
        (bad → traps (.amzBfx rd rs1 rs2) 27 b ∧ traps (.amzBfxS rd rs1 rs2) 27 b)
        ∧ (¬ bad → done (.amzBfx rd rs1 rs2) (BitVec.ofNat 64 field) s
          ∧ done (.amzBfxS rd rs1 rs2) (BitVec.ofInt 64 (if 2 ^ (len - 1) ≤ field then (field : Int) - 2 ^ len else field)) s))
      ∧ (∀ c : BitVec 2,
        (a.toNat % 8 ≠ 0 → traps (.amzSigwait c rd rs1 rs2) 25 a)
        ∧ (a.toNat % 8 = 0 → s.fwAddr a.toNat 8 = none → traps (.amzSigwait c rd rs1 rs2) 26 a)
        ∧ (∀ y, a.toNat % 8 = 0 → s.fwAddr a.toNat 8 = some y →
          let v := (BitVec.ofNat 64 (leNat (s.fwRead y 8))).toInt
          let holds := if c = 0 then v = b.toInt else if c = 1 then v ≠ b.toInt else if c = 2 then v < b.toInt else b.toInt ≤ v
          (holds → done (.amzSigwait c rd rs1 rs2) 1 (s.fwMet y 8))
          ∧ (¬ holds → h.irq = true → done (.amzSigwait c rd rs1 rs2) 0 (s.fwMet y 8))
          ∧ (¬ holds → h.irq = false → exec (.amzSigwait c rd rs1 rs2) z = .next (s.fwMet y 8))))
      ∧ ((255 < b.toNat → traps (.amzDispatch rd rs1 rs2) 24 b)
        ∧ (b.toNat ≤ 255 → a ≠ BitVec.allOnes 64 → 4095 < a.toNat → traps (.amzDispatch rd rs1 rs2) 24 a)
        ∧ (b.toNat ≤ 255 → a = BitVec.allOnes 64 ∨ a.toNat ≤ 4095 →
          let old := Tbl.look s.hwSlots b.toNat
          let busy := ∃ q, old = some q ∧ ∃ y ∈ s.begun, y.queue = q
          let made := s.bindRecord b.toNat a
          let settles := fun (v w u : State) (n : Nat) => (∀ m, m ∈ u.unmade ↔ m ∈ w.unmade ∧ m.seq.toNat ≠ n) ∧ u = { v with unmade := u.unmade }
          (busy → done (.amzDispatch rd rs1 rs2) 1 s)
          ∧ (¬ busy → a ≠ BitVec.allOnes 64 → old = some a.toNat →
            (made = none → done (.amzDispatch rd rs1 rs2) 3 s) ∧ ∀ n, made = some n → ∃ u, done (.amzDispatch rd rs1 rs2) 3 u ∧ settles s s u n)
          ∧ (¬ busy → a ≠ BitVec.allOnes 64 → old ≠ some a.toNat → (∃ e ∈ s.hwSlots, e.2 = a.toNat) → done (.amzDispatch rd rs1 rs2) 2 s)
          ∧ (¬ busy → a = BitVec.allOnes 64 →
            let drops := fun (w : State) (n : Nat) => ∃ u, done (.amzDispatch rd rs1 rs2) 0 u
              ∧ settles { w with hwSlots := Tbl.drop s.hwSlots b.toNat } w u n
            (∀ n, made = some n → drops s n) ∧ (made = none → ∃ w, w = s.announce 2 b.toNat [] ∧ drops w w.journalSeq.toNat))
          ∧ (¬ busy → a ≠ BitVec.allOnes 64 → (∀ e ∈ s.hwSlots, e.2 ≠ a.toNat) →
            let binds := fun (w : State) (n : Nat) => ∃ u, done (.amzDispatch rd rs1 rs2) 0 u
              ∧ settles { w with hwSlots := Tbl.put s.hwSlots b.toNat a.toNat, agenda := u.agenda } w u n
            (∀ n, made = some n → binds s n) ∧ (made = none → ∃ w, w = s.announce 1 b.toNat [a] ∧ binds w w.journalSeq.toNat)))))

/-- Derived from R362, R363, R370 to R376, R382, R384 and log entries 62, 63, 66, 67, 93, 108: heartbeats, take-over,
doorbells, scans, resets and S2INV. A standby takes over from the first hart whose word it has seen unchanged for 50
µs: it halts that hart, makes the journalled changes that were not made, scans the pages that the hart served, and
raises a cause for each. A kicked queue with packets ends with a slot, or stays kicked. The journal's place and the
records of changes not made (log entry 62), which hart a standby watches and the ACTIVE and HALTED bits after a
take-over (log entry 63), that S2INV drops every entry of the partition's contexts (log entry 66), that a replay makes
the changes not made, in the order of the records, lets a later record of the same object have the last word, and
waits for a busy slot (log entry 67), where pages of virtual command processors stand (log entry 108), and the slot of
a kicked queue (log entry 93), are the model's choices. -/
def Obligations.FirmwareEventResults : Prop :=
  let keeps := fun (s t : State) =>
    t = { s with
      mem := t.mem, badWords := t.badWords, lineKey := t.lineKey, dirtyPages := t.dirtyPages, l2 := t.l2, cores := t.cores
      vcps := t.vcps, queues := t.queues, hwSlots := t.hwSlots, journalSeq := t.journalSeq, unmade := t.unmade, checkpoint := t.checkpoint
      agenda := t.agenda }
  let offPages := fun (s : State) => s.vcpPages = none ∨ ((∀ e ∈ s.l2, e.2.owner = none) ∧ ∀ q, ∀ i < 64, s.pageAt (s.recordAddr q + i) = none)
  (∀ (s : State) (n : Nat),
    ((4 ≤ n ∨ s.fwcActive.getLsbD n = false ∨ (s.hart n).halted = true) → exec (.heartbeat n) s = .next s)
    ∧ (n < 4 → s.fwcActive.getLsbD n = true → (s.hart n).halted = false → ∃ t, exec (.heartbeat n) s = .next t
      ∧ t.hart n = { s.hart n with heart := (s.hart n).heart + 1 } ∧ (∀ j, j ≠ n → Tbl.look t.harts j = Tbl.look s.harts j)
      ∧ t = { s with harts := t.harts }))
  ∧ (∀ (s : State) (bits : BitVec 4),
    let able := ∃ j < 4, (s.hart j).machine = true ∧ (s.hart j).halted = false
    (¬ able → exec (.fwcHalt bits) s = .next s)
    ∧ (able → ∃ t, exec (.fwcHalt bits) s = .next t ∧ t.fwcHalted = s.fwcHalted ||| bits
      ∧ (∀ n, t.hart n = { s.hart n with halted := (s.hart n).halted || (decide (n < 4) && bits.getLsbD n) })
      ∧ t = { s with harts := t.harts, fwcHalted := t.fwcHalted }))
  ∧ (∀ (s : State) (st : Nat), (st = 2 ∨ st = 3) → (s.hart st).halted = false →
    let h := s.hart st
    let fresh := fun (p : Nat) => match Tbl.look h.seen p with
      | some e => if e.1 = (s.hart p).heart then e else ((s.hart p).heart, s.timebase)
      | none => ((s.hart p).heart, s.timebase)
    let silent := fun (p : Nat) => (fresh p).2 + 50000 ≤ s.timebase
    let ends := fun (v : State) (k : Taking) (t : State) =>
      let p := k.partner
      let new := v.series k.next v.ringLen
      let r := v.replayList k.redone (k.left ++ new)
      if r.2.1 ≠ [] then t = { r.1 with harts := t.harts } ∧ (∀ j, j ≠ st → Tbl.look t.harts j = Tbl.look r.1.harts j)
        ∧ t.hart st = { r.1.hart st with taking := some ⟨p, r.2.1, k.next + new.length, r.2.2⟩ }
      else t.fwcActive.getLsbD st = true ∧ t.fwcActive.getLsbD p = false
        ∧ (t.hart st).heart = h.heart + 1 ∧ (t.hart st).taking = none ∧ t.fwcHalted = r.1.fwcHalted
        ∧ (∀ i, i ∈ t.staged ↔ i ∈ s.staged ∧ i ∉ h.loaded) ∧ ((∀ i ∈ s.staged, i ∉ h.loaded) → t.measure = s.measure)
        ∧ (∀ v ∈ Tbl.keys s.vcps, s.serverOf (v / 128) = p → ∃ g, Cause.mk v 4 g ∈ t.causes)
    (h.taking = none → (∀ p ∈ s.watchedBy st, ¬ silent p) → ∃ t, exec (.takeover st) s = .next t
      ∧ t.hart st = { h with seen := (s.watchedBy st).map (fun p => (p, fresh p)) }
      ∧ (∀ j, j ≠ st → Tbl.look t.harts j = Tbl.look s.harts j) ∧ t = { s with harts := t.harts })
    ∧ (∀ p, h.taking = none → (s.watchedBy st).find? (fun p => decide (silent p)) = some p → ∃ t, exec (.takeover st) s = .next t
      ∧ t.fwcHalted.getLsbD p = true ∧ (t.hart p).halted = true
      ∧ ends (s.haltHarts (BitVec.ofNat 4 (2 ^ p))) ⟨p, s.checkpoint.pending, s.checkpoint.seq.toNat + 1, []⟩ t)
    ∧ (∀ k, h.taking = some k → k.partner ≠ st → ∃ t, exec (.takeover st) s = .next t ∧ ends s k t))
  ∧ (∀ (s : State) (q n : Nat),
    let l := s.series q n
    let sound := fun (i : Nat) => (s.recordAt (q + i)).seq.toNat = q + i ∧ (s.recordAt (q + i)).chk = (s.recordAt (q + i)).check
    l.length ≤ n ∧ (∀ i < l.length, l[i]? = some (s.recordAt (q + i)) ∧ sound i) ∧ (l.length < n → ¬ sound l.length))
  ∧ (∀ (s : State) (redone : List (Nat × Nat)) (js : List Journal),
    let r := s.replayList redone js
    r.2.1 = [] →
    (∀ m, m ∈ r.1.unmade ↔ m ∈ s.unmade ∧ ∀ j ∈ js, m.seq ≠ j.seq)
    ∧ ∀ before j, js = before ++ [j] → (js.map (·.seq)).Nodup → j.kind = 5 → j.obj < 256 →
      ((∃ i ∈ js, i.object = j.object ∧ ∃ m ∈ s.unmade, m.seq = i.seq) → (r.1.vcp j.obj).st = (j.data.getD 0 0).toNat % 4
        ∧ (r.1.vcp j.obj).vfgen = (j.data.getD 1 0).setWidth 16))
  ∧ (∀ (s : State) (v : Nat) (value : BitVec 32),
    ((s.vcp v).mapped = false → exec (.notify v value) s = .next s)
    ∧ ((s.vcp v).mapped = true → ∃ t, exec (.notify v value) s = .next t
      ∧ (∀ i < 64, (t.vcp v).kick.getLsbD i = ((s.vcp v).kick.getLsbD i || decide (i = value.toNat % 32) || decide (i = 63)))
      ∧ t.vcp v = { s.vcp v with kick := (t.vcp v).kick } ∧ (t.hart (s.serverOf (v / 128))).irq = true
      ∧ (∀ j, t.hart j = { s.hart j with irq := (t.hart j).irq }) ∧ t = { s with vcps := t.vcps, harts := t.harts }))
  ∧ (∀ (s : State) (n v : Nat),
    ((s.hart n).halted = true ∨ (s.vcp v).kick = 0 → exec (.vcpScan n v) s = .next s)
    ∧ ((s.hart n).halted = false → offPages s → ∃ t, exec (.vcpScan n v) s = .next t
      ∧ t.vcp v = { s.vcp v with kick := (t.vcp v).kick } ∧ (∀ j, j ≠ v → Tbl.look t.vcps j = Tbl.look s.vcps j)
      ∧ (∀ i < 32, (t.vcp v).kick.getLsbD i = true → (s.vcp v).kick.getLsbD i = true)
      ∧ (∀ i < 32, ∀ q, (s.vcp v).kick.getLsbD i = true → Tbl.look (s.vcp v).qd i = some q → (s.queue q).count ≠ 0 →
          (∃ e ∈ t.hwSlots, e.2 = q) ∨ ((t.vcp v).kick.getLsbD i = true ∧ (t.vcp v).kick.getLsbD 63 = true))
      ∧ keeps s t))
  ∧ (∀ (s : State) (v : Nat), offPages s → ∃ t, exec (.vcpUnmap v) s = .next t
    ∧ t.vcp v = { s.vcp v with mapped := false, kick := (t.vcp v).kick }
    ∧ (∀ j, j ≠ v → Tbl.look t.vcps j = Tbl.look s.vcps j) ∧ keeps s t
    ∧ ((s.vcp v).kick = 0 → (∀ q, s.announced 4 v [0] = some q → t = { s with vcps := t.vcps, unmade := s.unmade.filter (·.seq.toNat != q) })
      ∧ (s.announced 4 v [0] = none → ∃ u, u = s.announce 4 v [0] ∧ t = { u with vcps := t.vcps, unmade := t.unmade }
        ∧ ∀ m ∈ t.unmade, m.seq ≠ u.journalSeq)))
  ∧ (∀ (s : State) (v : Nat), (Tbl.keys s.vcps).Nodup → (Tbl.look s.vcps v).isSome = true → offPages s → ∃ t, exec (.vfReset v) s = .next t
    ∧ (∀ j, t.vcp j = { s.vcp j with vfgen := if (Tbl.look s.vcps j).isSome = true ∧ (j = v ∨ ((s.vcp v).vf ≠ none ∧ (s.vcp j).vf = (s.vcp v).vf))
        then (s.vcp j).vfgen + 1 else (s.vcp j).vfgen })
    ∧ t.hwSlots = s.hwSlots ∧ t.agenda = s.agenda ∧ keeps s t)
  ∧ (∀ (s : State) (value : BitVec 64),
    let part := value.toNat / 2 % 128
    let stays := fun (e : TlbEntry) => (s.ctx e.ctx).part != part
    ((Tbl.at s.parts part {}).built = false ∨ s.machineHart = false → exec (.s2inv value) s = .next s)
    ∧ ((Tbl.at s.parts part {}).built = true → s.machineHart = true → ∃ t, exec (.s2inv value) s = .next t ∧ t = { s with cores := t.cores, ctlb := t.ctlb }
      ∧ (∀ c, t.core c = { s.core c with tlb := (s.core c).tlb.filter stays })
      ∧ ∀ n, Tbl.at t.ctlb n [] = (Tbl.at s.ctlb n []).filter stays))

/-- Derived from R240, R357, R359, R379 to R381, R383, R384, R388 and log entries 35, 59, 60, 64, 65: semaphores, mailbox
commands and readiness. A command first needs its functions ready (status 0x0D), a management command then its port's
ownership of semaphore 0 (0x0E); then it has its effect or its own status. The order of those two checks (log entry
60), status 0x0D of a command that is not valid (log entry 59), what a seal reserves (log entry 35), which measurement
register an image extends (log entry 64), and that the boot finds the images and faulty banks that its event names
(log entry 65), are the model's choices. -/
def Obligations.HostEventResults : Prop :=
  (∀ (s : State) (port sem : Nat),
    let x := Tbl.at s.hsem sem {}
    let answers := fun (y : Sem) => (if port = 3 then [0, 1] else if port < 2 then [port] else []).map (fun p =>
      Irq.answer p (leBytes 4 (BitVec.ofNat 32 (if y.owner = 0 then 0 else 2 ^ 31 + 2 ^ 29 * y.owner)).toNat))
    let reads := fun (y : Sem) => ∃ t, exec (.hsemAcquire port sem) s = .next t
      ∧ t = { s with hsem := if x.owner = 0 then Tbl.put s.hsem sem y else s.hsem, irqs := s.irqs ++ answers y }
    (32 ≤ sem ∨ 4 ≤ port → exec (.hsemAcquire port sem) s = .next s)
    ∧ (port < 3 → sem < 32 → x.owner = 0 → reads { x with owner := port + 1 })
    ∧ (port = 3 → sem < 32 → x.owner = 0 → reads { owner := x.lastLoser, lastLoser := 3 - x.lastLoser })
    ∧ (port < 4 → sem < 32 → x.owner ≠ 0 → reads x)
    ∧ (port < 3 → x.owner = port + 1 → ∃ t, exec (.hsemRelease port sem) s = .next t ∧ t = { s with hsem := Tbl.put s.hsem sem { x with owner := 0 } })
    ∧ (x.owner ≠ port + 1 → exec (.hsemRelease port sem) s = .next s)
    ∧ (2 ≤ port → exec (.linkDown port) s = .next s)
    ∧ (port < 2 → ∃ t, exec (.linkDown port) s = .next t ∧ t = { s with hsem := t.hsem }
      ∧ ∀ n, Tbl.at t.hsem n {} = if (Tbl.at s.hsem n {}).owner = port + 1 then { Tbl.at s.hsem n {} with owner := 0 } else Tbl.at s.hsem n {}))
  ∧ (∀ (s : State) (port keyId part vcp vf : Nat) (nonce wrapped image sig : List Byte) (cmd : PartCmd) (on : Bool) (qs : List Nat),
    let ready := fun (ns : List Nat) => ∀ b ∈ ns, s.rdyMap.getLsbD b = true
    let replies := fun (i : Instr) (status : Nat) => ∃ t, exec i s = .next t ∧ t = { s with mbox := Tbl.put s.mbox port (status, []) }
    let owns := (Tbl.at s.hsem 0 {}).owner = port + 1
    let managed := [(Instr.keyload port keyId wrapped, [18, 17]), (Instr.fwupdate port image sig, [18, 17]), (Instr.sealOp port part on, [18]),
      (Instr.vfmap port vcp vf qs, [18]), (Instr.partOp port cmd, 18 :: cmd.leaders.map (fun c => 12 + dieOf c))]
    (∀ e ∈ managed, (¬ ready e.2 → replies e.1 0x0D) ∧ (ready e.2 → ¬ owns → replies e.1 0x0E))
    ∧ (¬ ready [18, 17] → replies (.quote port nonce) 0x0D)
    ∧ (ready [18, 17] → ∃ t body, exec (.quote port nonce) s = .next t
      ∧ body = (List.range 8).flatMap (fun n => Tbl.at s.measure n (List.replicate 64 0)) ++ nonce
      ∧ t = { s with mbox := Tbl.put s.mbox port (0, body ++ Config.attest body) })
    ∧ (owns → ready [18, 17] →
      (keyId = 0 ∨ 1023 < keyId → replies (.keyload port keyId wrapped) 0x10)
      ∧ (1 ≤ keyId → keyId ≤ 1023 → Config.unwrapKey wrapped = none → replies (.keyload port keyId wrapped) 0x11)
      ∧ (∀ k, 1 ≤ keyId → keyId ≤ 1023 → Config.unwrapKey wrapped = some k → ∃ t, exec (.keyload port keyId wrapped) s = .next t
        ∧ Tbl.look t.ktab keyId = some k ∧ (∀ j, j ≠ keyId → Tbl.look t.ktab j = Tbl.look s.ktab j)
        ∧ Tbl.look t.mbox port = some (0, []) ∧ (∀ e ∈ t.l2, e.2.key ≠ keyId) ∧ (∀ c, ∀ e ∈ (t.core c).l1, e.2.key ≠ keyId)
        ∧ t = { s with
          mem := t.mem, badWords := t.badWords, lineKey := t.lineKey, dirtyPages := t.dirtyPages, l2 := t.l2, cores := t.cores
          vcps := t.vcps, queues := t.queues, ktab := t.ktab, mbox := t.mbox })
      ∧ (Config.signatureOk image sig = false → replies (.fwupdate port image sig) 0x0F)
      ∧ (Config.signatureOk image sig = true → ∃ t, exec (.fwupdate port image sig) s = .next t
        ∧ t = { s with staged := s.staged ++ [image], mbox := Tbl.put s.mbox port (0, []) }))
    ∧ (owns → ready [18] →
      (let ok := vcp < 256 ∧ vf < 255 ∧ qs.length ≤ 32 ∧ (∀ q ∈ qs, q < 4096);
        (¬ ok → replies (.vfmap port vcp vf qs) 0x0D)
        ∧ (ok → port < 2 → (s.vcpPages = none ∨ ((∀ e ∈ s.l2, e.2.owner = none) ∧ ∀ q, ∀ i < 64, s.pageAt (s.recordAddr q + i) = none)) → ∃ t, exec (.vfmap port vcp vf qs) s = .next t
          ∧ t.vcp vcp = { s.vcp vcp with vf := some (256 * port + vf), mapped := true, qd := (List.range qs.length).zip qs }
          ∧ (∀ j, j ≠ vcp → Tbl.look t.vcps j = Tbl.look s.vcps j) ∧ Tbl.look t.mbox port = some (0, [])
          ∧ t = { s with
            mem := t.mem, badWords := t.badWords, lineKey := t.lineKey, dirtyPages := t.dirtyPages, l2 := t.l2, cores := t.cores
            vcps := t.vcps, queues := t.queues, journalSeq := t.journalSeq, unmade := t.unmade, checkpoint := t.checkpoint, mbox := t.mbox }))
      ∧ (let p := Tbl.at s.parts part {};
        (p.built = false ∨ (on = true ∧ p.wholeClusters = false) → replies (.sealOp port part on) 0x0D)
        ∧ (p.built = true → (on = true → p.wholeClusters = true) → ∃ t, exec (.sealOp port part on) s = .next t
          ∧ Tbl.look t.parts part = some { p with isSealed := on } ∧ (∀ j, j ≠ part → Tbl.look t.parts j = Tbl.look s.parts j)
          ∧ Tbl.look t.mbox port = some (0, []) ∧ t.threads = s.threads ∧ t.teams = s.teams
          ∧ (∀ c, t.ctx c = if on = true ∧ p.isSealed = false ∧ (s.ctx c).part = part
              then { s.ctx c with wayGrant := [], wylent := [], pendingLevels := none } else s.ctx c))))
    ∧ (owns → ready (18 :: cmd.leaders.map (fun c => 12 + dieOf c)) →
      (s.partOk cmd = false → replies (.partOp port cmd) 0x0D)
      ∧ (s.partOk cmd = true → ∃ t, exec (.partOp port cmd) s = .next t ∧ Tbl.look t.mbox port = some (0, [])
        ∧ (∀ j, j ≠ cmd.part → Tbl.look t.parts j = Tbl.look s.parts j) ∧ t.teams = s.teams ∧ t.threads = s.threads
        ∧ ∃ p, Tbl.look t.parts cmd.part = some p ∧ p.built = !cmd.leaders.isEmpty ∧ p.ncores = 2 * cmd.leaders.length
          ∧ p.root = cmd.root ∧ p.keys = cmd.keys ∧ p.isSealed = false
          ∧ ∀ i < cmd.leaders.length, ∀ j < 2, t.physCore cmd.part (2 * i + j) = some (cmd.leaders.getD i 0 + j))))
  ∧ (∀ (s : State) (faulty : List (Nat × Nat)) (images : List (List Byte × List Byte)),
    ((s.rdyMap ≠ 0 ∨ s.fwRuns = true) → exec (.boot faulty images) s = .next s)
    ∧ (s.rdyMap = 0 → s.fwRuns = false → ∃ t, exec (.boot faulty images) s = .next t
      ∧ t.fwRuns = (!images.isEmpty && images.all (fun i => Config.signatureOk i.1 i.2))
      ∧ (∀ c, (t.core c) = { s.core c with banks := if faulty.any (fun e => e.1 == c) then (List.range 64).filter (fun b => !faulty.contains (c, b))
          else (s.core c).banks })
      ∧ (∀ i, images = [i] → Tbl.at t.measure 0 [] = Config.sha512 (Tbl.at s.measure 0 (List.replicate 64 0) ++ Config.sha512 i.1))
      ∧ t = { s with cores := t.cores, measure := t.measure, fwRuns := t.fwRuns }))
  ∧ (∀ (s : State) (bit : Nat),
    ((52 ≤ bit ∨ s.rdyMap.getLsbD bit = false) → exec (.functionFailure bit) s = .next s)
    ∧ (bit < 52 → s.rdyMap.getLsbD bit = true → ∃ t, exec (.functionFailure bit) s = .next t
      ∧ (∀ i < 64, t.rdyMap.getLsbD i = (s.rdyMap.getLsbD i && decide (i ≠ bit))) ∧ t.irqs = s.irqs ++ [.device 0, .device 1]
      ∧ (bit < 20 → t.outbox = s.outbox)
      ∧ (20 ≤ bit → ∀ o ∈ s.outbox, (o.1 ≠ bit - 20 ∨ s.inFlight o.2 = false → o ∈ t.outbox)
        ∧ (o.1 = bit - 20 → s.inFlight o.2 = true → ∃ p, (p, o.2) ∈ t.outbox
          ∧ (o.2.ddev ≠ 0x1FF → t.portsUp ≠ 0 → t.portsUp.getLsbD p = true)))
      ∧ (∀ i < 32, t.portsUp.getLsbD i = (s.portsUp.getLsbD i && decide (bit ≠ 20 + i)))
      ∧ t = { s with rdyMap := t.rdyMap, irqs := t.irqs, portsUp := t.portsUp, outbox := t.outbox }))
end

