-- ==== Sys2Proof/Laws/Maps.lean ====
section
/-!
SUPPORT. Laws of sparse tables and of the list that holds memory: what a read gives after a write, and that every write keeps
the canonical form.
-/
namespace Sys2Proof.Machine

/-! ## Tables -/

theorem Tbl.look_put {α : Type} (t : Tbl α) (k j : Nat) (x : α) :
    Tbl.look (Tbl.put t k x) j = if j = k then some x else Tbl.look t j := by
  induction t with
  | nil => simp [Tbl.put, Tbl.look, eq_comm]
  | cons e r ih =>
    obtain ⟨a, b⟩ := e
    by_cases h1 : k < a
    · simp only [Tbl.put, h1, if_true, Tbl.look]
      by_cases h : k = j
      · simp [h]
      · simp [h, Ne.symm h, eq_comm]
    · by_cases h2 : a = k
      · subst h2
        by_cases h : a = j
        · simp [Tbl.put, Tbl.look, h]
        · simp [Tbl.put, Tbl.look, h, Ne.symm h]
      · simp only [Tbl.put, h1, h2, if_false, Tbl.look, ih]
        by_cases h : a = j
        · subst h; simp [h2]
        · simp [h]

@[simp] theorem Tbl.look_put_self {α : Type} (t : Tbl α) (k : Nat) (x : α) : Tbl.look (Tbl.put t k x) k = some x := by
  simp [Tbl.look_put]

theorem Tbl.look_put_ne {α : Type} (t : Tbl α) {k j : Nat} (x : α) (h : j ≠ k) :
    Tbl.look (Tbl.put t k x) j = Tbl.look t j := by simp [Tbl.look_put, h]

theorem Tbl.at_put {α : Type} (t : Tbl α) (k j : Nat) (x d : α) :
    Tbl.at (Tbl.put t k x) j d = if j = k then x else Tbl.at t j d := by
  unfold Tbl.at; rw [Tbl.look_put]; split <;> simp

@[simp] theorem Tbl.at_put_self {α : Type} (t : Tbl α) (k : Nat) (x d : α) : Tbl.at (Tbl.put t k x) k d = x := by
  simp [Tbl.at_put]

theorem Tbl.at_put_ne {α : Type} (t : Tbl α) {k j : Nat} (x d : α) (h : j ≠ k) :
    Tbl.at (Tbl.put t k x) j d = Tbl.at t j d := by simp [Tbl.at_put, h]

theorem Tbl.look_drop {α : Type} (t : Tbl α) (k j : Nat) :
    Tbl.look (Tbl.drop t k) j = if j = k then none else Tbl.look t j := by
  induction t with
  | nil => simp [Tbl.drop, Tbl.look]
  | cons e r ih =>
    obtain ⟨a, b⟩ := e
    by_cases h : a = k
    · subst h
      by_cases hj : a = j
      · subst hj; simpa [Tbl.drop] using ih
      · simp [Tbl.drop, Tbl.look, ih, hj]
    · by_cases hj : a = j
      · subst hj; simp [Tbl.drop, Tbl.look, h]
      · simp [Tbl.drop, Tbl.look, h, hj, ih]

/-! ## Memory -/

/-- All cells lie at or above an address. -/
def Memory.above (a : Nat) (m : List Host.Cell) : Prop := ∀ e ∈ m, a < e.1

theorem Memory.rising_cons (e : Host.Cell) (m : List Host.Cell) :
    Memory.rising (e :: m) = true ↔ Memory.above e.1 m ∧ Memory.rising m = true := by
  induction m generalizing e with
  | nil => simp [Memory.rising, Memory.above]
  | cons f r ih =>
    obtain ⟨a, x⟩ := e
    obtain ⟨b, y⟩ := f
    simp only [Memory.rising, Bool.and_eq_true, decide_eq_true_eq, ih]
    constructor
    · rintro ⟨hab, hr⟩
      refine ⟨?_, hr⟩
      intro g hg
      rcases List.mem_cons.mp hg with rfl | hg
      · exact hab
      · exact lt_trans hab (hr.1 g hg)
    · rintro ⟨ha, hr⟩
      exact ⟨ha (b, y) (by simp), hr⟩

theorem Memory.above_set {a b : Nat} {m : List Host.Cell} (x : Byte) (ha : Memory.above a m) (hab : a < b) :
    Memory.above a (Memory.set m b x) := by
  induction m with
  | nil =>
    unfold Memory.set
    split <;> simp_all [Memory.above]
  | cons e r ih =>
    obtain ⟨c, y⟩ := e
    have hc : a < c := ha (c, y) (by simp)
    have hr : Memory.above a r := fun g hg => ha g (by simp [hg])
    simp only [Memory.set]
    split_ifs <;> intro g hg
    · exact ha g hg
    · rcases List.mem_cons.mp hg with rfl | hg
      · exact hab
      · exact ha g hg
    · exact hr g hg
    · rcases List.mem_cons.mp hg with rfl | hg
      · exact hab
      · exact hr g hg
    · rcases List.mem_cons.mp hg with rfl | hg
      · exact hc
      · exact ih hr g hg

theorem Memory.wf_cons (e : Host.Cell) (m : List Host.Cell) :
    Memory.wf (e :: m) = true ↔ Memory.above e.1 m ∧ e.2 ≠ Config.unwrittenByte ∧ Memory.wf m = true := by
  simp only [Memory.wf, Bool.and_eq_true, Memory.rising_cons, List.all_cons, bne_iff_ne]
  tauto

/-- Writing a byte keeps the canonical form. -/
theorem Memory.wf_set {m : List Host.Cell} (a : Nat) (x : Byte) (hm : Memory.wf m = true) : Memory.wf (Memory.set m a x) = true := by
  induction m with
  | nil =>
    unfold Memory.set
    split
    · rfl
    · rename_i h; simp [Memory.wf, Memory.rising, h]
  | cons e r ih =>
    obtain ⟨c, y⟩ := e
    have h := (Memory.wf_cons _ _).mp hm
    simp only [Memory.set]
    split_ifs with h1 h2 h3 h4
    · exact hm
    · rw [Memory.wf_cons]
      refine ⟨?_, h2, hm⟩
      intro g hg
      rcases List.mem_cons.mp hg with rfl | hg
      · exact h1
      · exact lt_trans h1 (h.1 g hg)
    · exact h.2.2
    · rw [Memory.wf_cons]
      subst h3
      exact ⟨h.1, h4, h.2.2⟩
    · rw [Memory.wf_cons]
      exact ⟨Memory.above_set x h.1 (by simp only; omega), h.2.1, ih h.2.2⟩

/-- Below every cell memory reads as unwritten. -/
theorem Memory.get_above {a b : Nat} {m : List Host.Cell} (ha : Memory.above a m) (hb : b ≤ a) :
    Memory.get m b = Config.unwrittenByte := by
  induction m with
  | nil => rfl
  | cons e r ih =>
    obtain ⟨c, y⟩ := e
    have hc : a < c := ha (c, y) (by simp)
    have hne : ¬ c = b := by omega
    simp only [Memory.get, if_neg hne]
    exact ih (fun g hg => ha g (by simp [hg]))

/-- Reading after writing a byte: the byte there, the old byte elsewhere. -/
theorem Memory.get_set (m : List Host.Cell) (a b : Nat) (x : Byte) (hm : Memory.wf m = true) :
    Memory.get (Memory.set m a x) b = if b = a then x else Memory.get m b := by
  induction m with
  | nil =>
    by_cases hx : x = Config.unwrittenByte
    · by_cases h : b = a <;> simp [Memory.set, Memory.get, hx, h]
    · by_cases h : a = b
      · simp [Memory.set, Memory.get, hx, h]
      · simp [Memory.set, Memory.get, hx, h, Ne.symm h]
  | cons e r ih =>
    obtain ⟨c, y⟩ := e
    have h := (Memory.wf_cons _ _).mp hm
    by_cases h1 : a < c
    · by_cases hx : x = Config.unwrittenByte
      · simp only [Memory.set, h1, hx, if_true]
        by_cases hb : b = a
        · subst hb
          have hcb : ¬ c = b := by omega
          simp [Memory.get, hcb, Memory.get_above h.1 (le_of_lt h1)]
        · simp [hb]
      · simp only [Memory.set, h1, hx, if_true, if_false]
        by_cases hb : a = b
        · simp [Memory.get, hb]
        · simp [Memory.get, hb, Ne.symm hb]
    · by_cases h2 : c = a
      · subst h2
        by_cases hx : x = Config.unwrittenByte
        · simp only [Memory.set, hx, lt_irrefl, if_true, if_false]
          by_cases hb : b = c
          · subst hb; simp [Memory.get_above h.1 (le_refl b)]
          · simp [Memory.get, hb, Ne.symm hb]
        · simp only [Memory.set, hx, lt_irrefl, if_true, if_false]
          by_cases hb : c = b
          · simp [Memory.get, hb]
          · simp [Memory.get, hb, Ne.symm hb]
      · simp only [Memory.set, h1, h2, if_false, Memory.get]
        by_cases hb : c = b
        · subst hb; simp [h2]
        · simp only [if_neg hb]; exact ih h.2.2

theorem Memory.wf_setBytes {m : List Host.Cell} (a : Nat) (bs : List Byte) (hm : Memory.wf m = true) :
    Memory.wf (Memory.setBytes m a bs) = true := by
  induction bs generalizing m a with
  | nil => exact hm
  | cons b r ih => exact ih (a + 1) (Memory.wf_set a b hm)

/-- Reading after writing a list of bytes: the list's byte within its range, the old byte elsewhere. -/
theorem Memory.get_setBytes (m : List Host.Cell) (a b : Nat) (bs : List Byte) (hm : Memory.wf m = true) :
    Memory.get (Memory.setBytes m a bs) b = if a ≤ b ∧ b < a + bs.length then bs.getD (b - a) 0 else Memory.get m b := by
  induction bs generalizing m a with
  | nil => simp [Memory.setBytes]
  | cons x r ih =>
    simp only [Memory.setBytes]
    rw [ih _ _ (Memory.wf_set a x hm), Memory.get_set m a b x hm]
    simp only [List.length_cons]
    by_cases hb : b = a
    · subst hb; simp
    · by_cases h : a ≤ b ∧ b < a + (r.length + 1)
      · have h1 : a + 1 ≤ b ∧ b < a + 1 + r.length := by omega
        have h2 : b - a = (b - (a + 1)) + 1 := by omega
        rw [if_pos h, if_pos h1, h2, List.getD_cons_succ]
      · have h1 : ¬ (a + 1 ≤ b ∧ b < a + 1 + r.length) := by omega
        rw [if_neg h, if_neg h1, if_neg hb]

end Sys2Proof.Machine
end

