-- ==== Sys2Proof/Laws/State.lean ====
section
/-!
SUPPORT. Laws of State: what each update leaves of each field, one lemma per field and update; and what the accessors of the
tables answer after an update.
-/
namespace Sys2Proof.Machine.State

/-! ## `setCore` -/

@[simp] theorem setCore_agenda (s : State) (c : Nat) (x : Core) : (s.setCore c x).agenda = s.agenda := rfl
@[simp] theorem setCore_turn (s : State) (c : Nat) (x : Core) : (s.setCore c x).turn = s.turn := rfl
@[simp] theorem setCore_free (s : State) (c : Nat) (x : Core) : (s.setCore c x).free = s.free := rfl
@[simp] theorem setCore_ids (s : State) (c : Nat) (x : Core) : (s.setCore c x).ids = s.ids := rfl
@[simp] theorem setCore_time (s : State) (c : Nat) (x : Core) : (s.setCore c x).time = s.time := rfl
@[simp] theorem setCore_boundaries (s : State) (c : Nat) (x : Core) : (s.setCore c x).boundaries = s.boundaries := rfl
@[simp] theorem setCore_lastCore (s : State) (c : Nat) (x : Core) : (s.setCore c x).lastCore = s.lastCore := rfl
@[simp] theorem setCore_burst (s : State) (c : Nat) (x : Core) : (s.setCore c x).burst = s.burst := rfl
@[simp] theorem setCore_mem (s : State) (c : Nat) (x : Core) : (s.setCore c x).mem = s.mem := rfl
@[simp] theorem setCore_badWords (s : State) (c : Nat) (x : Core) : (s.setCore c x).badWords = s.badWords := rfl
@[simp] theorem setCore_lineKey (s : State) (c : Nat) (x : Core) : (s.setCore c x).lineKey = s.lineKey := rfl
@[simp] theorem setCore_dirtyPages (s : State) (c : Nat) (x : Core) : (s.setCore c x).dirtyPages = s.dirtyPages := rfl
@[simp] theorem setCore_tracking (s : State) (c : Nat) (x : Core) : (s.setCore c x).tracking = s.tracking := rfl
@[simp] theorem setCore_vcpPages (s : State) (c : Nat) (x : Core) : (s.setCore c x).vcpPages = s.vcpPages := rfl
@[simp] theorem setCore_held (s : State) (c : Nat) (x : Core) : (s.setCore c x).held = s.held := rfl
@[simp] theorem setCore_l2 (s : State) (c : Nat) (x : Core) : (s.setCore c x).l2 = s.l2 := rfl
@[simp] theorem setCore_l2use (s : State) (c : Nat) (x : Core) : (s.setCore c x).l2use = s.l2use := rfl
@[simp] theorem setCore_cores (s : State) (c : Nat) (x : Core) : (s.setCore c x).cores = Tbl.put s.cores c x := rfl
@[simp] theorem setCore_ctlb (s : State) (c : Nat) (x : Core) : (s.setCore c x).ctlb = s.ctlb := rfl
@[simp] theorem setCore_threads (s : State) (c : Nat) (x : Core) : (s.setCore c x).threads = s.threads := rfl
@[simp] theorem setCore_gangs (s : State) (c : Nat) (x : Core) : (s.setCore c x).gangs = s.gangs := rfl
@[simp] theorem setCore_teams (s : State) (c : Nat) (x : Core) : (s.setCore c x).teams = s.teams := rfl
@[simp] theorem setCore_grids (s : State) (c : Nat) (x : Core) : (s.setCore c x).grids = s.grids := rfl
@[simp] theorem setCore_copies (s : State) (c : Nat) (x : Core) : (s.setCore c x).copies = s.copies := rfl
@[simp] theorem setCore_dies (s : State) (c : Nat) (x : Core) : (s.setCore c x).dies = s.dies := rfl
@[simp] theorem setCore_pendingSteps (s : State) (c : Nat) (x : Core) : (s.setCore c x).pendingSteps = s.pendingSteps := rfl
@[simp] theorem setCore_loopPass (s : State) (c : Nat) (x : Core) : (s.setCore c x).loopPass = s.loopPass := rfl
@[simp] theorem setCore_waysDue (s : State) (c : Nat) (x : Core) : (s.setCore c x).waysDue = s.waysDue := rfl
@[simp] theorem setCore_fused (s : State) (c : Nat) (x : Core) : (s.setCore c x).fused = s.fused := rfl
@[simp] theorem setCore_ctxs (s : State) (c : Nat) (x : Core) : (s.setCore c x).ctxs = s.ctxs := rfl
@[simp] theorem setCore_queues (s : State) (c : Nat) (x : Core) : (s.setCore c x).queues = s.queues := rfl
@[simp] theorem setCore_hwSlots (s : State) (c : Nat) (x : Core) : (s.setCore c x).hwSlots = s.hwSlots := rfl
@[simp] theorem setCore_lastSlot (s : State) (c : Nat) (x : Core) : (s.setCore c x).lastSlot = s.lastSlot := rfl
@[simp] theorem setCore_begun (s : State) (c : Nat) (x : Core) : (s.setCore c x).begun = s.begun := rfl
@[simp] theorem setCore_parts (s : State) (c : Nat) (x : Core) : (s.setCore c x).parts = s.parts := rfl
@[simp] theorem setCore_ktab (s : State) (c : Nat) (x : Core) : (s.setCore c x).ktab = s.ktab := rfl
@[simp] theorem setCore_harts (s : State) (c : Nat) (x : Core) : (s.setCore c x).harts = s.harts := rfl
@[simp] theorem setCore_fwcActive (s : State) (c : Nat) (x : Core) : (s.setCore c x).fwcActive = s.fwcActive := rfl
@[simp] theorem setCore_fwcHalted (s : State) (c : Nat) (x : Core) : (s.setCore c x).fwcHalted = s.fwcHalted := rfl
@[simp] theorem setCore_fwRuns (s : State) (c : Nat) (x : Core) : (s.setCore c x).fwRuns = s.fwRuns := rfl
@[simp] theorem setCore_ring (s : State) (c : Nat) (x : Core) : (s.setCore c x).ring = s.ring := rfl
@[simp] theorem setCore_ringLen (s : State) (c : Nat) (x : Core) : (s.setCore c x).ringLen = s.ringLen := rfl
@[simp] theorem setCore_journalSeq (s : State) (c : Nat) (x : Core) : (s.setCore c x).journalSeq = s.journalSeq := rfl
@[simp] theorem setCore_unmade (s : State) (c : Nat) (x : Core) : (s.setCore c x).unmade = s.unmade := rfl
@[simp] theorem setCore_checkpoint (s : State) (c : Nat) (x : Core) : (s.setCore c x).checkpoint = s.checkpoint := rfl
@[simp] theorem setCore_fwMap (s : State) (c : Nat) (x : Core) : (s.setCore c x).fwMap = s.fwMap := rfl
@[simp] theorem setCore_fwDescs (s : State) (c : Nat) (x : Core) : (s.setCore c x).fwDescs = s.fwDescs := rfl
@[simp] theorem setCore_vcps (s : State) (c : Nat) (x : Core) : (s.setCore c x).vcps = s.vcps := rfl
@[simp] theorem setCore_causes (s : State) (c : Nat) (x : Core) : (s.setCore c x).causes = s.causes := rfl
@[simp] theorem setCore_irqs (s : State) (c : Nat) (x : Core) : (s.setCore c x).irqs = s.irqs := rfl
@[simp] theorem setCore_hsem (s : State) (c : Nat) (x : Core) : (s.setCore c x).hsem = s.hsem := rfl
@[simp] theorem setCore_rootAtomics (s : State) (c : Nat) (x : Core) : (s.setCore c x).rootAtomics = s.rootAtomics := rfl
@[simp] theorem setCore_rdyMap (s : State) (c : Nat) (x : Core) : (s.setCore c x).rdyMap = s.rdyMap := rfl
@[simp] theorem setCore_measure (s : State) (c : Nat) (x : Core) : (s.setCore c x).measure = s.measure := rfl
@[simp] theorem setCore_staged (s : State) (c : Nat) (x : Core) : (s.setCore c x).staged = s.staged := rfl
@[simp] theorem setCore_mbox (s : State) (c : Nat) (x : Core) : (s.setCore c x).mbox = s.mbox := rfl
@[simp] theorem setCore_devId (s : State) (c : Nat) (x : Core) : (s.setCore c x).devId = s.devId := rfl
@[simp] theorem setCore_portsUp (s : State) (c : Nat) (x : Core) : (s.setCore c x).portsUp = s.portsUp := rfl
@[simp] theorem setCore_peerDown (s : State) (c : Nat) (x : Core) : (s.setCore c x).peerDown = s.peerDown := rfl
@[simp] theorem setCore_fabdrop (s : State) (c : Nat) (x : Core) : (s.setCore c x).fabdrop = s.fabdrop := rfl
@[simp] theorem setCore_outbox (s : State) (c : Nat) (x : Core) : (s.setCore c x).outbox = s.outbox := rfl
@[simp] theorem setCore_setups (s : State) (c : Nat) (x : Core) : (s.setCore c x).setups = s.setups := rfl
@[simp] theorem setCore_received (s : State) (c : Nat) (x : Core) : (s.setCore c x).received = s.received := rfl
@[simp] theorem setCore_early (s : State) (c : Nat) (x : Core) : (s.setCore c x).early = s.early := rfl
@[simp] theorem setCore_landing (s : State) (c : Nat) (x : Core) : (s.setCore c x).landing = s.landing := rfl
@[simp] theorem setCore_spill (s : State) (c : Nat) (x : Core) : (s.setCore c x).spill = s.spill := rfl

/-! ## `setThr` -/

@[simp] theorem setThr_agenda (s : State) (c k : Nat) (x : Thread) : (s.setThr c k x).agenda = s.agenda := rfl
@[simp] theorem setThr_turn (s : State) (c k : Nat) (x : Thread) : (s.setThr c k x).turn = s.turn := rfl
@[simp] theorem setThr_free (s : State) (c k : Nat) (x : Thread) : (s.setThr c k x).free = s.free := rfl
@[simp] theorem setThr_ids (s : State) (c k : Nat) (x : Thread) : (s.setThr c k x).ids = s.ids := rfl
@[simp] theorem setThr_time (s : State) (c k : Nat) (x : Thread) : (s.setThr c k x).time = s.time := rfl
@[simp] theorem setThr_boundaries (s : State) (c k : Nat) (x : Thread) : (s.setThr c k x).boundaries = s.boundaries := rfl
@[simp] theorem setThr_lastCore (s : State) (c k : Nat) (x : Thread) : (s.setThr c k x).lastCore = s.lastCore := rfl
@[simp] theorem setThr_burst (s : State) (c k : Nat) (x : Thread) : (s.setThr c k x).burst = s.burst := rfl
@[simp] theorem setThr_mem (s : State) (c k : Nat) (x : Thread) : (s.setThr c k x).mem = s.mem := rfl
@[simp] theorem setThr_badWords (s : State) (c k : Nat) (x : Thread) : (s.setThr c k x).badWords = s.badWords := rfl
@[simp] theorem setThr_lineKey (s : State) (c k : Nat) (x : Thread) : (s.setThr c k x).lineKey = s.lineKey := rfl
@[simp] theorem setThr_dirtyPages (s : State) (c k : Nat) (x : Thread) : (s.setThr c k x).dirtyPages = s.dirtyPages := rfl
@[simp] theorem setThr_tracking (s : State) (c k : Nat) (x : Thread) : (s.setThr c k x).tracking = s.tracking := rfl
@[simp] theorem setThr_vcpPages (s : State) (c k : Nat) (x : Thread) : (s.setThr c k x).vcpPages = s.vcpPages := rfl
@[simp] theorem setThr_held (s : State) (c k : Nat) (x : Thread) : (s.setThr c k x).held = s.held := rfl
@[simp] theorem setThr_l2 (s : State) (c k : Nat) (x : Thread) : (s.setThr c k x).l2 = s.l2 := rfl
@[simp] theorem setThr_l2use (s : State) (c k : Nat) (x : Thread) : (s.setThr c k x).l2use = s.l2use := rfl
@[simp] theorem setThr_cores (s : State) (c k : Nat) (x : Thread) : (s.setThr c k x).cores = s.cores := rfl
@[simp] theorem setThr_ctlb (s : State) (c k : Nat) (x : Thread) : (s.setThr c k x).ctlb = s.ctlb := rfl
@[simp] theorem setThr_threads (s : State) (c k : Nat) (x : Thread) : (s.setThr c k x).threads = Tbl.put s.threads (threadKey c k) x := rfl
@[simp] theorem setThr_gangs (s : State) (c k : Nat) (x : Thread) : (s.setThr c k x).gangs = s.gangs := rfl
@[simp] theorem setThr_teams (s : State) (c k : Nat) (x : Thread) : (s.setThr c k x).teams = s.teams := rfl
@[simp] theorem setThr_grids (s : State) (c k : Nat) (x : Thread) : (s.setThr c k x).grids = s.grids := rfl
@[simp] theorem setThr_copies (s : State) (c k : Nat) (x : Thread) : (s.setThr c k x).copies = s.copies := rfl
@[simp] theorem setThr_dies (s : State) (c k : Nat) (x : Thread) : (s.setThr c k x).dies = s.dies := rfl
@[simp] theorem setThr_pendingSteps (s : State) (c k : Nat) (x : Thread) : (s.setThr c k x).pendingSteps = s.pendingSteps := rfl
@[simp] theorem setThr_loopPass (s : State) (c k : Nat) (x : Thread) : (s.setThr c k x).loopPass = s.loopPass := rfl
@[simp] theorem setThr_waysDue (s : State) (c k : Nat) (x : Thread) : (s.setThr c k x).waysDue = s.waysDue := rfl
@[simp] theorem setThr_fused (s : State) (c k : Nat) (x : Thread) : (s.setThr c k x).fused = s.fused := rfl
@[simp] theorem setThr_ctxs (s : State) (c k : Nat) (x : Thread) : (s.setThr c k x).ctxs = s.ctxs := rfl
@[simp] theorem setThr_queues (s : State) (c k : Nat) (x : Thread) : (s.setThr c k x).queues = s.queues := rfl
@[simp] theorem setThr_hwSlots (s : State) (c k : Nat) (x : Thread) : (s.setThr c k x).hwSlots = s.hwSlots := rfl
@[simp] theorem setThr_lastSlot (s : State) (c k : Nat) (x : Thread) : (s.setThr c k x).lastSlot = s.lastSlot := rfl
@[simp] theorem setThr_begun (s : State) (c k : Nat) (x : Thread) : (s.setThr c k x).begun = s.begun := rfl
@[simp] theorem setThr_parts (s : State) (c k : Nat) (x : Thread) : (s.setThr c k x).parts = s.parts := rfl
@[simp] theorem setThr_ktab (s : State) (c k : Nat) (x : Thread) : (s.setThr c k x).ktab = s.ktab := rfl
@[simp] theorem setThr_harts (s : State) (c k : Nat) (x : Thread) : (s.setThr c k x).harts = s.harts := rfl
@[simp] theorem setThr_fwcActive (s : State) (c k : Nat) (x : Thread) : (s.setThr c k x).fwcActive = s.fwcActive := rfl
@[simp] theorem setThr_fwcHalted (s : State) (c k : Nat) (x : Thread) : (s.setThr c k x).fwcHalted = s.fwcHalted := rfl
@[simp] theorem setThr_fwRuns (s : State) (c k : Nat) (x : Thread) : (s.setThr c k x).fwRuns = s.fwRuns := rfl
@[simp] theorem setThr_ring (s : State) (c k : Nat) (x : Thread) : (s.setThr c k x).ring = s.ring := rfl
@[simp] theorem setThr_ringLen (s : State) (c k : Nat) (x : Thread) : (s.setThr c k x).ringLen = s.ringLen := rfl
@[simp] theorem setThr_journalSeq (s : State) (c k : Nat) (x : Thread) : (s.setThr c k x).journalSeq = s.journalSeq := rfl
@[simp] theorem setThr_unmade (s : State) (c k : Nat) (x : Thread) : (s.setThr c k x).unmade = s.unmade := rfl
@[simp] theorem setThr_checkpoint (s : State) (c k : Nat) (x : Thread) : (s.setThr c k x).checkpoint = s.checkpoint := rfl
@[simp] theorem setThr_fwMap (s : State) (c k : Nat) (x : Thread) : (s.setThr c k x).fwMap = s.fwMap := rfl
@[simp] theorem setThr_fwDescs (s : State) (c k : Nat) (x : Thread) : (s.setThr c k x).fwDescs = s.fwDescs := rfl
@[simp] theorem setThr_vcps (s : State) (c k : Nat) (x : Thread) : (s.setThr c k x).vcps = s.vcps := rfl
@[simp] theorem setThr_causes (s : State) (c k : Nat) (x : Thread) : (s.setThr c k x).causes = s.causes := rfl
@[simp] theorem setThr_irqs (s : State) (c k : Nat) (x : Thread) : (s.setThr c k x).irqs = s.irqs := rfl
@[simp] theorem setThr_hsem (s : State) (c k : Nat) (x : Thread) : (s.setThr c k x).hsem = s.hsem := rfl
@[simp] theorem setThr_rootAtomics (s : State) (c k : Nat) (x : Thread) : (s.setThr c k x).rootAtomics = s.rootAtomics := rfl
@[simp] theorem setThr_rdyMap (s : State) (c k : Nat) (x : Thread) : (s.setThr c k x).rdyMap = s.rdyMap := rfl
@[simp] theorem setThr_measure (s : State) (c k : Nat) (x : Thread) : (s.setThr c k x).measure = s.measure := rfl
@[simp] theorem setThr_staged (s : State) (c k : Nat) (x : Thread) : (s.setThr c k x).staged = s.staged := rfl
@[simp] theorem setThr_mbox (s : State) (c k : Nat) (x : Thread) : (s.setThr c k x).mbox = s.mbox := rfl
@[simp] theorem setThr_devId (s : State) (c k : Nat) (x : Thread) : (s.setThr c k x).devId = s.devId := rfl
@[simp] theorem setThr_portsUp (s : State) (c k : Nat) (x : Thread) : (s.setThr c k x).portsUp = s.portsUp := rfl
@[simp] theorem setThr_peerDown (s : State) (c k : Nat) (x : Thread) : (s.setThr c k x).peerDown = s.peerDown := rfl
@[simp] theorem setThr_fabdrop (s : State) (c k : Nat) (x : Thread) : (s.setThr c k x).fabdrop = s.fabdrop := rfl
@[simp] theorem setThr_outbox (s : State) (c k : Nat) (x : Thread) : (s.setThr c k x).outbox = s.outbox := rfl
@[simp] theorem setThr_setups (s : State) (c k : Nat) (x : Thread) : (s.setThr c k x).setups = s.setups := rfl
@[simp] theorem setThr_received (s : State) (c k : Nat) (x : Thread) : (s.setThr c k x).received = s.received := rfl
@[simp] theorem setThr_early (s : State) (c k : Nat) (x : Thread) : (s.setThr c k x).early = s.early := rfl
@[simp] theorem setThr_landing (s : State) (c k : Nat) (x : Thread) : (s.setThr c k x).landing = s.landing := rfl
@[simp] theorem setThr_spill (s : State) (c k : Nat) (x : Thread) : (s.setThr c k x).spill = s.spill := rfl

/-! ## `setGang` -/

@[simp] theorem setGang_agenda (s : State) (c g : Nat) (x : Gang) : (s.setGang c g x).agenda = s.agenda := rfl
@[simp] theorem setGang_turn (s : State) (c g : Nat) (x : Gang) : (s.setGang c g x).turn = s.turn := rfl
@[simp] theorem setGang_free (s : State) (c g : Nat) (x : Gang) : (s.setGang c g x).free = s.free := rfl
@[simp] theorem setGang_ids (s : State) (c g : Nat) (x : Gang) : (s.setGang c g x).ids = s.ids := rfl
@[simp] theorem setGang_time (s : State) (c g : Nat) (x : Gang) : (s.setGang c g x).time = s.time := rfl
@[simp] theorem setGang_boundaries (s : State) (c g : Nat) (x : Gang) : (s.setGang c g x).boundaries = s.boundaries := rfl
@[simp] theorem setGang_lastCore (s : State) (c g : Nat) (x : Gang) : (s.setGang c g x).lastCore = s.lastCore := rfl
@[simp] theorem setGang_burst (s : State) (c g : Nat) (x : Gang) : (s.setGang c g x).burst = s.burst := rfl
@[simp] theorem setGang_mem (s : State) (c g : Nat) (x : Gang) : (s.setGang c g x).mem = s.mem := rfl
@[simp] theorem setGang_badWords (s : State) (c g : Nat) (x : Gang) : (s.setGang c g x).badWords = s.badWords := rfl
@[simp] theorem setGang_lineKey (s : State) (c g : Nat) (x : Gang) : (s.setGang c g x).lineKey = s.lineKey := rfl
@[simp] theorem setGang_dirtyPages (s : State) (c g : Nat) (x : Gang) : (s.setGang c g x).dirtyPages = s.dirtyPages := rfl
@[simp] theorem setGang_tracking (s : State) (c g : Nat) (x : Gang) : (s.setGang c g x).tracking = s.tracking := rfl
@[simp] theorem setGang_vcpPages (s : State) (c g : Nat) (x : Gang) : (s.setGang c g x).vcpPages = s.vcpPages := rfl
@[simp] theorem setGang_held (s : State) (c g : Nat) (x : Gang) : (s.setGang c g x).held = s.held := rfl
@[simp] theorem setGang_l2 (s : State) (c g : Nat) (x : Gang) : (s.setGang c g x).l2 = s.l2 := rfl
@[simp] theorem setGang_l2use (s : State) (c g : Nat) (x : Gang) : (s.setGang c g x).l2use = s.l2use := rfl
@[simp] theorem setGang_cores (s : State) (c g : Nat) (x : Gang) : (s.setGang c g x).cores = s.cores := rfl
@[simp] theorem setGang_ctlb (s : State) (c g : Nat) (x : Gang) : (s.setGang c g x).ctlb = s.ctlb := rfl
@[simp] theorem setGang_threads (s : State) (c g : Nat) (x : Gang) : (s.setGang c g x).threads = s.threads := rfl
@[simp] theorem setGang_gangs (s : State) (c g : Nat) (x : Gang) : (s.setGang c g x).gangs = Tbl.put s.gangs (gangKey c g) x := rfl
@[simp] theorem setGang_teams (s : State) (c g : Nat) (x : Gang) : (s.setGang c g x).teams = s.teams := rfl
@[simp] theorem setGang_grids (s : State) (c g : Nat) (x : Gang) : (s.setGang c g x).grids = s.grids := rfl
@[simp] theorem setGang_copies (s : State) (c g : Nat) (x : Gang) : (s.setGang c g x).copies = s.copies := rfl
@[simp] theorem setGang_dies (s : State) (c g : Nat) (x : Gang) : (s.setGang c g x).dies = s.dies := rfl
@[simp] theorem setGang_pendingSteps (s : State) (c g : Nat) (x : Gang) : (s.setGang c g x).pendingSteps = s.pendingSteps := rfl
@[simp] theorem setGang_loopPass (s : State) (c g : Nat) (x : Gang) : (s.setGang c g x).loopPass = s.loopPass := rfl
@[simp] theorem setGang_waysDue (s : State) (c g : Nat) (x : Gang) : (s.setGang c g x).waysDue = s.waysDue := rfl
@[simp] theorem setGang_fused (s : State) (c g : Nat) (x : Gang) : (s.setGang c g x).fused = s.fused := rfl
@[simp] theorem setGang_ctxs (s : State) (c g : Nat) (x : Gang) : (s.setGang c g x).ctxs = s.ctxs := rfl
@[simp] theorem setGang_queues (s : State) (c g : Nat) (x : Gang) : (s.setGang c g x).queues = s.queues := rfl
@[simp] theorem setGang_hwSlots (s : State) (c g : Nat) (x : Gang) : (s.setGang c g x).hwSlots = s.hwSlots := rfl
@[simp] theorem setGang_lastSlot (s : State) (c g : Nat) (x : Gang) : (s.setGang c g x).lastSlot = s.lastSlot := rfl
@[simp] theorem setGang_begun (s : State) (c g : Nat) (x : Gang) : (s.setGang c g x).begun = s.begun := rfl
@[simp] theorem setGang_parts (s : State) (c g : Nat) (x : Gang) : (s.setGang c g x).parts = s.parts := rfl
@[simp] theorem setGang_ktab (s : State) (c g : Nat) (x : Gang) : (s.setGang c g x).ktab = s.ktab := rfl
@[simp] theorem setGang_harts (s : State) (c g : Nat) (x : Gang) : (s.setGang c g x).harts = s.harts := rfl
@[simp] theorem setGang_fwcActive (s : State) (c g : Nat) (x : Gang) : (s.setGang c g x).fwcActive = s.fwcActive := rfl
@[simp] theorem setGang_fwcHalted (s : State) (c g : Nat) (x : Gang) : (s.setGang c g x).fwcHalted = s.fwcHalted := rfl
@[simp] theorem setGang_fwRuns (s : State) (c g : Nat) (x : Gang) : (s.setGang c g x).fwRuns = s.fwRuns := rfl
@[simp] theorem setGang_ring (s : State) (c g : Nat) (x : Gang) : (s.setGang c g x).ring = s.ring := rfl
@[simp] theorem setGang_ringLen (s : State) (c g : Nat) (x : Gang) : (s.setGang c g x).ringLen = s.ringLen := rfl
@[simp] theorem setGang_journalSeq (s : State) (c g : Nat) (x : Gang) : (s.setGang c g x).journalSeq = s.journalSeq := rfl
@[simp] theorem setGang_unmade (s : State) (c g : Nat) (x : Gang) : (s.setGang c g x).unmade = s.unmade := rfl
@[simp] theorem setGang_checkpoint (s : State) (c g : Nat) (x : Gang) : (s.setGang c g x).checkpoint = s.checkpoint := rfl
@[simp] theorem setGang_fwMap (s : State) (c g : Nat) (x : Gang) : (s.setGang c g x).fwMap = s.fwMap := rfl
@[simp] theorem setGang_fwDescs (s : State) (c g : Nat) (x : Gang) : (s.setGang c g x).fwDescs = s.fwDescs := rfl
@[simp] theorem setGang_vcps (s : State) (c g : Nat) (x : Gang) : (s.setGang c g x).vcps = s.vcps := rfl
@[simp] theorem setGang_causes (s : State) (c g : Nat) (x : Gang) : (s.setGang c g x).causes = s.causes := rfl
@[simp] theorem setGang_irqs (s : State) (c g : Nat) (x : Gang) : (s.setGang c g x).irqs = s.irqs := rfl
@[simp] theorem setGang_hsem (s : State) (c g : Nat) (x : Gang) : (s.setGang c g x).hsem = s.hsem := rfl
@[simp] theorem setGang_rootAtomics (s : State) (c g : Nat) (x : Gang) : (s.setGang c g x).rootAtomics = s.rootAtomics := rfl
@[simp] theorem setGang_rdyMap (s : State) (c g : Nat) (x : Gang) : (s.setGang c g x).rdyMap = s.rdyMap := rfl
@[simp] theorem setGang_measure (s : State) (c g : Nat) (x : Gang) : (s.setGang c g x).measure = s.measure := rfl
@[simp] theorem setGang_staged (s : State) (c g : Nat) (x : Gang) : (s.setGang c g x).staged = s.staged := rfl
@[simp] theorem setGang_mbox (s : State) (c g : Nat) (x : Gang) : (s.setGang c g x).mbox = s.mbox := rfl
@[simp] theorem setGang_devId (s : State) (c g : Nat) (x : Gang) : (s.setGang c g x).devId = s.devId := rfl
@[simp] theorem setGang_portsUp (s : State) (c g : Nat) (x : Gang) : (s.setGang c g x).portsUp = s.portsUp := rfl
@[simp] theorem setGang_peerDown (s : State) (c g : Nat) (x : Gang) : (s.setGang c g x).peerDown = s.peerDown := rfl
@[simp] theorem setGang_fabdrop (s : State) (c g : Nat) (x : Gang) : (s.setGang c g x).fabdrop = s.fabdrop := rfl
@[simp] theorem setGang_outbox (s : State) (c g : Nat) (x : Gang) : (s.setGang c g x).outbox = s.outbox := rfl
@[simp] theorem setGang_setups (s : State) (c g : Nat) (x : Gang) : (s.setGang c g x).setups = s.setups := rfl
@[simp] theorem setGang_received (s : State) (c g : Nat) (x : Gang) : (s.setGang c g x).received = s.received := rfl
@[simp] theorem setGang_early (s : State) (c g : Nat) (x : Gang) : (s.setGang c g x).early = s.early := rfl
@[simp] theorem setGang_landing (s : State) (c g : Nat) (x : Gang) : (s.setGang c g x).landing = s.landing := rfl
@[simp] theorem setGang_spill (s : State) (c g : Nat) (x : Gang) : (s.setGang c g x).spill = s.spill := rfl

/-! ## `setTeam` -/

@[simp] theorem setTeam_agenda (s : State) (t : Nat) (x : Team) : (s.setTeam t x).agenda = s.agenda := rfl
@[simp] theorem setTeam_turn (s : State) (t : Nat) (x : Team) : (s.setTeam t x).turn = s.turn := rfl
@[simp] theorem setTeam_free (s : State) (t : Nat) (x : Team) : (s.setTeam t x).free = s.free := rfl
@[simp] theorem setTeam_ids (s : State) (t : Nat) (x : Team) : (s.setTeam t x).ids = s.ids := rfl
@[simp] theorem setTeam_time (s : State) (t : Nat) (x : Team) : (s.setTeam t x).time = s.time := rfl
@[simp] theorem setTeam_boundaries (s : State) (t : Nat) (x : Team) : (s.setTeam t x).boundaries = s.boundaries := rfl
@[simp] theorem setTeam_lastCore (s : State) (t : Nat) (x : Team) : (s.setTeam t x).lastCore = s.lastCore := rfl
@[simp] theorem setTeam_burst (s : State) (t : Nat) (x : Team) : (s.setTeam t x).burst = s.burst := rfl
@[simp] theorem setTeam_mem (s : State) (t : Nat) (x : Team) : (s.setTeam t x).mem = s.mem := rfl
@[simp] theorem setTeam_badWords (s : State) (t : Nat) (x : Team) : (s.setTeam t x).badWords = s.badWords := rfl
@[simp] theorem setTeam_lineKey (s : State) (t : Nat) (x : Team) : (s.setTeam t x).lineKey = s.lineKey := rfl
@[simp] theorem setTeam_dirtyPages (s : State) (t : Nat) (x : Team) : (s.setTeam t x).dirtyPages = s.dirtyPages := rfl
@[simp] theorem setTeam_tracking (s : State) (t : Nat) (x : Team) : (s.setTeam t x).tracking = s.tracking := rfl
@[simp] theorem setTeam_vcpPages (s : State) (t : Nat) (x : Team) : (s.setTeam t x).vcpPages = s.vcpPages := rfl
@[simp] theorem setTeam_held (s : State) (t : Nat) (x : Team) : (s.setTeam t x).held = s.held := rfl
@[simp] theorem setTeam_l2 (s : State) (t : Nat) (x : Team) : (s.setTeam t x).l2 = s.l2 := rfl
@[simp] theorem setTeam_l2use (s : State) (t : Nat) (x : Team) : (s.setTeam t x).l2use = s.l2use := rfl
@[simp] theorem setTeam_cores (s : State) (t : Nat) (x : Team) : (s.setTeam t x).cores = s.cores := rfl
@[simp] theorem setTeam_ctlb (s : State) (t : Nat) (x : Team) : (s.setTeam t x).ctlb = s.ctlb := rfl
@[simp] theorem setTeam_threads (s : State) (t : Nat) (x : Team) : (s.setTeam t x).threads = s.threads := rfl
@[simp] theorem setTeam_gangs (s : State) (t : Nat) (x : Team) : (s.setTeam t x).gangs = s.gangs := rfl
@[simp] theorem setTeam_teams (s : State) (t : Nat) (x : Team) : (s.setTeam t x).teams = Tbl.put s.teams t x := rfl
@[simp] theorem setTeam_grids (s : State) (t : Nat) (x : Team) : (s.setTeam t x).grids = s.grids := rfl
@[simp] theorem setTeam_copies (s : State) (t : Nat) (x : Team) : (s.setTeam t x).copies = s.copies := rfl
@[simp] theorem setTeam_dies (s : State) (t : Nat) (x : Team) : (s.setTeam t x).dies = s.dies := rfl
@[simp] theorem setTeam_pendingSteps (s : State) (t : Nat) (x : Team) : (s.setTeam t x).pendingSteps = s.pendingSteps := rfl
@[simp] theorem setTeam_loopPass (s : State) (t : Nat) (x : Team) : (s.setTeam t x).loopPass = s.loopPass := rfl
@[simp] theorem setTeam_waysDue (s : State) (t : Nat) (x : Team) : (s.setTeam t x).waysDue = s.waysDue := rfl
@[simp] theorem setTeam_fused (s : State) (t : Nat) (x : Team) : (s.setTeam t x).fused = s.fused := rfl
@[simp] theorem setTeam_ctxs (s : State) (t : Nat) (x : Team) : (s.setTeam t x).ctxs = s.ctxs := rfl
@[simp] theorem setTeam_queues (s : State) (t : Nat) (x : Team) : (s.setTeam t x).queues = s.queues := rfl
@[simp] theorem setTeam_hwSlots (s : State) (t : Nat) (x : Team) : (s.setTeam t x).hwSlots = s.hwSlots := rfl
@[simp] theorem setTeam_lastSlot (s : State) (t : Nat) (x : Team) : (s.setTeam t x).lastSlot = s.lastSlot := rfl
@[simp] theorem setTeam_begun (s : State) (t : Nat) (x : Team) : (s.setTeam t x).begun = s.begun := rfl
@[simp] theorem setTeam_parts (s : State) (t : Nat) (x : Team) : (s.setTeam t x).parts = s.parts := rfl
@[simp] theorem setTeam_ktab (s : State) (t : Nat) (x : Team) : (s.setTeam t x).ktab = s.ktab := rfl
@[simp] theorem setTeam_harts (s : State) (t : Nat) (x : Team) : (s.setTeam t x).harts = s.harts := rfl
@[simp] theorem setTeam_fwcActive (s : State) (t : Nat) (x : Team) : (s.setTeam t x).fwcActive = s.fwcActive := rfl
@[simp] theorem setTeam_fwcHalted (s : State) (t : Nat) (x : Team) : (s.setTeam t x).fwcHalted = s.fwcHalted := rfl
@[simp] theorem setTeam_fwRuns (s : State) (t : Nat) (x : Team) : (s.setTeam t x).fwRuns = s.fwRuns := rfl
@[simp] theorem setTeam_ring (s : State) (t : Nat) (x : Team) : (s.setTeam t x).ring = s.ring := rfl
@[simp] theorem setTeam_ringLen (s : State) (t : Nat) (x : Team) : (s.setTeam t x).ringLen = s.ringLen := rfl
@[simp] theorem setTeam_journalSeq (s : State) (t : Nat) (x : Team) : (s.setTeam t x).journalSeq = s.journalSeq := rfl
@[simp] theorem setTeam_unmade (s : State) (t : Nat) (x : Team) : (s.setTeam t x).unmade = s.unmade := rfl
@[simp] theorem setTeam_checkpoint (s : State) (t : Nat) (x : Team) : (s.setTeam t x).checkpoint = s.checkpoint := rfl
@[simp] theorem setTeam_fwMap (s : State) (t : Nat) (x : Team) : (s.setTeam t x).fwMap = s.fwMap := rfl
@[simp] theorem setTeam_fwDescs (s : State) (t : Nat) (x : Team) : (s.setTeam t x).fwDescs = s.fwDescs := rfl
@[simp] theorem setTeam_vcps (s : State) (t : Nat) (x : Team) : (s.setTeam t x).vcps = s.vcps := rfl
@[simp] theorem setTeam_causes (s : State) (t : Nat) (x : Team) : (s.setTeam t x).causes = s.causes := rfl
@[simp] theorem setTeam_irqs (s : State) (t : Nat) (x : Team) : (s.setTeam t x).irqs = s.irqs := rfl
@[simp] theorem setTeam_hsem (s : State) (t : Nat) (x : Team) : (s.setTeam t x).hsem = s.hsem := rfl
@[simp] theorem setTeam_rootAtomics (s : State) (t : Nat) (x : Team) : (s.setTeam t x).rootAtomics = s.rootAtomics := rfl
@[simp] theorem setTeam_rdyMap (s : State) (t : Nat) (x : Team) : (s.setTeam t x).rdyMap = s.rdyMap := rfl
@[simp] theorem setTeam_measure (s : State) (t : Nat) (x : Team) : (s.setTeam t x).measure = s.measure := rfl
@[simp] theorem setTeam_staged (s : State) (t : Nat) (x : Team) : (s.setTeam t x).staged = s.staged := rfl
@[simp] theorem setTeam_mbox (s : State) (t : Nat) (x : Team) : (s.setTeam t x).mbox = s.mbox := rfl
@[simp] theorem setTeam_devId (s : State) (t : Nat) (x : Team) : (s.setTeam t x).devId = s.devId := rfl
@[simp] theorem setTeam_portsUp (s : State) (t : Nat) (x : Team) : (s.setTeam t x).portsUp = s.portsUp := rfl
@[simp] theorem setTeam_peerDown (s : State) (t : Nat) (x : Team) : (s.setTeam t x).peerDown = s.peerDown := rfl
@[simp] theorem setTeam_fabdrop (s : State) (t : Nat) (x : Team) : (s.setTeam t x).fabdrop = s.fabdrop := rfl
@[simp] theorem setTeam_outbox (s : State) (t : Nat) (x : Team) : (s.setTeam t x).outbox = s.outbox := rfl
@[simp] theorem setTeam_setups (s : State) (t : Nat) (x : Team) : (s.setTeam t x).setups = s.setups := rfl
@[simp] theorem setTeam_received (s : State) (t : Nat) (x : Team) : (s.setTeam t x).received = s.received := rfl
@[simp] theorem setTeam_early (s : State) (t : Nat) (x : Team) : (s.setTeam t x).early = s.early := rfl
@[simp] theorem setTeam_landing (s : State) (t : Nat) (x : Team) : (s.setTeam t x).landing = s.landing := rfl
@[simp] theorem setTeam_spill (s : State) (t : Nat) (x : Team) : (s.setTeam t x).spill = s.spill := rfl

/-! ## `setGrid` -/

@[simp] theorem setGrid_agenda (s : State) (g : Nat) (x : Grid) : (s.setGrid g x).agenda = s.agenda := rfl
@[simp] theorem setGrid_turn (s : State) (g : Nat) (x : Grid) : (s.setGrid g x).turn = s.turn := rfl
@[simp] theorem setGrid_free (s : State) (g : Nat) (x : Grid) : (s.setGrid g x).free = s.free := rfl
@[simp] theorem setGrid_ids (s : State) (g : Nat) (x : Grid) : (s.setGrid g x).ids = s.ids := rfl
@[simp] theorem setGrid_time (s : State) (g : Nat) (x : Grid) : (s.setGrid g x).time = s.time := rfl
@[simp] theorem setGrid_boundaries (s : State) (g : Nat) (x : Grid) : (s.setGrid g x).boundaries = s.boundaries := rfl
@[simp] theorem setGrid_lastCore (s : State) (g : Nat) (x : Grid) : (s.setGrid g x).lastCore = s.lastCore := rfl
@[simp] theorem setGrid_burst (s : State) (g : Nat) (x : Grid) : (s.setGrid g x).burst = s.burst := rfl
@[simp] theorem setGrid_mem (s : State) (g : Nat) (x : Grid) : (s.setGrid g x).mem = s.mem := rfl
@[simp] theorem setGrid_badWords (s : State) (g : Nat) (x : Grid) : (s.setGrid g x).badWords = s.badWords := rfl
@[simp] theorem setGrid_lineKey (s : State) (g : Nat) (x : Grid) : (s.setGrid g x).lineKey = s.lineKey := rfl
@[simp] theorem setGrid_dirtyPages (s : State) (g : Nat) (x : Grid) : (s.setGrid g x).dirtyPages = s.dirtyPages := rfl
@[simp] theorem setGrid_tracking (s : State) (g : Nat) (x : Grid) : (s.setGrid g x).tracking = s.tracking := rfl
@[simp] theorem setGrid_vcpPages (s : State) (g : Nat) (x : Grid) : (s.setGrid g x).vcpPages = s.vcpPages := rfl
@[simp] theorem setGrid_held (s : State) (g : Nat) (x : Grid) : (s.setGrid g x).held = s.held := rfl
@[simp] theorem setGrid_l2 (s : State) (g : Nat) (x : Grid) : (s.setGrid g x).l2 = s.l2 := rfl
@[simp] theorem setGrid_l2use (s : State) (g : Nat) (x : Grid) : (s.setGrid g x).l2use = s.l2use := rfl
@[simp] theorem setGrid_cores (s : State) (g : Nat) (x : Grid) : (s.setGrid g x).cores = s.cores := rfl
@[simp] theorem setGrid_ctlb (s : State) (g : Nat) (x : Grid) : (s.setGrid g x).ctlb = s.ctlb := rfl
@[simp] theorem setGrid_threads (s : State) (g : Nat) (x : Grid) : (s.setGrid g x).threads = s.threads := rfl
@[simp] theorem setGrid_gangs (s : State) (g : Nat) (x : Grid) : (s.setGrid g x).gangs = s.gangs := rfl
@[simp] theorem setGrid_teams (s : State) (g : Nat) (x : Grid) : (s.setGrid g x).teams = s.teams := rfl
@[simp] theorem setGrid_grids (s : State) (g : Nat) (x : Grid) : (s.setGrid g x).grids = Tbl.put s.grids g x := rfl
@[simp] theorem setGrid_copies (s : State) (g : Nat) (x : Grid) : (s.setGrid g x).copies = s.copies := rfl
@[simp] theorem setGrid_dies (s : State) (g : Nat) (x : Grid) : (s.setGrid g x).dies = s.dies := rfl
@[simp] theorem setGrid_pendingSteps (s : State) (g : Nat) (x : Grid) : (s.setGrid g x).pendingSteps = s.pendingSteps := rfl
@[simp] theorem setGrid_loopPass (s : State) (g : Nat) (x : Grid) : (s.setGrid g x).loopPass = s.loopPass := rfl
@[simp] theorem setGrid_waysDue (s : State) (g : Nat) (x : Grid) : (s.setGrid g x).waysDue = s.waysDue := rfl
@[simp] theorem setGrid_fused (s : State) (g : Nat) (x : Grid) : (s.setGrid g x).fused = s.fused := rfl
@[simp] theorem setGrid_ctxs (s : State) (g : Nat) (x : Grid) : (s.setGrid g x).ctxs = s.ctxs := rfl
@[simp] theorem setGrid_queues (s : State) (g : Nat) (x : Grid) : (s.setGrid g x).queues = s.queues := rfl
@[simp] theorem setGrid_hwSlots (s : State) (g : Nat) (x : Grid) : (s.setGrid g x).hwSlots = s.hwSlots := rfl
@[simp] theorem setGrid_lastSlot (s : State) (g : Nat) (x : Grid) : (s.setGrid g x).lastSlot = s.lastSlot := rfl
@[simp] theorem setGrid_begun (s : State) (g : Nat) (x : Grid) : (s.setGrid g x).begun = s.begun := rfl
@[simp] theorem setGrid_parts (s : State) (g : Nat) (x : Grid) : (s.setGrid g x).parts = s.parts := rfl
@[simp] theorem setGrid_ktab (s : State) (g : Nat) (x : Grid) : (s.setGrid g x).ktab = s.ktab := rfl
@[simp] theorem setGrid_harts (s : State) (g : Nat) (x : Grid) : (s.setGrid g x).harts = s.harts := rfl
@[simp] theorem setGrid_fwcActive (s : State) (g : Nat) (x : Grid) : (s.setGrid g x).fwcActive = s.fwcActive := rfl
@[simp] theorem setGrid_fwcHalted (s : State) (g : Nat) (x : Grid) : (s.setGrid g x).fwcHalted = s.fwcHalted := rfl
@[simp] theorem setGrid_fwRuns (s : State) (g : Nat) (x : Grid) : (s.setGrid g x).fwRuns = s.fwRuns := rfl
@[simp] theorem setGrid_ring (s : State) (g : Nat) (x : Grid) : (s.setGrid g x).ring = s.ring := rfl
@[simp] theorem setGrid_ringLen (s : State) (g : Nat) (x : Grid) : (s.setGrid g x).ringLen = s.ringLen := rfl
@[simp] theorem setGrid_journalSeq (s : State) (g : Nat) (x : Grid) : (s.setGrid g x).journalSeq = s.journalSeq := rfl
@[simp] theorem setGrid_unmade (s : State) (g : Nat) (x : Grid) : (s.setGrid g x).unmade = s.unmade := rfl
@[simp] theorem setGrid_checkpoint (s : State) (g : Nat) (x : Grid) : (s.setGrid g x).checkpoint = s.checkpoint := rfl
@[simp] theorem setGrid_fwMap (s : State) (g : Nat) (x : Grid) : (s.setGrid g x).fwMap = s.fwMap := rfl
@[simp] theorem setGrid_fwDescs (s : State) (g : Nat) (x : Grid) : (s.setGrid g x).fwDescs = s.fwDescs := rfl
@[simp] theorem setGrid_vcps (s : State) (g : Nat) (x : Grid) : (s.setGrid g x).vcps = s.vcps := rfl
@[simp] theorem setGrid_causes (s : State) (g : Nat) (x : Grid) : (s.setGrid g x).causes = s.causes := rfl
@[simp] theorem setGrid_irqs (s : State) (g : Nat) (x : Grid) : (s.setGrid g x).irqs = s.irqs := rfl
@[simp] theorem setGrid_hsem (s : State) (g : Nat) (x : Grid) : (s.setGrid g x).hsem = s.hsem := rfl
@[simp] theorem setGrid_rootAtomics (s : State) (g : Nat) (x : Grid) : (s.setGrid g x).rootAtomics = s.rootAtomics := rfl
@[simp] theorem setGrid_rdyMap (s : State) (g : Nat) (x : Grid) : (s.setGrid g x).rdyMap = s.rdyMap := rfl
@[simp] theorem setGrid_measure (s : State) (g : Nat) (x : Grid) : (s.setGrid g x).measure = s.measure := rfl
@[simp] theorem setGrid_staged (s : State) (g : Nat) (x : Grid) : (s.setGrid g x).staged = s.staged := rfl
@[simp] theorem setGrid_mbox (s : State) (g : Nat) (x : Grid) : (s.setGrid g x).mbox = s.mbox := rfl
@[simp] theorem setGrid_devId (s : State) (g : Nat) (x : Grid) : (s.setGrid g x).devId = s.devId := rfl
@[simp] theorem setGrid_portsUp (s : State) (g : Nat) (x : Grid) : (s.setGrid g x).portsUp = s.portsUp := rfl
@[simp] theorem setGrid_peerDown (s : State) (g : Nat) (x : Grid) : (s.setGrid g x).peerDown = s.peerDown := rfl
@[simp] theorem setGrid_fabdrop (s : State) (g : Nat) (x : Grid) : (s.setGrid g x).fabdrop = s.fabdrop := rfl
@[simp] theorem setGrid_outbox (s : State) (g : Nat) (x : Grid) : (s.setGrid g x).outbox = s.outbox := rfl
@[simp] theorem setGrid_setups (s : State) (g : Nat) (x : Grid) : (s.setGrid g x).setups = s.setups := rfl
@[simp] theorem setGrid_received (s : State) (g : Nat) (x : Grid) : (s.setGrid g x).received = s.received := rfl
@[simp] theorem setGrid_early (s : State) (g : Nat) (x : Grid) : (s.setGrid g x).early = s.early := rfl
@[simp] theorem setGrid_landing (s : State) (g : Nat) (x : Grid) : (s.setGrid g x).landing = s.landing := rfl
@[simp] theorem setGrid_spill (s : State) (g : Nat) (x : Grid) : (s.setGrid g x).spill = s.spill := rfl

/-! ## `setCtx` -/

@[simp] theorem setCtx_agenda (s : State) (c : Nat) (x : Ctx) : (s.setCtx c x).agenda = s.agenda := rfl
@[simp] theorem setCtx_turn (s : State) (c : Nat) (x : Ctx) : (s.setCtx c x).turn = s.turn := rfl
@[simp] theorem setCtx_free (s : State) (c : Nat) (x : Ctx) : (s.setCtx c x).free = s.free := rfl
@[simp] theorem setCtx_ids (s : State) (c : Nat) (x : Ctx) : (s.setCtx c x).ids = s.ids := rfl
@[simp] theorem setCtx_time (s : State) (c : Nat) (x : Ctx) : (s.setCtx c x).time = s.time := rfl
@[simp] theorem setCtx_boundaries (s : State) (c : Nat) (x : Ctx) : (s.setCtx c x).boundaries = s.boundaries := rfl
@[simp] theorem setCtx_lastCore (s : State) (c : Nat) (x : Ctx) : (s.setCtx c x).lastCore = s.lastCore := rfl
@[simp] theorem setCtx_burst (s : State) (c : Nat) (x : Ctx) : (s.setCtx c x).burst = s.burst := rfl
@[simp] theorem setCtx_mem (s : State) (c : Nat) (x : Ctx) : (s.setCtx c x).mem = s.mem := rfl
@[simp] theorem setCtx_badWords (s : State) (c : Nat) (x : Ctx) : (s.setCtx c x).badWords = s.badWords := rfl
@[simp] theorem setCtx_lineKey (s : State) (c : Nat) (x : Ctx) : (s.setCtx c x).lineKey = s.lineKey := rfl
@[simp] theorem setCtx_dirtyPages (s : State) (c : Nat) (x : Ctx) : (s.setCtx c x).dirtyPages = s.dirtyPages := rfl
@[simp] theorem setCtx_tracking (s : State) (c : Nat) (x : Ctx) : (s.setCtx c x).tracking = s.tracking := rfl
@[simp] theorem setCtx_vcpPages (s : State) (c : Nat) (x : Ctx) : (s.setCtx c x).vcpPages = s.vcpPages := rfl
@[simp] theorem setCtx_held (s : State) (c : Nat) (x : Ctx) : (s.setCtx c x).held = s.held := rfl
@[simp] theorem setCtx_l2 (s : State) (c : Nat) (x : Ctx) : (s.setCtx c x).l2 = s.l2 := rfl
@[simp] theorem setCtx_l2use (s : State) (c : Nat) (x : Ctx) : (s.setCtx c x).l2use = s.l2use := rfl
@[simp] theorem setCtx_cores (s : State) (c : Nat) (x : Ctx) : (s.setCtx c x).cores = s.cores := rfl
@[simp] theorem setCtx_ctlb (s : State) (c : Nat) (x : Ctx) : (s.setCtx c x).ctlb = s.ctlb := rfl
@[simp] theorem setCtx_threads (s : State) (c : Nat) (x : Ctx) : (s.setCtx c x).threads = s.threads := rfl
@[simp] theorem setCtx_gangs (s : State) (c : Nat) (x : Ctx) : (s.setCtx c x).gangs = s.gangs := rfl
@[simp] theorem setCtx_teams (s : State) (c : Nat) (x : Ctx) : (s.setCtx c x).teams = s.teams := rfl
@[simp] theorem setCtx_grids (s : State) (c : Nat) (x : Ctx) : (s.setCtx c x).grids = s.grids := rfl
@[simp] theorem setCtx_copies (s : State) (c : Nat) (x : Ctx) : (s.setCtx c x).copies = s.copies := rfl
@[simp] theorem setCtx_dies (s : State) (c : Nat) (x : Ctx) : (s.setCtx c x).dies = s.dies := rfl
@[simp] theorem setCtx_pendingSteps (s : State) (c : Nat) (x : Ctx) : (s.setCtx c x).pendingSteps = s.pendingSteps := rfl
@[simp] theorem setCtx_loopPass (s : State) (c : Nat) (x : Ctx) : (s.setCtx c x).loopPass = s.loopPass := rfl
@[simp] theorem setCtx_waysDue (s : State) (c : Nat) (x : Ctx) : (s.setCtx c x).waysDue = s.waysDue := rfl
@[simp] theorem setCtx_fused (s : State) (c : Nat) (x : Ctx) : (s.setCtx c x).fused = s.fused := rfl
@[simp] theorem setCtx_ctxs (s : State) (c : Nat) (x : Ctx) : (s.setCtx c x).ctxs = Tbl.put s.ctxs c x := rfl
@[simp] theorem setCtx_queues (s : State) (c : Nat) (x : Ctx) : (s.setCtx c x).queues = s.queues := rfl
@[simp] theorem setCtx_hwSlots (s : State) (c : Nat) (x : Ctx) : (s.setCtx c x).hwSlots = s.hwSlots := rfl
@[simp] theorem setCtx_lastSlot (s : State) (c : Nat) (x : Ctx) : (s.setCtx c x).lastSlot = s.lastSlot := rfl
@[simp] theorem setCtx_begun (s : State) (c : Nat) (x : Ctx) : (s.setCtx c x).begun = s.begun := rfl
@[simp] theorem setCtx_parts (s : State) (c : Nat) (x : Ctx) : (s.setCtx c x).parts = s.parts := rfl
@[simp] theorem setCtx_ktab (s : State) (c : Nat) (x : Ctx) : (s.setCtx c x).ktab = s.ktab := rfl
@[simp] theorem setCtx_harts (s : State) (c : Nat) (x : Ctx) : (s.setCtx c x).harts = s.harts := rfl
@[simp] theorem setCtx_fwcActive (s : State) (c : Nat) (x : Ctx) : (s.setCtx c x).fwcActive = s.fwcActive := rfl
@[simp] theorem setCtx_fwcHalted (s : State) (c : Nat) (x : Ctx) : (s.setCtx c x).fwcHalted = s.fwcHalted := rfl
@[simp] theorem setCtx_fwRuns (s : State) (c : Nat) (x : Ctx) : (s.setCtx c x).fwRuns = s.fwRuns := rfl
@[simp] theorem setCtx_ring (s : State) (c : Nat) (x : Ctx) : (s.setCtx c x).ring = s.ring := rfl
@[simp] theorem setCtx_ringLen (s : State) (c : Nat) (x : Ctx) : (s.setCtx c x).ringLen = s.ringLen := rfl
@[simp] theorem setCtx_journalSeq (s : State) (c : Nat) (x : Ctx) : (s.setCtx c x).journalSeq = s.journalSeq := rfl
@[simp] theorem setCtx_unmade (s : State) (c : Nat) (x : Ctx) : (s.setCtx c x).unmade = s.unmade := rfl
@[simp] theorem setCtx_checkpoint (s : State) (c : Nat) (x : Ctx) : (s.setCtx c x).checkpoint = s.checkpoint := rfl
@[simp] theorem setCtx_fwMap (s : State) (c : Nat) (x : Ctx) : (s.setCtx c x).fwMap = s.fwMap := rfl
@[simp] theorem setCtx_fwDescs (s : State) (c : Nat) (x : Ctx) : (s.setCtx c x).fwDescs = s.fwDescs := rfl
@[simp] theorem setCtx_vcps (s : State) (c : Nat) (x : Ctx) : (s.setCtx c x).vcps = s.vcps := rfl
@[simp] theorem setCtx_causes (s : State) (c : Nat) (x : Ctx) : (s.setCtx c x).causes = s.causes := rfl
@[simp] theorem setCtx_irqs (s : State) (c : Nat) (x : Ctx) : (s.setCtx c x).irqs = s.irqs := rfl
@[simp] theorem setCtx_hsem (s : State) (c : Nat) (x : Ctx) : (s.setCtx c x).hsem = s.hsem := rfl
@[simp] theorem setCtx_rootAtomics (s : State) (c : Nat) (x : Ctx) : (s.setCtx c x).rootAtomics = s.rootAtomics := rfl
@[simp] theorem setCtx_rdyMap (s : State) (c : Nat) (x : Ctx) : (s.setCtx c x).rdyMap = s.rdyMap := rfl
@[simp] theorem setCtx_measure (s : State) (c : Nat) (x : Ctx) : (s.setCtx c x).measure = s.measure := rfl
@[simp] theorem setCtx_staged (s : State) (c : Nat) (x : Ctx) : (s.setCtx c x).staged = s.staged := rfl
@[simp] theorem setCtx_mbox (s : State) (c : Nat) (x : Ctx) : (s.setCtx c x).mbox = s.mbox := rfl
@[simp] theorem setCtx_devId (s : State) (c : Nat) (x : Ctx) : (s.setCtx c x).devId = s.devId := rfl
@[simp] theorem setCtx_portsUp (s : State) (c : Nat) (x : Ctx) : (s.setCtx c x).portsUp = s.portsUp := rfl
@[simp] theorem setCtx_peerDown (s : State) (c : Nat) (x : Ctx) : (s.setCtx c x).peerDown = s.peerDown := rfl
@[simp] theorem setCtx_fabdrop (s : State) (c : Nat) (x : Ctx) : (s.setCtx c x).fabdrop = s.fabdrop := rfl
@[simp] theorem setCtx_outbox (s : State) (c : Nat) (x : Ctx) : (s.setCtx c x).outbox = s.outbox := rfl
@[simp] theorem setCtx_setups (s : State) (c : Nat) (x : Ctx) : (s.setCtx c x).setups = s.setups := rfl
@[simp] theorem setCtx_received (s : State) (c : Nat) (x : Ctx) : (s.setCtx c x).received = s.received := rfl
@[simp] theorem setCtx_early (s : State) (c : Nat) (x : Ctx) : (s.setCtx c x).early = s.early := rfl
@[simp] theorem setCtx_landing (s : State) (c : Nat) (x : Ctx) : (s.setCtx c x).landing = s.landing := rfl
@[simp] theorem setCtx_spill (s : State) (c : Nat) (x : Ctx) : (s.setCtx c x).spill = s.spill := rfl

/-! ## `setDie` -/

@[simp] theorem setDie_agenda (s : State) (d : Nat) (x : Die) : (s.setDie d x).agenda = s.agenda := rfl
@[simp] theorem setDie_turn (s : State) (d : Nat) (x : Die) : (s.setDie d x).turn = s.turn := rfl
@[simp] theorem setDie_free (s : State) (d : Nat) (x : Die) : (s.setDie d x).free = s.free := rfl
@[simp] theorem setDie_ids (s : State) (d : Nat) (x : Die) : (s.setDie d x).ids = s.ids := rfl
@[simp] theorem setDie_time (s : State) (d : Nat) (x : Die) : (s.setDie d x).time = s.time := rfl
@[simp] theorem setDie_boundaries (s : State) (d : Nat) (x : Die) : (s.setDie d x).boundaries = s.boundaries := rfl
@[simp] theorem setDie_lastCore (s : State) (d : Nat) (x : Die) : (s.setDie d x).lastCore = s.lastCore := rfl
@[simp] theorem setDie_burst (s : State) (d : Nat) (x : Die) : (s.setDie d x).burst = s.burst := rfl
@[simp] theorem setDie_mem (s : State) (d : Nat) (x : Die) : (s.setDie d x).mem = s.mem := rfl
@[simp] theorem setDie_badWords (s : State) (d : Nat) (x : Die) : (s.setDie d x).badWords = s.badWords := rfl
@[simp] theorem setDie_lineKey (s : State) (d : Nat) (x : Die) : (s.setDie d x).lineKey = s.lineKey := rfl
@[simp] theorem setDie_dirtyPages (s : State) (d : Nat) (x : Die) : (s.setDie d x).dirtyPages = s.dirtyPages := rfl
@[simp] theorem setDie_tracking (s : State) (d : Nat) (x : Die) : (s.setDie d x).tracking = s.tracking := rfl
@[simp] theorem setDie_vcpPages (s : State) (d : Nat) (x : Die) : (s.setDie d x).vcpPages = s.vcpPages := rfl
@[simp] theorem setDie_held (s : State) (d : Nat) (x : Die) : (s.setDie d x).held = s.held := rfl
@[simp] theorem setDie_l2 (s : State) (d : Nat) (x : Die) : (s.setDie d x).l2 = s.l2 := rfl
@[simp] theorem setDie_l2use (s : State) (d : Nat) (x : Die) : (s.setDie d x).l2use = s.l2use := rfl
@[simp] theorem setDie_cores (s : State) (d : Nat) (x : Die) : (s.setDie d x).cores = s.cores := rfl
@[simp] theorem setDie_ctlb (s : State) (d : Nat) (x : Die) : (s.setDie d x).ctlb = s.ctlb := rfl
@[simp] theorem setDie_threads (s : State) (d : Nat) (x : Die) : (s.setDie d x).threads = s.threads := rfl
@[simp] theorem setDie_gangs (s : State) (d : Nat) (x : Die) : (s.setDie d x).gangs = s.gangs := rfl
@[simp] theorem setDie_teams (s : State) (d : Nat) (x : Die) : (s.setDie d x).teams = s.teams := rfl
@[simp] theorem setDie_grids (s : State) (d : Nat) (x : Die) : (s.setDie d x).grids = s.grids := rfl
@[simp] theorem setDie_copies (s : State) (d : Nat) (x : Die) : (s.setDie d x).copies = s.copies := rfl
@[simp] theorem setDie_dies (s : State) (d : Nat) (x : Die) : (s.setDie d x).dies = Tbl.put s.dies d x := rfl
@[simp] theorem setDie_pendingSteps (s : State) (d : Nat) (x : Die) : (s.setDie d x).pendingSteps = s.pendingSteps := rfl
@[simp] theorem setDie_loopPass (s : State) (d : Nat) (x : Die) : (s.setDie d x).loopPass = s.loopPass := rfl
@[simp] theorem setDie_waysDue (s : State) (d : Nat) (x : Die) : (s.setDie d x).waysDue = s.waysDue := rfl
@[simp] theorem setDie_fused (s : State) (d : Nat) (x : Die) : (s.setDie d x).fused = s.fused := rfl
@[simp] theorem setDie_ctxs (s : State) (d : Nat) (x : Die) : (s.setDie d x).ctxs = s.ctxs := rfl
@[simp] theorem setDie_queues (s : State) (d : Nat) (x : Die) : (s.setDie d x).queues = s.queues := rfl
@[simp] theorem setDie_hwSlots (s : State) (d : Nat) (x : Die) : (s.setDie d x).hwSlots = s.hwSlots := rfl
@[simp] theorem setDie_lastSlot (s : State) (d : Nat) (x : Die) : (s.setDie d x).lastSlot = s.lastSlot := rfl
@[simp] theorem setDie_begun (s : State) (d : Nat) (x : Die) : (s.setDie d x).begun = s.begun := rfl
@[simp] theorem setDie_parts (s : State) (d : Nat) (x : Die) : (s.setDie d x).parts = s.parts := rfl
@[simp] theorem setDie_ktab (s : State) (d : Nat) (x : Die) : (s.setDie d x).ktab = s.ktab := rfl
@[simp] theorem setDie_harts (s : State) (d : Nat) (x : Die) : (s.setDie d x).harts = s.harts := rfl
@[simp] theorem setDie_fwcActive (s : State) (d : Nat) (x : Die) : (s.setDie d x).fwcActive = s.fwcActive := rfl
@[simp] theorem setDie_fwcHalted (s : State) (d : Nat) (x : Die) : (s.setDie d x).fwcHalted = s.fwcHalted := rfl
@[simp] theorem setDie_fwRuns (s : State) (d : Nat) (x : Die) : (s.setDie d x).fwRuns = s.fwRuns := rfl
@[simp] theorem setDie_ring (s : State) (d : Nat) (x : Die) : (s.setDie d x).ring = s.ring := rfl
@[simp] theorem setDie_ringLen (s : State) (d : Nat) (x : Die) : (s.setDie d x).ringLen = s.ringLen := rfl
@[simp] theorem setDie_journalSeq (s : State) (d : Nat) (x : Die) : (s.setDie d x).journalSeq = s.journalSeq := rfl
@[simp] theorem setDie_unmade (s : State) (d : Nat) (x : Die) : (s.setDie d x).unmade = s.unmade := rfl
@[simp] theorem setDie_checkpoint (s : State) (d : Nat) (x : Die) : (s.setDie d x).checkpoint = s.checkpoint := rfl
@[simp] theorem setDie_fwMap (s : State) (d : Nat) (x : Die) : (s.setDie d x).fwMap = s.fwMap := rfl
@[simp] theorem setDie_fwDescs (s : State) (d : Nat) (x : Die) : (s.setDie d x).fwDescs = s.fwDescs := rfl
@[simp] theorem setDie_vcps (s : State) (d : Nat) (x : Die) : (s.setDie d x).vcps = s.vcps := rfl
@[simp] theorem setDie_causes (s : State) (d : Nat) (x : Die) : (s.setDie d x).causes = s.causes := rfl
@[simp] theorem setDie_irqs (s : State) (d : Nat) (x : Die) : (s.setDie d x).irqs = s.irqs := rfl
@[simp] theorem setDie_hsem (s : State) (d : Nat) (x : Die) : (s.setDie d x).hsem = s.hsem := rfl
@[simp] theorem setDie_rootAtomics (s : State) (d : Nat) (x : Die) : (s.setDie d x).rootAtomics = s.rootAtomics := rfl
@[simp] theorem setDie_rdyMap (s : State) (d : Nat) (x : Die) : (s.setDie d x).rdyMap = s.rdyMap := rfl
@[simp] theorem setDie_measure (s : State) (d : Nat) (x : Die) : (s.setDie d x).measure = s.measure := rfl
@[simp] theorem setDie_staged (s : State) (d : Nat) (x : Die) : (s.setDie d x).staged = s.staged := rfl
@[simp] theorem setDie_mbox (s : State) (d : Nat) (x : Die) : (s.setDie d x).mbox = s.mbox := rfl
@[simp] theorem setDie_devId (s : State) (d : Nat) (x : Die) : (s.setDie d x).devId = s.devId := rfl
@[simp] theorem setDie_portsUp (s : State) (d : Nat) (x : Die) : (s.setDie d x).portsUp = s.portsUp := rfl
@[simp] theorem setDie_peerDown (s : State) (d : Nat) (x : Die) : (s.setDie d x).peerDown = s.peerDown := rfl
@[simp] theorem setDie_fabdrop (s : State) (d : Nat) (x : Die) : (s.setDie d x).fabdrop = s.fabdrop := rfl
@[simp] theorem setDie_outbox (s : State) (d : Nat) (x : Die) : (s.setDie d x).outbox = s.outbox := rfl
@[simp] theorem setDie_setups (s : State) (d : Nat) (x : Die) : (s.setDie d x).setups = s.setups := rfl
@[simp] theorem setDie_received (s : State) (d : Nat) (x : Die) : (s.setDie d x).received = s.received := rfl
@[simp] theorem setDie_early (s : State) (d : Nat) (x : Die) : (s.setDie d x).early = s.early := rfl
@[simp] theorem setDie_landing (s : State) (d : Nat) (x : Die) : (s.setDie d x).landing = s.landing := rfl
@[simp] theorem setDie_spill (s : State) (d : Nat) (x : Die) : (s.setDie d x).spill = s.spill := rfl

/-! ## `setPass` -/

@[simp] theorem setPass_agenda (s : State) (c p : Nat) (x : Pass) : (s.setPass c p x).agenda = s.agenda := rfl
@[simp] theorem setPass_turn (s : State) (c p : Nat) (x : Pass) : (s.setPass c p x).turn = s.turn := rfl
@[simp] theorem setPass_free (s : State) (c p : Nat) (x : Pass) : (s.setPass c p x).free = s.free := rfl
@[simp] theorem setPass_ids (s : State) (c p : Nat) (x : Pass) : (s.setPass c p x).ids = s.ids := rfl
@[simp] theorem setPass_time (s : State) (c p : Nat) (x : Pass) : (s.setPass c p x).time = s.time := rfl
@[simp] theorem setPass_boundaries (s : State) (c p : Nat) (x : Pass) : (s.setPass c p x).boundaries = s.boundaries := rfl
@[simp] theorem setPass_lastCore (s : State) (c p : Nat) (x : Pass) : (s.setPass c p x).lastCore = s.lastCore := rfl
@[simp] theorem setPass_burst (s : State) (c p : Nat) (x : Pass) : (s.setPass c p x).burst = s.burst := rfl
@[simp] theorem setPass_mem (s : State) (c p : Nat) (x : Pass) : (s.setPass c p x).mem = s.mem := rfl
@[simp] theorem setPass_badWords (s : State) (c p : Nat) (x : Pass) : (s.setPass c p x).badWords = s.badWords := rfl
@[simp] theorem setPass_lineKey (s : State) (c p : Nat) (x : Pass) : (s.setPass c p x).lineKey = s.lineKey := rfl
@[simp] theorem setPass_dirtyPages (s : State) (c p : Nat) (x : Pass) : (s.setPass c p x).dirtyPages = s.dirtyPages := rfl
@[simp] theorem setPass_tracking (s : State) (c p : Nat) (x : Pass) : (s.setPass c p x).tracking = s.tracking := rfl
@[simp] theorem setPass_vcpPages (s : State) (c p : Nat) (x : Pass) : (s.setPass c p x).vcpPages = s.vcpPages := rfl
@[simp] theorem setPass_held (s : State) (c p : Nat) (x : Pass) : (s.setPass c p x).held = s.held := rfl
@[simp] theorem setPass_l2 (s : State) (c p : Nat) (x : Pass) : (s.setPass c p x).l2 = s.l2 := rfl
@[simp] theorem setPass_l2use (s : State) (c p : Nat) (x : Pass) : (s.setPass c p x).l2use = s.l2use := rfl
@[simp] theorem setPass_cores (s : State) (c p : Nat) (x : Pass) : (s.setPass c p x).cores = Tbl.put s.cores c { s.core c with pipes := Tbl.put (s.core c).pipes p x } := rfl
@[simp] theorem setPass_ctlb (s : State) (c p : Nat) (x : Pass) : (s.setPass c p x).ctlb = s.ctlb := rfl
@[simp] theorem setPass_threads (s : State) (c p : Nat) (x : Pass) : (s.setPass c p x).threads = s.threads := rfl
@[simp] theorem setPass_gangs (s : State) (c p : Nat) (x : Pass) : (s.setPass c p x).gangs = s.gangs := rfl
@[simp] theorem setPass_teams (s : State) (c p : Nat) (x : Pass) : (s.setPass c p x).teams = s.teams := rfl
@[simp] theorem setPass_grids (s : State) (c p : Nat) (x : Pass) : (s.setPass c p x).grids = s.grids := rfl
@[simp] theorem setPass_copies (s : State) (c p : Nat) (x : Pass) : (s.setPass c p x).copies = s.copies := rfl
@[simp] theorem setPass_dies (s : State) (c p : Nat) (x : Pass) : (s.setPass c p x).dies = s.dies := rfl
@[simp] theorem setPass_pendingSteps (s : State) (c p : Nat) (x : Pass) : (s.setPass c p x).pendingSteps = s.pendingSteps := rfl
@[simp] theorem setPass_loopPass (s : State) (c p : Nat) (x : Pass) : (s.setPass c p x).loopPass = s.loopPass := rfl
@[simp] theorem setPass_waysDue (s : State) (c p : Nat) (x : Pass) : (s.setPass c p x).waysDue = s.waysDue := rfl
@[simp] theorem setPass_fused (s : State) (c p : Nat) (x : Pass) : (s.setPass c p x).fused = s.fused := rfl
@[simp] theorem setPass_ctxs (s : State) (c p : Nat) (x : Pass) : (s.setPass c p x).ctxs = s.ctxs := rfl
@[simp] theorem setPass_queues (s : State) (c p : Nat) (x : Pass) : (s.setPass c p x).queues = s.queues := rfl
@[simp] theorem setPass_hwSlots (s : State) (c p : Nat) (x : Pass) : (s.setPass c p x).hwSlots = s.hwSlots := rfl
@[simp] theorem setPass_lastSlot (s : State) (c p : Nat) (x : Pass) : (s.setPass c p x).lastSlot = s.lastSlot := rfl
@[simp] theorem setPass_begun (s : State) (c p : Nat) (x : Pass) : (s.setPass c p x).begun = s.begun := rfl
@[simp] theorem setPass_parts (s : State) (c p : Nat) (x : Pass) : (s.setPass c p x).parts = s.parts := rfl
@[simp] theorem setPass_ktab (s : State) (c p : Nat) (x : Pass) : (s.setPass c p x).ktab = s.ktab := rfl
@[simp] theorem setPass_harts (s : State) (c p : Nat) (x : Pass) : (s.setPass c p x).harts = s.harts := rfl
@[simp] theorem setPass_fwcActive (s : State) (c p : Nat) (x : Pass) : (s.setPass c p x).fwcActive = s.fwcActive := rfl
@[simp] theorem setPass_fwcHalted (s : State) (c p : Nat) (x : Pass) : (s.setPass c p x).fwcHalted = s.fwcHalted := rfl
@[simp] theorem setPass_fwRuns (s : State) (c p : Nat) (x : Pass) : (s.setPass c p x).fwRuns = s.fwRuns := rfl
@[simp] theorem setPass_ring (s : State) (c p : Nat) (x : Pass) : (s.setPass c p x).ring = s.ring := rfl
@[simp] theorem setPass_ringLen (s : State) (c p : Nat) (x : Pass) : (s.setPass c p x).ringLen = s.ringLen := rfl
@[simp] theorem setPass_journalSeq (s : State) (c p : Nat) (x : Pass) : (s.setPass c p x).journalSeq = s.journalSeq := rfl
@[simp] theorem setPass_unmade (s : State) (c p : Nat) (x : Pass) : (s.setPass c p x).unmade = s.unmade := rfl
@[simp] theorem setPass_checkpoint (s : State) (c p : Nat) (x : Pass) : (s.setPass c p x).checkpoint = s.checkpoint := rfl
@[simp] theorem setPass_fwMap (s : State) (c p : Nat) (x : Pass) : (s.setPass c p x).fwMap = s.fwMap := rfl
@[simp] theorem setPass_fwDescs (s : State) (c p : Nat) (x : Pass) : (s.setPass c p x).fwDescs = s.fwDescs := rfl
@[simp] theorem setPass_vcps (s : State) (c p : Nat) (x : Pass) : (s.setPass c p x).vcps = s.vcps := rfl
@[simp] theorem setPass_causes (s : State) (c p : Nat) (x : Pass) : (s.setPass c p x).causes = s.causes := rfl
@[simp] theorem setPass_irqs (s : State) (c p : Nat) (x : Pass) : (s.setPass c p x).irqs = s.irqs := rfl
@[simp] theorem setPass_hsem (s : State) (c p : Nat) (x : Pass) : (s.setPass c p x).hsem = s.hsem := rfl
@[simp] theorem setPass_rootAtomics (s : State) (c p : Nat) (x : Pass) : (s.setPass c p x).rootAtomics = s.rootAtomics := rfl
@[simp] theorem setPass_rdyMap (s : State) (c p : Nat) (x : Pass) : (s.setPass c p x).rdyMap = s.rdyMap := rfl
@[simp] theorem setPass_measure (s : State) (c p : Nat) (x : Pass) : (s.setPass c p x).measure = s.measure := rfl
@[simp] theorem setPass_staged (s : State) (c p : Nat) (x : Pass) : (s.setPass c p x).staged = s.staged := rfl
@[simp] theorem setPass_mbox (s : State) (c p : Nat) (x : Pass) : (s.setPass c p x).mbox = s.mbox := rfl
@[simp] theorem setPass_devId (s : State) (c p : Nat) (x : Pass) : (s.setPass c p x).devId = s.devId := rfl
@[simp] theorem setPass_portsUp (s : State) (c p : Nat) (x : Pass) : (s.setPass c p x).portsUp = s.portsUp := rfl
@[simp] theorem setPass_peerDown (s : State) (c p : Nat) (x : Pass) : (s.setPass c p x).peerDown = s.peerDown := rfl
@[simp] theorem setPass_fabdrop (s : State) (c p : Nat) (x : Pass) : (s.setPass c p x).fabdrop = s.fabdrop := rfl
@[simp] theorem setPass_outbox (s : State) (c p : Nat) (x : Pass) : (s.setPass c p x).outbox = s.outbox := rfl
@[simp] theorem setPass_setups (s : State) (c p : Nat) (x : Pass) : (s.setPass c p x).setups = s.setups := rfl
@[simp] theorem setPass_received (s : State) (c p : Nat) (x : Pass) : (s.setPass c p x).received = s.received := rfl
@[simp] theorem setPass_early (s : State) (c p : Nat) (x : Pass) : (s.setPass c p x).early = s.early := rfl
@[simp] theorem setPass_landing (s : State) (c p : Nat) (x : Pass) : (s.setPass c p x).landing = s.landing := rfl
@[simp] theorem setPass_spill (s : State) (c p : Nat) (x : Pass) : (s.setPass c p x).spill = s.spill := rfl

/-! ## Accessors after updates -/

theorem core_setCore (s : State) (a b : Nat) (x : Core) : (s.setCore a x).core b = if b = a then x else s.core b := Tbl.at_put _ _ _ _ _
@[simp] theorem core_setCore_self (s : State) (a : Nat) (x : Core) : (s.setCore a x).core a = x := by simp [core_setCore]
theorem team_setTeam (s : State) (a b : Nat) (x : Team) : (s.setTeam a x).team b = if b = a then x else s.team b := Tbl.at_put _ _ _ _ _
@[simp] theorem team_setTeam_self (s : State) (a : Nat) (x : Team) : (s.setTeam a x).team a = x := by simp [team_setTeam]
theorem grid_setGrid (s : State) (a b : Nat) (x : Grid) : (s.setGrid a x).grid b = if b = a then x else s.grid b := Tbl.at_put _ _ _ _ _
@[simp] theorem grid_setGrid_self (s : State) (a : Nat) (x : Grid) : (s.setGrid a x).grid a = x := by simp [grid_setGrid]
theorem ctx_setCtx (s : State) (a b : Nat) (x : Ctx) : (s.setCtx a x).ctx b = if b = a then x else s.ctx b := Tbl.at_put _ _ _ _ _
@[simp] theorem ctx_setCtx_self (s : State) (a : Nat) (x : Ctx) : (s.setCtx a x).ctx a = x := by simp [ctx_setCtx]
theorem die_setDie (s : State) (a b : Nat) (x : Die) : (s.setDie a x).die b = if b = a then x else s.die b := Tbl.at_put _ _ _ _ _
@[simp] theorem die_setDie_self (s : State) (a : Nat) (x : Die) : (s.setDie a x).die a = x := by simp [die_setDie]
theorem thr_setThr (s : State) (c k d j : Nat) (x : Thread) :
    (s.setThr c k x).thr d j = if threadKey d j = threadKey c k then x else s.thr d j := Tbl.at_put _ _ _ _ _
@[simp] theorem thr_setThr_self (s : State) (c k : Nat) (x : Thread) : (s.setThr c k x).thr c k = x := by simp [thr_setThr]
theorem gang_setGang (s : State) (c g d j : Nat) (x : Gang) :
    (s.setGang c g x).gang d j = if gangKey d j = gangKey c g then x else s.gang d j := Tbl.at_put _ _ _ _ _
@[simp] theorem gang_setGang_self (s : State) (c g : Nat) (x : Gang) : (s.setGang c g x).gang c g = x := by simp [gang_setGang]
@[simp] theorem thr_setCore (s : State) (c : Nat) (x : Core) (a b : Nat) : (s.setCore c x).thr a b = s.thr a b := rfl
@[simp] theorem gang_setCore (s : State) (c : Nat) (x : Core) (a b : Nat) : (s.setCore c x).gang a b = s.gang a b := rfl
@[simp] theorem team_setCore (s : State) (c : Nat) (x : Core) (a : Nat) : (s.setCore c x).team a = s.team a := rfl
@[simp] theorem grid_setCore (s : State) (c : Nat) (x : Core) (a : Nat) : (s.setCore c x).grid a = s.grid a := rfl
@[simp] theorem ctx_setCore (s : State) (c : Nat) (x : Core) (a : Nat) : (s.setCore c x).ctx a = s.ctx a := rfl
@[simp] theorem die_setCore (s : State) (c : Nat) (x : Core) (a : Nat) : (s.setCore c x).die a = s.die a := rfl
@[simp] theorem core_setThr (s : State) (c k : Nat) (x : Thread) (a : Nat) : (s.setThr c k x).core a = s.core a := rfl
@[simp] theorem gang_setThr (s : State) (c k : Nat) (x : Thread) (a b : Nat) : (s.setThr c k x).gang a b = s.gang a b := rfl
@[simp] theorem team_setThr (s : State) (c k : Nat) (x : Thread) (a : Nat) : (s.setThr c k x).team a = s.team a := rfl
@[simp] theorem grid_setThr (s : State) (c k : Nat) (x : Thread) (a : Nat) : (s.setThr c k x).grid a = s.grid a := rfl
@[simp] theorem ctx_setThr (s : State) (c k : Nat) (x : Thread) (a : Nat) : (s.setThr c k x).ctx a = s.ctx a := rfl
@[simp] theorem die_setThr (s : State) (c k : Nat) (x : Thread) (a : Nat) : (s.setThr c k x).die a = s.die a := rfl
@[simp] theorem core_setGang (s : State) (c g : Nat) (x : Gang) (a : Nat) : (s.setGang c g x).core a = s.core a := rfl
@[simp] theorem thr_setGang (s : State) (c g : Nat) (x : Gang) (a b : Nat) : (s.setGang c g x).thr a b = s.thr a b := rfl
@[simp] theorem team_setGang (s : State) (c g : Nat) (x : Gang) (a : Nat) : (s.setGang c g x).team a = s.team a := rfl
@[simp] theorem grid_setGang (s : State) (c g : Nat) (x : Gang) (a : Nat) : (s.setGang c g x).grid a = s.grid a := rfl
@[simp] theorem ctx_setGang (s : State) (c g : Nat) (x : Gang) (a : Nat) : (s.setGang c g x).ctx a = s.ctx a := rfl
@[simp] theorem die_setGang (s : State) (c g : Nat) (x : Gang) (a : Nat) : (s.setGang c g x).die a = s.die a := rfl
@[simp] theorem core_setTeam (s : State) (t : Nat) (x : Team) (a : Nat) : (s.setTeam t x).core a = s.core a := rfl
@[simp] theorem thr_setTeam (s : State) (t : Nat) (x : Team) (a b : Nat) : (s.setTeam t x).thr a b = s.thr a b := rfl
@[simp] theorem gang_setTeam (s : State) (t : Nat) (x : Team) (a b : Nat) : (s.setTeam t x).gang a b = s.gang a b := rfl
@[simp] theorem grid_setTeam (s : State) (t : Nat) (x : Team) (a : Nat) : (s.setTeam t x).grid a = s.grid a := rfl
@[simp] theorem ctx_setTeam (s : State) (t : Nat) (x : Team) (a : Nat) : (s.setTeam t x).ctx a = s.ctx a := rfl
@[simp] theorem die_setTeam (s : State) (t : Nat) (x : Team) (a : Nat) : (s.setTeam t x).die a = s.die a := rfl
@[simp] theorem core_setGrid (s : State) (g : Nat) (x : Grid) (a : Nat) : (s.setGrid g x).core a = s.core a := rfl
@[simp] theorem thr_setGrid (s : State) (g : Nat) (x : Grid) (a b : Nat) : (s.setGrid g x).thr a b = s.thr a b := rfl
@[simp] theorem gang_setGrid (s : State) (g : Nat) (x : Grid) (a b : Nat) : (s.setGrid g x).gang a b = s.gang a b := rfl
@[simp] theorem team_setGrid (s : State) (g : Nat) (x : Grid) (a : Nat) : (s.setGrid g x).team a = s.team a := rfl
@[simp] theorem ctx_setGrid (s : State) (g : Nat) (x : Grid) (a : Nat) : (s.setGrid g x).ctx a = s.ctx a := rfl
@[simp] theorem die_setGrid (s : State) (g : Nat) (x : Grid) (a : Nat) : (s.setGrid g x).die a = s.die a := rfl
@[simp] theorem core_setCtx (s : State) (c : Nat) (x : Ctx) (a : Nat) : (s.setCtx c x).core a = s.core a := rfl
@[simp] theorem thr_setCtx (s : State) (c : Nat) (x : Ctx) (a b : Nat) : (s.setCtx c x).thr a b = s.thr a b := rfl
@[simp] theorem gang_setCtx (s : State) (c : Nat) (x : Ctx) (a b : Nat) : (s.setCtx c x).gang a b = s.gang a b := rfl
@[simp] theorem team_setCtx (s : State) (c : Nat) (x : Ctx) (a : Nat) : (s.setCtx c x).team a = s.team a := rfl
@[simp] theorem grid_setCtx (s : State) (c : Nat) (x : Ctx) (a : Nat) : (s.setCtx c x).grid a = s.grid a := rfl
@[simp] theorem die_setCtx (s : State) (c : Nat) (x : Ctx) (a : Nat) : (s.setCtx c x).die a = s.die a := rfl
@[simp] theorem core_setDie (s : State) (d : Nat) (x : Die) (a : Nat) : (s.setDie d x).core a = s.core a := rfl
@[simp] theorem thr_setDie (s : State) (d : Nat) (x : Die) (a b : Nat) : (s.setDie d x).thr a b = s.thr a b := rfl
@[simp] theorem gang_setDie (s : State) (d : Nat) (x : Die) (a b : Nat) : (s.setDie d x).gang a b = s.gang a b := rfl
@[simp] theorem team_setDie (s : State) (d : Nat) (x : Die) (a : Nat) : (s.setDie d x).team a = s.team a := rfl
@[simp] theorem grid_setDie (s : State) (d : Nat) (x : Die) (a : Nat) : (s.setDie d x).grid a = s.grid a := rfl
@[simp] theorem ctx_setDie (s : State) (d : Nat) (x : Die) (a : Nat) : (s.setDie d x).ctx a = s.ctx a := rfl
@[simp] theorem thr_setPass (s : State) (c p : Nat) (x : Pass) (a b : Nat) : (s.setPass c p x).thr a b = s.thr a b := rfl
@[simp] theorem gang_setPass (s : State) (c p : Nat) (x : Pass) (a b : Nat) : (s.setPass c p x).gang a b = s.gang a b := rfl
@[simp] theorem team_setPass (s : State) (c p : Nat) (x : Pass) (a : Nat) : (s.setPass c p x).team a = s.team a := rfl
@[simp] theorem grid_setPass (s : State) (c p : Nat) (x : Pass) (a : Nat) : (s.setPass c p x).grid a = s.grid a := rfl
@[simp] theorem ctx_setPass (s : State) (c p : Nat) (x : Pass) (a : Nat) : (s.setPass c p x).ctx a = s.ctx a := rfl
@[simp] theorem die_setPass (s : State) (c p : Nat) (x : Pass) (a : Nat) : (s.setPass c p x).die a = s.die a := rfl
/-! ## Updates by a function -/

@[simp] theorem modCore_eq (s : State) (c : Nat) (h : Core → Core) : s.modCore c h = s.setCore c (h (s.core c)) := rfl
@[simp] theorem modThr_eq (s : State) (c k : Nat) (h : Thread → Thread) : s.modThr c k h = s.setThr c k (h (s.thr c k)) := rfl
@[simp] theorem modGang_eq (s : State) (c g : Nat) (h : Gang → Gang) : s.modGang c g h = s.setGang c g (h (s.gang c g)) := rfl
@[simp] theorem modTeam_eq (s : State) (t : Nat) (h : Team → Team) : s.modTeam t h = s.setTeam t (h (s.team t)) := rfl
@[simp] theorem modGrid_eq (s : State) (g : Nat) (h : Grid → Grid) : s.modGrid g h = s.setGrid g (h (s.grid g)) := rfl
@[simp] theorem modCtx_eq (s : State) (c : Nat) (h : Ctx → Ctx) : s.modCtx c h = s.setCtx c (h (s.ctx c)) := rfl
@[simp] theorem modDie_eq (s : State) (d : Nat) (h : Die → Die) : s.modDie d h = s.setDie d (h (s.die d)) := rfl

end Sys2Proof.Machine.State
end

