-- ==== Sys2Proof/Laws/Levels.lean ====
section
/-!
SUPPORT. What the operations on the levels of memory may change: every one of them stays within `MemSide`.
-/
namespace Sys2Proof.Machine

/-- A change that meets no page of a virtual command processor. -/
theorem MemSide.of {s t : State}
    (rest : t = { s with
      mem := t.mem, badWords := t.badWords, lineKey := t.lineKey, dirtyPages := t.dirtyPages, l2 := t.l2, l2use := t.l2use
      cores := t.cores, ctlb := t.ctlb })
    (core : ∀ c, t.core c = { s.core c with
      l1 := (t.core c).l1, l1use := (t.core c).l1use, tlb := (t.core c).tlb, monitor := (t.core c).monitor })
    (wf : Memory.wf s.mem = true → Memory.wf t.mem = true) : MemSide s t := by
  have hv : t.vcps = s.vcps := by rw [rest]
  have hq : t.queues = s.queues := by rw [rest]
  refine ⟨by rw [rest], core, wf, fun _ => ⟨hv, hq⟩, fun n => ?_, fun n => ?_⟩
  · simp only [State.vcp, hv]
  · simp only [State.queue, hq]

theorem MemSide.refl (s : State) : MemSide s s := .of rfl (fun _ => rfl) id

theorem MemSide.pages {s t : State} (h : MemSide s t) : t.vcpPages = s.vcpPages := by rw [h.rest]

theorem MemSide.trans {s t u : State} (h : MemSide s t) (g : MemSide t u) : MemSide s u := by
  refine ⟨?_, fun c => ?_, fun w => g.wf (h.wf w), fun e => ?_, fun n => ?_, fun n => ?_⟩
  · rw [g.rest, h.rest]
  · rw [g.core c, h.core c]
  · obtain ⟨a, b⟩ := g.unplaced (h.pages.trans e)
    exact ⟨a.trans (h.unplaced e).1, b.trans (h.unplaced e).2⟩
  · rw [g.page n, h.page n]
  · rw [g.queue n, h.queue n]

/-- A fold of operations that stay within it. -/
theorem MemSide.fold {α : Type} {f : State → α → State} (h : ∀ s a, MemSide s (f s a)) (l : List α) (s : State) :
    MemSide s (l.foldl f s) := by
  induction l generalizing s with
  | nil => exact .refl s
  | cons a r ih => exact (h s a).trans (ih _)

/-- A core's caches and monitors change. -/
theorem MemSide.modCore (s : State) (c : Nat) (f : Core → Core)
    (h : f (s.core c) = { s.core c with
      l1 := (f (s.core c)).l1, l1use := (f (s.core c)).l1use, tlb := (f (s.core c)).tlb, monitor := (f (s.core c)).monitor }) :
    MemSide s (s.modCore c f) := by
  refine .of rfl (fun d => ?_) id
  rw [State.modCore_eq, State.core_setCore]
  split
  · next e => subst e; exact h
  · rfl

/-- Memory changes, with its keys, errors and tracked pages. -/
theorem MemSide.mem (s : State) (m : List Host.Cell) (k : Tbl (List Byte)) (b : List Nat) (d : List (Nat × Nat))
    (h : Memory.wf s.mem = true → Memory.wf m = true) :
    MemSide s { s with mem := m, lineKey := k, badWords := b, dirtyPages := d } := .of rfl (fun _ => rfl) h

theorem State.rekey_side (s : State) (key line : Nat) : MemSide s (s.rekey key line) := by
  unfold State.rekey
  split
  · exact .refl s
  · exact MemSide.mem s _ _ s.badWords s.dirtyPages (fun h => Memory.wf_setBytes _ _ h)

/-- A page changes in PEND or in its plain bytes. -/
theorem State.setVcp_side (s : State) (n b : Nat) (v : Vcp) (hb : s.vcpPages = some b)
    (h : v = { s.vcp n with pend := v.pend, area := v.area }) : MemSide s (s.setVcp n v) := by
  refine ⟨rfl, fun _ => rfl, id, fun e => ?_, fun j => ?_, fun _ => rfl⟩
  · rw [hb] at e; cases e
  · simp only [State.setVcp, State.vcp, Tbl.at_put]
    split
    · next e => subst e; exact h
    · rfl

/-- A descriptor changes in what its owner writes. -/
theorem State.setQueue_side (s : State) (n b : Nat) (q : Queue) (hb : s.vcpPages = some b)
    (h : q = { s.queue n with ring := q.ring, qctl := q.qctl, qstat := q.qstat, wridx := q.wridx }) : MemSide s (s.setQueue n q) := by
  refine ⟨rfl, fun _ => rfl, id, fun e => ?_, fun _ => rfl, fun j => ?_⟩
  · rw [hb] at e; cases e
  · simp only [State.setQueue, State.queue, Tbl.at_put]
    split
    · next e => subst e; exact h
    · rfl

theorem State.vcpSetByte_side (s : State) (n off b : Nat) (x : Byte) (hb : s.vcpPages = some b) : MemSide s (s.vcpSetByte n off x) := by
  unfold State.vcpSetByte
  dsimp only
  split
  · exact s.setVcp_side n b _ hb rfl
  · split
    · exact .refl s
    · split
      · exact s.setVcp_side n b _ hb rfl
      · exact s.setQueue_side _ b _ hb rfl

theorem State.pageAt_placed {s : State} {pa : Nat} {e : Nat × Nat} (h : s.pageAt pa = some e) : ∃ b, s.vcpPages = some b := by
  unfold State.pageAt at h
  split at h
  · cases h
  · next b hb => exact ⟨b, hb⟩

theorem State.putByte_side (s : State) (pa : Nat) (b : Byte) : MemSide s (s.putByte pa b) := by
  unfold State.putByte
  split
  · next e he =>
    obtain ⟨p, hp⟩ := State.pageAt_placed he
    exact s.vcpSetByte_side _ _ p b hp
  · exact .of rfl (fun _ => rfl) (fun h => Memory.wf_set _ _ h)

theorem State.putEach_side (s : State) (pa : Nat) (bytes : List Byte) : MemSide s (s.putEach pa bytes) := by
  unfold State.putEach
  split
  · exact .of rfl (fun _ => rfl) (fun h => Memory.wf_setBytes _ _ h)
  · exact MemSide.fold (fun s e => s.putByte_side _ _) _ s

theorem State.putBytes_side (s : State) (pa : Nat) (bytes : List Byte) : MemSide s (s.putBytes pa bytes) :=
  (s.putEach_side pa bytes).trans (MemSide.mem _ (s.putEach pa bytes).mem (s.putEach pa bytes).lineKey _ _ id)

theorem State.physWrite_side (s : State) (key pa : Nat) (bytes : List Byte) : MemSide s (s.physWrite key pa bytes) :=
  (s.rekey_side key (pa / 64)).trans (State.putBytes_side _ _ _)

theorem State.putMasked_side (s : State) (key line : Nat) (d : BitVec 512) (mask : BitVec 64) :
    MemSide s (s.putMasked key line d mask) :=
  MemSide.fold (fun s _ => s.physWrite_side _ _ _) _ s

theorem State.clearBad_side (s : State) (line : Nat) (mask : BitVec 64) : MemSide s (s.clearBad line mask) :=
  .of rfl (fun _ => rfl) id

theorem State.writeBack_side (s : State) (c key : Nat) : MemSide s (s.writeBack c key) := by
  unfold State.writeBack
  split
  · exact .refl s
  · split
    · exact .refl s
    · exact ((s.putMasked_side _ _ _ _).trans (State.clearBad_side _ _ _)).trans (MemSide.modCore _ _ _ rfl)

theorem State.evictL1_side (s : State) (c key : Nat) : MemSide s (s.evictL1 c key) :=
  (s.writeBack_side c key).trans (MemSide.modCore (s.writeBack c key) c (fun k => { k with l1 := Tbl.drop k.l1 key }) rfl)

theorem State.writeBackAll_side (s : State) (c : Nat) : MemSide s (s.writeBackAll c) :=
  MemSide.fold (fun s _ => s.writeBack_side _ _) _ s

theorem State.flushL1_side (s : State) (c : Nat) (const : Bool) : MemSide s (s.flushL1 c const) :=
  (s.writeBackAll_side c).trans
    (MemSide.modCore (s.writeBackAll c) c (fun k => { k with l1 := if const then [] else k.l1.filter (fun e => e.2.const) }) rfl)

theorem State.l1Trim_side (s : State) (c room n : Nat) : MemSide s (s.l1Trim c room n) := by
  induction n generalizing s with
  | zero => exact .refl s
  | succ n ih =>
    unfold State.l1Trim
    split
    · exact .refl s
    · split
      · exact .refl s
      · exact (s.evictL1_side _ _).trans (ih _)

theorem State.l1Put_side (s : State) (l1 policy : Nat) (l : L1Line) : MemSide s (s.l1Put l1 policy l) :=
  (MemSide.modCore s l1 _ rfl).trans (State.l1Trim_side _ _ _ _)

/-- Lines of the L2 change. -/
theorem MemSide.l2 (s : State) (l : Tbl L2Line) : MemSide s { s with l2 := l } := .of rfl (fun _ => rfl) id

/-- Lines of the L2 change, and the memory behind them. -/
theorem MemSide.lines (s : State) (l : Tbl L2Line) (m : List Host.Cell) (k : Tbl (List Byte))
    (h : Memory.wf s.mem = true → Memory.wf m = true) : MemSide s { s with l2 := l, mem := m, lineKey := k } := .of rfl (fun _ => rfl) h

theorem State.promoteCore_side (s : State) (o : Nat) : MemSide s (s.promoteCore o) :=
  MemSide.fold (fun s _ => s.writeBackAll_side _) _ s

theorem State.promote_side (s : State) (line : Nat) : MemSide s (s.promote line) := by
  unfold State.promote
  split
  · exact .refl s
  · split
    · exact .refl s
    · exact (s.promoteCore_side _).trans (MemSide.l2 _ _)

/-- Words become uncorrectable. -/
theorem MemSide.bad (s : State) (b : List Nat) : MemSide s { s with badWords := b } := .of rfl (fun _ => rfl) id

/-- A slice gives up a bad line. -/
theorem State.giveUp_side (s : State) (line : Nat) (l : L2Line) : MemSide s (s.giveUp line l) :=
  MemSide.lines _ _ _ _ (fun h => Memory.wf_setBytes _ _ h)

theorem State.evictL2_side (s : State) (line : Nat) : MemSide s (s.evictL2 line) := by
  unfold State.evictL2
  dsimp only
  split
  · exact s.promote_side line
  · split
    · exact ((s.promote_side line).trans (State.giveUp_side _ _ _)).trans (MemSide.bad _ _)
    · exact (s.promote_side line).trans (MemSide.l2 _ _)

theorem State.monitorAccess_side (s : State) (c line : Nat) : MemSide s (s.monitorAccess c line) := by
  unfold State.monitorAccess
  dsimp only
  split
  · exact .refl s
  · exact MemSide.modCore _ _ _ rfl

theorem State.l2Fill_side (s : State) (key line way : Nat) : MemSide s (s.l2Fill key line way) := MemSide.l2 s _

theorem State.l2Allocate_side (s : State) (ctx key line : Nat) : MemSide s (s.l2Allocate ctx key line) := by
  unfold State.l2Allocate
  dsimp only
  split
  · exact s.l2Fill_side _ _ _
  · split
    · exact .refl s
    · split
      · exact .refl s
      · exact (s.evictL2_side _).trans (State.l2Fill_side _ _ _ _)

theorem State.l2Use_side (s : State) (ctx key line : Nat) : MemSide s (s.l2Use ctx key line) := by
  unfold State.l2Use
  split
  · exact .refl s
  · split
    · exact MemSide.l2 s _
    · refine MemSide.trans ?_ (State.l2Allocate_side _ _ _ _)
      split
      · exact s.evictL2_side line
      · exact .refl s

theorem State.l2Touch_side (s : State) (c ctx key line : Nat) : MemSide s (s.l2Touch c ctx key line) := by
  unfold State.l2Touch
  split
  · exact .refl s
  · refine MemSide.trans ?_ (State.l2Use_side _ _ _ _)
    exact (s.monitorAccess_side c line).trans (.of rfl (fun _ => rfl) id)

theorem State.reload_side (s : State) (line : Nat) (l : L2Line) : MemSide s (s.reload line l) :=
  MemSide.lines _ _ _ _ (fun h => Memory.wf_setBytes _ _ h)

theorem State.refetch_side (s : State) (ctx line : Nat) (shared : Bool) : MemSide s (s.refetch ctx line shared) := by
  unfold State.refetch
  split
  · exact .refl s
  · split
    · exact s.reload_side _ _
    · exact .refl s

theorem State.meetLine_side (s : State) (v : Via) (m : Mapping) : MemSide s (s.meetLine v m) := s.refetch_side _ _ _

theorem State.l2Lose_side (s : State) (line : Nat) : MemSide s (s.l2Lose line) := by
  unfold State.l2Lose
  dsimp only
  split
  · exact s.promote_side line
  · split
    · exact (s.promote_side line).trans (State.giveUp_side _ _ _)
    · split
      · exact (s.promote_side line).trans (MemSide.l2 _ _)
      · exact s.promote_side line

theorem State.settleLine_side (s : State) (ctx line : Nat) : MemSide s (s.settleLine ctx line) := by
  unfold State.settleLine
  split
  · exact s.l2Lose_side line
  · exact .refl s

theorem State.settleLines_side (s : State) (ctx : Nat) (ls : List (Nat × Bool)) : MemSide s (s.settleLines ctx ls) :=
  MemSide.fold (fun s _ => (s.refetch_side _ _ _).trans (State.settleLine_side _ _ _)) _ s

theorem State.walkMet_side (s : State) (ctx : Nat) (last : Bool) (va : Nat) : MemSide s (s.walkMet ctx last va) := by
  unfold State.walkMet
  split
  · exact s.settleLines_side _ _
  · exact .refl s

theorem State.keepTlb_side (s : State) (c : Nat) (e : TlbEntry) : MemSide s (s.keepTlb c e) := MemSide.modCore s c _ rfl

/-- A cluster's cached translations change. -/
theorem MemSide.ctlb (s : State) (t : Tbl (List TlbEntry)) : MemSide s { s with ctlb := t } := .of rfl (fun _ => rfl) id

theorem State.fillTlb_side (s : State) (c : Nat) (e : TlbEntry) : MemSide s (s.fillTlb c e) :=
  (MemSide.ctlb s _).trans (State.keepTlb_side _ _ _)

theorem State.translate_side {s t : State} {c ctx : Nat} {n : Need} {va : Nat} {m : Mapping}
    (h : s.translate c ctx n va = .ok (t, m)) : MemSide s t := by
  unfold State.translate at h
  split at h
  · split_ifs at h
    cases h; exact s.keepTlb_side _ _
  · split at h
    · cases h
    · cases h; exact (s.walkMet_side _ _ _).trans (State.fillTlb_side _ _ _)

theorem State.l1Keep_side (s : State) (v : Via) (policy : Nat) (l : L1Line) : MemSide s (s.l1Keep v policy l) := by
  unfold State.l1Keep
  split
  · exact s.l1Put_side _ _ _
  · exact s.settleLine_side _ _

theorem State.l1Fill_side (s : State) (v : Via) (policy key line : Nat) (const : Bool) :
    MemSide s (s.l1Fill v policy key line const).1 :=
  (s.l2Touch_side v.core v.ctx key line).trans (State.l1Keep_side _ _ _ _)

theorem State.l1Fetch_side (s : State) (v : Via) (policy key line : Nat) (const : Bool) :
    MemSide s (s.l1Fetch v policy key line const).1 := by
  unfold State.l1Fetch
  split
  · split
    · exact s.l1Put_side _ _ _
    · exact (s.evictL1_side _ _).trans (State.l1Fill_side _ _ _ _ _ _)
  · exact s.l1Fill_side _ _ _ _ _

theorem State.globalLoad_side (s : State) (v : Via) (m : Mapping) (policy n : Nat) (const : Bool) :
    MemSide s (s.globalLoad v m policy n const).1 := by
  unfold State.globalLoad
  dsimp only
  split
  · exact (((s.evictL1_side _ _).trans (State.l2Touch_side _ _ _ _ _)).trans (State.meetLine_side _ _ _)).trans (State.settleLine_side _ _ _)
  · exact (s.meetLine_side _ _).trans (State.l1Fetch_side _ _ _ _ _ _)

theorem State.globalStore_side (s : State) (v : Via) (m : Mapping) (policy : Nat) (bs : List Byte) :
    MemSide s (s.globalStore v m policy bs) := by
  unfold State.globalStore
  dsimp only
  split
  · exact (((s.evictL1_side _ _).trans (State.l2Touch_side _ _ _ _ _)).trans (State.settleLine_side _ _ _)).trans (State.physWrite_side _ _ _ _)
  · refine (s.l1Fetch_side v policy m.key (m.pa / 64) false).trans ?_
    split
    · exact State.l1Put_side _ _ _ _
    · exact State.physWrite_side _ _ _ _

theorem State.atHome_side (s : State) (v : Via) (m : Mapping) : MemSide s (s.atHome v m) :=
  (s.evictL1_side _ _).trans (State.l2Touch_side _ _ _ _ _)

theorem State.yieldTag_side (s : State) (line core : Nat) : MemSide s (s.yieldTag line core) := by
  unfold State.yieldTag
  split
  · exact .refl s
  · split
    · exact s.promote_side line
    · exact .refl s

theorem State.tagOwner_side (s : State) (line core : Nat) : MemSide s (s.tagOwner line core) := by
  unfold State.tagOwner
  split
  · exact s.promoteCore_side core
  · dsimp only
    split
    · exact (s.promote_side line).trans (MemSide.l2 _ _)
    · exact MemSide.l2 _ _

theorem State.releaseAt_side (s : State) (c : Nat) (team : Team) (scope : Nat) : MemSide s (s.releaseAt c team scope) := by
  unfold State.releaseAt
  split
  · exact .refl s
  · exact MemSide.fold (fun s _ => s.writeBackAll_side _) _ s

theorem State.acquireAt_side (s : State) (c : Nat) (team : Team) (scope : Nat) : MemSide s (s.acquireAt c team scope) := by
  unfold State.acquireAt
  split
  · exact .refl s
  · exact MemSide.fold (fun s _ => s.flushL1_side _ _) _ s

/-! ## What does not depend on the levels of memory -/

theorem MemSide.thr {s t : State} (h : MemSide s t) (c k : Nat) : t.thr c k = s.thr c k := by rw [h.rest]; rfl
theorem MemSide.gang {s t : State} (h : MemSide s t) (c g : Nat) : t.gang c g = s.gang c g := by rw [h.rest]; rfl
theorem MemSide.team {s t : State} (h : MemSide s t) (m : Nat) : t.team m = s.team m := by rw [h.rest]; rfl
theorem MemSide.grid {s t : State} (h : MemSide s t) (g : Nat) : t.grid g = s.grid g := by rw [h.rest]; rfl
theorem MemSide.ctx {s t : State} (h : MemSide s t) (x : Nat) : t.ctx x = s.ctx x := by rw [h.rest]; rfl
theorem MemSide.pipes {s t : State} (h : MemSide s t) (c : Nat) : (t.core c).pipes = (s.core c).pipes := by rw [h.core c]

end Sys2Proof.Machine
end

