-- ==== Sys2Proof/Laws/Bytes.lean ====
section
/-!
SUPPORT. Bytes, little-endian numbers and lines: what a byte of a line is after it is built or written.
-/
namespace Sys2Proof.Machine

theorem leNat_lt (bs : List Byte) : leNat bs < 2 ^ (8 * bs.length) := by
  induction bs with
  | nil => simp [leNat]
  | cons b r ih =>
    have hb := b.isLt
    have : 2 ^ (8 * (b :: r).length) = 256 * 2 ^ (8 * r.length) := by
      rw [List.length_cons, Nat.mul_add, Nat.pow_add, Nat.mul_comm]
    simp only [leNat]
    omega

theorem testBit_leNat (bs : List Byte) (j b : Nat) (hb : b < 8) :
    (leNat bs).testBit (8 * j + b) = (bs.getD j 0).getLsbD b := by
  induction bs generalizing j with
  | nil => simp [leNat]
  | cons x r ih =>
    simp only [leNat]
    have hx := x.isLt
    rw [show x.toNat + 256 * leNat r = 2 ^ 8 * leNat r + x.toNat by ring, Nat.testBit_two_pow_mul_add _ hx]
    cases j with
    | zero => simp [hb, BitVec.getLsbD]
    | succ j =>
      rw [if_neg (by omega), show 8 * (j + 1) + b - 8 = 8 * j + b by omega, ih]
      simp

theorem lineByte_lineOfBytes (bs : List Byte) (i : Nat) (hi : i < 64) : lineByte (lineOfBytes bs) i = bs.getD i 0 := by
  apply BitVec.eq_of_getLsbD_eq
  intro b hb
  have h1 : 8 * i + b < 512 := by omega
  have e : (lineByte (lineOfBytes bs) i).getLsbD b = (lineOfBytes bs).getLsbD (8 * i + b) := by simp [lineByte, hb]
  rw [e]
  simp only [lineOfBytes, BitVec.getLsbD_ofNat, h1, decide_true, Bool.true_and, testBit_leNat _ _ _ hb]

theorem lineByte_lineSet (d : BitVec 512) (o : Nat) (bs : List Byte) (i : Nat) (hi : i < 64) :
    lineByte (lineSet d o bs) i = if o ≤ i ∧ i < o + bs.length then bs.getD (i - o) 0 else lineByte d i := by
  apply BitVec.eq_of_getLsbD_eq
  intro b hb
  have h1 : 8 * i + b < 512 := by omega
  have hm : ((2 ^ (8 * bs.length) - 1) * 2 ^ (8 * o)).testBit (8 * i + b) = decide (o ≤ i ∧ i < o + bs.length) := by
    rw [Nat.mul_comm, Nat.testBit_two_pow_mul, Nat.testBit_two_pow_sub_one]
    rw [Bool.eq_iff_iff]
    simp only [Bool.and_eq_true, decide_eq_true_eq]
    omega
  have hv : (leNat bs * 2 ^ (8 * o)).testBit (8 * i + b) = (decide (o ≤ i) && (bs.getD (i - o) 0).getLsbD b) := by
    rw [Nat.mul_comm, Nat.testBit_two_pow_mul]
    by_cases ho : o ≤ i
    · rw [show 8 * i + b - 8 * o = 8 * (i - o) + b by omega, testBit_leNat _ _ _ hb]
      simp [ho, show 8 * i + b ≥ 8 * o by omega]
    · simp [ho, show ¬ (8 * i + b ≥ 8 * o) by omega]
  have e : (lineByte (lineSet d o bs) i).getLsbD b = (lineSet d o bs).getLsbD (8 * i + b) := by simp [lineByte, hb]
  rw [e]
  simp only [lineSet, BitVec.getLsbD_or, BitVec.getLsbD_and, BitVec.getLsbD_not, BitVec.getLsbD_ofNat, h1, decide_true, Bool.true_and, hm, hv]
  by_cases hc : o ≤ i ∧ i < o + bs.length
  · simp [hc]
  · simp only [hc, if_false, decide_false]
    simp [lineByte, hb, h1]
end Sys2Proof.Machine
end

