-- ==== Sys2Proof/Laws/Lanes.lean ====
section
/-!
SUPPORT. What the shared courses of an instruction do: on registers alone (`execLanes`), lane after lane (`execSeq`), and at a
terminator (`execTerm`). Each law says once everything the course can do when no lane leaves.
-/
namespace Sys2Proof.Machine

/-! ## Results without a failing lane -/

theorem oks_results (ks : List Nat) (out : Nat → LaneOut) :
    oks (ks.map (fun k => (k, (Except.ok (out k) : LaneRes)))) = results ks out := by
  induction ks with
  | nil => rfl
  | cons k r ih => simp [oks, results]

theorem fails_results (ks : List Nat) (out : Nat → LaneOut) :
    fails (ks.map (fun k => (k, (Except.ok (out k) : LaneRes)))) = [] := by
  induction ks with
  | nil => rfl
  | cons k r ih => simp [fails]

theorem gangLead_results (out : Nat → LaneOut) (gs : Nat) (ks : List Nat) :
    gangLead (ks.map (fun k => (k, (Except.ok (out k) : LaneRes)))) gs
      = (ks.find? (fun k => k / 32 = gs)).map (fun k => (k, out k)) := by
  induction ks with
  | nil => rfl
  | cons k r ih =>
    by_cases h : k / 32 = gs
    · simp [gangLead, h]
    · simp [gangLead, h, ih]

theorem uniformRule_results {hdr : DWord} {ks : List Nat} {out : Nat → LaneOut} (dst : Nat) (h : Agree hdr ks out) :
    (ks.map (fun k => (k, (Except.ok (out k) : LaneRes)))).map
      (uniformRule hdr dst (ks.map (fun k => (k, (Except.ok (out k) : LaneRes)))))
      = ks.map (fun k => (k, (Except.ok (out k) : LaneRes))) := by
  rw [List.map_map]
  refine List.map_congr_left fun k hk => ?_
  simp only [Function.comp, uniformRule]
  rcases h k hk with ⟨h1, h2⟩ | ⟨hc, hj⟩
  · simp [h1, h2]
  · rw [gangLead_results]
    split
    · rfl
    · simp only [hc]
      cases hf : ks.find? (fun j => decide (j / 32 = k / 32)) with
      | none => simp
      | some j =>
        have hm := List.mem_of_find?_eq_some hf
        have hq : j / 32 = k / 32 := by simpa using List.find?_some hf
        obtain ⟨a, b⟩ := hj j hm hq
        simp [a, b]

/-! ## Writing the lanes' threads and uniform registers -/

theorem State.putThreads_frame (s : State) (c : Nat) (outs : List (Nat × LaneOut)) :
    s.putThreads c outs = { s with threads := (s.putThreads c outs).threads } := by
  unfold State.putThreads
  induction outs generalizing s with
  | nil => rfl
  | cons e r ih => rw [List.foldl_cons, ih]; rfl

theorem State.putThreads_look (s : State) (c : Nat) (ks : List Nat) (out : Nat → LaneOut) (n : Nat)
    (h : ∀ k ∈ ks, n ≠ threadKey c k) :
    Tbl.look (s.putThreads c (results ks out)).threads n = Tbl.look s.threads n := by
  unfold State.putThreads results
  induction ks generalizing s with
  | nil => rfl
  | cons k r ih =>
    rw [List.map_cons, List.foldl_cons, ih _ (fun j hj => h j (List.mem_cons_of_mem _ hj))]
    exact Tbl.look_put_ne _ _ (h k List.mem_cons_self)

theorem threadKey_inj {c a b : Nat} (h : threadKey c a = threadKey c b) : a = b := by unfold threadKey at h; omega

theorem gangKey_inj {c a b : Nat} (h : gangKey c a = gangKey c b) : a = b := by unfold gangKey at h; omega

theorem State.putThreads_thr (s : State) (c : Nat) (ks : List Nat) (out : Nat → LaneOut) (k : Nat) (hk : k ∈ ks) :
    (s.putThreads c (results ks out)).thr c k = (out k).th := by
  induction ks generalizing s with
  | nil => cases hk
  | cons j r ih =>
    have hstep : s.putThreads c (results (j :: r) out) = (s.setThr c j (out j).th).putThreads c (results r out) := rfl
    rw [hstep]
    by_cases hr : k ∈ r
    · exact ih _ hr
    · have hj : k = j := (List.mem_cons.mp hk).resolve_right hr
      subst hj
      have := State.putThreads_look (s.setThr c k (out k).th) c r out (threadKey c k)
        (fun i hi h => hr (threadKey_inj h ▸ hi))
      unfold State.thr Tbl.at
      rw [this]
      simp

theorem State.putUniform_frame (s : State) (c : Nat) (outs : List (Nat × LaneOut)) :
    s.putUniform c outs = { s with gangs := (s.putUniform c outs).gangs } := by
  unfold State.putUniform
  induction outs generalizing s with
  | nil => rfl
  | cons e r ih =>
    rw [List.foldl_cons, ih]
    split <;> rfl

/-- The gangs' teams stay as they are. -/
theorem State.putUniform_team (s : State) (c : Nat) (outs : List (Nat × LaneOut)) (d g : Nat) :
    ((s.putUniform c outs).gang d g).team = (s.gang d g).team := by
  unfold State.putUniform
  induction outs generalizing s with
  | nil => rfl
  | cons e r ih =>
    rw [List.foldl_cons, ih]
    split
    · rfl
    · simp only [State.modGang_eq, State.gang_setGang]
      split
      · rename_i h
        unfold State.gang
        rw [h]
      · rfl

theorem State.putUniform_look (s : State) (c : Nat) (ks : List Nat) (out : Nat → LaneOut) (n : Nat)
    (h : ∀ k ∈ ks, n ≠ gangKey c (k / 32)) :
    Tbl.look (s.putUniform c (results ks out)).gangs n = Tbl.look s.gangs n := by
  unfold State.putUniform results
  induction ks generalizing s with
  | nil => rfl
  | cons k r ih =>
    rw [List.map_cons, List.foldl_cons, ih _ (fun j hj => h j (List.mem_cons_of_mem _ hj))]
    split
    · rfl
    · exact Tbl.look_put_ne _ _ (h k List.mem_cons_self)

/-- Writes a list of registers into a table. -/
def putRegs (g : Tbl Word) (ws : List (Nat × Word)) : Tbl Word := ws.foldl (fun t w => Tbl.put t w.1 w.2) g

theorem putRegs_look (g h : Tbl Word) (ws : List (Nat × Word)) (n : Nat) (e : Tbl.look g n = Tbl.look h n) :
    Tbl.look (putRegs g ws) n = Tbl.look (putRegs h ws) n := by
  induction ws generalizing g h with
  | nil => exact e
  | cons w r ih => exact ih _ _ (by rw [Tbl.look_put, Tbl.look_put, e])

theorem putRegs_mem (g h : Tbl Word) (ws : List (Nat × Word)) (n : Nat) (hn : n ∈ ws.map (·.1)) :
    Tbl.look (putRegs g ws) n = Tbl.look (putRegs h ws) n := by
  induction ws generalizing g h with
  | nil => cases hn
  | cons w r ih =>
    by_cases hr : n ∈ r.map (·.1)
    · exact ih _ _ hr
    · have : n = w.1 := (List.mem_cons.mp hn).resolve_right hr
      subst this
      exact putRegs_look (Tbl.put g w.1 w.2) (Tbl.put h w.1 w.2) r w.1 (by rw [Tbl.look_put_self, Tbl.look_put_self])

theorem putRegs_not_mem (g : Tbl Word) (ws : List (Nat × Word)) (n : Nat) (hn : n ∉ ws.map (·.1)) :
    Tbl.look (putRegs g ws) n = Tbl.look g n := by
  induction ws generalizing g with
  | nil => rfl
  | cons w r ih =>
    simp only [List.map_cons, List.mem_cons, not_or] at hn
    exact (ih _ hn.2).trans (Tbl.look_put_ne _ _ hn.1)

/-- Writing the same registers twice leaves what writing them once leaves. -/
theorem putRegs_twice (g : Tbl Word) (ws : List (Nat × Word)) (n : Nat) :
    Tbl.look (putRegs (putRegs g ws) ws) n = Tbl.look (putRegs g ws) n := by
  by_cases h : n ∈ ws.map (·.1)
  · exact putRegs_mem _ _ _ _ h
  · rw [putRegs_not_mem _ _ _ h]

/-- What a gang holds after its lanes, all of which agree, have written: the first lane's results, once. -/
theorem State.putUniform_gang (s : State) (c : Nat) (ks : List Nat) (out : Nat → LaneOut) (q : Nat) (o : LaneOut)
    (h : ∀ j ∈ ks, j / 32 = q → (out j).g = o.g ∧ (out j).tw = o.tw) :
    let u := (s.putUniform c (results ks out)).gang c q
    u = { s.gang c q with g := u.g, tw := u.tw }
    ∧ ((∀ n, Tbl.look u.g n = Tbl.look (s.gang c q).g n) ∧ u.tw = (s.gang c q).tw
      ∨ (∀ n, Tbl.look u.g n = Tbl.look (putRegs (s.gang c q).g o.g) n) ∧ u.tw = o.tw.getD (s.gang c q).tw)
    ∧ ((∃ j ∈ ks, j / 32 = q) →
      (∀ n, Tbl.look u.g n = Tbl.look (putRegs (s.gang c q).g o.g) n) ∧ u.tw = o.tw.getD (s.gang c q).tw) := by
  induction ks generalizing s with
  | nil => refine ⟨rfl, Or.inl ⟨fun _ => rfl, rfl⟩, ?_⟩; rintro ⟨j, hj, _⟩; cases hj
  | cons k r ih =>
    have hr := fun j hj => h j (List.mem_cons_of_mem k hj)
    have hstep : s.putUniform c (results (k :: r) out)
        = (if (out k).g.isEmpty && (out k).tw.isNone then s
            else s.modGang c (k / 32) (fun g => { g with g := putRegs g.g (out k).g, tw := (out k).tw.getD g.tw })).putUniform c
              (results r out) := rfl
    by_cases hq : k / 32 = q
    · obtain ⟨hg, ht⟩ := h k List.mem_cons_self hq
      simp only [hstep, hg, ht, hq]
      by_cases he : (o.g.isEmpty && o.tw.isNone) = true
      · rw [if_pos he]
        have e1 : o.g = [] := by simp_all
        have e2 : o.tw = none := by simp_all
        obtain ⟨a, b, -⟩ := ih s hr
        have b' : (∀ n, Tbl.look ((s.putUniform c (results r out)).gang c q).g n = Tbl.look (putRegs (s.gang c q).g o.g) n)
            ∧ ((s.putUniform c (results r out)).gang c q).tw = o.tw.getD (s.gang c q).tw := by
          rcases b with b | b
          · simpa [e1, e2, putRegs] using b
          · exact b
        exact ⟨a, Or.inr b', fun _ => b'⟩
      · rw [if_neg he]
        obtain ⟨a, b, -⟩ := ih (s.modGang c q (fun g => { g with g := putRegs g.g o.g, tw := o.tw.getD g.tw })) hr
        simp only [State.modGang_eq, State.gang_setGang_self] at a b ⊢
        have b' : (∀ n, Tbl.look (((s.setGang c q { s.gang c q with g := putRegs (s.gang c q).g o.g, tw := o.tw.getD (s.gang c q).tw }).putUniform c (results r out)).gang c q).g n = Tbl.look (putRegs (s.gang c q).g o.g) n)
            ∧ (((s.setGang c q { s.gang c q with g := putRegs (s.gang c q).g o.g, tw := o.tw.getD (s.gang c q).tw }).putUniform c (results r out)).gang c q).tw = o.tw.getD (s.gang c q).tw := by
          rcases b with b | b
          · exact b
          · refine ⟨fun n => (b.1 n).trans (putRegs_twice _ _ _), ?_⟩
            rw [b.2]; cases o.tw <;> rfl
        exact ⟨a, Or.inr b', fun _ => b'⟩
    · simp only [hstep]
      have hs : ((if (out k).g.isEmpty && (out k).tw.isNone then s
            else s.modGang c (k / 32) (fun g => { g with g := putRegs g.g (out k).g, tw := (out k).tw.getD g.tw }))).gang c q
            = s.gang c q := by
        split
        · rfl
        · rw [State.modGang_eq, State.gang_setGang, if_neg (fun e => hq (gangKey_inj e).symm)]
      obtain ⟨a, b, d⟩ := ih _ hr
      rw [hs] at a b d
      refine ⟨a, b, ?_⟩
      rintro ⟨j, hj, hjq⟩
      rcases List.mem_cons.mp hj with rfl | hj
      · exact absurd hjq hq
      · exact d ⟨j, hj, hjq⟩

/-! ## Channels -/

theorem State.popChan_congr (s u : State) (t : Nat) (hdr : DWord) (reads : Bool) (rd : Option Nat) (ht : u.teams = s.teams) :
    u.popChan t hdr reads rd = { u with teams := (s.popChan t hdr reads rd).teams } := by
  unfold State.popChan
  split
  · simp [State.modTeam, State.setTeam, State.team, ht]
  · rw [← ht]

theorem State.fillChan_congr (s u : State) (t : Nat) (hdr : DWord) (ws : Tbl Word) (wr : Option Nat) (ht : u.teams = s.teams) :
    u.fillChan t hdr ws wr = { u with teams := (s.fillChan t hdr ws wr).teams } := by
  unfold State.fillChan
  split
  · simp [State.modTeam, State.setTeam, State.team, ht]
  · rw [← ht]

theorem useChan_congr (s u : State) (c : Nat) (hdr : DWord) (x : Pass) (reads : Bool) (outs : List (Nat × LaneOut)) (gs : Nat)
    (ht : u.teams = s.teams) (hg : ∀ g, (u.gang c g).team = (s.gang c g).team) :
    (useChan c hdr reads outs (u, x) gs).1 = { u with teams := (useChan c hdr reads outs (s, x) gs).1.teams }
    ∧ (useChan c hdr reads outs (u, x) gs).2 = (useChan c hdr reads outs (s, x) gs).2 := by
  refine ⟨?_, rfl⟩
  simp only [useChan, hg]
  have h1 := State.popChan_congr s u (s.gang c gs).team hdr reads (Tbl.at x.resv gs {}).rd ht
  rw [State.fillChan_congr (s.popChan (s.gang c gs).team hdr reads (Tbl.at x.resv gs {}).rd) _ _ _ _ _ (by rw [h1])]
  rw [h1]

theorem useChan_gang (s : State) (c : Nat) (hdr : DWord) (x : Pass) (reads : Bool) (outs : List (Nat × LaneOut)) (gs : Nat) :
    (useChan c hdr reads outs (s, x) gs).1 = { s with teams := (useChan c hdr reads outs (s, x) gs).1.teams } :=
  (useChan_congr s s c hdr x reads outs gs rfl (fun _ => rfl)).1

/-- Channel use touches the teams alone, and depends on the teams and on which team each gang belongs to. -/
theorem State.useChans_congr (s u : State) (c : Nat) (x : Pass) (reads : Bool) (outs : List (Nat × LaneOut))
    (ht : u.teams = s.teams) (hg : ∀ g, (u.gang c g).team = (s.gang c g).team) :
    (u.useChans c x reads outs).1 = { u with teams := (s.useChans c x reads outs).1.teams }
    ∧ (u.useChans c x reads outs).2 = (s.useChans c x reads outs).2 := by
  unfold State.useChans
  generalize gangsOf (outs.map (·.1)) = gs
  generalize x.hdr = hdr
  induction gs generalizing s u x with
  | nil => refine ⟨?_, rfl⟩; simp only [List.foldl_nil, ← ht]
  | cons g r ih =>
    simp only [List.foldl_cons]
    have h := useChan_congr s u c hdr x reads outs g ht hg
    have hs := useChan_gang s c hdr x reads outs g
    have e : ∀ a : State × Pass, a = (a.1, a.2) := fun _ => rfl
    rw [e (useChan c hdr reads outs (u, x) g), e (useChan c hdr reads outs (s, x) g), h.2]
    have hg' : ∀ q, ((useChan c hdr reads outs (u, x) g).1.gang c q).team = ((useChan c hdr reads outs (s, x) g).1.gang c q).team := by
      intro q; rw [h.1, hs]; exact hg q
    obtain ⟨a, b⟩ := ih (useChan c hdr reads outs (s, x) g).1 (useChan c hdr reads outs (u, x) g).1
      (useChan c hdr reads outs (s, x) g).2 (by rw [h.1]) hg'
    refine ⟨?_, b⟩
    rw [a, h.1]

theorem State.useChans_frame (s : State) (c : Nat) (x : Pass) (reads : Bool) (outs : List (Nat × LaneOut)) :
    (s.useChans c x reads outs).1 = { s with teams := (s.useChans c x reads outs).1.teams } :=
  (s.useChans_congr s c x reads outs rfl (fun _ => rfl)).1

theorem Pass.useResv_slots (x : Pass) (g : Nat) (a b : Bool) : (x.useResv g a b).slots = x.slots := rfl

theorem State.useChans_slots (s : State) (c : Nat) (x : Pass) (reads : Bool) (outs : List (Nat × LaneOut)) :
    (s.useChans c x reads outs).2.slots = x.slots ∧ (s.useChans c x reads outs).2.idx = x.idx
      ∧ (s.useChans c x reads outs).2 = { x with resv := (s.useChans c x reads outs).2.resv } := by
  unfold State.useChans
  suffices H : ∀ (gs : List Nat) (hdr : DWord) (a : State × Pass),
      (gs.foldl (useChan c hdr reads outs) a).2 = { a.2 with resv := (gs.foldl (useChan c hdr reads outs) a).2.resv } from
    ⟨by rw [H], by rw [H], H _ _ _⟩
  intro gs hdr
  induction gs with
  | nil => exact fun _ => rfl
  | cons g r ih => exact fun a => by rw [List.foldl_cons, ih]; rfl

/-! ## Going on -/

theorem Pass.without_nil (x : Pass) : x.without [] = x := by simp [Pass.without]

theorem State.afterInstr_nil (s : State) (c p : Nat) (x : Pass) (h : x.slots ≠ []) :
    s.afterInstr c p x [] = s.setPass c p { x with idx := x.idx + 1 } := by
  have : x.slots.isEmpty = false := by cases hs : x.slots <;> simp_all
  simp [State.afterInstr, Pass.without_nil, State.leave, this]

/-- The course on registers: when every executing lane computes a result and the uniform results agree, the next state is
that of the results. -/
theorem State.execLanes_effect (s : State) (g : Guard) (dst : Nat) (reads : Bool) (compute : List Nat → Lane → LaneRes)
    {c p : Nat} {x : Pass} {ks : List Nat} {out : Nat → LaneOut} (h : Executes s c p x g ks)
    (hc : ∀ k ∈ ks, compute ks (x.lane c k) = .ok (out k)) (ha : Agree x.hdr ks out) :
    ∃ t, s.execLanes g dst reads compute = .next t ∧ LaneEffect s t c p x ks reads out := by
  obtain ⟨hcur, hex, hslots⟩ := h
  have hraw : (s.executing c x g).map (fun k => (k, compute (s.executing c x g) (x.lane c k)))
      = ks.map (fun k => (k, (Except.ok (out k) : LaneRes))) := by
    rw [hex]; exact List.map_congr_left fun k hk => by rw [hc k hk]
  simp only [State.execLanes, hcur, hraw, uniformRule_results dst ha, oks_results, fails_results]
  refine ⟨_, rfl, ?_⟩
  set u := (s.putThreads c (results ks out)).putUniform c (results ks out) with hu
  have hut : u = { s with threads := u.threads, gangs := u.gangs } := by
    rw [hu, State.putUniform_frame, State.putThreads_frame]
  have hth : u.threads = (s.putThreads c (results ks out)).threads := by rw [hu, State.putUniform_frame]
  have hgang : ∀ a b, (s.putThreads c (results ks out)).gang a b = s.gang a b := by
    intro a b; unfold State.gang; rw [State.putThreads_frame]
  have hteam : ∀ q, (u.gang c q).team = (s.gang c q).team := by
    intro q; rw [hu, State.putUniform_team, hgang]
  obtain ⟨h1, h2⟩ := s.useChans_congr u c x reads (results ks out) (by rw [hut]) hteam
  have hsl : (s.useChans c x reads (results ks out)).2.slots ≠ [] := by rw [(s.useChans_slots c x reads _).1]; exact hslots
  have hix : (s.useChans c x reads (results ks out)).2.idx = x.idx := (s.useChans_slots c x reads _).2.1
  rw [h1, h2, State.afterInstr_nil _ _ _ _ hsl, hix]
  have hcore : u.cores = s.cores := by rw [hut]
  have hlook : ∀ n, Tbl.look (s.putThreads c (results ks out)).gangs n = Tbl.look s.gangs n := by
    intro n; rw [State.putThreads_frame]
  have hug : ∀ k ∈ ks, _ := fun k hk => State.putUniform_gang (s.putThreads c (results ks out)) c ks out (k / 32) (out k)
    (fun j hj hq => by
      rcases ha k hk with ⟨a, b⟩ | ⟨-, hall⟩
      · rcases ha j hj with ⟨a', b'⟩ | ⟨-, hall'⟩
        · exact ⟨a'.trans a.symm, b'.trans b.symm⟩
        · exact ⟨(hall' k hk hq.symm).1.symm, (hall' k hk hq.symm).2.symm⟩
      · exact hall j hj hq)
  refine ⟨?_, ?_, ?_, ?_, ?_, rfl, ?_, ?_⟩
  · intro k hk
    show Tbl.at u.threads _ _ = _
    rw [hth]
    exact s.putThreads_thr c ks out k hk
  · intro n hn
    show Tbl.look u.threads n = _
    rw [hth]
    exact s.putThreads_look c ks out n hn
  · intro k hk n
    have := (hug k hk).2.2 ⟨k, hk, rfl⟩
    rw [hgang] at this
    exact this.1 n
  · intro k hk
    have := (hug k hk)
    rw [hgang] at this
    refine this.1.trans ?_
    rw [(this.2.2 ⟨k, hk, rfl⟩).2]
    rfl
  · intro n hn
    show Tbl.look u.gangs n = _
    exact (State.putUniform_look _ c ks out n hn).trans (hlook n)
  · simp only [State.setPass, State.modCore, State.setCore, State.core, nextPass, hcore]
  · show _ = _
    rw [hut]
    rfl

/-- The course on registers of an instruction whose fields are checked first. -/
theorem regOp_effect (s : State) (f : Fields) (ts : List (Nat × OpKind × Operand)) (compute : Lane → Except LaneFail LaneOut)
    {c p : Nat} {x : Pass} {ks : List Nat} {out : Nat → LaneOut} (h : Executes s c p x f.guard ks)
    (hc : ∀ k ∈ ks, (x.lane c k).check s ts = .ok () ∧ compute (x.lane c k) = .ok (out k)) (ha : Agree x.hdr ks out) :
    ∃ t, regOp s f ts compute = .next t ∧ LaneEffect s t c p x ks f.readsChannel out :=
  s.execLanes_effect _ _ _ _ h (fun k hk => by obtain ⟨h1, h2⟩ := hc k hk; simp [h1, h2]; rfl) ha

/-! ## Lane after lane -/

/-- The fold of the lanes' acts, when none leaves. -/
theorem InTurn.fold {act : State → Lane → State × Option LaneFail} {c : Nat} {x : Pass} {ks : List Nat} {s u : State}
    (h : InTurn act c x ks s u) (l : List (Nat × LaneFail)) :
    ks.foldl (laneStep c x act) (s, l) = (u, l) := by
  induction ks generalizing s with
  | nil => simp only [InTurn] at h; simp [h]
  | cons k r ih =>
    obtain ⟨v, h1, h2⟩ := h
    simp only [List.foldl_cons, laneStep, h1]
    exact ih h2

/-- The course lane after lane: when every executing lane acts in its turn and none leaves, the pass goes on. -/
theorem State.execSeq_inTurn (s : State) (g : Guard) (reads : Bool) (act : State → Lane → State × Option LaneFail)
    {c p : Nat} {x y : Pass} {ks : List Nat} {u : State} (h : Executes s c p x g ks) (hu : InTurn act c x ks s u)
    (hy : Tbl.look (u.core c).pipes p = some y) (hs : y.slots = x.slots) :
    ∃ t, s.execSeq g reads act = .next t ∧ GoesOn u t c p y reads (results ks (fun k => { th := s.thr c k })) := by
  obtain ⟨hcur, hex, hslots⟩ := h
  simp only [State.execSeq, hcur, hex, hu.fold, hy, Option.getD_some, List.map_nil, List.contains_nil, Bool.not_false,
    List.filter_true]
  refine ⟨_, rfl, ?_⟩
  have hsl : (u.useChans c y reads (results ks (fun k => { th := s.thr c k }))).2.slots ≠ [] := by
    rw [(u.useChans_slots c y reads _).1, hs]; exact hslots
  have hix := (u.useChans_slots c y reads (results ks (fun k => { th := s.thr c k }))).2.1
  show GoesOn u (State.afterInstr (u.useChans c y reads (results ks _)).1 c p (u.useChans c y reads (results ks _)).2 []) c p y reads _
  rw [State.afterInstr_nil _ _ _ _ hsl, hix]
  have hf := u.useChans_frame c y reads (results ks (fun k => { th := s.thr c k }))
  refine ⟨?_, rfl, ?_⟩
  · rw [hf]; rfl
  · have hc : (u.useChans c y reads (results ks (fun k => { th := s.thr c k }))).1.cores = u.cores := by rw [hf]
    simp only [State.setPass, State.modCore, State.setCore, State.core, nextPass, hc]

/-- A terminator: when every lane acts in its turn and none leaves, the pass ends. -/
theorem State.execTerm_inTurn (s : State) (act : State → Lane → State × Option LaneFail)
    {c p : Nat} {x y : Pass} {u : State} (hcur : s.curPass = some (c, p, x)) (hu : InTurn act c x x.slots s u)
    (hy : Tbl.look (u.core c).pipes p = some y) : s.execTerm act = .next (u.endPass c p y) := by
  simp only [State.execTerm, hcur, hu.fold, hy, Option.getD_some, List.map_nil, Pass.without_nil]
  rfl

end Sys2Proof.Machine
end

