-- ==== Sys2Proof/Laws/Numbers.lean ====
section
/-!
SUPPORT. Laws of the numbers instructions compute with: bits of a natural, patterns of a type's width, and the ranges of the
patterns that sources supply.
-/
namespace Sys2Proof

theorem bitOf_eq (x n : Nat) : bitOf x n = x.testBit n := by
  simp [bitOf, Nat.testBit, Nat.shiftRight_eq_div_pow, Nat.one_and_eq_mod_two]

/-- A number below 2^w is known by its bits below w. -/
theorem eq_of_bits {a b w : Nat} (ha : a < 2 ^ w) (hb : b < 2 ^ w) (h : ∀ i < w, bitOf a i = bitOf b i) : a = b := by
  apply Nat.eq_of_testBit_eq
  intro i
  by_cases hi : i < w
  · simpa [bitOf_eq] using h i hi
  · have hp : 2 ^ w ≤ 2 ^ i := Nat.pow_le_pow_right (by omega) (by omega)
    rw [Nat.testBit_lt_two_pow (lt_of_lt_of_le ha hp), Nat.testBit_lt_two_pow (lt_of_lt_of_le hb hp)]

theorem Ty.width_cases (t : Ty) : t.width = 8 ∨ t.width = 16 ∨ t.width = 32 ∨ t.width = 64 := by cases t <;> simp [Ty.width]

theorem Ty.width_pos (t : Ty) : 0 < t.width := by cases t <;> simp [Ty.width]

theorem Ty.width_le (t : Ty) : t.width ≤ 64 := by cases t <;> simp [Ty.width]

theorem wrap_lt (x : Int) (n : Nat) : wrap x n < 2 ^ n := by
  unfold wrap
  have h1 := Int.emod_nonneg x (show ((2 ^ n : Nat) : Int) ≠ 0 by positivity)
  have h2 := Int.emod_lt_of_pos x (show (0 : Int) < ((2 ^ n : Nat) : Int) by positivity)
  omega

/-- The values of two patterns of a type are equal only when the patterns are. -/
theorem Ty.val_inj {t : Ty} {a b : Nat} (ha : a < 2 ^ t.width) (hb : b < 2 ^ t.width) (h : t.val a = t.val b) : a = b := by
  have hp := t.width_pos
  unfold Ty.val at h
  split at h
  · simp only [sx, Nat.mod_eq_of_lt ha, Nat.mod_eq_of_lt hb] at h
    split at h <;> split at h <;> omega
  · simp only [zx, Nat.mod_eq_of_lt ha, Nat.mod_eq_of_lt hb] at h
    exact_mod_cast h

namespace Machine

theorem Lane.readInt_lt {l : Lane} {s : State} {place : Nat} {o : Operand} {ty : Ty} {a : Nat}
    (h : l.readInt s place o ty = .ok a) : a < 2 ^ ty.width := by
  unfold Lane.readInt at h
  split at h
  · rename_i hp
    have hw : ty.width = 64 := by cases ty <;> simp_all [Ty.isPair, Ty.width]
    cases hr : l.readPair s place o with
    | error e => simp [hr, Except.map] at h
    | ok d => simp [hr, Except.map] at h; rw [hw, ← h]; exact d.isLt
  · cases hr : l.readWord s place o with
    | error e => simp [hr, Except.map] at h
    | ok d => simp [hr, Except.map] at h; rw [← h]; exact Nat.mod_lt _ (by positivity)

theorem immInt_lt (w : Word) (ty : Ty) : immInt w ty < 2 ^ ty.width := by
  unfold immInt
  split
  · exact wrap_lt _ _
  · have := w.isLt; simp only [Ty.width]; omega
  · exact Nat.mod_lt _ (by positivity)

theorem Lane.readIntI_lt {l : Lane} {s : State} {place : Nat} {o : Operand} {ty : Ty} {imm : Option Word} {a : Nat}
    (h : l.readIntI s place o ty imm = .ok a) : a < 2 ^ ty.width := by
  unfold Lane.readIntI at h
  split at h
  · injection h with h; rw [← h]; exact immInt_lt _ _
  · exact Lane.readInt_lt h

theorem bitOf_natOfBits (g : Nat → Bool) (n i : Nat) : bitOf (natOfBits g n) i = (decide (i < n) && g i) := by
  have hlt : ∀ n, natOfBits g n < 2 ^ n := by
    intro n; induction n with
    | zero => simp [natOfBits]
    | succ n ih => simp only [natOfBits, pow_succ]; split <;> omega
  induction n with
  | zero => simp [natOfBits, bitOf]
  | succ n ih =>
    simp only [bitOf_eq] at ih ⊢
    simp only [natOfBits]
    split
    · rename_i hg
      have h1 := Nat.two_pow_add_eq_or_of_lt (hlt n) 1
      rw [mul_one] at h1
      rw [add_comm, h1, Nat.testBit_or, ih, Nat.testBit_two_pow]
      by_cases h : n = i
      · subst h; simp [hg]
      · have : (i < n + 1) = (i < n) := by simp; omega
        simp [h, this]
    · rename_i hg
      rw [add_zero, ih]
      by_cases h : n = i
      · subst h; simp [hg]
      · have : (i < n + 1) = (i < n) := by simp; omega
        simp [this]

theorem natOfBits_lt (g : Nat → Bool) (n : Nat) : natOfBits g n < 2 ^ n := by
  induction n with
  | zero => simp [natOfBits]
  | succ n ih => simp only [natOfBits, pow_succ]; split <;> omega

end Machine
end Sys2Proof
end

