-- ==== Sys2Proof/Laws/PerInstr.lean ====
section
/-!
SUPPORT. One law per constructor of Instr: the opcode map gives an instruction back from its own MAJOR, fields and extension,
when it is well formed (the step of the round trip that differs from instruction to instruction).
-/
namespace Sys2Proof

/-- What the check of a form that finds no breach says. -/
theorem Form.breach_none {k : Form} {len : BitVec 2} {f : Fields} (h : k.breach len f = none) :
    ((len = 0 ∧ k.len64) ∨ (len = 1 ∧ k.len96) ∨ (len = 2 ∧ k.len128)) ∧ k.minor f.minor = true ∧ k.extra f = true := by
  unfold Form.breach at h
  by_cases h1 : (len == 0 && k.len64 || len == 1 && k.len96 || len == 2 && k.len128) = true
  · rw [h1] at h
    by_cases h2 : k.minor f.minor = true
    · by_cases h7 : k.extra f = true
      · refine ⟨?_, h2, h7⟩
        simp only [Bool.or_eq_true, Bool.and_eq_true, beq_iff_eq] at h1
        rcases h1 with (h1 | h1) | h1
        · exact Or.inl h1
        · exact Or.inr (Or.inl h1)
        · exact Or.inr (Or.inr h1)
      · rw [Bool.not_eq_true] at h7
        rw [h7] at h
        split_ifs at h; simp_all
    · rw [Bool.not_eq_true] at h2
      rw [h2] at h
      simp at h
  · rw [Bool.not_eq_true] at h1
    rw [h1] at h
    simp at h

/-- What a well-formed instruction's own form says. -/
theorem Instr.wf_form {i : Instr} {k : Form} {f : Fields} (hk : i.form = some k) (hf : i.fields = some f) (h : i.wf = true) :
    k.breach i.lenCode f = none ∧ (k.len128 = true → f.imm = none) ∧ i.extBreach = none := by
  unfold Instr.wf Instr.breach at h
  split at h
  · simp at h
  · simp only [hk, hf] at h
    split_ifs at h with h1
    · simp at h
    · split at h
      · simp at h
      · rename_i hb
        refine ⟨hb, fun h2 => ?_, by simpa using h⟩
        simpa [h2] using h1

namespace Laws.Selects

/-- The opcode map gives the instruction back. -/
def Statement (i : Instr) : Prop := ∀ f, i.fields = some f → i.wf = true → select i.major f i.extBits = some i


theorem extract_ofNat (n lo w : Nat) : (BitVec.ofNat 64 n).extractLsb' lo w = BitVec.ofNat w (n % 2 ^ 64 / 2 ^ lo) := by
  apply BitVec.eq_of_toNat_eq
  simp [BitVec.extractLsb'_toNat, Nat.shiftRight_eq_div_pow]

theorem getLsbD_ofNat (n i : Nat) : (BitVec.ofNat 64 n).getLsbD i = decide (n % 2 ^ 64 / 2 ^ i % 2 = 1) := by
  rw [BitVec.getLsbD, BitVec.toNat_ofNat, Nat.testBit_eq_decide_div_mod_eq]

theorem b2n_lt (b : Bool) : b2n b < 2 := by cases b <;> decide

theorem ofNat_eq_of {w : Nat} {a : BitVec w} {n : Nat} (h : n % 2 ^ w = a.toNat) : BitVec.ofNat w n = a := by
  apply BitVec.eq_of_toNat_eq
  rw [BitVec.toNat_ofNat, h]

theorem decide_b2n (b : Bool) (n : Nat) (h : n % 2 = b2n b) : decide (n % 2 = 1) = b := by
  rw [h]; cases b <;> rfl

theorem tlayExt_bits (e : TlayExt) : TlayExt.ofBits e.bits = e := by
  obtain ⟨a, b, c, d⟩ := e
  have h1 := a.isLt; have h2 := b.isLt; have h3 := d.isLt; have h4 := b2n_lt c
  simp only [TlayExt.ofBits, TlayExt.bits, extract_ofNat, getLsbD_ofNat]
  congr 1
  · exact ofNat_eq_of (by omega)
  · exact ofNat_eq_of (by omega)
  · exact decide_b2n c _ (by omega)
  · exact ofNat_eq_of (by omega)

theorem gridExt_bits (e : GridExt) : GridExt.ofBits e.bits = e := by
  obtain ⟨a⟩ := e
  have h1 := a.isLt
  simp only [GridExt.ofBits, GridExt.bits, extract_ofNat]
  congr 1
  exact ofNat_eq_of (by omega)

theorem copyExt_bits (e : CopyExt) : CopyExt.ofBits e.bits = e := by
  obtain ⟨a, b, c⟩ := e
  have h1 := a.isLt; have h2 := b.isLt; have h4 := b2n_lt c
  simp only [CopyExt.ofBits, CopyExt.bits, extract_ofNat, getLsbD_ofNat]
  congr 1
  · exact ofNat_eq_of (by omega)
  · exact ofNat_eq_of (by omega)
  · exact decide_b2n c _ (by omega)

theorem mmaExt_bits (e : MmaExt) : MmaExt.ofBits e.bits = e := by
  obtain ⟨a, b, c, d, g, h, i, j, k, l⟩ := e
  have h1 := a.isLt; have h2 := b.isLt; have h3 := c.isLt; have h4 := d.isLt; have h5 := g.isLt
  have h6 := b2n_lt h; have h7 := b2n_lt i; have h8 := b2n_lt j; have h9 := b2n_lt k; have h10 := b2n_lt l
  simp only [MmaExt.ofBits, MmaExt.bits, extract_ofNat, getLsbD_ofNat]
  congr 1
  · exact ofNat_eq_of (by omega)
  · exact ofNat_eq_of (by omega)
  · exact ofNat_eq_of (by omega)
  · exact ofNat_eq_of (by omega)
  · exact ofNat_eq_of (by omega)
  · exact decide_b2n _ _ (by omega)
  · exact decide_b2n _ _ (by omega)
  · exact decide_b2n _ _ (by omega)
  · exact decide_b2n _ _ (by omega)
  · exact decide_b2n _ _ (by omega)

theorem ccollExt_bits (e : CcollExt) : CcollExt.ofBits e.bits = e := by
  obtain ⟨a, b, c, d, g, h, i⟩ := e
  have h1 := a.isLt; have h2 := b.isLt; have h3 := d.isLt; have h5 := g.isLt; have h6 := h.isLt; have h7 := i.isLt
  have h4 := b2n_lt c
  simp only [CcollExt.ofBits, CcollExt.bits, extract_ofNat, getLsbD_ofNat]
  congr 1
  · exact ofNat_eq_of (by omega)
  · exact ofNat_eq_of (by omega)
  · exact decide_b2n _ _ (by omega)
  · exact ofNat_eq_of (by omega)
  · exact ofNat_eq_of (by omega)
  · exact ofNat_eq_of (by omega)
  · exact ofNat_eq_of (by omega)

theorem cbrExt_bits (e : CbrExt) : CbrExt.ofBits e.bits = e := by
  obtain ⟨a, b, c⟩ := e
  have h1 := a.isLt; have h2 := b.isLt; have h3 := c.isLt
  simp only [CbrExt.ofBits, CbrExt.bits, extract_ofNat]
  congr 1
  · exact ofNat_eq_of (by omega)
  · exact ofNat_eq_of (by omega)
  · exact ofNat_eq_of (by omega)


/-- From the map's row, for the instruction's own fields. -/
theorem plain {i : Instr} {g : Fields} (hs : select i.major g i.extBits = some i) (hg : i.fields = some g) : Statement i := by
  intro f hf _
  rw [hg] at hf
  cases hf
  exact hs

/-- An instruction without fields has no base word. -/
theorem fieldless {i : Instr} (h : i.fields = none) : Statement i := by
  intro f hf _
  rw [h] at hf
  cases hf

theorem minor_of {i : Instr} {k : Form} {f : Fields} {n : Nat} (hi : i.form = some k) (hf : i.fields = some f)
    (hn : k.minor = Form.is n) (hw : i.wf = true) : f.minor.toNat = n := by
  have h := (Form.breach_none (Instr.wf_form hi hf hw).1).2.1
  rw [hn] at h
  simpa [Form.is] using h

theorem row_of {i : Instr} {k : Form} {f : Fields} {n : Nat} (hi : i.form = some k) (hf : i.fields = some f)
    (hn : k.extra = fun f => Form.sysOk true f && f.sysRow == n) (hw : i.wf = true) : f.sysRow = n := by
  have h := (Form.breach_none (Instr.wf_form hi hf hw).1).2.2
  rw [hn] at h
  simp only [Bool.and_eq_true, beq_iff_eq] at h
  exact h.2


theorem row0F (f : Fields) (x : BitVec 64) : select 0x0F f x = some (match f.minor.toNat with | 1 => (.orOp f) | 2 => (.xorOp f) | 3 => (.andn f) | _ => (.andOp f)) := rfl

theorem row64 (f : Fields) (x : BitVec 64) : select 0x64 f x = some (match f.minor.toNat with | 1 => (.dsub f) | 2 => (.dmul f) | 3 => (.dmax f) | 4 => (.dmin f) | _ => (.dadd f)) := rfl

theorem row92 (f : Fields) (x : BitVec 64) : select 0x92 f x = some (match f.minor.toNat with | 1 => (.tlayGrid f (GridExt.ofBits x)) | _ => (.tlay f (TlayExt.ofBits x))) := rfl

theorem rowB3 (f : Fields) (x : BitVec 64) : select 0xB3 f x = some (match f.minor.toNat with | 1 => (.callR f) | _ => (.call f)) := rfl

theorem rowB4 (f : Fields) (x : BitVec 64) : select 0xB4 f x = some (match f.minor.toNat with | 1 => (.retFault f) | _ => (.ret f)) := rfl

theorem rowD1 (f : Fields) (x : BitVec 64) : select 0xD1 f x = some (match f.sysRow with | 0 => .sysw f | 1 => .tlbinv f | 2 => .loopWrite f | 3 => .msetWrite f | _ => .pgbudgetWrite f) := rfl

theorem iadd : ∀ f, Statement (.iadd f) := fun f => plain (g := f) (show select 0x00 f 0 = some (.iadd f) from rfl) rfl

theorem isub : ∀ f, Statement (.isub f) := fun f => plain (g := f) (show select 0x01 f 0 = some (.isub f) from rfl) rfl

theorem addc : ∀ f, Statement (.addc f) := fun f => plain (g := f) (show select 0x02 f 0 = some (.addc f) from rfl) rfl

theorem imul : ∀ f, Statement (.imul f) := fun f => plain (g := f) (show select 0x03 f 0 = some (.imul f) from rfl) rfl

theorem imulh : ∀ f, Statement (.imulh f) := fun f => plain (g := f) (show select 0x04 f 0 = some (.imulh f) from rfl) rfl

theorem imad : ∀ f, Statement (.imad f) := fun f => plain (g := f) (show select 0x05 f 0 = some (.imad f) from rfl) rfl

theorem iabs : ∀ f, Statement (.iabs f) := fun f => plain (g := f) (show select 0x06 f 0 = some (.iabs f) from rfl) rfl

theorem ineg : ∀ f, Statement (.ineg f) := fun f => plain (g := f) (show select 0x07 f 0 = some (.ineg f) from rfl) rfl

theorem imin : ∀ f, Statement (.imin f) := fun f => plain (g := f) (show select 0x08 f 0 = some (.imin f) from rfl) rfl

theorem imax : ∀ f, Statement (.imax f) := fun f => plain (g := f) (show select 0x09 f 0 = some (.imax f) from rfl) rfl

theorem iclamp : ∀ f, Statement (.iclamp f) := fun f => plain (g := f) (show select 0x0A f 0 = some (.iclamp f) from rfl) rfl

theorem shl : ∀ f, Statement (.shl f) := fun f => plain (g := f) (show select 0x0B f 0 = some (.shl f) from rfl) rfl

theorem shr : ∀ f, Statement (.shr f) := fun f => plain (g := f) (show select 0x0C f 0 = some (.shr f) from rfl) rfl

theorem sar : ∀ f, Statement (.sar f) := fun f => plain (g := f) (show select 0x0D f 0 = some (.sar f) from rfl) rfl

theorem rotl : ∀ f, Statement (.rotl f) := fun f => plain (g := f) (show select 0x0E f 0 = some (.rotl f) from rfl) rfl

theorem andOp : ∀ f, Statement (.andOp f) := by
  intro f f' hf hw
  have hm := minor_of (i := .andOp f) rfl rfl rfl hw
  cases Option.some.inj (show some f = some f' from hf)
  exact (row0F f 0).trans (by rw [hm]; rfl)

theorem orOp : ∀ f, Statement (.orOp f) := by
  intro f f' hf hw
  have hm := minor_of (i := .orOp f) rfl rfl rfl hw
  cases Option.some.inj (show some f = some f' from hf)
  exact (row0F f 0).trans (by rw [hm]; rfl)

theorem xorOp : ∀ f, Statement (.xorOp f) := by
  intro f f' hf hw
  have hm := minor_of (i := .xorOp f) rfl rfl rfl hw
  cases Option.some.inj (show some f = some f' from hf)
  exact (row0F f 0).trans (by rw [hm]; rfl)

theorem andn : ∀ f, Statement (.andn f) := by
  intro f f' hf hw
  have hm := minor_of (i := .andn f) rfl rfl rfl hw
  cases Option.some.inj (show some f = some f' from hf)
  exact (row0F f 0).trans (by rw [hm]; rfl)

theorem blut : ∀ f, Statement (.blut f) := fun f => plain (g := f) (show select 0x10 f 0 = some (.blut f) from rfl) rfl

theorem popc : ∀ f, Statement (.popc f) := fun f => plain (g := f) (show select 0x11 f 0 = some (.popc f) from rfl) rfl

theorem clz : ∀ f, Statement (.clz f) := fun f => plain (g := f) (show select 0x12 f 0 = some (.clz f) from rfl) rfl

theorem ctz : ∀ f, Statement (.ctz f) := fun f => plain (g := f) (show select 0x13 f 0 = some (.ctz f) from rfl) rfl

theorem brev : ∀ f, Statement (.brev f) := fun f => plain (g := f) (show select 0x14 f 0 = some (.brev f) from rfl) rfl

theorem bfx : ∀ f, Statement (.bfx f) := fun f => plain (g := f) (show select 0x15 f 0 = some (.bfx f) from rfl) rfl

theorem bfi : ∀ f, Statement (.bfi f) := fun f => plain (g := f) (show select 0x16 f 0 = some (.bfi f) from rfl) rfl

theorem bperm : ∀ f, Statement (.bperm f) := fun f => plain (g := f) (show select 0x17 f 0 = some (.bperm f) from rfl) rfl

theorem icmp : ∀ f, Statement (.icmp f) := fun f => plain (g := f) (show select 0x18 f 0 = some (.icmp f) from rfl) rfl

theorem isel : ∀ f, Statement (.isel f) := fun f => plain (g := f) (show select 0x19 f 0 = some (.isel f) from rfl) rfl

theorem lea : ∀ f, Statement (.lea f) := fun f => plain (g := f) (show select 0x1A f 0 = some (.lea f) from rfl) rfl

theorem mov : ∀ f, Statement (.mov f) := fun f => plain (g := f) (show select 0x1B f 0 = some (.mov f) from rfl) rfl

theorem movi : ∀ f, Statement (.movi f) := fun f => plain (g := f) (show select 0x1C f 0 = some (.movi f) from rfl) rfl

theorem tidx : ∀ f, Statement (.tidx f) := fun f => plain (g := f) (show select 0x1D f 0 = some (.tidx f) from rfl) rfl

theorem fadd : ∀ f, Statement (.fadd f) := fun f => plain (g := f) (show select 0x20 f 0 = some (.fadd f) from rfl) rfl

theorem fsub : ∀ f, Statement (.fsub f) := fun f => plain (g := f) (show select 0x21 f 0 = some (.fsub f) from rfl) rfl

theorem fmul : ∀ f, Statement (.fmul f) := fun f => plain (g := f) (show select 0x22 f 0 = some (.fmul f) from rfl) rfl

theorem ffma : ∀ f, Statement (.ffma f) := fun f => plain (g := f) (show select 0x23 f 0 = some (.ffma f) from rfl) rfl

theorem fmin : ∀ f, Statement (.fmin f) := fun f => plain (g := f) (show select 0x24 f 0 = some (.fmin f) from rfl) rfl

theorem fmax : ∀ f, Statement (.fmax f) := fun f => plain (g := f) (show select 0x25 f 0 = some (.fmax f) from rfl) rfl

theorem fcmp : ∀ f, Statement (.fcmp f) := fun f => plain (g := f) (show select 0x26 f 0 = some (.fcmp f) from rfl) rfl

theorem fsel : ∀ f, Statement (.fsel f) := fun f => plain (g := f) (show select 0x27 f 0 = some (.fsel f) from rfl) rfl

theorem fclass : ∀ f, Statement (.fclass f) := fun f => plain (g := f) (show select 0x28 f 0 = some (.fclass f) from rfl) rfl

theorem frnd : ∀ f, Statement (.frnd f) := fun f => plain (g := f) (show select 0x29 f 0 = some (.frnd f) from rfl) rfl

theorem hadd2 : ∀ f, Statement (.hadd2 f) := fun f => plain (g := f) (show select 0x2A f 0 = some (.hadd2 f) from rfl) rfl

theorem hmul2 : ∀ f, Statement (.hmul2 f) := fun f => plain (g := f) (show select 0x2B f 0 = some (.hmul2 f) from rfl) rfl

theorem hfma2 : ∀ f, Statement (.hfma2 f) := fun f => plain (g := f) (show select 0x2C f 0 = some (.hfma2 f) from rfl) rfl

theorem fdot2 : ∀ f, Statement (.fdot2 f) := fun f => plain (g := f) (show select 0x2D f 0 = some (.fdot2 f) from rfl) rfl

theorem fcvt : ∀ f, Statement (.fcvt f) := fun f => plain (g := f) (show select 0x40 f 0 = some (.fcvt f) from rfl) rfl

theorem i2f : ∀ f, Statement (.i2f f) := fun f => plain (g := f) (show select 0x41 f 0 = some (.i2f f) from rfl) rfl

theorem f2i : ∀ f, Statement (.f2i f) := fun f => plain (g := f) (show select 0x42 f 0 = some (.f2i f) from rfl) rfl

theorem bxpack : ∀ f, Statement (.bxpack f) := fun f => plain (g := f) (show select 0x43 f 0 = some (.bxpack f) from rfl) rfl

theorem bxunpack : ∀ f, Statement (.bxunpack f) := fun f => plain (g := f) (show select 0x44 f 0 = some (.bxunpack f) from rfl) rfl

theorem hcvt : ∀ f, Statement (.hcvt f) := fun f => plain (g := f) (show select 0x45 f 0 = some (.hcvt f) from rfl) rfl

theorem frcp : ∀ f, Statement (.frcp f) := fun f => plain (g := f) (show select 0x46 f 0 = some (.frcp f) from rfl) rfl

theorem frsq : ∀ f, Statement (.frsq f) := fun f => plain (g := f) (show select 0x47 f 0 = some (.frsq f) from rfl) rfl

theorem fsqrt : ∀ f, Statement (.fsqrt f) := fun f => plain (g := f) (show select 0x48 f 0 = some (.fsqrt f) from rfl) rfl

theorem fex2 : ∀ f, Statement (.fex2 f) := fun f => plain (g := f) (show select 0x49 f 0 = some (.fex2 f) from rfl) rfl

theorem flg2 : ∀ f, Statement (.flg2 f) := fun f => plain (g := f) (show select 0x4A f 0 = some (.flg2 f) from rfl) rfl

theorem fsin : ∀ f, Statement (.fsin f) := fun f => plain (g := f) (show select 0x4B f 0 = some (.fsin f) from rfl) rfl

theorem fcos : ∀ f, Statement (.fcos f) := fun f => plain (g := f) (show select 0x4C f 0 = some (.fcos f) from rfl) rfl

theorem ftanh : ∀ f, Statement (.ftanh f) := fun f => plain (g := f) (show select 0x4D f 0 = some (.ftanh f) from rfl) rfl

theorem vote : ∀ f, Statement (.vote f) := fun f => plain (g := f) (show select 0x50 f 0 = some (.vote f) from rfl) rfl

theorem ballot : ∀ f, Statement (.ballot f) := fun f => plain (g := f) (show select 0x51 f 0 = some (.ballot f) from rfl) rfl

theorem matchOp : ∀ f, Statement (.matchOp f) := fun f => plain (g := f) (show select 0x52 f 0 = some (.matchOp f) from rfl) rfl

theorem shfl : ∀ f, Statement (.shfl f) := fun f => plain (g := f) (show select 0x53 f 0 = some (.shfl f) from rfl) rfl

theorem scan : ∀ f, Statement (.scan f) := fun f => plain (g := f) (show select 0x54 f 0 = some (.scan f) from rfl) rfl

theorem lred : ∀ f, Statement (.lred f) := fun f => plain (g := f) (show select 0x55 f 0 = some (.lred f) from rfl) rfl

theorem lpart : ∀ f, Statement (.lpart f) := fun f => plain (g := f) (show select 0x56 f 0 = some (.lpart f) from rfl) rfl

theorem umov : ∀ f, Statement (.umov f) := fun f => plain (g := f) (show select 0x57 f 0 = some (.umov f) from rfl) rfl

theorem chopen : ∀ f, Statement (.chopen f) := fun f => plain (g := f) (show select 0x58 f 0 = some (.chopen f) from rfl) rfl

theorem chclose : ∀ f, Statement (.chclose f) := fun f => plain (g := f) (show select 0x59 f 0 = some (.chclose f) from rfl) rfl

theorem barArrive : ∀ f, Statement (.barArrive f) := fun f => plain (g := f) (show select 0x5A f 0 = some (.barArrive f) from rfl) rfl

theorem barWait : ∀ f, Statement (.barWait f) := fun f => plain (g := f) (show select 0x5B f 0 = some (.barWait f) from rfl) rfl

theorem barSync : ∀ f, Statement (.barSync f) := fun f => plain (g := f) (show select 0xB6 f 0 = some (.barSync f) from rfl) rfl

theorem dmake : ∀ f, Statement (.dmake f) := fun f => plain (g := f) (show select 0x60 f 0 = some (.dmake f) from rfl) rfl

theorem dconst : ∀ f, Statement (.dconst f) := fun f => plain (g := f) (show select 0x61 f 0 = some (.dconst f) from rfl) rfl

theorem dld : ∀ f, Statement (.dld f) := fun f => plain (g := f) (show select 0x62 f 0 = some (.dld f) from rfl) rfl

theorem dst : ∀ f, Statement (.dst f) := fun f => plain (g := f) (show select 0x63 f 0 = some (.dst f) from rfl) rfl

theorem dadd : ∀ f, Statement (.dadd f) := by
  intro f f' hf hw
  have hm := minor_of (i := .dadd f) rfl rfl rfl hw
  cases Option.some.inj (show some f = some f' from hf)
  exact (row64 f 0).trans (by rw [hm]; rfl)

theorem dsub : ∀ f, Statement (.dsub f) := by
  intro f f' hf hw
  have hm := minor_of (i := .dsub f) rfl rfl rfl hw
  cases Option.some.inj (show some f = some f' from hf)
  exact (row64 f 0).trans (by rw [hm]; rfl)

theorem dmul : ∀ f, Statement (.dmul f) := by
  intro f f' hf hw
  have hm := minor_of (i := .dmul f) rfl rfl rfl hw
  cases Option.some.inj (show some f = some f' from hf)
  exact (row64 f 0).trans (by rw [hm]; rfl)

theorem dmax : ∀ f, Statement (.dmax f) := by
  intro f f' hf hw
  have hm := minor_of (i := .dmax f) rfl rfl rfl hw
  cases Option.some.inj (show some f = some f' from hf)
  exact (row64 f 0).trans (by rw [hm]; rfl)

theorem dmin : ∀ f, Statement (.dmin f) := by
  intro f f' hf hw
  have hm := minor_of (i := .dmin f) rfl rfl rfl hw
  cases Option.some.inj (show some f = some f' from hf)
  exact (row64 f 0).trans (by rw [hm]; rfl)

theorem dfma : ∀ f, Statement (.dfma f) := fun f => plain (g := f) (show select 0x65 f 0 = some (.dfma f) from rfl) rfl

theorem dscale : ∀ f, Statement (.dscale f) := fun f => plain (g := f) (show select 0x66 f 0 = some (.dscale f) from rfl) rfl

theorem doffs : ∀ f, Statement (.doffs f) := fun f => plain (g := f) (show select 0x67 f 0 = some (.doffs f) from rfl) rfl

theorem dcond : ∀ f, Statement (.dcond f) := fun f => plain (g := f) (show select 0x68 f 0 = some (.dcond f) from rfl) rfl

theorem dtag : ∀ f, Statement (.dtag f) := fun f => plain (g := f) (show select 0x69 f 0 = some (.dtag f) from rfl) rfl

theorem dalign : ∀ f, Statement (.dalign f) := fun f => plain (g := f) (show select 0x6A f 0 = some (.dalign f) from rfl) rfl

theorem dmom : ∀ f, Statement (.dmom f) := fun f => plain (g := f) (show select 0x6B f 0 = some (.dmom f) from rfl) rfl

theorem dqnt : ∀ f, Statement (.dqnt f) := fun f => plain (g := f) (show select 0x6C f 0 = some (.dqnt f) from rfl) rfl

theorem dcdf : ∀ f, Statement (.dcdf f) := fun f => plain (g := f) (show select 0x6D f 0 = some (.dcdf f) from rfl) rfl

theorem dmix : ∀ f, Statement (.dmix f) := fun f => plain (g := f) (show select 0x6E f 0 = some (.dmix f) from rfl) rfl

theorem ld : ∀ f, Statement (.ld f) := fun f => plain (g := f) (show select 0x70 f 0 = some (.ld f) from rfl) rfl

theorem st : ∀ f, Statement (.st f) := fun f => plain (g := f) (show select 0x71 f 0 = some (.st f) from rfl) rfl

theorem ldc : ∀ f, Statement (.ldc f) := fun f => plain (g := f) (show select 0x72 f 0 = some (.ldc f) from rfl) rfl

theorem pref : ∀ f, Statement (.pref f) := fun f => plain (g := f) (show select 0x73 f 0 = some (.pref f) from rfl) rfl

theorem atom : ∀ f, Statement (.atom f) := fun f => plain (g := f) (show select 0x80 f 0 = some (.atom f) from rfl) rfl

theorem atomcas : ∀ f, Statement (.atomcas f) := fun f => plain (g := f) (show select 0x81 f 0 = some (.atomcas f) from rfl) rfl

theorem red : ∀ f, Statement (.red f) := fun f => plain (g := f) (show select 0x82 f 0 = some (.red f) from rfl) rfl

theorem fence : ∀ f, Statement (.fence f) := fun f => plain (g := f) (show select 0x83 f 0 = some (.fence f) from rfl) rfl

theorem racq : ∀ f, Statement (.racq f) := fun f => plain (g := f) (show select 0x84 f 0 = some (.racq f) from rfl) rfl

theorem tcopy : ∀ f x, Statement (.tcopy f x) := fun f x => plain (g := f)
  ((show select 0x90 f x.bits = some (.tcopy f (CopyExt.ofBits x.bits)) from rfl).trans (congrArg (fun y => some (Instr.tcopy f y)) (copyExt_bits x))) rfl

theorem tcopyx : ∀ f x, Statement (.tcopyx f x) := fun f x => plain (g := f)
  ((show select 0x93 f x.bits = some (.tcopyx f (CopyExt.ofBits x.bits)) from rfl).trans (congrArg (fun y => some (Instr.tcopyx f y)) (copyExt_bits x))) rfl

theorem tseal : ∀ f, Statement (.tseal f) := fun f => plain (g := f) (show select 0x91 f 0 = some (.tseal f) from rfl) rfl

theorem tlay : ∀ f x, Statement (.tlay f x) := by
  intro f x f' hf hw
  have hm := minor_of (i := .tlay f x) rfl rfl rfl hw
  cases Option.some.inj (show some f = some f' from hf)
  exact (row92 f x.bits).trans (by rw [hm]; exact congrArg (fun y => some (Instr.tlay f y)) (tlayExt_bits x))

theorem tlayGrid : ∀ f x, Statement (.tlayGrid f x) := by
  intro f x f' hf hw
  have hm := minor_of (i := .tlayGrid f x) rfl rfl rfl hw
  cases Option.some.inj (show some f = some f' from hf)
  exact (row92 f x.bits).trans (by rw [hm]; exact congrArg (fun y => some (Instr.tlayGrid f y)) (gridExt_bits x))

theorem mma : ∀ f x, Statement (.mma f x) := fun f x => plain (g := f)
  ((show select 0xA0 f x.bits = some (.mma f (MmaExt.ofBits x.bits)) from rfl).trans (congrArg (fun y => some (Instr.mma f y)) (mmaExt_bits x))) rfl

theorem mzero : ∀ f, Statement (.mzero f) := fun f => plain (g := f) (show select 0xA1 f 0 = some (.mzero f) from rfl) rfl

theorem maccrd : ∀ f, Statement (.maccrd f) := fun f => plain (g := f) (show select 0xA2 f 0 = some (.maccrd f) from rfl) rfl

theorem maccwr : ∀ f, Statement (.maccwr f) := fun f => plain (g := f) (show select 0xA3 f 0 = some (.maccwr f) from rfl) rfl

theorem bobj : ∀ f, Statement (.bobj f) := fun f => plain (g := f) (show select 0xA4 f 0 = some (.bobj f) from rfl) rfl

theorem bstat : ∀ f, Statement (.bstat f) := fun f => plain (g := f) (show select 0xA5 f 0 = some (.bstat f) from rfl) rfl

theorem jmp : ∀ f, Statement (.jmp f) := fun f => plain (g := f) (show select 0xB0 f 0 = some (.jmp f) from rfl) rfl

theorem br : ∀ f, Statement (.br f) := fun f => plain (g := f) (show select 0xB1 f 0 = some (.br f) from rfl) rfl

theorem brx : ∀ f, Statement (.brx f) := fun f => plain (g := f) (show select 0xB2 f 0 = some (.brx f) from rfl) rfl

theorem call : ∀ f, Statement (.call f) := by
  intro f f' hf hw
  have hm := minor_of (i := .call f) rfl rfl rfl hw
  cases Option.some.inj (show some f = some f' from hf)
  exact (rowB3 f 0).trans (by rw [hm]; rfl)

theorem callR : ∀ f, Statement (.callR f) := by
  intro f f' hf hw
  have hm := minor_of (i := .callR f) rfl rfl rfl hw
  cases Option.some.inj (show some f = some f' from hf)
  exact (rowB3 f 0).trans (by rw [hm]; rfl)

theorem ret : ∀ f, Statement (.ret f) := by
  intro f f' hf hw
  have hm := minor_of (i := .ret f) rfl rfl rfl hw
  cases Option.some.inj (show some f = some f' from hf)
  exact (rowB4 f 0).trans (by rw [hm]; rfl)

theorem retFault : ∀ f, Statement (.retFault f) := by
  intro f f' hf hw
  have hm := minor_of (i := .retFault f) rfl rfl rfl hw
  cases Option.some.inj (show some f = some f' from hf)
  exact (rowB4 f 0).trans (by rw [hm]; rfl)

theorem exit : ∀ f, Statement (.exit f) := fun f => plain (g := f) (show select 0xB5 f 0 = some (.exit f) from rfl) rfl

theorem park : ∀ f, Statement (.park f) := fun f => plain (g := f) (show select 0xB7 f 0 = some (.park f) from rfl) rfl

theorem cbr : ∀ f x, Statement (.cbr f x) := fun f x => plain (g := f)
  ((show select 0xC0 f x.bits = some (.cbr f (CbrExt.ofBits x.bits)) from rfl).trans (congrArg (fun y => some (Instr.cbr f y)) (cbrExt_bits x))) rfl

theorem mjoin : ∀ f, Statement (.mjoin f) := fun f => plain (g := f) (show select 0xC1 f 0 = some (.mjoin f) from rfl) rfl

theorem mleave : ∀ f, Statement (.mleave f) := fun f => plain (g := f) (show select 0xC2 f 0 = some (.mleave f) from rfl) rfl

theorem mvote : ∀ f, Statement (.mvote f) := fun f => plain (g := f) (show select 0xC3 f 0 = some (.mvote f) from rfl) rfl

theorem sfence : ∀ f, Statement (.sfence f) := fun f => plain (g := f) (show select 0xC4 f 0 = some (.sfence f) from rfl) rfl

theorem ccoll : ∀ f x, Statement (.ccoll f x) := fun f x => plain (g := f)
  ((show select 0xC5 f x.bits = some (.ccoll f (CcollExt.ofBits x.bits)) from rfl).trans (congrArg (fun y => some (Instr.ccoll f y)) (ccollExt_bits x))) rfl

theorem sysr : ∀ f, Statement (.sysr f) := fun f => plain (g := f) (show select 0xD0 f 0 = some (.sysr f) from rfl) rfl

theorem sysw : ∀ f, Statement (.sysw f) := by
  intro f f' hf hw
  have hm := row_of (i := .sysw f) rfl rfl rfl hw
  cases Option.some.inj (show some f = some f' from hf)
  exact (rowD1 f 0).trans (by rw [hm]; rfl)

theorem tlbinv : ∀ f, Statement (.tlbinv f) := by
  intro f f' hf hw
  have hm := row_of (i := .tlbinv f) rfl rfl rfl hw
  cases Option.some.inj (show some f = some f' from hf)
  exact (rowD1 f 0).trans (by rw [hm]; rfl)

theorem loopWrite : ∀ f, Statement (.loopWrite f) := by
  intro f f' hf hw
  have hm := row_of (i := .loopWrite f) rfl rfl rfl hw
  cases Option.some.inj (show some f = some f' from hf)
  exact (rowD1 f 0).trans (by rw [hm]; rfl)

theorem msetWrite : ∀ f, Statement (.msetWrite f) := by
  intro f f' hf hw
  have hm := row_of (i := .msetWrite f) rfl rfl rfl hw
  cases Option.some.inj (show some f = some f' from hf)
  exact (rowD1 f 0).trans (by rw [hm]; rfl)

theorem pgbudgetWrite : ∀ f, Statement (.pgbudgetWrite f) := by
  intro f f' hf hw
  have hm := row_of (i := .pgbudgetWrite f) rfl rfl rfl hw
  cases Option.some.inj (show some f = some f' from hf)
  exact (rowD1 f 0).trans (by rw [hm]; rfl)

theorem beat : ∀ f, Statement (.beat f) := fun f => plain (g := f) (show select 0xD2 f 0 = some (.beat f) from rfl) rfl

theorem launch : ∀ f, Statement (.launch f) := fun f => plain (g := f) (show select 0xD3 f 0 = some (.launch f) from rfl) rfl

theorem trap : ∀ f, Statement (.trap f) := fun f => plain (g := f) (show select 0xD4 f 0 = some (.trap f) from rfl) rfl

theorem brk : ∀ f, Statement (.brk f) := fun f => plain (g := f) (show select 0xD5 f 0 = some (.brk f) from rfl) rfl

theorem nop : ∀ f, Statement (.nop f) := fun f => plain (g := f) (show select 0xD6 f 0 = some (.nop f) from rfl) rfl

theorem hint : ∀ f, Statement (.hint f) := fun f => plain (g := f) (show select 0xD7 f 0 = some (.hint f) from rfl) rfl

theorem longLatencyComplete : ∀ core slot op word, Statement (.longLatencyComplete core slot op word) := fun _ _ _ _ => fieldless rfl

theorem contextKill : ∀ ctx, Statement (.contextKill ctx) := fun _ => fieldless rfl

theorem passForm : ∀ core pipe, Statement (.passForm core pipe) := fun _ _ => fieldless rfl

theorem parkDue : ∀ core slot, Statement (.parkDue core slot) := fun _ _ => fieldless rfl

theorem spill : ∀ core, Statement (.spill core) := fun _ => fieldless rfl

theorem tempRefreshSwitch : ∀ core pipe, Statement (.tempRefreshSwitch core pipe) := fun _ _ => fieldless rfl

theorem rowRefresh : ∀ core row, Statement (.rowRefresh core row) := fun _ _ => fieldless rfl

theorem threadFree : ∀ core slot, Statement (.threadFree core slot) := fun _ _ => fieldless rfl

theorem launchPacket : ∀ q, Statement (.launchPacket q) := fun _ => fieldless rfl

theorem waitSignal : ∀ q, Statement (.waitSignal q) := fun _ => fieldless rfl

theorem writeSignal : ∀ q, Statement (.writeSignal q) := fun _ => fieldless rfl

theorem barrierAnd : ∀ q, Statement (.barrierAnd q) := fun _ => fieldless rfl

theorem loopConfig : ∀ q, Statement (.loopConfig q) := fun _ => fieldless rfl

theorem signalRecheck : ∀ q, Statement (.signalRecheck q) := fun _ => fieldless rfl

theorem queueResume : ∀ q, Statement (.queueResume q) := fun _ => fieldless rfl

theorem teamPlace : ∀ grid team, Statement (.teamPlace grid team) := fun _ _ => fieldless rfl

theorem teamEnd : ∀ team, Statement (.teamEnd team) := fun _ => fieldless rfl

theorem gridComplete : ∀ grid, Statement (.gridComplete grid) := fun _ => fieldless rfl

theorem allocPass : Statement (.allocPass) := fieldless rfl

theorem ncPreempt : ∀ ctx core, Statement (.ncPreempt ctx core) := fun _ _ => fieldless rfl

theorem watchdogExpire : ∀ core, Statement (.watchdogExpire core) := fun _ => fieldless rfl

theorem preemptRequest : ∀ ctx, Statement (.preemptRequest ctx) := fun _ => fieldless rfl

theorem passCut : ∀ core pipe, Statement (.passCut core pipe) := fun _ _ => fieldless rfl

theorem preemptChoose : ∀ ctx cluster, Statement (.preemptChoose ctx cluster) := fun _ _ => fieldless rfl

theorem drainDeadline : ∀ ctx, Statement (.drainDeadline ctx) := fun _ => fieldless rfl

theorem restore : ∀ ctx partition, Statement (.restore ctx partition) := fun _ _ => fieldless rfl

theorem tempSample : ∀ core celsius, Statement (.tempSample core celsius) := fun _ _ => fieldless rfl

theorem thermalMigrate : ∀ pair, Statement (.thermalMigrate pair) := fun _ => fieldless rfl

theorem liveMigrate : ∀ ctx dev newCtx, Statement (.liveMigrate ctx dev newCtx) := fun _ _ _ => fieldless rfl

theorem copyCheck : ∀ id, Statement (.copyCheck id) := fun _ => fieldless rfl

theorem leaveRequest : ∀ id, Statement (.leaveRequest id) := fun _ => fieldless rfl

theorem leaveGrant : ∀ die, Statement (.leaveGrant die) := fun _ => fieldless rfl

theorem copyDeliver : ∀ id, Statement (.copyDeliver id) := fun _ => fieldless rfl

theorem copyUnitWrite : ∀ id, Statement (.copyUnitWrite id) := fun _ => fieldless rfl

theorem copyComplete : ∀ id, Statement (.copyComplete id) := fun _ => fieldless rfl

theorem mmaStart : ∀ core, Statement (.mmaStart core) := fun _ => fieldless rfl

theorem tfuFetch : ∀ core va, Statement (.tfuFetch core va) := fun _ _ => fieldless rfl

theorem mmaArrive : ∀ core, Statement (.mmaArrive core) := fun _ => fieldless rfl

theorem mzeroComplete : ∀ core, Statement (.mzeroComplete core) := fun _ => fieldless rfl

theorem translationComplete : ∀ core va, Statement (.translationComplete core va) := fun _ _ => fieldless rfl

theorem l2Refetch : ∀ line, Statement (.l2Refetch line) := fun _ => fieldless rfl

theorem setup : ∀ m, Statement (.setup m) := fun _ => fieldless rfl

theorem collectiveChunk : ∀ m, Statement (.collectiveChunk m) := fun _ => fieldless rfl

theorem chunkAcknowledgement : ∀ m, Statement (.chunkAcknowledgement m) := fun _ => fieldless rfl

theorem nackWithRedirect : ∀ m, Statement (.nackWithRedirect m) := fun _ => fieldless rfl

theorem slotRequest : ∀ id, Statement (.slotRequest id) := fun _ => fieldless rfl

theorem slotGrant : ∀ id switch, Statement (.slotGrant id switch) := fun _ _ => fieldless rfl

theorem slotNack : ∀ id switch, Statement (.slotNack id switch) := fun _ _ => fieldless rfl

theorem slotRelease : ∀ id, Statement (.slotRelease id) := fun _ => fieldless rfl

theorem beatCount : ∀ ctx merged, Statement (.beatCount ctx merged) := fun _ _ => fieldless rfl

theorem beatMergeTimeout : ∀ ctx, Statement (.beatMergeTimeout ctx) := fun _ => fieldless rfl

theorem portDown : ∀ dev port, Statement (.portDown dev port) := fun _ _ => fieldless rfl

theorem reservedKindDiscard : ∀ m, Statement (.reservedKindDiscard m) := fun _ => fieldless rfl

theorem memberLost : ∀ id rank, Statement (.memberLost id rank) := fun _ _ => fieldless rfl

theorem collectiveComplete : ∀ id, Statement (.collectiveComplete id) := fun _ => fieldless rfl

theorem tallyClose : ∀ ctx reg, Statement (.tallyClose ctx reg) := fun _ _ => fieldless rfl

theorem graceExpire : ∀ ctx reg, Statement (.graceExpire ctx reg) := fun _ _ => fieldless rfl

theorem specSquash : ∀ core gslot, Statement (.specSquash core gslot) := fun _ _ => fieldless rfl

theorem heartbeat : ∀ hart, Statement (.heartbeat hart) := fun _ => fieldless rfl

theorem takeover : ∀ standby, Statement (.takeover standby) := fun _ => fieldless rfl

theorem fwcHalt : ∀ bits, Statement (.fwcHalt bits) := fun _ => fieldless rfl

theorem s2inv : ∀ value, Statement (.s2inv value) := fun _ => fieldless rfl

theorem amzQfetch : ∀ rd rs1 rs2, Statement (.amzQfetch rd rs1 rs2) := fun _ _ _ => fieldless rfl

theorem amzBfx : ∀ rd rs1 rs2, Statement (.amzBfx rd rs1 rs2) := fun _ _ _ => fieldless rfl

theorem amzBfxS : ∀ rd rs1 rs2, Statement (.amzBfxS rd rs1 rs2) := fun _ _ _ => fieldless rfl

theorem amzSigwait : ∀ cond rd rs1 rs2, Statement (.amzSigwait cond rd rs1 rs2) := fun _ _ _ _ => fieldless rfl

theorem amzDispatch : ∀ rd rs1 rs2, Statement (.amzDispatch rd rs1 rs2) := fun _ _ _ => fieldless rfl

theorem notify : ∀ vcp value, Statement (.notify vcp value) := fun _ _ => fieldless rfl

theorem vcpScan : ∀ hart vcp, Statement (.vcpScan hart vcp) := fun _ _ => fieldless rfl

theorem vcpUnmap : ∀ vcp, Statement (.vcpUnmap vcp) := fun _ => fieldless rfl

theorem vfReset : ∀ vcp, Statement (.vfReset vcp) := fun _ => fieldless rfl

theorem hsemAcquire : ∀ port sem, Statement (.hsemAcquire port sem) := fun _ _ => fieldless rfl

theorem hsemRelease : ∀ port sem, Statement (.hsemRelease port sem) := fun _ _ => fieldless rfl

theorem linkDown : ∀ port, Statement (.linkDown port) := fun _ => fieldless rfl

theorem quote : ∀ port nonce, Statement (.quote port nonce) := fun _ _ => fieldless rfl

theorem keyload : ∀ port keyId wrapped, Statement (.keyload port keyId wrapped) := fun _ _ _ => fieldless rfl

theorem partOp : ∀ port p, Statement (.partOp port p) := fun _ _ => fieldless rfl

theorem sealOp : ∀ port part on, Statement (.sealOp port part on) := fun _ _ _ => fieldless rfl

theorem vfmap : ∀ port vcp vf queues, Statement (.vfmap port vcp vf queues) := fun _ _ _ _ => fieldless rfl

theorem fwupdate : ∀ port image signature, Statement (.fwupdate port image signature) := fun _ _ _ => fieldless rfl

theorem boot : ∀ faulty images, Statement (.boot faulty images) := fun _ _ => fieldless rfl

theorem sequenceResolution : ∀ ctx reg r, Statement (.sequenceResolution ctx reg r) := fun _ _ _ => fieldless rfl

theorem actuatorLevelsApply : Statement (.actuatorLevelsApply) := fieldless rfl

theorem functionFailure : ∀ bit, Statement (.functionFailure bit) := fun _ => fieldless rfl

theorem unassignedOpcode : ∀ guard major, Statement (.unassignedOpcode guard major) := fun _ _ => fieldless rfl

end Laws.Selects
end Sys2Proof
end

