-- ==== Sys2Proof/Laws/Registers.lean ====
section
/-!
SUPPORT. What each shape of register instruction does when its fields are admitted, its sources can be read and its uniform
results agree: one law per shape, over the course on registers.
-/
namespace Sys2Proof.Machine

theorem intUn_effect (s : State) (f : Fields) (op : Nat → Nat) {c p : Nat} {x : Pass} {ks : List Nat} {a r : Nat → Nat}
    (h : Executes s c p x f.guard ks)
    (hk : ∀ k ∈ ks, AdmitsUn s f (x.lane c k) ∧ ReadsA s f (x.lane c k) (a k) ∧ r k = op (a k))
    (ha : Agree x.hdr ks (fun k => IntResult s f (x.lane c k) (r k))) :
    ∃ t, intUn s f op = .next t ∧ LaneEffect s t c p x ks f.readsChannel (fun k => IntResult s f (x.lane c k) (r k)) := by
  apply regOp_effect s f _ _ h _ ha
  intro k hk'
  obtain ⟨h1, h2, h3⟩ := hk k hk'
  refine ⟨h1, ?_⟩
  simp only [ReadsA] at h2
  simp [h2, h3, IntResult, bind, Except.bind]

theorem intBin_effect (s : State) (f : Fields) (op : Nat → Nat → Nat) {c p : Nat} {x : Pass} {ks : List Nat} {a b r : Nat → Nat}
    (h : Executes s c p x f.guard ks)
    (hk : ∀ k ∈ ks, AdmitsBin s f (x.lane c k) ∧ ReadsA s f (x.lane c k) (a k) ∧ ReadsB s f (x.lane c k) (b k)
      ∧ r k = op (a k) (b k))
    (ha : Agree x.hdr ks (fun k => IntResult s f (x.lane c k) (r k))) :
    ∃ t, intBin s f op = .next t ∧ LaneEffect s t c p x ks f.readsChannel (fun k => IntResult s f (x.lane c k) (r k)) := by
  apply regOp_effect s f _ _ h _ ha
  intro k hk'
  obtain ⟨h1, h2, h3, h4⟩ := hk k hk'
  refine ⟨h1, ?_⟩
  simp only [ReadsA, ReadsB] at h2 h3
  simp [h2, h3, h4, IntResult, bind, Except.bind]

theorem shiftIns_effect (s : State) (f : Fields) (op : Nat → Nat → Nat) {c p : Nat} {x : Pass} {ks : List Nat}
    {a n r : Nat → Nat} (h : Executes s c p x f.guard ks)
    (hk : ∀ k ∈ ks, AdmitsBin s f (x.lane c k) ∧ ReadsA s f (x.lane c k) (a k) ∧ ShiftAmount s f (x.lane c k) (n k)
      ∧ r k = op (a k) (n k))
    (ha : Agree x.hdr ks (fun k => IntResult s f (x.lane c k) (r k))) :
    ∃ t, shiftIns s f op = .next t ∧ LaneEffect s t c p x ks f.readsChannel (fun k => IntResult s f (x.lane c k) (r k)) := by
  apply regOp_effect s f _ _ h _ ha
  intro k hk'
  obtain ⟨h1, h2, h3, h4⟩ := hk k hk'
  refine ⟨h1, ?_⟩
  simp only [ReadsA] at h2
  simp only [ShiftAmount] at h3
  cases hi : f.imm with
  | some i => simp only [hi] at h3; simp [h2, h3, h4, IntResult, bind, Except.bind]
  | none =>
    simp only [hi] at h3
    split at h3
    · rename_i hp
      obtain ⟨d, h5, h6⟩ := h3
      simp [h2, h4, h5, h6, hp, IntResult, bind, Except.bind, Except.map]
    · rename_i hp
      obtain ⟨d, h5, h6⟩ := h3
      simp [h2, h4, h5, h6, hp, IntResult, bind, Except.bind]

theorem intTri_effect (s : State) (f : Fields) (op : Nat → Nat → Nat → Nat) {c p : Nat} {x : Pass} {ks : List Nat}
    {a b d r : Nat → Nat} (h : Executes s c p x f.guard ks)
    (hk : ∀ k ∈ ks, AdmitsTri s f (x.lane c k) ∧ ReadsA s f (x.lane c k) (a k) ∧ ReadsB s f (x.lane c k) (b k)
      ∧ (x.lane c k).readInt s pSC f.sc f.ty = .ok (d k) ∧ r k = op (a k) (b k) (d k))
    (ha : Agree x.hdr ks (fun k => IntResult s f (x.lane c k) (r k))) :
    ∃ t, intTri s f op = .next t ∧ LaneEffect s t c p x ks f.readsChannel (fun k => IntResult s f (x.lane c k) (r k)) := by
  apply regOp_effect s f _ _ h _ ha
  intro k hk'
  obtain ⟨h1, h2, h3, h4, h5⟩ := hk k hk'
  refine ⟨h1, ?_⟩
  simp only [ReadsA, ReadsB] at h2 h3
  simp [h2, h3, h4, h5, IntResult, bind, Except.bind]

theorem intTriC_effect (s : State) (f : Fields) (op : Nat → Nat → Nat → Nat) {c p : Nat} {x : Pass} {ks : List Nat}
    {a b d r : Nat → Nat} (h : Executes s c p x f.guard ks)
    (hk : ∀ k ∈ ks, AdmitsTriC s f (x.lane c k) ∧ ReadsA s f (x.lane c k) (a k)
      ∧ (x.lane c k).readInt s pSB f.sb f.ty = .ok (b k)
      ∧ (x.lane c k).readIntI s pSC f.sc f.ty f.imm = .ok (d k) ∧ r k = op (a k) (b k) (d k))
    (ha : Agree x.hdr ks (fun k => IntResult s f (x.lane c k) (r k))) :
    ∃ t, intTriC s f op = .next t ∧ LaneEffect s t c p x ks f.readsChannel (fun k => IntResult s f (x.lane c k) (r k)) := by
  apply regOp_effect s f _ _ h _ ha
  intro k hk'
  obtain ⟨h1, h2, h3, h4, h5⟩ := hk k hk'
  refine ⟨h1, ?_⟩
  simp only [ReadsA] at h2
  simp [h2, h3, h4, h5, IntResult, bind, Except.bind]

theorem fpUn_effect (s : State) (f : Fields) (op : Nat → Nat × BitVec 5) {c p : Nat} {x : Pass} {ks : List Nat} {a : Nat → Nat}
    (h : Executes s c p x f.guard ks)
    (hk : ∀ k ∈ ks, (x.lane c k).check s [(pSA, .src false, f.sa), (pDST, .dst false, f.dst)] = .ok ()
      ∧ (x.lane c k).readF s pSA f.sa f.ty = .ok (a k))
    (ha : Agree x.hdr ks (fun k => FpResult s f (x.lane c k) (op (a k)))) :
    ∃ t, fpUn s f op = .next t ∧ LaneEffect s t c p x ks f.readsChannel (fun k => FpResult s f (x.lane c k) (op (a k))) := by
  apply regOp_effect s f _ _ h _ ha
  intro k hk'
  obtain ⟨h1, h2⟩ := hk k hk'
  exact ⟨h1, by simp [h2, FpResult, bind, Except.bind]⟩

theorem fpBin_effect (s : State) (f : Fields) (op : Nat → Nat → Nat × BitVec 5) {c p : Nat} {x : Pass} {ks : List Nat}
    {a b : Nat → Nat} (h : Executes s c p x f.guard ks)
    (hk : ∀ k ∈ ks, (x.lane c k).check s ([(pSA, .src false, f.sa)] ++ unlessImm f (pSB, .src false, f.sb)
        ++ [(pDST, .dst false, f.dst)]) = .ok ()
      ∧ (x.lane c k).readF s pSA f.sa f.ty = .ok (a k) ∧ (x.lane c k).readFI s pSB f.sb f.ty f.imm = .ok (b k))
    (ha : Agree x.hdr ks (fun k => FpResult s f (x.lane c k) (op (a k) (b k)))) :
    ∃ t, fpBin s f op = .next t
      ∧ LaneEffect s t c p x ks f.readsChannel (fun k => FpResult s f (x.lane c k) (op (a k) (b k))) := by
  apply regOp_effect s f _ _ h _ ha
  intro k hk'
  obtain ⟨h1, h2, h3⟩ := hk k hk'
  exact ⟨h1, by simp [h2, h3, FpResult, bind, Except.bind]⟩

theorem packBin_effect (s : State) (f : Fields) (op : Nat → Nat → Nat × BitVec 5) {c p : Nat} {x : Pass} {ks : List Nat}
    {a b : Nat → Nat × Nat} (h : Executes s c p x f.guard ks)
    (hk : ∀ k ∈ ks, (x.lane c k).check s ([(pSA, .src false, f.sa)] ++ unlessImm f (pSB, .src false, f.sb)
        ++ [(pDST, .dst false, f.dst)]) = .ok ()
      ∧ (x.lane c k).readP2 s pSA f.sa f.ty none = .ok (a k) ∧ (x.lane c k).readP2 s pSB f.sb f.ty f.imm = .ok (b k))
    (ha : Agree x.hdr ks (fun k => FpResult s f (x.lane c k) (packPair (op (a k).1 (b k).1) (op (a k).2 (b k).2)))) :
    ∃ t, packBin s f op = .next t ∧ LaneEffect s t c p x ks f.readsChannel
      (fun k => FpResult s f (x.lane c k) (packPair (op (a k).1 (b k).1) (op (a k).2 (b k).2))) := by
  apply regOp_effect s f _ _ h _ ha
  intro k hk'
  obtain ⟨h1, h2, h3⟩ := hk k hk'
  exact ⟨h1, by simp [h2, h3, FpResult, bind, Except.bind]⟩

theorem blockOp_effect (s : State) (f : Fields) (ok : FmtSlot → Bool) (srcN dstN : FmtSlot → Nat)
    (conv : FmtSlot → Nat → List Word → List Word × BitVec 5) {c p : Nat} {x : Pass} {ks : List Nat} {ws : Nat → List Word}
    {z : Nat → FmtSlot} (h : Executes s c p x f.guard ks)
    (hk : ∀ k ∈ ks, z k = ((x.lane c k).grid s).slot f.slot.toNat ∧ ok (z k) = true
      ∧ (x.lane c k).check s [(pSA, .vGroup (srcN (z k)), f.sa), (pDST, .vGroup (dstN (z k)), f.dst)] = .ok ()
      ∧ (x.lane c k).readGroup s pSA f.sa 0 (srcN (z k)) = .ok (ws k))
    (ha : Agree x.hdr ks (fun k => (((x.lane c k).start s f).putGroup ((x.lane c k).regs s) f.dst 0
      (conv (z k) (slotMode f.md (z k)) (ws k)).1).orFlags (conv (z k) (slotMode f.md (z k)) (ws k)).2)) :
    ∃ t, blockOp s f ok srcN dstN conv = .next t ∧ LaneEffect s t c p x ks false
      (fun k => (((x.lane c k).start s f).putGroup ((x.lane c k).regs s) f.dst 0
        (conv (z k) (slotMode f.md (z k)) (ws k)).1).orFlags (conv (z k) (slotMode f.md (z k)) (ws k)).2) := by
  apply s.execLanes_effect _ _ _ _ h _ ha
  intro k hk'
  obtain ⟨h1, h2, h3, h4⟩ := hk k hk'
  simp only [← h1, h2, h3, h4, bind, Except.bind, Bool.not_true, Bool.false_eq_true, if_false]

theorem participants_all {α : Type} (rd : Lane → Except LaneFail α) (ks : List Nat) (x : Pass) (c k : Nat) (v : Nat → α)
    (h : ∀ j ∈ ks, rd (x.lane c j) = .ok (v j)) :
    participants rd ks (x.lane c k) = (ks.filter (fun j => j / 32 = (x.lane c k).gslot)).map (fun j => (j % 32, v j)) := by
  unfold participants
  have hl : ∀ j, ({ x.lane c k with slot := j } : Lane) = x.lane c j := fun _ => rfl
  simp only [hl]
  induction ks with
  | nil => rfl
  | cons j r ih =>
    have hr := ih (fun i hi => h i (List.mem_cons_of_mem _ hi))
    by_cases hj : j / 32 = (x.lane c k).gslot
    · simp only [List.filterMap_cons, hj, if_true, h j List.mem_cons_self, decide_true, List.filter_cons, List.map_cons, hr]
    · simp only [List.filterMap_cons, hj, if_false, decide_false, List.filter_cons, hr, Bool.false_eq_true]

theorem inTile_all {α : Type} (s : State) (l : Lane) (ks : List Nat) (v : Nat → α) :
    inTile s l ((ks.filter (fun j => j / 32 = l.gslot)).map (fun j => (j % 32, v j))) = tileReads s l ks v := by
  unfold inTile tileReads tileSlots
  rw [List.filter_map, List.filter_filter]
  congr 1
  apply List.filter_congr
  intro j _
  simp only [Function.comp]
  by_cases h : j / 32 = l.gslot <;> simp [h]

theorem tileOp_effect {α : Type} (s : State) (f : Fields) (ts : List (Nat × OpKind × Operand)) (rd : Lane → Except LaneFail α)
    (res : List (Nat × α) → Lane → α → LaneOut → LaneOut) {c p : Nat} {x : Pass} {ks : List Nat} {v : Nat → α}
    (h : Executes s c p x f.guard ks)
    (hk : ∀ k ∈ ks, (x.lane c k).check s ts = .ok () ∧ rd (x.lane c k) = .ok (v k))
    (ha : Agree x.hdr ks (fun k => res (tileReads s (x.lane c k) ks v) (x.lane c k) (v k) ((x.lane c k).start s f))) :
    ∃ t, tileOp s f ts rd res = .next t ∧ LaneEffect s t c p x ks f.readsChannel
      (fun k => res (tileReads s (x.lane c k) ks v) (x.lane c k) (v k) ((x.lane c k).start s f)) := by
  apply s.execLanes_effect _ _ _ _ h _ ha
  intro k hk'
  have hrd : ∀ j ∈ ks, (do (x.lane c j).check s ts; rd (x.lane c j)) = Except.ok (v j) := by
    intro j hj
    obtain ⟨h1, h2⟩ := hk j hj
    simp only [h1, bind, Except.bind]
    exact h2
  have hp := participants_all (fun l => do l.check s ts; rd l) ks x c k v hrd
  simp only [bind, Except.bind] at hp ⊢
  simp only [bind, Except.bind] at hrd
  rw [hrd k hk']
  simp only [hp, inTile_all]

theorem distOp_effect (s : State) (f : Fields) (ts : List (Nat × OpKind × Operand))
    (compute : Lane → LaneOut → Except LaneFail LaneOut) {c p : Nat} {x : Pass} {ks : List Nat} {out : Nat → LaneOut}
    (h : Executes s c p x f.guard ks)
    (hk : ∀ k ∈ ks, (x.lane c k).checkD s ts = .ok () ∧ compute (x.lane c k) ((x.lane c k).start s f) = .ok (out k))
    (ha : Agree x.hdr ks out) :
    ∃ t, distOp s f ts compute = .next t ∧ LaneEffect s t c p x ks f.readsChannel out :=
  s.execLanes_effect _ _ _ _ h (fun k hk' => by obtain ⟨h1, h2⟩ := hk k hk'; simp [h1, h2, bind, Except.bind]) ha

theorem Lane.dRead_eq {l : Lane} {s : State} {place : Nat} {o : Operand} {r : DReg} (out : LaneOut)
    (h : l.dRaw s place o = .ok r) : l.dRead s place o out = .ok (r.view.1, noteViews out [r]) := by
  unfold Lane.dRead
  rw [h]
  rfl

end Sys2Proof.Machine
end

