-- ==== Sys2Proof/Laws/Time.lean ====
section
/-!
SUPPORT. What the passing of time and the return of records to the waiting-vector table may change.
-/
namespace Sys2Proof.Machine

theorem Tbl.look_map {α : Type} (t : Tbl α) (f : Nat × α → Nat × α) (h : ∀ e, (f e).1 = e.1) (k : Nat) :
    Tbl.look (t.map f) k = (Tbl.look t k).map (fun x => (f (k, x)).2) := by
  induction t with
  | nil => rfl
  | cons e r ih =>
    obtain ⟨a, b⟩ := e
    have ha : f (a, b) = (a, (f (a, b)).2) := Prod.ext (h _) rfl
    rw [List.map_cons, ha]
    simp only [Tbl.look]
    split
    · next e => subst e; rfl
    · exact ih

namespace TimePasses

theorem refl (s : State) : TimePasses s s := ⟨rfl, fun _ => rfl, fun _ _ => rfl⟩

theorem trans {s t u : State} (h : TimePasses s t) (g : TimePasses t u) : TimePasses s u := by
  refine ⟨?_, fun c => ?_, fun c k => ?_⟩
  · rw [g.rest, h.rest]
  · rw [g.core c, h.core c]
  · rw [g.thread c k, h.thread c k]

theorem fold {α : Type} {f : State → α → State} (h : ∀ s a, TimePasses s (f s a)) (l : List α) (s : State) :
    TimePasses s (l.foldl f s) := by
  induction l generalizing s with
  | nil => exact .refl s
  | cons a r ih => exact (h s a).trans (ih _)

theorem modCore (s : State) (c : Nat) (f : Core → Core)
    (h : f (s.core c) = { s.core c with
      phase := (f (s.core c)).phase, cycle := (f (s.core c)).cycle, wvt := (f (s.core c)).wvt, bin := (f (s.core c)).bin
      wd := (f (s.core c)).wd, idle := (f (s.core c)).idle, arrayAt := (f (s.core c)).arrayAt }) : TimePasses s (s.modCore c f) := by
  refine ⟨rfl, fun d => ?_, fun _ _ => rfl⟩
  rw [State.modCore_eq, State.core_setCore]
  split
  · next e => subst e; exact h
  · rfl

theorem modThr (s : State) (c k : Nat) (p : Place) : TimePasses s (s.modThr c k (fun th => { th with place := p })) := by
  refine ⟨rfl, fun _ => rfl, fun d j => ?_⟩
  unfold State.modThr
  rw [State.thr_setThr]
  split
  · next e => rw [show s.thr d j = s.thr c k by unfold State.thr; rw [e]]
  · rfl

theorem curPass {s t : State} (h : TimePasses s t) : t.curPass = s.curPass := by
  unfold State.curPass
  rw [show t.turn = s.turn by rw [h.rest]]
  split
  · next c p _ => rw [show (t.core c).pipes = (s.core c).pipes by rw [h.core c]]
  · rfl

end TimePasses

theorem State.reintroduce_time (s : State) (c n : Nat) : TimePasses s (s.reintroduce c n) := by
  induction n generalizing s with
  | zero => exact .refl s
  | succ n ih =>
    unfold State.reintroduce
    dsimp only
    split
    · exact .refl s
    · split
      · exact .refl s
      · exact ((TimePasses.modCore s c _ rfl).trans (TimePasses.fold (fun s t => TimePasses.modThr s c t .entry) _ _)).trans (ih _)

theorem State.joinDue_time (s : State) (c : Nat) (pos : DWord) : TimePasses s (s.joinDue c pos) :=
  (TimePasses.modCore s c _ rfl).trans (TimePasses.fold (fun s (r : ContRec) => TimePasses.modThr s c r.slot .entry) _ _)

theorem State.joinEntries_time (s : State) (c : Nat) : TimePasses s (s.joinEntries c) :=
  TimePasses.fold (fun s (e : WvtEntry) => s.joinDue_time c e.pos) _ s

theorem State.tidy_time (s : State) (c : Nat) : TimePasses s (s.tidy c) :=
  ((TimePasses.modCore s c _ rfl).trans (State.joinEntries_time _ _)).trans (State.reintroduce_time _ _ _)

theorem State.moveDue_time (s : State) (c : Nat) (r : ContRec) : TimePasses s (s.moveDue c r) := by
  unfold State.moveDue
  split
  · exact (TimePasses.modCore s c _ rfl).trans (TimePasses.modThr _ c _ .entry)
  · exact s.tidy_time c

theorem State.coreCycles_time (s : State) (c n : Nat) (w : List (DWord × List (Nat × Nat))) : TimePasses s (s.coreCycles c n w) := by
  unfold State.coreCycles
  split
  · exact .refl s
  · exact (TimePasses.modCore s c _ rfl).trans (TimePasses.fold (fun s r => s.moveDue_time c r) _ _)

theorem State.elapse_time (s : State) (ps : Nat) : TimePasses s (s.elapse ps) := by
  unfold State.elapse
  dsimp only
  refine TimePasses.trans ⟨rfl, fun c => ?_, fun c k => ?_⟩ (TimePasses.fold (fun s (e : Nat × (Nat × Nat)) => s.coreCycles_time e.1 e.2.1 _) _ _)
  · dsimp only [State.core, Tbl.at]
    rw [Tbl.look_map s.cores _ (by intro e; rfl)]
    cases Tbl.look s.cores c <;> rfl
  · dsimp only [State.thr, Tbl.at]
    rw [Tbl.look_map s.threads _ (by intro e; split <;> rfl)]
    cases Tbl.look s.threads (threadKey c k) with
    | none => rfl
    | some x => simp only [Option.map_some, Option.getD_some]; split <;> rfl

/-- Between the instructions of a pass only time passes. -/
theorem State.tick_time (s : State) (c n : Nat) : TimePasses s (s.tick c n) :=
  (TimePasses.modCore s c id rfl).trans (State.elapse_time _ _)

end Sys2Proof.Machine
end

