-- ==== Sys2Proof/Tests/Slice0.lean ====
section
/-!
SUPPORT. Tests of one word or one step each: words written out from the spec's encoding tables decode to their instructions,
ill-formed terms are refused, single steps give what hand calculation from the spec gives, and every statement's hypotheses
are met together by a concrete state.
-/
namespace Sys2Proof.Tests
open Sys2Proof Sys2Proof.Machine

set_option maxRecDepth 100000
set_option Elab.async false

/-! ## Decoding: words assembled from the tables of R52, R58, R62 and R63 -/

/-- Fields of a body word, those of `nop` where not named. -/
def fld (ty : Ty := .u8) (dst sa sb sc : Operand := .none) (minor : BitVec 4 := 0) (md slot : BitVec 3 := 0)
    (imm : Option Word := none) (guard : Guard := ⟨7, false⟩) : Fields :=
  { guard := guard, minor := minor, ty := ty, md := md, slot := slot, dst := dst, sa := sa, sb := sb, sc := sc, imm := imm }

/-- R64, the worked word: `iadd.s32 v1, v0, 5` -/
theorem test_decode_iadd : decodeRaw ⟨0x503FF9500005C000, 0x0⟩ = .ok (.iadd (fld (ty := .s32) (dst := .v 1) (sa := .v 0) (sb := .inline 21))) := by decide
/-- a guard `@!p2`: bits [17:14] -/
theorem test_decode_iadd_neg : decodeRaw ⟨0x503FE02000068000, 0x0⟩ = .ok (.iadd (fld (ty := .s32) (dst := .v 1) (sa := .v 0) (sb := .v 2) (guard := ⟨2, true⟩))) := by decide
/-- R86: `movi.u32 v2, 0x12345678`, LEN 0b01 -/
theorem test_decode_movi : decodeRaw ⟨0x403FFFFFF809C071, 0x12345678⟩ = .ok (.movi (fld (ty := .u32) (dst := .v 2) (imm := some 0x12345678))) := by decide
/-- R83: `icmp.lt.s32 p2, v3, 0` -/
theorem test_decode_icmp : decodeRaw ⟨0x503FF9001FE9C860, 0x0⟩ = .ok (.icmp (fld (ty := .s32) (dst := .pred 2) (sa := .v 3) (sb := .inline 16) (minor := 2))) := by decide
/-- R91: `fadd.f32.rd v1, v2, v3`, MOD 3 -/
theorem test_decode_fadd : decodeRaw ⟨0x863FE0301005C080, 0x0⟩ = .ok (.fadd (fld (ty := .f32) (dst := .v 1) (sa := .v 2) (sb := .v 3) (md := 3))) := by decide
/-- R98: `i2f.f32 v1, v2` from s32, MINOR 5 -/
theorem test_decode_i2f : decodeRaw ⟨0x803FFFF01005D504, 0x0⟩ = .ok (.i2f (fld (ty := .f32) (dst := .v 1) (sa := .v 2) (minor := 5))) := by decide
/-- R102: `frcp.f32 v1, v2` -/
theorem test_decode_frcp : decodeRaw ⟨0x803FFFF01005C118, 0x0⟩ = .ok (.frcp (fld (ty := .f32) (dst := .v 1) (sa := .v 2))) := by decide
/-- R185: `ballot v3, p1` -/
theorem test_decode_ballot : decodeRaw ⟨0x003FFFFFC80DC144, 0x0⟩ = .ok (.ballot (fld (ty := .u8) (dst := .v 3) (sa := .pred 1))) := by decide
/-- R187: `shfl.up.u32 v4, v5, v6`, MINOR 1, found predicate p0 in SLOT -/
theorem test_decode_shfl : decodeRaw ⟨0x403FE0602811C54C, 0x0⟩ = .ok (.shfl (fld (ty := .u32) (dst := .v 4) (sa := .v 5) (sb := .v 6) (minor := 1))) := by decide
/-- R198: `bar.arrive v2, 3`: MINOR 3 -/
theorem test_decode_bar_arrive : decodeRaw ⟨0x003FFFFFF809CD68, 0x0⟩ = .ok (.barArrive (fld (dst := .v 2) (minor := 3))) := by decide
/-- R149: `dadd d3, d1, d2`: a d field holds 0 to 15 -/
theorem test_decode_dadd : decodeRaw ⟨0x003FE020080DC190, 0x0⟩ = .ok (.dadd (fld (dst := .v 3) (sa := .v 1) (sb := .v 2))) := by decide
/-- R116: `ld.spad.u32 v3, [v0 + v1*4]`: MINOR 1, SLOT 2 -/
theorem test_decode_ld : decodeRaw ⟨0x40BFE010000DC5C0, 0x0⟩ = .ok (.ld (fld (ty := .u32) (dst := .v 3) (sa := .v 0) (sb := .v 1) (minor := 1) (slot := 2))) := by decide
/-- R274: `atom.add.u32 v1, [v2:v3], v4`: relaxed, gang scope -/
theorem test_decode_atom : decodeRaw ⟨0x403FE0401005C200, 0x0⟩ = .ok (.atom (fld (ty := .u32) (dst := .v 1) (sa := .v 2) (sb := .v 4))) := by decide
/-- R278: `fence.acqrel.dev`: MOD 6, SLOT 3 -/
theorem test_decode_fence : decodeRaw ⟨0x0CFFFFFFFFFDC20C, 0x0⟩ = .ok (.fence (fld (md := 6) (slot := 3))) := by decide
/-- R109: `jmp` two clauses back, LEN 0b01 -/
theorem test_decode_jmp : decodeRaw ⟨0x003FFFFFFFFDC2C1, 0xFFFFFFFE⟩ = .ok (.jmp (fld (imm := some 0xFFFFFFFE))) := by decide
/-- R129: `sysr.u32 v1, 0x020`: MINOR 1 is bits [8:5] of the number -/
theorem test_decode_sysr : decodeRaw ⟨0x403FFFFFF805C740, 0x0⟩ = .ok (.sysr (fld (ty := .u32) (dst := .v 1) (minor := 1))) := by decide
/-- R425: `mjoin m3`: MINOR 3 -/
theorem test_decode_mjoin : decodeRaw ⟨0x003FFFFFFFFDCF04, 0x0⟩ = .ok (.mjoin (fld (minor := 3))) := by decide
/-- R217, the worked word: `beat 1` -/
theorem test_decode_beat : decodeRaw ⟨0x003FFFFC8FFDC348, 0x0⟩ = .ok (.beat (fld (sa := .inline 17))) := by decide
/-- R133, the worked word -/
theorem test_decode_nop : decodeRaw ⟨0x003FFFFFFFFDC358, 0x0⟩ = .ok (.nop fld) := by decide
/-- R323, the worked word: `bstat v20, v12` -/
theorem test_decode_bstat : decodeRaw ⟨0x003FFFF06051C294, 0x0⟩ = .ok (.bstat (fld (ty := .u8) (dst := .v 20) (sa := .v 12))) := by decide
/-- R290, the worked word: `tlay.tot.e2 ly…` with extents 16. -/
theorem test_decode_tlay : (decodeRaw ⟨0x003FFFF0C7FDC24A, 0x000D00000000F00F⟩).toOption.bind Instr.fields
    = some (fld (sa := .v 24)) := by decide
/-- R54, R392, the worked word: `tlay.grid ly1, v30`. -/
theorem test_decode_tlay_grid : decodeRaw ⟨0x003FFFF0F7FDC64A, 0x0008000000000000⟩
    = .ok (.tlayGrid (fld (sa := .v 30) (minor := 1)) ⟨1⟩) := by decide
/-- R299, the worked word: `tseal k1`. -/
theorem test_decode_tseal : decodeRaw ⟨0x003FFFFFFFFDC644, 0⟩ = .ok (.tseal (fld (minor := 1))) := by decide
/-- R291, the worked word: `tcopy.g2s`, destination layout 1. -/
theorem test_decode_tcopy : decodeRaw ⟨0x003FE14057FDC242, 8⟩
    = .ok (.tcopy (fld (sa := .v 10) (sb := .v 20)) ⟨0, 1, false⟩) := by decide
/-- R411, the worked word: `cbr.all p1, m0` two clauses back. -/
theorem test_decode_cbr : decodeRaw ⟨0x003FFFFFCFFDC702, 0x00000000FFFFFFFE⟩
    = .ok (.cbr (fld (sa := .pred 1) (minor := 1)) ⟨0xFFFFFFFE, 0, 0⟩) := by decide
/-- R393, the worked word: `ccoll.ared.f32`. -/
theorem test_decode_ccoll : ((decodeRaw ⟨0x808280C057FDC716, 0x188⟩).toOption.bind Instr.fields).map (fun f => (f.ty, f.sa, f.sb, f.sc, f.minor))
    = some (.f32, .v 10, .v 12, .v 20, 1) := by decide
/-- R317, the worked word of `mma`: sources at v40, v44 and v12. -/
theorem test_decode_mma : ((decodeRaw ⟨0x00C182C147FDC282, 0x0000080000100000⟩).toOption.bind Instr.fields).map (fun f => (f.sa, f.sb, f.sc))
    = some (.v 40, .v 44, .v 12) := by decide
/-- R63: MAJOR 0x1E is reserved; LEN 0b11 is a header (R13). -/
theorem test_decode_reserved_major : decodeRaw ⟨0x503FF9500005C078, 0⟩ = .ok (.unassignedOpcode ⟨7, false⟩ 0x1E) := by decide
theorem test_decode_header_in_body : decodeRaw ⟨0x0094E52605408023, 0⟩ = .error .headerInBody := by decide
/-- R364, R366: `amz.qfetch a0, a1, a2` and `amz.dispatch t0, a0, a1`; another funct3 is no Xamz instruction. -/
theorem test_decode_amz : decodeAmz 0x00C5850B = .ok (.amzQfetch 10 11 12) ∧ decodeAmz 0x00B5328B = .ok (.amzDispatch 5 10 11)
    ∧ decodeAmz 0x00C5C50B = .error .notXamz := by decide
/-- A truncated word, and the fill word of a 96-bit form, which is not read (R12). -/
theorem test_decode_bytes : decode [0x71, 0xC0] = .error .truncated
    ∧ decode (leBytes 8 0x403FFFFFF809C071 ++ leBytes 8 0xDEADBEEF12345678 ++ [7])
      = .ok (.movi (fld (ty := .u32) (dst := .v 2) (imm := some 0x12345678)), [7]) := by decide

/-! ## Well-formedness: one ill-formed term for each check -/

theorem test_wf_accepts : (Instr.iadd (fld (ty := .s32) (dst := .v 1) (sa := .v 0) (sb := .inline 21))).wf = true := by decide
theorem test_wf_refuses_length : (Instr.popc (fld (ty := .u32) (dst := .v 1) (sa := .v 0) (imm := some 1))).breach = some .badLength := by decide
theorem test_wf_refuses_imm_of_128 : (Instr.tlayGrid (fld (sa := .v 30) (imm := some 1)) ⟨1⟩).breach = some .badLength := by decide
theorem test_wf_refuses_minor : (Instr.iadd (fld (ty := .s32) (dst := .v 1) (sa := .v 0) (sb := .v 2) (minor := 1))).breach = some .badMinor := by decide
theorem test_wf_refuses_type : (Instr.iadd (fld (ty := .f32) (dst := .v 1) (sa := .v 0) (sb := .v 2))).breach = some .badType := by decide
theorem test_wf_refuses_mod : (Instr.iadd (fld (ty := .s32) (dst := .v 1) (sa := .v 0) (sb := .v 2) (md := 3))).breach = some .badMod := by decide
theorem test_wf_refuses_slot : (Instr.iadd (fld (ty := .s32) (dst := .v 1) (sa := .v 0) (sb := .v 2) (slot := 1))).breach = some .badSlot := by decide
theorem test_wf_refuses_unused_field : (Instr.iadd (fld (ty := .s32) (dst := .v 1) (sa := .v 0) (sb := .v 2) (sc := .v 3))).breach
    = some .fieldNotEmpty := by decide
theorem test_wf_refuses_combination : (Instr.ld (fld (ty := .u8) (dst := .v 1) (sa := .v 0) (md := 2))).breach = some .badCombination := by decide
theorem test_wf_refuses_deltas : (Instr.ccoll (fld (ty := .f32) (sa := .v 10) (sb := .v 12) (sc := .v 20) (minor := 1))
    { lyS := 0, lyD := 1, all := false, mreg := 0, dx := 1, dy := 0, dz := 0 }).breach = some .badCombination := by decide
theorem test_wf_refuses_unassigned : (Instr.unassignedOpcode ⟨7, false⟩ 0x1E).wf = false := by decide

/-! ## A small machine: core 0, slot 0 (and slot 1) in the pass of pipe 0 -/

/-- A thread in the pass of pipe 0, with p1 set. -/
def th (v : Tbl Word := []) : Thread := { place := .pass 0, pos := 0x101F, preds := 2, v := v }

/-- A clause with CONV = 1 that selects flags f0 and f1 (R56). -/
def hdr : DWord := BitVec.ofNat 64 (3 + 2 ^ 26 + 2 ^ 27 + 2 ^ 31 + 24 * 2 ^ 32 + 2 ^ 37)
/-- The same clause with CONV = 0. -/
def hdr0 : DWord := BitVec.ofNat 64 (3 + 2 ^ 26 + 2 ^ 27 + 2 ^ 31 + 24 * 2 ^ 32)

def pass (slots : List Nat := [0]) (h : DWord := hdr) : Pass :=
  { id := 0, clause := 0x1000, hdr := h, start := 0, idx := 0, body := [⟨0x003FFFFFFFFDC358, 0⟩], slots := slots }

def grid : Grid :=
  { (default : Grid) with gx := 1, gy := 1, gz := 1, tx := 2, ty := 1, tz := 1, cgangs := 1, cregs := 64, dregs := 2, chans := 1, scrsize := 256 }

def world (a : Thread) (x : Pass := pass) (b : Option Thread := none) : State :=
  { State.reset with
    turn := .pipe 0 0
    cores := [(0, { ctx := some 0, pipes := [(0, x)] })]
    threads := (0, a) :: (match b with | some y => [(1, y)] | none => [])
    gangs := [(0, { team := 0, num := 0 })]
    teams := [(0, { grid := 0, num := 0, lcore := 0, core := 0, footprint := 0 })]
    grids := [(0, grid)] }

/-- The guard that always holds. -/
def g7 : Guard := ⟨7, false⟩
/-- The state an instruction leaves. -/
def next (o : Host.Outcome State Fault Refusal) : Option State :=
  match o with
  | .next t => some t
  | _ => none
/-- A word of a v register of slot 0 after an instruction. -/
def v0After (i : Instr) (s : State) (n : Nat) : Option Word := (next (exec i s)).map (fun t => (t.thr 0 0).readV 64 n)

/-! ## Integer instructions -/

def w1 : State := world (th [(0, 6), (1, 3), (2, 0x80), (3, 0xFFFFFFFF)])
theorem w1_executes : Executes w1 0 0 pass g7 [0] := ⟨by decide +kernel, by decide +kernel, by decide⟩

/-- `iabs.s8` of −128 under `sats` is 127 (R74). -/
theorem witness_OneSourceIntegerResults : let f := fld (ty := .s8) (dst := .v 4) (sa := .v 2) (md := 1)
    AdmitsUn w1 f (pass.lane 0 0) ∧ ReadsA w1 f (pass.lane 0 0) 0x80 ∧ 127 = applyMode 1 8 ((Ty.s8.val 0x80).natAbs : Int)
      ∧ Agree pass.hdr [0] (fun k => IntResult w1 f (pass.lane 0 k) 127) := by
  unfold AdmitsUn ReadsA Agree; decide +kernel
theorem test_iabs_saturates : v0After (.iabs (fld (ty := .s8) (dst := .v 4) (sa := .v 2) (md := 1))) w1 4 = some 127 := by decide +kernel
/-- `iadd.s32` of 2³¹ − 1 and 1 wraps to −2³¹ (R74); the IMM32 form reads its second source from the word. -/
def wMax : State := world (th [(0, 0x7FFFFFFF), (1, 1)])
theorem witness_TwoSourceIntegerResults : let f := fld (ty := .s32) (dst := .v 4) (sa := .v 0) (imm := some 1)
    Executes wMax 0 0 pass g7 [0] ∧ AdmitsBin wMax f (pass.lane 0 0) ∧ ReadsA wMax f (pass.lane 0 0) 0x7FFFFFFF
      ∧ ReadsB wMax f (pass.lane 0 0) 1 ∧ 0x80000000 = applyMode 0 32 (Ty.s32.val 0x7FFFFFFF + Ty.s32.val 1)
      ∧ Agree pass.hdr [0] (fun k => IntResult wMax f (pass.lane 0 k) 0x80000000) := by
  unfold Executes AdmitsBin ReadsA ReadsB Agree; decide +kernel
theorem test_iadd_wraps : v0After (.iadd (fld (ty := .s32) (dst := .v 4) (sa := .v 0) (imm := some 1))) wMax 4 = some 0x80000000 := by
  decide +kernel
theorem test_isub_saturates_at_zero : v0After (.isub (fld (ty := .u32) (dst := .v 4) (sa := .v 1) (sb := .v 0) (md := 2))) w1 4 = some 0 := by
  decide +kernel
theorem test_imulh : v0After (.imulh (fld (ty := .s32) (dst := .v 4) (sa := .v 3) (sb := .v 1))) w1 4 = some 0xFFFFFFFF := by decide +kernel
theorem test_imin_of_signed : v0After (.imin (fld (ty := .s32) (dst := .v 4) (sa := .v 3) (sb := .v 1))) w1 4 = some 0xFFFFFFFF := by decide +kernel
theorem test_andn : v0After (.andn (fld (ty := .u32) (dst := .v 4) (sa := .v 0) (sb := .v 1))) w1 4 = some 4 := by decide +kernel
theorem test_ineg : v0After (.ineg (fld (ty := .s32) (dst := .v 0) (sa := .v 0))) w1 0 = some 0xFFFFFFFA := by decide +kernel
theorem test_clz_of_zero : v0After (.clz (fld (ty := .u32) (dst := .v 4) (sa := .v 9))) w1 4 = some 32 := by decide +kernel
theorem test_ctz : v0After (.ctz (fld (ty := .u32) (dst := .v 4) (sa := .v 2))) w1 4 = some 7 := by decide +kernel
theorem test_brev : v0After (.brev (fld (ty := .u32) (dst := .v 4) (sa := .v 0))) w1 4 = some 0x60000000 := by decide +kernel
theorem test_popc : v0After (.popc (fld (ty := .u32) (dst := .v 4) (sa := .v 3))) w1 4 = some 32 := by decide +kernel

/-- `sar.s32` of −1 by 32, the width, is −1 (R77). -/
def w32 : State := world (th [(3, 0xFFFFFFFF), (5, 32), (6, 33)])
theorem witness_ShiftResults : let f := fld (ty := .s32) (dst := .v 4) (sa := .v 3) (sb := .v 5)
    Executes w32 0 0 pass g7 [0] ∧ AdmitsBin w32 f (pass.lane 0 0) ∧ ReadsA w32 f (pass.lane 0 0) 0xFFFFFFFF
      ∧ ShiftAmount w32 f (pass.lane 0 0) 32 ∧ 0xFFFFFFFF = wrap (sx 0xFFFFFFFF 32 / ((2 ^ 32 : Nat) : Int)) 32
      ∧ Agree pass.hdr [0] (fun k => IntResult w32 f (pass.lane 0 k) 0xFFFFFFFF) := by
  refine ⟨?_, ?_, ?_, ⟨32, ?_, ?_⟩, ?_, ?_⟩ <;> (try unfold Executes) <;> (try unfold AdmitsBin) <;> (try unfold ReadsA) <;>
    (try unfold Agree) <;> decide +kernel
theorem test_sar_by_width : v0After (.sar (fld (ty := .s32) (dst := .v 4) (sa := .v 3) (sb := .v 5))) w32 4 = some 0xFFFFFFFF := by decide +kernel
theorem test_shl_by_width : v0After (.shl (fld (ty := .s32) (dst := .v 4) (sa := .v 3) (sb := .v 5))) w32 4 = some 0 := by decide +kernel
theorem test_rotl_mod_width : v0After (.rotl (fld (ty := .u32) (dst := .v 4) (sa := .v 6) (sb := .v 6))) w32 4 = some 66 := by decide +kernel
theorem test_shr : v0After (.shr (fld (ty := .u32) (dst := .v 4) (sa := .v 3) (imm := some 31))) w32 4 = some 1 := by decide +kernel

/-- `imad`, IMM32 standing for SB. -/
theorem witness_ThreeSource_imad : let f := fld (ty := .s32) (dst := .v 4) (sa := .v 0) (sc := .v 1) (imm := some 7)
    Executes w1 0 0 pass g7 [0] ∧ AdmitsTri w1 f (pass.lane 0 0) ∧ ReadsA w1 f (pass.lane 0 0) 6 ∧ ReadsB w1 f (pass.lane 0 0) 7
      ∧ (pass.lane 0 0).readInt w1 pSC f.sc f.ty = .ok 3
      ∧ Agree pass.hdr [0] (fun k => IntResult w1 f (pass.lane 0 k) (applyMode 0 32 (6 * 7 + 3))) := by
  unfold Executes AdmitsTri ReadsA ReadsB Agree; decide +kernel
theorem test_imad : v0After (.imad (fld (ty := .s32) (dst := .v 4) (sa := .v 0) (sc := .v 1) (imm := some 7))) w1 4 = some 45 := by decide +kernel
/-- `iclamp.s32` of 6 between 3 and −1: min (max 6 3) (−1). -/
theorem witness_ThreeSource_iclamp : let f := fld (ty := .s32) (dst := .v 4) (sa := .v 0) (sb := .v 1) (sc := .v 3)
    AdmitsTriC w1 f (pass.lane 0 0) ∧ ReadsA w1 f (pass.lane 0 0) 6 ∧ (pass.lane 0 0).readInt w1 pSB f.sb f.ty = .ok 3
      ∧ (pass.lane 0 0).readIntI w1 pSC f.sc f.ty f.imm = .ok 0xFFFFFFFF ∧ Ty.s32.val 0xFFFFFFFF = min (max (Ty.s32.val 6) (Ty.s32.val 3)) (Ty.s32.val 0xFFFFFFFF)
      ∧ Agree pass.hdr [0] (fun k => IntResult w1 f (pass.lane 0 k) 0xFFFFFFFF) := by
  unfold AdmitsTriC ReadsA Agree; decide +kernel
theorem test_iclamp : v0After (.iclamp (fld (ty := .s32) (dst := .v 4) (sa := .v 0) (sb := .v 1) (sc := .v 3))) w1 4 = some 0xFFFFFFFF := by decide +kernel
/-- `blut` with the table 0x96 of a ^ b ^ c: MINOR 9, SLOT 3, MOD 0. -/
theorem test_blut_xor3 : v0After (.blut (fld (ty := .u32) (dst := .v 4) (sa := .v 0) (sb := .v 1) (sc := .v 2) (minor := 9) (slot := 3))) w1 4
    = some 0x85 := by decide +kernel
/-- `bperm`: selectors 0, 4 (first byte of b), 8 + 2 (sign of byte 2 of a), 3. -/
def wPerm : State := world (th [(0, 0x44FF2211), (1, 0x88776655), (2, 0x3A40)])
theorem test_bperm : v0After (.bperm (fld (ty := .u32) (dst := .v 4) (sa := .v 0) (sb := .v 1) (sc := .v 2))) wPerm 4 = some 0x44FF5511 := by
  decide +kernel
/-- Bit fields at the boundary: a field of 8 bits from bit 28 has 4 bits; the negative one is extended by its top bit. -/
theorem witness_BitField : let f := fld (ty := .s32) (dst := .v 4) (sa := .v 3) (imm := some 0x081C)
    ReadsA w1 f (pass.lane 0 0) 0xFFFFFFFF ∧ (pass.lane 0 0).readDesc w1 f = .ok 0x081C ∧ min (0x081C / 256 % 256) (32 - 0x081C % 256) = 4
      ∧ Agree pass.hdr [0] (fun k => IntResult w1 f (pass.lane 0 k) 0xFFFFFFFF) := by
  unfold ReadsA Agree; decide +kernel
theorem test_bfx : v0After (.bfx (fld (ty := .s32) (dst := .v 4) (sa := .v 0) (imm := some 0x0201))) w1 4 = some 0xFFFFFFFF := by decide +kernel
/-- R61, R80: under `.u64` the descriptor is a pair, so an odd register faults in place SB. -/
theorem test_bfx_u64_odd_descriptor : (next (exec (.bfx (fld (ty := .u64) (dst := .v 4) (sa := .v 0) (sb := .v 3))) w1)).map (fun t => (t.thr 0 0).fcode)
    = some 2 := by decide +kernel
theorem test_bfi : v0After (.bfi (fld (ty := .u32) (dst := .v 4) (sa := .v 0) (sc := .v 3) (imm := some 0x0404))) w1 4 = some 0xFFFFFF6F := by
  decide +kernel

/-- Carry out of 2³² − 1 plus 1 with no carry in, into p3. -/
theorem witness_Carry : let f := fld (ty := .u32) (dst := .v 4) (sa := .v 3) (sb := .inline 17) (sc := .none) (slot := 3)
    ReadsA w1 f (pass.lane 0 0) 0xFFFFFFFF ∧ ReadsB w1 f (pass.lane 0 0) 1
      ∧ (pass.lane 0 0).check w1 ([(pSA, OpKind.src false, f.sa)] ++ unlessImm f (pSB, OpKind.src false, f.sb) ++ [] ++ [(pDST, OpKind.dst false, f.dst)]) = .ok ()
      ∧ Agree pass.hdr [0] (fun k => IntResult w1 f (pass.lane 0 k) 0) := by
  unfold ReadsA ReadsB Agree; decide +kernel
theorem test_addc_carry_out : (next (exec (.addc (fld (ty := .u32) (dst := .v 4) (sa := .v 3) (sb := .inline 17) (slot := 3))) w1)).map
    (fun t => ((t.thr 0 0).readV 64 4, (t.thr 0 0).pred 3)) = some (0, true) := by decide +kernel
/-- A signed comparison: −1 < 3; and selection by p7. -/
theorem witness_CompareAndSelect : let f := fld (ty := .s32) (dst := .pred 2) (sa := .v 3) (sb := .v 1) (minor := 2)
    let h := fld (ty := .s32) (dst := .v 4) (sa := .v 3) (sb := .v 1) (sc := .none)
    ReadsA w1 f (pass.lane 0 0) 0xFFFFFFFF ∧ ReadsB w1 f (pass.lane 0 0) 3
      ∧ (pass.lane 0 0).check w1 ([(pSA, OpKind.src false, f.sa)] ++ unlessImm f (pSB, OpKind.src false, f.sb) ++ [(pDST, OpKind.pred, f.dst)]) = .ok ()
      ∧ ([Ty.s32.val 0xFFFFFFFF < Ty.s32.val 3] = [true = true])
      ∧ (pass.lane 0 0).check w1 ([(pSA, OpKind.src false, h.sa)] ++ unlessImm h (pSB, OpKind.src false, h.sb)
          ++ [(pSC, OpKind.pred, h.sc), (pDST, OpKind.dst false, h.dst)]) = .ok () ∧ (w1.thr 0 0).readPred h.sc = true
      ∧ Agree pass.hdr [0] (fun k => IntResult w1 h (pass.lane 0 k) 0xFFFFFFFF) := by
  refine ⟨?_, ?_, ?_, by simp [Ty.val, sx, Ty.isSigned, Ty.width], ?_, ?_, ?_⟩ <;> (try unfold ReadsA) <;> (try unfold ReadsB) <;>
    (try unfold Agree) <;> decide +kernel
theorem test_icmp_signed : (next (exec (.icmp (fld (ty := .s32) (dst := .pred 2) (sa := .v 3) (sb := .v 1) (minor := 2))) w1)).map
    (fun t => (t.thr 0 0).pred 2) = some true := by decide +kernel
theorem test_isel : v0After (.isel (fld (ty := .s32) (dst := .v 4) (sa := .v 3) (sb := .v 1) (sc := .pred 2))) w1 4 = some 3 := by decide +kernel

/-- `lea` at the top of the address space wraps; `movi.f16` keeps the low half; `tidx` of the worked shape 10, 6, 4 (R88). -/
def wTop : State := { world (th [(0, 0xFFFFFFFC), (1, 0xFFFFFFFF), (2, 2), (4, 137), (5, 0)]) with
  grids := [(0, { grid with shapes := [BitVec.ofNat 1024 (0x100000001 + 2 ^ 64 * 0x19999999A + 2 ^ 128 * 10 + 2 ^ 168 * 4
    + 2 ^ 256 * (0x19999999A + 2 ^ 64 * 0x155555556 + 2 ^ 128 * 6 + 2 ^ 160 * 4 + 2 ^ 168 * 3))] })] }
theorem witness_AddressMoveAndIndexResults :
    let f := fld (ty := .s32) (dst := .v 6) (sa := .v 0) (sb := .v 2) (slot := 1)
    let m := fld (ty := .f16) (dst := .v 6) (imm := some 0x12343C00)
    let i := fld (ty := .u32) (dst := .v 6) (sa := .v 4) (sb := .v 5) (minor := 1)
    Executes wTop 0 0 pass g7 [0]
      ∧ (pass.lane 0 0).check wTop ([(pSA, OpKind.vReg true, f.sa)] ++ unlessImm f (pSB, OpKind.src false, f.sb) ++ [(pDST, OpKind.load true, f.dst)]) = .ok ()
      ∧ (pass.lane 0 0).readPair wTop pSA f.sa = .ok 0xFFFFFFFFFFFFFFFC ∧ ReadsB wTop f (pass.lane 0 0) 2
      ∧ (pass.lane 0 0).check wTop [(pDST, OpKind.dst false, m.dst)] = .ok ()
      ∧ (pass.lane 0 0).check wTop [(pSA, OpKind.src false, i.sa), (pSB, OpKind.src false, i.sb), (pDST, OpKind.dst false, i.dst)] = .ok ()
      ∧ (pass.lane 0 0).readWord wTop pSA i.sa = .ok 137 ∧ (pass.lane 0 0).readWord wTop pSB i.sb = .ok 0
      ∧ (((pass.lane 0 0).grid wTop).shapes[0]?).isSome = true := by
  unfold Executes ReadsB; decide +kernel
theorem test_lea_wraps : (next (exec (.lea (fld (ty := .s32) (dst := .v 6) (sa := .v 0) (sb := .v 2) (slot := 1))) wTop)).map
    (fun t => ((t.thr 0 0).readV 64 6, (t.thr 0 0).readV 64 7)) = some (0, 0) := by decide +kernel
theorem test_movi_f16 : v0After (.movi (fld (ty := .f16) (dst := .v 6) (imm := some 0x12343C00))) wTop 6 = some 0x3C00 := by decide +kernel
/-- 137 = 7 + 10·(1 + 6·2): `tidx.d0` writes 7 and `tidx.d1` writes 1. -/
theorem test_tidx_d0 : v0After (.tidx (fld (ty := .u32) (dst := .v 6) (sa := .v 4) (sb := .v 5))) wTop 6 = some 7 := by decide +kernel
theorem test_tidx_d1 : v0After (.tidx (fld (ty := .u32) (dst := .v 6) (sa := .v 4) (sb := .v 5) (minor := 1))) wTop 6 = some 1 := by decide +kernel
theorem test_mov_u64 : v0After (.mov (fld (ty := .u64) (dst := .v 6) (sa := .v 0))) wTop 7 = some 0xFFFFFFFF := by decide +kernel

/-! ## Floating point -/

/-- 1.0, 2⁻²⁴, −0.25, a signalling NaN, +∞, 200.7, 16777217, pairs of FP16 1.0 and of BF16 2⁻¹², 65520. -/
def wF : State := world (th [(0, 0x3F800000), (1, 0x33800000), (2, 0xBE800000), (3, 0x7F800001), (4, 0x7F800000), (5, 0x4348B333),
  (6, 16777217), (7, 0x3C003C00), (8, 0x39803980), (9, 0x477FF000), (10, 0x41000000), (11, 0x40400000)])
def fpstAfter (i : Instr) (s : State) : Option (BitVec 5) := (next (exec i s)).map (fun t => (t.thr 0 0).fpst)

theorem witness_ScalarFloatResults : let f := fld (ty := .f32) (dst := .v 20) (sa := .v 0) (sb := .v 1) (sc := .v 2) (md := 2)
    let h := fld (ty := .f32) (dst := .v 20) (sa := .v 0) (sb := .v 1) (md := 2)
    Executes wF 0 0 pass g7 [0] ∧ (pass.lane 0 0).check wF ([(pSA, OpKind.src false, h.sa)] ++ unlessImm h (pSB, OpKind.src false, h.sb)
        ++ [(pDST, OpKind.dst false, h.dst)]) = .ok ()
      ∧ (pass.lane 0 0).readF wF pSA h.sa h.ty = .ok 0x3F800000 ∧ (pass.lane 0 0).readFI wF pSB h.sb h.ty h.imm = .ok 0x33800000
      ∧ Agree pass.hdr [0] (fun k => FpResult wF h (pass.lane 0 k) (fAdd .f32 2 0x3F800000 0x33800000))
      ∧ (pass.lane 0 0).check wF ([(pSA, OpKind.src false, f.sa)] ++ unlessImm f (pSB, OpKind.src false, f.sb)
          ++ [(pSC, OpKind.src false, f.sc), (pDST, OpKind.dst false, f.dst)]) = .ok () ∧ (pass.lane 0 0).readF wF pSC f.sc f.ty = .ok 0xBE800000
      ∧ Agree pass.hdr [0] (fun k => FpResult wF f (pass.lane 0 k) (fFma .f32 2 0x3F800000 0x33800000 0xBE800000)) := by
  unfold Executes Agree; decide +kernel
/-- 1 + 2⁻²⁴ is half way: RNE gives 1, RU the next number; both are inexact. -/
theorem test_fadd_rne : v0After (.fadd (fld (ty := .f32) (dst := .v 20) (sa := .v 0) (sb := .v 1))) wF 20 = some 0x3F800000 := by decide +kernel
theorem test_fadd_ru : v0After (.fadd (fld (ty := .f32) (dst := .v 20) (sa := .v 0) (sb := .v 1) (md := 2))) wF 20 = some 0x3F800001
    ∧ fpstAfter (.fadd (fld (ty := .f32) (dst := .v 20) (sa := .v 0) (sb := .v 1) (md := 2))) wF = some 16 := by decide +kernel
theorem test_fmul_nan : v0After (.fmul (fld (ty := .f32) (dst := .v 20) (sa := .v 0) (sb := .v 3))) wF 20 = some 0x7FC00000
    ∧ fpstAfter (.fmul (fld (ty := .f32) (dst := .v 20) (sa := .v 0) (sb := .v 3))) wF = some fNV := by decide +kernel
theorem test_ffma : v0After (.ffma (fld (ty := .f32) (dst := .v 20) (sa := .v 0) (sb := .v 0) (sc := .v 0))) wF 20 = some 0x40000000 := by decide +kernel
theorem test_fsub : v0After (.fsub (fld (ty := .f32) (dst := .v 20) (sa := .v 0) (sb := .v 0))) wF 20 = some 0 := by decide +kernel
theorem test_fmin_number_over_infinity : v0After (.fmin (fld (ty := .f32) (dst := .v 20) (sa := .v 4) (sb := .v 0))) wF 20 = some 0x3F800000 := by
  decide +kernel

/-- Unordered comparison (MINOR 7) with a signalling NaN; the class and the rounding of −0.25. -/
theorem witness_FloatCompareClassAndRoundResults : let f := fld (ty := .f32) (dst := .pred 2) (sa := .v 2) (sb := .v 3) (minor := 7)
    let h := fld (ty := .f32) (dst := .v 20) (sa := .v 2)
    (pass.lane 0 0).readF wF pSA f.sa f.ty = .ok 0xBE800000
      ∧ (pass.lane 0 0).check wF ([(pSA, OpKind.src false, f.sa)] ++ unlessImm f (pSB, OpKind.src false, f.sb) ++ [(pDST, OpKind.pred, f.dst)]) = .ok ()
      ∧ (pass.lane 0 0).readFI wF pSB f.sb f.ty f.imm = .ok 0x7F800001 ∧ f.minor.toNat ≤ 7
      ∧ (pass.lane 0 0).check wF [(pSA, OpKind.src false, h.sa), (pDST, OpKind.vt, h.dst)] = .ok ()
      ∧ (pass.lane 0 0).check wF [(pSA, OpKind.src false, h.sa), (pDST, OpKind.dst false, h.dst)] = .ok ()
      ∧ Agree pass.hdr [0] (fun k => FpResult wF h (pass.lane 0 k) (fRint .f32 0 false 0xBE800000)) := by
  unfold Agree; decide +kernel
theorem test_fcmp_unordered : (next (exec (.fcmp (fld (ty := .f32) (dst := .pred 2) (sa := .v 2) (sb := .v 3) (minor := 7))) wF)).map
    (fun t => ((t.thr 0 0).pred 2, (t.thr 0 0).fpst)) = some (true, fNV) := by decide +kernel
theorem test_fclass : v0After (.fclass (fld (ty := .f32) (dst := .v 20) (sa := .v 4))) wF 20 = some 0x200 := by decide +kernel
/-- R94: `frnd.rne` of −0.25 is −0. -/
theorem test_frnd_keeps_sign : v0After (.frnd (fld (ty := .f32) (dst := .v 20) (sa := .v 2))) wF 20 = some 0x80000000 := by decide +kernel
theorem test_fsel : v0After (.fsel (fld (ty := .f32) (dst := .v 20) (sa := .v 0) (sb := .v 1) (sc := .v 2) (minor := 2))) wF 20 = some 0x3F800000 := by
  decide +kernel

theorem witness_PackedFloatResults : let f := fld (ty := .f16x2) (dst := .v 20) (sa := .v 7) (sb := .v 7)
    let h := fld (ty := .f16x2) (dst := .v 20) (sa := .v 7) (sb := .v 7) (sc := .v 7)
    let d := fld (ty := .bf16x2) (dst := .v 20) (sa := .v 8) (sb := .v 8) (sc := .v 0)
    (pass.lane 0 0).readP2 wF pSA f.sa f.ty none = .ok (0x3C00, 0x3C00) ∧ (pass.lane 0 0).readP2 wF pSB f.sb f.ty f.imm = .ok (0x3C00, 0x3C00)
      ∧ (pass.lane 0 0).check wF ([(pSA, OpKind.src false, f.sa)] ++ unlessImm f (pSB, OpKind.src false, f.sb) ++ [(pDST, OpKind.dst false, f.dst)]) = .ok ()
      ∧ (pass.lane 0 0).check wF ([(pSA, OpKind.src false, h.sa)] ++ unlessImm h (pSB, OpKind.src false, h.sb)
          ++ [(pSC, OpKind.src false, h.sc), (pDST, OpKind.dst false, h.dst)]) = .ok ()
      ∧ (pass.lane 0 0).readP2 wF pSC h.sc h.ty none = .ok (0x3C00, 0x3C00)
      ∧ (pass.lane 0 0).readP2 wF pSA d.sa d.ty none = .ok (0x3980, 0x3980) ∧ (pass.lane 0 0).readF wF pSC d.sc .f32 = .ok 0x3F800000
      ∧ Agree pass.hdr [0] (fun k => FpResult wF d (pass.lane 0 k) (fDot2 Ty.bf16x2.fmt 0 (0x3980, 0x3980) (0x3980, 0x3980) 0x3F800000)) := by
  unfold Agree; decide +kernel
theorem test_hadd2 : v0After (.hadd2 (fld (ty := .f16x2) (dst := .v 20) (sa := .v 7) (sb := .v 7))) wF 20 = some 0x40004000 := by decide +kernel
theorem test_hmul2 : v0After (.hmul2 (fld (ty := .f16x2) (dst := .v 20) (sa := .v 7) (sb := .v 7))) wF 20 = some 0x3C003C00 := by decide +kernel
theorem test_hfma2 : v0After (.hfma2 (fld (ty := .f16x2) (dst := .v 20) (sa := .v 7) (sb := .v 7) (sc := .v 7))) wF 20 = some 0x40004000 := by
  decide +kernel
/-- R96, the worked example: 1 + 2·2⁻²⁴ rounded once. -/
theorem test_fdot2 : v0After (.fdot2 (fld (ty := .bf16x2) (dst := .v 20) (sa := .v 8) (sb := .v 8) (sc := .v 0))) wF 20 = some 0x3F800001 := by
  decide +kernel

/-- Special operands: a signalling NaN, 0 × ∞, a quiet NaN, ∞ − ∞, ∞ + 1; and the three ways a quotient lies: 7/2 a tie, 5/4 below, 7/4 above. -/
theorem witness_SpecialOperandsAndRoundingOfFloats :
    let u := Fmt.f32.unpack
    (u 0x7F800001).isSig ∧ (¬ (u 0).isSig ∧ ¬ (u 0x7F800000).isSig ∧ (u 0).isZero ∧ (u 0x7F800000).isInf)
      ∧ (¬ (u 0x7FC00000).isSig ∧ (u 0x7FC00000).isNan) ∧ ((u 0x7F800000).isInf ∧ (u 0xFF800000).isInf ∧ (u 0x7F800000).neg ≠ (u 0xFF800000).neg)
      ∧ (¬ (u 0x3F800000).isNan ∧ ¬ (u 0x3F800000).isInf)
      ∧ 2 * 7 = (2 * (7 / 2) + 1) * 2 ∧ 2 * 5 < (2 * (5 / 4) + 1) * 4 ∧ 2 * 7 > (2 * (7 / 4) + 1) * 4 := by decide +kernel

/-- 65520 overflows FP16 under RNE; 16777217 from s32; 200.7 to s8. -/
theorem witness_ConversionResults : let f := fld (ty := .f16) (dst := .v 20) (sa := .v 9)
    let i := fld (ty := .f32) (dst := .v 20) (sa := .v 6) (minor := 5)
    f.minor.toNat ≤ 2 ∧ (pass.lane 0 0).check wF [(pSA, OpKind.src false, f.sa), (pDST, OpKind.dst false, f.dst)] = .ok ()
      ∧ (pass.lane 0 0).readF wF pSA f.sa .f32 = .ok 0x477FF000
      ∧ Agree pass.hdr [0] (fun k => FpResult wF f (pass.lane 0 k) (convF Ty.f32.fmt Ty.f16.fmt 0 0x477FF000))
      ∧ Ty.ofCode i.minor = some .s32 ∧ (pass.lane 0 0).check wF [(pSA, OpKind.src false, i.sa), (pDST, OpKind.dst false, i.dst)] = .ok ()
      ∧ (pass.lane 0 0).readInt wF pSA i.sa .s32 = .ok 16777217
      ∧ Agree pass.hdr [0] (fun k => FpResult wF i (pass.lane 0 k) (rndDy .f32 0 false (Dy.ofInt 16777217))) := by
  unfold Agree; decide +kernel
theorem witness_FloatToIntegerConversionSaturates : let f := fld (ty := .s8) (dst := .v 20) (sa := .v 5)
    f.minor.toNat ≤ 2 ∧ (pass.lane 0 0).check wF [(pSA, OpKind.src false, f.sa), (pDST, OpKind.dst false, f.dst)] = .ok ()
      ∧ (pass.lane 0 0).readF wF pSA f.sa .f32 = .ok 0x4348B333 ∧ Ty.s8.isInt = true
      ∧ Agree pass.hdr [0] (fun k => (IntResult wF f (pass.lane 0 k) (wrap (fToInt .f32 .s8 0 0x4348B333).1 8)).orFlags (fToInt .f32 .s8 0 0x4348B333).2)
      ∧ (Fmt.f32.unpack 0x7FC00000).isNan = true ∧ (Fmt.f32.unpack 0xFF800000).isInf = true ∧ (Fmt.f32.unpack 0xBE800000).isZero = false := by
  unfold Agree; decide +kernel
theorem test_fcvt_overflow : v0After (.fcvt (fld (ty := .f16) (dst := .v 20) (sa := .v 9))) wF 20 = some 0x7C00 := by decide +kernel
theorem test_i2f_ties_to_even : v0After (.i2f (fld (ty := .f32) (dst := .v 20) (sa := .v 6) (minor := 5))) wF 20 = some 0x4B800000 := by decide +kernel
/-- R38: `f2i.s8` of 200.7 writes 127 and sets NV only. -/
theorem test_f2i_saturates : v0After (.f2i (fld (ty := .s8) (dst := .v 20) (sa := .v 5))) wF 20 = some 127
    ∧ fpstAfter (.f2i (fld (ty := .s8) (dst := .v 20) (sa := .v 5))) wF = some fNV := by decide +kernel

/-- A special function of a signalling NaN; a BXFP8 slot of 16 elements. -/
def wB : State := { world (th (List.map (fun n => (n, 0x3F800000)) (List.range 16))) with
  grids := [(0, { grid with slots := [(0, 3), (1, 2 ^ 9 + 1)] })] }
theorem witness_SpecialFunctionAndBlockConversionResults : let f := fld (ty := .f32) (dst := .v 20) (sa := .v 3)
    let b := fld (dst := .v 20) (sa := .v 0)
    let z := ((pass.lane 0 0).grid wB).slot 0
    let h := ((pass.lane 0 0).grid wB).slot 1
    (pass.lane 0 0).check wF [(pSA, OpKind.src false, f.sa), (pDST, OpKind.dst false, f.dst)] = .ok ()
      ∧ (pass.lane 0 0).readF wF pSA f.sa f.ty = .ok 0x7F800001 ∧ (Fmt.f32.unpack 0x7F800001).isNan = true
      ∧ ((z.isBx || z.isIntF) && decide (slotMode b.md z ≤ 1)) = true ∧ (h.had && (h.isFloat || decide (slotMode b.md h ≤ 1))) = true
      ∧ Executes wB 0 0 pass g7 [0]
      ∧ (pass.lane 0 0).check wB [(pSA, OpKind.vGroup z.blk, b.sa), (pDST, OpKind.vGroup z.packedRegs, b.dst)] = .ok ()
      ∧ (pass.lane 0 0).check wB [(pSA, OpKind.vGroup z.packedRegs, b.sa), (pDST, OpKind.vGroup z.blk, b.dst)] = .ok ()
      ∧ ((pass.lane 0 0).readGroup wB pSA b.sa 0 z.blk).toOption = some (List.replicate 16 0x3F800000)
      ∧ ((pass.lane 0 0).readGroup wB pSA b.sa 0 z.packedRegs).toOption = some (List.replicate z.packedRegs 0x3F800000) := by
  unfold Executes; decide +kernel
theorem test_frcp : v0After (.frcp (fld (ty := .f32) (dst := .v 20) (sa := .v 10))) wF 20 = some 0x3E000000 := by decide +kernel
theorem test_fsqrt_of_negative : v0After (.fsqrt (fld (ty := .f32) (dst := .v 20) (sa := .v 2))) wF 20 = some 0x7FC00000 := by decide +kernel
theorem test_frsq : v0After (.frsq (fld (ty := .f32) (dst := .v 20) (sa := .v 0))) wF 20 = some 0x3F800000 := by decide +kernel
theorem test_fex2 : v0After (.fex2 (fld (ty := .f32) (dst := .v 20) (sa := .v 11))) wF 20 = some 0x41000000 := by decide +kernel
theorem test_flg2 : v0After (.flg2 (fld (ty := .f32) (dst := .v 20) (sa := .v 10))) wF 20 = some 0x40400000 := by decide +kernel
theorem test_fsin_of_zero : v0After (.fsin (fld (ty := .f32) (dst := .v 20) (sa := .v 30))) wF 20 = some 0 := by decide +kernel
theorem test_fcos_of_zero : v0After (.fcos (fld (ty := .f32) (dst := .v 20) (sa := .v 30))) wF 20 = some 0x3F800000 := by decide +kernel
theorem test_ftanh_of_infinity : v0After (.ftanh (fld (ty := .f32) (dst := .v 20) (sa := .v 4))) wF 20 = some 0x3F800000 := by decide +kernel

/-! ## Lanes: slots 0 and 1, with v0 = 5 and 7, p1 set in slot 0 only -/

def w2 : State := world (th [(0, 5), (1, 1)]) (pass [0, 1]) (some { th [(0, 7), (1, 1)] with preds := 0 })
def p2 : Pass := pass [0, 1]
theorem w2_executes : Executes w2 0 0 p2 g7 [0, 1] := ⟨by decide +kernel, by decide +kernel, by decide⟩
def both (i : Instr) (s : State) (n : Nat) : Option (Word × Word) :=
  (next (exec i s)).map (fun t => ((t.thr 0 0).readV 64 n, (t.thr 0 1).readV 64 n))

theorem witness_VoteAndBallot : let f := fld (dst := .pred 2) (sa := .pred 1)
    let h := fld (dst := .v 4) (sa := .pred 1)
    (∀ k ∈ [0, 1], (p2.lane 0 k).check w2 [(pSA, OpKind.pred, f.sa), (pDST, OpKind.pred, f.dst)] = .ok ()
        ∧ (∃ j ∈ tileSlots w2 (p2.lane 0 k) [0, 1], (w2.thr 0 j).readPred f.sa = true))
      ∧ (∀ k ∈ [0, 1], (p2.lane 0 k).check w2 ([(pSA, OpKind.pred, h.sa)] ++ [(pDST, OpKind.dstReg false, h.dst)]) = .ok ()
        ∧ ∀ j < 32, (1 : Word).getLsbD j = decide (∃ i ∈ tileSlots w2 (p2.lane 0 k) [0, 1], i % 32 = j ∧ (w2.thr 0 i).readPred h.sa = true))
      ∧ Agree p2.hdr [0, 1] (fun k => ((p2.lane 0 k).start w2 h).put ((p2.lane 0 k).regs w2) h.dst 1) := by
  unfold Agree; decide +kernel
theorem test_vote_all : (next (exec (.vote (fld (dst := .pred 2) (sa := .pred 1) (minor := 1))) w2)).map
    (fun t => ((t.thr 0 0).pred 2, (t.thr 0 1).pred 2)) = some (false, false) := by decide +kernel
theorem test_ballot : both (.ballot (fld (dst := .v 4) (sa := .pred 1))) w2 4 = some (1, 1) := by decide +kernel

/-- `match.any` of 5 and 7 gives each lane itself; `shfl.up` by 1: lane 0 has no source and keeps its own value. -/
theorem witness_MatchAndShuffle : let f := fld (ty := .u32) (dst := .v 4) (sa := .v 0)
    let h := fld (ty := .u32) (dst := .v 4) (sa := .v 0) (sb := .v 1) (minor := 1)
    (∀ k ∈ [0, 1], (p2.lane 0 k).readInt w2 pSA f.sa f.ty = .ok ([5, 7].getD k 0)
        ∧ (p2.lane 0 k).check w2 [(pSA, OpKind.src false, f.sa), (pDST, OpKind.dstReg false, f.dst)] = .ok ()
        ∧ (∀ j < 32, (BitVec.ofNat 32 (2 ^ k)).getLsbD j = decide (∃ i ∈ tileSlots w2 (p2.lane 0 k) [0, 1], i % 32 = j ∧ [5, 7].getD i 0 = [5, 7].getD k 0))
        ∧ (p2.lane 0 k).check w2 [(pSA, OpKind.src false, h.sa), (pSB, OpKind.src false, h.sb), (pDST, OpKind.dstReg false, h.dst)] = .ok ()
        ∧ (p2.lane 0 k).readWord w2 pSB h.sb = .ok 1)
      ∧ Agree p2.hdr [0, 1] (fun k => ((p2.lane 0 k).start w2 f).put ((p2.lane 0 k).regs w2) f.dst (BitVec.ofNat 32 (2 ^ k)))
      ∧ Agree p2.hdr [0, 1] (fun k => IntResult w2 h (p2.lane 0 k) 5) := by
  unfold Agree; decide +kernel
theorem test_match_any : both (.matchOp (fld (ty := .u32) (dst := .v 4) (sa := .v 0))) w2 4 = some (1, 2) := by decide +kernel
theorem test_shfl_up : both (.shfl (fld (ty := .u32) (dst := .v 4) (sa := .v 0) (sb := .v 1) (minor := 1))) w2 4 = some (5, 5) := by decide +kernel

theorem witness_ScanAndReduction : let f := fld (ty := .u32) (dst := .v 4) (sa := .v 0) (slot := 1)
    (∀ k ∈ [0, 1], (p2.lane 0 k).check w2 [(pSA, OpKind.src false, f.sa), (pDST, OpKind.dstReg false, f.dst)] = .ok ()
        ∧ readScan f w2 (p2.lane 0 k) = .ok ([5, 7].getD k 0))
      ∧ f.minor = 0 ∧ Agree p2.hdr [0, 1] (fun k => (putScan f ((p2.lane 0 k).regs w2) ((p2.lane 0 k).start w2 f) 5)) := by
  unfold Agree; decide +kernel
/-- An exclusive scan gives the identity first; a reduction gives the sum to each lane. -/
theorem test_scan_exclusive : both (.scan (fld (ty := .u32) (dst := .v 4) (sa := .v 0) (slot := 1))) w2 4 = some (0, 5) := by decide +kernel
theorem test_lred_add : both (.lred (fld (ty := .u32) (dst := .v 4) (sa := .v 0))) w2 4 = some (12, 12) := by decide +kernel

theorem witness_PartitionAndUniformMove : let f := fld (ty := .u32) (dst := .g 3) (sa := .v 0) (sb := .v 1)
    Hdr.conv p2.hdr = true ∧ List.Pairwise (· < ·) [0, 1]
      ∧ (∀ k ∈ [0, 1], (p2.lane 0 k).check w2 [(pSA, OpKind.src false, f.sa), (pSB, OpKind.srcOpt false, f.sb), (pDST, OpKind.gOnly false, f.dst)] = .ok ()
        ∧ (p2.lane 0 k).readInt w2 pSA f.sa f.ty = .ok ([5, 7].getD k 0) ∧ (p2.lane 0 k).readWord w2 pSB f.sb = .ok 1)
      ∧ Agree p2.hdr [0, 1] (fun k => IntResult w2 f (p2.lane 0 k) 7) := by
  unfold Agree; decide +kernel
theorem test_umov : (next (exec (.umov (fld (ty := .u32) (dst := .g 3) (sa := .v 0) (sb := .v 1))) w2)).map (fun t => (t.gang 0 0).readG 3) = some 7 := by
  decide +kernel
theorem test_lpart : (next (exec (.lpart (fld (minor := 2))) w2)).map (fun t => (t.gang 0 0).tw) = some 2 := by decide +kernel

/-! ## Distribution registers -/

/-- d1 has tag 1 and lineage 1, points 1.0 at weight 4096 each; v8 = 2.0. -/
def dOne : BitVec 512 := DReg.bits ⟨List.replicate 8 0x3F800000, List.replicate 8 4096, 1, 1, false⟩
def wD : State := world { th ([(8, 0x40000000), (9, 1)] ++ (List.range 4).map (fun n => (10 + n, 0x10001000)) ++ (List.range 8).map (fun n => (16 + n, 0x3F800000)))
  with d := [(1, dOne)] }
def dAfter (i : Instr) (s : State) (n : Nat) : Option DReg := (next (exec i s)).map (fun t => DReg.ofBits ((t.thr 0 0).readD n))
def one8 : DReg := ⟨List.replicate 8 0x3F800000, List.replicate 8 4096, 1, 1, false⟩

theorem witness_DistributionViewsLineagesAndPairing :
    (th).linctr ≠ 0 ∧ ({ th with linctr := 4095 } : Thread).linctr = 4095 ∧ one8.tag ≠ 0 ∧ one8.v.length = 8 ∧ one8.w.length = 8
      ∧ ¬ (one8.tag &&& 2 ≠ 0 ∧ one8.tag = 2 ∧ one8.lin = 1) ∧ (one8.tag &&& 3 ≠ 0) := by decide +kernel
theorem witness_DistributionArithmeticResults : let f := fld (dst := .v 0) (sa := .v 1) (sb := .v 1)
    let h := fld (dst := .v 0) (sa := .v 1) (sb := .v 8) (sc := .v 1)
    let k := fld (dst := .v 0) (sa := .v 1) (sb := .v 8)
    Executes wD 0 0 pass g7 [0] ∧ (pass.lane 0 0).checkD wD [(pSA, OpKind.dist, f.sa), (pSB, OpKind.dist, f.sb), (pDST, OpKind.dist, f.dst)] = .ok ()
      ∧ (pass.lane 0 0).dRaw wD pSA f.sa = .ok one8 ∧ (pass.lane 0 0).dRaw wD pSB f.sb = .ok one8
      ∧ (pass.lane 0 0).checkD wD [(pSA, OpKind.dist, h.sa), (pSB, OpKind.src false, h.sb), (pSC, OpKind.dist, h.sc), (pDST, OpKind.dist, h.dst)] = .ok ()
      ∧ (pass.lane 0 0).dScalar wD pSB h.sb = .ok 0x40000000 ∧ (pass.lane 0 0).dRaw wD pSC h.sc = .ok one8
      ∧ (pass.lane 0 0).checkD wD [(pSA, OpKind.dist, k.sa), (pSB, OpKind.src false, k.sb), (pDST, OpKind.dist, k.dst)] = .ok () := by
  unfold Executes; decide +kernel
/-- A register paired with itself is aligned (R138): 1 + 1 at each point, weights, tag and lineage kept. -/
theorem test_dadd_aligned : dAfter (.dadd (fld (dst := .v 0) (sa := .v 1) (sb := .v 1))) wD 0
    = some ⟨List.replicate 8 0x40000000, List.replicate 8 4096, 1, 1, false⟩ := by decide +kernel
theorem test_dscale : (dAfter (.dscale (fld (dst := .v 0) (sa := .v 1) (sb := .v 8))) wD 0).map (fun d => d.v.headD 0) = some 0x40000000 := by decide +kernel
theorem test_dfma : (dAfter (.dfma (fld (dst := .v 0) (sa := .v 1) (sb := .v 8) (sc := .v 1))) wD 0).map (fun d => d.v.headD 0) = some 0x40400000 := by
  decide +kernel
/-- With a constant, which has no tag, the pairing is independent: CND is set and the lineage is fresh. -/
theorem test_dmul_independent : ((next (exec (.dconst (fld (dst := .v 0) (imm := some 0x40000000))) wD)).bind
    (fun t => dAfter (.dmul (fld (dst := .v 0) (sa := .v 1) (sb := .v 0))) t 0)).map (fun d => (d.v.headD 0, d.tag, d.lin, d.cnd)) = some (0x40000000, 1, 1, true) := by
  decide +kernel

theorem witness_DistributionMakingResults : let m := fld (dst := .v 0) (sa := .v 16) (sb := .v 12) (sc := .v 9)
    let k := fld (dst := .v 0) (imm := some 0x3F800000)
    let c := fld (dst := .v 0) (sa := .v 1) (sb := .v 8) (sc := .v 8)
    let g := fld (dst := .v 0) (sa := .v 1) (sb := .v 9)
    let a := fld (dst := .v 0) (sa := .v 1) (sb := .v 1)
    let x := fld (dst := .v 0) (sa := .v 1) (sb := .v 1) (sc := .v 9)
    let l := pass.lane 0 0
    l.checkD wD [(pSA, OpKind.vGroup 8, m.sa), (pSB, OpKind.vGroup 4, m.sb), (pSC, OpKind.src false, m.sc), (pDST, OpKind.dist, m.dst)] = .ok ()
      ∧ (l.readGroup wD pSA m.sa 0 8).toOption = some (List.replicate 8 0x3F800000) ∧ (l.readGroup wD pSB m.sb 0 4).toOption = some [0x10001000, 0x10001000, 0, 0]
      ∧ l.readWord wD pSC m.sc = .ok 1 ∧ l.checkD wD [(pDST, OpKind.dist, k.dst)] = .ok ()
      ∧ l.dRaw wD pSA c.sa = .ok one8
      ∧ l.checkD wD [(pSA, OpKind.dist, c.sa), (pSB, OpKind.src false, c.sb), (pSC, OpKind.src false, c.sc), (pDST, OpKind.dist, c.dst)] = .ok ()
      ∧ l.dScalar wD pSB c.sb = .ok 0x40000000 ∧ l.dScalar wD pSC c.sc = .ok 0x40000000
      ∧ l.checkD wD [(pSA, OpKind.dist, g.sa), (pSB, OpKind.src false, g.sb), (pDST, OpKind.dist, g.dst)] = .ok () ∧ l.readWord wD pSB g.sb = .ok 1
      ∧ l.checkD wD [(pSA, OpKind.dist, a.sa), (pSB, OpKind.dist, a.sb), (pDST, OpKind.dist, a.dst)] = .ok () ∧ l.dRaw wD pSB a.sb = .ok one8
      ∧ l.checkD wD [(pSA, OpKind.dist, x.sa), (pSB, OpKind.dist, x.sb), (pSC, OpKind.src false, x.sc), (pDST, OpKind.dist, x.dst)] = .ok () := by
  decide +kernel
/-- No point lies between 2 and 2: `dcond` keeps the register and sets CEMP (R152); `dtag` by 0 makes it a constant register. -/
theorem test_dcond_empty : (next (exec (.dcond (fld (dst := .v 0) (sa := .v 1) (sb := .v 8) (sc := .v 8))) wD)).map
    (fun t => ((t.thr 0 0).readD 0, (t.thr 0 0).dst)) = some (dOne, dCEMP) := by decide +kernel
theorem test_dtag_zero : (dAfter (.dtag (fld (dst := .v 0) (sa := .v 1) (sb := .v 30))) wD 0).map (fun d => (d.tag, d.lin)) = some (0, 0) := by decide +kernel

theorem witness_DistributionExtractionResults : let f := fld (dst := .v 4) (sa := .v 1)
    let h := fld (dst := .v 4) (sa := .v 1) (sb := .v 8)
    (pass.lane 0 0).dRaw wD pSA f.sa = .ok one8 ∧ (pass.lane 0 0).checkD wD [(pSA, OpKind.dist, f.sa), (pDST, OpKind.dst false, f.dst)] = .ok ()
      ∧ (pass.lane 0 0).checkD wD [(pSA, OpKind.dist, h.sa), (pSB, OpKind.src false, h.sb), (pDST, OpKind.dst false, h.dst)] = .ok ()
      ∧ (pass.lane 0 0).dScalar wD pSB h.sb = .ok 0x40000000
      ∧ Agree pass.hdr [0] (fun k => ((pass.lane 0 k).start wD f).put ((pass.lane 0 k).regs wD) f.dst 0x3F800000) := by
  unfold Agree; decide +kernel
theorem test_dmom_mean : v0After (.dmom (fld (dst := .v 4) (sa := .v 1) (minor := 1))) wD 4 = some 0x3F800000 := by decide +kernel
theorem test_dcdf : v0After (.dcdf (fld (dst := .v 4) (sa := .v 1) (sb := .v 8))) wD 4 = some 0x3F800000 := by decide +kernel

/-! ## Faults, placement, control -/

/-- A fault of code 5 with a trap-table entry at 0x4000, without one, and with a handler running already. -/
def wTrap (entry : DWord) (hnd : Bool := false) : State :=
  { world { th with t := [(0, 9)], tvalid := 1, hnd := hnd } with grids := [(0, { grid with traps := [(5, entry)] })] }
theorem witness_TakingAFaultAndReturning : ((wTrap 0x4001).thr 0 0).hnd = false ∧ (Tbl.at ((wTrap 0x4001).gangGrid 0 0).traps 5 0).getLsbD 0 = true
    ∧ (Tbl.at ((wTrap 0x4000).gangGrid 0 0).traps 5 0).getLsbD 0 = false ∧ ((wTrap 0x4001 true).thr 0 0).hnd = true
    ∧ ((wTrap 0x4001).ctx 0).stop = 0 := by decide +kernel
theorem test_deliver_enters_handler : let t := (wTrap 0x4001).deliver 0 0 0x1003 0 ⟨5, 7, 0⟩
    (t.thr 0 0).pos = 0x401F ∧ (t.thr 0 0).fpos = 0x1003 ∧ (t.thr 0 0).priv = true ∧ (t.thr 0 0).fcode = 5 ∧ (t.thr 0 0).frameT 0 = 9 := by decide +kernel
theorem test_deliver_twice_stops : ((wTrap 0x4001 true).deliver 0 0 0x1003 0 ⟨5, 7, 0⟩).ctx 0 = { ((wTrap 0x4001).ctx 0) with
    run := .stopped, stop := (((wTrap 0x4001 true).deliver 0 0 0x1003 0 ⟨5, 7, 0⟩).ctx 0).stop
    stopAt := (((wTrap 0x4001 true).deliver 0 0 0x1003 0 ⟨5, 7, 0⟩).ctx 0).stopAt } := by decide +kernel

/-- One pass with an unused reservation to read entry 1 and to write entry 2 of channel 0, one that closes channel 0, and the
three cases of placement: a keyed entry, a due record of the position, a free entry. -/
def pResv : Pass := { pass with resv := [(0, { rd := some 1, wr := some 2 })] }
def wPlace (wvt : List WvtEntry) (bin : List ContRec) : State := { world th with cores := [(0, { ctx := some 0, wvt := wvt, bin := bin })] }
theorem witness_EndOfAPassAndPlacement : 0 ∈ pass.slots ∧ ((world th).thr 0 0).place = .pass 0 ∧ pResv.resv = [(0, { rd := some 1, wr := some 2 })]
    ∧ pResv.closing = [] ∧ ({ pass with closing := [(0, 0)] } : Pass).resv = []
    ∧ (∃ e ∈ ((wPlace [⟨0x101F, 1, 0, 0, false, [1]⟩] []).core 0).wvt, e.pos = (th).pos)
    ∧ (∃ r ∈ ((wPlace [] [⟨0x101F, 0, 0, 1⟩]).core 0).bin, r.park = 0 ∧ r.pos = (th).pos) ∧ ((wPlace [] []).core 0).wvt.length < Config.wvtEntries := by decide +kernel
theorem test_place_in_a_free_entry : (((wPlace [] []).place 0 0).core 0).wvt.map (fun e => (e.pos, e.age, e.slots)) = [(0x101F, 0, [0])] := by decide +kernel
theorem test_place_behind_a_due_record : (((wPlace [] [⟨0x101F, 0, 0, 1⟩]).place 0 0).core 0).bin.map (fun r => r.slot) = [1, 0] := by decide +kernel

/-- REGS is 64: v63 is a register and v64 is none; t1 is not valid. -/
theorem witness_RegisterOperandsReadAndWrite : let l := pass.lane 0 0
    l.regs w1 = 64 ∧ l.regs w1 ≤ (64 : BitVec 8).toNat ∧ (63 : BitVec 8).toNat < l.regs w1
      ∧ Tbl.at (l.thr { w1 with threads := [(0, { th with vPoison := [(63, true)] })] }).vPoison 63 false = true
      ∧ (l.thr w1).tvalid.getLsbD 1 = false ∧ ((wTrap 0).thr 0 0).tvalid.getLsbD 0 = true ∧ l.readWord w1 pSA (.v 0) = .ok 6
      ∧ l.readWord w1 pSA ((Operand.v 0).next 1) = .ok 3 := by decide +kernel
theorem test_read_beyond_regs : (pass.lane 0 0).readWord w1 pSA (.v 64) = .ok 0 := by decide +kernel
theorem test_stale_temporary : (pass.lane 0 0).readWord w1 pSB (.t 1) = .error (.fault ⟨3, BitVec.ofNat 32 (0x141 + 512 * pSB), 0⟩) := by decide +kernel

/-- Lanes 0 and 1 write 5 and 7 to g3: the register takes 5 and lane 1 faults; with CONV = 0 both fault. -/
theorem witness_UniformWritesAndChannelUses : let f := fld (ty := .u32) (dst := .g 3) (sa := .v 0)
    (∀ k ∈ [0, 1], k / 32 = 0) ∧ f.ty.isPair = false
      ∧ (∀ k ∈ [0, 1], AdmitsUn w2 f (p2.lane 0 k) ∧ ReadsA w2 f (p2.lane 0 k) ([5, 7].getD k 0))
      ∧ Hdr.conv p2.hdr = true ∧ Hdr.conv (pass [0, 1] hdr0).hdr = false ∧ [0, 1].head? = some 0
      ∧ Tbl.look pResv.resv 0 = some { rd := some 1, wr := some 2 } ∧ ([(0, ({ th := th, push := some 4 } : LaneOut))].map (·.1)).Nodup := by
  unfold AdmitsUn ReadsA; decide +kernel
theorem test_uniform_write : (next (exec (.mov (fld (ty := .u32) (dst := .g 3) (sa := .v 0))) w2)).map
    (fun t => ((t.gang 0 0).readG 3, (t.thr 0 0).fcode, (t.thr 0 1).fcode)) = some (5, 0, 0x11) := by decide +kernel

/-! Control: a pass of one lane at its terminator; targets at the edges of the canonical half. -/

def wEdge : State := world (th [(0, 0xFFFFFFE0), (1, 0x00FFFFFF), (2, 0x10), (4, 0), (5, 0x01000000), (6, 3)])
theorem witness_BranchesAndBadSuccessors : let x := fld (sa := .v 0) (dst := .v 10)
    wEdge.curPass = some (0, 0, pass) ∧ (wEdge.thr 0 0).holds x.guard = true
      ∧ (pass.lane 0 0).readPair wEdge pSA x.sa = .ok 0x00FFFFFFFFFFFFE0 ∧ (0x00FFFFFFFFFFFFE0 : DWord).toNat % 32 = 0 ∧ canonical 0x00FFFFFFFFFFFFE0 = true
      ∧ (0x1000 + BitVec.ofInt 64 (32 * (-2)) : DWord).toNat % 32 = 0 ∧ canonical (0x1000 + BitVec.ofInt 64 (32 * (-2)) : DWord).toNat = true
      ∧ (pass.lane 0 0).check wEdge [(pSA, OpKind.reg true, x.sa)] = .ok () ∧ (pass.lane 0 0).check wEdge [(pDST, OpKind.load true, x.dst)] = .ok ()
      ∧ (pass.lane 0 0).check wEdge [(pSA, OpKind.reg true, x.sa), (pDST, OpKind.load true, x.dst)] = .ok ()
      ∧ (pass.lane 0 0).readPair wEdge pSA (.v 2) = .ok 0x10 ∧ (0x10 : DWord).toNat % 32 ≠ 0
      ∧ (pass.lane 0 0).readPair wEdge pSA (.v 4) = .ok 0x0100000000000000 ∧ canonical 0x0100000000000000 = false := by decide +kernel
theorem test_call_links : (next (exec (.callR (fld (sa := .v 0) (dst := .v 10))) wEdge)).map (fun t => ((t.thr 0 0).pos, (t.thr 0 0).readV 64 10))
    = some (0x00FFFFFFFFFFFFFF, (fallThrough 0x1000 pass.body).extractLsb' 0 32) := by decide +kernel
theorem test_brx_misaligned : (next (exec (.brx (fld (sa := .v 2))) wEdge)).map (fun t => (t.thr 0 0).fcode) = some 7 := by decide +kernel
theorem test_ret_not_canonical : (next (exec (.ret (fld (sa := .v 4))) wEdge)).map (fun t => (t.thr 0 0).fcode) = some 0x0B := by decide +kernel
theorem test_br_not_taken : (next (exec (.br (fld (imm := some 0xFFFFFFFE) (guard := ⟨2, false⟩))) wEdge)).map (fun t => (t.thr 0 0).pos)
    = some (entryPos (fallThrough 0x1000 pass.body)) := by decide +kernel

theorem witness_ExitParkAndFaultReturn : wEdge.curPass = some (0, 0, pass) ∧ (wEdge.thr 0 0).spec = false
    ∧ (fallThrough pass.clause pass.body).toNat % 32 = 0 ∧ canonical (fallThrough pass.clause pass.body).toNat = true
    ∧ (pass.lane 0 0).check wEdge [(pSA, OpKind.srcOpt false, .v 6)] = .ok () ∧ (pass.lane 0 0).readWord wEdge pSA (.v 6) = .ok 3
    ∧ (wEdge.thr 0 0).priv = false ∧ ((world { th with priv := true }).thr 0 0).priv = true ∧ pass.slots.Nodup := by decide +kernel
theorem test_park : (next (exec (.park (fld (sa := .v 6))) wEdge)).map (fun t => ((t.thr 0 0).park, (t.core 0).bin.map (·.slot))) = some (3, [0]) := by decide +kernel
theorem test_exit : (next (exec (.exit fld) wEdge)).map (fun t => ((t.thr 0 0).exited, (t.thr 0 0).place)) = some (true, .out) := by decide +kernel
theorem test_ret_fault_user : (next (exec (.retFault (fld (minor := 1))) wEdge)).map (fun t => (t.thr 0 0).fcode) = some 4 := by decide +kernel

/-- A barrier of one live thread completes at once; `bar.arrive` with the largest count 1024. -/
def wBar : State := world (th [(0, 1024), (1, 1), (2, 0)])
theorem witness_BarriersAndTeamInstructionResults : (Tbl.keys wBar.threads).Pairwise (· < ·) ∧ (Tbl.look wBar.threads (threadKey 0 0)).isSome = true
    ∧ (0 : Nat) < ((pass.lane 0 0).grid wBar).chans ∧ (wBar.thr 0 0).spec = false
    ∧ (pass.lane 0 0).check wBar [(pSA, OpKind.src false, .v 0)] = .ok ()
    ∧ (pass.lane 0 0).check wBar [(pSA, OpKind.srcOpt false, .v 0), (pDST, OpKind.dstReg false, .v 4)] = .ok ()
    ∧ (pass.lane 0 0).check wBar [(pSA, OpKind.srcOpt false, .v 0)] = .ok () ∧ (pass.lane 0 0).readWord wBar pSA (.v 0) = .ok 1024
    ∧ wBar.liveThreads 0 ≤ 1 := by decide +kernel
theorem test_bar_arrive_completes : (next (exec (.barArrive (fld (sa := .v 1) (dst := .v 4))) wBar)).map
    (fun t => (((t.team 0).bar 0).gen, ((t.team 0).bar 0).arr, (t.thr 0 0).readV 64 4)) = some (1, 0, 0) := by decide +kernel
theorem test_bar_arrive_count_zero : (next (exec (.barArrive (fld (sa := .v 2) (dst := .v 4))) wBar)).map (fun t => (t.thr 0 0).fcode) = some 2 := by decide +kernel
theorem test_bar_wait : (next (exec (.barWait (fld (sa := .v 1))) wBar)).map (fun t => (t.thr 0 0).barWait) = some [(0, 1)] := by decide +kernel
theorem test_chopen : (next (exec (.chopen fld) wBar)).map (fun t => (((t.team 0).chan 0).pmask, ((t.team 0).chan 0).opened)) = some (1, true) := by decide +kernel

/-- A breach of the body's structure (R57), and a word of the body no entry accepts, as the pass's next word. -/
def pBad (w : DWord) : Pass := { pass with body := [⟨w, 0⟩], hdr := BitVec.ofNat 64 (3 + 2 ^ 32 + 2 ^ 37) }
theorem witness_TrapsAndIllegalWordsFault : wEdge.agenda = [] ∧ wEdge.turn = .pipe 0 0 ∧ Tbl.look (wEdge.core 0).pipes 0 = some pass
    ∧ (pass.lane 0 0).check wEdge [(pSA, OpKind.srcOpt false, .v 6)] = .ok () ∧ bodyBreach (pBad 0x003FFFFFFFFDC358) 0 = true
    ∧ bodyBreach pass 0 = false ∧ (decodeRaw ⟨0x003FFFFFFFFDC758, 0⟩).toOption = none ∧ (⟨0x003FFFFFFFFDC758, 0⟩ : Raw).isTerm = false
    ∧ isPost ⟨0x003FFFFFFFFDC758, 0⟩ = false ∧ pass.stalled = false ∧ (wEdge.comesFirst 0 pass).isNone = true
    ∧ (decodeRaw ⟨0x00C182C147FDC282, 0x8000080000100000⟩).toOption = none ∧ isPost ⟨0x00C182C147FDC282, 0x8000080000100000⟩ = true
    ∧ wEdge.executing 0 pass (⟨0x00C182C147FDC282, 0x8000080000100000⟩ : Raw).guard = [0]
    ∧ 0 ∈ pass.slots ∧ (wEdge.thr 0 0).spec = false := by decide +kernel
/-- R311: a word of `mma` with a reserved extension bit faults the posting lane alone. -/
theorem test_illegal_mma_faults_one_lane :
    (next (step { world th { pass [0, 1] with body := [⟨0x00C182C147FDC282, 0x8000080000100000⟩] } (some th) with agenda := [] })).map
      (fun t => ((t.thr 0 0).fcode, (t.thr 0 1).fcode)) = some (1, 0) := by decide +kernel
theorem test_trap : (next (exec (.trap (fld (sa := .v 6))) wEdge)).map (fun t => ((t.thr 0 0).fcode, (t.thr 0 0).frame.extractLsb' 64 32)) = some (5, 3) := by decide +kernel
theorem test_brk : (next (exec (.brk fld) wEdge)).map (fun t => (t.thr 0 0).fcode) = some 6 := by decide +kernel
theorem test_unassigned : (next (exec (.unassignedOpcode g7 0x1E) wEdge)).map (fun t => (t.thr 0 0).fcode) = some 1 := by decide +kernel

theorem witness_MembershipAndNoOperationResults : Executes wEdge 0 0 pass g7 [0] ∧ (wEdge.thr 0 0).spec = false ∧ Hdr.conv pass.hdr = true := by
  unfold Executes; decide +kernel
theorem test_nop : (next (exec (.nop fld) wEdge)).map (fun t => (t.thr 0 0, (Tbl.look (t.core 0).pipes 0).map (·.idx))) = some (wEdge.thr 0 0, some 1) := by
  decide +kernel
theorem test_mjoin : (next (exec (.mjoin (fld (minor := 3))) wEdge)).map (fun t => ((t.gang 0 0).mj, (t.gang 0 0).gseq)) = some (8, [(3, 0)]) := by decide +kernel

/-- m0 is valid with VOP 1 (`all`) and a group of one device, which the rank table names; the gang is a member. -/
def hdrA : DWord := BitVec.ofNat 64 (3 + 2 ^ 26 + 2 ^ 27 + 2 ^ 31 + 2 ^ 32 + 2 ^ 37 + 2 ^ 38)
def wVote : State := { world th (pass [0] hdrA) with
  gangs := [(0, { team := 0, num := 0, mj := 1 })]
  ctxs := [(0, { mset := [(0, BitVec.ofNat 128 (1 + 2 ^ 14 + 2 ^ 32 + 2 ^ 88 + 2 ^ 104))], ranks := [(0, 0x80000000)] })] }
theorem witness_AgreedVotesAreCast : let g := wVote.gang 0 0; let y := wVote.ctx 0; let m := y.msetOf 0
    wVote.curPass = some (0, 0, pass [0] hdrA) ∧ (wVote.thr 0 0).spec = false ∧ (wVote.gangGrid 0 0).ctx = 0
      ∧ (Mset.valid m = true ∧ g.dropOf 0 = 0 ∧ g.member 0 = true ∧ g.waiting 0 = false ∧ wVote.inGroup y m = true ∧ g.seqOf 0 = Mset.seq m)
      ∧ (((pass [0] hdrA).lane 0 0).check wVote [(pSA, OpKind.pred, .pred 1)]) = .ok () ∧ Mset.vop m = 1
      ∧ wVote.fullFlag g7 false = none ∧ setFlag hdrA false = some 0 ∧ Hdr.conv hdrA = true
      ∧ ((pass [0] hdrA).lane 0 0).check wVote [(pSA, OpKind.pred, .pred 1), (pDST, OpKind.vOnly, .v 4)] = .ok () := by decide +kernel
/-- `cbr.all p1` predicted by its own vote: the tally has one vote for, the gang waits and the lane runs ahead to the target. -/
theorem test_cbr_runs_ahead : (next (exec (.cbr (fld (sa := .pred 1) (minor := 1)) ⟨2, 0, 0⟩) wVote)).map
    (fun t => ((t.ctx 0).openSeqs.map (fun o => (o.t, o.v)), (t.gang 0 0).waiting 0, (t.thr 0 0).spec, (t.thr 0 0).pos))
    = some ([(1, 1)], true, true, 0x105F) := by decide +kernel
theorem test_mvote : (next (exec (.mvote (fld (dst := .v 4) (sa := .pred 1))) wVote)).map
    (fun t => ((t.thr 0 0).flag 0, (t.gang 0 0).waiting 0)) = some (1, true) := by decide +kernel

/-! ## Memory: virtual page 1 stands for physical page 2; bytes 1 to 8 at 0x2040; v0:v1 = 0x1040 -/

def wM (a : Thread) (h : DWord := hdr) : State :=
  { world a (pass [0] h) with
    cores := [(0, { ctx := some 0, pipes := [(0, pass [0] h)], tlb := [⟨0, 1, 12, 12, 0x2000, 0, 0xF, 0xF⟩] })]
    mem := (List.range 8).map (fun i => (0x2040 + i, BitVec.ofNat 8 (i + 1)))
    teams := [(0, { grid := 0, num := 0, lcore := 0, core := 0, footprint := 0, scratch := [(252, 0xAA)] })] }
def tM : Thread := th [(0, 0x1040), (1, 0), (2, 2), (3, 252), (4, 0x11223344), (5, 0xFFFF), (6, 1)]
def wMem : State := wM tM
def map1040 : Mapping := ⟨0x2040, 0, 0xF, 0xF, 12, 12⟩
/-- What the flag's completion will write, after an instruction that issues one. -/
def issued (o : Host.Outcome State Fault Refusal) : Option (List (Nat × Word × Bool)) :=
  (next o).map (fun t => (t.core 0).pending.flatMap (·.words))

theorem plain_wMem (c : Bool) : Plain wMem 0 0 0x2040 c :=
  ⟨(fun n l h => by cases h), (fun l h => by cases h), by decide +kernel⟩

/-- The address with an index of 2 scaled by 4 wraps at the width of its space; a fault for each breach: misaligned, not canonical,
beyond SCRSIZE, beyond the window, not mapped. -/
def wBadVa : State := wM (th [(0, 0), (1, 0x01000000), (2, 0xFFFFFFFF), (3, 253), (4, 0xFFC), (6, 1)])
theorem witness_AddressesAndAccessFaults : let g := fld (ty := .u32) (dst := .v 8) (sa := .v 0) (sb := .v 2) (slot := 2)
    let sp := fld (ty := .u32) (dst := .v 8) (sa := .v 3) (minor := 1)
    let wn := fld (ty := .u32) (dst := .v 8) (sa := .v 4) (minor := 2)
    let l := pass.lane 0 0
    (l.readWord wMem pSB g.sb = .ok 2 ∧ l.readPair wMem pSA g.sa = .ok 0x1040 ∧ l.readWord wMem pSA sp.sa = .ok 252)
      ∧ Executes wBadVa 0 0 pass g7 [0] ∧ wBadVa.fullFlag g7 false = none ∧ (setFlag pass.hdr false).isSome = true
      ∧ l.check wBadVa (memFields g 0 true ++ [(pDST, OpKind.loadGroup (groupRegs g), g.dst)]) = .ok ()
      ∧ l.check wBadVa (memFields sp 1 true ++ [(pDST, OpKind.loadGroup (groupRegs sp), sp.dst)]) = .ok ()
      ∧ l.check wBadVa (memFields g 3 true ++ [(pDST, OpKind.loadGroup (groupRegs g), g.dst)]) = .ok ()
      ∧ l.check wBadVa (memFields sp 1 true ++ [(pDST, OpKind.dataGroup (groupRegs sp), sp.dst)]) = .ok ()
      ∧ (l.storeBytes wBadVa sp).toOption.isSome = true
      ∧ (l.address wBadVa sp 1 true = .ok 253 ∧ 253 % accSize sp ≠ 0)
      ∧ (l.address wBadVa { g with sb := .none } 0 true = .ok 0x0100000000000000 ∧ canonical 0x0100000000000000 = false)
      ∧ (l.address wMem sp 1 true = .ok 252 ∧ 252 + accSize sp ≤ ((pass.lane 0 0).grid wMem).scrsize)
      ∧ (l.address wBadVa wn 2 true = .ok 0xFFC ∧ winSize (l.regs wBadVa) (l.grid wBadVa).dregs < 0xFFC + accSize wn)
      ∧ (wBadVa.translate 0 0 { load := true } 0x3000).toOption.isNone = true := by
  unfold Executes; decide +kernel
/-- The last stream of 48 KiB of a die's region. -/
theorem witness_PlacesInHbm : (3 : Nat) < 4 ∧ (2 ^ 38 - 49152) % 256 = 0 ∧ 2 ^ 38 - 49152 + 49152 ≤ 2 ^ 38 ∧ 0x8000123440 < 2 ^ 40 := by decide
theorem test_ld_misaligned : (next (exec (.ld (fld (ty := .u32) (dst := .v 8) (sa := .v 3) (minor := 1))) wBadVa)).map
    (fun t => ((t.thr 0 0).fcode, (t.thr 0 0).frame.extractLsb' 96 64)) = some (7, 253) := by decide +kernel
theorem test_st_beyond_window : (next (exec (.st (fld (ty := .u32) (dst := .v 8) (sa := .v 4) (minor := 2))) wBadVa)).map (fun t => (t.thr 0 0).fcode)
    = some 0x0A := by decide +kernel

/-- A load of the last word of the scratchpad (SCRSIZE 256), and a global one. -/
theorem witness_LoadResults : let f := fld (ty := .u32) (dst := .v 8) (sa := .v 3) (minor := 1)
    let g := fld (ty := .u32) (dst := .v 8) (sa := .v 0)
    let l := pass.lane 0 0
    Executes wMem 0 0 pass g7 [0] ∧ wMem.fullFlag g7 false = none ∧ setFlag pass.hdr false = some 0
      ∧ l.check wMem (memFields f 1 true ++ [(pDST, OpKind.loadGroup (groupRegs f), f.dst)]) = .ok ()
      ∧ l.address wMem f 1 true = .ok 252 ∧ 252 % accSize f = 0 ∧ 252 + accSize f ≤ (l.grid wMem).scrsize
      ∧ l.check wMem (memFields g 0 true ++ [(pDST, OpKind.loadGroup (groupRegs g), g.dst)]) = .ok ()
      ∧ l.address wMem g 0 true = .ok 0x1040 ∧ 0x1040 % accSize g = 0
      ∧ ((l.reachAligned (wMem.latch l g) 0 0 0x1040 (accSize g) { load := true }).map (·.2)).toOption = some (.glob map1040) ∧ map1040.pa % 64 = 0x1040 % 64
      ∧ ((l.reachAligned (wMem.latch l g) 0 0 0x1040 (accSize g) { load := true }).map (fun r => decide ((r.1.core 0).l1.length < r.1.l1Room 0))).toOption
        = some true := by
  unfold Executes; decide +kernel
/-- R128: an uncorrectable word poisons every destination word of the load. -/
theorem test_ld_poisons_all : issued (exec (.ld (fld (ty := .u64) (dst := .v 8) (sa := .v 0))) { wMem with badWords := [0x811] })
    = some [(8, 0x04030201, true), (9, 0x08070605, true)] := by decide +kernel
theorem test_ld_spad : issued (exec (.ld (fld (ty := .u8) (dst := .v 8) (sa := .v 3) (minor := 1))) wMem) = some [(8, 0xAA, false)] := by decide +kernel
theorem test_ld_global : issued (exec (.ld (fld (ty := .u64) (dst := .v 8) (sa := .v 0))) wMem) = some [(8, 0x04030201, false), (9, 0x08070605, false)] := by
  decide +kernel
theorem test_ldc : issued (exec (.ldc (fld (ty := .u16) (dst := .v 8) (sa := .v 0))) wMem) = some [(8, 0x0201, false)] := by decide +kernel
/-- R28: a signed byte is extended by its sign. -/
theorem test_ld_s8 : issued (exec (.ld (fld (ty := .s8) (dst := .v 8) (sa := .v 3) (minor := 1))) wMem) = some [(8, 0xFFFFFFAA, false)] := by decide +kernel

theorem witness_StoreResults : let f := fld (ty := .u32) (dst := .v 4) (sa := .v 3) (minor := 1)
    let w := fld (ty := .u32) (dst := .v 4) (sa := .v 30) (minor := 2)
    let g := fld (ty := .u32) (dst := .v 4) (sa := .v 0)
    let l := pass.lane 0 0
    Executes wMem 0 0 pass g7 [0] ∧ [0].Nodup ∧ (wMem.thr 0 0).spec = false
      ∧ (l.check wMem (memFields f 1 true ++ [(pDST, OpKind.dataGroup (groupRegs f), f.dst)]) = .ok () ∧ l.address wMem f 1 true = .ok 252
        ∧ l.storeBytes wMem f = .ok [0x44, 0x33, 0x22, 0x11] ∧ 252 % accSize f = 0 ∧ 252 + accSize f ≤ (l.grid wMem).scrsize)
      ∧ (l.check wMem (memFields w 2 true ++ [(pDST, OpKind.dataGroup (groupRegs w), w.dst)]) = .ok () ∧ l.address wMem w 2 true = .ok 0
        ∧ l.storeBytes wMem w = .ok [0x44, 0x33, 0x22, 0x11] ∧ 0 + accSize w ≤ winSize (l.regs wMem) (l.grid wMem).dregs)
      ∧ (l.check wMem (memFields g 0 true ++ [(pDST, OpKind.dataGroup (groupRegs g), g.dst)]) = .ok () ∧ l.address wMem g 0 true = .ok 0x1040
        ∧ l.storeBytes wMem g = .ok [0x44, 0x33, 0x22, 0x11] ∧ 0x1040 % accSize g = 0
        ∧ ((l.reachAligned (wMem.latch l g) 0 0 0x1040 (accSize g) { store := true }).map (·.2)).toOption = some (.glob map1040))
      ∧ ((wM { tM with spec := true }).thr 0 0).spec = true ∧ (Target.glob map1040).block 0x1040 = some (0, 0x102, 0)
      ∧ ((wM { tM with spec := true }).core 0).held 0 (0, 0x102, 0) = none ∧ ((wM { tM with spec := true }).core 0).ssh.length < Config.sshEntries := by
  unfold Executes; decide +kernel
theorem test_st_spad : (next (exec (.st (fld (ty := .u32) (dst := .v 4) (sa := .v 3) (minor := 1))) wMem)).map
    (fun t => (List.range 4).map (fun i => (t.team 0).spadByte (252 + i))) = some [0x44, 0x33, 0x22, 0x11] := by decide +kernel
theorem test_st_global : (next (exec (.st (fld (ty := .u16) (dst := .v 4) (sa := .v 0))) wMem)).map
    (fun t => (List.range 3).map (fun i => (t.viewByte 0 0 (0x2040 + i), t.physByte 0 (0x2040 + i)))) = some [(0x44, 1), (0x33, 2), (3, 3)] := by decide +kernel
/-- Policy `byp` (MINOR 4): the bytes land at the home slice. -/
theorem test_st_byp : (next (exec (.st (fld (ty := .u16) (dst := .v 4) (sa := .v 0) (minor := 4))) wMem)).map (fun t => t.physByte 0 0x2040) = some 0x44 := by
  decide +kernel
theorem test_st_held : (next (exec (.st (fld (ty := .u16) (dst := .v 4) (sa := .v 0))) (wM { tM with spec := true }))).map
    (fun t => ((t.core 0).ssh.map (fun e => (e.block, e.mask)), t.physByte 0 0x2040)) = some ([(0x102, 3)], 1) := by decide +kernel

/-- R7, R134: bytes 52 to 63 of a distribution register ignore a store and read as zero (d0 starts at 256 with REGS 64). -/
theorem test_st_win_reserved : (next (exec (.st (fld (ty := .u32) (dst := .v 4) (sa := .v 0) (minor := 2))) (wM (th [(0, 308), (4, 0xFFFFFFFF)])))).map
    (fun t => (t.thr 0 0).readD 0) = some 0 := by decide +kernel
/-- R248: a line with an uncorrectable error is not kept: a store to it is performed at its slice. -/
theorem test_st_bad_line : (next (exec (.st (fld (ty := .u16) (dst := .v 4) (sa := .v 0))) { wMem with badWords := [0x811] })).map
    (fun t => (t.physByte 0 0x2040, (t.core 0).l1.length)) = some (0x44, 0) := by decide +kernel

theorem witness_AtomicValuesAndResults : let f := fld (ty := .u32) (dst := .v 8) (sa := .v 0) (sb := .v 6)
    let sp := fld (ty := .u32) (dst := .v 8) (sa := .v 3) (sb := .v 6) (minor := 8)
    let cas := fld (ty := .u32) (dst := .v 8) (sa := .v 0) (sb := .v 4)
    let l := pass.lane 0 0
    wMem.fullFlag g7 false = none ∧ setFlag pass.hdr false = some 0 ∧ (0xFFFFFFFF : Nat) < 2 ^ Ty.u32.width
      ∧ (l.check wMem ([(pSA, OpKind.reg true, f.sa), (pSB, OpKind.src false, f.sb)] ++ unlessImm f (pSC, OpKind.srcOpt false, f.sc)
          ++ [(pDST, OpKind.load false, f.dst)]) = .ok () ∧ l.address wMem f 0 false = .ok 0x1040 ∧ l.readDatum wMem pSB f.sb f.ty = .ok 1)
      ∧ (l.check wMem ([(pSA, OpKind.src false, sp.sa), (pSB, OpKind.src false, sp.sb)] ++ unlessImm sp (pSC, OpKind.srcOpt false, sp.sc)
          ++ [(pDST, OpKind.load false, sp.dst)]) = .ok () ∧ l.address wMem sp 1 false = .ok 252 ∧ 252 + elemBytes sp.ty ≤ (l.grid wMem).scrsize)
      ∧ (l.check wMem ([(pSA, OpKind.reg true, cas.sa), (pSB, OpKind.regGroup 2, cas.sb)] ++ unlessImm cas (pSC, OpKind.srcOpt false, cas.sc)
          ++ [(pDST, OpKind.load false, cas.dst)]) = .ok () ∧ casData cas wMem l = .ok (0x11223344, 0xFFFF))
      ∧ ((l.reachAligned (wMem.latch l f) 0 0 0x1040 4 { load := true, store := true }).map (·.2)).toOption = some (.glob map1040)
      ∧ wMem.physBad 0x2040 64 = false ∧ ({ wMem with badWords := [0x810] } : State).physBad 0x2040 64 = true := by decide +kernel
theorem test_atom_add : (next (exec (.atom (fld (ty := .u32) (dst := .v 8) (sa := .v 0) (sb := .v 6))) wMem)).map
    (fun t => ((t.core 0).pending.flatMap (·.words), (List.range 4).map (fun i => t.physByte 0 (0x2040 + i)))) = some ([(8, 0x04030201, false)], [2, 2, 3, 4]) := by
  decide +kernel
theorem test_atomcas_fails : (next (exec (.atomcas (fld (ty := .u32) (dst := .v 8) (sa := .v 0) (sb := .v 4))) wMem)).map (fun t => t.physByte 0 0x2040) = some 1 := by
  decide +kernel
theorem test_red_spad : (next (exec (.red (fld (ty := .u32) (sa := .v 3) (sb := .v 6) (minor := 8))) wMem)).map (fun t => (t.team 0).spadByte 252) = some 0xAB := by
  decide +kernel

theorem witness_FencePrefetchAndRemoteAcquireResults : let f := fld (sa := .v 0)
    let r := fld (ty := .u32) (dst := .v 8) (sa := .v 0)
    let l := pass.lane 0 0
    (wMem.thr 0 0).spec = false ∧ l.check wMem (memFields f 0 true) = .ok () ∧ l.address wMem f 0 true = .ok 0x1040
      ∧ l.check wMem ([(pSA, OpKind.reg true, r.sa)] ++ unlessImm r (pSC, OpKind.srcOpt false, r.sc) ++ [(pDST, OpKind.load false, r.dst)]) = .ok ()
      ∧ l.address wMem r 0 false = .ok 0x1040 ∧ ((l.reachAligned (wMem.latch l r) 0 0 0x1040 4 { load := true }).map (·.2)).toOption = some (.glob map1040)
      ∧ wMem.fullFlag g7 false = none ∧ setFlag pass.hdr false = some 0
      ∧ (l.staleTerm wMem { f with sb := .t 0 }).isSome = true ∧ l.check wMem (memFields { f with sb := .t 0 } 0 true) = .ok () := by decide +kernel
/-- A store, then a release fence at device scope: the byte stands in memory. -/
theorem test_fence_releases : ((next (exec (.st (fld (ty := .u16) (dst := .v 4) (sa := .v 0))) wMem)).bind
    (fun t => next (exec (.fence (fld (md := 4) (slot := 3))) t))).map (fun t => t.physByte 0 0x2040) = some 0x44 := by decide +kernel
theorem test_racq : issued (exec (.racq (fld (ty := .u32) (dst := .v 8) (sa := .v 0))) wMem) = some [(8, 0x04030201, false)] := by decide +kernel

theorem witness_DistributionLoadAndStoreResults : let f := fld (dst := .v 1) (sa := .v 0)
    let sp := fld (dst := .v 1) (sa := .v 30) (minor := 1)
    let l := pass.lane 0 0
    f.dst = .v (BitVec.ofNat 8 1) ∧ l.checkD wMem (distFields f) = .ok () ∧ l.address wMem f 0 true = .ok 0x1040 ∧ 0x1040 % 64 = 0
      ∧ l.checkD wMem (distFields sp) = .ok () ∧ l.address wMem sp 1 true = .ok 0 ∧ 0 + 64 ≤ (l.grid wMem).scrsize ∧ (wMem.core 0).ssh = []
      ∧ ((distReach f (wMem.latch l f) l 0x1040 { load := true }).map (·.2)).toOption = some (.glob map1040, .glob { map1040 with pa := 0x2060 })
      ∧ ((distReach f (wMem.latch l f) l 0x1040 { store := true }).map (·.2)).toOption = some (.glob map1040, .glob { map1040 with pa := 0x2060 })
      ∧ Tbl.at (wMem.thr 0 0).dPoison 1 false = false ∧ (wMem.thr 0 0).relFence = false ∧ wMem.physBad 0x2040 64 = false := by decide +kernel
/-- R61: the channel is read once by an instruction. -/
theorem test_dld_channel_twice : (next (exec (.dld (fld (dst := .v 1) (sa := .q 0) (sb := .q 0) (minor := 1))) wMem)).map (fun t => (t.thr 0 0).fcode)
    = some 2 := by decide +kernel
theorem test_dld : (next (exec (.dld (fld (dst := .v 1) (sa := .v 0))) wMem)).map (fun t => (t.thr 0 0).readD 1) = some 0x0807060504030201 := by decide +kernel
theorem test_dst : (next (exec (.dst (fld (dst := .v 1) (sa := .v 30) (minor := 1))) { wMem with threads := [(0, { tM with d := [(1, 0x0201)] })] })).map
    (fun t => (List.range 3).map (fun i => (t.team 0).spadByte i)) = some [1, 2, 0] := by decide +kernel

/-! ## Tile units, system registers, beats and launches -/

def wU : State := { wM (th [(0, 0x1040), (1, 0), (2, 64), (12, 0), (13, 0), (14, 0), (15, 0), (16, 0), (17, 2), (18, 7), (19, 131071), (20, 0x10)]) with
  grids := [(0, { grid with scrsize := 65536 })] }
theorem wU_executes : Executes wU 0 0 pass g7 [0] := ⟨by decide +kernel, by decide +kernel, by decide⟩

/-- One element of one byte with strides of 0 is a layout, and so is the grid word 0; a stride of 1 byte of a 2-byte element, and a grid word
with bit 33 set, are not. -/
theorem witness_LayoutInstructionResults : (∀ k ∈ [0], k / 32 = 0) ∧ [0].head? = some 0 ∧ (wU.thr 0 0).spec = false
    ∧ ((pass.lane 0 0).readGroup wU pSA (.v 12) 0 4).toOption = some [0, 0, 0, 0] ∧ Ly.wordsOk false [0, 0, 0, 0] [1, 1, 1, 1] 1 = true
    ∧ Ly.wordsOk false [1, 0, 0, 0] [1, 1, 1, 1] 2 = false
    ∧ (pass.lane 0 0).readPair wU pSA (.v 12) = .ok 0
    ∧ (pass.lane 0 0).readPair wU pSA (.v 16) = .ok 0x200000000 ∧ ¬ (0x200000000 : DWord).toNat < 2 ^ 33 := by decide +kernel
theorem test_tlay : (next (exec (.tlay (fld (sa := .v 12)) ⟨0xF, 0, false, 3⟩) wU)).map (fun t => (t.team 0).lyOf 3) = some 0xF := by decide +kernel
theorem test_tlay_grid_refused : (next (exec (.tlayGrid (fld (sa := .v 16) (minor := 1)) ⟨1⟩) wU)).map (fun t => (t.thr 0 0).fcode) = some 2 := by decide +kernel

/-- `tcopy.g2s`, `tcopyx` and `ccoll` with a first slice; the open set is not full. -/
theorem witness_CopyInstructionResults : let k : CopyKind := .plain 0
    [0].Nodup ∧ wU.fullOpen g7 = none ∧ (wU.thr 0 0).spec = false ∧ k.srcGlobal = true ∧ k.dstGlobal = false
      ∧ (pass.lane 0 0).check wU [(pSA, OpKind.reg true, .v 0), (pSB, OpKind.src false, .v 2)] = .ok ()
      ∧ (pass.lane 0 0).readBase wU true pSA (.v 0) = .ok 0x1040 ∧ (pass.lane 0 0).readBase wU false pSB (.v 2) = .ok 64
      ∧ (pass.lane 0 0).readBase wU (CopyKind.sparse 0 false).auxGlobal pSC (.v 0) = .ok (if (CopyKind.sparse 0 false).auxGlobal then 0x1040 else 0x1040)
      ∧ ((Tbl.vals wU.copies).find? (fun y => y.team == 0 && y.chan == 0 && y.num == 0)) = none
      ∧ (wU.thr 0 0).tokenCount 1 + (wU.thr 0 0).openCount ≤ 63 := by decide +kernel
theorem test_tcopy_starts : (next (exec (.tcopy (fld (sa := .v 0) (sb := .v 2)) ⟨0, 1, false⟩) wU)).map
    (fun t => ((Tbl.vals t.copies).map (fun y => (y.id, y.slices)), (t.thr 0 0).copies)) = some ([(0, [(0, ⟨0x1040, 64, 0⟩)])], [(0, none)]) := by
  decide +kernel
/-- R292: a slice that differs from the first and joins a copy that waits is noted, and the copy is checked next. -/
theorem test_late_slice_differs : (next (exec (.tcopy (fld (sa := .v 0) (sb := .v 2)) ⟨0, 1, false⟩) { wU with
    copies := [(0, { (default : Copy) with kind := .plain 1, st := .queued })], agenda := [.hostWrite 0 []] })).map
    (fun t => ((Tbl.vals t.copies).map (·.mismatch), t.agenda)) = some ([true], [.event (.copyCheck 0), .hostWrite 0 []]) := by decide +kernel
theorem test_tseal : ((next (exec (.tcopy (fld (sa := .v 0) (sb := .v 2)) ⟨0, 1, false⟩) wU)).bind (fun t => next (exec (.tseal (fld (minor := 1))) t))).map
    (fun t => (t.thr 0 0).copies) = some [(0, some 1)] := by decide +kernel

/-- `mma` of FP32 tiles at scratchpad 0, its barrier object at 64; `mzero` that ends at the last accumulator; `bobj`; accumulator moves. -/
def mmaE : MmaExt := { msel := 0, nenc := 0, ksm1 := 0, slotB := 0, cbase := 0, aGlobal := false, bGlobal := false, pair := false, acc := false, had := false }
theorem witness_MatrixInstructionResults : let f := fld (sa := .v 12) (sb := .v 12) (sc := .v 2)
    let l := pass.lane 0 0
    (mmaChecks f mmaE wU l).toOption.isSome = true ∧ wU.fullFifo false = none
      ∧ l.check wU [(pSA, OpKind.src false, .v 19), (pSB, OpKind.src false, .inline 17)] = .ok () ∧ l.readWord wU pSA (.v 19) = .ok 131071
      ∧ l.readWord wU pSB (.inline 17) = .ok 1 ∧ (131071 : Word).toNat + (1 : Word).toNat ≤ Config.nAcc
      ∧ l.check wU [(pSA, OpKind.src false, .v 2)] = .ok () ∧ l.readWord wU pSA (.v 2) = .ok 64 ∧ (64 : Word).toNat + 32 ≤ (l.grid wU).scrsize
      ∧ setFlag pass.hdr false = some 0 ∧ wU.fullFlag g7 false = none
      ∧ l.check wU [(pSA, OpKind.src false, .v 2), (pDST, OpKind.load true, .v 20)] = .ok () ∧ (wU.core 0).fifo = []
      ∧ l.check wU [(pSA, OpKind.src false, .v 19), (pDST, OpKind.loadGroup 1, .v 20)] = .ok () ∧ 131071 + 1 ≤ Config.nAcc ∧ 131071 % 1 = 0
      ∧ l.check wU [(pSA, OpKind.src false, .v 19), (pSB, OpKind.loadGroup 1, .v 18)] = .ok () ∧ (l.readGroup wU pSB (.v 18) 0 1).toOption = some [7] := by
  decide +kernel
theorem test_mma_posts : (next (exec (.mma (fld (sa := .v 12) (sb := .v 12) (sc := .v 2)) mmaE) wU)).map (fun t => (t.core 0).fifo.map (fun e => (e.id, e.started)))
    = some [(0, false)] := by decide +kernel
theorem test_mzero_out_of_range : (next (exec (.mzero (fld (sa := .v 19) (sb := .v 17))) wU)).map (fun t => decide ((t.thr 0 0).fcode = 0)) = some false := by
  decide +kernel
theorem test_maccwr : (next (exec (.maccwr (fld (sa := .v 19) (sb := .v 18) (imm := some 0))) wU)).map (fun t => (t.core 0).accAt 131071) = some (7, false) := by
  decide +kernel
theorem test_maccrd : issued (exec (.maccrd (fld (sa := .v 12) (dst := .v 20) (imm := some 0))) wU) = some [(20, 0, false)] := by decide +kernel
theorem test_bobj : (next (exec (.bobj (fld (sa := .v 2) (imm := some 0x0102))) wU)).map (fun t => ((t.team 0).spadByte 74, (t.team 0).spadByte 75)) = some (2, 1) := by
  decide +kernel
theorem test_bobj_zero : (next (exec (.bobj (fld (sa := .v 2) (imm := some 0))) wU)).map (fun t => (t.thr 0 0).fcode) = some 1 := by decide +kernel
theorem test_bstat : issued (exec (.bstat (fld (sa := .v 2) (dst := .v 20))) wU) = some [(20, 0, false), (21, 0, false)] := by decide +kernel

/-- %fpst, the long register 0x005, and WDLIMIT (0x081), which needs supervisor privilege. -/
def wSup : State := wM { th [(0, 0x1040), (1, 0), (2, 0xFFFFFFFF)] with priv := true }
theorem witness_SystemRegisterReadsWritesAndClamps :
    let fp := fld (ty := .u32) (dst := .v 4)
    let lg := fld (ty := .u64) (dst := .v 4) (slot := 1) (md := 2)
    let wd := fld (ty := .u64) (sa := .v 0) (minor := 4) (md := 2)
    fp.sysNum = 0 ∧ sysInfo 0 = some ⟨false, true, false, false, false⟩ ∧ (pass.lane 0 0).check wSup [(pDST, OpKind.dst false, fp.dst)] = .ok ()
      ∧ lg.sysNum = 5 ∧ sysInfo 5 = some ⟨true, false, false, false, true⟩ ∧ (pass.lane 0 0).check wSup [(pDST, OpKind.load true, lg.dst)] = .ok ()
      ∧ setFlag pass.hdr false = some 0 ∧ wSup.fullFlag g7 false = none
      ∧ wd.sysNum = 0x081 ∧ sysInfo 0x081 = some ⟨true, true, true, true, false⟩ ∧ (pass.lane 0 0).check wSup [(pSA, OpKind.src true, wd.sa)] = .ok ()
      ∧ (pass.lane 0 0).readInt wSup pSA wd.sa wd.ty = .ok 0x1040 ∧ (wSup.thr 0 0).priv = true ∧ (wMem.thr 0 0).priv = false
      ∧ ((wSup.latch (pass.lane 0 0) wd).writeLoop 0 7 (BitVec.ofNat 32 0)).isSome = true := by decide +kernel
theorem test_sysr_user_fault : (next (exec (.sysr (fld (ty := .u64) (dst := .v 4) (minor := 4) (md := 2))) wMem)).map (fun t => ((t.thr 0 0).fcode,
    (t.thr 0 0).frame.extractLsb' 64 32)) = some (4, 0x081 + 2048) := by decide +kernel
theorem test_sysw_wdlimit : (next (exec (.sysw (fld (ty := .u64) (sa := .v 0) (minor := 4) (md := 2))) wSup)).map (fun t => (t.ctx 0).wdlimit) = some 0x1040 := by
  decide +kernel
/-- R327: RAMP and BUDGET of the value 0xFFFFFFFF. -/
theorem test_pgbudget : (next (exec (.pgbudgetWrite (fld (ty := .u32) (sa := .v 2) (minor := 8))) wSup)).map (fun t => ((t.die 0).budget, (t.die 0).ramp))
    = some (255, 64) := by decide +kernel
theorem test_tlbinv : (next (exec (.tlbinv (fld (ty := .u64) (sa := .inline 17) (minor := 4))) wSup)).map (fun t => (t.core 0).tlb) = some [] := by decide +kernel
theorem test_mset_write : (next (exec (.msetWrite (fld (ty := .u64) (sa := .inline 17) (minor := 3))) wSup)).map (fun t => Mset.valid ((t.ctx 0).msetOf 0)) = some true := by
  decide +kernel
/-- R221: a write of 0 to LOOP7 is accepted. -/
theorem test_loop_write : (next (exec (.loopWrite (fld (ty := .u32) (sa := .v 1) (minor := 2) (slot := 5) (md := 6))) wSup)).map
    (fun t => (t.thr 0 0).fcode) = some 0 := by decide +kernel

/-- Beats at the edges 1 and 255, and 0 and 256 outside; a launch of a packet image at 0x1040 into queue 3. -/
def wL : State := { wM (th [(0, 0x1040), (1, 0), (2, 3), (3, 255), (4, 256)]) with
  mem := [(0x2040, 2)], queues := [(3, { ring := 0x1800, qctl := BitVec.ofNat 32 (4 + 2 ^ 20 + 2 ^ 21) })] }
theorem witness_BeatAndLaunchResults : let f := fld (ty := .u32) (dst := .v 8) (sa := .v 0) (sb := .v 2)
    let l := pass.lane 0 0
    let q := Tbl.at wL.queues 3 {}
    l.check wL [(pSA, OpKind.src false, .v 3)] = .ok () ∧ l.readWord wL pSA (.v 3) = .ok 255 ∧ l.readWord wL pSA (.v 4) = .ok 256
      ∧ l.readWord wL pSA (.inline 16) = .ok 0 ∧ (wL.thr 0 0).spec = false ∧ wL.fullFlag g7 false = none ∧ setFlag pass.hdr false = some 0 ∧ f.minor = 0
      ∧ l.check wL [(pSA, OpKind.reg true, f.sa), (pSB, OpKind.src false, f.sb), (pDST, OpKind.load false, f.dst)] = .ok ()
      ∧ (l.readPair wL pSA f.sa).map (·.toNat) = .ok 0x1040 ∧ l.readWord wL pSB f.sb = .ok 3
      ∧ ((distReach f (wL.latch l f) l 0x1040 { load := true }).map (·.2)).toOption = some (.glob map1040, .glob { map1040 with pa := 0x2060 })
      ∧ (wL.core 0).ssh = [] ∧ (∀ i < 64, (wL.seen 0 0 (0x2040 + i) false).2 = false)
      ∧ (q.en = true ∧ q.devq = true ∧ 4 ≤ q.log2n ∧ q.log2n ≤ 16 ∧ queueCtx q = 0 ∧ q.count ≠ 2 ^ q.log2n)
      ∧ ({ q with wridx := 16 } : Queue).count = 2 ^ q.log2n := by decide +kernel
theorem test_beat_255 : (next (exec (.beat (fld (sa := .v 3))) wL)).map (fun t => (t.core 0).beatAcc) = some 255 := by decide +kernel
theorem test_beat_256_faults : (next (exec (.beat (fld (sa := .v 4))) wL)).map (fun t => ((t.core 0).beatAcc, (t.thr 0 0).fcode)) = some (0, 2) := by decide +kernel
theorem test_launch : (next (exec (.launch (fld (ty := .u32) (dst := .v 8) (sa := .v 0) (sb := .v 2))) wL)).map
    (fun t => ((Tbl.at t.queues 3 {}).wridx, (t.core 0).pending.flatMap (·.words))) = some (1, [(8, 0, false)]) := by decide +kernel

/-! ## Decoding, memory and the step -/

/-- The worked word of R64, its bytes in little-endian order; and `qfetch a0, a1, a2` of R364. -/
theorem witness_DecodeOfEncode :
    let i : Instr := .iadd (fld (ty := .s32) (dst := .v 1) (sa := .v 0) (sb := .inline 21))
    i.wf = true ∧ encode i = some [0x00, 0xC0, 0x05, 0x00, 0x50, 0xF9, 0x3F, 0x50] ∧ encodeAmz i = none
      ∧ (Instr.amzQfetch 10 11 12).wf = true ∧ encode (.amzQfetch 10 11 12) = some [0x0B, 0x85, 0xC5, 0x00]
      ∧ encodeAmz (.amzQfetch 10 11 12) = some 0x00C5850B := by decide +kernel
/-- LEN 0 and LEN 1 words, a word of LEN 3, and the first and last reserved MAJOR of R63. -/
theorem witness_DecodedWordsAreWellFormed :
    (decodeRaw ⟨0x503FF9500005C000, 0⟩).toOption.isSome = true ∧ (decodeRaw ⟨0x403FFFFFF809C071, 0x12345678⟩).toOption.isSome = true
      ∧ (⟨0x403FFFFFF809C071, 0x12345678⟩ : Raw).len = 1 ∧ (⟨3, 0⟩ : Raw).len = 3
      ∧ (⟨0x1E * 4, 0⟩ : Raw).len = 0 ∧ (⟨0x1E * 4, 0⟩ : Raw).major = 0x1E ∧ (⟨0xFF * 4, 0⟩ : Raw).major = 0xFF := by decide +kernel
theorem test_reserved_major : decodeRaw ⟨0xD8 * 4 + 7 * 2 ^ 14, 0⟩ = .ok (.unassignedOpcode g7 0xD8) := by decide +kernel
theorem test_header_in_body : decodeRaw ⟨3, 0⟩ = .error .headerInBody := by decide +kernel

/-- A store changes a listed byte to what an unlisted one reads as: its entry goes. -/
theorem witness_MemoryStaysCanonical : Memory.wf wMem.mem = true ∧ (step { wMem with agenda := [.hostWrite 0x2041 [0]] }) =
    .next ({ wMem with agenda := [] }.input (.hostWrite 0x2041 [0])) := ⟨by decide +kernel, rfl⟩
theorem test_write_of_unwritten_byte : (next (step { wMem with agenda := [.hostWrite 0x2041 [0]] })).map (fun t => t.mem.map (·.1)) =
    some [0x2040, 0x2042, 0x2043, 0x2044, 0x2045, 0x2046, 0x2047] := by decide +kernel

/-- R249: offset 0x123440 of die 2 is chunk 0x1234, of rotation 52 and round 24. -/
theorem test_place_in_hbm : hbmStack 0x8000123440 = 7 ∧ hbmChannel 0x8000123440 = 17 ∧ hbmByte 0x8000123440 = 0x1840 := by decide +kernel
/-- The example of AES-256 in its standard: key 00 to 1F, block 00 11 to FF. -/
theorem test_aes_256 : Cipher.encryptBlock (Cipher.roundKeys (List.range 32)) ((List.range 16).map (17 * ·))
    = [0x8E, 0xA2, 0xB7, 0xCA, 0x51, 0x67, 0x45, 0xBF, 0xEA, 0xFC, 0x49, 0x90, 0x4B, 0x49, 0x60, 0x89] := by decide +kernel

/-- The pass's `nop` runs; hart 0 at pc 0 runs `qfetch`, and stops for neither a halt nor an interrupt; an event runs; page 1 is fetched from. -/
def wHart : State := { State.reset with turn := .hart 0, fwRuns := true, mem := [(0, 0x0B), (1, 0x85), (2, 0xC5)] }
def wCode : State := { wMem with mem := [(0x2001, 0xC0), (0x2002, 0x05), (0x2004, 0x50), (0x2005, 0xF9), (0x2006, 0x3F), (0x2007, 0x50),
  (0x2008, 0x71), (0x2009, 0xC0), (0x200A, 0x09), (0x200B, 0xF8), (0x200C, 0xFF), (0x200D, 0xFF), (0x200E, 0x3F), (0x200F, 0x40), (0x2010, 0x78)] }
theorem witness_StepRunsTheDecodedInstruction :
    (w1.agenda = [] ∧ w1.turn = .pipe 0 0 ∧ Tbl.look (w1.core 0).pipes 0 = some pass ∧ pass.body[pass.idx]? = some ⟨0x003FFFFFFFFDC358, 0⟩
      ∧ bodyBreach pass pass.idx = false ∧ decodeRaw ⟨0x003FFFFFFFFDC358, 0⟩ = .ok (.nop fld)
      ∧ pass.stalled = false ∧ (w1.comesFirst 0 pass).isNone = true)
    ∧ (wHart.agenda = [] ∧ (wHart.hart 0).halted = false ∧ wHart.fwRuns = true ∧ ¬ ((wHart.hart 0).irq = true ∧ (wHart.hart 0).mie = true)
      ∧ decodeAmz (BitVec.ofNat 32 (leNat (Memory.getBytes wHart.mem (wHart.hart 0).pc.toNat 4))) = .ok (.amzQfetch 10 11 12)) := by decide +kernel
theorem witness_StepFetches :
    ((wCode.translate 0 0 { fetch := true, user := true } 0x1000).map (·.2)).toOption = some ⟨0x2000, 0, 0xF, 0xF, 12, 12⟩
    ∧ ((wCode.fetchBytes 0 0 true 0x1000 8).map (·.2)).toOption = some [0x00, 0xC0, 0x05, 0x00, 0x50, 0xF9, 0x3F, 0x50]
    ∧ (rawOfBytes [0x00, 0xC0, 0x05, 0x00, 0x50, 0xF9, 0x3F, 0x50]).toOption = some (⟨0x503FF9500005C000, 0⟩, [])
    ∧ 0x1008 % 32 ≠ 24 ∧ ((wCode.fetchBytes 0 0 true 0x1008 8).map (·.2)).toOption = some [0x71, 0xC0, 0x09, 0xF8, 0xFF, 0xFF, 0x3F, 0x40]
    ∧ ((wCode.fetchBytes 0 0 true 0x1010 8).map (·.2)).toOption = some [0x78, 0, 0, 0, 0, 0, 0, 0]
    ∧ ((rawOfBytes [0x71, 0xC0, 0x09, 0xF8, 0xFF, 0xFF, 0x3F, 0x40, 0x78, 0, 0, 0, 0, 0, 0, 0]).map (fun r => (r.1.len, r.2))).toOption
        = some (1, []) := by decide +kernel
theorem test_fetch_body : ((wCode.fetchBody 0 0 true 0x1000 2).map (fun q => q.2.map (·.base))).toOption =
    some [0x503FF9500005C000, 0x403FFFFFF809C071] := by decide +kernel
theorem test_placed_word_runs : (next (step (State.reset.withFetchWord 64 0x003FFFFFFFFDC358))).map
    (fun t => ((Tbl.look (t.core 0).pipes 0).map (·.idx))) = some (some 1) := by decide +kernel

/-! ## Events of a core and the forming of passes -/

/-- A pending load of two words; a due record and a parked one in the bin; an entry of keys 0x101F and 0x501F in the table; an idle core. -/
def pend : Pending := { id := 7, slot := 0, flag := 0, words := [(8, 5, false), (9, 6, false)] }
def wCore : State := { world { th with place := .entry, flags := [(0, 1)] } with
  cores := [(0, { ctx := some 0, pending := [pend], idle := 4096, wvt := [⟨0x101F, 0, 0, 0, false, [0]⟩]
                  bin := [⟨0x501F, 0, 0, 1⟩, ⟨0x901F, 5, 1, 2⟩] })]
  l2 := [(129, { key := 0, way := 0, use := 0, owner := none, pins := 0, bad := true })]
  threads := [(0, { th with place := .entry, flags := [(0, 1)] }), (1, { th with place := .bin }), (2, { th with place := .bin, park := 5 }),
    (33, { th with place := .out, exited := true })]
  gangs := [(0, { team := 0, num := 0 }), (1, { team := 0, num := 1 })] }
/-- The same with slot 0 stopped at its 64th run-ahead clause, so that no entry is eligible. -/
def wIdle : State := { wCore with threads := [(0, { th with place := .entry, spec := true, ncl := 64 }), (1, { th with place := .bin }),
  (2, { th with place := .bin, park := 5 })] }
/-- Two partitions whose stage 2 maps the first GiB read-only, so that a line of it is shared. -/
def wShared : State := { wCore with
  mem := [(0, 1), (1, 0x10), (0x1000, 0x27)]
  parts := [(0, { built := true, ncores := 2 }), (1, { built := true, ncores := 2 })] }
theorem witness_CoreEventResults :
    ((wCore.core 0).pending.find? (fun y => y.id == 7) = some pend ∧ pend.late = none ∧ pend.words[1]? = some (9, 6, false) ∧ (wCore.gang 0 0).spec = none)
    ∧ ((wCore.core 0).bin.find? (fun y => y.slot == 2) = some ⟨0x901F, 5, 1, 2⟩ ∧ (wCore.core 0).step ≤ 15)
    ∧ (wIdle.coreBusy 0 = false ∧ (∃ r ∈ (wIdle.core 0).bin, r.park = 0) ∧ 4096 ≤ (wIdle.core 0).idle
      ∧ (∀ y ∈ (wIdle.core 0).wvt, y ≠ ⟨0x101F, 0, 0, 0, false, [0]⟩ → y.pos.toNat < 0x101F))
    ∧ (Tbl.look (w1.core 0).pipes 0 = some pass ∧ w1.time < pass.since + 4000000 ∧ pass.since + 4000000 ≤ ({ w1 with time := 4000000 } : State).time
      ∧ w1.refreshes 0 0 = true ∧ (w1.core 0).pipes.isEmpty = false ∧ wCore.refreshes 0 (64 * 1024) = false)
    ∧ (∃ th, Tbl.look wCore.threads (threadKey 0 33) = some th ∧ th.exited = true ∧ th.flags = [])
    ∧ ((wM th).core 0).ctx = some 0 ∧ (Tbl.look wShared.l2 129).map (·.bad) = some true ∧ wShared.sharedAt 0 0 (64 * 129) = true
      ∧ wCore.sharedAt 0 0 (64 * 129) = false ∧ wShared.physBad (64 * 129) 64 = false ∧ ({ wShared with badWords := [2064] } : State).physBad (64 * 129) 64 = true := by
  refine ⟨by decide +kernel, by decide +kernel, by decide +kernel, by decide +kernel, ⟨_, rfl, ?_, ?_⟩, by decide +kernel, by decide +kernel⟩ <;> decide +kernel
theorem test_completion_of_a_word : (next (exec (.longLatencyComplete 0 0 7 1) wCore)).map
    (fun t => ((t.thr 0 0).readV 64 9, (t.thr 0 0).flag 0, (t.core 0).pending.flatMap (·.words))) = some (6, 1, [(8, 5, false)]) := by decide +kernel
theorem test_park_due : (next (exec (.parkDue 0 2) wCore)).map (fun t => ((t.core 0).bin, (t.core 0).wvt.map (·.pos), t.time)) = some ([], [0x101F, 0x501F, 0x901F], 5000) := by decide +kernel
theorem test_spill : (next (exec (.spill 0) wIdle)).map (fun t => ((t.core 0).wvt.any (fun e => e.pos == 0x501F), (t.core 0).idle)) = some (true, 0) := by
  decide +kernel
theorem test_thread_free_frees_gang : (next (exec (.threadFree 0 33) wCore)).map (fun t => (Tbl.keys t.threads, Tbl.keys t.gangs)) = some ([0, 1, 2], [0]) := by
  decide +kernel
theorem test_l2_refetch : (next (exec (.l2Refetch 129) wShared)).map (fun t => t.l2.map (fun e => (e.1, e.2.bad))) = some [(129, false)] := by decide +kernel

/-! ## Page tables that map the first GiB to itself, a queue in it, and its context's partition -/

def wFront (pkt : List Host.Cell) : State := { State.reset with
  mem := [(0, 1), (1, 0x10), (0x1000, 0x3F)] ++ pkt
  parts := [(0, { built := true, ncores := 2, rmt := [(0, 0x8000), (1, 0x8001)] })]
  queues := [(3, { ring := 0x4000, qctl := BitVec.ofNat 32 (4 + 2 ^ 20), wridx := 1 })]
  hwSlots := [(0, 3)] }

/-- One eligible thread with its clause in memory: the header at 0x2000 with a body of one `nop`. -/
def wForm : State := { wFront ((List.range 8).map (fun i => (0x2000 + i, (leBytes 8 (BitVec.toNat hdr)).getD i 0))
    ++ [(0x2008, 0x58), (0x2009, 0xC3), (0x200A, 0xFD), (0x200B, 0xFF), (0x200C, 0xFF), (0x200D, 0xFF), (0x200E, 0x3F)]) with
  cores := [(0, { ctx := some 0, wvt := [⟨0x201F, 0, 0, 0, false, [0]⟩, ⟨0x301F, 9, 0, 1, false, []⟩] })]
  threads := [(0, { th with place := .entry, pos := 0x201F })]
  gangs := [(0, { team := 0, num := 0 })]
  teams := [(0, { grid := 0, num := 0, lcore := 0, core := 0, footprint := 0 })]
  grids := [(0, grid)] }
theorem witness_PassFormingResults : wForm.freePipe 0 = some 0 ∧ w1.freePipe 0 = some 1
    ∧ (({ wForm with lastCore := 0 } : State).sweepOrphans 0).choose 0 = some (⟨0x201F, 0, 0, 0, false, [0]⟩, [0])
    ∧ wForm.choose 0 = some (⟨0x201F, 0, 0, 0, false, [0]⟩, [0])
    ∧ (wForm.eligible 0 ⟨0x201F, 0, 0, 0, false, [0]⟩).filter (fun j => j / 32 == 0) = [0] ∧ wForm.threadReady 0 0 hdr = true
    ∧ (wForm.takeIn 0 0 0x201F (gangsOf [0]) none).2.isSome = true
    ∧ (w1.choose 0).isNone = true := by decide +kernel
theorem witness_AdmitOfAGang : (match wForm.entryOf 0 0 with
    | (u, .enter f) => (u.reserve 0 0 0x201F f).isSome
    | _ => false) = true
    ∧ (match { wForm with mem := [(0, 1), (1, 0x10), (0x1000, 0x3F)] }.entryOf 0 0 with
      | (_, .fault i _) => decide (i.code ≠ 0)
      | _ => false) = true := by decide +kernel
theorem test_pass_forms : (next (exec (.passForm 0 0) wForm)).map (fun t => ((Tbl.look (t.core 0).pipes 0).map (fun y => (y.clause, y.hdr == hdr, y.slots)),
    (t.core 0).wvt.map (·.pos))) = some (some (0x2000, true, [0]), []) := by decide +kernel

/-! ## Packets, launches, teams -/

/-- A packet image at 0x4000 from (offset, byte) pairs. -/
def pkt (l : List (Nat × Byte)) : List Host.Cell := l.map (fun e => (0x4000 + e.1, e.2))
def pWait : State := wFront (pkt [(0, 2), (9, 0x80), (16, 5)])
def pWrite : State := wFront (pkt [(0, 3), (9, 0x80), (16, 5)])
def pAnd : State := wFront (pkt [(0, 4), (9, 0x80)] ++ [(0x8000, 1)])
/-- A loop-config packet: GS 4 to 8, NC 2, WY 1 to 2, HB 1 to 2, CK 15 to 0; further bytes as listed. -/
def loopPkt (l : List (Nat × Byte)) : State :=
  wFront (pkt ((0, 5) :: ((List.range 8).map (fun i => (8 + i, (leBytes 8 0x101004021041010f).getD i 0))).filter (fun e => e.2 != 0) ++ l))
def pLoop : State := loopPkt [(35, 5), (38, 1)]
def pktOf (s : State) : List Byte := (s.headPacket 3).toOption.getD []
theorem witness_PacketResults : (∀ s ∈ [pWait, pWrite, pAnd, pLoop], s.nextQueue = some (0, 3) ∧ (s.headPacket 3).toOption.isSome = true)
    ∧ [pWait, pWrite, pAnd, pLoop].map (fun s => packetType (pktOf s)) = [2, 3, 4, 5]
    ∧ field (pktOf pWait) 24 1 = 0 ∧ zeros ((pktOf pWait).drop 25) = true ∧ pWait.signalOk 0 false (field64 (pktOf pWait) 8) = true
    ∧ pWrite.signalOk 0 true (field64 (pktOf pWrite) 8) = true ∧ pWrite.readSignal 0 0x8000 = some 0
    ∧ ((pWrite.unitWrite 0 (feNeed true) 0x8000 (leBytes 8 5)).toOption.isSome = true)
    ∧ zeros ((pktOf pAnd).drop 48) = true
    ∧ (wFront (pkt [(0, 6)])).headPacket 3 = .error 1 ∧ (wFront (pkt [(0, 6)])).nextQueue = some (0, 3)
    ∧ 3 < field (pktOf (wFront (pkt [(0, 2), (24, 4)]))) 24 1 ∧ (wFront []).signalOk 0 false 0x8001 = false := by decide +kernel
theorem witness_LoopConfigPackets :
    let sets := fun (s : State) =>
      let bs := pktOf s
      let ctrl : Word := BitVec.ofNat 32 (leNat ((bs.drop 32).take 4))
      let l := { (s.ctx 0).loop with
        limits := BitVec.ofNat 64 (leNat ((bs.drop 8).take 8)), ctrl := ((s.ctx 0).loop.ctrl &&& ~~~ctrlMask) ||| (ctrl &&& ctrlMask) }
      (leNat ((bs.drop 38).take 1), bitsOf ctrl.toNat 22 12, l.ranges 2, s.floorsFit 0 l)
    sets pLoop = (1, 0, true, true) ∧ sets (loopPkt [(33, 0x10), (35, 5)]) = (0, 1, true, true)
      ∧ (sets (wFront (pkt [(0, 5), (35, 5)]))).2.2.1 = false := by decide +kernel
theorem test_wait_signal_waits : (next (exec (.waitSignal 3) pWait)).map (fun t => ((t.queue 3).rdidx, t.begun.map (·.left))) = some (1, [[0x8000]]) := by
  decide +kernel
theorem test_write_signal : (next (exec (.writeSignal 3) pWrite)).map (fun t => Memory.getBytes t.mem 0x8000 2) = some [5, 0] := by decide +kernel
theorem test_barrier_and : (next (exec (.barrierAnd 3) pAnd)).map (fun t => t.begun.map (fun b => (b.ptype, b.left))) = some [(4, [0x8000])] := by decide +kernel
theorem test_loop_config_resets_the_integral : (next (exec (.loopConfig 3) pLoop)).map (fun t => ((t.queue 3).qstat, (t.ctx 0).loop.ctrl)) = some (0, 0x05000000) := by
  decide +kernel
theorem test_illegal_packet_stops : (next (exec (.launchPacket 3) (wFront (pkt [(0, 6)])))).map (fun t => ((t.queue 3).qstat, (t.queue 3).rdidx)) = some (1, 0) := by
  decide +kernel

/-- A launch packet and its record at 0x8100: one team of one thread, one consumer gang of 64 registers, the placement map at 0xA000. -/
def pLaunch : State := wFront (pkt [(0, 1), (8, 0), (9, 0x81)]
  ++ [(0x8102, 1), (0x810C, 1), (0x8110, 1), (0x8114, 1), (0x8118, 1), (0x8119, 1), (0x811A, 1), (0x811C, 0x40), (0x811F, 0x08), (0x8121, 1),
    (0x8131, 0xA0)]
  ++ (List.range 8).flatMap (fun i => [(0x8156 + 8 * i, 0x80), (0x8157 + 8 * i, 0x3F)]))
def gLaunch : Grid := { grid with code := 0x10000, tx := 1, place := [0], unplaced := [0], cregs := 64, dregs := 0, chans := 0 }
def wPut : State := { wFront [] with grids := [(0, gLaunch)], ids := 1 }
/-- A grid whose one team has no thread left, and one that has ended, with a signal at 0x8000. -/
def wEnd : State := { wFront [] with
  grids := [(0, { gLaunch with unplaced := [], live := [5] }), (1, { gLaunch with unplaced := [], live := [], signal := 0x8000 })]
  teams := [(5, { grid := 0, num := 0, lcore := 0, core := 0, footprint := 0 })] }
theorem witness_LaunchAndTeamEventResults : pLaunch.nextQueue = some (0, 3) ∧ (pLaunch.headPacket 3).toOption.isSome = true ∧ packetType (pktOf pLaunch) = 1
    ∧ (pWait.ctx 0).served = true
    ∧ (let t : State := { pWait with begun := [⟨3, 0, 2, 0, [0x8000], 0, 0⟩] }; ∃ b ∈ t.begun, b.queue = 3 ∧ b.waits = true)
    ∧ wPut.canPlace 0 0 = true ∧ (wPut.grid 0).coop = false ∧ wPut.homeOf (wPut.grid 0) 0 = some 0
    ∧ (Tbl.look wEnd.teams 5).isSome = true ∧ wEnd.teamThreads 5 = [] ∧ wEnd.teamQuiet 5 = true ∧ wEnd.gridDone 1 = true
    ∧ wEnd.readSignal 0 0x8000 = some 0 ∧ (wEnd.unitWrite 0 (feNeed true) 0x8000 (leBytes 8 (wrap (0 - 1) 64))).toOption.isSome = true := by decide +kernel
theorem witness_LaunchAccepted : (pLaunch.acceptLaunch 3 0 (pktOf pLaunch)).toOption.isSome = true := by decide +kernel
theorem witness_LaunchRefused : (match pLaunch.acceptLaunch 3 0 ((pktOf pLaunch).set 24 1) with
    | .error e => e
    | .ok _ => 0) = 1 := by decide +kernel
theorem test_launch_packet : (next (exec (.launchPacket 3) pLaunch)).map (fun t => (t.grids.map (fun e => (e.1, e.2.unplaced, e.2.cregs)), (t.queue 3).rdidx))
    = some ([(0, [0], 64)], 1) := by decide +kernel
theorem test_team_place : (next (exec (.teamPlace 0 0) wPut)).map (fun t => (t.threads.map (fun e => (e.1, e.2.pos, e.2.place)), t.teams.map (·.1), (t.core 0).ctx))
    = some ([(0, 0x1001F, .entry)], [1], some 0) := by decide +kernel
theorem test_team_end : (next (exec (.teamEnd 5) wEnd)).map (fun t => (t.teams.map (·.1), t.gridDone 0)) = some ([], true) := by decide +kernel
/-- The completion signal counts down from 0 to −1. -/
theorem test_grid_complete : (next (exec (.gridComplete 1) wEnd)).map (fun t => (Tbl.keys t.grids, Memory.getBytes t.mem 0x8000 2)) = some ([0], [0xFF, 0xFF]) := by
  decide +kernel
theorem test_queue_resume : (next (exec (.queueResume 3) { wFront [] with queues := [(3, { qstat := 9 })] })).map (fun t => (t.queue 3).qstat) = some 0 := by
  decide +kernel

/-! ## The progress loop and the agreed votes -/

/-- GS 4 to 8, NC 2, WY 1 to 2, HB 1 to 2, CK 15 to 0; enabled, INTK 10; TARGET 10 beats. -/
def loopL : Loop := { limits := 0x101004021041010F, ctrl := 0x85000000, target := 2560, kp := 16, ki := 16, imax := 0x100000 }
def wLoop (held : Bool) (grp : Word := 0) : State := { State.reset with
  ctxs := [(0, { loop := { loopL with ctrl := loopL.ctrl ||| grp }, heldCore := held, beats := 7 })] }
theorem witness_LoopArithmeticAndBoundaryResults : loopL.ckFast ≤ loopL.ckSlow ∧ (2 ^ 23 - 1 < 2 ^ 23 ∧ 0 ≤ loopL.target.toInt ∧ loopL.imin.toInt ≤ loopL.imax.toInt)
    ∧ (let cs : List Claim := [⟨0, 0, 10, 2⟩, ⟨1, 3, 10, 2⟩]
      (cs.map (·.ctx)).Nodup ∧ (∀ c ∈ cs, c.f ≤ c.r ∧ c.cls < 4) ∧ (cs.map (·.f)).foldl (· + ·) 0 ≤ 12)
    ∧ (wLoop true).loopPass = none ∧ 1 % loopL.interval ≠ 0 ∧ 1024000 % loopL.interval = 0 ∧ loopL.en = true
    ∧ ((wLoop true).ctx 0).heldCore = true ∧ ((wLoop false).ctx 0).heldCore = false ∧ ((wLoop true).ctx 0).loop.bgrp = 0 ∧ ((wLoop true 5).ctx 0).loop.bgrp = 5
    ∧ (Tbl.keys (wLoop true).pendingSteps).Nodup
    ∧ (let s : State := { wLoop true with ctxs := [(0, { loop := loopL, merged := some 3 })] }; (s.ctx 0).merged = some 3 ∧ s.portsUp = 0) := by decide +kernel
/-- R222: the second rung raises HB once GS, NC and WY stand at their ceilings. -/
theorem test_ladder : loopL.ladder 0 = ⟨4, 2, 1, 1, 15⟩ ∧ loopL.ladder 3 = ⟨8, 2, 2, 2, 15⟩ ∧ loopL.ladder 18 = ⟨8, 2, 2, 2, 0⟩ := by decide +kernel
/-- R224: 9 beats miss the target by 1, 256 in units of 1/256: IVAL grows by 16 · 256 / 16 and U is 512. -/
theorem test_loop_step : let l := loopL.step 9
    l.meas = 2304 ∧ l.elast = 256 ∧ l.ival = 256 ∧ l.uval = 512 ∧ l.demand = 0 ∧ l.icount = 1 := by decide +kernel
/-- R228: class 3 is shed first, down to its floor. -/
theorem test_shed : shed [⟨0, 0, 10, 2⟩, ⟨1, 3, 10, 2⟩] 12 = [(0, 10), (1, 2)] := by decide +kernel
theorem test_boundary_sends_group_count : let s : State := { wLoop true 5 with portsUp := 2 }
    ((s.boundary 1024000 0).ctx 0).merged = some 7 ∧ (s.boundary 1024000 0).outbox.map (·.1) = [1] := by
  decide +kernel

def oSeq : OpenSeq := ⟨0, 0, 1, 1, false, 0⟩
def wTally (mj : BitVec 16) : State := { wVote with
  time := 1000000, gangs := [(0, { team := 0, num := 0, mj := mj })], ctxs := [(0, { wVote.ctx 0 with openSeqs := [oSeq] })] }
/-- One waiting lane of a `cbr` in the bin of no pass; a gang whose run-ahead is to be undone. -/
def wResolve : State := { wTally 1 with
  threads := [(0, { th with place := .vote })]
  gangs := [(0, { team := 0, num := 0, mj := 1, wait := 1, votes := [⟨0, 0, [0], 0x2000, 0x1020, 0x1000, 0, none⟩] })] }
def ahead : GangSpec := { reg := 0, seq := 0, dir := true, lanes := [0], target := 0x2000, ft := 0x1020, clause := 0x1000, idx := 0
                          snap := [(0, { th [(1, 77)] with place := .vote })], snapG := [(2, 5)], snapTw := 5, squash := some 0 }
def wSquash : State := { wTally 1 with
  threads := [(0, { th [(1, 99)] with place := .entry, spec := true })], gangs := [(0, { team := 0, num := 0, mj := 1, wait := 1, spec := some ahead })] }
theorem witness_VoteEventResults : (wTally 0).openTally 0 0 = some oSeq ∧ (wTally 0).lateMembers 0 0 0 = 0 ∧ (wTally 1).lateMembers 0 0 0 = 1
    ∧ (wTally 1).graceTally 0 0 = some oSeq ∧ 1000 * (oSeq.since + 1000 * Mset.grace ((wTally 1).ctx 0 |>.msetOf 0)) ≤ (wTally 1).time
    ∧ Mset.dgn (((wTally 1).ctx 0).msetOf 0) = 0 ∧ Mset.dpol (((wTally 1).ctx 0).msetOf 0) = false
    ∧ wResolve.ctxGangs 0 = [gangKey 0 0] ∧ (wResolve.gang 0 0).votes = [⟨0, 0, [0], 0x2000, 0x1020, 0x1000, 0, none⟩] ∧ (wResolve.gang 0 0).spec = none
    ∧ Mset.seq ((wResolve.ctx 0).msetOf 0) = 0 ∧ (wResolve.thr 0 0).place = .vote
    ∧ (wSquash.gang 0 0).spec = some ahead ∧ ahead.lanes.Nodup ∧ (wSquash.core 0).pending = [] := by decide +kernel
theorem test_tally_closes : (next (exec (.tallyClose 0 0) (wTally 0))).map (fun t => ((t.ctx 0).openSeqs.map (·.closed), t.agenda)) =
    some ([true], [.event (.sequenceResolution 0 0 ⟨1, 1, false, false, 0⟩)]) := by decide +kernel
/-- VOP 1 (all), T = V: taken; the lane goes to the target, SEQ advances, LRES is 1 and the history begins with 1. -/
theorem test_resolution_taken : (next (exec (.sequenceResolution 0 0 ⟨1, 1, false, false, 0⟩) wResolve)).map
    (fun t => ((t.thr 0 0).pos, Mset.seq ((t.ctx 0).msetOf 0), ((t.ctx 0).msetOf 0).getLsbD 11, ((t.ctx 0).moutOf 0).toNat % 16)) =
    some (0x201F, 1, true, 1) := by decide +kernel
theorem test_squash_restores : (next (exec (.specSquash 0 0) wSquash)).map (fun t => ((t.thr 0 0).readV 64 1, (t.thr 0 0).pos, (t.gang 0 0).g)) =
    some (77, 0x103F, [(2, 5)]) := by decide +kernel

/-! ## Halting, saving, moving and ending contexts -/

def tm0 : Team := { grid := 0, num := 0, lcore := 0, core := 0, footprint := 0 }
/-- A halting context with one calm team of one thread in the table, whose cluster chose row k; on a partition of two cores. -/
def wPre (run : RunSt) (chosen : Tbl Nat := []) : State := { wFront [] with
  cores := [(0, { ctx := some 0, wvt := [⟨0x101F, 0, 0, 0, false, [0]⟩] })]
  threads := [(0, { th [(1, 77)] with place := .entry })]
  gangs := [(0, { team := 0, num := 0 })]
  teams := [(0, tm0)]
  grids := [(0, { grid with live := [0], place := [0] }), (1, { grid with ctx := 1, unplaced := [0], place := [0] })]
  ctxs := [(0, { run := run, chosen := chosen, ncFull := [0] })] }
def savedG : Gang := { team := 0, num := 0 }
def savedE : SavedThread := ⟨0, 0, 0, true, { th [(1, 77)] with place := .out }⟩
def savedT : SavedTeam := { id := 0, team := tm0, gangs := [savedG], threads := [savedE], copies := [], fifo := [], late := false }
def wSaved : State := { wPre .saved with
  cores := [], threads := [], gangs := [], teams := [], grids := [(0, { grid with live := [0], place := [0] })], ctxs := [(0, { run := .saved, saved := [savedT] })] }
theorem witness_PreemptionEventResults : ((wPre .running).ctx 0).run = .running ∧ ((wPre .saved).ctx 0).run ≠ .running
    ∧ Tbl.look (w1.core 0).pipes 0 = some pass ∧ w1.halting 0 = false
    ∧ ({ w1 with cores := [(0, { w1.core 0 with halted := true })] } : State).halting 0 = true
    ∧ (let s : State := { w1 with time := 8000000, cores := [(0, { w1.core 0 with halted := true })] }; s.cutAt 0 ≤ s.time) ∧ pass.resv = [] ∧ pass.closing = []
    ∧ ((wPre .running).core 0).ctx = some 0 ∧ (wPre .running).expired 0 = false
    ∧ ({ wPre .running with cores := [(0, { ctx := some 0, wd := 0x10000000000 })] } : State).expired 0 = true
    ∧ ((wPre .halting).ctxTeams 0).filter (fun e => clusterOf e.2.core == 0) = [(0, tm0)]
    ∧ (wPre .halting).quiet [0] = true ∧ (wPre .halting).settled [0] = true ∧ (∀ k ∈ (wPre .halting).teamThreads 0, (Tbl.at (wPre .halting).threads k {}).exited = false)
    ∧ (wPre .halting).choice 0 ((List.range 8).map (8 * 0 + ·)) [(0, tm0)] = 2
    ∧ (∀ k ∈ [1, 2, 3, 4], Tbl.look ((wPre .halting [(0, k)]).ctx 0).chosen 0 = some k)
    ∧ 1000 * (((wPre .halting).ctx 0).preemptAt + 1000 * ((wPre .halting).ctx 0).deadline) ≤ ({ wPre .halting with time := 200000000 } : State).time
    ∧ 0 ∈ ((wPre .running).ctx 0).ncFull ∧ (wPre .running).wanted 0 0 = true
    ∧ ((wPre .running).teamsOn 0).filter (fun e => (wPre .running).teamCtx e.2 == 0) = [(0, tm0)] := by decide +kernel
theorem witness_RestoreKillAndMigration : (wSaved.ctx 0).run = .saved ∧ (Tbl.at wSaved.parts 0 {}).ncores ≠ 0 ∧ (wSaved.ctx 0).arriving = false
    ∧ (({ wSaved with ctxs := [(0, { run := .saved, arriving := true })] } : State).ctx 0).arriving = true
    ∧ (wSaved.ctx 0).saved = [savedT] ∧ (wSaved.grid 0).paired = false ∧ savedG.num < (wSaved.grid 0).gangs
    ∧ (wSaved.setCtx 0 ((wSaved.ctx 0).resumed 0)).canRestore 0 savedT = true
    ∧ (wSaved.setCtx 0 ((wSaved.ctx 0).resumed 0)).physCore 0 (wSaved.foldCore 0 0) = some 0
    ∧ ((wPre .stopped).ctx 0).run = .stopped ∧ (Tbl.keys (wPre .stopped).grids).Nodup
    ∧ 1 ≠ wSaved.devId.toNat ∧ ((wPre .running).ctx 0).migrate = none ∧ (wPre .running).ctxTeams 0 ≠ [] ∧ 0 = wSaved.devId.toNat := by decide +kernel
theorem test_preempt_request : (next (exec (.preemptRequest 0) (wPre .running))).map (fun t => (t.ctx 0).run) = some .halting := by decide +kernel
theorem test_pass_cut_keeps_temporaries : (next (exec (.passCut 0 0) { w1 with time := 8000000, cores := [(0, { w1.core 0 with halted := true })] })).map
    (fun t => ((t.thr 0 0).pos, (t.thr 0 0).place, (t.core 0).pipes)) = some (0x1000, .entry, []) := by decide +kernel
theorem test_watchdog_stops : (next (exec (.watchdogExpire 0) { wPre .running with cores := [(0, { ctx := some 0, wd := 0x10000000000 })] })).map
    (fun t => ((t.ctx 0).run, bitsOf (t.ctx 0).stop.toNat 3 0)) = some (.stopped, 3) := by decide +kernel
theorem test_save : (next (exec (.preemptChoose 0 0) (wPre .halting [(0, 2)]))).map (fun t => (t.teams, (t.ctx 0).saved.map (fun r => (r.id, r.threads.length)), (t.ctx 0).run))
    = some ([], [(0, 1)], .saved) := by decide +kernel
theorem test_discard : (next (exec (.preemptChoose 0 0) (wPre .halting [(0, 3)]))).map (fun t => ((t.ctx 0).saved.length, (t.grid 0).unplaced)) = some (0, [0]) := by
  decide +kernel
theorem test_restore : (next (exec (.restore 0 0) wSaved)).map (fun t => ((t.thr 0 0).readV 64 1, (t.thr 0 0).place, (t.ctx 0).run)) = some (77, .entry, .running) := by
  decide +kernel
theorem test_kill : (next (exec (.contextKill 0) (wPre .stopped))).map (fun t => (t.threads, Tbl.keys t.grids, (t.ctx 0).run)) = some ([], [1], .stopped) := by decide +kernel
theorem test_migrated : (next (exec (.liveMigrate 0 1 9) { wSaved with ctxs := [(0, { run := .saved })] })).map (fun t => ((t.ctx 0).run, (t.ctx 0).movedTo)) =
    some (.moved, some (1, 9)) := by decide +kernel

/-! ## Heat -/

def wHeat (spare : Word) : State := { wPre .running with dies := [(0, { sparepr := spare })] }
def wHot : State := { wHeat 2 with cores := [(0, { (wPre .running).core 0 with halted := true }), (1, { halted := true })] }
theorem witness_ThermalEventResults : 95 < 256 ∧ ((wHeat 0).core 0).halted = false ∧ (wHeat 2).sparePair 0 = some 1 ∧ (wHeat 0).sparePair 0 = none
    ∧ (wHot.core 0).halted = true ∧ wHot.quiet (([0, 1].flatMap wHot.teamsOn).map (·.1)) = true ∧ wHot.sparePair 0 = some 1
    ∧ (wHot.core 0).fifo = [] ∧ (Tbl.keys wHot.threads).Nodup ∧ (Tbl.keys wHot.gangs).Nodup
    ∧ ({ wHot with dies := [] } : State).sparePair 0 = none := by decide +kernel
theorem test_heat_slows : (next (exec (.tempSample 0 95) (wHeat 0))).map (fun t => ((t.core 0).hot, (t.core 1).hot, (t.core 0).step)) = some (true, true, 15) := by
  decide +kernel
theorem test_thermal_migration : (next (exec (.thermalMigrate 0) wHot)).map (fun t => (t.teams.map (·.2.core), Tbl.keys t.threads, (t.die 0).sparepr)) =
    some ([2], [threadKey 2 0], 1) := by decide +kernel

/-! ## Copies and matrix operations -/

/-- A copy of one byte, in a state, from 0x1040 to offset 64 of its team's scratchpad, held by thread 0. -/
def cp (st : CopySt) : Copy :=
  { id := 0, team := 0, chan := 0, num := 0, kind := .plain 0, policy := 0, lyS := 0, lyD := 0, lySn := 0, lyDn := 1, all := false
    producer := false, aux := 0, user := true, slices := [(0, ⟨0x1040, 64, 0⟩)], st := st, ready := some 0 }
/-- 4096 · 256 elements with strides of 0. -/
def big : BitVec 256 := 4095 + 2 ^ 12 * 255
def wCp (x : Copy) (q : List LeaveReq := []) : State := { wFront [(0x1040, 0xAB)] with
  cores := [(0, { ctx := some 0 })], dies := [(0, { queue := q })]
  threads := [(0, { th with place := .entry, copies := [(0, none)] })]
  gangs := [(0, { team := 0, num := 0 })]
  teams := [(0, { grid := 0, num := 0, lcore := 0, core := 0, footprint := 0 })]
  grids := [(0, { grid with scrsize := 65536 })]
  copies := [(0, x)] }
def gCp : Grid := (wCp (cp .queued)).grid 0
theorem witness_CopyEventResults : (wCp (cp .collecting)).copy 0 = some (cp .collecting) ∧ (∀ e ∈ (wCp (cp .collecting)).copies, e.2.id = e.1)
    ∧ (cp .collecting).kind.isColl = false ∧ (wCp (cp .collecting)).allArrived (cp .collecting) = true
    ∧ (wCp { cp .collecting with slices := [] }).allArrived { cp .collecting with slices := [] } = false
    ∧ (cp .collecting).breach gCp = none ∧ (cp .collecting).moved < 1048576
    ∧ ({ cp .collecting with lyS := big, lyD := big } : Copy).moved = 1048576
    ∧ (({ cp .collecting with slices := [(0, ⟨0x1040, 65536, 0⟩)] } : Copy).breach gCp).isSome = true
    ∧ (∀ y ∈ Tbl.vals (wCp (cp .queued)).copies, y.id ≠ 0 → y.st ≠ .delivering)
    ∧ (cp .delivering).nextUnit gCp = some 0
    ∧ ((wCp (cp .delivering)).writeUnit (cp .delivering) ((cp .delivering).unitElems gCp 0) ((wCp (cp .delivering)).copyValue (cp .delivering))).toOption.isSome = true
    ∧ (match (wCp { cp .delivering with slices := [(0, ⟨0x40001040, 64, 0⟩)] }).writeUnit { cp .delivering with slices := [(0, ⟨0x40001040, 64, 0⟩)] }
          ((cp .delivering).unitElems gCp 0) ((wCp { cp .delivering with slices := [(0, ⟨0x40001040, 64, 0⟩)] }).copyValue { cp .delivering with slices := [(0, ⟨0x40001040, 64, 0⟩)] }) with
        | .error e => e.wr
        | .ok _ => true) = false
    ∧ (({ cp .delivering with unit := 1 } : Copy).nextUnit gCp).isNone = true := by decide +kernel
/-- A copy of 2 to the 20 bytes of a gang whose threads have all ended, so that no slice is to come. -/
theorem witness_LargeCopyIsSound : ({ cp .collecting with lyS := big, lyD := big, slices := [] } : Copy).breach gCp = none
    ∧ ({ wCp (cp .collecting) with threads := [] } : State).allArrived { cp .collecting with lyS := big, lyD := big, slices := [] } = true := by decide +kernel
def ask : LeaveReq := ⟨0, true, 0, 1, 0, 0⟩
theorem witness_Leave : (∀ q ∈ ((wCp (cp .leave)).die 0).queue, q.id ≠ 0) ∧ (∀ r ∈ ((wCp (cp .leave) [ask]).die 0).queue, (wCp (cp .leave) [ask]).isSealed r.ctx = false)
    ∧ (wCp (cp .leave) [ask]).heldAE 0 (fun x => !(wCp (cp .leave) [ask]).isSealed x) + 1 ≤ (wCp (cp .leave) [ask]).openBudget 0
    ∧ (wCp (cp .leave) [ask]).window 0 + 1 ≤ ((wCp (cp .leave) [ask]).die 0).ramp
    ∧ (let t : State := { wCp (cp .leave) with dies := [(0, { queue := [ask], permits := [(7, 80, 0)] })] }
      t.openBudget 0 < t.heldAE 0 (fun x => !t.isSealed x) + 1) := by decide +kernel
theorem test_copy_unit : (next (exec (.copyUnitWrite 0) (wCp (cp .delivering)))).map (fun t => ((t.team 0).spadByte 64, (t.copy 0).map (fun y => (y.unit, y.wp)))) =
    some (0xAB, some (1, 1)) := by decide +kernel
theorem test_copy_tells : (next (exec (.copyComplete 0) (wCp { cp .delivering with unit := 1 }))).map
    (fun t => ((t.thr 0 0).copies, Tbl.at (t.team 0).chseq 0 0, (t.copy 0).map (·.st))) = some ([], 1, some .completed) := by decide +kernel
theorem test_leave_granted : (next (exec (.leaveGrant 0) (wCp (cp .leave) [ask]))).map (fun t => ((t.die 0).permits, (t.die 0).recent, (t.copy 0).map (·.st))) =
    some ([(0, 1, 0)], [(0, 1)], some .queued) := by decide +kernel

/-- An `mma` of one row, one column and one k-step over global operands at 0x1000 and 0x2000, and an `mzero`, at a core's head. -/
def opG (a : DWord) : MmaOperand := ⟨a, 0, 0, true, 0x3F80000000000000⟩
def mmaOp : FifoOp := .mma 1 1 1 0 false false false true (opG 0x1000) (opG 0x2000) 64
def ent (op : FifoOp) : FifoEntry := { id := 3, team := 0, op := op }
def wMx (e : FifoEntry) : State := { wCp (cp .queued) with copies := [], cores := [(0, { ctx := some 0, fifo := [e], acc := [(0, 9), (1, 8)] })] }
def bigOp : FifoOp := .mma 128 128 64 0 false false false true (opG 0x1000) (opG 0x2000) 64
theorem witness_MatrixEventResults : ((wMx (ent mmaOp)).core 0).fifo = [ent mmaOp] ∧ (wMx (ent mmaOp)).headEvent 0 = some (.mmaStart 0) ∧ mmaOp.paired = false
    ∧ (wMx (ent bigOp)).copy 3 = none ∧ bigOp.large gCp = true ∧ bigOp.paired = false
    ∧ (wMx (ent bigOp)).cores.find? (fun k => (k.2.fifo.head?).any (fun h => h.id == 3 && !h.follower)) = some (0, (wMx (ent bigOp)).core 0)
    ∧ (let s := wMx { ent mmaOp with started := true }
      s.pendingLines 0 = [(0, 0x40), (0, 0x80)] ∧ (s.walk 0 { load := true, user := true } 0x1000).toOption = some ⟨0x1000, 0, 0xF, 0xF, 30, 30⟩
        ∧ s.setPinned 0x40 = false ∧ (Tbl.look (s.l2Touch 0 0 0 0x40).l2 0x40).isSome = true)
    ∧ (let line (p : Nat) : L2Line := { key := 0, way := 0, use := 0, owner := none, pins := p, bad := false }
      ({ wMx (ent mmaOp) with l2 := (List.range 4).map (fun i => (0x40 + 2 ^ 8 * i, line 1)) } : State).setPinned 0x40 = false
        ∧ ({ wMx (ent mmaOp) with l2 := (List.range 4).map (fun i => (0x40 + 2 ^ 18 * i, line 1)) } : State).setPinned 0x40 = true)
    ∧ (wMx { ent mmaOp with started := true, fetched := 2 }).pendingLines 0 = []
    ∧ (let op : FifoOp := .mma 1 1 1 0 false false false true (opG 0x40001000) (opG 0x2000) 64
      let s := wMx { ent op with started := true }
      (∃ q ∈ s.pendingLines 0, q.2 = 0x40001000 / 64) ∧ (match s.walk 0 { load := true, user := true } 0x40001000 with
        | .error _ => true
        | .ok _ => false) = true) := by decide +kernel
theorem test_mzero_clears : (next (exec (.mzeroComplete 0) (wMx (ent (.mzero 1 2))))).map (fun t => ((t.core 0).accAt 0, (t.core 0).accAt 1, (t.core 0).fifo.length)) =
    some ((9, false), (0, false), 0) := by decide +kernel
theorem test_mma_starts : (next (exec (.mmaStart 0) (wMx (ent mmaOp)))).map (fun t => (t.core 0).fifo.map (·.started)) = some [true] := by decide +kernel
theorem test_tfu_pins : (next (exec (.tfuFetch 0 0x1000) (wMx { ent mmaOp with started := true }))).map (fun t => (t.core 0).fifo.map (fun e => (e.fetched, e.pins))) = some [(1, [(0x40, 0x40)])] := by
  decide +kernel

/-! ## Messages and collectives -/

/-- A collective of two members of one group, this one being rank 0, on devices 0 and 1; its copy and a message to it. -/
def cc : Coll := { k := 1, rank := 0, size := 2, base := 0, group := [0, 1], algo := some 1, setups := [(1, 9)], unacked := [(1, 0, 0)] }
def xc (st : CopySt) (c : Coll) : Copy :=
  { id := 0, team := 0, chan := 0, num := 0, kind := .coll 1 0 .f32 0 0 0 0, policy := 0, lyS := 2 ^ 49, lyD := 2 ^ 49, lySn := 0, lyDn := 1
    all := false, producer := false, aux := 0x80, user := true, slices := [(0, ⟨0x1040, 0x1080, 0x80⟩)], st := st, coll := some c }
def wColl (st : CopySt) (c : Coll) : State := { wCp (cp st) with
  threads := [(0, { th with place := .entry, copies := [(0, none)] })]
  ctxs := [(0, { ranks := [(0, 0x80000000), (1, 0x80100000)] })], copies := [(0, xc st c)] }
def msg (kind : BitVec 8) (sdev : BitVec 9) (tag : Word) (data : List Byte := []) : Msg :=
  { kind := kind, sdev := sdev, ddev := 0, dctx := 0, chunk := 0, tag := tag, xtra := 0, data := data }
/-- The set-up that rank 1 of team 0 sends on channel 0, its numbers those of `c`. -/
def setupMsg (c : Coll) : Msg := msg 1 1 72 ((List.range 6).flatMap (fun i => leBytes 8 (if i = 5 then 1 else 0)) ++ ((xc .checking c).setupBody c).flatMap (leBytes 8))
def wGone : State := { wColl .checking cc with ctxs := [(0, { movedTo := some (1, 9) })] }
def cc3 : Coll := { cc with size := 3, setups := [] }
def wMsg : State := wColl .checking cc
def isXc (o : Option (Copy × Coll × Nat)) : Bool :=
  match o with
  | some (x, c, r) => x == xc .checking cc && c == cc && r == 1
  | none => false
theorem witness_FabricMessageResults : (wGone.ctx (msg 1 1 0).dctx.toNat).movedTo = some (1, 9) ∧ (wMsg.ctx 0).movedTo = none
    ∧ msgName (msg 2 1 72) ∉ wMsg.received ∧ wMsg.setups = [] ∧ (Tbl.vals wMsg.copies).find? (fun y => wMsg.namedBy y (setupMsg cc)) = some (xc .checking cc)
    ∧ isXc (wMsg.chunkOwner (msg 2 1 72) false) = true ∧ (72 : Word).toNat % 8 ≠ 1 ∧ (wMsg.landChunk (xc .checking cc) cc 1 0).isSome = true ∧ (wMsg.ctx 0).arriving = false
    ∧ (wMsg.chunkOwner (msg 2 1 80) false).isNone = true ∧ isXc (wMsg.chunkOwner (msg 3 1 0) true) = true
    ∧ (wMsg.chunkOwner (msg 3 1 8) true).isNone = true := by decide +kernel
theorem witness_SetupsThatAgree : (wColl .checking cc3).copy 0 = some (xc .checking cc3) ∧ ctlWord (setupMsg cc3) 0 = 0
    ∧ (setupMsg cc3).data.drop 48 = ((xc .checking cc3).setupBody cc3).flatMap (leBytes 8)
    ∧ (Tbl.put cc3.setups (ctlWord (setupMsg cc3) 5) 9).length + 1 < cc3.size
    ∧ (msg 1 1 72 (List.replicate 128 0)).data.drop 48 ≠ ((xc .checking cc3).setupBody cc3).flatMap (leBytes 8)
    ∧ ctlWord (msg 1 1 72 (List.replicate 128 0)) 0 = 0 := by decide +kernel
def wSent : State := { wMsg with outbox := [(0, { msg 2 0 7 with ddev := 1 })], peerDown := [(1, 0x7FFFFFFF)] }
/-- The redirect that names the segment of kind 2, chunk 0, part 0. -/
def turned : Msg := msg 4 1 7 ([2, 0, 0].flatMap (leBytes 8))
theorem witness_RedirectsAndPorts : (wSent.outbox.filter (fun o => o.2.ddev == turned.sdev && o.2.tag == turned.tag && o.2.kind.toNat == ctlWord turned 0
      && o.2.chunk.toNat == ctlWord turned 1 && o.2.xtra.toNat % 4 == ctlWord turned 2)).length = 1
    ∧ 31 < 32 ∧ (Tbl.at wSent.peerDown 1 0 ||| 0x80000000) = 0xFFFFFFFF := by decide +kernel
theorem test_moved_context_redirects : (next (exec (.setup (msg 1 1 72)) wGone)).map (fun t => t.outbox.map (fun o => (o.2.kind, o.2.ddev, o.2.xtra))) =
    some [(4, 1, 0x00090001)] := by decide +kernel
theorem test_setup_agrees : (next (exec (.setup (setupMsg cc3)) (wColl .checking cc3))).map (fun t => ((t.copy 0).bind (·.coll)).map (·.setups)) =
    some (some [(1, 9)]) := by decide +kernel
theorem test_acknowledged : (next (exec (.chunkAcknowledgement (msg 3 1 0)) (wColl .delivering cc))).map (fun t => ((t.copy 0).bind (·.coll)).map (·.unacked)) =
    some (some []) := by decide +kernel
theorem test_reserved_kind : (next (exec (.reservedKindDiscard (msg 12 1 0)) State.reset)).map (·.fabdrop) = some 1
    ∧ (next (exec (.reservedKindDiscard (msg 11 1 0)) State.reset)).map (·.fabdrop) = some 0 := by decide +kernel

def ccAsk : Coll := { cc with algo := none, asking := [], grants := [] }
theorem witness_CollectiveEventResults :
    (wColl .checking ccAsk).copy 0 = some (xc .checking ccAsk) ∧ (∀ e ∈ (wColl .checking ccAsk).copies, e.2.id = e.1)
    ∧ (xc .checking ccAsk).kind.isColl = true ∧ CopySt.checking.ended = false ∧ CopySt.completed.ended = true ∧ ccAsk.group.head? = some ccAsk.rank
    ∧ ([3, 4].filter (· != 3) ≠ [] ∧ [3].filter (· != 3) = [] ∧ 3 ∉ ccAsk.asking)
    ∧ (xc .checking { ccAsk with asking := [3] }).algReq ≠ 3
    ∧ (1 ≠ cc.rank ∧ 1 < cc.size ∧ 1 ∉ cc.gone) ∧ cc.hadAll (xc .delivering cc) 1 = false
    ∧ ({ cc with group := [0] } : Coll).hadAll (xc .delivering { cc with group := [0] }) 1 = true
    ∧ (xc .failed cc).told = false ∧ (0x80 : DWord).toNat % 16 = 0 ∧ (0x80 : DWord).toNat + 16 ≤ gCp.scrsize := by decide +kernel
/-- A request to each of the 32 switches. -/
theorem test_slot_request : (next (exec (.slotRequest 0) (wColl .checking ccAsk))).map (fun t => (t.outbox.length, t.outbox.all (fun o => o.2.kind == 5))) =
    some (32, true) := by decide +kernel
theorem test_slot_nack_falls_back : (next (exec (.slotNack 0 3) (wColl .checking { ccAsk with asking := [3] }))).map
    (fun t => ((t.copy 0).bind (·.coll)).map (fun c => (c.algo, c.fallback))) = some (some (some 2, true)) := by decide +kernel
/-- A failure writes the status record: bit 1 of its first byte is FAIL. -/
theorem test_collective_fails : (next (exec (.memberLost 0 1) (wColl .checking cc))).map (fun t => ((t.copy 0).map (·.st), t.agenda)) =
    some (some .failed, [.event (.collectiveComplete 0)]) := by decide +kernel

/-! ## The firmware harts and the host -/

/-- Hart 0 with a1 and a2, the words from 0x4000 to 0x4FFF and the descriptors but the last mapped to themselves, and queue 3 with one
packet. -/
def wAmz (a b : DWord) (m : Bool := true) (irq : Bool := false) : State := { wFront [(0x4000, 7)] with
  turn := .hart 0, fwRuns := true, fwDescs := 0x80000, fwMap := [⟨0x4000, 0x1000, 0x4000, 0⟩, ⟨0x80000, 0x3FFC0, 0x80000, 0⟩], harts := [(0, { x := [(11, a), (12, b)], machine := m, irq := irq, mtvec := 0x101 })] }
def amz0 (i : Instr) (s : State) : Option (DWord × DWord × DWord) := (next (exec i s)).map (fun t => ((t.hart 0).pc, (t.hart 0).mcause, (t.hart 0).get 10))
theorem witness_HartInstructionResults : (wAmz 3 0x4040).turn = .hart 0 ∧ ((wAmz 3 0x4040 false).hart 0).machine = false ∧ ((wAmz 3 0x4040).hart 0).machine = true
    ∧ ((wAmz 3 0x4040).hart 0).get 11 = 3 ∧ ((wAmz 3 0x4040).hart 0).get 12 = 0x4040
    ∧ ((wAmz 3 0x4040).queue 3).count = 1 ∧ 1 ≤ 2 ^ ((wAmz 3 0x4040).queue 3).log2n ∧ ((wAmz 4 0x4040).queue 4).count = 0
    ∧ (({ wAmz 3 0x4040 with queues := [(3, { qctl := 4, wridx := 17 })] } : State).queue 3).count = 17
    ∧ (wAmz 3 0x4040).fwAddr (((wAmz 3 0x4040).queue 3).slotAddr 0) 64 = some (0x4000, 0) ∧ (wAmz 3 0x4040).fwAddr 0x4040 64 = some (0x4040, 0)
    ∧ (wAmz 3 0x4040).fwAddr ((wAmz 3 0x4040).descAddr 3) 64 ≠ none ∧ (wAmz 4095 0x4040).fwAddr ((wAmz 4095 0x4040).descAddr 4095) 64 = none
    ∧ (wAmz 3 0x4FC0).fwAddr 0x4FC0 64 = some (0x4FC0, 0) ∧ (wAmz 3 0x5000).fwAddr 0x5000 64 = none
    ∧ (0x3F01 : DWord).toNat % 256 + (0x3F01 : DWord).toNat / 256 % 256 = 64 ∧ (wAmz 0x4000 7).fwAddr 0x4000 8 = some (0x4000, 0)
    ∧ (leNat ((wAmz 0x4000 7).physBytes 0 0x4000 8)) = 7
    ∧ Tbl.look (wAmz 4 0).hwSlots 0 = some 3 ∧ (¬ ∃ e ∈ (wAmz 4 0).hwSlots, e.2 = 4)
    ∧ (∃ y ∈ ({ wAmz 4 0 with begun := [⟨3, 0, 2, 0, [], 0, 0⟩] } : State).begun, y.queue = 3) := by decide +kernel
theorem test_qfetch : amz0 (.amzQfetch 10 11 12) (wAmz 3 0x4040) = some (4, 0, 1)
    ∧ (next (exec (.amzQfetch 10 11 12) (wAmz 3 0x4040))).map (fun t => Memory.get t.mem 0x4040) = some 7 := by decide +kernel
theorem test_qfetch_traps : amz0 (.amzQfetch 10 11 12) (wAmz 4096 0x4040) = some (0x100, 24, 0) ∧ amz0 (.amzQfetch 10 11 12) (wAmz 3 0x4041) = some (0x100, 25, 0)
    ∧ amz0 (.amzQfetch 10 11 12) (wAmz 4095 0x4040) = some (0x100, 26, 0) := by
  decide +kernel
/-- A field of 63 bits from bit 1 is the last that fits; one of 64 bits does not, nor one of none. -/
theorem test_amz_bfx : amz0 (.amzBfxS 10 11 12) (wAmz 0xFFFFFFFFFFFFFFF0 0x3F01) = some (4, 0, 0xFFFFFFFFFFFFFFF8)
    ∧ amz0 (.amzBfx 10 11 12) (wAmz 5 0x4001) = some (0x100, 27, 0) ∧ amz0 (.amzBfx 10 11 12) (wAmz 5 0x0001) = some (0x100, 27, 0) := by decide +kernel
theorem test_sigwait : amz0 (.amzSigwait 0 10 11 12) (wAmz 0x4000 7) = some (4, 0, 1) ∧ amz0 (.amzSigwait 0 10 11 12) (wAmz 0x4000 8) = some (0, 0, 0)
    ∧ amz0 (.amzSigwait 3 10 11 12) (wAmz 0x4000 8 true true) = some (4, 0, 0) := by decide +kernel
theorem test_rv_addi : (next (step { wAmz 0 0 with mem := [(0, 0x93), (2, 0x50)] })).map (fun t => ((t.hart 0).pc, (t.hart 0).get 1)) =
    some (4, 5) := by decide +kernel
theorem test_reserved_custom_word_traps : (next (step { wAmz 0 0 with mem := [(0, 0x0B), (1, 0xC5), (2, 0xC5)] })).map (fun t => ((t.hart 0).pc, (t.hart 0).mcause)) =
    some (0x100, 2) := by decide +kernel
theorem test_amz_needs_machine_mode : amz0 (.amzDispatch 10 11 12) (wAmz 4 1 false) = some (0x100, 2, 0) := by decide +kernel
theorem test_dispatch : amz0 (.amzDispatch 10 11 12) (wAmz 4 1) = some (4, 0, 0) ∧ amz0 (.amzDispatch 10 11 12) (wAmz 3 1) = some (4, 0, 2)
    ∧ amz0 (.amzDispatch 10 11 12) (wAmz 3 0) = some (4, 0, 3) ∧ amz0 (.amzDispatch 10 11 12) (wAmz 3 256) = some (0x100, 24, 0) := by decide +kernel

/-- CP0's standby has seen its word unchanged for 50 µs. -/
def wStand (time : Nat) : State := { State.reset with
  time := time, harts := [(2, { seen := [(0, (0, 0))] })], vcps := [(1, { kick := 5, mapped := true }), (130, {})] }
def wBuilt : State := wFront []
/-- Slot 0 of a page is kicked, and names queue 3, which has a packet. -/
def wKick : State := { wFront [] with vcps := [(1, { kick := 1, mapped := true, qd := [(0, 3)] })], ring := 0x10000, ringLen := 8192 }
theorem witness_FirmwareEventResults : 0 < 4 ∧ (wStand 0).fwcActive.getLsbD 0 = true ∧ ((wStand 0).hart 0).halted = false ∧ ((wStand 0).hart 2).halted = false
    ∧ (wStand 0).watchedBy 2 = [0] ∧ Tbl.look ((wStand 0).hart 2).seen 0 = some (((wStand 0).hart 0).heart, 0)
    ∧ (wStand 49999999).timebase < 0 + 50000 ∧ 0 + 50000 ≤ (wStand 50000000).timebase
    ∧ (wStand 0).serverOf (1 / 128) = 0 ∧ 1 ∈ Tbl.keys (wStand 0).vcps ∧ (Tbl.look (wStand 0).vcps 1).isSome = true ∧ ((wStand 0).vcp 1).kick ≠ 0
    ∧ (∃ j < 4, ((wStand 0).hart j).machine = true ∧ ((wStand 0).hart j).halted = false)
    ∧ ¬ (∃ j < 4, (({ wStand 0 with harts := [(0, { machine := false }), (1, { machine := false }), (2, { halted := true }), (3, { halted := true })] } : State).hart j).machine = true
      ∧ (({ wStand 0 with harts := [(0, { machine := false }), (1, { machine := false }), (2, { halted := true }), (3, { halted := true })] } : State).hart j).halted = false)
    ∧ (let s : State := { wKick with hwSlots := [] }; (s.vcp 1).kick.getLsbD 0 = true ∧ Tbl.look (s.vcp 1).qd 0 = some 3 ∧ (s.queue 3).count ≠ 0)
    ∧ ((wStand 0).vcp 1).mapped = true ∧ ((wStand 0).vcp 130).mapped = false ∧ (Tbl.keys (wStand 0).vcps).Nodup
    ∧ (Tbl.at wBuilt.parts 0 {}).built = true ∧ (Tbl.at (wStand 0).parts 0 {}).built = false := by decide +kernel
theorem test_takeover_of_a_silent_partner : (next (exec (.takeover 2) (wStand 50000000))).map (fun t => (t.fwcActive, (t.hart 0).halted, (t.vcp 1).kick)) =
    some (0b0110, true, 0) := by decide +kernel
theorem test_notify_sets_kick : (next (exec (.notify 1 35) (wStand 0))).map (fun t => (t.vcp 1).kick) = some 0x800000000000000D := by decide +kernel
/-- R374: the kicked queue is bound to a slot; the change is journalled. -/
theorem test_scan_binds_the_queue : (next (exec (.vcpScan 0 1) { wKick with hwSlots := [] })).map (fun t => (t.hwSlots, (t.vcp 1).kick, t.journalSeq, t.unmade)) =
    some ([(0, 3)], 0, 1, []) := by decide +kernel
theorem test_vf_reset : (next (exec (.vfReset 1) (wStand 0))).map (fun t => ((t.vcp 1).vfgen, (t.vcp 130).vfgen)) = some (1, 0) := by decide +kernel

/-- Port A owns semaphore 0, and every function is ready. -/
def wHost (owner : Nat) (rdy : DWord := 0xFFFFFFFFFFFFF) : State := { State.reset with hsem := [(0, { owner := owner })], rdyMap := rdy }
def part2 : PartCmd := ⟨1, [0, 2], 0, []⟩
theorem witness_HostEventResults : (Tbl.at (wHost 0).hsem 0 {}).owner = 0 ∧ 2 < 3 ∧ 31 < 32 ∧ (Tbl.at (wHost 1).hsem 0 {}).owner = 0 + 1 ∧ (Tbl.at (wHost 2).hsem 0 {}).owner ≠ 0 + 1
    ∧ (∀ b ∈ [18, 17], (wHost 1).rdyMap.getLsbD b = true) ∧ ¬ (∀ b ∈ [18, 17], (wHost 1 0x40000).rdyMap.getLsbD b = true)
    ∧ (∀ b ∈ 18 :: part2.leaders.map (fun c => 12 + dieOf c), (wHost 1).rdyMap.getLsbD b = true)
    ∧ (wHost 1).partOk part2 = true ∧ (wHost 1).partOk { part2 with leaders := [1] } = false
    ∧ (255 < 256 ∧ 254 < 255 ∧ ([4095] : List Nat).length ≤ 32 ∧ ∀ q ∈ ([4095] : List Nat), q < 4096)
    ∧ (Tbl.at wBuilt.parts 0 {}).built = true ∧ (Tbl.at (wHost 1).parts 0 {}).built = false
    ∧ (wHost 1).rdyMap ≠ 0 ∧ (wHost 1 0).rdyMap = 0 ∧ (wHost 1 0).fwRuns = false ∧ (wHost 0).hsem.length = 1 ∧ (wHost 1).rdyMap.getLsbD 51 = true ∧ (wHost 1).rdyMap.getLsbD 52 = false := by decide +kernel
theorem test_hsem_tie_goes_to_last_loser : (next (exec (.hsemAcquire 3 0) (wHost 0))).map (fun t => (Tbl.at t.hsem 0 {}).owner) = some 1 := by decide +kernel
theorem test_part_builds : (next (exec (.partOp 0 part2) (wHost 1))).map (fun t => (t.physCore 1 3, (Tbl.look t.mbox 0).map (·.1))) = some (some 3, some 0) := by
  decide +kernel
theorem test_command_order_of_checks : (next (exec (.sealOp 0 0 true) (wHost 2 0))).map (fun t => (Tbl.look t.mbox 0).map (·.1)) = some (some 0x0D)
    ∧ (next (exec (.sealOp 0 0 true) (wHost 2))).map (fun t => (Tbl.look t.mbox 0).map (·.1)) = some (some 0x0E) := by decide +kernel
theorem test_function_failure_takes_a_port : (next (exec (.functionFailure 20) { wHost 0 with portsUp := 3 })).map (fun t => (t.portsUp, t.rdyMap.getLsbD 20)) =
    some (2, false) := by decide +kernel

/-! ## Forms and values at the edges of the statements -/

/-- R93, binary32: a class for each of a signalling and a quiet NaN, ∓∞, ∓1, ∓ the smallest subnormal number, ∓0. -/
theorem test_class_table : [0x7F800001, 0x7FC00000, 0xFF800000, 0xBF800000, 0x80000001, 0x80000000, 0, 1, 0x3F800000, 0x7F800000].map (classMask .f32)
    = [1, 2, 4, 8, 16, 32, 64, 128, 256, 512] := by decide +kernel
/-- R34: ∞ times a finite number, a product of zero and infinity, a quiet NaN, infinities of unlike sign, and a number above the largest
of binary16; a source that is zero. -/
theorem witness_InfiniteFactorsAndOverflow :
    let u := Fmt.f32.unpack
    (¬ (u 0x7F800000).isNan ∧ ¬ (u 0xC0000000).isNan ∧ (u 0x7F800000).isInf ∧ ¬ (u 0xC0000000).isZero ∧ (u 0x7F800000).neg ≠ (u 0xC0000000).neg)
      ∧ (¬ (u 0x7FC00000).isSig ∧ (u 0x7FC00000).isNan ∧ ¬ ((u 0x7FC00000).isZero ∧ (u 0).isInf ∨ (u 0x7FC00000).isInf ∧ (u 0).isZero))
      ∧ ((u 0xFF800000).isInf ∧ (u 0xFF800000).neg ≠ ((u 0x7F800000).neg != (u 0x3F800000).neg))
      ∧ (let v := inUnits 65520 1 0 (Fmt.f16.emin + 2 ^ Fmt.f16.ebits - 3 - Fmt.f16.mbits)
        2 ^ (Fmt.f16.mbits + 1) ≤ roundQuot 0 false v.1 v.2) ∧ u 0x80000000 = .zero true := by decide +kernel
theorem test_product_of_infinity : fMul .f32 0 0x7F800000 0xC0000000 = (0xFF800000, 0)
    ∧ fFma .f32 0 0x7F800000 0x3F800000 0xFF800000 = (0x7FC00000, fNV) ∧ fFma .f32 0 0x3F800000 0x3F800000 0xFF800000 = (0xFF800000, 0) := by decide +kernel
/-- 65520 in binary16 under each rounding mode: infinity, or the largest number, 65504. -/
theorem test_overflow : [0, 1, 2, 3].map (fun m => rndQ .f16 m false 65520 1 0) = [(0x7C00, fOF ||| fNX), (0x7BFF, fNX), (0x7C00, fOF ||| fNX), (0x7BFF, fNX)]
    ∧ [1, 2, 3].map (fun m => rndQ .f16 m true 65536 1 0) = [(0xFBFF, fOF ||| fNX), (0xFBFF, fOF ||| fNX), (0xFC00, fOF ||| fNX)] := by decide +kernel

/-- A clause with CONV = 0 on one lane. -/
def wConv (h : DWord) : State := world (th [(0, 5), (1, 1)]) (pass [0] h)
theorem witness_ClausesWithoutConv : Executes (wConv hdr0) 0 0 (pass [0] hdr0) g7 [0] ∧ Hdr.conv (pass [0] hdr0).hdr = false
    ∧ (wConv hdr0).fullFlag g7 false = none ∧ setFlag hdr0 false = some 0
    ∧ ((pass [0] hdr0).lane 0 0).check (wConv hdr0) [(pSA, OpKind.pred, .pred 1), (pDST, OpKind.vOnly, .v 4)] = .ok () := by
  unfold Executes; decide +kernel
theorem test_conv_faults : [Instr.lpart (fld (minor := 2)), .mjoin (fld (minor := 3)), .mleave (fld (minor := 3)), .mvote (fld (dst := .v 4) (sa := .pred 1))].map
    (fun i => (next (exec i (wConv hdr0))).map (fun t => ((t.thr 0 0).fcode, (t.gang 0 0).tw, (t.gang 0 0).mj))) = List.replicate 4 (some (0x11, 5, 0)) := by
  decide +kernel
/-- R194: one channel, so that channel 0 is the last and channel 1 none. -/
theorem witness_ChannelNumberTooLarge : ((pass.lane 0 0).grid wBar).chans ≤ (fld (minor := 1)).minor.toNat
    ∧ (fld (minor := 0)).minor.toNat < ((pass.lane 0 0).grid wBar).chans := by decide +kernel
theorem test_channel_number_too_large : [Instr.chopen (fld (minor := 1)), .chclose (fld (minor := 1))].map
    (fun i => (next (exec i wBar)).map (fun t => (t.thr 0 0).fcode)) = [some 1, some 1] := by decide +kernel

/-- One lane of a pass takes a direct branch out of the canonical half, or faults at a bad address in v0:v1, and its neighbour falls through. -/
def wSplit (clause : DWord) : State := { world { th [(0, 0x10)] with preds := 2 } { pass [0, 1] with clause := clause } (some { th [(0, 0x20)] with preds := 0 }) with
  grids := [(0, { grid with traps := [] })] }
theorem witness_MixedSuccessors : let x : Pass := { pass [0, 1] with clause := 0x00FFFFFFFFFFFFE0 }
    let s := wSplit 0x00FFFFFFFFFFFFE0
    s.curPass = some (0, 0, x) ∧ (s.thr 0 0).holds ⟨1, false⟩ = true ∧ (s.thr 0 1).holds ⟨1, false⟩ = false
      ∧ canonical ((0x00FFFFFFFFFFFFE0 + BitVec.ofInt 64 (32 * 1)) : DWord).toNat = false
      ∧ (x.lane 0 0).check s [(pDST, OpKind.load true, .v 10)] = .ok ()
      ∧ (x.lane 0 0).readPair s pSA (.v 0) = .ok 0x10 ∧ (x.lane 0 1).check s [(pSA, OpKind.reg true, .v 0)] = .ok () := by decide +kernel
theorem test_direct_target_not_canonical : [Instr.jmp, .br, .call].map (fun i =>
    (next (exec (i (fld (imm := some 1) (guard := ⟨1, false⟩) (dst := .v 10))) (wSplit 0x00FFFFFFFFFFFFE0))).map
      (fun t => ((t.thr 0 0).fcode, (t.thr 0 0).readV 64 10, (t.thr 0 1).fcode))) = List.replicate 3 (some (0x0B, 0, 0)) := by decide +kernel
theorem test_callr_misaligned : (next (exec (.callR (fld (sa := .v 0) (guard := ⟨1, false⟩) (dst := .v 10))) (wSplit 0x1000))).map
    (fun t => ((t.thr 0 0).fcode, (t.thr 0 0).readV 64 10, (t.thr 0 1).pos)) = some (7, 0, entryPos (fallThrough 0x1000 pass.body)) := by decide +kernel

/-- A fault return by lane 0 at supervisor privilege, its frame naming index 3 with t2 valid and 7, and lane 1 at user privilege. -/
def wRet : State := world { th with priv := true, hnd := true, frame := BitVec.ofNat 512 (0x2003 + 4 * 2 ^ 224 + 7 * 2 ^ 320) } (pass [0, 1]) (some th)
theorem witness_MixedFaultReturn : wRet.curPass = some (0, 0, pass [0, 1]) ∧ (wRet.thr 0 0).priv = true ∧ (wRet.thr 0 1).priv = false
    ∧ posIdx (wRet.thr 0 0).fpos ≠ 31 ∧ (wRet.thr 0 0).frameT 2 = 7 := by decide +kernel
/-- R25: the restored temporary is valid when the lane is in its clause again. -/
theorem test_ret_fault_keeps_temporaries : (next (exec (.retFault (fld (minor := 1))) wRet)).map (fun t =>
    ((t.thr 0 0).pos, (t.thr 0 0).tvalid, ((t.thr 0 0).enter 0).tvalid, ((t.thr 0 0).enter 0).readT 2, (t.thr 0 0).priv, (t.thr 0 1).fcode)) =
    some (0x2003, 4, 4, 7, false, 4) := by decide +kernel

/-- The membership faults of R412: a register that is not valid; another operator; an outcome missed; no member; not in the group; a vote
voided; and, waiting, an abort, a mismatch and an outcome the history no longer holds. -/
def wVf (g : Gang) (m : DWord := 1 + 2 ^ 14 + 2 ^ 32) (hist : DWord := 0) (rank : Word := 0x80000000) : State := { wVote with
  gangs := [(0, g)]
  ctxs := [(0, { mset := [(0, (m.setWidth 128) + BitVec.ofNat 128 (2 ^ 88 + 2 ^ 104))], ranks := [(0, rank)], mout := [(0, hist)] })] }
def gM : Gang := { team := 0, num := 0, mj := 1 }
def causeOf (s : State) : Option (BitVec 8 × BitVec 4) := (next (exec (.cbr (fld (sa := .pred 1) (minor := 1)) ⟨2, 0, 0⟩) s)).map
  (fun t => ((t.thr 0 0).fcode, (t.thr 0 0).frame.extractLsb' 64 4))
theorem test_membership_faults : [causeOf (wVf gM 0), causeOf (wVf gM (1 + 2 ^ 32)), causeOf (wVf { gM with mj := 0 }), causeOf (wVf gM (rank := 0)),
    causeOf (wVf { gM with voided := 1 }), causeOf (wVf { gM with drop := [(0, 1)] }), causeOf (wVf { gM with drop := [(0, 3)] })]
    = [some (0x16, 0), some (0x16, 1), some (0x16, 2), some (0x16, 4), some (0x16, 3), some (0x16, 6), some (0x16, 7)] := by decide +kernel
/-- SEQ is 1 and the gang, waiting, has voted in sequence 0. -/
theorem test_waiting_outcomes : let waits := fun (o : DWord) => causeOf (wVf { gM with wait := 1, gseq := [(0, 1)] } (1 + 2 ^ 14 + 2 ^ 32 + 2 ^ 16) o)
    [waits 2, waits 3] = [some (0x16, 5), some (0x16, 3)] := by decide +kernel

/-! ## Further cases of events: cores, halts, saves, migrations, pins -/

/-- R276: an atomic at v0:v1 of a page that may only be loaded; a `racq` of a page that may only be stored to. -/
def wAccess (p : BitVec 4) : State := { wMem with
  cores := [(0, { ctx := some 0, pipes := [(0, pass)], tlb := [⟨0, 1, 12, 12, 0x2000, 0, p, p⟩] })] }
theorem witness_AtomicAccessFaults : let f := fld (ty := .u32) (dst := .v 8) (sa := .v 0) (sb := .v 6)
    ((wAccess 0b1001).latch (pass.lane 0 0) f).translate 0 0 { load := true, store := true, user := true } 0x1040 = .error (9, false)
      ∧ (wAccess 0b1001).fullFlag g7 false = none ∧ (setFlag pass.hdr false).isSome = true
      ∧ (pass.lane 0 0).readDatum (wAccess 0b1001) pSB f.sb f.ty = .ok 1
      ∧ (∃ b, casData { f with sb := .v 4 } (wAccess 0b1001) (pass.lane 0 0) = .ok b) := by
  refine ⟨?_, ?_, ?_, ?_, ⟨(0x11223344, 0xFFFF), ?_⟩⟩ <;> decide +kernel
theorem test_atomic_needs_both : [Instr.atom, .atomcas, .red, .racq].map (fun i => (next (exec (i (fld (ty := .u32) (dst := .v 8) (sa := .v 0) (sb := .v 6))) (wAccess 0b1001))).map
    (fun t => ((t.thr 0 0).fcode, (t.thr 0 0).frame.extractLsb' 66 1))) = [some (9, 1), some (9, 1), some (9, 1), some (0, 0)] := by decide +kernel
/-- R275: `.ring` counts up below the bound, and from a bound of 0 too. -/
theorem test_ring_u64 : atomNew 7 .u64 9 10 = 0 ∧ atomNew 7 .u64 8 10 = 9 ∧ atomNew 7 .u64 0xFFFFFFFFFFFFFFFF 0 = 0 := by decide +kernel

/-- Row 0 of the store is of the bin; slot 0's temporary row, once its pass has run for 4 µs; a temporary row of no pass. -/
def wRefreshed : State := { world th { pass with refreshed := true } with time := 9 }
theorem witness_Refreshes : wRefreshed.refreshes 0 0 = true ∧ wRefreshed.refreshes 0 65536 = true ∧ wRefreshed.refreshes 0 65537 = false
    ∧ w1.refreshes 0 65536 = false ∧ 65536 ≤ 65537 := by decide +kernel
theorem test_row_refresh : [65536, 65537].map (fun r => (next (exec (.rowRefresh 0 r) wRefreshed)).map (fun t => (t.core 0).refreshAt)) = [some 9, some 0] := by
  decide +kernel

/-- A core halted by NC: its passes are cut 8 µs after, and its team is put away; an idle core with a count over its limit in the cycle in
which another stop of the context came; a cut that keeps a reservation to read. -/
def wNc (t : Nat) : State := { wPre .running with time := t, cores := [(0, { (wPre .running).core 0 with ncAt := some 0 })] }
def stopped (at' : Nat) (w : DWord) : State := { wPre .running with
  time := at', ctxs := [(0, { run := .stopped, stop := w, stopAt := some at', ncFull := [0] })]
  cores := [(0, { ctx := some 0, wd := 0x10000000000 })] }
def pKept : Pass := { pass with resv := [(0, { rd := some 1 })] }
def wKept : State := { world th pKept with
  time := 8000000, cores := [(0, { ctx := some 0, halted := true, pipes := [(0, pKept)] })]
  teams := [(0, { grid := 0, num := 0, lcore := 0, core := 0, footprint := 0, chans := [(0, { fifo := [⟨1, .reading, []⟩] })] })] }
theorem witness_FurtherHalts : ((wNc 0).core 0).ncAt ≠ none ∧ (wNc 0).halting 0 = true ∧ (wNc 0).cutAt 0 = 8000000 ∧ ((wNc 0).ctx 0).run = .running
    ∧ (wNc 0).quiet [0] = true ∧ (wNc 0).settled [0] = true
    ∧ (stopped 5 (stopWord 5 0 0 0)).expired 0 = true ∧ ((stopped 5 (stopWord 5 0 0 0)).ctx 0).stop ≠ 0
    ∧ Tbl.look (wKept.core 0).pipes 0 = some pKept ∧ wKept.halting 0 = true ∧ wKept.cutAt 0 ≤ wKept.time
    ∧ Tbl.look pKept.resv 0 = some { rd := some 1 } ∧ gangsOf pKept.slots = [0] ∧ (∀ e ∈ pKept.resv, e.1 ∈ gangsOf pKept.slots) := by decide +kernel
theorem test_nc_halts_the_core : (next (exec (.ncPreempt 0 0) { wPre .running with time := 7 })).map (fun t => ((t.core 0).ncAt, t.halting 0, (t.ctx 0).run)) =
    some (some 7, true, .running) := by decide +kernel
theorem test_nc_saves : (next (exec (.ncPreempt 0 0) (wNc 0))).map (fun t => (t.teams, (t.ctx 0).saved.map (·.id), (t.core 0).ncAt)) = some ([], [0], none) := by
  decide +kernel
/-- R341: of a stop of cause 5 and one of cause 3 in one cycle, the record keeps the lower cause. -/
theorem test_least_stop : (next (exec (.watchdogExpire 0) (stopped 5 (stopWord 5 0 0 0)))).map (fun t => (t.ctx 0).stop) = some (stopWord 3 0 0 0) := by decide +kernel
theorem test_cut_keeps_reservation : (next (exec (.passCut 0 0) wKept)).map (fun t => ((t.gang 0 0).kept.map (fun e => (e.1, e.2.rd, e.2.lanes)),
    ((t.team 0).chan 0).fifo.map (·.st))) = some ([(0x1000, some 1, [0])], [.reading]) := by decide +kernel

/-- A context saved on partition 1 comes back on partition 0: translations that it left in a core and a cluster go. -/
def wElsewhere : State := { wSaved with
  cores := [(0, { ctx := none, tlb := [⟨0, 1, 12, 12, 0x2000, 0, 0xF, 0xF⟩, ⟨3, 1, 12, 12, 0x2000, 0, 0xF, 0xF⟩] })]
  ctlb := [(0, [⟨0, 1, 12, 12, 0x2000, 0, 0xF, 0xF⟩])], ctxs := [(0, { run := .saved, part := 1 })] }
theorem witness_RestoreElsewhere : 0 ≠ (wElsewhere.ctx 0).part ∧ (wElsewhere.ctx 0).saved = [] ∧ (wElsewhere.ctx 0).arriving = false := by decide +kernel
theorem test_restore_elsewhere : (next (exec (.restore 0 0) wElsewhere)).map (fun t => ((t.core 0).tlb.map (·.ctx), (Tbl.at t.ctlb 0 []).length, (t.ctx 0).part)) =
    some ([3], 0, 0) := by decide +kernel

/-- Contexts 0, saved, and 5 with pages written since they were last copied; a page of context 5 alone; an image here with a message held. -/
def wDirty (l : List (Nat × Nat)) : State := { wSaved with ctxs := [(0, { run := .saved, migrate := some (1, 9) })], dirtyPages := l, tracking := [0, 5] }
def wArrive : State := { wSaved with ctxs := [(0, { run := .saved, arriving := true })], held := [(0, .event (.beatCount 0 3)), (4, .event (.beatCount 4 3))] }
theorem witness_FurtherMigrations : (∃ y ∈ (wDirty [(5, 1), (0, 2)]).dirtyPages, y.1 = 0) ∧ (∀ y ∈ (wDirty [(5, 1)]).dirtyPages, y.1 ≠ 0)
    ∧ ((wDirty []).ctx 0).run = .saved ∧ 1 ≠ (wDirty []).devId.toNat ∧ 0 = wArrive.devId.toNat ∧ (wArrive.ctx 0).run = .saved
    ∧ ({ wPre .running with ctxs := [(0, { run := .running, migrate := some (1, 9) })] } : State).ctxTeams 0 ≠ [] := by decide +kernel
theorem test_dirty_pages_wait : ((next (exec (.liveMigrate 0 1 9) (wDirty [(5, 1), (0, 2)]))).map (fun t => ((t.ctx 0).run, t.dirtyPages.length)),
    (next (exec (.liveMigrate 0 1 9) (wDirty [(5, 1)]))).map (fun t => ((t.ctx 0).run, t.dirtyPages, t.tracking))) =
    (some (.saved, 2), some (.moved, [(5, 1)], [5])) := by decide +kernel
theorem test_enabling_brings_back_messages : (next (exec (.liveMigrate 0 0 0) wArrive)).map (fun t => (t.agenda.take 1, t.held.length, (t.ctx 0).arriving)) =
    some ([.event (.beatCount 0 3)], 1, false) := by decide +kernel

/-- A stopped context of a group of two devices; a count merged, and none by 8 µs after the boundary, with a port up; an image not yet enabled. -/
def wDead : State := { wTally 1 with ctxs := [(0, { run := .stopped, mset := [(0, BitVec.ofNat 128 (1 + 2 ^ 13 + 2 ^ 32 + 2 ^ 73 + 2 ^ 88 + 2 ^ 104))]
                                                    ranks := [(0, 0x80000000), (1, 0x80100000)], lastV := [(0, 3)] })] }
def wMerge (t : Nat) (arriving : Bool := false) : State := { wLoop true 5 with
  time := t, portsUp := 2
  ctxs := [(0, { loop := { loopL with ctrl := loopL.ctrl ||| 5 }, merged := some 7, arriving := arriving })] }
theorem witness_FurtherReports : (wDead.ctx 0).run = .stopped ∧ Mset.valid ((wDead.ctx 0).msetOf 0) = true ∧ (wDead.ctx 0).openSeqs = []
    ∧ Mset.dgn ((wDead.ctx 0).msetOf 0) ≠ 0 ∧ wDead.inGroup (wDead.ctx 0) ((wDead.ctx 0).msetOf 0) = true
    ∧ ((wMerge 0).ctx 0).merged = some 7 ∧ (wMerge 0).portsUp ≠ 0 ∧ 64000000 * (wMerge 8000000).boundaries + 8000000 ≤ (wMerge 8000000).time
    ∧ ((wMerge 0 true).ctx 0).arriving = true ∧ ((wMerge 0 true).ctx 0).movedTo = none ∧ (wTally 1).deadReport 0 0 = none := by decide +kernel
theorem test_dead_report : (next (exec (.graceExpire 0 0) wDead)).map (fun t => ((t.ctx 0).openSeqs.map (fun o => (o.t, o.v, o.closed)), t.outbox.map (fun o => o.2.kind))) =
    some ([(3, 3, true)], [0x0A]) := by decide +kernel
theorem test_merge_timeout : [0, 8000000].map (fun n => (next (exec (.beatMergeTimeout 0) (wMerge n))).map
    (fun t => ((t.ctx 0).merged, (t.ctx 0).mergeMiss, (t.ctx 0).loop.icount))) = [some (some 7, true, 0), some (none, true, 1)] := by decide +kernel
theorem test_merged_count_is_held : (next (exec (.beatCount 0 3) (wMerge 0 true))).map (fun t => (t.held, (t.ctx 0).merged)) = some ([(0, .event (.beatCount 0 3))], some 7) := by
  decide +kernel

/-- A copy in Leave with its request queued since 0, breached by a late slice at 5 ns. -/
def wLeave : State := { wCp { cp .leave with mismatch := true } [ask] with time := 5000 }
theorem witness_WithdrawnRequest : wLeave.copy 0 = some { cp .leave with mismatch := true } ∧ CopySt.leave ≠ .collecting ∧ CopySt.leave.ended = false := by decide +kernel
theorem test_withdrawn_request_counts : (next (exec (.copyCheck 0) wLeave)).map (fun t => ((t.die 0).queue.length, (t.ctx 0).lvwait, (t.copy 0).map (·.st))) =
    some (0, 5, some .failed) := by decide +kernel

/-- The head's next line, 0x40: one pinned already, in a set full of another core's pins, of its own, or bad. -/
def wPins (own : List (Nat × Nat)) (others : List (Nat × Core)) (bad : List Nat := []) (p : Nat := 1) : State := { wMx { ent mmaOp with started := true, pins := own } with
  l2 := (List.range 4).map (fun i => (0x40 + 2 ^ 18 * (i + 1), ({ key := 0, way := i, use := 0, owner := none, pins := p, bad := false } : L2Line)))
  cores := (0, { ctx := some 0, fifo := [{ ent mmaOp with started := true, pins := own }] }) :: others, badWords := bad }
/-- Another core whose started head holds a pin in the set and fetches elsewhere. -/
def other : Core := { ctx := some 0, fifo := [{ ent mmaOp with id := 9, started := true, fetched := 1, pins := [(0x40, 0x40 + 2 ^ 18)] }] }
theorem witness_FurtherPins : (0x40, 0x40) ∈ ({ ent mmaOp with started := true, pins := [(0x40, 0x40)] } : FifoEntry).pins
    ∧ (wPins [] [(2, other)]).setPinned 0x40 = true ∧ (wPins [] [(2, other)]).pinHolder 0 0x40 = some 2
    ∧ (wPins [(0x80, 0x40 + 2 ^ 18)] []).setPinned 0x40 = true ∧ (wPins [(0x80, 0x40 + 2 ^ 18)] []).pinHolder 0 0x40 = none
    ∧ (wPins [] [] (p := 0)).setPinned 0x40 = false
    ∧ ((wPins [] [] [0x400] 0).l2Touch 0 0 0 0x40).l2Bad 0 (64 * 0x40) 64 = true := by decide +kernel
theorem test_fetch_waits_for_another_core : (next (exec (.tfuFetch 0 0x1000) (wPins [] [(2, other)]))).map (fun t => ((t.core 0).fifo.map (fun e => (e.fetched, e.pins)),
    (Tbl.look t.l2 (0x40 + 2 ^ 18)).map (·.pins))) = some ([(0, [])], some 1) := by decide +kernel
theorem test_fetch_gives_up_its_own_pin : (next (exec (.tfuFetch 0 0x1000) (wPins [(0x80, 0x40 + 2 ^ 18)] []))).map (fun t => ((t.core 0).fifo.map (fun e => (e.fetched, e.pins)),
    (Tbl.look t.l2 (0x40 + 2 ^ 18)).map (·.pins))) = some ([(0, [])], some 0) := by decide +kernel
theorem test_bad_line_is_not_pinned : (next (exec (.tfuFetch 0 0x2000) { wMx { ent mmaOp with started := true, fetched := 1 } with badWords := [0x800] })).map
    (fun t => (t.core 0).fifo.map (fun e => (e.fetched, e.pins, (e.readEarly true 0x800).isSome))) = some [(2, [], true)] := by decide +kernel

/-! ## Further cases of messages, collectives, the firmware and ports -/

/-- A context not enabled here yet; a switch's answers that came before; an ended collective that is still asked; a member gone; a rank in
doubt once the results of the switch are awaited. -/
def wHeld : State := { wColl .checking cc with ctxs := [(0, { arriving := true })] }
def wSwitch (st : CopySt) (rec : List (Nat × Nat × Nat × Nat × Nat) := []) : State := { wColl st { cc with algo := none, asking := [3] } with received := rec }
def ccGone : Coll := { cc with algo := some 3, gone := [1] }
theorem witness_FurtherMessages : (wHeld.ctx (msg 1 1 0).dctx.toNat).arriving = true ∧ (wHeld.ctx 0).movedTo = none
    ∧ slotName 0 3 6 ∈ (wSwitch .checking [slotName 0 3 6]).received ∧ slotName 0 3 7 ∉ (wSwitch .checking [slotName 0 3 6]).received
    ∧ slotName 0 3 7 ∈ (wSwitch .checking [slotName 0 3 7]).received ∧ CopySt.failed.ended = true
    ∧ (1 : Nat) ∈ ccGone.gone ∧ Tbl.look ({ cc with algo := some 3, doubt := [(1, 5)] } : Coll).doubt 1 = some 5
    ∧ (Tbl.look ({ cc with algo := some 3 } : Coll).doubt 1 = none ∧ 1 ∉ ({ cc with algo := some 3 } : Coll).gone)
    ∧ ({ cc with algo := some 3 } : Coll).hadAll (xc .delivering { cc with algo := some 3 }) 1 = false := by decide +kernel
theorem test_messages_are_held : [Instr.setup (msg 1 1 0), .collectiveChunk (msg 2 1 72)].map (fun i => (next (exec i wHeld)).map (fun t => (t.held, t.agenda.length))) =
    [some ([(0, .event (.setup (msg 1 1 0)))], 0), some ([(0, .event (.collectiveChunk (msg 2 1 72)))], 0)] := by decide +kernel
/-- R388, R402: a second grant is discarded; a refusal of an ended collective changes nothing; a grant that comes after the end goes back. -/
theorem test_switch_answers : (next (exec (.slotGrant 0 3) (wSwitch .checking [slotName 0 3 6]))).map (fun t => t.outbox.length) = some 0
    ∧ (next (exec (.slotNack 0 3) (wSwitch .failed))).map (fun t => (t.outbox.length, ((t.copy 0).bind (·.coll)).map (fun c => (c.algo, c.fallback)))) = some (0, some (none, false))
    ∧ (next (exec (.slotGrant 0 3) (wSwitch .failed))).map (fun t => t.outbox.map (fun o => o.2.kind)) = some [8] := by decide +kernel
theorem test_nothing_to_the_gone : (wColl .delivering ccGone).sendChunk (xc .delivering ccGone) 1 0 0 [[]] = wColl .delivering ccGone := by decide +kernel
/-- R403: under the switch a lost member's results are waited for, and then the collective fails. -/
theorem test_lost_under_the_switch : [[], [(1, 5)]].map (fun d => (next (exec (.memberLost 0 1) (wColl .delivering { cc with algo := some 3, doubt := d }))).map
    (fun t => (t.copy 0).map (·.st))) = [some (some .delivering), some (some .failed)] := by decide +kernel

/-- A kicked page: its queue's binding was performed as record 1 and not made. -/
def wRing : State := { wAmz 4 1 with ring := 0x10000, ringLen := 8192 }
def wPerformed : State := wRing.announce 1 1 [4]
theorem witness_RecordsOfBindings : wRing.bindRecord 1 4 = none ∧ wPerformed.bindRecord 1 4 = some 1 ∧ wPerformed.unmade = [wRing.nextRecord 1 1 [4]]
    ∧ (wPerformed.hart 0).machine = true ∧ wPerformed.turn = .hart 0
    ∧ wPerformed.series 1 2 = [wRing.nextRecord 1 1 [4]] ∧ (wPerformed.replayList [] (wPerformed.series 1 2)).2.1 = [] := by
  decide +kernel
theorem test_dispatch_takes_its_record : [wRing, wPerformed].map (fun s => (next (exec (.amzDispatch 10 11 12) s)).map (fun t => (Tbl.look t.hwSlots 1, t.journalSeq, t.unmade))) =
    List.replicate 2 (some (some 4, 1, [])) := by decide +kernel
theorem test_replay_makes_the_change_once : (let t := (wPerformed.replayList [] (wPerformed.series 1 2)).1; (Tbl.look t.hwSlots 1, t.unmade)) = (some 4, []) := by decide +kernel

/-- CP2 finds CP0 silent: slot 1 holds a queue with a packet begun, so that a replayed binding of it waits; and no hart in machine mode. -/
def wTaking : State := { wPerformed with
  time := 50000000, turn := .pipe 0 0, harts := [(2, { seen := [(0, (0, 0))], loaded := [[1]] })], staged := [[1], [2]]
  hwSlots := [(0, 3), (1, 5)], begun := [⟨5, 0, 2, 0, [], 0, 0⟩] }
def wUser : State := { wBuilt with harts := (List.range 4).map (fun n => (n, { machine := false })) }
/-- The take-over as it then stands: record 1 waits, and the next to be read is record 2. -/
def wTake : Taking := ⟨0, [wRing.nextRecord 1 1 [4]], 2, []⟩
theorem witness_FurtherTakeovers : (wTaking.hart 2).taking = none ∧ (wTaking.watchedBy 2).find? (fun p => decide (p = 0)) = some 0
    ∧ (({ wTaking with harts := [(2, { taking := some wTake })] } : State).hart 2).taking = some wTake ∧ wTake.partner ≠ 2
    ∧ ((wTaking.haltHarts 1).replayList [] (wTaking.checkpoint.pending ++ (wTaking.haltHarts 1).series (wTaking.checkpoint.seq.toNat + 1) wTaking.ringLen)).2.1 = wTake.left
    ∧ wUser.machineHart = false ∧ wBuilt.machineHart = true ∧ (Tbl.at wUser.parts 0 {}).built = true := by decide +kernel
theorem test_takeover_waits_for_a_busy_slot : (next (exec (.takeover 2) wTaking)).map (fun t => ((t.hart 2).taking, t.unmade, t.staged.length)) =
    some (some wTake, wTake.left, 2) := by decide +kernel
/-- With the packet complete it goes on; queue 4 cannot be bound twice, and slot 1 takes it. -/
theorem test_takeover_goes_on : (next (exec (.takeover 2) { wTaking with begun := [], harts := [(2, { taking := some wTake, loaded := [[1]] })] })).map
    (fun t => ((t.hart 2).taking, t.unmade, t.staged, Tbl.look t.hwSlots 1)) = some (none, [], [[2]], some 4) := by decide +kernel
theorem test_s2inv_needs_machine_mode : (next (exec (.s2inv 0) { wUser with cores := [(0, { tlb := [⟨0, 1, 12, 12, 0x2000, 0, 0xF, 0xF⟩] })] })).map
    (fun t => (t.core 0).tlb.length) = some 1 ∧ (next (exec (.s2inv 0) { wBuilt with cores := [(0, { tlb := [⟨0, 1, 12, 12, 0x2000, 0, 0xF, 0xF⟩] })] })).map
    (fun t => (t.core 0).tlb.length) = some 0 := by decide +kernel

/-- A chunk not acknowledged on port 0, which fails. -/
def wFlight : State := { wColl .delivering cc with portsUp := 3, rdyMap := 0xFFFFFFFFFFFFF, outbox := [(0, { msg 2 0 0 with ddev := 1 })] }
theorem witness_PortThatFails : wFlight.rdyMap.getLsbD 20 = true ∧ 20 < 52 ∧ (∀ o ∈ wFlight.outbox, o.1 = 20 - 20 ∧ wFlight.inFlight o.2 = true ∧ o.2.ddev ≠ 0x1FF) := by
  decide +kernel
theorem test_failing_port_sends_again : [Instr.functionFailure 20, .portDown 0 0].map (fun i => (next (exec i wFlight)).map (fun t => (t.portsUp, t.outbox.map (·.1)))) =
    List.replicate 2 (some (2, [1])) := by decide +kernel

/-! ## Further forms: reached breaches, waiting votes, pages, distribution registers, late completions -/

/-- R13: a pass of 64 bytes whose first word alone stands in its body, resumed at index 3. -/
def pLate : Pass := { pBad 0x003FFFFFFFFDC358 with idx := 3 }
def wLate : State := { world th pLate with agenda := [] }
theorem witness_ReachedBreaches : reachedBreach pass = none ∧ reachedBreach pLate = some 0 ∧ w1.anyBad = false ∧ w1.vcpPages = none := by decide +kernel
theorem test_breach_before_the_resumption : (next (step wLate)).map (fun t => ((t.thr 0 0).fcode, (t.thr 0 0).fpos)) = some (1, 0x1000) := by decide +kernel

/-- R417: a gang waiting for the outcome of sequence 0 of register 0: SEQ is 0 still, or 1 with an outcome of the history. -/
def gWait : Gang := { gM with wait := 1, gseq := [(0, 1)] }
def wOut (seq hist : DWord) : State := wVf gWait (1 + 2 ^ 14 + 2 ^ 32 + seq * 2 ^ 16) hist
theorem witness_VotesOutstanding : (∀ q ∈ [wOut 0 0, wOut 1 1, wOut 1 0], let m := (q.ctx 0).msetOf 0
      Mset.valid m = true ∧ gWait.dropOf 0 = 0 ∧ gWait.member 0 = true ∧ gWait.waiting 0 = true ∧ gWait.voided.getLsbD 0 = false
      ∧ q.inGroup (q.ctx 0) m = true ∧ Mset.vop m = 1)
    ∧ Mset.seq (((wOut 0 0).ctx 0).msetOf 0) = gWait.seqOf 0 - 1 ∧ Mset.seq (((wOut 1 0).ctx 0).msetOf 0) ≠ gWait.seqOf 0 - 1
    ∧ ((wOut 1 1).ctx 0).outcomeOf 0 (gWait.seqOf 0 - 1) = 1 ∧ ((wOut 1 0).ctx 0).outcomeOf 0 (gWait.seqOf 0 - 1) = 0
    ∧ ((wVf gM).thr 0 0).holds ⟨2, false⟩ = false ∧ gM.waiting 0 = false ∧ ({ gM with mj := 0 } : Gang).member 0 = false := by decide +kernel
theorem test_waiting_cbr : [wOut 0 0, wOut 1 1, wOut 1 0].map (fun s => (next (exec (.cbr (fld (sa := .pred 1) (minor := 1)) ⟨2, 0, 0⟩) s)).map
    (fun t => ((t.gang 0 0).votes.length, (t.gang 0 0).waiting 0, (t.thr 0 0).pos, (t.ctx 0).openSeqs.length))) =
    [some (1, true, 0x1000, 0), some (0, false, 0x105F, 0), some (0, false, 0x103F, 0)] := by decide +kernel
theorem test_waiting_mvote : [wOut 0 0, wOut 1 1].map (fun s => (next (exec (.mvote (fld (dst := .v 4) (sa := .pred 1))) s)).map
    (fun t => ((t.gang 0 0).votes.length, (t.gang 0 0).waiting 0, ((t.core 0).pending.flatMap (·.words)).map (·.2.1)))) =
    [some (1, true, []), some (0, false, [1])] := by decide +kernel
/-- No lane executes the `cbr`: the gang, a member, casts DEFV (here 0); not a member, it casts nothing. -/
theorem test_cbr_of_no_lane : [gM, { gM with mj := 0 }].map (fun g => (next (exec (.cbr (fld (sa := .pred 1) (minor := 1) (guard := ⟨2, false⟩)) ⟨2, 0, 0⟩) (wVf g))).map
    (fun t => ((t.ctx 0).openSeqs.map (fun o => (o.t, o.v)), (t.gang 0 0).gseq, (t.thr 0 0).pos))) =
    [some ([(0, 1)], [(0, 1)], 0x103F), some ([], [], 0x103F)] := by decide +kernel

/-- R372: the pages of the virtual command processors stand from 0x2000, where virtual page 1 is mapped; v0:v1 = 0x1804 in QD0 of page 0. -/
def wPage : State := { wM (th [(0, 0x1804), (1, 0), (2, 0x80)]) with vcpPages := some 0x2000 }
theorem witness_PagesOfDeviceMemory : wMem.pageAt 0x2040 = none ∧ wPage.pageAt 0x2804 = some (0, 0x804) := by decide +kernel
theorem test_store_to_a_page : (next (exec (.st (fld (ty := .u32) (dst := .v 2) (sa := .v 0) (minor := 4))) wPage)).map
    (fun t => ((t.vcp 0).area, Memory.get t.mem 0x2804)) = some ([(4, 0x80)], 0) := by decide +kernel

/-- Distribution register 1 through the window (v30 is 0), under `byp`, and on a speculative path with the hold empty or full. -/
def wDist (spec : Bool := false) (ssh : List SshEntry := []) : State := { wMem with
  cores := [(0, { ctx := some 0, pipes := [(0, pass)], tlb := [⟨0, 1, 12, 12, 0x2000, 0, 0xF, 0xF⟩], ssh := ssh })]
  threads := [(0, { tM with d := [(1, 0x0201)], spec := spec })] }
theorem witness_DistributionRegisterPaths : let wn := fld (dst := .v 1) (sa := .v 30) (minor := 2)
    let by' := fld (dst := .v 1) (sa := .v 0) (minor := 4)
    let l := pass.lane 0 0
    wDist.curPass = some (0, 0, pass) ∧ l.checkD wDist (distFields wn) = .ok () ∧ l.address wDist wn 2 true = .ok 0 ∧ 0 + 64 ≤ winSize (l.regs wDist) (l.grid wDist).dregs
      ∧ l.checkD wDist (distFields by') = .ok () ∧ l.address wDist by' 0 true = .ok 0x1040
      ∧ ((distReach by' (wDist.latch l by') l 0x1040 { load := true }).map (·.2)).toOption = some (.glob map1040, .glob { map1040 with pa := 0x2060 })
      ∧ ((distReach by' (wDist.latch l by') l 0x1040 { store := true }).map (·.2)).toOption = some (.glob map1040, .glob { map1040 with pa := 0x2060 })
      ∧ Tbl.at (wDist.thr 0 0).dPoison 1 false = false ∧ ((wDist true).thr 0 0).spec = true
      ∧ Target.block (.glob map1040) 0x1040 = some (0, 0x102, 0) ∧ Target.block (.glob { map1040 with pa := 0x2060 }) 0x1060 = some (0, 0x103, 0)
      ∧ ((wDist true).core 0).held 0 (0, 0x102, 0) = none
      ∧ ¬ (((wDist true (List.replicate Config.sshEntries ⟨9, 0, 0, 7, 0, false, 0, 0⟩)).core 0).ssh.length + 2 ≤ Config.sshEntries) := by decide +kernel
theorem test_dld_window : (next (exec (.dld (fld (dst := .v 1) (sa := .v 30) (minor := 2))) wDist)).map
    (fun t => ((t.thr 0 0).readD 1).extractLsb' 0 96) = some 0x000000020000000000001040 := by decide +kernel
theorem test_dst_bypasses : (next (exec (.dst (fld (dst := .v 1) (sa := .v 0) (minor := 4))) wDist)).map (fun t => t.mem) = some [(0x2040, 1), (0x2041, 2)] := by
  decide +kernel
theorem test_dst_is_held : (next (exec (.dst (fld (dst := .v 1) (sa := .v 0))) (wDist true))).map
    (fun t => ((t.core 0).ssh.map (fun e => (e.block, e.mask.toNat == 2 ^ 32 - 1)), t.mem.length)) = some ([(0x102, true), (0x103, true)], 8) := by decide +kernel

/-! ## Further cases of core events, kept reservations, packets, queues and the boundary -/

/-- A read of the long register 0x005, microseconds, of two words, at 7 µs; thread 33 ends with its gang's reservations in a pass. -/
def wLong : State := { wCore with time := 7000, cores := [(0, { ctx := some 0, pending := [{ pend with late := some 5, words := [(8, 0, false), (9, 0, false)] }] })] }
def wOrphan : State := { wCore with
  cores := [(0, { ctx := some 0, pipes := [(0, { pass with resv := [(1, { rd := some 1, wr := some 2 }), (0, {})], closing := [(1, 0)] })] })]
  teams := [(0, { grid := 0, num := 0, lcore := 0, core := 0, footprint := 0
                  chans := [(0, { fifo := [⟨1, .reading, []⟩, ⟨2, .pending, [(0, 5)]⟩], pmask := 3, opened := true })] })] }
theorem witness_LongReadsAndFreedGangs : (wLong.core 0).pending.find? (fun y => y.id == 7) = some { pend with late := some 5, words := [(8, 0, false), (9, 0, false)] }
    ∧ (wLong.gang 0 0).spec = none ∧ (Tbl.at wOrphan.threads (threadKey 0 33) {}).exited = true ∧ (Tbl.keys (wOrphan.core 0).pipes).Nodup
    ∧ (∀ y ∈ Tbl.vals (wOrphan.core 0).pipes, (1, ({ rd := some 1, wr := some 2 } : Resv)) ∈ y.resv)
    ∧ (∀ y ∈ Tbl.vals (wCore.core 0).pipes, ∀ r ∈ y.resv, r.1 ≠ 1) := by decide +kernel
theorem test_long_read_completes : (next (exec (.longLatencyComplete 0 0 7 0) wLong)).map (fun t => ((t.thr 0 0).readV 64 8, (t.core 0).pending.flatMap (·.words))) =
    some (7, [(9, 0, false)]) := by decide +kernel
theorem test_freed_gang_settles : (next (exec (.threadFree 0 33) wOrphan)).map (fun t => (((t.team 0).chan 0).fifo.map (fun e => (e.id, e.st, e.data.length)),
    ((t.team 0).chan 0).pmask, (t.core 0).pipes.map (fun e => (e.2.resv.map (·.1), e.2.closing.length)))) = some ([(2, .filled, 0)], 1, [([0], 0)]) := by decide +kernel

/-- What a cut kept for lanes 0 and 1 of gang 0 at index 3, or for lane 0 alone. -/
def kept (lanes : List Nat) : Resv := { rd := some 1, wr := some 2, lanes := lanes, closing := [0], hdr := hdr }
def wCut (lanes : List Nat) : State := { wOrphan with
  threads := [(0, { th with place := .entry, pos := 0x1003, tvalid := 1, t := [(0, 9)] }), (1, { th with place := .entry, pos := 0x1003 })]
  gangs := [(0, { team := 0, num := 0, kept := [(0x1003, kept lanes)] })] }
theorem witness_KeptReservations : ((wCut [0, 1]).gang 0 0).keptFor 0x1003 0 = some (0x1003, kept [0, 1]) ∧ ((wCut [0]).gang 0 0).keptFor 0x1003 0 = some (0x1003, kept [0])
    ∧ posIdx 0x1003 ≠ 31 ∧ ([0, 1].filter (· != 0) ≠ [] ∧ [0].filter (· != 0) = []) := by decide +kernel
theorem test_kept_is_left_to_the_others : (((wCut [0, 1]).quitKept 0 0).gang 0 0).kept.map (fun e => (e.1, e.2.lanes)) = [(0x1003, [1])]
    ∧ (((wCut [0]).quitKept 0 0).gang 0 0).kept = [] ∧ ((((wCut [0]).quitKept 0 0).team 0).chan 0).fifo.map (fun e => (e.id, e.st)) = [(2, .filled)]
    ∧ ((((wCut [0]).quitKept 0 0).team 0).chan 0).pmask = 2 := by decide +kernel

/-- A write-signal and a barrier-and packet whose signals are not mapped, and a barrier-and packet with a byte set beyond its signals. -/
def pFar : State := wFront (pkt [(0, 3), (11, 0x40), (16, 5)])
def pAndFar : State := wFront (pkt [(0, 4), (9, 0x80), (19, 0x40)])
def pAndBad : State := wFront (pkt [(0, 4), (9, 0x80), (48, 1)])
theorem witness_SignalsNotMapped : pFar.signalOk 0 true (field64 (pktOf pFar) 8) = false ∧ field64 (pktOf pFar) 8 ≠ 0 ∧ pAndFar.signalOk 0 false (field64 (pktOf pAndFar) 16) = false
    ∧ zeros ((pktOf pAndFar).drop 48) = true ∧ zeros ((pktOf pAndBad).drop 48) = false ∧ [pFar, pAndFar, pAndBad].map (fun s => packetType (pktOf s)) = [3, 4, 4]
    ∧ (∀ s ∈ [pFar, pAndFar, pAndBad], s.nextQueue = some (0, 3) ∧ (s.headPacket 3).toOption.isSome = true) := by decide +kernel
theorem test_signals_not_mapped : [(Instr.writeSignal 3, pFar), (.barrierAnd 3, pAndFar), (.barrierAnd 3, pAndBad)].map (fun p => (next (exec p.1 p.2)).map
    (fun t => ((t.queue 3).qstat, (t.queue 3).rdidx))) = [some (2, 0), some (2, 0), some (1, 0)] := by decide +kernel
/-- The record of a resumed queue, performed before, is made and not performed again. -/
theorem test_resumption_was_announced : (let s : State := { wFront [] with queues := [(3, { qstat := 9 })], ring := 0x10000, ringLen := 8192 }
    [s, s.announce 3 3 [0, 0]].map (fun s => (next (exec (.queueResume 3) s)).map (fun t => ((t.queue 3).qstat, t.journalSeq, t.unmade.length)))) =
    List.replicate 2 (some (0, 1, 0)) := by decide +kernel

/-- A context of no group, and one of group 5 that skipped the boundary. -/
theorem witness_MergesOfASkippingMember : ((wLoop false 5).ctx 0).merged = none ∧ ((wLoop false 5).ctx 0).loop.bgrp ≠ 0 ∧ ((wLoop false).ctx 0).loop.bgrp = 0
    ∧ ((wLoop false).ctx 0).merged = none := by decide +kernel
theorem test_skipping_member_marks_miss : [wLoop false, wLoop false 5].map (fun s => (next (exec (.beatMergeTimeout 0) s)).map
    (fun t => ((t.ctx 0).mergeMiss, (t.ctx 0).bgstat, (t.ctx 0).loop.icount))) = [some (false, 0, 0), some (true, 0x80000000, 0)] := by decide +kernel
theorem test_skipping_member_shows_the_count : (next (exec (.beatCount 0 7) (wLoop false 5))).map (fun t => ((t.ctx 0).bgstat, (t.ctx 0).loop.icount)) = some (7, 0) := by
  decide +kernel

/-! ## Further cases of agreed votes -/

/-- The stopped context of `wDead` under ABORT, with no member left, or one. -/
def wDeadAbort (mj : BitVec 16) : State := { wDead with
  gangs := [(0, { team := 0, num := 0, mj := mj })]
  ctxs := [(0, { wDead.ctx 0 with mset := [(0, BitVec.ofNat 128 (1 + 2 ^ 12 + 2 ^ 13 + 2 ^ 32 + 2 ^ 73 + 2 ^ 88 + 2 ^ 104))] })] }
/-- Lane 0 waits for the result of an `mvote` to v4, its flag f0 raised. -/
def wMvote : State := { wTally 1 with
  threads := [(0, { th with place := .entry, flags := [(0, 1)] })]
  gangs := [(0, { team := 0, num := 0, mj := 1, wait := 1, votes := [⟨0, 0, [0], 0, 0, 0, 0, some (some 4, 0)⟩] })] }
/-- Lane 0 runs ahead as the result will say, with two beats and a store to offset 0 of the scratchpad held, and may be stopped or faulted. -/
def heldSt : SshEntry := ⟨0, 0, 1, 0, 0, false, 1, 0x5A⟩
def wAhead (th' : Thread) (sq : Option Nat := none) : State := { wSquash with
  threads := [(0, { th' with place := .entry, spec := true, heldBeats := 2 })]
  gangs := [(0, { team := 0, num := 0, mj := 1, wait := 1, spec := some { ahead with squash := sq } })]
  cores := [(0, { ctx := some 0, ssh := [heldSt], wd := 7 })] }
def told (o : Nat) : SeqReport := ⟨b2n (o == 1), 1, o == 3, o == 2, 0⟩
theorem witness_FurtherVotes : Mset.dpol ((wDeadAbort 0).ctx 0 |>.msetOf 0) = true ∧ (wDeadAbort 0).lateMembers 0 0 (Mset.seq ((wDeadAbort 0).ctx 0 |>.msetOf 0)) = 0
    ∧ (wDeadAbort 1).lateMembers 0 0 (Mset.seq ((wDeadAbort 1).ctx 0 |>.msetOf 0)) ≠ 0 ∧ (∀ o ∈ (wDeadAbort 1 |>.ctx 0).openSeqs, o.reg = 0 → o.closed = false)
    ∧ (wDeadAbort 1).inGroup ((wDeadAbort 1).ctx 0) ((wDeadAbort 1).ctx 0 |>.msetOf 0) = true ∧ Mset.dgn ((wDeadAbort 1).ctx 0 |>.msetOf 0) ≠ 0
    ∧ ({ told 1 with seq := 5 } : SeqReport).seq ≠ Mset.seq ((wResolve.ctx 0).msetOf 0) ∧ (wResolve.thr 0 0).hnd = false
    ∧ wMvote.ctxGangs 0 = [gangKey 0 0] ∧ (wMvote.gang 0 0).votes = [⟨0, 0, [0], 0, 0, 0, 0, some (some 4, 0)⟩] ∧ (wMvote.gang 0 0).spec = none
    ∧ (wAhead th).ctxGangs 0 = [gangKey 0 0] ∧ ((wAhead th).gang 0 0).spec = some { ahead with squash := none } ∧ ahead.seq = Mset.seq (((wAhead th).ctx 0).msetOf 0)
    ∧ ((wAhead th).gang 0 0).votes = [] ∧ heldSt.space ≠ 0 ∧ (∀ o ∈ [2, 3, 4], ((wAhead th (some o)).gang 0 0).spec = some { ahead with squash := some o })
    ∧ ((ahead.snap.map (·.2.hnd)) = [false]) := by decide +kernel
theorem test_dead_device_aborts_for_late_members : [0, 1].map (fun m => (next (exec (.graceExpire 0 0) (wDeadAbort m))).map
    (fun t => (t.ctx 0).openSeqs.map (fun o => (o.t, o.v)))) = [some [(0, 0)], some [(3, 3)]] := by decide +kernel
theorem test_earlier_report_is_discarded : next (exec (.sequenceResolution 0 0 { told 1 with seq := 5 }) wResolve) = some wResolve := by decide +kernel
theorem test_vote_without_direction : [2, 3].map (fun o => (next (exec (.sequenceResolution 0 0 (told o)) wResolve)).map
    (fun t => ((t.thr 0 0).fcode, (t.thr 0 0).frame.extractLsb' 64 32, (t.thr 0 0).fpos))) = [some (0x16, 5, 0x1000), some (0x16, 3, 0x1000)] := by decide +kernel
theorem test_mvote_completes : [1, 2].map (fun o => (next (exec (.sequenceResolution 0 0 (told o)) wMvote)).map
    (fun t => ((t.thr 0 0).readV 64 4, (t.thr 0 0).flag 0, (t.thr 0 0).flagFault.map (·.2.finfo), (t.gang 0 0).votes.length))) =
    [some (0x101, 0, [], 0), some (0, 0, [5], 0)] := by decide +kernel
theorem test_run_ahead_commits : [th, { th with heldFault := some ⟨5, 3, 0⟩ }].map (fun y => (next (exec (.sequenceResolution 0 0 (told 1)) (wAhead y))).map
    (fun t => ((t.thr 0 0).spec, (t.thr 0 0).fcode, (t.team 0).spadByte 0, (t.core 0).beatAcc, (t.core 0).wd))) =
    [some (false, 0, 0x5A, 2, 0), some (false, 5, 0x5A, 2, 0)] := by decide +kernel
theorem test_run_ahead_squashed_without_direction : [2, 3, 4].map (fun o => (next (exec (.specSquash 0 0) (wAhead th (some o)))).map
    (fun t => ((t.thr 0 0).fcode, (t.thr 0 0).pos, (t.thr 0 0).readV 64 1, (t.core 0).ssh.length))) =
    [some (0x16, 0x1000, 77, 0), some (0x16, 0x1000, 77, 0), some (0, 0x1000, 77, 0)] := by decide +kernel
/-- R427: the header that waits for f0, whose `mvote` had no direction; and the performing of a held store of global memory. -/
def wFlagged : State := { wForm with
  mem := [(0, 1), (1, 0x10), (0x1000, 0x3F)] ++ (List.range 8).map (fun i => (0x2000 + i, (leBytes 8 (BitVec.toNat (hdr ||| 4))).getD i 0))
    ++ [(0x2008, 0x58), (0x2009, 0xC3), (0x200A, 0xFD), (0x200B, 0xFF), (0x200C, 0xFF), (0x200D, 0xFF), (0x200E, 0x3F)]
  threads := [(0, { th with place := .entry, pos := 0x201F, flagFault := [(0, ⟨0x16, 5, 0⟩)] })] }
def gSt (byp : Bool) : SshEntry := ⟨0, 0, 0, 0x102, 0, byp, 2, 0x7700⟩
theorem witness_FlagFaultsAndHeldStores : posIdx (wFlagged.thr 0 0).pos = 31 ∧ (wFlagged.fetchHdr 0 (wFlagged.gangGrid 0 0) true 0x2000).toOption.isSome = true
    ∧ Hdr.fwait (hdr ||| 4) 0 = true ∧ Tbl.look (wFlagged.thr 0 0).flagFault 0 = some ⟨0x16, 5, 0⟩ ∧ (gSt false).mask ≠ 0
    ∧ (∀ i < 32, (wMem.thr 0 i).relFence = false) ∧ wMem.physBad (64 * (32 * 0x102 / 64)) 64 = false := by decide +kernel
theorem test_flag_fault_at_the_header : (match wFlagged.entryOf 0 0 with
    | (_, .fault i y) => some (i.code, i.finfo, y.flagFault)
    | _ => none) = some (0x16, 5, []) := by decide +kernel
theorem test_held_store_performed : [true, false].map (fun b => let t := wMem.performHeld 0 0 (gSt b)
    (Memory.getBytes t.mem 0x2040 3, (List.range 3).map (fun i => t.viewByte 0 0 (0x2040 + i)))) = [([1, 0x77, 3], [1, 0x77, 3]), ([1, 2, 3], [1, 0x77, 3])] := by decide +kernel

/-! ## Further cases of halts, copies, pins, messages and the firmware -/

/-- A drain that D ended at 7 ps; a drain under way; a core with a count at its limit and a thread that has exited; a chunk that came early. -/
def wEnded : State := { wPre .halting [(0, 5)] with ctxs := [(0, { (wPre .halting [(0, 5)]).ctx 0 with drainEnd := 7, haltAt := 3 })] }
def wClear : State := { wPre .running with cores := [(0, { ctx := some 0, wd := 0x10000000000 })], threads := [(0, { th with place := .out, exited := true })] }
def wEarly : State := { wSaved with early := [msg 2 1 72, { msg 2 1 80 with dctx := 5 }], ctxs := [(0, { run := .saved, migrate := some (1, 9) })] }
theorem witness_EndsOfDrainsAndClears : wEnded.cutAt 0 = 8000007 ∧ (wPre .halting [(0, 1)]).cutAt 0 = 8000000 ∧ wClear.expired 0 = true
    ∧ wClear.clearing 0 = some (.threadFree 0 0) ∧ (wPre .running).clearing 0 = none ∧ (wEarly.ctx 0).run = .saved ∧ (∀ y ∈ wEarly.dirtyPages, y.1 ≠ 0)
    ∧ (∃ e ∈ ((wPre .halting [(0, 1)]).ctx 0).chosen, e.2 = 1) := by decide +kernel
theorem test_drain_ends_and_saves : (next (exec (.drainDeadline 0) { wPre .halting [(0, 1)] with time := 200000000 })).map
    (fun t => ((t.ctx 0).chosen, (t.ctx 0).drainEnd)) = some ([(0, 5)], 200000000)
    ∧ (next (exec (.preemptChoose 0 0) wEnded)).map (fun t => (t.teams, (t.ctx 0).saved.map (·.id))) = some ([], [0]) := by decide +kernel
theorem test_clear_goes_first : wClear.instead (.watchdogExpire 0) = .threadFree 0 0 := by decide +kernel
theorem test_early_chunk_is_turned_away : (next (exec (.liveMigrate 0 1 9) wEarly)).map (fun t => (t.early.map (·.dctx), t.outbox.map (fun o => (o.2.kind, o.2.xtra)))) =
    some ([5], [(4, 0x00090001)]) := by decide +kernel

/-- Two requests of a sealed partition of one pair: with 1 AE held, the first does not fit its 2 AE, and holds the second. -/
def wSealed : State := { wCp (cp .leave) with
  parts := [(0, { built := true, ncores := 2, rmt := [(0, 0x8000), (1, 0x8001)], isSealed := true })]
  dies := [(0, { queue := [⟨0, true, 0, 2, 0, 0⟩, ⟨1, true, 0, 1, 0, 0⟩], permits := [(7, 1, 0)] })] }
theorem witness_SealedRequestsInOrder : wSealed.isSealed 0 = true ∧ 2 * wSealed.sealedPairs 0 (wSealed.ctx 0).part < wSealed.heldAE 0 (fun c => (wSealed.ctx c).part == (wSealed.ctx 0).part) + 2 := by
  decide +kernel
theorem test_sealed_request_holds_the_next : (next (exec (.leaveGrant 0) wSealed)).map (fun t => (t.die 0).queue.map (·.id)) = some [0, 1] := by decide +kernel

/-- Core 2 holds the set that core 0 needs, and waits for a set that core 4, which goes on, holds. -/
def wChain : State := let s := wPins [] [(2, other), (4, { ctx := some 0, fifo := [{ ent mmaOp with id := 11, started := true, fetched := 2, pins := [(0x80, 0x80 + 2 ^ 18)] }] })]
  { s with l2 := s.l2 ++ (List.range 4).map (fun i => (0x80 + 2 ^ 18 * (i + 1), ({ key := 0, way := i, use := 0, owner := none, pins := 1, bad := false } : L2Line))) }
theorem witness_ChainOfWaits : 2 ∈ wChain.holders 0 0x40 ∧ wChain.stuckLine 2 = some 0x80 ∧ 4 ∈ wChain.holders 2 0x80 ∧ wChain.stuckLine 4 = none
    ∧ wChain.pinHolder 0 0x40 = some 4 := by decide +kernel

/-- A redirect that came before; a failure of cause 9 told by rank 3 where rank 1 has gone. -/
def wAgain : State := { wSent with received := [nackName turned] }
def xLost : Copy := { xc .failed { cc with gone := [1], failing := some 3 } with err := some ⟨0x17, 9 * 2 ^ 5, 0, 0⟩ }
theorem witness_RedirectsAndLosses : nackName turned ∈ wAgain.received ∧ nackName turned ∉ wSent.received ∧ xLost.causeOf = 9 := by decide +kernel
theorem test_redirect_is_met_once : [wAgain, wSent].map (fun s => (next (exec (.nackWithRedirect turned) s)).map (fun t => (t.outbox.length, t.received.length))) =
    [some (1, 1), some (2, 1)] := by decide +kernel
theorem test_lowest_lost_rank : (xLost.statusBytes.drop 6).take 2 = [1, 0] := by decide +kernel

/-- A packet fetched into QD0 of page 0, whose area firmware maps at 0x9000. -/
def wFetchPage : State := { wAmz 3 0x9800 with vcpPages := some 0x9000, fwMap := (wAmz 3 0x9800).fwMap ++ [⟨0x9000, 0x1000, 0x9000, 0⟩] }
theorem witness_FetchIntoAPage : (wAmz 3 0x4040).anyBad = false ∧ wFetchPage.pageAt 0x9800 = some (0, 0x800) ∧ wFetchPage.fwAddr 0x9800 64 = some (0x9800, 0) := by decide +kernel
theorem test_qfetch_into_a_page : (next (exec (.amzQfetch 10 11 12) wFetchPage)).map (fun t => ((t.vcp 0).area, Memory.get t.mem 0x9800)) = some ([(0, 7)], 0) := by
  decide +kernel

/-- R371: VCP 1 was set to state 1 by record 1, not made, and to state 2 by record 2, made. -/
def wStates : State := let s := (wRing.announce 5 1 [1]).announce 5 1 [2]
  { s with unmade := s.unmade.filter (·.seq == 1), vcps := [(1, { st := 2 })] }
theorem witness_SeriesOfRecords : (wStates.series 1 4).length = 2 ∧ (wStates.recordAt 3).seq.toNat ≠ 3 ∧ (wStates.replayList [] (wStates.series 1 4)).2.1 = []
    ∧ ((wStates.series 1 4).map (·.seq)).Nodup ∧ (∃ m ∈ wStates.unmade, m.seq = 1) ∧ wStates.vcpPages = none
    ∧ ((wStand 0).announce 4 1 [0]).announced 4 1 [0] = some 1 ∧ (wStand 0).announced 4 1 [0] = none := by decide +kernel
theorem test_later_record_has_the_last_word : (let t := (wStates.replayList [] (wStates.series 1 4)).1; ((t.vcp 1).st, t.unmade)) = (2, []) := by decide +kernel
end Sys2Proof.Tests
end

section
/-!
The obligations on the state after reset, on stores, and on loading and storing a distribution register.
-/
namespace Sys2Proof.Machine

/-! ## The state after reset -/

theorem State.reset_thr (c k : Nat) : State.reset.thr c k = {} := rfl
theorem State.reset_gang (c g : Nat) : State.reset.gang c g = { team := 0, num := 0 } := rfl
theorem State.reset_core (c : Nat) : State.reset.core c = {} := rfl
theorem State.reset_die (d : Nat) : State.reset.die d = {} := rfl
theorem State.reset_ctx (x : Nat) : State.reset.ctx x = {} := rfl

/-- A v register that nothing has written reads as zero, whether it lies below REGS or not (R58). -/
theorem Thread.readV_of_unwritten {th : Thread} (h : th.v = []) (regs n : Nat) : th.readV regs n = 0 := by
  unfold Thread.readV
  split
  · rw [h]; rfl
  · rfl

/-- Settles O4: an unlisted thread, gang, core, die or context is the record of its defaults, which are the spec's values. -/
theorem resetLeavesTheStatedValues : Obligations.ResetLeavesTheStatedValues := by
  unfold Obligations.ResetLeavesTheStatedValues
  refine ⟨⟨fun c k => ?thread, fun c g => ?gang, fun c => ?core, fun d => ?die, fun x => ?ctx, rfl⟩, rfl, fun _ => rfl⟩
  case thread =>
    rw [State.reset_thr]
    exact ⟨rfl, rfl, rfl, rfl, rfl, rfl, rfl, rfl, fun _ => rfl, fun n => ⟨Thread.readV_of_unwritten rfl 256 n, rfl⟩⟩
  case gang => rw [State.reset_gang]; exact ⟨rfl, rfl, fun _ => rfl⟩
  case core => rw [State.reset_core]
  case die => rw [State.reset_die]; exact ⟨rfl, rfl, rfl⟩
  case ctx => rw [State.reset_ctx]; exact ⟨rfl, rfl, rfl, rfl, rfl, rfl, rfl, rfl⟩

/-! ## A pass that lists a slot twice

The clauses of O37 and O40 on the scratchpad let a pass list one slot twice: they take `Executes`, which does not forbid it, and lack the
premise `ks.Nodup` that the clauses on a store to the window have. A lane whose base is %clk and whose offset is %clkh then takes two turns.
Its first turn latches %clkh (R59), and its second forms another address from that, where both statements fix the address by the
state before the first. The record of a pass describes its slots as ascending; the statements' premises do not say so. -/

/-- An instruction that pushes nothing and reads no channel leaves the teams' channels as they are. -/
theorem State.useChans_fst_of_silent (s : State) (c : Nat) (x : Pass) {outs : List (Nat × LaneOut)} (h : ∀ e ∈ outs, e.2.push = none) :
    (s.useChans c x false outs).1 = s := by
  have hpushed : ∀ gs, pushed gs outs = [] := fun gs => by
    refine List.filterMap_eq_nil_iff.mpr fun e he => ?_
    simp [h e he]
  have hgang : ∀ (y : Pass) gs, (useChan c x.hdr false outs (s, y) gs).1 = s := fun y gs => by
    simp only [useChan, hpushed, State.popChan, State.fillChan]
  unfold State.useChans
  generalize gangsOf (outs.map (·.1)) = gangs
  suffices H : ∀ y : Pass, (gangs.foldl (useChan c x.hdr false outs) (s, y)).1 = s from H x
  induction gangs with
  | nil => exact fun _ => rfl
  | cons g r ih =>
    intro y
    rw [List.foldl_cons, show useChan c x.hdr false outs (s, y) g = (s, (useChan c x.hdr false outs (s, y) g).2) from
      Prod.ext (hgang y g) rfl]
    exact ih _

/-- After lanes that read no channel the teams are those that the last lane left. -/
theorem GoesOn.teams_of_silent {s t : State} {c p : Nat} {x : Pass} {ks : List Nat} {th : Nat → Thread}
    (h : GoesOn s t c p x false (ks.map (fun k => (k, ({ th := th k } : LaneOut))))) : t.teams = s.teams := by
  rw [h.teams, State.useChans_fst_of_silent]
  intro e he
  obtain ⟨k, -, rfl⟩ := List.mem_map.mp he
  rfl

/-- A pass that goes on leaves the threads as the last lane left them. -/
theorem GoesOn.thr {s t : State} {c p : Nat} {x : Pass} {reads : Bool} {outs : List (Nat × LaneOut)} (h : GoesOn s t c p x reads outs)
    (d j : Nat) : t.thr d j = s.thr d j := by
  rw [h.rest]; rfl

namespace TwiceListed

/-- The state that an outcome goes on to. -/
def nextState : Host.Outcome State Fault Refusal → Option State
  | .next t => some t
  | _ => none

/-- A pass that lists slot 0 twice. -/
def pass : Pass := { id := 0, clause := 0, hdr := 0, start := 0, idx := 0, body := [], slots := [0, 0] }

/-- %clk reads 0, the %clkh latched before is 0, and the next latch makes it 64. Scratchpad holds 1 at address 64 and zeros elsewhere. -/
def state : State := { State.reset with
  cores := [(0, { cycle := 0x4000000000, pipes := [(0, pass)] })]
  teams := [(0, { grid := 0, num := 0, lcore := 0, core := 0, footprint := 0, scratch := [(64, 1)] })]
  grids := [(0, { (default : Grid) with scrsize := 128, dregs := 1 })] }

/-- An access to scratchpad at the address %clk + %clkh. -/
def fields (dst : Operand) : Fields :=
  { guard := ⟨7, false⟩, minor := 1, ty := .u8, md := 0, slot := 0, dst := dst, sa := .special 10, sb := .none, sc := .special 11, imm := none }

theorem executes (dst : Operand) : Executes state 0 0 pass (fields dst).guard [0, 0] := ⟨rfl, rfl, by decide⟩

/-- `st.spad.u8` of the value 2: the second turn stores at address 64. -/
theorem st_second_turn : (nextState (exec (.st (fields (.inline 18))) state)).map (fun t => (t.team 0).spadByte 64) = some 2 := by
  decide +kernel

/-- `dld` of d0: the second turn loads the image at address 64, whose first byte is 1. -/
theorem dld_second_turn : (nextState (exec (.dld (fields (.v 0))) state)).map (fun t => lineByte ((t.thr 0 0).readD 0) 0) = some 1 := by
  decide +kernel

end TwiceListed

/-- Refutes O37, by the clause on the scratchpad: it fixes a lane's address by the state before the instruction, 0, and the second turn of a
slot that the pass lists twice stores at address 64. -/
theorem not_storeResults : ¬ Obligations.StoreResults := by
  unfold Obligations.StoreResults
  intro h
  obtain ⟨-, spad, -⟩ := h (TwiceListed.fields (.inline 18)) TwiceListed.state 0 0 TwiceListed.pass 1 0 rfl rfl (by decide)
  obtain ⟨t, hexec, u, turns, on⟩ := spad [0, 0] (fun _ => 0) (fun _ => [2]) (TwiceListed.executes _) rfl (by decide +kernel)
  obtain ⟨u1, ⟨frame1, -, -, byte1⟩, u2, ⟨-, -, -, byte2⟩, last⟩ := turns
  have stored : (t.team 0).spadByte 64 = 2 := by
    have := TwiceListed.st_second_turn
    rw [hexec] at this
    exact Option.some.inj this
  have kept : (t.team 0).spadByte 64 = 1 := by
    have gangs : u1.gangs = [] := by rw [frame1]; rfl
    have team : ((TwiceListed.pass.lane 0 0).gang (u1.latch (TwiceListed.pass.lane 0 0) (TwiceListed.fields (.inline 18)))).team = 0 := by
      show (Tbl.at u1.gangs _ _).team = 0
      rw [gangs]; rfl
    rw [team] at byte2
    calc (t.team 0).spadByte 64 = (u2.team 0).spadByte 64 := by unfold State.team; rw [on.teams_of_silent, last]
      _ = (u1.team 0).spadByte 64 := byte2 64
      _ = 1 := byte1 64
  exact absurd (stored.symm.trans kept) (by decide)

/-- Refutes O40, by the clause on `dld` from the scratchpad: it fixes the image by the address of the state before the instruction, 0, and the
second turn of a slot that the pass lists twice loads the one at address 64. -/
theorem not_distributionLoadAndStoreResults : ¬ Obligations.DistributionLoadAndStoreResults := by
  unfold Obligations.DistributionLoadAndStoreResults
  intro h
  obtain ⟨near, -⟩ := h (TwiceListed.fields (.v 0)) TwiceListed.state 0 0 TwiceListed.pass 0 rfl (by decide)
  obtain ⟨⟨t, hexec, u, turns, on⟩, -⟩ := near [0, 0] (fun _ => 0) (TwiceListed.executes _) (.inl rfl) (by decide +kernel)
  obtain ⟨u1, -, u2, ⟨-, -, image, -⟩, last⟩ := turns
  have loaded : lineByte ((t.thr 0 0).readD 0) 0 = 1 := by
    have := TwiceListed.dld_second_turn
    rw [hexec] at this
    exact Option.some.inj this
  have first : lineByte ((t.thr 0 0).readD 0) 0 = 0 := by
    rw [on.thr, last]
    exact image 0 (by decide)
  exact absurd (loaded.symm.trans first) (by decide)

end Sys2Proof.Machine
end

section
/-!
The obligations on encoding and decoding: a word and its fields, a row of the opcode map and its instruction, bytes and words, each
there and back.
-/
namespace Sys2Proof

/-! ## Specifiers and types -/

theorem Operand.ofSpec_toSpec (o : Operand) : Operand.ofSpec o.toSpec = o := by
  cases o with
  | v n => revert n; decide
  | g n => revert n; decide
  | t n => revert n; decide
  | q n => revert n; decide
  | special n => revert n; decide
  | inline n => revert n; decide
  | const n => revert n; decide
  | rsv n => revert n; decide
  | pred n => revert n; decide
  | none => rfl

theorem Operand.toSpec_ofSpec (w : BitVec 9) : (Operand.ofSpec w).toSpec = w := by revert w; decide

theorem Ty.ofCode_code (t : Ty) : Ty.ofCode t.code = some t := by cases t <;> rfl

theorem Ty.code_ofCode {c : BitVec 4} {t : Ty} (h : Ty.ofCode c = some t) : t.code = c := by
  revert c t; decide +revert

/-- An instruction has fields exactly where it has a form. -/
theorem Instr.fields_isSome_iff (i : Instr) : i.fields.isSome = i.form.isSome := by cases i <;> rfl

/-- A form with an extension admits no other length. -/
theorem Instr.form_len128 {i : Instr} {k : Form} (h : i.form = some k) (hk : k.len128 = true) : k.len64 = false ∧ k.len96 = false := by
  have hform : (!k.len128 || (!k.len64 && !k.len96)) = true := by cases i <;> cases h <;> rfl
  simpa [hk] using hform

/-- The opcode map gives every well-formed instruction back from its own MAJOR, fields and extension. -/
theorem Instr.select_back : ∀ i : Instr, Laws.Selects.Statement i
  | .iadd _ => Laws.Selects.iadd _
  | .isub _ => Laws.Selects.isub _
  | .addc _ => Laws.Selects.addc _
  | .imul _ => Laws.Selects.imul _
  | .imulh _ => Laws.Selects.imulh _
  | .imad _ => Laws.Selects.imad _
  | .iabs _ => Laws.Selects.iabs _
  | .ineg _ => Laws.Selects.ineg _
  | .imin _ => Laws.Selects.imin _
  | .imax _ => Laws.Selects.imax _
  | .iclamp _ => Laws.Selects.iclamp _
  | .shl _ => Laws.Selects.shl _
  | .shr _ => Laws.Selects.shr _
  | .sar _ => Laws.Selects.sar _
  | .rotl _ => Laws.Selects.rotl _
  | .andOp _ => Laws.Selects.andOp _
  | .orOp _ => Laws.Selects.orOp _
  | .xorOp _ => Laws.Selects.xorOp _
  | .andn _ => Laws.Selects.andn _
  | .blut _ => Laws.Selects.blut _
  | .popc _ => Laws.Selects.popc _
  | .clz _ => Laws.Selects.clz _
  | .ctz _ => Laws.Selects.ctz _
  | .brev _ => Laws.Selects.brev _
  | .bfx _ => Laws.Selects.bfx _
  | .bfi _ => Laws.Selects.bfi _
  | .bperm _ => Laws.Selects.bperm _
  | .icmp _ => Laws.Selects.icmp _
  | .isel _ => Laws.Selects.isel _
  | .lea _ => Laws.Selects.lea _
  | .mov _ => Laws.Selects.mov _
  | .movi _ => Laws.Selects.movi _
  | .tidx _ => Laws.Selects.tidx _
  | .fadd _ => Laws.Selects.fadd _
  | .fsub _ => Laws.Selects.fsub _
  | .fmul _ => Laws.Selects.fmul _
  | .ffma _ => Laws.Selects.ffma _
  | .fmin _ => Laws.Selects.fmin _
  | .fmax _ => Laws.Selects.fmax _
  | .fcmp _ => Laws.Selects.fcmp _
  | .fsel _ => Laws.Selects.fsel _
  | .fclass _ => Laws.Selects.fclass _
  | .frnd _ => Laws.Selects.frnd _
  | .hadd2 _ => Laws.Selects.hadd2 _
  | .hmul2 _ => Laws.Selects.hmul2 _
  | .hfma2 _ => Laws.Selects.hfma2 _
  | .fdot2 _ => Laws.Selects.fdot2 _
  | .fcvt _ => Laws.Selects.fcvt _
  | .i2f _ => Laws.Selects.i2f _
  | .f2i _ => Laws.Selects.f2i _
  | .bxpack _ => Laws.Selects.bxpack _
  | .bxunpack _ => Laws.Selects.bxunpack _
  | .hcvt _ => Laws.Selects.hcvt _
  | .frcp _ => Laws.Selects.frcp _
  | .frsq _ => Laws.Selects.frsq _
  | .fsqrt _ => Laws.Selects.fsqrt _
  | .fex2 _ => Laws.Selects.fex2 _
  | .flg2 _ => Laws.Selects.flg2 _
  | .fsin _ => Laws.Selects.fsin _
  | .fcos _ => Laws.Selects.fcos _
  | .ftanh _ => Laws.Selects.ftanh _
  | .vote _ => Laws.Selects.vote _
  | .ballot _ => Laws.Selects.ballot _
  | .matchOp _ => Laws.Selects.matchOp _
  | .shfl _ => Laws.Selects.shfl _
  | .scan _ => Laws.Selects.scan _
  | .lred _ => Laws.Selects.lred _
  | .lpart _ => Laws.Selects.lpart _
  | .umov _ => Laws.Selects.umov _
  | .chopen _ => Laws.Selects.chopen _
  | .chclose _ => Laws.Selects.chclose _
  | .barArrive _ => Laws.Selects.barArrive _
  | .barWait _ => Laws.Selects.barWait _
  | .barSync _ => Laws.Selects.barSync _
  | .dmake _ => Laws.Selects.dmake _
  | .dconst _ => Laws.Selects.dconst _
  | .dld _ => Laws.Selects.dld _
  | .dst _ => Laws.Selects.dst _
  | .dadd _ => Laws.Selects.dadd _
  | .dsub _ => Laws.Selects.dsub _
  | .dmul _ => Laws.Selects.dmul _
  | .dmax _ => Laws.Selects.dmax _
  | .dmin _ => Laws.Selects.dmin _
  | .dfma _ => Laws.Selects.dfma _
  | .dscale _ => Laws.Selects.dscale _
  | .doffs _ => Laws.Selects.doffs _
  | .dcond _ => Laws.Selects.dcond _
  | .dtag _ => Laws.Selects.dtag _
  | .dalign _ => Laws.Selects.dalign _
  | .dmom _ => Laws.Selects.dmom _
  | .dqnt _ => Laws.Selects.dqnt _
  | .dcdf _ => Laws.Selects.dcdf _
  | .dmix _ => Laws.Selects.dmix _
  | .ld _ => Laws.Selects.ld _
  | .st _ => Laws.Selects.st _
  | .ldc _ => Laws.Selects.ldc _
  | .pref _ => Laws.Selects.pref _
  | .atom _ => Laws.Selects.atom _
  | .atomcas _ => Laws.Selects.atomcas _
  | .red _ => Laws.Selects.red _
  | .fence _ => Laws.Selects.fence _
  | .racq _ => Laws.Selects.racq _
  | .tcopy _ _ => Laws.Selects.tcopy _ _
  | .tcopyx _ _ => Laws.Selects.tcopyx _ _
  | .tseal _ => Laws.Selects.tseal _
  | .tlay _ _ => Laws.Selects.tlay _ _
  | .tlayGrid _ _ => Laws.Selects.tlayGrid _ _
  | .mma _ _ => Laws.Selects.mma _ _
  | .mzero _ => Laws.Selects.mzero _
  | .maccrd _ => Laws.Selects.maccrd _
  | .maccwr _ => Laws.Selects.maccwr _
  | .bobj _ => Laws.Selects.bobj _
  | .bstat _ => Laws.Selects.bstat _
  | .jmp _ => Laws.Selects.jmp _
  | .br _ => Laws.Selects.br _
  | .brx _ => Laws.Selects.brx _
  | .call _ => Laws.Selects.call _
  | .callR _ => Laws.Selects.callR _
  | .ret _ => Laws.Selects.ret _
  | .retFault _ => Laws.Selects.retFault _
  | .exit _ => Laws.Selects.exit _
  | .park _ => Laws.Selects.park _
  | .cbr _ _ => Laws.Selects.cbr _ _
  | .mjoin _ => Laws.Selects.mjoin _
  | .mleave _ => Laws.Selects.mleave _
  | .mvote _ => Laws.Selects.mvote _
  | .sfence _ => Laws.Selects.sfence _
  | .ccoll _ _ => Laws.Selects.ccoll _ _
  | .sysr _ => Laws.Selects.sysr _
  | .sysw _ => Laws.Selects.sysw _
  | .tlbinv _ => Laws.Selects.tlbinv _
  | .loopWrite _ => Laws.Selects.loopWrite _
  | .msetWrite _ => Laws.Selects.msetWrite _
  | .pgbudgetWrite _ => Laws.Selects.pgbudgetWrite _
  | .beat _ => Laws.Selects.beat _
  | .launch _ => Laws.Selects.launch _
  | .trap _ => Laws.Selects.trap _
  | .brk _ => Laws.Selects.brk _
  | .nop _ => Laws.Selects.nop _
  | .hint _ => Laws.Selects.hint _
  | .longLatencyComplete _ _ _ _ => Laws.Selects.longLatencyComplete _ _ _ _
  | .contextKill _ => Laws.Selects.contextKill _
  | .passForm _ _ => Laws.Selects.passForm _ _
  | .parkDue _ _ => Laws.Selects.parkDue _ _
  | .spill _ => Laws.Selects.spill _
  | .tempRefreshSwitch _ _ => Laws.Selects.tempRefreshSwitch _ _
  | .rowRefresh _ _ => Laws.Selects.rowRefresh _ _
  | .threadFree _ _ => Laws.Selects.threadFree _ _
  | .launchPacket _ => Laws.Selects.launchPacket _
  | .waitSignal _ => Laws.Selects.waitSignal _
  | .writeSignal _ => Laws.Selects.writeSignal _
  | .barrierAnd _ => Laws.Selects.barrierAnd _
  | .loopConfig _ => Laws.Selects.loopConfig _
  | .signalRecheck _ => Laws.Selects.signalRecheck _
  | .queueResume _ => Laws.Selects.queueResume _
  | .teamPlace _ _ => Laws.Selects.teamPlace _ _
  | .teamEnd _ => Laws.Selects.teamEnd _
  | .gridComplete _ => Laws.Selects.gridComplete _
  | .allocPass => Laws.Selects.allocPass
  | .ncPreempt _ _ => Laws.Selects.ncPreempt _ _
  | .watchdogExpire _ => Laws.Selects.watchdogExpire _
  | .preemptRequest _ => Laws.Selects.preemptRequest _
  | .passCut _ _ => Laws.Selects.passCut _ _
  | .preemptChoose _ _ => Laws.Selects.preemptChoose _ _
  | .drainDeadline _ => Laws.Selects.drainDeadline _
  | .restore _ _ => Laws.Selects.restore _ _
  | .tempSample _ _ => Laws.Selects.tempSample _ _
  | .thermalMigrate _ => Laws.Selects.thermalMigrate _
  | .liveMigrate _ _ _ => Laws.Selects.liveMigrate _ _ _
  | .copyCheck _ => Laws.Selects.copyCheck _
  | .leaveRequest _ => Laws.Selects.leaveRequest _
  | .leaveGrant _ => Laws.Selects.leaveGrant _
  | .copyDeliver _ => Laws.Selects.copyDeliver _
  | .copyUnitWrite _ => Laws.Selects.copyUnitWrite _
  | .copyComplete _ => Laws.Selects.copyComplete _
  | .mmaStart _ => Laws.Selects.mmaStart _
  | .tfuFetch _ _ => Laws.Selects.tfuFetch _ _
  | .mmaArrive _ => Laws.Selects.mmaArrive _
  | .mzeroComplete _ => Laws.Selects.mzeroComplete _
  | .translationComplete _ _ => Laws.Selects.translationComplete _ _
  | .l2Refetch _ => Laws.Selects.l2Refetch _
  | .setup _ => Laws.Selects.setup _
  | .collectiveChunk _ => Laws.Selects.collectiveChunk _
  | .chunkAcknowledgement _ => Laws.Selects.chunkAcknowledgement _
  | .nackWithRedirect _ => Laws.Selects.nackWithRedirect _
  | .slotRequest _ => Laws.Selects.slotRequest _
  | .slotGrant _ _ => Laws.Selects.slotGrant _ _
  | .slotNack _ _ => Laws.Selects.slotNack _ _
  | .slotRelease _ => Laws.Selects.slotRelease _
  | .beatCount _ _ => Laws.Selects.beatCount _ _
  | .beatMergeTimeout _ => Laws.Selects.beatMergeTimeout _
  | .portDown _ _ => Laws.Selects.portDown _ _
  | .reservedKindDiscard _ => Laws.Selects.reservedKindDiscard _
  | .memberLost _ _ => Laws.Selects.memberLost _ _
  | .collectiveComplete _ => Laws.Selects.collectiveComplete _
  | .tallyClose _ _ => Laws.Selects.tallyClose _ _
  | .graceExpire _ _ => Laws.Selects.graceExpire _ _
  | .specSquash _ _ => Laws.Selects.specSquash _ _
  | .heartbeat _ => Laws.Selects.heartbeat _
  | .takeover _ => Laws.Selects.takeover _
  | .fwcHalt _ => Laws.Selects.fwcHalt _
  | .s2inv _ => Laws.Selects.s2inv _
  | .amzQfetch _ _ _ => Laws.Selects.amzQfetch _ _ _
  | .amzBfx _ _ _ => Laws.Selects.amzBfx _ _ _
  | .amzBfxS _ _ _ => Laws.Selects.amzBfxS _ _ _
  | .amzSigwait _ _ _ _ => Laws.Selects.amzSigwait _ _ _ _
  | .amzDispatch _ _ _ => Laws.Selects.amzDispatch _ _ _
  | .notify _ _ => Laws.Selects.notify _ _
  | .vcpScan _ _ => Laws.Selects.vcpScan _ _
  | .vcpUnmap _ => Laws.Selects.vcpUnmap _
  | .vfReset _ => Laws.Selects.vfReset _
  | .hsemAcquire _ _ => Laws.Selects.hsemAcquire _ _
  | .hsemRelease _ _ => Laws.Selects.hsemRelease _ _
  | .linkDown _ => Laws.Selects.linkDown _
  | .quote _ _ => Laws.Selects.quote _ _
  | .keyload _ _ _ => Laws.Selects.keyload _ _ _
  | .partOp _ _ => Laws.Selects.partOp _ _
  | .sealOp _ _ _ => Laws.Selects.sealOp _ _ _
  | .vfmap _ _ _ _ => Laws.Selects.vfmap _ _ _ _
  | .fwupdate _ _ _ => Laws.Selects.fwupdate _ _ _
  | .boot _ _ => Laws.Selects.boot _ _
  | .sequenceResolution _ _ _ => Laws.Selects.sequenceResolution _ _ _
  | .actuatorLevelsApply => Laws.Selects.actuatorLevelsApply
  | .functionFailure _ => Laws.Selects.functionFailure _
  | .unassignedOpcode _ _ => Laws.Selects.unassignedOpcode _ _

/-! ## Rows of the opcode map (R63) -/

/-- The instruction's word carries an extension (R54). -/
def Instr.hasExt (i : Instr) : Bool := i.form.any (·.len128)

/-- A reserved MAJOR (R63). -/
def Reserved (m : Nat) : Prop :=
  (0x1E ≤ m ∧ m ≤ 0x1F) ∨ (0x2E ≤ m ∧ m ≤ 0x3F) ∨ (0x4E ≤ m ∧ m ≤ 0x4F) ∨ (0x5C ≤ m ∧ m ≤ 0x5F) ∨ m = 0x6F
    ∨ (0x74 ≤ m ∧ m ≤ 0x7F) ∨ (0x85 ≤ m ∧ m ≤ 0x8F) ∨ (0x94 ≤ m ∧ m ≤ 0x9F) ∨ (0xA6 ≤ m ∧ m ≤ 0xAF)
    ∨ (0xB8 ≤ m ∧ m ≤ 0xBF) ∨ (0xC6 ≤ m ∧ m ≤ 0xCF) ∨ 0xD8 ≤ m

/-- What a row of the opcode map says of its instruction: fields and MAJOR are those of the word, the MAJOR is not reserved, and the
bits of an extension take part only where the instruction carries one. -/
structure IsRow (n : Nat) (f : Fields) (pick : BitVec 64 → Option Instr) (i : Instr) : Prop where
  fields : i.fields = some f
  major : i.major.toNat = n
  assigned : ¬ Reserved n
  ext : i.hasExt = false → ∀ y, pick y = some i

theorem select_row (m : BitVec 8) (f : Fields) (x : BitVec 64) : ∀ i ∈ select m f x, IsRow m.toNat f (select m f) i := by
  unfold select
  generalize m.toNat = n
  split
  -- the rows that MINOR, or the number of a system register, divides
  case h_16 | h_75 | h_108 | h_109 | h_120 =>
    simp only [Option.mem_def, Option.some.injEq, forall_eq']
    split <;> exact ⟨rfl, rfl, by unfold Reserved; decide, fun _ _ => rfl⟩
  case h_97 =>
    simp only [Option.mem_def, Option.some.injEq, forall_eq']
    split <;> exact ⟨rfl, rfl, by unfold Reserved; decide, fun h => nomatch h⟩
  -- the other forms with an extension
  case h_95 | h_98 | h_99 | h_113 | h_118 => rintro i ⟨⟩; exact ⟨rfl, rfl, by unfold Reserved; decide, fun h => nomatch h⟩
  -- the reserved rows
  case h_127 => rintro i ⟨⟩
  all_goals rintro i ⟨⟩; exact ⟨rfl, rfl, by unfold Reserved; decide, fun _ _ => rfl⟩

/-! ## The base word (R52) -/

open Laws.Selects in
/-- The fields of a base word that was built from its fields. -/
theorem encodeBase_parts (len : BitVec 2) (major : BitVec 8) (f : Fields) :
    let b := encodeBase len major f
    b.extractLsb' 0 2 = len ∧ b.extractLsb' 2 8 = major ∧ b.extractLsb' 10 4 = f.minor ∧ b.extractLsb' 14 3 = f.guard.pred
      ∧ b.getLsbD 17 = f.guard.neg ∧ b.extractLsb' 18 9 = f.dst.toSpec ∧ b.extractLsb' 27 9 = f.sa.toSpec
      ∧ b.extractLsb' 36 9 = f.sb.toSpec ∧ b.extractLsb' 45 9 = f.sc.toSpec ∧ b.extractLsb' 54 3 = f.slot
      ∧ b.extractLsb' 57 3 = f.md ∧ b.extractLsb' 60 4 = f.ty.code := by
  have h1 := len.isLt; have h2 := major.isLt; have h3 := f.minor.isLt; have h4 := f.guard.pred.isLt
  have h5 := b2n_lt f.guard.neg; have h6 := f.dst.toSpec.isLt; have h7 := f.sa.toSpec.isLt; have h8 := f.sb.toSpec.isLt
  have h9 := f.sc.toSpec.isLt; have h10 := f.slot.isLt; have h11 := f.md.isLt; have h12 := f.ty.code.isLt
  simp only [encodeBase, extract_ofNat, getLsbD_ofNat]
  exact ⟨ofNat_eq_of (by omega), ofNat_eq_of (by omega), ofNat_eq_of (by omega), ofNat_eq_of (by omega), decide_b2n _ _ (by omega),
    ofNat_eq_of (by omega), ofNat_eq_of (by omega), ofNat_eq_of (by omega), ofNat_eq_of (by omega), ofNat_eq_of (by omega),
    ofNat_eq_of (by omega), ofNat_eq_of (by omega)⟩

/-- A base word is built from the fields that it shows. -/
theorem encodeBase_ofRaw {r : Raw} {f : Fields} (h : Fields.ofRaw r = some f) : encodeBase r.len r.major f = r.base := by
  unfold Fields.ofRaw at h
  split at h
  · cases h
  · next t ht =>
    cases h
    have hb := r.base.isLt
    have hneg : b2n (r.base.getLsbD 17) = r.base.toNat / 2 ^ 17 % 2 := by
      rw [BitVec.getLsbD, Nat.testBit_eq_decide_div_mod_eq]
      have := Nat.mod_two_eq_zero_or_one (r.base.toNat / 2 ^ 17)
      rcases this with e | e <;> rw [e] <;> rfl
    apply BitVec.eq_of_toNat_eq
    simp only [encodeBase, Raw.len, Raw.major, Raw.guard, Operand.toSpec_ofSpec, Ty.code_ofCode ht, hneg, BitVec.toNat_ofNat,
      BitVec.extractLsb'_toNat, Nat.shiftRight_eq_div_pow]
    omega

theorem Fields.ofRaw_encodeBase (len : BitVec 2) (major : BitVec 8) (f : Fields) (ext : DWord)
    (himm : f.imm = if len = 1 then some (ext.extractLsb' 0 32) else none) :
    Fields.ofRaw ⟨encodeBase len major f, ext⟩ = some f := by
  obtain ⟨hlen, -, hminor, hpred, hneg, hdst, hsa, hsb, hsc, hslot, hmd, hty⟩ := encodeBase_parts len major f
  simp only [Fields.ofRaw, hty, Ty.ofCode_code, Raw.guard, Raw.len, hlen, hminor, hpred, hneg, hdst, hsa, hsb, hsc, hslot, hmd,
    Operand.ofSpec_toSpec, beq_iff_eq, ← himm]

/-! ## Body words -/

/-- A well-formed instruction with fields has a form, whose check finds no breach in them. -/
theorem Instr.wf_iff {i : Instr} {k : Form} {f : Fields} (hk : i.form = some k) (hf : i.fields = some f) :
    i.wf = true ↔ k.breach i.lenCode f = none ∧ (k.len128 = true → f.imm = none) ∧ i.extBreach = none := by
  refine ⟨Instr.wf_form hk hf, fun ⟨hb, himm, hx⟩ => ?_⟩
  have hr : i.breach = none := by
    unfold Instr.breach
    split
    · cases hf
    · simp only [hk, hf, hb, hx]
      split_ifs with h
      · simp [himm (Bool.and_eq_true_iff.mp h).1] at h
      · rfl
  simp [Instr.wf, hr]

theorem Instr.form_of_fields {i : Instr} {f : Fields} (h : i.fields = some f) : ∃ k, i.form = some k :=
  Option.isSome_iff_exists.mp (by rw [← i.fields_isSome_iff, h]; rfl)

theorem Instr.hasExt_of_form {i : Instr} {k : Form} (h : i.form = some k) : i.hasExt = k.len128 := by simp [Instr.hasExt, h]

theorem Instr.lenCode_of_form {i : Instr} {k : Form} {f : Fields} (hk : i.form = some k) (hf : i.fields = some f) :
    i.lenCode = if k.len128 then 2 else if f.imm.isSome then 1 else 0 := by simp only [Instr.lenCode, hk, hf]

/-- The opcode map gives a well-formed instruction back whatever stands where a short word has no extension. -/
theorem Instr.select_of_wf {i : Instr} {f : Fields} (hf : i.fields = some f) (hw : i.wf = true) (x : BitVec 64)
    (hx : i.hasExt = true → x = i.extBits) : select i.major f x = some i := by
  have hback := i.select_back f hf hw
  cases h : i.hasExt with
  | true => rw [hx h]; exact hback
  | false => exact (select_row i.major f i.extBits i hback).ext h x

/-- What follows the base word of an instruction: its extension, IMM32, or nothing. -/
def Instr.tail (i : Instr) (f : Fields) : DWord :=
  if i.lenCode == 2 then i.extBits else if i.lenCode == 1 then BitVec.ofNat 64 (f.imm.getD 0).toNat else 0

theorem encodeRaw_of_fields {i : Instr} {f : Fields} (hf : i.fields = some f) :
    encodeRaw i = some ⟨encodeBase i.lenCode i.major f, i.tail f⟩ := by simp only [encodeRaw, hf, Instr.tail]

/-- The length of a well-formed instruction's word says what follows the base word. -/
theorem Instr.tail_cases {i : Instr} {f : Fields} (hf : i.fields = some f) (hw : i.wf = true) :
    (i.hasExt = true ∧ i.lenCode = 2 ∧ f.imm = none ∧ i.tail f = i.extBits)
    ∨ (i.hasExt = false ∧ i.lenCode = 1 ∧ ∃ w, f.imm = some w ∧ i.tail f = BitVec.ofNat 64 w.toNat)
    ∨ (i.hasExt = false ∧ i.lenCode = 0 ∧ f.imm = none ∧ i.tail f = 0) := by
  obtain ⟨k, hk⟩ := Instr.form_of_fields hf
  obtain ⟨-, himm, -⟩ := (Instr.wf_iff hk hf).mp hw
  have hlen := Instr.lenCode_of_form hk hf
  rw [← Instr.hasExt_of_form hk] at hlen himm
  cases h : i.hasExt with
  | true => exact .inl ⟨rfl, by simp [hlen, h], himm h, by simp [Instr.tail, hlen, h]⟩
  | false =>
    cases hi : f.imm with
    | some w => exact .inr (.inl ⟨rfl, by simp [hlen, h, hi], w, rfl, by simp [Instr.tail, hlen, h, hi]⟩)
    | none => exact .inr (.inr ⟨rfl, by simp [hlen, h, hi], rfl, by simp [Instr.tail, hlen, h, hi]⟩)

/-- The word of a well-formed instruction decodes to it. -/
theorem decodeRaw_encodeRaw {i : Instr} {r : Raw} (hw : i.wf = true) (he : encodeRaw i = some r) : decodeRaw r = .ok i := by
  cases hf : i.fields with
  | none => simp [encodeRaw, hf] at he
  | some f =>
    obtain ⟨k, hk⟩ := Instr.form_of_fields hf
    obtain ⟨hb, -, hx⟩ := (Instr.wf_iff hk hf).mp hw
    obtain ⟨hrl, hrm, -⟩ := encodeBase_parts i.lenCode i.major f
    obtain rfl := Option.some.inj ((encodeRaw_of_fields hf).symm.trans he)
    have htail := Instr.tail_cases hf hw
    have himm : f.imm = if i.lenCode = 1 then some ((i.tail f).extractLsb' 0 32) else none := by
      rcases htail with ⟨-, hl, hi, -⟩ | ⟨-, hl, w, hi, ht⟩ | ⟨-, hl, hi, -⟩
      · simp [hl, hi]
      · have := w.isLt
        rw [hl, hi, ht, Laws.Selects.extract_ofNat, Laws.Selects.ofNat_eq_of (a := w) (by omega)]
        rfl
      · simp [hl, hi]
    have hsel : select i.major f (i.tail f) = some i := Instr.select_of_wf hf hw _ (fun h => by
      rcases htail with ⟨-, -, -, ht⟩ | ⟨h', -⟩ | ⟨h', -⟩
      · exact ht
      all_goals rw [h] at h'; cases h')
    have hfits : (i.lenCode == 3) = false ∧ (i.lenCode == 2 && i.extBits != i.tail f) = false := by
      rcases htail with ⟨-, hl, -, ht⟩ | ⟨-, hl, -⟩ | ⟨-, hl, -⟩ <;> simp [*]
    simp only [decodeRaw, Raw.len, Raw.major, hrl, hrm, hfits, Fields.ofRaw_encodeBase _ _ _ _ himm, hsel, hk, hb, hx,
      Bool.false_eq_true, if_false]

/-- What a body word that decodes to an instruction of the opcode map says: the checks that it passed (R64). -/
theorem decodeRaw_ok {r : Raw} {i : Instr} (h : decodeRaw r = .ok i) (hi : ∀ g m, i ≠ .unassignedOpcode g m) :
    ∃ f k, Fields.ofRaw r = some f ∧ select r.major f r.ext = some i ∧ i.form = some k ∧ k.breach r.len f = none
      ∧ (r.len = 2 → i.extBits = r.ext) ∧ i.extBreach = none := by
  unfold decodeRaw at h
  split at h
  · cases h
  · split at h
    · split at h
      · cases h; exact absurd rfl (hi _ _)
      · cases h
    · next f hf =>
      split at h
      · cases h; exact absurd rfl (hi _ _)
      · next j hj =>
        split at h
        · cases h
        · next k hk =>
          split at h
          · cases h
          · next hb =>
            split at h
            · cases h
            · next hx =>
              split at h
              · cases h
              · next hxb =>
                cases h
                exact ⟨f, k, hf, hj, hk, hb, by simpa using hx, hxb⟩

theorem Fields.imm_ofRaw {r : Raw} {f : Fields} (h : Fields.ofRaw r = some f) :
    f.imm = if r.len == 1 then some (r.ext.extractLsb' 0 32) else none := by
  unfold Fields.ofRaw at h
  split at h
  · cases h
  · cases h; rfl

/-- A word that decodes to an instruction of the opcode map has the length that the instruction's word has. -/
theorem decodeRaw_lenCode {r : Raw} {i : Instr} {f : Fields} {k : Form} (hf : Fields.ofRaw r = some f) (hif : i.fields = some f)
    (hk : i.form = some k) (hb : k.breach r.len f = none) : i.lenCode = r.len ∧ (k.len128 = true ↔ r.len = 2) := by
  rw [Instr.lenCode_of_form hk hif, Fields.imm_ofRaw hf]
  cases h128 : k.len128 with
  | true =>
    obtain ⟨h64, h96⟩ := Instr.form_len128 hk h128
    have hlen := (Form.breach_none hb).1
    simp only [h64, h96, Bool.false_eq_true, and_false, false_or] at hlen
    simp [hlen.1]
  | false =>
    have hlen := (Form.breach_none hb).1
    simp only [h128, Bool.false_eq_true, and_false, or_false] at hlen
    rcases hlen with ⟨hl, -⟩ | ⟨hl, -⟩ <;> simp [hl]

/-- The instruction of a word has the word as its encoding, when the word holds nothing where its length has nothing. -/
theorem encodeRaw_decodeRaw {r : Raw} {i : Instr} (h : decodeRaw r = .ok i) (hi : ∀ g m, i ≠ .unassignedOpcode g m) :
    i.wf = true ∧ ((r.len = 0 → r.ext = 0) → (r.len = 1 → r.ext.toNat < 2 ^ 32) → encodeRaw i = some r) := by
  obtain ⟨f, k, hf, hsel, hk, hb, hext, hxb⟩ := decodeRaw_ok h hi
  have row := select_row r.major f r.ext i hsel
  obtain ⟨hlen, h128⟩ := decodeRaw_lenCode hf row.fields hk hb
  have himm := Fields.imm_ofRaw hf
  refine ⟨(Instr.wf_iff hk row.fields).mpr ⟨hlen ▸ hb, fun h2 => ?_, hxb⟩, fun h0 h1 => ?_⟩
  · rw [himm, h128.mp h2]; rfl
  · have hmajor : i.major = r.major := BitVec.eq_of_toNat_eq row.major
    have htail : i.tail f = r.ext := by
      unfold Instr.tail
      rw [hlen, himm]
      rcases (Form.breach_none hb).1 with ⟨hl, -⟩ | ⟨hl, -⟩ | ⟨hl, -⟩
      · simp [hl, h0 hl]
      · have := h1 hl
        simp only [hl]
        apply BitVec.eq_of_toNat_eq
        simp [BitVec.extractLsb'_toNat]
        omega
      · simp [hl, hext hl]
    rw [encodeRaw_of_fields row.fields, hlen, hmajor, htail, encodeBase_ofRaw hf]

/-! ## Bytes -/

theorem leBytes_length (n x : Nat) : (leBytes n x).length = n := by
  induction n generalizing x with
  | zero => rfl
  | succ n ih => simp [leBytes, ih]

theorem leNat_leBytes (n x : Nat) : leNat (leBytes n x) = x % 2 ^ (8 * n) := by
  induction n generalizing x with
  | zero => simp [leBytes, leNat, Nat.mod_one]
  | succ n ih =>
    have : 2 ^ (8 * (n + 1)) = 256 * 2 ^ (8 * n) := by rw [Nat.mul_add, Nat.pow_add, Nat.mul_comm]
    simp only [leBytes, leNat, ih, this, Nat.mod_mul, BitVec.toNat_ofNat]

theorem ofNat_leNat_leBytes (d : DWord) : BitVec.ofNat 64 (leNat (leBytes 8 d.toNat)) = d := by
  apply BitVec.eq_of_toNat_eq
  rw [leNat_leBytes, BitVec.toNat_ofNat]
  have := d.isLt
  omega

/-- A 64-bit body word stands for itself (R12). -/
theorem rawOfBytes_short (d : DWord) (rest : List Byte) (h : d.extractLsb' 0 2 = 0) :
    rawOfBytes (leBytes 8 d.toNat ++ rest) = .ok (⟨d, 0⟩, rest) := by
  have hl := leBytes_length 8 d.toNat
  simp [rawOfBytes, hl, ofNat_leNat_leBytes, h]

/-- A longer body word: the extension, or the low half of what follows the base word (R12). -/
theorem rawOfBytes_long (d e : DWord) (rest : List Byte) (h : d.extractLsb' 0 2 = 1 ∧ e.toNat < 2 ^ 32 ∨ d.extractLsb' 0 2 = 2) :
    rawOfBytes (leBytes 8 d.toNat ++ leBytes 8 e.toNat ++ rest) = .ok (⟨d, e⟩, rest) := by
  have hl := leBytes_length 8 d.toNat
  have hl' := leBytes_length 8 e.toNat
  have he := e.isLt
  have hbase : BitVec.ofNat 64 (leNat ((leBytes 8 d.toNat ++ leBytes 8 e.toNat ++ rest).take 8)) = d := by
    rw [List.append_assoc, List.take_left' hl, ofNat_leNat_leBytes]
  have hdrop : (leBytes 8 d.toNat ++ leBytes 8 e.toNat ++ rest).drop 8 = leBytes 8 e.toNat ++ rest := by
    rw [List.append_assoc, List.drop_left' hl]
  have hdrop' : (leBytes 8 d.toNat ++ leBytes 8 e.toNat ++ rest).drop 16 = rest :=
    List.drop_left' (by simp [hl, hl'])
  have hlen : ¬ (leBytes 8 d.toNat ++ leBytes 8 e.toNat ++ rest).length < 16 := by simp [hl, hl']; omega
  have hlen' : ¬ (leBytes 8 d.toNat ++ leBytes 8 e.toNat ++ rest).length < 8 := by omega
  have hext : leNat (leBytes 8 e.toNat) = e.toNat := by rw [leNat_leBytes]; omega
  unfold rawOfBytes
  rw [if_neg hlen', hbase, hdrop, hdrop', List.take_left' hl', hext]
  rcases h with ⟨h, hs⟩ | h
  · simp only [h, if_neg hlen, Nat.mod_eq_of_lt hs, BitVec.ofNat_toNat, BitVec.setWidth_eq]; rfl
  · simp only [h, if_neg hlen, BitVec.ofNat_toNat, BitVec.setWidth_eq]; rfl

/-! ## Words of the firmware harts (R364) -/

/-- The fields of an R-type word. -/
theorem amz_parts {f3 f7 : Nat} {rd a b : BitVec 5} {w : BitVec 32} (h : some (encodeAmz.amz f3 f7 rd a b) = some w) (h3 : f3 < 8)
    (h7 : f7 < 128) :
    w.extractLsb' 0 7 = 0x0B ∧ w.extractLsb' 7 5 = rd ∧ (w.extractLsb' 12 3).toNat = f3 ∧ w.extractLsb' 15 5 = a
      ∧ w.extractLsb' 20 5 = b ∧ (w.extractLsb' 25 7).toNat = f7 := by
  have h1 := rd.isLt; have h4 := a.isLt; have h5 := b.isLt
  have part : ∀ lo n, (w.extractLsb' lo n).toNat
      = (0x0B + 2 ^ 7 * rd.toNat + 2 ^ 12 * f3 + 2 ^ 15 * a.toNat + 2 ^ 20 * b.toNat + 2 ^ 25 * f7) % 2 ^ 32 / 2 ^ lo % 2 ^ n :=
    fun lo n => by
      rw [← Option.some.inj h]
      simp only [encodeAmz.amz, BitVec.extractLsb'_toNat, BitVec.toNat_ofNat, Nat.shiftRight_eq_div_pow]
  exact ⟨BitVec.eq_of_toNat_eq (by rw [part]; show _ = 11; omega), BitVec.eq_of_toNat_eq (by rw [part]; omega), by rw [part]; omega,
    BitVec.eq_of_toNat_eq (by rw [part]; omega), BitVec.eq_of_toNat_eq (by rw [part]; omega), by rw [part]; omega⟩

theorem decodeAmz_encodeAmz {i : Instr} {w : BitVec 32} (h : encodeAmz i = some w) : decodeAmz w = .ok i := by
  unfold encodeAmz at h
  split at h
  case h_4 c rd a b =>
    have hc : c.toNat < 4 := c.isLt
    obtain ⟨ho, hrd, h3, ha, hb, h7⟩ := amz_parts h (by decide) (by omega)
    have hback : BitVec.ofNat 2 c.toNat = c := by rw [BitVec.ofNat_toNat, BitVec.setWidth_eq]
    simp only [decodeAmz, ho, hrd, h3, ha, hb, h7, hc, hback, if_true]
    rfl
  case h_1 | h_2 | h_3 | h_5 =>
    obtain ⟨ho, hrd, h3, ha, hb, h7⟩ := amz_parts h (by decide) (by decide)
    simp only [decodeAmz, ho, hrd, h3, ha, hb, h7]
    rfl
  case h_6 => cases h

/-- Decoding the bytes of a well-formed instruction's body word gives the instruction, and the bytes that follow. -/
theorem decode_encode_body {i : Instr} {bs : List Byte} (hw : i.wf = true) (hamz : encodeAmz i = none) (h : encode i = some bs)
    (rest : List Byte) : decode (bs ++ rest) = .ok (i, rest) := by
  cases hf : i.fields with
  | none => simp [encode, hamz, encodeRaw, hf] at h
  | some f =>
    have he := encodeRaw_of_fields hf
    have hdec := decodeRaw_encodeRaw hw he
    obtain ⟨hlen, -⟩ := encodeBase_parts i.lenCode i.major f
    simp only [encode, hamz, he, Raw.len, hlen, Option.some.injEq] at h
    have hraw : rawOfBytes (bs ++ rest) = .ok (⟨encodeBase i.lenCode i.major f, i.tail f⟩, rest) := by
      rcases Instr.tail_cases hf hw with ⟨-, hl, -⟩ | ⟨-, hl, w, -, ht⟩ | ⟨-, hl, -, ht⟩
      · rw [hl] at h hlen ⊢
        subst h
        exact rawOfBytes_long _ _ _ (.inr hlen)
      · rw [hl] at h hlen ⊢
        subst h
        have := w.isLt
        exact rawOfBytes_long _ _ _ (.inl ⟨hlen, by rw [ht, BitVec.toNat_ofNat]; omega⟩)
      · rw [hl] at h hlen ⊢
        subst h
        rw [ht]
        exact rawOfBytes_short _ _ hlen
    simp only [decode, hraw, hdec]

/-- Settles O1: fields, opcode map and bytes each come back. -/
theorem decodeOfEncode : Obligations.DecodeOfEncode := by
  unfold Obligations.DecodeOfEncode
  intro i bs hw he
  refine ⟨fun w hamz => ⟨?_, decodeAmz_encodeAmz hamz⟩, fun hamz rest => decode_encode_body hw hamz he rest⟩
  simpa only [encode, hamz, Option.some.injEq, eq_comm] using he

/-- Settles O2: what a word passed in decoding is the instruction's well-formedness, and the fields fill the word. -/
theorem decodedWordsAreWellFormed : Obligations.DecodedWordsAreWellFormed := by
  unfold Obligations.DecodedWordsAreWellFormed
  refine ⟨fun r i h hi => encodeRaw_decodeRaw h hi, fun r h => by simp [decodeRaw, h], fun r h hm => ?_⟩
  have hnone : ∀ f x, select r.major f x = none := fun f x => by
    cases hs : select r.major f x with
    | none => rfl
    | some i => exact absurd hm (select_row r.major f x i hs).assigned
  unfold decodeRaw
  rw [if_neg (by simpa using h)]
  split
  · rw [hnone]
  · rw [hnone]

end Sys2Proof
end

section
/-!
The obligation on what operands supply and what destinations take (R16, R58, R60, R128).
-/
namespace Sys2Proof.Machine

/-! ## Bits -/

theorem getLsbD_onesAt (w i n j : Nat) : (onesAt w i n).getLsbD j = decide (j < w ∧ i ≤ j ∧ j < i + n) := by
  rw [onesAt, BitVec.getLsbD_ofNat, Nat.mul_comm, Nat.testBit_two_pow_mul, Nat.testBit_two_pow_sub_one, Bool.eq_iff_iff]
  simp only [Bool.and_eq_true, decide_eq_true_eq]
  omega

theorem getLsbD_or_bit {w : Nat} (x : BitVec w) {i : Nat} (hi : i < w) (j : Nat) :
    (x ||| onesAt w i 1).getLsbD j = if j = i then true else x.getLsbD j := by
  rw [BitVec.getLsbD_or, getLsbD_onesAt]
  split
  · next e => simp [e, hi]
  · next e => rw [decide_eq_false (by omega), Bool.or_false]

theorem getLsbD_clear_bit {w : Nat} (x : BitVec w) (i j : Nat) :
    (x &&& ~~~(onesAt w i 1)).getLsbD j = (x.getLsbD j && decide (j ≠ i)) := by
  rw [BitVec.getLsbD_and, BitVec.getLsbD_not, getLsbD_onesAt, Bool.eq_iff_iff]
  simp only [Bool.and_eq_true, decide_eq_true_eq, Bool.not_eq_true', decide_eq_false_iff_not]
  constructor
  · rintro ⟨hx, hj, h⟩; exact ⟨hx, by omega⟩
  · rintro ⟨hx, h⟩; exact ⟨hx, BitVec.lt_of_getLsbD hx, by omega⟩

theorem pairOf_eq_append (lo hi : Word) : pairOf lo hi = hi ++ lo := by
  apply BitVec.eq_of_toNat_eq
  have h1 := lo.isLt
  have h2 := hi.isLt
  rw [BitVec.toNat_append, Nat.shiftLeft_eq, Nat.mul_comm, ← Nat.two_pow_add_eq_or_of_lt h1, pairOf, BitVec.toNat_ofNat]
  omega

/-! ## Specifiers of registers -/

theorem toSpec_v (n : BitVec 8) : (Operand.v n).toSpec.toNat = n.toNat := by
  have := n.isLt; simp only [Operand.toSpec, BitVec.toNat_ofNat]; omega

theorem toSpec_t (n : BitVec 3) : (Operand.t n).toSpec.toNat = 0x140 + n.toNat := by
  have := n.isLt; simp only [Operand.toSpec, BitVec.toNat_ofNat]; omega

/-! ## Registers of a thread after a write -/

theorem Thread.readV_of_le (th : Thread) {regs n : Nat} (h : regs ≤ n) : th.readV regs n = 0 := if_neg (by omega)

theorem Thread.readV_of_lt (th : Thread) {regs n : Nat} (h : n < regs) : th.readV regs n = Tbl.at th.v n 0 := if_pos h

theorem Thread.poisonV_of_le (th : Thread) {regs n : Nat} (h : regs ≤ n) : th.poisonV regs n = false := by
  simp [Thread.poisonV, show ¬ n < regs by omega]

theorem Thread.poisonV_of_lt (th : Thread) {regs n : Nat} (h : n < regs) : th.poisonV regs n = Tbl.at th.vPoison n false := by
  simp [Thread.poisonV, h]

theorem Thread.putV_of_le (th : Thread) {regs n : Nat} (h : regs ≤ n) (w : Word) (bad : Bool) : th.putV regs n w bad = th :=
  if_neg (by omega)

theorem Thread.readV_putV (th : Thread) {regs n : Nat} (h : n < regs) (w : Word) (bad : Bool) (j : Nat) :
    (th.putV regs n w bad).readV regs j = if j = n then w else th.readV regs j := by
  simp only [Thread.readV, Thread.putV, if_pos h, Tbl.at_put]
  split <;> split <;> simp_all

theorem Tbl.at_drop {α : Type} (t : Tbl α) (j k : Nat) (d : α) : Tbl.at (Tbl.drop t k) j d = if j = k then d else Tbl.at t j d := by
  simp only [Tbl.at, Tbl.look_drop]
  split <;> rfl

theorem Thread.poisonV_putV (th : Thread) {regs n : Nat} (h : n < regs) (w : Word) (bad : Bool) (j : Nat) :
    (th.putV regs n w bad).poisonV regs j = if j = n then bad else th.poisonV regs j := by
  simp only [Thread.poisonV, Thread.putV, if_pos h]
  cases bad <;> simp only [Bool.false_eq_true, if_true, if_false, Tbl.at_put, Tbl.at_drop] <;> split <;> simp_all

theorem Thread.readT_putT (th : Thread) (n : Nat) (w : Word) (j : Nat) : (th.putT n w).readT j = if j = n then w else th.readT j :=
  Tbl.at_put _ _ _ _ _

theorem Thread.tvalid_putT (th : Thread) {n : Nat} (h : n < 8) (w : Word) (j : Nat) :
    (th.putT n w).tvalid.getLsbD j = if j = n then true else th.tvalid.getLsbD j := getLsbD_or_bit _ h j

theorem Thread.pred_of_le (th : Thread) {n : Nat} (h : 7 ≤ n) : th.pred n = true := if_pos h

theorem Thread.setPred_of_le (th : Thread) {n : Nat} (h : 7 ≤ n) (b : Bool) : th.setPred n b = th := if_pos h

theorem Thread.pred_setPred (th : Thread) {n : Nat} (h : n < 7) (b : Bool) (j : Nat) :
    (th.setPred n b).pred j = if j = n then b else th.pred j := by
  unfold Thread.setPred Thread.pred
  rw [if_neg (by omega : ¬ n ≥ 7)]
  by_cases hj : j ≥ 7
  · simp only [if_pos hj, if_neg (show ¬ j = n by omega)]
  · simp only [if_neg hj]
    cases b with
    | true => exact getLsbD_or_bit _ h j
    | false =>
      simp only [Bool.false_eq_true, if_false, getLsbD_clear_bit]
      split <;> simp [*]

/-! ## Sources -/

section
variable (l : Lane) (s : State) (place : Nat)

theorem Lane.readWord_v_of_le {n : BitVec 8} (h : l.regs s ≤ n.toNat) : l.readWord s place (.v n) = .ok 0 := by
  simp [Lane.readWord, Thread.poisonV_of_le _ h, Thread.readV_of_le _ h]

theorem Lane.readWord_v_clean {n : BitVec 8} (h : n.toNat < l.regs s) (hp : Tbl.at (l.thr s).vPoison n.toNat false = false) :
    l.readWord s place (.v n) = .ok (Tbl.at (l.thr s).v n.toNat 0) := by
  simp [Lane.readWord, Thread.poisonV_of_lt _ h, Thread.readV_of_lt _ h, hp]

theorem Lane.readWord_v_poisoned {n : BitVec 8} (h : n.toNat < l.regs s) (hp : Tbl.at (l.thr s).vPoison n.toNat false = true) :
    l.readWord s place (.v n) = .error (.fault ⟨0x0C, BitVec.ofNat 32 (n.toNat + 512 * place), 0⟩) := by
  simp only [Lane.readWord, Thread.poisonV_of_lt _ h, hp, if_true, dataError, opInfo, toSpec_v, Nat.mul_comm]

theorem Lane.readWord_t_valid {n : BitVec 3} (h : (l.thr s).tvalid.getLsbD n.toNat = true) :
    l.readWord s place (.t n) = .ok (Tbl.at (l.thr s).t n.toNat 0) := by
  simp only [Lane.readWord, h, if_true, Thread.readT]

theorem Lane.readWord_t_stale {n : BitVec 3} (h : (l.thr s).tvalid.getLsbD n.toNat = false) :
    l.readWord s place (.t n) = .error (.fault ⟨3, BitVec.ofNat 32 (0x140 + n.toNat + 512 * place), 0⟩) := by
  simp only [Lane.readWord, h, Bool.false_eq_true, if_false, staleError, opInfo, toSpec_t, Nat.mul_comm]

/-- A register pair is read low word first (R9). -/
theorem Lane.readPair_reg {o : Operand} (ho : (∃ n, o = .v n) ∨ (∃ n, o = .g n) ∨ (∃ n, o = .t n)) {lo hi : Word}
    (hlo : l.readWord s place o = .ok lo) (hhi : l.readWord s place (o.next 1) = .ok hi) :
    l.readPair s place o = .ok (hi ++ lo) := by
  rw [← pairOf_eq_append]
  rcases ho with ⟨n, rfl⟩ | ⟨n, rfl⟩ | ⟨n, rfl⟩ <;> simp only [Lane.readPair, hlo, hhi, bind, Except.bind, asOperand]
end

/-! ## Destinations -/

theorem LaneOut.put_v_of_le (o : LaneOut) {regs : Nat} {n : BitVec 8} (h : regs ≤ n.toNat) (w : Word) : o.put regs (.v n) w = o := by
  simp only [LaneOut.put, Thread.putV_of_le _ h]

/-- Settles O27: each kind of source and of destination by the law of the register it names. -/
theorem registerOperandsReadAndWrite : Obligations.RegisterOperandsReadAndWrite := by
  unfold Obligations.RegisterOperandsReadAndWrite
  refine ⟨fun s l place => ⟨fun n => ⟨?_, ?_, ?_⟩, fun n => ⟨?_, ?_⟩, fun n => ⟨rfl, rfl⟩, fun o ho lo hi => ?_⟩,
    fun o regs w => ⟨fun n => ⟨?_, fun h => ?_⟩, fun n => ?_, fun n => rfl, fun n => rfl, rfl⟩,
    fun th n b => ⟨fun h => ⟨th.setPred_of_le h b, th.pred_of_le h⟩, fun h => ?_⟩⟩
  · exact l.readWord_v_of_le s place
  · exact l.readWord_v_clean s place
  · exact l.readWord_v_poisoned s place
  · exact l.readWord_t_valid s place
  · exact l.readWord_t_stale s place
  · exact l.readPair_reg s place ho
  · exact fun h => o.put_v_of_le h w
  · refine ⟨?_, ?_, fun j hj => ⟨?_, ?_⟩⟩
    · exact (o.th.readV_putV h w false n.toNat).trans (if_pos rfl)
    · exact (o.th.poisonV_putV h w false n.toNat).trans (if_pos rfl)
    · exact (o.th.readV_putV h w false j).trans (if_neg hj)
    · exact (o.th.poisonV_putV h w false j).trans (if_neg hj)
  · refine ⟨?_, ?_, fun j hj => ⟨?_, ?_⟩⟩
    · exact (o.th.readT_putT n.toNat w n.toNat).trans (if_pos rfl)
    · exact (o.th.tvalid_putT n.isLt w n.toNat).trans (if_pos rfl)
    · exact (o.th.readT_putT n.toNat w j).trans (if_neg hj)
    · exact (o.th.tvalid_putT n.isLt w j).trans (if_neg hj)
  · exact ⟨(th.pred_setPred h b n).trans (if_pos rfl), fun j hj => (th.pred_setPred h b j).trans (if_neg hj)⟩

end Sys2Proof.Machine
end

section
/-!
What the end of a pass does: reservations and closes are settled (R178, R194), and the threads left in it are placed (R166).
-/
namespace Sys2Proof.Machine

/-! ## Channels of a team -/

theorem Team.chan_setChan (t : Team) (n j : Nat) (x : Chan) : (t.setChan n x).chan j = if j = n then x else t.chan j :=
  Tbl.at_put _ _ _ _ _

/-- What `y` holds is left over from `x`, or a position of `x` that was filled with zeros. -/
def Chan.Settled (x y : Chan) : Prop :=
  ∀ e ∈ y.fifo, e ∈ x.fifo ∨ (e.st = .filled ∧ (∀ i, Tbl.at e.data i 0 = 0) ∧ ∃ d ∈ x.fifo, d.id = e.id)

/-- No entry of the channel has this number. -/
def Chan.Lacks (x : Chan) (id : Nat) : Prop := ∀ e ∈ x.fifo, e.id ≠ id

/-- The position of this number, if the channel has one, holds zeros. -/
def Chan.Zeroed (x : Chan) (id : Nat) : Prop := ∀ e ∈ x.fifo, e.id = id → e.st = .filled ∧ ∀ i, Tbl.at e.data i 0 = 0

namespace Chan
variable {x y z : Chan} {id : Nat}

theorem Settled.refl (x : Chan) : Settled x x := fun _ h => .inl h

theorem Settled.trans (h : Settled x y) (g : Settled y z) : Settled x z := by
  intro e he
  rcases g e he with hy | ⟨hst, hdata, d, hd, hid⟩
  · exact h e hy
  · rcases h d hd with hx | ⟨-, -, d', hd', hid'⟩
    · exact .inr ⟨hst, hdata, d, hx, hid⟩
    · exact .inr ⟨hst, hdata, d', hd', hid'.trans hid⟩

theorem Settled.lacks (h : Settled x y) (hx : x.Lacks id) : y.Lacks id := by
  intro e he
  rcases h e he with hx' | ⟨-, -, d, hd, hid⟩
  · exact hx e hx'
  · exact hid ▸ hx d hd

theorem Settled.zeroed (h : Settled x y) (hx : x.Zeroed id) : y.Zeroed id := by
  intro e he hid
  rcases h e he with hx' | ⟨hst, hdata, -⟩
  · exact hx e hx' hid
  · exact ⟨hst, hdata⟩

theorem settled_pop (x : Chan) (id : Nat) : Settled x (x.pop id) := fun _ h => .inl (List.mem_filter.mp h).1

theorem pop_lacks (x : Chan) (id : Nat) : (x.pop id).Lacks id := fun e h => by simpa using (List.mem_filter.mp h).2

theorem mem_pop {e : ChanEntry} (h : e ∈ x.fifo) (hid : e.id ≠ id) : e ∈ (x.pop id).fifo :=
  List.mem_filter.mpr ⟨h, by simpa using hid⟩

/-- An entry of a channel after a position was filled. -/
theorem mem_fill {id : Nat} {data : Tbl Word} {e : ChanEntry} :
    e ∈ (x.fill id data).fifo ↔ (e ∈ x.fifo ∧ e.id ≠ id) ∨ ∃ d ∈ x.fifo, d.id = id ∧ e = { d with st := .filled, data := data } := by
  simp only [fill, List.mem_map]
  constructor
  · rintro ⟨d, hd, rfl⟩
    by_cases h : d.id = id
    · exact .inr ⟨d, hd, h, by simp [h]⟩
    · exact .inl (by simpa [h] using hd)
  · rintro (⟨he, h⟩ | ⟨d, hd, h, rfl⟩)
    · exact ⟨e, he, by simp [h]⟩
    · exact ⟨d, hd, by simp [h]⟩

theorem settled_fill (x : Chan) (id : Nat) : Settled x (x.fill id []) := by
  intro e he
  rcases mem_fill.mp he with ⟨he, -⟩ | ⟨d, hd, -, rfl⟩
  · exact .inl he
  · exact .inr ⟨rfl, fun _ => rfl, d, hd, rfl⟩

theorem fill_zeroed (x : Chan) (id : Nat) : (x.fill id []).Zeroed id := by
  intro e he hid
  rcases mem_fill.mp he with ⟨-, h⟩ | ⟨d, -, -, rfl⟩
  · exact absurd hid h
  · exact ⟨rfl, fun _ => rfl⟩

end Chan

/-! ## Settling reservations and closes -/

/-- A reserved entry that nothing has read is popped and discarded. -/
def State.dropRead (s : State) (m : Nat) (hdr : DWord) (r : Resv) : State :=
  match r.rd with
  | some id => if r.rdDone then s else s.modTeam m (fun t => t.setChan (Hdr.rch hdr).toNat ((t.chan (Hdr.rch hdr).toNat).pop id))
  | none => s

/-- A reserved position that nothing has written is filled with zeros. -/
def State.zeroWrite (s : State) (m : Nat) (hdr : DWord) (r : Resv) : State :=
  match r.wr with
  | some id => if r.wrDone then s else s.modTeam m (fun t => t.setChan (Hdr.wch hdr).toNat ((t.chan (Hdr.wch hdr).toNat).fill id []))
  | none => s

/-- The reservations of one gang are settled. -/
def State.settleResv (c : Nat) (hdr : DWord) (s : State) (e : Nat × Resv) : State :=
  (s.dropRead (s.gang c e.1).team hdr e.2).zeroWrite (s.gang c e.1).team hdr e.2

theorem State.finishResv_eq (s : State) (c : Nat) (x : Pass) : s.finishResv c x = x.resv.foldl (State.settleResv c x.hdr) s := rfl

/-- A gang leaves the producers of a channel. -/
def State.closeChan (c : Nat) (s : State) (e : Nat × Nat) : State :=
  s.modTeam (s.gang c e.1).team (fun t =>
    t.setChan e.2 { t.chan e.2 with pmask := (t.chan e.2).pmask &&& ~~~(onesAt 32 (s.gang c e.1).num 1) })

theorem State.closeChans_eq (s : State) (c : Nat) (x : Pass) : s.closeChans c x = x.closing.foldl (State.closeChan c) s := rfl

/-- Nothing but the channels of one team changes, and these by discards, zero fills and closes. -/
structure ChansSettle (m : Nat) (s t : State) : Prop where
  rest : t = { s with teams := t.teams }
  otherTeams : ∀ q, q ≠ m → t.team q = s.team q
  settled : ∀ n, ((s.team m).chan n).Settled ((t.team m).chan n)

namespace ChansSettle
variable {m : Nat} {s t u : State}

theorem refl (m : Nat) (s : State) : ChansSettle m s s := ⟨rfl, fun _ _ => rfl, fun _ => .refl _⟩

theorem trans (h : ChansSettle m s t) (g : ChansSettle m t u) : ChansSettle m s u :=
  ⟨by rw [g.rest, h.rest], fun q hq => (g.otherTeams q hq).trans (h.otherTeams q hq), fun n => (h.settled n).trans (g.settled n)⟩

theorem gang (h : ChansSettle m s t) (c g : Nat) : t.gang c g = s.gang c g := by rw [h.rest]; rfl

theorem core (h : ChansSettle m s t) (c : Nat) : t.core c = s.core c := by rw [h.rest]; rfl

/-- One channel of the team changes. -/
theorem setChan (s : State) (m n : Nat) (f : Chan → Chan) (h : ∀ x : Chan, x.Settled (f x)) :
    ChansSettle m s (s.modTeam m (fun t => t.setChan n (f (t.chan n)))) := by
  refine ⟨rfl, fun q hq => ?_, fun j => ?_⟩
  · rw [State.modTeam_eq, State.team_setTeam, if_neg hq]
  · rw [State.modTeam_eq, State.team_setTeam_self, Team.chan_setChan]
    split
    · next e => rw [e]; exact h _
    · exact .refl _

end ChansSettle

/-- A channel of the team that `modTeam` replaced. -/
theorem State.chan_modTeam (s : State) (m n j : Nat) (f : Chan → Chan) :
    ((s.modTeam m (fun t => t.setChan n (f (t.chan n)))).team m).chan j
      = if j = n then f ((s.team m).chan n) else (s.team m).chan j := by
  rw [State.modTeam_eq, State.team_setTeam_self, Team.chan_setChan]

theorem State.dropRead_settles (s : State) (m : Nat) (hdr : DWord) (r : Resv) : ChansSettle m s (s.dropRead m hdr r) := by
  unfold State.dropRead
  split
  · next id _ =>
    split
    · exact .refl m s
    · exact .setChan s m _ (fun x => x.pop id) (fun x => x.settled_pop id)
  · exact .refl m s

theorem State.zeroWrite_settles (s : State) (m : Nat) (hdr : DWord) (r : Resv) : ChansSettle m s (s.zeroWrite m hdr r) := by
  unfold State.zeroWrite
  split
  · next id _ =>
    split
    · exact .refl m s
    · exact .setChan s m _ (fun x => x.fill id []) (fun x => x.settled_fill id)
  · exact .refl m s

theorem State.dropRead_lacks (s : State) (m : Nat) (hdr : DWord) {r : Resv} {id : Nat} (h : r.rd = some id) (hd : r.rdDone = false) :
    (((s.dropRead m hdr r).team m).chan (Hdr.rch hdr).toNat).Lacks id := by
  simp only [State.dropRead, h, hd, Bool.false_eq_true, if_false, State.chan_modTeam s m _ _ (fun x => x.pop id), if_true]
  exact Chan.pop_lacks _ _

theorem State.zeroWrite_zeroed (s : State) (m : Nat) (hdr : DWord) {r : Resv} {id : Nat} (h : r.wr = some id) (hd : r.wrDone = false) :
    (((s.zeroWrite m hdr r).team m).chan (Hdr.wch hdr).toNat).Zeroed id := by
  simp only [State.zeroWrite, h, hd, Bool.false_eq_true, if_false, State.chan_modTeam s m _ _ (fun x => x.fill id []), if_true]
  exact Chan.fill_zeroed _ _

theorem State.mem_dropRead (s : State) (m : Nat) (hdr : DWord) {r : Resv} {n : Nat} {e : ChanEntry} (h : e ∈ ((s.team m).chan n).fifo)
    (hr : r.rd ≠ some e.id) : e ∈ (((s.dropRead m hdr r).team m).chan n).fifo := by
  unfold State.dropRead
  split
  · next id hid =>
    split
    · exact h
    · rw [State.chan_modTeam s m _ _ (fun x => x.pop id)]
      split
      · next e => subst e; exact Chan.mem_pop h (fun q => hr (by rw [hid, q]))
      · exact h
  · exact h

theorem State.mem_zeroWrite (s : State) (m : Nat) (hdr : DWord) {r : Resv} {n : Nat} {e : ChanEntry} (h : e ∈ ((s.team m).chan n).fifo)
    (hw : r.wr ≠ some e.id) : e ∈ (((s.zeroWrite m hdr r).team m).chan n).fifo := by
  unfold State.zeroWrite
  split
  · next id hid =>
    split
    · exact h
    · rw [State.chan_modTeam s m _ _ (fun x => x.fill id [])]
      split
      · next e => subst e; exact Chan.mem_fill.mpr (.inl ⟨h, fun q => hw (by rw [hid, q])⟩)
      · exact h
  · exact h

section
variable (c : Nat) (hdr : DWord) (s : State) (gs : Nat) (r : Resv)

theorem State.settleResv_settles : ChansSettle (s.gang c gs).team s (State.settleResv c hdr s (gs, r)) :=
  (s.dropRead_settles _ hdr r).trans (State.zeroWrite_settles _ _ hdr r)

/-- A reserved entry that was not read is gone. -/
theorem State.settleResv_lacks {id : Nat} (h : r.rd = some id) (hd : r.rdDone = false) :
    (((State.settleResv c hdr s (gs, r)).team (s.gang c gs).team).chan (Hdr.rch hdr).toNat).Lacks id :=
  ((State.zeroWrite_settles _ _ hdr r).settled _).lacks (s.dropRead_lacks _ hdr h hd)

/-- A reserved position that was not written holds zeros. -/
theorem State.settleResv_zeroed {id : Nat} (h : r.wr = some id) (hd : r.wrDone = false) :
    (((State.settleResv c hdr s (gs, r)).team (s.gang c gs).team).chan (Hdr.wch hdr).toNat).Zeroed id :=
  State.zeroWrite_zeroed _ _ hdr h hd

/-- Entries that the gang did not reserve stay. -/
theorem State.mem_settleResv {n : Nat} {e : ChanEntry} (h : e ∈ ((s.team (s.gang c gs).team).chan n).fifo) (hr : r.rd ≠ some e.id)
    (hw : r.wr ≠ some e.id) : e ∈ (((State.settleResv c hdr s (gs, r)).team (s.gang c gs).team).chan n).fifo :=
  State.mem_zeroWrite _ _ hdr (s.mem_dropRead _ hdr h hr) hw
end

theorem State.closeChan_settles (c : Nat) (s : State) (gs n : Nat) : ChansSettle (s.gang c gs).team s (State.closeChan c s (gs, n)) :=
  .setChan s _ n (fun x => { x with pmask := x.pmask &&& ~~~(onesAt 32 (s.gang c gs).num 1) }) (fun _ _ he => .inl he)

/-- After a close the channel has the entries it had, and the gang is no producer of it. -/
theorem State.chan_closeChan (c : Nat) (s : State) (gs n j : Nat) :
    ((State.closeChan c s (gs, n)).team (s.gang c gs).team).chan j
      = if j = n then
          { (s.team (s.gang c gs).team).chan n with
            pmask := ((s.team (s.gang c gs).team).chan n).pmask &&& ~~~(onesAt 32 (s.gang c gs).num 1) }
        else (s.team (s.gang c gs).team).chan j :=
  s.chan_modTeam _ n j (fun x => { x with pmask := x.pmask &&& ~~~(onesAt 32 (s.gang c gs).num 1) })

/-- Settling changes the teams alone. -/
theorem State.settle_frame (s : State) (c : Nat) (x : Pass) :
    (s.finishResv c x).closeChans c x = { s with teams := ((s.finishResv c x).closeChans c x).teams } := by
  have resv : ∀ (l : Tbl Resv) (s : State), l.foldl (State.settleResv c x.hdr) s
      = { s with teams := (l.foldl (State.settleResv c x.hdr) s).teams } := by
    intro l
    induction l with
    | nil => exact fun _ => rfl
    | cons e r ih =>
      intro s
      rw [List.foldl_cons, ih, (State.settleResv_settles c x.hdr s e.1 e.2).rest]
  have close : ∀ (l : List (Nat × Nat)) (s : State), l.foldl (State.closeChan c) s
      = { s with teams := (l.foldl (State.closeChan c) s).teams } := by
    intro l
    induction l with
    | nil => exact fun _ => rfl
    | cons e r ih =>
      intro s
      rw [List.foldl_cons, ih, (State.closeChan_settles c s e.1 e.2).rest]
  rw [State.closeChans_eq, State.finishResv_eq, close, resv]

/-! ## Placement (R166) -/

/-- What the placing of a thread changes: its place, and the core's table, bin and sequence. -/
structure Placed (c k : Nat) (s t : State) : Prop where
  rest : t = { s with cores := t.cores, threads := t.threads }
  core : t.core c = { s.core c with wvt := (t.core c).wvt, bin := (t.core c).bin, binSeq := (t.core c).binSeq }
  otherCores : ∀ d, d ≠ c → Tbl.look t.cores d = Tbl.look s.cores d
  otherThreads : ∀ n, n ≠ threadKey c k → Tbl.look t.threads n = Tbl.look s.threads n
  thread : ∃ q, t.thr c k = { s.thr c k with place := q } ∧ (q = .entry ∨ q = .bin)

/-- A core's table and bin change, and the place of a thread. -/
theorem Placed.of (s : State) (c k : Nat) (x : Core) (q : Place)
    (hx : x = { s.core c with wvt := x.wvt, bin := x.bin, binSeq := x.binSeq }) (hq : q = .entry ∨ q = .bin) :
    Placed c k s ((s.setCore c x).setThr c k { s.thr c k with place := q }) := by
  refine ⟨rfl, ?_, fun d hd => Tbl.look_put_ne _ _ hd, fun n hn => Tbl.look_put_ne _ _ hn, q, State.thr_setThr_self _ _ _ _, hq⟩
  rw [State.core_setThr, State.core_setCore_self]
  exact hx

section
variable (s : State) (c k : Nat)

/-- A thread whose position has an entry joins it. -/
theorem State.place_keyed (h : ∃ e ∈ (s.core c).wvt, e.pos = (s.thr c k).pos) :
    s.place c k = (s.setCore c { s.core c with wvt := (s.core c).wvt.map (fun e =>
        if e.pos = (s.thr c k).pos then { e with slots := insertSorted k e.slots } else e) }).setThr c k
      { s.thr c k with place := .entry } := by
  have hk : (s.core c).wvt.any (fun e => e.pos == (s.thr c k).pos) = true := by simpa using h
  simp only [State.place, hk, if_true, State.modCore_eq, beq_iff_eq]

theorem State.place_record (hk : ¬ ∃ e ∈ (s.core c).wvt, e.pos = (s.thr c k).pos)
    (h : 0 < (s.thr c k).park ∨ (∃ r ∈ (s.core c).bin, r.park = 0 ∧ r.pos = (s.thr c k).pos)
      ∨ Config.wvtEntries ≤ (s.core c).wvt.length) :
    s.place c k = (s.setCore c { s.core c with
        bin := (s.core c).bin ++ [⟨(s.thr c k).pos, (s.thr c k).park, (s.core c).binSeq, k⟩]
        binSeq := (s.core c).binSeq + 1 }).setThr c k { s.thr c k with place := .bin } := by
  have hk' : ¬ (s.core c).wvt.any (fun e => e.pos == (s.thr c k).pos) = true := by simpa using hk
  have h' : (decide ((s.thr c k).park > 0) || (s.core c).bin.any (fun r => r.park == 0 && r.pos == (s.thr c k).pos)
      || decide (Config.wvtEntries ≤ (s.core c).wvt.length)) = true := by
    simpa [or_assoc] using h
  simp only [State.place, if_neg hk', if_pos h', State.toBin, State.modCore_eq]

theorem State.place_new (hk : ¬ ∃ e ∈ (s.core c).wvt, e.pos = (s.thr c k).pos)
    (h : ¬ (0 < (s.thr c k).park ∨ (∃ r ∈ (s.core c).bin, r.park = 0 ∧ r.pos = (s.thr c k).pos)
      ∨ Config.wvtEntries ≤ (s.core c).wvt.length)) :
    s.place c k = (s.setCore c { s.core c with wvt := (s.core c).wvt ++ [s.newEntry c k (s.thr c k).pos [k]] }).setThr c k
      { s.thr c k with place := .entry } := by
  have hk' : ¬ (s.core c).wvt.any (fun e => e.pos == (s.thr c k).pos) = true := by simpa using hk
  have h' : ¬ (decide ((s.thr c k).park > 0) || (s.core c).bin.any (fun r => r.park == 0 && r.pos == (s.thr c k).pos)
      || decide (Config.wvtEntries ≤ (s.core c).wvt.length)) = true := by
    simpa [or_assoc] using h
  simp only [State.place, if_neg hk', if_neg h', State.modCore_eq]

theorem State.place_placed : Placed c k s (s.place c k) := by
  by_cases hk : ∃ e ∈ (s.core c).wvt, e.pos = (s.thr c k).pos
  · rw [s.place_keyed c k hk]; exact .of s c k _ _ rfl (.inl rfl)
  · by_cases h : 0 < (s.thr c k).park ∨ (∃ r ∈ (s.core c).bin, r.park = 0 ∧ r.pos = (s.thr c k).pos)
      ∨ Config.wvtEntries ≤ (s.core c).wvt.length
    · rw [s.place_record c k hk h]; exact .of s c k _ _ rfl (.inr rfl)
    · rw [s.place_new c k hk h]; exact .of s c k _ _ rfl (.inl rfl)
end

/-! ## Threads leaving a pass that ends -/

/-- A thread of a pass that ends leaves it, and is placed unless it exited or waits for a vote. -/
def State.leaveThread (leave : Thread → Thread) (c : Nat) (s : State) (k : Nat) : State :=
  let s := s.modThr c k leave
  match (s.thr c k).place with
  | .pass _ => s.place c k
  | _ => s

theorem State.endPassBy_eq (s : State) (leave : Thread → Thread) (c p : Nat) (x : Pass) :
    s.endPassBy leave c p x = x.slots.foldl (State.leaveThread leave c)
      (((s.finishResv c x).closeChans c x).modCore c (fun k => { k with pipes := Tbl.drop k.pipes p })) := rfl

/-- A way to leave a pass keeps the thread's place, and changes nothing when it happens again. -/
structure Leaving (leave : Thread → Thread) : Prop where
  place : ∀ th, (leave th).place = th.place
  again : ∀ th q, leave { leave th with place := q } = { leave th with place := q }

theorem leaving_leavePass : Leaving Thread.leavePass := ⟨fun _ => rfl, fun _ _ => rfl⟩

theorem leaving_faultReturn : Leaving Thread.faultReturn := ⟨fun _ => rfl, fun _ _ => rfl⟩

/-- What the threads `ks` of a pass that ends leave: each is as `leave` says, in an entry or the bin if it was in a pass. -/
structure ThreadsLeft (leave : Thread → Thread) (c : Nat) (ks : List Nat) (s t : State) : Prop where
  rest : t = { s with cores := t.cores, threads := t.threads }
  core : t.core c = { s.core c with wvt := (t.core c).wvt, bin := (t.core c).bin, binSeq := (t.core c).binSeq }
  otherCores : ∀ d, d ≠ c → Tbl.look t.cores d = Tbl.look s.cores d
  otherThreads : ∀ n, (∀ k ∈ ks, n ≠ threadKey c k) → Tbl.look t.threads n = Tbl.look s.threads n
  thread : ∀ k ∈ ks, ∃ q, t.thr c k = { leave (s.thr c k) with place := q }
    ∧ ((∃ p, (s.thr c k).place = .pass p) → q = .entry ∨ q = .bin)
    ∧ ((∀ p, (s.thr c k).place ≠ .pass p) → q = (s.thr c k).place)

theorem ThreadsLeft.otherThr {leave : Thread → Thread} {c : Nat} {ks : List Nat} {s t : State} (h : ThreadsLeft leave c ks s t) {k : Nat}
    (hk : k ∉ ks) : t.thr c k = s.thr c k := by
  have hkey : ∀ j ∈ ks, threadKey c k ≠ threadKey c j := fun j hj e => hk (threadKey_inj e ▸ hj)
  unfold State.thr Tbl.at
  rw [h.otherThreads _ hkey]

theorem State.leaveThread_left {leave : Thread → Thread} (hl : Leaving leave) (c : Nat) (s : State) (k : Nat) :
    ThreadsLeft leave c [k] s (State.leaveThread leave c s k) := by
  have hthr : (s.modThr c k leave).thr c k = leave (s.thr c k) := State.thr_setThr_self _ _ _ _
  unfold State.leaveThread
  dsimp only
  rw [hthr, hl.place]
  split
  · next p hp =>
    have h := (s.modThr c k leave).place_placed c k
    obtain ⟨q, hq, hplace⟩ := h.thread
    refine ⟨?_, h.core, h.otherCores, fun n hn => ?_, fun j hj => ?_⟩
    · rw [h.rest]; rfl
    · exact (h.otherThreads n (hn k List.mem_cons_self)).trans (Tbl.look_put_ne _ _ (hn k List.mem_cons_self))
    · rw [List.mem_singleton.mp hj]
      exact ⟨q, by rw [hq, hthr], fun _ => hplace, fun hno => absurd hp (hno p)⟩
  · next hno =>
    refine ⟨rfl, rfl, fun _ _ => rfl, fun n hn => Tbl.look_put_ne _ _ (hn k List.mem_cons_self), fun j hj => ?_⟩
    rw [List.mem_singleton.mp hj]
    exact ⟨(s.thr c k).place, by rw [hthr, ← hl.place], fun ⟨p, hp⟩ => absurd hp (hno p), fun _ => rfl⟩

theorem State.leaveThreads_left {leave : Thread → Thread} (hl : Leaving leave) (c : Nat) (ks : List Nat) (s : State) :
    ThreadsLeft leave c ks s (ks.foldl (State.leaveThread leave c) s) := by
  induction ks generalizing s with
  | nil => exact ⟨rfl, rfl, fun _ _ => rfl, fun _ _ => rfl, fun _ h => nomatch h⟩
  | cons k r ih =>
    have h := State.leaveThread_left hl c s k
    have g := ih (State.leaveThread leave c s k)
    rw [List.foldl_cons]
    refine ⟨?_, ?_, fun d hd => (g.otherCores d hd).trans (h.otherCores d hd), fun n hn => ?_, fun j hj => ?_⟩
    · rw [g.rest, h.rest]
    · rw [g.core, h.core]
    · rw [g.otherThreads n (fun j hj => hn j (List.mem_cons_of_mem _ hj)), h.otherThreads n (fun j hj => hn j (by simp_all))]
    · by_cases hjr : j ∈ r
      · obtain ⟨q, hq, hin, hout⟩ := g.thread j hjr
        by_cases hjk : j = k
        · subst hjk
          obtain ⟨q', hq', hin', hout'⟩ := h.thread j (by simp)
          have hplace : (State.leaveThread leave c s j).thr c j = { leave (s.thr c j) with place := q' } := hq'
          refine ⟨q, by rw [hq, hplace, hl.again], fun hp => ?_, fun hp => ?_⟩
          · have hno : ∀ p, ((State.leaveThread leave c s j).thr c j).place ≠ .pass p := by
              rw [hplace]
              rcases hin' hp with e | e <;> rw [e] <;> exact fun _ => nofun
            rw [hout hno, hplace]
            exact hin' hp
          · rw [hout (by rw [hplace, hout' hp]; exact hp), hplace]
            exact hout' hp
        · rw [h.otherThr (by simpa using hjk)] at hq hin hout
          exact ⟨q, hq, hin, hout⟩
      · have hjk : j = k := (List.mem_cons.mp hj).resolve_right hjr
        subst hjk
        obtain ⟨q, hq, hin, hout⟩ := h.thread j (by simp)
        exact ⟨q, by rw [g.otherThr hjr, hq], hin, hout⟩

/-- What a pass that ends leaves of its core and its threads. -/
structure PassEnds (leave : Thread → Thread) (c p : Nat) (x : Pass) (s t : State) : Prop where
  rest : t = { s with threads := t.threads, cores := t.cores, teams := t.teams }
  teams : t.teams = ((s.finishResv c x).closeChans c x).teams
  core : t.core c = { s.core c with pipes := Tbl.drop (s.core c).pipes p
                                    wvt := (t.core c).wvt, bin := (t.core c).bin, binSeq := (t.core c).binSeq }
  otherThr : ∀ k, k ∉ x.slots → t.thr c k = s.thr c k
  thread : ∀ k ∈ x.slots, ∃ q, t.thr c k = { leave (s.thr c k) with place := q }
    ∧ ((∃ p, (s.thr c k).place = .pass p) → q = .entry ∨ q = .bin)
    ∧ ((∀ p, (s.thr c k).place ≠ .pass p) → q = (s.thr c k).place)

theorem State.endPassBy_ends {leave : Thread → Thread} (hl : Leaving leave) (s : State) (c p : Nat) (x : Pass) :
    PassEnds leave c p x s (s.endPassBy leave c p x) := by
  have hf := s.settle_frame c x
  have h := State.leaveThreads_left hl c x.slots
    (((s.finishResv c x).closeChans c x).modCore c (fun k => { k with pipes := Tbl.drop k.pipes p }))
  rw [← s.endPassBy_eq leave c p x] at h
  set u := (s.finishResv c x).closeChans c x
  have hthr : ∀ k, u.thr c k = s.thr c k := fun k => by rw [hf]; rfl
  have hcore : u.core c = s.core c := by rw [hf]; rfl
  refine ⟨?_, ?_, ?_, fun k hk => (h.otherThr hk).trans (hthr k), fun k hk => ?_⟩
  · rw [h.rest, hf]; rfl
  · rw [h.rest]; rfl
  · rw [h.core, State.modCore_eq, State.core_setCore_self, hcore]
  · obtain ⟨q, hq, hin, hout⟩ := h.thread k hk
    simp only [State.modCore_eq, State.thr_setCore, hthr] at hq hin hout
    exact ⟨q, hq, hin, hout⟩

/-! ## The least and greatest of a list -/

/-- One step of a search through a list: a new entry takes the place of the one found so far when it is better. -/
structure Search {α : Type} (better : α → α → Prop) [DecidableRel better] (f : Option α → α → Option α) : Prop where
  start : ∀ r, f none r = some r
  step : ∀ x r, f (some x) r = if better r x then some r else some x

namespace Search
variable {α : Type} {better : α → α → Prop} [DecidableRel better] {f : Option α → α → Option α}

/-- A search from an entry finds it or an entry of the list. -/
theorem from_some (hf : Search better f) (l : List α) (x : α) : ∃ y ∈ x :: l, l.foldl f (some x) = some y := by
  induction l generalizing x with
  | nil => exact ⟨x, by simp, rfl⟩
  | cons a r ih =>
    rw [List.foldl_cons, hf.step]
    split
    · obtain ⟨y, hy, h⟩ := ih a; exact ⟨y, List.mem_cons_of_mem _ hy, h⟩
    · obtain ⟨y, hy, h⟩ := ih x; exact ⟨y, by simp only [List.mem_cons] at hy ⊢; tauto, h⟩

theorem mem (hf : Search better f) {l : List α} {y : α} (h : l.foldl f none = some y) : y ∈ l := by
  cases l with
  | nil => cases h
  | cons a r =>
    rw [List.foldl_cons, hf.start] at h
    obtain ⟨z, hz, e⟩ := hf.from_some r a
    cases h.symm.trans e
    exact hz

theorem nil_of_none (hf : Search better f) {l : List α} (h : l.foldl f none = none) : l = [] := by
  cases l with
  | nil => rfl
  | cons a r =>
    rw [List.foldl_cons, hf.start] at h
    obtain ⟨z, -, e⟩ := hf.from_some r a
    cases h.symm.trans e

end Search

/-! ## Tidying the waiting-vector table (R167, R168) -/

theorem insertSorted_ne_nil (n : Nat) (l : List Nat) : insertSorted n l ≠ [] := by
  cases l with
  | nil => exact nofun
  | cons a r => unfold insertSorted; split_ifs <;> exact nofun

theorem foldl_insertSorted_ne_nil {α : Type} (f : α → Nat) (l : List α) {a : List Nat} (h : l ≠ [] ∨ a ≠ []) :
    l.foldl (fun a r => insertSorted (f r) a) a ≠ [] := by
  induction l generalizing a with
  | nil => exact h.resolve_left (fun h => h rfl)
  | cons x r ih => exact ih (.inr (insertSorted_ne_nil _ _))

/-- A fold of operations that leave the cores as they are. -/
theorem State.core_foldl {α : Type} {f : State → α → State} (hf : ∀ s a d, (f s a).core d = s.core d) (l : List α) (s : State) (d : Nat) :
    (l.foldl f s).core d = s.core d := by
  induction l generalizing s with
  | nil => rfl
  | cons a r ih => exact (ih _).trans (hf s a d)

/-- Every entry of a core's table holds some thread. -/
def Core.Occupied (x : Core) : Prop := ∀ e ∈ x.wvt, e.slots ≠ []

theorem State.joinDue_occupied (s : State) (c : Nat) (pos : DWord) (h : (s.core c).Occupied) : ((s.joinDue c pos).core c).Occupied := by
  unfold State.joinDue
  dsimp only
  rw [State.core_foldl ?frame, State.modCore_eq, State.core_setCore_self]
  intro e he
  obtain ⟨d, hd, rfl⟩ := List.mem_map.mp he
  split
  · exact foldl_insertSorted_ne_nil _ _ (.inr (h d hd))
  · exact h d hd
  case frame => exact fun _ _ _ => rfl

theorem State.joinEntries_occupied (s : State) (c : Nat) (h : (s.core c).Occupied) : ((s.joinEntries c).core c).Occupied := by
  unfold State.joinEntries
  generalize (s.core c).wvt.filter _ = l
  induction l generalizing s with
  | nil => exact h
  | cons e r ih => exact ih _ (s.joinDue_occupied c e.pos h)

/-- Reintroduction goes on until no record is due or no entry is free, when it may move as many records as the bin holds. -/
theorem State.reintroduce_fills (c n : Nat) (s : State) (hn : (s.core c).bin.length ≤ n) (h : (s.core c).Occupied) :
    let x := (s.reintroduce c n).core c
    x.Occupied ∧ ((∃ r ∈ x.bin, r.park = 0) → Config.wvtEntries ≤ x.wvt.length) := by
  induction n generalizing s with
  | zero =>
    refine ⟨h, fun ⟨r, hr, _⟩ => ?_⟩
    have : (s.core c).bin = [] := List.length_eq_zero_iff.mp (by omega)
    exact absurd hr (by simp [State.reintroduce, this])
  | succ n ih =>
    unfold State.reintroduce
    dsimp only
    split
    · next hf =>
      have hnone := Search.nil_of_none (better := fun (r x : ContRec) => r.seq < x.seq) ⟨fun _ => rfl, fun _ _ => rfl⟩ hf
      refine ⟨h, fun ⟨r, hr, hp⟩ => ?_⟩
      exact absurd (List.filter_eq_nil_iff.mp hnone r hr) (by simp [hp])
    · next r hf =>
      have hr := List.mem_filter.mp (Search.mem (better := fun (r x : ContRec) => r.seq < x.seq) ⟨fun _ => rfl, fun _ _ => rfl⟩ hf)
      split
      · next hfull => exact ⟨h, fun _ => hfull⟩
      · refine ih _ ?_ ?_
        · rw [State.core_foldl ?frame, State.modCore_eq, State.core_setCore_self]
          have hfewer : ((s.core c).bin.filter (fun x => !(x.park == 0 && x.pos == r.pos))).length < (s.core c).bin.length :=
            List.length_filter_lt_length_iff_exists.mpr ⟨r, hr.1, by simpa using hr.2⟩
          dsimp only
          omega
          exact fun _ _ _ => rfl
        · rw [State.core_foldl ?frame, State.modCore_eq, State.core_setCore_self]
          intro e he
          rcases List.mem_append.mp he with he | he
          · exact h e he
          · rw [List.mem_singleton.mp he]
            exact foldl_insertSorted_ne_nil (fun x : ContRec => x.slot) _ (.inl (List.ne_nil_of_mem
              (List.mem_filter.mpr ⟨List.mem_filter.mpr hr, by simp⟩)))

/-- After tidying no entry is empty, and none is left free beside a due record. -/
theorem State.tidy_fills (s : State) (c : Nat) :
    let x := (s.tidy c).core c
    x.Occupied ∧ ((∃ r ∈ x.bin, r.park = 0) → Config.wvtEntries ≤ x.wvt.length) := by
  refine State.reintroduce_fills c _ _ le_rfl (State.joinEntries_occupied _ c ?_)
  rw [State.modCore_eq, State.core_setCore_self]
  intro e he
  simpa using (List.mem_filter.mp he).2

/-! ## The obligation -/

theorem PassEnds.chan {leave : Thread → Thread} {c p : Nat} {x : Pass} {s t : State} (h : PassEnds leave c p x s t) (m n : Nat) :
    (t.team m).chan n = (((s.finishResv c x).closeChans c x).team m).chan n := by
  unfold State.team; rw [h.teams]

/-- The threads of a pass that ends are placed without their temporaries, and the pipe is free. -/
theorem State.endPass_pipe_and_threads (s : State) (c p : Nat) (x : Pass) :
    let t := s.endPass c p x
    Tbl.look (t.core c).pipes p = none
      ∧ (∀ q, q ≠ p → Tbl.look (t.core c).pipes q = Tbl.look (s.core c).pipes q)
      ∧ (∀ k ∈ x.slots, (∃ q, (s.thr c k).place = .pass q) →
          ∃ q, t.thr c k = { s.thr c k with place := q, tvalid := 0, t := [] } ∧ (q = .entry ∨ q = .bin))
      ∧ (∀ k, (k ∈ x.slots → ∀ q, (s.thr c k).place ≠ .pass q) →
          t.thr c k = if k ∈ x.slots then { s.thr c k with tvalid := 0, t := [] } else s.thr c k)
      ∧ t = { s with threads := t.threads, cores := t.cores, teams := t.teams } := by
  have h : PassEnds Thread.leavePass c p x s (s.endPass c p x) := s.endPassBy_ends leaving_leavePass c p x
  refine ⟨?_, fun q hq => ?_, fun k hk hp => ?_, fun k hk => ?_, h.rest⟩
  · rw [h.core, Tbl.look_drop, if_pos rfl]
  · rw [h.core, Tbl.look_drop, if_neg hq]
  · obtain ⟨q, hq, hin, -⟩ := h.thread k hk
    exact ⟨q, hq, hin hp⟩
  · split
    · next hmem =>
      obtain ⟨q, hq, -, hout⟩ := h.thread k hmem
      rw [hq, hout (hk hmem)]
      rfl
    · next hmem => exact h.otherThr k hmem

/-- Settles O26: a pass ends by settling its reservations and placing its threads; a placed thread takes the first rule; tidying stops only at
a full table or an empty queue of due records. -/
theorem endOfAPassAndPlacement : Obligations.EndOfAPassAndPlacement := by
  unfold Obligations.EndOfAPassAndPlacement
  refine ⟨⟨State.endPass_pipe_and_threads, fun s c p gs x r hresv hclose => ?resv, fun s c p gs n x hresv hclose => ?close⟩,
    fun s c k => ?place, fun s c => s.tidy_fills c⟩
  case resv =>
    have h : PassEnds Thread.leavePass c p x s (s.endPass c p x) := s.endPassBy_ends leaving_leavePass c p x
    have hset : (s.finishResv c x).closeChans c x = State.settleResv c x.hdr s (gs, r) := by
      rw [State.closeChans_eq, hclose, State.finishResv_eq, hresv]; rfl
    simp only [h.chan, hset]
    exact ⟨fun id => s.settleResv_lacks c x.hdr gs r, fun id => s.settleResv_zeroed c x.hdr gs r,
      fun n e he => s.mem_settleResv c x.hdr gs r he⟩
  case close =>
    have h : PassEnds Thread.leavePass c p x s (s.endPass c p x) := s.endPassBy_ends leaving_leavePass c p x
    have hset : (s.finishResv c x).closeChans c x = State.closeChan c s (gs, n) := by
      rw [State.closeChans_eq, hclose, State.finishResv_eq, hresv]; rfl
    simp only [h.chan, hset, State.chan_closeChan, if_true]
    exact ⟨trivial, fun i _ => getLsbD_clear_bit _ _ i⟩
  case place =>
    have h := s.place_placed c k
    refine ⟨fun hk => ?_, fun hk hr => ?_, fun hk hr => ⟨s.newEntry c k (s.thr c k).pos [k], ?_⟩, h.otherCores, h.otherThreads, h.rest⟩
    · rw [s.place_keyed c k hk, State.core_setThr, State.core_setCore_self, State.thr_setThr_self]
      exact ⟨rfl, rfl⟩
    · rw [s.place_record c k hk hr, State.core_setThr, State.core_setCore_self, State.thr_setThr_self]
      exact ⟨rfl, rfl⟩
    · rw [s.place_new c k hk hr, State.core_setThr, State.core_setCore_self, State.thr_setThr_self]
      exact ⟨rfl, rfl, rfl, rfl, rfl, rfl⟩

end Sys2Proof.Machine
end

section
/-!
The obligation on exit, park and the fault return (R25, R113 to R115, R197).
-/
namespace Sys2Proof.Machine

/-! ## Tables -/

theorem Tbl.put_put {α : Type} (t : Tbl α) (k : Nat) (x y : α) : Tbl.put (Tbl.put t k x) k y = Tbl.put t k y := by
  induction t with
  | nil => simp [Tbl.put]
  | cons e r ih =>
    obtain ⟨a, b⟩ := e
    by_cases h : k < a
    · simp [Tbl.put, h]
    · by_cases h' : a = k
      · simp [Tbl.put, h']
      · simp [Tbl.put, h, h', ih]

theorem Tbl.look_adjust {α : Type} (t : Tbl α) (k j : Nat) (f : α → α) :
    Tbl.look (Tbl.adjust t k f) j = if j = k then (Tbl.look t k).map f else Tbl.look t j := by
  unfold Tbl.adjust
  split
  · next x hx => rw [Tbl.look_put, hx]; rfl
  · next hx =>
    rw [hx]
    split
    · next e => rw [e, hx]; rfl
    · rfl

theorem State.setThr_setThr (s : State) (c k : Nat) (x y : Thread) : (s.setThr c k x).setThr c k y = s.setThr c k y := by
  simp only [State.setThr, Tbl.put_put]

/-- Two threads of one core are the same only under one slot. -/
theorem State.thr_setThr_ne (s : State) (c : Nat) {k j : Nat} (x : Thread) (h : j ≠ k) : (s.setThr c k x).thr c j = s.thr c j := by
  rw [State.thr_setThr, if_neg (fun e => h (threadKey_inj e))]

/-! ## Barriers that a thread leaves (R197) -/

/-- A thread as it was, but that some of its arrivals at barriers no longer stand. -/
def Thread.FewerArrivals (a b : Thread) : Prop :=
  b = { a with barArrived := b.barArrived } ∧ ∀ i, b.barArrived.getLsbD i = true → a.barArrived.getLsbD i = true

theorem Thread.FewerArrivals.refl (a : Thread) : a.FewerArrivals a := ⟨rfl, fun _ h => h⟩

theorem Thread.FewerArrivals.trans {a b d : Thread} (h : a.FewerArrivals b) (g : b.FewerArrivals d) : a.FewerArrivals d :=
  ⟨by rw [g.1, h.1], fun i hi => h.2 i (g.2 i hi)⟩

theorem Thread.fewerArrivals_clear (a : Thread) (b : Nat) :
    a.FewerArrivals { a with barArrived := a.barArrived &&& ~~~(onesAt 16 b 1) } :=
  ⟨rfl, fun i h => by
    rw [show ({ a with barArrived := a.barArrived &&& ~~~(onesAt 16 b 1) } : Thread).barArrived.getLsbD i
      = (a.barArrived.getLsbD i && decide (i ≠ b)) from getLsbD_clear_bit _ _ _] at h
    exact (Bool.and_eq_true_iff.mp h).1⟩

/-- Barriers of teams change, and arrivals of threads are taken back. -/
structure BarsClear (s t : State) : Prop where
  rest : t = { s with threads := t.threads, teams := t.teams }
  thread : ∀ n, (Tbl.at s.threads n {}).FewerArrivals (Tbl.at t.threads n {})

namespace BarsClear

theorem refl (s : State) : BarsClear s s := ⟨rfl, fun _ => .refl _⟩

theorem trans {s t u : State} (h : BarsClear s t) (g : BarsClear t u) : BarsClear s u :=
  ⟨by rw [g.rest, h.rest], fun n => (h.thread n).trans (g.thread n)⟩

theorem modTeam (s : State) (m : Nat) (f : Team → Team) : BarsClear s (s.modTeam m f) := ⟨rfl, fun _ => .refl _⟩

/-- The arrivals of the threads of a list at one barrier are taken back. -/
theorem foldl_adjust (b : Nat) (l : List Nat) (m : Tbl Thread) (n : Nat) :
    (Tbl.at m n {}).FewerArrivals (Tbl.at (l.foldl (fun m k =>
      Tbl.adjust m k (fun th => { th with barArrived := th.barArrived &&& ~~~(onesAt 16 b 1) })) m) n {}) := by
  induction l generalizing m with
  | nil => exact .refl _
  | cons k r ih =>
    refine .trans ?_ (ih _)
    simp only [Tbl.at, Tbl.look_adjust]
    split
    · next e =>
      subst e
      cases Tbl.look m n with
      | none => exact .refl _
      | some th => exact th.fewerArrivals_clear b
    · exact .refl _

theorem completeBar (s : State) (m b : Nat) : BarsClear s (s.completeBar m b) := by
  unfold State.completeBar
  dsimp only
  split
  · exact ⟨rfl, fun n => foldl_adjust b _ s.threads n⟩
  · exact .refl s

end BarsClear

/-- One barrier of a team is left by a thread. -/
def State.leaveBar (m c k : Nat) (s : State) (b : Nat) : State :=
  (if (s.thr c k).barArrived.getLsbD b then
      (s.modTeam m (fun y => { y with bars := Tbl.put y.bars b { y.bar b with arr := (y.bar b).arr - 1 } })).setThr c k
        { s.thr c k with barArrived := (s.thr c k).barArrived &&& ~~~(onesAt 16 b 1) }
    else s).completeBar m b

theorem State.leaveBars_eq (s : State) (m c k : Nat) : s.leaveBars m c k = (List.range 16).foldl (State.leaveBar m c k) s := rfl

theorem State.leaveBar_clears (m c k : Nat) (s : State) (b : Nat) :
    BarsClear s (s.leaveBar m c k b) ∧ ((s.leaveBar m c k b).thr c k).barArrived.getLsbD b = false := by
  unfold State.leaveBar
  split
  · refine ⟨.trans ⟨rfl, fun n => ?_⟩ (.completeBar _ m b), ?_⟩
    · simp only [State.setThr_threads, Tbl.at_put, State.modTeam_eq, State.setTeam_threads]
      split
      · next e => subst e; exact Thread.fewerArrivals_clear _ b
      · exact .refl _
    · refine Bool.eq_false_iff.mpr fun h => ?_
      have := ((BarsClear.completeBar _ m b).thread (threadKey c k)).2 b h
      simp only [State.setThr_threads, Tbl.at_put_self, getLsbD_clear_bit] at this
      simp at this
  · next h =>
    refine ⟨.completeBar s m b, Bool.eq_false_iff.mpr fun h' => ?_⟩
    exact h (((BarsClear.completeBar s m b).thread (threadKey c k)).2 b h')

/-- A thread that leaves the barriers of its team has no arrival left. -/
theorem State.leaveBars_clears (s : State) (m c k : Nat) :
    BarsClear s (s.leaveBars m c k) ∧ ((s.leaveBars m c k).thr c k).barArrived = 0 := by
  have fold : ∀ (l : List Nat) (s : State), BarsClear s (l.foldl (State.leaveBar m c k) s)
      ∧ ∀ b ∈ l, ((l.foldl (State.leaveBar m c k) s).thr c k).barArrived.getLsbD b = false := by
    intro l
    induction l with
    | nil => exact fun s => ⟨.refl s, fun _ h => nomatch h⟩
    | cons a r ih =>
      intro s
      obtain ⟨hstep, hbit⟩ := s.leaveBar_clears m c k a
      obtain ⟨hrest, hbits⟩ := ih (s.leaveBar m c k a)
      rw [List.foldl_cons]
      refine ⟨hstep.trans hrest, fun b hb => ?_⟩
      rcases List.mem_cons.mp hb with rfl | hb
      · exact Bool.eq_false_iff.mpr fun h => (Bool.eq_false_iff.mp hbit) ((hrest.thread (threadKey c k)).2 b h)
      · exact hbits b hb
  rw [State.leaveBars_eq]
  obtain ⟨h, hb⟩ := fold (List.range 16) s
  refine ⟨h, BitVec.eq_of_getLsbD_eq fun i hi => ?_⟩
  rw [hb i (List.mem_range.mpr hi)]
  exact BitVec.getLsbD_zero.symm

/-! ## Exit (R114) -/

/-- The thread that an exit leaves, but for its arrivals at barriers. -/
def Thread.ended (th : Thread) : Thread :=
  { th with
    exited := true, place := .out, v := [], vPoison := [], t := [], tvalid := 0, preds := 0, d := [], dPoison := []
    fpst := 0, barWait := [], copies := [], openErr := none, batchErr := [] }

theorem State.leaveSets_frame (s : State) (c gs : Nat) : s.leaveSets c gs = { s with gangs := (s.leaveSets c gs).gangs } := by
  unfold State.leaveSets
  split <;> rfl

/-- What an exit changes. -/
structure Exits (c k : Nat) (s t : State) : Prop where
  rest : t = { s with threads := t.threads, gangs := t.gangs, teams := t.teams, agenda := t.agenda }
  thread : t.thr c k = { (s.thr c k).ended with barArrived := 0 }
  others : ∀ d j, threadKey d j ≠ threadKey c k → t.thr d j = { s.thr d j with barArrived := (t.thr d j).barArrived }

/-- The state after an exit's thread has left the barriers of its team. -/
def State.leftBars (s : State) (c k : Nat) : State := (s.setThr c k (s.thr c k).ended).leaveBars (s.gang c (k / 32)).team c k

/-- The copies of a team that may be complete once a thread of it has exited. -/
def State.copyChecks (s : State) (m : Nat) : List Act :=
  ((s.copies.filter (fun e => e.2.team == m && e.2.st == .collecting)).map (·.1)).map (fun id => .event (.copyCheck id))

theorem State.exitThread_eq (s : State) (c k : Nat) :
    s.exitThread c k = { (s.leftBars c k).leaveSets c (k / 32) with
      agenda := ((s.leftBars c k).leaveSets c (k / 32)).agenda
        ++ ((s.leftBars c k).leaveSets c (k / 32)).copyChecks (s.gang c (k / 32)).team } := rfl

theorem State.exitThread_exits (s : State) (c k : Nat) : Exits c k s (s.exitThread c k) := by
  obtain ⟨hbars, hzero⟩ := (s.setThr c k (s.thr c k).ended).leaveBars_clears (s.gang c (k / 32)).team c k
  change BarsClear _ (s.leftBars c k) at hbars
  change ((s.leftBars c k).thr c k).barArrived = 0 at hzero
  rw [State.exitThread_eq]
  generalize s.leftBars c k = u at hbars hzero
  have hsets := u.leaveSets_frame c (k / 32)
  generalize u.leaveSets c (k / 32) = w at hsets
  have hthr : ∀ d j, w.thr d j = u.thr d j := fun d j => by rw [hsets]; rfl
  refine ⟨?_, ?_, fun d j hne => ?_⟩
  · rw [hsets, hbars.rest]; rfl
  · have h := (hbars.thread (threadKey c k)).1
    rw [State.setThr_threads, Tbl.at_put_self] at h
    exact (hthr c k).trans (h.trans (congrArg (fun b => { (s.thr c k).ended with barArrived := b }) hzero))
  · change w.thr d j = { s.thr d j with barArrived := (w.thr d j).barArrived }
    have h := (hbars.thread (threadKey d j)).1
    rw [State.setThr_threads, Tbl.at_put_ne _ _ _ hne] at h
    rw [hthr]
    exact h

/-! ## Terminators with a condition (R105) -/

/-- Lanes take their turns one after another, each by a step that the relation and an invariant allow. -/
theorem each_inTurn {act : State → Lane → State × Option LaneFail} {R : State → Lane → State → Prop} (Inv : State → Prop) {c : Nat}
    {x : Pass} {ks : List Nat} (hact : ∀ u, Inv u → ∀ k ∈ ks, ∃ v, act u (x.lane c k) = (v, none) ∧ R u (x.lane c k) v ∧ Inv v)
    {s : State} (h0 : Inv s) : ∃ u, InTurn act c x ks s u ∧ Each R c x ks s u ∧ Inv u := by
  induction ks generalizing s with
  | nil => exact ⟨s, rfl, rfl, h0⟩
  | cons k r ih =>
    obtain ⟨v, hv, hR, hI⟩ := hact s h0 k List.mem_cons_self
    obtain ⟨u, hturn, heach, hu⟩ := ih (fun w hw j hj => hact w hw j (List.mem_cons_of_mem _ hj)) hI
    exact ⟨u, ⟨v, hv, hturn⟩, ⟨v, hR, heach⟩, hu⟩

theorem Pass.lane_ft {s : State} {c p : Nat} {x : Pass} (hcur : s.curPass = some (c, p, x)) (k : Nat) :
    (x.lane c k).ft s = fallThrough x.clause x.body := by
  simp only [Lane.ft, hcur]

theorem State.pipe_of_curPass {s : State} {c p : Nat} {x : Pass} (hcur : s.curPass = some (c, p, x)) :
    Tbl.look (s.core c).pipes p = some x := by
  unfold State.curPass at hcur
  split at hcur
  · obtain ⟨y, hy, e⟩ := Option.map_eq_some_iff.mp hcur
    cases e
    exact hy
  · exact nomatch hcur

/-- A lane's turn at a terminator that a predicate conditions. -/
def termTurn (s0 : State) (f : Fields) (ks : List (Nat × OpKind × Operand)) (act : State → Lane → Except LaneFail State) (s : State)
    (l : Lane) : State × Option LaneFail :=
  let r : Except LaneFail State := do
    l.check s0 ks
    if (l.thr s).holds f.guard then act s l
    else .ok (s.succeed l (l.ft s0))
  match r with
  | .ok t => (t, none)
  | .error e => (s, some e)

theorem termOp_eq (s : State) (f : Fields) (ks : List (Nat × OpKind × Operand)) (act : State → Lane → Except LaneFail State) :
    termOp s f ks act = s.execTerm (termTurn s f ks act) := rfl

/-- A terminator whose fields are right and whose condition no lane acts wrongly on: each lane takes its turn, and the pass ends. -/
theorem termOp_each {R : State → Lane → State → Prop} (Inv : State → Prop) {s : State} {c p : Nat} {x : Pass} {f : Fields}
    {ks : List (Nat × OpKind × Operand)} {act : State → Lane → Except LaneFail State} (hcur : s.curPass = some (c, p, x)) (h0 : Inv s)
    (hcores : ∀ u, Inv u → u.cores = s.cores) (hcheck : ∀ k ∈ x.slots, (x.lane c k).check s ks = .ok ())
    (hact : ∀ u, Inv u → ∀ k ∈ x.slots, (u.thr c k).holds f.guard = true →
      ∃ v, act u (x.lane c k) = .ok v ∧ R u (x.lane c k) v ∧ Inv v)
    (hfall : ∀ u, Inv u → ∀ k ∈ x.slots, ¬ (u.thr c k).holds f.guard = true →
      R u (x.lane c k) (u.succeed (x.lane c k) (fallThrough x.clause x.body))
        ∧ Inv (u.succeed (x.lane c k) (fallThrough x.clause x.body))) :
    ∃ t, termOp s f ks act = .next t ∧ LanesEnd R s c p x t := by
  have step : ∀ u, Inv u → ∀ k ∈ x.slots, ∃ v, termTurn s f ks act u (x.lane c k) = (v, none) ∧ R u (x.lane c k) v ∧ Inv v := by
    intro u hu k hk
    by_cases h : (u.thr c k).holds f.guard = true
    · obtain ⟨v, hv, hR, hI⟩ := hact u hu k hk h
      refine ⟨v, ?_, hR, hI⟩
      simp only [termTurn, hcheck k hk, show ((x.lane c k).thr u).holds f.guard = true from h, if_true, hv]
      rfl
    · refine ⟨_, ?_, hfall u hu k hk h⟩
      simp only [termTurn, hcheck k hk, show ((x.lane c k).thr u).holds f.guard = false from Bool.eq_false_iff.mpr h, Pass.lane_ft hcur]
      rfl
  obtain ⟨u, hturn, heach, hu⟩ := each_inTurn Inv step h0
  refine ⟨u.endPass c p x, (termOp_eq s f ks act).trans (s.execTerm_inTurn _ hcur hturn ?_), u, heach, rfl⟩
  rw [State.core, hcores u hu]
  exact State.pipe_of_curPass hcur

theorem State.succeed_eq (u : State) (x : Pass) (c k : Nat) (a : DWord) :
    u.succeed (x.lane c k) a = u.setThr c k { u.thr c k with pos := entryPos a } := rfl

/-- What an exit's lanes keep: the cores, and that no lane that is to exit speculates. -/
structure ExitsReady (s : State) (c : Nat) (x : Pass) (g : Guard) (u : State) : Prop where
  cores : u.cores = s.cores
  certain : ∀ k ∈ x.slots, (u.thr c k).holds g = true → (u.thr c k).spec = false

theorem exit_lanesEnd {f : Fields} {s : State} {c p : Nat} {x : Pass} (hcur : s.curPass = some (c, p, x))
    (hspec : ∀ k ∈ x.slots, (s.thr c k).holds f.guard = true → (s.thr c k).spec = false) :
    ∃ t, exec (.exit f) s = .next t ∧ LanesEnd (fun u l v =>
      if (l.thr u).holds f.guard then v = u.exitThread l.core l.slot
      else v = u.setThr l.core l.slot { l.thr u with pos := entryPos (fallThrough x.clause x.body) }) s c p x t := by
  refine termOp_each (ExitsReady s c x f.guard) hcur ⟨rfl, hspec⟩ (fun u h => h.cores) (fun _ _ => rfl) (fun u hu k hk h => ?_)
    (fun u hu k hk h => ?_)
  · have hend := u.exitThread_exits c k
    refine ⟨u.exitThread c k, ?_, ?_, ?_, fun j hj hg => ?_⟩
    · have : ((x.lane c k).thr u).spec = false := hu.certain k hk h
      simp only [Lane.stopIfSpec, this]
      rfl
    · rw [if_pos (show ((x.lane c k).thr u).holds f.guard = true from h)]; rfl
    · rw [hend.rest]; exact hu.cores
    · by_cases e : j = k
      · subst e
        rw [hend.thread]
        exact hu.certain j hk h
      · have ho := hend.others c j (fun h => e (threadKey_inj h))
        rw [ho] at hg ⊢
        exact hu.certain j hj hg
  · refine ⟨?_, hu.cores, fun j hj hg => ?_⟩
    · rw [if_neg (show ¬ ((x.lane c k).thr u).holds f.guard = true from h)]; rfl
    · rw [State.succeed_eq] at hg ⊢
      by_cases e : j = k
      · subst e
        rw [State.thr_setThr_self] at hg ⊢
        exact hu.certain j hj hg
      · rw [State.thr_setThr_ne _ _ _ e] at hg ⊢
        exact hu.certain j hj hg

theorem park_lanesEnd {f : Fields} {s : State} {c p : Nat} {x : Pass} (hcur : s.curPass = some (c, p, x)) (n : Nat → Word)
    (haligned : (fallThrough x.clause x.body).toNat % 32 = 0) (hcan : canonical (fallThrough x.clause x.body).toNat = true)
    (hk : ∀ k ∈ x.slots, (x.lane c k).check s [(pSA, OpKind.srcOpt false, f.sa)] = .ok () ∧ ((s.thr c k).holds f.guard = true →
        if f.sa = .none then n k = 0 else (x.lane c k).readWord s pSA f.sa = .ok (n k))) :
    ∃ t, exec (.park f) s = .next t ∧ LanesEnd (fun u l v => v = u.setThr l.core l.slot
      (if (l.thr u).holds f.guard then
        { l.thr u with park := (n l.slot).toNat, clkh := (l.start s f).th.clkh, pos := entryPos (fallThrough x.clause x.body) }
      else { l.thr u with pos := entryPos (fallThrough x.clause x.body) })) s c p x t := by
  have kept : ∀ (u : State) (k : Nat) (th : Thread), (u.cores = s.cores ∧ ∀ k, (u.thr c k).preds = (s.thr c k).preds) →
      th.preds = (u.thr c k).preds → (u.setThr c k th).cores = s.cores ∧ ∀ j, ((u.setThr c k th).thr c j).preds = (s.thr c j).preds := by
    intro u k th hu hth
    refine ⟨hu.1, fun j => ?_⟩
    rw [State.thr_setThr]
    split
    · next e => rw [hth, threadKey_inj e]; exact hu.2 k
    · exact hu.2 j
  refine termOp_each (fun u => u.cores = s.cores ∧ ∀ k, (u.thr c k).preds = (s.thr c k).preds) hcur ⟨rfl, fun _ => rfl⟩
    (fun u h => h.1) (fun k h => (hk k h).1) (fun u hu k h hg => ?_) (fun u hu k _ hg => ⟨?_, kept u k _ hu rfl⟩)
  · have hg' : (s.thr c k).holds f.guard = true := by rw [← hg, Thread.holds, Thread.holds, hu.2 k]
    have hread := (hk k h).2 hg'
    have hsucc : checkSuccessor (fallThrough x.clause x.body) = .ok (fallThrough x.clause x.body) := by
      simp [checkSuccessor, haligned, hcan]
    refine ⟨u.setThr c k { u.thr c k with
        park := (n k).toNat, clkh := ((x.lane c k).start s f).th.clkh, pos := entryPos (fallThrough x.clause x.body) }, ?_, ?_, kept u k _ hu rfl⟩
    · have hset : ∀ m : Nat, ((u.modThr c k fun th => { th with park := m, clkh := ((x.lane c k).start s f).th.clkh }).succeed (x.lane c k)
          (fallThrough x.clause x.body)) = u.setThr c k { u.thr c k with
            park := m, clkh := ((x.lane c k).start s f).th.clkh, pos := entryPos (fallThrough x.clause x.body) } := fun m => by
        rw [State.succeed_eq, State.modThr_eq, State.setThr_setThr, State.thr_setThr_self]
      by_cases e : f.sa = .none
      · rw [if_pos e] at hread
        simp only [e, hread, Pass.lane_ft hcur, hsucc, ← hset]
        rfl
      · rw [if_neg e] at hread
        simp only [beq_eq_false_iff_ne.mpr e, hread, Pass.lane_ft hcur, hsucc, ← hset]
        rfl
    · rw [if_pos (show ((x.lane c k).thr u).holds f.guard = true from hg)]; rfl
  · rw [if_neg (show ¬ ((x.lane c k).thr u).holds f.guard = true from hg)]; rfl

/-! ## The fault return (R113) -/

theorem State.stopCtx_threads (s : State) (ctx core : Nat) (w : DWord) : (s.stopCtx ctx core w).threads = s.threads := by
  unfold State.stopCtx State.raise
  dsimp only
  split
  · split <;> rfl
  · split <;> rfl

theorem State.noteBounds_threads (s : State) (c k pass : Nat) (code : BitVec 8) : (s.noteBounds c k pass code).threads = s.threads := by
  unfold State.noteBounds
  split <;> rfl

section
variable (s : State) (c k : Nat) (pos : DWord) (pass : Nat) (i : FaultInfo) {n : Nat} (hn : n ≠ threadKey c k)
include hn

theorem State.deliver_otherThreads : Tbl.look (s.deliver c k pos pass i).threads n = Tbl.look s.threads n := by
  have hset : ∀ th, Tbl.look ((s.noteBounds c k pass i.code).setThr c k th).threads n = Tbl.look s.threads n := fun th => by
    rw [State.setThr_threads, Tbl.look_put_ne _ _ hn, State.noteBounds_threads]
  unfold State.deliver
  dsimp only
  split
  · rw [State.stopCtx_threads]; exact hset _
  · split
    · rw [State.stopCtx_threads]; exact hset _
    · exact ((State.place_placed _ c k).otherThreads n hn).trans (hset _)

omit hn in
theorem State.faultMet_threads : (s.faultMet c k i).threads = s.threads := by
  unfold State.faultMet
  dsimp only
  split
  · rw [(s.walkMet_side _ _ _).rest]
  · rfl

theorem State.takeFault_otherThreads : Tbl.look (s.takeFault c k pos pass i).threads n = Tbl.look s.threads n := by
  unfold State.takeFault
  dsimp only
  split
  · rw [State.setThr_threads, Tbl.look_put_ne _ _ hn, State.faultMet_threads]
  · rw [State.deliver_otherThreads _ _ _ _ _ _ hn, State.faultMet_threads]

end

/-- The lanes that leave a pass change no other thread. -/
theorem State.leave_otherThreads (s : State) (c : Nat) (x : Pass) (fails : List (Nat × LaneFail)) {n : Nat}
    (hn : ∀ e ∈ fails, n ≠ threadKey c e.1) : Tbl.look (s.leave c x fails).threads n = Tbl.look s.threads n := by
  unfold State.leave
  induction fails generalizing s with
  | nil => rfl
  | cons e r ih =>
    rw [List.foldl_cons, ih _ (fun d hd => hn d (List.mem_cons_of_mem _ hd))]
    have he := hn e List.mem_cons_self
    split
    · exact State.takeFault_otherThreads s c e.1 _ _ _ he
    · exact Tbl.look_put_ne _ _ he

/-- The temporaries that a fault return restores are those of its frame. -/
theorem Thread.readT_faultReturn (th : Thread) {n : Nat} (hn : n < 8) : th.faultReturn.readT n = th.frameT n := by
  have fold : ∀ (l : List Nat) (t : Tbl Word), Tbl.at (l.foldl (fun t n => Tbl.put t n (th.frameT n)) t) n 0
      = if n ∈ l then th.frameT n else Tbl.at t n 0 := by
    intro l
    induction l with
    | nil => intro t; simp
    | cons a r ih =>
      intro t
      rw [List.foldl_cons, ih, Tbl.at_put]
      by_cases e : n = a
      · subst e; simp
      · simp [e]
  exact (fold _ _).trans (if_pos (List.mem_range.mpr hn))

theorem Thread.enter_inside (th : Thread) (pipe : Nat) (h : posIdx th.pos ≠ 31) :
    (th.enter pipe).tvalid = th.tvalid ∧ (th.enter pipe).t = th.t := by
  have : (posIdx th.pos == 31) = false := by simpa using h
  simp only [Thread.enter, this]
  exact ⟨rfl, rfl⟩

/-- A lane at supervisor privilege that executes the fault return has the position and the temporaries of its frame. -/
theorem State.retFault_thr (s : State) (c p : Nat) (x : Pass) {k : Nat} (hk : k ∈ x.slots) (hpriv : (s.thr c k).priv = true)
    (i : FaultInfo) :
    let users := x.slots.filter (fun k => !(s.thr c k).priv)
    let t := (s.leave c x (users.map (fun k => (k, LaneFail.fault i)))).endPassBy Thread.faultReturn c p (x.without users)
    ∃ q, t.thr c k = { (s.thr c k).faultReturn with place := q }
      ∧ ((∃ r, (s.thr c k).place = .pass r) → q = .entry ∨ q = .bin) := by
  intro users t
  have hout : k ∉ users := fun h => by simp [users, hpriv] at h
  have hthr : (s.leave c x (users.map (fun k => (k, LaneFail.fault i)))).thr c k = s.thr c k := by
    refine congrArg (Option.getD · {}) (s.leave_otherThreads c x _ fun e he => ?_)
    obtain ⟨j, hj, rfl⟩ := List.mem_map.mp he
    exact fun h => hout (threadKey_inj h ▸ hj)
  have hends := State.endPassBy_ends leaving_faultReturn (s.leave c x (users.map (fun k => (k, LaneFail.fault i)))) c p (x.without users)
  obtain ⟨q, hq, hin, -⟩ := hends.thread k (List.mem_filter.mpr ⟨hk, by simpa using hout⟩)
  rw [hthr] at hq hin
  exact ⟨q, hq, hin⟩

/-- Settles O30: exit and park by turns of the lanes, the fault return by what the end of a pass leaves. -/
theorem exitParkAndFaultReturn : Obligations.ExitParkAndFaultReturn := by
  unfold Obligations.ExitParkAndFaultReturn
  refine ⟨fun f s c p x hcur => ⟨exit_lanesEnd hcur, fun n ha hc hk => park_lanesEnd hcur n ha hc hk, ?_⟩, fun s c k => ?_⟩
  · refine ⟨_, ?_, rfl, fun k hk hpriv => ?_⟩
    · change execRetFault f s = _
      simp only [execRetFault, hcur]
      rfl
    · obtain ⟨q, hq, hin⟩ := s.retFault_thr c p x hk hpriv ⟨4, 2048, 0⟩
      rw [hq]
      have hT : ∀ n < 8, ({ (s.thr c k).faultReturn with place := q } : Thread).readT n = (s.thr c k).frameT n :=
        fun n hn => (s.thr c k).readT_faultReturn hn
      refine ⟨rfl, rfl, rfl, hT, rfl, rfl, hin, fun hidx pipe => ?_⟩
      obtain ⟨hvalid, ht⟩ := Thread.enter_inside _ pipe hidx
      refine ⟨hvalid, fun n hn => ?_⟩
      rw [Thread.readT, ht]
      exact hT n hn
  · have h := s.exitThread_exits c k
    refine ⟨?_, ?_, ?_, ?_, ?_, ?_, ?_, ?_, h.others, h.rest⟩ <;> rw [h.thread] <;> rfl

end Sys2Proof.Machine
end

section
/-!
The obligation on traps and illegal words (R132): a trap's fault is fixed by the state before the instruction only when a
pass lists each slot once.
-/
namespace Sys2Proof.Machine

/-- A lane on a speculative path that leaves its pass holds the fault of its last entry in the list of those that leave (R422). -/
theorem State.takeFault_spec {s : State} {c k : Nat} (h : (s.thr c k).spec = true) (pos : DWord) (pass : Nat) (i : FaultInfo) :
    (s.takeFault c k pos pass i).thr c k = { s.thr c k with heldFault := some i, pos := pos, place := .held } := by
  have hthr : (s.faultMet c k i).thr c k = s.thr c k := by
    unfold State.thr; rw [State.faultMet_threads]
  unfold State.takeFault
  dsimp only
  rw [hthr, if_pos h, State.thr_setThr_self]

namespace TwiceListed

/-- A pass that lists slot 0 twice, whose thread is on a speculative path: %clk reads 0, the %clkh latched before is 0, and the next
latch makes it 64. -/
def speculating : State := { State.reset with
  cores := [(0, { cycle := 0x4000000000, pipes := [(0, pass)] })]
  threads := [(0, { spec := true })] }

/-- `trap` of %clkh that names %clk too. -/
def trapFields : Fields :=
  { guard := ⟨7, false⟩, minor := 0, ty := .u32, md := 0, slot := 0, dst := .none, sa := .special 11, sb := .special 10, sc := .none, imm := none }

/-- The second turn of the slot faults with the %clkh that its first turn latched. -/
theorem trap_second_turn : (nextState (exec (.trap trapFields) speculating)).map (fun t => (t.thr 0 0).heldFault) = some (some ⟨5, 64, 0⟩) := by
  decide +kernel

end TwiceListed

/-- Refutes O32, by the clause on `trap`: it fixes a lane's fault by the state before the instruction, where %clkh is 0, and the second
turn of a slot that the pass lists twice reads the %clkh that the first turn latched, 64. -/
theorem not_trapsAndIllegalWordsFault : ¬ Obligations.TrapsAndIllegalWordsFault := by
  unfold Obligations.TrapsAndIllegalWordsFault
  intro h
  obtain ⟨runs, -⟩ := h TwiceListed.trapFields TwiceListed.speculating 0 0 TwiceListed.pass [0, 0]
  obtain ⟨trap, -⟩ := runs ⟨rfl, rfl, by decide +kernel⟩
  obtain ⟨u, hexec, -, hthr⟩ := trap (fun _ => 0) (by decide +kernel)
  have second : ((u.afterInstr 0 0 TwiceListed.pass [(0, .fault ⟨5, 0, 0⟩), (0, .fault ⟨5, 0, 0⟩)]).thr 0 0).heldFault = some ⟨5, 64, 0⟩ := by
    have := TwiceListed.trap_second_turn
    rw [hexec] at this
    exact Option.some.inj this
  have hspec : (u.thr 0 0).spec = true := by rw [(hthr 0 0).1]; rfl
  set y : Pass := { TwiceListed.pass.without [0, 0] with idx := 1 }
  have first : ((u.afterInstr 0 0 TwiceListed.pass [(0, .fault ⟨5, 0, 0⟩), (0, .fault ⟨5, 0, 0⟩)]).thr 0 0).heldFault = some ⟨5, 0, 0⟩ := by
    set v := (u.setPass 0 0 y).leave 0 TwiceListed.pass [(0, .fault ⟨5, 0, 0⟩), (0, .fault ⟨5, 0, 0⟩)]
    have hv : (v.thr 0 0).heldFault = some ⟨5, 0, 0⟩ := by
      have once := State.takeFault_spec (s := u.setPass 0 0 y) (c := 0) (k := 0) hspec (posAt 0 0) 0 ⟨5, 0, 0⟩
      have again : (((u.setPass 0 0 y).takeFault 0 0 (posAt 0 0) 0 ⟨5, 0, 0⟩).thr 0 0).spec = true := by rw [once]; exact hspec
      exact congrArg Thread.heldFault (State.takeFault_spec again (posAt 0 0) 0 ⟨5, 0, 0⟩)
    change ((v.endPassBy Thread.leavePass 0 0 y).thr 0 0).heldFault = _
    rw [(State.endPassBy_ends leaving_leavePass v 0 0 y).otherThr 0 (by decide)]
    exact hv
  exact absurd (second.symm.trans first) (by decide)

end Sys2Proof.Machine
end

section
/-!
The obligation on loads (R117): a lane's address is fixed by the state before the instruction only when a pass lists each
slot once.
-/
namespace Sys2Proof.Machine

/-- A pass that goes on leaves the long-latency operations as the last lane left them. -/
theorem GoesOn.pending {s t : State} {c p : Nat} {x : Pass} {reads : Bool} {outs : List (Nat × LaneOut)}
    (h : GoesOn s t c p x reads outs) : (t.core c).pending = (s.core c).pending := by
  have hcore : t.core c = { s.core c with pipes := Tbl.put (s.core c).pipes p (nextPass s c x reads outs) } := by
    rw [State.core, h.cores]
    exact State.core_setCore_self s c _
  rw [hcore]

namespace TwiceListed

/-- A pass that lists slot 0 twice, whose header gives flag 0. -/
def flagPass : Pass := { pass with hdr := 1 <<< 26 }

/-- The state of the stores, with that pass: scratchpad holds 1 at address 64, and zeros elsewhere. -/
def loading : State := { state with cores := [(0, { cycle := 0x4000000000, pipes := [(0, flagPass)] })] }

/-- `ld.spad.u8` of v0: the second turn loads the byte at address 64, which is 1. -/
theorem ld_second_turn : (nextState (exec (.ld (fields (.v 0))) loading)).map (fun t => (t.core 0).pending.map (·.words))
    = some [[(0, 0, false)], [(0, 1, false)]] := by
  decide +kernel

end TwiceListed

/-- Refutes O36, by the clause on the scratchpad: it fixes a lane's address by the state before the instruction, 0, and the second turn of a
slot that the pass lists twice loads the byte at address 64. -/
theorem not_loadResults : ¬ Obligations.LoadResults := by
  unfold Obligations.LoadResults
  intro h
  obtain ⟨loads, -⟩ := h
  obtain ⟨spad, -⟩ := loads (TwiceListed.fields (.v 0)) TwiceListed.loading 0 0 TwiceListed.flagPass 1 0 0 false (by decide)
    (by decide +kernel) (by decide)
  obtain ⟨t, hexec, u, ⟨u1, first, u2, second, last⟩, on⟩ := spad [0, 0] (fun _ => 0) ⟨rfl, rfl, by decide⟩ (.inl rfl) (by decide +kernel)
  have loaded : (t.core 0).pending.map (·.words) = [[(0, 0, false)], [(0, 1, false)]] := by
    have := TwiceListed.ld_second_turn
    rw [show exec (.ld (TwiceListed.fields (.v 0))) TwiceListed.loading = .next t from hexec] at this
    exact Option.some.inj this
  have zeros : (t.core 0).pending.map (·.words) = [[(0, 0, false)], [(0, 0, false)]] := by
    rw [on.pending, last, second, first]
    decide +kernel
  exact absurd (loaded.symm.trans zeros) (by decide)

end Sys2Proof.Machine
end

section
/-!
The obligation on the step and the decoded instruction (R12, R13, R64, R171, R364).
-/
namespace Sys2Proof.Machine

/-! ## Bytes of a device without errors -/

theorem Tbl.mem_of_look {α : Type} {t : Tbl α} {k : Nat} {x : α} (h : Tbl.look t k = some x) : (k, x) ∈ t := by
  induction t with
  | nil => exact nomatch h
  | cons e r ih =>
    obtain ⟨a, b⟩ := e
    simp only [Tbl.look] at h
    split at h
    · next e => subst e; cases h; exact List.mem_cons_self
    · exact List.mem_cons_of_mem _ (ih h)

theorem State.anyBad_eq_false {s : State} : s.anyBad = false ↔ s.badWords = [] ∧ ∀ e ∈ s.l2, e.2.bad = false := by
  simp [State.anyBad]

theorem State.orOpen_of_no_error {s : State} (h : s.anyBad = false) (pa : Nat) (b : Byte) : s.orOpen pa b = b := by
  obtain ⟨hwords, hlines⟩ := State.anyBad_eq_false.mp h
  have hphys : s.physBad (4 * (pa / 4)) 4 = false := by simp [State.physBad, hwords]
  unfold State.orOpen
  rw [hphys]
  cases hl : Tbl.look s.l2 (pa / 64) with
  | none => rfl
  | some l => simp [show l.bad = false from hlines _ (Tbl.mem_of_look hl)]

/-- A byte of memory, where no page is placed and nothing is uncorrectable. -/
theorem State.ownByte_of_no_error {s : State} (h : s.anyBad = false) (hp : s.vcpPages = none) (pa : Nat) :
    s.ownByte pa = Memory.get s.mem pa := by
  rw [State.ownByte, State.orOpen_of_no_error h]
  simp only [State.pageAt, hp]

theorem State.length_physBytes (s : State) (key pa n : Nat) : (s.physBytes key pa n).length = n := by
  induction n generalizing pa with
  | zero => rfl
  | succ n ih => simp [State.physBytes, ih]

/-! ## The fetch of words -/

theorem State.length_fetchedAt (s : State) (ctx : Nat) (m : Mapping) (n : Nat) : (s.fetchedAt ctx m n).2.length = n := by
  unfold State.fetchedAt
  split
  · simp
  · exact s.length_physBytes _ _ _

theorem State.fetchedAt_side (s : State) (ctx : Nat) (m : Mapping) (n : Nat) : MemSide s (s.fetchedAt ctx m n).1 := by
  unfold State.fetchedAt
  split
  · exact s.settleLines_side _ _
  · exact .refl s

theorem State.fetchBytes_ok {s s1 : State} {m : Mapping} {c ctx : Nat} {user : Bool} {va : Nat} (n : Nat)
    (h : s.translate c ctx { fetch := true, user := user } va = .ok (s1, m)) :
    s.fetchBytes c ctx user va n = .ok (s1.fetchedAt ctx m n) := by
  simp only [State.fetchBytes, h]

theorem State.length_fetchBytes {s t : State} {c ctx : Nat} {user : Bool} {va n : Nat} {bs : List Byte}
    (h : s.fetchBytes c ctx user va n = .ok (t, bs)) : bs.length = n := by
  unfold State.fetchBytes at h
  split at h
  · exact nomatch h
  · next s1 m _ =>
    have e := Except.ok.inj h
    rw [show bs = (s1.fetchedAt ctx m n).2 from (congrArg Prod.snd e).symm]
    exact s1.length_fetchedAt _ _ _

/-- The word at the head of bytes: its first eight, and of a longer form an extension out of the next eight. -/
theorem rawOfBytes_ok {bs : List Byte} {r : Raw} {rest : List Byte} (h : rawOfBytes bs = .ok (r, rest)) :
    r.base = BitVec.ofNat 64 (leNat (bs.take 8)) ∧ (r.len = 0 → r.ext = 0)
      ∧ (r.len = 1 → r.ext = BitVec.ofNat 64 (leNat ((bs.drop 8).take 8) % 2 ^ 32))
      ∧ (r.len = 2 → r.ext = BitVec.ofNat 64 (leNat ((bs.drop 8).take 8))) := by
  unfold rawOfBytes at h
  dsimp only at h
  generalize hb : BitVec.ofNat 64 (leNat (bs.take 8)) = base at h ⊢
  split_ifs at h with h8 hl h16 h1
  · obtain ⟨rfl, -⟩ := Prod.mk.inj (Except.ok.inj h)
    have hlen : (⟨base, 0⟩ : Raw).len = base.extractLsb' 0 2 := rfl
    refine ⟨rfl, fun _ => rfl, fun e => ?_, fun e => ?_⟩ <;> rw [hlen] at e <;> simp [e] at hl
  · obtain ⟨rfl, -⟩ := Prod.mk.inj (Except.ok.inj h)
    have hlen : ∀ x, (⟨base, x⟩ : Raw).len = base.extractLsb' 0 2 := fun _ => rfl
    simp only [beq_iff_eq] at h1
    refine ⟨rfl, fun e => ?_, fun _ => rfl, fun e => ?_⟩ <;> rw [hlen, h1] at e <;> exact absurd e (by decide)
  · obtain ⟨rfl, -⟩ := Prod.mk.inj (Except.ok.inj h)
    have hlen : ∀ x, (⟨base, x⟩ : Raw).len = base.extractLsb' 0 2 := fun _ => rfl
    refine ⟨rfl, fun e => ?_, fun e => ?_, fun _ => rfl⟩ <;> rw [hlen] at e
    · simp [e] at hl
    · simp [e] at h1

theorem State.fetchBody_short {s s1 : State} {c ctx : Nat} {user : Bool} {va : Nat} (n : Nat) {bs : List Byte} {r : Raw}
    (h : s.fetchBytes c ctx user va 8 = .ok (s1, bs)) (hr : rawOfBytes bs = .ok (r, [])) (hlen : r.len = 0) :
    s.fetchBody c ctx user va (n + 1) = (s1.fetchBody c ctx user (va + 8) n).map (fun q => (q.1, r :: q.2)) := by
  obtain ⟨hbase, hext, -, -⟩ := rawOfBytes_ok hr
  rw [List.take_of_length_le (by rw [State.length_fetchBytes h])] at hbase
  have e : (⟨BitVec.ofNat 64 (leNat bs), 0⟩ : Raw) = r := by rw [← hbase, ← hext hlen]
  have hl : (BitVec.ofNat 64 (leNat bs)).extractLsb' 0 2 = 0 := by rw [← hbase]; exact hlen
  simp only [State.fetchBody, h, hl, e]
  cases s1.fetchBody c ctx user (va + 8) n <;> rfl

theorem State.fetchBody_long {s s1 s2 : State} {c ctx : Nat} {user : Bool} {va : Nat} (n : Nat) {bs es : List Byte} {r : Raw}
    (hva : va % 32 ≠ 24) (h : s.fetchBytes c ctx user va 8 = .ok (s1, bs)) (h' : s1.fetchBytes c ctx user (va + 8) 8 = .ok (s2, es))
    (hr : rawOfBytes (bs ++ es) = .ok (r, [])) (hlen : r.len = 1 ∨ r.len = 2) :
    s.fetchBody c ctx user va (n + 1) = (s2.fetchBody c ctx user (va + 16) n).map (fun q => (q.1, r :: q.2)) := by
  obtain ⟨hbase, -, hext1, hext2⟩ := rawOfBytes_ok hr
  have hbs := State.length_fetchBytes h
  have hes := State.length_fetchBytes h'
  rw [List.take_left' hbs] at hbase
  rw [List.drop_left' hbs, List.take_of_length_le (by rw [hes])] at hext1 hext2
  have hl : (BitVec.ofNat 64 (leNat bs)).extractLsb' 0 2 = r.len := by rw [← hbase]; rfl
  have e : (⟨BitVec.ofNat 64 (leNat bs), BitVec.ofNat 64 (if r.len == 1 then leNat es % 2 ^ 32 else leNat es)⟩ : Raw) = r := by
    rcases hlen with hlen | hlen
    · rw [← hbase, hlen, if_pos (show ((1 : BitVec 2) == 1) = true from rfl), ← hext1 hlen]
    · rw [← hbase, hlen, if_neg (by decide), ← hext2 hlen]
  have hlong : (r.len == 3 || (r.len != 0 && va % 32 == 24)) = false ∧ (r.len == 0) = false := by
    rcases hlen with hlen | hlen <;> simp [hlen, hva]
  simp only [State.fetchBody, h, h', hl, hlong, e]
  cases s2.fetchBody c ctx user (va + 16) n <;> rfl

/-! ## The step -/

theorem State.bodyWork_decoded {s : State} {c p : Nat} {x : Pass} {r : Raw} {i : Instr} (hb : reachedBreach x = none)
    (hw : x.body[x.idx]? = some r) (hd : decodeRaw r = .ok i) : s.bodyWork c p x = .run i s := by
  simp only [State.bodyWork, hb, hw, hd]

theorem State.pipeWork_running {s : State} {c p : Nat} {x : Pass} (hx : Tbl.look (s.core c).pipes p = some x) (hs : x.stalled = false)
    (hf : s.comesFirst c x = none) : s.pipeWork c p = (s.tick c x.groups).bodyWork c p x := by
  simp only [State.pipeWork, hx, Option.filter_some, hs, Bool.not_false, if_true, hf]

theorem State.hartWork_decoded {s : State} {n : Nat} {i : Instr} (hh : (s.hart n).halted = false) (hf : s.fwRuns = true)
    (hirq : ¬ ((s.hart n).irq = true ∧ (s.hart n).mie = true)) (hd : decodeAmz (s.hartWord n) = .ok i) : s.hartWork n = .run i s := by
  have : ((s.hart n).irq && (s.hart n).mie) = false := by
    rw [← Bool.not_eq_true, Bool.and_eq_true]; exact hirq
  simp only [State.hartWork, hh, hf, this, hd, Bool.false_and, Bool.not_true, Bool.or_self]
  rfl

theorem step_of_turn {s : State} (h : s.agenda = []) : step s = runTurn s := by
  simp only [step, h]

/-- Settles O6, by following the step to the decoded word, and the fetch to the bytes of a word. -/
theorem stepRunsTheDecodedInstruction : Obligations.StepRunsTheDecodedInstruction := by
  unfold Obligations.StepRunsTheDecodedInstruction
  refine ⟨?pipe, ?hart, ?word, ?event, ?bytes, ?short, ?long⟩
  case pipe =>
    intro s c p x r i ha hturn hx hw hb hd hs hf
    have htime := s.tick_time c x.groups
    refine ⟨?_, ?_, htime⟩
    · rw [step_of_turn ha]
      simp only [runTurn, State.turnWork, hturn, State.pipeWork_running hx hs hf, State.bodyWork_decoded hb hw hd]
    · rw [htime.curPass]
      simp only [State.curPass, hturn, hx]
      rfl
  case hart =>
    intro s n i ha hturn hh hf hirq hd
    rw [step_of_turn ha]
    simp only [runTurn, State.turnWork, hturn, State.hartWork_decoded hh hf hirq hd]
  case word =>
    intro s n hbad hp
    rw [State.hartWord]
    simp only [State.ownByte_of_no_error hbad hp]
    rfl
  case event =>
    intro s i r ha
    simp only [step, ha]
  case bytes =>
    intro s s1 m c ctx user va n h
    refine ⟨_, _, State.fetchBytes_ok n h, s1.fetchedAt_side ctx m n, s1.length_fetchedAt ctx m n, fun hbad => ?_⟩
    have : s1.fetchedAt ctx m n = (s1, s1.physBytes m.key m.pa n) := by rw [State.fetchedAt, hbad]; rfl
    exact ⟨congrArg Prod.fst this, congrArg Prod.snd this⟩
  case short => exact fun s s1 c ctx user va n bs r h hr hlen => State.fetchBody_short n h hr hlen
  case long => exact fun s s1 s2 c ctx user va n bs es r hva h h' hr hlen => State.fetchBody_long n hva h h' hr hlen

end Sys2Proof.Machine
end

section
/-!
What one gang reserved and is to close, settled all at once (R178, R194).
-/
namespace Sys2Proof.Machine

/-- One channel of one team after `modTeam` replaced a channel. -/
theorem State.chan_modTeam_at (s : State) (m n q j : Nat) (f : Chan → Chan) :
    ((s.modTeam m (fun t => t.setChan n (f (t.chan n)))).team q).chan j
      = if q = m ∧ j = n then f ((s.team q).chan j) else (s.team q).chan j := by
  rw [State.modTeam_eq, State.team_setTeam]
  by_cases hq : q = m
  · subst hq
    rw [if_pos rfl, Team.chan_setChan]
    by_cases hj : j = n
    · subst hj; simp
    · simp [hj]
  · simp [hq]

theorem State.pmask_settleResv (c : Nat) (hdr : DWord) (s : State) (e : Nat × Resv) (q j : Nat) :
    (((State.settleResv c hdr s e).team q).chan j).pmask = ((s.team q).chan j).pmask := by
  have keeps : ∀ (s : State) (m n : Nat) (f : Chan → Chan), (∀ x, (f x).pmask = x.pmask) →
      (((s.modTeam m (fun t => t.setChan n (f (t.chan n)))).team q).chan j).pmask = ((s.team q).chan j).pmask := by
    intro s m n f hf
    rw [State.chan_modTeam_at]
    split
    · exact hf _
    · rfl
  have read : ∀ (s : State) (m : Nat), (((s.dropRead m hdr e.2).team q).chan j).pmask = ((s.team q).chan j).pmask := by
    intro s m
    unfold State.dropRead
    split
    · split
      · rfl
      · exact keeps s m _ (fun x => x.pop _) (fun _ => rfl)
    · rfl
  have write : ∀ (s : State) (m : Nat), (((s.zeroWrite m hdr e.2).team q).chan j).pmask = ((s.team q).chan j).pmask := by
    intro s m
    unfold State.zeroWrite
    split
    · split
      · rfl
      · exact keeps s m _ (fun x => x.fill _ []) (fun _ => rfl)
    · rfl
  exact (write _ _).trans (read _ _)

/-- The reservations `l` of the gang `gs` are settled. -/
structure ResvsSettle (c gs : Nat) (hdr : DWord) (l : Tbl Resv) (s t : State) : Prop where
  chans : ChansSettle (s.gang c gs).team s t
  pmask : ∀ q n, ((t.team q).chan n).pmask = ((s.team q).chan n).pmask
  read : ∀ e ∈ l, ∀ q, e.2.rd = some q → e.2.rdDone = false → ((t.team (s.gang c gs).team).chan (Hdr.rch hdr).toNat).Lacks q
  write : ∀ e ∈ l, ∀ q, e.2.wr = some q → e.2.wrDone = false → ((t.team (s.gang c gs).team).chan (Hdr.wch hdr).toNat).Zeroed q
  kept : ∀ n, ∀ e ∈ ((s.team (s.gang c gs).team).chan n).fifo, (∀ r ∈ l, r.2.rd ≠ some e.id ∧ r.2.wr ≠ some e.id) →
    e ∈ ((t.team (s.gang c gs).team).chan n).fifo
  none : l = [] → t = s

theorem State.settleResvs (c gs : Nat) (hdr : DWord) (l : Tbl Resv) (hl : ∀ e ∈ l, e.1 = gs) (s : State) :
    ResvsSettle c gs hdr l s (l.foldl (State.settleResv c hdr) s) := by
  induction l generalizing s with
  | nil => exact ⟨.refl _ s, fun _ _ => rfl, fun _ h => (nomatch h), fun _ h => (nomatch h), fun _ _ h _ => h, fun _ => rfl⟩
  | cons a r ih =>
    obtain ⟨g, x⟩ := a
    obtain rfl : g = gs := hl _ List.mem_cons_self
    have h := State.settleResv_settles c hdr s g x
    have t := ih (fun e he => hl e (List.mem_cons_of_mem _ he)) (State.settleResv c hdr s (g, x))
    have hg := h.gang c g
    obtain ⟨tchans, tpmask, tread, twrite, tkept, -⟩ := t
    rw [hg] at tchans tread twrite tkept
    refine ⟨h.trans tchans, fun q n => (tpmask q n).trans (State.pmask_settleResv c hdr s _ q n), fun e he q hq hd => ?_,
      fun e he q hq hd => ?_, fun n e he hr => ?_, nofun⟩
    · rcases List.mem_cons.mp he with rfl | he
      · exact (tchans.settled _).lacks (State.settleResv_lacks c hdr s g x hq hd)
      · exact tread e he q hq hd
    · rcases List.mem_cons.mp he with rfl | he
      · exact (tchans.settled _).zeroed (State.settleResv_zeroed c hdr s g x hq hd)
      · exact twrite e he q hq hd
    · obtain ⟨hrd, hwr⟩ := hr _ List.mem_cons_self
      exact tkept n e (State.mem_settleResv c hdr s g x he hrd hwr) (fun r hr' => hr r (List.mem_cons_of_mem _ hr'))

/-- The gang `gs` is no producer any more of the channels that the list `l` names. -/
structure ClosesChans (c gs : Nat) (l : List (Nat × Nat)) (s t : State) : Prop where
  chans : ChansSettle (s.gang c gs).team s t
  fifo : ∀ q n, ((t.team q).chan n).fifo = ((s.team q).chan n).fifo
  others : ∀ q n i, i ≠ (s.gang c gs).num → ((t.team q).chan n).pmask.getLsbD i = ((s.team q).chan n).pmask.getLsbD i
  closed : ∀ n, (gs, n) ∈ l → ((t.team (s.gang c gs).team).chan n).pmask.getLsbD (s.gang c gs).num = false
  fewer : ∀ q n i, ((t.team q).chan n).pmask.getLsbD i = true → ((s.team q).chan n).pmask.getLsbD i = true

/-- One close. -/
theorem State.closeChan_closes (c : Nat) (s : State) (gs n : Nat) : ClosesChans c gs [(gs, n)] s (State.closeChan c s (gs, n)) := by
  have at' : ∀ q j, ((State.closeChan c s (gs, n)).team q).chan j = if q = (s.gang c gs).team ∧ j = n then
      { (s.team q).chan j with pmask := ((s.team q).chan j).pmask &&& ~~~(onesAt 32 (s.gang c gs).num 1) } else (s.team q).chan j :=
    fun q j => s.chan_modTeam_at _ n q j (fun x => { x with pmask := x.pmask &&& ~~~(onesAt 32 (s.gang c gs).num 1) })
  refine ⟨s.closeChan_settles c gs n, fun q j => ?_, fun q j i hi => ?_, fun j hj => ?_, fun q j i h => ?_⟩
  · rw [at']; split <;> rfl
  · rw [at']
    split
    · rw [getLsbD_clear_bit]; simp [hi]
    · rfl
  · obtain rfl : j = n := by simpa using hj
    rw [at', if_pos ⟨rfl, rfl⟩, getLsbD_clear_bit]
    simp
  · rw [at'] at h
    split at h
    · rw [getLsbD_clear_bit] at h
      exact (Bool.and_eq_true_iff.mp h).1
    · exact h

theorem State.closesChans (c gs : Nat) (l : List (Nat × Nat)) (hl : ∀ e ∈ l, e.1 = gs) (s : State) :
    ClosesChans c gs l s (l.foldl (State.closeChan c) s) := by
  induction l generalizing s with
  | nil => exact ⟨.refl _ s, fun _ _ => rfl, fun _ _ _ _ => rfl, fun _ h => (nomatch h), fun _ _ _ h => h⟩
  | cons a r ih =>
    obtain ⟨g, n⟩ := a
    obtain rfl : g = gs := hl _ List.mem_cons_self
    have h := State.closeChan_closes c s g n
    obtain ⟨tchans, tfifo, tothers, tclosed, tfewer⟩ := ih (fun e he => hl e (List.mem_cons_of_mem _ he)) (State.closeChan c s (g, n))
    rw [h.chans.gang] at tchans tothers tclosed
    refine ⟨h.chans.trans tchans, fun q j => (tfifo q j).trans (h.fifo q j), fun q j i hi => (tothers q j i hi).trans (h.others q j i hi),
      fun j hj => ?_, fun q j i hi => h.fewer q j i (tfewer q j i hi)⟩
    rcases List.mem_cons.mp hj with e | hj
    · exact Bool.eq_false_iff.mpr fun hi => Bool.eq_false_iff.mp (h.closed j (by simp [e])) (tfewer _ _ _ hi)
    · exact tclosed j hj

/-- What a gang reserved in the record `x` of a pass, and is to close there, is settled. -/
structure GangSettles (c gs : Nat) (x : Pass) (s t : State) : Prop where
  chans : ChansSettle (s.gang c gs).team s t
  others : ∀ q n i, i ≠ (s.gang c gs).num → ((t.team q).chan n).pmask.getLsbD i = ((s.team q).chan n).pmask.getLsbD i
  fewer : ∀ q n i, ((t.team q).chan n).pmask.getLsbD i = true → ((s.team q).chan n).pmask.getLsbD i = true
  closed : ∀ n, (gs, n) ∈ x.closing → ((t.team (s.gang c gs).team).chan n).pmask.getLsbD (s.gang c gs).num = false
  read : ∀ e ∈ x.resv, ∀ q, e.2.rd = some q → e.2.rdDone = false → ((t.team (s.gang c gs).team).chan (Hdr.rch x.hdr).toNat).Lacks q
  write : ∀ e ∈ x.resv, ∀ q, e.2.wr = some q → e.2.wrDone = false → ((t.team (s.gang c gs).team).chan (Hdr.wch x.hdr).toNat).Zeroed q
  kept : ∀ n, ∀ e ∈ ((s.team (s.gang c gs).team).chan n).fifo, (∀ r ∈ x.resv, r.2.rd ≠ some e.id ∧ r.2.wr ≠ some e.id) →
    e ∈ ((t.team (s.gang c gs).team).chan n).fifo
  untouched : x.resv = [] → ∀ q n, ((t.team q).chan n).fifo = ((s.team q).chan n).fifo

theorem State.gangSettles (s : State) (c gs : Nat) (x : Pass) (hresv : ∀ e ∈ x.resv, e.1 = gs) (hclosing : ∀ e ∈ x.closing, e.1 = gs) :
    GangSettles c gs x s ((s.finishResv c x).closeChans c x) := by
  have h := State.settleResvs c gs x.hdr x.resv hresv s
  have t := State.closesChans c gs x.closing hclosing (s.finishResv c x)
  rw [← State.finishResv_eq] at h
  rw [← State.closeChans_eq] at t
  obtain ⟨tchans, tfifo, tothers, tclosed, tfewer⟩ := t
  rw [h.chans.gang] at tchans tothers tclosed
  refine ⟨h.chans.trans tchans, fun q n i hi => ?_, fun q n i hi => ?_, tclosed, fun e he q hq hd => ?_, fun e he q hq hd => ?_,
    fun n e he hr => ?_, fun hx q n => ?_⟩
  · rw [tothers q n i hi, h.pmask]
  · rw [← h.pmask]; exact tfewer q n i hi
  · exact (tchans.settled _).lacks (h.read e he q hq hd)
  · exact (tchans.settled _).zeroed (h.write e he q hq hd)
  · rw [tfifo]; exact h.kept n e he hr
  · rw [tfifo, h.none hx]

/-! ## The best of a list -/

/-- What a search finds is bettered by no entry of the list. -/
theorem Search.best {α : Type} {better : α → α → Prop} [DecidableRel better] {f : Option α → α → Option α} (hf : Search better f)
    (asymm : ∀ a b, better a b → ¬ better b a) (between : ∀ a b d, better a d → better a b ∨ better b d) {l : List α} {y : α}
    (h : l.foldl f none = some y) : ∀ z ∈ l, ¬ better z y := by
  have from_best : ∀ (l : List α) (x : α), l.foldl f (some x) = some y → ¬ better x y ∧ ∀ z ∈ l, ¬ better z y := by
    intro l
    induction l with
    | nil =>
      intro x h
      cases h
      exact ⟨fun hx => asymm _ _ hx hx, fun _ h => nomatch h⟩
    | cons a r ih =>
      intro x h
      rw [List.foldl_cons, hf.step] at h
      by_cases hb : better a x
      · rw [if_pos hb] at h
        obtain ⟨ha, hr⟩ := ih a h
        refine ⟨fun hx => ?_, List.forall_mem_cons.mpr ⟨ha, hr⟩⟩
        exact (between x a y hx).elim (asymm a x hb) ha
      · rw [if_neg hb] at h
        obtain ⟨hx, hr⟩ := ih x h
        refine ⟨hx, List.forall_mem_cons.mpr ⟨fun ha => ?_, hr⟩⟩
        exact (between a x y ha).elim hb hx
  cases l with
  | nil => cases h
  | cons a r =>
    rw [List.foldl_cons, hf.start] at h
    exact List.forall_mem_cons.mpr (from_best r a h)

end Sys2Proof.Machine
end

section
/-!
The obligation on the forming of a pass (R170 to R173, R178 to R180).
-/
namespace Sys2Proof.Machine

/-! ## Selection (R173) -/

theorem keyLt_asymm (a b : List Nat) (h : keyLt a b = true) : ¬ keyLt b a = true := by
  induction a generalizing b with
  | nil => exact nomatch h
  | cons x r ih =>
    cases b with
    | nil => exact nomatch h
    | cons y t =>
      simp only [keyLt] at h ⊢
      split_ifs at h ⊢ with h1 h2
      · omega
      · exact nofun
      · exact ih t h

/-- Of keys of one length, what lies before a second lies before a third, or the third before the second. -/
theorem keyLt_between (a b d : List Nat) (hab : a.length = b.length) (hbd : b.length = d.length) (h : keyLt a d = true) :
    keyLt a b = true ∨ keyLt b d = true := by
  induction a generalizing b d with
  | nil => exact nomatch h
  | cons x r ih =>
    obtain ⟨y, t, rfl⟩ := List.exists_cons_of_length_eq_add_one hab.symm
    obtain ⟨z, w, rfl⟩ := List.exists_cons_of_length_eq_add_one hbd.symm
    simp only [keyLt] at h ⊢
    by_cases hxy : x < y
    · exact .inl (by simp [hxy])
    · by_cases hyz : y < z
      · exact .inr (by simp [hyz])
      · have hzx : ¬ x < z := by omega
        rw [if_neg hzx] at h
        by_cases hlt : z < x
        · rw [if_pos hlt] at h; exact nomatch h
        · rw [if_neg hlt] at h
          have hyx : ¬ y < x := by omega
          have hzy : ¬ z < y := by omega
          rw [if_neg hxy, if_neg hyx, if_neg hyz, if_neg hzy]
          exact ih t w (by simpa using hab) (by simpa using hbd) h

theorem length_selectKey (column : Nat) (e d : WvtEntry) (n m : Nat) :
    (selectKey column e n).length = (selectKey column d m).length := by
  unfold selectKey
  split <;> rfl

/-- The entries of a core with an eligible thread, each with its eligible slots. -/
def State.candidates (s : State) (c : Nat) : List (WvtEntry × List Nat) :=
  ((s.core c).wvt.map (fun e => (e, s.eligible c e))).filter (fun p => !p.2.isEmpty)

/-- The column for candidates none of which is urgent: that of their common policy. -/
def calmColumn : List (WvtEntry × List Nat) → Nat
  | [] => 0
  | p :: r => if r.all (fun q => q.1.policy == p.1.policy) then p.1.policy else 0

/-- The column of R173 by which candidates are compared. -/
def columnOf (cands : List (WvtEntry × List Nat)) : Nat := if cands.any (fun p => p.1.urgent) then 3 else calmColumn cands

/-- Whether a candidate goes before another. -/
abbrev SelectedBefore (column : Nat) (p q : WvtEntry × List Nat) : Prop :=
  keyLt (selectKey column p.1 p.2.length) (selectKey column q.1 q.2.length) = true

theorem State.mem_candidates {s : State} {c : Nat} {p : WvtEntry × List Nat} :
    p ∈ s.candidates c ↔ p.1 ∈ (s.core c).wvt ∧ p.2 = s.eligible c p.1 ∧ p.2 ≠ [] := by
  simp only [State.candidates, List.mem_filter, List.mem_map, Bool.not_eq_true', List.isEmpty_eq_false_iff]
  constructor
  · rintro ⟨⟨e, he, rfl⟩, hne⟩
    exact ⟨he, rfl, hne⟩
  · rintro ⟨he, hp, hne⟩
    exact ⟨⟨p.1, he, Prod.ext rfl hp.symm⟩, hne⟩

section
variable {s : State} {c : Nat} {e : WvtEntry} {slots : List Nat} (h : s.choose c = some (e, slots))
include h

theorem State.choose_mem : (e, slots) ∈ s.candidates c :=
  Search.mem (better := SelectedBefore (columnOf (s.candidates c))) ⟨fun _ => rfl, fun _ _ => rfl⟩ h

theorem State.choose_best {p : WvtEntry × List Nat} (hp : p ∈ s.candidates c) :
    ¬ SelectedBefore (columnOf (s.candidates c)) p (e, slots) :=
  Search.best (better := SelectedBefore (columnOf (s.candidates c))) ⟨fun _ => rfl, fun _ _ => rfl⟩
    (fun _ _ => keyLt_asymm _ _)
    (fun _ _ _ => keyLt_between _ _ _ (length_selectKey _ _ _ _ _) (length_selectKey _ _ _ _ _)) h p hp

end

section
variable {cands : List (WvtEntry × List Nat)}

theorem columnOf_urgent {p : WvtEntry × List Nat} (hp : p ∈ cands) (hu : p.1.urgent = true) : columnOf cands = 3 :=
  if_pos (List.any_eq_true.mpr ⟨p, hp, hu⟩)

theorem columnOf_calm (h : ∀ p ∈ cands, p.1.urgent = false) : columnOf cands = calmColumn cands := by
  refine if_neg fun hany => ?_
  obtain ⟨p, hp, hu⟩ := List.any_eq_true.mp hany
  exact Bool.eq_false_iff.mp (h p hp) hu

/-- Calm entries of one policy are compared by it. -/
theorem columnOf_one {n : Nat} (hne : cands ≠ []) (h : ∀ p ∈ cands, p.1.urgent = false ∧ p.1.policy = n) : columnOf cands = n := by
  rw [columnOf_calm fun p hp => (h p hp).1]
  cases cands with
  | nil => exact absurd rfl hne
  | cons p r =>
    have hp := (h p List.mem_cons_self).2
    have hall : r.all (fun q => q.1.policy == p.1.policy) = true :=
      List.all_eq_true.mpr fun q hq => beq_iff_eq.mpr ((h q (List.mem_cons_of_mem _ hq)).2.trans hp.symm)
    exact (if_pos hall).trans hp

/-- Calm entries of several policies are compared by age. -/
theorem columnOf_mixed (h : ∀ p ∈ cands, p.1.urgent = false) {x y : WvtEntry × List Nat} (hx : x ∈ cands) (hy : y ∈ cands)
    (hne : y.1.policy ≠ x.1.policy) : columnOf cands = 0 := by
  rw [columnOf_calm h]
  cases cands with
  | nil => exact nomatch hx
  | cons p r =>
    refine if_neg fun hall => hne ?_
    have same : ∀ q ∈ p :: r, q.1.policy = p.1.policy :=
      List.forall_mem_cons.mpr ⟨rfl, fun q hq => beq_iff_eq.mp (List.all_eq_true.mp hall q hq)⟩
    exact (same y hy).trans (same x hx).symm

end

/-- The entry that BSEL chooses (R173). -/
theorem State.choose_selects {s : State} {c : Nat} {e : WvtEntry} {slots : List Nat} (h : s.choose c = some (e, slots)) :
    e ∈ (s.core c).wvt ∧ slots = s.eligible c e ∧ slots ≠ []
    ∧ ∃ column, (∀ y ∈ (s.core c).wvt, s.eligible c y ≠ [] →
          keyLt (selectKey column y (s.eligible c y).length) (selectKey column e slots.length) = false)
      ∧ ((∃ y ∈ (s.core c).wvt, s.eligible c y ≠ [] ∧ y.urgent = true) → column = 3)
      ∧ ((∀ y ∈ (s.core c).wvt, s.eligible c y ≠ [] → y.urgent = false ∧ y.policy = e.policy) → column = e.policy)
      ∧ ((∀ y ∈ (s.core c).wvt, s.eligible c y ≠ [] → y.urgent = false) →
          (∃ y ∈ (s.core c).wvt, s.eligible c y ≠ [] ∧ y.policy ≠ e.policy) → column = 0) := by
  have hmem := State.choose_mem h
  obtain ⟨he, hslots, hne⟩ := State.mem_candidates.mp hmem
  have cand : ∀ y ∈ (s.core c).wvt, s.eligible c y ≠ [] → (y, s.eligible c y) ∈ s.candidates c :=
    fun y hy hn => State.mem_candidates.mpr ⟨hy, rfl, hn⟩
  have entry : ∀ p ∈ s.candidates c, p.1 ∈ (s.core c).wvt ∧ s.eligible c p.1 ≠ [] := fun p hp => by
    obtain ⟨hp, hs, hn⟩ := State.mem_candidates.mp hp
    exact ⟨hp, hs ▸ hn⟩
  refine ⟨he, hslots, hne, columnOf (s.candidates c), fun y hy hn => Bool.eq_false_iff.mpr (State.choose_best h (cand y hy hn)), ?_, ?_, ?_⟩
  · rintro ⟨y, hy, hn, hu⟩
    exact columnOf_urgent (cand y hy hn) hu
  · exact fun hall => columnOf_one (List.ne_nil_of_mem hmem) fun p hp => hall p.1 (entry p hp).1 (entry p hp).2
  · rintro hcalm ⟨y, hy, hn, hpol⟩
    exact columnOf_mixed (fun p hp => hcalm p.1 (entry p hp).1 (entry p hp).2) hmem (cand y hy hn) hpol

/-! ## Entering a pass (R170) -/

theorem State.unplace_thr (s : State) (c k : Nat) : (s.unplace c k).thr c k = { s.thr c k with place := .out } := by
  unfold State.unplace
  rw [State.modThr_eq, State.thr_setThr_self]
  rfl

theorem State.unplace_wvt (s : State) (c k : Nat) : ∀ y ∈ ((s.unplace c k).core c).wvt, k ∉ y.slots := by
  unfold State.unplace
  rw [State.modThr_eq, State.core_setThr, State.modCore_eq, State.core_setCore_self]
  intro y hy
  obtain ⟨e, -, rfl⟩ := List.mem_map.mp hy
  simp

/-- A thread that enters a pass from its entry. -/
theorem Thread.enter_eq (th : Thread) (p : Nat) (q : Place) : ({ th with place := q } : Thread).enter p = { th with
    tvalid := if posIdx th.pos = 31 then 0 else th.tvalid, t := if posIdx th.pos = 31 then [] else th.t
    barWait := if posIdx th.pos = 31 then [] else th.barWait, place := .pass p, ncl := if th.spec then th.ncl + 1 else th.ncl } := by
  unfold Thread.enter
  by_cases h : posIdx th.pos = 31
  · simp only [h, beq_self_eq_true, if_true]; rfl
  · simp only [beq_eq_false_iff_ne.mpr h, if_neg h]; rfl

section
variable {s u : State} {c p k : Nat} {pos : DWord} {e : WvtEntry} (hfind : (s.core c).wvt.find? (fun y => y.pos == pos) = some e)
  (helig : (s.eligible c e).filter (fun j => j / 32 == k / 32) = [k])
include hfind helig

/-- The one thread of a gang that is eligible enters with what its gang reserves. -/
theorem State.takeIn_enter {v : State} {f : Fetched} {r : Resv} (hentry : s.entryOf c k = (u, .enter f))
    (hres : u.reserve c k pos f = some (v, r)) :
    s.takeIn c p pos [k / 32] none = ((v.unplace c k).modThr c k (fun th => th.enter p), some (f, [k], [(k / 32, r)])) := by
  simp only [State.takeIn, hfind, helig, List.foldl_cons, List.foldl_nil, hentry, List.nil_append, List.filter_cons, List.filter_nil,
    beq_self_eq_true, if_true, hres]

/-- The one thread of a gang that is eligible faults at the header. -/
theorem State.takeIn_fault {i : FaultInfo} {th : Thread} (hentry : s.entryOf c k = (u, .fault i th)) :
    s.takeIn c p pos [k / 32] none
      = (((((u.quitKept c k).unplace c k).modThr c k (fun x => { th with place := x.place })).takeFault c k (entryPos (posClause pos)) 0 i), none) := by
  simp only [State.takeIn, hfind, helig, List.foldl_cons, List.foldl_nil, hentry]

end

/-! ## What a cut pass kept (R179) -/

section
variable {s : State} {c k : Nat} {pos : DWord} {r : DWord × Resv} (hkept : (s.gang c (k / 32)).keptFor pos k = some r)
include hkept

theorem State.reserve_kept (f : Fetched) : s.reserve c k pos f
    = some (s.setGang c (k / 32) { s.gang c (k / 32) with kept := (s.gang c (k / 32)).kept.filter (fun e => e != r) }, r.2) := by
  simp only [State.reserve, hkept]

/-- The threads of a cut pass are eligible only together. -/
theorem State.eligible_kept {e : WvtEntry} (hpos : e.pos = pos) (hk : k ∈ s.eligible c e) :
    ∀ j ∈ r.2.lanes, 32 * (k / 32) + j ∈ s.readySlots c e := by
  intro j hj
  have h := (List.mem_filter.mp hk).2
  rw [hpos, hkept] at h
  obtain ⟨hall, -⟩ := Bool.and_eq_true_iff.mp h
  exact List.contains_iff_mem.mp (List.all_eq_true.mp hall j hj)

theorem State.quitKept_others (hpos : pos = (s.thr c k).pos) (hrest : r.2.lanes.filter (fun j => j != k % 32) ≠ []) :
    s.quitKept c k = s.setGang c (k / 32) { s.gang c (k / 32) with
      kept := (s.gang c (k / 32)).kept.map (fun e => if e == r then (r.1, { r.2 with lanes := r.2.lanes.filter (fun j => j != k % 32) }) else e) } := by
  rw [hpos] at hkept
  have : (r.2.lanes.filter (fun j => j != k % 32)).isEmpty = false := List.isEmpty_eq_false_iff.mpr hrest
  simp only [State.quitKept, hkept, this]
  rfl

/-- The record under which what a gang kept is settled. -/
def keptPass (gs : Nat) (r : Resv) : Pass :=
  { (default : Pass) with hdr := r.hdr, resv := [(gs, { r with lanes := [] })], closing := r.closing.map (fun n => (gs, n)) }

theorem State.quitKept_last (hpos : pos = (s.thr c k).pos) (hrest : r.2.lanes.filter (fun j => j != k % 32) = []) :
    GangSettles c (k / 32) (keptPass (k / 32) r.2)
      (s.setGang c (k / 32) { s.gang c (k / 32) with kept := (s.gang c (k / 32)).kept.filter (fun e => e != r) }) (s.quitKept c k) := by
  rw [hpos] at hkept
  have hquit : s.quitKept c k = (s.setGang c (k / 32) { s.gang c (k / 32) with
      kept := (s.gang c (k / 32)).kept.filter (fun e => e != r) }).settleKept c (k / 32) { r.2 with lanes := [] } := by
    simp only [State.quitKept, hkept, hrest]
    rfl
  rw [hquit]
  exact State.gangSettles _ c (k / 32) (keptPass (k / 32) r.2) (by simp [keptPass]) (by simp [keptPass])

end

/-! ## Forming a pass (R172) -/

theorem State.formPass_none {s : State} {c p : Nat} (h : (s.sweepOrphans c).choose c = none) : s.formPass c p = s.sweepOrphans c := by
  simp only [State.formPass, h]

/-- The pass that forms of what a core took in at a position. -/
def passOf (s : State) (pos : DWord) (f : Fetched) (ks : List Nat) (rs : Tbl Resv) : Pass :=
  { id := s.ids, clause := posClause pos, hdr := f.hdr, start := if posIdx pos == 31 then 0 else posIdx pos
    idx := if posIdx pos == 31 then 0 else posIdx pos, body := f.body, slots := ks, resv := rs, refreshed := Hdr.long f.hdr
    since := s.time, closing := rs.flatMap (fun e => e.2.closing.map (fun n => (e.1, n))) }

theorem State.formPass_some {s u : State} {c p : Nat} {e : WvtEntry} {slots : List Nat} {f : Fetched} {ks : List Nat} {rs : Tbl Resv}
    (h : (s.sweepOrphans c).choose c = some (e, slots))
    (ht : ((s.sweepOrphans c).modCore c (fun k => { k with
      wvt := k.wvt.map (fun x => if x.pos == e.pos then { x with age := 0 } else x), idle := 0 })).takeIn c p e.pos (gangsOf slots) none
        = (u, some (f, ks, rs))) :
    s.formPass c p = (({ u with ids := u.ids + 1 } : State).setPass c p (passOf u e.pos f ks rs)).tidy c := by
  simp only [State.formPass, h, ht]
  rfl

theorem execPassForm_free {s : State} {c p : Nat} (h : s.freePipe c = some p) :
    exec (.passForm c p) s = .next (({ s with lastCore := c } : State).formPass c p) := by
  change execPassForm c p s = _
  simp [execPassForm, h]

theorem execPassForm_other {s : State} {c p : Nat} (h : s.freePipe c ≠ some p) : exec (.passForm c p) s = .next s := by
  change execPassForm c p s = _
  simp [execPassForm, h]

/-! ## Readiness (R169) -/

theorem State.threadReady_holds {s : State} {c k : Nat} {h : DWord} (hr : s.threadReady c k h = true) :
    let th := s.thr c k
    (∀ n < 12, Hdr.fwait h n = true → th.flag n = 0) ∧ (∀ n < 8, Hdr.twait h n = true → th.tokenCount n = 0) ∧ th.park = 0
    ∧ (posIdx th.pos = 31 → ∀ e ∈ th.barWait, (Tbl.at (s.gangTeam c (k / 32)).bars e.1 {}).gen ≠ e.2)
    ∧ (s.core c).halted = false ∧ (s.core c).ncAt = none ∧ (th.spec = true → th.ncl < 64) := by
  simp only [State.threadReady, Bool.and_eq_true, List.all_eq_true, List.mem_range, Bool.or_eq_true, Bool.not_eq_true',
    Bool.and_eq_false_iff, beq_iff_eq, beq_eq_false_iff_ne, List.any_eq_false, Option.isNone_iff_eq_none, decide_eq_false_iff_not] at hr
  obtain ⟨⟨⟨⟨⟨⟨⟨⟨⟨hflags, htokens⟩, hpark⟩, hbars⟩, -⟩, hhalt⟩, hnc⟩, -⟩, hspec⟩, -⟩ := hr
  refine ⟨fun n hn hw => ?_, fun n hn hw => ?_, hpark, fun hidx e he => ?_, hhalt, hnc, fun hs => ?_⟩
  · exact (hflags n hn).resolve_left (by simp [hw])
  · exact (htokens n hn).resolve_left (by simp [hw])
  · exact hbars.resolve_left (fun h => h hidx) e he
  · exact Nat.lt_of_not_le (hspec.resolve_left (by simp [hs]))

/-- Settles O47, by the search for the best candidate, the entry of one gang, and the settling of what a cut pass kept. -/
theorem passFormingResults : Obligations.PassFormingResults := by
  unfold Obligations.PassFormingResults
  refine ⟨fun s c p => ⟨execPassForm_other, fun hfree => ⟨fun hnone => ?_, fun e slots hsome u f ks rs ht => ?_⟩⟩,
    fun s c e slots h => State.choose_selects h, fun s u v c p k pos e hfind helig => ⟨fun f r hentry hres => ?_, fun i th hentry => ?_⟩,
    fun s c k pos r hkept => ⟨fun f => ?_, fun e hpos hk => State.eligible_kept hkept hpos hk, fun hpos => ⟨?_, fun hrest g hg => ?_⟩⟩,
    fun s c k h hr => State.threadReady_holds hr⟩
  · rw [execPassForm_free hfree, State.formPass_none hnone]
  · refine ⟨_, passOf u e.pos f ks rs, _, execPassForm_free hfree, rfl, ?_, rfl, rfl, rfl, rfl, rfl, rfl, ?_, rfl, rfl, rfl⟩
    · rw [State.formPass_some hsome ht]
      exact State.tidy_time _ c
    · simp only [passOf, beq_iff_eq]
  · rw [State.takeIn_enter hfind helig hentry hres]
    refine ⟨rfl, ?_, fun y hy => State.unplace_wvt v c k y hy⟩
    rw [State.modThr_eq, State.thr_setThr_self, State.unplace_thr, Thread.enter_eq]
  · exact State.takeIn_fault hfind helig hentry
  · exact ⟨_, State.reserve_kept hkept f, rfl, State.gang_setGang_self _ _ _ _⟩
  · exact fun hrest => State.quitKept_others hkept hpos hrest
  · subst hg
    obtain ⟨chans, -, -, closed, read, write, kept, -⟩ := State.quitKept_last hkept hpos hrest
    rw [State.gang_setGang_self] at chans closed read write kept
    refine ⟨?_, ?_, chans.otherTeams, fun q hq hd => read _ List.mem_cons_self q hq hd, fun q hq hd => write _ List.mem_cons_self q hq hd,
      fun n e he hr hw => kept n e he ?_, fun n hn _ => closed n (List.mem_map.mpr ⟨n, hn, rfl⟩)⟩
    · rw [chans.rest]; rfl
    · rw [chans.gang, State.gang_setGang_self]
    · exact fun x hx => by obtain rfl := List.mem_singleton.mp hx; exact ⟨hr, hw⟩

end Sys2Proof.Machine
end

section
/-!
Memory as the levels behind it leave it: cached translations that a walk keeps, and bytes that a refetched or lost line
leaves (R248, R259, R343).
-/
namespace Sys2Proof.Machine

/-! ## Cached translations -/

/-- No core's and no cluster's cached translations change. -/
structure TlbsKept (s t : State) : Prop where
  cluster : t.ctlb = s.ctlb
  core : ∀ d, (t.core d).tlb = (s.core d).tlb

namespace TlbsKept

theorem of {s t : State} (hl : t.ctlb = s.ctlb) (hc : t.cores = s.cores) : TlbsKept s t :=
  ⟨hl, fun d => by rw [State.core, hc, ← State.core]⟩

theorem refl (s : State) : TlbsKept s s := .of rfl rfl

/-- A change beside the tables of cores and clusters keeps them too. -/
theorem onto {s t u : State} (h : TlbsKept s t) (hl : u.ctlb = t.ctlb) (hc : u.cores = t.cores) : TlbsKept s u :=
  ⟨hl.trans h.cluster, fun d => by rw [State.core, hc, ← State.core]; exact h.core d⟩

theorem trans {s t u : State} (h : TlbsKept s t) (g : TlbsKept t u) : TlbsKept s u :=
  ⟨g.cluster.trans h.cluster, fun d => (g.core d).trans (h.core d)⟩

theorem fold {α : Type} {f : State → α → State} (h : ∀ s a, TlbsKept s (f s a)) (l : List α) (s : State) : TlbsKept s (l.foldl f s) := by
  induction l generalizing s with
  | nil => exact .refl s
  | cons a r ih => exact (h s a).trans (ih _)

theorem modCore (s : State) (c : Nat) (f : Core → Core) (h : (f (s.core c)).tlb = (s.core c).tlb) : TlbsKept s (s.modCore c f) := by
  refine ⟨rfl, fun d => ?_⟩
  rw [State.modCore_eq, State.core_setCore]
  split
  · next e => subst e; exact h
  · rfl

end TlbsKept

/-- A line of memory and its key are replaced, and lines of the slices. -/
def State.withLine (s : State) (line : Nat) (bs k : List Byte) (l : Tbl L2Line) : State :=
  { s with l2 := l, mem := Memory.setBytes s.mem (64 * line) bs, lineKey := Tbl.put s.lineKey line k }

theorem State.reload_eq (s : State) (line : Nat) (l : L2Line) :
    s.reload line l = s.withLine line (lineBytes l.back 0 64) l.backKey (Tbl.put s.l2 line { l with bad := false }) := by
  unfold State.reload State.withLine; rfl

theorem State.giveUp_eq (s : State) (line : Nat) (l : L2Line) :
    s.giveUp line l = s.withLine line (lineBytes l.back 0 64) l.backKey (Tbl.drop s.l2 line) := by
  unfold State.giveUp State.withLine; rfl

theorem State.withLine_tlbs (s : State) (line : Nat) (bs k : List Byte) (l : Tbl L2Line) : TlbsKept s (s.withLine line bs k l) :=
  .of rfl rfl

theorem State.vcpSetByte_tlbs (s : State) (n off : Nat) (b : Byte) : TlbsKept s (s.vcpSetByte n off b) := by
  unfold State.vcpSetByte
  dsimp only
  split
  · exact .of rfl rfl
  · split
    · exact .refl s
    · split <;> exact .of rfl rfl

theorem State.putByte_tlbs (s : State) (pa : Nat) (b : Byte) : TlbsKept s (s.putByte pa b) := by
  unfold State.putByte
  split
  · exact s.vcpSetByte_tlbs _ _ _
  · exact .of rfl rfl

theorem State.putEach_tlbs (s : State) (pa : Nat) (bytes : List Byte) : TlbsKept s (s.putEach pa bytes) := by
  unfold State.putEach
  split
  · exact .of rfl rfl
  · exact .fold (fun s _ => s.putByte_tlbs _ _) _ s

theorem State.rekey_tlbs (s : State) (key line : Nat) : TlbsKept s (s.rekey key line) := by
  unfold State.rekey
  split <;> exact .of rfl rfl

theorem State.physWrite_tlbs (s : State) (key pa : Nat) (bytes : List Byte) : TlbsKept s (s.physWrite key pa bytes) := by
  have h := (s.rekey_tlbs key (pa / 64)).trans (State.putEach_tlbs _ pa bytes)
  exact h.onto rfl rfl

theorem State.writeBack_tlbs (s : State) (c key : Nat) : TlbsKept s (s.writeBack c key) := by
  unfold State.writeBack
  split
  · exact .refl s
  · next l _ =>
    split
    · exact .refl s
    · have h : TlbsKept s (s.putMasked l.key l.line l.data l.dirty) := .fold (fun s _ => s.physWrite_tlbs _ _ _) _ s
      have g : TlbsKept s ((s.putMasked l.key l.line l.data l.dirty).clearBad l.line l.dirty) := h.onto rfl rfl
      exact g.trans (.modCore _ _ _ rfl)

theorem State.writeBackAll_tlbs (s : State) (c : Nat) : TlbsKept s (s.writeBackAll c) := .fold (fun s _ => s.writeBack_tlbs _ _) _ s

theorem State.promote_tlbs (s : State) (line : Nat) : TlbsKept s (s.promote line) := by
  unfold State.promote
  split
  · exact .refl s
  · split
    · exact .refl s
    · next o _ =>
      have h : TlbsKept s (s.promoteCore o) := .fold (fun s _ => s.writeBackAll_tlbs _) _ s
      exact h.onto rfl rfl

theorem State.l2Lose_tlbs (s : State) (line : Nat) : TlbsKept s (s.l2Lose line) := by
  have h := s.promote_tlbs line
  unfold State.l2Lose
  dsimp only
  split
  · exact h
  · split
    · rw [State.giveUp_eq]; exact h.trans (State.withLine_tlbs _ _ _ _ _)
    · split
      · exact h.onto rfl rfl
      · exact h

theorem State.refetch_tlbs (s : State) (ctx line : Nat) (shared : Bool) : TlbsKept s (s.refetch ctx line shared) := by
  unfold State.refetch
  split
  · exact .refl s
  · split
    · rw [State.reload_eq]; exact s.withLine_tlbs _ _ _ _
    · exact .refl s

theorem State.settleLine_tlbs (s : State) (ctx line : Nat) : TlbsKept s (s.settleLine ctx line) := by
  unfold State.settleLine
  split
  · exact s.l2Lose_tlbs line
  · exact .refl s

/-- A walk caches nothing of its own. -/
theorem State.walkMet_tlbs (s : State) (ctx : Nat) (last : Bool) (va : Nat) : TlbsKept s (s.walkMet ctx last va) := by
  unfold State.walkMet
  split
  · exact .fold (fun s _ => (s.refetch_tlbs _ _ _).trans (State.settleLine_tlbs _ _ _)) _ s
  · exact .refl s

/-! ## Bytes of other lines -/

/-- A write changes no byte of another address, whatever the order of the cells. -/
theorem Memory.get_set_ne (m : List Host.Cell) {a b : Nat} (x : Byte) (h : b ≠ a) : Memory.get (Memory.set m a x) b = Memory.get m b := by
  induction m with
  | nil =>
    simp only [Memory.set]
    split
    · rfl
    · simp only [Memory.get, if_neg h.symm]
  | cons e r ih =>
    obtain ⟨c, y⟩ := e
    simp only [Memory.set]
    split_ifs with h1 h2 h3 h4
    · rfl
    · simp only [Memory.get, if_neg h.symm]
    · subst h3; simp only [Memory.get, if_neg h.symm]
    · subst h3; simp only [Memory.get, if_neg h.symm]
    · simp only [Memory.get, ih]

theorem Memory.get_setBytes_ne (m : List Host.Cell) (a b : Nat) (bs : List Byte) (h : ¬ (a ≤ b ∧ b < a + bs.length)) :
    Memory.get (Memory.setBytes m a bs) b = Memory.get m b := by
  induction bs generalizing m a with
  | nil => rfl
  | cons x r ih =>
    simp only [List.length_cons] at h
    rw [Memory.setBytes, ih _ _ (by omega), Memory.get_set_ne _ _ (by omega)]

theorem Memory.getBytes_congr {m m' : List Host.Cell} (a n : Nat) (h : ∀ i < n, Memory.get m' (a + i) = Memory.get m (a + i)) :
    Memory.getBytes m' a n = Memory.getBytes m a n := by
  induction n generalizing a with
  | zero => rfl
  | succ n ih =>
    rw [Memory.getBytes, Memory.getBytes, ih (a + 1) fun i hi => by
      have := h (i + 1) (by omega); rwa [show a + 1 + i = a + (i + 1) by omega], show Memory.get m' a = Memory.get m a from h 0 (by omega)]

theorem length_lineBytes (d : BitVec 512) (i n : Nat) : (lineBytes d i n).length = n := by
  induction n generalizing i with
  | zero => rfl
  | succ n ih => simp [lineBytes, ih]

theorem getD_lineBytes (d : BitVec 512) (i n j : Nat) (h : j < n) : (lineBytes d i n).getD j 0 = lineByte d (i + j) := by
  induction n generalizing i j with
  | zero => omega
  | succ n ih =>
    cases j with
    | zero => rfl
    | succ j =>
      rw [lineBytes, List.getD_cons_succ, ih _ _ (by omega)]
      congr 1; omega

section
variable (s : State) (line : Nat) (k : List Byte) (l : Tbl L2Line)

theorem State.get_withLine_other {bs : List Byte} (hbs : bs.length = 64) {a : Nat} (h : a / 64 ≠ line) :
    Memory.get (s.withLine line bs k l).mem a = Memory.get s.mem a :=
  Memory.get_setBytes_ne _ _ _ _ (by rw [hbs]; omega)

theorem State.get_withLine (d : BitVec 512) (hm : Memory.wf s.mem = true) {i : Nat} (h : i < 64) :
    Memory.get (s.withLine line (lineBytes d 0 64) k l).mem (64 * line + i) = lineByte d i := by
  have hlen := length_lineBytes d 0 64
  have hbyte := getD_lineBytes d 0 64 i h
  generalize lineBytes d 0 64 = bs at hlen hbyte
  rw [State.withLine, Memory.get_setBytes _ _ _ _ hm, hlen, if_pos (by omega), Nat.add_sub_cancel_left, hbyte, Nat.zero_add]

/-- Every byte outside the line reads as before, under every key. -/
theorem State.physByte_withLine {bs : List Byte} (hbs : bs.length = 64) (key : Nat) {pa : Nat} (h : pa / 64 ≠ line) :
    (s.withLine line bs k l).physByte key pa = s.physByte key pa := by
  have hbyte : Memory.get (s.withLine line bs k l).mem pa = Memory.get s.mem pa := s.get_withLine_other line k l hbs h
  have hkey : Tbl.at (s.withLine line bs k l).lineKey (pa / 64) [] = Tbl.at s.lineKey (pa / 64) [] := Tbl.at_put_ne _ _ _ h
  have hraw : (s.withLine line bs k l).rawLine (pa / 64) = s.rawLine (pa / 64) :=
    Memory.getBytes_congr _ _ fun i hi => s.get_withLine_other line k l hbs (by omega)
  have hname : (s.withLine line bs k l).keyOf key = s.keyOf key := rfl
  have hmem : (s.withLine line bs k l).memByte key pa = s.memByte key pa := by
    rw [State.memByte, State.memByte, hbyte, hkey, hraw, hname]
  have hpage : (s.withLine line bs k l).pageAt pa = s.pageAt pa := rfl
  unfold State.physByte
  rw [hmem, hpage]
  cases s.pageAt pa <;> rfl

end

end Sys2Proof.Machine
end

section
/-!
The obligation on the events of a core (R17 to R21, R114, R129, R165 to R168, R178, R194, R243, R259, R343).
-/
namespace Sys2Proof.Machine

/-! ## Long-latency operations (R18, R21, R129) -/

/-- The operation with the value that a long system register has as it completes. -/
theorem State.bindLate_eq (s : State) (c : Nat) (o : Pending) :
    s.bindLate c o = { o with late := none, words := (s.bindLate c o).words } := by
  unfold State.bindLate
  split
  · next h => rw [← h]
  · rfl

/-- The completion of a word writes it, and with the last word the flag falls. -/
theorem execLongLatencyComplete_word {s : State} {c slot id i : Nat} {o : Pending} {w : Nat × Word × Bool}
    (hfind : (s.core c).pending.find? (fun y => y.id == id) = some o) (hw : (s.bindLate c o).words[i]? = some w)
    (hspec : (s.gang c (o.slot / 32)).spec = none) :
    let regs := regsOf (s.gangGrid c (o.slot / 32)) (s.gang c (o.slot / 32)).num
    let u := (s.thr c o.slot).putV regs w.1 w.2.1 w.2.2
    let rest := (s.bindLate c o).words.eraseIdx i
    ∃ t, exec (.longLatencyComplete c slot id i) s = .next t
      ∧ t.thr c o.slot = (if rest = [] then u.setFlag o.flag (u.flag o.flag - 1) else u)
      ∧ t.core c = { s.core c with pending := if rest = [] then (s.core c).pending.filter (fun y => y.id != id)
          else (s.core c).pending.map (fun y => if y.id == id then { o with late := none, words := rest } else y) }
      ∧ (∀ n, n ≠ threadKey c o.slot → Tbl.look t.threads n = Tbl.look s.threads n)
      ∧ (∀ d, d ≠ c → Tbl.look t.cores d = Tbl.look s.cores d) ∧ t = { s with threads := t.threads, cores := t.cores } := by
  intro regs u rest
  have hid : o.id = id := by simpa using List.find?_some hfind
  have hput : s.putPending c (s.bindLate c o) w = s.setThr c o.slot u := by
    rw [State.bindLate_eq]
    simp only [State.putPending, hspec, State.modThr_eq]
    rfl
  by_cases hrest : rest = []
  · have hexec : exec (.longLatencyComplete c slot id i) s
        = .next ((s.setThr c o.slot u).endPending c { s.bindLate c o with words := rest }) := by
      change execLongLatencyComplete c slot id i s = _
      simp only [execLongLatencyComplete, hfind, hw, hput]
      exact if_pos (by rw [List.isEmpty_iff]; exact hrest)
    have hend : (s.setThr c o.slot u).endPending c { s.bindLate c o with words := rest }
        = (s.setThr c o.slot (u.setFlag o.flag (u.flag o.flag - 1))).setCore c
            { s.core c with pending := (s.core c).pending.filter (fun y => y.id != id) } := by
      rw [State.bindLate_eq, ← hid]
      simp only [State.endPending, State.modThr_eq, State.modCore_eq, State.thr_setThr_self, State.setThr_setThr, State.core_setThr]
    refine ⟨_, hexec.trans (congrArg _ hend), ?_, ?_, fun n hn => Tbl.look_put_ne _ _ hn, fun d hd => Tbl.look_put_ne _ _ hd, rfl⟩
    · rw [if_pos hrest]; exact State.thr_setThr_self _ _ _ _
    · rw [if_pos hrest, State.core_setCore_self]
  · have hexec : exec (.longLatencyComplete c slot id i) s = .next ((s.setThr c o.slot u).setCore c { s.core c with
        pending := (s.core c).pending.map (fun y => if y.id == id then { o with late := none, words := rest } else y) }) := by
      change execLongLatencyComplete c slot id i s = _
      simp only [execLongLatencyComplete, hfind, hw, hput]
      refine (if_neg (by rw [List.isEmpty_iff]; exact hrest)).trans ?_
      rw [State.bindLate_eq]
      rfl
    refine ⟨_, hexec, ?_, ?_, fun n hn => Tbl.look_put_ne _ _ hn, fun d hd => Tbl.look_put_ne _ _ hd, rfl⟩
    · rw [if_neg hrest]; exact State.thr_setThr_self _ _ _ _
    · rw [if_neg hrest, State.core_setCore_self]

/-! ## Parked records (R114, R167) -/

/-- The clock stands, and every record of the core's bin is one it had, with at least `n` cycles of its `park` count gone. -/
structure BinWears (c n : Nat) (s t : State) : Prop where
  time : t.time = s.time
  bin : ∀ y ∈ (t.core c).bin, ∃ z ∈ (s.core c).bin, z.slot = y.slot ∧ y.park ≤ z.park - n

namespace BinWears
variable {c n m : Nat} {s t u : State}

theorem refl (c : Nat) (s : State) : BinWears c 0 s s := ⟨rfl, fun y hy => ⟨y, hy, rfl, Nat.le_refl _⟩⟩

theorem trans (h : BinWears c n s t) (g : BinWears c m t u) : BinWears c (n + m) s u := by
  refine ⟨g.time.trans h.time, fun y hy => ?_⟩
  obtain ⟨z, hz, hslot, hpark⟩ := g.bin y hy
  obtain ⟨x, hx, hslot', hpark'⟩ := h.bin z hz
  exact ⟨x, hx, hslot'.trans hslot, by omega⟩

theorem weaken (h : BinWears c n s t) (hm : m ≤ n) : BinWears c m s t := by
  refine ⟨h.time, fun y hy => ?_⟩
  obtain ⟨z, hz, hslot, hpark⟩ := h.bin y hy
  exact ⟨z, hz, hslot, by omega⟩

theorem fold {α : Type} {f : State → α → State} (h : ∀ s a, BinWears c 0 s (f s a)) (l : List α) (s : State) :
    BinWears c 0 s (l.foldl f s) := by
  induction l generalizing s with
  | nil => exact .refl c s
  | cons a r ih => exact (h s a).trans (ih _)

/-- A core keeps records of its bin. -/
theorem modCore (s : State) (d : Nat) (f : Core → Core) (h : ∀ y ∈ (f (s.core d)).bin, y ∈ (s.core d).bin) :
    BinWears c 0 s (s.modCore d f) := by
  refine ⟨rfl, fun y hy => ⟨y, ?_, rfl, Nat.le_refl _⟩⟩
  rw [State.modCore_eq, State.core_setCore] at hy
  split at hy
  · next e => subst e; exact h y hy
  · exact hy

theorem modThr (s : State) (d k : Nat) (f : Thread → Thread) : BinWears c 0 s (s.modThr d k f) :=
  ⟨rfl, fun y hy => ⟨y, hy, rfl, Nat.le_refl _⟩⟩

end BinWears

theorem State.joinDue_wears (c : Nat) (s : State) (d : Nat) (pos : DWord) : BinWears c 0 s (s.joinDue d pos) :=
  (BinWears.modCore s d _ fun _ hy => (List.mem_filter.mp hy).1).trans (.fold (fun s _ => .modThr s _ _ _) _ _)

theorem State.reintroduce_wears (c : Nat) (s : State) (d n : Nat) : BinWears c 0 s (s.reintroduce d n) := by
  induction n generalizing s with
  | zero => exact .refl c s
  | succ n ih =>
    unfold State.reintroduce
    dsimp only
    split
    · exact .refl c s
    · split
      · exact .refl c s
      · exact ((BinWears.modCore s d _ fun _ hy => (List.mem_filter.mp hy).1).trans (.fold (fun s _ => .modThr s _ _ _) _ _)).trans (ih _)

theorem State.tidy_wears (c : Nat) (s : State) (d : Nat) : BinWears c 0 s (s.tidy d) :=
  ((BinWears.modCore s d _ fun _ hy => hy).trans (.fold (fun s (e : WvtEntry) => s.joinDue_wears c d e.pos) _ _)).trans
    (State.reintroduce_wears c _ d _)

theorem State.moveDue_wears (c : Nat) (s : State) (d : Nat) (r : ContRec) : BinWears c 0 s (s.moveDue d r) := by
  unfold State.moveDue
  split
  · exact (BinWears.modCore s d _ fun _ hy => (List.mem_filter.mp hy).1).trans (.modThr _ _ _ _)
  · exact s.tidy_wears c d

/-- The cycles of a core wear the counts of its own records. -/
theorem State.coreCycles_wears (c : Nat) (s : State) (d n : Nat) (w : List (DWord × List (Nat × Nat))) :
    BinWears c (if d = c then n else 0) s (s.coreCycles d n w) := by
  by_cases hn : n = 0
  · subst hn
    rw [ite_self]
    exact .refl c s
  · unfold State.coreCycles
    rw [if_neg hn]
    dsimp only
    refine BinWears.trans (n := if d = c then n else 0) (s := s) (t := s.modCore d _) ⟨rfl, fun y hy => ?_⟩
      (.fold (fun s r => s.moveDue_wears c d r) _ _)
    rw [State.modCore_eq, State.core_setCore] at hy
    split at hy
    · next e =>
      subst e
      obtain ⟨z, hz, rfl⟩ := List.mem_map.mp hy
      exact ⟨z, hz, rfl, by simp⟩
    · next e =>
      rw [if_neg (Ne.symm e)]
      exact ⟨y, hy, rfl, Nat.le_refl _⟩

/-- A core in a list of cores whose cycles pass wears its counts by its own cycles at least. -/
theorem foldl_coreCycles_wears (c : Nat) (w : Nat × Nat × Nat → List (DWord × List (Nat × Nat))) (l : List (Nat × Nat × Nat)) (s : State) :
    (BinWears c 0 s (l.foldl (fun s e => s.coreCycles e.1 e.2.1 (w e)) s))
      ∧ ∀ e ∈ l, e.1 = c → BinWears c e.2.1 s (l.foldl (fun s e => s.coreCycles e.1 e.2.1 (w e)) s) := by
  induction l generalizing s with
  | nil => exact ⟨.refl c s, fun _ h => nomatch h⟩
  | cons a r ih =>
    have h := s.coreCycles_wears c a.1 a.2.1 (w a)
    obtain ⟨hall, hown⟩ := ih (s.coreCycles a.1 a.2.1 (w a))
    rw [List.foldl_cons]
    refine ⟨(h.trans hall).weaken (Nat.zero_le _), fun e he hc => ?_⟩
    rcases List.mem_cons.mp he with rfl | he
    · rw [if_pos hc] at h
      exact h.trans hall
    · exact (h.trans (hown e he hc)).weaken (Nat.le_add_left _ _)

/-- The cycles that a core counts in a span of time. -/
def Core.cyclesIn (k : Core) (ps : Nat) : Nat := (k.phase + ps * k.rate) / 20000

/-- In the time that n cycles of a core take, n cycles of it pass. -/
theorem Core.le_cyclesIn_psOf (k : Core) (n : Nat) (h : k.step ≤ 15) : n ≤ k.cyclesIn (k.psOf n) := by
  have hrate : 0 < k.rate := by unfold Core.rate; omega
  have hps : 20000 * n - k.phase ≤ k.psOf n * k.rate := by
    have hmod := Nat.mod_lt (20000 * n - k.phase + k.rate - 1) hrate
    have hdiv := Nat.div_add_mod (20000 * n - k.phase + k.rate - 1) k.rate
    rw [Nat.mul_comm] at hdiv
    unfold Core.psOf
    omega
  exact (Nat.le_div_iff_mul_le (by decide)).mpr (by omega)

/-- The cycles of each core in a span of time, and the rest of its phase. -/
def State.cyclesRun (s : State) (ps : Nat) : List (Nat × Nat × Nat) :=
  s.cores.map (fun e => (e.1, e.2.cyclesIn ps, (e.2.phase + ps * e.2.rate) % 20000))

/-- The state before the cores count the cycles of a span of time. -/
def State.uncounted (s : State) (ps : Nat) : State :=
  { s with
    time := s.time + ps
    cores := s.cores.map (fun e => (e.1, { e.2 with phase := (e.2.phase + ps * e.2.rate) % 20000 }))
    threads := s.threads.map (fun e =>
      if e.2.park = 0 then e else (e.1, { e.2 with park := e.2.park - (Tbl.at (s.cyclesRun ps) (e.1 / 2048) (0, 0)).1 })) }

theorem State.elapse_eq (s : State) (ps : Nat) :
    s.elapse ps = (s.cyclesRun ps).foldl
      (fun t e => t.coreCycles e.1 e.2.1 (Tbl.at (s.cores.map (fun e => (e.1, s.ripening e.1))) e.1 [])) (s.uncounted ps) := rfl

theorem State.elapse_time_eq (s : State) (ps : Nat) : (s.elapse ps).time = s.time + ps := by
  rw [State.elapse_eq, (foldl_coreCycles_wears 0 _ _ _).1.time]
  rfl

/-- Every record of a core in the table has the core's cycles of the time taken off its count. -/
theorem State.elapse_wears (s : State) (ps c : Nat) {k : Core} (hk : Tbl.look s.cores c = some k) :
    ∀ y ∈ ((s.elapse ps).core c).bin, ∃ z ∈ k.bin, z.slot = y.slot ∧ y.park ≤ z.park - k.cyclesIn ps := by
  intro y hy
  rw [State.elapse_eq] at hy
  have hrun : (c, k.cyclesIn ps, (k.phase + ps * k.rate) % 20000) ∈ s.cyclesRun ps :=
    List.mem_map.mpr ⟨(c, k), Tbl.mem_of_look hk, rfl⟩
  obtain ⟨z, hz, hslot, hpark⟩ := ((foldl_coreCycles_wears c _ _ _).2 _ hrun rfl).bin y hy
  refine ⟨z, ?_, hslot, hpark⟩
  unfold State.uncounted State.core Tbl.at at hz
  dsimp only at hz
  rw [Tbl.look_map s.cores _ (by intro e; rfl), hk] at hz
  exact hz

theorem State.tick_time_eq (s : State) (c n : Nat) : (s.tick c n).time = s.time + (s.core c).psOf n := State.elapse_time_eq _ _

theorem State.tick_wears (s : State) (c n : Nat) (h : (s.core c).step ≤ 15) :
    ∀ y ∈ ((s.tick c n).core c).bin, ∃ z ∈ (s.core c).bin, z.slot = y.slot ∧ y.park ≤ z.park - n := by
  intro y hy
  obtain ⟨z, hz, hslot, hpark⟩ := (s.setCore c (s.core c)).elapse_wears _ c (Tbl.look_put_self _ _ _) y hy
  have := (s.core c).le_cyclesIn_psOf n h
  exact ⟨z, hz, hslot, by omega⟩

end Sys2Proof.Machine
end

section
/-!
The obligation on the events of a core, continued: spills, refreshes, freed slots, finished walks and refetched lines.
-/
namespace Sys2Proof.Machine

/-! ## The spill (R168) -/

theorem execSpill_early {s : State} {c : Nat} (hbusy : s.coreBusy c = false) (hdue : ∃ r ∈ (s.core c).bin, r.park = 0)
    (hidle : (s.core c).idle < 4096) : exec (.spill c) s = .next (s.tick c (4096 - (s.core c).idle)) := by
  have hany : (s.core c).bin.any (fun r => r.park == 0) = true := by simpa using hdue
  change execSpill c s = _
  simp only [execSpill, hbusy, hany, hidle, Bool.not_true, Bool.or_self, if_true]
  rfl

/-- The records that the slots of an entry leave, with their numbers in sequence. -/
def spilled (s : State) (c : Nat) (l : List Nat) (n : Nat) : List ContRec :=
  ((List.range l.length).zip l).map (fun p => ⟨(s.thr c p.2).pos, (s.thr c p.2).park, n + p.1, p.2⟩)

theorem spilled_cons (s : State) (c k : Nat) (l : List Nat) (n : Nat) :
    spilled s c (k :: l) n = ⟨(s.thr c k).pos, (s.thr c k).park, n, k⟩ :: spilled s c l (n + 1) := by
  simp only [spilled, List.length_cons, List.range_succ_eq_map, List.zip_cons_cons, List.map_cons, List.zip_map_left, List.map_map]
  congr 1
  refine List.map_congr_left fun p _ => ?_
  exact congrArg (fun q => (⟨(s.thr c p.2).pos, (s.thr c p.2).park, q, p.2⟩ : ContRec)) (by simp only [Prod.map_fst]; omega)

theorem spilled_congr {s t : State} {c : Nat} (h : ∀ k, t.thr c k = { s.thr c k with place := (t.thr c k).place }) (l : List Nat) (n : Nat) :
    spilled t c l n = spilled s c l n := by
  refine List.map_congr_left fun p _ => ?_
  rw [h p.2]

/-- Slots of a core have gone to the bin. -/
structure ToBin (c : Nat) (l : List Nat) (s t : State) : Prop where
  rest : t = { s with cores := t.cores, threads := t.threads }
  thread : ∀ d k, t.thr d k = { s.thr d k with place := (t.thr d k).place }
  wvt : (t.core c).wvt = (s.core c).wvt
  bin : (t.core c).bin = (s.core c).bin ++ spilled s c l (s.core c).binSeq

theorem State.toBin_thr (s : State) (c k d j : Nat) : (s.toBin c k).thr d j = { s.thr d j with place := ((s.toBin c k).thr d j).place } := by
  unfold State.toBin
  dsimp only
  rw [State.thr_setThr]
  split
  · next e => rw [show s.thr d j = s.thr c k by unfold State.thr; rw [e]]
  · rfl

theorem State.toBin_core (s : State) (c k : Nat) : (s.toBin c k).core c = { s.core c with
    bin := (s.core c).bin ++ [⟨(s.thr c k).pos, (s.thr c k).park, (s.core c).binSeq, k⟩], binSeq := (s.core c).binSeq + 1 } := by
  unfold State.toBin
  dsimp only
  rw [State.core_setThr, State.modCore_eq, State.core_setCore_self]

theorem State.foldl_toBin (c : Nat) (l : List Nat) (s : State) : ToBin c l s (l.foldl (fun s k => s.toBin c k) s) := by
  induction l generalizing s with
  | nil => exact ⟨rfl, fun _ _ => rfl, rfl, (List.append_nil _).symm⟩
  | cons k r ih =>
    obtain ⟨rest, thread, wvt, bin⟩ := ih (s.toBin c k)
    have hthr := s.toBin_thr c k
    have hcore := s.toBin_core c k
    rw [List.foldl_cons]
    refine ⟨?_, fun d j => ?_, ?_, ?_⟩
    · rw [rest]; rfl
    · rw [thread d j, hthr d j]
    · rw [wvt, hcore]
    · rw [bin, spilled_congr (hthr c), hcore, spilled_cons, List.append_assoc]
      rfl

/-- A search finds an entry that is better than every other. -/
theorem Search.eq_of_best {α : Type} {better : α → α → Prop} [DecidableRel better] {f : Option α → α → Option α} (hf : Search better f)
    (asymm : ∀ a b, better a b → ¬ better b a) (between : ∀ a b d, better a d → better a b ∨ better b d) {l : List α} {e : α}
    (he : e ∈ l) (hbest : ∀ y ∈ l, y ≠ e → better e y) : l.foldl f none = some e := by
  cases h : l.foldl f none with
  | none => rw [hf.nil_of_none h] at he; exact nomatch he
  | some x =>
    by_contra hne
    exact hf.best asymm between h e he (hbest x (hf.mem h) fun hx => hne (by rw [hx]))

/-- The entry of the highest key goes to the bin. -/
theorem execSpill_spills {s : State} {c : Nat} {e : WvtEntry} (hbusy : s.coreBusy c = false) (hdue : ∃ r ∈ (s.core c).bin, r.park = 0)
    (hidle : 4096 ≤ (s.core c).idle) (he : e ∈ (s.core c).wvt) (htop : ∀ y ∈ (s.core c).wvt, y ≠ e → y.pos.toNat < e.pos.toNat) :
    ∃ u t, exec (.spill c) s = .next t ∧ TimePasses u t
      ∧ (u.core c).wvt = (s.core c).wvt.filter (fun y => y.pos != e.pos)
      ∧ (u.core c).bin = (s.core c).bin ++ spilled s c e.slots (s.core c).binSeq
      ∧ u = { s with cores := u.cores, threads := u.threads } ∧ ∀ d k, u.thr d k = { s.thr d k with place := (u.thr d k).place } := by
  have hany : (s.core c).bin.any (fun r => r.park == 0) = true := by simpa using hdue
  have hexec : exec (.spill c) s = .next ((e.slots.foldl (fun s k => s.toBin c k)
      (s.modCore c (fun k => { k with wvt := k.wvt.filter (fun x => x.pos != e.pos), idle := 0 }))).tidy c) := by
    change execSpill c s = _
    simp only [execSpill, hbusy, hany, Nat.not_lt.mpr hidle, Bool.not_true, Bool.or_self, Bool.false_eq_true, if_false]
    rw [Search.eq_of_best (better := fun (r x : WvtEntry) => x.pos.toNat < r.pos.toNat) ⟨fun _ => rfl, fun _ _ => rfl⟩
      (fun _ _ => by omega) (fun _ _ _ => by omega) he htop]
  obtain ⟨rest, thread, wvt, bin⟩ := State.foldl_toBin c e.slots
    (s.modCore c (fun k => { k with wvt := k.wvt.filter (fun x => x.pos != e.pos), idle := 0 }))
  refine ⟨_, _, hexec, State.tidy_time _ c, ?_, ?_, ?_, thread⟩
  · rw [wvt, State.modCore_eq, State.core_setCore_self]
  · rw [bin, State.modCore_eq, State.core_setCore_self]
    rfl
  · rw [rest]; rfl

/-! ## Refreshes (R17, R243) -/

theorem execTempRefreshSwitch_eq {s : State} {c p : Nat} {x : Pass} (hx : Tbl.look (s.core c).pipes p = some x) :
    exec (.tempRefreshSwitch c p) s = .next (if x.since + 4000000 ≤ s.time then s.setPass c p { x with refreshed := true } else s) := by
  change execTempRefreshSwitch c p s = _
  simp only [execTempRefreshSwitch, hx, Pass.refreshAt]
  rfl

theorem execRowRefresh_eq (s : State) (c row : Nat) : exec (.rowRefresh c row) s
    = .next (if s.refreshes c row then s.setCore c { s.core c with refreshAt := s.time } else s) := rfl

theorem State.refreshes_temporaries (s : State) (c : Nat) {row : Nat} (h : 65536 ≤ row) :
    s.refreshes c row = true ↔ ∃ x ∈ Tbl.vals (s.core c).pipes, x.refreshed = true ∧ row - 65536 ∈ x.slots := by
  simp only [State.refreshes, if_pos h, List.any_eq_true, Bool.and_eq_true, List.contains_iff_mem]

/-! ## Finished walks (R259) -/

/-- A walk that finishes is cached in the core and in its cluster. -/
theorem execTranslationComplete_walk {s : State} {c x va : Nat} {m : Mapping} (hctx : (s.core c).ctx = some x)
    (hmiss : s.cached c x va = none) (hwalk : s.walk x { user := false } va = .ok m) :
    exec (.translationComplete c va) s = .next ((s.walkMet x true va).fillTlb c (m.entry x va)) := by
  change execTranslationComplete c va s = _
  simp only [execTranslationComplete, hctx, State.translate, hmiss, hwalk]

theorem tlbFind_cons {e : TlbEntry} {l : List TlbEntry} {x va : Nat} (hx : e.ctx = x) (hp : va / 2 ^ e.bits = e.page) :
    tlbFind (e :: l) x va = some e := by
  simp [tlbFind, hx, hp]

section
variable (w : State) (c : Nat) (e : TlbEntry)

theorem State.fillTlb_core : (w.fillTlb c e).core c = { w.core c with tlb := e :: ((w.core c).tlb.filter (· != e)).take 63 } := by
  unfold State.fillTlb State.keepTlb
  rw [State.modCore_eq, State.core_setCore_self]
  rfl

theorem State.fillTlb_cluster (n : Nat) : (w.fillTlb c e).clusterTlb n
    = if n = clusterOf c then e :: (w.clusterTlb (clusterOf c)).take 2047 else w.clusterTlb n := by
  change Tbl.at (Tbl.put w.ctlb (clusterOf c) _) n [] = _
  rw [Tbl.at_put]
  rfl

theorem State.fillTlb_cached {x va : Nat} (hx : e.ctx = x) (hp : va / 2 ^ e.bits = e.page) : (w.fillTlb c e).cached c x va = some e := by
  simp only [State.cached, State.fillTlb_core, tlbFind_cons hx hp]

end

/-! ## Lines fetched again (R343) -/

theorem State.promote_untagged {s : State} {line : Nat} {x : L2Line} (hx : Tbl.look s.l2 line = some x) (ho : x.owner = none) :
    s.promote line = s := by
  simp only [State.promote, hx, ho]

/-- A line stays bad in its slice when its owner is promoted. -/
theorem State.look_promote {s : State} {line : Nat} {x : L2Line} (hx : Tbl.look s.l2 line = some x) :
    Tbl.look (s.promote line).l2 line = some { x with owner := none } := by
  unfold State.promote
  rw [hx]
  dsimp only
  split
  · next h => rw [hx, ← h]
  · exact Tbl.look_put_self _ _ _

theorem State.l2Lose_bad {s : State} {line : Nat} {x : L2Line} (hx : Tbl.look s.l2 line = some x) (hbad : x.bad = true) :
    s.l2Lose line = (s.promote line).giveUp line { x with owner := none } := by
  simp only [State.l2Lose, State.look_promote hx, hbad, if_true]

section
variable {s : State} {line : Nat} {x : L2Line} (hx : Tbl.look s.l2 line = some x)
include hx

theorem execL2Refetch_skips (h : x.bad = false ∨ s.sharedAt 0 x.key (64 * line) = false) : exec (.l2Refetch line) s = .next s := by
  change execL2Refetch line s = _
  simp only [execL2Refetch, hx]
  refine if_pos ?_
  rcases h with h | h
  · rw [h]; rfl
  · rw [h]; exact Bool.or_true _

theorem execL2Refetch_shared (hbad : x.bad = true) (hs : s.sharedAt 0 x.key (64 * line) = true) :
    exec (.l2Refetch line) s = .next (if s.physBad (64 * line) 64 then s.l2Lose line else s.reload line x) := by
  change execL2Refetch line s = _
  simp only [execL2Refetch, hx, hbad, hs, Bool.not_true, Bool.or_self, Bool.false_eq_true, if_false]
  split <;> rfl

end

end Sys2Proof.Machine
end

section
/-!
The obligation on the events of a core, concluded: the slot of an exited thread is freed (R114, R178, R194).
-/
namespace Sys2Proof.Machine

/-! ## A gang leaves the passes of its core -/

/-- What one gang has in the record of a pass. -/
def Pass.ofGang (x : Pass) (gs : Nat) : Pass :=
  { x with resv := x.resv.filter (·.1 == gs), closing := x.closing.filter (·.1 == gs) }

/-- The record of a pass without what one gang has in it. -/
def Pass.withoutGang (x : Pass) (gs : Nat) : Pass :=
  { x with resv := x.resv.filter (·.1 != gs), closing := x.closing.filter (·.1 != gs) }

/-- What a gang has in the pass of one pipe is settled. -/
def State.settlePipe (c gs : Nat) (s : State) (e : Nat × Pass) : State :=
  if e.2.resv.any (·.1 == gs) || e.2.closing.any (·.1 == gs) then
    ((s.finishResv c (e.2.ofGang gs)).closeChans c (e.2.ofGang gs)).setPass c e.1 (e.2.withoutGang gs)
  else s

theorem State.settleGang_eq (s : State) (c gs : Nat) : s.settleGang c gs = (s.core c).pipes.foldl (State.settlePipe c gs) s := rfl

/-- What the gang `gs` has in the passes of the list `l` is settled. -/
structure PipesSettle (c gs : Nat) (l : Tbl Pass) (s t : State) : Prop where
  rest : t = { s with teams := t.teams, cores := t.cores }
  core : ∀ d, t.core d = { s.core d with pipes := (t.core d).pipes }
  otherCores : ∀ d, d ≠ c → (t.core d).pipes = (s.core d).pipes
  settled : ∀ n, ((s.team (s.gang c gs).team).chan n).Settled ((t.team (s.gang c gs).team).chan n)
  others : ∀ n i, i ≠ (s.gang c gs).num →
    ((t.team (s.gang c gs).team).chan n).pmask.getLsbD i = ((s.team (s.gang c gs).team).chan n).pmask.getLsbD i
  untouched : (∀ e ∈ l, ∀ r ∈ e.2.resv, r.1 ≠ gs) →
    ∀ n, ((t.team (s.gang c gs).team).chan n).fifo = ((s.team (s.gang c gs).team).chan n).fifo
  read : ∀ e ∈ l, ∀ r : Resv, (gs, r) ∈ e.2.resv → ∀ q, r.rd = some q → r.rdDone = false →
    ((t.team (s.gang c gs).team).chan (Hdr.rch e.2.hdr).toNat).Lacks q
  write : ∀ e ∈ l, ∀ r : Resv, (gs, r) ∈ e.2.resv → ∀ q, r.wr = some q → r.wrDone = false →
    ((t.team (s.gang c gs).team).chan (Hdr.wch e.2.hdr).toNat).Zeroed q
  pipes : (Tbl.keys l).Nodup → (∀ e ∈ l, Tbl.look (s.core c).pipes e.1 = some e.2) → ∀ p, Tbl.look (t.core c).pipes p
    = if p ∈ Tbl.keys l then (Tbl.look (s.core c).pipes p).map (fun y => y.withoutGang gs) else Tbl.look (s.core c).pipes p

theorem PipesSettle.nil (c gs : Nat) (s : State) : PipesSettle c gs [] s s := by
  refine ⟨rfl, fun _ => rfl, fun _ _ => rfl, fun _ => .refl _, fun _ _ _ => rfl, fun _ _ => rfl, fun _ h => (nomatch h),
    fun _ h => (nomatch h), fun _ _ p => ?_⟩
  rw [if_neg (show p ∉ Tbl.keys ([] : Tbl Pass) from List.not_mem_nil)]

/-- A pass in which the gang has nothing stays as it is. -/
theorem Pass.withoutGang_of_none {x : Pass} {gs : Nat} (h : (x.resv.any (·.1 == gs) || x.closing.any (·.1 == gs)) = false) :
    x.withoutGang gs = x := by
  obtain ⟨hresv, hclosing⟩ := Bool.or_eq_false_iff.mp h
  have hr : x.resv.filter (·.1 != gs) = x.resv := List.filter_eq_self.mpr fun e he => by
    simpa using List.any_eq_false.mp hresv e he
  have hc : x.closing.filter (·.1 != gs) = x.closing := List.filter_eq_self.mpr fun e he => by
    simpa using List.any_eq_false.mp hclosing e he
  rw [Pass.withoutGang, hr, hc]

theorem State.settlePipe_settles (c gs : Nat) (s : State) (e : Nat × Pass) : PipesSettle c gs [e] s (State.settlePipe c gs s e) := by
  have key : ∀ p, p ∈ Tbl.keys [e] ↔ p = e.1 := fun p => List.mem_singleton
  unfold State.settlePipe
  split
  · next h =>
    have hg := s.gangSettles c gs (e.2.ofGang gs) (fun r hr => by simpa using (List.mem_filter.mp hr).2)
      (fun r hr => by simpa using (List.mem_filter.mp hr).2)
    set u := (s.finishResv c (e.2.ofGang gs)).closeChans c (e.2.ofGang gs)
    have hcore : (u.setPass c e.1 (e.2.withoutGang gs)).core c
        = { s.core c with pipes := Tbl.put (s.core c).pipes e.1 (e.2.withoutGang gs) } := by
      rw [← hg.chans.core c]
      exact State.core_setCore_self _ _ _
    have hother : ∀ d, d ≠ c → (u.setPass c e.1 (e.2.withoutGang gs)).core d = s.core d := fun d hd =>
      ((State.core_setCore _ _ _ _).trans (if_neg hd)).trans (hg.chans.core d)
    have mine : ∀ x ∈ [e], ∀ r : Resv, (gs, r) ∈ x.2.resv → (gs, r) ∈ (e.2.ofGang gs).resv ∧ x.2.hdr = (e.2.ofGang gs).hdr := by
      intro x hx r hr
      obtain rfl := List.mem_singleton.mp hx
      exact ⟨List.mem_filter.mpr ⟨hr, beq_self_eq_true gs⟩, rfl⟩
    refine ⟨by rw [hg.chans.rest]; rfl, fun d => ?_, fun d hd => by rw [hother d hd], hg.chans.settled, fun n i hi => hg.others _ n i hi,
      fun hl n => hg.untouched (List.filter_eq_nil_iff.mpr fun r hr => by simpa using hl e List.mem_cons_self r hr) _ n,
      fun x hx r hr q hq hd => ?_, fun x hx r hr q hq hd => ?_, fun _ hl p => ?_⟩
    · by_cases hd : d = c
      · subst hd; rw [hcore]
      · rw [hother d hd]
    · obtain ⟨hr', hhdr⟩ := mine x hx r hr
      rw [hhdr]
      exact hg.read _ hr' q hq hd
    · obtain ⟨hr', hhdr⟩ := mine x hx r hr
      rw [hhdr]
      exact hg.write _ hr' q hq hd
    · rw [hcore, Tbl.look_put]
      simp only [key]
      split
      · next hp => rw [hp, hl e List.mem_cons_self]; rfl
      · rfl
  · next h =>
    have h' := Bool.eq_false_iff.mpr h
    have none : ∀ x ∈ [e], ∀ r : Resv, (gs, r) ∉ x.2.resv := by
      intro x hx r hr
      obtain rfl := List.mem_singleton.mp hx
      exact List.any_eq_false.mp (Bool.or_eq_false_iff.mp h').1 _ hr (beq_self_eq_true gs)
    refine ⟨rfl, fun _ => rfl, fun _ _ => rfl, fun _ => .refl _, fun _ _ _ => rfl, fun _ _ => rfl,
      fun x hx r hr => absurd hr (none x hx r), fun x hx r hr => absurd hr (none x hx r), fun _ hl p => ?_⟩
    simp only [key]
    split
    · next hp => rw [hp, hl e List.mem_cons_self, Option.map_some, Pass.withoutGang_of_none h']
    · rfl

theorem PipesSettle.cons {c gs : Nat} {e : Nat × Pass} {l : Tbl Pass} {s t u : State} (h : PipesSettle c gs [e] s t)
    (g : PipesSettle c gs l t u) : PipesSettle c gs (e :: l) s u := by
  have hgang : t.gang c gs = s.gang c gs := by rw [h.rest]; rfl
  obtain ⟨grest, gcore, gotherCores, gsettled, gothers, guntouched, gread, gwrite, gpipes⟩ := g
  rw [hgang] at gsettled gothers guntouched gread gwrite
  have one : ∀ x ∈ [e], x ∈ e :: l := fun x hx => List.mem_cons.mpr (.inl (List.mem_singleton.mp hx))
  refine ⟨by rw [grest, h.rest], fun d => by rw [gcore d, h.core d], fun d hd => (gotherCores d hd).trans (h.otherCores d hd),
    fun n => (h.settled n).trans (gsettled n), fun n i hi => (gothers n i hi).trans (h.others n i hi), fun hl n => ?_,
    fun x hx r hr q hq hd => ?_, fun x hx r hr q hq hd => ?_, fun hnd hl p => ?_⟩
  · exact (guntouched (fun x hx => hl x (List.mem_cons_of_mem _ hx)) n).trans (h.untouched (fun x hx => hl x (one x hx)) n)
  · rcases List.mem_cons.mp hx with rfl | hx
    · exact (gsettled _).lacks (h.read _ List.mem_cons_self r hr q hq hd)
    · exact gread x hx r hr q hq hd
  · rcases List.mem_cons.mp hx with rfl | hx
    · exact (gsettled _).zeroed (h.write _ List.mem_cons_self r hr q hq hd)
    · exact gwrite x hx r hr q hq hd
  · obtain ⟨hnotin, hnd'⟩ := List.nodup_cons.mp hnd
    have hfirst := h.pipes (List.nodup_singleton _) (fun x hx => hl x (one x hx))
    have hkeep : ∀ x ∈ l, Tbl.look (t.core c).pipes x.1 = some x.2 := fun x hx => by
      have hne : x.1 ∉ Tbl.keys [e] := fun hk => hnotin (List.mem_singleton.mp hk ▸ List.mem_map_of_mem hx)
      rw [hfirst, if_neg hne]
      exact hl x (List.mem_cons_of_mem _ hx)
    rw [gpipes hnd' hkeep, hfirst]
    by_cases hp : p = e.1
    · subst hp
      have hone : e.1 ∈ Tbl.keys [e] := List.mem_cons_self
      have hcons : e.1 ∈ Tbl.keys (e :: l) := List.mem_cons_self
      rw [if_neg (show e.1 ∉ Tbl.keys l from hnotin), if_pos hone, if_pos hcons]
    · have hkeys : p ∈ Tbl.keys (e :: l) ↔ p ∈ Tbl.keys l := by simp [Tbl.keys, hp]
      have hone : p ∉ Tbl.keys [e] := fun hk => hp (List.mem_singleton.mp hk)
      simp only [if_neg hone, hkeys]

theorem State.foldl_settlePipe (c gs : Nat) (l : Tbl Pass) (s : State) : PipesSettle c gs l s (l.foldl (State.settlePipe c gs) s) := by
  induction l generalizing s with
  | nil => exact .nil c gs s
  | cons e r ih => exact (State.settlePipe_settles c gs s e).cons (ih _)

theorem Tbl.look_of_nodup {α : Type} {t : Tbl α} (h : (Tbl.keys t).Nodup) {e : Nat × α} (he : e ∈ t) : Tbl.look t e.1 = some e.2 := by
  induction t with
  | nil => exact nomatch he
  | cons a r ih =>
    obtain ⟨hnotin, hnd⟩ := List.nodup_cons.mp h
    rcases List.mem_cons.mp he with rfl | he
    · simp [Tbl.look]
    · have hne : a.1 ≠ e.1 := fun hk => hnotin (show a.1 ∈ Tbl.keys r by rw [hk]; exact List.mem_map_of_mem he)
      simp only [Tbl.look, if_neg hne]
      exact ih hnd he

theorem Tbl.look_eq_none {α : Type} {t : Tbl α} {k : Nat} (h : k ∉ Tbl.keys t) : Tbl.look t k = none := by
  cases hx : Tbl.look t k with
  | none => rfl
  | some x => exact absurd (List.mem_map_of_mem (f := Prod.fst) (Tbl.mem_of_look hx)) h

/-- The passes of a core whose pipes are listed once lose what the gang has in them. -/
theorem State.settleGang_pipes {s : State} {c gs : Nat} (h : (Tbl.keys (s.core c).pipes).Nodup) (p : Nat) :
    Tbl.look ((s.settleGang c gs).core c).pipes p = (Tbl.look (s.core c).pipes p).map (fun y => y.withoutGang gs) := by
  rw [State.settleGang_eq, (State.foldl_settlePipe c gs _ s).pipes h (fun e he => Tbl.look_of_nodup h he) p]
  split
  · rfl
  · next hp => rw [Tbl.look_eq_none hp]; rfl

/-! ## The slot of a thread (R114) -/

/-- A gang leaves the producers of every channel of a team. -/
def Team.withoutProducer (t : Team) (n : Nat) : Team :=
  { t with chans := Tbl.mapAll (fun _ x => { x with pmask := x.pmask &&& ~~~(onesAt 32 n 1) }) t.chans }

theorem Team.chan_withoutProducer (t : Team) (n j : Nat) :
    (t.withoutProducer n).chan j = { t.chan j with pmask := (t.chan j).pmask &&& ~~~(onesAt 32 n 1) } := by
  unfold Team.chan Team.withoutProducer Tbl.mapAll Tbl.at
  rw [Tbl.look_map t.chans _ (by intro e; rfl)]
  cases Tbl.look t.chans j with
  | none => simp
  | some x => rfl

/-- The state without a thread. -/
def State.dropThread (s : State) (c k : Nat) : State := { s with threads := Tbl.drop s.threads (threadKey c k) }

/-- The state without a gang, whose reservations and closings are settled. -/
def State.dropGang (s : State) (c gs : Nat) : State :=
  let u := (s.settleGang c gs).modTeam (s.gang c gs).team (fun t => t.withoutProducer (s.gang c gs).num)
  { u with gangs := Tbl.drop u.gangs (gangKey c gs) }

section
variable {s : State} {c k : Nat} {th : Thread} (hth : Tbl.look s.threads (threadKey c k) = some th)
include hth

theorem State.freeThread_waits (h : th.exited = false ∨ ∃ e ∈ th.flags, e.2 ≠ 0) : s.freeThread c k = s := by
  unfold State.freeThread
  rw [hth]
  exact if_pos (by simpa using h)

theorem State.freeThread_frees (hex : th.exited = true) (hfl : ∀ e ∈ th.flags, e.2 = 0) :
    s.freeThread c k = if ((List.range 32).map (32 * (k / 32) + ·)).any (fun j => (Tbl.look (s.dropThread c k).threads (threadKey c j)).isSome)
      then s.dropThread c k else (s.dropThread c k).dropGang c (k / 32) := by
  unfold State.freeThread
  rw [hth]
  exact if_neg (by simpa [hex] using hfl)

end

/-- Another thread of the gang holds a slot. -/
theorem State.dropThread_others (s : State) (c k : Nat) :
    ((List.range 32).map (32 * (k / 32) + ·)).any (fun j => (Tbl.look (s.dropThread c k).threads (threadKey c j)).isSome) = true
      ↔ ∃ j < 32, 32 * (k / 32) + j ≠ k ∧ (Tbl.look s.threads (threadKey c (32 * (k / 32) + j))).isSome = true := by
  simp only [List.any_map, List.any_eq_true, List.mem_range, Function.comp_apply]
  refine exists_congr fun j => and_congr_right fun _ => ?_
  rw [State.dropThread, Tbl.look_drop]
  by_cases hj : 32 * (k / 32) + j = k
  · simp [hj]
  · rw [if_neg (fun h => hj (threadKey_inj h))]
    simp [hj]

/-- What the freeing of a gang's slot leaves. -/
structure GangFreed (c gs : Nat) (s t : State) : Prop where
  rest : t = { s with gangs := t.gangs, teams := t.teams, cores := t.cores }
  gang : Tbl.look t.gangs (gangKey c gs) = none
  otherGangs : ∀ n, n ≠ gangKey c gs → Tbl.look t.gangs n = Tbl.look s.gangs n
  core : ∀ d, t.core d = { s.core d with pipes := (t.core d).pipes }
  otherCores : ∀ d, d ≠ c → (t.core d).pipes = (s.core d).pipes
  pipes : (Tbl.keys (s.core c).pipes).Nodup → ∀ p, Tbl.look (t.core c).pipes p = (Tbl.look (s.core c).pipes p).map (fun y => y.withoutGang gs)
  pmask : ∀ n, ∀ i < 32, ((t.team (s.gang c gs).team).chan n).pmask.getLsbD i
    = (((s.team (s.gang c gs).team).chan n).pmask.getLsbD i && decide (i ≠ (s.gang c gs).num))
  untouched : (∀ y ∈ Tbl.vals (s.core c).pipes, ∀ r ∈ y.resv, r.1 ≠ gs) →
    ∀ n, ((t.team (s.gang c gs).team).chan n).fifo = ((s.team (s.gang c gs).team).chan n).fifo
  settled : ∀ y ∈ Tbl.vals (s.core c).pipes, ∀ r : Resv, (gs, r) ∈ y.resv →
    (∀ q, r.rd = some q → r.rdDone = false → ((t.team (s.gang c gs).team).chan (Hdr.rch y.hdr).toNat).Lacks q)
    ∧ (∀ q, r.wr = some q → r.wrDone = false → ((t.team (s.gang c gs).team).chan (Hdr.wch y.hdr).toNat).Zeroed q)

theorem State.dropGang_frees (s : State) (c gs : Nat) : GangFreed c gs s (s.dropGang c gs) := by
  have h := State.foldl_settlePipe c gs (s.core c).pipes s
  have hpipes := fun hnd p => State.settleGang_pipes (s := s) (c := c) (gs := gs) hnd p
  rw [← State.settleGang_eq] at h
  set u := s.settleGang c gs
  have hgangs : u.gangs = s.gangs := by rw [h.rest]
  have hchan : ∀ n, ((s.dropGang c gs).team (s.gang c gs).team).chan n = { (u.team (s.gang c gs).team).chan n with
      pmask := ((u.team (s.gang c gs).team).chan n).pmask &&& ~~~(onesAt 32 (s.gang c gs).num 1) } := fun n => by
    rw [← Team.chan_withoutProducer]
    exact congrArg (fun t : Team => t.chan n) (State.team_setTeam_self _ _ _)
  have hval : ∀ y ∈ Tbl.vals (s.core c).pipes, ∃ e ∈ (s.core c).pipes, e.2 = y := fun y hy => List.mem_map.mp hy
  refine ⟨?_, ?_, fun n hn => ?_, h.core, h.otherCores, hpipes, fun n i hi => ?_, fun hl n => ?_, fun y hy r hr => ?_⟩
  · have hdrop : s.dropGang c gs = { u.setTeam (s.gang c gs).team ((u.team (s.gang c gs).team).withoutProducer (s.gang c gs).num) with
        gangs := Tbl.drop u.gangs (gangKey c gs) } := rfl
    rw [hdrop, h.rest]
    rfl
  · exact (Tbl.look_drop _ _ _).trans (if_pos rfl)
  · rw [← hgangs]; exact (Tbl.look_drop _ _ _).trans (if_neg hn)
  · rw [hchan, getLsbD_clear_bit]
    by_cases hne : i = (s.gang c gs).num
    · simp [hne]
    · rw [h.others n i hne]
  · rw [hchan]
    exact h.untouched (fun e he => hl e.2 (List.mem_map_of_mem he)) n
  · obtain ⟨e, he, rfl⟩ := hval y hy
    refine ⟨fun q hq hd => ?_, fun q hq hd => ?_⟩
    · rw [hchan]; exact h.read e he r hr q hq hd
    · rw [hchan]; exact h.write e he r hr q hq hd

end Sys2Proof.Machine
end

section
/-!
The obligation on the events of a core, assembled.
-/
namespace Sys2Proof.Machine

theorem execParkDue_counts {s : State} {c k : Nat} {r : ContRec} (hr : (s.core c).bin.find? (fun y => y.slot == k) = some r)
    (hpark : 0 < r.park) : exec (.parkDue c k) s = .next (s.tick c r.park) := by
  have : (r.park == 0) = false := beq_eq_false_iff_ne.mpr (Nat.ne_of_gt hpark)
  change execParkDue c k s = _
  simp only [execParkDue, hr, this]
  rfl

/-- The words that a completion writes: those of the operation, or the system register's value of that moment (R129). -/
theorem State.bindLate_words (s : State) (c : Nat) (o : Pending) : (s.bindLate c o).words = match o.late with
    | none => o.words
    | some n => ((List.range o.words.length).zip o.words).map (fun (y : Nat × Nat × Word × Bool) =>
        (y.2.1, ((⟨c, o.slot, 0, 0, 0, 0⟩ : Lane).sysRead s n).extractLsb' (if y.1 = 0 then 0 else 32) 32, false)) := by
  unfold State.bindLate
  cases o.late with
  | none => rfl
  | some n =>
    refine List.map_congr_left fun y _ => ?_
    split <;> rfl

/-- What a finished walk leaves in the caches (R259). -/
theorem execTranslationComplete_caches {s : State} {c x va : Nat} {m : Mapping} (hctx : (s.core c).ctx = some x)
    (hmiss : s.cached c x va = none) (hwalk : s.walk x { user := false } va = .ok m) :
    ∃ w t, exec (.translationComplete c va) s = .next t ∧ MemSide s w ∧ (s.anyBad = false → w = s)
      ∧ t.cached c x va = some ⟨x, va / 2 ^ m.bits, m.bits, m.bits1, m.pa - va % 2 ^ m.bits, m.key, m.perm1, m.perm2⟩
      ∧ t.core c = { w.core c with tlb := (t.core c).tlb } ∧ (∀ e ∈ (t.core c).tlb.tail, e ∈ (s.core c).tlb)
      ∧ (∀ d, d ≠ c → Tbl.look t.cores d = Tbl.look w.cores d) ∧ t = { w with cores := t.cores, ctlb := t.ctlb }
      ∧ tlbFind (t.clusterTlb (clusterOf c)) x va = (t.cached c x va) ∧ ∀ n, n ≠ clusterOf c → t.clusterTlb n = s.clusterTlb n := by
  have htlbs := s.walkMet_tlbs x true va
  have hw : s.anyBad = false → s.walkMet x true va = s := fun h => by simp only [State.walkMet, h]; rfl
  refine ⟨s.walkMet x true va, _, execTranslationComplete_walk hctx hmiss hwalk, s.walkMet_side x true va, hw, ?_⟩
  generalize s.walkMet x true va = w at htlbs
  have hcore := w.fillTlb_core c (m.entry x va)
  have hcached := w.fillTlb_cached c (m.entry x va) (x := x) (va := va) rfl rfl
  refine ⟨hcached, by rw [hcore], fun e he => ?_, fun d hd => Tbl.look_put_ne _ _ hd, rfl, ?_, fun n hn => ?_⟩
  · rw [hcore] at he
    rw [← htlbs.core c]
    exact (List.mem_filter.mp (List.mem_of_mem_take he)).1
  · rw [hcached, State.fillTlb_cluster, if_pos rfl]
    exact tlbFind_cons rfl rfl
  · rw [State.fillTlb_cluster, if_neg hn, State.clusterTlb, State.clusterTlb, htlbs.cluster]

/-- A line fetched again holds what memory holds behind it. -/
theorem State.reload_leaves (s : State) (line : Nat) (x : L2Line) :
    Tbl.look (s.reload line x).l2 line = some { x with bad := false }
      ∧ (∀ n, n ≠ line → Tbl.look (s.reload line x).l2 n = Tbl.look s.l2 n)
      ∧ s.reload line x = { s with l2 := (s.reload line x).l2, mem := (s.reload line x).mem, lineKey := (s.reload line x).lineKey }
      ∧ (Memory.wf s.mem = true → (∀ i < 64, Memory.get (s.reload line x).mem (64 * line + i) = lineByte x.back i)
        ∧ ∀ key pa, pa / 64 ≠ line → (s.reload line x).physByte key pa = s.physByte key pa) := by
  have hbytes := length_lineBytes x.back 0 64
  have hget := fun hm i hi => s.get_withLine line x.backKey (Tbl.put s.l2 line { x with bad := false }) x.back hm (i := i) hi
  rw [State.reload_eq]
  generalize lineBytes x.back 0 64 = bs at hbytes hget
  exact ⟨Tbl.look_put_self _ _ _, fun n hn => Tbl.look_put_ne _ _ hn, rfl, fun hm => ⟨hget hm, fun key pa hpa =>
    s.physByte_withLine line _ _ hbytes key hpa⟩⟩

/-- A line with an error in memory too is not kept. -/
theorem State.l2Lose_leaves {s : State} {line : Nat} {x : L2Line} (hx : Tbl.look s.l2 line = some x) (hbad : x.bad = true) :
    Tbl.look (s.l2Lose line).l2 line = none ∧ (x.owner = none →
      (∀ n, n ≠ line → Tbl.look (s.l2Lose line).l2 n = Tbl.look s.l2 n)
      ∧ (∀ key pa, pa / 64 ≠ line → (s.l2Lose line).physByte key pa = s.physByte key pa)) := by
  rw [State.l2Lose_bad hx hbad, State.giveUp_eq]
  have hbytes := length_lineBytes x.back 0 64
  generalize lineBytes x.back 0 64 = bs at hbytes
  refine ⟨(Tbl.look_drop _ _ _).trans (if_pos rfl), fun ho => ?_⟩
  rw [State.promote_untagged hx ho]
  exact ⟨fun n hn => (Tbl.look_drop _ _ _).trans (if_neg hn), fun key pa hpa => s.physByte_withLine line _ _ hbytes key hpa⟩

/-- Settles O46, event by event: what the completion of a word, the end of a count, a spill, a refresh, the freeing of a slot, a finished
walk and a refetch leave. -/
theorem coreEventResults : Obligations.CoreEventResults := by
  unfold Obligations.CoreEventResults
  refine ⟨?word, ?park, ?spill, ?idle, ?early, ?refreshed, ?row, ?free, ?walk, ?refetch⟩
  case word =>
    intro s c slot id i o w hfind words hw hspec
    have hwords : words = (s.bindLate c o).words := by
      refine Eq.trans ?_ (s.bindLate_words c o).symm
      cases h : o.late <;> simp only [words, h]
    have key := execLongLatencyComplete_word (slot := slot) hfind (hwords ▸ hw) hspec
    rw [← hwords] at key
    exact key
  case park =>
    intro s c k r hr hpark hstep
    refine ⟨_, execParkDue_counts hr hpark, s.tick_time c _, s.tick_time_eq c _, fun hone y hy hslot => ?_⟩
    obtain ⟨z, hz, hzslot, hle⟩ := s.tick_wears c r.park hstep y hy
    rw [hone z hz (hzslot.trans hslot)] at hle
    omega
  case spill => exact fun s c e hbusy hdue hidle he htop => execSpill_spills hbusy hdue hidle he htop
  case idle =>
    intro s c hbusy hdue hidle
    exact ⟨_, execSpill_early hbusy hdue hidle, s.tick_time c _, s.tick_time_eq c _⟩
  case early =>
    intro s c p x hx hlt
    rw [execTempRefreshSwitch_eq hx, if_neg (by omega)]
  case refreshed =>
    intro s c p x hx hle
    refine ⟨_, (execTempRefreshSwitch_eq hx).trans (by rw [if_pos hle]), ?_, ?_, rfl⟩
    · rw [State.setPass, State.modCore_eq, State.core_setCore_self]
      exact Tbl.look_put_self _ _ _
    · rw [State.setPass, State.modCore_eq, State.core_setCore_self]
  case row =>
    intro s c row
    refine ⟨fun h => ?_, fun h => ?_, fun h => s.refreshes_temporaries c h⟩
    · rw [execRowRefresh_eq, h]; rfl
    · refine ⟨_, (execRowRefresh_eq s c row).trans (by rw [if_pos h]), State.core_setCore_self _ _ _,
        fun d hd => Tbl.look_put_ne _ _ hd, rfl⟩
  case free =>
    intro s c k th hth gs g others
    refine ⟨fun h => congrArg Host.Outcome.next (State.freeThread_waits hth h), fun hex hfl => ⟨_, rfl, ?_⟩⟩
    have hthreads : ∀ n, Tbl.look (s.dropThread c k).threads n = if n = threadKey c k then none else Tbl.look s.threads n :=
      fun n => Tbl.look_drop _ _ _
    rw [State.freeThread_frees hth hex hfl]
    by_cases hothers : others
    · rw [if_pos ((s.dropThread_others c k).mpr hothers)]
      exact ⟨(hthreads _).trans (if_pos rfl), fun n hn => (hthreads n).trans (if_neg hn), fun _ => rfl, fun h => absurd hothers h⟩
    · rw [if_neg fun h => hothers ((s.dropThread_others c k).mp h)]
      have h := (s.dropThread c k).dropGang_frees c gs
      have hkeep : ((s.dropThread c k).dropGang c gs).threads = (s.dropThread c k).threads := by rw [h.rest]
      refine ⟨?_, fun n hn => ?_, fun h => absurd h hothers, fun _ => ⟨h.gang, h.otherGangs, ?_, h.core, h.otherCores, h.pipes, h.pmask,
        h.untouched, fun y hy r hr => h.settled y hy r hr⟩⟩
      · rw [hkeep, hthreads, if_pos rfl]
      · rw [hkeep, hthreads, if_neg hn]
      · rw [h.rest]; rfl
  case walk => exact fun s c x va m hctx hmiss hwalk => execTranslationComplete_caches hctx hmiss hwalk
  case refetch =>
    intro s line x hx
    refine ⟨execL2Refetch_skips hx, fun hbad hs => ⟨_, execL2Refetch_shared hx hbad hs, ?_, fun hphys => ?_, fun hphys => ?_⟩⟩
    · split
      · exact s.l2Lose_side line
      · exact s.reload_side line x
    · rw [if_neg (by rw [hphys]; decide)]
      exact s.reload_leaves line x
    · rw [if_pos hphys]
      exact State.l2Lose_leaves hx hbad

end Sys2Proof.Machine
end

section
/-!
Rounding (R34, R40): the neighbour of a quotient that each mode picks, the exact magnitudes that are rounded, and overflow.
-/
namespace Sys2Proof.Machine

/-! ## The neighbours of a quotient (R34) -/

theorem roundQuot_floor_or_succ (mode : Nat) (neg : Bool) (n d : Nat) :
    roundQuot mode neg n d = n / d ∨ roundQuot mode neg n d = n / d + 1 := by
  simp only [roundQuot]
  exact (ite_eq_or_eq _ _ _).symm

/-- A whole number of units above the exact value bounds what it rounds to. -/
theorem roundQuot_le_of_lt_mul {n d k : Nat} (mode : Nat) (neg : Bool) (h : n < d * k) : roundQuot mode neg n d ≤ k := by
  have hfloor : n / d < k := Nat.div_lt_of_lt_mul h
  have := roundQuot_floor_or_succ mode neg n d
  omega

/-- So does a whole number of units below. -/
theorem le_roundQuot_of_mul_le {n d k : Nat} (mode : Nat) (neg : Bool) (hd : 0 < d) (h : k * d ≤ n) : k ≤ roundQuot mode neg n d := by
  have hfloor : k ≤ n / d := (Nat.le_div_iff_mul_le hd).mpr h
  have := roundQuot_floor_or_succ mode neg n d
  omega

/-- The quotient rounded up. -/
theorem add_pred_div_eq {n d : Nat} (hd : 0 < d) : (n + d - 1) / d = if n % d = 0 then n / d else n / d + 1 := by
  have hn := Nat.div_add_mod' n d
  have hr := Nat.mod_lt n hd
  split
  · exact Nat.div_eq_of_lt_le (by omega) (by rw [Nat.add_one_mul]; omega)
  · exact Nat.div_eq_of_lt_le (by rw [Nat.add_one_mul]; omega) (by rw [Nat.add_one_mul, Nat.add_one_mul]; omega)

theorem roundQuot_rz (neg : Bool) (n d : Nat) : roundQuot 1 neg n d = n / d := rfl

theorem roundQuot_ru (neg : Bool) {n d : Nat} (hd : 0 < d) :
    roundQuot 2 neg n d = if neg then n / d else (n + d - 1) / d := by
  rw [add_pred_div_eq hd]
  by_cases hr : n % d = 0 <;> cases neg <;> simp [roundQuot, hr]

theorem roundQuot_rd (neg : Bool) {n d : Nat} (hd : 0 < d) :
    roundQuot 3 neg n d = if neg then (n + d - 1) / d else n / d := by
  rw [add_pred_div_eq hd]
  by_cases hr : n % d = 0 <;> cases neg <;> simp [roundQuot, hr]

theorem roundQuot_rne (neg : Bool) (n d : Nat) : roundQuot 0 neg n d
    = if d < 2 * (n % d) ∨ 2 * (n % d) = d ∧ n / d % 2 = 1 then n / d + 1 else n / d := by
  simp [roundQuot]

/-- Where a quotient lies against the middle of its neighbours is where twice its remainder lies against the divisor. -/
theorem twice_add_eq_middle_add (n d : Nat) : 2 * n + d = (2 * (n / d) + 1) * d + 2 * (n % d) := by
  conv_lhs => rw [← Nat.div_add_mod n d]
  ring

/-! ## Exact magnitudes -/

/-- The magnitude n/d·2^e. -/
def magnitude (n d : Nat) (e : Int) : ℚ := n / d * 2 ^ e

theorem inUnits_snd_pos (n : Nat) {d : Nat} (hd : 0 < d) (e q : Int) : 0 < (inUnits n d e q).2 := by
  unfold inUnits
  split
  · exact hd
  · positivity

/-- Counted in units of 2^q, a magnitude is divided by 2^q. -/
theorem inUnits_value (n d : Nat) (e q : Int) :
    ((inUnits n d e q).1 : ℚ) / (inUnits n d e q).2 = magnitude n d e / 2 ^ q := by
  have hpow : (2 : ℚ) ^ e / 2 ^ q = 2 ^ (e - q) := (zpow_sub₀ two_ne_zero e q).symm
  rw [magnitude, mul_div_assoc, hpow]
  unfold inUnits
  split
  case isTrue h =>
    obtain ⟨k, hk⟩ := Int.eq_ofNat_of_zero_le (Int.sub_nonneg.mpr h)
    rw [hk, zpow_natCast]
    push_cast [Int.toNat_natCast]
    ring
  case isFalse h =>
    obtain ⟨k, hk⟩ := Int.eq_ofNat_of_zero_le (show 0 ≤ q - e by omega)
    rw [hk, show e - q = -(k : Int) by omega, zpow_neg, zpow_natCast]
    push_cast [Int.toNat_natCast]
    rw [div_mul_eq_div_div, div_eq_mul_inv _ ((2 : ℚ) ^ k)]

/-- The comparison that `floorLog2` makes. -/
theorem quot_lt_zpow_iff {n d : Nat} (hd : 0 < d) (k : Int) :
    (if 0 ≤ k then n < d * 2 ^ k.toNat else n * 2 ^ (-k).toNat < d) ↔ (n : ℚ) / d < 2 ^ k := by
  have hd' : (0 : ℚ) < d := Nat.cast_pos.mpr hd
  rw [div_lt_iff₀ hd']
  split
  case isTrue h =>
    obtain ⟨m, rfl⟩ := Int.eq_ofNat_of_zero_le h
    rw [Int.toNat_natCast, zpow_natCast, mul_comm]
    exact_mod_cast Iff.rfl
  case isFalse h =>
    obtain ⟨m, hm⟩ := Int.eq_ofNat_of_zero_le (show 0 ≤ -k by omega)
    rw [hm, Int.toNat_natCast, show k = -(m : Int) by omega, zpow_neg, zpow_natCast, inv_mul_eq_div, lt_div_iff₀ (by positivity)]
    exact_mod_cast Iff.rfl

/-- A quotient lies within a factor of two of the power of two that the lengths of its parts give. -/
theorem quot_log2_bounds {n d : Nat} (hn : 0 < n) (hd : 0 < d) :
    (2 : ℚ) ^ ((n.log2 : Int) - d.log2 - 1) ≤ n / d ∧ (n : ℚ) / d < 2 ^ ((n.log2 : Int) - d.log2 + 1) := by
  have hd' : (0 : ℚ) < d := Nat.cast_pos.mpr hd
  have hnlo : (2 : ℚ) ^ n.log2 ≤ n := by exact_mod_cast Nat.log2_self_le hn.ne'
  have hdlo : (2 : ℚ) ^ d.log2 ≤ d := by exact_mod_cast Nat.log2_self_le hd.ne'
  have hnhi : (n : ℚ) < 2 ^ (n.log2 + 1) := by exact_mod_cast Nat.lt_log2_self
  have hdhi : (d : ℚ) < 2 ^ (d.log2 + 1) := by exact_mod_cast Nat.lt_log2_self
  constructor
  · calc (2 : ℚ) ^ ((n.log2 : Int) - d.log2 - 1) = 2 ^ n.log2 / 2 ^ (d.log2 + 1) := by
          rw [sub_sub, zpow_sub₀ two_ne_zero]; norm_cast
      _ ≤ n / d := div_le_div₀ (by positivity) hnlo hd' hdhi.le
  · calc (n : ℚ) / d < 2 ^ (n.log2 + 1) / 2 ^ d.log2 := div_lt_div₀ hnhi hdlo (by positivity) (by positivity)
      _ = 2 ^ ((n.log2 : Int) - d.log2 + 1) := by
          rw [sub_add_eq_add_sub, zpow_sub₀ two_ne_zero]; norm_cast

/-- `floorLog2` is the exponent of a magnitude: 2 to it is the greatest power of two that does not exceed the magnitude. -/
theorem floorLog2_bounds {n d : Nat} (hn : 0 < n) (hd : 0 < d) (e : Int) :
    (2 : ℚ) ^ floorLog2 n d e ≤ magnitude n d e ∧ magnitude n d e < 2 ^ (floorLog2 n d e + 1) := by
  obtain ⟨hlo, hhi⟩ := quot_log2_bounds hn hd
  have hlow := quot_lt_zpow_iff (n := n) hd ((n.log2 : Int) - d.log2)
  have hscale : (0 : ℚ) < 2 ^ e := by positivity
  unfold floorLog2 magnitude
  simp only [hlow]
  rw [add_right_comm, zpow_add₀ two_ne_zero _ e, zpow_add₀ two_ne_zero _ e]
  split
  case isTrue h =>
    rw [sub_add_cancel]
    exact ⟨mul_le_mul_of_nonneg_right hlo hscale.le, mul_lt_mul_of_pos_right h hscale⟩
  case isFalse h =>
    exact ⟨mul_le_mul_of_nonneg_right (not_lt.mp h) hscale.le, mul_lt_mul_of_pos_right hhi hscale⟩

/-- A magnitude below k units rounds to at most k units. -/
theorem roundQuot_inUnits_le {n d k : Nat} {e q : Int} (mode : Nat) (neg : Bool) (hd : 0 < d) (h : magnitude n d e < k * 2 ^ q) :
    roundQuot mode neg (inUnits n d e q).1 (inUnits n d e q).2 ≤ k := by
  refine roundQuot_le_of_lt_mul mode neg ?_
  have hu : (0 : ℚ) < (inUnits n d e q).2 := Nat.cast_pos.mpr (inUnits_snd_pos n hd e q)
  have hk : ((inUnits n d e q).1 : ℚ) / (inUnits n d e q).2 < k := by
    rwa [inUnits_value, div_lt_iff₀ (by positivity)]
  rw [div_lt_iff₀' hu] at hk
  exact_mod_cast hk

/-- A magnitude of at least k units rounds to at least k units. -/
theorem le_roundQuot_inUnits {n d k : Nat} {e q : Int} (mode : Nat) (neg : Bool) (hd : 0 < d) (h : k * 2 ^ q ≤ magnitude n d e) :
    k ≤ roundQuot mode neg (inUnits n d e q).1 (inUnits n d e q).2 := by
  have hu := inUnits_snd_pos n hd e q
  refine le_roundQuot_of_mul_le mode neg hu ?_
  have hk : (k : ℚ) ≤ (inUnits n d e q).1 / (inUnits n d e q).2 := by
    rwa [inUnits_value, le_div_iff₀ (by positivity)]
  rw [le_div_iff₀ (Nat.cast_pos.mpr hu)] at hk
  exact_mod_cast hk

/-! ## Overflow (R40) -/

/-- The exponent of the unit in which `rndQ` rounds a magnitude. -/
def rndUnit (f : Fmt) (n d : Nat) (e : Int) : Int := max (floorLog2 n d e) f.emin - f.mbits

/-- The pattern without its sign that `rndQ` rounds a magnitude to, were there no greatest one. -/
def rndMag (f : Fmt) (mode : Nat) (neg : Bool) (n d : Nat) (e : Int) : Nat :=
  let u := inUnits n d e (rndUnit f n d e)
  (rndUnit f n d e - (f.emin - f.mbits)).toNat * 2 ^ f.mbits + roundQuot mode neg u.1 u.2

/-- R40: a pattern that reaches infinity's gives infinity or the largest finite value, by the mode. -/
theorem rndQ_of_infPat_le {f : Fmt} {mode : Nat} {neg : Bool} {n d : Nat} {e : Int} (hmode : mode < 4)
    (h : f.infPat false ≤ rndMag f mode neg n d e) :
    rndQ f mode neg n d e = (if mode = 0 ∨ (mode = 2 ∧ neg = false) ∨ (mode = 3 ∧ neg = true) then f.infPat neg else f.maxPat neg,
      fOF ||| fNX) := by
  unfold rndQ
  refine (if_pos h).trans (Prod.ext ?_ rfl)
  match mode, hmode with
  | 0, _ | 1, _ => rfl
  | 2, _ | 3, _ => cases neg <;> rfl

/-- The unit in the last place of the largest finite value. -/
def Fmt.maxUnit (f : Fmt) : Int := f.emin + 2 ^ f.ebits - 3 - f.mbits

/-- A magnitude rounded in units below 2^q is less than 2^mbits units of 2^q, and so rounds to no more of those. -/
theorem roundQuot_le_of_rndUnit_lt {f : Fmt} {n d : Nat} {e q : Int} (mode : Nat) (neg : Bool) (hn : 0 < n) (hd : 0 < d)
    (h : rndUnit f n d e < q) : roundQuot mode neg (inUnits n d e q).1 (inUnits n d e q).2 ≤ 2 ^ f.mbits := by
  refine roundQuot_inUnits_le mode neg hd ?_
  have hexp : floorLog2 n d e + 1 ≤ f.mbits + q := by unfold rndUnit at h; omega
  calc magnitude n d e < 2 ^ (floorLog2 n d e + 1) := (floorLog2_bounds hn hd e).2
    _ ≤ 2 ^ (f.mbits + q) := zpow_le_zpow_right₀ one_le_two hexp
    _ = ((2 ^ f.mbits : Nat) : ℚ) * 2 ^ q := by rw [zpow_add₀ two_ne_zero]; norm_cast

/-- A magnitude rounded in a unit above the subnormals' has the leading bit of its significand. -/
theorem le_roundQuot_of_lt_rndUnit {f : Fmt} {n d : Nat} {e : Int} (mode : Nat) (neg : Bool) (hn : 0 < n) (hd : 0 < d)
    (h : f.emin - f.mbits < rndUnit f n d e) :
    2 ^ f.mbits ≤ roundQuot mode neg (inUnits n d e (rndUnit f n d e)).1 (inUnits n d e (rndUnit f n d e)).2 := by
  refine le_roundQuot_inUnits mode neg hd ?_
  have hexp : (f.mbits : Int) + rndUnit f n d e = floorLog2 n d e := by unfold rndUnit at h ⊢; omega
  calc ((2 ^ f.mbits : Nat) : ℚ) * 2 ^ rndUnit f n d e = 2 ^ floorLog2 n d e := by
        rw [← hexp, zpow_add₀ two_ne_zero]; norm_cast
    _ ≤ magnitude n d e := (floorLog2_bounds hn hd e).1

/-- A magnitude that, rounded in units of the last place of the largest finite value, exceeds that value reaches infinity's pattern. It is
not rounded in a smaller unit, for then it lies too low; in that unit the significand takes its pattern past the last one; and in a
greater unit the exponent does. -/
theorem infPat_le_rndMag {f : Fmt} {mode : Nat} {neg : Bool} {n d : Nat} {e : Int} (hebits : 2 ≤ f.ebits) (hn : 0 < n) (hd : 0 < d)
    (h : 2 ^ (f.mbits + 1) ≤ roundQuot mode neg (inUnits n d e f.maxUnit).1 (inUnits n d e f.maxUnit).2) :
    f.infPat false ≤ rndMag f mode neg n d e := by
  have hcodes : 2 ^ 2 ≤ 2 ^ f.ebits := Nat.pow_le_pow_right two_pos hebits
  have hmax : f.maxUnit - (f.emin - f.mbits) = (2 ^ f.ebits - 3 : Nat) := by
    unfold Fmt.maxUnit
    push_cast [show 3 ≤ 2 ^ f.ebits by omega]
    omega
  have hinf : f.infPat false = (2 ^ f.ebits - 3 + 2) * 2 ^ f.mbits := by
    rw [show 2 ^ f.ebits - 3 + 2 = 2 ^ f.ebits - 1 by omega]
    simp [Fmt.infPat, b2n]
  rw [hinf]
  rcases lt_trichotomy (rndUnit f n d e) f.maxUnit with hunit | hunit | hunit
  · have hle := h.trans (roundQuot_le_of_rndUnit_lt mode neg hn hd hunit)
    exact absurd hle (Nat.not_le.mpr (Nat.pow_lt_pow_succ one_lt_two))
  · rw [rndMag, hunit, hmax, Int.toNat_natCast, Nat.add_mul, ← pow_succ']
    exact Nat.add_le_add_left h _
  · have hlead := le_roundQuot_of_lt_rndUnit (f := f) (e := e) mode neg hn hd (by omega)
    have hexp : 2 ^ f.ebits - 3 + 1 ≤ (rndUnit f n d e - (f.emin - f.mbits)).toNat := by omega
    calc (2 ^ f.ebits - 3 + 2) * 2 ^ f.mbits = (2 ^ f.ebits - 3 + 1) * 2 ^ f.mbits + 2 ^ f.mbits := by ring
      _ ≤ rndMag f mode neg n d e := Nat.add_le_add (Nat.mul_le_mul_right _ hexp) hlead

end Sys2Proof.Machine
end

section
/-!
The obligation on special operands and on rounding (R34, R40, R91), assembled from an equation of each operation for each kind
of its operands.
-/
namespace Sys2Proof.Machine

/-! ## Kinds of values -/

namespace FVal
variable {x : FVal}

theorem isNan_of_isSig (h : x.isSig = true) : x.isNan = true := by cases x <;> simp_all [isSig, isNan]

theorem eq_inf_of_isInf (h : x.isInf = true) : x = .inf x.neg := by cases x <;> simp_all [isInf, neg]

theorem not_isNan_of_isInf (h : x.isInf = true) : ¬ x.isNan = true := by rw [eq_inf_of_isInf h]; exact Bool.false_ne_true

theorem not_isZero_of_isInf (h : x.isInf = true) : ¬ x.isZero = true := by rw [eq_inf_of_isInf h]; exact Bool.false_ne_true

theorem not_isNan_of_isZero (h : x.isZero = true) : ¬ x.isNan = true := by cases x <;> simp_all [isZero, isNan]

/-- The two factors are a zero and an infinity (R91). -/
def Invalid (x y : FVal) : Prop := x.isZero = true ∧ y.isInf = true ∨ x.isInf = true ∧ y.isZero = true

theorem Invalid.not_isNan {x y : FVal} (h : Invalid x y) : ¬ (x.isNan = true ∨ y.isNan = true) := by
  rcases h with ⟨hx, hy⟩ | ⟨hx, hy⟩
  · exact not_or.mpr ⟨not_isNan_of_isZero hx, not_isNan_of_isInf hy⟩
  · exact not_or.mpr ⟨not_isNan_of_isInf hx, not_isNan_of_isZero hy⟩

/-- An infinity times a value that is no zero is valid. -/
theorem not_invalid {x y : FVal} (h : x.isInf = true ∧ ¬ y.isZero = true ∨ y.isInf = true ∧ ¬ x.isZero = true) : ¬ Invalid x y := by
  rintro (⟨hx, hy⟩ | ⟨hx, hy⟩) <;> rcases h with ⟨h1, h2⟩ | ⟨h1, h2⟩
  · exact not_isZero_of_isInf h1 hx
  · exact h2 hx
  · exact h2 hy
  · exact not_isZero_of_isInf h1 hy

end FVal

/-- NV when an operand is a signalling NaN (R91). -/
def sigFlag (sig : Prop) [Decidable sig] : BitVec 5 := if sig then fNV else 0

theorem sigFlag_of {sig : Prop} [Decidable sig] (h : sig) : sigFlag sig = fNV := if_pos h

theorem sigFlag_of_not {sig : Prop} [Decidable sig] (h : ¬ sig) : sigFlag sig = 0 := if_neg h

theorem zeroSign_eq (mode : Nat) : zeroSign mode = decide (mode = 3) := beq_eq_decide ..

section
variable {f : Fmt} {mode a b c : Nat}

/-! ## Addition (R91) -/

theorem fAdd_of_nan (h : (f.unpack a).isNan = true ∨ (f.unpack b).isNan = true) :
    fAdd f mode a b = (f.nanPat, sigFlag ((f.unpack a).isSig = true ∨ (f.unpack b).isSig = true)) := by
  simp [fAdd, sigFlag, h]

theorem fAdd_of_infs {m n : Bool} (ha : f.unpack a = .inf m) (hb : f.unpack b = .inf n) :
    fAdd f mode a b = if m = n then (f.infPat m, 0) else (f.nanPat, fNV) := by
  simp [fAdd, ha, hb, FVal.isNan]

theorem fAdd_of_inf_left {m : Bool} (ha : f.unpack a = .inf m) (hnan : ¬ (f.unpack b).isNan = true) (hinf : ¬ (f.unpack b).isInf = true) :
    fAdd f mode a b = (f.infPat m, 0) := by
  simp only [fAdd, ha]
  cases hb : f.unpack b <;> simp_all [FVal.isNan, FVal.isInf]

theorem fAdd_of_inf_right {n : Bool} (hb : f.unpack b = .inf n) (hnan : ¬ (f.unpack a).isNan = true) (hinf : ¬ (f.unpack a).isInf = true) :
    fAdd f mode a b = (f.infPat n, 0) := by
  simp only [fAdd, hb]
  cases ha : f.unpack a <;> simp_all [FVal.isNan, FVal.isInf]

theorem fAdd_of_finite (hna : ¬ (f.unpack a).isNan = true) (hnb : ¬ (f.unpack b).isNan = true)
    (hia : ¬ (f.unpack a).isInf = true) (hib : ¬ (f.unpack b).isInf = true) :
    fAdd f mode a b = rndDy f mode (if (f.unpack a).neg = (f.unpack b).neg then (f.unpack a).neg else decide (mode = 3))
      ((f.unpack a).dy.add (f.unpack b).dy) := by
  simp only [fAdd, hna, hnb, Bool.or_self, Bool.false_eq_true, if_false]
  split
  case h_1 ha _ => exact absurd (ha ▸ rfl) hia
  case h_2 ha _ => exact absurd (ha ▸ rfl) hia
  case h_3 hb _ => exact absurd (hb ▸ rfl) hib
  case h_4 => simp only [beq_iff_eq, zeroSign_eq]

/-! ## Multiplication (R91) -/

theorem fMul_of_nan (h : (f.unpack a).isNan = true ∨ (f.unpack b).isNan = true) :
    fMul f mode a b = (f.nanPat, sigFlag ((f.unpack a).isSig = true ∨ (f.unpack b).isSig = true)) := by
  simp [fMul, sigFlag, h]

theorem fMul_of_invalid (h : FVal.Invalid (f.unpack a) (f.unpack b)) : fMul f mode a b = (f.nanPat, fNV) := by
  have hnan := h.not_isNan
  unfold FVal.Invalid at h
  simp [fMul, hnan, h.symm]

theorem fMul_of_inf (hna : ¬ (f.unpack a).isNan = true) (hnb : ¬ (f.unpack b).isNan = true)
    (hv : ¬ FVal.Invalid (f.unpack a) (f.unpack b)) (h : (f.unpack a).isInf = true ∨ (f.unpack b).isInf = true) :
    fMul f mode a b = (f.infPat ((f.unpack a).neg != (f.unpack b).neg), 0) := by
  rw [FVal.Invalid, or_comm] at hv
  simp [fMul, hna, hnb, hv, h]

theorem fMul_of_finite (hna : ¬ (f.unpack a).isNan = true) (hnb : ¬ (f.unpack b).isNan = true)
    (hia : ¬ (f.unpack a).isInf = true) (hib : ¬ (f.unpack b).isInf = true) :
    fMul f mode a b = rndDy f mode ((f.unpack a).neg != (f.unpack b).neg) ((f.unpack a).dy.mul (f.unpack b).dy) := by
  simp [fMul, hna, hnb, hia, hib]

/-! ## Multiply-add (R91) -/

theorem fFma_of_invalid (h : FVal.Invalid (f.unpack a) (f.unpack b)) : fFma f mode a b c = (f.nanPat, fNV) := by
  rw [FVal.Invalid, or_comm] at h
  simp only [fFma, Bool.or_eq_true, Bool.and_eq_true, if_pos h]
  split <;> rfl

theorem fFma_of_nan (hv : ¬ FVal.Invalid (f.unpack a) (f.unpack b))
    (h : (f.unpack a).isNan = true ∨ (f.unpack b).isNan = true ∨ (f.unpack c).isNan = true) :
    fFma f mode a b c
      = (f.nanPat, sigFlag ((f.unpack a).isSig = true ∨ (f.unpack b).isSig = true ∨ (f.unpack c).isSig = true)) := by
  rw [FVal.Invalid, or_comm] at hv
  simp [fFma, sigFlag, hv, h, or_assoc]

theorem fFma_of_inf (hna : ¬ (f.unpack a).isNan = true) (hnb : ¬ (f.unpack b).isNan = true) (hnc : ¬ (f.unpack c).isNan = true)
    (hv : ¬ FVal.Invalid (f.unpack a) (f.unpack b)) (h : (f.unpack a).isInf = true ∨ (f.unpack b).isInf = true) :
    fFma f mode a b c = if (f.unpack c).isInf = true ∧ (f.unpack c).neg ≠ ((f.unpack a).neg != (f.unpack b).neg) then (f.nanPat, fNV)
      else (f.infPat ((f.unpack a).neg != (f.unpack b).neg), 0) := by
  rw [FVal.Invalid, or_comm] at hv
  simp only [fFma, Bool.or_eq_true, Bool.and_eq_true, if_neg hv, hna, hnb, hnc, h, or_self, if_true]
  cases hc : f.unpack c <;> simp [FVal.isInf, FVal.neg]

theorem fFma_of_inf_addend (hna : ¬ (f.unpack a).isNan = true) (hnb : ¬ (f.unpack b).isNan = true) (hia : ¬ (f.unpack a).isInf = true)
    (hib : ¬ (f.unpack b).isInf = true) {n : Bool} (hc : f.unpack c = .inf n) : fFma f mode a b c = (f.infPat n, 0) := by
  have hnc : ¬ (f.unpack c).isNan = true := FVal.not_isNan_of_isInf (hc ▸ rfl)
  simp only [fFma, hna, hnb, hnc, hia, hib, Bool.or_self, Bool.false_and, Bool.and_false, Bool.false_eq_true, if_false]
  rw [hc]

theorem fFma_of_finite (hna : ¬ (f.unpack a).isNan = true) (hnb : ¬ (f.unpack b).isNan = true) (hnc : ¬ (f.unpack c).isNan = true)
    (hia : ¬ (f.unpack a).isInf = true) (hib : ¬ (f.unpack b).isInf = true) (hic : ¬ (f.unpack c).isInf = true) :
    fFma f mode a b c = rndDy f mode
      (if ((f.unpack a).neg != (f.unpack b).neg) = (f.unpack c).neg then (f.unpack c).neg else decide (mode = 3))
      (((f.unpack a).dy.mul (f.unpack b).dy).add (f.unpack c).dy) := by
  simp only [fFma, hna, hnb, hnc, hia, hib, Bool.or_self, Bool.false_and, Bool.and_false, Bool.false_eq_true, if_false]
  split
  case h_1 hc => exact absurd (hc ▸ rfl) hic
  case h_2 =>
    by_cases hneg : ((f.unpack a).neg != (f.unpack b).neg) = (f.unpack c).neg
    · rw [hneg, beq_self_eq_true, if_pos rfl, if_pos rfl]
    · rw [if_neg (by simpa using hneg), if_neg hneg, zeroSign_eq]

end

/-- Settles O15, from the operations' equations by the kind of their operands, what each mode gives of a quotient and its remainder, and the
pattern that a magnitude past the largest finite value reaches. -/
theorem specialOperandsAndRoundingOfFloats : Obligations.SpecialOperandsAndRoundingOfFloats := by
  unfold Obligations.SpecialOperandsAndRoundingOfFloats
  refine ⟨fun f mode a b d => ?operands, fun neg n d hd => ?neighbour, fun f hf mode neg n d e hmode hn hd => ?overflow⟩
  case operands =>
    refine ⟨fun h => ⟨?addSig, ?mulSig⟩, fun h => ?fmaSig, fun _ _ h => ⟨fMul_of_invalid h, fFma_of_invalid h⟩,
      fun hu hv h => ⟨?addQuiet, ?mulQuiet⟩, fun hu hv h => ?oppositeInfs, fun hu hv h => ?infLeft, fun hv hu h => ?infRight,
      fun hu hv h => fMul_of_inf hu hv (FVal.not_invalid h) (h.imp And.left And.left), fun hu hv hw h hvalid => ?fmaQuiet,
      fun hu hv hw h => fFma_of_inf hu hv hw (FVal.not_invalid h) (h.imp And.left And.left),
      fun hu hv hu' hv' hw => fFma_of_inf_addend hu hv hu' hv' (FVal.eq_inf_of_isInf hw),
      fun hu hv hu' hv' => ⟨fAdd_of_finite hu hv hu' hv', fMul_of_finite hu hv hu' hv', fun hw hw' => fFma_of_finite hu hv hw hu' hv' hw'⟩⟩
    case addSig => rw [fAdd_of_nan (h.imp FVal.isNan_of_isSig FVal.isNan_of_isSig), sigFlag_of h]
    case mulSig => rw [fMul_of_nan (h.imp FVal.isNan_of_isSig FVal.isNan_of_isSig), sigFlag_of h]
    case fmaSig =>
      by_cases hvalid : FVal.Invalid (f.unpack a) (f.unpack b)
      · exact fFma_of_invalid hvalid
      · rw [fFma_of_nan hvalid (h.imp FVal.isNan_of_isSig (Or.imp FVal.isNan_of_isSig FVal.isNan_of_isSig)), sigFlag_of h]
    case addQuiet => rw [fAdd_of_nan h, sigFlag_of_not (not_or.mpr ⟨hu, hv⟩)]
    case mulQuiet => rw [fMul_of_nan h, sigFlag_of_not (not_or.mpr ⟨hu, hv⟩)]
    case fmaQuiet => rw [fFma_of_nan hvalid h, sigFlag_of_not (not_or.mpr ⟨hu, not_or.mpr ⟨hv, hw⟩⟩)]
    case oppositeInfs => rw [fAdd_of_infs (FVal.eq_inf_of_isInf hu) (FVal.eq_inf_of_isInf hv), if_neg h]
    case infLeft =>
      by_cases hv' : (f.unpack b).isInf = true
      · rw [fAdd_of_infs (FVal.eq_inf_of_isInf hu) (FVal.eq_inf_of_isInf hv'), if_pos (h hv')]
      · exact fAdd_of_inf_left (FVal.eq_inf_of_isInf hu) hv hv'
    case infRight =>
      by_cases hu' : (f.unpack a).isInf = true
      · rw [fAdd_of_infs (FVal.eq_inf_of_isInf hu') (FVal.eq_inf_of_isInf hv), if_pos (h hu'), h hu']
      · exact fAdd_of_inf_right (FVal.eq_inf_of_isInf hv) hu hu'
  case neighbour =>
    have hmid := twice_add_eq_middle_add n d
    refine ⟨roundQuot_rz neg n d, roundQuot_ru neg hd, roundQuot_rd neg hd, fun h => ?below, fun h => ?above, fun h => ?tie⟩
    case below => rw [roundQuot_rne, if_neg (by omega)]
    case above => rw [roundQuot_rne, if_pos (by omega)]
    case tie =>
      rw [roundQuot_rne]
      split <;> omega
  case overflow =>
    have hebits : 2 ≤ f.ebits := by
      simp only [List.mem_cons, List.not_mem_nil, or_false] at hf
      rcases hf with rfl | rfl | rfl <;> decide
    exact fun h => rndQ_of_infPat_le hmode (infPat_le_rndMag hebits hn hd h)

end Sys2Proof.Machine
end

section
/-!
The obligation on conversions to an integer type (R38, R98).
-/
namespace Sys2Proof.Machine

/-! ## The value of a conversion (R38) -/

theorem Ty.minVal_le_zero (t : Ty) : Ty.minVal t ≤ 0 := by
  unfold Ty.minVal
  split
  · exact neg_nonpos.mpr (Int.natCast_nonneg _)
  · exact le_rfl

theorem Ty.zero_le_maxVal (t : Ty) : 0 ≤ Ty.maxVal t := by
  have hsigned : 0 < 2 ^ (t.width - 1) := by positivity
  have hunsigned : 0 < 2 ^ t.width := by positivity
  unfold Ty.maxVal
  split <;> omega

/-- The integer that ±m·2^e rounds to under a mode (R38). -/
def roundedInt (mode : Nat) (neg : Bool) (m : Nat) (e : Int) : Int :=
  if neg then -((rintQ mode neg m 1 e).1 : Int) else (rintQ mode neg m 1 e).1

section
variable {f : Fmt} {t : Ty} {mode p : Nat}

theorem fToInt_of_nan {sig : Bool} (h : f.unpack p = .nan sig) : fToInt f t mode p = (0, fNV) := by rw [fToInt, h]

theorem fToInt_of_inf {neg : Bool} (h : f.unpack p = .inf neg) :
    fToInt f t mode p = (if neg then Ty.minVal t else Ty.maxVal t, fNV) := by rw [fToInt, h]

theorem fToInt_of_zero {neg : Bool} (h : f.unpack p = .zero neg) : fToInt f t mode p = (0, 0) := by rw [fToInt, h]

theorem fToInt_of_fin {neg : Bool} {m : Nat} {e : Int} (h : f.unpack p = .fin neg m e) :
    fToInt f t mode p = if Ty.maxVal t < roundedInt mode neg m e then (Ty.maxVal t, fNV)
      else if roundedInt mode neg m e < Ty.minVal t then (Ty.minVal t, fNV)
      else (roundedInt mode neg m e, if (rintQ mode neg m 1 e).2 then fNX else 0) := by
  rw [fToInt, h]
  rfl

theorem fToInt_in_range (f : Fmt) (t : Ty) (mode p : Nat) :
    Ty.minVal t ≤ (fToInt f t mode p).1 ∧ (fToInt f t mode p).1 ≤ Ty.maxVal t := by
  have hmin := Ty.minVal_le_zero t
  have hmax := Ty.zero_le_maxVal t
  cases h : f.unpack p with
  | nan sig => rw [fToInt_of_nan h]; exact ⟨hmin, hmax⟩
  | inf neg =>
    rw [fToInt_of_inf h]
    cases neg
    · exact ⟨hmin.trans hmax, le_rfl⟩
    · exact ⟨le_rfl, hmin.trans hmax⟩
  | zero neg => rw [fToInt_of_zero h]; exact ⟨hmin, hmax⟩
  | fin neg m e =>
    rw [fToInt_of_fin h]
    by_cases habove : Ty.maxVal t < roundedInt mode neg m e
    · rw [if_pos habove]
      exact ⟨hmin.trans hmax, le_rfl⟩
    · rw [if_neg habove]
      by_cases hbelow : roundedInt mode neg m e < Ty.minVal t
      · rw [if_pos hbelow]
        exact ⟨le_rfl, hmin.trans hmax⟩
      · rw [if_neg hbelow]
        exact ⟨not_lt.mp hbelow, not_lt.mp habove⟩

end

/-! ## The instruction (R98) -/

/-- The format that MINOR names (R98). -/
theorem srcTy_minor (minor : BitVec 4) : srcTy minor.toNat = if minor = 0 then .f32 else if minor = 1 then .f16 else .bf16 := by
  revert minor
  decide

theorem exec_f2i (f : Fields) (s : State) : exec (.f2i f) s = execF2i f s := rfl

theorem f2i_effect (s : State) (f : Fields) {c p : Nat} {x : Pass} {ks : List Nat} {a : Nat → Nat} (h : Executes s c p x f.guard ks)
    (hk : ∀ k ∈ ks, (x.lane c k).check s [(pSA, .src false, f.sa), (pDST, .dst f.ty.isPair, f.dst)] = .ok ()
      ∧ (x.lane c k).readF s pSA f.sa (srcTy f.minor.toNat) = .ok (a k)) :
    let v := fun k => fToInt (srcTy f.minor.toNat).fmt f.ty f.md.toNat (a k)
    let out := fun k => (IntResult s f (x.lane c k) (wrap (v k).1 f.ty.width)).orFlags (v k).2
    Agree x.hdr ks out → ∃ t, exec (.f2i f) s = .next t ∧ LaneEffect s t c p x ks f.readsChannel out := by
  intro v out ha
  rw [exec_f2i]
  refine regOp_effect s f _ _ h (fun k hk' => ?_) ha
  obtain ⟨hcheck, hread⟩ := hk k hk'
  exact ⟨hcheck, by simp only [hread]; rfl⟩

/-- Settles O17, by the equation of each kind of value and the course of an instruction on registers. -/
theorem floatToIntegerConversionSaturates : Obligations.FloatToIntegerConversionSaturates := by
  unfold Obligations.FloatToIntegerConversionSaturates
  refine ⟨fun fmt ty mode a _ => ?value, fun f s c p x ks a h _ hk => ?effect⟩
  case value =>
    obtain ⟨hlo, hhi⟩ := fToInt_in_range fmt ty mode a
    refine ⟨hlo, hhi, fun _ => fToInt_of_nan, fun _ => fToInt_of_inf, fun _ => fToInt_of_zero, fun neg m e hfin => ?finite⟩
    case finite =>
      have hrange := (Ty.minVal_le_zero ty).trans (Ty.zero_le_maxVal ty)
      rw [fToInt_of_fin hfin]
      refine ⟨fun (habove : _ < roundedInt mode neg m e) => ?_, fun (hbelow : roundedInt mode neg m e < _) => ?_,
        fun (hlow : _ ≤ roundedInt mode neg m e) (hhigh : roundedInt mode neg m e ≤ _) => ?_⟩
      · rw [if_pos habove]
      · rw [if_neg (not_lt.mpr (hbelow.le.trans hrange)), if_pos hbelow]
      · rw [if_neg (not_lt.mpr hhigh), if_neg (not_lt.mpr hlow)]
        rfl
  case effect =>
    rw [← srcTy_minor] at hk ⊢
    exact f2i_effect s f h hk

end Sys2Proof.Machine
end

section
/-!
The obligation on the words written out in the spec (R52, R64, R364).
-/
namespace Sys2Proof

/-- Settles O3: each instruction is well-formed, and the word that the spec writes out is its encoding, which decodes back to it. -/
theorem specWordsDecode : Obligations.SpecWordsDecode := by
  unfold Obligations.SpecWordsDecode
  refine ⟨decodeRaw_encodeRaw ?iaddWf ?iaddWord, decodeRaw_encodeRaw ?moviWf ?moviWord, decodeRaw_encodeRaw ?nopWf ?nopWord,
    decodeAmz_encodeAmz ?qfetchWord, decodeAmz_encodeAmz ?dispatchWord⟩
  case iaddWf | moviWf | nopWf => decide
  case iaddWord | moviWord | nopWord => decide
  case qfetchWord | dispatchWord => decide

end Sys2Proof
end

section
/-!
The obligation on the one- and two-source integer and logic instructions (R74, R78, R79, R86).
-/
namespace Sys2Proof.Machine

/-- An instruction of one integer source gives each lane's destination the pattern that a relation fixes, and changes nothing else. -/
def UnaryGives (ins : Fields → Instr) (rel : Fields → Nat → Nat → Prop) : Prop :=
  ∀ (f : Fields) (s : State) (c p : Nat) (x : Pass) (ks : List Nat) (a r : Nat → Nat), Executes s c p x f.guard ks →
    (∀ k ∈ ks, AdmitsUn s f (x.lane c k) ∧ ReadsA s f (x.lane c k) (a k) ∧ rel f (a k) (r k)) →
    Agree x.hdr ks (fun k => IntResult s f (x.lane c k) (r k)) →
    ∃ t, exec (ins f) s = .next t ∧ LaneEffect s t c p x ks f.readsChannel (fun k => IntResult s f (x.lane c k) (r k))

/-- An instruction of two integer sources gives each lane's destination the pattern that a relation fixes, and changes nothing else. -/
def BinaryGives (ins : Fields → Instr) (rel : Fields → Nat → Nat → Nat → Prop) : Prop :=
  ∀ (f : Fields) (s : State) (c p : Nat) (x : Pass) (ks : List Nat) (a b r : Nat → Nat), Executes s c p x f.guard ks →
    (∀ k ∈ ks, AdmitsBin s f (x.lane c k) ∧ ReadsA s f (x.lane c k) (a k) ∧ ReadsB s f (x.lane c k) (b k)
      ∧ rel f (a k) (b k) (r k)) →
    Agree x.hdr ks (fun k => IntResult s f (x.lane c k) (r k)) →
    ∃ t, exec (ins f) s = .next t ∧ LaneEffect s t c p x ks f.readsChannel (fun k => IntResult s f (x.lane c k) (r k))

theorem unaryGives {ins : Fields → Instr} {op : Fields → Nat → Nat} {rel : Fields → Nat → Nat → Prop}
    (hins : ∀ f s, exec (ins f) s = intUn s f (op f)) (hop : ∀ f a r, a < 2 ^ f.ty.width → rel f a r → r = op f a) :
    UnaryGives ins rel := by
  intro f s c p x ks a r h hk ha
  rw [hins]
  refine intUn_effect s f (op f) (a := a) h (fun k hmem => ?_) ha
  obtain ⟨hadmits, hread, hrel⟩ := hk k hmem
  exact ⟨hadmits, hread, hop f (a k) (r k) (Lane.readInt_lt hread) hrel⟩

theorem binaryGives {ins : Fields → Instr} {op : Fields → Nat → Nat → Nat} {rel : Fields → Nat → Nat → Nat → Prop}
    (hins : ∀ f s, exec (ins f) s = intBin s f (op f))
    (hop : ∀ f a b r, a < 2 ^ f.ty.width → b < 2 ^ f.ty.width → rel f a b r → r = op f a b) : BinaryGives ins rel := by
  intro f s c p x ks a b r h hk ha
  rw [hins]
  refine intBin_effect s f (op f) (a := a) (b := b) h (fun k hmem => ?_) ha
  obtain ⟨hadmits, hreadA, hreadB, hrel⟩ := hk k hmem
  exact ⟨hadmits, hreadA, hreadB, hop f (a k) (b k) (r k) (Lane.readInt_lt hreadA) (Lane.readIntI_lt hreadB) hrel⟩

/-! ## Bits -/

theorem bitOf_and (a b i : Nat) : bitOf (a &&& b) i = (bitOf a i && bitOf b i) := by
  simp only [bitOf_eq, Nat.testBit_and]

theorem bitOf_or (a b i : Nat) : bitOf (a ||| b) i = (bitOf a i || bitOf b i) := by
  simp only [bitOf_eq, Nat.testBit_or]

theorem bitOf_xor (a b i : Nat) : bitOf (a ^^^ b) i = (bitOf a i != bitOf b i) := by
  simp only [bitOf_eq, Nat.testBit_xor]

theorem bitOf_eq_decide_le {x n : Nat} (h : x < 2 ^ (n + 1)) : bitOf x n = decide (2 ^ n ≤ x) := by
  rw [bitOf_eq, Nat.testBit_eq_decide_div_mod_eq]
  rw [Nat.pow_succ] at h
  by_cases hle : 2 ^ n ≤ x
  · have : x / 2 ^ n = 1 := Nat.div_eq_of_lt_le (by omega) (by omega)
    simp [this, hle]
  · simp [Nat.div_eq_of_lt (not_le.mp hle), hle]

/-- The low r bits of a multiple of 2^r are 0. -/
theorem bitOf_of_mod_two_pow_eq_zero {a r : Nat} (h : a % 2 ^ r = 0) {i : Nat} (hi : i < r) : bitOf a i = false := by
  have := Nat.testBit_mod_two_pow a r i
  rw [h, Nat.zero_testBit] at this
  rw [bitOf_eq]
  simpa [hi] using this.symm

theorem popCount_eq_countP (a n : Nat) : popCount a n = (List.range n).countP (fun i => bitOf a i) := by
  induction n with
  | zero => rfl
  | succ n ih =>
    rw [List.range_succ, List.countP_append, ← ih, popCount, List.countP_singleton, b2n]

/-- The count of leading zeros is known by the two powers of two between which the number lies. -/
theorem leadZeros_unique {a n r : Nat} (hr : r ≤ n) (hlt : a < 2 ^ (n - r)) (hle : r < n → 2 ^ (n - r - 1) ≤ a) :
    r = leadZeros a n := by
  induction n generalizing r with
  | zero => exact Nat.le_zero.mp hr
  | succ n ih =>
    have ha : a < 2 ^ (n + 1) := hlt.trans_le (Nat.pow_le_pow_right (by decide) (Nat.sub_le ..))
    rw [leadZeros, bitOf_eq_decide_le ha]
    by_cases htop : 2 ^ n ≤ a
    · simp only [htop, decide_true, if_true]
      have := (Nat.pow_lt_pow_iff_right (by decide : 1 < 2)).mp (htop.trans_lt hlt)
      omega
    · simp only [htop, decide_false, Bool.false_eq_true, if_false]
      obtain _ | r := r
      · exact absurd (hle (Nat.succ_pos n)) htop
      · rw [Nat.add_sub_add_right] at hlt hle
        exact congrArg (· + 1) (ih (Nat.le_of_succ_le_succ hr) hlt (fun h => hle (Nat.succ_lt_succ h)))

/-- The count of trailing zeros from a bit on is known by the first bit that is 1. -/
theorem trailZeros_unique {a k n r : Nat} (hr : r ≤ n) (hzero : ∀ i < r, bitOf a (k + i) = false)
    (hone : r < n → bitOf a (k + r) = true) : r = trailZeros a k n := by
  induction n generalizing k r with
  | zero => exact Nat.le_zero.mp hr
  | succ n ih =>
    rw [trailZeros]
    obtain _ | r := r
    · rw [if_pos (show bitOf a k = true from hone (Nat.succ_pos n))]
    · rw [if_neg (by simp [show bitOf a k = false from hzero 0 (Nat.succ_pos r)])]
      have hstep : ∀ i, k + 1 + i = k + (i + 1) := fun i => by omega
      refine congrArg (· + 1) (ih (Nat.le_of_succ_le_succ hr) (fun i hi => ?_) (fun h => ?_))
      · rw [hstep]; exact hzero _ (Nat.succ_lt_succ hi)
      · rw [hstep]; exact hone (Nat.succ_lt_succ h)

/-- Settles O7: each relation fixes the pattern that the model computes. -/
theorem oneAndTwoSourceIntegerResults : Obligations.OneAndTwoSourceIntegerResults := by
  unfold Obligations.OneAndTwoSourceIntegerResults
  change (∀ e : (Fields → Instr) × (Fields → Nat → Nat → Prop), e ∈ _ → UnaryGives e.1 e.2)
    ∧ ∀ e : (Fields → Instr) × (Fields → Nat → Nat → Nat → Prop), e ∈ _ → BinaryGives e.1 e.2
  simp only [List.forall_mem_cons, List.not_mem_nil, false_imp_iff, forall_const, and_true]
  refine ⟨⟨?iabs, ?ineg, ?mov, ?popc, ?clz, ?ctz, ?brev⟩, ?iadd, ?isub, ?imul, ?imulh, ?imin, ?imax, ?and, ?or, ?xor, ?andn⟩
  case iabs | ineg | mov => exact unaryGives (fun _ _ => rfl) (fun _ _ _ _ h => h)
  case popc => exact unaryGives (fun _ _ => rfl) (fun _ _ _ _ h => h.trans (popCount_eq_countP _ _).symm)
  case clz => exact unaryGives (fun _ _ => rfl) (fun _ _ _ _ ⟨hr, hlt, hle⟩ => leadZeros_unique hr hlt hle)
  case ctz =>
    refine unaryGives (fun _ _ => rfl) (fun f a r _ ⟨hr, hzero, hone⟩ => trailZeros_unique hr (fun i hi => ?_) (fun h => ?_))
    · rw [Nat.zero_add]; exact bitOf_of_mod_two_pow_eq_zero hzero hi
    · rw [Nat.zero_add]; exact hone h
  case brev =>
    refine unaryGives (fun _ _ => rfl) (fun f a r _ ⟨hr, hbits⟩ => eq_of_bits hr (natOfBits_lt _ _) (fun i hi => ?_))
    simp only [hbits i hi, bitOf_natOfBits, hi, decide_true, Bool.true_and]
  case iadd | isub | imul | imulh => exact binaryGives (fun _ _ => rfl) (fun _ _ _ _ _ _ h => h)
  case imin | imax =>
    refine binaryGives (fun _ _ => rfl) (fun f a b r _ _ h => h.trans ?_)
    simp only [← not_lt, ite_not]
  case and =>
    exact binaryGives (fun _ _ => rfl) (fun f a b r _ hb ⟨hr, hbits⟩ =>
      eq_of_bits hr (Nat.and_lt_two_pow a hb) (fun i hi => (hbits i hi).trans (bitOf_and a b i).symm))
  case or =>
    exact binaryGives (fun _ _ => rfl) (fun f a b r ha hb ⟨hr, hbits⟩ =>
      eq_of_bits hr (Nat.or_lt_two_pow ha hb) (fun i hi => (hbits i hi).trans (bitOf_or a b i).symm))
  case xor =>
    exact binaryGives (fun _ _ => rfl) (fun f a b r ha hb ⟨hr, hbits⟩ =>
      eq_of_bits hr (Nat.xor_lt_two_pow ha hb) (fun i hi => (hbits i hi).trans (bitOf_xor a b i).symm))
  case andn =>
    refine binaryGives (fun _ _ => rfl) (fun f a b r ha hb ⟨hr, hbits⟩ =>
      eq_of_bits hr (Nat.xor_lt_two_pow ha (Nat.and_lt_two_pow a hb)) (fun i hi => (hbits i hi).trans ?_))
    rw [bitOf_xor, bitOf_and]
    cases bitOf a i <;> cases bitOf b i <;> rfl

end Sys2Proof.Machine
end

section
/-!
The obligation on shifts and rotates (R77).
-/
namespace Sys2Proof.Machine

/-- A shift gives each lane's destination the pattern that a relation fixes, for the amount of R77. -/
def ShiftGives (ins : Fields → Instr) (rel : Fields → Nat → Nat → Nat → Prop) : Prop :=
  ∀ (f : Fields) (s : State) (c p : Nat) (x : Pass) (ks : List Nat) (a n r : Nat → Nat), Executes s c p x f.guard ks →
    (∀ k ∈ ks, AdmitsBin s f (x.lane c k) ∧ ReadsA s f (x.lane c k) (a k) ∧ ShiftAmount s f (x.lane c k) (n k)
      ∧ rel f (a k) (n k) (r k)) →
    Agree x.hdr ks (fun k => IntResult s f (x.lane c k) (r k)) →
    ∃ t, exec (ins f) s = .next t ∧ LaneEffect s t c p x ks f.readsChannel (fun k => IntResult s f (x.lane c k) (r k))

theorem shiftGives {ins : Fields → Instr} {op : Fields → Nat → Nat → Nat} {rel : Fields → Nat → Nat → Nat → Prop}
    (hins : ∀ f s, exec (ins f) s = shiftIns s f (op f)) (hop : ∀ f a n r, a < 2 ^ f.ty.width → rel f a n r → r = op f a n) :
    ShiftGives ins rel := by
  intro f s c p x ks a n r h hk ha
  rw [hins]
  refine shiftIns_effect s f (op f) (a := a) (n := n) h (fun k hmem => ?_) ha
  obtain ⟨hadmits, hread, hamount, hrel⟩ := hk k hmem
  exact ⟨hadmits, hread, hamount, hop f (a k) (n k) (r k) (Lane.readInt_lt hread) hrel⟩

/-! ## Amounts past the width

The model cuts an amount at 128. Past the width of the type an amount makes no difference any more, so the cut changes no result. -/

section
variable {w n : Nat}

theorem one_le_two_pow_int (n : Nat) : (1 : Int) ≤ ((2 ^ n : Nat) : Int) := by exact_mod_cast Nat.one_le_two_pow

theorem two_pow_int_mono {m n : Nat} (h : m ≤ n) : ((2 ^ m : Nat) : Int) ≤ ((2 ^ n : Nat) : Int) := by
  exact_mod_cast Nat.pow_le_pow_right (by decide) h

theorem wrap_mul_two_pow (v : Int) (h : w ≤ n) : wrap (v * ((2 ^ n : Nat) : Int)) w = 0 := by
  have hdvd : ((2 ^ w : Nat) : Int) ∣ v * ((2 ^ n : Nat) : Int) :=
    Dvd.dvd.mul_left (by exact_mod_cast pow_dvd_pow 2 h) v
  rw [wrap, Int.emod_eq_zero_of_dvd hdvd]
  rfl

/-- Clamping to a range around 0 gives a bound for every value other than 0 that is scaled past the range. -/
theorem clamp_mul_of_bounds_le {lo hi m : Int} (v : Int) (hlo : -m ≤ lo) (hlo0 : lo ≤ 0) (hhi : hi ≤ m) (hhi0 : 0 ≤ hi) :
    min (max (v * m) lo) hi = if v = 0 then 0 else if v < 0 then lo else hi := by
  rcases lt_trichotomy v 0 with hv | rfl | hv
  · have : v * m ≤ -m := by nlinarith
    rw [if_neg hv.ne, if_pos hv]
    omega
  · rw [zero_mul, if_pos rfl]
    omega
  · have : m ≤ v * m := by nlinarith
    rw [if_neg hv.ne', if_neg (not_lt.mpr hv.le)]
    omega

theorem sats_mul_two_pow (v : Int) (h : w ≤ n) : sats (v * ((2 ^ n : Nat) : Int)) w
    = if v = 0 then 0 else if v < 0 then -((2 ^ (w - 1) : Nat) : Int) else ((2 ^ (w - 1) : Nat) : Int) - 1 := by
  have hone := one_le_two_pow_int (w - 1)
  have hle : ((2 ^ (w - 1) : Nat) : Int) ≤ ((2 ^ n : Nat) : Int) := two_pow_int_mono (by omega)
  exact clamp_mul_of_bounds_le v (by omega) (by omega) (by omega) (by omega)

theorem satu_mul_two_pow (v : Int) (h : w ≤ n) : satu (v * ((2 ^ n : Nat) : Int)) w
    = if v = 0 then 0 else if v < 0 then 0 else ((2 ^ w : Nat) : Int) - 1 := by
  have hone := one_le_two_pow_int w
  have hle := two_pow_int_mono h
  exact clamp_mul_of_bounds_le v (by omega) (by omega) (by omega) (by omega)

theorem applyMode_mul_two_pow_congr {m : Nat} (md : Nat) (v : Int) (hm : w ≤ m) (hn : w ≤ n) :
    applyMode md w (v * ((2 ^ m : Nat) : Int)) = applyMode md w (v * ((2 ^ n : Nat) : Int)) := by
  unfold applyMode
  split
  · rw [wrap_mul_two_pow v hm, wrap_mul_two_pow v hn]
  · rw [sats_mul_two_pow v hm, sats_mul_two_pow v hn]
  · rw [satu_mul_two_pow v hm, satu_mul_two_pow v hn]

theorem div_two_pow_of_le {a : Nat} (ha : a < 2 ^ w) (h : w ≤ n) : a / 2 ^ n = 0 :=
  Nat.div_eq_of_lt (ha.trans_le (Nat.pow_le_pow_right (by decide) h))

theorem sx_lt_and_neg_le (a w : Nat) : sx a w < ((2 ^ w : Nat) : Int) ∧ -((2 ^ w : Nat) : Int) ≤ sx a w := by
  have := Nat.mod_lt a (Nat.two_pow_pos w)
  simp only [sx]
  split <;> omega

theorem sx_div_two_pow (a : Nat) (h : w ≤ n) : sx a w / ((2 ^ n : Nat) : Int) = if sx a w < 0 then -1 else 0 := by
  obtain ⟨hlt, hge⟩ := sx_lt_and_neg_le a w
  have hle := two_pow_int_mono h
  split
  · exact Int.ediv_eq_neg_one_of_neg_of_le (by omega) (by omega)
  · exact Int.ediv_eq_zero_of_lt (by omega) (by omega)

/-- What an amount past the width of a type does not change is the same for an amount cut at 128. -/
theorem eq_at_min_128 {α : Type} {g : Nat → α} (hw : w ≤ 64) (h : ∀ m n, w ≤ m → w ≤ n → g m = g n) (n : Nat) :
    g n = g (min n 128) := by
  rcases Nat.le_total n 128 with hn | hn
  · rw [min_eq_left hn]
  · rw [min_eq_right hn]
    exact h n 128 (by omega) (by omega)
end

/-! ## Rotation -/

/-- `rotl` of a w-bit pattern by k bits, as the model computes it. -/
def rotated (a w k : Nat) : Nat := a * 2 ^ k % 2 ^ w + a / 2 ^ (w - k)

theorem rotated_eq {a w k : Nat} (hk : k ≤ w) : rotated a w k = 2 ^ k * (a % 2 ^ (w - k)) + a / 2 ^ (w - k) := by
  rw [rotated, mul_comm (2 ^ k), ← Nat.mul_mod_mul_right, ← pow_add, Nat.sub_add_cancel hk]

theorem div_two_pow_sub_lt {a w k : Nat} (ha : a < 2 ^ w) (hk : k ≤ w) : a / 2 ^ (w - k) < 2 ^ k := by
  rw [Nat.div_lt_iff_lt_mul (Nat.two_pow_pos _), ← pow_add, Nat.add_sub_cancel' hk]
  exact ha

theorem rotated_lt {a w k : Nat} (ha : a < 2 ^ w) (hk : k ≤ w) : rotated a w k < 2 ^ w := by
  have hhigh := Nat.mod_lt a (Nat.two_pow_pos (w - k))
  have hlow := div_two_pow_sub_lt ha hk
  calc rotated a w k < 2 ^ k * (a % 2 ^ (w - k)) + 2 ^ k := by rw [rotated_eq hk]; omega
    _ = 2 ^ k * (a % 2 ^ (w - k) + 1) := by rw [mul_add_one]
    _ ≤ 2 ^ k * 2 ^ (w - k) := Nat.mul_le_mul_left _ hhigh
    _ = 2 ^ w := by rw [← pow_add, Nat.add_sub_cancel' hk]

/-- Bit i of the pattern is bit i + k of the rotated one, modulo the width. -/
theorem bitOf_rotated {a w k i : Nat} (ha : a < 2 ^ w) (hk : k < w) (hi : i < w) :
    bitOf (rotated a w k) ((i + k) % w) = bitOf a i := by
  rw [rotated_eq hk.le, bitOf_eq, Nat.testBit_two_pow_mul_add _ (div_two_pow_sub_lt ha hk.le), bitOf_eq]
  by_cases hwraps : w ≤ i + k
  · have hpos : (i + k) % w = i + k - w := by rw [Nat.mod_eq_sub_mod hwraps, Nat.mod_eq_of_lt (by omega)]
    rw [hpos, if_pos (by omega), Nat.testBit_div_two_pow]
    congr 1
    omega
  · rw [Nat.mod_eq_of_lt (by omega), if_neg (by omega), Nat.add_sub_cancel, Nat.testBit_mod_two_pow]
    simp only [show i < w - k by omega, decide_true, Bool.true_and]

/-- Every bit number below the width is that of a rotated bit. -/
theorem exists_add_mod_eq {w j : Nat} (n : Nat) (hj : j < w) : ∃ i < w, (i + n) % w = j := by
  have hn : n % w < w := Nat.mod_lt n (by omega)
  simp only [← Nat.add_mod_mod _ n]
  by_cases hle : n % w ≤ j
  · exact ⟨j - n % w, by omega, by rw [Nat.sub_add_cancel hle, Nat.mod_eq_of_lt hj]⟩
  · exact ⟨j + w - n % w, by omega, by rw [Nat.sub_add_cancel (by omega), Nat.add_mod_right, Nat.mod_eq_of_lt hj]⟩

theorem eq_rotated_of_bits {a w n r : Nat} (hw : 0 < w) (ha : a < 2 ^ w) (hr : r < 2 ^ w)
    (hbits : ∀ i < w, bitOf r ((i + n) % w) = bitOf a i) : r = rotated a w (n % w) := by
  have hk := Nat.mod_lt n hw
  refine eq_of_bits hr (rotated_lt ha hk.le) (fun j hj => ?_)
  obtain ⟨i, hi, rfl⟩ := exists_add_mod_eq n hj
  rw [hbits i hi, Nat.add_mod_eq_add_mod_left i (Nat.mod_mod n w).symm, bitOf_rotated ha hk hi]

/-- Settles O8: an amount past the width gives what the width gives, and a rotation moves each bit. -/
theorem shiftResults : Obligations.ShiftResults := by
  unfold Obligations.ShiftResults
  change ∀ e : (Fields → Instr) × (Fields → Nat → Nat → Nat → Prop), e ∈ _ → ShiftGives e.1 e.2
  simp only [List.forall_mem_cons, List.not_mem_nil, false_imp_iff, forall_const, and_true]
  refine ⟨?shl, ?shr, ?sar, ?rotl⟩
  case shl =>
    refine shiftGives (op := fun f a n => applyMode f.md.toNat f.ty.width (f.ty.val a * ((2 ^ min n 128 : Nat) : Int))) (fun _ _ => rfl)
      (fun f a n r _ h => h.trans ?_)
    exact eq_at_min_128 (g := fun n => applyMode f.md.toNat f.ty.width (f.ty.val a * ((2 ^ n : Nat) : Int))) f.ty.width_le
      (fun _ _ hm hn => applyMode_mul_two_pow_congr _ _ hm hn) n
  case shr =>
    refine shiftGives (op := fun _ a n => a / 2 ^ min n 128) (fun _ _ => rfl) (fun f a n r ha h => h.trans ?_)
    exact eq_at_min_128 (g := fun n => a / 2 ^ n) f.ty.width_le
      (fun _ _ hm hn => (div_two_pow_of_le ha hm).trans (div_two_pow_of_le ha hn).symm) n
  case sar =>
    refine shiftGives (op := fun f a n => wrap (sx a f.ty.width / ((2 ^ min n 128 : Nat) : Int)) f.ty.width) (fun _ _ => rfl)
      (fun f a n r _ h => h.trans ?_)
    exact eq_at_min_128 (g := fun n => wrap (sx a f.ty.width / ((2 ^ n : Nat) : Int)) f.ty.width) f.ty.width_le
      (fun _ _ hm hn => by rw [sx_div_two_pow a hm, sx_div_two_pow a hn]) n
  case rotl =>
    exact shiftGives (op := fun f a n => rotated a f.ty.width (n % f.ty.width)) (fun _ _ => rfl)
      (fun f a n r ha ⟨hr, hbits⟩ => eq_rotated_of_bits f.ty.width_pos ha hr hbits)

end Sys2Proof.Machine
end

section
/-!
The obligation on the three-source integer and the bit-field instructions (R74, R78, R80, R81).
-/
namespace Sys2Proof.Machine

/-- An instruction of three integer sources, IMM32 standing for SC, gives each lane's destination the pattern that a relation fixes, and
changes nothing else. -/
def TernaryGives (ins : Fields → Instr) (rel : Fields → Nat → Nat → Nat → Nat → Prop) : Prop :=
  ∀ (f : Fields) (s : State) (c p : Nat) (x : Pass) (ks : List Nat) (a b d r : Nat → Nat), Executes s c p x f.guard ks →
    (∀ k ∈ ks, AdmitsTriC s f (x.lane c k) ∧ ReadsA s f (x.lane c k) (a k)
      ∧ (x.lane c k).readInt s pSB f.sb f.ty = .ok (b k)
      ∧ (x.lane c k).readIntI s pSC f.sc f.ty f.imm = .ok (d k) ∧ rel f (a k) (b k) (d k) (r k)) →
    Agree x.hdr ks (fun k => IntResult s f (x.lane c k) (r k)) →
    ∃ t, exec (ins f) s = .next t ∧ LaneEffect s t c p x ks f.readsChannel (fun k => IntResult s f (x.lane c k) (r k))

theorem ternaryGives {ins : Fields → Instr} {op : Fields → Nat → Nat → Nat → Nat} {rel : Fields → Nat → Nat → Nat → Nat → Prop}
    (hins : ∀ f s, exec (ins f) s = intTriC s f (op f))
    (hop : ∀ f a b d r, a < 2 ^ f.ty.width → b < 2 ^ f.ty.width → d < 2 ^ f.ty.width → rel f a b d r → r = op f a b d) :
    TernaryGives ins rel := by
  intro f s c p x ks a b d r h hk ha
  rw [hins]
  refine intTriC_effect s f (op f) (a := a) (b := b) (d := d) h (fun k hmem => ?_) ha
  obtain ⟨hadmits, hreadA, hreadB, hreadC, hrel⟩ := hk k hmem
  exact ⟨hadmits, hreadA, hreadB, hreadC,
    hop f (a k) (b k) (d k) (r k) (Lane.readInt_lt hreadA) (Lane.readInt_lt hreadB) (Lane.readIntI_lt hreadC) hrel⟩

/-! ## Clamp (R74) -/

/-- min(max(a, b), c) of values, as the model chooses among patterns. -/
def clamped (ty : Ty) (a b d : Nat) : Nat :=
  let m := if ty.val a < ty.val b then b else a
  if ty.val d < ty.val m then d else m

theorem val_clamped (ty : Ty) (a b d : Nat) : ty.val (clamped ty a b d) = min (max (ty.val a) (ty.val b)) (ty.val d) := by
  simp only [clamped, apply_ite ty.val]
  split_ifs <;> omega

theorem clamped_lt {ty : Ty} {a b d m : Nat} (ha : a < m) (hb : b < m) (hd : d < m) : clamped ty a b d < m := by
  simp only [clamped]
  split_ifs <;> assumption

/-! ## Byte permute (R81) -/

theorem byte_of_pair {a : Nat} (b : Nat) (ha : a < 2 ^ 32) {m : Nat} (hm : m < 8) :
    (a + 2 ^ 32 * b) / 2 ^ (8 * m) % 256 = (if m < 4 then a / 2 ^ (8 * m) else b / 2 ^ (8 * (m - 4))) % 256 := by
  interval_cases m <;> simp only [Nat.reduceMul, Nat.reducePow, Nat.reduceLT, Nat.reduceSub, if_true, if_false] <;> omega

/-- The result of a `bperm`, as the model joins its bytes. -/
def permuted (a b d : Nat) : Nat :=
  let src := a + 2 ^ 32 * b
  bpermByte src d 0 + 2 ^ 8 * bpermByte src d 1 + 2 ^ 16 * bpermByte src d 2 + 2 ^ 24 * bpermByte src d 3

/-- A byte of a `bperm`, by its selector and the byte of SA or SB that the selector names. -/
theorem bpermByte_eq {a : Nat} (b d j : Nat) (ha : a < 2 ^ 32) :
    bpermByte (a + 2 ^ 32 * b) d j =
      let sel := d / 2 ^ (4 * j) % 16
      let y := (if sel % 8 < 4 then a / 2 ^ (8 * (sel % 8)) else b / 2 ^ (8 * (sel % 8 - 4))) % 256
      if sel < 8 then y else if 128 ≤ y then 255 else 0 := by
  simp only [bpermByte, byte_of_pair b ha (Nat.mod_lt _ (by decide : 0 < 8))]

/-- A 32-bit word is known by its four bytes. -/
theorem eq_of_bytes {r : Nat} {y : Nat → Nat} (hr : r < 2 ^ 32) (h : ∀ j < 4, r / 2 ^ (8 * j) % 256 = y j) :
    r = y 0 + 2 ^ 8 * y 1 + 2 ^ 16 * y 2 + 2 ^ 24 * y 3 := by
  have h0 := h 0 (by decide)
  have h1 := h 1 (by decide)
  have h2 := h 2 (by decide)
  have h3 := h 3 (by decide)
  omega

/-! ## Bit fields (R80, R81) -/

theorem bitOf_two_pow_mul_add {b n : Nat} (a : Nat) (hb : b < 2 ^ n) (i : Nat) :
    bitOf (2 ^ n * a + b) i = if i < n then bitOf b i else bitOf a (i - n) := by
  simp only [bitOf_eq, Nat.testBit_two_pow_mul_add a hb]

theorem bitOf_mod_two_pow (a n i : Nat) : bitOf (a % 2 ^ n) i = (decide (i < n) && bitOf a i) := by
  simp only [bitOf_eq, Nat.testBit_mod_two_pow]

theorem bitOf_div_two_pow (a n i : Nat) : bitOf (a / 2 ^ n) i = bitOf a (i + n) := by
  simp only [bitOf_eq, Nat.testBit_div_two_pow]

theorem bitOf_of_lt {a w i : Nat} (ha : a < 2 ^ w) (hi : w ≤ i) : bitOf a i = false := by
  rw [bitOf_eq]
  exact Nat.testBit_lt_two_pow (ha.trans_le (Nat.pow_le_pow_right (by decide) hi))

theorem wrap_natCast {x w : Nat} (h : x < 2 ^ w) : wrap (x : Int) w = x := by
  rw [wrap, ← Int.natCast_emod, Nat.mod_eq_of_lt h]
  rfl

/-- A value below 0 wraps to what lies one period above it. -/
theorem wrap_eq_of_add {v : Int} {m w : Nat} (h : v + ((2 ^ w : Nat) : Int) = m) (hm : m < 2 ^ w) : wrap v w = m := by
  rw [wrap, ← Int.add_emod_right, h, ← wrap, wrap_natCast hm]

/-- Sign extension repeats the top bit (R28). -/
theorem bitOf_wrap_sx {x n w i : Nat} (hn : 0 < n) (hnw : n ≤ w) (hx : x < 2 ^ n) (hi : i < w) :
    bitOf (wrap (sx x n) w) i = if i < n then bitOf x i else bitOf x (n - 1) := by
  have hpow : 2 ^ n = 2 * 2 ^ (n - 1) := by rw [← pow_succ', Nat.sub_add_cancel hn]
  have htop : bitOf x (n - 1) = decide (2 ^ (n - 1) ≤ x) := bitOf_eq_decide_le (by rwa [Nat.sub_add_cancel hn])
  have hle : 2 ^ n ≤ 2 ^ w := Nat.pow_le_pow_right (by decide) hnw
  simp only [sx, Nat.mod_eq_of_lt hx, htop]
  by_cases hneg : 2 ^ (n - 1) ≤ x
  · have hwrap : wrap ((x : Int) - ((2 ^ n : Nat) : Int)) w = 2 ^ w - 2 ^ n + x := wrap_eq_of_add (by omega) (by omega)
    have hones : 2 ^ w - 2 ^ n = 2 ^ n * (2 ^ (w - n) - 1) := by rw [Nat.mul_sub_one, ← pow_add, Nat.add_sub_cancel' hnw]
    rw [if_neg (by omega), hwrap, hones, bitOf_two_pow_mul_add _ hx, bitOf_eq (2 ^ (w - n) - 1), Nat.testBit_two_pow_sub_one,
      decide_eq_true hneg]
    split
    · rfl
    · exact decide_eq_true (by omega)
  · rw [if_pos (by omega), wrap_natCast (by omega)]
    split
    · rfl
    · next h => rw [bitOf_of_lt hx (not_lt.mp h), decide_eq_false hneg]

/-- The length of a field, cut at the top bit. -/
def fieldLen (desc w : Nat) : Nat := min (desc / 256 % 256) (w - desc % 256)

theorem fieldOf_of_len_pos {desc w : Nat} (h : 0 < fieldLen desc w) :
    fieldOf desc w = some (desc % 256, desc % 256 + fieldLen desc w) := by
  unfold fieldLen at h ⊢
  simp only [fieldOf]
  rw [if_neg (by simp only [Bool.or_eq_true, decide_eq_true_eq]; omega)]
  congr 2
  omega

theorem fieldOf_of_len_zero {desc w : Nat} (h : fieldLen desc w = 0) : fieldOf desc w = none := by
  unfold fieldLen at h
  simp only [fieldOf]
  exact if_pos (by simp only [Bool.or_eq_true, decide_eq_true_eq]; omega)

theorem bitOf_bfxVal (signed : Bool) (a desc : Nat) {w i : Nat} (hi : i < w) :
    bitOf (wrap (bfxVal signed a w desc) w) i = if i < fieldLen desc w then bitOf a (desc % 256 + i)
      else (signed && decide (0 < fieldLen desc w) && bitOf a (desc % 256 + fieldLen desc w - 1)) := by
  rcases Nat.eq_zero_or_pos (fieldLen desc w) with hlen | hlen
  · simp [bfxVal, fieldOf_of_len_zero hlen, hlen, wrap, bitOf]
  · have hle : fieldLen desc w ≤ w := (Nat.min_le_right ..).trans (Nat.sub_le ..)
    simp only [bfxVal, fieldOf_of_len_pos hlen, Nat.add_sub_cancel_left]
    generalize fieldLen desc w = n at hlen hle ⊢
    have hx := Nat.mod_lt (a / 2 ^ (desc % 256)) (Nat.two_pow_pos n)
    have hbit : ∀ j < n, bitOf (a / 2 ^ (desc % 256) % 2 ^ n) j = bitOf a (desc % 256 + j) := fun j hj => by
      rw [bitOf_mod_two_pow, bitOf_div_two_pow, decide_eq_true hj, Bool.true_and, Nat.add_comm]
    cases signed with
    | true =>
      rw [if_pos rfl, bitOf_wrap_sx hlen hle hx hi]
      split
      · next h => exact hbit i h
      · rw [hbit _ (by omega), decide_eq_true hlen, Bool.true_and, Bool.true_and, Nat.add_sub_assoc hlen]
    | false =>
      rw [if_neg Bool.false_ne_true, zx, Nat.mod_eq_of_lt hx, wrap_natCast (hx.trans_le (Nat.pow_le_pow_right (by decide) hle))]
      split
      · next h => exact hbit i h
      · next h => rw [bitOf_of_lt hx (not_lt.mp h), Bool.false_and, Bool.false_and]

theorem bitOf_bfiVal (a b desc w i : Nat) : bitOf (bfiVal a b w desc) i
    = if desc % 256 ≤ i ∧ i < desc % 256 + fieldLen desc w then bitOf a (i - desc % 256) else bitOf b i := by
  rcases Nat.eq_zero_or_pos (fieldLen desc w) with hlen | hlen
  · rw [bfiVal, fieldOf_of_len_zero hlen, if_neg (by omega)]
  · simp only [bfiVal, fieldOf_of_len_pos hlen, Nat.add_sub_cancel_left]
    generalize fieldLen desc w = n at hlen ⊢
    generalize desc % 256 = pos
    have hjoin : b % 2 ^ pos + a % 2 ^ n * 2 ^ pos + b / 2 ^ (pos + n) * 2 ^ (pos + n)
        = 2 ^ pos * (2 ^ n * (b / 2 ^ (pos + n)) + a % 2 ^ n) + b % 2 ^ pos := by rw [pow_add]; ring
    rw [hjoin, bitOf_two_pow_mul_add _ (Nat.mod_lt _ (Nat.two_pow_pos _)),
      bitOf_two_pow_mul_add _ (Nat.mod_lt _ (Nat.two_pow_pos _)), bitOf_mod_two_pow, bitOf_mod_two_pow, bitOf_div_two_pow]
    by_cases hlow : i < pos
    · rw [if_pos hlow, if_neg (by omega), decide_eq_true hlow, Bool.true_and]
    · by_cases hmid : i - pos < n
      · rw [if_neg hlow, if_pos hmid, if_pos (by omega), decide_eq_true hmid, Bool.true_and]
      · rw [if_neg hlow, if_neg hmid, if_neg (by omega)]
        congr 1
        omega

theorem bfiVal_lt {b w : Nat} (a desc : Nat) (hb : b < 2 ^ w) : bfiVal a b w desc < 2 ^ w := by
  refine Nat.lt_pow_two_of_testBit _ (fun i hi => ?_)
  have hlen : fieldLen desc w ≤ w - desc % 256 := Nat.min_le_right ..
  rw [← bitOf_eq, bitOf_bfiVal, if_neg (by omega), bitOf_of_lt hb hi]

theorem exec_bfx (f : Fields) (s : State) : exec (.bfx f) s = execBfx f s := rfl
theorem exec_bfi (f : Fields) (s : State) : exec (.bfi f) s = execBfi f s := rfl

/-- Settles O9: each relation fixes the pattern that the model computes, by its value, its bytes or its bits. -/
theorem threeSourceAndBitFieldResults : Obligations.ThreeSourceAndBitFieldResults := by
  unfold Obligations.ThreeSourceAndBitFieldResults
  refine ⟨⟨fun f s c p x ks a b d h hk => ?imad, ?three⟩, fun f s c p x ks a b d r h hk => ?fields⟩
  case imad =>
    intro out ha
    refine intTri_effect s f (fun a b d => intResult f (f.ty.val a * f.ty.val b + f.ty.val d)) (a := a) (b := b) (d := d) h
      (fun k hmem => ?_) ha
    obtain ⟨hadmits, hreadA, hreadB, hreadC⟩ := hk k hmem
    exact ⟨hadmits, hreadA, hreadB, hreadC, rfl⟩
  case three =>
    change ∀ e : (Fields → Instr) × (Fields → Nat → Nat → Nat → Nat → Prop), e ∈ _ → TernaryGives e.1 e.2
    simp only [List.forall_mem_cons, List.not_mem_nil, false_imp_iff, forall_const, and_true]
    refine ⟨?iclamp, ?blut, ?bperm⟩
    case iclamp =>
      exact ternaryGives (op := fun f => clamped f.ty) (fun _ _ => rfl) (fun f a b d r ha hb hd ⟨hr, hval⟩ =>
        Ty.val_inj hr (clamped_lt ha hb hd) (hval.trans (val_clamped f.ty a b d).symm))
    case blut =>
      refine ternaryGives (fun _ _ => rfl) (fun f a b d r _ _ _ ⟨hr, hbits⟩ => eq_of_bits hr (natOfBits_lt _ _) (fun i hi => ?_))
      rw [hbits i hi, bitOf_natOfBits, decide_eq_true hi, Bool.true_and]
    case bperm =>
      refine ternaryGives (op := fun _ => permuted) (fun _ _ => rfl) (fun f a b d r ha _ _ ⟨hty, hr, hbytes⟩ => ?_)
      rw [hty] at ha
      exact eq_of_bytes (y := bpermByte (a + 2 ^ 32 * b) d) hr (fun j hj => (hbytes j hj).trans (bpermByte_eq b d j ha).symm)
  case fields =>
    intro w pos n out ha
    refine ⟨fun hr => ?bfx, fun hr => ?bfi⟩
    case bfx =>
      rw [exec_bfx]
      refine regOp_effect s f _ _ h (fun k hmem => ?_) ha
      obtain ⟨hreadA, hdesc⟩ : _ = _ ∧ _ := hk k hmem
      obtain ⟨hcheck, hlt, hbits⟩ := hr k hmem
      have hval : wrap (bfxVal f.ty.isSigned (a k) f.ty.width (d k)) f.ty.width = r k :=
        (eq_of_bits hlt (wrap_lt _ _) (fun i hi => (hbits i hi).trans (bitOf_bfxVal _ _ _ hi).symm)).symm
      exact ⟨hcheck, by simp only [hreadA, hdesc, out, ← hval]; rfl⟩
    case bfi =>
      rw [exec_bfi]
      refine regOp_effect s f _ _ h (fun k hmem => ?_) ha
      obtain ⟨hreadA, hdesc⟩ : _ = _ ∧ _ := hk k hmem
      obtain ⟨hcheck, hreadC, hlt, hbits⟩ := hr k hmem
      have hval : bfiVal (a k) (b k) f.ty.width (d k) = r k :=
        (eq_of_bits hlt (bfiVal_lt _ _ (Lane.readInt_lt hreadC)) (fun i hi => (hbits i hi).trans (bitOf_bfiVal _ _ _ _ i).symm)).symm
      exact ⟨hcheck, by simp only [hreadA, hdesc, hreadC, out, ← hval]; rfl⟩

end Sys2Proof.Machine
end

section
/-!
The obligations on carry, compare, select, address, move and index instructions (R75, R83 to R88).
-/
namespace Sys2Proof.Machine

/-! ## Results without uniform writes -/

theorem Lane.start_g (l : Lane) (s : State) (f : Fields) : (l.start s f).g = [] := by
  simp only [Lane.start]
  split <;> rfl

theorem Lane.start_tw (l : Lane) (s : State) (f : Fields) : (l.start s f).tw = none := by
  simp only [Lane.start]
  split <;> rfl

theorem LaneOut.putPred_g (o : LaneOut) (d : Operand) (b : Bool) : (o.putPred d b).g = o.g := by cases d <;> rfl

theorem LaneOut.putPred_tw (o : LaneOut) (d : Operand) (b : Bool) : (o.putPred d b).tw = o.tw := by cases d <;> rfl

/-- Lanes that write no uniform register agree. -/
theorem agree_of_no_uniform {hdr : DWord} {ks : List Nat} {out : Nat → LaneOut} (h : ∀ k ∈ ks, (out k).g = [] ∧ (out k).tw = none) :
    Agree hdr ks out := fun k hk => .inl (h k hk)

/-! ## Carry, compare, select (R75, R83, R84) -/

theorem exec_addc (f : Fields) (s : State) : exec (.addc f) s = execAddc f s := rfl
theorem exec_icmp (f : Fields) (s : State) : exec (.icmp f) s = execIcmp f s := rfl
theorem exec_isel (f : Fields) (s : State) : exec (.isel f) s = execIsel f s := rfl

/-- The carry in of R75. -/
theorem carryIn_eq (f : Fields) (th : Thread) :
    (if f.minor == 1 then b2n (th.readPred f.sc) else 0) = if f.minor = 1 ∧ th.readPred f.sc = true then 1 else 0 := by
  simp only [beq_iff_eq, b2n, ite_and]

theorem carryOut_eq {a b w cin : Nat} (ha : a < 2 ^ w) (hb : b < 2 ^ w) (hcin : cin ≤ 1) :
    bitOf (a + b + cin) w = decide (2 ^ w ≤ a + b + cin) :=
  bitOf_eq_decide_le (by rw [pow_succ]; omega)

/-- The conditions of R83, by MINOR. -/
theorem intCond_eq {cond : Nat} (hc : cond ≤ 5) {va vb : Int} {q : Bool}
    (h : [va = vb, va ≠ vb, va < vb, va ≤ vb, va > vb, va ≥ vb][cond]? = some (q = true)) : intCond cond va vb = q := by
  have hiff : ∀ {b : Bool} {p : Prop}, (b = true ↔ p) → some p = some (q = true) → b = q := fun hb hp =>
    Bool.eq_iff_iff.mpr (hb.trans (iff_of_eq (Option.some.inj hp)))
  interval_cases cond
  · exact hiff beq_iff_eq h
  · exact hiff bne_iff_ne h
  all_goals exact hiff decide_eq_true_iff h

/-- Settles O10, by the course of an instruction on registers. -/
theorem carryCompareAndSelectResults : Obligations.CarryCompareAndSelectResults := by
  unfold Obligations.CarryCompareAndSelectResults
  intro f s c p x ks a b h hk
  simp only [ReadsA, ReadsB] at hk
  refine ⟨fun hcheck => ?addc, fun hcheck hminor => ?icmp, fun hcheck => ?isel⟩
  case addc =>
    intro sum out ha
    rw [exec_addc]
    refine regOp_effect s f _ _ h (fun k hmem => ⟨hcheck k hmem, ?_⟩) ha
    obtain ⟨hreadA, hreadB⟩ := hk k hmem
    have hcarry := carryOut_eq (cin := if f.minor = 1 ∧ (s.thr c k).readPred f.sc = true then 1 else 0)
      (Lane.readInt_lt hreadA) (Lane.readIntI_lt hreadB) (by split <;> decide)
    simp only [hreadA, hreadB, carryIn_eq, out, sum, ← hcarry]
    rfl
  case icmp =>
    intro va vb holds q hq
    rw [exec_icmp]
    refine regOp_effect s f _ _ h (fun k hmem => ⟨hcheck k hmem, ?_⟩) (agree_of_no_uniform fun k _ => ?_)
    · obtain ⟨hreadA, hreadB⟩ := hk k hmem
      simp only [hreadA, hreadB, ← intCond_eq hminor (hq k hmem)]
      rfl
    · simp only [LaneOut.putPred_g, LaneOut.putPred_tw, Lane.start_g, Lane.start_tw, and_self]
  case isel =>
    intro out ha
    rw [exec_isel]
    refine regOp_effect s f _ _ h (fun k hmem => ⟨hcheck k hmem, ?_⟩) ha
    obtain ⟨hreadA, hreadB⟩ := hk k hmem
    simp only [hreadA, hreadB]
    rfl

/-! ## Address, move, index (R85 to R88) -/

theorem exec_lea (f : Fields) (s : State) : exec (.lea f) s = execLea f s := rfl
theorem exec_movi (f : Fields) (s : State) : exec (.movi f) s = execMovi f s := rfl
theorem exec_tidx (f : Fields) (s : State) : exec (.tidx f) s = execTidx f s := rfl

/-- The address of R85 as arithmetic on 64 bits. -/
theorem ofInt_address (a : DWord) (v : Int) (n : Nat) :
    BitVec.ofInt 64 ((a.toNat : Int) + v * ((2 ^ n : Nat) : Int)) = a + BitVec.ofInt 64 v * BitVec.ofNat 64 (2 ^ n) := by
  rw [BitVec.ofInt_add, BitVec.ofInt_mul, BitVec.ofInt_natCast, BitVec.ofInt_natCast, BitVec.ofNat_toNat, BitVec.setWidth_eq]

theorem loWord_ofInt (v : Int) : loWord (BitVec.ofInt 64 v) = BitVec.ofInt 32 v := by
  apply BitVec.eq_of_toNat_eq
  rw [loWord, BitVec.extractLsb'_toNat, Nat.shiftRight_zero, BitVec.toNat_ofInt, BitVec.toNat_ofInt]
  omega

/-- The 64-bit value of a pattern of a 64-bit type is the pattern itself. -/
theorem ofInt_val_of_isPair {ty : Ty} (h : ty.isPair = true) (p : Nat) : BitVec.ofInt 64 (ty.val p) = BitVec.ofNat 64 p := by
  have hw : ty.width = 64 := by cases ty <;> simp_all [Ty.isPair, Ty.width]
  apply BitVec.eq_of_toNat_eq
  rw [BitVec.toNat_ofInt, BitVec.toNat_ofNat, Ty.val, hw, sx, zx]
  split_ifs <;> omega

theorem moviVal_of_isInt {ty : Ty} (h : ty.isInt = true) (w : Word) : moviVal ty w = BitVec.ofInt 64 (ty.val (immInt w ty)) := by
  cases ty <;> simp_all [Ty.isInt, moviVal]

theorem loWord_moviVal_of_not_isInt {ty : Ty} (h : ¬ ty.isInt = true) (w : Word) :
    loWord (moviVal ty w) = if ty = .f16 ∨ ty = .bf16 then BitVec.ofNat 32 (w.toNat % 2 ^ 16) else w := by
  have hlo : ∀ n, loWord (BitVec.ofNat 64 n) = BitVec.ofNat 32 n := fun n => by
    rw [← BitVec.ofInt_natCast, loWord_ofInt, BitVec.ofInt_natCast]
  cases ty with
  | f32 | f16x2 | bf16x2 =>
    rw [if_neg (by decide)]
    exact (hlo w.toNat).trans (by rw [BitVec.ofNat_toNat, BitVec.setWidth_eq])
  | f16 | bf16 =>
    rw [if_pos (by decide)]
    exact hlo _
  | _ => exact absurd rfl h

/-- The lane's result of a `movi`, as R53 and R28 give it. -/
theorem movi_result (o : LaneOut) (regs : Nat) (d : Operand) (ty : Ty) (w : Word) :
    (if ty.isPair then o.putPair regs d (moviVal ty w) else o.put regs d (loWord (moviVal ty w)))
      = if ty.isInt then o.putInt regs d ty (immInt w ty)
        else o.put regs d (if ty = .f16 ∨ ty = .bf16 then BitVec.ofNat 32 (w.toNat % 2 ^ 16) else w) := by
  by_cases hint : ty.isInt = true
  · rw [if_pos hint, LaneOut.putInt, moviVal_of_isInt hint, loWord_ofInt]
    split
    · next hpair => rw [ofInt_val_of_isPair hpair]
    · rfl
  · have hpair : ¬ ty.isPair = true := by cases ty <;> simp_all [Ty.isInt, Ty.isPair]
    rw [if_neg hpair, if_neg hint, loWord_moviVal_of_not_isInt hint]

/-- Settles O11, by the course of an instruction on registers. -/
theorem addressMoveAndIndexResults : Obligations.AddressMoveAndIndexResults := by
  unfold Obligations.AddressMoveAndIndexResults
  refine fun f s c p x ks h => ⟨fun a b hk => ?lea, fun w himm hcheck => ?movi, fun a e r hk => ?tidx⟩
  case lea =>
    intro out ha
    rw [exec_lea]
    refine regOp_effect s f _ _ h (fun k hmem => ?_) ha
    simp only [ReadsB] at hk
    obtain ⟨hcheck, hreadA, hreadB⟩ := hk k hmem
    exact ⟨hcheck, by simp only [hreadA, hreadB, out, ← ofInt_address]; rfl⟩
  case movi =>
    intro out ha
    rw [exec_movi]
    refine regOp_effect s f _ _ h (fun k hmem => ⟨hcheck k hmem, ?_⟩) ha
    rw [himm]
    exact congrArg Except.ok (movi_result _ _ _ _ _)
  case tidx =>
    intro out ha
    rw [exec_tidx]
    refine regOp_effect s f _ _ h (fun k hmem => ?_) ha
    obtain ⟨hcheck, hreadA, hreadB, hshape⟩ := hk k hmem
    exact ⟨hcheck, by simp only [hreadA, hreadB, bind, Except.bind, hshape]; rfl⟩

end Sys2Proof.Machine
end

section
/-!
The obligations on scalar and packed floating-point arithmetic, on compare, class and rounding, and on conversions and special functions
(R90 to R103).
-/
namespace Sys2Proof.Machine

/-! ## Scalar arithmetic (R91, R92) -/

/-- A scalar instruction of two sources gives each lane's destination the pattern of an operation and raises its flags. -/
def FpBinaryGives (ins : Fields → Instr) (op : Fields → Nat → Nat → Nat × BitVec 5) : Prop :=
  ∀ (f : Fields) (s : State) (c p : Nat) (x : Pass) (ks : List Nat) (a b : Nat → Nat), Executes s c p x f.guard ks →
    (∀ k ∈ ks, (x.lane c k).check s ([(pSA, OpKind.src false, f.sa)] ++ unlessImm f (pSB, OpKind.src false, f.sb)
        ++ [(pDST, OpKind.dst false, f.dst)]) = .ok ()
      ∧ (x.lane c k).readF s pSA f.sa f.ty = .ok (a k) ∧ (x.lane c k).readFI s pSB f.sb f.ty f.imm = .ok (b k)) →
    Agree x.hdr ks (fun k => FpResult s f (x.lane c k) (op f (a k) (b k))) →
    ∃ t, exec (ins f) s = .next t ∧ LaneEffect s t c p x ks f.readsChannel (fun k => FpResult s f (x.lane c k) (op f (a k) (b k)))

theorem fpBinaryGives {ins : Fields → Instr} {op : Fields → Nat → Nat → Nat × BitVec 5}
    (hins : ∀ f s, exec (ins f) s = fpBin s f (op f)) : FpBinaryGives ins op := by
  intro f s c p x ks a b h hk ha
  rw [hins]
  exact fpBin_effect s f (op f) h hk ha

theorem exec_ffma (f : Fields) (s : State) : exec (.ffma f) s = execFfma f s := rfl
theorem exec_fsel (f : Fields) (s : State) : exec (.fsel f) s = execFsel f s := rfl

/-- Settles O12, by the course of an instruction on registers. -/
theorem scalarFloatResults : Obligations.ScalarFloatResults := by
  unfold Obligations.ScalarFloatResults
  refine ⟨?two, fun f s c p x ks a b d h hk => ?three⟩
  case two =>
    change ∀ e : (Fields → Instr) × (Fields → Nat → Nat → Nat × BitVec 5), e ∈ _ → FpBinaryGives e.1 e.2
    simp only [List.forall_mem_cons, List.not_mem_nil, false_imp_iff, forall_const, and_true]
    exact ⟨fpBinaryGives fun _ _ => rfl, fpBinaryGives fun _ _ => rfl, fpBinaryGives fun _ _ => rfl, fpBinaryGives fun _ _ => rfl,
      fpBinaryGives fun _ _ => rfl⟩
  case three =>
    intro fma sel
    refine ⟨fun ha => ?ffma, fun ha => ?fsel⟩
    case ffma =>
      rw [exec_ffma]
      refine regOp_effect s f _ _ h (fun k hmem => ?_) ha
      obtain ⟨hcheck, hreadA, hreadB, hreadC⟩ := hk k hmem
      exact ⟨hcheck, by simp only [hreadA, hreadB, hreadC]; rfl⟩
    case fsel =>
      rw [exec_fsel]
      refine regOp_effect s f _ _ h (fun k hmem => ?_) ha
      obtain ⟨hcheck, hreadA, hreadB, hreadC⟩ := hk k hmem
      exact ⟨hcheck, by simp only [hreadA, hreadB, hreadC]; rfl⟩

/-! ## Compare (R92) -/

theorem exec_fcmp (f : Fields) (s : State) : exec (.fcmp f) s = execFcmp f s := rfl
theorem exec_fclass (f : Fields) (s : State) : exec (.fclass f) s = execFclass f s := rfl
theorem exec_frnd (f : Fields) (s : State) : exec (.frnd f) s = execFrnd f s := rfl

/-- The conditions of R92, by MINOR. -/
theorem fpCond_eq {cond : Nat} (hc : cond ≤ 7) {u v : FVal} {q : Bool}
    (h : [!(u.isNan || v.isNan) && u.eq v, (u.isNan || v.isNan) || !u.eq v, !(u.isNan || v.isNan) && u.lt v,
      !(u.isNan || v.isNan) && (u.lt v || u.eq v), !(u.isNan || v.isNan) && v.lt u,
      !(u.isNan || v.isNan) && (v.lt u || u.eq v), !(u.isNan || v.isNan), u.isNan || v.isNan][cond]? = some q) :
    fpCond cond u v = q := by
  refine Option.some.inj (Eq.trans ?_ h)
  interval_cases cond <;> simp only [fpCond, ← Bool.not_or, Bool.not_not] <;> rfl

theorem fcmpFlags_eq (cond : Nat) (u v : FVal) : fcmpFlags cond u v
    = if u.isSig || v.isSig || (decide (2 ≤ cond ∧ cond ≤ 5) && (u.isNan || v.isNan)) then fNV else 0 := by
  rw [fcmpFlags, Bool.decide_and]

theorem LaneOut.orFlags_g (o : LaneOut) (fl : BitVec 5) : (o.orFlags fl).g = o.g := rfl

theorem LaneOut.orFlags_tw (o : LaneOut) (fl : BitVec 5) : (o.orFlags fl).tw = o.tw := rfl

/-! ## Class (R93) -/

/-- The bit of a class mask, by exponent field and fraction (R93). -/
def classBit (f : Fmt) (p : Nat) : Nat :=
  let neg := bitOf p (f.width - 1)
  let ex := p / 2 ^ f.mbits % 2 ^ f.ebits
  let fr := p % 2 ^ f.mbits
  if ex = 2 ^ f.ebits - 1 then (if fr = 0 then (if neg then 2 else 9) else if fr < 2 ^ (f.mbits - 1) then 0 else 1)
  else if ex = 0 then (if fr = 0 then (if neg then 5 else 6) else if neg then 4 else 7)
  else if neg then 3 else 8

theorem classBit_le (f : Fmt) (p : Nat) : classBit f p ≤ 9 := by
  simp only [classBit]
  split_ifs <;> decide

/-- A NaN is quiet when the top bit of its fraction is 1. -/
theorem bitOf_fraction {p m : Nat} (h : p % 2 ^ m ≠ 0) : bitOf p (m - 1) = decide (2 ^ (m - 1) ≤ p % 2 ^ m) := by
  have hm : 0 < m := by
    rcases Nat.eq_zero_or_pos m with rfl | hm
    · exact absurd (Nat.mod_one p) h
    · exact hm
  have hlt : p % 2 ^ m < 2 ^ (m - 1 + 1) := by
    rw [Nat.sub_add_cancel hm]
    exact Nat.mod_lt _ (Nat.two_pow_pos m)
  rw [← bitOf_eq_decide_le hlt, bitOf_mod_two_pow, decide_eq_true (by omega), Bool.true_and]

theorem classMask_eq (f : Fmt) (p : Nat) : classMask f p = 2 ^ classBit f p := by
  have hfr := Nat.mod_lt p (Nat.two_pow_pos f.mbits)
  simp only [classMask, Fmt.unpack, classBit]
  by_cases hmax : p / 2 ^ f.mbits % 2 ^ f.ebits = 2 ^ f.ebits - 1
  · simp only [if_pos hmax]
    by_cases hzero : p % 2 ^ f.mbits = 0
    · simp only [if_pos hzero]
      split <;> rfl
    · simp only [if_neg hzero, bitOf_fraction hzero]
      by_cases hquiet : 2 ^ (f.mbits - 1) ≤ p % 2 ^ f.mbits
      · simp [hquiet, not_lt.mpr hquiet]
      · simp [hquiet, not_le.mp hquiet]
  · simp only [if_neg hmax]
    by_cases hsmall : p / 2 ^ f.mbits % 2 ^ f.ebits = 0
    · simp only [if_pos hsmall]
      by_cases hzero : p % 2 ^ f.mbits = 0
      · simp only [if_pos hzero]
        split <;> rfl
      · simp only [if_neg hzero, hfr, if_true]
        split <;> rfl
    · simp only [if_neg hsmall, show ¬ 2 ^ f.mbits + p % 2 ^ f.mbits < 2 ^ f.mbits by omega, if_false]
      split <;> rfl

/-- The largest exponent field of a type's format is not 0. -/
theorem zero_ne_maxExp (t : Ty) : 0 ≠ 2 ^ t.fmt.ebits - 1 := by cases t <;> decide

/-- A destination that is a v register, a temporary or none takes no uniform write. -/
theorem put_of_vt {d : Operand} {rd wr : Nat → Bool} (h : OpKind.vt.admits rd wr d = true) (o : LaneOut) (regs : Nat) (w : Word) :
    (o.put regs d w).g = o.g ∧ (o.put regs d w).tw = o.tw := by
  cases d with
  | v _ | t _ | none => exact ⟨rfl, rfl⟩
  | _ => simp [OpKind.admits] at h

/-- When the fields pass the check, the first is admitted and the others pass it in their turn. -/
theorem checkFields_cons {l : Lane} {place : Nat} {k : OpKind} {o : Operand} {r : List (Nat × OpKind × Operand)}
    {v : Resv} (h : checkFields l v ((place, k, o) :: r) = .ok ()) :
    k.admits (l.mayRead v) (l.mayWrite v) o = true ∧ checkFields l (v.after place o) r = .ok () := by
  rw [checkFields] at h
  split at h
  · next hadmits => exact ⟨hadmits, h⟩
  · exact absurd h (by simp)

/-- Settles O13, by the course of an instruction on registers and the bit of each class. -/
theorem floatCompareClassAndRoundResults : Obligations.FloatCompareClassAndRoundResults := by
  unfold Obligations.FloatCompareClassAndRoundResults
  refine fun f s c p x ks a h hread => ⟨fun b hk hminor => ?fcmp, fun hcheck => ⟨?fclass, fun k => ?mask⟩, fun hcheck => ?frnd⟩
  case fcmp =>
    intro u v unord holds nv q hq
    rw [exec_fcmp]
    refine regOp_effect s f _ _ h (fun k hmem => ?_) (agree_of_no_uniform fun k _ => ?_)
    · obtain ⟨hcheck, hreadB⟩ := hk k hmem
      exact ⟨hcheck, by simp only [hread k hmem, hreadB, ← fpCond_eq hminor (hq k hmem), nv, unord, u, v, ← fcmpFlags_eq]; rfl⟩
    · simp only [LaneOut.orFlags_g, LaneOut.orFlags_tw, LaneOut.putPred_g, LaneOut.putPred_tw, Lane.start_g, Lane.start_tw, and_self]
  case fclass =>
    rw [exec_fclass]
    refine regOp_effect s f _ _ h (fun k hmem => ⟨hcheck k hmem, ?_⟩) (agree_of_no_uniform fun k hmem => ?_)
    · simp only [hread k hmem]
      rfl
    · obtain ⟨-, hdst⟩ := checkFields_cons (hcheck k hmem)
      obtain ⟨hvt, -⟩ := checkFields_cons hdst
      obtain ⟨hg, htw⟩ := put_of_vt hvt ((x.lane c k).start s f) ((x.lane c k).regs s) (BitVec.ofNat 32 (classMask f.ty.fmt (a k)))
      exact ⟨hg.trans (Lane.start_g ..), htw.trans (Lane.start_tw ..)⟩
  case mask =>
    refine ⟨classBit f.ty.fmt (a k), classBit_le _ _, classMask_eq _ _, fun hmax hfr => ?_, fun hmax hfr => ?_, fun hex hmax => ?_,
      fun hex hfr => ?_, fun hex hfr => ?_⟩ <;> simp only [classBit]
    · rw [if_pos hmax, if_neg hfr]
    · rw [if_pos hmax, if_pos hfr]
    · rw [if_neg hmax, if_neg hex]
    · rw [if_neg (hex ▸ zero_ne_maxExp f.ty), if_pos hex, if_neg hfr]
    · rw [if_neg (hex ▸ zero_ne_maxExp f.ty), if_pos hex, if_pos hfr]
  case frnd =>
    intro out ha
    rw [exec_frnd]
    exact fpUn_effect s f (fRint f.ty.fmt f.md.toNat (f.minor == 1)) h (fun k hmem => ⟨hcheck k hmem, hread k hmem⟩) ha

/-! ## Packed pairs (R95, R96) -/

theorem exec_hadd2 (f : Fields) (s : State) : exec (.hadd2 f) s = execHadd2 f s := rfl
theorem exec_hmul2 (f : Fields) (s : State) : exec (.hmul2 f) s = execHmul2 f s := rfl
theorem exec_hfma2 (f : Fields) (s : State) : exec (.hfma2 f) s = execHfma2 f s := rfl
theorem exec_fdot2 (f : Fields) (s : State) : exec (.fdot2 f) s = execFdot2 f s := rfl

/-- Settles O14, by the course of an instruction on registers. -/
theorem packedFloatResults : Obligations.PackedFloatResults := by
  unfold Obligations.PackedFloatResults
  intro f s c p x ks a b h hk pair mode fmt
  refine ⟨fun hcheck => ?two, fun hcheck => ⟨fun d hreadC => ?hfma2, fun d hreadC => ?fdot2⟩⟩
  case two =>
    have hbin : ∀ k ∈ ks, _ ∧ _ := fun k hmem => ⟨hcheck k hmem, hk k hmem⟩
    intro sum prod
    refine ⟨fun ha => ?hadd2, fun ha => ?hmul2⟩
    case hadd2 => rw [exec_hadd2]; exact packBin_effect s f (fAdd fmt mode) h hbin ha
    case hmul2 => rw [exec_hmul2]; exact packBin_effect s f (fMul fmt mode) h hbin ha
  case hfma2 =>
    intro out ha
    rw [exec_hfma2]
    refine regOp_effect s f _ _ h (fun k hmem => ⟨hcheck k hmem, ?_⟩) ha
    obtain ⟨hreadA, hreadB⟩ := hk k hmem
    simp only [hreadA, hreadB, hreadC k hmem]
    rfl
  case fdot2 =>
    intro out ha
    rw [exec_fdot2]
    refine regOp_effect s f _ _ h (fun k hmem => ⟨hcheck k hmem, ?_⟩) ha
    obtain ⟨hreadA, hreadB⟩ := hk k hmem
    simp only [hreadA, hreadB, hreadC k hmem]
    rfl

/-! ## Conversions to floating formats (R98) -/

theorem exec_fcvt (f : Fields) (s : State) : exec (.fcvt f) s = execFcvt f s := rfl
theorem exec_i2f (f : Fields) (s : State) : exec (.i2f f) s = execI2f f s := rfl

theorem intSrcTy_of_ofCode {minor : BitVec 4} {ty : Ty} (h : Ty.ofCode minor = some ty) : intSrcTy minor = ty := by
  rw [intSrcTy, h, Option.getD_some]

/-- Settles O16, by the course of an instruction on registers. -/
theorem conversionResults : Obligations.ConversionResults := by
  unfold Obligations.ConversionResults
  intro f s c p x ks a h
  rw [← srcTy_minor]
  refine ⟨fun _ hk => ?fcvt, fun ty hty hk => ?i2f⟩
  case fcvt =>
    intro out ha
    rw [exec_fcvt]
    refine regOp_effect s f _ _ h (fun k hmem => ?_) ha
    obtain ⟨hcheck, hread⟩ := hk k hmem
    exact ⟨hcheck, by simp only [hread]; rfl⟩
  case i2f =>
    intro out ha
    obtain rfl := intSrcTy_of_ofCode hty
    rw [exec_i2f]
    refine regOp_effect s f _ _ h (fun k hmem => ?_) ha
    obtain ⟨hcheck, hread⟩ := hk k hmem
    exact ⟨hcheck, by simp only [hread]; rfl⟩

/-! ## Special functions and block conversions (R99 to R103) -/

/-- A NaN gives the canonical NaN, with NV for a signalling one (R103). -/
theorem specialFn_of_nan {g : Special} {f : Fmt} {p : Nat} (h : (f.unpack p).isNan = true) :
    specialFn g f p = (f.nanPat, if (f.unpack p).isSig then fNV else 0) := by
  cases hp : f.unpack p with
  | nan sig => simp only [specialFn, hp]; rfl
  | _ => simp [hp, FVal.isNan] at h

/-- A special function gives each lane's destination its pattern and raises its flags. -/
def SpecialGives (ins : Fields → Instr) (g : Special) : Prop :=
  ∀ (f : Fields) (s : State) (c p : Nat) (x : Pass) (ks : List Nat) (a : Nat → Nat), Executes s c p x f.guard ks →
    (∀ k ∈ ks, (x.lane c k).check s [(pSA, OpKind.src false, f.sa), (pDST, OpKind.dst false, f.dst)] = .ok ()
      ∧ (x.lane c k).readF s pSA f.sa f.ty = .ok (a k)) →
    (Agree x.hdr ks (fun k => FpResult s f (x.lane c k) (specialFn g f.ty.fmt (a k))) →
      ∃ t, exec (ins f) s = .next t
        ∧ LaneEffect s t c p x ks f.readsChannel (fun k => FpResult s f (x.lane c k) (specialFn g f.ty.fmt (a k))))
    ∧ ∀ k, (f.ty.fmt.unpack (a k)).isNan →
        specialFn g f.ty.fmt (a k) = (f.ty.fmt.nanPat, if (f.ty.fmt.unpack (a k)).isSig then fNV else 0)

theorem specialGives {ins : Fields → Instr} {g : Special} (hins : ∀ f s, exec (ins f) s = fpUn s f (specialFn g f.ty.fmt)) :
    SpecialGives ins g := by
  intro f s c p x ks a h hk
  rw [hins]
  exact ⟨fpUn_effect s f (specialFn g f.ty.fmt) h hk, fun k => specialFn_of_nan⟩

/-- A block conversion: the slots and modes it accepts, the registers it reads and writes, and the words and flags it gives. -/
abbrev BlockSpec :=
  (FmtSlot → BitVec 3 → Bool) × (FmtSlot → Nat) × (FmtSlot → Nat) × (FmtSlot → Nat → List Word → List Word × BitVec 5)

/-- A block conversion reads a whole group and writes a whole group, and raises its flags. -/
def BlockGives (ins : Fields → Instr) (b : BlockSpec) : Prop :=
  ∀ (f : Fields) (s : State) (c p : Nat) (x : Pass) (ks : List Nat) (ws : Nat → List Word), Executes s c p x f.guard ks →
    let z := fun k => ((x.lane c k).grid s).slot f.slot.toNat
    (∀ k ∈ ks, b.1 (z k) f.md = true
      ∧ (x.lane c k).check s [(pSA, OpKind.vGroup (b.2.1 (z k)), f.sa), (pDST, OpKind.vGroup (b.2.2.1 (z k)), f.dst)] = .ok ()
      ∧ (x.lane c k).readGroup s pSA f.sa 0 (b.2.1 (z k)) = .ok (ws k)) →
    let r := fun k => b.2.2.2 (z k) (slotMode f.md (z k)) (ws k)
    let out := fun k => (((x.lane c k).start s f).putGroup ((x.lane c k).regs s) f.dst 0 (r k).1).orFlags (r k).2
    Agree x.hdr ks out → ∃ t, exec (ins f) s = .next t ∧ LaneEffect s t c p x ks false out

theorem blockGives {ins : Fields → Instr} {b : BlockSpec}
    (hins : ∀ f s, exec (ins f) s = blockOp s f (fun z => b.1 z f.md) b.2.1 b.2.2.1 b.2.2.2) : BlockGives ins b := by
  intro f s c p x ks ws h z hk r out ha
  rw [hins]
  exact blockOp_effect s f _ _ _ _ (z := z) h (fun k hmem => ⟨rfl, hk k hmem⟩) ha

/-- Settles O18, by the course of an instruction on registers and the table's row for NaNs. -/
theorem specialFunctionAndBlockConversionResults : Obligations.SpecialFunctionAndBlockConversionResults := by
  unfold Obligations.SpecialFunctionAndBlockConversionResults
  refine ⟨?special, ?block⟩
  case special =>
    change ∀ e : (Fields → Instr) × Special, e ∈ _ → SpecialGives e.1 e.2
    simp only [List.forall_mem_cons, List.not_mem_nil, false_imp_iff, forall_const, and_true]
    refine ⟨?_, ?_, ?_, ?_, ?_, ?_, ?_, ?_⟩ <;> exact specialGives fun _ _ => rfl
  case block =>
    change ∀ e : (Fields → Instr) × BlockSpec, e ∈ _ → BlockGives e.1 e.2
    simp only [List.forall_mem_cons, List.not_mem_nil, false_imp_iff, forall_const, and_true]
    refine ⟨?bxpack, ?bxunpack, ?hcvt⟩ <;> exact blockGives fun _ _ => rfl

end Sys2Proof.Machine
end

section
/-!
Lanes that act one after another (R171): the course when each takes its turn, and when every one leaves. With them the obligation
on membership changes and on instructions that only go on (R132, R133, R409, R425, R426, R428).
-/
namespace Sys2Proof.Machine

/-! ## Lane after lane -/

/-- Lanes take their turns one after another, each by a step that the relation and an invariant on the state and on the lanes
still to come allow. -/
theorem each_inTurn_left {act : State → Lane → State × Option LaneFail} {R : State → Lane → State → Prop} (Inv : List Nat → State → Prop)
    {c : Nat} {x : Pass} (hact : ∀ k r u, Inv (k :: r) u → ∃ v, act u (x.lane c k) = (v, none) ∧ R u (x.lane c k) v ∧ Inv r v)
    {ks : List Nat} {s : State} (h0 : Inv ks s) : ∃ u, InTurn act c x ks s u ∧ Each R c x ks s u ∧ Inv [] u := by
  induction ks generalizing s with
  | nil => exact ⟨s, rfl, rfl, h0⟩
  | cons k r ih =>
    obtain ⟨v, hv, hR, hI⟩ := hact k r s h0
    obtain ⟨u, hturn, heach, hu⟩ := ih hI
    exact ⟨u, ⟨v, hv, hturn⟩, ⟨v, hR, heach⟩, hu⟩

section
variable {s : State} {c p : Nat} {x : Pass} {g : Guard} {ks : List Nat} (h : Executes s c p x g ks)
include h

/-- The course lane after lane, under an invariant on the state and on the lanes still to come that keeps the pass on its pipe. -/
theorem execSeq_lanesRun_left {R : State → Lane → State → Prop} {act : State → Lane → State × Option LaneFail} (reads : Bool)
    (Inv : List Nat → State → Prop) (h0 : Inv ks s) (hpipe : ∀ u, Inv [] u → Tbl.look (u.core c).pipes p = some x)
    (hact : ∀ k r u, Inv (k :: r) u → ∃ v, act u (x.lane c k) = (v, none) ∧ R u (x.lane c k) v ∧ Inv r v) :
    ∃ t, s.execSeq g reads act = .next t ∧ LanesRun R s c p x ks reads t := by
  obtain ⟨u, hturn, heach, hu⟩ := each_inTurn_left Inv hact h0
  obtain ⟨t, hexec, hon⟩ := s.execSeq_inTurn g reads act h hturn (hpipe u hu) rfl
  exact ⟨t, hexec, u, heach, hon⟩

/-- The course lane after lane, under an invariant of the state that keeps the pass on its pipe. -/
theorem execSeq_lanesRun {R : State → Lane → State → Prop} {act : State → Lane → State × Option LaneFail} (reads : Bool)
    (Inv : State → Prop) (h0 : Inv s) (hpipe : ∀ u, Inv u → Tbl.look (u.core c).pipes p = some x)
    (hact : ∀ u, Inv u → ∀ k ∈ ks, ∃ v, act u (x.lane c k) = (v, none) ∧ R u (x.lane c k) v ∧ Inv v) :
    ∃ t, s.execSeq g reads act = .next t ∧ LanesRun R s c p x ks reads t := by
  obtain ⟨u, hturn, heach, hu⟩ := each_inTurn Inv hact h0
  obtain ⟨t, hexec, hon⟩ := s.execSeq_inTurn g reads act h hturn (hpipe u hu) rfl
  exact ⟨t, hexec, u, heach, hon⟩

/-- One lane acts, and the pass goes on. -/
theorem execSeq_single {act : State → Lane → State × Option LaneFail} (reads : Bool) {k : Nat} {u : State} (hk : ks = [k])
    (hact : act s (x.lane c k) = (u, none)) (hpipe : Tbl.look (u.core c).pipes p = some x) :
    ∃ t, s.execSeq g reads act = .next t ∧ GoesOn u t c p x reads [(k, ({ th := s.thr c k } : LaneOut))] := by
  subst hk
  exact s.execSeq_inTurn g reads act h ⟨u, hact, rfl⟩ hpipe rfl

/-- Every executing lane leaves at once and changes nothing: the pass goes on without them. -/
theorem execSeq_all_leave {act : State → Lane → State × Option LaneFail} (reads : Bool) {fail : Nat → LaneFail}
    (hact : ∀ k ∈ ks, act s (x.lane c k) = (s, some (fail k))) :
    s.execSeq g reads act = .next (s.afterInstr c p x (ks.map (fun k => (k, fail k)))) := by
  obtain ⟨hcur, hex, -⟩ := h
  have hfold : ∀ l, ks.foldl (laneStep c x act) (s, l) = (s, l ++ ks.map (fun k => (k, fail k))) := by
    clear hex
    induction ks with
    | nil => simp
    | cons k r ih =>
      intro l
      rw [List.foldl_cons, laneStep, hact k List.mem_cons_self]
      rw [ih (fun j hj => hact j (List.mem_cons_of_mem _ hj))]
      simp
  have hgone : (ks.map (fun k => (k, fail k))).map (·.1) = ks := by simp [Function.comp_def]
  have hnone : ks.filter (fun k => !ks.contains k) = [] := by simp
  simp only [State.execSeq, hcur, hex, hfold, List.nil_append, State.pipe_of_curPass hcur, Option.getD_some, hgone, hnone]
  rfl

end

/-! ## Instructions that only go on (R132, R133, R428) -/

/-- Lanes none of which changes anything. -/
theorem execSeq_idle {s : State} {c p : Nat} {x : Pass} {g : Guard} {ks : List Nat} (h : Executes s c p x g ks) (reads : Bool)
    {act : State → Lane → State × Option LaneFail} (hact : ∀ k ∈ ks, act s (x.lane c k) = (s, none)) :
    ∃ t, s.execSeq g reads act = .next t ∧ LanesRun (fun u _ v => v = u) s c p x ks reads t := by
  refine execSeq_lanesRun h reads (fun u => u = s) rfl (fun u hu => hu ▸ State.pipe_of_curPass h.1) (fun u hu k hk => ⟨s, ?_, hu.symm, rfl⟩)
  rw [hu]
  exact hact k hk

/-! ## Membership (R409, R425, R426) -/

/-- The gang that a join leaves: a member at the sequence `next`, with no vote outstanding and no drop recorded. -/
def Gang.joined (g : Gang) (n : Nat) (next : BitVec 16) : Gang :=
  (((g.setMember n true).setWait n false).setDrop n 0).setSeq n next

/-- The sequence that a gang which joins votes in next: the one after an open sequence that has a vote. -/
def Ctx.joinSeq (y : Ctx) (n : Nat) : BitVec 16 :=
  let q := Mset.seq (y.msetOf n)
  if y.openSeqs.any (fun o => o.reg == n && o.seq == q && 0 < o.v) then q + 1 else q

section
variable {f : Fields} {s : State} {c p : Nat} {x : Pass} {ks : List Nat} (h : Executes s c p x f.guard ks)
include h

/-- In a clause with CONV = 0 an instruction that acts once for a gang faults each executing lane (R409). -/
theorem gangOp_unconverged (act : State → Lane → State) (hconv : Hdr.conv x.hdr = false) :
    gangOp s f act = .next (s.afterInstr c p x (ks.map (fun k => (k, LaneFail.fault ⟨0x11, BitVec.ofNat 32 f.dst.toSpec.toNat, 0⟩)))) := by
  refine execSeq_all_leave h false (fun k _ => ?_)
  simp only [Pass.lane, hconv, opInfo, pDST]
  rfl

/-- In a clause with CONV = 1 each lane acts on its gang in its turn. -/
theorem gangOp_lanesRun (act : State → Lane → Gang) (hspec : ∀ k ∈ ks, (s.thr c k).spec = false) (hconv : Hdr.conv x.hdr = true) :
    ∃ t, gangOp s f (fun u l => u.setGang l.core l.gslot (act u l)) = .next t
      ∧ LanesRun (fun u l v => v = u.setGang l.core l.gslot (act u l)) s c p x ks false t := by
  refine execSeq_lanesRun h false (fun u => u = { s with gangs := u.gangs }) rfl ?pipe ?turn
  case pipe =>
    intro u hu
    rw [hu]
    exact State.pipe_of_curPass h.1
  case turn =>
    intro u hu k hk
    have hthr : ((x.lane c k).thr u).spec = false := by
      rw [hu]
      exact hspec k hk
    refine ⟨_, ?_, rfl, ?_⟩
    · simp only [show (x.lane c k).hdr = x.hdr from rfl, hconv, hthr]
      rfl
    · rw [hu]
      rfl

end

theorem onesAt_one (w i : Nat) : onesAt w i 1 = BitVec.ofNat w (2 ^ i) := by simp [onesAt]

theorem Gang.setMember_false (g : Gang) (n : Nat) : g.setMember n false = { g with mj := g.mj &&& ~~~(BitVec.ofNat 16 (2 ^ n)) } := by
  rw [Gang.setMember, onesAt_one]
  rfl

theorem Gang.joined_eq (g : Gang) (n : Nat) (next : BitVec 16) : g.joined n next = { g with
    mj := g.mj ||| BitVec.ofNat 16 (2 ^ n), wait := g.wait &&& ~~~(BitVec.ofNat 16 (2 ^ n)), voided := g.voided &&& ~~~(BitVec.ofNat 16 (2 ^ n))
    gseq := Tbl.put g.gseq n next, drop := Tbl.put g.drop n 0 } := by
  simp only [Gang.joined, Gang.setMember, Gang.setWait, onesAt_one]
  rfl

/-- Settles O33: the idle instructions leave every state as it is, and a membership instruction is one change of its lane's gang. -/
theorem membershipAndNoOperationResults : Obligations.MembershipAndNoOperationResults := by
  unfold Obligations.MembershipAndNoOperationResults
  intro f s c p x ks h
  refine ⟨execSeq_idle h false (fun _ _ => rfl), execSeq_idle h false (fun _ _ => rfl), fun hspec => ?sfence, fun hconv => ?fault,
    fun hspec hconv => ⟨?leave, ?join⟩⟩
  case sfence =>
    refine execSeq_idle h false (fun k hk => ?_)
    rw [show ((x.lane c k).thr s).spec = false from hspec k hk]
    rfl
  case fault => exact ⟨gangOp_unconverged h _ hconv, gangOp_unconverged h _ hconv⟩
  case leave =>
    obtain ⟨t, hexec, hrun⟩ := gangOp_lanesRun h (fun u l => (l.gang u).setMember f.minor.toNat false) hspec hconv
    simp only [Gang.setMember_false] at hrun
    exact ⟨t, hexec, hrun⟩
  case join =>
    obtain ⟨t, hexec, hrun⟩ := gangOp_lanesRun h (fun u l => if (l.gang u).member f.minor.toNat then l.gang u
      else (l.gang u).joined f.minor.toNat ((u.ctx (l.ctxId u)).joinSeq f.minor.toNat)) hspec hconv
    simp only [Gang.joined_eq] at hrun
    exact ⟨t, hexec, hrun⟩

end Sys2Proof.Machine
end

section
/-!
The obligation on branches, calls and returns, and on the faults of bad successors (R104 to R107, R109 to R112, R120, R121).
-/
namespace Sys2Proof.Machine

/-! ## Successors (R107, R120) -/

/-- The fault of a successor that fails a check, in the layout of a fetch (R121). -/
def badSuccessor (a : DWord) : FaultInfo := ⟨if a.toNat % 32 ≠ 0 then 7 else 0x0B, 0x148, a⟩

theorem checkSuccessor_good {a : DWord} (h : a.toNat % 32 = 0 ∧ canonical a.toNat = true) : checkSuccessor a = .ok a := by
  simp [checkSuccessor, h.1, h.2]

theorem checkSuccessor_bad {a : DWord} (h : ¬ (a.toNat % 32 = 0 ∧ canonical a.toNat = true)) :
    checkSuccessor a = .error (.fault (badSuccessor a)) := by
  unfold checkSuccessor badSuccessor
  by_cases ha : a.toNat % 32 = 0
  · have hc : canonical a.toNat = false := Bool.eq_false_iff.mpr fun hc => h ⟨ha, hc⟩
    simp only [ha, hc]
    rfl
  · simp only [ne_eq, ha, not_false_eq_true, if_true]
    rfl

/-! ## Terminators at which lanes fault -/

/-- The lanes of a terminator take their turns, and those that `fault` names leave their state as it is and fault. -/
theorem each_split {act : State → Lane → State × Option LaneFail} {R : State → Lane → State → Prop} (Inv : State → Prop) {c : Nat}
    {x : Pass} {fault : Nat → Option FaultInfo} {ks : List Nat}
    (hturn : ∀ u, Inv u → ∀ k ∈ ks, fault k = none → ∃ v, act u (x.lane c k) = (v, none) ∧ R u (x.lane c k) v ∧ Inv v)
    (hfault : ∀ u, Inv u → ∀ k ∈ ks, ∀ i, fault k = some i → act u (x.lane c k) = (u, some (.fault i))) {s : State} (h0 : Inv s)
    (l : List (Nat × LaneFail)) :
    ∃ u, ks.foldl (laneStep c x act) (s, l)
        = (u, l ++ (ks.filter (fun k => (fault k).isSome)).map (fun k => (k, LaneFail.fault ((fault k).getD default))))
      ∧ Each R c x (ks.filter (fun k => (fault k).isNone)) s u ∧ Inv u := by
  induction ks generalizing s l with
  | nil => exact ⟨s, by simp, rfl, h0⟩
  | cons k r ih =>
    have hr := fun w => ih (s := w) (fun u hu j hj => hturn u hu j (List.mem_cons_of_mem _ hj)) (fun u hu j hj => hfault u hu j (List.mem_cons_of_mem _ hj))
    cases hk : fault k with
    | none =>
      obtain ⟨v, hv, hR, hI⟩ := hturn s h0 k List.mem_cons_self hk
      obtain ⟨u, hfold, heach, hu⟩ := hr _ hI l
      refine ⟨u, ?_, ?_, hu⟩
      · simpa [laneStep, hv, hk] using hfold
      · simpa [hk] using ⟨v, hR, heach⟩
    | some i =>
      obtain ⟨u, hfold, heach, hu⟩ := hr _ h0 (l ++ [(k, .fault i)])
      refine ⟨u, ?_, ?_, hu⟩
      · simpa [laneStep, hfault s h0 k List.mem_cons_self i hk, hk] using hfold
      · simpa [hk] using heach

/-- A terminator at which the lanes that `fault` names fault, and the others take their turns. -/
theorem execTerm_split {act : State → Lane → State × Option LaneFail} {R : State → Lane → State → Prop} (Inv : State → Prop)
    {s : State} {c p : Nat} {x : Pass} {fault : Nat → Option FaultInfo} (hcur : s.curPass = some (c, p, x)) (h0 : Inv s)
    (hcores : ∀ u, Inv u → u.cores = s.cores)
    (hturn : ∀ u, Inv u → ∀ k ∈ x.slots, fault k = none → ∃ v, act u (x.lane c k) = (v, none) ∧ R u (x.lane c k) v ∧ Inv v)
    (hfault : ∀ u, Inv u → ∀ k ∈ x.slots, ∀ i, fault k = some i → act u (x.lane c k) = (u, some (.fault i))) :
    ∃ t, s.execTerm act = .next t ∧ LanesSplit R s c p x fault t := by
  obtain ⟨u, hfold, heach, hu⟩ := each_split Inv hturn hfault h0 []
  have hpipe : Tbl.look (u.core c).pipes p = some x := by
    rw [State.core, hcores u hu]
    exact State.pipe_of_curPass hcur
  refine ⟨_, ?_, u, heach, rfl⟩
  simp only [State.execTerm, hcur, hfold, hpipe, Option.getD_some, List.nil_append, List.map_map, Function.comp_def, List.map_id']

/-- Where no lane faults, a terminator's lanes all take their turns. -/
theorem LanesSplit.lanesEnd {R : State → Lane → State → Prop} {s t : State} {c p : Nat} {x : Pass} {fault : Nat → Option FaultInfo}
    (h : LanesSplit R s c p x fault t) (hf : ∀ k ∈ x.slots, fault k = none) : LanesEnd R s c p x t := by
  obtain ⟨u, heach, ht⟩ := h
  have hall : x.slots.filter (fun k => (fault k).isNone) = x.slots := List.filter_eq_self.mpr fun k hk => by simp [hf k hk]
  have hbad : x.slots.filter (fun k => (fault k).isSome) = [] := List.filter_eq_nil_iff.mpr fun k hk => by simp [hf k hk]
  rw [hall] at heach
  rw [hbad, Pass.without_nil] at ht
  exact ⟨u, heach, ht⟩

/-! ## Branches -/

theorem LaneOut.put_preds (o : LaneOut) (regs : Nat) (d : Operand) (w : Word) : (o.put regs d w).th.preds = o.th.preds := by
  cases d with
  | v n =>
    simp only [LaneOut.put, Thread.putV]
    split <;> rfl
  | _ => rfl

theorem LaneOut.putPair_preds (o : LaneOut) (regs : Nat) (d : Operand) (w : DWord) : (o.putPair regs d w).th.preds = o.th.preds := by
  rw [LaneOut.putPair, LaneOut.put_preds, LaneOut.put_preds]

/-- The thread of a lane that branches to `a`. -/
def branched (f : Fields) (ft a : DWord) (linked : Bool) (regs : Nat) (th : Thread) : Thread :=
  { (if linked then (({ th := th } : LaneOut).putPair regs f.dst ft).th else th) with pos := entryPos a }

theorem branched_preds (f : Fields) (ft a : DWord) (linked : Bool) (regs : Nat) (th : Thread) :
    (branched f ft a linked regs th).preds = th.preds := by
  cases linked
  · rfl
  · exact LaneOut.putPair_preds { th := th } regs f.dst ft

/-- What a lane's branch comes to once its target is read: the checks of the target, then the link and the position. -/
theorem branchTo_eq {s u : State} {f : Fields} {c p : Nat} {x : Pass} {target : Lane → Except LaneFail DWord} (link : Bool) {k : Nat}
    {a : DWord} (hcur : s.curPass = some (c, p, x)) (ha : target (x.lane c k) = .ok a) :
    branchTo s f target link u (x.lane c k) = (checkSuccessor a).map (fun a =>
      u.setThr c k (branched f (fallThrough x.clause x.body) a link ((x.lane c k).regs u) (u.thr c k))) := by
  simp only [branchTo, ha, Pass.lane_ft hcur, bind, Except.bind]
  cases checkSuccessor a with
  | error e => rfl
  | ok b =>
    simp only [Except.map, State.succeed_eq, branched]
    cases link <;> exact congrArg Except.ok (by rw [show (x.lane c k).core = c from rfl, show (x.lane c k).slot = k from rfl,
      State.setThr_setThr, State.thr_setThr_self]; rfl)

/-- The fault of a lane at a branch to `a`: that of a bad target which it takes. -/
def branchFault (s : State) (f : Fields) (c : Nat) (a : Nat → DWord) (k : Nat) : Option FaultInfo :=
  if (s.thr c k).holds f.guard && (decide ((a k).toNat % 32 ≠ 0) || !canonical (a k).toNat) then some (badSuccessor (a k)) else none

theorem branchFault_eq_none {s : State} {f : Fields} {c k : Nat} {a : Nat → DWord} : branchFault s f c a k = none
    ↔ ((s.thr c k).holds f.guard = true → (a k).toNat % 32 = 0 ∧ canonical (a k).toNat = true) := by
  unfold branchFault
  cases (s.thr c k).holds f.guard <;> cases canonical (a k).toNat <;> by_cases h : (a k).toNat % 32 = 0 <;> simp [h]

theorem branchFault_eq_some {s : State} {f : Fields} {c k : Nat} {a : Nat → DWord} {i : FaultInfo} (h : branchFault s f c a k = some i) :
    (s.thr c k).holds f.guard = true ∧ ¬ ((a k).toNat % 32 = 0 ∧ canonical (a k).toNat = true) ∧ i = badSuccessor (a k) := by
  have hne : ¬ branchFault s f c a k = none := by rw [h]; exact nofun
  rw [branchFault_eq_none, Classical.not_imp] at hne
  obtain ⟨hholds, hbad⟩ := hne
  refine ⟨hholds, hbad, ?_⟩
  unfold branchFault at h
  split at h
  · exact (Option.some.inj h).symm
  · exact nomatch h

/-- What the turns of a branch keep: the cores, and every thread's predicates. -/
structure BranchKeeps (s u : State) (c : Nat) : Prop where
  cores : u.cores = s.cores
  preds : ∀ k, (u.thr c k).preds = (s.thr c k).preds

namespace BranchKeeps
variable {s u : State} {c : Nat}

theorem setThr (h : BranchKeeps s u c) {k : Nat} {th : Thread} (hth : th.preds = (u.thr c k).preds) : BranchKeeps s (u.setThr c k th) c := by
  refine ⟨h.cores, fun j => ?_⟩
  by_cases e : j = k
  · rw [e, State.thr_setThr_self, hth, h.preds]
  · rw [State.thr_setThr_ne _ _ _ e, h.preds]

theorem holds (h : BranchKeeps s u c) (g : Guard) (k : Nat) : (u.thr c k).holds g = (s.thr c k).holds g := by
  rw [Thread.holds, Thread.holds, h.preds]

end BranchKeeps

section
variable {s : State} {f : Fields} {c p : Nat} {x : Pass} {a : Nat → DWord} {ts : List (Nat × OpKind × Operand)}
  {target : Lane → Except LaneFail DWord} (link : Bool) (hcur : s.curPass = some (c, p, x))
  (hcheck : ∀ k ∈ x.slots, (x.lane c k).check s ts = .ok ())
  (htarget : ∀ k ∈ x.slots, (s.thr c k).holds f.guard = true → target (x.lane c k) = .ok (a k))
include hcur hcheck htarget

/-- A branch: the lanes whose predicate holds go to their targets, those with a bad target fault, and the others fall through. -/
theorem branch_lanesSplit : ∃ t, termOp s f ts (branchTo s f target link) = .next t
    ∧ LanesSplit (BranchLane f (fallThrough x.clause x.body) a link) s c p x (branchFault s f c a) t := by
  rw [termOp_eq]
  refine execTerm_split (fun u => BranchKeeps s u c) hcur ⟨rfl, fun _ => rfl⟩ (fun u hu => hu.cores) (fun u hu k hk hok => ?turn)
    (fun u hu k hk i hi => ?fault)
  case turn =>
    unfold BranchLane
    rw [show (x.lane c k).thr u = u.thr c k from rfl]
    by_cases hholds : (u.thr c k).holds f.guard = true
    · have hs := hholds
      rw [hu.holds] at hs
      have hgood := branchFault_eq_none.mp hok hs
      refine ⟨u.setThr c k (branched f (fallThrough x.clause x.body) (a k) link ((x.lane c k).regs u) (u.thr c k)), ?_, ?_,
        hu.setThr (branched_preds _ _ _ _ _ _)⟩
      · simp only [termTurn, hcheck k hk, show (x.lane c k).thr u = u.thr c k from rfl, hholds, if_true,
          branchTo_eq link hcur (htarget k hk hs), checkSuccessor_good hgood]
        rfl
      · rw [if_pos hholds]
        rfl
    · refine ⟨u.succeed (x.lane c k) (fallThrough x.clause x.body), ?_, ?_, hu.setThr rfl⟩
      · simp only [termTurn, hcheck k hk, show (x.lane c k).thr u = u.thr c k from rfl, hholds, Pass.lane_ft hcur]
        rfl
      · rw [if_neg hholds]
        rfl
  case fault =>
    obtain ⟨hs, hbad, rfl⟩ := branchFault_eq_some hi
    have hholds := hs
    rw [← hu.holds] at hholds
    simp only [termTurn, hcheck k hk, show (x.lane c k).thr u = u.thr c k from rfl, hholds, if_true,
      branchTo_eq link hcur (htarget k hk hs), checkSuccessor_bad hbad]
    rfl

/-- A branch whose targets are all good: the lanes whose predicate holds go to them, and the others fall through. -/
theorem branch_lanesEnd
    (hgood : ∀ k ∈ x.slots, (s.thr c k).holds f.guard = true → (a k).toNat % 32 = 0 ∧ canonical (a k).toNat = true) :
    ∃ t, termOp s f ts (branchTo s f target link) = .next t ∧ LanesEnd (BranchLane f (fallThrough x.clause x.body) a link) s c p x t := by
  obtain ⟨t, hexec, hsplit⟩ := branch_lanesSplit link hcur hcheck htarget
  exact ⟨t, hexec, hsplit.lanesEnd fun k hk => branchFault_eq_none.mpr (hgood k hk)⟩

end

/-- The target of a direct branch is the same for every lane of the pass (R106). -/
theorem immTarget_lane (f : Fields) (x : Pass) (c k : Nat) :
    immTarget f (x.lane c k) = .ok (x.clause + BitVec.ofInt 64 (32 * (f.imm.getD 0).toInt)) := rfl

/-- Settles O29: each instruction is the one branch, with its own target and link. -/
theorem branchesAndBadSuccessors : Obligations.BranchesAndBadSuccessors := by
  unfold Obligations.BranchesAndBadSuccessors
  refine ⟨fun f s c p x a hcur => ?good, fun f s c p x a hcur => ?split⟩
  case good =>
    intro ft direct taken R hgood
    have fieldless : ∀ k ∈ x.slots, (x.lane c k).check s [] = .ok () := fun _ _ => rfl
    refine ⟨fun ha => ?_, fun ha => ⟨fun hc => ?_, fun hc => branch_lanesEnd true hcur hc ha hgood⟩⟩
    · have htarget : ∀ k ∈ x.slots, (s.thr c k).holds f.guard = true → immTarget f (x.lane c k) = .ok (a k) := fun k hk _ => by
        rw [ha k hk, immTarget_lane]
      exact ⟨branch_lanesEnd false hcur fieldless htarget hgood, branch_lanesEnd false hcur fieldless htarget hgood,
        fun hc => branch_lanesEnd true hcur hc htarget hgood⟩
    · exact ⟨branch_lanesEnd false hcur hc ha hgood, branch_lanesEnd false hcur hc ha hgood⟩
  case split =>
    intro ft direct taken fault
    have fieldless : ∀ k ∈ x.slots, (x.lane c k).check s [] = .ok () := fun _ _ => rfl
    refine ⟨fun ha => ?_, fun ha => ⟨fun hc => ?_, fun hc => branch_lanesSplit true hcur hc ha⟩⟩
    · have htarget : ∀ k ∈ x.slots, (s.thr c k).holds f.guard = true → immTarget f (x.lane c k) = .ok (a k) := fun k hk _ => by
        rw [ha k hk, immTarget_lane]
      exact ⟨branch_lanesSplit false hcur fieldless htarget, branch_lanesSplit false hcur fieldless htarget,
        fun hc => branch_lanesSplit true hcur hc htarget⟩
    · exact ⟨branch_lanesSplit false hcur hc ha, branch_lanesSplit false hcur hc ha⟩

end Sys2Proof.Machine
end

section
/-!
The obligation on effective addresses, on the checks of an access, and on the places of bytes in HBM (R117 to R121, R249, R276).
-/
namespace Sys2Proof.Machine

/-! ## Effective addresses (R117) -/

section
variable {l : Lane} {s : State}

theorem Lane.readTerm_eq {place : Nat} {o : Operand} {v : Int}
    (h : if o = .none then v = 0 else ∃ w, l.readWord s place o = .ok w ∧ v = w.toInt) : l.readTerm s place o = .ok v := by
  unfold Lane.readTerm
  by_cases e : o = .none
  · rw [if_pos e] at h
    rw [e, h]
    rfl
  · rw [if_neg e] at h
    obtain ⟨w, hw, hv⟩ := h
    rw [if_neg (by simpa using e), hw, hv]
    rfl

/-- The address is formed once each of its terms is. -/
theorem Lane.address_eq {f : Fields} {space : Nat} {index : Bool} {base : Nat} {idx off : Int}
    (hbase : (if space = 0 ∨ space = 3 then (l.readPair s pSA f.sa).map (·.toNat) else (l.readWord s pSA f.sa).map (·.toNat)) = .ok base)
    (hidx : if index = false ∨ f.sb = .none then idx = 0 else ∃ w, l.readWord s pSB f.sb = .ok w ∧ idx = w.toInt)
    (hoff : match f.imm with
      | some i => off = i.toInt
      | none => if f.sc = .none then off = 0 else ∃ w, l.readWord s pSC f.sc = .ok w ∧ off = w.toInt) :
    l.address s f space index
      = .ok (wrap ((base : Int) + idx * ((2 ^ f.slot.toNat : Nat) : Int) + off) (if space = 0 ∨ space = 3 then 64 else 32)) := by
  have hterm : (if index then l.readTerm s pSB f.sb else .ok 0) = .ok idx := by
    cases index with
    | false => rw [if_pos (.inl rfl)] at hidx; rw [hidx]; rfl
    | true => exact Lane.readTerm_eq (by simpa only [Bool.true_eq_false, false_or] using hidx)
  have hflat : l.address s f space index = Except.bind
      (if space = 0 ∨ space = 3 then (l.readPair s pSA f.sa).map (·.toNat) else (l.readWord s pSA f.sa).map (·.toNat))
      fun base => Except.bind (if index then l.readTerm s pSB f.sb else .ok 0)
      fun idx => Except.bind (match f.imm with | some w => .ok w.toInt | none => l.readTerm s pSC f.sc)
      fun off => .ok (wrap ((base : Int) + idx * ((2 ^ f.slot.toNat : Nat) : Int) * (if index then 1 else 0) + off)
        (if space = 0 ∨ space = 3 then 64 else 32)) := by
    unfold Lane.address
    simp only [Bool.or_eq_true, beq_iff_eq]
    by_cases hwide : space = 0 ∨ space = 3
    · cases index <;> cases f.imm <;> simp only [hwide, if_true] <;> rfl
    · cases index <;> cases f.imm <;> simp only [hwide, if_false] <;> rfl
  have hzero : idx * ((2 ^ f.slot.toNat : Nat) : Int) * (if index then 1 else 0) = idx * ((2 ^ f.slot.toNat : Nat) : Int) := by
    cases index with
    | false => rw [if_pos (.inl rfl)] at hidx; rw [hidx]; simp
    | true => simp
  rw [hflat, hbase, hterm]
  simp only [Except.bind, hzero]
  cases himm : f.imm with
  | some w => simp only [himm] at hoff ⊢; rw [hoff]
  | none => simp only [himm] at hoff ⊢; rw [Lane.readTerm_eq hoff]

end

/-! ## Checks of an access (R118 to R121) -/

/-- An access of `size` bytes fails a check, the first of them in their order, with this code and stage. -/
def AccessFails (s : State) (l : Lane) (f : Fields) (size space : Nat) (n : Need) (ea : Nat) (e : Nat × Bool) : Prop :=
  (ea % size ≠ 0 ∧ e = (7, false))
  ∨ (ea % size = 0 ∧ (space = 0 ∨ space = 3) ∧ canonical ea = false ∧ e = (0x0B, false))
  ∨ (ea % size = 0 ∧ space = 1 ∧ (l.grid s).scrsize < ea + size ∧ e = (0x0A, false))
  ∨ (ea % size = 0 ∧ space = 2 ∧ winSize (l.regs s) (l.grid s).dregs < ea + size ∧ e = (0x0A, false))
  ∨ (ea % size = 0 ∧ (space = 0 ∨ space = 3) ∧ canonical ea = true
    ∧ (s.latch l f).translate l.core (l.ctxId s) { n with user := !(l.thr s).priv } ea = .error e)

/-- The fault of an access that fails a check (R121). -/
def accessFault (size space policy ea : Nat) (wr : Bool) (e : Nat × Bool) : FaultInfo :=
  ⟨BitVec.ofNat 8 e.1, BitVec.ofNat 32 (space + 4 * b2n wr + 16 * policy + 64 * Nat.log2 size + 512 * b2n e.2), BitVec.ofNat 64 ea⟩

theorem Lane.memFault_eq (size space policy ea : Nat) (wr : Bool) (e : Nat × Bool) :
    Lane.memFault e.1 ea space policy (Nat.log2 size) wr e.2 = .fault (accessFault size space policy ea wr e) := by
  simp [Lane.memFault, accessInfo, accessFault, b2n]

theorem Lane.thr_latch (l : Lane) (s : State) (f : Fields) : l.thr (s.latch l f) = { l.thr s with clkh := (l.start s f).th.clkh } :=
  State.thr_setThr_self _ _ _ _

/-- The checks of an access report the one that fails. -/
theorem Lane.reachAligned_fails {s : State} {l : Lane} {f : Fields} {size space : Nat} {n : Need} {ea : Nat} {e : Nat × Bool} (policy : Nat)
    (h : AccessFails s l f size space n ea e) :
    l.reachAligned (s.latch l f) space policy ea size n = .error (.fault (accessFault size space policy ea n.store e)) := by
  rw [← Lane.memFault_eq]
  unfold Lane.reachAligned Lane.reach
  have hpriv : (l.thr (s.latch l f)).priv = (l.thr s).priv := by rw [Lane.thr_latch]
  have hctx : l.ctxId (s.latch l f) = l.ctxId s := rfl
  have hgrid : l.grid (s.latch l f) = l.grid s := rfl
  have hregs : l.regs (s.latch l f) = l.regs s := rfl
  obtain ⟨hal, rfl⟩ | ⟨hal, hspace, hcan, rfl⟩ | ⟨hal, rfl, hout, rfl⟩ | ⟨hal, rfl, hout, rfl⟩ | ⟨hal, hspace, hcan, htr⟩ := h
  · rw [if_pos hal]
  · rw [if_neg (not_not.mpr hal), if_pos (by simpa using hspace), hcan]
    rfl
  · rw [if_neg (not_not.mpr hal), hgrid, if_pos hout]
    rfl
  · rw [if_neg (not_not.mpr hal), hgrid, hregs, if_pos hout]
    rfl
  · rw [if_neg (not_not.mpr hal), if_pos (by simpa using hspace), hcan, hctx, hpriv, htr]
    rfl

/-! ## Instructions whose every access fails -/

theorem Lane.needFlag_ok {x : Pass} {c k : Nat} {fs : Bool} {flag : Nat} (h : setFlag x.hdr fs = some flag) :
    (x.lane c k).needFlag fs = .ok flag := by
  simp only [Lane.needFlag, Pass.lane, h]

theorem Lane.stopIfSpec_ok {l : Lane} {s : State} (h : (l.thr s).spec = false) : l.stopIfSpec s = .ok () := by
  simp [Lane.stopIfSpec, h]

/-- With no flag at its greatest value a long-latency instruction takes the course lane after lane. -/
theorem longOp_eq {s : State} {f : Fields} {fs : Bool} (act : State → Lane → State × Option LaneFail) (h : s.fullFlag f.guard fs = none) :
    longOp s f fs act = s.execSeq f.guard f.readsChannel act := by
  rw [longOp, h]

section
variable {s : State} {f : Fields} {l : Lane} {size space policy ea : Nat} {e : Nat × Bool} {flag : Nat}

theorem loadAct_fails (hc : l.check s (memFields f space true ++ [(pDST, OpKind.loadGroup (groupRegs f), f.dst)]) = .ok ())
    (hflag : l.needFlag (f.md.getLsbD 0) = .ok flag) (ha : l.address s f space true = .ok ea)
    (hf : AccessFails s l f (accSize f) space { load := true } ea e) :
    loadAct f space policy s l = .error (.fault (accessFault (accSize f) space policy ea false e)) := by
  simp only [loadAct, hc, hflag, ha, Lane.reachAligned_fails policy hf, bind, Except.bind]

theorem storeAct_fails {bs : List Byte}
    (hc : l.check s (memFields f (f.minor.toNat % 4) true ++ [(pDST, OpKind.dataGroup (groupRegs f), f.dst)]) = .ok ())
    (ha : l.address s f (f.minor.toNat % 4) true = .ok ea) (hb : l.storeBytes s f = .ok bs)
    (hf : AccessFails s l f (accSize f) (f.minor.toNat % 4) { store := true } ea e) :
    storeAct f s l = .error (.fault (accessFault (accSize f) (f.minor.toNat % 4) (f.minor.toNat / 4) ea true e)) := by
  simp only [storeAct, hc, ha, hb, Lane.reachAligned_fails (f.minor.toNat / 4) hf, bind, Except.bind]

theorem atomicAct_fails {α : Type} {long bus : Bool} {data : State → Lane → Except LaneFail α} {sb : OpKind} {new : α → Nat → Option Nat} {b : α}
    (hc : l.check s ([(pSA, if f.minor.toNat / 8 = 0 then OpKind.reg true else OpKind.src false, f.sa), (pSB, sb, f.sb)]
      ++ unlessImm f (pSC, OpKind.srcOpt false, f.sc) ++ (if long then [(pDST, OpKind.load f.ty.isPair, f.dst)] else [])) = .ok ())
    (hflag : long = true → l.needFlag (f.md.getLsbD 0) = .ok flag) (hspec : (l.thr s).spec = false)
    (ha : l.address s f (f.minor.toNat / 8) false = .ok ea) (hb : data s l = .ok b)
    (hf : AccessFails s l f (elemBytes f.ty) (f.minor.toNat / 8) { load := true, store := true } ea e) :
    atomicAct f long bus data sb new s l = .error (.fault (accessFault (elemBytes f.ty) (f.minor.toNat / 8) 0 ea true e)) := by
  cases long with
  | false =>
    simp only [Bool.false_eq_true, if_false] at hc
    simp only [atomicAct, beq_iff_eq, Bool.false_eq_true, if_false, hc, Lane.stopIfSpec_ok hspec, ha, hb, Lane.reachAligned_fails 0 hf, bind, Except.bind]
  | true =>
    simp only [if_true] at hc
    simp only [atomicAct, beq_iff_eq, if_true, hc, hflag, Lane.stopIfSpec_ok hspec, ha, hb, Lane.reachAligned_fails 0 hf, bind, Except.bind]

theorem racqAct_fails (hc : l.check s ([(pSA, OpKind.reg true, f.sa)] ++ unlessImm f (pSC, OpKind.srcOpt false, f.sc)
      ++ [(pDST, OpKind.load f.ty.isPair, f.dst)]) = .ok ())
    (hflag : l.needFlag (f.md.getLsbD 0) = .ok flag) (hspec : (l.thr s).spec = false) (ha : l.address s f 0 false = .ok ea)
    (hf : AccessFails s l f (elemBytes f.ty) 0 { load := true } ea e) :
    racqAct f s l = .error (.fault (accessFault (elemBytes f.ty) 0 0 ea false e)) := by
  simp only [racqAct, hc, hflag, Lane.stopIfSpec_ok hspec, ha, Lane.reachAligned_fails 0 hf, bind, Except.bind]

end

/-- Every executing lane of an instruction with fallible acts leaves with the error of its act. -/
theorem execSeq_all_fail {s : State} {c p : Nat} {x : Pass} {g : Guard} {ks : List Nat} (h : Executes s c p x g ks) (reads : Bool)
    {act : State → Lane → Except LaneFail State} {fail : Nat → LaneFail} (hact : ∀ k ∈ ks, act s (x.lane c k) = .error (fail k)) :
    s.execSeq g reads (fun s l => seqAct s (act s l)) = .next (s.afterInstr c p x (ks.map (fun k => (k, fail k)))) :=
  execSeq_all_leave h reads fun k hk => by rw [hact k hk]; rfl

/-! ## Places in HBM (R249) -/

/-- The rotation over the pseudo-channels counts the 256-byte chunks of a die's region. -/
theorem hbm_place {d o : Nat} (hd : d < 4) (ho : o < 2 ^ 38) : let pa := d * 2 ^ 38 + o
    hbmStack pa = 3 * d + o / 2 ^ 8 % 192 % 3 ∧ hbmChannel pa = o / 2 ^ 8 % 192 / 3 ∧ hbmByte pa = 256 * (o / 2 ^ 8 / 192) + o % 256 := by
  intro pa
  have hdie : homeDie pa = d := by unfold homeDie; omega
  have hoff : pa % 2 ^ 38 = o := by omega
  have hlow : pa % 256 = o % 256 := by omega
  rw [hbmStack, hbmChannel, hbmByte, hbmRotation, hdie, hoff, hlow]
  exact ⟨rfl, rfl, rfl⟩

/-- An address below 2^40 lies in the region of a die. -/
theorem hbm_split {a : Nat} (h : a < 2 ^ 40) : ∃ d < 4, ∃ o < 2 ^ 38, a = d * 2 ^ 38 + o :=
  ⟨a / 2 ^ 38, by omega, a % 2 ^ 38, by omega, by omega⟩

theorem hbm_injective {a b : Nat} (ha : a < 2 ^ 40) (hb : b < 2 ^ 40) (hs : hbmStack a = hbmStack b) (hc : hbmChannel a = hbmChannel b)
    (hy : hbmByte a = hbmByte b) : a = b := by
  obtain ⟨d, hd, o, ho, rfl⟩ := hbm_split ha
  obtain ⟨d', hd', o', ho', rfl⟩ := hbm_split hb
  obtain ⟨s1, c1, y1⟩ := hbm_place hd ho
  obtain ⟨s2, c2, y2⟩ := hbm_place hd' ho'
  rw [s1, s2] at hs
  rw [c1, c2] at hc
  rw [y1, y2] at hy
  omega

/-- Of 192 chunks in a row exactly one has a given place in the rotation. -/
theorem rotation_once (m : Nat) {r : Nat} (hr : r < 192) : ∃ k < 192, (m + k) % 192 = r ∧ ∀ i < 192, (m + i) % 192 = r → i = k :=
  ⟨(r + 192 - m % 192) % 192, by omega, by omega, fun i hi h => by omega⟩

/-- 48 KiB of a stream touch each pseudo-channel of a die once. -/
theorem hbm_stream {d o j ch : Nat} (hd : d < 4) (hal : o % 256 = 0) (ho : o + 49152 ≤ 2 ^ 38) (hj : j < 3) (hch : ch < 64) :
    ∃ k < 192, (hbmStack (d * 2 ^ 38 + o + 256 * k) = 3 * d + j ∧ hbmChannel (d * 2 ^ 38 + o + 256 * k) = ch)
      ∧ ∀ i < 192, hbmStack (d * 2 ^ 38 + o + 256 * i) = 3 * d + j → hbmChannel (d * 2 ^ 38 + o + 256 * i) = ch → i = k := by
  have place : ∀ i < 192, hbmStack (d * 2 ^ 38 + o + 256 * i) = 3 * d + (o / 256 + i) % 192 % 3
      ∧ hbmChannel (d * 2 ^ 38 + o + 256 * i) = (o / 256 + i) % 192 / 3 := by
    intro i hi
    obtain ⟨hs, hc, -⟩ := hbm_place (o := o + 256 * i) hd (by omega)
    rw [Nat.add_assoc, hs, hc, show (o + 256 * i) / 2 ^ 8 = o / 256 + i by omega]
    exact ⟨rfl, rfl⟩
  obtain ⟨k, hk, hrot, honce⟩ := rotation_once (o / 256) (r := 3 * ch + j) (by omega)
  refine ⟨k, hk, ?_, fun i hi hs hc => honce i hi ?_⟩
  · obtain ⟨hs, hc⟩ := place k hk
    rw [hs, hc, hrot]
    omega
  · obtain ⟨hs', hc'⟩ := place i hi
    rw [hs'] at hs
    rw [hc'] at hc
    omega

/-- Settles O35: addresses by their terms, each failing access by the one law of the checks, and HBM by the rotation over its
pseudo-channels. -/
theorem addressesAccessFaultsAndPlaces : Obligations.AddressesAccessFaultsAndPlaces := by
  unfold Obligations.AddressesAccessFaultsAndPlaces
  refine ⟨⟨fun s l f space index idx off hidx hoff => ?address, fun f s c p x ks ea e h => ?faults⟩,
    fun d hd o ho => hbm_place hd ho, fun a ha b hb => hbm_injective ha hb, fun d hd o hal ho j hj ch hch => hbm_stream hd hal ho hj hch⟩
  case address =>
    refine ⟨fun hspace b hb => ?_, fun hspace b hb => ?_⟩
    · have := Lane.address_eq (space := space) (base := b.toNat) (by rw [if_pos hspace, hb]; rfl) hidx hoff
      rwa [if_pos hspace] at this
    · have hnarrow : ¬ (space = 0 ∨ space = 3) := by omega
      have := Lane.address_eq (space := space) (base := b.toNat) (by rw [if_neg hnarrow, hb]; rfl) hidx hoff
      rwa [if_neg hnarrow] at this
  case faults =>
    have flagged : (setFlag x.hdr (f.md.getLsbD 0)).isSome = true →
        ∃ flag, ∀ k, (x.lane c k).needFlag (f.md.getLsbD 0) = .ok flag := fun hf =>
      ⟨(setFlag x.hdr (f.md.getLsbD 0)).get hf, fun k => Lane.needFlag_ok (Option.some_get hf).symm⟩
    dsimp only
    refine ⟨fun space policy hspace hk hfull hflag => ?ld, fun hk hfull hflag => ?ldc, fun space policy hspace hk => ?st,
      fun hflag hk => ?atom, fun hflag hk => ?atomcas, fun hk => ?red, fun hflag hk => ?racq⟩
    case ld =>
      obtain ⟨flag, hneed⟩ := flagged hflag
      obtain ⟨rfl, rfl, -⟩ := hspace
      refine (longOp_eq _ hfull).trans (execSeq_all_fail h _ fun k hk' => ?_)
      obtain ⟨hc, ha, hb⟩ := hk k hk'
      exact loadAct_fails hc (hneed k) ha hb
    case ldc =>
      obtain ⟨flag, hneed⟩ := flagged hflag
      refine (longOp_eq _ hfull).trans (execSeq_all_fail h _ fun k hk' => ?_)
      obtain ⟨hc, ha, hb⟩ := hk k hk'
      exact loadAct_fails hc (hneed k) ha hb
    case st =>
      obtain ⟨rfl, rfl, -⟩ := hspace
      refine execSeq_all_fail h _ fun k hk' => ?_
      obtain ⟨hc, ha, ⟨bs, hbs⟩, hb⟩ := hk k hk'
      exact storeAct_fails hc ha hbs hb
    case atom =>
      obtain ⟨hfull, hsome⟩ := hflag
      obtain ⟨flag, hneed⟩ := flagged hsome
      refine (longOp_eq _ hfull).trans (execSeq_all_fail h _ fun k hk' => ?_)
      obtain ⟨hc, ⟨hspec, ha, hb⟩, b, hdata⟩ := hk k hk'
      exact atomicAct_fails hc (fun _ => hneed k) hspec ha hdata hb
    case atomcas =>
      obtain ⟨hfull, hsome⟩ := hflag
      obtain ⟨flag, hneed⟩ := flagged hsome
      refine (longOp_eq _ hfull).trans (execSeq_all_fail h _ fun k hk' => ?_)
      obtain ⟨hc, ⟨hspec, ha, hb⟩, b, hdata⟩ := hk k hk'
      exact atomicAct_fails hc (fun _ => hneed k) hspec ha hdata hb
    case red =>
      refine execSeq_all_fail h _ fun k hk' => ?_
      obtain ⟨hc, ⟨hspec, ha, hb⟩, b, hdata⟩ := hk k hk'
      exact atomicAct_fails (flag := 0) (by simpa using hc) nofun hspec ha hdata hb
    case racq =>
      obtain ⟨hfull, hsome⟩ := hflag
      obtain ⟨flag, hneed⟩ := flagged hsome
      refine (longOp_eq _ hfull).trans (execSeq_all_fail h _ fun k hk' => ?_)
      obtain ⟨hc, hspec, ha, hb⟩ := hk k hk'
      exact racqAct_fails hc (hneed k) hspec ha hb

end Sys2Proof.Machine
end

section
/-!
What writing back lines of the L1 portions leaves of the levels around them (R269, R270): the slices stay as they are, every line
stays in its portion, and no dirty byte is left.
-/
namespace Sys2Proof.Machine

/-! ## Bytes below the slices -/

/-- Only bytes of memory change, with their keys, errors and tracked pages, and the pages of virtual command processors. -/
def BytesChange (s t : State) : Prop :=
  t = { s with mem := t.mem, badWords := t.badWords, lineKey := t.lineKey, dirtyPages := t.dirtyPages, vcps := t.vcps, queues := t.queues }

namespace BytesChange
variable {s t u : State}

theorem refl (s : State) : BytesChange s s := rfl

theorem trans (h : BytesChange s t) (g : BytesChange t u) : BytesChange s u := by
  unfold BytesChange at *
  rw [g, h]

theorem fold {α : Type} {f : State → α → State} (h : ∀ s a, BytesChange s (f s a)) (l : List α) (s : State) : BytesChange s (l.foldl f s) := by
  induction l generalizing s with
  | nil => exact .refl s
  | cons a r ih => exact (h s a).trans (ih _)

theorem mem (s : State) (m : List Host.Cell) (k : Tbl (List Byte)) : BytesChange s { s with mem := m, lineKey := k } := rfl

theorem core (h : BytesChange s t) (d : Nat) : t.core d = s.core d := by rw [h]; rfl

theorem l2 (h : BytesChange s t) : t.l2 = s.l2 := by rw [h]

end BytesChange

theorem State.vcpSetByte_bytes (s : State) (n off : Nat) (b : Byte) : BytesChange s (s.vcpSetByte n off b) := by
  unfold State.vcpSetByte
  dsimp only
  split
  · exact rfl
  · split
    · exact .refl s
    · split <;> exact rfl

theorem State.putByte_bytes (s : State) (pa : Nat) (b : Byte) : BytesChange s (s.putByte pa b) := by
  unfold State.putByte
  split
  · exact s.vcpSetByte_bytes _ _ _
  · exact rfl

theorem State.putEach_bytes (s : State) (pa : Nat) (bytes : List Byte) : BytesChange s (s.putEach pa bytes) := by
  unfold State.putEach
  split
  · exact rfl
  · exact .fold (fun s _ => s.putByte_bytes _ _) _ s

theorem State.rekey_bytes (s : State) (key line : Nat) : BytesChange s (s.rekey key line) := by
  unfold State.rekey
  split
  · exact .refl s
  · exact .mem s _ _

theorem State.physWrite_bytes (s : State) (key pa : Nat) (bytes : List Byte) : BytesChange s (s.physWrite key pa bytes) := by
  have h := (s.rekey_bytes key (pa / 64)).trans (State.putEach_bytes _ pa bytes)
  exact h.trans rfl

theorem State.putMasked_bytes (s : State) (key line : Nat) (d : BitVec 512) (mask : BitVec 64) : BytesChange s (s.putMasked key line d mask) :=
  .fold (fun s _ => s.physWrite_bytes _ _ _) _ s

theorem State.clearBad_bytes (s : State) (line : Nat) (mask : BitVec 64) : BytesChange s (s.clearBad line mask) := rfl

/-! ## Lines written back -/

/-- A line as it is once it has been written back. -/
def L1Line.cleaned (l : L1Line) : L1Line := { l with dirty := 0 }

/-- Below the L1 portions only bytes change; a portion changes, if at all, by one of its lines that is cleaned. -/
theorem State.writeBack_l1 (s : State) (c key : Nat) : (s.writeBack c key).l2 = s.l2
    ∧ (∀ d, d ≠ c → ((s.writeBack c key).core d).l1 = (s.core d).l1)
    ∧ (((s.writeBack c key).core c).l1 = (s.core c).l1 ∧ (∀ z, Tbl.look (s.core c).l1 key = some z → z.dirty = 0)
      ∨ ∃ z, Tbl.look (s.core c).l1 key = some z ∧ ((s.writeBack c key).core c).l1 = Tbl.put (s.core c).l1 key z.cleaned) := by
  unfold State.writeBack
  split
  · next hn => exact ⟨rfl, fun _ _ => rfl, .inl ⟨rfl, fun z hz => by rw [hn] at hz; cases hz⟩⟩
  · next l hl =>
    split
    · next hd =>
      refine ⟨rfl, fun _ _ => rfl, .inl ⟨rfl, fun z hz => ?_⟩⟩
      rw [hl] at hz
      cases hz
      simpa using hd
    · have h : BytesChange s ((s.putMasked l.key l.line l.data l.dirty).clearBad l.line l.dirty) :=
        (s.putMasked_bytes l.key l.line l.data l.dirty).trans (State.clearBad_bytes _ l.line l.dirty)
      generalize (s.putMasked l.key l.line l.data l.dirty).clearBad l.line l.dirty = u at h ⊢
      refine ⟨h.l2, fun d hd => ?_, .inr ⟨l, hl, ?_⟩⟩
      · rw [State.modCore_eq, State.core_setCore, if_neg hd, h.core]
      · rw [State.modCore_eq, State.core_setCore, if_pos rfl, h.core]
        rfl

/-- The line under a key of a portion has no dirty byte. -/
def State.CleanAt (s : State) (d key : Nat) : Prop := ∀ z, Tbl.look (s.core d).l1 key = some z → z.dirty = 0

/-- The portions keep their lines, each as it is or cleaned, and the slices are as they were. -/
structure LinesCleaned (s t : State) : Prop where
  l2 : t.l2 = s.l2
  keys : ∀ d key, (Tbl.look (t.core d).l1 key).isSome = (Tbl.look (s.core d).l1 key).isSome
  clean : ∀ d key, s.CleanAt d key → t.CleanAt d key

namespace LinesCleaned
variable {s t u : State}

theorem refl (s : State) : LinesCleaned s s := ⟨rfl, fun _ _ => rfl, fun _ _ => id⟩

theorem trans (h : LinesCleaned s t) (g : LinesCleaned t u) : LinesCleaned s u :=
  ⟨g.l2.trans h.l2, fun d key => (g.keys d key).trans (h.keys d key), fun d key => g.clean d key ∘ h.clean d key⟩

theorem fold {α : Type} {f : State → α → State} (h : ∀ s a, LinesCleaned s (f s a)) (l : List α) (s : State) : LinesCleaned s (l.foldl f s) := by
  induction l generalizing s with
  | nil => exact .refl s
  | cons a r ih => exact (h s a).trans (ih _)

/-- What one step of a run establishes of its element holds at the end of the run. -/
theorem fold_each {α : Type} {f : State → α → State} {P : α → State → Prop} (h : ∀ s a, LinesCleaned s (f s a)) (hdone : ∀ s a, P a (f s a))
    (hkeep : ∀ a s t, LinesCleaned s t → P a s → P a t) {l : List α} {a : α} (ha : a ∈ l) (s : State) : P a (l.foldl f s) := by
  induction l generalizing s with
  | nil => nomatch ha
  | cons b r ih =>
    obtain rfl | hr := List.mem_cons.mp ha
    · exact hkeep a _ _ (.fold h r _) (hdone s a)
    · exact ih hr _

end LinesCleaned

theorem State.writeBack_cleans (s : State) (c key : Nat) : LinesCleaned s (s.writeBack c key) ∧ (s.writeBack c key).CleanAt c key := by
  obtain ⟨hl2, hother, ⟨hsame, hclean⟩ | ⟨z, hz, hput⟩⟩ := s.writeBack_l1 c key
  · have hl1 : ∀ d, ((s.writeBack c key).core d).l1 = (s.core d).l1 := fun d => if hd : d = c then hd ▸ hsame else hother d hd
    refine ⟨⟨hl2, fun d k => by rw [hl1], fun d k => ?_⟩, ?_⟩
    · unfold State.CleanAt
      rw [hl1]
      exact id
    · unfold State.CleanAt
      rw [hl1]
      exact hclean
  · have hlook : ∀ k, Tbl.look ((s.writeBack c key).core c).l1 k = if k = key then some z.cleaned else Tbl.look (s.core c).l1 k := fun k => by
      rw [hput, Tbl.look_put]
    have hat : (s.writeBack c key).CleanAt c key := by
      intro y hy
      rw [hlook, if_pos rfl] at hy
      cases hy
      rfl
    refine ⟨⟨hl2, fun d k => ?_, fun d k hk => ?_⟩, hat⟩
    · by_cases hd : d = c
      · subst hd
        rw [hlook]
        split
        · next e => rw [e, hz]; rfl
        · rfl
      · rw [hother d hd]
    · by_cases hd : d = c
      · subst hd
        by_cases hkey : k = key
        · exact hkey ▸ hat
        · intro y hy
          rw [hlook, if_neg hkey] at hy
          exact hk y hy
      · unfold State.CleanAt
        rw [hother d hd]
        exact hk

/-- Every line of a portion is clean. -/
def State.CleanCore (d : Nat) (s : State) : Prop := ∀ key, s.CleanAt d key

theorem State.writeBackAll_cleans (s : State) (c : Nat) : LinesCleaned s (s.writeBackAll c) ∧ (s.writeBackAll c).CleanCore c := by
  have hlines : ∀ (u : State) (k : Nat), LinesCleaned u (u.writeBack c k) := fun u k => (u.writeBack_cleans c k).1
  have hall : LinesCleaned s (s.writeBackAll c) := .fold hlines _ s
  refine ⟨hall, fun key y hy => ?_⟩
  have hheld : (Tbl.look (s.core c).l1 key).isSome = true := by rw [← hall.keys, hy]; rfl
  obtain ⟨z, hz⟩ := Option.isSome_iff_exists.mp hheld
  have hkey : key ∈ Tbl.keys (s.core c).l1 := List.mem_map_of_mem (f := (·.1)) (Tbl.mem_of_look hz)
  have : (s.writeBackAll c).CleanAt c key :=
    LinesCleaned.fold_each (P := fun k u => u.CleanAt c k) hlines (fun u k => (u.writeBack_cleans c k).2) (fun k _ _ h => h.clean c k) hkey s
  exact this y hy

/-- Portions that are written back one after another: no dirty byte is left in any of them. -/
theorem State.writeBackCores_cleans (s : State) (l : List Nat) :
    LinesCleaned s (l.foldl (fun s c => s.writeBackAll c) s) ∧ ∀ d ∈ l, (l.foldl (fun s c => s.writeBackAll c) s).CleanCore d := by
  have hlines : ∀ (u : State) (c : Nat), LinesCleaned u (u.writeBackAll c) := fun u c => (u.writeBackAll_cleans c).1
  exact ⟨.fold hlines l s, fun d hd => LinesCleaned.fold_each (P := State.CleanCore) hlines (fun u c => (u.writeBackAll_cleans c).2)
    (fun c _ _ h hc key => h.clean c key (hc key)) hd s⟩

end Sys2Proof.Machine
end

section
/-!
The obligation on the system registers (R129 to R131, R143, R221, R258, R260, R327, R342, R344, R348, R408).
-/
namespace Sys2Proof.Machine

/-! ## Passes on their pipes -/

/-- The same pass has the turn, and every pass is as it was. -/
structure PipesKept (s t : State) : Prop where
  turn : t.turn = s.turn
  pipes : ∀ d, (t.core d).pipes = (s.core d).pipes

namespace PipesKept
variable {s t u : State}

theorem of (ht : t.turn = s.turn) (hc : t.cores = s.cores) : PipesKept s t := ⟨ht, fun d => by rw [State.core, hc, ← State.core]⟩

theorem refl (s : State) : PipesKept s s := .of rfl rfl

theorem trans (h : PipesKept s t) (g : PipesKept t u) : PipesKept s u :=
  ⟨g.turn.trans h.turn, fun d => (g.pipes d).trans (h.pipes d)⟩

/-- A change beside the cores keeps them too. -/
theorem onto (h : PipesKept s t) (ht : u.turn = t.turn) (hc : u.cores = t.cores) : PipesKept s u := h.trans (.of ht hc)

theorem modCore (s : State) (c : Nat) (f : Core → Core) (h : (f (s.core c)).pipes = (s.core c).pipes) : PipesKept s (s.modCore c f) := by
  refine ⟨rfl, fun d => ?_⟩
  rw [State.modCore_eq, State.core_setCore]
  split
  · next e => subst e; exact h
  · rfl

theorem mapCores (s : State) (g : Core → Core) (h : ∀ k, (g k).pipes = k.pipes) :
    PipesKept s { s with cores := s.cores.map (fun e => (e.1, g e.2)) } := by
  refine ⟨rfl, fun d => ?_⟩
  unfold State.core Tbl.at
  rw [Tbl.look_map s.cores (fun e => (e.1, g e.2)) fun _ => rfl]
  cases Tbl.look s.cores d with
  | none => rfl
  | some k => exact h k

theorem fold {α : Type} {f : State → α → State} (h : ∀ s a, PipesKept s (f s a)) (l : List α) (s : State) : PipesKept s (l.foldl f s) := by
  induction l generalizing s with
  | nil => exact .refl s
  | cons a r ih => exact (h s a).trans (ih _)

theorem curPass (h : PipesKept s t) : t.curPass = s.curPass := by simp only [State.curPass, h.turn, h.pipes]

end PipesKept

theorem State.issue_pipes (s : State) (c k flag : Nat) (ws : List (Nat × Word × Bool)) (late : Option Nat) :
    PipesKept s (s.issue c k flag ws late) := by
  have hthr : PipesKept s (s.setThr c k ((s.thr c k).setFlag flag ((s.thr c k).flag flag + 1))) := .of rfl rfl
  have hcore := PipesKept.modCore (s.setThr c k ((s.thr c k).setFlag flag ((s.thr c k).flag flag + 1))) c
    (fun x => { x with pending := x.pending ++ [⟨s.ids, k, flag, ws, late, (s.thr c k).spec⟩] }) rfl
  exact (hthr.trans hcore).onto rfl rfl

theorem State.issue_thr (s : State) (c k flag : Nat) (ws : List (Nat × Word × Bool)) (late : Option Nat) (j : Nat) :
    (s.issue c k flag ws late).thr c j = if j = k then (s.thr c k).setFlag flag ((s.thr c k).flag flag + 1) else s.thr c j := by
  show (s.setThr c k _).thr c j = _
  split
  · next e => rw [e, State.thr_setThr_self]
  · next e => exact s.thr_setThr_ne c _ e

/-! ## What the sources of lanes rest on -/

/-- What the sources of some lanes are read from is as before. -/
structure SourcesKept (c : Nat) (ks : List Nat) (s u : State) : Prop where
  pass : u.curPass = s.curPass
  thr : ∀ k ∈ ks, u.thr c k = s.thr c k
  gangs : u.gangs = s.gangs
  grids : u.grids = s.grids
  copies : u.copies = s.copies
  team : ∀ m, u.team m = { s.team m with bankconf := (u.team m).bankconf, teamest := (u.team m).teamest }
  cycle : (u.core c).cycle = (s.core c).cycle

namespace SourcesKept
variable {c k : Nat} {ks : List Nat} {s u v : State} (h : SourcesKept c ks s u) (x : Pass)

theorem refl (c : Nat) (ks : List Nat) (s : State) : SourcesKept c ks s s := ⟨rfl, fun _ _ => rfl, rfl, rfl, rfl, fun _ => rfl, rfl⟩

theorem trans (h : SourcesKept c ks s u) (g : SourcesKept c ks u v) : SourcesKept c ks s v :=
  ⟨g.pass.trans h.pass, fun k hk => (g.thr k hk).trans (h.thr k hk), g.gangs.trans h.gangs, g.grids.trans h.grids, g.copies.trans h.copies,
    fun m => by rw [g.team m, h.team m], g.cycle.trans h.cycle⟩

/-- Fewer lanes rest on no more. -/
theorem tail (h : SourcesKept c (k :: ks) s u) : SourcesKept c ks s u :=
  { h with thr := fun j hj => h.thr j (List.mem_cons_of_mem _ hj) }

include h

theorem gang (g : Nat) : u.gang c g = s.gang c g := by rw [State.gang, h.gangs, ← State.gang]

theorem gangTeam (g : Nat) : u.gangTeam c g
    = { s.gangTeam c g with bankconf := (u.gangTeam c g).bankconf, teamest := (u.gangTeam c g).teamest } := by
  rw [State.gangTeam, h.gang, h.team]
  rfl

theorem gangGrid (g : Nat) : u.gangGrid c g = s.gangGrid c g := by
  rw [State.gangGrid, h.gangTeam, State.grid, h.grids]
  rfl

theorem regs : (x.lane c k).regs u = (x.lane c k).regs s := by
  have hgrid : (x.lane c k).grid u = (x.lane c k).grid s := h.gangGrid _
  have hgang : (x.lane c k).gang u = (x.lane c k).gang s := h.gang _
  rw [Lane.regs, hgrid, hgang, ← Lane.regs]

theorem resv (l : Lane) : l.resv u = l.resv s := by rw [Lane.resv, h.pass, ← Lane.resv]

theorem check (l : Lane) (ts : List (Nat × OpKind × Operand)) : l.check u ts = l.check s ts := by rw [Lane.check, h.resv, ← Lane.check]

theorem special (hk : k ∈ ks) (n : Nat) : (x.lane c k).special u n = (x.lane c k).special s n := by
  have hgang : (x.lane c k).gang u = (x.lane c k).gang s := h.gang _
  have hgrid : (x.lane c k).grid u = (x.lane c k).grid s := h.gangGrid _
  have hthr : (x.lane c k).thr u = (x.lane c k).thr s := h.thr k hk
  have hteam : (x.lane c k).team u = { (x.lane c k).team s with
      bankconf := ((x.lane c k).team u).bankconf, teamest := ((x.lane c k).team u).teamest } := h.gangTeam _
  have hnum : ((x.lane c k).team u).num = ((x.lane c k).team s).num := by rw [hteam]
  have hcycle : (u.core (x.lane c k).core).cycle = (s.core (x.lane c k).core).cycle := h.cycle
  have hwp : ∀ m i, u.writePointer m i = s.writePointer m i := fun m i => by
    simp only [State.writePointer, State.currentCopy, h.copies]
  have hlcore : u.lcoreOf (x.lane c k).core (x.lane c k).gslot = s.lcoreOf (x.lane c k).core (x.lane c k).gslot := by
    have ht : u.gangTeam (x.lane c k).core (x.lane c k).gslot = { s.gangTeam (x.lane c k).core (x.lane c k).gslot with
        bankconf := ((x.lane c k).team u).bankconf, teamest := ((x.lane c k).team u).teamest } := hteam
    simp only [State.lcoreOf, ht, State.grid, h.grids]
    rfl
  simp only [Lane.special, hgang, hgrid, hthr, hnum, hcycle, hwp, hlcore]

theorem readWord (hk : k ∈ ks) (place : Nat) (o : Operand) : (x.lane c k).readWord u place o = (x.lane c k).readWord s place o := by
  have hthr : (x.lane c k).thr u = (x.lane c k).thr s := h.thr k hk
  have hgang : (x.lane c k).gang u = (x.lane c k).gang s := h.gang _
  have hteam : (x.lane c k).team u = { (x.lane c k).team s with
      bankconf := ((x.lane c k).team u).bankconf, teamest := ((x.lane c k).team u).teamest } := h.gangTeam _
  have hchan : ∀ n, ((x.lane c k).team u).chan n = ((x.lane c k).team s).chan n := fun n => by rw [hteam]; rfl
  simp only [Lane.readWord, hthr, hgang, h.regs, h.resv, hchan, h.special x hk]

theorem readInt (hk : k ∈ ks) (place : Nat) (o : Operand) (ty : Ty) :
    (x.lane c k).readInt u place o ty = (x.lane c k).readInt s place o ty := by
  simp only [Lane.readInt, Lane.readPair, h.readWord x hk]

end SourcesKept

/-! ## Privilege (R130) -/

section
variable {l : Lane} {s : State} {n : Nat} {info : SysInfo} (hinfo : sysInfo n = some info)
include hinfo

theorem Lane.sysPriv_ok {write : Bool} (h : (if write then info.supWrite else info.supRead) = true → (l.thr s).priv = true) :
    l.sysPriv s n write = .ok () := by
  simp only [Lane.sysPriv, hinfo]
  refine if_neg fun hbad => ?_
  rw [Bool.and_eq_true] at hbad
  simp [h hbad.1] at hbad

theorem Lane.sysPriv_user {write : Bool} (h : (if write then info.supWrite else info.supRead) = true) (hp : (l.thr s).priv = false) :
    l.sysPriv s n write = .error (.fault ⟨4, BitVec.ofNat 32 (n + 2048), 0⟩) := by
  simp only [Lane.sysPriv, hinfo, h, hp]
  rfl

theorem isLongSys_eq : isLongSys n = info.long := by simp only [isLongSys, hinfo]

end

/-! ## Reads (R129) -/

theorem oks_errors (ks : List Nat) (e : LaneFail) : oks (ks.map (fun k => (k, (.error e : LaneRes)))) = [] := by simp [oks]

theorem fails_errors (ks : List Nat) (e : LaneFail) : fails (ks.map (fun k => (k, (.error e : LaneRes)))) = ks.map (fun k => (k, e)) := by
  simp [fails, List.filterMap_map]

/-- On registers too, lanes that all leave change nothing, and the pass goes on without them. -/
theorem State.execLanes_all_fail {s : State} {c p : Nat} {x : Pass} {g : Guard} {ks : List Nat} (h : Executes s c p x g ks) (dst : Nat)
    (reads : Bool) {compute : List Nat → Lane → LaneRes} {e : LaneFail} (hc : ∀ k ∈ ks, compute ks (x.lane c k) = .error e) :
    s.execLanes g dst reads compute = .next (s.afterInstr c p x (ks.map (fun k => (k, e)))) := by
  obtain ⟨hcur, hex, -⟩ := h
  have hraw : (s.executing c x g).map (fun k => (k, compute (s.executing c x g) (x.lane c k))) = ks.map (fun k => (k, (.error e : LaneRes))) := by
    rw [hex]
    exact List.map_congr_left fun k hk => by rw [hc k hk]
  have hrule : (ks.map (fun k => (k, (.error e : LaneRes)))).map (uniformRule x.hdr dst (ks.map (fun k => (k, (.error e : LaneRes)))))
      = ks.map (fun k => (k, (.error e : LaneRes))) := by
    rw [List.map_map]
    rfl
  simp only [State.execLanes, hcur, hraw, hrule, oks_errors, fails_errors]
  rfl

section
variable {f : Fields} {s : State} {c p : Nat} {x : Pass} {ks : List Nat} {info : SysInfo} (h : Executes s c p x f.guard ks)
  (hinfo : sysInfo f.sysNum = some info)
include h hinfo

theorem sysr_user (hlong : info.long = false) (hc : ∀ k ∈ ks, (x.lane c k).check s [(pDST, OpKind.dst f.ty.isPair, f.dst)] = .ok ())
    (hsup : info.supRead = true) (huser : ∀ k ∈ ks, (s.thr c k).priv = false) :
    exec (.sysr f) s = .next (s.afterInstr c p x (ks.map (fun k => (k, .fault ⟨4, BitVec.ofNat 32 (f.sysNum + 2048), 0⟩)))) := by
  have hshort : isLongSys f.sysNum = false := (isLongSys_eq hinfo).trans hlong
  show execSysr f s = _
  simp only [execSysr, hshort, Bool.false_eq_true, if_false, regOp]
  refine State.execLanes_all_fail h _ _ fun k hk => ?_
  simp only [hc k hk, Lane.sysPriv_user (l := x.lane c k) (s := s) (write := false) hinfo hsup (huser k hk), bind, Except.bind]

theorem sysr_short (hlong : info.long = false) (hc : ∀ k ∈ ks, (x.lane c k).check s [(pDST, OpKind.dst f.ty.isPair, f.dst)] = .ok ())
    (hpriv : ∀ k ∈ ks, info.supRead = true → (s.thr c k).priv = true) {out : Nat → LaneOut} (ha : Agree x.hdr ks out)
    (hout : ∀ k, out k = let l := x.lane c k
      if f.ty.isPair then (l.start s f).putPair (l.regs s) f.dst (l.sysRead s f.sysNum)
      else (l.start s f).put (l.regs s) f.dst (loWord (l.sysRead s f.sysNum))) :
    ∃ t, exec (.sysr f) s = .next t ∧ LaneEffect s t c p x ks f.readsChannel out := by
  have hshort : isLongSys f.sysNum = false := (isLongSys_eq hinfo).trans hlong
  show ∃ t, execSysr f s = .next t ∧ _
  simp only [execSysr, hshort, Bool.false_eq_true, if_false]
  refine regOp_effect s f _ _ h (fun k hk => ⟨hc k hk, ?_⟩) ha
  simp only [Lane.sysPriv_ok (l := x.lane c k) (s := s) (write := false) hinfo (hpriv k hk), hout, bind, Except.bind]

theorem sysr_long {flag : Nat} (hlong : info.long = true) (hflag : setFlag x.hdr (f.md.getLsbD 0) = some flag)
    (hfull : s.fullFlag f.guard (f.md.getLsbD 0) = none)
    (hc : ∀ k ∈ ks, (x.lane c k).check s [(pDST, OpKind.load f.ty.isPair, f.dst)] = .ok () ∧ (info.supRead = true → (s.thr c k).priv = true)) :
    ∃ t, exec (.sysr f) s = .next t ∧ LanesRun (fun u l v =>
      v = u.issue l.core l.slot flag (groupWords f.dst (List.replicate (if f.ty.isPair then 2 else 1) (0, false))) (some f.sysNum))
      s c p x ks f.readsChannel t := by
  have hl : isLongSys f.sysNum = true := (isLongSys_eq hinfo).trans hlong
  show ∃ t, execSysr f s = .next t ∧ _
  simp only [execSysr, hl, if_true]
  rw [longOp_eq _ hfull]
  refine execSeq_lanesRun h _ (fun u => u.curPass = s.curPass ∧ ∀ k, (u.thr c k).priv = (s.thr c k).priv) ⟨rfl, fun _ => rfl⟩
    (fun u hu => State.pipe_of_curPass (hu.1.trans h.1)) fun u hu k hk => ?_
  obtain ⟨hpass, hpriv⟩ := hu
  obtain ⟨hck, hsup⟩ := hc k hk
  have hcheck : (x.lane c k).check u [(pDST, OpKind.load f.ty.isPair, f.dst)] = .ok () := by
    rw [Lane.check, Lane.resv, hpass]
    exact hck
  refine ⟨_, ?_, rfl, ?_, ?_⟩
  · simp only [sysrLong, hcheck, Lane.sysPriv_ok (l := x.lane c k) (s := u) (write := false) hinfo (fun e => (hpriv k).trans (hsup e)),
      Lane.needFlag_ok hflag, bind, Except.bind, seqAct]
  · exact (State.issue_pipes ..).curPass.trans hpass
  · intro j
    refine (congrArg Thread.priv (State.issue_thr u c k ..)).trans ?_
    split
    · next e => exact e ▸ hpriv k
    · exact hpriv j

end

/-! ## The course of a write (R129, R131) -/

theorem SourcesKept.setThr {c k : Nat} {r : List Nat} (hk : k ∉ r) (s : State) (th : Thread) : SourcesKept c r s (s.setThr c k th) :=
  ⟨rfl, fun _ hj => s.thr_setThr_ne c th (ne_of_mem_of_not_mem hj hk), rfl, rfl, rfl, fun _ => rfl, rfl⟩

theorem SourcesKept.setTeam (c : Nat) (r : List Nat) (s : State) (m : Nat) (y : Team)
    (h : y = { s.team m with bankconf := y.bankconf, teamest := y.teamest }) : SourcesKept c r s (s.setTeam m y) := by
  refine ⟨rfl, fun _ _ => rfl, rfl, rfl, rfl, fun j => ?_, rfl⟩
  rw [State.team_setTeam]
  split
  · next e => subst e; exact h
  · rfl

/-- Contexts and dies are no sources. -/
theorem SourcesKept.beside {s u : State} (c : Nat) (r : List Nat) (h : u = { s with ctxs := u.ctxs, dies := u.dies }) : SourcesKept c r s u := by
  rw [h]
  exact ⟨rfl, fun _ _ => rfl, rfl, rfl, rfl, fun _ => rfl, rfl⟩

/-- A latch leaves the sources of the other lanes as they were. -/
theorem SourcesKept.latch {c k : Nat} {r : List Nat} (hk : k ∉ r) (s : State) (x : Pass) (f : Fields) :
    SourcesKept c r s (s.latch (x.lane c k) f) :=
  .setThr hk s _

section
variable {f : Fields} {s : State} {c p : Nat} {x : Pass} {ks : List Nat} {info : SysInfo} (h : Executes s c p x f.guard ks)
  (hinfo : sysInfo f.sysNum = some info)
include h hinfo

/-- A user who writes a register that only the supervisor may write faults (R130). -/
theorem sysw_user (write : State → Lane → Nat → Except LaneFail State)
    (hc : ∀ k ∈ ks, (x.lane c k).check s [(pSA, OpKind.src f.ty.isPair, f.sa)] = .ok ()) (hsup : info.supWrite = true)
    (huser : ∀ k ∈ ks, (s.thr c k).priv = false) :
    sysw f write s = .next (s.afterInstr c p x (ks.map (fun k => (k, .fault ⟨4, BitVec.ofNat 32 (f.sysNum + 2048), 0⟩)))) := by
  refine execSeq_all_fail h _ fun k hk => ?_
  simp only [hc k hk, Lane.sysPriv_user (l := x.lane c k) (s := s) (write := true) hinfo hsup (huser k hk), bind, Except.bind]

variable {a : Nat → Nat}
  (hk : ∀ k ∈ ks, (x.lane c k).check s [(pSA, OpKind.src f.ty.isPair, f.sa)] = .ok () ∧ (s.thr c k).spec = false
    ∧ (x.lane c k).readInt s pSA f.sa f.ty = .ok (a k))
  (hpriv : ∀ k ∈ ks, info.supWrite = true → (s.thr c k).priv = true)
include hk hpriv

omit h in
/-- A lane that passes the checks of a write makes the write. -/
theorem sysw_act (write : State → Lane → Nat → Except LaneFail State) {k : Nat} {r : List Nat} (hmem : k ∈ ks) {u : State}
    (hu : SourcesKept c (k :: r) s u) :
    seqAct u (do
      (x.lane c k).check u [(pSA, .src f.ty.isPair, f.sa)]
      (x.lane c k).sysPriv u f.sysNum true
      (x.lane c k).stopIfSpec u
      let v ← (x.lane c k).readInt u pSA f.sa f.ty
      write (u.latch (x.lane c k) f) (x.lane c k) v) = seqAct u (write (u.latch (x.lane c k) f) (x.lane c k) (a k)) := by
  obtain ⟨hc, hspec, hread⟩ := hk k hmem
  have hthr : (x.lane c k).thr u = s.thr c k := hu.thr k List.mem_cons_self
  have hsys : (x.lane c k).sysPriv u f.sysNum true = .ok () := Lane.sysPriv_ok hinfo fun e => by rw [hthr]; exact hpriv k hmem e
  have hstop : (x.lane c k).stopIfSpec u = .ok () := Lane.stopIfSpec_ok (by rw [hthr]; exact hspec)
  simp only [hu.check, hc, hsys, hstop, hu.readInt x List.mem_cons_self, hread, bind, Except.bind]

/-- The writes of lanes in their turns, when none disturbs what the lanes after it read. -/
theorem sysw_lanesRun (hnodup : ks.Nodup) {write : State → Lane → Nat → Except LaneFail State} {R : State → Lane → State → Prop}
    (hwrite : ∀ k r u, k ∉ r → SourcesKept c r s u → SourcesKept c r s (u.latch (x.lane c k) f) →
      ∃ v, write (u.latch (x.lane c k) f) (x.lane c k) (a k) = .ok v ∧ R u (x.lane c k) v ∧ SourcesKept c r s v) :
    ∃ t, sysw f write s = .next t ∧ LanesRun R s c p x ks f.readsChannel t := by
  refine execSeq_lanesRun_left h _ (fun r u => r.Nodup ∧ (∀ k ∈ r, k ∈ ks) ∧ SourcesKept c r s u) ⟨hnodup, fun _ => id, .refl c ks s⟩
    (fun u hu => State.pipe_of_curPass (hu.2.2.pass.trans h.1)) fun k r u hu => ?_
  obtain ⟨hnd, hmem, hkept⟩ := hu
  obtain ⟨hfresh, hnd'⟩ := List.nodup_cons.mp hnd
  obtain ⟨v, hv, hR, hleft⟩ := hwrite k r u hfresh hkept.tail (hkept.tail.trans (.latch hfresh u x f))
  refine ⟨v, ?_, hR, hnd', fun j hj => hmem j (List.mem_cons_of_mem _ hj), hleft⟩
  rw [sysw_act hinfo hk hpriv write (hmem k List.mem_cons_self) hkept, hv]
  rfl

end

/-! ## The registers written (R129) -/

theorem Lane.sysWrite_kept {c k : Nat} {r : List Nat} (hk : k ∉ r) (s : State) (x : Pass) (n v : Nat) :
    SourcesKept c r s ((x.lane c k).sysWrite s n v) := by
  unfold Lane.sysWrite
  dsimp only
  split
  case h_1 => exact .setThr hk s _
  case h_2 => exact .setThr hk s _
  case h_3 => exact .setThr hk s _
  case h_4 => exact .setTeam c r s _ _ rfl
  case h_5 => exact .setTeam c r s _ _ rfl
  case h_14 => exact .refl c r s
  all_goals exact .beside c r rfl

/-- No write of a register reaches memory, a core or a gang. -/
theorem Lane.sysWrite_frame (l : Lane) (s : State) (n v : Nat) :
    (l.sysWrite s n v).mem = s.mem ∧ (l.sysWrite s n v).cores = s.cores ∧ (l.sysWrite s n v).gangs = s.gangs := by
  unfold Lane.sysWrite
  split <;> exact ⟨rfl, rfl, rfl⟩

/-! ## Cached translations dropped (R260) -/

theorem MemSide.pipesKept {s t : State} (h : MemSide s t) : PipesKept s t := ⟨by rw [h.rest], fun d => by rw [h.core d]⟩

theorem SourcesKept.of_side {s t : State} (c : Nat) (r : List Nat) (h : MemSide s t) : SourcesKept c r s t :=
  ⟨h.pipesKept.curPass, fun k _ => by rw [h.rest]; rfl, by rw [h.rest], by rw [h.rest], by rw [h.rest], fun m => by rw [h.rest]; rfl,
    by rw [h.core c]⟩

theorem Tbl.at_map_snd {α : Type} (t : Tbl α) (g : α → α) (k : Nat) (d : α) : Tbl.at (t.map (fun e => (e.1, g e.2))) k (g d) = g (Tbl.at t k d) := by
  rw [Tbl.at, Tbl.look_map t (fun e => (e.1, g e.2)) fun _ => rfl, Tbl.at]
  cases Tbl.look t k <;> rfl

theorem State.dropTlbs_core (s : State) (gone : TlbEntry → Bool) (d : Nat) :
    (s.dropTlbs gone).core d = { s.core d with tlb := (s.core d).tlb.filter (fun e => !gone e) } :=
  Tbl.at_map_snd s.cores (fun k => { k with tlb := k.tlb.filter (fun e => !gone e) }) d {}

theorem State.dropTlbs_cluster (s : State) (gone : TlbEntry → Bool) (n : Nat) :
    (s.dropTlbs gone).clusterTlb n = (s.clusterTlb n).filter (fun e => !gone e) :=
  Tbl.at_map_snd s.ctlb (fun l => l.filter (fun e => !gone e)) n []

theorem SourcesKept.dropTlbs (c : Nat) (r : List Nat) (s : State) (gone : TlbEntry → Bool) : SourcesKept c r s (s.dropTlbs gone) := by
  have hpipes : PipesKept s (s.dropTlbs gone) := ⟨rfl, fun d => by rw [s.dropTlbs_core]⟩
  exact ⟨hpipes.curPass, fun _ _ => rfl, rfl, rfl, rfl, fun _ => rfl, by rw [s.dropTlbs_core]⟩

/-- A write of TLBINV: the thread's portions are written back, and what it names leaves every core and cluster. -/
def TlbsInvalidated (w : State) (cores : List Nat) (kept : TlbEntry → Bool) (v : State) : Prop :=
  ∃ y : State, MemSide w y ∧ y.l2 = w.l2 ∧ (∀ d ∈ cores, ∀ key z, Tbl.look (y.core d).l1 key = some z → z.dirty = 0)
    ∧ v = { y with cores := v.cores, ctlb := v.ctlb } ∧ (∀ d, v.core d = { y.core d with tlb := (w.core d).tlb.filter kept })
    ∧ ∀ n, v.clusterTlb n = (w.clusterTlb n).filter kept

theorem State.invalidate_invalidates (w : State) (l : Lane) (v : Nat) :
    TlbsInvalidated w (w.l1Cores l.core (l.team w)) (fun e => !tlbNamed (l.ctxId w) v e) (w.invalidate l v) := by
  obtain ⟨hlines, hclean⟩ := w.writeBackCores_cleans (w.l1Cores l.core (l.team w))
  have htlbs : TlbsKept w ((w.l1Cores l.core (l.team w)).foldl (fun s c => s.writeBackAll c) w) := .fold (fun s c => s.writeBackAll_tlbs c) _ w
  refine ⟨_, MemSide.fold (fun s c => s.writeBackAll_side c) _ w, hlines.l2, fun d hd key z => hclean d hd key z, rfl, fun d => ?_, fun n => ?_⟩
  · rw [State.invalidate, State.dropTlbs_core, htlbs.core]
  · rw [State.invalidate, State.dropTlbs_cluster, State.clusterTlb, htlbs.cluster]
    rfl

theorem SourcesKept.invalidate (c : Nat) (r : List Nat) (w : State) (l : Lane) (v : Nat) : SourcesKept c r w (w.invalidate l v) :=
  (SourcesKept.of_side c r (MemSide.fold (fun s c => s.writeBackAll_side c) _ w)).trans (.dropTlbs c r _ _)

/-! ## Loops (R221) -/

theorem State.allocate_pipes (s : State) : PipesKept s s.allocate := by
  unfold State.allocate
  extract_lets es loopOf req claim cores on ways share lent s1 least s2
  have h1 : PipesKept s s1 := .of rfl rfl
  have h2 : PipesKept s1 s2 := by
    refine .fold (fun u c => ?_) es s1
    exact .of rfl rfl
  refine (h1.trans h2).trans ?_
  exact .mapCores s2 (fun k => { k with monitor := { k.monitor with hitd := [] } }) fun _ => rfl

theorem State.setSteps_pipes (s : State) : PipesKept s s.setSteps := by
  unfold State.setSteps
  refine .fold (fun u d => ?_) _ s
  dsimp only
  refine PipesKept.trans ?_ (.fold (fun v q => ?_) _ _)
  · exact .of rfl rfl
  refine .fold (fun w c => ?_) _ v
  split
  · exact .of rfl rfl
  · exact .refl w

theorem State.finishPass_pipes (s : State) : PipesKept s s.finishPass := by
  unfold State.finishPass
  dsimp only
  split
  · exact (s.allocate_pipes.trans (State.setSteps_pipes _)).onto rfl rfl
  · exact s.setSteps_pipes.onto rfl rfl

theorem State.endMerge_pipes (s : State) (ctx : Nat) : PipesKept s (s.endMerge ctx) := by
  have h : PipesKept s (s.modCtx ctx (fun x => { x with merged := none })) := .of rfl rfl
  unfold State.endMerge State.passOn
  split
  · exact h
  · exact h.trans (State.finishPass_pipes _)

theorem State.installLoop_pipes (s : State) (ctx : Nat) (l : Loop) (packet : Bool) : PipesKept s (s.installLoop ctx l packet) := by
  unfold State.installLoop
  extract_lets x on move l' u
  have hset : PipesKept s u := .of rfl rfl
  have hmerge : PipesKept s (if l'.en && !move then u else u.endMerge ctx) := by
    split
    · exact hset
    · exact hset.trans (u.endMerge_pipes ctx)
  exact hmerge.onto rfl rfl

theorem State.writeLoop_pipes {s u : State} {ctx i : Nat} {w : Word} (h : s.writeLoop ctx i w = some u) : PipesKept s u := by
  unfold State.writeLoop at h
  dsimp only at h
  split at h
  · cases h
  · cases h
    exact s.installLoop_pipes ctx _ false

/-! ## Membership registers (R408) -/

theorem State.stopCtx_pipes (s : State) (ctx core : Nat) (w : DWord) : PipesKept s (s.stopCtx ctx core w) := by
  unfold State.stopCtx State.raise
  dsimp only
  split
  · split <;> exact .of rfl rfl
  · split
    · exact .of rfl rfl
    · exact .refl s

theorem State.place_pipes (s : State) (c k : Nat) : PipesKept s (s.place c k) := by
  have h := s.place_placed c k
  refine ⟨by rw [h.rest], fun d => ?_⟩
  by_cases hd : d = c
  · rw [hd, h.core]
  · rw [State.core, Tbl.at, h.otherCores d hd]
    rfl

theorem State.deliver_pipes (s : State) (c k : Nat) (pos : DWord) (pass : Nat) (i : FaultInfo) : PipesKept s (s.deliver c k pos pass i) := by
  have hnote : PipesKept s (s.noteBounds c k pass i.code) := by
    unfold State.noteBounds
    split
    · exact .refl s
    · exact .of rfl rfl
  have hset : ∀ th, PipesKept s ((s.noteBounds c k pass i.code).setThr c k th) := fun _ => hnote.onto rfl rfl
  unfold State.deliver
  dsimp only
  split
  · exact (hset _).trans (State.stopCtx_pipes ..)
  · split
    · exact (hset _).trans (State.stopCtx_pipes ..)
    · exact (hset _).trans (State.place_pipes ..)

theorem State.endCbrWait_pipes (s : State) (c : Nat) (w : VoteWait) (o : Nat) : PipesKept s (s.endCbrWait c w o) := by
  unfold State.endCbrWait
  refine .fold (fun u k => ?_) _ s
  split
  · refine PipesKept.trans ?_ (State.place_pipes ..)
    exact .of rfl rfl
  · exact u.deliver_pipes ..

theorem State.endMvote_pipes (s : State) (c gs : Nat) (w : VoteWait) (dst : Option Nat) (flag o t : Nat) :
    PipesKept s (s.endMvote c gs w dst flag o t) := by
  unfold State.endMvote
  refine .fold (fun u k => ?_) _ s
  dsimp only
  split
  · split <;> exact .of rfl rfl
  · exact .of rfl rfl

/-- A resolution that is no outcome of the vote commits no lane. -/
theorem State.resolveGang_pipes (s : State) (key n : Nat) (q : BitVec 16) {o : Nat} (t : Nat) (ho : ¬ o ≤ 1) :
    PipesKept s (s.resolveGang key n q o t) := by
  unfold State.resolveGang
  extract_lets c gs g mine s1 s2 s3 s4
  have h1 : PipesKept s s1 := .of rfl rfl
  have h2 : PipesKept s1 s2 := by
    show PipesKept s1 (if _ then _ else _)
    split
    · exact .refl s1
    · exact .of rfl rfl
  have h3 : PipesKept s2 s3 := by
    refine .fold (fun u w => ?_) mine s2
    split
    · exact u.endCbrWait_pipes ..
    · exact u.endMvote_pipes ..
  have h4 : PipesKept s3 s4 := by
    simp only [s4]
    split
    · split
      · rw [if_neg (by simp [ho])]
        exact .of rfl rfl
      · exact .refl s3
    · exact .refl s3
  exact (((h1.trans h2).trans h3).trans h4).onto rfl rfl

theorem State.setMset_pipes (s : State) (ctx n : Nat) (m : BitVec 128) : PipesKept s (s.setMset ctx n m) := by
  unfold State.setMset
  extract_lets opens s1
  have h1 : PipesKept s s1 := by
    refine .fold (fun u o => ?_) opens s
    refine .fold (fun v k => ?_) _ u
    exact (v.resolveGang_pipes k n o.seq 0 (by decide)).onto rfl rfl
  exact h1.onto rfl rfl

/-- A write of a membership register leaves it with the value, no open sequence and no outcome of an earlier one. -/
theorem State.setMset_ctx (s : State) (ctx n : Nat) (m : BitVec 128) :
    (∀ o ∈ ((s.setMset ctx n m).ctx ctx).openSeqs, o.reg ≠ n) ∧ ((s.setMset ctx n m).ctx ctx).moutOf n = 0xFFFFFFFFFFFFFFFF
      ∧ ((s.setMset ctx n m).ctx ctx).msetOf n = m := by
  unfold State.setMset
  extract_lets opens s1
  rw [State.modCtx_eq, State.ctx_setCtx, if_pos rfl]
  refine ⟨fun o ho => ?_, Tbl.at_put_self _ _ _ _, Tbl.at_put_self _ _ _ _⟩
  simpa using (List.mem_filter.mp ho).2

/-! ## What the writes come to (R129, R143, R221, R258, R342, R344, R348) -/

theorem ofNat_and_high_half (v : Nat) : BitVec.ofNat 32 (v / 2 ^ 16 % 2 ^ 16 * 2 ^ 16) = BitVec.ofNat 32 v &&& 0xFFFF0000 := by
  have hmask : (0xFFFF0000 : BitVec 32) = onesAt 32 16 16 := rfl
  refine BitVec.eq_of_getLsbD_eq fun i hi => ?_
  rw [hmask, BitVec.getLsbD_and, getLsbD_onesAt, BitVec.getLsbD_ofNat, BitVec.getLsbD_ofNat, Nat.testBit_mul_two_pow, Nat.testBit_mod_two_pow,
    Nat.testBit_div_two_pow]
  by_cases h : 16 ≤ i
  · simp [hi, h, show i - 16 < 16 by omega]
  · simp [h]

theorem thr_sysWrite (l : Lane) (s : State) (v : Nat) :
    l.thr (l.sysWrite s 0x000 v) = { l.thr s with fpst := BitVec.ofNat 5 v }
    ∧ l.thr (l.sysWrite s 0x020 v) = { l.thr s with dst := BitVec.ofNat 5 v }
    ∧ l.thr (l.sysWrite s 0x021 v) = { l.thr s with linctr := if v % 4096 = 0 then 1 else BitVec.ofNat 12 v } :=
  ⟨State.thr_setThr_self .., State.thr_setThr_self .., State.thr_setThr_self ..⟩

theorem ctx_sysWrite (l : Lane) (s : State) (v : Nat) :
    let ctx := fun (n : Nat) => (l.sysWrite s n v).ctx (l.ctxId s)
    let old := s.ctx (l.ctxId s)
    ctx 0x043 = { old with ptroot := BitVec.ofNat 64 v }
    ∧ ctx 0x044 = { old with xlctl := if v % 32 = 0 || 18 < v % 32 then 18 else BitVec.ofNat 32 (v % 32) }
    ∧ ctx 0x046 = { old with lvwait := BitVec.ofNat 64 v }
    ∧ ctx 0x048 = { old with ctxerr := BitVec.ofNat 32 (v / 2 ^ 16 % 2 ^ 16 * 2 ^ 16) }
    ∧ ctx 0x081 = { old with wdlimit := BitVec.ofNat 64 v }
    ∧ ctx 0x083 = { old with pdeadline := BitVec.ofNat 32 (min (max (v % 2 ^ 16) 50) 10000) } :=
  ⟨State.ctx_setCtx_self .., State.ctx_setCtx_self .., State.ctx_setCtx_self .., State.ctx_setCtx_self .., State.ctx_setCtx_self ..,
    State.ctx_setCtx_self ..⟩

theorem die_sysWrite (l : Lane) (s : State) (v : Nat) :
    (l.sysWrite s 0x102 v).die (dieOf l.core) = { s.die (dieOf l.core) with power := min (max (v % 2 ^ 16) 100) 1400 }
    ∧ (l.sysWrite s 0x103 v).die (dieOf l.core) = { s.die (dieOf l.core) with sparepr := BitVec.ofNat 32 v } :=
  ⟨State.die_setDie_self .., State.die_setDie_self ..⟩

theorem team_sysWrite (l : Lane) (s : State) (v : Nat) :
    l.team (l.sysWrite s 0x026 v) = { l.team s with bankconf := BitVec.ofNat 32 v }
    ∧ l.team (l.sysWrite s 0x028 v) = { l.team s with teamest := BitVec.ofNat 32 v } :=
  ⟨State.team_setTeam_self .., State.team_setTeam_self ..⟩

/-! ## Fields of a membership register (R408) -/

/-- Bits above a number's lower part. -/
theorem bitsOf_high (h : Nat) {l n : Nat} (hl : l < 2 ^ n) (hi lo : Nat) : bitsOf (h * 2 ^ n + l) (hi + n) (lo + n) = bitsOf h hi lo := by
  have hdiv : (h * 2 ^ n + l) / 2 ^ (lo + n) = h / 2 ^ lo := by
    rw [Nat.pow_add, Nat.mul_comm (2 ^ lo), ← Nat.div_div_eq_div_mul, Nat.mul_comm h, Nat.mul_add_div (Nat.two_pow_pos n), Nat.div_eq_of_lt hl,
      Nat.add_zero]
  rw [bitsOf, bitsOf, hdiv, show hi + n + 1 - (lo + n) = hi + 1 - lo by omega]

/-- Bits of a number's lower part. -/
theorem bitsOf_low (h l : Nat) {n hi lo : Nat} (hle : lo ≤ hi) (hhi : hi < n) : bitsOf (h * 2 ^ n + l) hi lo = bitsOf l hi lo := by
  have hsplit : h * 2 ^ n = 2 ^ lo * (h * 2 ^ (n - 1 - hi) * 2 ^ (hi + 1 - lo)) := by
    rw [Nat.mul_assoc, ← Nat.pow_add, Nat.mul_left_comm, ← Nat.pow_add]
    congr 2
    omega
  rw [bitsOf, bitsOf, hsplit, Nat.mul_add_div (Nat.two_pow_pos _), Nat.mul_add_mod_self_right]

theorem getLsbD_eq_bitsOf {w : Nat} (b : BitVec w) (i : Nat) : b.getLsbD i = (bitsOf b.toNat i i == 1) := by
  rw [bitsOf, show i + 1 - i = 1 by omega]
  exact (bitOf_eq _ _).symm

theorem toNat_extractLsb'_succ {w : Nat} (b : BitVec w) (i n : Nat) : (b.extractLsb' i (n + 1)).toNat = bitsOf b.toNat (i + n) i := by
  rw [BitVec.extractLsb'_toNat, Nat.shiftRight_eq_div_pow, bitsOf, show i + n + 1 - i = n + 1 by omega]

/-- The upper half that a write of `v` stores. -/
def msetHigh (v : Nat) : Nat := bitsOf v 17 0 + max (v / 2 ^ 24 % 2 ^ 16) 1 * 2 ^ 24 + bitsOf v 63 40 * 2 ^ 40

/-- VOP as it is stored: 3 as 0. -/
def storedVop (v : Nat) : Nat := if v / 2 ^ 14 % 4 = 3 then 0 else v / 2 ^ 14 % 4

/-- Bits 15 to 0 that a write of `v` stores over a register whose LRES is `b`. -/
def msetFlags (v b : Nat) : Nat := storedVop v * 2 ^ 14 + bitsOf v 13 12 * 2 ^ 12 + b * 2 ^ 11 + v % 2

theorem storedVop_lt (v : Nat) : storedVop v < 4 := by
  unfold storedVop
  split <;> omega

theorem msetHigh_fields {v : Nat} (hv : v < 2 ^ 64) : bitsOf (msetHigh v) 63 40 = v / 2 ^ 40
    ∧ bitsOf (msetHigh v) 39 24 = max (v / 2 ^ 24 % 2 ^ 16) 1 ∧ bitsOf (msetHigh v) 17 9 = v / 2 ^ 9 % 2 ^ 9
    ∧ bitsOf (msetHigh v) 8 0 = v % 2 ^ 9 ∧ msetHigh v < 2 ^ 64 := by
  have hg : max (v / 2 ^ 24 % 2 ^ 16) 1 < 2 ^ 16 := by omega
  unfold msetHigh
  generalize max (v / 2 ^ 24 % 2 ^ 16) 1 = g at hg
  simp only [bitsOf, Nat.reduceAdd, Nat.reduceSub]
  refine ⟨?_, ?_, ?_, ?_, ?_⟩ <;> omega

theorem msetFlags_fields (v : Nat) {b : Nat} (hb : b < 2) : bitsOf (msetFlags v b) 15 14 = storedVop v
    ∧ bitsOf (msetFlags v b) 13 13 = v / 2 ^ 13 % 2 ∧ bitsOf (msetFlags v b) 12 12 = v / 2 ^ 12 % 2 ∧ bitsOf (msetFlags v b) 11 11 = b
    ∧ bitsOf (msetFlags v b) 10 1 = 0 ∧ bitsOf (msetFlags v b) 0 0 = v % 2 ∧ msetFlags v b < 2 ^ 16 := by
  have ho := storedVop_lt v
  unfold msetFlags
  generalize storedVop v = o at ho
  simp only [bitsOf, Nat.reduceAdd, Nat.reduceSub]
  refine ⟨?_, ?_, ?_, ?_, ?_, ?_, ?_⟩ <;> omega

theorem Mset.write_high_toNat (m : BitVec 128) {v : Nat} (hv : v < 2 ^ 64) :
    (Mset.write m true v).toNat = msetHigh v * 2 ^ 64 + m.toNat % 2 ^ 64 := by
  have hgrace : (if bitsOf v 39 24 = 0 then 1 else bitsOf v 39 24) = max (v / 2 ^ 24 % 2 ^ 16) 1 := by
    show (if v / 2 ^ 24 % 2 ^ 16 = 0 then 1 else v / 2 ^ 24 % 2 ^ 16) = _
    split <;> omega
  obtain ⟨-, -, -, -, hlt⟩ := msetHigh_fields hv
  simp only [Mset.write, if_true, hgrace, BitVec.toNat_ofNat]
  rw [← msetHigh]
  omega

theorem Mset.write_low_toNat (m : BitVec 128) {v : Nat} (hv : v < 2 ^ 64) : (Mset.write m false v).toNat
    = m.toNat / 2 ^ 64 * 2 ^ 64 + (v / 2 ^ 16 * 2 ^ 16 + msetFlags v (bitsOf m.toNat 11 11)) := by
  have hm := m.isLt
  obtain ⟨-, -, -, -, -, -, hlt⟩ := msetFlags_fields v (b := bitsOf m.toNat 11 11) (Nat.mod_lt _ (by decide))
  have htop : bitsOf m.toNat 127 64 = m.toNat / 2 ^ 64 := Nat.mod_eq_of_lt (by omega)
  have hmid : bitsOf v 63 16 = v / 2 ^ 16 := Nat.mod_eq_of_lt (by omega)
  have hflags : (if bitsOf v 15 14 = 3 then 0 else bitsOf v 15 14) * 2 ^ 14 + bitsOf v 13 12 * 2 ^ 12 + bitsOf m.toNat 11 11 * 2 ^ 11 + v % 2
      = msetFlags v (bitsOf m.toNat 11 11) := rfl
  simp only [Mset.write, Bool.false_eq_true, if_false, htop, hmid, BitVec.toNat_ofNat]
  simp only [Nat.add_assoc] at hflags ⊢
  rw [hflags]
  omega

theorem Mset.write_high_fields (m : BitVec 128) {v : Nat} (hv : v < 2 ^ 64) : let hi := Mset.write m true v
    Mset.k hi = v / 2 ^ 40 ∧ Mset.grace hi = max (v / 2 ^ 24 % 2 ^ 16) 1 ∧ Mset.dgn hi = v / 2 ^ 9 % 2 ^ 9 ∧ Mset.dgbase hi = v % 2 ^ 9
      ∧ hi.extractLsb' 0 64 = m.extractLsb' 0 64 := by
  intro hi
  obtain ⟨hk, hgrace, hdgn, hdgbase, -⟩ := msetHigh_fields hv
  have h : hi.toNat = _ := Mset.write_high_toNat m hv
  have hup : ∀ i j, bitsOf hi.toNat (i + 64) (j + 64) = bitsOf (msetHigh v) i j := fun i j => by
    rw [h]
    exact bitsOf_high _ (Nat.mod_lt _ (by decide)) i j
  refine ⟨(hup 63 40).trans hk, (hup 39 24).trans hgrace, (hup 17 9).trans hdgn, (hup 8 0).trans hdgbase, BitVec.eq_of_toNat_eq ?_⟩
  rw [toNat_extractLsb'_succ, toNat_extractLsb'_succ, h, bitsOf_low _ _ (by decide) (by decide)]
  simp only [bitsOf, Nat.pow_zero, Nat.div_one, Nat.reduceAdd, Nat.reduceSub, Nat.mod_mod]

theorem Mset.write_low_fields (m : BitVec 128) {v : Nat} (hv : v < 2 ^ 64) : let lo := Mset.write m false v
    (Mset.gmask lo).toNat = v / 2 ^ 32 ∧ (Mset.seq lo).toNat = v / 2 ^ 16 % 2 ^ 16 ∧ Mset.vop lo = storedVop v ∧ Mset.defv lo = bitOf v 13
      ∧ Mset.dpol lo = bitOf v 12 ∧ lo.getLsbD 11 = m.getLsbD 11 ∧ lo.extractLsb' 1 10 = 0 ∧ Mset.valid lo = bitOf v 0
      ∧ lo.extractLsb' 64 64 = m.extractLsb' 64 64 := by
  intro lo
  have h : lo.toNat = _ := Mset.write_low_toNat m hv
  obtain ⟨hvop, hdefv, hdpol, hlres, hzero, hvalid, hlt⟩ := msetFlags_fields v (b := bitsOf m.toNat 11 11) (Nat.mod_lt _ (by decide))
  have hflag : ∀ {i j}, j ≤ i → i < 16 → bitsOf lo.toNat i j = bitsOf (msetFlags v (bitsOf m.toNat 11 11)) i j := fun {i j} hj hi => by
    rw [h, bitsOf_low _ _ hj (by omega), bitsOf_low _ _ hj hi]
  have hmid : ∀ {i j}, j ≤ i → i < 48 → bitsOf lo.toNat (i + 16) (j + 16) = bitsOf (v / 2 ^ 16) i j := fun {i j} hj hi => by
    rw [h, bitsOf_low _ _ (by omega) (by omega), bitsOf_high _ hlt]
  refine ⟨?gmask, ?seq, (hflag (by decide) (by decide)).trans hvop, ?defv, ?dpol, ?lres, BitVec.eq_of_toNat_eq ?zero, ?valid, BitVec.eq_of_toNat_eq ?top⟩
  case gmask =>
    refine (toNat_extractLsb'_succ lo 32 31).trans ((hmid (i := 47) (j := 16) (by decide) (by decide)).trans ?_)
    rw [bitsOf, Nat.div_div_eq_div_mul]
    exact Nat.mod_eq_of_lt (by omega)
  case seq => exact (toNat_extractLsb'_succ lo 16 15).trans ((hmid (i := 15) (j := 0) (by decide) (by decide)).trans (by rw [bitsOf, Nat.pow_zero, Nat.div_one]))
  case defv => rw [Mset.defv, getLsbD_eq_bitsOf, hflag (by decide) (by decide), hdefv]; rfl
  case dpol => rw [Mset.dpol, getLsbD_eq_bitsOf, hflag (by decide) (by decide), hdpol]; rfl
  case lres => rw [getLsbD_eq_bitsOf, getLsbD_eq_bitsOf, hflag (by decide) (by decide), hlres]
  case zero => exact (toNat_extractLsb'_succ lo 1 9).trans ((hflag (by decide) (by decide)).trans hzero)
  case valid => rw [Mset.valid, getLsbD_eq_bitsOf, hflag (by decide) (by decide), hvalid, bitOf, Nat.pow_zero, Nat.div_one]
  case top =>
    rw [toNat_extractLsb'_succ, toNat_extractLsb'_succ, h]
    refine (bitsOf_high (n := 64) _ (by omega) 63 0).trans ?_
    exact congrArg (· % 2 ^ 64) (Nat.div_one _)

/-! ## The writes of registers with rows of their own -/

/-- What `loopWrite` writes of a value: nothing for a breach. -/
def loopWriteOf (f : Fields) (s : State) (l : Lane) (v : Nat) : Except LaneFail State :=
  match s.writeLoop (l.ctxId s) (f.sysNum - 0x050) (BitVec.ofNat 32 v) with
  | some t => .ok t
  | none => .error (.fault (opInfo 2 f.sa.toSpec.toNat pSA))

/-- What `msetWrite` writes of a value. -/
def msetWriteOf (f : Fields) (s : State) (l : Lane) (v : Nat) : State :=
  s.writeMset (l.ctxId s) ((f.sysNum - 0x060) / 2) (f.sysNum % 2 == 1) v

/-- What `pgbudgetWrite` writes of a value. -/
def pgbudgetWriteOf (s : State) (l : Lane) (v : Nat) : State :=
  s.modDie (dieOf l.core) (fun d => { d with budget := max (v % 256) 1, ramp := min (max (v / 256 % 256) 1) 64 })

theorem Lane.ctxId_latch (l m : Lane) (s : State) (f : Fields) : l.ctxId (s.latch m f) = l.ctxId s := rfl

theorem exec_sysw (f : Fields) (s : State) : exec (.sysw f) s = sysw f (fun s l v => .ok (l.sysWrite s f.sysNum v)) s := rfl
theorem exec_tlbinv (f : Fields) (s : State) : exec (.tlbinv f) s = sysw f (fun s l v => .ok (s.invalidate l v)) s := rfl
theorem exec_loopWrite (f : Fields) (s : State) : exec (.loopWrite f) s = sysw f (loopWriteOf f) s := rfl
theorem exec_msetWrite (f : Fields) (s : State) : exec (.msetWrite f) s = sysw f (fun s l v => .ok (msetWriteOf f s l v)) s := rfl
theorem exec_pgbudgetWrite (f : Fields) (s : State) : exec (.pgbudgetWrite f) s = sysw f (fun s l v => .ok (pgbudgetWriteOf s l v)) s := rfl

/-! ## The obligation -/

section
variable {f : Fields} {s : State} {c p : Nat} {x : Pass} {ks : List Nat} {info : SysInfo} {a : Nat → Nat} (h : Executes s c p x f.guard ks)
  (hinfo : sysInfo f.sysNum = some info)
  (hk : ∀ k ∈ ks, (x.lane c k).check s [(pSA, OpKind.src f.ty.isPair, f.sa)] = .ok () ∧ (s.thr c k).spec = false
    ∧ (x.lane c k).readInt s pSA f.sa f.ty = .ok (a k))
  (hpriv : ∀ k ∈ ks, info.supWrite = true → (s.thr c k).priv = true)
include h hinfo hk hpriv

theorem tlbinv_lanesRun (hnodup : ks.Nodup) : ∃ t, exec (.tlbinv f) s = .next t ∧ LanesRun (fun u l v =>
    TlbsInvalidated (u.latch l f) ((u.latch l f).l1Cores c (l.team (u.latch l f))) (fun e => !tlbNamed (l.ctxId s) (a l.slot) e) v)
    s c p x ks f.readsChannel t := by
  rw [exec_tlbinv]
  refine sysw_lanesRun h hinfo hk hpriv hnodup fun k r u hfresh hu hlatch => ⟨_, rfl, ?_, hlatch.trans (.invalidate ..)⟩
  have hctx : (x.lane c k).ctxId (u.latch (x.lane c k) f) = (x.lane c k).ctxId s := congrArg Grid.ctx (hlatch.gangGrid (k / 32))
  rw [← hctx]
  exact State.invalidate_invalidates ..

theorem pgbudgetWrite_lanesRun (hnodup : ks.Nodup) : ∃ t, exec (.pgbudgetWrite f) s = .next t ∧ LanesRun (fun u l v =>
    v = (u.latch l f).setDie (dieOf c) { u.die (dieOf c) with budget := max (a l.slot % 256) 1, ramp := min (max (a l.slot / 256 % 256) 1) 64 })
    s c p x ks f.readsChannel t := by
  rw [exec_pgbudgetWrite]
  exact sysw_lanesRun h hinfo hk hpriv hnodup fun k r u hfresh hu hlatch => ⟨_, rfl, rfl, hlatch.trans (.beside c r rfl)⟩

theorem sysw_lanesWrite (hnodup : ks.Nodup) : ∃ t, exec (.sysw f) s = .next t
    ∧ LanesRun (fun u l v => v = l.sysWrite (u.latch l f) f.sysNum (a l.slot)) s c p x ks f.readsChannel t := by
  rw [exec_sysw]
  exact sysw_lanesRun h hinfo hk hpriv hnodup fun k r u hfresh hu hlatch => ⟨_, rfl, rfl, hlatch.trans (Lane.sysWrite_kept hfresh _ x _ _)⟩

/-- What one lane writes decides how it goes on. -/
theorem sysw_single {k : Nat} (hks : ks = [k]) (write : State → Lane → Nat → Except LaneFail State) {u : State}
    (hu : write (s.latch (x.lane c k) f) (x.lane c k) (a k) = .ok u) (hpipes : PipesKept (s.latch (x.lane c k) f) u) :
    ∃ t, sysw f write s = .next t ∧ GoesOn u t c p x f.readsChannel [(k, ({ th := s.thr c k } : LaneOut))] := by
  refine execSeq_single h _ hks ?_ (State.pipe_of_curPass (hpipes.curPass.trans h.1))
  refine (sysw_act hinfo hk hpriv write (r := []) (by simp [hks]) (.refl c _ s)).trans ?_
  rw [hu]
  rfl

theorem loopWrite_breach {k : Nat} (hks : ks = [k])
    (hbreach : (s.latch (x.lane c k) f).writeLoop ((x.lane c k).ctxId s) (f.sysNum - 0x050) (BitVec.ofNat 32 (a k)) = none) :
    exec (.loopWrite f) s = .next (s.afterInstr c p x [(k, .fault ⟨2, BitVec.ofNat 32 (f.sa.toSpec.toNat + 512), 0⟩)]) := by
  subst hks
  rw [exec_loopWrite]
  refine execSeq_all_leave h _ (fail := fun _ => .fault ⟨2, BitVec.ofNat 32 (f.sa.toSpec.toNat + 512), 0⟩) fun j hj => ?_
  obtain rfl := List.mem_singleton.mp hj
  refine (sysw_act hinfo hk hpriv (loopWriteOf f) (r := []) hj (.refl c _ s)).trans ?_
  have hwrite : loopWriteOf f (s.latch (x.lane c j) f) (x.lane c j) (a j) = .error (.fault (opInfo 2 f.sa.toSpec.toNat pSA)) := by
    rw [loopWriteOf, Lane.ctxId_latch, hbreach]
  rw [hwrite]
  rfl

theorem loopWrite_single {k : Nat} (hks : ks = [k]) {u : State}
    (hu : (s.latch (x.lane c k) f).writeLoop ((x.lane c k).ctxId s) (f.sysNum - 0x050) (BitVec.ofNat 32 (a k)) = some u) :
    ∃ t, exec (.loopWrite f) s = .next t ∧ GoesOn u t c p x f.readsChannel [(k, ({ th := s.thr c k } : LaneOut))] := by
  rw [exec_loopWrite]
  refine sysw_single h hinfo hk hpriv hks (loopWriteOf f) ?_ (State.writeLoop_pipes hu)
  rw [loopWriteOf, Lane.ctxId_latch, hu]

theorem msetWrite_single {k : Nat} (hks : ks = [k]) : ∃ u t, exec (.msetWrite f) s = .next t
    ∧ GoesOn u t c p x f.readsChannel [(k, ({ th := s.thr c k } : LaneOut))]
    ∧ (∀ o ∈ (u.ctx ((x.lane c k).ctxId s)).openSeqs, o.reg ≠ (f.sysNum - 0x060) / 2)
    ∧ (u.ctx ((x.lane c k).ctxId s)).moutOf ((f.sysNum - 0x060) / 2) = 0xFFFFFFFFFFFFFFFF
    ∧ (u.ctx ((x.lane c k).ctxId s)).msetOf ((f.sysNum - 0x060) / 2)
      = Mset.write ((s.ctx ((x.lane c k).ctxId s)).msetOf ((f.sysNum - 0x060) / 2)) (decide (f.sysNum % 2 = 1)) (a k) := by
  rw [exec_msetWrite]
  obtain ⟨t, hexec, hon⟩ := sysw_single h hinfo hk hpriv hks (fun s l v => .ok (msetWriteOf f s l v)) rfl (State.setMset_pipes ..)
  obtain ⟨hopen, hmout, hmset⟩ := (s.latch (x.lane c k) f).setMset_ctx ((x.lane c k).ctxId s) ((f.sysNum - 0x060) / 2)
    (Mset.write ((s.ctx ((x.lane c k).ctxId s)).msetOf ((f.sysNum - 0x060) / 2)) (f.sysNum % 2 == 1) (a k))
  exact ⟨_, t, hexec, hon, hopen, hmout, hmset⟩

end

/-- What the writes come to, register by register. -/
theorem sysWrite_results (s : State) (l : Lane) (v : Nat) :
    let ctx := fun (n : Nat) => (l.sysWrite s n v).ctx (l.ctxId s)
    let thr := fun (n : Nat) => l.thr (l.sysWrite s n v)
    thr 0x000 = { l.thr s with fpst := BitVec.ofNat 5 v } ∧ thr 0x020 = { l.thr s with dst := BitVec.ofNat 5 v }
      ∧ (thr 0x021 = { l.thr s with linctr := (thr 0x021).linctr } ∧ (thr 0x021).linctr ≠ 0
          ∧ (v % 4096 ≠ 0 → (thr 0x021).linctr.toNat = v % 4096) ∧ (v % 4096 = 0 → (thr 0x021).linctr = 1))
      ∧ (l.team (l.sysWrite s 0x026 v)).bankconf = BitVec.ofNat 32 v ∧ (l.team (l.sysWrite s 0x028 v)).teamest = BitVec.ofNat 32 v
      ∧ (ctx 0x043).ptroot = BitVec.ofNat 64 v
      ∧ ((ctx 0x044).xlctl.toNat = if 1 ≤ v % 32 ∧ v % 32 ≤ 18 then v % 32 else 18)
      ∧ (ctx 0x046).lvwait = BitVec.ofNat 64 v ∧ (ctx 0x048).ctxerr = BitVec.ofNat 32 v &&& 0xFFFF0000
      ∧ (ctx 0x081).wdlimit = BitVec.ofNat 64 v ∧ (ctx 0x083).pdeadline.toNat = min (max (v % 65536) 50) 10000
      ∧ ((l.sysWrite s 0x102 v).die (dieOf l.core)).power = min (max (v % 65536) 100) 1400
      ∧ ((l.sysWrite s 0x103 v).die (dieOf l.core)).sparepr = BitVec.ofNat 32 v := by
  intro ctx thr
  obtain ⟨hfpst, hdst, hlinctr⟩ := thr_sysWrite l s v
  obtain ⟨hptroot, hxlctl, hlvwait, hctxerr, hwdlimit, hpdeadline⟩ := ctx_sysWrite l s v
  obtain ⟨hbank, hest⟩ := team_sysWrite l s v
  obtain ⟨hpower, hspare⟩ := die_sysWrite l s v
  have hlinctr' : (thr 0x021).linctr = if v % 4096 = 0 then 1 else BitVec.ofNat 12 v := congrArg Thread.linctr hlinctr
  refine ⟨hfpst, hdst, ⟨by rw [hlinctr']; exact hlinctr, ?nonzero, fun hv => ?kept, fun hv => ?one⟩, by rw [hbank], by rw [hest],
    congrArg Ctx.ptroot hptroot, ?xlctl, congrArg Ctx.lvwait hlvwait, ?ctxerr, congrArg Ctx.wdlimit hwdlimit, ?pdeadline,
    congrArg Die.power hpower, congrArg Die.sparepr hspare⟩
  case nonzero =>
    rw [hlinctr']
    split
    · decide
    · next hv => exact fun e => hv (by simpa using congrArg BitVec.toNat e)
  case kept => rw [hlinctr', if_neg hv, BitVec.toNat_ofNat]
  case one => rw [hlinctr', if_pos hv]
  case xlctl =>
    rw [congrArg Ctx.xlctl hxlctl]
    simp only [Bool.or_eq_true, decide_eq_true_eq]
    split
    · next hv => rw [if_neg (by omega)]; rfl
    · next hv => rw [if_pos (by omega), BitVec.toNat_ofNat]; omega
  case ctxerr => exact (congrArg Ctx.ctxerr hctxerr).trans (ofNat_and_high_half v)
  case pdeadline =>
    rw [congrArg Ctx.pdeadline hpdeadline]
    dsimp only
    rw [BitVec.toNat_ofNat]
    omega

/-- Settles O44: reads by the courses on registers and lane after lane, writes by the one course they share, and what they come to
register by register. -/
theorem systemRegisterReadsWritesAndClamps : Obligations.SystemRegisterReadsWritesAndClamps := by
  unfold Obligations.SystemRegisterReadsWritesAndClamps
  refine ⟨fun f s c p x ks info h => ?course, fun s l v => ?values, fun m v hv => ?mset⟩
  case course =>
    dsimp only
    intro hinfo
    refine ⟨fun hlong hc => ⟨fun hpriv ha => sysr_short h hinfo hlong hc hpriv ha fun _ => rfl, fun hsup huser => sysr_user h hinfo hlong hc hsup huser⟩,
      fun flag hlong hflag hfull hc => sysr_long h hinfo hlong hflag hfull hc, fun a hnodup hk => ⟨fun hsup huser i hi => ?user, fun hpriv => ?writes⟩⟩
    case user =>
      have hfault := fun write => sysw_user h hinfo write (fun k hk' => (hk k hk').1) hsup huser
      simp only [List.mem_cons, List.not_mem_nil, or_false] at hi
      obtain rfl | rfl | rfl | rfl | rfl := hi
      · exact exec_sysw f s ▸ hfault _
      · exact exec_tlbinv f s ▸ hfault _
      · exact exec_loopWrite f s ▸ hfault _
      · exact exec_msetWrite f s ▸ hfault _
      · exact exec_pgbudgetWrite f s ▸ hfault _
    case writes =>
      exact ⟨sysw_lanesWrite h hinfo hk hpriv hnodup, tlbinv_lanesRun h hinfo hk hpriv hnodup, pgbudgetWrite_lanesRun h hinfo hk hpriv hnodup,
        fun k hks => ⟨fun u hu => loopWrite_single h hinfo hk hpriv hks hu, loopWrite_breach h hinfo hk hpriv hks,
          msetWrite_single h hinfo hk hpriv hks⟩⟩
  case values =>
    obtain ⟨h1, h2, h3, h4, h5, h6, h7, h8, h9, h10, h11, h12, h13⟩ := sysWrite_results s l v
    exact ⟨h1, h2, h3, h4, h5, h6, h7, h8, h9, h10, h11, h12, h13, fun n => l.sysWrite_frame s n v⟩
  case mset =>
    obtain ⟨h1, h2, h3, h4, h5⟩ := Mset.write_high_fields m hv
    exact ⟨h1, h2, h3, h4, h5, Mset.write_low_fields m hv⟩

end Sys2Proof.Machine
end

section
/-!
The obligation on fences, prefetch and the remote acquire (R127, R128, R270, R272, R278, R279).
-/
namespace Sys2Proof.Machine

/-! ## Lines that leave the L1 portions (R272) -/

theorem Tbl.mem_of_mem_put {α : Type} {t : Tbl α} {k : Nat} {x : α} {e : Nat × α} (h : e ∈ Tbl.put t k x) : e = (k, x) ∨ e ∈ t := by
  induction t with
  | nil => exact .inl (List.mem_singleton.mp h)
  | cons d r ih =>
    simp only [Tbl.put] at h
    split at h
    · exact List.mem_cons.mp h
    · split at h
      · exact (List.mem_cons.mp h).imp id (List.mem_cons_of_mem _)
      · obtain rfl | hr := List.mem_cons.mp h
        · exact .inr List.mem_cons_self
        · exact (ih hr).imp id (List.mem_cons_of_mem _)

/-- A portion holds constant lines only. -/
def State.ConstCore (d : Nat) (s : State) : Prop := ∀ e ∈ (s.core d).l1, e.2.const = true

theorem State.writeBack_const (s : State) (c key : Nat) {d : Nat} (h : s.ConstCore d) : (s.writeBack c key).ConstCore d := by
  obtain ⟨-, hother, ⟨hsame, -⟩ | ⟨z, hz, hput⟩⟩ := s.writeBack_l1 c key
  · by_cases hd : d = c
    · subst hd
      rwa [State.ConstCore, hsame]
    · rwa [State.ConstCore, hother d hd]
  · by_cases hd : d = c
    · subst hd
      intro e he
      rw [hput] at he
      obtain rfl | he := Tbl.mem_of_mem_put he
      · exact h (key, z) (Tbl.mem_of_look hz)
      · exact h e he
    · rwa [State.ConstCore, hother d hd]

theorem State.foldl_const {α : Type} {f : State → α → State} {d : Nat} (hf : ∀ s a, s.ConstCore d → (f s a).ConstCore d) (l : List α)
    {s : State} (h : s.ConstCore d) : (l.foldl f s).ConstCore d := by
  induction l generalizing s with
  | nil => exact h
  | cons a r ih => exact ih (hf s a h)

theorem State.flushL1_const (s : State) (c : Nat) : (s.flushL1 c false).ConstCore c
    ∧ ∀ d, s.ConstCore d → (s.flushL1 c false).ConstCore d := by
  have hc : (s.flushL1 c false).ConstCore c := by
    intro e he
    unfold State.flushL1 at he
    rw [State.modCore_eq, State.core_setCore, if_pos rfl] at he
    exact (List.mem_filter.mp he).2
  refine ⟨hc, fun d hd => ?_⟩
  by_cases e : d = c
  · exact e ▸ hc
  · have hall : (s.writeBackAll c).ConstCore d := State.foldl_const (fun s key h => s.writeBack_const c key h) _ hd
    unfold State.flushL1
    rwa [State.ConstCore, State.modCore_eq, State.core_setCore, if_neg e]

/-- Portions flushed one after another hold constant lines only. -/
theorem State.flushCores_const (l : List Nat) (s : State) : ∀ d ∈ l, (l.foldl (fun s c => s.flushL1 c false) s).ConstCore d := by
  induction l generalizing s with
  | nil => nofun
  | cons c r ih =>
    intro d hd
    obtain rfl | hr := List.mem_cons.mp hd
    · exact State.foldl_const (fun s c => (s.flushL1_const c).2 _) r (s.flushL1_const _).1
    · exact ih _ d hr

/-! ## Fences (R270, R272) -/

section
variable (s : State) (c : Nat) (team : Team) {scope : Nat}

theorem State.releaseAt_narrow (h : scope < 2) : s.releaseAt c team scope = s := if_pos h

theorem State.acquireAt_narrow (h : scope < 2) : s.acquireAt c team scope = s := if_pos h

theorem State.releaseAt_clean (h : 2 ≤ scope) : ∀ d ∈ s.l1Cores c team, (s.releaseAt c team scope).CleanCore d := by
  rw [State.releaseAt, if_neg (by omega)]
  exact (s.writeBackCores_cleans _).2

theorem State.acquireAt_const (h : 2 ≤ scope) : ∀ d ∈ s.l1Cores c team, (s.acquireAt c team scope).ConstCore d := by
  rw [State.acquireAt, if_neg (by omega)]
  exact State.flushCores_const _ s

end

theorem MemSide.l1Cores {s t : State} (h : MemSide s t) (c : Nat) (team : Team) : t.l1Cores c team = s.l1Cores c team := by
  rw [State.l1Cores, State.l1Portions, h.rest]
  rfl

theorem MemSide.laneTeam {s t : State} (h : MemSide s t) (l : Lane) : l.team t = l.team s := by
  rw [Lane.team, State.gangTeam, State.team, State.gang, h.rest]
  rfl

theorem MemSide.laneThr {s t : State} (h : MemSide s t) (c k : Nat) : t.thr c k = s.thr c k := by
  rw [State.thr, h.rest]
  rfl

/-- What a fence leaves of the state: the mark of a narrow release, and the L1 portions of a wide one (R266, R270, R272). -/
def Fenced (rel acq : Bool) (scope : Nat) (u : State) (l : Lane) (v : State) : Prop :=
  let marked := if rel && decide (scope < 2) then u.modThr l.core l.slot (fun th => { th with relFence := true }) else u
  (scope < 2 → v = marked) ∧ (2 ≤ scope → MemSide u v
    ∧ (rel = false → acq = false → v = u)
    ∧ (rel = true → acq = false → ∀ d ∈ u.l1Cores l.core (l.team u), ∀ key y, Tbl.look (v.core d).l1 key = some y → y.dirty = 0)
    ∧ (acq = true → ∀ d ∈ u.l1Cores l.core (l.team u), ∀ key y, Tbl.look (v.core d).l1 key = some y → y.const = true))

/-- A fence as its order and scope give it. -/
def State.fenced (u : State) (l : Lane) (rel acq : Bool) (scope : Nat) : State :=
  let a := if rel then u.releaseAt l.core (l.team u) scope else u
  let b := if rel && scope < 2 then a.modThr l.core l.slot (fun th => { th with relFence := true }) else a
  if acq then b.acquireAt l.core (l.team b) scope else b

theorem State.fenced_narrow (u : State) (l : Lane) (rel acq : Bool) {scope : Nat} (h : scope < 2) : u.fenced l rel acq scope
    = if rel then u.modThr l.core l.slot (fun th => { th with relFence := true }) else u := by
  cases rel <;> cases acq <;> simp [State.fenced, h, State.releaseAt_narrow, State.acquireAt_narrow]

theorem State.fenced_wide (u : State) (l : Lane) (rel acq : Bool) {scope : Nat} (h : 2 ≤ scope) : MemSide u (u.fenced l rel acq scope)
    ∧ (rel = false → acq = false → u.fenced l rel acq scope = u)
    ∧ (rel = true → acq = false → ∀ d ∈ u.l1Cores l.core (l.team u), (u.fenced l rel acq scope).CleanCore d)
    ∧ (acq = true → ∀ d ∈ u.l1Cores l.core (l.team u), (u.fenced l rel acq scope).ConstCore d) := by
  have hnarrow : ¬ scope < 2 := by omega
  have hrel : MemSide u (if rel then u.releaseAt l.core (l.team u) scope else u) := by
    split
    · exact u.releaseAt_side ..
    · exact .refl u
  have heq : u.fenced l rel acq scope = let a := if rel then u.releaseAt l.core (l.team u) scope else u
      if acq then a.acquireAt l.core (l.team a) scope else a := by
    simp [State.fenced, hnarrow]
  rw [heq]
  refine ⟨?side, ?none, ?rel, ?acq⟩
  case side =>
    dsimp only
    split
    · exact hrel.trans (State.acquireAt_side ..)
    · exact hrel
  case none => rintro rfl rfl; rfl
  case rel => rintro rfl rfl; exact u.releaseAt_clean l.core (l.team u) h
  case acq =>
    rintro rfl
    intro d hd
    exact State.acquireAt_const _ l.core _ h d (by rw [hrel.l1Cores, hrel.laneTeam]; exact hd)

theorem State.fenced_fenced (u : State) (l : Lane) (rel acq : Bool) (scope : Nat) : Fenced rel acq scope u l (u.fenced l rel acq scope) := by
  refine ⟨fun h => ?_, fun h => ?_⟩
  · rw [u.fenced_narrow l rel acq h, decide_eq_true h, Bool.and_true]
  · obtain ⟨hside, hnone, hrel, hacq⟩ := u.fenced_wide l rel acq h
    exact ⟨hside, hnone, fun e e' d hd key y hy => hrel e e' d hd key y hy, fun e d hd key y hy => hacq e d hd (key, y) (Tbl.mem_of_look hy)⟩

/-- What a fence leaves as it was for the lanes after it. -/
structure FenceKeeps (c : Nat) (s u : State) : Prop where
  pass : u.curPass = s.curPass
  spec : ∀ k, (u.thr c k).spec = (s.thr c k).spec
  ssh : (u.core c).ssh = (s.core c).ssh

theorem FenceKeeps.fenced {c k : Nat} {s u : State} (h : FenceKeeps c s u) (x : Pass) (rel acq : Bool) (scope : Nat) :
    FenceKeeps c s (u.fenced (x.lane c k) rel acq scope) := by
  by_cases hscope : scope < 2
  · rw [u.fenced_narrow _ rel acq hscope]
    split
    · refine ⟨h.pass, fun j => ?_, h.ssh⟩
      by_cases hj : j = k
      · subst hj
        exact (congrArg Thread.spec (State.thr_setThr_self u c j _)).trans (h.spec j)
      · exact (congrArg Thread.spec (State.thr_setThr_ne u c _ hj)).trans (h.spec j)
    · exact h
  · obtain ⟨hside, -⟩ := u.fenced_wide (x.lane c k) rel acq (Nat.le_of_not_lt hscope)
    exact ⟨hside.pipesKept.curPass.trans h.pass, fun j => by rw [hside.laneThr]; exact h.spec j, by rw [hside.core c]; exact h.ssh⟩

theorem fence_lanesRun {f : Fields} {s : State} {c p : Nat} {x : Pass} {ks : List Nat} (h : Executes s c p x f.guard ks)
    (hspec : ∀ k ∈ ks, (s.thr c k).spec = true → f.slot.toNat < 2 ∧ (hasRel (f.md.toNat / 2) = true → ∀ e ∈ (s.core c).ssh, e.gslot ≠ k / 32)) :
    ∃ t, exec (.fence f) s = .next t
      ∧ LanesRun (Fenced (hasRel (f.md.toNat / 2)) (hasAcq (f.md.toNat / 2)) f.slot.toNat) s c p x ks false t := by
  refine execSeq_lanesRun h false (FenceKeeps c s) ⟨rfl, fun _ => rfl, rfl⟩ (fun u hu => State.pipe_of_curPass (hu.pass.trans h.1))
    fun u hu k hk => ⟨_, ?_, u.fenced_fenced (x.lane c k) _ _ _, hu.fenced x _ _ _⟩
  have hgo : ¬ ((((x.lane c k).thr u).spec && (2 ≤ f.slot.toNat
      || (hasRel (f.md.toNat / 2) && u.holdsStore (x.lane c k).core (x.lane c k).gslot))) = true) := by
    rw [show ((x.lane c k).thr u).spec = (s.thr c k).spec from hu.spec k]
    intro hstop
    obtain ⟨hs, hwhy⟩ := Bool.and_eq_true_iff.mp hstop
    obtain ⟨hscope, hheld⟩ := hspec k hk hs
    obtain hwide | hstore := Bool.or_eq_true_iff.mp hwhy
    · exact absurd (of_decide_eq_true hwide) (Nat.not_le.mpr hscope)
    · obtain ⟨hrel, hany⟩ := Bool.and_eq_true_iff.mp hstore
      obtain ⟨e, he, hslot⟩ := List.any_eq_true.mp hany
      rw [show (u.core (x.lane c k).core).ssh = (s.core c).ssh from hu.ssh] at he
      exact hheld hrel e he (beq_iff_eq.mp hslot)
  rw [fenceAct, if_neg hgo]
  rfl

/-! ## Accesses that meet no tag and no error (R248, R251, R259) -/

/-- No line of a slice has an owner tag or an error. -/
def State.CleanSlices (s : State) : Prop := ∀ n l, Tbl.look s.l2 n = some l → l.owner = none ∧ l.bad = false

/-- Slices, cached translations and monitors change, and nothing that holds a byte. -/
structure BytesStand (s t : State) : Prop where
  rest : t = { s with l2 := t.l2, l2use := t.l2use, cores := t.cores, ctlb := t.ctlb }
  l1 : ∀ d, (t.core d).l1 = (s.core d).l1

/-- Where no line of a slice has an owner tag or an error, no byte is touched, and that stays so. -/
def Quiet (s t : State) : Prop := s.CleanSlices → BytesStand s t ∧ t.CleanSlices

namespace Quiet
variable {s t u : State}

theorem refl (s : State) : Quiet s s := fun h => ⟨⟨rfl, fun _ => rfl⟩, h⟩

theorem trans (h : Quiet s t) (g : Quiet t u) : Quiet s u := fun hs => by
  obtain ⟨h1, ht⟩ := h hs
  obtain ⟨h2, hu⟩ := g ht
  exact ⟨⟨by rw [h2.rest, h1.rest], fun d => (h2.l1 d).trans (h1.l1 d)⟩, hu⟩

theorem fold {α : Type} {f : State → α → State} (h : ∀ s a, Quiet s (f s a)) (l : List α) (s : State) : Quiet s (l.foldl f s) := by
  induction l generalizing s with
  | nil => exact .refl s
  | cons a r ih => exact (h s a).trans (ih _)

theorem modCore (s : State) (c : Nat) (f : Core → Core) (h : (f (s.core c)).l1 = (s.core c).l1) : Quiet s (s.modCore c f) := fun hs => by
  refine ⟨⟨rfl, fun d => ?_⟩, hs⟩
  rw [State.modCore_eq, State.core_setCore]
  split
  · next e => subst e; exact h
  · rfl

/-- A line leaves its slice. -/
theorem drop (s : State) (line : Nat) : Quiet s { s with l2 := Tbl.drop s.l2 line } := fun hs => by
  refine ⟨⟨rfl, fun _ => rfl⟩, fun n l hl => ?_⟩
  simp only [Tbl.look_drop] at hl
  split at hl
  · cases hl
  · exact hs n l hl

/-- A line stands in its slice without tag or error. -/
theorem put (s : State) (line n : Nat) {y : L2Line} (hy : s.CleanSlices → y.owner = none ∧ y.bad = false) :
    Quiet s { s with l2 := Tbl.put s.l2 line y, l2use := n } := fun hs => by
  refine ⟨⟨rfl, fun _ => rfl⟩, fun n l hl => ?_⟩
  simp only [Tbl.look_put] at hl
  split at hl
  · cases hl
    exact hy hs
  · exact hs n l hl

end Quiet

section
variable {s : State} (hs : s.CleanSlices)
include hs

theorem State.refetch_clean (ctx line : Nat) (shared : Bool) : s.refetch ctx line shared = s := by
  unfold State.refetch
  split
  · rfl
  · next l hl => simp [State.l2Spoiled, hl, (hs line l hl).2]

theorem State.promote_clean (line : Nat) : s.promote line = s := by
  cases hl : Tbl.look s.l2 line with
  | none => simp only [State.promote, hl]
  | some l => exact State.promote_untagged hl (hs line l hl).1

end

theorem State.l2Lose_quiet (s : State) (line : Nat) : Quiet s (s.l2Lose line) := fun hs => by
  unfold State.l2Lose
  rw [State.promote_clean hs]
  dsimp only
  split
  · exact Quiet.refl s hs
  · next l hl =>
    rw [(hs line l hl).2, if_neg Bool.false_ne_true]
    split
    · exact Quiet.drop s line hs
    · exact Quiet.refl s hs

theorem State.settleLine_quiet (s : State) (ctx line : Nat) : Quiet s (s.settleLine ctx line) := by
  unfold State.settleLine
  split
  · exact s.l2Lose_quiet line
  · exact .refl s

theorem State.walkMet_quiet (s : State) (ctx : Nat) (last : Bool) (va : Nat) : Quiet s (s.walkMet ctx last va) := by
  unfold State.walkMet
  split
  · refine .fold (fun u (l : Nat × Bool) => .trans ?_ (State.settleLine_quiet _ ctx l.1)) _ s
    exact fun hu => by rw [State.refetch_clean hu]; exact Quiet.refl u hu
  · exact .refl s

theorem State.keepTlb_quiet (s : State) (c : Nat) (e : TlbEntry) : Quiet s (s.keepTlb c e) := .modCore s c _ rfl

theorem State.fillTlb_quiet (s : State) (c : Nat) (e : TlbEntry) : Quiet s (s.fillTlb c e) := by
  refine Quiet.trans ?_ (State.keepTlb_quiet _ c e)
  exact fun hs => ⟨⟨rfl, fun _ => rfl⟩, hs⟩

theorem State.translate_quiet {s t : State} {c ctx : Nat} {n : Need} {va : Nat} {m : Mapping} (h : s.translate c ctx n va = .ok (t, m)) :
    Quiet s t := by
  unfold State.translate at h
  split at h
  · next e he =>
    repeat' split at h
    all_goals cases h
    exact s.keepTlb_quiet c e
  · split at h
    · cases h
    · cases h
      exact (s.walkMet_quiet ctx true va).trans (State.fillTlb_quiet _ c _)

theorem State.monitorAccess_quiet (s : State) (c line : Nat) : Quiet s (s.monitorAccess c line) := by
  unfold State.monitorAccess
  dsimp only
  split
  · exact .refl s
  · exact .modCore s c _ rfl

theorem State.evictL2_quiet (s : State) (line : Nat) : Quiet s (s.evictL2 line) := fun hs => by
  unfold State.evictL2
  rw [State.promote_clean hs]
  dsimp only
  split
  · exact Quiet.refl s hs
  · next l hl =>
    rw [(hs line l hl).2, if_neg Bool.false_ne_true]
    exact Quiet.drop s line hs

theorem State.l2Fill_quiet (s : State) (key line way : Nat) : Quiet s (s.l2Fill key line way) := .put s line s.l2use fun _ => ⟨rfl, rfl⟩

theorem State.l2Allocate_quiet (s : State) (ctx key line : Nat) : Quiet s (s.l2Allocate ctx key line) := by
  unfold State.l2Allocate
  dsimp only
  split
  · exact s.l2Fill_quiet _ _ _
  · split
    · exact .refl s
    · split
      · exact .refl s
      · exact (s.evictL2_quiet _).trans (State.l2Fill_quiet _ _ _ _)

theorem State.l2Use_quiet (s : State) (ctx key line : Nat) : Quiet s (s.l2Use ctx key line) := by
  unfold State.l2Use
  split
  · exact .refl s
  · split
    · next hhit =>
      unfold Tbl.adjust
      split
      · next l hl => exact .put s line s.l2use fun hs => hs line l hl
      · exact .refl s
    · refine Quiet.trans ?_ (State.l2Allocate_quiet _ ctx key line)
      split
      · exact s.evictL2_quiet line
      · exact .refl s

theorem State.l2Touch_quiet (s : State) (c ctx key line : Nat) : Quiet s (s.l2Touch c ctx key line) := by
  unfold State.l2Touch
  split
  · exact .refl s
  · refine (s.monitorAccess_quiet c line).trans (Quiet.trans ?_ (State.l2Use_quiet _ ctx key line))
    exact fun hs => ⟨⟨rfl, fun _ => rfl⟩, hs⟩

/-! ## Bytes that read as before -/

theorem SameBytes.trans {s t u : State} (h : SameBytes s t) (g : SameBytes t u) : SameBytes s u := by
  obtain ⟨h1, h2, h3⟩ := h
  obtain ⟨g1, g2, g3⟩ := g
  exact ⟨fun key pa => (g1 key pa).trans (h1 key pa), fun l1 key pa => (g2 l1 key pa).trans (h2 l1 key pa), fun m o => (g3 m o).trans (h3 m o)⟩

theorem SameBytes.latch (s : State) (l : Lane) (f : Fields) : SameBytes s (s.latch l f) := ⟨fun _ _ => rfl, fun _ _ _ => rfl, fun _ _ => rfl⟩

theorem BytesStand.physByte {s t : State} (h : BytesStand s t) (key pa : Nat) : t.physByte key pa = s.physByte key pa := by
  rw [h.rest]
  rfl

theorem BytesStand.sameBytes {s t : State} (h : BytesStand s t) : SameBytes s t :=
  ⟨h.physByte, fun l1 key pa => by simp only [State.viewByte, h.l1, h.physByte], fun m o => by rw [h.rest]; rfl⟩

theorem Tbl.length_put_le {α : Type} (t : Tbl α) (k : Nat) (x : α) : (Tbl.put t k x).length ≤ t.length + 1 := by
  induction t with
  | nil => exact Nat.le_refl 1
  | cons d r ih =>
    simp only [Tbl.put]
    split
    · exact Nat.le_refl _
    · split
      · exact Nat.le_succ _
      · exact Nat.succ_le_succ ih

/-- A portion with room takes a line in, and no byte reads differently when the line shows what was seen before. -/
theorem State.l1Put_sameBytes {s : State} {l1 : Nat} (policy : Nat) {l : L1Line} (hroom : Roomy s l1)
    (hsame : ∀ key pa, l1Key (pa / 64) false = l1Key l.line l.const →
      s.viewByte l1 key pa = if l.key == key then lineByte l.data (pa % 64) else s.physByte key pa) : SameBytes s (s.l1Put l1 policy l) := by
  have hput : s.l1Put l1 policy l = s.modCore l1 (fun c => { c with
      l1 := Tbl.put c.l1 (l1Key l.line l.const) (l.used (c.l1use + 1) policy), l1use := c.l1use + 1 }) := by
    unfold State.l1Put
    dsimp only
    rw [State.l1Trim, if_pos]
    have hlen := Tbl.length_put_le (s.core l1).l1 (l1Key l.line l.const) (l.used ((s.core l1).l1use + 1) policy)
    have hkept : ∀ K : Core, K.banks = (s.core l1).banks → (s.setCore l1 K).l1Room l1 = s.l1Room l1 := fun K hK => by
      simp only [State.l1Room, State.core_setCore_self, hK]
      rfl
    rw [State.modCore_eq, hkept, State.core_setCore_self]
    · exact Nat.le_trans hlen hroom
    · rfl
  rw [hput]
  refine ⟨fun _ _ => rfl, fun d key pa => ?_, fun _ _ => rfl⟩
  by_cases hd : d = l1
  · subst hd
    rw [State.viewByte, State.modCore_eq, State.core_setCore_self, Tbl.look_put]
    split
    · next y hy =>
      split at hy
      · next hkey =>
        cases hy
        exact (hsame key pa hkey).symm
      · rw [State.viewByte, hy]
        rfl
    · next hy =>
      split at hy
      · cases hy
      · rw [State.viewByte, hy]
        rfl
  · rw [State.viewByte, State.modCore_eq, State.core_setCore, if_neg hd, State.viewByte]
    rfl

theorem State.getD_physBytes (s : State) (key pa n : Nat) {i : Nat} (hi : i < n) : (s.physBytes key pa n).getD i 0 = s.physByte key (pa + i) := by
  induction n generalizing pa i with
  | zero => omega
  | succ n ih =>
    cases i with
    | zero => rfl
    | succ i =>
      refine (ih (pa + 1) (Nat.lt_of_succ_lt_succ hi)).trans ?_
      rw [Nat.add_right_comm, Nat.add_assoc]

theorem State.lineByte_freshLine (s : State) (v : Via) (key line : Nat) (const : Bool) {i : Nat} (hi : i < 64) :
    lineByte (s.freshLine v key line const).data i = s.physByte key (64 * line + i) :=
  (lineByte_lineOfBytes _ i hi).trans (s.getD_physBytes key (64 * line) 64 hi)

/-- Room for a line stays where no portion changes. -/
theorem BytesStand.roomy {s t : State} (h : BytesStand s t) (hside : MemSide s t) {l1 : Nat} (hroom : Roomy s l1) : Roomy t l1 := by
  have hbanks : (t.core l1).banks = (s.core l1).banks := by rw [hside.core l1]
  unfold Roomy at *
  rw [State.l1Room, hbanks, h.l1]
  rw [h.rest]
  exact hroom

/-- A line that a prefetch or a load brings in shows what was seen before. -/
theorem State.l1Fetch_sameBytes {s : State} {v : Via} (policy : Nat) {key pa : Nat} (hplain : Plain s v.l1 key pa false) (hroom : Roomy s v.l1) :
    SameBytes s (s.l1Fetch v policy key (pa / 64) false).1 := by
  unfold State.l1Fetch
  split
  · next l hl =>
    obtain ⟨hkey, hline, -⟩ := hplain.l1 l hl
    rw [if_pos (by simpa using hkey)]
    refine State.l1Put_sameBytes policy hroom fun key' pa' hat => ?_
    have hlook : Tbl.look (s.core v.l1).l1 (l1Key (pa' / 64) false) = some l := by
      have hline' : pa' / 64 = pa / 64 := by
        have hconst : b2n l.const ≤ 1 := by cases l.const <;> decide
        rw [hline, l1Key, l1Key, show b2n false = 0 from rfl] at hat
        omega
      rw [hline', hl]
    rw [State.viewByte, hlook]
  · next hnone =>
    obtain ⟨hstand, hclean⟩ := s.l2Touch_quiet v.core v.ctx key (pa / 64) hplain.slices
    refine hstand.sameBytes.trans ?_
    have hroom' := hstand.roomy (s.l2Touch_side ..) hroom
    have hnone' : Tbl.look ((s.l2Touch v.core v.ctx key (pa / 64)).core v.l1).l1 (l1Key (pa / 64) false) = none := by rw [hstand.l1, hnone]
    unfold State.l1Fill State.l1Keep
    generalize s.l2Touch v.core v.ctx key (pa / 64) = u at *
    dsimp only
    split
    · refine State.l1Put_sameBytes policy hroom' fun key' pa' hat => ?_
      have hline : pa' / 64 = pa / 64 := by simpa [l1Key, State.freshLine, b2n] using hat
      have haddr : 64 * (pa / 64) + pa' % 64 = pa' := by omega
      have hview : u.viewByte v.l1 key' pa' = u.physByte key' pa' := by rw [State.viewByte, hline, hnone']
      rw [hview, State.lineByte_freshLine _ _ _ _ _ (Nat.mod_lt _ (by decide)), haddr]
      split
      · next he => rw [show key = key' by simpa [State.freshLine] using he]
      · rfl
    · exact (u.settleLine_quiet v.ctx _ hclean).1.sameBytes

/-! ## Prefetch (R127) -/

/-- The code with which a stale temporary faults, of a word that an address is formed from. -/
def staleCode {α : Type} : Except LaneFail α → Option FaultInfo
  | .error (.fault i) => if i.code == 3 then some i else none
  | _ => none

theorem staleCode_code {α : Type} {r : Except LaneFail α} {i : FaultInfo} (h : staleCode r = some i) : i.code = 3 := by
  unfold staleCode at h
  split at h
  · split at h
    · next hcode => cases h; simpa using hcode
    · cases h
  · cases h

/-- The first of three faults of stale temporaries. -/
theorem Lane.staleTerm_eq (l : Lane) (s : State) (f : Fields) : l.staleTerm s f
    = (staleCode (l.readPair s pSA f.sa)).or ((staleCode (l.readTerm s pSB f.sb)).or
      (if f.imm.isSome then none else staleCode (l.readTerm s pSC f.sc))) := by
  unfold Lane.staleTerm
  change (match staleCode (l.readPair s pSA f.sa), staleCode (l.readTerm s pSB f.sb),
      (if f.imm.isSome then none else staleCode (l.readTerm s pSC f.sc)) with
    | some i, _, _ => some i
    | none, some i, _ => some i
    | none, none, i => i) = _
  cases staleCode (l.readPair s pSA f.sa) with
  | some i => rfl
  | none => cases staleCode (l.readTerm s pSB f.sb) <;> rfl

theorem Lane.staleTerm_code {l : Lane} {s : State} {f : Fields} {i : FaultInfo} (h : l.staleTerm s f = some i) : i.code = 3 := by
  rw [Lane.staleTerm_eq, Option.or_eq_some_iff, Option.or_eq_some_iff] at h
  obtain hbase | ⟨-, hindex | ⟨-, hoff⟩⟩ := h
  · exact staleCode_code hbase
  · exact staleCode_code hindex
  · split at hoff
    · cases hoff
    · exact staleCode_code hoff

/-- Where the address is formed no temporary of it is stale. -/
theorem Lane.staleTerm_of_address {l : Lane} {s : State} {f : Fields} {ea : Nat} (h : l.address s f 0 true = .ok ea) : l.staleTerm s f = none := by
  unfold Lane.address at h
  simp only [beq_self_eq_true, Bool.true_or, if_true, bind, Except.bind, Except.map] at h
  rw [Lane.staleTerm_eq]
  cases hbase : l.readPair s pSA f.sa with
  | error e => simp only [hbase] at h; cases h
  | ok b =>
    cases hindex : l.readTerm s pSB f.sb with
    | error e => simp only [hbase, hindex] at h; cases h
    | ok i =>
      cases himm : f.imm with
      | some w => rfl
      | none =>
        cases hoff : l.readTerm s pSC f.sc with
        | error e => simp only [hbase, hindex, himm, hoff] at h; cases h
        | ok o => rfl

section
variable {f : Fields} {s : State} {c p k : Nat} {x : Pass} (h : Executes s c p x f.guard [k])
  (hc : (x.lane c k).check s (memFields f 0 true) = .ok ())
include h hc

theorem pref_stale {i : FaultInfo} (hi : (x.lane c k).staleTerm s f = some i) : exec (.pref f) s = .next (s.afterInstr c p x [(k, .fault i)]) := by
  refine execSeq_all_fail h f.readsChannel (act := prefAct f) (fail := fun _ => .fault i) fun j hj => ?_
  obtain rfl := List.mem_singleton.mp hj
  simp only [prefAct, hc, hi, bind, Except.bind]

/-- What a prefetch leaves that reaches memory. -/
def State.prefetched (t : State) (l : Lane) (policy : Nat) (m : Mapping) : State :=
  if policy == 1 then t.l2Touch l.core (l.ctxId t) m.key (m.pa / 64) else (t.l1Fetch (l.via t m.pa) policy m.key (m.pa / 64) false).1

/-- What a prefetch leaves of the state: nothing unless its address is reached in global memory. -/
def State.prefLeaves (s : State) (l : Lane) (f : Fields) (ea : Nat) : State :=
  match l.reach (s.latch l f) 0 (f.minor.toNat / 4) 0 ea 1 { load := true } with
  | .ok (t, .glob m) => t.prefetched l (f.minor.toNat / 4) m
  | _ => s.latch l f

omit h in
theorem prefAct_eq {ea : Nat} (ha : (x.lane c k).address s f 0 true = .ok ea) :
    prefAct f s (x.lane c k) = .ok (s.prefLeaves (x.lane c k) f ea) := by
  simp only [prefAct, hc, Lane.staleTerm_of_address ha, ha, bind, Except.bind, State.prefLeaves]
  cases hreach : (x.lane c k).reach (s.latch (x.lane c k) f) 0 (f.minor.toNat / 4) 0 ea 1 { load := true } with
  | error e => rfl
  | ok r =>
    obtain ⟨t, target⟩ := r
    cases target with
    | glob m =>
      dsimp only
      unfold State.prefetched
      split <;> rfl
    | spad => rfl
    | win => rfl

end

theorem State.prefetched_side (t : State) (l : Lane) (policy : Nat) (m : Mapping) : MemSide t (t.prefetched l policy m) := by
  unfold State.prefetched
  split
  · exact t.l2Touch_side ..
  · exact t.l1Fetch_side ..

/-- An access that is reached in global memory was translated. -/
theorem Lane.reach_glob {l : Lane} {u t : State} {policy lsize ea size : Nat} {n : Need} {m : Mapping}
    (h : l.reach u 0 policy lsize ea size n = .ok (t, .glob m)) :
    u.translate l.core (l.ctxId u) { n with user := !(l.thr u).priv } ea = .ok (t, m) := by
  unfold Lane.reach at h
  simp only [beq_self_eq_true, Bool.true_or, if_true] at h
  split at h
  · cases h
  · split at h
    · cases h
    · next r hr => cases h; exact hr

theorem State.prefLeaves_side (s : State) (l : Lane) (f : Fields) (ea : Nat) : MemSide (s.latch l f) (s.prefLeaves l f ea) := by
  unfold State.prefLeaves
  split
  · next t m hreach => exact (State.translate_side (Lane.reach_glob hreach)).trans (t.prefetched_side ..)
  · exact .refl _

/-- The L1 that serves an access is the same before and after its translation. -/
theorem MemSide.via {s t : State} (h : MemSide s t) (l : Lane) (pa : Nat) : l.via t pa = l.via s pa := by
  have hteam := h.laneTeam l
  have hgrid : l.grid t = l.grid s := by
    rw [Lane.grid, State.gangGrid, State.gangTeam, State.grid, State.team, State.gang, h.rest]
    rfl
  have hl1 : ∀ m, t.l1Core l.core m pa = s.l1Core l.core m pa := fun m => by
    rw [State.l1Core, h.rest]
    rfl
  rw [Lane.via, Lane.via, hteam, hl1, Lane.ctxId, Lane.ctxId, hgrid]

theorem State.prefLeaves_sameBytes {s t : State} {l : Lane} {f : Fields} {ea : Nat} {m : Mapping}
    (hreach : l.reach (s.latch l f) 0 (f.minor.toNat / 4) 0 ea 1 { load := true } = .ok (t, .glob m))
    (hs : Plain s (s.l1Core l.core (l.team s) m.pa) m.key m.pa false) (ht : Plain t (s.l1Core l.core (l.team s) m.pa) m.key m.pa false)
    (hroom : Roomy t (s.l1Core l.core (l.team s) m.pa)) : SameBytes s (s.prefLeaves l f ea) := by
  have htrans := Lane.reach_glob hreach
  have hvia : l.via t m.pa = l.via s m.pa := (State.translate_side htrans).via l m.pa
  have hstand : BytesStand (s.latch l f) t := (State.translate_quiet htrans hs.slices).1
  refine (SameBytes.latch s l f).trans (hstand.sameBytes.trans ?_)
  unfold State.prefLeaves
  rw [hreach]
  dsimp only
  unfold State.prefetched
  split
  · exact (t.l2Touch_quiet _ _ _ _ ht.slices).1.sameBytes
  · rw [hvia]
    exact State.l1Fetch_sameBytes _ ht hroom

end Sys2Proof.Machine
end

section
/-!
The remote acquire (R278, R279), and with it the obligation on fences, prefetch and the remote acquire. Bytes written back to their
home slice are followed there.
-/
namespace Sys2Proof.Machine

/-! ## A byte written under a key (R261) -/

theorem State.pageAt_congr {s t : State} (h : t.vcpPages = s.vcpPages) (pa : Nat) : t.pageAt pa = s.pageAt pa := by
  rw [State.pageAt, h, ← State.pageAt]

theorem State.physByte_of_no_page {s : State} {pa : Nat} (h : s.pageAt pa = none) (key : Nat) : s.physByte key pa = s.memByte key pa := by
  rw [State.physByte, h]

/-- The bytes of a line are held as they are under a key. -/
def State.HeldUnder (s : State) (key line : Nat) : Prop := isSystem (64 * line) = true ∨ Tbl.at s.lineKey line [] = s.keyOf key

theorem isSystem_line {pa line : Nat} (h : pa / 64 = line) : isSystem (64 * line) = isSystem pa := by
  unfold isSystem
  congr 1 <;> rw [decide_eq_decide] <;> omega

theorem State.memByte_of_heldUnder {s : State} {key line : Nat} (h : s.HeldUnder key line) {pa : Nat} (hpa : pa / 64 = line) :
    s.memByte key pa = Memory.get s.mem pa := by
  unfold State.memByte
  refine if_pos ?_
  obtain hsys | hkey := h
  · rw [← isSystem_line hpa, hsys, Bool.true_or]
  · rw [hpa, hkey, beq_self_eq_true, Bool.or_true]

/-- A line that takes a key shows the same bytes under it. -/
theorem State.rekey_holds (s : State) (key line : Nat) (hm : Memory.wf s.mem = true) : (s.rekey key line).HeldUnder key line
    ∧ ∀ pa, pa / 64 = line → (s.rekey key line).memByte key pa = s.memByte key pa := by
  unfold State.rekey
  split
  · next h =>
    refine ⟨?_, fun _ _ => rfl⟩
    obtain hsys | hkey := Bool.or_eq_true_iff.mp h
    · exact .inl hsys
    · exact .inr (by simpa using hkey)
  · have hlen : ((List.range 64).map (fun i => s.memByte key (64 * line + i))).length = 64 := by rw [List.length_map, List.length_range]
    have hbyte : ∀ i < 64, ((List.range 64).map (fun i => s.memByte key (64 * line + i))).getD i 0 = s.memByte key (64 * line + i) := fun i hi => by
      simp [hi]
    generalize (List.range 64).map (fun i => s.memByte key (64 * line + i)) = bs at hlen hbyte
    have hheld : State.HeldUnder { s with mem := Memory.setBytes s.mem (64 * line) bs, lineKey := Tbl.put s.lineKey line (s.keyOf key) } key line :=
      .inr (Tbl.at_put_self _ _ _ _)
    refine ⟨hheld, fun pa hpa => ?_⟩
    rw [State.memByte_of_heldUnder hheld hpa, Memory.get_setBytes _ _ _ _ hm, hlen, if_pos (by omega), hbyte _ (by omega)]
    congr 1
    omega

/-- A byte that is put changes memory there, if no page stands there, and nowhere else. -/
theorem State.putEach_mem (s : State) (a : Nat) (x : Byte) : (s.putEach a [x]).lineKey = s.lineKey ∧ (s.putEach a [x]).ktab = s.ktab
    ∧ (s.putEach a [x]).mem = if s.pageAt a = none then Memory.set s.mem a x else s.mem := by
  unfold State.putEach
  split
  · next hnone => exact ⟨rfl, rfl, by rw [if_pos (by rw [State.pageAt, hnone])]; rfl⟩
  · show (s.putByte a x).lineKey = _ ∧ (s.putByte a x).ktab = _ ∧ (s.putByte a x).mem = _
    unfold State.putByte
    split
    · next e he =>
      rw [he, if_neg nofun]
      unfold State.vcpSetByte
      dsimp only
      split
      · exact ⟨rfl, rfl, rfl⟩
      · split
        · exact ⟨rfl, rfl, rfl⟩
        · split <;> exact ⟨rfl, rfl, rfl⟩
    · next he => exact ⟨rfl, rfl, by rw [he, if_pos rfl]⟩

theorem State.physWrite_pages (s : State) (key a : Nat) (bs : List Byte) : (s.physWrite key a bs).vcpPages = s.vcpPages := by
  rw [s.physWrite_bytes key a bs]

/-- A byte written under a key, as the bytes of its line show it where no page stands. -/
theorem State.physByte_physWrite {s : State} (hm : Memory.wf s.mem = true) (key : Nat) {a pa : Nat} (hline : pa / 64 = a / 64)
    (hpage : s.pageAt pa = none) (x : Byte) : (s.physWrite key a [x]).physByte key pa = if pa = a then x else s.physByte key pa := by
  obtain ⟨hheld, hshow⟩ := s.rekey_holds key (a / 64) hm
  have hm' := (s.rekey_side key (a / 64)).wf hm
  have hpages : (s.rekey key (a / 64)).vcpPages = s.vcpPages := by rw [s.rekey_bytes]
  obtain ⟨hkey, hktab, hmem⟩ := (s.rekey key (a / 64)).putEach_mem a x
  have hheld' : (s.physWrite key a [x]).HeldUnder key (a / 64) := by
    refine hheld.imp id fun h => ?_
    show Tbl.at ((s.rekey key (a / 64)).putEach a [x]).lineKey (a / 64) [] = ((s.rekey key (a / 64)).putEach a [x]).keyOf key
    rw [hkey, State.keyOf, hktab]
    exact h
  rw [State.physByte_of_no_page ((State.pageAt_congr (s.physWrite_pages ..) pa).trans hpage), State.physByte_of_no_page hpage,
    State.memByte_of_heldUnder hheld' hline, ← hshow pa hline, State.memByte_of_heldUnder hheld hline]
  show Memory.get ((s.rekey key (a / 64)).putEach a [x]).mem pa = _
  rw [hmem, State.pageAt_congr hpages]
  by_cases hpa : pa = a
  · subst hpa
    rw [if_pos hpage, if_pos rfl, Memory.get_set _ _ _ _ hm', if_pos rfl]
  · rw [if_neg hpa]
    split
    · rw [Memory.get_set _ _ _ _ hm', if_neg hpa]
    · rfl

/-! ## A line written back (R269, R270) -/

theorem State.physByte_putMasked (key line : Nat) (d : BitVec 512) (mask : BitVec 64) {o : Nat} (ho : o < 64) (n i : Nat) {s : State}
    (hm : Memory.wf s.mem = true) (hin : i + n ≤ 64) (hpage : s.pageAt (64 * line + o) = none) :
    ((maskedBytes d mask i n).foldl (fun s e => s.physWrite key (64 * line + e.1) [e.2]) s).physByte key (64 * line + o)
      = if i ≤ o ∧ o < i + n ∧ mask.getLsbD o = true then lineByte d o else s.physByte key (64 * line + o) := by
  induction n generalizing i s with
  | zero => rw [if_neg (by omega)]; rfl
  | succ n ih =>
    rw [maskedBytes]
    split
    · next hbit =>
      have hwf := (s.physWrite_side key (64 * line + i) [lineByte d i]).wf hm
      have hpage' := (State.pageAt_congr (s.physWrite_pages key (64 * line + i) [lineByte d i]) (64 * line + o)).trans hpage
      rw [List.foldl_cons, ih (i + 1) hwf (by omega) hpage', State.physByte_physWrite hm key (by omega) hpage]
      by_cases hoi : o = i
      · subst hoi
        rw [if_neg (by omega), if_pos rfl, if_pos ⟨Nat.le_refl _, by omega, hbit⟩]
      · rw [if_neg (show ¬ 64 * line + o = 64 * line + i by omega)]
        refine if_congr ⟨fun ⟨h1, h2, h3⟩ => ⟨?_, ?_, h3⟩, fun ⟨h1, h2, h3⟩ => ⟨?_, ?_, h3⟩⟩ rfl rfl <;> omega
    · next hbit =>
      rw [ih (i + 1) hm (by omega) hpage]
      refine if_congr ⟨fun ⟨h1, h2, h3⟩ => ⟨by omega, by omega, h3⟩, fun ⟨h1, h2, h3⟩ => ⟨?_, by omega, h3⟩⟩ rfl rfl
      exact Nat.lt_of_le_of_ne h1 fun e => hbit (e ▸ h3)

/-- What the home slice shows of a byte once the portion has given up its line. -/
theorem State.physByte_evictL1 {s : State} {l1 key pa : Nat} (hplain : Plain s l1 key pa false) {a : Nat} (hline : a / 64 = pa / 64)
    (hpage : s.pageAt a = none) : (s.evictL1 l1 (l1Key (pa / 64) false)).physByte key a = s.homeByte l1 key a := by
  show (s.writeBack l1 (l1Key (pa / 64) false)).physByte key a = _
  unfold State.writeBack State.homeByte State.l1Line
  rw [hline]
  split
  · next hnone => rw [hnone]
  · next l hl =>
    obtain ⟨hkey, hat, -⟩ := hplain.l1 l hl
    rw [hl]
    dsimp only
    have ho : a % 64 < 64 := Nat.mod_lt _ (by decide)
    have haddr : 64 * l.line + a % 64 = a := by omega
    split
    · next hd =>
      have hbit : l.dirty.getLsbD (a % 64) = false := by simp [beq_iff_eq.mp hd]
      rw [hbit, if_neg Bool.false_ne_true]
    · have h := State.physByte_putMasked key l.line l.data l.dirty ho 64 0 hplain.wf (Nat.le_refl _) (by rw [haddr]; exact hpage)
      rw [haddr] at h
      rw [hkey]
      refine Eq.trans (b := (s.putMasked key l.line l.data l.dirty).physByte key a) rfl (h.trans ?_)
      exact if_congr ⟨fun hh => hh.2.2, fun hb => ⟨Nat.zero_le _, by omega, hb⟩⟩ rfl rfl

/-! ## Two states that hold the same bytes below the slices -/

/-- What is read and written below the slices is the same in both. -/
structure SameStore (s t : State) : Prop where
  mem : t.mem = s.mem
  lineKey : t.lineKey = s.lineKey
  ktab : t.ktab = s.ktab
  pages : t.vcpPages = s.vcpPages
  vcps : t.vcps = s.vcps
  queues : t.queues = s.queues

theorem BytesStand.sameStore {s t : State} (h : BytesStand s t) : SameStore s t := by
  rw [h.rest]
  exact ⟨rfl, rfl, rfl, rfl, rfl, rfl⟩

namespace SameStore
variable {s t : State} (h : SameStore s t)
include h

theorem keyOf (key : Nat) : t.keyOf key = s.keyOf key := by rw [State.keyOf, h.ktab, ← State.keyOf]

theorem memByte (key pa : Nat) : t.memByte key pa = s.memByte key pa := by
  simp only [State.memByte, h.keyOf, State.rawLine, h.mem, h.lineKey]

theorem physByte (key pa : Nat) : t.physByte key pa = s.physByte key pa := by
  simp only [State.physByte, State.pageAt_congr h.pages, h.memByte, State.vcpByte, State.vcp, State.queue, h.vcps, h.queues]

theorem rekey (key line : Nat) : SameStore (s.rekey key line) (t.rekey key line) := by
  unfold State.rekey
  simp only [h.keyOf, h.lineKey]
  split
  · exact h
  · exact ⟨by simp only [h.mem, h.memByte], rfl, h.ktab, h.pages, h.vcps, h.queues⟩

theorem vcpSetByte (n off : Nat) (b : Byte) : SameStore (s.vcpSetByte n off b) (t.vcpSetByte n off b) := by
  have hv : t.vcp n = s.vcp n := by rw [State.vcp, h.vcps, ← State.vcp]
  unfold State.vcpSetByte
  rw [hv]
  dsimp only
  split
  · exact ⟨h.mem, h.lineKey, h.ktab, h.pages, congrArg (Tbl.put · n _) h.vcps, h.queues⟩
  · split
    · exact h
    · split
      · exact ⟨h.mem, h.lineKey, h.ktab, h.pages, congrArg (Tbl.put · n _) h.vcps, h.queues⟩
      · next q hq =>
        have hqueue : t.queue q = s.queue q := by rw [State.queue, h.queues, ← State.queue]
        rw [hqueue]
        exact ⟨h.mem, h.lineKey, h.ktab, h.pages, h.vcps, congrArg (Tbl.put · q _) h.queues⟩

theorem putByte (pa : Nat) (b : Byte) : SameStore (s.putByte pa b) (t.putByte pa b) := by
  unfold State.putByte
  rw [State.pageAt_congr h.pages]
  split
  · exact h.vcpSetByte _ _ b
  · exact ⟨congrArg (Memory.set · pa b) h.mem, h.lineKey, h.ktab, h.pages, h.vcps, h.queues⟩

omit h in
theorem fold {α : Type} {f g : State → α → State} (hfg : ∀ s t a, SameStore s t → SameStore (f s a) (g t a)) (l : List α) {s t : State}
    (h : SameStore s t) : SameStore (l.foldl f s) (l.foldl g t) := by
  induction l generalizing s t with
  | nil => exact h
  | cons a r ih => exact ih (hfg s t a h)

theorem putEach (pa : Nat) (bs : List Byte) : SameStore (s.putEach pa bs) (t.putEach pa bs) := by
  unfold State.putEach
  rw [h.pages]
  split
  · exact ⟨congrArg (Memory.setBytes · pa bs) h.mem, h.lineKey, h.ktab, rfl, h.vcps, h.queues⟩
  · exact .fold (fun _ _ (e : Nat × Byte) g => g.putByte (pa + e.1) e.2) _ h

theorem physWrite (key pa : Nat) (bs : List Byte) : SameStore (s.physWrite key pa bs) (t.physWrite key pa bs) := by
  obtain ⟨hmem, hkey, hktab, hpages, hvcps, hqueues⟩ := (h.rekey key (pa / 64)).putEach pa bs
  exact ⟨hmem, hkey, hktab, hpages, hvcps, hqueues⟩

/-- With the same portion both give its line up alike. -/
theorem evictL1 {c : Nat} (hl1 : (t.core c).l1 = (s.core c).l1) (key : Nat) : SameStore (s.evictL1 c key) (t.evictL1 c key) := by
  have hwrite : SameStore (s.writeBack c key) (t.writeBack c key) := by
    unfold State.writeBack
    rw [hl1]
    split
    · exact h
    · next l hl =>
      split
      · exact h
      · obtain ⟨hmem, hkey, hktab, hpages, hvcps, hqueues⟩ :
            SameStore (s.putMasked l.key l.line l.data l.dirty) (t.putMasked l.key l.line l.data l.dirty) :=
          .fold (fun _ _ (e : Nat × Byte) g => g.physWrite l.key (64 * l.line + e.1) [e.2]) _ h
        exact ⟨hmem, hkey, hktab, hpages, hvcps, hqueues⟩
  obtain ⟨hmem, hkey, hktab, hpages, hvcps, hqueues⟩ := hwrite
  exact ⟨hmem, hkey, hktab, hpages, hvcps, hqueues⟩

end SameStore

/-! ## The remote acquire (R278, R279) -/

/-- A line is tagged by an owner other than this one. -/
def State.Foreign (s : State) (line owner : Nat) : Prop := ∃ y o, Tbl.look s.l2 line = some y ∧ y.owner = some o ∧ o ≠ owner

/-- Whether a line is tagged by an owner other than this one. -/
def State.foreignTag (s : State) (line owner : Nat) : Bool :=
  match Tbl.look s.l2 line with
  | some x => x.owner.isSome && x.owner != some owner
  | none => false

/-- What the owner of a line with a foreign tag does first (R279). -/
def State.foreignYields (s : State) (line owner : Nat) : State := if s.foreignTag line owner then s.promote line else s

theorem State.foreignTag_iff (s : State) (line owner : Nat) : s.foreignTag line owner = true ↔ s.Foreign line owner := by
  unfold State.foreignTag State.Foreign
  cases hy : Tbl.look s.l2 line with
  | none => simp
  | some y => cases ho : y.owner <;> simp [ho]

theorem State.foreignYields_side (s : State) (line owner : Nat) : MemSide s (s.foreignYields line owner) := by
  unfold State.foreignYields
  split
  · exact s.promote_side line
  · exact .refl s

theorem State.evictL1_l2 (s : State) (c key : Nat) : (s.evictL1 c key).l2 = s.l2 := (s.writeBack_l1 c key).1

/-- A load that bypasses the portions reads each byte at the home slice, once the portion has given up its line. -/
theorem State.globalLoad_byp {s : State} (hs : s.CleanSlices) (v : Via) (m : Mapping) {n i : Nat} (hi : i < n) :
    (((s.globalLoad v m 1 n false).2)[i]?).map (·.1) = some ((s.evictL1 v.l1 (l1Key (m.pa / 64) false)).physByte m.key (m.pa + i)) := by
  have hclean : (s.evictL1 v.l1 (l1Key (m.pa / 64) false)).CleanSlices := fun n l hl => hs n l (s.evictL1_l2 .. ▸ hl)
  obtain ⟨hstand, hclean'⟩ := State.l2Touch_quiet _ v.core v.ctx m.key (m.pa / 64) hclean
  rw [← hstand.physByte]
  unfold State.globalLoad State.meetLine
  simp only [beq_self_eq_true, if_true, State.refetch_clean hclean', List.getElem?_map, List.getElem?_range hi, Option.map_some]

theorem State.length_globalLoad_byp (s : State) (v : Via) (m : Mapping) (n : Nat) : ((s.globalLoad v m 1 n false).2).length = n := by
  unfold State.globalLoad
  simp only [beq_self_eq_true, if_true, List.length_map, List.length_range]

theorem elemBytes_cases (ty : Ty) : elemBytes ty = 1 ∨ elemBytes ty = 2 ∨ elemBytes ty = 4 ∨ elemBytes ty = 8 := by cases ty <;> decide

/-- An element aligned in its line lies in it. -/
theorem elem_in_line {n pa ea i : Nat} (hn : n = 1 ∨ n = 2 ∨ n = 4 ∨ n = 8) (hal : ea % n = 0) (hpa : pa % 64 = ea % 64) (hi : i < n) :
    (pa + i) / 64 = pa / 64 := by
  obtain rfl | rfl | rfl | rfl := hn <;> omega

section
variable {f : Fields} {s s1 : State} {c k ea flag : Nat} {x : Pass} {m : Mapping}

/-- What a remote acquire leaves before it acquires, and the bytes it returns. -/
def State.racqLoad (s s1 : State) (l : Lane) (m : Mapping) (n : Nat) : State × Loaded :=
  (s1.foreignYields (m.pa / 64) (l.owner s)).globalLoad (l.via s m.pa) m 1 n false

theorem MemSide.owner {s t : State} (h : MemSide s t) (l : Lane) : l.owner t = l.owner s := by
  have hgrid : l.grid t = l.grid s := by
    rw [Lane.grid, State.gangGrid, State.gangTeam, State.grid, State.team, State.gang, h.rest]
    rfl
  rw [Lane.owner, Lane.owner, hgrid, h.laneTeam]

theorem State.racqLoad_side {u : State} (hreach : MemSide u s1) (l : Lane) (m : Mapping) (n : Nat) : MemSide u (s.racqLoad s1 l m n).1 :=
  hreach.trans ((s1.foreignYields_side _ _).trans (State.globalLoad_side ..))

theorem racqAct_eq (hc : (x.lane c k).check s ([(pSA, OpKind.reg true, f.sa)] ++ unlessImm f (pSC, OpKind.srcOpt false, f.sc)
      ++ [(pDST, OpKind.load f.ty.isPair, f.dst)]) = .ok ()) (hflag : (x.lane c k).needFlag (f.md.getLsbD 0) = .ok flag)
    (hspec : (s.thr c k).spec = false) (ha : (x.lane c k).address s f 0 false = .ok ea)
    (hreach : (x.lane c k).reachAligned (s.latch (x.lane c k) f) 0 0 ea (elemBytes f.ty) { load := true } = .ok (s1, .glob m))
    (hside : MemSide (s.latch (x.lane c k) f) s1) :
    let r := s.racqLoad s1 (x.lane c k) m (elemBytes f.ty)
    racqAct f s (x.lane c k) = .ok ((r.1.acquireAt c ((x.lane c k).team s) 4).issue c k flag
      (groupWords f.dst (poisonAll 0 (loadWords f.ty 1 r.2))) none) := by
  have howner : (x.lane c k).owner s1 = (x.lane c k).owner s := hside.owner _
  have hyield := hside.trans (s1.foreignYields_side (m.pa / 64) ((x.lane c k).owner s))
  have hvia : (x.lane c k).via (s1.foreignYields (m.pa / 64) ((x.lane c k).owner s)) m.pa = (x.lane c k).via s m.pa := hyield.via _ _
  have hteam : (x.lane c k).team (s.racqLoad s1 (x.lane c k) m (elemBytes f.ty)).1 = (x.lane c k).team s :=
    (hyield.trans (State.globalLoad_side ..)).laneTeam _
  simp only [racqAct, hc, hflag, Lane.stopIfSpec_ok (l := x.lane c k) (s := s) hspec, ha, hreach, bind, Except.bind]
  rw [howner]
  let w := s1.foreignYields (m.pa / 64) ((x.lane c k).owner s)
  let r := w.globalLoad ((x.lane c k).via w m.pa) m 1 (elemBytes f.ty) false
  change Except.ok ((r.1.acquireAt c ((x.lane c k).team r.1) 4).issue c k flag (groupWords f.dst (poisonAll 0 (loadWords f.ty 1 r.2))) none) = _
  have hr : r = s.racqLoad s1 (x.lane c k) m (elemBytes f.ty) := congrArg (fun v => w.globalLoad v m 1 (elemBytes f.ty) false) hvia
  rw [hr, hteam]

end

theorem decide_hasRel (o : Nat) : decide (o = 2 ∨ o = 3) = hasRel o := by
  rw [hasRel, Bool.decide_or]
  rfl

theorem decide_hasAcq (o : Nat) : decide (o = 1 ∨ o = 3) = hasAcq o := by
  rw [hasAcq, Bool.decide_or]
  rfl

/-- An aligned access that is reached in global memory was translated. -/
theorem Lane.reachAligned_glob {l : Lane} {u t : State} {policy ea size : Nat} {n : Need} {m : Mapping}
    (h : l.reachAligned u 0 policy ea size n = .ok (t, .glob m)) :
    u.translate l.core (l.ctxId u) { n with user := !(l.thr u).priv } ea = .ok (t, m) := by
  unfold Lane.reachAligned at h
  split at h
  · cases h
  · exact Lane.reach_glob h

section
variable {f : Fields} {s : State} {c p k ea : Nat} {x : Pass} (h : Executes s c p x f.guard [k])
include h

theorem pref_single (hc : (x.lane c k).check s (memFields f 0 true) = .ok ()) (ha : (x.lane c k).address s f 0 true = .ok ea) :
    ∃ t, exec (.pref f) s = .next t
      ∧ GoesOn (s.prefLeaves (x.lane c k) f ea) t c p x f.readsChannel [(k, ({ th := s.thr c k } : LaneOut))] := by
  refine execSeq_single h f.readsChannel rfl (act := fun s l => seqAct s (prefAct f s l)) ?_
    (State.pipe_of_curPass ((s.prefLeaves_side _ f ea).pipesKept.curPass.trans h.1))
  rw [prefAct_eq hc ha]
  rfl

theorem racq_single {flag : Nat} {s1 : State} {m : Mapping} (hfull : s.fullFlag f.guard (f.md.getLsbD 0) = none)
    (hflag : setFlag x.hdr (f.md.getLsbD 0) = some flag)
    (hc : (x.lane c k).check s ([(pSA, OpKind.reg true, f.sa)] ++ unlessImm f (pSC, OpKind.srcOpt false, f.sc)
      ++ [(pDST, OpKind.load f.ty.isPair, f.dst)]) = .ok ())
    (hspec : (s.thr c k).spec = false) (ha : (x.lane c k).address s f 0 false = .ok ea)
    (hreach : (x.lane c k).reachAligned (s.latch (x.lane c k) f) 0 0 ea (elemBytes f.ty) { load := true } = .ok (s1, .glob m)) :
    let r := s.racqLoad s1 (x.lane c k) m (elemBytes f.ty)
    ∃ t, exec (.racq f) s = .next t
      ∧ GoesOn ((r.1.acquireAt c ((x.lane c k).team s) 4).issue c k flag (groupWords f.dst (poisonAll 0 (loadWords f.ty 1 r.2))) none) t c p x
          f.readsChannel [(k, ({ th := s.thr c k } : LaneOut))]
      ∧ MemSide (s.latch (x.lane c k) f) r.1 := by
  have hside1 := State.translate_side (Lane.reachAligned_glob hreach)
  have hside := State.racqLoad_side (s := s) hside1 (x.lane c k) m (elemBytes f.ty)
  have hpipes := ((hside.trans (State.acquireAt_side _ c ((x.lane c k).team s) 4)).pipesKept).trans (State.issue_pipes _ c k flag
    (groupWords f.dst (poisonAll 0 (loadWords f.ty 1 (s.racqLoad s1 (x.lane c k) m (elemBytes f.ty)).2))) none)
  obtain ⟨t, hexec, hon⟩ := execSeq_single h f.readsChannel rfl (act := fun s l => seqAct s (racqAct f s l))
    (by rw [racqAct_eq hc (Lane.needFlag_ok hflag) hspec ha hreach hside1]; rfl) (State.pipe_of_curPass (hpipes.curPass.trans h.1))
  exact ⟨t, (longOp_eq _ hfull).trans hexec, hon, hside⟩

end

/-- A line of the reached address reads alike in the state that the translation started from. -/
theorem racqLoad_byte {f : Fields} {s s1 : State} {l : Lane} {m : Mapping} {policy ea n i : Nat} {need : Need}
    (hreach : l.reachAligned (s.latch l f) 0 policy ea n need = .ok (s1, .glob m)) (howner : ¬ s1.Foreign (m.pa / 64) (l.owner s))
    (hs : Plain s (s.l1Core l.core (l.team s) m.pa) m.key m.pa false) (ht : Plain s1 (s.l1Core l.core (l.team s) m.pa) m.key m.pa false)
    (hi : i < n) : ((s.racqLoad s1 l m n).2[i]?).map (·.1)
      = some ((s.evictL1 (s.l1Core l.core (l.team s) m.pa) (l1Key (m.pa / 64) false)).physByte m.key (m.pa + i)) := by
  have hstand : BytesStand (s.latch l f) s1 := (State.translate_quiet (Lane.reachAligned_glob hreach) hs.slices).1
  have hstore : SameStore s s1 := by
    obtain ⟨hmem, hkey, hktab, hpages, hvcps, hqueues⟩ := hstand.sameStore
    exact ⟨hmem, hkey, hktab, hpages, hvcps, hqueues⟩
  have hyield : s1.foreignYields (m.pa / 64) (l.owner s) = s1 := if_neg (fun e => howner ((s1.foreignTag_iff ..).mp e))
  rw [State.racqLoad, hyield, State.globalLoad_byp ht.slices _ m hi]
  exact congrArg some ((hstore.evictL1 (hstand.l1 _) _).physByte _ _)

/-- Settles O39: a fence lane after lane, and a prefetch and a remote acquire by what each leaves of the memory levels. -/
theorem fencePrefetchAndRemoteAcquireResults : Obligations.FencePrefetchAndRemoteAcquireResults := by
  unfold Obligations.FencePrefetchAndRemoteAcquireResults
  refine ⟨fun f s c p x ks h => ?fence, fun f s c p k x ea h hc ha => ?pref,
    fun f s c p k x i h hc hi => ⟨Lane.staleTerm_code hi, pref_stale h hc hi⟩,
    fun f s c p k flag ea x s1 m h hfull hflag => ?racq⟩
  case fence =>
    simp only [decide_hasRel, decide_hasAcq]
    exact fence_lanesRun h
  case pref =>
    obtain ⟨t, hexec, hon⟩ := pref_single h hc ha
    refine ⟨_, t, hexec, hon, s.prefLeaves_side _ f ea, fun m s1 hreach => State.prefLeaves_sameBytes hreach, fun e he => ?_⟩
    rw [State.prefLeaves, he]
  case racq =>
    dsimp only
    intro hc hspec ha hal hpa hreach
    obtain ⟨t, hexec, hon, hside⟩ := racq_single h hfull hflag hc hspec ha hreach
    refine ⟨_, t, _, hexec, hon, hside, State.length_globalLoad_byp .., fun hforeign => ⟨_, rfl, ?promoted⟩, fun hown hs ht i hi => ?home⟩
    case promoted =>
      have hyield : s1.foreignYields (m.pa / 64) ((x.lane c k).owner s) = s1.promote (m.pa / 64) := if_pos ((s1.foreignTag_iff ..).mpr hforeign)
      rw [← hyield]
      rfl
    case home =>
      have hbyte := racqLoad_byte hreach hown hs ht hi
      refine ⟨hbyte, fun hpage => hbyte.trans (congrArg some ?_)⟩
      exact State.physByte_evictL1 hs (elem_in_line (elemBytes_cases f.ty) hal hpa hi) hpage

end Sys2Proof.Machine
end

section
/-!
The obligation on agreed branches and votes (R105, R107, R409 to R412, R417, R418, R420, R425, R427, R429).
-/
namespace Sys2Proof.Machine

/-! ## The checks of a gang that votes (R410, R412, R429) -/

section
variable {y : Ctx} {n : Nat} {g : Gang}

/-- A gang that votes next in the sequence its register resolves next has nothing to catch up. -/
theorem catchup_current (h : g.seqOf n = Mset.seq (y.msetOf n)) (k : Nat) : catchup y n k g = g := by
  cases k with
  | zero => rfl
  | succ k => simp [catchup, h]

/-- A gang that waits does not catch up. -/
theorem catchup_waiting (h : g.waiting n = true) (k : Nat) : catchup y n k g = g := by
  cases k with
  | zero => rfl
  | succ k => simp [catchup, h]

/-- What the checks of R412 ask of a gang, whether or not it has a vote outstanding. -/
structure MayVote (s : State) (y : Ctx) (n : Nat) (op : Option Nat) (g : Gang) : Prop where
  voided : g.voided.getLsbD n = false
  valid : Mset.valid (y.msetOf n) = true
  op : ∀ o, op = some o → o = Mset.vop (y.msetOf n)
  drop : g.dropOf n = 0
  member : g.member n = true
  group : s.inGroup y (y.msetOf n) = true

/-- Whether the operator that a `cbr` names is another than the register's. -/
def otherOp (op : Option Nat) (v : Nat) : Bool :=
  match op with
  | some o => o != v
  | none => false

theorem otherOp_eq_false {op : Option Nat} {v : Nat} : otherOp op v = false ↔ ∀ o, op = some o → o = v := by
  cases op <;> simp [otherOp]

variable {s : State} {op : Option Nat}

/-- The checks with the operator's named. -/
theorem voteCheck_eq : s.voteCheck y n op g =
    if g.voided.getLsbD n then (g.setWait n false, .fault (memberInfo (g.seqOf n - 1) false n 3))
    else if !Mset.valid (y.msetOf n) then (g, .fault (memberInfo (g.seqOf n) false n 0))
    else if otherOp op (Mset.vop (y.msetOf n)) then (g, .fault (memberInfo (g.seqOf n) false n 1))
    else if g.dropOf n != 0 then
      (g.setDrop n 0, .fault (memberInfo (g.seqOf n) (g.dropOf n == 2) n (if g.dropOf n == 3 then 7 else 6)))
    else if !g.member n then (g, .fault (memberInfo (g.seqOf n) false n 2))
    else if !s.inGroup y (y.msetOf n) then (g, .fault (memberInfo (g.seqOf n) false n 4))
    else if g.waiting n then if Mset.seq (y.msetOf n) == g.seqOf n - 1 then (g, .waits) else takeOutcome y n g
    else (g, .casts) := rfl

/-- A gang that passes the checks casts, or waits, or takes its outcome. -/
theorem voteCheck_of_mayVote (h : MayVote s y n op g) : s.voteCheck y n op g
    = if g.waiting n then if Mset.seq (y.msetOf n) == g.seqOf n - 1 then (g, .waits) else takeOutcome y n g else (g, .casts) := by
  simp [voteCheck_eq, h.voided, h.valid, otherOp_eq_false.mpr h.op, h.drop, h.member, h.group]

theorem voteCheck_faults : VoteFaults s y n op g (fun i h => s.voteCheck y n op g = (h, .fault i)) := by
  refine ⟨fun hvoid => ?voided, fun hvoid => ⟨fun hvalid => ?valid, fun o hvalid ho hne => ?op, fun ⟨hvalid, hop⟩ hdrop => ?drop,
    fun ⟨hvalid, hop⟩ hdrop hmember => ?member, fun ⟨hvalid, hop⟩ hdrop hmember hgroup => ?group,
    fun ⟨hvalid, hop⟩ hdrop hmember hgroup hwait hseq => ?outcome⟩⟩
  case voided => simp [voteCheck_eq, hvoid, memberInfo]
  case valid => simp [voteCheck_eq, hvoid, hvalid, memberInfo]
  case op => simp [voteCheck_eq, hvoid, hvalid, ho, hne, otherOp, memberInfo]
  case drop =>
    rw [voteCheck_eq, hvoid, hvalid, otherOp_eq_false.mpr hop, bne_iff_ne.mpr hdrop]
    simp only [beq_iff_eq]
    rfl
  case member =>
    rw [voteCheck_eq, hvoid, hvalid, otherOp_eq_false.mpr hop, hdrop, hmember]
    rfl
  case group =>
    rw [voteCheck_eq, hvoid, hvalid, otherOp_eq_false.mpr hop, hdrop, hmember, hgroup]
    rfl
  case outcome =>
    have hmay : MayVote s y n op g := ⟨hvoid, hvalid, hop, hdrop, hmember, hgroup⟩
    rw [voteCheck_of_mayVote hmay, hwait, if_pos rfl, if_neg (by simpa using hseq)]
    unfold takeOutcome
    refine ⟨fun h2 => ?_, fun h3 => ?_, fun hlost => ?_⟩
    · simp only [h2]
      rfl
    · simp only [h3]
      rfl
    · dsimp only
      split
      · omega
      · omega
      · omega
      · omega
      · rfl

theorem VoteFaults.mono {F G : FaultInfo → Gang → Prop} (hFG : ∀ i h, F i h → G i h) (hF : VoteFaults s y n op g F) :
    VoteFaults s y n op g G := by
  obtain ⟨hvoid, hrest⟩ := hF
  refine ⟨fun v => hFG _ _ (hvoid v), fun v => ?_⟩
  obtain ⟨hvalid, hop, hdrop, hmember, hgroup, houtcome⟩ := hrest v
  refine ⟨fun a => hFG _ _ (hvalid a), fun o a b d => hFG _ _ (hop o a b d), fun a b => hFG _ _ (hdrop a b), fun a b d => hFG _ _ (hmember a b d),
    fun a b d r => hFG _ _ (hgroup a b d r), fun a b d r q j => ?_⟩
  obtain ⟨habort, hvoided, hlost⟩ := houtcome a b d r q j
  exact ⟨fun o => hFG _ _ (habort o), fun o => hFG _ _ (hvoided o), fun o => hFG _ _ (hlost o)⟩

theorem takeOutcome_ne_casts : (takeOutcome y n g).2 ≠ .casts := by
  unfold takeOutcome
  dsimp only
  split <;> exact nofun

/-- A vote is cast where the checks pass and none is outstanding, and nowhere else. -/
theorem voteCheck_casts_iff : (s.voteCheck y n op g).2 = .casts ↔ MayVote s y n op g ∧ g.waiting n = false := by
  constructor
  · intro h
    have hmay : MayVote s y n op g := by
      rw [voteCheck_eq] at h
      split at h; · cases h
      split at h; · cases h
      split at h; · cases h
      split at h; · cases h
      split at h; · cases h
      split at h; · cases h
      next hvoid hvalid hop hdrop hmember hgroup =>
        exact ⟨by simpa using hvoid, by simpa using hvalid, otherOp_eq_false.mp (by simpa using hop), by simpa using hdrop,
          by simpa using hmember, by simpa using hgroup⟩
    refine ⟨hmay, ?_⟩
    rw [voteCheck_of_mayVote hmay] at h
    split at h
    · split at h
      · cases h
      · exact absurd h takeOutcome_ne_casts
    · next hwait => simpa using hwait
  · rintro ⟨hmay, hwait⟩
    rw [voteCheck_of_mayVote hmay, hwait]
    rfl

end

/-! ## What a vote changes of the state -/

/-- Some threads of a core change, each by the same function. -/
def State.modEach (s : State) (c : Nat) (ks : List Nat) (w : Thread → Thread) : State := ks.foldl (fun s k => s.modThr c k w) s

section
variable (s : State) (c : Nat) (ks : List Nat) (w : Thread → Thread)

theorem State.modEach_rest : s.modEach c ks w = { s with threads := (s.modEach c ks w).threads } := by
  induction ks generalizing s with
  | nil => rfl
  | cons k r ih => exact ih (s.modThr c k w)

theorem State.ctxs_modEach : (s.modEach c ks w).ctxs = s.ctxs := by rw [State.modEach_rest]

theorem State.gang_modEach (d j : Nat) : (s.modEach c ks w).gang d j = s.gang d j := by
  rw [State.modEach_rest]
  rfl

theorem State.ctx_modEach (j : Nat) : (s.modEach c ks w).ctx j = s.ctx j := by
  rw [State.modEach_rest]
  rfl

theorem State.timebase_modEach : (s.modEach c ks w).timebase = s.timebase := by
  rw [State.modEach_rest]
  rfl

theorem State.voteCheck_modEach (y : Ctx) (n : Nat) (op : Option Nat) (g : Gang) : (s.modEach c ks w).voteCheck y n op g = s.voteCheck y n op g := by
  rw [State.modEach_rest]
  rfl

variable {ks w}

theorem State.thr_modEach_other {d j : Nat} (h : ∀ k ∈ ks, threadKey d j ≠ threadKey c k) : (s.modEach c ks w).thr d j = s.thr d j := by
  induction ks generalizing s with
  | nil => rfl
  | cons k r ih =>
    refine (ih (s.modThr c k w) fun i hi => h i (List.mem_cons_of_mem _ hi)).trans ?_
    rw [State.modThr, State.thr_setThr, if_neg (h k List.mem_cons_self)]

theorem State.thr_modEach_not_mem {j : Nat} (h : j ∉ ks) : (s.modEach c ks w).thr c j = s.thr c j :=
  s.thr_modEach_other c fun _ hk e => h (threadKey_inj e ▸ hk)

/-- Where the change done twice is the change done once, a lane may be named twice. -/
theorem State.thr_modEach_idem (hw : ∀ th, w (w th) = w th) {k : Nat} (hk : k ∈ ks) : (s.modEach c ks w).thr c k = w (s.thr c k) := by
  induction ks generalizing s with
  | nil => cases hk
  | cons j r ih =>
    change ((s.modThr c j w).modEach c r w).thr c k = _
    by_cases hr : k ∈ r
    · rw [ih _ hr, State.modThr]
      by_cases e : k = j
      · rw [e, State.thr_setThr_self, hw]
      · rw [State.thr_setThr_ne _ _ _ e]
    · obtain rfl := (List.mem_cons.mp hk).resolve_right hr
      rw [State.thr_modEach_not_mem _ _ hr, State.modThr, State.thr_setThr_self]

theorem State.thr_modEach_nodup (hnd : ks.Nodup) {k : Nat} (hk : k ∈ ks) : (s.modEach c ks w).thr c k = w (s.thr c k) := by
  induction ks generalizing s with
  | nil => cases hk
  | cons j r ih =>
    obtain ⟨hj, hr⟩ := List.nodup_cons.mp hnd
    change ((s.modThr c j w).modEach c r w).thr c k = _
    obtain rfl | hkr := List.mem_cons.mp hk
    · rw [State.thr_modEach_not_mem _ _ hj, State.modThr, State.thr_setThr_self]
    · have hkj : k ≠ j := by
        rintro rfl
        exact hj hkr
      rw [ih _ hr hkr, State.modThr, State.thr_setThr_ne _ _ _ hkj]

end

/-- The open sequences once a vote has joined its own (R414). -/
def Ctx.tallied (y : Ctx) (now n : Nat) (q : BitVec 16) (vote : Bool) : List OpenSeq :=
  if y.openSeqs.any (fun o => o.reg == n && o.seq == q) then y.openSeqs.map (fun o =>
    if o.reg == n && o.seq == q && !o.closed then { o with t := o.t + b2n vote, v := o.v + 1 } else o)
  else y.openSeqs ++ [⟨n, q, b2n vote, 1, false, now⟩]

/-- A context once a vote has joined the tally of its sequence. -/
def Ctx.withVote (y : Ctx) (now n : Nat) (q : BitVec 16) (vote : Bool) : Ctx := { y with openSeqs := y.tallied now n q vote }

theorem State.castVote_eq (s : State) (cx n : Nat) (q : BitVec 16) (vote : Bool) :
    s.castVote cx n q vote = s.setCtx cx ((s.ctx cx).withVote s.timebase n q vote) := by
  unfold State.castVote Ctx.withVote Ctx.tallied
  rw [State.modCtx]
  split <;> rfl

/-- One gang, its context and some of its threads change, and nothing else. -/
structure GangTouched (c gs cx : Nat) (ks : List Nat) (s u : State) : Prop where
  rest : u = { s with gangs := u.gangs, threads := u.threads, ctxs := u.ctxs }
  ctx : ∀ j, j ≠ cx → u.ctx j = s.ctx j
  gang : ∀ d j, gangKey d j ≠ gangKey c gs → u.gang d j = s.gang d j
  thr : ∀ d j, (∀ k ∈ ks, threadKey d j ≠ threadKey c k) → u.thr d j = s.thr d j

namespace GangTouched
variable {c gs cx : Nat} {ks : List Nat} {s u : State}

theorem refl (s : State) : GangTouched c gs cx ks s s := ⟨rfl, fun _ _ => rfl, fun _ _ _ => rfl, fun _ _ _ => rfl⟩

variable (h : GangTouched c gs cx ks s u)
include h

theorem setGang (g : Gang) : GangTouched c gs cx ks s (u.setGang c gs g) := by
  refine ⟨by rw [h.rest]; rfl, h.ctx, fun d j hk => ?_, h.thr⟩
  rw [State.gang_setGang, if_neg hk, h.gang d j hk]

theorem setCtx (z : Ctx) : GangTouched c gs cx ks s (u.setCtx cx z) := by
  refine ⟨by rw [h.rest]; rfl, fun j hj => ?_, h.gang, h.thr⟩
  rw [State.ctx_setCtx, if_neg hj, h.ctx j hj]

theorem modEach {r : List Nat} (hr : ∀ k ∈ r, k ∈ ks) (w : Thread → Thread) : GangTouched c gs cx ks s (u.modEach c r w) := by
  refine ⟨by rw [State.modEach_rest, h.rest], fun j hj => ?_, fun d j hk => ?_, fun d j hk => ?_⟩
  · rw [State.ctx_modEach, h.ctx j hj]
  · rw [State.gang_modEach, h.gang d j hk]
  · rw [State.thr_modEach_other _ _ fun k hk' => hk k (hr k hk'), h.thr d j hk]

/-- Where the contexts stand, gangs and threads are all that changes. -/
theorem rest_of_ctxs (hctx : u.ctxs = s.ctxs) : u = { s with gangs := u.gangs, threads := u.threads } := h.rest.trans (by rw [hctx])

end GangTouched

/-! ## The gang that casts a vote (R409, R412) -/

/-- A gang that has cast a vote: its sequence advances, and it waits. -/
def Gang.cast (g : Gang) (n : Nat) : Gang := (g.setSeq n (g.seqOf n + 1)).setWait n true

/-- What a vote leaves of a gang but for its waits and its run-ahead. -/
theorem Gang.cast_fields {g h : Gang} {n : Nat} (hmember : g.member n = true) (hh : h = { g.cast n with votes := h.votes, spec := h.spec }) :
    h.seqOf n = g.seqOf n + 1 ∧ h.waiting n = true ∧ h.member n = true
      ∧ (∀ m, m ≠ n → h.seqOf m = g.seqOf m ∧ h.waiting m = g.waiting m)
      ∧ h.mj = g.mj ∧ h.drop = g.drop ∧ h.g = g.g ∧ h.tw = g.tw := by
  have hn : n < 16 := BitVec.lt_of_getLsbD hmember
  have hwait : ∀ m, h.waiting m = if m = n then true else g.waiting m := fun m => by
    rw [hh]
    exact getLsbD_or_bit _ hn m
  have hseq : ∀ m, h.seqOf m = if m = n then g.seqOf n + 1 else g.seqOf m := fun m => by
    rw [hh]
    exact Tbl.at_put _ _ _ _ _
  refine ⟨by rw [hseq, if_pos rfl], by rw [hwait, if_pos rfl], by rw [hh]; exact hmember,
    fun m hm => ⟨by rw [hseq, if_neg hm], by rw [hwait, if_neg hm]⟩,
    ?_, ?_, ?_, ?_⟩ <;> rw [hh] <;> rfl

/-! ## The lanes of one gang -/

theorem gangsOf_one {ks : List Nat} {gs : Nat} (hne : ks ≠ []) (h : ∀ k ∈ ks, k / 32 = gs) : gangsOf ks = [gs] := by
  have hins : insertSorted gs [gs] = [gs] := by simp [insertSorted]
  have hfold : ∀ r : List Nat, (∀ k ∈ r, k / 32 = gs) → r.foldl (fun a k => insertSorted (k / 32) a) [gs] = [gs] := by
    intro r
    induction r with
    | nil => exact fun _ => rfl
    | cons k r ih =>
      intro hr
      rw [List.foldl_cons, hr k List.mem_cons_self, hins]
      exact ih fun j hj => hr j (List.mem_cons_of_mem _ hj)
  cases ks with
  | nil => exact absurd rfl hne
  | cons k r =>
    rw [gangsOf, List.foldl_cons, h k List.mem_cons_self]
    exact hfold r fun j hj => h j (List.mem_cons_of_mem _ hj)

end Sys2Proof.Machine
end

section
/-!
The course of `cbr` and of `mvote` for one gang, and with it the obligation on agreed branches and votes (R412, R427, R429).
-/
namespace Sys2Proof.Machine

/-! ## The course of `cbr` (R412) -/

/-- Where a pass executes its `cbr`. -/
def cbrSite (e : CbrExt) (x : Pass) : CbrSite := ⟨e.reg.toNat, x.clause, x.idx, directTarget x.clause e.off, fallThrough x.clause x.body⟩

/-- A thread whose successor is `a`. -/
def Thread.goesTo (th : Thread) (a : DWord) : Thread := { th with pos := entryPos a }

/-- A thread that waits for the result of a `cbr` (R412). -/
def Thread.waitsAt (th : Thread) (clause : DWord) (idx : Nat) : Thread := { th with pos := posAt clause idx, place := .vote }

theorem Thread.goesTo_goesTo (th : Thread) (a : DWord) : (th.goesTo a).goesTo a = th.goesTo a := rfl

theorem Thread.waitsAt_waitsAt (th : Thread) (a : DWord) (idx : Nat) : (th.waitsAt a idx).waitsAt a idx = th.waitsAt a idx := rfl

/-- The lanes that do not execute a `cbr` fall through. -/
def State.fallen (s : State) (c : Nat) (x : Pass) (g : Guard) : State :=
  s.modEach c (x.slots.filter (fun k => !(s.executing c x g).contains k)) (fun th => th.goesTo (fallThrough x.clause x.body))

theorem State.slots_ne_nil (s : State) (c : Nat) (x : Pass) (g : Guard) {k0 : Nat} (hex : (s.executing c x g).head? = some k0) : x.slots ≠ [] := by
  intro hnil
  simp [State.executing, hnil] at hex

section
variable {f : Fields} {e : CbrExt} {s : State} {c p gs : Nat} {x : Pass} (hcur : s.curPass = some (c, p, x)) (hgs : ∀ k ∈ x.slots, k / 32 = gs)
  (hspec : ∀ k ∈ x.slots, (s.thr c k).spec = false) (hcheck : ∀ k ∈ x.slots, (x.lane c k).check s [(pSA, OpKind.pred, f.sa)] = .ok ())
include hcur hgs hspec hcheck

section
variable (hne : x.slots ≠ [])
include hne

/-- The lanes of a pass are those of one gang, which acts once. -/
theorem execCbr_one : exec (.cbr f e) s =
    let ex := s.executing c x f.guard
    let cx := (s.gangGrid c gs).ctx
    let r : State × List (Nat × LaneFail) := match ex with
      | [] => ((s.fallen c x f.guard).castDefault c gs cx e.reg.toNat (f.minor.toNat % 4), [])
      | k :: _ =>
        match (s.fallen c x f.guard).cbrGang c gs cx (f.minor.toNat % 4) ex (cbrSite e x) ((s.thr c k).readPred f.sa) e.prd.toNat with
        | (t, none) => (t, [])
        | (t, some i) => (t, ex.map (fun k => (k, i)))
    .next ((r.1.leave c x r.2).endPass c p (x.without (r.2.map (·.1)))) := by
  have hall : x.slots.filter (fun k => k / 32 == gs) = x.slots := List.filter_eq_self.mpr fun k hk => by simp [hgs k hk]
  have hlive : x.slots.filter (fun k => !([] : List (Nat × LaneFail)).any (fun b => b.1 == k)) = x.slots := List.filter_eq_self.mpr fun _ _ => rfl
  show execCbr f e s = _
  unfold execCbr
  rw [hcur]
  dsimp only
  rw [List.filterMap_eq_nil_iff.mpr fun k hk => by rw [hcheck k hk, hspec k hk]; rfl, hlive, gangsOf_one hne hgs]
  simp only [List.foldl_cons, List.foldl_nil, hall]
  rfl

/-- No lane executes the `cbr`. -/
theorem execCbr_default (hex : s.executing c x f.guard = []) : exec (.cbr f e) s =
    .next (((s.fallen c x f.guard).castDefault c gs (s.gangGrid c gs).ctx e.reg.toNat (f.minor.toNat % 4)).endPass c p x) := by
  rw [execCbr_one hcur hgs hspec hcheck hne, hex]
  exact congrArg (fun y => Host.Outcome.next (State.endPass _ c p y)) x.without_nil

end

variable {k0 : Nat} (hex : (s.executing c x f.guard).head? = some k0)
include hex

/-- The executing lanes go on. -/
theorem execCbr_pass {t : State} (ht : (s.fallen c x f.guard).cbrGang c gs (s.gangGrid c gs).ctx (f.minor.toNat % 4) (s.executing c x f.guard)
    (cbrSite e x) ((s.thr c k0).readPred f.sa) e.prd.toNat = (t, none)) : exec (.cbr f e) s = .next (t.endPass c p x) := by
  rw [execCbr_one hcur hgs hspec hcheck (s.slots_ne_nil c x f.guard hex)]
  obtain ⟨r, hr⟩ := List.head?_eq_some_iff.mp hex
  rw [hr] at ht ⊢
  dsimp only
  rw [ht]
  exact congrArg (fun y => Host.Outcome.next (State.endPass _ c p y)) x.without_nil

/-- The executing lanes fault. -/
theorem execCbr_fault {t : State} {i : LaneFail} (ht : (s.fallen c x f.guard).cbrGang c gs (s.gangGrid c gs).ctx (f.minor.toNat % 4)
    (s.executing c x f.guard) (cbrSite e x) ((s.thr c k0).readPred f.sa) e.prd.toNat = (t, some i)) :
    exec (.cbr f e) s = .next ((t.leave c x ((s.executing c x f.guard).map (fun k => (k, i)))).endPass c p
      (x.without (s.executing c x f.guard))) := by
  have hgone : ((s.executing c x f.guard).map (fun k => (k, i))).map (·.1) = s.executing c x f.guard := by simp [Function.comp_def]
  rw [execCbr_one hcur hgs hspec hcheck (s.slots_ne_nil c x f.guard hex)]
  obtain ⟨r, hr⟩ := List.head?_eq_some_iff.mp hex
  rw [hr] at ht hgone ⊢
  dsimp only
  rw [ht, hgone]

end

/-! ## What the checks come to -/

theorem checkBoth_good {a : CbrSite} (h : ∀ z ∈ [a.target, a.ft], z.toNat % 32 = 0 ∧ canonical z.toNat = true) : checkBoth a = none := by
  rw [checkBoth, checkSuccessor_good (h _ (by simp)), checkSuccessor_good (h _ (by simp))]

theorem checkBoth_target {a : CbrSite} (h : ¬ (a.target.toNat % 32 = 0 ∧ canonical a.target.toNat = true)) :
    checkBoth a = some (.fault (badSuccessor a.target)) := by
  rw [checkBoth, checkSuccessor_bad h]

theorem checkBoth_ft {a : CbrSite} (htarget : a.target.toNat % 32 = 0 ∧ canonical a.target.toNat = true)
    (h : ¬ (a.ft.toNat % 32 = 0 ∧ canonical a.ft.toNat = true)) : checkBoth a = some (.fault (badSuccessor a.ft)) := by
  rw [checkBoth, checkSuccessor_good htarget, checkSuccessor_bad h]

/-- Lanes wait at a vote. -/
def State.awaitVote (s : State) (c gs : Nat) (g : Gang) (ks : List Nat) (v : VoteWait) (w : Thread → Thread) : State :=
  (s.setGang c gs { g with votes := g.votes ++ [v] }).modEach c ks w

/-- A vote is cast by a gang, which becomes another (R414). -/
def State.votes (s : State) (c gs cx n : Nat) (g : Gang) (vote : Bool) : State :=
  (s.setGang c gs (g.cast n)).setCtx cx ((s.ctx cx).withVote s.timebase n (g.seqOf n) vote)

theorem State.setGang_setGang (s : State) (c gs : Nat) (g h : Gang) : (s.setGang c gs g).setGang c gs h = s.setGang c gs h := by
  simp only [State.setGang, Tbl.put_put]

theorem State.holdForVote_eq (s : State) (c gs : Nat) (ks : List Nat) (a : CbrSite) (q : BitVec 16) :
    s.holdForVote c gs ks a q = s.awaitVote c gs (s.gang c gs) ks ⟨a.reg, q, ks, a.target, a.ft, a.clause, a.idx, none⟩
      (fun th => th.waitsAt a.clause a.idx) := rfl

theorem State.awaitVote_setGang (s : State) (c gs : Nat) (g h : Gang) (ks : List Nat) (v : VoteWait) (w : Thread → Thread) :
    (s.setGang c gs h).awaitVote c gs g ks v w = s.awaitVote c gs g ks v w := by
  rw [State.awaitVote, State.setGang_setGang]
  rfl

section
variable {t : State} {c gs cx op : Nat} {ks : List Nat} {a : CbrSite} {vote : Bool} {prd : Nat} (hgood : checkBoth a = none) {g : Gang}
include hgood

omit hgood in
theorem cbrGang_breach {i : LaneFail} (hbad : checkBoth a = some i) : t.cbrGang c gs cx op ks a vote prd = (t, some i) := by
  simp only [State.cbrGang, hbad]

theorem cbrGang_fault {i : FaultInfo} (h : t.voteCheck (t.ctx cx) a.reg (some op) (catchup (t.ctx cx) a.reg 17 (t.gang c gs)) = (g, .fault i)) :
    t.cbrGang c gs cx op ks a vote prd = (t.setGang c gs g, some (.fault i)) := by
  simp only [State.cbrGang, hgood, h]

theorem cbrGang_result {r : Bool} (h : t.voteCheck (t.ctx cx) a.reg (some op) (catchup (t.ctx cx) a.reg 17 (t.gang c gs)) = (g, .result r)) :
    t.cbrGang c gs cx op ks a vote prd
      = ((t.setGang c gs g).modEach c ks (fun th => th.goesTo (if r then a.target else a.ft)), none) := by
  simp only [State.cbrGang, hgood, h]
  rfl

theorem cbrGang_waits (h : t.voteCheck (t.ctx cx) a.reg (some op) (catchup (t.ctx cx) a.reg 17 (t.gang c gs)) = (g, .waits)) :
    t.cbrGang c gs cx op ks a vote prd = (t.awaitVote c gs g ks ⟨a.reg, g.seqOf a.reg - 1, ks, a.target, a.ft, a.clause, a.idx, none⟩
      (fun th => th.waitsAt a.clause a.idx), none) := by
  simp only [State.cbrGang, hgood, h, State.holdForVote_eq, State.gang_setGang_self, State.awaitVote_setGang]

theorem cbrGang_casts (h : t.voteCheck (t.ctx cx) a.reg (some op) (catchup (t.ctx cx) a.reg 17 (t.gang c gs)) = (g, .casts)) :
    t.cbrGang c gs cx op ks a vote prd = if prd == 3 || g.spec.isSome
      then ((t.votes c gs cx a.reg g vote).holdForVote c gs ks a (g.seqOf a.reg), none)
      else ((t.votes c gs cx a.reg g vote).runAhead c gs ks a (g.seqOf a.reg) (if prd == 0 then vote else prd == 1), none) := by
  simp only [State.cbrGang, hgood, h, State.castVote_eq]
  rfl

end

/-! ## A vote outstanding (R410, R412) -/

/-- A gang that may vote and waits for the outcome of the sequence it voted in last. -/
structure Outstanding (s : State) (y : Ctx) (n : Nat) (op : Option Nat) (g : Gang) : Prop extends MayVote s y n op g where
  waiting : g.waiting n = true

namespace Outstanding
variable {s : State} {y : Ctx} {n : Nat} {op : Option Nat} {g : Gang} (h : Outstanding s y n op g)
include h

theorem waits (hopen : Mset.seq (y.msetOf n) = g.seqOf n - 1) : s.voteCheck y n op (catchup y n 17 g) = (g, .waits) := by
  rw [catchup_waiting h.waiting, voteCheck_of_mayVote h.toMayVote, h.waiting, if_pos rfl, if_pos (by simpa using hopen)]

theorem result (hdone : Mset.seq (y.msetOf n) ≠ g.seqOf n - 1) {r : Bool} (hres : y.outcomeOf n (g.seqOf n - 1) = b2n r) :
    s.voteCheck y n op (catchup y n 17 g) = (g.setWait n false, .result r) := by
  rw [catchup_waiting h.waiting, voteCheck_of_mayVote h.toMayVote, h.waiting, if_pos rfl, if_neg (by simpa using hdone), takeOutcome]
  cases r <;> simp only [hres] <;> rfl

end Outstanding

/-- A `cbr` that names the register's operator. -/
theorem names_op {o v : Nat} (h : v = o) : ∀ z, some o = some z → z = v := fun _ hz => (Option.some.inj hz).symm.trans h.symm

/-- A gang that may vote casts in the sequence its register resolves next. -/
theorem voteCheck_casts {s : State} {y : Ctx} {n : Nat} {op : Option Nat} {g : Gang} (h : MayVote s y n op g) (hwait : g.waiting n = false)
    (hseq : g.seqOf n = Mset.seq (y.msetOf n)) : s.voteCheck y n op (catchup y n 17 g) = (g, .casts) := by
  rw [catchup_current hseq, voteCheck_of_mayVote h, hwait]
  rfl

/-! ## A gang no lane of which executes a `cbr` (R412) -/

section
variable {t : State} {c gs cx n op : Nat}

theorem castDefault_casts {g : Gang} (hg : catchup (t.ctx cx) n 17 (t.gang c gs) = g) (h : (t.voteCheck (t.ctx cx) n (some op) g).2 = .casts) :
    t.castDefault c gs cx n op = (t.setGang c gs (g.setSeq n (g.seqOf n + 1))).setCtx cx
      ((t.ctx cx).withVote t.timebase n (g.seqOf n) (Mset.defv ((t.ctx cx).msetOf n))) := by
  unfold State.castDefault
  dsimp only
  rw [hg]
  cases hv : t.voteCheck (t.ctx cx) n (some op) g with
  | mk g' v =>
    rw [hv] at h
    obtain rfl : v = .casts := h
    dsimp only
    rw [State.castVote_eq]
    rfl

theorem castDefault_keeps {g : Gang} (hg : catchup (t.ctx cx) n 17 (t.gang c gs) = g) (h : (t.voteCheck (t.ctx cx) n (some op) g).2 ≠ .casts) :
    t.castDefault c gs cx n op = t.setGang c gs g := by
  unfold State.castDefault
  dsimp only
  rw [hg]
  split
  · next hv => exact absurd (by rw [hv]) h
  · rfl

end

/-! ## What they leave -/

/-- What a gang keeps to undo a run-ahead (R418). -/
def State.snapshot (s : State) (c gs : Nat) (ks : List Nat) (a : CbrSite) (q : BitVec 16) (dir : Bool) : GangSpec :=
  { reg := a.reg, seq := q, dir := dir, lanes := ks, target := a.target, ft := a.ft, clause := a.clause, idx := a.idx
    snap := ks.map (fun k => (k, s.thr c k)), snapG := (s.gang c gs).g, snapTw := (s.gang c gs).tw }

/-- A thread that starts to run ahead (R418). -/
def Thread.runsAhead (th : Thread) (reg : Nat) : Thread :=
  { th with spec := true, ncl := 0, specReg := reg, stopped := false, heldFault := none, heldBeats := 0 }

theorem Thread.runsAhead_runsAhead (th : Thread) (reg : Nat) : (th.runsAhead reg).runsAhead reg = th.runsAhead reg := rfl

theorem State.runAhead_eq (s : State) (c gs : Nat) (ks : List Nat) (a : CbrSite) (q : BitVec 16) (dir : Bool) :
    s.runAhead c gs ks a q dir = ((s.setGang c gs { s.gang c gs with spec := some (s.snapshot c gs ks a q dir) }).modEach c ks
      (fun th => th.runsAhead a.reg)).modEach c ks (fun th => th.goesTo (if dir then a.target else a.ft)) := rfl

theorem Tbl.look_map_self {α : Type} (h : Nat → α) {ks : List Nat} {k : Nat} (hk : k ∈ ks) :
    Tbl.look (ks.map (fun k => (k, h k))) k = some (h k) := by
  induction ks with
  | nil => cases hk
  | cons j r ih =>
    rw [List.map_cons, Tbl.look]
    by_cases e : j = k
    · rw [if_pos e, e]
    · rw [if_neg e]
      exact ih ((List.mem_cons.mp hk).resolve_left fun e' => e e'.symm)

section
variable (s : State) {c gs cx n : Nat} {g : Gang}

theorem State.gang_awaitVote {ks : List Nat} {v : VoteWait} {w : Thread → Thread} :
    (s.awaitVote c gs g ks v w).gang c gs = { g with votes := g.votes ++ [v] } := by
  rw [State.awaitVote, State.gang_modEach, State.gang_setGang_self]

theorem State.ctxs_awaitVote (ks : List Nat) (v : VoteWait) (w : Thread → Thread) : (s.awaitVote c gs g ks v w).ctxs = s.ctxs :=
  State.ctxs_modEach ..

theorem State.ctx_awaitVote (ks : List Nat) (v : VoteWait) (w : Thread → Thread) (j : Nat) :
    (s.awaitVote c gs g ks v w).ctx j = s.ctx j := State.ctx_modEach ..

theorem State.gang_votes (vote : Bool) : (s.votes c gs cx n g vote).gang c gs = g.cast n := State.gang_setGang_self s c gs _

theorem State.ctx_votes (vote : Bool) : (s.votes c gs cx n g vote).ctx cx
    = (s.ctx cx).withVote s.timebase n (g.seqOf n) vote := State.ctx_setCtx_self _ _ _

theorem GangTouched.votes {ks : List Nat} {u : State} (h : GangTouched c gs cx ks s u) (vote : Bool) :
    GangTouched c gs cx ks s (u.votes c gs cx n g vote) :=
  (h.setGang _).setCtx _

theorem GangTouched.castDefault {ks : List Nat} {u : State} (h : GangTouched c gs cx ks s u) (op : Nat) :
    GangTouched c gs cx ks s (u.castDefault c gs cx n op) ∧ (u.castDefault c gs cx n op).threads = u.threads := by
  by_cases hc : (u.voteCheck (u.ctx cx) n (some op) (catchup (u.ctx cx) n 17 (u.gang c gs))).2 = .casts
  · rw [castDefault_casts rfl hc]
    exact ⟨(h.setGang _).setCtx _, rfl⟩
  · rw [castDefault_keeps rfl hc]
    exact ⟨h.setGang _, rfl⟩

theorem GangTouched.awaitVote {ks r : List Nat} {u : State} (h : GangTouched c gs cx ks s u) (hr : ∀ k ∈ r, k ∈ ks)
    (v : VoteWait) (w : Thread → Thread) :
    GangTouched c gs cx ks s (u.awaitVote c gs g r v w) := (h.setGang _).modEach hr w

end

section
variable (s : State) {c k : Nat} (x : Pass) (g : Guard)

theorem State.fallen_thr (hk : k ∈ x.slots) : (s.fallen c x g).thr c k = if k ∈ s.executing c x g then s.thr c k
    else (s.thr c k).goesTo (fallThrough x.clause x.body) := by
  unfold State.fallen
  split
  · next hex =>
    refine s.thr_modEach_not_mem c ?_
    simp [hex]
  · next hex =>
    refine s.thr_modEach_idem c (fun th => th.goesTo_goesTo _) ?_
    simp [hex, hk]

theorem State.fallen_touched (gs cx : Nat) : GangTouched c gs cx x.slots s (s.fallen c x g) :=
  (GangTouched.refl s).modEach (fun _ hk => List.mem_of_mem_filter hk) _

theorem State.mem_of_executing (hk : k ∈ s.executing c x g) : k ∈ x.slots := List.mem_of_mem_filter hk

end

/-! ## `cbr` (R412, R418, R429) -/

theorem State.ctxs_fallen (s : State) (c : Nat) (x : Pass) (g : Guard) : (s.fallen c x g).ctxs = s.ctxs := s.ctxs_modEach ..

section
variable {f : Fields} {e : CbrExt} {s : State} {c p gs : Nat} {x : Pass} (hcur : s.curPass = some (c, p, x)) (hgs : ∀ k ∈ x.slots, k / 32 = gs)
  (hspec : ∀ k ∈ x.slots, (s.thr c k).spec = false) (hcheck : ∀ k ∈ x.slots, (x.lane c k).check s [(pSA, OpKind.pred, f.sa)] = .ok ())

/-- The checks of a `cbr`'s gang, once the lanes that do not execute it have fallen through. -/
theorem State.voteCheck_fallen (op : Option Nat) (n : Nat) :
    let t := s.fallen c x f.guard
    let cx := (s.gangGrid c gs).ctx
    t.voteCheck (t.ctx cx) n op (catchup (t.ctx cx) n 17 (t.gang c gs))
      = s.voteCheck (s.ctx cx) n op (catchup (s.ctx cx) n 17 (s.gang c gs)) := by
  dsimp only
  unfold State.fallen
  rw [State.voteCheck_modEach, State.ctx_modEach, State.gang_modEach]

/-- A gang no lane of which executes the `cbr`, once its lanes have fallen through. -/
theorem State.castDefault_fallen (n op : Nat) :
    let t := s.fallen c x f.guard
    let cx := (s.gangGrid c gs).ctx
    let y := s.ctx cx
    let h := catchup y n 17 (s.gang c gs)
    ((s.voteCheck y n (some op) h).2 = .casts → t.castDefault c gs cx n op = (t.setGang c gs (h.setSeq n (h.seqOf n + 1))).setCtx cx
        (y.withVote s.timebase n (h.seqOf n) (Mset.defv (y.msetOf n))))
      ∧ ((s.voteCheck y n (some op) h).2 ≠ .casts → t.castDefault c gs cx n op = t.setGang c gs h) := by
  have hcheck := s.voteCheck_fallen (f := f) (c := c) (x := x) (gs := gs) (some op) n
  dsimp only at hcheck ⊢
  rw [← hcheck]
  have hctx : (s.fallen c x f.guard).ctx (s.gangGrid c gs).ctx = s.ctx (s.gangGrid c gs).ctx := s.ctx_modEach ..
  have hgang : (s.fallen c x f.guard).gang c gs = s.gang c gs := s.gang_modEach ..
  have htime : (s.fallen c x f.guard).timebase = s.timebase := s.timebase_modEach ..
  rw [← hctx, ← hgang, ← htime]
  exact ⟨castDefault_casts rfl, castDefault_keeps rfl⟩

variable {k0 : Nat} (hex : (s.executing c x f.guard).head? = some k0)
include hcur hgs hspec hcheck hex

theorem cbr_faults {t : State} {i : FaultInfo} {cx : Nat}
    (ht : (s.fallen c x f.guard).cbrGang c gs (s.gangGrid c gs).ctx (f.minor.toNat % 4) (s.executing c x f.guard)
      (cbrSite e x) ((s.thr c k0).readPred f.sa) e.prd.toNat = (t, some (.fault i)))
    (htouch : GangTouched c gs cx x.slots s t) (hctxs : t.ctxs = s.ctxs) (hthr : t.threads = (s.fallen c x f.guard).threads) :
    ∃ u : State, exec (.cbr f e) s = .next ((u.leave c x ((s.executing c x f.guard).map (fun k => (k, LaneFail.fault i)))).endPass c p
        (x.without (s.executing c x f.guard)))
      ∧ u = { s with gangs := u.gangs, threads := u.threads } ∧ u.gang c gs = t.gang c gs
      ∧ (∀ d j, gangKey d j ≠ gangKey c gs → u.gang d j = s.gang d j)
      ∧ ∀ k ∈ x.slots, u.thr c k = if k ∈ s.executing c x f.guard then s.thr c k
          else (s.thr c k).goesTo (fallThrough x.clause x.body) := by
  refine ⟨t, execCbr_fault hcur hgs hspec hcheck hex ht, htouch.rest_of_ctxs hctxs, rfl, htouch.gang, fun k hk => ?_⟩
  rw [State.thr, hthr]
  exact s.fallen_thr x f.guard hk

/-- A bad successor faults the executing lanes, and their gang stays as it is. -/
theorem cbr_breaches {i : FaultInfo} (hbad : checkBoth (cbrSite e x) = some (.fault i)) :
    ∃ u : State, exec (.cbr f e) s = .next ((u.leave c x ((s.executing c x f.guard).map (fun k => (k, LaneFail.fault i)))).endPass c p
        (x.without (s.executing c x f.guard)))
      ∧ u = { s with gangs := u.gangs, threads := u.threads } ∧ u.gang c gs = s.gang c gs
      ∧ (∀ d j, gangKey d j ≠ gangKey c gs → u.gang d j = s.gang d j)
      ∧ ∀ k ∈ x.slots, u.thr c k = if k ∈ s.executing c x f.guard then s.thr c k
          else (s.thr c k).goesTo (fallThrough x.clause x.body) := by
  obtain ⟨u, hexec, hrest, hgang, hothers, hthr⟩ := cbr_faults hcur hgs hspec hcheck hex (cbrGang_breach hbad)
    (s.fallen_touched x f.guard gs (s.gangGrid c gs).ctx) (s.ctxs_fallen ..) rfl
  exact ⟨u, hexec, hrest, hgang.trans (s.gang_modEach ..), hothers, hthr⟩

omit hcur hgs hspec hcheck hex in
/-- The lanes of a pass once those that execute its `cbr` have changed alike. -/
theorem State.thr_fallen_modEach {g : Guard} {u : State} (hu : u.threads = (s.fallen c x g).threads) {w : Thread → Thread}
    (hw : ∀ th, w (w th) = w th) {k : Nat} (hk : k ∈ x.slots) : (u.modEach c (s.executing c x g) w).thr c k
      = if k ∈ s.executing c x g then w (s.thr c k) else (s.thr c k).goesTo (fallThrough x.clause x.body) := by
  have hthr : u.thr c k = (s.fallen c x g).thr c k := by rw [State.thr, hu, ← State.thr]
  have hfallen := s.fallen_thr (c := c) x g hk
  split
  · next hin => rw [State.thr_modEach_idem _ _ hw hin, hthr, hfallen, if_pos hin]
  · next hout =>
    rw [State.thr_modEach_not_mem _ _ hout, hthr, hfallen, if_neg hout]

/-- The executing lanes change alike, and their gang becomes another. -/
theorem cbr_rests {h : Gang} {cx : Nat} {w : Thread → Thread} (hw : ∀ th, w (w th) = w th)
    (ht : (s.fallen c x f.guard).cbrGang c gs (s.gangGrid c gs).ctx (f.minor.toNat % 4) (s.executing c x f.guard) (cbrSite e x)
      ((s.thr c k0).readPred f.sa) e.prd.toNat = (((s.fallen c x f.guard).setGang c gs h).modEach c (s.executing c x f.guard) w, none)) :
    ∃ u : State, exec (.cbr f e) s = .next (u.endPass c p x) ∧ u = { s with gangs := u.gangs, threads := u.threads } ∧ u.gang c gs = h
      ∧ ((∀ j, j ≠ cx → u.ctx j = s.ctx j) ∧ (∀ d j, gangKey d j ≠ gangKey c gs → u.gang d j = s.gang d j)
        ∧ ∀ d j, (∀ k ∈ x.slots, threadKey d j ≠ threadKey c k) → u.thr d j = s.thr d j)
      ∧ ∀ k ∈ x.slots, u.thr c k = if k ∈ s.executing c x f.guard then w (s.thr c k)
          else (s.thr c k).goesTo (fallThrough x.clause x.body) := by
  have htouch : GangTouched c gs cx x.slots s (((s.fallen c x f.guard).setGang c gs h).modEach c (s.executing c x f.guard) w) :=
    ((s.fallen_touched x f.guard gs cx).setGang h).modEach (fun _ => s.mem_of_executing x f.guard) w
  refine ⟨_, execCbr_pass hcur hgs hspec hcheck hex ht, htouch.rest_of_ctxs ?_, ?_, ⟨htouch.ctx, htouch.gang, htouch.thr⟩,
    fun k hk => State.thr_fallen_modEach (u := (s.fallen c x f.guard).setGang c gs h) rfl hw hk⟩
  · rw [State.ctxs_modEach]
    exact s.ctxs_fallen ..
  · rw [State.gang_modEach, State.gang_setGang_self]

end

section
variable (s : State) (c gs : Nat) (x : Pass) (d : Guard) (a : CbrSite) (vote : Bool)

/-- A vote cast at a `cbr`, once the lanes that do not execute it have fallen through. -/
def State.cbrVoted : State := (s.fallen c x d).votes c gs (s.gangGrid c gs).ctx a.reg (s.gang c gs) vote

theorem State.gang_cbrVoted : (s.cbrVoted c gs x d a vote).gang c gs = (s.gang c gs).cast a.reg := State.gang_votes ..

theorem State.ctx_cbrVoted : (s.cbrVoted c gs x d a vote).ctx (s.gangGrid c gs).ctx
    = (s.ctx (s.gangGrid c gs).ctx).withVote s.timebase a.reg ((s.gang c gs).seqOf a.reg) vote := by
  rw [State.cbrVoted, State.ctx_votes, State.fallen, State.ctx_modEach, State.timebase_modEach]

theorem State.cbrVoted_touched : GangTouched c gs (s.gangGrid c gs).ctx x.slots s (s.cbrVoted c gs x d a vote) :=
  (s.fallen_touched x d gs (s.gangGrid c gs).ctx).votes s vote

/-- A vote cast by lanes that wait at their `cbr` for its result. -/
theorem State.cbrVoted_hold (q : BitVec 16) :
    let ex := s.executing c x d
    let u := (s.cbrVoted c gs x d a vote).holdForVote c gs ex a q
    GangTouched c gs (s.gangGrid c gs).ctx x.slots s u
      ∧ u.ctx (s.gangGrid c gs).ctx = (s.ctx (s.gangGrid c gs).ctx).withVote s.timebase a.reg ((s.gang c gs).seqOf a.reg) vote
      ∧ u.gang c gs = { (s.gang c gs).cast a.reg with
          votes := (s.gang c gs).votes ++ [⟨a.reg, q, ex, a.target, a.ft, a.clause, a.idx, none⟩] }
      ∧ ∀ k ∈ x.slots, u.thr c k = if k ∈ ex then (s.thr c k).waitsAt a.clause a.idx
          else (s.thr c k).goesTo (fallThrough x.clause x.body) := by
  dsimp only
  rw [State.holdForVote_eq, State.gang_cbrVoted]
  refine ⟨(s.cbrVoted_touched c gs x d a vote).awaitVote s (fun _ => s.mem_of_executing x d) _ _, ?_, State.gang_awaitVote _, fun k hk => ?_⟩
  · rw [State.ctx_awaitVote, State.ctx_cbrVoted]
  · exact State.thr_fallen_modEach (u := (s.cbrVoted c gs x d a vote).setGang c gs _) rfl
      (w := fun th => th.waitsAt a.clause a.idx) (fun th => th.waitsAt_waitsAt _ _) hk

/-- The snapshot that the lanes run ahead from is of the state before the `cbr` (R418). -/
theorem State.snapshot_cbrVoted (q : BitVec 16) (dir : Bool) :
    (s.cbrVoted c gs x d a vote).snapshot c gs (s.executing c x d) a q dir = s.snapshot c gs (s.executing c x d) a q dir := by
  have hsnap : (s.executing c x d).map (fun k => (k, (s.cbrVoted c gs x d a vote).thr c k)) = (s.executing c x d).map (fun k => (k, s.thr c k)) :=
    List.map_congr_left fun k hk => congrArg (Prod.mk k) ((s.fallen_thr x d (s.mem_of_executing x d hk)).trans (if_pos hk))
  simp only [State.snapshot, hsnap, State.gang_cbrVoted]
  rfl

/-- A vote cast by lanes that run ahead from a snapshot. -/
theorem State.cbrVoted_runAhead (q : BitVec 16) (dir : Bool) :
    let ex := s.executing c x d
    let u := (s.cbrVoted c gs x d a vote).runAhead c gs ex a q dir
    GangTouched c gs (s.gangGrid c gs).ctx x.slots s u
      ∧ u.ctx (s.gangGrid c gs).ctx = (s.ctx (s.gangGrid c gs).ctx).withVote s.timebase a.reg ((s.gang c gs).seqOf a.reg) vote
      ∧ u.gang c gs = { (s.gang c gs).cast a.reg with spec := some (s.snapshot c gs ex a q dir) }
      ∧ ∀ k ∈ x.slots, u.thr c k = if k ∈ ex then ((s.thr c k).runsAhead a.reg).goesTo (if dir then a.target else a.ft)
          else (s.thr c k).goesTo (fallThrough x.clause x.body) := by
  dsimp only
  have hin : ∀ k ∈ s.executing c x d, k ∈ x.slots := fun _ => s.mem_of_executing x d
  rw [State.runAhead_eq, State.snapshot_cbrVoted, State.gang_cbrVoted]
  refine ⟨(((s.cbrVoted_touched c gs x d a vote).setGang _).modEach hin _).modEach hin _, ?_, ?_, fun k hk => ?_⟩
  · rw [State.ctx_modEach, State.ctx_modEach, State.ctx_setGang, State.ctx_cbrVoted]
  · rw [State.gang_modEach, State.gang_modEach, State.gang_setGang_self]
  · have hfirst := State.thr_fallen_modEach (s := s) (g := d) (u := (s.cbrVoted c gs x d a vote).setGang c gs
      { (s.gang c gs).cast a.reg with spec := some (s.snapshot c gs (s.executing c x d) a q dir) }) rfl
      (w := fun th => th.runsAhead a.reg) (fun th => th.runsAhead_runsAhead a.reg) hk
    by_cases hk' : k ∈ s.executing c x d
    · rw [State.thr_modEach_idem _ _ (fun th => th.goesTo_goesTo _) hk', hfirst, if_pos hk', if_pos hk']
    · rw [State.thr_modEach_not_mem _ _ hk', hfirst, if_neg hk', if_neg hk']

end

/-- The direction that a prediction gives (R418). -/
theorem predicted_eq (prd : BitVec 2) (vote : Bool) :
    (if prd.toNat == 0 then vote else prd.toNat == 1) = if prd = 0 then vote else decide (prd = 1) := by
  revert prd
  cases vote <;> decide

/-- A gang that passes the checks of its `cbr` with no vote outstanding casts, and its lanes wait or run ahead. -/
theorem cbrGang_fallen_casts {s : State} {f : Fields} {e : CbrExt} {x : Pass} {c gs : Nat} {vote : Bool} (hgood : checkBoth (cbrSite e x) = none)
    (hmay : MayVote s (s.ctx (s.gangGrid c gs).ctx) e.reg.toNat (some (f.minor.toNat % 4)) (s.gang c gs))
    (hwait : (s.gang c gs).waiting e.reg.toNat = false)
    (hseq : (s.gang c gs).seqOf e.reg.toNat = Mset.seq ((s.ctx (s.gangGrid c gs).ctx).msetOf e.reg.toNat)) :
    let v := s.cbrVoted c gs x f.guard (cbrSite e x) vote
    let ex := s.executing c x f.guard
    let q := (s.gang c gs).seqOf e.reg.toNat
    (s.fallen c x f.guard).cbrGang c gs (s.gangGrid c gs).ctx (f.minor.toNat % 4) ex (cbrSite e x) vote e.prd.toNat
      = if e.prd = 3 ∨ (s.gang c gs).spec.isSome = true then (v.holdForVote c gs ex (cbrSite e x) q, none)
        else (v.runAhead c gs ex (cbrSite e x) q (if e.prd = 0 then vote else decide (e.prd = 1)), none) := by
  have hverdict := (s.voteCheck_fallen (f := f) (x := x) (some (f.minor.toNat % 4)) e.reg.toNat).trans (voteCheck_casts hmay hwait hseq)
  have hprd : (e.prd.toNat == 3 || (s.gang c gs).spec.isSome) = true ↔ e.prd = 3 ∨ (s.gang c gs).spec.isSome = true := by
    rw [Bool.or_eq_true, beq_iff_eq]
    exact or_congr_left ⟨fun h3 => BitVec.eq_of_toNat_eq h3, fun h3 => h3 ▸ rfl⟩
  dsimp only
  rw [cbrGang_casts (a := cbrSite e x) hgood hverdict, predicted_eq]
  exact if_congr hprd rfl rfl

/-! ## `mvote` (R427, R429) -/

/-- A thread that has an operation more outstanding under a flag. -/
def Thread.raises (th : Thread) (flag : Nat) : Thread := th.setFlag flag (th.flag flag + 1)

section
variable {s : State} {f : Fields} {c gs n flag : Nat} {ks : List Nat} {vote : Bool} {g : Gang}

theorem mvoteGang_fault {i : FaultInfo}
    (h : s.voteCheck (s.ctx (s.gangGrid c gs).ctx) n none (catchup (s.ctx (s.gangGrid c gs).ctx) n 17 (s.gang c gs)) = (g, .fault i)) :
    s.mvoteGang f c gs n flag ks vote = (s.setGang c gs g, some (.fault i)) := by
  simp only [State.mvoteGang, h]

theorem mvoteGang_result {r : Bool}
    (h : s.voteCheck (s.ctx (s.gangGrid c gs).ctx) n none (catchup (s.ctx (s.gangGrid c gs).ctx) n 17 (s.gang c gs)) = (g, .result r)) :
    s.mvoteGang f c gs n flag ks vote
      = (ks.foldl (fun s k => s.issue c k flag (groupWords f.dst [(BitVec.ofNat 32 (b2n r), false)]) none) (s.setGang c gs g), none) := by
  simp only [State.mvoteGang, h]

theorem mvoteGang_waits
    (h : s.voteCheck (s.ctx (s.gangGrid c gs).ctx) n none (catchup (s.ctx (s.gangGrid c gs).ctx) n 17 (s.gang c gs)) = (g, .waits)) :
    s.mvoteGang f c gs n flag ks vote
      = (s.awaitVote c gs g ks ⟨n, g.seqOf n - 1, ks, 0, 0, 0, 0, some (mvoteDst f.dst, flag)⟩ (fun th => th.raises flag), none) := by
  simp only [State.mvoteGang, h]
  rw [State.modGang, State.gang_setGang_self, State.setGang_setGang]
  rfl

theorem mvoteGang_casts
    (h : s.voteCheck (s.ctx (s.gangGrid c gs).ctx) n none (catchup (s.ctx (s.gangGrid c gs).ctx) n 17 (s.gang c gs)) = (g, .casts)) :
    s.mvoteGang f c gs n flag ks vote = ((s.votes c gs (s.gangGrid c gs).ctx n g vote).awaitVote c gs (g.cast n) ks
      ⟨n, g.seqOf n, ks, 0, 0, 0, 0, some (mvoteDst f.dst, flag)⟩ (fun th => th.raises flag), none) := by
  simp only [State.mvoteGang, h, State.castVote_eq]
  rw [State.modGang, State.gang_setCtx, State.gang_setGang_self]
  rfl

end

section
variable {f : Fields} {s : State} {c k flag : Nat} {x : Pass}
  (hcheck : (x.lane c k).check s [(pSA, OpKind.pred, f.sa), (pDST, OpKind.vOnly, f.dst)] = .ok ())
  (hflag : setFlag x.hdr (f.md.getLsbD 0) = some flag)
include hcheck hflag

/-- In a clause with CONV = 0 an `mvote` faults (R409). -/
theorem mvoteLane_unconverged (hconv : Hdr.conv x.hdr = false) :
    mvoteLane f s (x.lane c k) = .error (.fault ⟨0x11, BitVec.ofNat 32 f.dst.toSpec.toNat, 0⟩) := by
  simp only [mvoteLane, hcheck, Lane.needFlag_ok hflag, show (x.lane c k).hdr = x.hdr from rfl, hconv, bind, Except.bind]
  rfl

end

section
variable {f : Fields} {s : State} {c p gs flag : Nat} {x : Pass} {ks : List Nat} (h : Executes s c p x f.guard ks) (hgs : ∀ k ∈ ks, k / 32 = gs)
  (hfull : s.fullFlag f.guard (f.md.getLsbD 0) = none)
include h

theorem Executes.mem_slots {k : Nat} (hk : k ∈ ks) : k ∈ x.slots := by
  obtain ⟨-, rfl, -⟩ := h
  exact List.mem_of_mem_filter hk

theorem Executes.mvoteLane_ok (hspec : ∀ k ∈ x.slots, (s.thr c k).spec = false) (hflag : setFlag x.hdr (f.md.getLsbD 0) = some flag)
    (hconv : Hdr.conv x.hdr = true)
    (hcheck : ∀ k ∈ ks, (x.lane c k).check s [(pSA, OpKind.pred, f.sa), (pDST, OpKind.vOnly, f.dst)] = .ok ()) :
    ∀ k ∈ ks, mvoteLane f s (x.lane c k) = .ok flag := fun k hk => by
  simp only [mvoteLane, hcheck k hk, Lane.needFlag_ok hflag, show (x.lane c k).hdr = x.hdr from rfl, hconv,
    Lane.stopIfSpec_ok (l := x.lane c k) (s := s) (hspec k (h.mem_slots hk)), bind, Except.bind]
  rfl

include hfull

/-- Where every lane fails its checks, nothing is cast. -/
theorem execMvote_unable {i : LaneFail} (hlane : ∀ k ∈ ks, mvoteLane f s (x.lane c k) = .error i) :
    exec (.mvote f) s = .next (s.afterInstr c p x (ks.map (fun k => (k, i)))) := by
  obtain ⟨hcur, hex, -⟩ := h
  show execMvote f s = _
  unfold execMvote
  rw [hcur, hfull]
  dsimp only
  rw [hex, List.map_congr_left fun k hk => by rw [hlane k hk], List.filterMap_map, List.filterMap_map]
  simp only [Function.comp_def, List.filterMap_none, List.filterMap_eq_map']
  rfl

variable {k0 : Nat} (hk0 : ks.head? = some k0) (hlane : ∀ k ∈ ks, mvoteLane f s (x.lane c k) = .ok flag)
include hgs hk0 hlane

/-- The lanes that vote are those of one gang, which acts once. -/
theorem execMvote_one : exec (.mvote f) s =
    let r : State × List (Nat × LaneFail) := match s.mvoteGang f c gs f.minor.toNat flag ks ((s.thr c k0).readPred f.sa) with
      | (t, none) => (t, [])
      | (t, some i) => (t, ks.map (fun k => (k, i)))
    .next (r.1.afterInstr c p x r.2) := by
  obtain ⟨hcur, hex, -⟩ := h
  show execMvote f s = _
  unfold execMvote
  rw [hcur, hfull]
  dsimp only
  rw [hex, List.map_congr_left fun k hk => by rw [hlane k hk], List.filterMap_map, List.filterMap_map]
  obtain ⟨r, rfl⟩ := List.head?_eq_some_iff.mp hk0
  have hall : ((k0 :: r).map (fun k => (k, flag))).filter (fun e => e.1 / 32 == gs) = (k0 :: r).map (fun k => (k, flag)) :=
    List.filter_eq_self.mpr fun e he => by
      obtain ⟨k, hk, rfl⟩ := List.mem_map.mp he
      simp [hgs k hk]
  have hslots : ((k0 :: r).map (fun k => (k, flag))).map (·.1) = k0 :: r := by simp [Function.comp_def]
  simp only [Function.comp_def, List.filterMap_none, List.filterMap_eq_map']
  rw [hslots, gangsOf_one (List.cons_ne_nil _ _) hgs, List.foldl_cons, List.foldl_nil, hall]
  simp only [List.map_cons, List.map_map, Function.comp_def, List.map_id', List.nil_append] <;> rfl

theorem execMvote_pass {t : State} (ht : s.mvoteGang f c gs f.minor.toNat flag ks ((s.thr c k0).readPred f.sa) = (t, none)) :
    exec (.mvote f) s = .next (t.afterInstr c p x []) := by
  rw [execMvote_one h hgs hfull hk0 hlane]
  dsimp only
  rw [ht]

theorem execMvote_fault {t : State} {i : LaneFail} (ht : s.mvoteGang f c gs f.minor.toNat flag ks ((s.thr c k0).readPred f.sa) = (t, some i)) :
    exec (.mvote f) s = .next (t.afterInstr c p x (ks.map (fun k => (k, i)))) := by
  rw [execMvote_one h hgs hfull hk0 hlane]
  dsimp only
  rw [ht]

end

/-- Settles O34: the checks come to a fault, a result, a wait or a vote, and each instruction is then one change of its gang, its
context and its lanes. -/
theorem agreedVotesAreCast : Obligations.AgreedVotesAreCast := by
  unfold Obligations.AgreedVotesAreCast
  intro f e s c p gs x hcur hgs hspec
  dsimp only
  refine ⟨fun k0 hex hcheck hready hop hgood => ?cbrCasts, fun ks k0 flag h hnd hk0 hfull hflag hconv hcheck hready => ?mvoteCasts,
    ⟨fun hex hcheck hout hop hgood => ⟨fun hopen => ?cbrWaits, fun hdone hres => ?cbrResult⟩,
      fun ks flag h hnd hks hfull hflag hconv hcheck hout =>
      ⟨fun hopen => ?mvoteWaits, fun hdone r hres => ?mvoteResult⟩⟩, fun hne hlane => ?cbrDefault,
    fun k0 hex hcheck => ⟨fun hbad => ?target, fun htarget hbad => ?ft, fun htarget hft => ?cbrFaults⟩,
    fun ks flag h hks hfull hflag hcheck => ⟨fun hconv => ?unconverged, fun hconv => ?mvoteFaults⟩⟩
  case target => exact cbr_breaches hcur hgs hspec hcheck hex (checkBoth_target hbad)
  case ft => exact cbr_breaches hcur hgs hspec hcheck hex (checkBoth_ft htarget hbad)
  case cbrFaults =>
    refine voteCheck_faults.mono fun i h hfault => ?_
    have hsite : checkBoth (cbrSite e x) = none := checkBoth_good (by simpa using ⟨htarget, hft⟩)
    obtain ⟨u, hexec, hrest, hgang, hothers, hthr⟩ := cbr_faults hcur hgs hspec hcheck hex
      (cbrGang_fault hsite ((s.voteCheck_fallen (some _) _).trans hfault)) ((s.fallen_touched x f.guard gs (s.gangGrid c gs).ctx).setGang h)
      (s.ctxs_fallen ..) rfl
    exact ⟨u, hexec, hrest, hgang.trans (State.gang_setGang_self ..), hothers, hthr⟩
  case cbrWaits =>
    obtain ⟨hvalid, hdrop, hmember, hwait, hvoid, hgroup⟩ := hout
    have hopen' : Outstanding s _ e.reg.toNat (some (f.minor.toNat % 4)) (s.gang c gs) :=
      ⟨⟨hvoid, hvalid, names_op hop, hdrop, hmember, hgroup⟩, hwait⟩
    have hk0 := List.head?_eq_some_head hex
    obtain ⟨u, hexec, hrest, hgang, hothers, hthr⟩ := cbr_rests hcur hgs hspec hcheck hk0 (w := fun th => th.waitsAt x.clause x.idx)
      (fun th => th.waitsAt_waitsAt _ _)
      (cbrGang_waits (checkBoth_good hgood) ((s.voteCheck_fallen (some _) _).trans (hopen'.waits hopen)))
    exact ⟨u, hexec, hrest, hgang, hothers, hthr⟩
  case cbrResult =>
    obtain ⟨hvalid, hdrop, hmember, hwait, hvoid, hgroup⟩ := hout
    have hopen : Outstanding s _ e.reg.toNat (some (f.minor.toNat % 4)) (s.gang c gs) :=
      ⟨⟨hvoid, hvalid, names_op hop, hdrop, hmember, hgroup⟩, hwait⟩
    have hk0 := List.head?_eq_some_head hex
    generalize ho : Ctx.outcomeOf _ e.reg.toNat _ = o at hres
    have hbit : o = b2n (decide (o = 1)) := by
      obtain rfl | rfl := Nat.le_one_iff_eq_zero_or_eq_one.mp hres <;> rfl
    obtain ⟨u, hexec, hrest, hgang, hothers, hthr⟩ := cbr_rests hcur hgs hspec hcheck hk0 (fun th => th.goesTo_goesTo _)
      (cbrGang_result (checkBoth_good hgood) ((s.voteCheck_fallen (some _) _).trans (hopen.result hdone (ho.trans hbit))))
    simp only [decide_eq_true_eq] at hthr
    exact ⟨u, hexec, hrest, hgang, hothers, hthr⟩
  case cbrDefault =>
    have hex : s.executing c x f.guard = [] := List.filter_eq_nil_iff.mpr fun k hk => by rw [(hlane k hk).1]; exact Bool.false_ne_true
    have hexec := execCbr_default hcur hgs hspec (fun k hk => (hlane k hk).2) hne (e := e) hex
    have hthr : ∀ k ∈ x.slots, (s.fallen c x f.guard).thr c k = (s.thr c k).goesTo (fallThrough x.clause x.body) := fun k hk => by
      rw [s.fallen_thr x f.guard hk, hex, if_neg List.not_mem_nil]
    obtain ⟨htouch, hthreads⟩ := (s.fallen_touched (c := c) x f.guard gs (s.gangGrid c gs).ctx).castDefault
      (n := e.reg.toNat) s (f.minor.toNat % 4)
    obtain ⟨hcasts, hkeeps⟩ := s.castDefault_fallen (f := f) (c := c) (x := x) (gs := gs) e.reg.toNat (f.minor.toNat % 4)
    refine ⟨_, hexec, htouch.rest, ⟨htouch.ctx, htouch.gang, htouch.thr⟩, fun k hk => ?thr, fun hvotes => ?casts, fun hno => ?keeps⟩
    case thr =>
      rw [State.thr, hthreads]
      exact hthr k hk
    case casts =>
      obtain ⟨hvalid, hop, hdrop, hmember, hvoid, hgroup, hwait⟩ := hvotes
      rw [hcasts (voteCheck_casts_iff.mpr ⟨⟨hvoid, hvalid, names_op hop, hdrop, hmember, hgroup⟩, hwait⟩)]
      exact ⟨State.gang_setGang_self .., State.ctx_setCtx_self ..⟩
    case keeps =>
      rw [hkeeps fun hcast => hno ?_]
      · exact ⟨State.gang_setGang_self .., s.ctx_modEach ..⟩
      · obtain ⟨⟨hvoid, hvalid, hop, hdrop, hmember, hgroup⟩, hwait⟩ := voteCheck_casts_iff.mp hcast
        exact ⟨hvalid, (hop _ rfl).symm, hdrop, hmember, hvoid, hgroup, hwait⟩
  case unconverged => exact execMvote_unable h hfull fun k hk => mvoteLane_unconverged (hcheck k hk) hflag hconv
  case mvoteFaults =>
    refine voteCheck_faults.mono fun i g hfault => ?_
    have hexec := execMvote_fault h (fun k hk => hgs k (h.mem_slots hk)) hfull (List.head?_eq_some_head hks)
      (h.mvoteLane_ok hspec hflag hconv hcheck) (mvoteGang_fault hfault)
    have htouch := (GangTouched.refl (c := c) (gs := gs) (cx := 0) (ks := ks) s).setGang g
    exact ⟨_, hexec, rfl, State.gang_setGang_self .., htouch.gang⟩
  case mvoteResult =>
    obtain ⟨hvalid, hdrop, hmember, hwait, hvoid, hgroup⟩ := hout
    have hout : Outstanding s _ f.minor.toNat none (s.gang c gs) := ⟨⟨hvoid, hvalid, nofun, hdrop, hmember, hgroup⟩, hwait⟩
    exact execMvote_pass h (fun k hk => hgs k (h.mem_slots hk)) hfull (List.head?_eq_some_head hks)
      (h.mvoteLane_ok hspec hflag hconv hcheck) (mvoteGang_result (hout.result hdone hres))
  case mvoteWaits =>
    obtain ⟨hvalid, hdrop, hmember, hwait, hvoid, hgroup⟩ := hout
    have hout : Outstanding s _ f.minor.toNat none (s.gang c gs) := ⟨⟨hvoid, hvalid, nofun, hdrop, hmember, hgroup⟩, hwait⟩
    have hexec := execMvote_pass h (fun k hk => hgs k (h.mem_slots hk)) hfull (List.head?_eq_some_head hks)
      (h.mvoteLane_ok hspec hflag hconv hcheck) (mvoteGang_waits (hout.waits hopen))
    have htouch := (GangTouched.refl (gs := gs) (cx := (s.gangGrid c gs).ctx) s).awaitVote s (c := c) (g := s.gang c gs) (ks := ks) (r := ks)
      (fun _ hk => hk) ⟨f.minor.toNat, (s.gang c gs).seqOf f.minor.toNat - 1, ks, 0, 0, 0, 0, some (mvoteDst f.dst, flag)⟩
      (fun th => th.raises flag)
    exact ⟨_, hexec, htouch.rest_of_ctxs (s.ctxs_awaitVote ..), ⟨htouch.ctx, htouch.gang, htouch.thr⟩, s.gang_awaitVote,
      fun k hk => State.thr_modEach_nodup _ c hnd hk⟩
  case mvoteCasts =>
    obtain ⟨hvalid, hdrop, hmember, hwait, hvoid, hgroup, hseq⟩ := hready
    have hmay : MayVote s _ f.minor.toNat none (s.gang c gs) := ⟨hvoid, hvalid, nofun, hdrop, hmember, hgroup⟩
    have hexec := execMvote_pass h (fun k hk => hgs k (h.mem_slots hk)) hfull hk0
      (h.mvoteLane_ok hspec hflag hconv hcheck) (mvoteGang_casts (voteCheck_casts hmay hwait hseq))
    have htouch := ((GangTouched.refl (c := c) (gs := gs) (cx := (s.gangGrid c gs).ctx) (ks := ks) s).votes s (n := f.minor.toNat) (g := s.gang c gs)
      ((s.thr c k0).readPred f.sa)).awaitVote s (g := (s.gang c gs).cast f.minor.toNat) (r := ks) (fun _ hk => hk)
      ⟨f.minor.toNat, (s.gang c gs).seqOf f.minor.toNat, ks, 0, 0, 0, 0, some (mvoteDst f.dst, flag)⟩ (fun th => th.raises flag)
    refine ⟨_, hexec, htouch.rest, ⟨(State.ctx_awaitVote ..).trans (s.ctx_votes _), Gang.cast_fields hmember (by rw [State.gang_awaitVote])⟩,
      by rw [State.gang_awaitVote]; rfl, fun k hk => State.thr_modEach_nodup _ c hnd hk, htouch.ctx, htouch.gang, htouch.thr⟩
  case cbrCasts =>
    obtain ⟨hvalid, hdrop, hmember, hwait, hvoid, hgroup, hseq⟩ := hready
    have hmay : MayVote s _ e.reg.toNat (some (f.minor.toNat % 4)) (s.gang c gs) :=
      ⟨hvoid, hvalid, names_op hop, hdrop, hmember, hgroup⟩
    have hcast := cbrGang_fallen_casts (vote := (s.thr c k0).readPred f.sa) (checkBoth_good hgood) hmay hwait hseq
    have hin : ∀ k, k ∈ s.executing c x f.guard → k ∈ x.slots := fun _ => s.mem_of_executing x f.guard
    by_cases hhold : e.prd = 3 ∨ (s.gang c gs).spec.isSome = true
    · replace hcast := hcast.trans (if_pos hhold)
      obtain ⟨htouch, hctx, hgang, hthr⟩ := s.cbrVoted_hold c gs x f.guard (cbrSite e x) ((s.thr c k0).readPred f.sa)
        ((s.gang c gs).seqOf e.reg.toNat)
      exact ⟨_, execCbr_pass hcur hgs hspec hcheck hex hcast, htouch.rest, ⟨hctx, Gang.cast_fields hmember (by rw [hgang]; rfl)⟩,
        ⟨htouch.ctx, htouch.gang, htouch.thr⟩, fun k hk hout => (hthr k hk).trans (if_neg hout),
        fun _ => ⟨by rw [hgang]; rfl, by rw [hgang]; rfl, fun k hk => (hthr k (hin k hk)).trans (if_pos hk)⟩,
        fun hprd hnone => hhold.elim (fun h3 => absurd h3 hprd) (fun hsome => by rw [hnone] at hsome; cases hsome)⟩
    · replace hcast := hcast.trans (if_neg hhold)
      obtain ⟨htouch, hctx, hgang, hthr⟩ := s.cbrVoted_runAhead c gs x f.guard (cbrSite e x) ((s.thr c k0).readPred f.sa)
        ((s.gang c gs).seqOf e.reg.toNat) (if e.prd = 0 then (s.thr c k0).readPred f.sa else decide (e.prd = 1))
      exact ⟨_, execCbr_pass hcur hgs hspec hcheck hex hcast, htouch.rest, ⟨hctx, Gang.cast_fields hmember (by rw [hgang]; rfl)⟩,
        ⟨htouch.ctx, htouch.gang, htouch.thr⟩, fun k hk hout => (hthr k hk).trans (if_neg hout), fun hwaits => absurd hwaits hhold,
        fun _ _ => ⟨by rw [hgang]; rfl, ⟨_, by rw [hgang], rfl, rfl, rfl, rfl, rfl, rfl, rfl, rfl, rfl, rfl, rfl,
          fun k hk => Tbl.look_map_self (s.thr c) hk⟩, fun k hk => (hthr k (hin k hk)).trans (if_pos hk)⟩⟩

end Sys2Proof.Machine
end

section
/-!
The obligation on the views of distribution registers, on lineages and on pairing (R136 to R138).
-/
namespace Sys2Proof.Machine

/-! ## Units given to shares (R136, R140) -/

theorem total_eq_sum (w : List Nat) : total w = w.sum := List.sum_eq_foldl.symm

/-- A unit more for the share at an index, whose fraction is then used up. -/
def addUnit (i : Nat) (qs : List (Nat × Nat)) : List (Nat × Nat) :=
  ((List.range qs.length).zip qs).map (fun e => if e.1 = i then (e.2.1 + 1, 0) else e.2)

theorem addUnit_length (i : Nat) (qs : List (Nat × Nat)) : (addUnit i qs).length = qs.length := by simp [addUnit]

/-- The unit counts where the index lies among those of the shares, which are numbered from `n`. -/
theorem sum_addUnit_from (i n : Nat) (qs : List (Nat × Nat)) :
    ((((List.range' n qs.length).zip qs).map (fun e => if e.1 = i then (e.2.1 + 1, 0) else e.2)).map (·.1)).sum
      = (qs.map (·.1)).sum + if n ≤ i ∧ i < n + qs.length then 1 else 0 := by
  induction qs generalizing n with
  | nil => simp
  | cons q r ih =>
    simp only [List.length_cons, List.range'_succ, List.zip_cons_cons, List.map_cons, List.sum_cons, ih]
    split_ifs <;> omega

theorem sum_addUnit {i : Nat} {qs : List (Nat × Nat)} (h : i < qs.length) :
    ((addUnit i qs).map (·.1)).sum = (qs.map (·.1)).sum + 1 := by
  rw [addUnit, List.range_eq_range', sum_addUnit_from, if_pos (by omega)]

/-- The index with the larger fraction, of the best one so far and the next. -/
def largerFraction (b : Option (Nat × Nat)) (e : Nat × Nat × Nat) : Option (Nat × Nat) :=
  match b with
  | none => some (e.1, e.2.2)
  | some x => if x.2 < e.2.2 then some (e.1, e.2.2) else some x

theorem giveUnits_succ_eq (k : Nat) (qs : List (Nat × Nat)) : giveUnits (k + 1) qs
    = match ((List.range qs.length).zip qs).foldl largerFraction none with
      | none => qs
      | some b => giveUnits k (addUnit b.1 qs) := rfl

theorem largerFraction_choice (x : Nat × Nat) (e : Nat × Nat × Nat) :
    largerFraction (some x) e = some x ∨ largerFraction (some x) e = some (e.1, e.2.2) := by
  simp only [largerFraction]
  split_ifs <;> simp

/-- Among shares there is one of largest fraction. -/
theorem exists_largestFraction {qs : List (Nat × Nat)} (h : qs ≠ []) :
    ∃ b, ((List.range qs.length).zip qs).foldl largerFraction none = some b ∧ b.1 < qs.length := by
  have hindex : ∀ e ∈ (List.range qs.length).zip qs, e.1 < qs.length := fun e he =>
    List.mem_range.mp (List.of_mem_zip he).1
  have hne : (List.range qs.length).zip qs ≠ [] := by simpa using h
  obtain ⟨e, r, hcons⟩ := List.exists_cons_of_ne_nil hne
  rw [hcons, List.forall_mem_cons] at hindex
  obtain ⟨hfirst, hrest⟩ := hindex
  rw [hcons, List.foldl_cons]
  refine List.foldlRecOn (motive := fun b => ∃ x : Nat × Nat, b = some x ∧ x.1 < qs.length) r _ ⟨_, rfl, hfirst⟩ ?_
  rintro _ ⟨x, rfl, hx⟩ e' he'
  obtain hkept | htaken := largerFraction_choice x e'
  · exact ⟨x, hkept, hx⟩
  · exact ⟨_, htaken, hrest e' he'⟩

/-- As long as there are shares, one of them takes the next unit. -/
theorem giveUnits_succ (k : Nat) {qs : List (Nat × Nat)} (h : qs ≠ []) :
    ∃ i < qs.length, giveUnits (k + 1) qs = giveUnits k (addUnit i qs) := by
  obtain ⟨b, hbest, hlt⟩ := exists_largestFraction h
  exact ⟨b.1, hlt, by rw [giveUnits_succ_eq, hbest]⟩

theorem giveUnits_spec (k : Nat) {qs : List (Nat × Nat)} (h : qs ≠ []) :
    (giveUnits k qs).length = qs.length ∧ ((giveUnits k qs).map (·.1)).sum = (qs.map (·.1)).sum + k := by
  induction k generalizing qs with
  | zero => exact ⟨rfl, rfl⟩
  | succ k ih =>
    obtain ⟨i, hi, hgive⟩ := giveUnits_succ k h
    have hlen := addUnit_length i qs
    have hne : addUnit i qs ≠ [] := List.ne_nil_of_length_pos (by omega)
    obtain ⟨ihlen, ihsum⟩ := ih hne
    rw [hgive, ihlen, ihsum, sum_addUnit hi]
    exact ⟨hlen, by omega⟩

/-- Every unit short of 32,768 is given to a share, and none is taken away. -/
theorem total_shares {qs : List (Nat × Nat)} (h : qs ≠ []) (hle : (qs.map (·.1)).sum ≤ 32768) :
    (shares qs).length = qs.length ∧ total (shares qs) = 32768 := by
  obtain ⟨hlen, hsum⟩ := giveUnits_spec (32768 - total (qs.map (·.1))) h
  rw [total_eq_sum] at hlen hsum
  simp only [shares, ← List.sum_eq_foldl, List.length_map, total_eq_sum]
  exact ⟨hlen, by omega⟩

/-! ## The view (R136) -/

/-- Parts rounded down total no more than the whole rounded down. -/
theorem sum_map_mul_div_le (w : List Nat) (c s : Nat) : (w.map (fun x => x * c / s)).sum ≤ w.sum * c / s := by
  induction w with
  | nil => simp
  | cons x w ih =>
    calc x * c / s + (w.map (fun x => x * c / s)).sum ≤ x * c / s + w.sum * c / s := Nat.add_le_add_left ih _
      _ ≤ (x * c + w.sum * c) / s := Nat.div_add_div_le_add_div ..
      _ = (x :: w).sum * c / s := by rw [List.sum_cons, Nat.add_mul]

theorem norm_spec {w : List Nat} (h : w.length = 8) : (norm w (total w)).length = 8 ∧ total (norm w (total w)) = 32768 := by
  by_cases hzero : total w = 0
  · rw [norm, if_pos hzero, List.map_const', h]
    exact ⟨rfl, rfl⟩
  · rw [norm, if_neg hzero]
    obtain ⟨hlen, htotal⟩ := total_shares (qs := w.map (fun x => (x * 32768 / total w, x * 32768 % total w)))
      (List.ne_nil_of_length_pos (by rw [List.length_map]; omega)) (by
        rw [List.map_map]
        refine (sum_map_mul_div_le w 32768 (total w)).trans_eq ?_
        rw [← total_eq_sum, Nat.mul_div_cancel_left _ (Nat.pos_of_ne_zero hzero)])
    exact ⟨hlen.trans (by rw [List.length_map, h]), htotal⟩

/-- The view of a register of eight weights totals 32,768, and normalises where the weights do not. -/
theorem DReg.view_spec {r : DReg} (h : r.w.length = 8) :
    total r.view.1.w = 32768 ∧ r.view.1.w.length = 8 ∧ (r.view.2 = true ↔ total r.w ≠ 32768) := by
  by_cases hwhole : total r.w = 32768
  · rw [DReg.view, if_pos hwhole]
    exact ⟨hwhole, h, by simp [hwhole]⟩
  · obtain ⟨hlen, htotal⟩ := norm_spec h
    rw [DReg.view, if_neg hwhole]
    exact ⟨htotal, hlen, by simp [hwhole]⟩

/-! ## Lineage (R137) -/

theorem Thread.fresh_wraps {th : Thread} (h : th.linctr = 4095) : th.fresh.1 = { th with linctr := 1, dst := th.dst ||| dLWRAP } := by
  rw [Thread.fresh, if_pos (by rw [h]; rfl)]
  rfl

theorem Thread.fresh_counts {th : Thread} (h : th.linctr ≠ 4095) : th.fresh.1 = { th with linctr := th.linctr + 1 } := by
  rw [Thread.fresh, if_neg (fun hwrap : th.linctr.toNat = 4095 => h (BitVec.eq_of_toNat_eq hwrap)), BitVec.ofNat_add, BitVec.ofNat_toNat, BitVec.setWidth_eq]
  rfl

theorem Thread.fresh_linctr_ne_zero (th : Thread) : th.fresh.1.linctr ≠ 0 := by
  by_cases h : th.linctr = 4095
  · rw [Thread.fresh_wraps h]
    exact (by decide : (1 : BitVec 12) ≠ 0)
  · rw [Thread.fresh_counts h]
    show th.linctr + 1 ≠ 0
    bv_omega

/-- The counter after a fresh lineage rests on the counter alone. -/
theorem Thread.fresh_linctr_congr {th u : Thread} (h : th.linctr = u.linctr) : th.fresh.1.linctr = u.fresh.1.linctr := by
  by_cases hwrap : u.linctr = 4095
  · rw [Thread.fresh_wraps hwrap, Thread.fresh_wraps (h.trans hwrap)]
  · rw [Thread.fresh_counts hwrap, Thread.fresh_counts (h ▸ hwrap), h]

/-- Bits that are set stay set under OR. -/
theorem or_keeps_bits {w : Nat} {x b : BitVec w} (h : x &&& b = b) (y : BitVec w) : (x ||| y) &&& b = b := by
  ext i hi
  have hbit := congrArg (·[i]) h
  simp only [BitVec.getElem_and] at hbit
  rw [BitVec.getElem_and, BitVec.getElem_or, ← hbit]
  cases x[i] <;> cases y[i] <;> simp

/-- A fresh lineage clears no status bit. -/
theorem Thread.fresh_keeps_status {th : Thread} {b : BitVec 5} (h : th.dst &&& b = b) : th.fresh.1.dst &&& b = b := by
  by_cases hwrap : th.linctr = 4095
  · rw [Thread.fresh_wraps hwrap]
    exact or_keeps_bits h dLWRAP
  · rw [Thread.fresh_counts hwrap]
    exact h

/-! ## Pairing (R138) -/

section
variable (o : LaneOut) {a b : DReg} (op : Nat → Nat → Nat × BitVec 5)

/-- Aligned registers combine point by point; the thread takes flags and nothing else. -/
theorem pairDist_aligned (h : a.tag &&& b.tag ≠ 0 ∧ a.tag = b.tag ∧ a.lin = b.lin) : ∃ flags, pairDist o a b op
    = (o.orFlags flags, ⟨(a.w.zip (a.v.zip b.v)).map (fun e => (op e.2.1 e.2.2).1), a.w, a.tag, a.lin, a.cnd⟩) := by
  obtain ⟨hmeet, htag, hlin⟩ := h
  rw [pairDist, if_pos (by rw [decide_eq_true hmeet, decide_eq_true htag, decide_eq_true hlin]; rfl)]
  exact ⟨_, congrArg (fun v => (_, (⟨v, a.w, a.tag, a.lin, a.cnd⟩ : DReg))) (List.map_map ..)⟩

/-- The thread after a pairing over all pairs, before it takes the fresh lineage: with its flags, and DEP when tags overlap. -/
def pairedOut (a b : DReg) (flags : BitVec 5) : LaneOut :=
  if a.tag &&& b.tag ≠ 0 then { o.orFlags flags with th := (o.orFlags flags).th.orDst dDEP } else o.orFlags flags

/-- Other registers combine over all pairs, under a fresh lineage and the union of their tags. -/
theorem pairDist_independent (h : ¬ (a.tag &&& b.tag ≠ 0 ∧ a.tag = b.tag ∧ a.lin = b.lin)) : ∃ flags v w, pairDist o a b op
    = ((pairedOut o a b flags).fresh.1, ⟨v, w, a.tag ||| b.tag, (pairedOut o a b flags).fresh.2, true⟩) := by
  rw [pairDist, if_neg (by simpa [and_assoc] using h)]
  exact ⟨_, _, _, rfl⟩

theorem pairedOut_linctr (a b : DReg) (flags : BitVec 5) : (pairedOut o a b flags).th.linctr = o.th.linctr := by
  unfold pairedOut
  split <;> rfl

theorem pairedOut_dep (flags : BitVec 5) (h : a.tag &&& b.tag ≠ 0) : (pairedOut o a b flags).th.dst &&& dDEP = dDEP := by
  rw [pairedOut, if_pos h]
  show ((o.orFlags flags).th.dst ||| dDEP) &&& dDEP = dDEP
  rw [BitVec.or_comm]
  exact or_keeps_bits BitVec.and_self _

end

theorem getD_map_zip {α β γ : Type} {w : List α} {u v : List β} {n i : Nat} (hw : w.length = n) (hu : u.length = n) (hv : v.length = n)
    (hi : i < n) (g : β → β → γ) (d : β) (z : γ) :
    ((w.zip (u.zip v)).map (fun e => g e.2.1 e.2.2)).getD i z = g (u.getD i d) (v.getD i d) := by
  subst hw
  simp [List.getD, hi, hu, hv]

/-- Settles O21, by the sum of the shares and the cases of a fresh lineage and of a pairing. -/
theorem distributionViewsLineagesAndPairing : Obligations.DistributionViewsLineagesAndPairing := by
  unfold Obligations.DistributionViewsLineagesAndPairing
  refine ⟨fun d => DReg.view_spec rfl, fun th hth => ?lineage, fun o a b op => ⟨fun hmeet htag hlin ha hb hw => ?aligned, fun h => ?independent⟩⟩
  case lineage =>
    have hpos : th.linctr.toNat ≠ 0 := fun h => hth (BitVec.eq_of_toNat_eq h)
    have hlt := th.linctr.isLt
    exact ⟨rfl, Nat.one_le_iff_ne_zero.mpr hpos, Nat.le_of_lt_succ hlt, th.fresh_linctr_ne_zero, Thread.fresh_wraps, Thread.fresh_counts⟩
  case aligned =>
    have hmeet' : a.tag &&& b.tag ≠ 0 := by rwa [← htag, Nat.and_self]
    obtain ⟨flags, hpair⟩ := pairDist_aligned o op ⟨hmeet', htag, hlin⟩
    rw [hpair]
    exact ⟨rfl, rfl, rfl, rfl, rfl, fun i hi => getD_map_zip hw ha hb hi (fun u v => (op u v).1) 0 0⟩
  case independent =>
    obtain ⟨flags, v, w, hpair⟩ := pairDist_independent o op h
    have hlin := pairedOut_linctr o a b flags
    rw [hpair]
    exact ⟨rfl, congrArg BitVec.toNat hlin, rfl, Thread.fresh_linctr_congr hlin,
      fun hmeet => Thread.fresh_keeps_status (pairedOut_dep o flags hmeet)⟩

end Sys2Proof.Machine
end

section
/-!
The obligations on the instructions that make, combine and read distribution registers (R146 to R157).
-/
namespace Sys2Proof.Machine

/-! ## Results on distribution registers

An instruction that writes a distribution register changes a lane's thread and no uniform register, so that its lanes agree. -/

/-- A result writes no uniform register and no tile width. -/
def LaneOut.NoUniform (o : LaneOut) : Prop := o.g = [] ∧ o.tw = none

namespace LaneOut.NoUniform

theorem start (l : Lane) (s : State) (f : Fields) : (l.start s f).NoUniform := ⟨Lane.start_g .., Lane.start_tw ..⟩

variable {o : LaneOut} (h : o.NoUniform)
include h

theorem withThread (th : Thread) : ({ o with th := th } : LaneOut).NoUniform := h

theorem orFlags (flags : BitVec 5) : (o.orFlags flags).NoUniform := h

theorem fresh : o.fresh.1.NoUniform := h

theorem putD (d : Operand) (r : DReg) : (o.putD d r).NoUniform := h

theorem noteViews (rs : List DReg) : (Machine.noteViews o rs).NoUniform := by
  refine List.foldlRecOn (motive := LaneOut.NoUniform) rs _ h fun o ho r _ => ?_
  split <;> exact ho

theorem pairDist (a b : DReg) (op : Nat → Nat → Nat × BitVec 5) : (Machine.pairDist o a b op).1.NoUniform := by
  by_cases haligned : a.tag &&& b.tag ≠ 0 ∧ a.tag = b.tag ∧ a.lin = b.lin
  · obtain ⟨flags, hpair⟩ := pairDist_aligned o op haligned
    rw [hpair]
    exact h.orFlags flags
  · obtain ⟨flags, v, w, hpair⟩ := pairDist_independent o op haligned
    rw [hpair]
    show (pairedOut o a b flags).NoUniform
    unfold pairedOut
    split <;> exact h

end LaneOut.NoUniform

/-- The course of a distribution instruction whose lanes write no uniform register. -/
theorem distOp_noUniform {s : State} {f : Fields} {ts : List (Nat × OpKind × Operand)}
    {compute : Lane → LaneOut → Except LaneFail LaneOut} {c p : Nat} {x : Pass} {ks : List Nat} {out : Nat → LaneOut}
    (h : Executes s c p x f.guard ks)
    (hk : ∀ k ∈ ks, (x.lane c k).checkD s ts = .ok () ∧ compute (x.lane c k) ((x.lane c k).start s f) = .ok (out k))
    (hout : ∀ k, (out k).NoUniform) :
    ∃ t, distOp s f ts compute = .next t ∧ LaneEffect s t c p x ks f.readsChannel out :=
  distOp_effect s f ts compute h hk (agree_of_no_uniform fun k _ => hout k)

/-! ## Arithmetic (R149 to R151) -/

/-- A binary instruction pairs the views of its operands. -/
def PairGives (ins : Fields → Instr) (op : Fields → Nat → Nat → Nat × BitVec 5) : Prop :=
  ∀ (f : Fields) (s : State) (c p : Nat) (x : Pass) (ks : List Nat) (a b : Nat → DReg), Executes s c p x f.guard ks →
    (∀ k ∈ ks, (x.lane c k).checkD s [(pSA, OpKind.dist, f.sa), (pSB, OpKind.dist, f.sb), (pDST, OpKind.dist, f.dst)] = .ok ()
      ∧ (x.lane c k).dRaw s pSA f.sa = .ok (a k) ∧ (x.lane c k).dRaw s pSB f.sb = .ok (b k)) →
    let out := fun k =>
      let r := pairDist (noteViews ((x.lane c k).start s f) [a k, b k]) (a k).view.1 (b k).view.1 (op f)
      r.1.putD f.dst r.2
    ∃ t, exec (ins f) s = .next t ∧ LaneEffect s t c p x ks f.readsChannel out

theorem pairGives {ins : Fields → Instr} {op : Fields → Nat → Nat → Nat × BitVec 5}
    (hins : ∀ f s, exec (ins f) s = distBin s f (op f)) : PairGives ins op := by
  intro f s c p x ks a b h hk out
  rw [hins]
  refine distOp_noUniform h (fun k hmem => ?_) (fun k => (((LaneOut.NoUniform.start ..).noteViews _).pairDist _ _ _).putD _ _)
  obtain ⟨hcheck, hreadA, hreadB⟩ := hk k hmem
  exact ⟨hcheck, by simp only [Lane.dRead_eq _ hreadA, Lane.dRead_eq _ hreadB]; rfl⟩

/-- A pointwise instruction combines each point of a view with a scalar and keeps the rest of the register. -/
def PointGives (ins : Fields → Instr) (op : Fields → Nat → Nat → Nat × BitVec 5) : Prop :=
  ∀ (f : Fields) (s : State) (c p : Nat) (x : Pass) (ks : List Nat) (a : Nat → DReg) (y : Nat → Nat), Executes s c p x f.guard ks →
    (∀ k ∈ ks, (x.lane c k).checkD s [(pSA, OpKind.dist, f.sa), (pSB, OpKind.src false, f.sb), (pDST, OpKind.dist, f.dst)] = .ok ()
      ∧ (x.lane c k).dRaw s pSA f.sa = .ok (a k) ∧ (x.lane c k).dScalar s pSB f.sb = .ok (y k)) →
    let v := fun k => (a k).view.1
    let rs := fun k => ((v k).w.zip (v k).v).map (fun q => (q.1, op f q.2 (y k)))
    let out := fun k => ((noteViews ((x.lane c k).start s f) [a k]).orFlags
      ((rs k).foldl (fun g r => if r.1 = 0 then g else g ||| r.2.2) 0)).putD f.dst { v k with v := (rs k).map (fun r => r.2.1) }
    ∃ t, exec (ins f) s = .next t ∧ LaneEffect s t c p x ks f.readsChannel out

theorem pointGives {ins : Fields → Instr} {op : Fields → Nat → Nat → Nat × BitVec 5}
    (hins : ∀ f s, exec (ins f) s = distPoint s f (op f)) : PointGives ins op := by
  intro f s c p x ks a y h hk v rs out
  rw [hins]
  refine distOp_noUniform h (fun k hmem => ?_) (fun k => (((LaneOut.NoUniform.start ..).noteViews _).orFlags _).putD _ _)
  obtain ⟨hcheck, hreadA, hreadB⟩ := hk k hmem
  exact ⟨hcheck, by simp only [Lane.dRead_eq _ hreadA, hreadB]; rfl⟩

theorem exec_dfma (f : Fields) (s : State) : exec (.dfma f) s = execDfma f s := rfl

/-- Settles O22, by the course of an instruction on registers. -/
theorem distributionArithmeticResults : Obligations.DistributionArithmeticResults := by
  unfold Obligations.DistributionArithmeticResults
  refine ⟨?binary, fun f s c p x ks a b y h hk => ?dfma, ?pointwise⟩
  case binary =>
    change ∀ e : (Fields → Instr) × (Fields → Nat → Nat → Nat × BitVec 5), e ∈ _ → PairGives e.1 e.2
    simp only [List.forall_mem_cons, List.not_mem_nil, false_imp_iff, forall_const, and_true]
    refine ⟨?_, ?_, ?_, ?_, ?_⟩ <;> exact pairGives fun _ _ => rfl
  case dfma =>
    rw [exec_dfma]
    refine distOp_noUniform h (fun k hmem => ?_) (fun k => (((LaneOut.NoUniform.start ..).noteViews _).pairDist _ _ _).putD _ _)
    obtain ⟨hcheck, hreadA, hreadB, hreadC⟩ := hk k hmem
    exact ⟨hcheck, by simp only [Lane.dRead_eq _ hreadA, hreadB, Lane.dRead_eq _ hreadC]; rfl⟩
  case pointwise =>
    change ∀ e : (Fields → Instr) × (Fields → Nat → Nat → Nat × BitVec 5), e ∈ _ → PointGives e.1 e.2
    simp only [List.forall_mem_cons, List.not_mem_nil, false_imp_iff, forall_const, and_true]
    exact ⟨pointGives fun _ _ => rfl, pointGives fun _ _ => rfl⟩

/-! ## Making, conditioning, tagging, aligning and mixing (R146, R147, R152 to R154) -/

theorem exec_dmake (f : Fields) (s : State) : exec (.dmake f) s = execDmake f s := rfl
theorem exec_dconst (f : Fields) (s : State) : exec (.dconst f) s = execDconst f s := rfl
theorem exec_dcond (f : Fields) (s : State) : exec (.dcond f) s = execDcond f s := rfl
theorem exec_dtag (f : Fields) (s : State) : exec (.dtag f) s = execDtag f s := rfl
theorem exec_dalign (f : Fields) (s : State) : exec (.dalign f) s = execDalign f s := rfl
theorem exec_dmix (f : Fields) (s : State) : exec (.dmix f) s = execDmix f s := rfl

/-- A register written under a tag takes a fresh lineage where the tag is not 0, and lineage 0 otherwise. -/
theorem putD_tagged (o : LaneOut) (d : Operand) (r : Nat → Nat → DReg) (tag : Nat) :
    (if tag = 0 then (o, 0) else o.fresh).1.putD d (r tag (if tag = 0 then (o, 0) else o.fresh).2)
      = if tag = 0 then o.putD d (r 0 0) else o.fresh.1.putD d (r tag o.fresh.2) := by
  by_cases h : tag = 0
  · simp only [h, if_true]
  · simp only [h, if_false]

/-- Settles O23, by the course of an instruction on registers. -/
theorem distributionMakingResults : Obligations.DistributionMakingResults := by
  unfold Obligations.DistributionMakingResults
  intro f s c p x ks a b h o
  have ho : ∀ k, (o k).NoUniform := fun k => .start ..
  refine ⟨fun vs ws tag hk => ?dmake, fun w himm hcheck => ?dconst, fun hreadA => ?views⟩
  case dmake =>
    intro w n out
    rw [exec_dmake]
    refine distOp_noUniform h (fun k hmem => ?_) (fun k => ?_)
    · obtain ⟨hcheck, hreadA, hreadB, hreadC⟩ := hk k hmem
      refine ⟨hcheck, ?_⟩
      have hthread : (n k).1 = if total (w k) = 32768 then o k else { o k with th := (o k).th.orDst dWNORM } := apply_ite Prod.fst ..
      have hweights : (n k).2 = if total (w k) = 32768 then w k else norm (w k) (total (w k)) := apply_ite Prod.snd ..
      simp only [hreadA, hreadB, hreadC, out, hthread, hweights]
      exact congrArg Except.ok (putD_tagged _ f.dst (fun t lin => ⟨(vs k).map (·.toNat), _, t, lin, false⟩) _)
    · have hnorm : (n k).1.NoUniform := by
        simp only [n]
        split <;> exact ho k
      simp only [out]
      split <;> exact hnorm
  case dconst =>
    rw [exec_dconst]
    refine distOp_noUniform h (fun k hmem => ⟨hcheck k hmem, ?_⟩) (fun k => (ho k).putD _ _)
    rw [himm]
    rfl
  case views =>
    intro v n
    have hn : ∀ k, (n k).NoUniform := fun k => (ho k).noteViews _
    refine ⟨fun lo hi hk => ?dcond, fun tag hk => ?dtag, fun hreadB => ?two⟩
    case dcond =>
      intro m w
      rw [exec_dcond]
      refine distOp_noUniform h (fun k hmem => ?_) (fun k => ?_)
      · obtain ⟨hcheck, hreadB, hreadC⟩ := hk k hmem
        refine ⟨hcheck, ?_⟩
        simp only [Lane.dRead_eq _ (hreadA k hmem), hreadB, hreadC]
        by_cases hnone : total (w k) = 0
        · rw [if_pos hnone]
          exact if_pos hnone
        · rw [if_neg hnone]
          exact if_neg hnone
      · split <;> exact hn k
    case dtag =>
      rw [exec_dtag]
      refine distOp_noUniform h (fun k hmem => ?_) (fun k => ?_)
      · obtain ⟨hcheck, hreadB⟩ := hk k hmem
        refine ⟨hcheck, ?_⟩
        simp only [Lane.dRead_eq _ (hreadA k hmem), hreadB]
        exact congrArg Except.ok (putD_tagged (n k) f.dst (fun t lin => { v k with tag := t, lin := lin }) _)
      · split <;> exact hn k
    case two =>
      intro u n2
      have hn2 : ∀ k, (n2 k).NoUniform := fun k => (ho k).noteViews _
      refine ⟨fun hcheck => ?dalign, fun alpha hk => ?dmix⟩
      case dalign =>
        rw [exec_dalign]
        refine distOp_noUniform h (fun k hmem => ⟨hcheck k hmem, ?_⟩) (fun k => (hn2 k).putD _ _)
        simp only [Lane.dRead_eq _ (hreadA k hmem), Lane.dRead_eq _ (hreadB k hmem)]
        rfl
      case dmix =>
        intro z cs
        rw [exec_dmix]
        refine distOp_noUniform h (fun k hmem => ?_) (fun k => (hn2 k).fresh.putD _ _)
        obtain ⟨hcheck, hreadC⟩ := hk k hmem
        exact ⟨hcheck, by simp only [Lane.dRead_eq _ (hreadA k hmem), Lane.dRead_eq _ (hreadB k hmem), hreadC]; rfl⟩

/-! ## Extraction (R155 to R157) -/

theorem exec_dmom (f : Fields) (s : State) : exec (.dmom f) s = execDmom f s := rfl
theorem exec_dqnt (f : Fields) (s : State) : exec (.dqnt f) s = execDqnt f s := rfl
theorem exec_dcdf (f : Fields) (s : State) : exec (.dcdf f) s = execDcdf f s := rfl

/-- Settles O24, by the course of an instruction on registers. -/
theorem distributionExtractionResults : Obligations.DistributionExtractionResults := by
  unfold Obligations.DistributionExtractionResults
  intro f s c p x ks a y h hreadA fp
  refine ⟨fun hcheck => ?dmom, fun hk => ?scalar⟩
  case dmom =>
    intro out ha
    rw [exec_dmom]
    refine distOp_effect s f _ _ h (fun k hmem => ⟨hcheck k hmem, ?_⟩) ha
    simp only [Lane.dRead_eq _ (hreadA k hmem)]
    rfl
  case scalar =>
    intro qnt below cdf
    refine ⟨fun ha => ?dqnt, fun ha => ?dcdf⟩
    case dqnt =>
      rw [exec_dqnt]
      refine distOp_effect s f _ _ h (fun k hmem => ?_) ha
      obtain ⟨hcheck, hreadB⟩ := hk k hmem
      exact ⟨hcheck, by simp only [Lane.dRead_eq _ (hreadA k hmem), hreadB]; rfl⟩
    case dcdf =>
      rw [exec_dcdf]
      refine distOp_effect s f _ _ h (fun k hmem => ?_) ha
      obtain ⟨hcheck, hreadB⟩ := hk k hmem
      exact ⟨hcheck, by simp only [Lane.dRead_eq _ (hreadA k hmem), hreadB]; rfl⟩

end Sys2Proof.Machine
end

section
/-!
The obligation on writes of uniform registers and on the uses of a channel (R176, R178).
-/
namespace Sys2Proof.Machine

/-! ## Lanes that write a uniform register (R176) -/

/-- What R176 makes of lanes that all have a result is all that an instruction on registers depends on. -/
theorem State.execLanes_of_ok {s : State} {c p : Nat} {x : Pass} {g : Guard} {ks : List Nat} (h : Executes s c p x g ks) (dst : Nat)
    (reads : Bool) {compute : List Nat → Lane → LaneRes} {out : Nat → LaneOut}
    (hc : ∀ k ∈ ks, compute ks (x.lane c k) = .ok (out k)) {outs : List (Nat × LaneRes)}
    (ho : (ks.map (fun k => (k, (.ok (out k) : LaneRes)))).map (uniformRule x.hdr dst (ks.map (fun k => (k, (.ok (out k) : LaneRes))))) = outs) :
    s.execLanes g dst reads compute = .next
      ((((s.putThreads c (oks outs)).putUniform c (oks outs)).useChans c x reads (oks outs)).1.afterInstr c p
        (((s.putThreads c (oks outs)).putUniform c (oks outs)).useChans c x reads (oks outs)).2 (fails outs)) := by
  obtain ⟨hcur, hex, -⟩ := h
  have hraw : (s.executing c x g).map (fun k => (k, compute (s.executing c x g) (x.lane c k)))
      = ks.map (fun k => (k, (.ok (out k) : LaneRes))) := by
    rw [hex]
    exact List.map_congr_left fun k hk => by rw [hc k hk]
  simp only [State.execLanes, hcur, hraw, ho]

/-- Without CONV every lane that writes a uniform register faults. -/
theorem uniformRule_of_not_conv {hdr : DWord} (hconv : Hdr.conv hdr = false) (dst : Nat) {ks : List Nat} {out : Nat → LaneOut}
    (hg : ∀ k ∈ ks, (out k).g ≠ []) (raw : List (Nat × LaneRes)) :
    (ks.map (fun k => (k, (.ok (out k) : LaneRes)))).map (uniformRule hdr dst raw)
      = ks.map (fun k => (k, .error (.fault (opInfo 0x11 dst 0)))) := by
  rw [List.map_map]
  refine List.map_congr_left fun k hk => ?_
  simp [uniformRule, hconv, hg k hk]

/-- With CONV the lanes of a gang whose uniform results differ from its lowest lane's fault. -/
theorem uniformRule_of_conv {hdr : DWord} (hconv : Hdr.conv hdr = true) (dst : Nat) {ks : List Nat} {out : Nat → LaneOut} {gs k0 : Nat}
    (hgs : ∀ k ∈ ks, k / 32 = gs) (hk0 : ks.head? = some k0) (hg : ∀ k ∈ ks, (out k).g ≠ []) (htw : ∀ k ∈ ks, (out k).tw = none) :
    (ks.map (fun k => (k, (.ok (out k) : LaneRes)))).map (uniformRule hdr dst (ks.map (fun k => (k, (.ok (out k) : LaneRes)))))
      = ks.map (fun k => (k, if (out k).g = (out k0).g then .ok (out k) else .error (.fault (opInfo 0x11 dst 0)))) := by
  have hmem : k0 ∈ ks := List.mem_of_head? hk0
  have hlead : gangLead (ks.map (fun k => (k, (.ok (out k) : LaneRes)))) gs = some (k0, out k0) := by
    obtain ⟨r, rfl⟩ : ∃ r, ks = k0 :: r := List.head?_eq_some_iff.mp hk0
    simp [gangLead, hgs k0 hmem]
  rw [List.map_map]
  refine List.map_congr_left fun k hk => ?_
  simp only [Function.comp, uniformRule, hgs k hk, hlead, hconv, htw k hk, htw k0 hmem]
  by_cases heq : (out k).g = (out k0).g
  · simp [heq, hg k0 hmem]
  · simp [heq, Ne.symm heq, hg k hk]

/-- Of lanes that a test lets have their results, those are kept and the others leave. -/
theorem oks_split (ks : List Nat) (out : Nat → LaneOut) (P : Nat → Prop) [DecidablePred P] (e : LaneFail) :
    oks (ks.map (fun k => (k, (if P k then .ok (out k) else .error e : LaneRes)))) = results (ks.filter (fun k => P k)) out := by
  induction ks with
  | nil => rfl
  | cons k r ih =>
    by_cases h : P k <;> simpa [oks, results, h, List.filterMap_map] using ih

theorem fails_split (ks : List Nat) (out : Nat → LaneOut) (P : Nat → Prop) [DecidablePred P] (e : LaneFail) :
    fails (ks.map (fun k => (k, (if P k then .ok (out k) else .error e : LaneRes)))) = (ks.filter (fun k => ¬ P k)).map (fun k => (k, e)) := by
  induction ks with
  | nil => rfl
  | cons k r ih =>
    by_cases h : P k <;> simpa [fails, h, List.filterMap_map] using ih

/-! ## A move to a uniform register (R86, R176) -/

/-- The result of a lane that moves a word to a uniform register. -/
theorem IntResult_g {s : State} {f : Fields} {n : BitVec 6} (hd : f.dst = .g n) (ht : f.ty.isPair = false) (l : Lane) (a : Nat) :
    IntResult s f l a = { l.start s f with g := [(n.toNat, BitVec.ofInt 32 (f.ty.val a))] } := by
  simp only [IntResult, LaneOut.putInt, ht, hd, LaneOut.put, Lane.start_g]
  rfl

theorem opInfo_toSpec_g {o : Operand} {n : BitVec 6} (h : o = .g n) :
    opInfo 0x11 o.toSpec.toNat 0 = ⟨0x11, BitVec.ofNat 32 (0x100 + n.toNat), 0⟩ := by
  have hspec : (Operand.g n).toSpec.toNat = 0x100 + n.toNat := by
    have := n.isLt
    simp only [Operand.toSpec, BitVec.toNat_ofNat]
    omega
  rw [h, opInfo, hspec]
  rfl

/-- No source of the instruction is the cycle counter, so it latches nothing (R59). -/
theorem Lane.start_of_no_clk {f : Fields} (h : ∀ o ∈ [f.sa, f.sb, f.sc], o ≠ .special 10) (s : State) (l : Lane) :
    l.start s f = { th := l.thr s } := by
  simp only [List.mem_cons, List.not_mem_nil, or_false, forall_eq_or_imp, forall_eq] at h
  obtain ⟨ha, hb, hc⟩ := h
  simp [Lane.start, ha, hb, hc]

theorem Fields.not_readsChannel {f : Fields} (h : ∀ o ∈ [f.sa, f.sb, f.sc], ∀ q, o ≠ .q q) : f.readsChannel = false := by
  simp only [List.mem_cons, List.not_mem_nil, or_false, forall_eq_or_imp, forall_eq] at h
  obtain ⟨ha, hb, hc⟩ := h
  unfold Fields.readsChannel
  split
  · next h => exact absurd h (ha _)
  · next h _ => exact absurd h (hb _)
  · next h _ _ => exact absurd h (hc _)
  · rfl

/-- What `mov` computes for a lane. -/
def Lane.moved (s : State) (f : Fields) (l : Lane) : LaneRes := do
  l.check s [(pSA, .src f.ty.isPair, f.sa), (pDST, .dst f.ty.isPair, f.dst)]
  let a ← l.readInt s pSA f.sa f.ty
  .ok ((l.start s f).putInt (l.regs s) f.dst f.ty a)

theorem exec_mov (f : Fields) (s : State) :
    exec (.mov f) s = s.execLanes f.guard f.dst.toSpec.toNat f.readsChannel (fun _ l => l.moved s f) := rfl

theorem Lane.moved_eq {s : State} {f : Fields} {l : Lane} {a : Nat} (hadm : AdmitsUn s f l) (hread : ReadsA s f l a) :
    l.moved s f = .ok (IntResult s f l a) := by
  unfold AdmitsUn at hadm
  unfold ReadsA at hread
  simp only [Lane.moved, hadm, hread, bind, Except.bind]
  rfl

/-- Threads that are written as they are stand. -/
theorem State.putThreads_same {s : State} {c : Nat} {ks : List Nat} {out : Nat → LaneOut} (h : ∀ k ∈ ks, (out k).th = s.thr c k) (k : Nat) :
    (s.putThreads c (results ks out)).thr c k = s.thr c k := by
  by_cases hk : k ∈ ks
  · rw [State.putThreads_thr s c ks out k hk, h k hk]
  · have hlook := State.putThreads_look s c ks out (threadKey c k) (fun j hj he => by
      obtain rfl : k = j := by simpa [threadKey] using he
      exact hk hj)
    simp only [State.thr, Tbl.at, hlook]

/-! ## The uses of a channel (R178) -/

section
variable (s : State) (c : Nat) (x : Pass) (reads : Bool) {outs : List (Nat × LaneOut)} {gs : Nat} (hne : outs ≠ [])
  (hgs : ∀ o ∈ outs, o.1 / 32 = gs)

include hne hgs in
/-- An instruction of one gang uses the reservations of that gang alone. -/
theorem State.useChans_of_one_gang : s.useChans c x reads outs = useChan c x.hdr reads outs (s, x) gs := by
  rw [State.useChans, gangsOf_one (by simpa using hne) (by simpa using hgs)]
  rfl

/-- Some lane of the gang pushes just when the gang has words to fill its position with. -/
theorem pushed_eq_nil_iff : (∀ o ∈ outs, o.1 / 32 = gs) → (pushed gs outs = [] ↔ ∀ o ∈ outs, o.2.push = none) := by
  intro hgs
  simp only [pushed, List.filterMap_eq_nil_iff]
  exact forall₂_congr fun o ho => by simp [hgs o ho]

/-- The word under a lane's number is the one that the lane pushes. -/
theorem look_pushed {outs : List (Nat × LaneOut)} (hgs : ∀ o ∈ outs, o.1 / 32 = gs) (hnd : (outs.map (·.1)).Nodup) (i : Nat) :
    Tbl.look (pushed gs outs) i = (outs.find? (fun o => o.1 % 32 == i)).bind (fun o => o.2.push) := by
  induction outs with
  | nil => rfl
  | cons o r ih =>
    have hr := ih (fun e he => hgs e (List.mem_cons_of_mem _ he)) (List.nodup_cons.mp hnd).2
    have ho : o.1 / 32 = gs := hgs o List.mem_cons_self
    simp only [pushed] at hr
    by_cases hi : o.1 % 32 = i
    · have hnone : r.find? (fun o => o.1 % 32 == i) = none := by
        refine List.find?_eq_none.mpr fun e he heq => (List.nodup_cons.mp hnd).1 (List.mem_map.mpr ⟨e, he, ?_⟩)
        have hsame : e.1 / 32 = gs := hgs e (List.mem_cons_of_mem _ he)
        have hmod : e.1 % 32 = i := by simpa using heq
        show e.1 = o.1
        omega
      cases hp : o.2.push with
      | none => simp [pushed, ho, hp, hr, hi, hnone]
      | some w => simp [pushed, ho, hp, hi, Tbl.look]
    · cases hp : o.2.push with
      | none => simp [pushed, ho, hp, hr, hi]
      | some w => simp [pushed, ho, hp, hr, hi, Tbl.look]

end

/-- A read takes the reserved entry out of the channel that the header reads, and nothing else. -/
theorem State.popChan_fifo (s : State) (m : Nat) (hdr : DWord) (reads : Bool) (rd : Option Nat) (n : Nat) :
    (((s.popChan m hdr reads rd).team m).chan n).fifo
      = ((s.team m).chan n).fifo.filter (fun e => !(reads && rd == some e.id && n == (Hdr.rch hdr).toNat)) := by
  unfold State.popChan
  split
  · next id =>
    rw [State.modTeam_eq, State.team_setTeam_self, Team.chan_setChan]
    by_cases hn : n = (Hdr.rch hdr).toNat
    · subst hn
      rw [if_pos rfl]
      exact List.filter_congr fun e _ => by simp [bne, BEq.comm]
    · rw [if_neg hn]
      exact (List.filter_eq_self.mpr fun e _ => by simp [hn]).symm
  · next h =>
    refine (List.filter_eq_self.mpr fun e _ => ?_).symm
    cases reads with
    | false => rfl
    | true => cases rd with
      | none => rfl
      | some id => exact absurd rfl (h id rfl)

theorem State.popChan_team (s : State) (m : Nat) (hdr : DWord) (reads : Bool) (rd : Option Nat) {q : Nat} (h : q ≠ m) :
    (s.popChan m hdr reads rd).team q = s.team q := by
  unfold State.popChan
  split
  · rw [State.modTeam_eq, State.team_setTeam, if_neg h]
  · rfl

/-- The words that a gang pushes fill the reserved position of the channel that the header writes, and nothing else. -/
theorem State.fillChan_fifo (s : State) (m : Nat) (hdr : DWord) (words : Tbl Word) (wr : Option Nat) (n : Nat) :
    (((s.fillChan m hdr words wr).team m).chan n).fifo
      = ((s.team m).chan n).fifo.map (fun e =>
          if words ≠ [] ∧ wr = some e.id ∧ n = (Hdr.wch hdr).toNat then { e with st := .filled, data := words } else e) := by
  unfold State.fillChan
  split
  · next w ws id =>
    rw [State.modTeam_eq, State.team_setTeam_self, Team.chan_setChan]
    by_cases hn : n = (Hdr.wch hdr).toNat
    · subst hn
      rw [if_pos rfl]
      exact List.map_congr_left fun e _ => by simp [eq_comm (a := id)]
    · simp [hn]
  · next h =>
    refine (List.map_id'' (fun e => if_neg ?_) _).symm
    rintro ⟨hw, rfl, -⟩
    obtain ⟨w, ws, rfl⟩ := List.exists_cons_of_ne_nil hw
    exact h _ _ _ rfl rfl

theorem State.fillChan_team (s : State) (m : Nat) (hdr : DWord) (words : Tbl Word) (wr : Option Nat) {q : Nat} (h : q ≠ m) :
    (s.fillChan m hdr words wr).team q = s.team q := by
  unfold State.fillChan
  split
  · rw [State.modTeam_eq, State.team_setTeam, if_neg h]
  · rfl

/-- The gang's reservation after an instruction that used it. -/
theorem Pass.look_useResv {x : Pass} {gs : Nat} {r : Resv} (hr : Tbl.look x.resv gs = some r) (rd wr : Bool) :
    Tbl.look (x.useResv gs rd wr).resv gs = some { r with rdDone := r.rdDone || rd, wrDone := r.wrDone || wr } := by
  simp [Pass.useResv, Tbl.look_adjust, hr]

/-- An instruction that neither reads nor pushes leaves every reservation as it was. -/
theorem Pass.look_useResv_unused (x : Pass) (gs n : Nat) : Tbl.look (x.useResv gs false false).resv n = Tbl.look x.resv n := by
  simp only [Pass.useResv, Tbl.look_adjust, Bool.or_false]
  split
  · next h => rw [h]; cases Tbl.look x.resv gs <;> rfl
  · rfl

/-! ## The obligation -/

section
variable {f : Fields} {s : State} {c p : Nat} {x : Pass} {ks : List Nat} {gs : Nat} {n : BitVec 6} {a : Nat → Nat}
  (h : Executes s c p x f.guard ks) (hgs : ∀ k ∈ ks, k / 32 = gs) (hd : f.dst = .g n) (ht : f.ty.isPair = false)
  (hk : ∀ k ∈ ks, AdmitsUn s f (x.lane c k) ∧ ReadsA s f (x.lane c k) (a k))

include h hd ht hk in
theorem exec_mov_g_of_not_conv (hconv : Hdr.conv x.hdr = false) : exec (.mov f) s = .next (s.afterInstr c p x
    (ks.map (fun k => (k, .fault ⟨0x11, BitVec.ofNat 32 (0x100 + n.toNat), 0⟩)))) := by
  have hspec := opInfo_toSpec_g hd
  have hrule := uniformRule_of_not_conv (ks := ks) (out := fun k => IntResult s f (x.lane c k) (a k)) hconv f.dst.toSpec.toNat
    (fun k _ => by rw [IntResult_g hd ht]; simp)
  rw [exec_mov, State.execLanes_of_ok h _ _ (fun k hmem => Lane.moved_eq (hk k hmem).1 (hk k hmem).2) (hrule _), oks_errors,
    fails_errors, hspec]
  rfl

include h hgs hd ht hk in
theorem exec_mov_g_of_conv (hconv : Hdr.conv x.hdr = true)
    (hsrc : ∀ o ∈ [f.sa, f.sb, f.sc], o ≠ .special 10 ∧ ∀ q, o ≠ .q q) {k0 : Nat} (hk0 : ks.head? = some k0) :
    let w := fun k => BitVec.ofInt 32 (f.ty.val (a k))
    ∃ (t : State) (y : Pass), (t.gang c gs).readG n.toNat = w k0 ∧ (∀ j, j ≠ n.toNat → (t.gang c gs).readG j = (s.gang c gs).readG j)
      ∧ t = { s with threads := t.threads, gangs := t.gangs } ∧ (∀ k, t.thr c k = s.thr c k)
      ∧ y = { x with resv := y.resv } ∧ (∀ g, Tbl.look y.resv g = Tbl.look x.resv g)
      ∧ exec (.mov f) s = .next (t.afterInstr c p y ((ks.filter (fun k => w k ≠ w k0)).map
          (fun k => (k, .fault ⟨0x11, BitVec.ofNat 32 (0x100 + n.toNat), 0⟩)))) := by
  intro w
  have hmem0 : k0 ∈ ks := List.mem_of_head? hk0
  set out : Nat → LaneOut := fun k => { th := s.thr c k, g := [(n.toNat, w k)] } with hout
  have hres : ∀ k, IntResult s f (x.lane c k) (a k) = out k := fun k => by
    rw [IntResult_g hd ht, Lane.start_of_no_clk fun o ho => (hsrc o ho).1]
    rfl
  have hreads : f.readsChannel = false := Fields.not_readsChannel fun o ho => (hsrc o ho).2
  have hspec := opInfo_toSpec_g hd
  have hrule := uniformRule_of_conv (out := out) hconv f.dst.toSpec.toNat hgs hk0 (fun k _ => by simp [hout]) (fun _ _ => rfl)
  have hrun := State.execLanes_of_ok h f.dst.toSpec.toNat f.readsChannel
    (compute := fun _ l => l.moved s f) (fun k hmem => (Lane.moved_eq (hk k hmem).1 (hk k hmem).2).trans (by rw [hres])) hrule
  have hsame : ∀ k, (out k).g = (out k0).g ↔ w k = w k0 := fun k => by simp [hout]
  simp only [hsame] at hrun
  rw [oks_split, fails_split, hspec, hreads] at hrun
  set js := ks.filter (fun k => w k = w k0) with hjs
  have hj0 : k0 ∈ js := List.mem_filter.mpr ⟨hmem0, by simp⟩
  have hjgs : ∀ j ∈ js, j / 32 = gs := fun j hj => hgs j (List.mem_filter.mp hj).1
  have hjw : ∀ j ∈ js, w j = w k0 := fun j hj => by simpa using (List.mem_filter.mp hj).2
  set u := s.putThreads c (results js out) with hu
  have hugang : ∀ d g, u.gang d g = s.gang d g := fun d g => by rw [hu, State.putThreads_frame]; rfl
  obtain ⟨-, -, hwrote⟩ := State.putUniform_gang u c js out gs (out k0) (fun j hj _ => by
    simp only [hout, hjw j hj, and_self])
  have hregs := (hwrote ⟨k0, hj0, hjgs k0 hj0⟩).1
  have hone := State.useChans_of_one_gang (u.putUniform c (results js out)) c x false (outs := results js out) (gs := gs)
    (by simpa [results] using List.ne_nil_of_mem hj0) (by simpa [results] using hjgs)
  have hsilent : ∀ o ∈ results js out, o.2.push = none := by simp [results, hout]
  have hempty : pushed gs (results js out) = [] := by
    rw [pushed_eq_nil_iff (by simpa [results] using hjgs)]
    exact hsilent
  rw [State.useChans_fst_of_silent _ _ _ hsilent] at hrun
  refine ⟨u.putUniform c (results js out), ((u.putUniform c (results js out)).useChans c x false (results js out)).2, ?_, ?_, ?_, ?_,
    (State.useChans_slots _ c x false _).2.2, ?_, ?_⟩
  · simp only [Gang.readG, Tbl.at, hregs]
    simp [putRegs, hout]
  · intro j hj
    simp only [Gang.readG, Tbl.at, hregs, hugang]
    simp [putRegs, hout, Tbl.look_put_ne _ _ hj]
  · rw [State.putUniform_frame, hu, State.putThreads_frame]
  · intro k
    rw [State.putUniform_frame]
    exact State.putThreads_same (fun j _ => rfl) k
  · intro g
    rw [hone]
    simp only [useChan, hempty, Bool.false_and, List.isEmpty_nil, Bool.not_true]
    exact x.look_useResv_unused gs g
  · rw [exec_mov, hreads, hrun]

end

/-- The uses of the channel by an instruction of one gang. -/
theorem useChans_of_gang (s : State) (c : Nat) (x : Pass) (reads : Bool) {outs : List (Nat × LaneOut)} {gs : Nat} {r : Resv}
    (hne : outs ≠ []) (hgs : ∀ o ∈ outs, o.1 / 32 = gs) (hnd : (outs.map (·.1)).Nodup) (hr : Tbl.look x.resv gs = some r) :
    let m := (s.gang c gs).team
    let t := s.useChans c x reads outs
    let before := fun n => ((s.team m).chan n).fifo
    let after := fun n => ((t.1.team m).chan n).fifo
    let pushes := ∃ o ∈ outs, o.2.push.isSome = true
    (∀ id e, r.rd = some id → reads = true → e ∈ after (Hdr.rch x.hdr).toNat → e.id ≠ id)
    ∧ (∀ n e, e ∈ before n → r.rd ≠ some e.id → r.wr ≠ some e.id → e ∈ after n)
    ∧ (∀ id e, r.wr = some id → pushes → e ∈ after (Hdr.wch x.hdr).toNat → e.id = id → e.st = .filled
        ∧ ∀ i < 32, Tbl.at e.data i 0 = ((outs.find? (fun o => o.1 % 32 == i)).bind (fun o => o.2.push)).getD 0)
    ∧ (∀ n, n ≠ (Hdr.rch x.hdr).toNat → n ≠ (Hdr.wch x.hdr).toNat → after n = before n)
    ∧ (∀ q, q ≠ m → t.1.team q = s.team q)
    ∧ t.1 = { s with teams := t.1.teams }
    ∧ t.2 = { x with resv := t.2.resv }
    ∧ Tbl.look t.2.resv gs = some { r with
        rdDone := r.rdDone || (reads && r.rd.isSome)
        wrDone := r.wrDone || (outs.any (fun o => o.2.push.isSome)) } := by
  intro m t before after pushes
  have hat : Tbl.at x.resv gs {} = r := by simp [Tbl.at, hr]
  have ht : t = (((s.popChan m x.hdr reads r.rd).fillChan m x.hdr (pushed gs outs) r.wr),
      x.useResv gs (reads && r.rd.isSome) (!(pushed gs outs).isEmpty)) := by
    show s.useChans c x reads outs = _
    rw [State.useChans_of_one_gang s c x reads hne hgs, useChan, hat]
  have hpush : (!(pushed gs outs).isEmpty) = outs.any (fun o => o.2.push.isSome) := by
    rw [Bool.eq_iff_iff]
    simp [pushed_eq_nil_iff hgs, Option.ne_none_iff_isSome]
  have hafter : ∀ n, after n = ((before n).filter (fun e => !(reads && r.rd == some e.id && n == (Hdr.rch x.hdr).toNat))).map (fun e =>
      if pushed gs outs ≠ [] ∧ r.wr = some e.id ∧ n = (Hdr.wch x.hdr).toNat then { e with st := .filled, data := pushed gs outs } else e) := by
    intro n
    show ((t.1.team m).chan n).fifo = _
    rw [ht, State.fillChan_fifo, State.popChan_fifo]
  refine ⟨?_, ?_, ?_, ?_, ?_, s.useChans_frame c x reads outs, (s.useChans_slots c x reads outs).2.2, ?_⟩
  · intro id e hrd hreads he
    rw [hafter] at he
    obtain ⟨d, hd, rfl⟩ := List.mem_map.mp he
    have hne : d.id ≠ id := fun h => by simpa [hrd, hreads, h] using (List.mem_filter.mp hd).2
    split <;> exact hne
  · intro n e he hrd hwr
    rw [hafter]
    exact List.mem_map.mpr ⟨e, List.mem_filter.mpr ⟨he, by simp [hrd]⟩, if_neg fun hc => hwr hc.2.1⟩
  · rintro id e hwr ⟨o, ho, hsome⟩ he hid
    have hwords : pushed gs outs ≠ [] := fun hnil => by
      rw [(pushed_eq_nil_iff hgs).mp hnil o ho] at hsome
      exact absurd hsome (by simp)
    rw [hafter] at he
    obtain ⟨d, -, rfl⟩ := List.mem_map.mp he
    have hdid : d.id = id := by rw [← hid]; split <;> rfl
    rw [if_pos ⟨hwords, hdid ▸ hwr, rfl⟩]
    exact ⟨rfl, fun i _ => by rw [Tbl.at, look_pushed hgs hnd]⟩
  · intro n hrch hwch
    rw [hafter]
    simp [hrch, hwch]
  · intro q hq
    rw [ht]
    exact (State.fillChan_team _ _ _ _ _ hq).trans (State.popChan_team _ _ _ _ _ hq)
  · rw [ht, ← hpush]
    exact Pass.look_useResv hr _ _

/-- Settles O28: the rule of R176 on the lanes of a move, and the pop and the fill of R178 for one gang. -/
theorem uniformWritesAndChannelUses : Obligations.UniformWritesAndChannelUses := by
  unfold Obligations.UniformWritesAndChannelUses
  refine ⟨?_, fun s c x reads outs gs r hne hgs hnd hr => useChans_of_gang s c x reads hne hgs hnd hr⟩
  intro f s c p x ks gs n a h hgs hd ht hk
  exact ⟨exec_mov_g_of_not_conv h hd ht hk, fun hconv hsrc k0 hk0 => exec_mov_g_of_conv h hgs hd ht hk hconv hsrc hk0⟩

end Sys2Proof.Machine
end

section
/-!
What leaving and taking cores changes beside the teams with their gangs and threads (R244, R255, R267, R306, R327, R358): bytes below the
L1 portions, cores, dies, copies, and fields of contexts that say nothing of how a context runs or what is saved of it.
-/
namespace Sys2Proof.Machine

/-- Other teams, gangs and threads. -/
def State.withTeams (s : State) (teams : Tbl Team) (gangs : Tbl Gang) (threads : Tbl Thread) : State :=
  { s with teams := teams, gangs := gangs, threads := threads }

/-- Teams, gangs, threads and grids stay as they are, and so does what a context saves and how it runs. -/
structure BesideTeams (s t : State) : Prop where
  rest : t = { s with
    mem := t.mem, badWords := t.badWords, lineKey := t.lineKey, dirtyPages := t.dirtyPages, cores := t.cores, dies := t.dies
    fused := t.fused, copies := t.copies, ctxs := t.ctxs, agenda := t.agenda, vcps := t.vcps, queues := t.queues }
  ctx : ∀ n, t.ctx n = { s.ctx n with
    beats := (t.ctx n).beats, lvwait := (t.ctx n).lvwait, heldCore := (t.ctx n).heldCore, ncHeld := (t.ctx n).ncHeld
    ncFull := (t.ctx n).ncFull, savedWd := (t.ctx n).savedWd, savedAcc := (t.ctx n).savedAcc }
  queues : s.vcpPages = none → t.queues = s.queues

namespace BesideTeams
variable {s t u : State}

theorem refl (s : State) : BesideTeams s s := ⟨rfl, fun _ => rfl, fun _ => rfl⟩

theorem pages (h : BesideTeams s t) : t.vcpPages = s.vcpPages := by rw [h.rest]

theorem trans (h : BesideTeams s t) (g : BesideTeams t u) : BesideTeams s u := by
  refine ⟨by rw [g.rest, h.rest], fun n => by rw [g.ctx n, h.ctx n], fun e => ?_⟩
  exact (g.queues (h.pages.trans e)).trans (h.queues e)

theorem fold {α : Type} {f : State → α → State} (h : ∀ s a, BesideTeams s (f s a)) (l : List α) (s : State) :
    BesideTeams s (l.foldl f s) := by
  induction l generalizing s with
  | nil => exact .refl s
  | cons a r ih => exact (h s a).trans (ih _)

/-- Cores, dies, copies, the clusters' L1 mode and the agenda change. -/
theorem of (s : State) (cores : Tbl Core) (dies : Tbl Die) (fused : List Nat) (copies : Tbl Copy) (agenda : List Act) :
    BesideTeams s { s with cores := cores, dies := dies, fused := fused, copies := copies, agenda := agenda } :=
  ⟨rfl, fun _ => rfl, fun _ => rfl⟩

theorem modCore (s : State) (c : Nat) (f : Core → Core) : BesideTeams s (s.modCore c f) := of s _ _ _ _ _

theorem modDie (s : State) (d : Nat) (f : Die → Die) : BesideTeams s (s.modDie d f) := of s _ _ _ _ _

theorem due (s : State) (i : Instr) : BesideTeams s (s.due i) := of s _ _ _ _ _

theorem modCtx (s : State) (c : Nat) (f : Ctx → Ctx)
    (h : f (s.ctx c) = { s.ctx c with
      beats := (f (s.ctx c)).beats, lvwait := (f (s.ctx c)).lvwait, heldCore := (f (s.ctx c)).heldCore, ncHeld := (f (s.ctx c)).ncHeld
      ncFull := (f (s.ctx c)).ncFull, savedWd := (f (s.ctx c)).savedWd, savedAcc := (f (s.ctx c)).savedAcc }) :
    BesideTeams s (s.modCtx c f) := by
  refine ⟨rfl, fun n => ?_, fun _ => rfl⟩
  rw [State.modCtx_eq, State.ctx_setCtx]
  split
  · next e => subst e; exact h
  · rfl

theorem of_bytes (h : BytesChange s t) (g : MemSide s t) : BesideTeams s t :=
  ⟨by rw [h], fun n => by rw [g.ctx n], fun e => (g.unplaced e).2⟩

/-- The same change of the teams, gangs and threads, before it and after it. -/
theorem under (h : BesideTeams s t) (teams : Tbl Team) (gangs : Tbl Gang) (threads : Tbl Thread) :
    BesideTeams (s.withTeams teams gangs threads) (t.withTeams teams gangs threads) :=
  ⟨by rw [h.rest]; rfl, h.ctx, h.queues⟩

theorem mapThreads (h : BesideTeams s t) (f : Tbl Thread → Tbl Thread) :
    BesideTeams { s with threads := f s.threads } { t with threads := f t.threads } :=
  ⟨by rw [h.rest], h.ctx, h.queues⟩

theorem teams (h : BesideTeams s t) : t.teams = s.teams := by rw [h.rest]
theorem gangs (h : BesideTeams s t) : t.gangs = s.gangs := by rw [h.rest]
theorem threads (h : BesideTeams s t) : t.threads = s.threads := by rw [h.rest]
theorem grids (h : BesideTeams s t) : t.grids = s.grids := by rw [h.rest]
theorem saved (h : BesideTeams s t) (n : Nat) : (t.ctx n).saved = (s.ctx n).saved := by rw [h.ctx n]
theorem run (h : BesideTeams s t) (n : Nat) : (t.ctx n).run = (s.ctx n).run := by rw [h.ctx n]
theorem part (h : BesideTeams s t) (n : Nat) : (t.ctx n).part = (s.ctx n).part := by rw [h.ctx n]
theorem grid (h : BesideTeams s t) (g : Nat) : t.grid g = s.grid g := by rw [State.grid, h.grids, State.grid]
theorem team (h : BesideTeams s t) (m : Nat) : t.team m = s.team m := by rw [State.team, h.teams, State.team]
theorem gang (h : BesideTeams s t) (c g : Nat) : t.gang c g = s.gang c g := by rw [State.gang, h.gangs, State.gang]
theorem thr (h : BesideTeams s t) (c k : Nat) : t.thr c k = s.thr c k := by rw [State.thr, h.threads, State.thr]
theorem teamThreads (h : BesideTeams s t) (id : Nat) : t.teamThreads id = s.teamThreads id := by
  rw [State.teamThreads, h.threads, h.gangs, State.teamThreads]

theorem leaves (h : BesideTeams s t) : Leaves s t := by
  unfold Leaves
  rw [h.rest]

end BesideTeams

theorem Leaves.trans {s t u : State} (h : Leaves s t) (g : Leaves t u) : Leaves s u := by
  unfold Leaves at *
  rw [g, h]

/-! ## The L1 portions (R244, R255, R269) -/

theorem State.writeBack_beside (s : State) (c key : Nat) : BesideTeams s (s.writeBack c key) := by
  unfold State.writeBack
  split
  · exact .refl s
  · next l _ =>
    split
    · exact .refl s
    · have h := (s.putMasked_bytes l.key l.line l.data l.dirty).trans (State.clearBad_bytes _ l.line l.dirty)
      have g := (s.putMasked_side l.key l.line l.data l.dirty).trans (State.clearBad_side _ l.line l.dirty)
      exact (BesideTeams.of_bytes h g).trans (.modCore _ _ _)

theorem State.evictL1_beside (s : State) (c key : Nat) : BesideTeams s (s.evictL1 c key) := by
  unfold State.evictL1
  exact (s.writeBack_beside c key).trans (.modCore _ _ _)

theorem State.writeBackAll_beside (s : State) (c : Nat) : BesideTeams s (s.writeBackAll c) :=
  .fold (fun s _ => s.writeBack_beside _ _) _ s

theorem State.flushL1_beside (s : State) (c : Nat) (const : Bool) : BesideTeams s (s.flushL1 c const) := by
  unfold State.flushL1
  exact (s.writeBackAll_beside c).trans (.modCore _ _ _)

theorem State.flushPortions_beside (s : State) (c : Nat) (const : Bool) : BesideTeams s (s.flushPortions c const) :=
  .fold (fun s _ => s.flushL1_beside _ _) _ s

theorem State.l1Trim_beside (s : State) (c room n : Nat) : BesideTeams s (s.l1Trim c room n) := by
  induction n generalizing s with
  | zero => exact .refl s
  | succ n ih =>
    unfold State.l1Trim
    split
    · exact .refl s
    · split
      · exact .refl s
      · exact (s.evictL1_beside _ _).trans (ih _)

theorem State.scrub_beside (s : State) (c : Nat) : BesideTeams s (s.scrub c) := by
  unfold State.scrub
  exact (s.flushL1_beside c true).trans (.modCore _ _ _)

theorem State.scrubEmpty_beside (s : State) (cores : List Nat) : BesideTeams s (s.scrubEmpty cores) := by
  refine .fold (fun s c => ?_) _ s
  split
  · exact s.scrub_beside c
  · exact .refl s

theorem State.refuse_beside (s : State) (cluster : Nat) : BesideTeams s (s.refuse cluster) := by
  unfold State.refuse
  dsimp only
  split
  · exact .refl s
  · exact (BesideTeams.fold (fun s c => s.flushL1_beside c true) _ s).trans (.of _ _ _ _ _ _)

/-! ## Contexts and dies (R220, R306, R327, R344) -/

theorem State.refreshHeld_beside (s : State) (ctx : Nat) : BesideTeams s (s.refreshHeld ctx) := by
  unfold State.refreshHeld
  exact .modCtx s _ _ rfl

theorem State.keepWd_beside (s : State) (ctx : Nat) : BesideTeams s (s.keepWd ctx) := by
  unfold State.keepWd
  exact .modCtx s _ _ rfl

theorem State.keepImages_beside (s : State) (ctx : Nat) (cores : List Nat) : BesideTeams s (s.keepImages ctx cores) := by
  refine .fold (fun s e => ?_) _ s
  dsimp only
  split
  · exact .refl s
  · exact .modCtx s _ _ rfl

theorem State.addWait_beside (s : State) (r : LeaveReq) : BesideTeams s (s.addWait r) := by
  unfold State.addWait
  exact .modCtx s _ _ rfl

theorem State.dropRequest_beside (s : State) (d id : Nat) : BesideTeams s (s.dropRequest d id) := by
  unfold State.dropRequest
  exact (BesideTeams.fold (fun s r => s.addWait_beside r) _ s).trans (.modDie _ _ _)

theorem State.releaseLeave_beside (s : State) (d id : Nat) : BesideTeams s (s.releaseLeave d id) := by
  unfold State.releaseLeave
  split
  · exact .refl s
  · exact (BesideTeams.modDie s _ _).trans (.due _ _)

theorem State.withdrawOps_beside (s : State) (id : Nat) : BesideTeams s (s.withdrawOps id) := by
  refine (BesideTeams.fold (fun s (o : Nat × Nat) => ?_) _ s).trans (.of _ _ _ _ _ _)
  exact (s.dropRequest_beside (dieOf o.1) o.2).trans (State.releaseLeave_beside _ _ _)

/-! ## Events that follow -/

namespace Follows
variable {s t u : State}

theorem refl (s : State) : Follows s s := ⟨[], by rw [List.append_nil]⟩

theorem trans (h : Follows s t) (g : Follows t u) : Follows s u := by
  obtain ⟨l, rfl⟩ := h
  obtain ⟨m, rfl⟩ := g
  exact ⟨l ++ m, by rw [List.append_assoc]⟩

theorem fold {α : Type} {f : State → α → State} (h : ∀ s a, Follows s (f s a)) (l : List α) (s : State) : Follows s (l.foldl f s) := by
  induction l generalizing s with
  | nil => exact .refl s
  | cons a r ih => exact (h s a).trans (ih _)

theorem due (s : State) (i : Instr) : Follows s (s.due i) := ⟨[.event i], rfl⟩

theorem beside (h : Follows s t) : BesideTeams s t := by
  obtain ⟨l, rfl⟩ := h
  exact .of s _ _ _ _ _

theorem agenda (h : Follows s t) : t = { s with agenda := t.agenda } := by
  obtain ⟨l, rfl⟩ := h
  rfl

end Follows

theorem State.wakeHead_follows (s : State) (c : Nat) : Follows s (s.wakeHead c) := by
  unfold State.wakeHead
  split
  · exact .due s _
  · exact .refl s

theorem State.wakePlace_follows (s : State) : Follows s s.wakePlace := by
  unfold State.wakePlace
  split
  · exact .due s _
  · exact .refl s

theorem State.wakeFront_follows (s : State) : Follows s s.wakeFront := by
  unfold State.wakeFront
  split
  · exact .due s _
  · exact .refl s

theorem State.wakeSignals_follows (s : State) : Follows s s.wakeSignals := .fold (fun s _ => .due s _) _ s

/-! ## A team leaves its cores (R330, R349) -/

/-- A team goes with its gangs and threads. -/
def State.withoutTeam (s : State) (id : Nat) : State :=
  s.withTeams (Tbl.drop s.teams id) (s.gangs.filter (fun e => e.2.team != id))
    (s.threads.filter (fun e => !(s.teamThreads id).contains e.1))

theorem BesideTeams.withoutTeam {s t : State} (h : BesideTeams s t) (id : Nat) : BesideTeams (s.withoutTeam id) (t.withoutTeam id) := by
  unfold State.withoutTeam
  rw [h.teams, h.gangs, h.threads, h.teamThreads]
  exact h.under _ _ _

theorem State.dropTeam_beside (s : State) (id : Nat) :
    BesideTeams (s.withTeams (Tbl.drop s.teams id) (s.gangs.filter (fun e => e.2.team != id)) s.threads) (s.dropTeam id) := by
  let wd := if (s.ctx (s.grid (s.team id).grid).ctx).run == .running then s else s.keepWd (s.grid (s.team id).grid).ctx
  have hwd : BesideTeams s wd := by
    unfold wd
    split
    · exact .refl s
    · exact s.keepWd_beside _
  have hback : BesideTeams s (((s.grid (s.team id).grid).coresAt (s.team id).core).foldl
      (fun v c => (v.l1Cores c (s.team id)).foldl (fun s k => s.writeBackAll k) v) wd) :=
    hwd.trans (.fold (fun v c => .fold (fun s k => s.writeBackAll_beside k) _ v) _ _)
  unfold State.dropTeam
  dsimp only
  refine BesideTeams.trans ?_ ((State.refuse_beside _ _).trans (State.refreshHeld_beside _ _))
  revert hback
  generalize List.foldl _ wd _ = u
  intro hback
  have hu : BesideTeams (s.withTeams (Tbl.drop s.teams id) (s.gangs.filter (fun e => e.2.team != id)) s.threads)
      (u.withTeams (Tbl.drop u.teams id) (u.gangs.filter (fun e => e.2.team != id)) u.threads) := by
    rw [hback.teams, hback.gangs, hback.threads]
    exact hback.under _ _ _
  exact hu.trans (.of _ _ _ _ _ _)

theorem State.removeTeam_beside (s : State) (id : Nat) : BesideTeams (s.withoutTeam id) (s.removeTeam id) := by
  have hgone : BesideTeams s (((s.teamThreads id).foldl (fun s k => s.forget (k / 2048) (k % 2048)) s).withdrawOps id) :=
    (BesideTeams.fold (fun s k => .modCore s _ _) _ s).trans (State.withdrawOps_beside _ _)
  unfold State.removeTeam
  dsimp only
  refine BesideTeams.trans ?_ (.fold (fun s c => (s.wakeHead_follows c).beside) _ _)
  generalize State.withdrawOps _ _ = u at hgone ⊢
  have hall := (hgone.under (Tbl.drop s.teams id) (s.gangs.filter (fun e => e.2.team != id)) s.threads).trans
    (by rw [← hgone.teams, ← hgone.gangs, ← hgone.threads]; exact u.dropTeam_beside id)
  exact hall.mapThreads (fun l => l.filter (fun e => !(s.teamThreads id).contains e.1))

end Sys2Proof.Machine
end

section
/-!
Putting away the teams of a halted context (R340, R346, R349, R351): a saved team leaves with its record, and a discarded one returns to
unplaced.
-/
namespace Sys2Proof.Machine

theorem foldl_of_fixed {σ α : Type} {f : σ → α → σ} {s : σ} {l : List α} (h : ∀ a ∈ l, f s a = s) : l.foldl f s = s := by
  induction l with
  | nil => rfl
  | cons a r ih => rw [List.foldl_cons, h a List.mem_cons_self, ih fun b hb => h b (List.mem_cons_of_mem _ hb)]

theorem Tbl.look_filter_of_not {α : Type} (t : Tbl α) {p : Nat → Bool} {k : Nat} (h : p k = false) :
    Tbl.look (t.filter (fun e => p e.1)) k = none := by
  refine Tbl.look_eq_none fun hk => ?_
  obtain ⟨e, he, rfl⟩ := List.mem_map.mp hk
  have hp := (List.mem_filter.mp he).2
  exact absurd (h.symm.trans hp) Bool.false_ne_true

theorem Tbl.mem_drop {α : Type} {t : Tbl α} {k : Nat} {e : Nat × α} (h : e ∈ Tbl.drop t k) : e ∈ t ∧ e.1 ≠ k := by
  induction t with
  | nil => exact absurd h List.not_mem_nil
  | cons a r ih =>
    simp only [Tbl.drop] at h
    split at h
    · exact ⟨List.mem_cons_of_mem _ (ih h).1, (ih h).2⟩
    · next hne =>
      rcases List.mem_cons.mp h with rfl | h
      · exact ⟨List.mem_cons_self, hne⟩
      · exact ⟨List.mem_cons_of_mem _ (ih h).1, (ih h).2⟩

theorem threadKey_split (k : Nat) : threadKey (k / 2048) (k % 2048) = k := by
  unfold threadKey
  omega

/-! ## Teams that stand still (R305, R330, R345) -/

/-- Nothing of a team is under way, and no thread of it has exited. -/
def State.Calm (s : State) (id : Nat) : Prop :=
  s.quiet [id] = true ∧ s.settled [id] = true ∧ ∀ k ∈ s.teamThreads id, (Tbl.at s.threads k {}).exited = false

theorem State.freeThreads_of_none_exited {s : State} {id : Nat} (h : ∀ k ∈ s.teamThreads id, (Tbl.at s.threads k {}).exited = false) :
    (s.teamThreads id).foldl (fun s k => s.freeThread (k / 2048) (k % 2048)) s = s := by
  refine foldl_of_fixed fun k hk => ?_
  have hex := h k hk
  unfold State.freeThread
  rw [threadKey_split]
  cases hth : Tbl.look s.threads k with
  | none => rfl
  | some th =>
    rw [Tbl.at, hth, Option.getD_some] at hex
    simp [hex]

/-- No gang of a quiet team speculates, so a halt squashes none (R431). -/
theorem State.squashHalted_of_quiet {s : State} {teams : List Nat} (h : s.quiet teams = true) : s.squashHalted teams = s := by
  refine foldl_of_fixed fun k hk => ?_
  obtain ⟨id, hid, hk⟩ := List.mem_flatMap.mp hk
  have hq := List.all_eq_true.mp h id hid
  rw [Bool.and_eq_true] at hq
  have hspec := List.all_eq_true.mp hq.1 k hk
  rw [Option.isNone_iff_eq_none] at hspec
  dsimp only
  rw [hspec]

/-- What a halt squashes: the speculation of gangs, with the squash to come. -/
theorem State.squashHalted_spec (s : State) (teams : List Nat) :
    s.squashHalted teams = { s with gangs := (s.squashHalted teams).gangs, agenda := (s.squashHalted teams).agenda }
    ∧ ∀ c g, (s.squashHalted teams).gang c g = { s.gang c g with spec := ((s.squashHalted teams).gang c g).spec } := by
  unfold State.squashHalted
  induction teams.flatMap s.teamGangs generalizing s with
  | nil => exact ⟨rfl, fun _ _ => rfl⟩
  | cons k r ih =>
    rw [List.foldl_cons]
    dsimp only
    split
    · exact ih s
    · next x _ =>
      obtain ⟨hrest, hgang⟩ := ih _
      refine ⟨by rw [hrest]; rfl, fun c g => ?_⟩
      rw [hgang c g]
      have hset : ∀ (a b : Nat) (y : Gang) (l : List Act), ({ s.setGang a b y with agenda := l } : State).gang c g
          = if gangKey c g = gangKey a b then y else s.gang c g := fun a b y l => State.gang_setGang s a b c g y
      rw [State.modGang_eq, hset]
      split
      · next e =>
        rw [show s.gang c g = s.gang (k / 64) (k % 64) by unfold State.gang; rw [e]]
      · rfl

/-! ## A saved team (R349) -/

/-- What is saved of a team. -/
def State.savedRecord (s : State) (id : Nat) (late : Bool) : SavedTeam :=
  { id := id, team := s.team id
    gangs := (s.teamGangs id).map (fun k => { s.gang (k / 64) (k % 64) with votes := [] })
    threads := (s.teamThreads id).map s.saveThread
    copies := (Tbl.vals s.copies).filter (fun x => x.team == id)
    fifo := s.unstarted id ((s.grid (s.team id).grid).coresAt (s.team id).core)
    late := late }

/-- A team has left with its gangs and threads, and its context has saved it with each of its threads. -/
def SavesTeam (s t : State) (n id : Nat) (tm : Team) (late : Bool) : Prop :=
  Tbl.look t.teams id = none ∧ (∀ k ∈ s.teamThreads id, Tbl.look t.threads k = none) ∧ (∀ e ∈ t.gangs, e.2.team ≠ id)
  ∧ ∃ r, (t.ctx n).saved = (s.ctx n).saved ++ [r] ∧ r.id = id ∧ r.team = tm ∧ r.late = late
    ∧ r.threads.length = (s.teamThreads id).length
    ∧ ∀ k ∈ s.teamThreads id, ∃ e ∈ r.threads, e.lane = k % 32 ∧ e.th = { Tbl.at s.threads k {} with place := .out }

/-- A team that leaves takes its gangs and threads with it. -/
theorem State.withoutTeam_gone (s : State) (id : Nat) :
    Tbl.look (s.withoutTeam id).teams id = none ∧ (∀ k ∈ s.teamThreads id, Tbl.look (s.withoutTeam id).threads k = none)
      ∧ ∀ e ∈ (s.withoutTeam id).gangs, e.2.team ≠ id := by
  refine ⟨?_, fun k hk => ?_, fun e he => ?_⟩
  · exact (Tbl.look_drop _ _ _).trans (if_pos rfl)
  · exact Tbl.look_filter_of_not s.threads (p := fun k => !(s.teamThreads id).contains k) (by simpa using hk)
  · simpa using (List.mem_filter.mp he).2

theorem State.leaves_setCtx (s : State) (n : Nat) (x : Ctx) : Leaves s (s.setCtx n x) := rfl
theorem State.leaves_withoutTeam (s : State) (id : Nat) : Leaves s (s.withoutTeam id) := rfl

theorem State.saveTeam_beside {s : State} {n id : Nat} (hn : (s.grid (s.team id).grid).ctx = n)
    (h : ∀ k ∈ s.teamThreads id, (Tbl.at s.threads k {}).exited = false) (late : Bool) :
    ∃ x : Ctx, x.saved = (s.ctx n).saved ++ [s.savedRecord id late] ∧ x.run = (s.ctx n).run
      ∧ BesideTeams ((s.setCtx n x).withoutTeam id) (s.saveTeam id late) := by
  subst hn
  unfold State.saveTeam
  rw [State.freeThreads_of_none_exited h]
  refine ⟨_, ?_, ?_, (State.removeTeam_beside _ id).trans (State.keepImages_beside _ _ _)⟩
  · rfl
  · rfl

theorem SavesTeam.of_beside {s t : State} {n id : Nat} {tm : Team} {late : Bool} {x : Ctx} (htm : Tbl.look s.teams id = some tm)
    (hx : x.saved = (s.ctx n).saved ++ [s.savedRecord id late]) (h : BesideTeams ((s.setCtx n x).withoutTeam id) t) :
    SavesTeam s t n id tm late := by
  obtain ⟨hteam, hthreads, hgangs⟩ := (s.setCtx n x).withoutTeam_gone id
  refine ⟨h.teams ▸ hteam, fun k hk => h.threads ▸ hthreads k hk, h.gangs ▸ hgangs, s.savedRecord id late, ?_, rfl, ?_, rfl,
    List.length_map _, fun k hk => ?_⟩
  · rw [h.saved n, ← hx]
    exact congrArg Ctx.saved (State.ctx_setCtx_self s n x)
  · show Tbl.at s.teams id _ = tm
    rw [Tbl.at, htm, Option.getD_some]
  · exact ⟨s.saveThread k, List.mem_map_of_mem hk, rfl, rfl⟩

/-- What a context has chosen for a cluster is no part of what is saved. -/
theorem SavesTeam.of_chosen {s t : State} {n id : Nat} {tm : Team} {late : Bool} (l : Tbl Nat)
    (h : SavesTeam (s.setCtx n { s.ctx n with chosen := l }) t n id tm late) : SavesTeam s t n id tm late := by
  obtain ⟨hteam, hthreads, hgangs, r, hsaved, hr⟩ := h
  refine ⟨hteam, hthreads, hgangs, r, ?_, hr⟩
  rw [hsaved, State.ctx_setCtx_self]

theorem SavesTeam.beside {s t u : State} {n id : Nat} {tm : Team} {late : Bool} (h : SavesTeam s t n id tm late) (g : BesideTeams t u) :
    SavesTeam s u n id tm late := by
  obtain ⟨hteam, hthreads, hgangs, r, hsaved, hr⟩ := h
  exact ⟨g.teams ▸ hteam, g.threads ▸ hthreads, g.gangs ▸ hgangs, r, (g.saved n).trans hsaved, hr⟩

/-! ## The last team of a halted context (R346) -/

theorem State.settleHalt_cases (s : State) (n : Nat) :
    (¬ ((s.ctx n).run = .halting ∧ s.ctxTeams n = []) ∧ s.settleHalt n = s) ∨ ((s.ctx n).run = .halting ∧ s.ctxTeams n = []
      ∧ ∃ l, s.settleHalt n = { s.setCtx n { s.ctx n with run := .saved, chosen := [] } with agenda := s.agenda ++ l }) := by
  unfold State.settleHalt
  split
  · next h =>
    simp only [Bool.and_eq_true, beq_iff_eq, List.isEmpty_iff] at h
    refine .inr ⟨h.1, h.2, ?_⟩
    dsimp only
    split
    · exact ⟨_, rfl⟩
    · exact ⟨[], by rw [List.append_nil]; rfl⟩
  · next h =>
    refine .inl ⟨fun hc => h ?_, rfl⟩
    rw [hc.1, hc.2]
    rfl

/-- The last team's leaving settles how the context runs, and leaves what it has saved. -/
theorem State.settleHalt_keeps (s : State) (n : Nat) :
    Leaves s (s.settleHalt n) ∧ (s.settleHalt n).teams = s.teams ∧ (s.settleHalt n).threads = s.threads
      ∧ (s.settleHalt n).gangs = s.gangs ∧ (s.settleHalt n).grids = s.grids ∧ ∀ m, ((s.settleHalt n).ctx m).saved = (s.ctx m).saved := by
  rcases s.settleHalt_cases n with ⟨-, h⟩ | ⟨-, -, l, h⟩
  · rw [h]
    exact ⟨rfl, rfl, rfl, rfl, rfl, fun _ => rfl⟩
  · rw [h]
    refine ⟨rfl, rfl, rfl, rfl, rfl, fun m => ?_⟩
    show ((s.setCtx n _).ctx m).saved = _
    rw [State.ctx_setCtx]
    split
    · next e => rw [e]
    · rfl

theorem SavesTeam.settleHalt {s t : State} {n id : Nat} {tm : Team} {late : Bool} (h : SavesTeam s t n id tm late) (m : Nat) :
    SavesTeam s (t.settleHalt m) n id tm late := by
  obtain ⟨-, hteams, hths, hgs, -, hctx⟩ := t.settleHalt_keeps m
  obtain ⟨hteam, hthreads, hgangs, r, hsaved, hr⟩ := h
  exact ⟨hteams ▸ hteam, hths ▸ hthreads, hgs ▸ hgangs, r, (hctx n).trans hsaved, hr⟩

/-! ## Putting a calm team away -/

section
variable {s : State} {n id : Nat} {tm : Team} (htm : Tbl.look s.teams id = some tm) (hctx : s.teamCtx tm = n) (hcalm : s.Calm id)

include htm hctx in
theorem State.teamCtx_of_look : (s.grid (s.team id).grid).ctx = n := by
  rw [State.team, Tbl.at, htm, Option.getD_some]
  exact hctx

include htm hctx hcalm

theorem State.putAway_saves (again : Instr) {k : Nat} (hk : k ≠ 3) :
    let t := s.putAway n again k [id]
    Leaves s t ∧ SavesTeam s t n id tm (k == 4 || k == 5) ∧ t.teams = Tbl.drop s.teams id ∧ t.grids = s.grids := by
  obtain ⟨hquiet, hsettled, hex⟩ := hcalm
  obtain ⟨x, hx, -, hb⟩ := State.saveTeam_beside (State.teamCtx_of_look htm hctx) hex (k == 4 || k == 5)
  have hput : s.putAway n again k [id] = (s.saveTeam id (k == 4 || k == 5)).settleHalt n := by
    simp [State.putAway, State.squashHalted_of_quiet hquiet, hquiet, hsettled, hk]
  obtain ⟨hleaves, hteams, -, -, hgrids, -⟩ := (s.saveTeam id (k == 4 || k == 5)).settleHalt_keeps n
  have hl : Leaves s (s.saveTeam id (k == 4 || k == 5)) :=
    ((s.leaves_setCtx n x).trans (State.leaves_withoutTeam _ id)).trans hb.leaves
  intro t
  have ht : t = (s.saveTeam id (k == 4 || k == 5)).settleHalt n := hput
  rw [ht]
  exact ⟨hl.trans hleaves, (SavesTeam.of_beside htm hx hb).settleHalt n, hteams.trans hb.teams, hgrids.trans hb.grids⟩

omit hctx in
theorem State.putAway_discards (again : Instr) :
    let t := s.putAway n again 3 [id]
    Leaves s t ∧ Tbl.look t.teams id = none ∧ (t.ctx n).saved = (s.ctx n).saved
      ∧ (t.grid tm.grid).live = (s.grid tm.grid).live.filter (· != id)
      ∧ (t.grid tm.grid).unplaced = insertSorted tm.num (s.grid tm.grid).unplaced := by
  obtain ⟨hquiet, hsettled, -⟩ := hcalm
  have hteam : s.team id = tm := by rw [State.team, Tbl.at, htm, Option.getD_some]
  let cores := (s.grid tm.grid).coresAt tm.core
  let u := s.discardTeam id
  have hput : s.putAway n again 3 [id] = ((u.keepImages n cores).scrubEmpty cores).settleHalt n := by
    simp [State.putAway, State.squashHalted_of_quiet hquiet, hquiet, hsettled, u, cores, hteam]
  have hgone := s.removeTeam_beside id
  have hu : u = (s.removeTeam id).setGrid tm.grid { s.grid tm.grid with
      live := (s.grid tm.grid).live.filter (· != id), unplaced := insertSorted tm.num (s.grid tm.grid).unplaced } := by
    show s.discardTeam id = _
    simp only [State.discardTeam, hteam, State.modGrid_eq, hgone.grid]
    rfl
  have hb : BesideTeams u ((u.keepImages n cores).scrubEmpty cores) := (u.keepImages_beside n cores).trans (State.scrubEmpty_beside _ cores)
  generalize (u.keepImages n cores).scrubEmpty cores = v at hput hb
  obtain ⟨hleaves, hteams, -, -, hgrids, hsaved⟩ := v.settleHalt_keeps n
  have hgrid : (v.settleHalt n).grid tm.grid = u.grid tm.grid := by rw [State.grid, hgrids, ← hb.grid]; rfl
  intro t
  have ht : t = v.settleHalt n := hput
  rw [ht]
  refine ⟨(((s.leaves_withoutTeam id).trans hgone.leaves).trans (hu ▸ rfl)).trans (hb.leaves.trans hleaves), ?_, ?_, ?_, ?_⟩
  · rw [hteams, hb.teams, hu, State.setGrid_teams, hgone.teams]
    exact (s.withoutTeam_gone id).1
  · rw [hsaved, hb.saved, hu, State.ctx_setGrid, hgone.saved]
    rfl
  · rw [hgrid, hu, State.grid_setGrid_self]
  · rw [hgrid, hu, State.grid_setGrid_self]

end

end Sys2Proof.Machine
end

section
/-!
Halting a context: the request and its deadline, the choice of a cluster, and the pre-emption of a core by NC (R340, R345, R346, R351,
R431).
-/
namespace Sys2Proof.Machine

/-! ## The request (R345, R431) -/

/-- A context that halts: how it runs, when it was asked to, and what of its gangs is squashed. -/
theorem State.halt_spec (s : State) (n : Nat) :
    (s.halt n).ctx n = { s.ctx n with
        run := if s.ctxTeams n = [] then .saved else .halting
        preemptAt := s.timebase, late := false, haltAt := s.time, chosen := [], savedWd := 0 }
    ∧ (∀ d, d ≠ n → Tbl.look (s.halt n).ctxs d = Tbl.look s.ctxs d)
    ∧ s.halt n = { s with ctxs := (s.halt n).ctxs, gangs := (s.halt n).gangs, agenda := (s.halt n).agenda }
    ∧ ∀ c g, (s.halt n).gang c g = { s.gang c g with spec := ((s.halt n).gang c g).spec } := by
  set x : Ctx := { s.ctx n with
    run := .halting, preemptAt := s.timebase, late := false, haltAt := s.time, chosen := [], savedWd := 0 } with hx
  set u := (s.setCtx n x).squashHalted (((s.setCtx n x).ctxTeams n).map (·.1)) with hu
  have hhalt : s.halt n = u.settleHalt n := rfl
  obtain ⟨hrest, hgang⟩ := (s.setCtx n x).squashHalted_spec (((s.setCtx n x).ctxTeams n).map (·.1))
  rw [← hu] at hrest hgang
  have hctxs : u.ctxs = Tbl.put s.ctxs n x := by rw [hrest]; rfl
  have hctx : u.ctx n = x := by rw [State.ctx, hctxs, Tbl.at_put_self]
  have hteams : u.ctxTeams n = s.ctxTeams n := by rw [hrest]; rfl
  rw [hhalt]
  rcases u.settleHalt_cases n with ⟨hno, h⟩ | ⟨-, hnil, l, h⟩
  · have hne : s.ctxTeams n ≠ [] := fun hnil => hno ⟨by rw [hctx], hteams.trans hnil⟩
    rw [h]
    refine ⟨?_, fun d hd => ?_, ?_, hgang⟩
    · rw [hctx, if_neg hne]
    · rw [hctxs, Tbl.look_put_ne _ _ hd]
    · rw [hrest]; rfl
  · rw [h]
    refine ⟨?_, fun d hd => ?_, ?_, hgang⟩
    · rw [if_pos (hteams.symm.trans hnil)]
      exact (State.ctx_setCtx_self u n _).trans (by rw [hctx])
    · exact (Tbl.look_put_ne _ _ hd).trans (by rw [hctxs, Tbl.look_put_ne _ _ hd])
    · rw [hrest]; rfl

theorem exec_preemptRequest (n : Nat) (s : State) :
    exec (.preemptRequest n) s = .next (if (s.ctx n).run == .running then s.halt n else s) := rfl

theorem preemptRequest_results (s : State) (n : Nat) :
    ((s.ctx n).run ≠ .running → exec (.preemptRequest n) s = .next s)
    ∧ ((s.ctx n).run = .running → ∃ t, exec (.preemptRequest n) s = .next t
      ∧ (t.ctx n).run = (if s.ctxTeams n = [] then .saved else .halting) ∧ (t.ctx n).preemptAt = s.timebase ∧ (t.ctx n).haltAt = s.time ∧ (t.ctx n).chosen = []
      ∧ (∀ d, d ≠ n → Tbl.look t.ctxs d = Tbl.look s.ctxs d)
      ∧ t = { s with ctxs := t.ctxs, gangs := t.gangs, agenda := t.agenda }
      ∧ ∀ c g, t.gang c g = { s.gang c g with spec := (t.gang c g).spec }) := by
  rw [exec_preemptRequest]
  refine ⟨fun h => by rw [if_neg (by simpa using h)], fun h => ?_⟩
  obtain ⟨hctx, hother, hrest, hgang⟩ := s.halt_spec n
  exact ⟨s.halt n, by rw [if_pos (by simpa using h)], by rw [hctx], by rw [hctx], by rw [hctx], by rw [hctx], hother, hrest, hgang⟩

/-! ## The choice of a cluster (R346) -/

section
variable {s : State} {n cl id : Nat} {tm : Team} (hrun : (s.ctx n).run = .halting)
  (hteams : (s.ctxTeams n).filter (fun e => clusterOf e.2.core == cl) = [(id, tm)])
include hrun hteams

theorem preemptChoose_goes : ¬ (((s.ctxTeams n).filter (fun e => clusterOf e.2.core == cl)).isEmpty
    || !((s.ctx n).run == .halting || (s.ctx n).run == .stopped)) = true := by
  simp [hteams, hrun]

theorem exec_preemptChoose_drains (h : Tbl.look (s.ctx n).chosen cl = some 1) : exec (.preemptChoose n cl) s = .next s := by
  show execPreemptChoose n cl s = _
  unfold execPreemptChoose
  dsimp only
  rw [if_neg (preemptChoose_goes hrun hteams), h]
  rfl

theorem exec_preemptChoose_chosen {k : Nat} (h : Tbl.look (s.ctx n).chosen cl = some k) (hk : k ≠ 1) :
    exec (.preemptChoose n cl) s = .next (s.putAway n (.preemptChoose n cl) k [id]) := by
  show execPreemptChoose n cl s = _
  unfold execPreemptChoose
  dsimp only
  rw [if_neg (preemptChoose_goes hrun hteams), h, hteams]
  split
  · next h1 => exact absurd (Option.some.inj h1) hk
  · next h1 => rw [← Option.some.inj h1]; rfl
  · next h1 => exact absurd h1 (by simp)

/-- A cluster that has not chosen chooses once its teams are quiet, and puts them away unless it drains. -/
theorem exec_preemptChoose_chooses (h : Tbl.look (s.ctx n).chosen cl = none) (hquiet : s.quiet [id] = true) :
    let pick := s.choice n ((List.range 8).map (8 * cl + ·)) [(id, tm)]
    let u := s.setCtx n { s.ctx n with chosen := Tbl.put (s.ctx n).chosen cl pick }
    exec (.preemptChoose n cl) s = .next (if pick = 1 then u else u.putAway n (.preemptChoose n cl) pick [id]) := by
  intro pick u
  show execPreemptChoose n cl s = _
  unfold execPreemptChoose
  dsimp only
  have hids : (((s.ctxTeams n).filter (fun e => clusterOf e.2.core == cl)).map (·.1)) = [id] := by rw [hteams]; rfl
  rw [if_neg (preemptChoose_goes hrun hteams), h, hids, hteams, State.squashHalted_of_quiet hquiet, hquiet]
  exact (apply_ite Host.Outcome.next (pick = 1) u (u.putAway n (.preemptChoose n cl) pick [id])).symm

end

theorem preemptChoose_results (s : State) (n cl id : Nat) (tm : Team) (hrun : (s.ctx n).run = .halting)
    (htm : Tbl.look s.teams id = some tm) (hteams : (s.ctxTeams n).filter (fun e => clusterOf e.2.core == cl) = [(id, tm)])
    (hcalm : s.Calm id) :
    let pick := s.choice n ((List.range 8).map (8 * cl + ·)) [(id, tm)]
    let chosen := Tbl.look (s.ctx n).chosen cl
    (chosen = some 1 → exec (.preemptChoose n cl) s = .next s)
    ∧ (chosen = none → pick = 1 → ∃ t, exec (.preemptChoose n cl) s = .next t ∧ t = { s with ctxs := t.ctxs }
      ∧ t.ctx n = { s.ctx n with chosen := Tbl.put (s.ctx n).chosen cl 1 })
    ∧ (∀ k, (chosen = some k ∨ chosen = none ∧ pick = k) → k = 2 ∨ k = 4 ∨ k = 5 →
      ∃ t, exec (.preemptChoose n cl) s = .next t ∧ Leaves s t ∧ SavesTeam s t n id tm (k != 2))
    ∧ ((chosen = some 3 ∨ chosen = none ∧ pick = 3) → ∃ t, exec (.preemptChoose n cl) s = .next t ∧ Leaves s t
      ∧ Tbl.look t.teams id = none ∧ (t.ctx n).saved = (s.ctx n).saved
      ∧ (t.grid tm.grid).live = (s.grid tm.grid).live.filter (· != id)
      ∧ (t.grid tm.grid).unplaced = insertSorted tm.num (s.grid tm.grid).unplaced) := by
  intro pick chosen
  have hctx : s.teamCtx tm = n := by
    have hmem : (id, tm) ∈ (s.ctxTeams n).filter (fun e => clusterOf e.2.core == cl) := by rw [hteams]; exact List.mem_cons_self
    simpa using (List.mem_filter.mp (List.mem_filter.mp hmem).1).2
  let u := s.setCtx n { s.ctx n with chosen := Tbl.put (s.ctx n).chosen cl pick }
  have hchooses : chosen = none → exec (.preemptChoose n cl) s
      = .next (if pick = 1 then u else u.putAway n (.preemptChoose n cl) pick [id]) :=
    fun h => exec_preemptChoose_chooses hrun hteams h hcalm.1
  refine ⟨exec_preemptChoose_drains hrun hteams, fun hnone hpick => ?_, fun k hk hk' => ?_, fun hk => ?_⟩
  · refine ⟨u, (hchooses hnone).trans (by rw [if_pos hpick]), rfl, ?_⟩
    rw [State.ctx_setCtx_self, hpick]
  · have hlate : (k == 4 || k == 5) = (k != 2) := by rcases hk' with rfl | rfl | rfl <;> rfl
    have h1 : k ≠ 1 := by omega
    have h3 : k ≠ 3 := by omega
    rcases hk with hk | ⟨hnone, rfl⟩
    · obtain ⟨hl, hs, -⟩ := State.putAway_saves htm hctx hcalm (.preemptChoose n cl) h3
      exact ⟨_, exec_preemptChoose_chosen hrun hteams hk h1, hl, hlate ▸ hs⟩
    · obtain ⟨hl, hs, -⟩ := State.putAway_saves (s := u) htm hctx hcalm (.preemptChoose n cl) h3
      exact ⟨_, (hchooses hnone).trans (by rw [if_neg h1]), (s.leaves_setCtx n _).trans hl, (hlate ▸ hs).of_chosen⟩
  · rcases hk with hk | ⟨hnone, hpick⟩
    · exact ⟨_, exec_preemptChoose_chosen hrun hteams hk (by decide), State.putAway_discards htm hcalm _⟩
    · obtain ⟨hl, hgone, hsaved, hgrid⟩ := State.putAway_discards (s := u) (n := n) htm hcalm (.preemptChoose n cl)
      refine ⟨_, (hchooses hnone).trans (by rw [if_neg (by omega), hpick]), (s.leaves_setCtx n _).trans hl, hgone, ?_, hgrid⟩
      rw [hsaved, State.ctx_setCtx_self]

/-! ## The deadline (R346, R405) -/

theorem drainDeadline_results (s : State) (n : Nat) (hrun : (s.ctx n).run = .halting)
    (htime : 1000 * ((s.ctx n).preemptAt + 1000 * (s.ctx n).deadline) ≤ s.time) (hcoll : ∀ e ∈ s.copies, e.2.kind.isColl = false) :
    ∃ t, exec (.drainDeadline n) s = .next t
      ∧ t.ctx n = { s.ctx n with
          chosen := (s.ctx n).chosen.map (fun e => if e.2 = 1 then (e.1, 5) else e)
          drainEnd := if (∃ e ∈ (s.ctx n).chosen, e.2 = 1) ∧ (∀ e ∈ (s.ctx n).chosen, e.2 ≠ 5) then s.time else (s.ctx n).drainEnd }
      ∧ t = { s with ctxs := t.ctxs, gangs := t.gangs, agenda := t.agenda } := by
  have hnow : s.toTime (1000 * ((s.ctx n).preemptAt + 1000 * (s.ctx n).deadline)) = s := if_neg (by omega)
  have hnone : (Tbl.vals s.copies).filter (fun y => y.kind.isColl && !y.st.ended && y.st != .collecting && y.st != .checking
      && (s.ctxTeams n).any (fun e => e.1 == y.team)) = [] := by
    refine List.filter_eq_nil_iff.mpr fun y hy => ?_
    obtain ⟨e, he, rfl⟩ := List.mem_map.mp hy
    simp [hcoll e he]
  set x : Ctx := { s.ctx n with
    chosen := (s.ctx n).chosen.map (fun e => if e.2 = 1 then (e.1, 5) else e)
    drainEnd := if (∃ e ∈ (s.ctx n).chosen, e.2 = 1) ∧ (∀ e ∈ (s.ctx n).chosen, e.2 ≠ 5) then s.time else (s.ctx n).drainEnd } with hx
  obtain ⟨hrest, -⟩ := (s.setCtx n x).squashHalted_spec ((s.ctxTeams n).map (·.1))
  set u := (s.setCtx n x).squashHalted ((s.ctxTeams n).map (·.1)) with hu
  have hexec : exec (.drainDeadline n) s = .next u := by
    have hgo : ¬ ((s.ctx n).run != .halting) = true := by simp [hrun]
    have hchosen : (s.ctx n).chosen.map (fun e => if e.2 = 1 then (e.1, 5) else e) = chosenAtEnd (s.ctx n).chosen [] := by
      simp only [chosenAtEnd, List.foldl_nil, beq_iff_eq]
    have hdrain : ((∃ e ∈ (s.ctx n).chosen, e.2 = 1) ∧ (∀ e ∈ (s.ctx n).chosen, e.2 ≠ 5))
        ↔ ((s.ctx n).chosen.any (·.2 == 1) && !(s.ctx n).chosen.any (·.2 == 5)) = true := by simp
    show execDrainDeadline n s = _
    unfold execDrainDeadline
    dsimp only
    rw [if_neg hgo, hnow, hnone, hu, hx, hchosen, if_congr hdrain rfl rfl]
    rfl
  refine ⟨u, hexec, ?_, by rw [hrest]; rfl⟩
  rw [State.ctx, show u.ctxs = Tbl.put s.ctxs n x by rw [hrest]; rfl, Tbl.at_put_self]

/-! ## Pre-emption by NC (R351) -/

theorem State.beginNc_spec (s : State) (c : Nat) (ids : List Nat) :
    s.beginNc c ids = { s with cores := (s.beginNc c ids).cores } ∧ ((s.beginNc c ids).core c).ncAt = some s.time
      ∧ ∀ d, (s.beginNc c ids).core d = { s.core d with ncAt := ((s.beginNc c ids).core d).ncAt } := by
  unfold State.beginNc
  generalize List.flatMap _ _ = l
  suffices H : ∀ u : State, u = { s with cores := u.cores } → (u.core c).ncAt = some s.time →
      (∀ d, u.core d = { s.core d with ncAt := (u.core d).ncAt }) →
      let v := l.foldl (fun s c => s.modCore c (fun k => { k with ncAt := some (k.ncAt.getD s.time) })) u
      v = { s with cores := v.cores } ∧ (v.core c).ncAt = some s.time ∧ ∀ d, v.core d = { s.core d with ncAt := (v.core d).ncAt } by
    refine H (s.modCore c (fun k => { k with ncAt := some s.time })) rfl (by rw [State.modCore_eq, State.core_setCore_self]) fun d => ?_
    rw [State.modCore_eq, State.core_setCore]
    split
    · next e => rw [e]
    · rfl
  induction l with
  | nil => exact fun u h1 h2 h3 => ⟨h1, h2, h3⟩
  | cons a r ih =>
    intro u hrest hat hcore
    refine ih (u.modCore a (fun k => { k with ncAt := some (k.ncAt.getD u.time) })) (by rw [hrest]; rfl) ?_ fun d => ?_
    · rw [State.modCore_eq, State.core_setCore]
      split
      · next e => rw [← e, hat]; rfl
      · exact hat
    · rw [State.modCore_eq, State.core_setCore]
      split
      · next e => rw [e, hcore a]
      · exact hcore d

theorem State.endNc_beside (s : State) (n c : Nat) : BesideTeams s (s.endNc n c) := by
  refine .fold (fun s d => ?_) _ s
  split
  · exact .refl s
  · exact .modCore s _ _

/-- NC's pre-emption of a context from a core is over at that core. -/
theorem State.endNc_core (s : State) (n c : Nat) : ((s.endNc n c).core c).ncAt = none := by
  have hself : ∀ u : State, ((u.modCore c (fun k => { k with ncAt := none })).core c).ncAt = none := fun u => by
    rw [State.modCore_eq, State.core_setCore_self]
  have hother : ∀ (u : State) (d : Nat), (u.core c).ncAt = none → ((u.modCore d (fun k => { k with ncAt := none })).core c).ncAt = none := by
    intro u d h
    rw [State.modCore_eq, State.core_setCore]
    split
    · rfl
    · exact h
  rcases (by omega : c = 2 * (c / 2) ∨ c = 2 * (c / 2) + 1) with h | h
  · unfold State.endNc
    rw [← h]
    simp only [List.foldl_cons, List.foldl_nil, bne_self_eq_false, Bool.false_and, Bool.false_eq_true, if_false]
    split
    · exact hself s
    · exact hother _ _ (hself s)
  · unfold State.endNc
    rw [← h]
    simp only [List.foldl_cons, List.foldl_nil, bne_self_eq_false, Bool.false_and, Bool.false_eq_true, if_false]
    exact hself _

section
variable {s : State} {n c id : Nat} {tm : Team} (hrun : (s.ctx n).run = .running)
  (hteams : (s.teamsOn c).filter (fun e => s.teamCtx e.2 == n) = [(id, tm)])
include hrun hteams

theorem exec_ncPreempt_begins (hnc : (s.core c).ncAt = none) (hfull : c ∈ (s.ctx n).ncFull) (hwanted : s.wanted n c = true) :
    exec (.ncPreempt n c) s = .next (((s.beginNc c [id]).squashHalted [id]).due (.ncPreempt n c)) := by
  show execNcPreempt n c s = _
  unfold execNcPreempt
  dsimp only
  rw [hteams, if_neg (by simp [hnc]), if_neg (by simp [hrun, hfull, hwanted])]
  rfl

omit hrun hteams in
theorem exec_ncPreempt_not (hnc : (s.core c).ncAt = none) (h : c ∉ (s.ctx n).ncFull ∨ s.wanted n c = false) :
    exec (.ncPreempt n c) s = .next s := by
  show execNcPreempt n c s = _
  unfold execNcPreempt
  dsimp only
  rw [if_neg (by simp [hnc]), if_pos ?_]
  rcases h with h | h <;> simp [h]

theorem exec_ncPreempt_saves (hnc : (s.core c).ncAt ≠ none) :
    let u := s.putAway n (.ncPreempt n c) 2 [id]
    exec (.ncPreempt n c) s
      = .next (if ((u.teamsOn c).filter (fun e => u.teamCtx e.2 == n)).isEmpty then (u.endNc n c).wakePlace else u) := by
  show execNcPreempt n c s = _
  unfold execNcPreempt
  dsimp only
  rw [hteams, if_pos (Option.isSome_iff_ne_none.mpr hnc), if_neg (by simp [hrun])]
  rfl

end

theorem ncPreempt_results (s : State) (n c id : Nat) (tm : Team) (hrun : (s.ctx n).run = .running)
    (htm : Tbl.look s.teams id = some tm) (hteams : (s.teamsOn c).filter (fun e => s.teamCtx e.2 == n) = [(id, tm)]) :
    ((s.core c).ncAt = none → c ∈ (s.ctx n).ncFull → s.wanted n c = true → ∃ t, exec (.ncPreempt n c) s = .next t
      ∧ (t.core c).ncAt = some s.time ∧ t.halting c = true ∧ Act.event (.ncPreempt n c) ∈ t.agenda
      ∧ (∀ d, t.core d = { s.core d with ncAt := (t.core d).ncAt })
      ∧ (∀ d g, t.gang d g = { s.gang d g with spec := (t.gang d g).spec })
      ∧ t = { s with cores := t.cores, gangs := t.gangs, agenda := t.agenda })
    ∧ ((s.core c).ncAt = none → (c ∉ (s.ctx n).ncFull ∨ s.wanted n c = false) → exec (.ncPreempt n c) s = .next s)
    ∧ ((s.core c).ncAt ≠ none → s.Calm id → ∃ t, exec (.ncPreempt n c) s = .next t ∧ Leaves s t ∧ SavesTeam s t n id tm false
      ∧ (t.core c).ncAt = none) := by
  refine ⟨fun hnc hfull hwanted => ?_, exec_ncPreempt_not, fun hnc hcalm => ?_⟩
  · obtain ⟨hrest, hat, hcore⟩ := s.beginNc_spec c [id]
    obtain ⟨hrest', hgang⟩ := (s.beginNc c [id]).squashHalted_spec [id]
    have hkept : ∀ d, (((s.beginNc c [id]).squashHalted [id]).due (.ncPreempt n c)).core d = (s.beginNc c [id]).core d := fun d => by
      rw [hrest']; rfl
    refine ⟨_, exec_ncPreempt_begins hrun hteams hnc hfull hwanted, by rw [hkept, hat], ?_, ?_, fun d => by rw [hkept]; exact hcore d,
      fun d g => ?_, ?_⟩
    · simp [State.halting, hkept, hat]
    · exact List.mem_append_right _ List.mem_cons_self
    · exact (hgang d g).trans (by rw [hrest]; rfl)
    · rw [hrest', hrest]
      rfl
  · have hmem : (id, tm) ∈ (s.teamsOn c).filter (fun e => s.teamCtx e.2 == n) := by rw [hteams]; exact List.mem_cons_self
    have hctx : s.teamCtx tm = n := by simpa using (List.mem_filter.mp hmem).2
    obtain ⟨hleaves, hsaves, hgone, hgrids⟩ := State.putAway_saves htm hctx hcalm (.ncPreempt n c) (k := 2) (by decide)
    set u := s.putAway n (.ncPreempt n c) 2 [id] with hu
    have hempty : ((u.teamsOn c).filter (fun e => u.teamCtx e.2 == n)).isEmpty = true := by
      have hon : ∀ e ∈ u.teams, e ∈ (s.teamsOn c).filter (fun e => s.teamCtx e.2 == n) → False := by
        intro e he hin
        rw [hgone] at he
        rw [hteams, List.mem_singleton] at hin
        exact (Tbl.mem_drop he).2 (by rw [hin])
      rw [List.isEmpty_iff, State.teamsOn, List.filter_eq_nil_iff]
      intro e he hn
      obtain ⟨he, hcores⟩ := List.mem_filter.mp he
      refine hon e he (List.mem_filter.mpr ⟨List.mem_filter.mpr ⟨(Tbl.mem_drop (hgone ▸ he)).1, ?_⟩, ?_⟩)
      · unfold State.teamCores State.grid at hcores ⊢
        rwa [hgrids] at hcores
      · unfold State.teamCtx State.grid at hn ⊢
        rwa [hgrids] at hn
    have hb := (u.endNc_beside n c).trans (State.wakePlace_follows _).beside
    refine ⟨_, (exec_ncPreempt_saves hrun hteams hnc).trans (by rw [← hu, if_pos hempty]), hleaves.trans hb.leaves, hsaves.beside hb, ?_⟩
    rw [(State.wakePlace_follows _).agenda]
    exact u.endNc_core n c

end Sys2Proof.Machine
end

section
/-!
The cut of a pass that still runs, and the watchdog (R179, R194, R341, R344, R345).
-/
namespace Sys2Proof.Machine

/-! ## The watchdog (R341, R344) -/

theorem State.raise_causes (s : State) (v : Option Nat) (b : Nat) : s.raise v b = { s with causes := (s.raise v b).causes } := by
  unfold State.raise
  split <;> rfl

section
variable {s : State} {c n : Nat} (hctx : (s.core c).ctx = some n)
include hctx

theorem exec_watchdogExpire : exec (.watchdogExpire c) s
    = .next (if s.expired c then s.stopCtx n c (stopWord 3 0 (s.logicalOf (s.ctx n).part c) 0) else s) := by
  show execWatchdogExpire c s = _
  unfold execWatchdogExpire
  rw [hctx]
  dsimp only
  cases s.expired c <;> rfl

/-- A count that runs out while another stop stands does so in the cycle of that stop. -/
theorem State.sameCycle_of_expired (h : s.expired c = true) (hstop : (s.ctx n).stop ≠ 0) : (s.ctx n).stopAt.any (s.sameCycle c) = true := by
  unfold State.expired at h
  rw [hctx] at h
  simp only [Bool.and_eq_true, Bool.or_eq_true, beq_iff_eq] at h
  exact h.2.resolve_left hstop

/-- What clears a watchdog's count: a slot freed, a team or a grid of the context that ends. -/
theorem State.clearing_of_ctx {i : Instr} (h : s.clearing c = some i) : s.moves i = true
    ∧ ((∃ d k, i = .threadFree d k ∧ (s.gangGrid d (k / 32)).ctx = n) ∨ (∃ id tm, i = .teamEnd id ∧ (id, tm) ∈ s.ctxTeams n)
      ∨ ∃ g y, i = .gridComplete g ∧ (g, y) ∈ s.grids ∧ y.ctx = n) := by
  unfold State.clearing at h
  rw [hctx] at h
  dsimp only at h
  refine ⟨List.find?_some h, ?_⟩
  rcases List.mem_append.mp (List.mem_of_find?_eq_some h) with hm | hm
  · rcases List.mem_append.mp hm with hm | hm
    · obtain ⟨e, he, rfl⟩ := List.mem_map.mp hm
      have := (List.mem_filter.mp he).2
      simp only [Bool.and_eq_true, beq_iff_eq] at this
      exact .inl ⟨_, _, rfl, this.2⟩
    · obtain ⟨e, he, rfl⟩ := List.mem_map.mp hm
      exact .inr (.inl ⟨e.1, e.2, rfl, he⟩)
  · obtain ⟨e, he, rfl⟩ := List.mem_map.mp hm
    obtain ⟨he, hx⟩ := List.mem_filter.mp he
    exact .inr (.inr ⟨e.1, e.2, rfl, he, by simpa using hx⟩)

end

theorem watchdogExpire_results (s : State) (c n : Nat) (hctx : (s.core c).ctx = some n) :
    (s.expired c = false → exec (.watchdogExpire c) s = .next s)
    ∧ (s.expired c = true → (s.ctx n).stop ≠ 0 → ∃ t, exec (.watchdogExpire c) s = .next t ∧ t = { s with ctxs := t.ctxs }
      ∧ (let w := stopWord 3 0 (s.logicalOf (s.ctx n).part c) 0
        let least := if stopRank w < stopRank (s.ctx n).stop then w else (s.ctx n).stop
        t.ctx n = { s.ctx n with stop := least }))
    ∧ (s.expired c = true → (s.ctx n).stop = 0 → ∃ t, exec (.watchdogExpire c) s = .next t ∧ (t.ctx n).run = .stopped
      ∧ (t.ctx n).stop = stopWord 3 0 (s.logicalOf (s.ctx n).part c) 0
      ∧ t.ctx n = { s.ctx n with run := (t.ctx n).run, stop := (t.ctx n).stop, stopAt := some s.time, haltAt := s.time, chosen := [] }
      ∧ t = { s with ctxs := t.ctxs, causes := t.causes })
    ∧ (s.expired c = true → s.instead (.watchdogExpire c) = (s.clearing c).getD (.watchdogExpire c))
    ∧ (∀ i, s.clearing c = some i → s.moves i = true
      ∧ ((∃ d k, i = .threadFree d k ∧ (s.gangGrid d (k / 32)).ctx = n) ∨ (∃ id tm, i = .teamEnd id ∧ (id, tm) ∈ s.ctxTeams n)
        ∨ ∃ g y, i = .gridComplete g ∧ (g, y) ∈ s.grids ∧ y.ctx = n)) := by
  rw [exec_watchdogExpire hctx]
  set w := stopWord 3 0 (s.logicalOf (s.ctx n).part c) 0 with hw
  refine ⟨fun h => by rw [h]; rfl, fun h hstop => ?_, fun h hstop => ?_, fun h => ?_, fun i => State.clearing_of_ctx hctx⟩
  · refine ⟨_, rfl, ?_⟩
    rw [h, if_pos rfl, State.stopCtx, if_neg (by simpa using hstop), State.sameCycle_of_expired hctx h hstop]
    dsimp only
    by_cases hlt : stopRank w < stopRank (s.ctx n).stop
    · rw [if_pos (by simp [hlt]), if_pos hlt]
      exact ⟨rfl, State.ctx_setCtx_self _ _ _⟩
    · rw [if_neg (by simp [hlt]), if_neg hlt]
      exact ⟨rfl, rfl⟩
  · let x : Ctx := { s.ctx n with stop := w, stopAt := some s.time, haltAt := s.time, run := .stopped, chosen := [] }
    have hstopped : s.stopCtx n c w = (s.setCtx n x).raise ((s.setCtx n x).vcpOfCtx n) 2 := if_pos (by simpa using hstop)
    have hctx' : (s.stopCtx n c w).ctx n = x := by
      rw [hstopped, State.raise_causes]
      exact State.ctx_setCtx_self _ _ _
    refine ⟨_, rfl, ?_⟩
    rw [h, if_pos rfl]
    refine ⟨by rw [hctx'], by rw [hctx'], by rw [hctx'], ?_⟩
    rw [hstopped, State.raise_causes]
    rfl
  · exact if_pos h

/-! ## The cut (R179, R194, R345) -/

theorem cutAt_eq {s : State} {c n : Nat} (hctx : (s.core c).ctx = some n) : s.cutAt c
    = (if (s.core c).halted then (s.core c).haltedAt else ((s.core c).ncAt).getD
        (if Tbl.at (s.ctx n).chosen (clusterOf c) 0 = 5 then (s.ctx n).drainEnd else (s.ctx n).haltAt)) + 8000000 := by
  have hx : s.coreCtx c = s.ctx n := by rw [State.coreCtx, hctx]
  simp only [State.cutAt, hx, beq_iff_eq]
  exact Nat.add_comm _ _

/-- What a gang keeps of a pass that is cut. -/
def Pass.keptResv (x : Pass) (gs : Nat) : Resv :=
  { Tbl.at x.resv gs {} with
    hdr := x.hdr, closing := (x.closing.filter (fun e => e.1 == gs)).map (·.2), lanes := (x.slots.filter (fun k => k / 32 == gs)).map (· % 32) }

/-- A gang keeps what a pass that is cut reserved for it and owes it, where there is anything. -/
def State.keepResv (c : Nat) (x : Pass) (s : State) (gs : Nat) : State :=
  if (x.keptResv gs).rd.isNone && (x.keptResv gs).wr.isNone && (x.keptResv gs).closing.isEmpty then s
  else s.modGang c gs (fun g => { g with kept := g.kept ++ [(posAt x.clause x.idx, x.keptResv gs)] })

/-- A thread of a pass that is cut waits at the index reached. -/
def State.cutThread (c : Nat) (x : Pass) (s : State) (k : Nat) : State :=
  (s.modThr c k (fun th => { th with pos := posAt x.clause x.idx })).place c k

theorem State.cutPass_eq (s : State) (c p : Nat) (x : Pass) : s.cutPass c p x
    = x.slots.foldl (State.cutThread c x) ((gangsOf x.slots).foldl (State.keepResv c x)
        (((s.finishResv c x.orphans).closeChans c x.orphans).modCore c (fun k => { k with pipes := Tbl.drop k.pipes p }))) := rfl

/-- Gangs keep more for the threads that resume. -/
structure KeepsMore (s t : State) : Prop where
  rest : t = { s with gangs := t.gangs }
  gang : ∀ d g, t.gang d g = { s.gang d g with kept := (t.gang d g).kept }
  kept : ∀ d g e, e ∈ (s.gang d g).kept → e ∈ (t.gang d g).kept

theorem KeepsMore.refl (s : State) : KeepsMore s s := ⟨rfl, fun _ _ => rfl, fun _ _ _ => id⟩

theorem KeepsMore.trans {s t u : State} (h : KeepsMore s t) (g : KeepsMore t u) : KeepsMore s u :=
  ⟨by rw [g.rest, h.rest], fun d j => by rw [g.gang d j, h.gang d j], fun d j e he => g.kept d j e (h.kept d j e he)⟩

theorem State.keepResv_keeps (c : Nat) (x : Pass) (s : State) (gs : Nat) : KeepsMore s (State.keepResv c x s gs) := by
  unfold State.keepResv
  split
  · exact .refl s
  · have hgang : ∀ d g, _ = _ := fun d g => State.gang_setGang s c gs d g
      { s.gang c gs with kept := (s.gang c gs).kept ++ [(posAt x.clause x.idx, x.keptResv gs)] }
    refine ⟨rfl, fun d g => ?_, fun d g e he => ?_⟩
    · rw [State.modGang_eq, hgang]
      split
      · next h => rw [show s.gang d g = s.gang c gs by unfold State.gang; rw [h]]
      · rfl
    · rw [State.modGang_eq, hgang]
      split
      · next h =>
        rw [show s.gang d g = s.gang c gs by unfold State.gang; rw [h]] at he
        exact List.mem_append_left _ he
      · exact he

theorem State.keepResvs_keep (c : Nat) (x : Pass) (l : List Nat) (s : State) : KeepsMore s (l.foldl (State.keepResv c x) s) := by
  induction l generalizing s with
  | nil => exact .refl s
  | cons gs r ih => exact (s.keepResv_keeps c x gs).trans (ih _)

/-- A gang with a reservation keeps it. -/
theorem State.keepResv_mem (c : Nat) (x : Pass) (s : State) {gs : Nat} (h : (x.keptResv gs).rd ≠ none ∨ (x.keptResv gs).wr ≠ none) :
    (posAt x.clause x.idx, x.keptResv gs) ∈ ((State.keepResv c x s gs).gang c gs).kept := by
  unfold State.keepResv
  rw [if_neg, State.modGang_eq, State.gang_setGang_self]
  · exact List.mem_append_right _ List.mem_cons_self
  · rcases h with h | h <;> simp [h]

theorem State.keepResvs_mem (c : Nat) (x : Pass) {l : List Nat} (s : State) {gs : Nat} (hgs : gs ∈ l)
    (h : (x.keptResv gs).rd ≠ none ∨ (x.keptResv gs).wr ≠ none) :
    (posAt x.clause x.idx, x.keptResv gs) ∈ ((l.foldl (State.keepResv c x) s).gang c gs).kept := by
  obtain ⟨a, b, rfl⟩ := List.append_of_mem hgs
  rw [List.foldl_append, List.foldl_cons]
  exact (State.keepResvs_keep c x b _).kept c gs _ (State.keepResv_mem c x _ h)

/-- Threads of a core wait at a position, each in an entry or a record. -/
structure CutThreads (c : Nat) (pos : DWord) (l : List Nat) (s t : State) : Prop where
  rest : t = { s with cores := t.cores, threads := t.threads }
  pipes : (t.core c).pipes = (s.core c).pipes
  thread : ∀ k ∈ l, ∃ q, t.thr c k = { s.thr c k with pos := pos, place := q } ∧ (q = .entry ∨ q = .bin)
  others : ∀ n, (∀ k ∈ l, n ≠ threadKey c k) → Tbl.look t.threads n = Tbl.look s.threads n

theorem State.cutThread_cuts (c : Nat) (x : Pass) (s : State) (k : Nat) :
    CutThreads c (posAt x.clause x.idx) [k] s (State.cutThread c x s k) := by
  obtain ⟨hrest, hcore, -, hothers, q, hq, hplace⟩ := (s.modThr c k (fun th => { th with pos := posAt x.clause x.idx })).place_placed c k
  refine ⟨by rw [State.cutThread, hrest]; rfl, by rw [State.cutThread, hcore]; rfl, fun j hj => ?_, fun n hn => ?_⟩
  · obtain rfl := List.mem_singleton.mp hj
    refine ⟨q, hq.trans ?_, hplace⟩
    rw [State.modThr_eq, State.thr_setThr_self]
  · have hne := hn k List.mem_cons_self
    exact (hothers n hne).trans (Tbl.look_put_ne _ _ hne)

theorem State.cutThreads_cut (c : Nat) (x : Pass) (l : List Nat) (s : State) :
    CutThreads c (posAt x.clause x.idx) l s (l.foldl (State.cutThread c x) s) := by
  induction l generalizing s with
  | nil => exact ⟨rfl, rfl, fun _ h => absurd h List.not_mem_nil, fun _ _ => rfl⟩
  | cons k r ih =>
    obtain ⟨hrest, hpipes, hthread, hothers⟩ := s.cutThread_cuts c x k
    obtain ⟨hrest', hpipes', hthread', hothers'⟩ := ih (State.cutThread c x s k)
    rw [List.foldl_cons]
    have hfirst := hthread k List.mem_cons_self
    have hkeep : ∀ j, j ≠ k → (State.cutThread c x s k).thr c j = s.thr c j := fun j hj => by
      have hlook := hothers (threadKey c j) (fun i hi he => by
        rw [List.mem_singleton] at hi
        subst hi
        exact hj (by simpa [threadKey] using he))
      simp only [State.thr, Tbl.at, hlook]
    refine ⟨by rw [hrest', hrest], hpipes'.trans hpipes, fun j hj => ?_, fun n hn => ?_⟩
    · by_cases hjr : j ∈ r
      · obtain ⟨q, hq, hplace⟩ := hthread' j hjr
        refine ⟨q, ?_, hplace⟩
        by_cases hjk : j = k
        · obtain ⟨q', hq', -⟩ := hfirst
          rw [hq, hjk, hq']
        · rw [hq, hkeep j hjk]
      · obtain rfl : j = k := (List.mem_cons.mp hj).resolve_right hjr
        obtain ⟨q, hq, hplace⟩ := hfirst
        refine ⟨q, ?_, hplace⟩
        have hlook := hothers' (threadKey c j) (fun i hi he => by
          obtain rfl : j = i := by simpa [threadKey] using he
          exact hjr hi)
        rw [← hq]
        simp only [State.thr, Tbl.at, hlook]
    · exact (hothers' n fun j hj => hn j (List.mem_cons_of_mem _ hj)).trans (hothers n fun j hj => hn j (by
        rw [List.mem_singleton.mp hj]; exact List.mem_cons_self))

/-- Gangs with no lane left in the pass are all that a cut settles. -/
theorem Pass.orphans_of_none {x : Pass} (hr : ∀ e ∈ x.resv, e.1 ∈ gangsOf x.slots) (hc : ∀ e ∈ x.closing, e.1 ∈ gangsOf x.slots) :
    x.orphans = { x with resv := [], closing := [] } := by
  unfold Pass.orphans
  dsimp only
  rw [List.filter_eq_nil_iff.mpr fun e he => by simpa using hr e he, List.filter_eq_nil_iff.mpr fun e he => by simpa using hc e he]

theorem passCut_results (s : State) (c p : Nat) (x : Pass) (hx : Tbl.look (s.core c).pipes p = some x) :
    (s.halting c = false ∨ s.time < s.cutAt c → exec (.passCut c p) s = .next s)
    ∧ (s.halting c = true → s.cutAt c ≤ s.time → ∃ t, exec (.passCut c p) s = .next t ∧ Tbl.look (t.core c).pipes p = none
      ∧ (∀ k ∈ x.slots, ∃ q, t.thr c k = { s.thr c k with pos := posAt x.clause x.idx, place := q } ∧ (q = .entry ∨ q = .bin))
      ∧ (∀ n, (∀ k ∈ x.slots, n ≠ threadKey c k) → Tbl.look t.threads n = Tbl.look s.threads n)
      ∧ (∀ gs ∈ gangsOf x.slots, ∀ r, Tbl.look x.resv gs = some r → r.rd ≠ none ∨ r.wr ≠ none →
        ∃ q, (posAt x.clause x.idx, q) ∈ (t.gang c gs).kept ∧ q.hdr = x.hdr ∧ q.rd = r.rd ∧ q.wr = r.wr
          ∧ q.lanes = (x.slots.filter (fun k => k / 32 == gs)).map (· % 32))
      ∧ (∀ d g, t.gang d g = { s.gang d g with kept := (t.gang d g).kept })
      ∧ t = { s with cores := t.cores, threads := t.threads, gangs := t.gangs, teams := t.teams }
      ∧ ((∀ e ∈ x.resv, e.1 ∈ gangsOf x.slots) → (∀ e ∈ x.closing, e.1 ∈ gangsOf x.slots) → t.teams = s.teams)) := by
  have hexec : exec (.passCut c p) s = .next (if s.halting c && s.cutAt c ≤ s.time then s.cutPass c p x else s) := by
    show execPassCut c p s = _
    rw [execPassCut, hx]
  rw [hexec]
  refine ⟨fun h => ?_, fun hh ht => ⟨s.cutPass c p x, by rw [if_pos (by simp [hh, ht])], ?_⟩⟩
  · rw [if_neg]
    rcases h with h | h <;> simp [h]
  · have hsettled := s.settle_frame c x.orphans
    rw [State.cutPass_eq]
    set u := ((s.finishResv c x.orphans).closeChans c x.orphans).modCore c (fun k => { k with pipes := Tbl.drop k.pipes p }) with hu
    have hu' : u = { s with cores := u.cores, teams := u.teams } := by rw [hu, hsettled]; rfl
    have hkeep := State.keepResvs_keep c x (gangsOf x.slots) u
    have hkept := fun gs hgs => State.keepResvs_mem c x u (gs := gs) (l := gangsOf x.slots) hgs
    set v := (gangsOf x.slots).foldl (State.keepResv c x) u with hv
    obtain ⟨hrest, hpipes, hthread, hothers⟩ := State.cutThreads_cut c x x.slots v
    set t := x.slots.foldl (State.cutThread c x) v with ht
    have hthreads : v.threads = s.threads := by rw [hkeep.rest, hu']
    have hgang : ∀ d g, t.gang d g = v.gang d g := fun d g => by rw [hrest]; rfl
    refine ⟨?_, fun k hk => ?_, fun n hn => ?_, fun gs hgs r hr hres => ?_, fun d g => ?_, ?_, fun hr hc => ?_⟩
    · rw [hpipes, hkeep.rest]
      show Tbl.look (u.core c).pipes p = none
      rw [hu, State.modCore_eq, State.core_setCore_self, Tbl.look_drop, if_pos rfl]
    · obtain ⟨q, hq, hplace⟩ := hthread k hk
      exact ⟨q, by rw [hq, State.thr, hthreads, State.thr], hplace⟩
    · rw [hothers n hn, hthreads]
    · have hat : Tbl.at x.resv gs {} = r := by rw [Tbl.at, hr, Option.getD_some]
      have hrd : (x.keptResv gs).rd = r.rd := by rw [Pass.keptResv, hat]
      have hwr : (x.keptResv gs).wr = r.wr := by rw [Pass.keptResv, hat]
      rw [hgang]
      exact ⟨x.keptResv gs, hkept gs hgs (by rw [hrd, hwr]; exact hres), rfl, hrd, hwr, rfl⟩
    · rw [hgang, hkeep.gang d g, hu']
      rfl
    · rw [hrest, hkeep.rest, hu']
    · rw [hrest, hkeep.rest]
      show u.teams = s.teams
      rw [hu, Pass.orphans_of_none hr hc]
      rfl

end Sys2Proof.Machine
end

section
/-!
Restoring a saved context (R344, R345, R349, R350, R360, R375).
-/
namespace Sys2Proof.Machine

/-! ## A saved team takes its core (R350) -/

theorem State.takeCore_beside (s : State) (c n : Nat) : BesideTeams s (s.takeCore c n) := by
  unfold State.takeCore
  dsimp only
  split
  · exact s.flushPortions_beside c true
  · refine (s.flushPortions_beside c true).trans (BesideTeams.trans ?_ ((State.scrub_beside _ c).trans (.modCore _ _ _)))
    split
    · exact .modCtx _ _ _ rfl
    · exact .refl _

theorem State.seatTeam_beside (s : State) (id : Nat) (t : Team) :
    BesideTeams (s.withTeams (Tbl.put s.teams id t) s.gangs s.threads) (s.seatTeam id t) := by
  have htake : BesideTeams s (((s.grid t.grid).coresAt t.core).foldl (fun s' c => s'.takeCore c (s.grid t.grid).ctx) s) :=
    .fold (fun s' c => s'.takeCore_beside c _) _ s
  unfold State.seatTeam
  dsimp only
  refine BesideTeams.trans ?_ ((State.refuse_beside _ _).trans
    ((BesideTeams.fold (fun s c => s.l1Trim_beside c _ _) _ _).trans (State.refreshHeld_beside _ _)))
  generalize List.foldl _ s _ = u at htake ⊢
  have hu := htake.under (Tbl.put s.teams id t) s.gangs s.threads
  rw [← htake.gangs, ← htake.threads, ← htake.teams] at hu
  rw [← htake.teams, ← htake.gangs, ← htake.threads]
  exact hu

theorem State.restoreImage_beside (s : State) (n c home : Nat) : BesideTeams s (s.restoreImage n c home) := by
  unfold State.restoreImage
  split
  · exact .refl s
  · exact (BesideTeams.modCore s _ _).trans (.modCtx _ _ _ rfl)

/-- A saved team stands on its core, its gangs and threads not there yet. -/
def State.seatSaved (s : State) (n : Nat) (r : SavedTeam) (c : Nat) : State :=
  let u := (s.modCtx n (fun x => { x with saved := x.saved.filter (fun o => o.id != r.id) })).seatTeam r.id
    { r.team with core := c, lcore := s.foldCore (s.ctx n).part r.team.home }
  ((s.grid r.team.grid).coresAt c).foldl (fun s' d => s'.restoreImage n d (r.team.home + (d - c))) u

theorem State.seatSaved_beside (s : State) (n : Nat) (r : SavedTeam) (c : Nat) :
    BesideTeams ((s.setCtx n { s.ctx n with saved := (s.ctx n).saved.filter (fun o => o.id != r.id) }).withTeams
      (Tbl.put s.teams r.id { r.team with core := c, lcore := s.foldCore (s.ctx n).part r.team.home }) s.gangs s.threads)
      (s.seatSaved n r c) :=
  (State.seatTeam_beside _ _ _).trans (.fold (fun s' d => s'.restoreImage_beside n d _) _ _)

/-- A restored team's copies and operations are there again, and what is ready of them follows. -/
def State.resumeWork (s : State) (r : SavedTeam) (c : Nat) (cores : List Nat) : State :=
  let s := r.copies.foldl (fun s y => s.setCopy y) s
  let s := r.fifo.foldl (fun s f =>
    s.modCore (c + f.1) (fun k => { k with fifo := k.fifo ++ [f.2], accUsed := insertSorted r.id k.accUsed })) s
  let s := cores.foldl (fun s c => s.wakeHead c) s
  let s := r.copies.foldl (fun s y => match s.copyEvent y.id with
    | some i => s.due i
    | none => s) s
  if (s.teamThreads r.id).isEmpty then s.due (.teamEnd r.id) else s

theorem State.resumeWork_beside (s : State) (r : SavedTeam) (c : Nat) (cores : List Nat) : BesideTeams s (s.resumeWork r c cores) := by
  have hwork : BesideTeams s (r.fifo.foldl (fun s f =>
      s.modCore (c + f.1) (fun k => { k with fifo := k.fifo ++ [f.2], accUsed := insertSorted r.id k.accUsed }))
      (r.copies.foldl (fun s y => s.setCopy y) s)) :=
    (BesideTeams.fold (fun s y => .of s _ _ _ _ _) _ s).trans (.fold (fun s f => .modCore s _ _) _ _)
  have hevent : ∀ (s : State) (y : Copy), BesideTeams s (match s.copyEvent y.id with
      | some i => s.due i
      | none => s) := fun s y => by
    split
    · exact .due s _
    · exact .refl s
  have hall := (hwork.trans (.fold (fun s c => (s.wakeHead_follows c).beside) cores _)).trans (.fold hevent r.copies _)
  unfold State.resumeWork
  dsimp only
  split
  · exact hall.trans (.due _ _)
  · exact hall

/-- The slots that the threads of a saved team take, by the seats of its gangs. -/
def SavedTeam.seats (r : SavedTeam) (q : List (Nat × Nat × Nat)) : List (Nat × Nat × SavedThread) :=
  r.threads.flatMap (fun e => (q.filter (fun p => p.1 == e.gang)).map (fun p => (p.2.1, 32 * p.2.2 + e.lane, e)))

theorem State.restoreTeam_eq (s : State) (n : Nat) (r : SavedTeam) (c : Nat) :
    s.restoreTeam n r c
      = ((((r.seats ((s.seatSaved n r c).seatGangs (s.grid r.team.grid) c (r.gangs.map (catchupAll (s.ctx n)))).2).foldl
            (fun s p => s.setThr p.1 p.2.1 p.2.2.th)
            ((s.seatSaved n r c).seatGangs (s.grid r.team.grid) c (r.gangs.map (catchupAll (s.ctx n)))).1).resumeWork r c
              ((s.grid r.team.grid).coresAt c)),
        ((r.seats ((s.seatSaved n r c).seatGangs (s.grid r.team.grid) c (r.gangs.map (catchupAll (s.ctx n)))).2).filter
          (fun p => p.2.2.waits)).map (fun p => ⟨p.2.2.seq, p.1, p.2.1⟩)) := rfl

theorem catchup_num (x : Ctx) (n k : Nat) (g : Gang) : (catchup x n k g).num = g.num := by
  induction k generalizing g with
  | zero => rfl
  | succ k ih =>
    unfold catchup
    dsimp only
    split
    · split
      · rfl
      · rfl
      · exact ih _
      · exact ih _
      · rfl
    · rfl

theorem catchupAll_num (x : Ctx) (g : Gang) : (catchupAll x g).num = g.num := by
  unfold catchupAll
  induction List.range 16 generalizing g with
  | nil => rfl
  | cons n r ih => rw [List.foldl_cons, ih, catchup_num]

theorem catchup_resumed (x : Ctx) (part n k : Nat) (g : Gang) : catchup (x.resumed part) n k g = catchup x n k g := by
  induction k generalizing g with
  | zero => rfl
  | succ k ih =>
    unfold catchup
    simp only [ih]
    rfl

theorem catchupAll_resumed (x : Ctx) (part : Nat) (g : Gang) : catchupAll (x.resumed part) g = catchupAll x g := by
  unfold catchupAll
  simp only [catchup_resumed]

/-- A saved team of one gang and one thread takes its core: the gang in a slot that is free, with the thread in it. -/
theorem State.restoreTeam_one {s : State} {n c : Nat} {r : SavedTeam} {g : Gang} {e : SavedThread} (hsaved : (s.ctx n).saved = [r])
    (hgangs : r.gangs = [g]) (hthreads : r.threads = [e]) (hpaired : (s.grid r.team.grid).paired = false)
    (hnum : g.num < (s.grid r.team.grid).gangs) (hgang : e.gang = g.num) (hfree : s.freeSlots c ≠ []) :
    ∃ gs, Tbl.look s.gangs (gangKey c gs) = none
      ∧ (s.restoreTeam n r c).2 = (if e.waits then [⟨e.seq, c, 32 * gs + e.lane⟩] else [])
      ∧ BesideTeams ((s.setCtx n { s.ctx n with saved := [] }).withTeams
          (Tbl.put s.teams r.id { r.team with core := c, lcore := s.foldCore (s.ctx n).part r.team.home })
          (Tbl.put s.gangs (gangKey c gs) (catchupAll (s.ctx n) g)) (Tbl.put s.threads (threadKey c (32 * gs + e.lane)) e.th))
        (s.restoreTeam n r c).1 := by
  obtain ⟨gs, rest, hslots⟩ := List.exists_cons_of_ne_nil hfree
  have hseated := s.seatSaved_beside n r c
  rw [hsaved, show [r].filter (fun o => o.id != r.id) = [] by simp] at hseated
  set u := s.seatSaved n r c with hu
  have hslots' : u.freeSlots c = gs :: rest := by rw [← hslots, State.freeSlots, hseated.gangs]; rfl
  have hlead : g.num < (s.grid r.team.grid).lead := by
    rw [Grid.lead, hpaired]
    exact hnum
  have hseat : u.seatGangs (s.grid r.team.grid) c (r.gangs.map (catchupAll (s.ctx n)))
      = (u.setGang c gs (catchupAll (s.ctx n) g), [(g.num, c, gs)]) := by
    rw [hgangs, List.map_cons, List.map_nil]
    simp only [State.seatGangs, List.foldl_cons, List.foldl_nil, if_pos hlead, State.seatGang, hslots', List.nil_append, catchupAll_num]
  have hone : r.seats [(g.num, c, gs)] = [(c, 32 * gs + e.lane, e)] := by
    simp [SavedTeam.seats, hthreads, hgang]
  rw [State.restoreTeam_eq, ← hu, hseat, hone]
  refine ⟨gs, ?_, ?_, ?_⟩
  · have hmem : gs ∈ s.freeSlots c := by rw [hslots]; exact List.mem_cons_self
    simpa using (List.mem_filter.mp hmem).2
  · cases hw : e.waits <;> simp [hw]
  · refine BesideTeams.trans ?_ (State.resumeWork_beside _ _ _ _)
    have hput := hseated.under (Tbl.put s.teams r.id { r.team with core := c, lcore := s.foldCore (s.ctx n).part r.team.home })
      (Tbl.put s.gangs (gangKey c gs) (catchupAll (s.ctx n) g)) (Tbl.put s.threads (threadKey c (32 * gs + e.lane)) e.th)
    have hteams : u.teams = Tbl.put s.teams r.id { r.team with core := c, lcore := s.foldCore (s.ctx n).part r.team.home } := hseated.teams
    have hgs : u.gangs = s.gangs := hseated.gangs
    have hths : u.threads = s.threads := hseated.threads
    rw [← hteams, ← hgs, ← hths] at hput
    rw [← hteams, ← hgs, ← hths]
    exact hput

/-! ## Waiting threads return (R168) -/

/-- Threads change in their places alone: those that change stand in entries. -/
structure Recalled (s t : State) : Prop where
  rest : t = { s with cores := t.cores, threads := t.threads }
  thread : ∀ d k, ∃ q, t.thr d k = { s.thr d k with place := q } ∧ (q = (s.thr d k).place ∨ q = .entry)

namespace Recalled
variable {s t u : State}

theorem refl (s : State) : Recalled s s := ⟨rfl, fun _ _ => ⟨_, rfl, .inl rfl⟩⟩

theorem trans (h : Recalled s t) (g : Recalled t u) : Recalled s u := by
  refine ⟨by rw [g.rest, h.rest], fun d k => ?_⟩
  obtain ⟨q, hq, hplace⟩ := h.thread d k
  obtain ⟨q', hq', hplace'⟩ := g.thread d k
  rw [hq] at hq' hplace'
  exact ⟨q', hq', hplace'.elim (fun h => h ▸ hplace) .inr⟩

theorem fold {α : Type} {f : State → α → State} (h : ∀ s a, Recalled s (f s a)) (l : List α) (s : State) : Recalled s (l.foldl f s) := by
  induction l generalizing s with
  | nil => exact .refl s
  | cons a r ih => exact (h s a).trans (ih _)

theorem modCore (s : State) (c : Nat) (f : Core → Core) : Recalled s (s.modCore c f) := ⟨rfl, fun _ _ => ⟨_, rfl, .inl rfl⟩⟩

theorem toEntry (s : State) (c k : Nat) : Recalled s (s.modThr c k (fun th => { th with place := .entry })) := by
  refine ⟨rfl, fun d j => ?_⟩
  rw [State.modThr_eq, State.thr_setThr]
  split
  · next e =>
    rw [show s.thr d j = s.thr c k by unfold State.thr; rw [e]]
    exact ⟨_, rfl, .inr rfl⟩
  · exact ⟨_, rfl, .inl rfl⟩

end Recalled

theorem State.reintroduce_recalls (s : State) (c n : Nat) : Recalled s (s.reintroduce c n) := by
  induction n generalizing s with
  | zero => exact .refl s
  | succ n ih =>
    unfold State.reintroduce
    dsimp only
    split
    · exact .refl s
    · split
      · exact .refl s
      · exact ((Recalled.modCore s c _).trans (.fold (fun s t => .toEntry s c t) _ _)).trans (ih _)

theorem State.joinDue_recalls (s : State) (c : Nat) (pos : DWord) : Recalled s (s.joinDue c pos) :=
  (Recalled.modCore s c _).trans (.fold (fun s (r : ContRec) => .toEntry s c r.slot) _ _)

theorem State.tidy_recalls (s : State) (c : Nat) : Recalled s (s.tidy c) :=
  ((Recalled.modCore s c _).trans (.fold (fun s (e : WvtEntry) => s.joinDue_recalls c e.pos) _ _)).trans
    (State.reintroduce_recalls _ _ _)

/-- Whether or not a restored thread waits, it is as it was saved, but for its place; one that waits stands in an entry or a record. -/
theorem State.refill_one (s : State) (c k seq : Nat) (waits : Bool) :
    let t := s.refill (if waits then [⟨seq, c, k⟩] else [])
    t = { s with cores := t.cores, threads := t.threads }
      ∧ ∃ q, t.thr c k = { s.thr c k with place := q } ∧ (waits = true → q = .entry ∨ q = .bin) := by
  cases waits with
  | false => exact ⟨rfl, _, rfl, fun h => absurd h Bool.false_ne_true⟩
  | true =>
    intro t
    have ht : t = (s.toBin c k).tidy c := rfl
    obtain ⟨hrest, hthread⟩ := (s.toBin c k).tidy_recalls c
    obtain ⟨q, hq, hplace⟩ := hthread c k
    have hbin : (s.toBin c k).thr c k = { s.thr c k with place := .bin } := by
      unfold State.toBin
      exact State.thr_setThr_self _ _ _ _
    rw [hbin] at hq hplace
    rw [ht]
    exact ⟨by rw [hrest]; rfl, q, hq, fun _ => hplace.symm⟩

/-! ## The context resumes (R344, R360, R375) -/

/-- The translations that a context has after it resumes on a partition. -/
def freshTlb (s : State) (n part : Nat) (l : List TlbEntry) : List TlbEntry :=
  if part = (s.ctx n).part then l else l.filter (fun y => !(y.ctx == n))

/-- A context resumes, and none of its teams has a core yet. -/
def State.resumedOn (s : State) (n part : Nat) : State :=
  let u := (if part == (s.ctx n).part then s else s.dropTlbs (fun e => e.ctx == n)).setCtx n ((s.ctx n).resumed part)
  let v := { u with cores := u.cores.map (fun (e : Nat × Core) =>
    if e.2.ctx == some n then (e.1, { e.2 with wd := (s.ctx n).savedWd }) else e) }
  if (s.ctx n).migDue then v.raise (v.vcpOfCtx n) 3 else v

theorem exec_restore {s : State} {n part : Nat} (hrun : (s.ctx n).run = .saved) (hcores : (Tbl.at s.parts part {}).ncores ≠ 0)
    (harr : (s.ctx n).arriving = false) : exec (.restore n part) s
      = .next ((((s.resumedOn n part).restoreAll n (s.ctx n).saved.length []).wakeSignals).wakePlace).wakeFront := by
  show execRestore n part s = _
  unfold execRestore
  dsimp only
  rw [if_neg (by simp [hrun]), if_neg (by simp [hrun, hcores, harr])]
  rfl

theorem exec_restore_of_arriving {s : State} {n : Nat} (part : Nat) (hrun : (s.ctx n).run = .saved) (harr : (s.ctx n).arriving = true) :
    exec (.restore n part) s = .next s := by
  show execRestore n part s = _
  unfold execRestore
  dsimp only
  rw [if_neg (by simp [hrun]), if_pos (by simp [harr])]

/-- What resuming changes: the context, the translations of another partition, the watchdog counts, and the cause for its VF. -/
structure Resumes (n part : Nat) (s v : State) : Prop where
  rest : v = { s.setCtx n ((s.ctx n).resumed part) with
    cores := v.cores, ctlb := v.ctlb
    causes := if (s.ctx n).migDue then (s.raise (s.vcpOfCtx n) 3).causes else s.causes }
  ctlb : ∀ k, Tbl.at v.ctlb k [] = freshTlb s n part (Tbl.at s.ctlb k [])
  core : ∀ d, v.core d = { s.core d with
    tlb := freshTlb s n part (s.core d).tlb, wd := if (s.core d).ctx = some n then (s.ctx n).savedWd else (s.core d).wd }

theorem State.resumedOn_resumes (s : State) (n part : Nat) : Resumes n part s (s.resumedOn n part) := by
  let u := if part == (s.ctx n).part then s else s.dropTlbs (fun e => e.ctx == n)
  have hu : u = { s with cores := u.cores, ctlb := u.ctlb } := by
    unfold u
    split <;> rfl
  have hctlb : ∀ k, Tbl.at u.ctlb k [] = freshTlb s n part (Tbl.at s.ctlb k []) := fun k => by
    unfold u freshTlb
    by_cases h : part = (s.ctx n).part
    · simp [h]
    · simp only [beq_iff_eq, h, if_false]
      exact s.dropTlbs_cluster _ k
  have hcore : ∀ d, u.core d = { s.core d with tlb := freshTlb s n part (s.core d).tlb } := fun d => by
    unfold u freshTlb
    by_cases h : part = (s.ctx n).part
    · simp [h]
    · simp only [beq_iff_eq, h, if_false]
      exact s.dropTlbs_core _ d
  let wd : Core → Core := fun k => if k.ctx == some n then { k with wd := (s.ctx n).savedWd } else k
  let v := { u.setCtx n ((s.ctx n).resumed part) with cores := u.cores.map (fun (e : Nat × Core) => (e.1, wd e.2)) }
  have hv : s.resumedOn n part = if (s.ctx n).migDue then v.raise (v.vcpOfCtx n) 3 else v := by
    have hmap : u.cores.map (fun (e : Nat × Core) => (e.1, wd e.2)) = u.cores.map (fun (e : Nat × Core) =>
        if e.2.ctx == some n then (e.1, { e.2 with wd := (s.ctx n).savedWd }) else e) :=
      List.map_congr_left fun e _ => by
        unfold wd
        split <;> rfl
    unfold v
    rw [hmap]
    rfl
  have hvcore : ∀ d, v.core d = wd (u.core d) := fun d => Tbl.at_map_snd u.cores wd d {}
  have hrest : v = { s.setCtx n ((s.ctx n).resumed part) with cores := v.cores, ctlb := v.ctlb } := by
    unfold v
    rw [hu]
    rfl
  have hraise : (v.raise (v.vcpOfCtx n) 3).causes = (s.raise (s.vcpOfCtx n) 3).causes := by
    rw [hrest]
    show (({ s.setCtx n ((s.ctx n).resumed part) with cores := v.cores, ctlb := v.ctlb } : State).raise (s.vcpOfCtx n) 3).causes = _
    unfold State.raise
    cases s.vcpOfCtx n <;> rfl
  have hraised : s.resumedOn n part = { v with causes := if (s.ctx n).migDue then (s.raise (s.vcpOfCtx n) 3).causes else s.causes } := by
    rw [hv]
    split
    · rw [← hraise]
      exact State.raise_causes _ _ _
    · rw [hrest]
      rfl
  rw [hraised]
  refine ⟨by rw [hrest], hctlb, fun d => (hvcore d).trans ?_⟩
  unfold wd
  rw [hcore d]
  by_cases h : (s.core d).ctx = some n
  · simp [h]
  · simp [h]

/-! ## The teams that take their cores (R350) -/

/-- Which saved team can take its core rests on no translation and no watchdog count. -/
theorem State.canRestore_congr {u v : State} (hctxs : v.ctxs = u.ctxs) (hgrids : v.grids = u.grids) (hparts : v.parts = u.parts)
    (hteams : v.teams = u.teams) (hgangs : v.gangs = u.gangs) (hbanks : ∀ d, (v.core d).banks = (u.core d).banks)
    (hhalted : ∀ d, (v.core d).halted = (u.core d).halted) (n : Nat) (r : SavedTeam) : v.canRestore n r = u.canRestore n r := by
  have hctx : v.ctx = u.ctx := by unfold State.ctx; rw [hctxs]
  have hgrid : v.grid = u.grid := by unfold State.grid; rw [hgrids]
  have hfold : v.foldCore = u.foldCore := by unfold State.foldCore; rw [hparts]
  have hphys : v.physCore = u.physCore := by unfold State.physCore; rw [hparts]
  have hfoot : v.footprints = u.footprints := by unfold State.footprints; rw [hteams, hgrid]
  have hfree : v.freeSlots = u.freeSlots := by unfold State.freeSlots; rw [hgangs]
  have hteam : v.teamCtx = u.teamCtx := by unfold State.teamCtx; rw [hgrid]
  have hon : v.teamsOn = u.teamsOn := by unfold State.teamsOn State.teamCores; rw [hteams, hgrid]
  have hcoop : v.coopFits = u.coopFits := by unfold State.coopFits; rw [hparts, hctx]
  have hheld : v.heldByNc = u.heldByNc := by unfold State.heldByNc; rw [hctx, hteam, hgrid]
  unfold State.canRestore State.fits State.budget
  simp only [hbanks, hhalted, hctx, hgrid, hfold, hphys, hfoot, hfree, hon, hteam, hcoop, hheld]

/-- A team that can take its core finds free slots there for its gangs. -/
theorem State.freeSlots_of_canRestore {s : State} {n c : Nat} {r : SavedTeam} (h : s.canRestore n r = true)
    (hc : s.physCore (s.ctx n).part (s.foldCore (s.ctx n).part r.team.home) = some c)
    (hpaired : (s.grid r.team.grid).paired = false) (hpos : 0 < (s.grid r.team.grid).gangs) : s.freeSlots c ≠ [] := by
  intro hnil
  unfold State.canRestore at h
  dsimp only at h
  rw [hc] at h
  simp only [Bool.and_eq_true, State.fits, Grid.coresAt, hpaired, Bool.false_eq_true, if_false, List.all_cons, hnil, Grid.lead,
    List.length_nil, decide_eq_true_eq, beq_self_eq_true, if_true] at h
  omega

/-- One saved team that can take its core does so, and its threads wait again. -/
theorem State.restoreAll_one {s : State} {n c : Nat} {r : SavedTeam} (hsaved : (s.ctx n).saved = [r]) (hr : s.canRestore n r = true)
    (hc : s.physCore (s.ctx n).part (s.foldCore (s.ctx n).part r.team.home) = some c) :
    s.restoreAll n 1 [] = (s.restoreTeam n r c).1.refill (s.restoreTeam n r c).2 := by
  have hnext : s.nextRestore n = some r := by
    rw [State.nextRestore, hsaved, List.filter_cons_of_pos hr]
    rfl
  unfold State.restoreAll
  rw [hnext]
  dsimp only
  rw [hc]
  rfl

/-- The front end, the queues and the placement are woken once the context runs again. -/
theorem State.wakes_follow (s : State) : Follows s (s.wakeSignals.wakePlace.wakeFront) :=
  (s.wakeSignals_follows.trans (State.wakePlace_follows _)).trans (State.wakeFront_follows _)

section
variable {s : State} {n part : Nat} (hrun : (s.ctx n).run = .saved) (hcores : (Tbl.at s.parts part {}).ncores ≠ 0)
  (harr : (s.ctx n).arriving = false)
include hrun hcores harr

theorem restore_of_none_saved (hsaved : (s.ctx n).saved = []) :
    ∃ t, exec (.restore n part) s = .next t ∧ t.ctx n = (s.ctx n).resumed part
      ∧ t.causes = (if (s.ctx n).migDue then (s.raise (s.vcpOfCtx n) 3).causes else s.causes)
      ∧ t = { s with ctxs := t.ctxs, agenda := t.agenda, causes := t.causes, cores := t.cores, ctlb := t.ctlb }
      ∧ (∀ k, Tbl.at t.ctlb k [] = freshTlb s n part (Tbl.at s.ctlb k []))
      ∧ ∀ d, t.core d = { s.core d with
          tlb := freshTlb s n part (s.core d).tlb, wd := if (s.core d).ctx = some n then (s.ctx n).savedWd else (s.core d).wd } := by
  obtain ⟨hrest, hctlb, hcore⟩ := s.resumedOn_resumes n part
  have hexec := exec_restore hrun hcores harr
  rw [hsaved] at hexec
  have hwake := (s.resumedOn n part).wakes_follow.agenda
  refine ⟨_, hexec, ?_⟩
  rw [List.length_nil, State.restoreAll, show (s.resumedOn n part).refill [] = s.resumedOn n part from rfl, hwake]
  refine ⟨?_, ?_, ?_, hctlb, hcore⟩
  · have hctxs : (s.resumedOn n part).ctxs = Tbl.put s.ctxs n ((s.ctx n).resumed part) := by rw [hrest]; rfl
    show Tbl.at (s.resumedOn n part).ctxs n {} = _
    rw [hctxs, Tbl.at_put_self]
  · show (s.resumedOn n part).causes = _
    rw [hrest]
  · rw [hrest]
    rfl

theorem restore_of_one_saved {r : SavedTeam} {g : Gang} {e : SavedThread} {c : Nat} (hsaved : (s.ctx n).saved = [r])
    (hgangs : r.gangs = [g]) (hthreads : r.threads = [e]) (hpaired : (s.grid r.team.grid).paired = false)
    (hnum : g.num < (s.grid r.team.grid).gangs) (hgang : e.gang = g.num) :
    let u := s.setCtx n ((s.ctx n).resumed part)
    let told := if (s.ctx n).migDue then (s.raise (s.vcpOfCtx n) 3).causes else s.causes
    u.canRestore n r = true → u.physCore part (u.foldCore part r.team.home) = some c →
    ∃ t, exec (.restore n part) s = .next t ∧ Leaves { s with causes := told, ctlb := t.ctlb } t ∧ (t.ctx n).run = .running
      ∧ (t.ctx n).part = part ∧ (t.ctx n).saved = []
      ∧ (∃ tm, Tbl.look t.teams r.id = some tm ∧ tm = { r.team with core := c, lcore := u.foldCore part r.team.home })
      ∧ ∃ gs q, Tbl.look s.gangs (gangKey c gs) = none ∧ t.gang c gs = catchupAll (s.ctx n) g
        ∧ t.thr c (32 * gs + e.lane) = { e.th with place := q } ∧ (e.waits = true → q = .entry ∨ q = .bin) := by
  intro u told hcan hphys
  obtain ⟨hrest, hctlb, hcore⟩ := s.resumedOn_resumes n part
  have hexec := exec_restore hrun hcores harr
  set v := s.resumedOn n part with hv
  have hvctx : v.ctx n = (s.ctx n).resumed part := by
    have hctxs : v.ctxs = Tbl.put s.ctxs n ((s.ctx n).resumed part) := by rw [hrest]; rfl
    rw [State.ctx, hctxs, Tbl.at_put_self]
  have hvsaved : (v.ctx n).saved = [r] := by rw [hvctx]; exact hsaved
  have hvgrid : v.grid r.team.grid = s.grid r.team.grid := by rw [hrest]; rfl
  have hvcan : v.canRestore n r = true :=
    (State.canRestore_congr (u := u) (by rw [hrest]) (by rw [hrest]) (by rw [hrest]) (by rw [hrest]) (by rw [hrest])
      (fun d => by rw [hcore d]; rfl) (fun d => by rw [hcore d]; rfl) n r).trans hcan
  have hvfold : v.foldCore (v.ctx n).part r.team.home = u.foldCore part r.team.home := by rw [hvctx, hrest]; rfl
  have hvphys : v.physCore (v.ctx n).part (v.foldCore (v.ctx n).part r.team.home) = some c := by
    rw [hvfold, hvctx, ← hphys, hrest]
    rfl
  obtain ⟨gs, hslot, hwaits, hb⟩ := State.restoreTeam_one hvsaved hgangs hthreads (by rw [hvgrid]; exact hpaired) (by rw [hvgrid]; exact hnum) hgang
    (State.freeSlots_of_canRestore hvcan hvphys (by rw [hvgrid]; exact hpaired) (by rw [hvgrid]; omega))
  rw [hsaved, List.length_singleton, State.restoreAll_one hvsaved hvcan hvphys, hwaits] at hexec
  set w := (v.restoreTeam n r c).1 with hw
  obtain ⟨hrefill, q, hq, hplace⟩ := w.refill_one c (32 * gs + e.lane) e.seq e.waits
  set z := w.refill (if e.waits then [⟨e.seq, c, 32 * gs + e.lane⟩] else []) with hz
  have hwake := z.wakes_follow.agenda
  have hctxs : ∀ m, z.ctx m = w.ctx m := fun m => by rw [State.ctx, hrefill]; rfl
  obtain ⟨hwrun, hwpart, hwsaved⟩ : (w.ctx n).run = .running ∧ (w.ctx n).part = part ∧ (w.ctx n).saved = [] := by
    rw [hb.ctx n]
    have hbase : ∀ (T : Tbl Team) (G : Tbl Gang) (H : Tbl Thread), ((v.setCtx n { v.ctx n with saved := [] }).withTeams T G H).ctx n
        = { v.ctx n with saved := [] } := fun _ _ _ => State.ctx_setCtx_self v n _
    rw [hbase, hvctx]
    exact ⟨rfl, rfl, rfl⟩
  refine ⟨_, hexec, ?_⟩
  rw [hwake]
  refine ⟨?_, ?_, ?_, ?_, ⟨_, ?_, rfl⟩, gs, q, ?_, ?_, ?_, hplace⟩
  · have hbase : ∀ (T : Tbl Team) (G : Tbl Gang) (H : Tbl Thread), Leaves v ((v.setCtx n { v.ctx n with saved := [] }).withTeams T G H) :=
      fun _ _ _ => rfl
    have hleaves : Leaves v z := ((hbase _ _ _).trans hb.leaves).trans (by unfold Leaves; rw [hrefill])
    have hzctlb : z.ctlb = v.ctlb := by rw [hleaves]
    unfold Leaves
    rw [hleaves, hrest]
    rfl
  · exact (congrArg Ctx.run (hctxs n)).trans hwrun
  · exact (congrArg Ctx.part (hctxs n)).trans hwpart
  · exact (congrArg Ctx.saved (hctxs n)).trans hwsaved
  · show Tbl.look z.teams r.id = _
    rw [hrefill]
    show Tbl.look w.teams r.id = _
    rw [hb.teams]
    exact (Tbl.look_put_self _ _ _).trans (by rw [hvfold])
  · rw [← hslot, hrest]
    rfl
  · show z.gang c gs = _
    rw [hrefill]
    show w.gang c gs = _
    rw [hb.gang]
    refine (Tbl.at_put_self _ _ _ _).trans ?_
    rw [hvctx, catchupAll_resumed]
  · refine hq.trans ?_
    have hth : w.thr c (32 * gs + e.lane) = e.th := (hb.thr c _).trans (Tbl.at_put_self _ _ _ _)
    rw [hth]

end

end Sys2Proof.Machine
end

section
/-!
The kill of a stopped context, live migration, and the obligation on halting a context and putting it away (R340, R355, R356, R358, R390).
-/
namespace Sys2Proof.Machine

/-! ## The kill (R340, R358) -/

theorem Tbl.look_filter_of {α : Type} (t : Tbl α) {p : Nat → Bool} {k : Nat} (h : p k = true) :
    Tbl.look (t.filter (fun e => p e.1)) k = Tbl.look t k := by
  induction t with
  | nil => rfl
  | cons e r ih =>
    obtain ⟨a, b⟩ := e
    by_cases hk : a = k
    · subst hk
      simp [h, Tbl.look]
    · by_cases hp : p a = true
      · simpa [List.filter_cons, hp, Tbl.look, hk] using ih
      · simpa [List.filter_cons, hp, Tbl.look, hk] using ih

/-- Teams that leave one after another leave what their going leaves. -/
theorem BesideTeams.removeTeams (ids : List Nat) {s t : State} (h : BesideTeams s t) :
    BesideTeams (ids.foldl (fun s id => s.withoutTeam id) s) (ids.foldl (fun s id => s.removeTeam id) t) := by
  induction ids generalizing s t with
  | nil => exact h
  | cons id r ih => exact ih ((h.withoutTeam id).trans (t.removeTeam_beside id))

theorem State.withoutTeams_frame (ids : List Nat) (s : State) : ids.foldl (fun s id => s.withoutTeam id) s
    = s.withTeams (ids.foldl (fun s id => s.withoutTeam id) s).teams (ids.foldl (fun s id => s.withoutTeam id) s).gangs
        (ids.foldl (fun s id => s.withoutTeam id) s).threads := by
  induction ids generalizing s with
  | nil => rfl
  | cons id r ih =>
    rw [List.foldl_cons, ih]
    rfl

theorem State.withoutTeams_gone (ids : List Nat) (s : State) {id : Nat} (h : id ∈ ids ∨ Tbl.look s.teams id = none) :
    Tbl.look (ids.foldl (fun s id => s.withoutTeam id) s).teams id = none := by
  induction ids generalizing s with
  | nil => exact h.resolve_left List.not_mem_nil
  | cons a r ih =>
    have hdrop : Tbl.look (s.withoutTeam a).teams id = if id = a then none else Tbl.look s.teams id := Tbl.look_drop _ _ _
    refine ih _ ?_
    rcases h with h | h
    · rcases List.mem_cons.mp h with rfl | h
      · exact .inr (by rw [hdrop, if_pos rfl])
      · exact .inl h
    · exact .inr (by rw [hdrop, h, ite_self])

/-- A context that is being killed, its teams gone and its cores scrubbed. -/
def State.emptied (s : State) (n : Nat) : State :=
  (((s.ctxTeams n).map (·.1)).foldl (fun (s : State) id => s.removeTeam id) ({ s with cores := s.cores.map (fun (e : Nat × Core) =>
    if (s.coresOf n).contains e.1 then (e.1, { e.2 with pipes := [], pending := [], ssh := [] }) else e) } : State)).scrubEmpty (s.coresOf n)

theorem State.endContext_eq (s : State) (n : Nat) : s.endContext n =
    let u := s.emptied n
    let v := u.setCtx n { u.ctx n with saved := [], savedAcc := [], chosen := [], migrate := none, stop := stopWord 4 0 0 0 }
    { v with
      tracking := v.tracking.filter (· != n), dirtyPages := v.dirtyPages.filter (fun e => e.1 != n)
      grids := u.grids.filter (fun e => !((u.grids.filter (fun e => e.2.ctx == n)).map (·.1)).contains e.1)
      begun := u.begun.filter (fun b => queueCtx (u.queue b.queue) != n) } := rfl

theorem State.emptied_beside (s : State) (n : Nat) :
    BesideTeams (((s.ctxTeams n).map (·.1)).foldl (fun s id => s.withoutTeam id) s) (s.emptied n) :=
  (BesideTeams.removeTeams _ (.of s _ _ _ _ _)).trans (State.scrubEmpty_beside _ _)

theorem contextKill_results (s : State) (n : Nat) :
    ((s.ctx n).run ≠ .stopped → exec (.contextKill n) s = .next s)
    ∧ ((s.ctx n).run = .stopped → s.settled ((s.ctxTeams n).map (·.1)) = true → (Tbl.keys s.grids).Nodup → ∃ t, exec (.contextKill n) s = .next t
      ∧ (∀ e ∈ s.ctxTeams n, Tbl.look t.teams e.1 = none) ∧ (∀ e ∈ t.grids, e.2.ctx ≠ n)
      ∧ (∀ j g, Tbl.look s.grids j = some g → g.ctx ≠ n → Tbl.look t.grids j = some g)
      ∧ (t.ctx n).saved = [] ∧ (t.ctx n).stop = stopWord 4 0 0 0 ∧ (t.ctx n).run = .stopped
      ∧ t.begun = s.begun.filter (fun b => queueCtx (t.queue b.queue) != n) ∧ (s.vcpPages = none → t.queues = s.queues)) := by
  refine ⟨fun hrun => ?_, fun hrun hsettled hnd => ⟨(s.endContext n).wakePlace, ?_, ?_⟩⟩
  · show execContextKill n s = _
    unfold execContextKill
    exact if_pos (by simpa using hrun)
  · show execContextKill n s = _
    unfold execContextKill
    dsimp only
    rw [if_neg (by simp [hrun]), if_pos hsettled]
  · have hb := s.emptied_beside n
    have hframe := State.withoutTeams_frame ((s.ctxTeams n).map (·.1)) s
    have hgone := fun id h => State.withoutTeams_gone ((s.ctxTeams n).map (·.1)) s (id := id) (.inl h)
    rw [(State.wakePlace_follows _).agenda, State.endContext_eq]
    set b := ((s.ctxTeams n).map (·.1)).foldl (fun s id => s.withoutTeam id) s with hbase
    set u := s.emptied n with hu
    have hgrids : u.grids = s.grids := by rw [hb.grids, hframe]; rfl
    have hctx : ∀ x : Ctx, (u.setCtx n x).ctx n = x := fun x => State.ctx_setCtx_self u n x
    refine ⟨fun e he => ?_, fun e he => ?_, fun j g hj hg => ?_, ?_, ?_, ?_, ?_, fun hpages => ?_⟩
    · show Tbl.look u.teams e.1 = none
      rw [hb.teams]
      exact hgone e.1 (List.mem_map_of_mem he)
    · have hin := List.mem_filter.mp he
      intro hn
      have hmem : e.1 ∈ (u.grids.filter (fun e => e.2.ctx == n)).map (·.1) :=
        List.mem_map_of_mem (List.mem_filter.mpr ⟨hin.1, by simpa using hn⟩)
      simpa [hmem] using hin.2
    · refine (Tbl.look_filter_of u.grids (p := fun k => !((u.grids.filter (fun e => e.2.ctx == n)).map (·.1)).contains k) ?_).trans
        (hgrids ▸ hj)
      rw [hgrids, Bool.not_eq_true', Bool.eq_false_iff]
      intro hc
      obtain ⟨e, he, rfl⟩ := List.mem_map.mp (List.contains_iff_mem.mp hc)
      obtain ⟨he, hn⟩ := List.mem_filter.mp he
      rw [Tbl.look_of_nodup hnd he] at hj
      exact hg (Option.some.inj hj ▸ by simpa using hn)
    · exact congrArg Ctx.saved (hctx _)
    · exact congrArg Ctx.stop (hctx _)
    · refine (congrArg Ctx.run (hctx _)).trans ((hb.run n).trans ?_)
      rw [hframe]
      exact hrun
    · show u.begun.filter _ = _
      rw [show u.begun = s.begun by rw [hb.rest, hframe]; rfl]
      rfl
    · show u.queues = s.queues
      rw [hb.queues (by rw [hframe]; exact hpages), hframe]
      rfl

/-! ## Live migration (R355, R356, R390) -/

theorem State.turnAway_frame (s : State) (m : Msg) (p : Nat × Nat) : s.turnAway m p = { s with outbox := (s.turnAway m p).outbox } := by
  unfold State.turnAway
  dsimp only
  split <;> rfl

theorem State.turnAways_frame (l : List Msg) (p : Nat × Nat) (s : State) :
    l.foldl (fun s m => s.turnAway m p) s = { s with outbox := (l.foldl (fun s m => s.turnAway m p) s).outbox } := by
  induction l generalizing s with
  | nil => rfl
  | cons m r ih => rw [List.foldl_cons, ih, s.turnAway_frame m p]

/-- A rank-table entry that names a context of this device names its new place. -/
def movedRank (id : BitVec 9) (n dev new : Nat) (w : Word) : Word :=
  if w.getLsbD 31 = true ∧ w.extractLsb' 20 9 = id ∧ w.toNat % 2 ^ 12 = n then BitVec.ofNat 32 (2 ^ 31 + dev * 2 ^ 20 + new) else w

theorem movedRank_zero (id : BitVec 9) (n dev new : Nat) : movedRank id n dev new 0 = 0 := if_neg (by simp)

/-- A rank-table entry as the cut-over leaves it, with its key. -/
def State.moveRank (s : State) (n dev new : Nat) (r : Nat × Word) : Nat × Word :=
  if r.2.getLsbD 31 && r.2.extractLsb' 20 9 == s.devId && bitsOf r.2.toNat 11 0 == n
  then (r.1, BitVec.ofNat 32 (2 ^ 31 + dev * 2 ^ 20 + new)) else r

theorem State.moveRank_eq (s : State) (n dev new : Nat) (r : Nat × Word) :
    s.moveRank n dev new r = (r.1, movedRank s.devId n dev new r.2) := by
  have hbits : bitsOf r.2.toNat 11 0 = r.2.toNat % 2 ^ 12 := by simp [bitsOf]
  unfold State.moveRank movedRank
  rw [hbits]
  by_cases h : r.2.getLsbD 31 = true ∧ r.2.extractLsb' 20 9 = s.devId ∧ r.2.toNat % 2 ^ 12 = n
  · rw [if_pos h, if_pos (by simpa [and_assoc] using h)]
  · rw [if_neg h, if_neg (by simpa [and_assoc] using h)]

theorem State.redirect_ctx (s : State) (n dev new d : Nat) :
    (s.redirect n dev new).ctx d = { s.ctx d with ranks := (s.ctx d).ranks.map (s.moveRank n dev new) } :=
  Tbl.at_map_snd s.ctxs (fun x => { x with ranks := x.ranks.map (s.moveRank n dev new) }) d {}

theorem State.redirect_ranks (s : State) (n dev new d r : Nat) :
    Tbl.at ((s.redirect n dev new).ctx d).ranks r 0 = movedRank s.devId n dev new (Tbl.at (s.ctx d).ranks r 0) := by
  rw [State.redirect_ctx, Tbl.at,
    Tbl.look_map _ (s.moveRank n dev new) (fun e => by rw [State.moveRank_eq])]
  simp only [State.moveRank_eq, Tbl.at]
  cases Tbl.look (s.ctx d).ranks r with
  | none => exact (movedRank_zero _ _ _ _).symm
  | some w => rfl

/-- The cut-over of a live migration, before the chunks that no collective has taken are turned away. -/
def State.cutOver (s : State) (n dev new : Nat) : State :=
  ((s.setCtx n { s.ctx n with run := .moved, movedTo := some (dev, new), migrate := none }).redirect n dev new).untrack n

theorem State.cutOver_ctx (s : State) (n dev new : Nat) : (s.cutOver n dev new).ctx n = { s.ctx n with
    run := .moved, movedTo := some (dev, new), migrate := none, ranks := ((s.cutOver n dev new).ctx n).ranks } := by
  have h := (s.setCtx n { s.ctx n with run := .moved, movedTo := some (dev, new), migrate := none }).redirect_ctx n dev new n
  rw [State.ctx_setCtx_self] at h
  exact h.trans (by rw [show (s.cutOver n dev new).ctx n = _ from h])

theorem State.cutOver_ranks (s : State) (n dev new d r : Nat) :
    Tbl.at ((s.cutOver n dev new).ctx d).ranks r 0 = movedRank s.devId n dev new (Tbl.at (s.ctx d).ranks r 0) := by
  refine (State.redirect_ranks _ n dev new d r).trans ?_
  rw [State.ctx_setCtx]
  split
  · next h => rw [h]; rfl
  · rfl

theorem liveMigrate_results (s : State) (n dev new : Nat) :
    (dev ≠ s.devId.toNat → (s.ctx n).run = .running → (s.ctx n).migrate = none → ∃ t, exec (.liveMigrate n dev new) s = .next t
      ∧ t.ctx n = { s.ctx n with migrate := some (dev, new) } ∧ t = { s with ctxs := t.ctxs, tracking := n :: s.tracking.filter (· != n) })
    ∧ (dev ≠ s.devId.toNat → (s.ctx n).run = .running → (s.ctx n).migrate ≠ none → s.ctxTeams n ≠ [] →
      ∃ t, exec (.liveMigrate n dev new) s = .next t ∧ (t.ctx n).run = .halting ∧ (t.ctx n).preemptAt = s.timebase
        ∧ t = { s with ctxs := t.ctxs, gangs := t.gangs, agenda := t.agenda })
    ∧ (dev ≠ s.devId.toNat → (s.ctx n).run = .saved → (∃ y ∈ s.dirtyPages, y.1 = n) → exec (.liveMigrate n dev new) s = .next s)
    ∧ (dev ≠ s.devId.toNat → (s.ctx n).run = .saved → (∀ y ∈ s.dirtyPages, y.1 ≠ n) → ∃ t, exec (.liveMigrate n dev new) s = .next t
      ∧ (t.ctx n).run = .moved ∧ (t.ctx n).movedTo = some (dev, new) ∧ (t.ctx n).migrate = none
      ∧ (∃ u : State, u = { s with ctxs := t.ctxs, tracking := s.tracking.filter (· != n), dirtyPages := t.dirtyPages }
        ∧ t = (s.early.filter (fun m => m.dctx.toNat == n)).foldl (fun y m => y.turnAway m (dev, new))
            { u with early := s.early.filter (fun m => m.dctx.toNat != n) })
      ∧ (∀ y, y ∈ t.dirtyPages ↔ y ∈ s.dirtyPages)
      ∧ (dev < 2 ^ 9 → new < 2 ^ 12 → ∀ d r, let e := Tbl.at (s.ctx d).ranks r 0
        Tbl.at (t.ctx d).ranks r 0 = if e.getLsbD 31 = true ∧ e.extractLsb' 20 9 = s.devId ∧ e.toNat % 2 ^ 12 = n
          then BitVec.ofNat 32 (2 ^ 31 + dev * 2 ^ 20 + new) else e))
    ∧ (dev = s.devId.toNat → (s.ctx new).run = .saved → ∃ t, exec (.liveMigrate n dev new) s = .next t
      ∧ t.ctx new = { s.ctx new with arriving := false, migDue := true }
      ∧ (∀ d, d ≠ new → Tbl.look t.ctxs d = Tbl.look s.ctxs d)
      ∧ t = { s with
        ctxs := t.ctxs, held := s.held.filter (fun e => e.1 != new)
        agenda := s.agenda ++ (s.held.filter (fun e => e.1 == new)).map (fun e => e.2) ++ [.event (.restore new (s.ctx new).part)] }) := by
  have hexec : exec (.liveMigrate n dev new) s = execLiveMigrate n dev new s := rfl
  rw [hexec]
  unfold execLiveMigrate
  dsimp only
  refine ⟨fun hdev hrun hmig => ?_, fun hdev hrun hmig hteams => ?_, fun hdev hrun hdirty => ?_, fun hdev hrun hclean => ?_,
    fun hdev hrun => ?_⟩
  · rw [if_neg (by simpa using hdev), if_pos (by simp [hrun, hmig])]
    exact ⟨_, rfl, State.ctx_setCtx_self _ _ _, rfl⟩
  · rw [if_neg (by simpa using hdev), if_neg (by simp [hmig]), if_pos (by simp [hrun])]
    obtain ⟨hctx, -, hrest, -⟩ := s.halt_spec n
    exact ⟨_, rfl, by rw [hctx, if_neg hteams], by rw [hctx], hrest⟩
  · obtain ⟨y, hy, hn⟩ := hdirty
    have hany : s.dirtyPages.any (·.1 == n) = true := List.any_eq_true.mpr ⟨y, hy, by simpa using hn⟩
    rw [if_neg (by simpa using hdev), if_neg (by simp [hrun]), if_neg (by simp [hrun]), if_neg (by simp [hany])]
  · have hany : s.dirtyPages.any (·.1 == n) = false := List.any_eq_false.mpr fun y hy => by simpa using hclean y hy
    rw [if_neg (by simpa using hdev), if_neg (by simp [hrun]), if_neg (by simp [hrun]), if_pos (by simp [hrun, hany])]
    refine ⟨(s.cutOver n dev new).turnEarly n (dev, new), rfl, ?_⟩
    have hframe : (s.cutOver n dev new).turnEarly n (dev, new) = { s.cutOver n dev new with
        early := s.early.filter (fun m => m.dctx.toNat != n), outbox := ((s.cutOver n dev new).turnEarly n (dev, new)).outbox } :=
      State.turnAways_frame _ (dev, new) _
    have hctx : ((s.cutOver n dev new).turnEarly n (dev, new)).ctx = (s.cutOver n dev new).ctx := by rw [hframe]; rfl
    have hctxs : ((s.cutOver n dev new).turnEarly n (dev, new)).ctxs = (s.cutOver n dev new).ctxs := by rw [hframe]
    have hpages : ((s.cutOver n dev new).turnEarly n (dev, new)).dirtyPages = s.dirtyPages.filter (fun e => e.1 != n) := by rw [hframe]; rfl
    have hkept : s.dirtyPages.filter (fun e => e.1 != n) = s.dirtyPages :=
      List.filter_eq_self.mpr fun y hy => by simpa using hclean y hy
    rw [hctx, hctxs, hpages, State.cutOver_ctx]
    refine ⟨rfl, rfl, rfl, ⟨s.cutOver n dev new, rfl, rfl⟩, fun y => by rw [hkept], fun _ _ d r => ?_⟩
    exact State.cutOver_ranks s n dev new d r
  · rw [if_pos (by simpa using hdev), if_neg (by simp [hrun])]
    exact ⟨_, rfl, State.ctx_setCtx_self _ _ _, fun d hd => Tbl.look_put_ne _ _ hd, rfl⟩

/-- Settles O52: each event on a context that is halted and put away, by what it leaves the context, its teams and its cores. -/
theorem preemptionEventResults : Obligations.PreemptionEventResults := by
  unfold Obligations.PreemptionEventResults
  intro saves calm
  refine ⟨preemptRequest_results, passCut_results, fun s c n hctx => cutAt_eq hctx, watchdogExpire_results, preemptChoose_results,
    drainDeadline_results, ncPreempt_results, ?_, fun s n part => exec_restore_of_arriving part, contextKill_results, liveMigrate_results⟩
  intro s n part r g e c hrun hcores harr u told gr fresh
  have htold : told = if (s.ctx n).migDue then (s.raise (s.vcpOfCtx n) 3).causes else s.causes := by
    unfold told State.raise
    cases s.vcpOfCtx n <;> rfl
  rw [htold, show u.ctx n = (s.ctx n).resumed part from State.ctx_setCtx_self _ _ _]
  refine ⟨restore_of_none_saved hrun hcores harr, fun hsaved hgangs hthreads hpaired hnum hgang _ hfits hcore _ => ?_⟩
  exact restore_of_one_saved hrun hcores harr hsaved hgangs hthreads hpaired hnum hgang hfits hcore

end Sys2Proof.Machine
end

section
/-!
The obligations on lane instructions: votes, ballots, matches and shuffles, scans and reductions, the partition of a gang and the uniform
move (R182 to R192).
-/
namespace Sys2Proof.Machine

/-! ## Results that agree on the lanes of an instruction -/

section
variable {ks : List Nat} {out out' : Nat → LaneOut} (e : ∀ k ∈ ks, out k = out' k)
include e

theorem Agree.congr {hdr : DWord} (h : Agree hdr ks out) : Agree hdr ks out' := by
  intro k hk
  rw [← e k hk]
  exact (h k hk).imp_right fun ⟨hconv, hsame⟩ => ⟨hconv, fun j hj hjk => by rw [← e j hj]; exact hsame j hj hjk⟩

/-- An effect depends on the results of the lanes that execute alone. -/
theorem LaneEffect.congr {s t : State} {c p : Nat} {x : Pass} {reads : Bool} (h : LaneEffect s t c p x ks reads out) :
    LaneEffect s t c p x ks reads out' := by
  have hresults : results ks out = results ks out' := List.map_congr_left fun k hk => by rw [e k hk]
  exact ⟨fun k hk => e k hk ▸ h.thread k hk, h.otherThreads, fun k hk => e k hk ▸ h.uniform k hk, fun k hk => e k hk ▸ h.gang k hk,
    h.otherGangs, hresults ▸ h.teams, hresults ▸ h.cores, h.rest⟩

end

/-! ## Tiles (R177, R182) -/

/-- The course of a lane instruction: each lane's result is that of what the lanes of its tile supply. -/
theorem tileOp_gives {α : Type} {s : State} {f : Fields} {ts : List (Nat × OpKind × Operand)} {rd : Lane → Except LaneFail α}
    {res : List (Nat × α) → Lane → α → LaneOut → LaneOut} {c p : Nat} {x : Pass} {ks : List Nat} (v : Nat → α) {out : Nat → LaneOut}
    (h : Executes s c p x f.guard ks) (hk : ∀ k ∈ ks, (x.lane c k).check s ts = .ok () ∧ rd (x.lane c k) = .ok (v k))
    (hout : ∀ k ∈ ks, res (tileReads s (x.lane c k) ks v) (x.lane c k) (v k) ((x.lane c k).start s f) = out k)
    (ha : Agree x.hdr ks out) : ∃ t, tileOp s f ts rd res = .next t ∧ LaneEffect s t c p x ks f.readsChannel out := by
  obtain ⟨t, hexec, heffect⟩ := tileOp_effect s f ts rd res h hk (Agree.congr (fun k hmem => (hout k hmem).symm) ha)
  exact ⟨t, hexec, heffect.congr hout⟩

/-- A lane lies in its own tile. -/
theorem mem_tileSlots_self (s : State) (x : Pass) (c : Nat) {k : Nat} {ks : List Nat} (hk : k ∈ ks) : k ∈ tileSlots s (x.lane c k) ks := by
  have hwidth : 0 < tileWidth s (x.lane c k) := Nat.two_pow_pos _
  have hmod := Nat.mod_lt (k % 32) hwidth
  have hle := Nat.mod_le (k % 32) (tileWidth s (x.lane c k))
  refine List.mem_filter.mpr ⟨hk, ?_⟩
  simp only [tileBase, show (x.lane c k).gslot = k / 32 from rfl, show (x.lane c k).num = k % 32 from rfl, Bool.and_eq_true, decide_eq_true_eq]
  exact ⟨⟨trivial, Nat.sub_le _ _⟩, by omega⟩

/-! ## Masks of lanes -/

theorem getLsbD_laneMask (ls : List Nat) (j : Nat) : (laneMask ls).getLsbD j = true ↔ j < 32 ∧ j ∈ ls := by
  have H : ∀ m : Word, (ls.foldl (fun m i => m ||| onesAt 32 i 1) m).getLsbD j = true ↔ m.getLsbD j = true ∨ j < 32 ∧ j ∈ ls := by
    induction ls with
    | nil => simp
    | cons i r ih =>
      intro m
      rw [List.foldl_cons, ih, BitVec.getLsbD_or, getLsbD_onesAt, Bool.or_eq_true, decide_eq_true_eq, List.mem_cons, or_assoc]
      refine or_congr_right ⟨?_, ?_⟩
      · rintro (⟨hj, hle, hlt⟩ | ⟨hj, hmem⟩)
        · exact ⟨hj, .inl (by omega)⟩
        · exact ⟨hj, .inr hmem⟩
      · rintro ⟨hj, rfl | hmem⟩
        · exact .inl ⟨hj, le_refl _, Nat.lt_succ_self _⟩
        · exact .inr ⟨hj, hmem⟩
  rw [laneMask, H]
  simp

/-- A word that has the bits of the lanes that pass a test is their mask. -/
theorem laneMask_eq {ks : List Nat} {m : Word} {P : Nat → Bool} (h : ∀ j, m.getLsbD j = true ↔ ∃ i ∈ ks, i % 32 = j ∧ P i = true) :
    laneMask ((ks.filter P).map (· % 32)) = m := by
  refine BitVec.eq_of_getLsbD_eq fun j hj => Bool.eq_iff_iff.mpr ?_
  rw [getLsbD_laneMask, and_iff_right hj, h, List.mem_map]
  exact exists_congr fun i => by rw [List.mem_filter]; tauto

/-- The lanes of a tile that pass a test on what they supply. -/
theorem tileReads_filter {α : Type} (s : State) (l : Lane) (ks : List Nat) (v : Nat → α) (P : Nat × α → Bool) :
    ((tileReads s l ks v).filter P).map (·.1) = ((tileSlots s l ks).filter (fun k => P (k % 32, v k))).map (· % 32) := by
  simp only [tileReads, List.filter_map, List.map_map, Function.comp_def]

/-! ## Votes, ballots and matches (R184 to R186) -/

theorem foldl_xor (bs : List Bool) (b : Bool) : bs.foldl xor b = (b ^^ decide (bs.countP id % 2 = 1)) := by
  induction bs generalizing b with
  | nil => simp
  | cons a r ih =>
    rw [List.foldl_cons, ih, List.countP_cons]
    rcases Nat.mod_two_eq_zero_or_one (r.countP id) with h | h <;> cases a <;> cases b <;> simp [Nat.add_mod, h]

/-- The conditions of R184, by MINOR, on a tile that some lane lies in. -/
theorem voteVal_eq {minor : Nat} (hminor : minor ≤ 3) {tile : List Nat} (hne : tile ≠ []) {q : Nat → Bool} {b : Bool}
    (h : [∃ j ∈ tile, q j = true, ∀ j ∈ tile, q j = true, ∀ i ∈ tile, ∀ j ∈ tile, q i = q j, tile.countP q % 2 = 1][minor]?
      = some (b = true)) : voteVal minor (tile.map q) = b := by
  have hiff : ∀ {v : Bool} {p : Prop}, (v = true ↔ p) → some p = some (b = true) → v = b := fun hv hp =>
    Bool.eq_iff_iff.mpr (hv.trans (iff_of_eq (Option.some.inj hp)))
  interval_cases minor
  · exact hiff (by simp [voteVal]) h
  · exact hiff (by simp [voteVal]) h
  · refine hiff ?_ h
    obtain ⟨k, r, rfl⟩ := List.exists_cons_of_ne_nil hne
    have hsame : (∀ i ∈ k :: r, ∀ j ∈ k :: r, q i = q j) ↔ ∀ i ∈ k :: r, q i = q k :=
      ⟨fun H i hi => H i hi k List.mem_cons_self, fun H i hi j hj => (H i hi).trans (H j hj).symm⟩
    rw [hsame]
    cases hq : q k <;> simp [voteVal, hq]
  · exact hiff (by simp [voteVal, foldl_xor, List.countP_map]) h

theorem exec_vote (f : Fields) (s : State) : exec (.vote f) s = execVote f s := rfl
theorem exec_ballot (f : Fields) (s : State) : exec (.ballot f) s = execBallot f s := rfl

/-- The source lane of R187, by MINOR. -/
theorem shflLane_eq {minor : Nat} (hminor : minor ≤ 4) {base w l n : Nat} (hw : 0 < w) :
    [some (base + n % w), if base + n ≤ l then some (l - n) else none, if l + n < base + w then some (l + n) else none,
      some (base + ((l - base) ^^^ (n % w))), some (base + (l - base + n) % w)][minor]? = some (shflLane minor base w l n) := by
  interval_cases minor
  · rfl
  · show some _ = some (if l < base + n then none else some (l - n))
    rw [← ite_not, if_congr Nat.not_le rfl rfl]
  · show some _ = some (if base + w - 1 < l + n then none else some (l + n))
    rw [← ite_not, if_congr (show ¬ l + n < base + w ↔ base + w - 1 < l + n by omega) rfl rfl]
  · rfl
  · rfl

/-- The lane of a tile that a shuffle names, with what it supplies. -/
theorem tileReads_find {α : Type} (s : State) (l : Lane) (ks : List Nat) (v : Nat → α) {j : Option Nat} {src : Option (Option Nat)}
    (h : src = some j) : (tileReads s l ks v).find? (fun p => some p.1 == j)
      = ((tileSlots s l ks).find? (fun i => decide (src = some (some (i % 32))))).map (fun i => (i % 32, v i)) := by
  rw [tileReads, List.find?_map, h]
  congr 2
  funext i
  rw [Bool.eq_iff_iff, decide_eq_true_iff, Option.some_inj, Function.comp, beq_iff_eq, eq_comm]

theorem minor_of_le_two {minor : BitVec 4} (h : minor.toNat ≤ 2) : minor = 0 ∨ minor = 1 ∨ minor = 2 := by bv_omega

/-- The mask of R186, by MINOR: of the lanes of a tile whose value is a lane's own, of all of them when all have it, or of the first
lane of each value. -/
theorem matchMask_bits {minor : BitVec 4} {tile : List Nat} {a : Nat → Nat} {own : Nat} {m : Word}
    (h : ∀ j, m.getLsbD j = true ↔ ∃ i ∈ tile, i % 32 = j ∧ (minor = 0 → a i = own) ∧ (minor = 1 → ∀ h ∈ tile, a h = own)
      ∧ (minor = 2 → ∀ h ∈ tile, h % 32 < i % 32 → a h ≠ a i)) :
    (minor = 0 → laneMask ((tile.filter (fun i => a i == own)).map (· % 32)) = m)
    ∧ (minor = 1 → (if tile.all (fun i => a i == own) then laneMask (tile.map (· % 32)) else 0) = m)
    ∧ (minor = 2 → laneMask ((tile.filter (fun i => !tile.any (fun h => decide (h % 32 < i % 32) && a h == a i))).map (· % 32)) = m) := by
  refine ⟨fun e => ?own, fun e => ?all, fun e => ?first⟩ <;> subst e
  case own => exact laneMask_eq fun j => (h j).trans (by simp)
  case all =>
    split
    · next hall =>
      have hall' : ∀ i ∈ tile, a i = own := by simpa using hall
      rw [← List.filter_true tile]
      exact laneMask_eq fun j => (h j).trans (exists_congr fun i => by simpa using fun _ _ => hall')
    · next hall =>
      refine BitVec.eq_of_getLsbD_eq fun j _ => Bool.eq_iff_iff.mpr ?_
      rw [h]
      simpa using fun _ _ _ => hall
  case first => exact laneMask_eq fun j => (h j).trans (by simp)

/-- The result of `match` for a lane, from the values of its tile. -/
def matchResult (f : Fields) (s : State) (ps : List (Nat × Nat)) (l : Lane) (x : Nat) (o : LaneOut) : LaneOut :=
  match f.minor.toNat with
  | 0 => o.put (l.regs s) f.dst (laneMask ((ps.filter (fun p => p.2 == x)).map (·.1)))
  | 1 =>
    let o := o.put (l.regs s) f.dst (if ps.all (fun p => p.2 == x) then laneMask (ps.map (·.1)) else 0)
    { o with th := o.th.setPred f.slot.toNat (ps.all (fun p => p.2 == x)) }
  | _ => o.put (l.regs s) f.dst (laneMask ((ps.filter (fun p => !ps.any (fun q => q.1 < p.1 && q.2 == p.2))).map (·.1)))

theorem exec_matchOp (f : Fields) (s : State) : exec (.matchOp f) s = tileOp s f [(pSA, .src f.ty.isPair, f.sa), (pDST, .dstReg false, f.dst)]
    (fun l => l.readInt s pSA f.sa f.ty) (matchResult f s) := rfl

theorem matchResult_eq {f : Fields} {s : State} {l : Lane} {ks : List Nat} {a : Nat → Nat} {own : Nat} {m : Word} (hminor : f.minor.toNat ≤ 2)
    (h : ∀ j, m.getLsbD j = true ↔ ∃ i ∈ tileSlots s l ks, i % 32 = j ∧ (f.minor = 0 → a i = own)
      ∧ (f.minor = 1 → ∀ h ∈ tileSlots s l ks, a h = own) ∧ (f.minor = 2 → ∀ h ∈ tileSlots s l ks, h % 32 < i % 32 → a h ≠ a i))
    (o : LaneOut) : matchResult f s (tileReads s l ks a) l own o =
      if f.minor = 1 then { o.put (l.regs s) f.dst m with
        th := (o.put (l.regs s) f.dst m).th.setPred f.slot.toNat (decide (∀ h ∈ tileSlots s l ks, a h = own)) }
      else o.put (l.regs s) f.dst m := by
  obtain ⟨hown, hall, hfirst⟩ := matchMask_bits h
  obtain hm | hm | hm := minor_of_le_two hminor
  · rw [← hown hm, matchResult, hm, tileReads_filter]
    rfl
  · have hequal : (tileReads s l ks a).all (fun p => p.2 == own) = (tileSlots s l ks).all (fun i => a i == own) := List.all_map ..
    have hlanes : (tileReads s l ks a).map (·.1) = (tileSlots s l ks).map (· % 32) := List.map_map ..
    have hdecide : (tileSlots s l ks).all (fun i => a i == own) = decide (∀ h ∈ tileSlots s l ks, a h = own) := by
      rw [Bool.eq_iff_iff]; simp
    rw [if_pos hm, matchResult, hm, ← hall hm, ← hdecide, hequal, hlanes]
    rfl
  · have hany : ∀ i, (tileReads s l ks a).any (fun q => decide (q.1 < i % 32) && q.2 == a i)
        = (tileSlots s l ks).any (fun h => decide (h % 32 < i % 32) && a h == a i) := fun i => List.any_map ..
    rw [if_neg (by rw [hm]; decide), ← hfirst hm, ← funext (fun i => congrArg Bool.not (hany i)), matchResult, hm]
    exact congrArg (fun ls => o.put (l.regs s) f.dst (laneMask ls)) (tileReads_filter ..)

/-- The result of a shuffle for a lane, from what the lanes of its tile supply. -/
def shflResult (f : Fields) (s : State) (ps : List (Nat × Nat × Nat)) (l : Lane) (x : Nat × Nat) (o : LaneOut) : LaneOut :=
  let hit := ps.find? (fun p => some p.1 == shflLane f.minor.toNat (tileBase s l) (tileWidth s l) l.num x.2)
  let o := o.putInt (l.regs s) f.dst f.ty (match hit with | some p => p.2.1 | none => x.1)
  { o with th := o.th.setPred f.slot.toNat hit.isSome }

theorem exec_shfl (f : Fields) (s : State) : exec (.shfl f) s = tileOp s f
    [(pSA, .src f.ty.isPair, f.sa), (pSB, .src false, f.sb), (pDST, .dstReg f.ty.isPair, f.dst)]
    (fun l => do
      let a ← l.readInt s pSA f.sa f.ty
      let b ← l.readWord s pSB f.sb
      .ok (a, b.toNat)) (shflResult f s) := rfl

theorem shflResult_eq {f : Fields} {s : State} {l : Lane} {ks : List Nat} {a n : Nat → Nat} {own b : Nat} {src : Option (Option Nat)}
    (h : src = some (shflLane f.minor.toNat (tileBase s l) (tileWidth s l) l.num b)) (o : LaneOut) :
    shflResult f s (tileReads s l ks (fun k => (a k, n k))) l (own, b) o =
      let hit := (tileSlots s l ks).find? (fun i => decide (src = some (some (i % 32))))
      let o := o.putInt (l.regs s) f.dst f.ty (match hit with | some i => a i | none => own)
      { o with th := o.th.setPred f.slot.toNat hit.isSome } := by
  rw [shflResult, tileReads_find s l ks _ h]
  cases (tileSlots s l ks).find? (fun i => decide (src = some (some (i % 32)))) <;> rfl

/-- Settles O19: each lane's result is a function of what the lanes of its tile supply. -/
theorem voteMatchAndShuffleResults : Obligations.VoteMatchAndShuffleResults := by
  unfold Obligations.VoteMatchAndShuffleResults
  refine ⟨fun f s c p x ks h => ⟨fun b hminor hk => ?vote, fun m hk => ?ballot⟩,
    fun f s c p x ks a h hread => ⟨fun m hminor hk => ?matchOp, fun b hminor hk => ?shfl⟩⟩
  case vote =>
    rw [exec_vote]
    refine tileOp_gives (fun k => (s.thr c k).readPred f.sa) h (fun k hmem => ⟨(hk k hmem).1, rfl⟩) (fun k hmem => ?_)
      (agree_of_no_uniform fun k _ => ?_)
    · have hval := voteVal_eq hminor (List.ne_nil_of_mem (mem_tileSlots_self s x c hmem)) (hk k hmem).2
      rw [tileReads, List.map_map, ← hval]
      rfl
    · simp only [LaneOut.putPred_g, LaneOut.putPred_tw, Lane.start_g, Lane.start_tw, and_self]
  case ballot =>
    intro out ha
    rw [exec_ballot]
    refine tileOp_gives (fun k => f.minor == 1 || (s.thr c k).readPred f.sa) h (fun k hmem => ⟨(hk k hmem).1, rfl⟩) (fun k hmem => ?_) ha
    obtain ⟨-, hbits⟩ := hk k hmem
    rw [tileReads_filter, laneMask_eq (m := m k) fun j => by rw [hbits j, decide_eq_true_iff]; simp]
  case matchOp =>
    intro out ha
    rw [exec_matchOp]
    refine tileOp_gives a h (fun k hmem => ⟨(hk k hmem).1, hread k hmem⟩) (fun k hmem => ?_) ha
    exact matchResult_eq hminor (fun j => by rw [(hk k hmem).2 j, decide_eq_true_iff]) _
  case shfl =>
    intro w base n src hit out ha
    rw [exec_shfl]
    refine tileOp_gives (fun k => (a k, (b k).toNat)) h (fun k hmem => ⟨(hk k hmem).1, ?_⟩) (fun k _ => ?_) ha
    · simp only [hread k hmem, (hk k hmem).2]
      rfl
    · exact shflResult_eq (shflLane_eq hminor (Nat.two_pow_pos _)) _

/-! ## Scans and reductions (R188 to R190) -/

/-- The result of a scan or reduction for a lane, from the values of its tile that `take` lets into its chain. -/
def scanResult (f : Fields) (s : State) (take : Nat → Nat → Bool) (ps : List (Nat × Nat)) (l : Lane) (_ : Nat) (o : LaneOut) : LaneOut :=
  let r := scanChain f.minor.toNat f.md.toNat ((ps.filter (fun p => take p.1 l.num)).map (fun p => scanVal f.minor.toNat f.ty p.2))
  (putScan f (l.regs s) o (match r.1 with
    | some v => scanPattern f v
    | none => wrap (scanIdentity f.minor.toNat f.ty) f.ty.width)).orFlags r.2

theorem scanOp_eq (s : State) (f : Fields) (take : Nat → Nat → Bool) : scanOp s f take
    = tileOp s f [(pSA, .src f.ty.isPair, f.sa), (pDST, .dstReg f.ty.isPair, f.dst)] (readScan f s) (scanResult f s take) := rfl

theorem exec_scan (f : Fields) (s : State) :
    exec (.scan f) s = scanOp s f (fun p l => if f.slot.getLsbD 0 then p < l else p ≤ l) := rfl
theorem exec_lred (f : Fields) (s : State) : exec (.lred f) s = scanOp s f (fun _ _ => true) := rfl

/-- The result that the chain over the lanes of a list leaves for a lane. -/
def chainResult (f : Fields) (s : State) (a : Nat → Nat) (l : Lane) (js : List Nat) : LaneOut :=
  let r := scanChain f.minor.toNat f.md.toNat (js.map (fun j => scanVal f.minor.toNat f.ty (a j)))
  (putScan f (l.regs s) (l.start s f) (match r.1 with
    | some v => scanPattern f v
    | none => wrap (scanIdentity f.minor.toNat f.ty) f.ty.width)).orFlags r.2

/-- The values that a chain takes from a tile are those of the lanes that it takes. -/
theorem scanResult_tile (f : Fields) (s : State) (take : Nat → Nat → Bool) (l : Lane) (ks : List Nat) (a : Nat → Nat) (own : Nat) :
    scanResult f s take (tileReads s l ks a) l own (l.start s f)
      = chainResult f s a l ((tileSlots s l ks).filter (fun j => take (j % 32) l.num)) := by
  simp only [scanResult, chainResult, tileReads, List.filter_map, List.map_map, Function.comp_def]

/-- An addition is exact along the chain (R188). -/
theorem scanChain_add (md : Nat) (v : Int) (vs : List Int) : (scanChain 0 md (v :: vs)).1 = some (v :: vs).sum := by
  suffices H : ∀ (vs : List Int) (acc : Int) (flags : BitVec 5), (vs.foldl (fun (a : Option Int × BitVec 5) x => match a.1 with
      | none => let r := scanFirst 0 x; (some r.1, a.2 ||| r.2)
      | some v => let r := scanStep 0 md v x; (some r.1, a.2 ||| r.2)) (some acc, flags)).1 = some (acc + vs.sum) by
    rw [List.sum_cons]
    exact H vs v _
  intro vs
  induction vs with
  | nil => simp
  | cons w r ih =>
    intro acc flags
    rw [List.foldl_cons, List.sum_cons, ← add_assoc]
    exact ih (acc + w) _

/-! ## Partition (R191) -/

theorem exec_lpart (f : Fields) (s : State) : exec (.lpart f) s
    = s.execLanes f.guard f.dst.toSpec.toNat false (fun _ l => .ok { l.start s f with tw := some f.minor.toNat }) := rfl

section
variable {f : Fields} {s : State} {c p : Nat} {x : Pass} {ks : List Nat} (h : Executes s c p x f.guard ks)
include h

theorem exec_lpart_of_not_conv (hconv : Hdr.conv x.hdr = false) : exec (.lpart f) s = .next (s.afterInstr c p x
    (ks.map (fun k => (k, LaneFail.fault ⟨0x11, BitVec.ofNat 32 f.dst.toSpec.toNat, 0⟩)))) := by
  rw [exec_lpart]
  refine (State.execLanes_of_ok h f.dst.toSpec.toNat false
    (out := fun k => { (x.lane c k).start s f with tw := some f.minor.toNat }) (fun _ _ => rfl)
    (outs := ks.map (fun k => (k, .error (.fault (opInfo 0x11 f.dst.toSpec.toNat 0))))) ?_).trans ?_
  · rw [List.map_map]
    refine List.map_congr_left fun k _ => ?_
    simp [uniformRule, hconv]
  · rw [oks_errors, fails_errors]
    rfl

theorem exec_lpart_of_conv (hconv : Hdr.conv x.hdr = true) : ∃ t, exec (.lpart f) s = .next t
    ∧ LaneEffect s t c p x ks false (fun k => { (x.lane c k).start s f with tw := some f.minor.toNat }) := by
  rw [exec_lpart]
  exact s.execLanes_effect f.guard f.dst.toSpec.toNat false _ h (fun _ _ => rfl)
    fun k _ => .inr ⟨hconv, fun j _ _ => ⟨(Lane.start_g ..).trans (Lane.start_g ..).symm, rfl⟩⟩

end

/-! ## Uniform move (R192) -/

/-- What a lane computes for `umov`. -/
def umovLane (f : Fields) (s : State) (ex : List Nat) (l : Lane) : LaneRes :=
  let rd (l : Lane) : Except LaneFail Nat := do
    l.check s [(pSA, .src f.ty.isPair, f.sa), (pSB, .srcOpt false, f.sb), (pDST, .gOnly f.ty.isPair, f.dst)]
    l.readInt s pSA f.sa f.ty
  do
    let _ ← rd l
    let ps := participants rd ex l
    let lead := umovLead f s l ps
    let _ ← if f.sb == .none then .ok 0
      else match lead with
        | some p => if l.num < p.1 then l.readWord s pSB f.sb else .ok 0
        | none => l.readWord s pSB f.sb
    if !Hdr.conv l.hdr then .error (.fault (opInfo 0x11 f.dst.toSpec.toNat 0))
    else
      match lead with
      | none => .ok (l.start s f)
      | some p =>
        match ps.find? (fun q => q.1 == p.2 && p.1 ≤ q.1) with
        | some q => .ok ((l.start s f).putInt (l.regs s) f.dst f.ty q.2)
        | none => .ok (l.start s f)

theorem exec_umov (f : Fields) (s : State) :
    exec (.umov f) s = s.execLanes f.guard f.dst.toSpec.toNat f.readsChannel (umovLane f s) := rfl

/-- Among the lanes of a gang in ascending order, the one of a number is found exactly when it is there. -/
theorem find_lane {ks : List Nat} (hsorted : ks.Pairwise (· < ·)) {gs j0 : Nat} {r : List Nat} (hcons : ks.filter (fun j => j / 32 = gs) = j0 :: r)
    {n : Nat} (hn : n < 32) : (ks.filter (fun j => j / 32 = gs)).find? (fun j => j % 32 == n && decide (j0 % 32 ≤ j % 32))
      = if 32 * gs + n ∈ ks then some (32 * gs + n) else none := by
  have hmem : ∀ j, j ∈ ks.filter (fun j => j / 32 = gs) ↔ j ∈ ks ∧ j / 32 = gs := by simp
  have hfirst : ∀ j ∈ ks.filter (fun j => j / 32 = gs), j0 ≤ j := by
    intro j hj
    have hpair := hsorted.filter (fun j => decide (j / 32 = gs))
    rw [hcons] at hj hpair
    rcases List.mem_cons.mp hj with rfl | hj
    · exact le_refl _
    · exact le_of_lt ((List.pairwise_cons.mp hpair).1 j hj)
  have hj0 := (hmem j0).mp (by rw [hcons]; exact List.mem_cons_self)
  split
  · next hin =>
    have hin' := (hmem _).mpr ⟨hin, by omega⟩
    have hle := hfirst _ hin'
    have hsome : ((ks.filter (fun j => j / 32 = gs)).find? (fun j => j % 32 == n && decide (j0 % 32 ≤ j % 32))).isSome = true := by
      refine List.find?_isSome.mpr ⟨_, hin', ?_⟩
      simp only [Bool.and_eq_true, beq_iff_eq, decide_eq_true_eq]
      omega
    obtain ⟨j, hj⟩ := Option.isSome_iff_exists.mp hsome
    have hmem' := (hmem j).mp (List.mem_of_find?_eq_some hj)
    have hpred := List.find?_some hj
    simp only [Bool.and_eq_true, beq_iff_eq, decide_eq_true_eq] at hpred
    rw [hj]
    congr 1
    omega
  · next hnot =>
    refine List.find?_eq_none.mpr fun j hj hpred => hnot ?_
    simp only [Bool.and_eq_true, beq_iff_eq] at hpred
    obtain ⟨hin, hgs⟩ := (hmem j).mp hj
    rwa [show 32 * gs + n = j by omega]

/-- The lane of the lowest executing lane of a gang, with the lane number that it names. -/
theorem umovLead_cons {f : Fields} {s : State} {c : Nat} {x : Pass} {k j0 : Nat} {a : Nat → Nat} {b : Nat → Word} (r : List Nat)
    (hgang : j0 / 32 = k / 32) (hb : f.sb ≠ .none → (x.lane c j0).readWord s pSB f.sb = .ok (b j0)) :
    umovLead f s (x.lane c k) ((j0 :: r).map (fun j => (j % 32, a j)))
      = some (j0 % 32, if f.sb = .none then j0 % 32 else (b j0).toNat % 32) := by
  have hslot : ({ x.lane c k with slot := 32 * (x.lane c k).gslot + j0 % 32 } : Lane) = x.lane c j0 := by
    simp only [Pass.lane, Lane.gslot, ← hgang, Nat.div_add_mod]
  rw [List.map_cons, umovLead]
  by_cases hsb : f.sb = .none
  · simp [hsb]
  · simp only [beq_iff_eq, hsb, if_false, hslot, hb hsb]

/-- The lowest executing lane of a lane's gang. -/
def gangFirst (ks : List Nat) (k : Nat) : Nat := (ks.find? (fun j => decide (j / 32 = k / 32))).getD k

/-- The slot of the lane that the lowest executing lane of a gang names. -/
def umovSource (f : Fields) (ks : List Nat) (b : Nat → Word) (k : Nat) : Nat :=
  if f.sb = .none then gangFirst ks k else 32 * (k / 32) + (b (gangFirst ks k)).toNat % 32

theorem filter_gang_cons {ks : List Nat} {k : Nat} (hk : k ∈ ks) :
    ∃ r, ks.filter (fun j => j / 32 = k / 32) = gangFirst ks k :: r ∧ gangFirst ks k ∈ ks ∧ gangFirst ks k / 32 = k / 32 := by
  obtain ⟨j0, r, hcons⟩ := List.exists_cons_of_ne_nil (List.ne_nil_of_mem
    (List.mem_filter (p := fun j => decide (j / 32 = k / 32)).mpr ⟨hk, decide_eq_true rfl⟩))
  have hfirst : gangFirst ks k = j0 := by rw [gangFirst, ← List.head?_filter, hcons]; rfl
  have hj0 := List.mem_filter.mp (hcons ▸ List.mem_cons_self : j0 ∈ ks.filter (fun j => decide (j / 32 = k / 32)))
  exact ⟨r, hfirst ▸ hcons, hfirst ▸ hj0.1, hfirst ▸ of_decide_eq_true hj0.2⟩

theorem umovLane_eq {f : Fields} {s : State} {c : Nat} {x : Pass} {ks : List Nat} {a : Nat → Nat} {b : Nat → Word}
    (hconv : Hdr.conv x.hdr = true) (hsorted : ks.Pairwise (· < ·))
    (hk : ∀ k ∈ ks, (x.lane c k).check s [(pSA, OpKind.src f.ty.isPair, f.sa), (pSB, OpKind.srcOpt false, f.sb),
        (pDST, OpKind.gOnly f.ty.isPair, f.dst)] = .ok ()
      ∧ (x.lane c k).readInt s pSA f.sa f.ty = .ok (a k) ∧ (f.sb ≠ .none → (x.lane c k).readWord s pSB f.sb = .ok (b k)))
    {k : Nat} (hmem : k ∈ ks) : umovLane f s ks (x.lane c k) = .ok
      (if umovSource f ks b k ∈ ks then IntResult s f (x.lane c k) (a (umovSource f ks b k)) else (x.lane c k).start s f) := by
  obtain ⟨r, hcons, hfirst, hgang⟩ := filter_gang_cons hmem
  have hrd : ∀ j ∈ ks, (do (x.lane c j).check s [(pSA, OpKind.src f.ty.isPair, f.sa), (pSB, OpKind.srcOpt false, f.sb),
      (pDST, OpKind.gOnly f.ty.isPair, f.dst)]; (x.lane c j).readInt s pSA f.sa f.ty) = Except.ok (a j) := fun j hj => by
    obtain ⟨hcheck, hreadA, -⟩ := hk j hj
    simp only [hcheck, hreadA]
    rfl
  have hparts := participants_all (fun l => do
    l.check s [(pSA, OpKind.src f.ty.isPair, f.sa), (pSB, OpKind.srcOpt false, f.sb), (pDST, OpKind.gOnly f.ty.isPair, f.dst)]
    l.readInt s pSA f.sa f.ty) ks x c k a hrd
  have hps := hparts.trans (congrArg (List.map (fun j => (j % 32, a j))) hcons)
  have hlead := umovLead_cons (x := x) (k := k) (a := a) r hgang (hk _ hfirst).2.2
  have hfind := find_lane hsorted hcons (n := umovSource f ks b k % 32) (Nat.mod_lt _ (by decide))
  have hnum : (if f.sb = .none then gangFirst ks k % 32 else (b (gangFirst ks k)).toNat % 32) = umovSource f ks b k % 32 := by
    unfold umovSource
    split <;> omega
  have hslot : 32 * (k / 32) + umovSource f ks b k % 32 = umovSource f ks b k := by
    unfold umovSource
    split <;> omega
  have hfound : (((gangFirst ks k :: r).map (fun j => (j % 32, a j))).find?
      (fun q => q.1 == umovSource f ks b k % 32 && decide (gangFirst ks k % 32 ≤ q.1)))
      = if umovSource f ks b k ∈ ks then some (umovSource f ks b k % 32, a (umovSource f ks b k)) else none := by
    rw [List.find?_map, ← hcons]
    refine (congrArg (Option.map _) hfind).trans ?_
    rw [hslot]
    split
    · rfl
    · rfl
  have hlane : ((x.lane c k).hdr) = x.hdr := rfl
  unfold umovLane
  dsimp only
  simp only [hrd k hmem, hps, hlead, hnum, hfound, hlane, hconv]
  have hread : f.sb ≠ .none → (x.lane c k).readWord s pSB f.sb = .ok (b k) := (hk k hmem).2.2
  by_cases hin : umovSource f ks b k ∈ ks
  all_goals
    simp only [hin, if_true, if_false]
    by_cases hsb : f.sb = .none
    · simp only [hsb, beq_self_eq_true]
      rfl
    · simp only [hread hsb, beq_iff_eq, hsb, if_false]
      split <;> rfl

/-- Settles O20: a scan or reduction by the chain over the lanes of a tile, `lpart` and `umov` by the course of an instruction on registers. -/
theorem scanPartitionAndUniformMoveResults : Obligations.ScanPartitionAndUniformMoveResults := by
  unfold Obligations.ScanPartitionAndUniformMoveResults
  refine ⟨fun f s c p x ks a h hk => ?scans, fun f s c p x ks h =>
    ⟨exec_lpart_of_not_conv h, fun hconv => ⟨exec_lpart_of_conv h hconv, ?umov⟩⟩⟩
  case scans =>
    intro chain res scanOut redOut
    refine ⟨fun ha => ?scan, fun ha => ?lred, fun hminor j js => ⟨?sum, fun v => ?pattern⟩⟩
    case scan =>
      rw [exec_scan, scanOp_eq]
      refine tileOp_gives a h hk (fun k _ => (scanResult_tile ..).trans ?_) ha
      rfl
    case lred =>
      rw [exec_lred, scanOp_eq]
      refine tileOp_gives a h hk (fun k _ => (scanResult_tile ..).trans ?_) ha
      rw [List.filter_true]
      rfl
    case sum =>
      simp only [chain, hminor]
      exact scanChain_add _ _ _
    case pattern => rw [scanPattern, hminor]; rfl
  case umov =>
    intro a b hsorted hk first lane out ha
    rw [exec_umov]
    exact s.execLanes_effect _ _ _ _ h (fun k hmem => umovLane_eq hconv hsorted hk hmem) ha

end Sys2Proof.Machine
end
section
/-!
The obligation on barriers and on the team instructions (R194, R196 to R200).
-/
namespace Sys2Proof.Machine

/-! ## Keys of a table -/

/-- An entry that a sorted table holds already is replaced in its place. -/
theorem Tbl.keys_put_of_look {α : Type} {t : Tbl α} {k : Nat} (hsorted : (Tbl.keys t).Pairwise (· < ·))
    (hk : (Tbl.look t k).isSome = true) (x : α) : Tbl.keys (Tbl.put t k x) = Tbl.keys t := by
  induction t with
  | nil => exact nomatch hk
  | cons e r ih =>
    obtain ⟨a, y⟩ := e
    obtain ⟨hfirst, hrest⟩ := List.pairwise_cons.mp (show (a :: Tbl.keys r).Pairwise (· < ·) from hsorted)
    by_cases heq : a = k
    · simp [Tbl.put, Tbl.keys, heq]
    · have hlook : (Tbl.look r k).isSome = true := by simpa [Tbl.look, heq] using hk
      have hmem : k ∈ Tbl.keys r := by
        by_contra hout
        rw [Tbl.look_eq_none hout] at hlook
        exact nomatch hlook
      have hlt : ¬ k < a := Nat.lt_asymm (hfirst k hmem)
      rw [Tbl.put, if_neg hlt, if_neg heq]
      exact congrArg (a :: ·) (ih hrest hlook)

/-! ## Completion of a phase (R197) -/

/-- COMPLETE finds that all of the phase have arrived. -/
@[reducible] def State.phaseDone (s : State) (m : Nat) (x : Barrier) : Prop := if x.fixed then x.exp ≤ x.arr else s.liveThreads m ≤ x.arr

/-- No thread of a list has arrived at a barrier any more. -/
def clearArrivals (b : Nat) (l : List Nat) (m : Tbl Thread) : Tbl Thread :=
  l.foldl (fun m k => Tbl.adjust m k (fun th => { th with barArrived := th.barArrived &&& ~~~(onesAt 16 b 1) })) m

theorem arrived_clearArrivals (b : Nat) (l : List Nat) (m : Tbl Thread) (n : Nat) :
    (Tbl.at (clearArrivals b l m) n {}).barArrived.getLsbD b = if n ∈ l then false else (Tbl.at m n {}).barArrived.getLsbD b := by
  induction l generalizing m with
  | nil => simp [clearArrivals]
  | cons k r ih =>
    refine (ih _).trans ?_
    simp only [List.mem_cons]
    by_cases hr : n ∈ r
    · rw [if_pos hr, if_pos (.inr hr)]
    · rw [if_neg hr]
      by_cases hk : n = k
      · subst hk
        rw [if_pos (.inl rfl), Tbl.at, Tbl.look_adjust, if_pos rfl]
        cases Tbl.look m n with
        | none => exact BitVec.getLsbD_zero
        | some th => exact (getLsbD_clear_bit _ _ _).trans (by simp)
      · rw [if_neg (not_or.mpr ⟨hk, hr⟩), Tbl.at, Tbl.look_adjust, if_neg hk]
        rfl

theorem Team.bar_put (y : Team) (b n : Nat) (x : Barrier) : ({ y with bars := Tbl.put y.bars b x } : Team).bar n = if n = b then x else y.bar n :=
  Tbl.at_put _ _ _ _ _

theorem State.bar_modTeam (s : State) (m b n : Nat) (x : Barrier) :
    ((s.modTeam m (fun y => { y with bars := Tbl.put y.bars b x })).team m).bar n = if n = b then x else (s.team m).bar n := by
  rw [State.modTeam_eq, State.team_setTeam_self, Team.bar_put]

section
variable (s : State) (m b : Nat)

theorem State.completeBar_eq : s.completeBar m b =
    if s.phaseDone m ((s.team m).bar b) then
      { s.modTeam m (fun y => { y with
          bars := Tbl.put y.bars b { (s.team m).bar b with gen := ((s.team m).bar b).gen + 1, arr := 0, set := false } }) with
        threads := clearArrivals b (s.teamThreads m) s.threads }
    else s := by
  unfold State.completeBar State.phaseDone
  cases h : ((s.team m).bar b).fixed <;> simp [h] <;> rfl

theorem State.bar_completeBar (n : Nat) : ((s.completeBar m b).team m).bar n =
    if n = b ∧ s.phaseDone m ((s.team m).bar b) then { (s.team m).bar b with gen := ((s.team m).bar b).gen + 1, arr := 0, set := false }
    else (s.team m).bar n := by
  rw [State.completeBar_eq]
  by_cases hdone : s.phaseDone m ((s.team m).bar b)
  · rw [if_pos hdone]
    refine (s.bar_modTeam m b n _).trans ?_
    simp only [hdone, and_true]
  · rw [if_neg hdone, if_neg (fun h => hdone h.2)]

theorem State.arrived_completeBar (n : Nat) : (Tbl.at (s.completeBar m b).threads n {}).barArrived.getLsbD b =
    if s.phaseDone m ((s.team m).bar b) then (if n ∈ s.teamThreads m then false else (Tbl.at s.threads n {}).barArrived.getLsbD b)
    else (Tbl.at s.threads n {}).barArrived.getLsbD b := by
  rw [State.completeBar_eq]
  split
  · exact arrived_clearArrivals b _ _ n
  · rfl

end

/-! ## Arrival (R197) -/

/-- A barrier once a thread has arrived that had or had not arrived before: the first arrival of a phase fixes its kind and count. -/
def Barrier.arrived (x : Barrier) (count : Option Nat) (before : Bool) : Barrier :=
  let fixed := if x.set then x.fixed else count.isSome
  ⟨x.gen, true, fixed, if x.set then x.exp else count.getD 0, if fixed ∨ before = false then x.arr + 1 else x.arr⟩

theorem Barrier.arrived_eq (x : Barrier) (count : Option Nat) (before : Bool) :
    (let y := if x.set then x else { x with set := true, fixed := count.isSome, exp := count.getD 0 }
    if y.fixed || !before then { y with arr := y.arr + 1 } else y) = x.arrived count before := by
  obtain ⟨gen, set, fixed, exp, arr⟩ := x
  cases set <;> cases fixed <;> cases count <;> cases before <;> rfl

/-- An arrival is recorded, before it is seen whether the phase is complete. -/
def State.recordArrival (s : State) (m b c k : Nat) (count : Option Nat) : State :=
  let x := ((s.team m).bar b).arrived count ((s.thr c k).barArrived.getLsbD b)
  let u := s.modTeam m (fun y => { y with bars := Tbl.put y.bars b x })
  if x.fixed then u else u.setThr c k { s.thr c k with barArrived := (s.thr c k).barArrived ||| onesAt 16 b 1 }

section
variable (s : State) (m b c k : Nat) (count : Option Nat)

theorem State.arrive_eq : s.arrive m b c k count = (s.recordArrival m b c k count).completeBar m b := by
  rw [State.recordArrival, ← Barrier.arrived_eq]
  rfl

theorem State.recordArrival_frame :
    s.recordArrival m b c k count = { s with
      threads := (s.recordArrival m b c k count).threads, teams := (s.recordArrival m b c k count).teams } := by
  unfold State.recordArrival
  dsimp only
  split <;> rfl

theorem State.bar_recordArrival (n : Nat) : ((s.recordArrival m b c k count).team m).bar n =
    if n = b then ((s.team m).bar b).arrived count ((s.thr c k).barArrived.getLsbD b) else (s.team m).bar n := by
  unfold State.recordArrival
  dsimp only
  split
  · exact s.bar_modTeam m b n _
  · exact s.bar_modTeam m b n _

/-- What a thread is when an arrival has been recorded. -/
theorem State.thr_recordArrival (n : Nat) : Tbl.at (s.recordArrival m b c k count).threads n {} =
    if n = threadKey c k ∧ (((s.team m).bar b).arrived count ((s.thr c k).barArrived.getLsbD b)).fixed = false then
      { s.thr c k with barArrived := (s.thr c k).barArrived ||| onesAt 16 b 1 }
    else Tbl.at s.threads n {} := by
  unfold State.recordArrival
  dsimp only
  split
  · next hfixed => rw [if_neg (fun h => by simp [h.2] at hfixed)]; rfl
  · next hfixed =>
    simp only [Bool.not_eq_true] at hfixed
    simp only [hfixed, and_true]
    exact Tbl.at_put _ _ _ _ _

/-- A thread after an arrival is as before, but for the barriers it has arrived at. -/
theorem State.thr_arrive (n : Nat) : Tbl.at (s.arrive m b c k count).threads n {} =
    { Tbl.at s.threads n {} with barArrived := (Tbl.at (s.arrive m b c k count).threads n {}).barArrived } := by
  have hclear := ((BarsClear.completeBar (s.recordArrival m b c k count) m b).thread n).1
  rw [← State.arrive_eq, State.thr_recordArrival] at hclear
  split at hclear
  · next h => rw [h.1]; rw [h.1] at hclear; exact hclear
  · exact hclear

theorem State.arrive_frame :
    s.arrive m b c k count = { s with threads := (s.arrive m b c k count).threads, teams := (s.arrive m b c k count).teams } := by
  have hclear := (BarsClear.completeBar (s.recordArrival m b c k count) m b).rest
  rw [← State.arrive_eq, State.recordArrival_frame] at hclear
  exact hclear

variable {s m b c k} (hsorted : (Tbl.keys s.threads).Pairwise (· < ·)) (hthr : (Tbl.look s.threads (threadKey c k)).isSome = true)
include hsorted hthr

theorem State.keys_recordArrival : Tbl.keys (s.recordArrival m b c k count).threads = Tbl.keys s.threads := by
  unfold State.recordArrival
  dsimp only
  split
  · rfl
  · exact Tbl.keys_put_of_look hsorted hthr _

theorem State.teamThreads_recordArrival : (s.recordArrival m b c k count).teamThreads m = s.teamThreads m := by
  unfold State.teamThreads
  rw [State.keys_recordArrival count hsorted hthr, State.recordArrival_frame]

theorem State.liveThreads_recordArrival : (s.recordArrival m b c k count).liveThreads m = s.liveThreads m := by
  unfold State.liveThreads
  rw [State.teamThreads_recordArrival count hsorted hthr]
  refine congrArg (fun p => ((s.teamThreads m).filter p).length) (funext fun n => ?_)
  rw [State.thr_recordArrival]
  split
  · next h => rw [h.1]; rfl
  · rfl

theorem State.phaseDone_recordArrival (x : Barrier) : (s.recordArrival m b c k count).phaseDone m x ↔ s.phaseDone m x := by
  rw [State.phaseDone, State.phaseDone, State.liveThreads_recordArrival count hsorted hthr]

/-- The barriers of the team after an arrival. -/
theorem State.bar_arrive (n : Nat) :
    let x := ((s.team m).bar b).arrived count ((s.thr c k).barArrived.getLsbD b)
    ((s.arrive m b c k count).team m).bar n =
      if n = b then (if s.phaseDone m x then ⟨x.gen + 1, false, x.fixed, x.exp, 0⟩ else x) else (s.team m).bar n := by
  intro x
  have hbar := fun n => s.bar_recordArrival m b c k count n
  rw [State.arrive_eq, State.bar_completeBar, hbar b, if_pos rfl]
  simp only [State.phaseDone_recordArrival count hsorted hthr]
  by_cases hn : n = b
  · subst hn
    simp only [true_and, hbar, if_true]
    rfl
  · rw [if_neg (fun h => hn h.1), if_neg hn, hbar, if_neg hn]

/-- What threads have arrived at the barrier after an arrival. -/
theorem State.arrived_arrive (hb : b < 16) (n : Nat) :
    let x := ((s.team m).bar b).arrived count ((s.thr c k).barArrived.getLsbD b)
    (Tbl.at (s.arrive m b c k count).threads n {}).barArrived.getLsbD b =
      if s.phaseDone m x ∧ n ∈ s.teamThreads m then false
      else if n = threadKey c k then !x.fixed || (s.thr c k).barArrived.getLsbD b
      else (Tbl.at s.threads n {}).barArrived.getLsbD b := by
  intro x
  have hrecorded : (Tbl.at (s.recordArrival m b c k count).threads n {}).barArrived.getLsbD b =
      if n = threadKey c k then !x.fixed || (s.thr c k).barArrived.getLsbD b else (Tbl.at s.threads n {}).barArrived.getLsbD b := by
    rw [State.thr_recordArrival]
    by_cases hn : n = threadKey c k
    · subst hn
      cases hfixed : x.fixed
      · rw [if_pos ⟨rfl, rfl⟩, if_pos rfl, getLsbD_or_bit _ hb, if_pos rfl]
        rfl
      · rw [if_neg (fun h => nomatch h.2), if_pos rfl]
        rfl
    · rw [if_neg (fun h => hn h.1), if_neg hn]
  rw [State.arrive_eq, State.arrived_completeBar, State.bar_recordArrival, if_pos rfl, State.teamThreads_recordArrival count hsorted hthr, hrecorded]
  simp only [State.phaseDone_recordArrival count hsorted hthr]
  by_cases hdone : s.phaseDone m x
  · rw [if_pos hdone]
    simp only [hdone, true_and]
  · rw [if_neg hdone]
    exact (if_neg (fun h => hdone h.1)).symm

end

/-- An arrival leaves a team its grid. -/
theorem State.team_grid_arrive (s : State) (m b c k : Nat) (count : Option Nat) (q : Nat) :
    ((s.arrive m b c k count).team q).grid = (s.team q).grid := by
  have hmod : ∀ (u : State) (x : Barrier), ((u.modTeam m (fun y => { y with bars := Tbl.put y.bars b x })).team q).grid = (u.team q).grid := by
    intro u x
    rw [State.modTeam_eq, State.team_setTeam]
    split
    · next e => rw [e]
    · rfl
  have hrecorded : ((s.recordArrival m b c k count).team q).grid = (s.team q).grid := by
    unfold State.recordArrival
    dsimp only
    split <;> exact hmod s _
  rw [State.arrive_eq, ← hrecorded, State.completeBar_eq]
  split
  · exact hmod _ _
  · rfl

end Sys2Proof.Machine
end
section
/-!
The team instructions on their lanes (R194, R198 to R200).
-/
namespace Sys2Proof.Machine

theorem exec_chopen (f : Fields) (s : State) : exec (.chopen f) s = execChopen f s := rfl
theorem exec_chclose (f : Fields) (s : State) : exec (.chclose f) s = execChclose f s := rfl
theorem exec_barWait (f : Fields) (s : State) : exec (.barWait f) s = execBarWait f s := rfl
theorem exec_barArrive (f : Fields) (s : State) : exec (.barArrive f) s = execBarArrive f s := rfl
theorem exec_barSync (f : Fields) (s : State) : exec (.barSync f) s = execBarSync f s := rfl

/-! ## Channels (R194) -/

/-- A lane's turn at a channel instruction. -/
def chanTurn (b : Nat) (act : State → Lane → State) (s : State) (l : Lane) : State × Option LaneFail :=
  if (l.grid s).chans ≤ b then (s, some (.fault illegalEncoding))
  else if (l.thr s).spec then (s, some .stop)
  else (act s l, none)

/-- A lane's gang joins the producers of a channel, which opens. -/
def openChan (b : Nat) (s : State) (l : Lane) : State :=
  s.modTeam (l.gang s).team (fun t => t.setChan b { t.chan b with pmask := (t.chan b).pmask ||| onesAt 32 (l.gang s).num 1, opened := true })

/-- A pass that is to close a channel for a gang at its end. -/
def Pass.closes (x : Pass) (gs b : Nat) : Pass := if x.closing.contains (gs, b) then x else { x with closing := x.closing ++ [(gs, b)] }

/-- A lane's gang has the pass close a channel at its end. -/
def closeChan (b : Nat) (s : State) (l : Lane) : State :=
  match s.curPass with
  | none => s
  | some (c, p, x) => if x.closing.contains (l.gslot, b) then s else s.setPass c p { x with closing := x.closing ++ [(l.gslot, b)] }

theorem execChopen_eq (f : Fields) (s : State) : execChopen f s = s.execSeq f.guard false (chanTurn f.minor.toNat (openChan f.minor.toNat)) := rfl
theorem execChclose_eq (f : Fields) (s : State) : execChclose f s = s.execSeq f.guard false (chanTurn f.minor.toNat (closeChan f.minor.toNat)) := rfl

theorem chanTurn_acts {b : Nat} (act : State → Lane → State) {s : State} {l : Lane} (hspec : (l.thr s).spec = false) (hb : b < (l.grid s).chans) :
    chanTurn b act s l = (act s l, none) := by
  rw [chanTurn, if_neg (by omega), hspec]
  rfl

/-- Teams whose channels alone change keep their grids. -/
structure ChansOnly (s u : State) : Prop where
  rest : u = { s with teams := u.teams }
  grid : ∀ q, (u.team q).grid = (s.team q).grid

theorem ChansOnly.modTeam {s u : State} (h : ChansOnly s u) (m b : Nat) (y : Team → Chan) :
    ChansOnly s (u.modTeam m (fun t => t.setChan b (y t))) := by
  refine ⟨by rw [h.rest]; rfl, fun q => ?_⟩
  rw [State.modTeam_eq, State.team_setTeam, ← h.grid]
  split
  · next e => rw [e]; rfl
  · rfl

theorem ChansOnly.gangGrid {s u : State} (h : ChansOnly s u) (c gs : Nat) : u.gangGrid c gs = s.gangGrid c gs := by
  have hgrid := h.grid (s.gang c gs).team
  have hgang : u.gang c gs = s.gang c gs := by rw [h.rest]; rfl
  rw [State.gangGrid, State.gangGrid, State.gangTeam, State.gangTeam, hgang, hgrid, State.grid, State.grid, h.rest]

section
variable {s : State} {f : Fields} {c p : Nat} {x : Pass} {ks : List Nat} (h : Executes s c p x f.guard ks)
include h

theorem chanTurn_all_fault (act : State → Lane → State) (hk : ∀ k ∈ ks, ((x.lane c k).grid s).chans ≤ f.minor.toNat) :
    s.execSeq f.guard false (chanTurn f.minor.toNat act) = .next (s.afterInstr c p x (ks.map (fun k => (k, LaneFail.fault ⟨1, 2048, 0⟩)))) :=
  execSeq_all_leave h false fun k hmem => by rw [chanTurn, if_pos (hk k hmem)]; rfl

variable (hk : ∀ k ∈ ks, (s.thr c k).spec = false ∧ f.minor.toNat < ((x.lane c k).grid s).chans)
include hk

theorem chopen_lanesRun : ∃ t, exec (.chopen f) s = .next t
    ∧ LanesRun (fun u l v => v = u.modTeam (l.gang u).team (fun m => m.setChan f.minor.toNat { m.chan f.minor.toNat with
        pmask := (m.chan f.minor.toNat).pmask ||| onesAt 32 (l.gang u).num 1, opened := true })) s c p x ks false t := by
  rw [exec_chopen, execChopen_eq]
  refine execSeq_lanesRun h false (ChansOnly s) ⟨rfl, fun _ => rfl⟩ (fun u hu => ?pipe) (fun u hu k hmem => ?turn)
  case pipe => rw [hu.rest]; exact State.pipe_of_curPass h.1
  case turn =>
    obtain ⟨hspec, hb⟩ := hk k hmem
    refine ⟨_, chanTurn_acts _ ?_ ?_, rfl, hu.modTeam _ _ _⟩
    · rw [hu.rest]; exact hspec
    · show _ < (u.gangGrid c (k / 32)).chans
      rw [hu.gangGrid]
      exact hb

end

/-- Passes on a pipe alone change, and the pass that has the turn in what it is to close alone. -/
structure ClosesNoted (u v : State) (c p : Nat) (y z : Pass) : Prop where
  cur : v.curPass = some (c, p, z)
  pass : z = { y with closing := z.closing }
  rest : v = { u with cores := v.cores }
  core : ∀ d, v.core d = { u.core d with pipes := (v.core d).pipes }

theorem ClosesNoted.trans {u v w : State} {c p : Nat} {y z a : Pass} (h : ClosesNoted u v c p y z) (g : ClosesNoted v w c p z a) :
    ClosesNoted u w c p y a :=
  ⟨g.cur, by rw [g.pass, h.pass], by rw [g.rest, h.rest], fun d => by rw [g.core, h.core]⟩

theorem State.curPass_setPass {u : State} {c p : Nat} {y : Pass} (hcur : u.curPass = some (c, p, y)) (z : Pass) :
    (u.setPass c p z).curPass = some (c, p, z) := by
  unfold State.curPass at hcur ⊢
  rw [show (u.setPass c p z).turn = u.turn from rfl]
  cases hturn : u.turn with
  | hart n => rw [hturn] at hcur; exact nomatch hcur
  | pipe a b =>
    rw [hturn] at hcur
    obtain ⟨_, -, e⟩ := Option.map_eq_some_iff.mp hcur
    cases e
    simp [State.setPass]

/-- The pass notes a gang's close once. -/
theorem closeChan_notes {u : State} {c p : Nat} {y : Pass} (hcur : u.curPass = some (c, p, y)) (x : Pass) (b k : Nat) :
    ∃ z, ClosesNoted u (closeChan b u (x.lane c k)) c p y z ∧ ∀ e, e ∈ z.closing ↔ e ∈ y.closing ∨ e = (k / 32, b) := by
  rw [closeChan, hcur]
  dsimp only
  by_cases hin : y.closing.contains (k / 32, b) = true
  · refine ⟨y, ?_, fun e => ⟨.inl, fun he => he.elim id fun h => h ▸ List.contains_iff_mem.mp hin⟩⟩
    rw [if_pos (show y.closing.contains ((x.lane c k).gslot, b) = true from hin)]
    exact ⟨hcur, rfl, rfl, fun _ => rfl⟩
  · refine ⟨{ y with closing := y.closing ++ [(k / 32, b)] }, ?_, fun e => by simp⟩
    rw [if_neg (show ¬ y.closing.contains ((x.lane c k).gslot, b) = true from hin)]
    refine ⟨State.curPass_setPass hcur _, rfl, rfl, fun d => ?_⟩
    rw [State.setPass, State.modCore_eq, State.core_setCore]
    split
    · next e => rw [e]
    · rfl

theorem chclose_inTurn (x : Pass) {c p b : Nat} {ks : List Nat} {u : State} {y : Pass} (hcur : u.curPass = some (c, p, y))
    (hk : ∀ k ∈ ks, (u.thr c k).spec = false ∧ b < ((x.lane c k).grid u).chans) :
    ∃ v z, InTurn (chanTurn b (closeChan b)) c x ks u v ∧ ClosesNoted u v c p y z
      ∧ ∀ e, e ∈ z.closing ↔ e ∈ y.closing ∨ ∃ k ∈ ks, e = (k / 32, b) := by
  induction ks generalizing u y with
  | nil => exact ⟨u, y, rfl, ⟨hcur, rfl, rfl, fun _ => rfl⟩, fun e => by simp⟩
  | cons k r ih =>
    obtain ⟨hspec, hb⟩ := hk k List.mem_cons_self
    obtain ⟨z, hnoted, hz⟩ := closeChan_notes hcur x b k
    have hrest : ∀ j ∈ r, ((closeChan b u (x.lane c k)).thr c j).spec = false ∧ b < ((x.lane c j).grid (closeChan b u (x.lane c k))).chans :=
      fun j hj => by rw [hnoted.rest]; exact hk j (List.mem_cons_of_mem _ hj)
    obtain ⟨v, a, hturn, hafter, ha⟩ := ih hnoted.cur hrest
    refine ⟨v, a, ⟨_, chanTurn_acts _ hspec hb, hturn⟩, hnoted.trans hafter, fun e => ?_⟩
    rw [ha, hz, List.exists_mem_cons_iff, or_assoc]

theorem chclose_notes {s : State} {f : Fields} {c p : Nat} {x : Pass} {ks : List Nat} (h : Executes s c p x f.guard ks)
    (hk : ∀ k ∈ ks, (s.thr c k).spec = false ∧ f.minor.toNat < ((x.lane c k).grid s).chans) :
    ∃ t z, exec (.chclose f) s = .next t ∧ Tbl.look (t.core c).pipes p = some z
      ∧ z = { x with idx := x.idx + 1, resv := z.resv, closing := z.closing }
      ∧ (∀ e, e ∈ z.closing ↔ e ∈ x.closing ∨ ∃ k ∈ ks, e = (k / 32, f.minor.toNat))
      ∧ t = { s with cores := t.cores, teams := t.teams } ∧ (∀ q, t.team q = s.team q)
      ∧ ∀ d, t.core d = { s.core d with pipes := (t.core d).pipes } := by
  obtain ⟨v, y, hturn, hnoted, hy⟩ := chclose_inTurn x h.1 hk
  obtain ⟨t, hexec, hon⟩ := s.execSeq_inTurn f.guard false _ h hturn (State.pipe_of_curPass hnoted.cur) (by rw [hnoted.pass])
  have hteams : t.teams = s.teams := hon.teams_of_silent.trans (by rw [hnoted.rest])
  obtain ⟨-, -, hresv⟩ := v.useChans_slots c y false (results ks (fun k => { th := s.thr c k }))
  have hcore : ∀ d, t.core d = (v.setPass c p (nextPass v c y false (results ks (fun k => { th := s.thr c k })))).core d := fun d => by
    rw [State.core, hon.cores]; rfl
  refine ⟨t, nextPass v c y false (results ks (fun k => { th := s.thr c k })), hexec, ?_, ?_, fun e => ?_, ?_, fun q => ?_, fun d => ?_⟩
  · rw [hcore]; simp [State.setPass]
  · rw [nextPass, hresv, hnoted.pass]
  · rw [nextPass, hresv]
    exact hy e
  · rw [hon.rest, hnoted.rest]
  · rw [State.team, hteams]; rfl
  · rw [hcore, State.setPass, State.modCore_eq, State.core_setCore]
    split
    · next e => rw [e, hnoted.core]
    · exact hnoted.core d

/-! ## Waiting (R199) -/

theorem barWait_effect {s : State} {f : Fields} {c p : Nat} {x : Pass} {ks : List Nat} (w : Nat → Word) (h : Executes s c p x f.guard ks)
    (hk : ∀ k ∈ ks, (x.lane c k).check s [(pSA, OpKind.src false, f.sa)] = .ok () ∧ (x.lane c k).readWord s pSA f.sa = .ok (w k)) :
    ∃ t, exec (.barWait f) s = .next t ∧ LaneEffect s t c p x ks f.readsChannel (fun k =>
      { (x.lane c k).start s f with
        th := { ((x.lane c k).start s f).th with
          barWait := Tbl.put ((x.lane c k).start s f).th.barWait f.minor.toNat ((w k).extractLsb' 0 16) } }) := by
  rw [exec_barWait]
  refine regOp_effect s f _ _ h (fun k hmem => ?_) (agree_of_no_uniform fun k _ => ⟨Lane.start_g _ _ _, Lane.start_tw _ _ _⟩)
  obtain ⟨hcheck, hread⟩ := hk k hmem
  refine ⟨hcheck, ?_⟩
  rw [hread]
  rfl

/-! ## The count of an arrival -/

/-- The count that a lane's source gives: none without a source. -/
def GivesCount (s : State) (l : Lane) (o : Operand) (n : Option Nat) : Prop :=
  if o = .none then n = none else ∃ w, l.readWord s pSA o = .ok w ∧ 1 ≤ w.toNat ∧ w.toNat ≤ 1024 ∧ n = some w.toNat

theorem barCount_eq {s : State} {l : Lane} {o : Operand} {n : Option Nat} (h : GivesCount s l o n) : barCount s l o = .ok n := by
  by_cases ho : o = .none
  · rw [GivesCount, if_pos ho] at h
    rw [barCount, if_pos (beq_iff_eq.mpr ho), h]
  · rw [GivesCount, if_neg ho] at h
    obtain ⟨w, hread, hpos, hle, rfl⟩ := h
    have hzero : (w == 0) = false := beq_eq_false_iff_ne.mpr fun e => by rw [e] at hpos; exact absurd hpos (by decide)
    rw [barCount, if_neg (fun e => ho (beq_iff_eq.mp e)), hread]
    simp only [hzero, Bool.false_or, decide_eq_true_eq, Nat.not_lt.mpr hle, if_false]

/-! ## `bar.arrive` (R198) -/

/-- What the turns of `bar.arrive` keep of the state: the cores, the grids, and of each gang and each team where it belongs. -/
structure ArrivalsKeep (s u : State) : Prop where
  cores : u.cores = s.cores
  grids : u.grids = s.grids
  gang : ∀ c gs, (u.gang c gs).team = (s.gang c gs).team ∧ (u.gang c gs).num = (s.gang c gs).num
  team : ∀ q, (u.team q).grid = (s.team q).grid

/-- The registers of a lane's thread. -/
theorem ArrivalsKeep.regs {s u : State} (h : ArrivalsKeep s u) (l : Lane) : l.regs u = l.regs s := by
  obtain ⟨hteam, hnum⟩ := h.gang l.core l.gslot
  rw [Lane.regs, Lane.regs, Lane.grid, Lane.grid, Lane.gang, Lane.gang, hnum, State.gangGrid, State.gangGrid, State.gangTeam, State.gangTeam,
    hteam, h.team, State.grid, State.grid, h.grids]

theorem State.commit_frame (u : State) (c k : Nat) (o : LaneOut) :
    u.commit c k o = { u with threads := (u.commit c k o).threads, gangs := (u.commit c k o).gangs } := by
  rw [State.commit, State.putUniform_frame]
  rfl

/-- What a lane computed leaves a gang its number. -/
theorem State.num_commit (u : State) (c k : Nat) (o : LaneOut) (d gs : Nat) : ((u.commit c k o).gang d gs).num = (u.gang d gs).num := by
  unfold State.commit State.putUniform
  simp only [List.foldl_cons, List.foldl_nil]
  split
  · rfl
  · rw [State.modGang_eq, State.gang_setGang]
    split
    · next e => rw [State.gang, State.gang, e]; rfl
    · rfl

theorem ArrivalsKeep.turn {s u : State} (h : ArrivalsKeep s u) (c k : Nat) (o : LaneOut) (m b : Nat) (n : Option Nat) :
    ArrivalsKeep s ((u.commit c k o).arrive m b c k n) := by
  have hcommit := u.commit_frame c k o
  have harrive := (u.commit c k o).arrive_frame m b c k n
  have hgang : ∀ d gs, ((u.commit c k o).arrive m b c k n).gang d gs = (u.commit c k o).gang d gs := fun d gs => by rw [harrive]; rfl
  refine ⟨?_, ?_, fun d gs => ?_, fun q => ?_⟩
  · rw [harrive, hcommit]; exact h.cores
  · rw [harrive, hcommit]; exact h.grids
  · obtain ⟨hteam, hnum⟩ := h.gang d gs
    rw [hgang, State.num_commit]
    exact ⟨(State.putUniform_team _ _ _ _ _).trans hteam, hnum⟩
  · rw [State.team_grid_arrive, hcommit]
    exact h.team q

/-- A lane finds in the g register that it is to write a generation that another lane of its gang wrote (R176). -/
def arriveClash (s0 : State) (f : Fields) (s : State) (l : Lane) : Bool :=
  match f.dst with
  | .g n => !(leadLane s0 f.guard l (barArriveCheck f s0) == some l.slot)
      && (l.gang s).readG n.toNat != ((s.team (l.gang s).team).bar f.minor.toNat).gen.setWidth 32
  | _ => false

/-- A lane's turn at `bar.arrive`. -/
def arriveTurn (s0 : State) (f : Fields) (s : State) (l : Lane) : State × Option LaneFail :=
  match barArriveCheck f s0 l with
  | .error e => (s, some e)
  | .ok count =>
    let t := (l.gang s).team
    let gen : Word := (((s.team t).bar f.minor.toNat).gen).setWidth 32
    if arriveClash s0 f s l then (s, some (.fault (opInfo 0x11 f.dst.toSpec.toNat pDST)))
    else
      let clk := (l.start s0 f).th.clkh
      let o : LaneOut := { th := { l.thr s with clkh := clk } }
      let s := s.commit l.core l.slot (o.put (l.regs s0) f.dst gen)
      (s.arrive t f.minor.toNat l.core l.slot count, none)

theorem execBarArrive_eq (f : Fields) (s : State) : execBarArrive f s = s.execSeq f.guard f.readsChannel (arriveTurn s f) := rfl

theorem find?_eq_of_unique {α : Type} {l : List α} {q : α → Bool} {a : α} (ha : a ∈ l) (hq : q a = true)
    (hu : ∀ b ∈ l, q b = true → b = a) :
    l.find? q = some a := by
  obtain ⟨b, hb⟩ := Option.isSome_iff_exists.mp (List.find?_isSome.mpr ⟨a, ha, hq⟩)
  rw [hb, hu b (List.mem_of_find?_eq_some hb) (List.find?_some hb)]

/-- A lane alone in its gang leads it. -/
theorem leadLane_alone {α : Type} {s : State} {c p : Nat} {x : Pass} {g : Guard} {ks : List Nat} (h : Executes s c p x g ks)
    {check : Lane → Except LaneFail α} {a : Nat → α} (hcheck : ∀ k ∈ ks, check (x.lane c k) = .ok (a k))
    (halone : ks.Pairwise (fun i j => i / 32 ≠ j / 32)) {k : Nat} (hk : k ∈ ks) : leadLane s g (x.lane c k) check = some k := by
  obtain ⟨hcur, hex, -⟩ := h
  rw [leadLane, hcur]
  dsimp only
  rw [hex]
  refine find?_eq_of_unique hk ?_ fun j hj hpass => ?_
  · show (k / 32 == k / 32 && _) = true
    rw [beq_self_eq_true, Bool.true_and, show ({ x.lane c k with slot := k } : Lane) = x.lane c k from rfl, hcheck k hk]
  · obtain ⟨hsame, -⟩ := Bool.and_eq_true_iff.mp hpass
    exact List.inj_on_of_nodup_map (List.pairwise_map.mpr halone) hj hk (beq_iff_eq.mp hsame)

theorem barArriveCheck_eq {s : State} {f : Fields} {l : Lane} {n : Option Nat}
    (hcheck : l.check s [(pSA, OpKind.srcOpt false, f.sa), (pDST, OpKind.dstReg false, f.dst)] = .ok ()) (hspec : (l.thr s).spec = false)
    (hcount : GivesCount s l f.sa n) (hconv : (∃ r, f.dst = .g r) → Hdr.conv l.hdr = true) : barArriveCheck f s l = .ok n := by
  simp only [barArriveCheck, hcheck, Lane.stopIfSpec_ok hspec, barCount_eq hcount, bind, Except.bind]
  split
  · next r e => rw [if_pos (hconv ⟨r, e⟩)]
  · rfl

section
variable {s : State} {f : Fields} {c p : Nat} {x : Pass} {ks : List Nat} {n : Nat → Option Nat}

theorem Executes.slot_holds {g : Guard} (h : Executes s c p x g ks) {k : Nat} (hk : k ∈ ks) : k ∈ x.slots ∧ (s.thr c k).holds g = true := by
  rw [← h.2.1] at hk
  exact List.mem_filter.mp hk

theorem barArrive_lanesRun (h : Executes s c p x f.guard ks)
    (hcount : ∀ k ∈ x.slots, (s.thr c k).holds f.guard = true → GivesCount s (x.lane c k) f.sa (n k))
    (hk : ∀ k ∈ ks, (x.lane c k).check s [(pSA, OpKind.srcOpt false, f.sa), (pDST, OpKind.dstReg false, f.dst)] = .ok ()
      ∧ (s.thr c k).spec = false)
    (hg : (∃ r, f.dst = .g r) → Hdr.conv x.hdr = true ∧ ks.Pairwise (fun i j => i / 32 ≠ j / 32)) :
    ∃ t, exec (.barArrive f) s = .next t ∧ LanesRun (fun u l v =>
      v = (u.commit l.core l.slot (({ th := { l.thr u with clkh := (l.start s f).th.clkh } } : LaneOut).put (l.regs u) f.dst
        (((u.team (l.gang u).team).bar f.minor.toNat).gen.setWidth 32))).arrive (l.gang u).team f.minor.toNat l.core l.slot (n l.slot))
      s c p x ks f.readsChannel t := by
  have hcheck : ∀ k ∈ ks, barArriveCheck f s (x.lane c k) = .ok (n k) := fun k hmem => by
    obtain ⟨hfields, hspec⟩ := hk k hmem
    obtain ⟨hslot, hholds⟩ := h.slot_holds hmem
    exact barArriveCheck_eq hfields hspec (hcount k hslot hholds) (fun hr => (hg hr).1)
  rw [exec_barArrive, execBarArrive_eq]
  refine execSeq_lanesRun h _ (ArrivalsKeep s) ⟨rfl, rfl, fun _ _ => ⟨rfl, rfl⟩, fun _ => rfl⟩ (fun u hu => ?pipe) (fun u hu k hmem => ?turn)
  case pipe => rw [State.core, hu.cores]; exact State.pipe_of_curPass h.1
  case turn =>
    have hclash : arriveClash s f u (x.lane c k) = false := by
      unfold arriveClash
      split
      · next r e => rw [leadLane_alone h hcheck (hg ⟨r, e⟩).2 hmem, show (some k == some (x.lane c k).slot) = true from beq_self_eq_true _]; rfl
      · rfl
    refine ⟨_, ?_, rfl, hu.turn c k _ _ _ _⟩
    rw [arriveTurn, hcheck k hmem, hu.regs]
    exact if_neg (Bool.eq_false_iff.mp hclash)

/-! ## `bar.sync` (R200) -/

/-- What the turns of `bar.sync` keep of the state: the cores, and of each thread its predicates and whether it speculates. -/
structure SyncKeeps (s u : State) : Prop where
  cores : u.cores = s.cores
  thr : ∀ n, (Tbl.at u.threads n {}).preds = (Tbl.at s.threads n {}).preds ∧ (Tbl.at u.threads n {}).spec = (Tbl.at s.threads n {}).spec

theorem SyncKeeps.trans {s u v : State} (h : SyncKeeps s u) (g : SyncKeeps u v) : SyncKeeps s v :=
  ⟨g.cores.trans h.cores, fun n => ⟨(g.thr n).1.trans (h.thr n).1, (g.thr n).2.trans (h.thr n).2⟩⟩

theorem SyncKeeps.setThr (u : State) (c k : Nat) (th : Thread) (hpreds : th.preds = (u.thr c k).preds) (hspec : th.spec = (u.thr c k).spec) :
    SyncKeeps u (u.setThr c k th) := by
  refine ⟨rfl, fun n => ?_⟩
  rw [State.setThr_threads, Tbl.at_put]
  split
  · next e => rw [e]; exact ⟨hpreds, hspec⟩
  · exact ⟨rfl, rfl⟩

theorem SyncKeeps.arrive (u : State) (m b c k : Nat) (n : Option Nat) : SyncKeeps u (u.arrive m b c k n) :=
  ⟨by rw [State.arrive_frame], fun j => by rw [State.thr_arrive]; exact ⟨rfl, rfl⟩⟩

theorem SyncKeeps.holds {s u : State} (h : SyncKeeps s u) {c k : Nat} {g : Guard} (hg : (u.thr c k).holds g = true) : (s.thr c k).holds g = true := by
  rw [← hg, Thread.holds, Thread.holds, show (u.thr c k).preds = (s.thr c k).preds from (h.thr _).1]

/-- A lane's thread that waits for the generation of a barrier. -/
def waitingAt (f : Fields) (s u : State) (l : Lane) : Thread :=
  { l.thr u with
    barWait := Tbl.put (l.thr u).barWait f.minor.toNat ((u.team (l.gang u).team).bar f.minor.toNat).gen
    clkh := (l.start s f).th.clkh }

/-- A lane that waits for the generation of a barrier arrives at it. -/
def syncedAt (f : Fields) (s u : State) (l : Lane) (n : Option Nat) : State :=
  (u.setThr l.core l.slot (waitingAt f s u l)).arrive (l.gang u).team f.minor.toNat l.core l.slot n

theorem SyncKeeps.synced (f : Fields) (s u : State) (l : Lane) (n : Option Nat) : SyncKeeps u (syncedAt f s u l n) :=
  (SyncKeeps.setThr u l.core l.slot (waitingAt f s u l) rfl rfl).trans (.arrive _ (l.gang u).team f.minor.toNat l.core l.slot n)

theorem SyncKeeps.succeed (u : State) (c k : Nat) (a : DWord) : SyncKeeps u (u.succeed (x.lane c k) a) := .setThr u c k _ rfl rfl

theorem barSync_lanesEnd (hcur : s.curPass = some (c, p, x)) (haligned : (fallThrough x.clause x.body).toNat % 32 = 0)
    (hcan : canonical (fallThrough x.clause x.body).toNat = true)
    (hcount : ∀ k ∈ x.slots, (s.thr c k).holds f.guard = true → GivesCount s (x.lane c k) f.sa (n k))
    (hk : ∀ k ∈ x.slots, (x.lane c k).check s [(pSA, OpKind.srcOpt false, f.sa)] = .ok ()
      ∧ ((s.thr c k).holds f.guard = true → (s.thr c k).spec = false)) :
    ∃ t, exec (.barSync f) s = .next t ∧ LanesEnd (fun u l v =>
      let w := syncedAt f s u l (n l.slot)
      if (l.thr u).holds f.guard then v = w.setThr l.core l.slot { l.thr w with pos := entryPos (fallThrough x.clause x.body) }
      else v = u.setThr l.core l.slot { l.thr u with pos := entryPos (fallThrough x.clause x.body) }) s c p x t := by
  rw [exec_barSync]
  refine termOp_each (SyncKeeps s) hcur ⟨rfl, fun _ => ⟨rfl, rfl⟩⟩ (fun u hu => hu.cores) (fun k hmem => (hk k hmem).1)
    (fun u hu k hmem hholds => ?syncs) (fun u hu k hmem hholds => ?falls)
  case syncs =>
    have hheld := hu.holds hholds
    have hspec : ((x.lane c k).thr u).spec = false := ((hu.thr _).2).trans ((hk k hmem).2 hheld)
    refine ⟨(syncedAt f s u (x.lane c k) (n k)).succeed (x.lane c k) (fallThrough x.clause x.body), ?_, ?_, ?_⟩
    · simp only [Lane.stopIfSpec_ok hspec, barCount_eq (hcount k hmem hheld), Pass.lane_ft hcur, checkSuccessor_good ⟨haligned, hcan⟩,
        bind, Except.bind]
      rfl
    · rw [if_pos (show ((x.lane c k).thr u).holds f.guard = true from hholds)]
      rfl
    · exact (hu.trans (.synced f s u _ _)).trans (.succeed _ c k _)
  case falls =>
    refine ⟨?_, hu.trans (.succeed u c k _)⟩
    rw [if_neg (show ¬ ((x.lane c k).thr u).holds f.guard = true from hholds)]
    rfl

end

/-- Settles O31: an arrival records itself before the phase may complete (`recordArrival`, `completeBar`); at the team instructions every lane
takes its turn by the rule of its instruction, under what those turns keep of the state. -/
theorem barriersAndTeamInstructionResults : Obligations.BarriersAndTeamInstructionResults := by
  unfold Obligations.BarriersAndTeamInstructionResults
  refine ⟨fun s m b c k count hsorted hthr hb => ?arrival, fun f s c p x ks =>
    ⟨?illegal, ?channels, ?waits, fun n hcount => ⟨?arrives, ?syncs⟩⟩⟩
  case arrival =>
    intro y fixed exp arrived arr done t
    have hbar := State.bar_arrive count hsorted hthr (s := s) (m := m) (b := b)
    have harrived := State.arrived_arrive count hsorted hthr (m := m) hb
    refine ⟨(hbar b).trans (if_pos rfl), fun n hn => (hbar n).trans (if_neg hn), ?_, fun hdone n hmem => ?_,
      fun d j => s.thr_arrive m b c k count _, s.arrive_frame m b c k count⟩
    · refine (harrived (threadKey c k)).trans ?_
      rw [if_pos rfl]
      by_cases hdone : done
      · rw [if_pos hdone]
        exact if_congr (and_iff_right hdone) rfl rfl
      · rw [if_neg hdone]
        exact if_neg (fun h => hdone h.1)
    · exact (harrived n).trans (if_pos ⟨hdone, hmem⟩)
  case illegal =>
    intro h hchans t
    rw [exec_chopen, exec_chclose, execChopen_eq, execChclose_eq]
    exact ⟨chanTurn_all_fault h _ hchans, chanTurn_all_fault h _ hchans⟩
  case channels => exact fun h hk => ⟨chopen_lanesRun h hk, chclose_notes h hk⟩
  case waits => exact fun w h hk => barWait_effect w h hk
  case arrives => exact fun h hk hg => barArrive_lanesRun h hcount hk hg
  case syncs => exact fun hcur haligned hcan hk => barSync_lanesEnd hcur haligned hcan hcount hk

end Sys2Proof.Machine
end
section
/-!
The obligation on the events of an agreed vote (R413 to R431).
-/
namespace Sys2Proof.Machine

namespace StraySpeculator

/-- A run-ahead that is to be undone and that lists none of the lanes that speculate. -/
def ahead : GangSpec :=
  { reg := 0, seq := 0, dir := false, lanes := [], target := 0, ft := 0, clause := 0, idx := 0
    snap := [], snapG := [], snapTw := 5, squash := some 0 }

/-- A pass of slot 0, for whose gang it reserved the entry 0 of channel 0 to read. -/
def pass : Pass :=
  { id := 0, clause := 0, hdr := 0, start := 0, idx := 0, body := [], slots := [0], resv := [(0, { rd := some 0 })] }

/-- Slot 0 speculates; the channel 0 of its team holds the entry 0. -/
def state : State := { State.reset with
  threads := [(threadKey 0 0, { spec := true })]
  gangs := [(gangKey 0 0, { team := 0, num := 0, spec := some ahead })]
  teams := [(0, { grid := 0, num := 0, lcore := 0, core := 0, footprint := 0, chans := [(0, { fifo := [⟨0, .reading, []⟩] })] })]
  cores := [(0, { pipes := [(0, pass)] })] }

/-- The squash withdraws slot 0, with which the pass ends and its reserved entry is popped. -/
theorem squash_pops : (TwiceListed.nextState (exec (.specSquash 0 0) state)).map (fun t => ((t.team 0).chan 0).fifo) = some [] := by
  decide +kernel

end StraySpeculator

/-- Refutes O51, by its last clause: the premise that no pass holds a lane of the run-ahead's list leaves a pass with a lane that speculates
outside that list. The squash withdraws every lane of the gang that speculates, so this pass ends and pops the entry it reserved. -/
theorem not_voteEventResults : ¬ Obligations.VoteEventResults := by
  unfold Obligations.VoteEventResults
  intro h
  obtain ⟨-, -, -, -, -, -, -, squash⟩ := h
  obtain ⟨t, hexec, -, -, -, -, -, -, -, teams⟩ :=
    squash StraySpeculator.state 0 0 0 StraySpeculator.ahead rfl rfl (by decide) List.nodup_nil (by decide)
  have popped : ((t.team 0).chan 0).fifo = [] := by
    have := StraySpeculator.squash_pops
    rw [hexec] at this
    exact Option.some.inj this
  have held : ((t.team 0).chan 0).fifo = [⟨0, .reading, []⟩] := by
    unfold State.team
    rw [teams (by decide)]
    rfl
  exact absurd (popped.symm.trans held) (by decide)

end Sys2Proof.Machine
end
section
/-!
The obligation on beats and on a launch from a thread (R202, R217 to R219): a lane's beats are fixed by the state before the
instruction only when a pass lists each slot once.
-/
namespace Sys2Proof.Machine

/-- A pass that goes on leaves the beats counted as the last lane left them. -/
theorem GoesOn.beatAcc {s t : State} {c p : Nat} {x : Pass} {reads : Bool} {outs : List (Nat × LaneOut)}
    (h : GoesOn s t c p x reads outs) : (t.core c).beatAcc = (s.core c).beatAcc := by
  have hcore : t.core c = { s.core c with pipes := Tbl.put (s.core c).pipes p (nextPass s c x reads outs) } := by
    rw [State.core, h.cores]
    exact State.core_setCore_self s c _
  rw [hcore]

namespace TwiceListed

/-- A pass that lists slot 0 twice: the %clkh latched before is 1, and the next latch makes it 64. -/
def beating : State := { State.reset with
  cores := [(0, { cycle := 0x4000000000, pipes := [(0, pass)] })]
  threads := [(0, { clkh := 1 })] }

/-- `beat` of %clkh that names %clk too: the first turn of the slot counts 1 beat, and the second turn the 64 that the first turn latched. -/
theorem beat_turns : (nextState (exec (.beat trapFields) beating)).map (fun t => (t.core 0).beatAcc) = some 65 := by
  decide +kernel

end TwiceListed

/-- Refutes O45, by the clause on `beat`: it fixes a lane's beats by the state before the instruction, where %clkh is 1, and the second
turn of a slot that the pass lists twice counts the %clkh that the first turn latched, 64. -/
theorem not_beatAndLaunchResults : ¬ Obligations.BeatAndLaunchResults := by
  unfold Obligations.BeatAndLaunchResults
  intro h
  obtain ⟨beats, -⟩ := h
  obtain ⟨counts, -⟩ := beats TwiceListed.trapFields TwiceListed.beating 0 0 TwiceListed.pass [0, 0] (fun _ => 1)
    ⟨rfl, rfl, by decide⟩ (by decide +kernel)
  obtain ⟨t, hexec, u, ⟨u1, first, u2, second, last⟩, on⟩ := counts (by decide)
  have counted : (t.core 0).beatAcc = 65 := by
    have := TwiceListed.beat_turns
    rw [hexec] at this
    exact Option.some.inj this
  have twice : (t.core 0).beatAcc = 2 := by
    obtain ⟨frame1, acc1, -⟩ := (if_neg (by decide)).mp first
    have spec1 : ((TwiceListed.pass.lane 0 0).thr u1).spec = false := by
      rw [frame1]; rfl
    have acc2 : (u2.core 0).beatAcc = (u1.core 0).beatAcc + 1 := by
      obtain ⟨-, acc2, -⟩ := (if_neg (by rw [spec1]; exact Bool.false_ne_true)).mp second
      exact acc2
    rw [on.beatAcc, last, acc2, acc1]
    rfl
  exact absurd (counted.symm.trans twice) (by decide)

end Sys2Proof.Machine
end
section
/-!
The obligation on launches and on the events of teams and grids (R203, R205, R207 to R216, R248): a launch takes the priority that its
queue has once the head packet is read, not the one before.
-/
namespace Sys2Proof.Machine

namespace OwnerWrites

/-- Page tables that map the first GiB to itself. -/
def tables : List Host.Cell := [(0, 1), (1, 0x10), (0x1000, 0x3F)]

/-- A launch packet at 0x4000, which names the record at 0x8100. -/
def packetCells : List Host.Cell := [(0x4000, 1), (0x4009, 0x81)]

/-- That record: one team of one thread, one consumer gang of 64 registers, code at 0x10000, the placement map at 0xA000, scales of 1.0. -/
def recordCells : List Host.Cell :=
  [(0x8102, 1), (0x810C, 1), (0x8110, 1), (0x8114, 1), (0x8118, 1), (0x8119, 1), (0x811A, 1), (0x811C, 0x40), (0x811F, 0x08), (0x8121, 1),
    (0x8131, 0xA0)]
  ++ (List.range 8).flatMap (fun i => [(0x8156 + 8 * i, 0x80), (0x8157 + 8 * i, 0x3F)])

/-- The launch stands at the head of queue 3, whose descriptor lies in slot 0 of the page of command processor 0. The line of page table
entries that the read of the packet meets has an error in an entry that no walk reads, and its slice names core 0 as owner; that
core's L1 holds a store of 0x24 to the lowest byte of the descriptor's QCTL, which makes PRIO 1. -/
def state : State := { State.reset with
  mem := tables ++ packetCells ++ recordCells
  parts := [(0, { built := true, ncores := 2, rmt := [(0, 0x8000), (1, 0x8001)] })]
  queues := [(3, { ring := 0x4000, qctl := BitVec.ofNat 32 (4 + 2 ^ 20), wridx := 1 })]
  hwSlots := [(0, 3)]
  vcpPages := some 0x100000
  vcps := [(0, { qd := [(0, 3)] })]
  badWords := [0x1020 / 4]
  l2 := [(0x1000 / 64, { key := 0, way := 0, use := 0, owner := some 0, pins := 0, bad := false })]
  cores := [(0, { l1 := [(l1Key (0x100800 / 64) false,
    { line := 0x100800 / 64, key := 0, ctx := 0, const := false, data := 0x24 <<< 64, dirty := 1 <<< 8, bad := 0 })] })] }

/-- The bytes of the packet at the head of queue 3. -/
def packet : List Byte := (state.headPacket 3).toOption.getD []

theorem packet_read : (state.headPacket 3).toOption = some packet := by decide +kernel

/-- PRIO is 0 before the packet is read. -/
theorem prio_before : (state.queue 3).prio = 0 := by decide +kernel

/-- The line with the error leaves its slice with the read, for which its owner's stores are performed: the launch is accepted with
PRIO 1. -/
theorem accepted_prio : ((state.serve 0 3).acceptLaunch 3 0 packet).toOption.map (·.prio) = some 1 := by decide +kernel

end OwnerWrites

theorem eq_ok_of_toOption {ε α : Type} {r : Except ε α} {a : α} (h : r.toOption = some a) : r = .ok a := by
  cases r with
  | error e => cases h
  | ok b => exact congrArg _ (Option.some.inj h)

/-- Refutes O49, by the priority of an accepted launch: the read of the head packet can meet a bad line, whose owner's stores are then
performed, one to the queue's own QCTL among them. -/
theorem not_launchAndTeamEventResults : ¬ Obligations.LaunchAndTeamEventResults := by
  unfold Obligations.LaunchAndTeamEventResults
  intro h
  obtain ⟨launches, -⟩ := h
  obtain ⟨g, accepted, prio⟩ := Option.map_eq_some_iff.mp OwnerWrites.accepted_prio
  obtain ⟨-, -, -, accepts⟩ := launches OwnerWrites.state 3 0 OwnerWrites.packet (by decide +kernel) (eq_ok_of_toOption OwnerWrites.packet_read)
    (by decide +kernel)
  have hctx : queueCtx (OwnerWrites.state.queue 3) = 0 := by decide +kernel
  rw [hctx] at accepts
  obtain ⟨-, -, -, kept, -⟩ := accepts g (eq_ok_of_toOption accepted)
  rw [OwnerWrites.prio_before] at kept
  exact absurd (prio.symm.trans kept) (by decide)

end Sys2Proof.Machine
end

section
/-!
The progress loop's arithmetic (R221 to R224): the rungs of the ladder and the levels they give, what settling leaves in range, and the
step's error, integral and demand.
-/
namespace Sys2Proof.Machine

/-! ## The ladder (R222, R223) -/

/-- Each rung is one actuator's: the rungs that an actuator does not take are left to the next. -/
theorem Loop.ladder_eq (l : Loop) (d : Nat) : l.ladder d =
    { gs := l.gsFloor + 4 * min d l.nGS
      nc := l.ncFloor + 2 * min (d - l.nGS) l.nNC
      wy := l.wyFloor + min (d - l.nGS - l.nNC) l.nWY
      hb := l.hbFloor + min (d - l.nGS - l.nNC - l.nWY) l.nHB
      ck := l.ckSlow - min (d - l.nGS - l.nNC - l.nWY - l.nHB) l.nCK } := by
  have turned (r m : Nat) : r - min r m = r - m := by omega
  simp only [Loop.ladder, turned]

theorem Loop.rungs_sum (l : Loop) (d : Nat) :
    min d l.nGS + min (d - l.nGS) l.nNC + min (d - l.nGS - l.nNC) l.nWY + min (d - l.nGS - l.nNC - l.nWY) l.nHB
      + min (d - l.nGS - l.nNC - l.nWY - l.nHB) l.nCK = min d l.top := by
  unfold Loop.top
  omega

/-- No level of the ladder leaves its range. -/
theorem Loop.ladder_levels (l : Loop) (d : Nat) :
    (l.wyFloor ≤ l.wyCeil → (l.ladder d).wy ≤ l.wyCeil) ∧ (l.hbFloor ≤ l.hbCeil → (l.ladder d).hb ≤ l.hbCeil)
      ∧ (l.gsFloor ≤ l.gsCeil → (l.ladder d).gs ≤ l.gsCeil) ∧ (l.ncFloor ≤ l.ncCeil → (l.ladder d).nc ≤ l.ncCeil) := by
  rw [Loop.ladder_eq]
  simp only [Loop.nGS, Loop.nNC, Loop.nWY, Loop.nHB]
  omega

theorem bitsOf_lt (x hi lo : Nat) : bitsOf x hi lo < 2 ^ (hi + 1 - lo) := Nat.mod_lt _ (Nat.two_pow_pos _)

/-- The whole ladder fits DEMAND and LTOP. -/
theorem Loop.top_lt (l : Loop) : l.top < 2 ^ 16 := by
  have hgs : l.gsCeil < 2 ^ 7 := bitsOf_lt ..
  have hnc : l.ncCeil < 2 ^ 9 := bitsOf_lt ..
  have hwy : l.wyCeil < 2 ^ 5 := bitsOf_lt ..
  have hhb : l.hbCeil < 2 ^ 7 := bitsOf_lt ..
  have hck : l.ckSlow < 2 ^ 4 := bitsOf_lt ..
  unfold Loop.top Loop.nGS Loop.nNC Loop.nWY Loop.nHB Loop.nCK
  omega

/-! ## Settling and the step (R221, R224) -/

theorem Word.toInt_bounds (w : Word) : -2 ^ 31 ≤ w.toInt ∧ w.toInt ≤ 2 ^ 31 - 1 := by
  have lower := w.le_toInt
  have upper := w.toInt_le
  omega

theorem Word.toInt_ofInt {x : Int} (hlow : -2 ^ 31 ≤ x) (hhigh : x ≤ 2 ^ 31 - 1) : (BitVec.ofInt 32 x).toInt = x := by
  rw [BitVec.toInt_ofInt]
  exact Int.bmod_eq_of_le (by omega) (by omega)

theorem sats_word (x : Int) : sats x 32 = min (max x (-2 ^ 31)) (2 ^ 31 - 1) := rfl

theorem sats_word_of_bounds {x : Int} (hlow : -2 ^ 31 ≤ x) (hhigh : x ≤ 2 ^ 31 - 1) : sats x 32 = x := by
  rw [sats_word]
  omega

theorem Loop.settle_ltop (l : Loop) : l.settle.ltop.toNat = l.top := by
  show (BitVec.ofNat 16 l.top).toNat = l.top
  rw [BitVec.toNat_ofNat, Nat.mod_eq_of_lt l.top_lt]

/-- The integral after a step, before it is stored: held while the error is positive and the loop can ask for no more, and within its
limits otherwise. -/
def Loop.nextIval (l : Loop) (e : Int) : Int :=
  let a := l.settle
  if 0 < e ∧ (a.demand = a.ltop ∨ a.short = true) then a.ival.toInt
  else min (max (a.ival.toInt + (l.ki.toNat * e) / 16) l.imin.toInt) l.imax.toInt

/-- UVAL of a step: the proportional term and the integral, saturated. -/
def Loop.nextUval (l : Loop) (e : Int) : Int := min (max ((l.kp.toNat * e) / 16 + l.nextIval e) (-2 ^ 31)) (2 ^ 31 - 1)

theorem Loop.nextIval_bounds (l : Loop) (e : Int) : -2 ^ 31 ≤ l.nextIval e ∧ l.nextIval e ≤ 2 ^ 31 - 1 := by
  have himin := Word.toInt_bounds l.imin
  have himax := Word.toInt_bounds l.imax
  have hival := Word.toInt_bounds l.settle.ival
  unfold Loop.nextIval
  dsimp only
  split
  · exact hival
  · omega

/-- The loop that a step with error `e` of a count `n` leaves. -/
theorem Loop.step_eq (l : Loop) (n : Nat) {e : Int} (he : sats (l.target.toInt - n * 256) 32 = e) : l.step n =
    { l with
      ival := BitVec.ofInt 32 (l.nextIval e), meas := BitVec.ofInt 32 (n * 256), elast := BitVec.ofInt 32 e
      uval := BitVec.ofInt 32 (l.nextUval e)
      demand := BitVec.ofNat 16 (min ((l.nextUval e + 0x8000) / 65536).toNat l.top)
      ltop := l.settle.ltop, icount := l.icount + 1, ctrl := l.ctrl &&& ~~~(onesAt 32 29 1) } := by
  have hhold (a b : BitVec 16) (c : Bool) : (decide (0 < e) && (a == b || c)) = decide (0 < e ∧ (a = b ∨ c = true)) := by
    simp only [Bool.decide_and, Bool.decide_or, Bool.decide_eq_true, beq_eq_decide]
  have he' : sats (l.settle.target.toInt - n * 256) 32 = e := he
  simp only [Loop.step, Loop.settle_ltop, he', hhold, decide_eq_true_eq]
  rfl

/-- What a step on a count that MEAS can hold gives (R224). -/
theorem Loop.step_results (l : Loop) {n : Nat} (hn : n < 2 ^ 23) (htarget : 0 ≤ l.target.toInt) :
    let e := l.target.toInt - 256 * n
    (l.step n).meas.toInt = 256 * n ∧ (l.step n).elast.toInt = e ∧ (l.step n).ival.toInt = l.nextIval e
      ∧ (l.step n).uval.toInt = l.nextUval e ∧ (l.step n).demand.toNat = min ((l.nextUval e + 0x8000) / 65536).toNat l.top
      ∧ (l.step n).ltop.toNat = l.top ∧ (l.step n).icount = l.icount + 1 := by
  intro e
  have htop := Word.toInt_bounds l.target
  have he : sats (l.target.toInt - n * 256) 32 = e := by
    rw [show l.target.toInt - n * 256 = e by omega]
    exact sats_word_of_bounds (by omega) (by omega)
  have hival := l.nextIval_bounds e
  have hladder := l.top_lt
  rw [Loop.step_eq l n he]
  refine ⟨?_, Word.toInt_ofInt (by omega) (by omega), Word.toInt_ofInt hival.1 hival.2,
    Word.toInt_ofInt (by unfold Loop.nextUval; omega) (by unfold Loop.nextUval; omega), ?_, l.settle_ltop, rfl⟩
  · rw [Int.mul_comm 256]
    exact Word.toInt_ofInt (by omega) (by omega)
  · exact (BitVec.toNat_ofNat _ 16).trans (Nat.mod_eq_of_lt (by omega))

end Sys2Proof.Machine
end

section
/-!
Pools (R228): the rank of the elements of a list, the cuts of one class, and the shedding of a pool class by class.
-/
namespace Sys2Proof.Machine

/-! ## Ranks -/

theorem countP_rank_of_sorted {α : Type} [LinearOrder α] {l : List α} (h : l.Pairwise (· < ·)) (m : Nat) :
    l.countP (fun x => decide (l.countP (fun y => decide (y < x)) < m)) = min m l.length := by
  induction l generalizing m with
  | nil => simp
  | cons a r ih =>
    obtain ⟨hfirst, hr⟩ := List.pairwise_cons.mp h
    have hnone : r.countP (fun y => decide (y < a)) = 0 :=
      List.countP_eq_zero.mpr fun y hy => by simpa using le_of_lt (hfirst y hy)
    have hrest : r.countP (fun x => decide ((a :: r).countP (fun y => decide (y < x)) < m))
        = r.countP (fun x => decide (r.countP (fun y => decide (y < x)) < m - 1)) :=
      List.countP_congr fun x hx => by
        rw [List.countP_cons_of_pos (by simpa using hfirst x hx)]
        simp only [decide_eq_true_eq]
        omega
    rw [List.countP_cons, hrest, ih hr, List.countP_cons_of_neg (by simp), hnone, List.length_cons]
    simp only [decide_eq_true_eq]
    split <;> omega

/-- As many elements of a list without repetition as are asked for have fewer elements below them. -/
theorem countP_rank {α : Type} [LinearOrder α] {l : List α} (h : l.Nodup) (m : Nat) :
    l.countP (fun x => decide (l.countP (fun y => decide (y < x)) < m)) = min m l.length := by
  have hperm := l.perm_insertionSort (· ≤ ·)
  have hsorted : (l.insertionSort (· ≤ ·)).Pairwise (· < ·) :=
    ((l.pairwise_insertionSort (· ≤ ·)).and (hperm.nodup_iff.mpr h)).imp fun hxy => lt_of_le_of_ne hxy.1 hxy.2
  have hrank := countP_rank_of_sorted hsorted m
  rw [hperm.length_eq, hperm.countP_eq] at hrank
  rw [← hrank]
  exact List.countP_congr fun x _ => by rw [hperm.countP_eq]

/-! ## The cuts of one class -/

/-- What a context asks for above its floor. -/
def Claim.spare (c : Claim) : Nat := c.r - c.f

/-- Larger remainders come first, and of equal ones the lower ID. -/
def Claim.turn (x a : Nat) (c : Claim) : Natᵒᵈ ×ₗ Nat := toLex (OrderDual.toDual (x * c.spare % a), c.ctx)

/-- Units that the floors of the shares leave. -/
def unitsLeft (cs : List Claim) (x a : Nat) : Nat := x - (cs.map (fun c => x * c.spare / a)).sum

/-- Whether a context takes one of them. -/
def takesUnit (cs : List Claim) (x a : Nat) (c : Claim) : Bool :=
  decide ((cs.map (Claim.turn x a)).countP (fun t => decide (t < c.turn x a)) < unitsLeft cs x a)

theorem cutsOf_eq (cs : List Claim) (x a : Nat) :
    cutsOf cs x a = cs.map (fun c => (c.ctx, x * c.spare / a + b2n (takesUnit cs x a c))) := by
  have hturn (c d : Claim) : (decide (x * c.spare % a < x * d.spare % a) || (x * d.spare % a == x * c.spare % a && decide (d.ctx < c.ctx)))
      = decide (d.turn x a < c.turn x a) := by
    rw [Bool.eq_iff_iff]
    simp [Claim.turn, Prod.Lex.toLex_lt_toLex]
  unfold cutsOf takesUnit unitsLeft
  simp only [← List.sum_eq_foldl, List.map_map, List.filter_map, List.length_map, Function.comp_def,
    List.countP_eq_length_filter]
  refine List.map_congr_left fun c _ => ?_
  simp only [← hturn]
  rfl

theorem sum_map_b2n {α : Type} (l : List α) (p : α → Bool) : (l.map (fun c => b2n (p c))).sum = l.countP p := by
  induction l with
  | nil => rfl
  | cons c r ih =>
    rw [List.map_cons, List.sum_cons, ih, List.countP_cons, b2n]
    split <;> omega

theorem sum_le_countP_mul {α : Type} {l : List α} {f : α → Nat} {a : Nat} (h : ∀ c ∈ l, f c ≤ a) :
    (l.map f).sum ≤ l.countP (fun c => decide (0 < f c)) * a := by
  induction l with
  | nil => simp
  | cons c r ih =>
    have hc := h c List.mem_cons_self
    have hr := ih fun d hd => h d (List.mem_cons_of_mem _ hd)
    rw [List.map_cons, List.sum_cons, List.countP_cons, Nat.add_mul]
    by_cases hpos : 0 < f c
    · simp only [hpos, decide_true, if_true, Nat.one_mul]
      omega
    · simp only [hpos, decide_false, Bool.false_eq_true, if_false]
      omega

section
variable {cs : List Claim} {x a : Nat} (hsum : (cs.map Claim.spare).sum = a) (hlt : x < a)
include hsum hlt

omit hlt in
/-- What the floors of the shares cut off makes up the units they leave. -/
theorem sum_remainders : (cs.map (fun c => x * c.spare % a)).sum = unitsLeft cs x a * a := by
  have hparts : (cs.map (fun c => x * c.spare % a)).sum + a * (cs.map (fun c => x * c.spare / a)).sum = x * a := by
    rw [← List.sum_map_mul_left, ← List.sum_map_add]
    simp only [Nat.mod_add_div]
    rw [List.sum_map_mul_left, hsum]
  rw [unitsLeft, Nat.sub_mul, ← hparts, Nat.mul_comm _ a]
  omega

theorem sum_shares_le : (cs.map (fun c => x * c.spare / a)).sum ≤ x := by
  refine Nat.le_of_mul_le_mul_left (c := a) ?_ (by omega)
  rw [← List.sum_map_mul_left, Nat.mul_comm a x, ← hsum, ← List.sum_map_mul_left]
  exact List.sum_le_sum fun c _ => Nat.mul_div_le _ _

/-- No more units are left than contexts whose share was cut. -/
theorem unitsLeft_le : unitsLeft cs x a ≤ cs.countP (fun c => decide (0 < x * c.spare % a)) := by
  refine Nat.le_of_mul_le_mul_right (c := a) ?_ (by omega)
  rw [← sum_remainders hsum]
  exact sum_le_countP_mul fun c _ => (Nat.mod_lt _ (by omega)).le

/-- So only a context whose share was cut takes one. -/
theorem remainder_pos_of_takesUnit {c : Claim} (h : takesUnit cs x a c = true) : 0 < x * c.spare % a := by
  by_contra hzero
  have hbefore : cs.countP (fun d => decide (0 < x * d.spare % a)) ≤ (cs.map (Claim.turn x a)).countP (fun t => decide (t < c.turn x a)) := by
    rw [List.countP_map]
    refine List.countP_mono_left fun d _ hd => ?_
    simp only [decide_eq_true_eq] at hd
    simp only [Function.comp_apply, decide_eq_true_eq, Claim.turn, Prod.Lex.toLex_lt_toLex]
    exact .inl (OrderDual.toDual_lt_toDual.mpr (by omega))
  have hrank := of_decide_eq_true h
  have hleft := unitsLeft_le hsum hlt
  omega

/-- No cut is larger than what its context asks for above its floor. -/
theorem share_le_spare (c : Claim) : x * c.spare / a + b2n (takesUnit cs x a c) ≤ c.spare := by
  have hshare : x * c.spare / a ≤ c.spare := Nat.div_le_of_le_mul (Nat.mul_le_mul_right _ hlt.le)
  cases htakes : takesUnit cs x a c with
  | false => exact hshare
  | true =>
    have hrem := remainder_pos_of_takesUnit hsum hlt htakes
    have hparts := Nat.mod_add_div (x * c.spare) a
    have hspare : 0 < c.spare := by
      by_contra h0
      simp [Nat.eq_zero_of_not_pos h0] at hrem
    have hless : x * c.spare < a * c.spare := Nat.mul_lt_mul_of_pos_right hlt hspare
    exact Nat.lt_of_mul_lt_mul_left (a := a) (by omega)

/-- The cuts of a class make up what is shed from it. -/
theorem sum_cuts (hnodup : (cs.map (·.ctx)).Nodup) : (cs.map (fun c => x * c.spare / a + b2n (takesUnit cs x a c))).sum = x := by
  have hturns : (cs.map (Claim.turn x a)).Nodup := by
    refine List.Nodup.of_map (fun t => (ofLex t).2) ?_
    rw [List.map_map]
    exact hnodup
  have hunits : cs.countP (takesUnit cs x a) = unitsLeft cs x a := by
    have hrank := countP_rank hturns (unitsLeft cs x a)
    rw [List.countP_map, List.length_map] at hrank
    refine hrank.trans (min_eq_left ((unitsLeft_le hsum hlt).trans List.countP_le_length))
  rw [List.sum_map_add, sum_map_b2n, hunits, unitsLeft]
  have := sum_shares_le hsum hlt
  omega

end

theorem at_cutsOf {cs : List Claim} (hnodup : (cs.map (·.ctx)).Nodup) (x a : Nat) {c : Claim} (hc : c ∈ cs) :
    Tbl.at (cutsOf cs x a) c.ctx 0 = x * c.spare / a + b2n (takesUnit cs x a c) := by
  have hkeys : (Tbl.keys (cutsOf cs x a)).Nodup := by
    rw [cutsOf_eq, Tbl.keys, List.map_map]
    exact hnodup
  have hmem : (c.ctx, x * c.spare / a + b2n (takesUnit cs x a c)) ∈ cutsOf cs x a := by
    rw [cutsOf_eq]
    exact List.mem_map_of_mem (f := fun c : Claim => (c.ctx, x * c.spare / a + b2n (takesUnit cs x a c))) hc
  rw [Tbl.at, Tbl.look_of_nodup hkeys hmem, Option.getD_some]

/-! ## Shedding class by class -/

/-- Grants set for the claims of a list. -/
def grantEach (v : Claim → Nat) (cs : List Claim) (g : Tbl Nat) : Tbl Nat := cs.foldl (fun g c => Tbl.put g c.ctx (v c)) g

theorem at_grantEach_other (v : Claim → Nat) {cs : List Claim} (g : Tbl Nat) {n : Nat} (h : n ∉ cs.map (·.ctx)) :
    Tbl.at (grantEach v cs g) n 0 = Tbl.at g n 0 := by
  induction cs generalizing g with
  | nil => rfl
  | cons c r ih =>
    rw [List.map_cons, List.mem_cons, not_or] at h
    exact (ih _ h.2).trans (Tbl.at_put_ne g _ _ h.1)

theorem at_grantEach (v : Claim → Nat) {cs : List Claim} (g : Tbl Nat) (hnodup : (cs.map (·.ctx)).Nodup) {c : Claim} (hc : c ∈ cs) :
    Tbl.at (grantEach v cs g) c.ctx 0 = v c := by
  induction cs generalizing g with
  | nil => cases hc
  | cons d r ih =>
    obtain ⟨hfresh, hr⟩ := List.nodup_cons.mp hnodup
    rcases List.mem_cons.mp hc with rfl | hc
    · exact (at_grantEach_other v _ hfresh).trans (Tbl.at_put_self g _ _ _)
    · exact ih _ hr hc

/-- The claims of the classes below one, and those of one class. -/
def claimsBelow (cs : List Claim) (k : Nat) : List Claim := cs.filter (fun c => decide (c.cls < k))
def claimsOf (cs : List Claim) (k : Nat) : List Claim := cs.filter (fun c => c.cls == k)

theorem mem_claimsOf {cs : List Claim} {k : Nat} {c : Claim} : c ∈ claimsOf cs k ↔ c ∈ cs ∧ c.cls = k := by simp [claimsOf]

theorem mem_claimsBelow {cs : List Claim} {k : Nat} {c : Claim} : c ∈ claimsBelow cs k ↔ c ∈ cs ∧ c.cls < k := by simp [claimsBelow]

theorem sum_claimsBelow_succ (cs : List Claim) (k : Nat) (v : Claim → Nat) :
    ((claimsBelow cs (k + 1)).map v).sum = ((claimsBelow cs k).map v).sum + ((claimsOf cs k).map v).sum := by
  unfold claimsBelow claimsOf
  induction cs with
  | nil => rfl
  | cons c r ih =>
    rcases lt_trichotomy c.cls k with h | h | h
    · have hsucc : c.cls < k + 1 := by omega
      have hne : c.cls ≠ k := by omega
      simp only [List.filter_cons, h, hsucc, hne, decide_true, beq_iff_eq, if_true, if_false, List.map_cons, List.sum_cons, ih]
      omega
    · subst h
      simp only [List.filter_cons, Nat.lt_succ_self, Nat.lt_irrefl, decide_true, decide_false, beq_self_eq_true, if_true,
        Bool.false_eq_true, if_false, List.map_cons, List.sum_cons, ih]
      omega
    · have hsucc : ¬ c.cls < k + 1 := by omega
      have hlt : ¬ c.cls < k := by omega
      have hne : c.cls ≠ k := by omega
      simp only [List.filter_cons, hsucc, hlt, hne, decide_false, beq_iff_eq, Bool.false_eq_true, if_false, ih]

/-- `x` units are shed from the classes below `k`: the grants of the other classes stand, no grant leaves its floor or its request, and a
class is reached only where every claim of a higher one is at its floor. -/
structure Sheds (cs : List Claim) (k x : Nat) (g g' : Tbl Nat) : Prop where
  above : ∀ c ∈ cs, k ≤ c.cls → Tbl.at g' c.ctx 0 = Tbl.at g c.ctx 0
  bounds : ∀ c ∈ cs, c.cls < k → c.f ≤ Tbl.at g' c.ctx 0 ∧ Tbl.at g' c.ctx 0 ≤ c.r
  cuts : ((claimsBelow cs k).map (fun c => c.r - Tbl.at g' c.ctx 0)).sum = x
  first : ∀ c ∈ cs, ∀ d ∈ cs, c.cls < d.cls → d.cls < k → Tbl.at g' c.ctx 0 < c.r → Tbl.at g' d.ctx 0 = d.f

section
variable {cs : List Claim} (hnodup : (cs.map (·.ctx)).Nodup)
include hnodup

theorem claimsOf_nodup (k : Nat) : ((claimsOf cs k).map (·.ctx)).Nodup := hnodup.sublist (List.filter_sublist.map _)

/-- Grants of one class leave those of the others. -/
theorem at_grantEach_otherClass (v : Claim → Nat) (g : Tbl Nat) {k : Nat} {c : Claim} (hc : c ∈ cs) (hk : c.cls ≠ k) :
    Tbl.at (grantEach v (claimsOf cs k) g) c.ctx 0 = Tbl.at g c.ctx 0 := by
  refine at_grantEach_other v g fun hmem => ?_
  obtain ⟨d, hd, hctx⟩ := List.mem_map.mp hmem
  obtain ⟨hd, hcls⟩ := mem_claimsOf.mp hd
  exact hk (List.inj_on_of_nodup_map hnodup hd hc hctx ▸ hcls)

theorem at_grantEach_class (v : Claim → Nat) (g : Tbl Nat) {c : Claim} (hc : c ∈ cs) :
    Tbl.at (grantEach v (claimsOf cs c.cls) g) c.ctx 0 = v c :=
  at_grantEach v g (claimsOf_nodup hnodup _) (mem_claimsOf.mpr ⟨hc, rfl⟩)

omit hnodup in
/-- Nothing is shed: every claim has its request. -/
theorem Sheds.none {k : Nat} {g : Tbl Nat} (hle : ∀ c ∈ cs, c.f ≤ c.r) (hfull : ∀ c ∈ cs, c.cls < k → Tbl.at g c.ctx 0 = c.r) :
    Sheds cs k 0 g g where
  above := fun _ _ _ => rfl
  bounds := fun c hc hk => by rw [hfull c hc hk]; exact ⟨hle c hc, le_rfl⟩
  cuts := by
    refine List.sum_eq_zero fun n hn => ?_
    obtain ⟨c, hc, rfl⟩ := List.mem_map.mp hn
    obtain ⟨hc, hk⟩ := mem_claimsBelow.mp hc
    rw [hfull c hc hk, Nat.sub_self]
  first := fun c hc d _ hcd hd hcut => absurd hcut (by rw [hfull c hc (by omega)]; exact lt_irrefl _)

/-- A class that is shed whole goes to its floors, and the rest is shed from the classes below. -/
theorem Sheds.whole {k x : Nat} {g g' : Tbl Nat} (hle : ∀ c ∈ cs, c.f ≤ c.r) (hx : ((claimsOf cs k).map Claim.spare).sum ≤ x)
    (h : Sheds cs k (x - ((claimsOf cs k).map Claim.spare).sum) (grantEach (·.f) (claimsOf cs k) g) g') : Sheds cs (k + 1) x g g' := by
  have hfloor : ∀ c ∈ cs, c.cls = k → Tbl.at g' c.ctx 0 = c.f := fun c hc hk => by
    subst hk
    exact (h.above c hc le_rfl).trans (at_grantEach_class hnodup _ g hc)
  refine ⟨fun c hc hk => ?_, fun c hc hk => ?_, ?_, fun c hc d hd hcd hk hcut => ?_⟩
  · exact (h.above c hc (by omega)).trans (at_grantEach_otherClass hnodup _ g hc (by omega))
  · rcases Nat.lt_succ_iff_lt_or_eq.mp hk with hk | hk
    · exact h.bounds c hc hk
    · rw [hfloor c hc hk]
      exact ⟨le_rfl, hle c hc⟩
  · have hclass : (claimsOf cs k).map (fun c => c.r - Tbl.at g' c.ctx 0) = (claimsOf cs k).map Claim.spare :=
      List.map_congr_left fun c hc => by
        obtain ⟨hc, hk⟩ := mem_claimsOf.mp hc
        rw [hfloor c hc hk, Claim.spare]
    rw [sum_claimsBelow_succ, h.cuts, hclass]
    omega
  · rcases Nat.lt_succ_iff_lt_or_eq.mp hk with hk | hk
    · exact h.first c hc d hd hcd hk hcut
    · exact hfloor d hd hk

/-- A class that is shed in part gives up the cuts of its shares, and the classes below keep what they have. -/
theorem Sheds.part {k x : Nat} {g : Tbl Nat} (hle : ∀ c ∈ cs, c.f ≤ c.r) (hfull : ∀ c ∈ cs, c.cls < k → Tbl.at g c.ctx 0 = c.r)
    (hx : x < ((claimsOf cs k).map Claim.spare).sum) :
    Sheds cs (k + 1) x g (grantEach
      (fun c => c.r - Tbl.at (cutsOf (claimsOf cs k) x ((claimsOf cs k).map Claim.spare).sum) c.ctx 0) (claimsOf cs k) g) := by
  set a := ((claimsOf cs k).map Claim.spare).sum with ha
  set v := fun c : Claim => c.r - Tbl.at (cutsOf (claimsOf cs k) x a) c.ctx 0 with hv
  have hcut : ∀ c ∈ claimsOf cs k, Tbl.at (cutsOf (claimsOf cs k) x a) c.ctx 0 ≤ c.spare := fun c hc => by
    rw [at_cutsOf (claimsOf_nodup hnodup k) x a hc]
    exact share_le_spare ha.symm hx c
  have hclass : ∀ c ∈ claimsOf cs k, Tbl.at (grantEach v (claimsOf cs k) g) c.ctx 0 = v c := fun c hc =>
    at_grantEach v g (claimsOf_nodup hnodup k) hc
  have hbelow : ∀ c ∈ cs, c.cls < k → Tbl.at (grantEach v (claimsOf cs k) g) c.ctx 0 = c.r := fun c hc hk =>
    (at_grantEach_otherClass hnodup v g hc (by omega)).trans (hfull c hc hk)
  refine ⟨fun c hc hk => at_grantEach_otherClass hnodup v g hc (by omega), fun c hc hk => ?_, ?_, fun c hc d _ hcd hk hless => ?_⟩
  · rcases Nat.lt_succ_iff_lt_or_eq.mp hk with hk | hk
    · rw [hbelow c hc hk]
      exact ⟨hle c hc, le_rfl⟩
    · have hmem := mem_claimsOf.mpr ⟨hc, hk⟩
      have hspare := hcut c hmem
      have hfr := hle c hc
      rw [hclass c hmem]
      unfold Claim.spare at hspare
      simp only [hv]
      omega
  · have hcuts : (claimsOf cs k).map (fun c => c.r - Tbl.at (grantEach v (claimsOf cs k) g) c.ctx 0)
        = (claimsOf cs k).map (fun c => x * c.spare / a + b2n (takesUnit (claimsOf cs k) x a c)) :=
      List.map_congr_left fun c hc => by
        have hspare := hcut c hc
        rw [hclass c hc, ← at_cutsOf (claimsOf_nodup hnodup k) x a hc]
        unfold Claim.spare at hspare
        simp only [hv]
        omega
    rw [sum_claimsBelow_succ, hcuts, sum_cuts ha.symm hx (claimsOf_nodup hnodup k), List.sum_eq_zero, Nat.zero_add]
    intro n hn
    obtain ⟨c, hc, rfl⟩ := List.mem_map.mp hn
    obtain ⟨hc, hk⟩ := mem_claimsBelow.mp hc
    rw [hbelow c hc hk, Nat.sub_self]
  · rw [hbelow c hc (by omega)] at hless
    exact absurd hless (lt_irrefl _)

theorem shedClasses_sheds (hle : ∀ c ∈ cs, c.f ≤ c.r) (k x : Nat) (g : Tbl Nat) (hfull : ∀ c ∈ cs, c.cls < k → Tbl.at g c.ctx 0 = c.r)
    (hx : x ≤ ((claimsBelow cs k).map Claim.spare).sum) : Sheds cs k x g (shedClasses cs k x g) := by
  induction k generalizing x g with
  | zero =>
    have hnone : claimsBelow cs 0 = [] := by simp [claimsBelow]
    rw [hnone] at hx
    obtain rfl : x = 0 := Nat.le_zero.mp hx
    exact .none hle hfull
  | succ k ih =>
    have hbelow : ∀ c ∈ cs, c.cls < k → Tbl.at g c.ctx 0 = c.r := fun c hc hk => hfull c hc (by omega)
    rw [sum_claimsBelow_succ] at hx
    rw [shedClasses]
    split
    · next h0 => subst h0; exact .none hle hfull
    · dsimp only
      rw [← List.sum_eq_foldl]
      split
      · next ha =>
        refine .whole hnodup hle ha (ih _ _ (fun c hc hk => ?_) (Nat.sub_le_iff_le_add.mpr hx))
        exact (at_grantEach_otherClass hnodup _ g hc (by omega)).trans (hbelow c hc hk)
      · next ha => exact .part hnodup hle hbelow (Nat.lt_of_not_le ha)

/-- The grants of a pool: none leaves its floor or its request, the supply is granted whole or every request is, and a class is cut only
where every claim of a higher one is at its floor. -/
theorem shed_results {supply : Nat} (hclaims : ∀ c ∈ cs, c.f ≤ c.r ∧ c.cls < 4) (hfloors : (cs.map (·.f)).sum ≤ supply) :
    let g := fun c : Claim => Tbl.at (shed cs supply) c.ctx 0
    (∀ c ∈ cs, c.f ≤ g c ∧ g c ≤ c.r) ∧ (cs.map g).sum = min (cs.map (·.r)).sum supply
      ∧ ∀ c ∈ cs, ∀ d ∈ cs, c.cls < d.cls → g c < c.r → g d = d.f := by
  intro g
  have hall : claimsBelow cs 4 = cs := List.filter_eq_self.mpr fun c hc => decide_eq_true (hclaims c hc).2
  have hspare : (cs.map Claim.spare).sum + (cs.map (·.f)).sum = (cs.map (·.r)).sum := by
    rw [← List.sum_map_add]
    exact congrArg _ (List.map_congr_left fun c hc => Nat.sub_add_cancel (hclaims c hc).1)
  have h : Sheds cs 4 ((cs.map (·.r)).sum - supply) (grantEach (·.r) cs []) (shed cs supply) := by
    unfold shed
    rw [← List.sum_eq_foldl]
    refine shedClasses_sheds hnodup (fun c hc => (hclaims c hc).1) 4 _ _ (fun c hc _ => at_grantEach _ _ hnodup hc) ?_
    rw [hall]
    omega
  have hbounds : ∀ c ∈ cs, c.f ≤ g c ∧ g c ≤ c.r := fun c hc => h.bounds c hc (hclaims c hc).2
  refine ⟨hbounds, ?_, fun c hc d hd hcd hcut => h.first c hc d hd hcd (hclaims d hd).2 hcut⟩
  have hgrants : (cs.map (fun c => c.r - g c)).sum + (cs.map g).sum = (cs.map (·.r)).sum := by
    rw [← List.sum_map_add]
    exact congrArg _ (List.map_congr_left fun c hc => Nat.sub_add_cancel (hbounds c hc).2)
  have hcuts := h.cuts
  rw [hall] at hcuts
  change (cs.map (fun c => c.r - g c)).sum = _ at hcuts
  omega

end

end Sys2Proof.Machine
end

section
/-!
The end of a pass of the progress loop (R220, R227, R228, R328), and the merge of a beat group (R406, R407).
-/
namespace Sys2Proof.Machine

/-! ## What a pass changes -/

theorem State.awaitsMerge_eq_false {s : State} : s.awaitsMerge = false ↔ ∀ e ∈ s.ctxs, e.2.merged = none := by
  simp only [State.awaitsMerge, List.any_eq_false, Option.not_isSome_iff_eq_none]

theorem State.merged_of_not_awaitsMerge {s : State} (h : s.awaitsMerge = false) (n : Nat) : (s.ctx n).merged = none := by
  unfold State.ctx Tbl.at
  cases hn : Tbl.look s.ctxs n with
  | none => rfl
  | some x => exact State.awaitsMerge_eq_false.mp h _ (Tbl.mem_of_look hn)

/-- The pools are granted and the clock steps chosen: of a context only SHORT and what was granted and is to apply change, and none comes
to wait for its beat group. -/
structure PassWorks (s t : State) : Prop where
  rest : t = { s with
    ctxs := t.ctxs, cores := t.cores, agenda := t.agenda, loopPass := t.loopPass, pendingSteps := t.pendingSteps, waysDue := t.waysDue }
  ctx : ∀ n, t.ctx n = { s.ctx n with
    loop := { (s.ctx n).loop with ctrl := (t.ctx n).loop.ctrl }, pendingLevels := (t.ctx n).pendingLevels
    wayGrant := (t.ctx n).wayGrant, hbmGrant := (t.ctx n).hbmGrant, wylent := (t.ctx n).wylent }
  merges : s.awaitsMerge = false → t.awaitsMerge = false

namespace PassWorks
variable {s t u : State}

/-- Nothing of the contexts changes. -/
theorem of (rest : t = { s with
    cores := t.cores, agenda := t.agenda, loopPass := t.loopPass, pendingSteps := t.pendingSteps, waysDue := t.waysDue }) :
    PassWorks s t := by
  have hctxs : t.ctxs = s.ctxs := by rw [rest]
  refine ⟨by rw [rest], fun n => ?_, fun h => ?_⟩
  · rw [show t.ctx n = s.ctx n by rw [State.ctx, hctxs, State.ctx]]
  · rwa [State.awaitsMerge, hctxs]

theorem refl (s : State) : PassWorks s s := of rfl

theorem trans (h : PassWorks s t) (g : PassWorks t u) : PassWorks s u :=
  ⟨by rw [g.rest, h.rest], fun n => by rw [g.ctx n, h.ctx n], fun e => g.merges (h.merges e)⟩

theorem fold {α : Type} {f : State → α → State} (h : ∀ s a, PassWorks s (f s a)) (l : List α) (s : State) : PassWorks s (l.foldl f s) := by
  induction l generalizing s with
  | nil => exact .refl s
  | cons a r ih => exact (h s a).trans (ih _)

theorem modCtx (s : State) (c : Nat) (f : Ctx → Ctx)
    (h : f (s.ctx c) = { s.ctx c with
      loop := { (s.ctx c).loop with ctrl := (f (s.ctx c)).loop.ctrl }, pendingLevels := (f (s.ctx c)).pendingLevels
      wayGrant := (f (s.ctx c)).wayGrant, hbmGrant := (f (s.ctx c)).hbmGrant, wylent := (f (s.ctx c)).wylent }) :
    PassWorks s (s.modCtx c f) := by
  refine ⟨rfl, fun n => ?_, fun hs => State.awaitsMerge_eq_false.mpr fun e he => ?_⟩
  · rw [State.modCtx_eq, State.ctx_setCtx]
    split
    · next e => subst e; exact h
    · rfl
  · rcases Tbl.mem_of_mem_put he with rfl | he
    · show (f (s.ctx c)).merged = none
      rw [h]
      exact State.merged_of_not_awaitsMerge hs c
    · exact State.awaitsMerge_eq_false.mp hs e he

/-- Every context gives back what the pass before granted of the ways. -/
theorem ungrant (s : State) : PassWorks s { s with waysDue := true, ctxs := s.ctxs.map (fun e => (e.1, e.2.ungranted)) } := by
  refine ⟨rfl, fun n => ?_, fun h => State.awaitsMerge_eq_false.mpr fun e he => ?_⟩
  · have hn : Tbl.at (s.ctxs.map (fun e => (e.1, e.2.ungranted))) n {} = (s.ctx n).ungranted := Tbl.at_map_snd s.ctxs Ctx.ungranted n {}
    rw [State.ctx, hn]
    rfl
  · obtain ⟨d, hd, rfl⟩ := List.mem_map.mp he
    exact State.awaitsMerge_eq_false.mp h d hd

theorem loop (h : PassWorks s t) (n : Nat) : (t.ctx n).loop = { (s.ctx n).loop with ctrl := (t.ctx n).loop.ctrl } :=
  congrArg Ctx.loop (h.ctx n)

theorem merged (h : PassWorks s t) (n : Nat) : (t.ctx n).merged = (s.ctx n).merged := by rw [h.ctx n]

end PassWorks

theorem State.allocate_works (s : State) : PassWorks s s.allocate := by
  unfold State.allocate
  extract_lets es loopOf req claim cores on ways share lent s1 least s2
  have hgrant : PassWorks s1 s2 := .fold (fun u c => .modCtx u c _ rfl) es s1
  exact ((PassWorks.ungrant s).trans hgrant).trans (.of rfl)

theorem State.setSteps_works (s : State) : PassWorks s s.setSteps := by
  refine .fold (fun u d => ?_) _ s
  dsimp only
  refine PassWorks.trans (.of rfl) (.fold (fun v q => .fold (fun w c => ?_) _ v) _ _)
  split
  · exact .modCtx w c _ rfl
  · exact .refl w

theorem State.finishPass_works (s : State) : PassWorks s s.finishPass := by
  unfold State.finishPass
  dsimp only
  refine PassWorks.trans ?_ (.of rfl)
  split
  · exact s.allocate_works.trans (State.setSteps_works _)
  · exact s.setSteps_works

theorem State.finishPass_loopPass (s : State) : s.finishPass.loopPass = none := rfl

theorem State.finishPass_applies (s : State) : Act.event .actuatorLevelsApply ∈ s.finishPass.agenda :=
  List.mem_append_right _ List.mem_cons_self

/-! ## The end of a merge -/

/-- A pass under way goes on, or it ends where no context waits any more. -/
theorem State.passOn_cases (s : State) :
    (s.passOn = s ∧ (s.awaitsMerge = true ∨ s.loopPass = none)) ∨ (s.passOn = s.finishPass ∧ s.awaitsMerge = false) := by
  unfold State.passOn
  split
  · next h => exact .inl ⟨rfl, by simpa using h⟩
  · next h =>
    obtain ⟨hno, -⟩ : s.awaitsMerge = false ∧ ¬ s.loopPass = none := by simpa using h
    exact .inr ⟨rfl, hno⟩

theorem State.passOn_works (s : State) : PassWorks s s.passOn := by
  rcases s.passOn_cases with ⟨h, -⟩ | ⟨h, -⟩ <;> rw [h]
  · exact .refl s
  · exact s.finishPass_works

/-- The state in which a context waits for its group no more. -/
def State.unmerged (s : State) (n : Nat) : State := s.setCtx n { s.ctx n with merged := none }

theorem State.endMerge_eq (s : State) (n : Nat) : s.endMerge n = (s.unmerged n).passOn := rfl

theorem State.endMerge_works (s : State) (n : Nat) : PassWorks (s.unmerged n) (s.endMerge n) := State.passOn_works _

theorem State.endMerge_merged (s : State) (n : Nat) : ((s.endMerge n).ctx n).merged = none := by
  rw [(s.endMerge_works n).merged, State.unmerged, State.ctx_setCtx_self]

/-- While a pass is under way, it ends with the last merge only. -/
theorem State.endMerge_passes {s : State} (hpass : s.loopPass ≠ none) (n : Nat) :
    ((s.endMerge n).awaitsMerge = true → s.endMerge n = s.unmerged n)
      ∧ ((s.endMerge n).awaitsMerge = false → (s.endMerge n).loopPass = none) := by
  rw [State.endMerge_eq]
  rcases (s.unmerged n).passOn_cases with ⟨h, hwhy⟩ | ⟨h, hnone⟩ <;> rw [h]
  · have hwaits := hwhy.resolve_right hpass
    exact ⟨fun _ => rfl, fun hno => absurd (hno.symm.trans hwaits) (by decide)⟩
  · exact ⟨fun hyes => absurd ((State.finishPass_works _).merges hnone ▸ hyes) (by decide), fun _ => State.finishPass_loopPass _⟩

end Sys2Proof.Machine
end

section
/-!
The obligation on the progress loop (R218, R220 to R224, R228, R329, R351, R352, R406, R407): the boundary, the levels that apply, and the
count of a beat group.
-/
namespace Sys2Proof.Machine

theorem State.toTime_passes (s : State) (x : Nat) : TimePasses s (s.toTime x) := by
  unfold State.toTime
  split
  · exact s.elapse_time _
  · exact .refl s

theorem State.toTime_time (s : State) (x : Nat) : (s.toTime x).time = max s.time x := by
  unfold State.toTime
  split
  · rw [State.elapse_time_eq]
    omega
  · omega

/-! ## One context at a boundary (R218, R220, R351) -/

/-- The count of a core that a context's interval reads is cleared. -/
def Core.beatsTaken (n : Nat) (k : Core) : Core := if k.ctx == some n then { k with beatAcc := 0 } else k

theorem State.takeBeats_core (s : State) (n c : Nat) : ((s.takeBeats n).1).core c = (s.core c).beatsTaken n := by
  have hmap : (fun e : Nat × Core => if e.2.ctx == some n then (e.1, { e.2 with beatAcc := 0 }) else e) = fun e => (e.1, e.2.beatsTaken n) := by
    funext e
    unfold Core.beatsTaken
    split <;> rfl
  have hcores : ((s.takeBeats n).1).cores = s.cores.map (fun e => (e.1, e.2.beatsTaken n)) := congrArg (s.cores.map ·) hmap
  rw [State.core, hcores]
  exact Tbl.at_map_snd s.cores (Core.beatsTaken n) c {}

theorem State.ncHeldCores_congr {s t : State} (hteams : t.teams = s.teams) (hgrids : t.grids = s.grids)
    (hloop : ∀ d, (t.ctx d).loop = (s.ctx d).loop) (n : Nat) : t.ncHeldCores n = s.ncHeldCores n := by
  simp only [State.ncHeldCores, State.coresOf, State.ctxTeams, State.teamsOn, State.heldByNc, State.teamCtx, State.teamCores, State.grid,
    hteams, hgrids, hloop]
  rfl

/-- What a boundary at which its interval ends leaves of a context, whether it steps, skips or does neither: the count is read, and the
marks of the interval that begins are set. -/
structure IntervalEnds (s : State) (n : Nat) (u : State) : Prop where
  rest : u = { s with cores := u.cores, ctxs := u.ctxs, outbox := u.outbox, loopPass := u.loopPass }
  core : ∀ c, u.core c = (s.core c).beatsTaken n
  ctx : u.ctx n = { s.ctx n with
    beats := 0, heldCore := !(s.coresOf n).isEmpty, ncFull := (s.ctx n).ncHeld, ncHeld := s.ncHeldCores n, mergeMiss := false
    loop := (u.ctx n).loop, inForce := (u.ctx n).inForce, merged := (u.ctx n).merged }
  others : ∀ d, d ≠ n → Tbl.look u.ctxs d = Tbl.look s.ctxs d

/-- The state once the count is read and the marks are set. -/
def State.atBoundary (s : State) (n : Nat) : State :=
  let t := (s.takeBeats n).1
  t.modCtx n (fun y => { y with
    heldCore := !(t.coresOf n).isEmpty, ncFull := y.ncHeld, ncHeld := t.ncHeldCores n, mergeMiss := false })

theorem State.atBoundary_ctx (s : State) (n : Nat) : (s.atBoundary n).ctx n = { s.ctx n with
    beats := 0, heldCore := !(s.coresOf n).isEmpty, ncFull := (s.ctx n).ncHeld, ncHeld := s.ncHeldCores n, mergeMiss := false } := by
  have hbeats (d : Nat) : ((s.takeBeats n).1).ctx d = if d = n then { s.ctx n with beats := 0 } else s.ctx d := State.ctx_setCtx s n d _
  have hnc : ((s.takeBeats n).1).ncHeldCores n = s.ncHeldCores n := by
    refine State.ncHeldCores_congr (s := s) (t := (s.takeBeats n).1) rfl rfl (fun d => ?_) n
    rw [hbeats]
    split
    · next e => rw [e]
    · rfl
  rw [State.atBoundary, State.modCtx_eq, State.ctx_setCtx_self, hbeats, if_pos rfl, hnc]
  rfl

theorem State.atBoundary_ends (s : State) (n : Nat) : IntervalEnds s n (s.atBoundary n) where
  rest := rfl
  core := s.takeBeats_core n
  ctx := by rw [s.atBoundary_ctx]
  others := fun d hd => (Tbl.look_put_ne _ _ hd).trans (Tbl.look_put_ne s.ctxs _ hd)

/-- A step, a skip or a count that is sent changes no more. -/
theorem IntervalEnds.then {s m : State} {n : Nat} (h : IntervalEnds s n m) (y : Ctx) (out : List (Nat × Msg)) (pass : Option Bool)
    (hy : y = { m.ctx n with loop := y.loop, inForce := y.inForce, merged := y.merged }) :
    IntervalEnds s n { m.setCtx n y with outbox := out, loopPass := pass } where
  rest := by rw [h.rest]; rfl
  core := h.core
  ctx := by
    have hctx : ({ m.setCtx n y with outbox := out, loopPass := pass } : State).ctx n = y := m.ctx_setCtx_self n y
    rw [hctx, hy, h.ctx]
  others := fun d hd => (Tbl.look_put_ne m.ctxs _ hd).trans (h.others d hd)

theorem State.boundary_between {s : State} {now n : Nat} (h : now % (s.ctx n).loop.interval ≠ 0) : s.boundary now n = s := if_pos h

section
variable {s : State} {now n : Nat} (hends : now % (s.ctx n).loop.interval = 0)
include hends

theorem State.boundary_eq : s.boundary now n =
    let x := s.ctx n
    let m := s.atBoundary n
    let beats := (s.takeBeats n).2
    if !x.loop.en || now < x.firstStep then m
    else if !x.heldCore then m.modCtx n (fun y => { y with loop := y.loop.skip })
    else if x.loop.bgrp = 0 then { m.modCtx n (fun y => y.stepped beats) with loopPass := some true }
    else
      { m.modCtx n (fun y => { y with merged := some beats }) with
        outbox := if m.portsUp == 0 then m.outbox else m.outbox ++ [(m.votePort 0, beatMsg m n beats)] } :=
  if_neg (not_not_intro hends)

theorem State.boundary_idle (h : ¬ ((s.ctx n).loop.en = true ∧ (s.ctx n).firstStep ≤ now)) : s.boundary now n = s.atBoundary n := by
  rw [State.boundary_eq hends]
  refine if_pos ?_
  cases hen : (s.ctx n).loop.en with
  | false => rfl
  | true => simpa using Nat.lt_of_not_le fun hle => h ⟨hen, hle⟩

variable (hsteps : (s.ctx n).loop.en = true ∧ (s.ctx n).firstStep ≤ now)
include hsteps

theorem State.boundary_steps : s.boundary now n =
    let x := s.ctx n
    let m := s.atBoundary n
    let beats := (s.takeBeats n).2
    if !x.heldCore then m.modCtx n (fun y => { y with loop := y.loop.skip })
    else if x.loop.bgrp = 0 then { m.modCtx n (fun y => y.stepped beats) with loopPass := some true }
    else
      { m.modCtx n (fun y => { y with merged := some beats }) with
        outbox := if m.portsUp == 0 then m.outbox else m.outbox ++ [(m.votePort 0, beatMsg m n beats)] } := by
  rw [State.boundary_eq hends]
  exact if_neg (by simp [hsteps.1, hsteps.2])

theorem State.boundary_skips (hheld : (s.ctx n).heldCore = false) :
    s.boundary now n = (s.atBoundary n).modCtx n (fun y => { y with loop := y.loop.skip }) := by
  rw [State.boundary_steps hends hsteps]
  exact if_pos (by rw [hheld]; rfl)

theorem State.boundary_alone (hheld : (s.ctx n).heldCore = true) (hgrp : (s.ctx n).loop.bgrp = 0) :
    s.boundary now n = { (s.atBoundary n).modCtx n (fun y => y.stepped (s.takeBeats n).2) with loopPass := some true } := by
  rw [State.boundary_steps hends hsteps]
  exact (if_neg (by rw [hheld]; exact Bool.false_ne_true)).trans (if_pos hgrp)

theorem State.boundary_grouped (hheld : (s.ctx n).heldCore = true) (hgrp : (s.ctx n).loop.bgrp ≠ 0) :
    s.boundary now n = { (s.atBoundary n).modCtx n (fun y => { y with merged := some (s.takeBeats n).2 }) with
      outbox := if s.portsUp = 0 then s.outbox else s.outbox ++ [(s.votePort 0, beatMsg s n (s.takeBeats n).2)] } := by
  have hmsg : beatMsg (s.atBoundary n) n (s.takeBeats n).2 = beatMsg s n (s.takeBeats n).2 := by
    unfold beatMsg
    rw [s.atBoundary_ctx]
    rfl
  rw [State.boundary_steps hends hsteps]
  refine ((if_neg (by rw [hheld]; exact Bool.false_ne_true)).trans (if_neg hgrp)).trans ?_
  rw [hmsg]
  simp only [beq_iff_eq]
  rfl

end

theorem State.boundary_ends {s : State} {now n : Nat} (hends : now % (s.ctx n).loop.interval = 0) : IntervalEnds s n (s.boundary now n) := by
  have h := s.atBoundary_ends n
  by_cases hsteps : (s.ctx n).loop.en = true ∧ (s.ctx n).firstStep ≤ now
  · cases hheld : (s.ctx n).heldCore with
    | false => rw [State.boundary_skips hends hsteps hheld]; exact h.then _ _ _ rfl
    | true =>
      by_cases hgrp : (s.ctx n).loop.bgrp = 0
      · rw [State.boundary_alone hends hsteps hheld hgrp]; exact h.then _ _ _ rfl
      · rw [State.boundary_grouped hends hsteps hheld hgrp]; exact h.then _ _ _ rfl
  · rw [State.boundary_idle hends hsteps]
    exact h

end Sys2Proof.Machine
end

section
/-!
The obligation on the progress loop, continued: the pass at a boundary, the levels and clock steps that apply, the count of a beat group, and
the assembly (R220, R222 to R224, R228, R328, R329, R352, R406, R407).
-/
namespace Sys2Proof.Machine

/-! ## The pass at a boundary (R220) -/

/-- What contexts at a boundary change. -/
structure BoundaryRuns (s t : State) : Prop where
  rest : t = { s with cores := t.cores, ctxs := t.ctxs, outbox := t.outbox, loopPass := t.loopPass }
  pass : s.loopPass.isSome = true → t.loopPass.isSome = true

theorem State.boundary_runs (s : State) (now n : Nat) : BoundaryRuns s (s.boundary now n) := by
  by_cases hends : now % (s.ctx n).loop.interval = 0
  · refine ⟨(State.boundary_ends hends).rest, fun h => ?_⟩
    by_cases hsteps : (s.ctx n).loop.en = true ∧ (s.ctx n).firstStep ≤ now
    · cases hheld : (s.ctx n).heldCore with
      | false => rw [State.boundary_skips hends hsteps hheld]; exact h
      | true =>
        by_cases hgrp : (s.ctx n).loop.bgrp = 0
        · rw [State.boundary_alone hends hsteps hheld hgrp]; rfl
        · rw [State.boundary_grouped hends hsteps hheld hgrp]; exact h
    · rw [State.boundary_idle hends hsteps]
      exact h
  · rw [State.boundary_between hends]
    exact ⟨rfl, id⟩

theorem State.boundaries_run (now : Nat) (l : List Nat) (s : State) : BoundaryRuns s (l.foldl (fun s c => s.boundary now c) s) := by
  induction l generalizing s with
  | nil => exact ⟨rfl, id⟩
  | cons c r ih =>
    obtain ⟨hrest, hpass⟩ := s.boundary_runs now c
    obtain ⟨hrest', hpass'⟩ := ih (s.boundary now c)
    exact ⟨by rw [List.foldl_cons, hrest', hrest], fun h => hpass' (hpass h)⟩

/-- The state at the next boundary, before any context's interval ends. -/
def State.atNextBoundary (s : State) : State :=
  { s.toTime (1000 * (64000 * (s.boundaries + 1))) with boundaries := s.boundaries + 1, loopPass := some false }

/-- The state once every interval that ends there has ended. -/
def State.intervalsEnded (s : State) : State :=
  (Tbl.keys s.atNextBoundary.ctxs).foldl (fun u c => u.boundary (64000 * (s.boundaries + 1)) c) s.atNextBoundary

theorem State.intervalsEnded_runs (s : State) : BoundaryRuns s.atNextBoundary s.intervalsEnded := State.boundaries_run _ _ _

theorem exec_allocPass {s : State} (h : s.loopPass = none) :
    exec .allocPass s = .next (if s.intervalsEnded.awaitsMerge then s.intervalsEnded else s.intervalsEnded.finishPass) := by
  show execAllocPass s = _
  unfold execAllocPass State.intervalsEnded State.atNextBoundary
  rw [if_neg (by rw [h]; exact Bool.false_ne_true)]

/-- What a pass whose boundary is at a time leaves beside the contexts. -/
theorem State.pass_frame {s u t : State} {at' : Nat}
    (hu : BoundaryRuns { s.toTime at' with boundaries := s.boundaries + 1, loopPass := some false } u) (h : PassWorks u t) :
    t.boundaries = s.boundaries + 1 ∧ t.time = max s.time at' ∧ t.mem = s.mem ∧ t.teams = s.teams
      ∧ t.grids = s.grids ∧ t.gangs = s.gangs ∧ t.copies = s.copies ∧ t.queues = s.queues := by
  have hpast := (s.toTime_passes at').rest
  rw [h.rest, hu.rest]
  refine ⟨rfl, s.toTime_time at', ?_⟩
  dsimp only
  rw [hpast]
  exact ⟨rfl, rfl, rfl, rfl, rfl, rfl⟩

/-- The boundary is still under way while a context waits for its beat group; otherwise the pass ends and its levels apply. -/
theorem allocPass_results {s : State} (h : s.loopPass = none) : ∃ t, exec .allocPass s = .next t ∧ PassWorks s.intervalsEnded t
    ∧ (if t.awaitsMerge then t.loopPass.isSome = true else t.loopPass = none ∧ Act.event .actuatorLevelsApply ∈ t.agenda) := by
  refine ⟨_, exec_allocPass h, ?_⟩
  cases hwaits : s.intervalsEnded.awaitsMerge with
  | true =>
    rw [if_pos rfl, hwaits]
    exact ⟨.refl _, s.intervalsEnded_runs.pass rfl⟩
  | false =>
    rw [if_neg Bool.false_ne_true, s.intervalsEnded.finishPass_works.merges hwaits]
    exact ⟨State.finishPass_works _, State.finishPass_loopPass _, State.finishPass_applies _⟩

/-! ## Levels and clock steps apply (R220, R252, R329, R352, R359) -/

/-- The loop with the levels that wait to apply. -/
def Ctx.leveled (x : Ctx) : Loop := { x.loop with levels := x.pendingLevels.getD x.loop.levels }

theorem Ctx.leveled_of_none {x : Ctx} (h : x.pendingLevels = none) : x.leveled = x.loop := by
  unfold Ctx.leveled
  rw [h]
  rfl

/-- The levels of one context apply. -/
def State.applyLevels (s : State) (c : Nat) : State :=
  match (s.ctx c).pendingLevels with
  | none => s
  | some w => (s.modCtx c (fun x => { x with loop := { x.loop with levels := w }, pendingLevels := none })).refreshHeld c

/-- Levels apply: only contexts change, none in the levels that it is to have, and none comes to have levels waiting. -/
structure LevelsApply (s t : State) : Prop where
  rest : t = { s with ctxs := t.ctxs }
  leveled : ∀ n, (t.ctx n).leveled = (s.ctx n).leveled
  none : ∀ n, (s.ctx n).pendingLevels = none → (t.ctx n).pendingLevels = none

theorem LevelsApply.trans {s t u : State} (h : LevelsApply s t) (g : LevelsApply t u) : LevelsApply s u :=
  ⟨by rw [g.rest, h.rest], fun n => (g.leveled n).trans (h.leveled n), fun n hn => g.none n (h.none n hn)⟩

theorem State.applyLevels_applies (s : State) (c : Nat) :
    LevelsApply s (s.applyLevels c) ∧ ((s.applyLevels c).ctx c).pendingLevels = none := by
  unfold State.applyLevels
  split
  · next h => exact ⟨⟨rfl, fun _ => rfl, fun _ => id⟩, h⟩
  · next w h =>
    set u := s.modCtx c (fun x => { x with loop := { x.loop with levels := w }, pendingLevels := none }) with hu
    have hctx (n : Nat) : ((u.refreshHeld c).ctx n).loop = (u.ctx n).loop ∧ ((u.refreshHeld c).ctx n).pendingLevels = (u.ctx n).pendingLevels := by
      have hheld := (u.refreshHeld_beside c).ctx n
      rw [hheld]
      exact ⟨rfl, rfl⟩
    have hset (n : Nat) : u.ctx n = if n = c then { s.ctx c with loop := { (s.ctx c).loop with levels := w }, pendingLevels := none } else s.ctx n :=
      State.ctx_setCtx s c n _
    refine ⟨⟨rfl, fun n => ?_, fun n hn => ?_⟩, ?_⟩
    · rw [Ctx.leveled, (hctx n).1, (hctx n).2, ← Ctx.leveled, hset]
      split
      · next e =>
        subst e
        unfold Ctx.leveled
        rw [h]
        rfl
      · rfl
    · rw [(hctx n).2, hset]
      split
      · rfl
      · exact hn
    · rw [(hctx c).2, hset, if_pos rfl]

theorem State.applyEach_applies (l : List Nat) (s : State) : LevelsApply s (l.foldl State.applyLevels s)
    ∧ ∀ n ∈ l, ((l.foldl State.applyLevels s).ctx n).pendingLevels = none := by
  induction l generalizing s with
  | nil => exact ⟨⟨rfl, fun _ => rfl, fun _ => id⟩, fun _ h => absurd h List.not_mem_nil⟩
  | cons c r ih =>
    obtain ⟨hstep, hnone⟩ := s.applyLevels_applies c
    obtain ⟨hrest, hall⟩ := ih (s.applyLevels c)
    refine ⟨hstep.trans hrest, fun n hn => ?_⟩
    rcases List.mem_cons.mp hn with rfl | hn
    · exact hrest.none n hnone
    · exact hall n hn

/-- The state in which every context has its levels. -/
def State.levelsApplied (s : State) : State := (Tbl.keys s.ctxs).foldl State.applyLevels s

theorem State.ctx_of_not_mem_keys {s : State} {n : Nat} (h : n ∉ Tbl.keys s.ctxs) : s.ctx n = {} := by
  rw [State.ctx, Tbl.at, Tbl.look_eq_none h]
  rfl

theorem State.levelsApplied_ctx (s : State) (n : Nat) :
    (s.levelsApplied.ctx n).loop = (s.ctx n).leveled ∧ (s.levelsApplied.ctx n).pendingLevels = none := by
  obtain ⟨happly, hall⟩ := State.applyEach_applies (Tbl.keys s.ctxs) s
  have hnone : (s.levelsApplied.ctx n).pendingLevels = none := by
    by_cases hn : n ∈ Tbl.keys s.ctxs
    · exact hall n hn
    · refine happly.none n ?_
      rw [State.ctx_of_not_mem_keys hn]
  exact ⟨(Ctx.leveled_of_none hnone).symm.trans (happly.leveled n), hnone⟩

/-- A pair is hot while a sensor of one of its cores is. -/
def State.pairHot (s : State) (p : Nat) : Bool := (s.core (2 * p)).hot || (s.core (2 * p + 1)).hot

theorem State.applyStep_core (s : State) (e : Nat × Nat) (c : Nat) : (s.applyStep e).core c =
    if s.pairSealed e.1 = false ∧ c / 2 = e.1 then { s.core c with step := if s.pairHot e.1 then 15 else e.2 } else s.core c := by
  unfold State.applyStep
  cases hsealed : s.pairSealed e.1 with
  | true => rfl
  | false =>
    rw [if_neg Bool.false_ne_true]
    dsimp only
    rw [State.modCore_eq, State.core_setCore, State.modCore_eq, State.core_setCore, State.core_setCore,
      if_neg (show 2 * e.1 + 1 ≠ 2 * e.1 by omega)]
    by_cases hodd : c = 2 * e.1 + 1
    · rw [if_pos hodd, hodd]
      exact (if_pos ⟨rfl, by omega⟩).symm
    · rw [if_neg hodd]
      by_cases heven : c = 2 * e.1
      · rw [if_pos heven, heven]
        exact (if_pos ⟨rfl, by omega⟩).symm
      · rw [if_neg heven, if_neg (fun h => by omega)]

/-- Clock steps apply: a pair that is sealed or not named keeps its own, and any other takes the one named for it, or 15 while it is hot. -/
structure StepsApply (l : Tbl Nat) (s t : State) : Prop where
  rest : t = { s with cores := t.cores }
  core : ∀ c, t.core c = { s.core c with step := (t.core c).step }
  kept : ∀ c, c / 2 ∉ Tbl.keys l ∨ s.pairSealed (c / 2) = true → t.core c = s.core c
  taken : ∀ c n, (c / 2, n) ∈ l → s.pairSealed (c / 2) = false → (t.core c).step = if s.pairHot (c / 2) then 15 else n

theorem State.applyStep_rest (s : State) (e : Nat × Nat) : s.applyStep e = { s with cores := (s.applyStep e).cores } := by
  unfold State.applyStep
  split <;> rfl

theorem State.applySteps_apply {l : Tbl Nat} (hnodup : (Tbl.keys l).Nodup) (s : State) : StepsApply l s (l.foldl State.applyStep s) := by
  induction l generalizing s with
  | nil => exact ⟨rfl, fun _ => rfl, fun _ _ => rfl, fun _ _ h => absurd h List.not_mem_nil⟩
  | cons e r ih =>
    obtain ⟨hfresh, hr⟩ := List.nodup_cons.mp hnodup
    have h := ih hr (s.applyStep e)
    have hcore (c : Nat) : (s.applyStep e).core c = { s.core c with step := ((s.applyStep e).core c).step } := by
      rw [State.applyStep_core]
      split <;> rfl
    have hsealed (p : Nat) : (s.applyStep e).pairSealed p = s.pairSealed p := by
      rw [s.applyStep_rest]
      rfl
    have hhot (p : Nat) : (s.applyStep e).pairHot p = s.pairHot p := by
      unfold State.pairHot
      rw [hcore (2 * p), hcore (2 * p + 1)]
    refine ⟨?_, fun c => ?_, fun c hc => ?_, fun c n hn hopen => ?_⟩
    · rw [List.foldl_cons, h.rest, s.applyStep_rest]
    · rw [List.foldl_cons, h.core c, hcore c]
    · have hstep : (s.applyStep e).core c = s.core c := by
        rw [State.applyStep_core, if_neg]
        rintro ⟨hopen, hpair⟩
        rw [hpair] at hc
        rcases hc with hc | hc
        · exact hc List.mem_cons_self
        · exact absurd (hopen.symm.trans hc) (by decide)
      refine (h.kept c ?_).trans hstep
      rw [hsealed]
      exact hc.imp_left fun hno hmem => hno (List.mem_cons_of_mem _ hmem)
    · rcases List.mem_cons.mp hn with rfl | hn
      · rw [List.foldl_cons, h.kept c (.inl hfresh), State.applyStep_core, if_pos ⟨hopen, rfl⟩]
      · rw [List.foldl_cons, h.taken c n hn ((hsealed _).trans hopen), hhot]

/-- The ways of the dies are assigned where a pass granted them. -/
def State.assignDue (s : State) : State :=
  if s.waysDue then { (List.range 4).foldl (fun s d => s.assignWays d) s with waysDue := false } else s

theorem State.assignDue_rest (s : State) :
    s.assignDue = { s with dies := s.assignDue.dies, waysDue := false } ∧ (s.waysDue = false → s.assignDue.dies = s.dies) := by
  have hways (l : List Nat) (u : State) : l.foldl (fun s d => s.assignWays d) u
      = { u with dies := (l.foldl (fun s d => s.assignWays d) u).dies } := by
    induction l generalizing u with
    | nil => rfl
    | cons d r ih => rw [List.foldl_cons, ih]; rfl
  unfold State.assignDue
  cases hdue : s.waysDue with
  | true => exact ⟨by rw [if_pos rfl, hways], fun h => absurd h (by decide)⟩
  | false =>
    rw [if_neg Bool.false_ne_true]
    exact ⟨by rw [← hdue], fun _ => rfl⟩

theorem exec_actuatorLevelsApply (s : State) : exec .actuatorLevelsApply s = .next
    { s.levelsApplied.assignDue.pendingSteps.foldl State.applyStep s.levelsApplied.assignDue with pendingSteps := [] } := rfl

end Sys2Proof.Machine
end

section
/-!
The obligation on the progress loop, continued: the merged count of a beat group and a count that does not come (R389, R390, R406, R407).
-/
namespace Sys2Proof.Machine

/-! ## The count of a beat group -/

theorem bgWord_toNat (miss : Bool) {k : Nat} (hk : k < 2 ^ 24) : (bgWord miss k).toNat = k + if miss then 2 ^ 31 else 0 := by
  unfold bgWord
  rw [BitVec.toNat_ofNat, Nat.mod_eq_of_lt hk]
  cases miss with
  | false => exact Nat.mod_eq_of_lt (show k + 2 ^ 31 * 0 < 2 ^ 32 by omega)
  | true => exact Nat.mod_eq_of_lt (show k + 2 ^ 31 * 1 < 2 ^ 32 by omega)

section
variable {s : State} {n : Nat} (m : Nat)

theorem exec_beatCount_moved {p : Nat × Nat} (h : (s.ctx n).movedTo = some p) :
    exec (.beatCount n m) s = .next (s.redirectSwitch 0x09 (s.ctx n).loop.bgrp p) := by
  show execBeatCount n m s = _
  unfold execBeatCount
  dsimp only
  rw [h]

theorem exec_beatCount_arriving (hmoved : (s.ctx n).movedTo = none) (h : (s.ctx n).arriving = true) :
    exec (.beatCount n m) s = .next (s.holdMsg n (.beatCount n m)) := by
  show execBeatCount n m s = _
  unfold execBeatCount
  dsimp only
  rw [hmoved, h]

variable (hmoved : (s.ctx n).movedTo = none) (hhere : (s.ctx n).arriving = false)
include hmoved hhere

/-- A member that skipped the boundary only reads the minimum (log entry 120). -/
theorem exec_beatCount_skipped (h : (s.ctx n).merged = none) : exec (.beatCount n m) s = .next
    (if (s.ctx n).loop.bgrp = 0 then s else s.setCtx n { s.ctx n with bgstat := bgWord (s.ctx n).mergeMiss (min m (2 ^ 24 - 1)) }) := by
  show execBeatCount n m s = _
  unfold execBeatCount
  dsimp only
  rw [h, hmoved, hhere]

/-- The state in which a context has stepped with the minimum of its group, before its wait for it ends. -/
def State.mergeStepped (s : State) (n k : Nat) : State :=
  { s.setCtx n { (s.ctx n).stepped k with bgstat := bgWord (s.ctx n).mergeMiss k } with loopPass := some true }

theorem exec_beatCount_merged {b : Nat} (h : (s.ctx n).merged = some b) :
    exec (.beatCount n m) s = .next ((s.mergeStepped n (min m (2 ^ 24 - 1))).endMerge n) := by
  show execBeatCount n m s = _
  unfold execBeatCount
  dsimp only
  rw [h, hmoved, hhere]
  rfl

end

theorem State.mergeStepped_ctx (s : State) (n k : Nat) :
    (s.mergeStepped n k).ctx n = { (s.ctx n).stepped k with bgstat := bgWord (s.ctx n).mergeMiss k } := State.ctx_setCtx_self s n _

/-- A context that steps with the minimum of its group. -/
theorem mergeStepped_results (s : State) (n : Nat) {k : Nat} (hk : k < 2 ^ 24) :
    let x := s.ctx n
    let t := (s.mergeStepped n k).endMerge n
    (t.ctx n).merged = none ∧ (t.ctx n).mergeMiss = x.mergeMiss
      ∧ (t.ctx n).bgstat.toNat = k + (if x.mergeMiss then 2 ^ 31 else 0)
      ∧ (t.ctx n).loop = { x.loop.step k with ctrl := (t.ctx n).loop.ctrl }
      ∧ (t.awaitsMerge = true → (t.ctx n).loop = x.loop.step k ∧ (t.ctx n).inForce = x.loop.step k ∧ t = { s with ctxs := t.ctxs, loopPass := some true })
      ∧ (t.awaitsMerge = false → t.loopPass = none) := by
  intro x t
  have hworks := (s.mergeStepped n k).endMerge_works n
  obtain ⟨hgoes, hends⟩ := State.endMerge_passes (s := s.mergeStepped n k) (by exact Option.some_ne_none true) n
  have hctx : ((s.mergeStepped n k).unmerged n).ctx n = { x.stepped k with bgstat := bgWord x.mergeMiss k, merged := none } := by
    rw [State.unmerged, State.ctx_setCtx_self, State.mergeStepped_ctx]
  have hloop := hworks.loop n
  rw [hctx] at hloop
  have hy := hworks.ctx n
  rw [hctx] at hy
  refine ⟨State.endMerge_merged _ n, ?_, ?_, hloop, fun hwaits => ?_, hends⟩
  · rw [hy]
    rfl
  · rw [hy]
    exact bgWord_toNat _ hk
  · have ht : t = (s.mergeStepped n k).unmerged n := hgoes hwaits
    rw [ht, hctx]
    exact ⟨rfl, rfl, rfl⟩

/-! ## A count that does not come -/

/-- A count has not reached the switches: MISS is set. -/
def Ctx.missing (x : Ctx) : Ctx := { x with mergeMiss := true, bgstat := x.bgstat ||| onesAt 32 31 1 }

/-- The state 4 µs after a boundary, in which MISS is set. -/
def State.missed (s : State) (n at' : Nat) : State := (s.toTime (at' + 4000000)).modCtx n Ctx.missing

theorem TimePasses.ctx {s t : State} (h : TimePasses s t) (n : Nat) : t.ctx n = s.ctx n := by
  have hctxs : t.ctxs = s.ctxs := by rw [h.rest]
  rw [State.ctx, hctxs, State.ctx]

theorem TimePasses.portsUp {s t : State} (h : TimePasses s t) : t.portsUp = s.portsUp := by rw [h.rest]

theorem State.modCtx_portsUp (s : State) (n : Nat) (f : Ctx → Ctx) : (s.modCtx n f).portsUp = s.portsUp := rfl

theorem State.modCtx_time (s : State) (n : Nat) (f : Ctx → Ctx) : (s.modCtx n f).time = s.time := rfl

theorem exec_beatMergeTimeout_idle {s : State} {n : Nat} (hmerged : (s.ctx n).merged = none) (hgrp : (s.ctx n).loop.bgrp = 0) :
    exec (.beatMergeTimeout n) s = .next s := by
  show execBeatMergeTimeout n s = _
  unfold execBeatMergeTimeout
  exact if_pos (by rw [hmerged, hgrp]; rfl)

theorem exec_beatMergeTimeout {s : State} {n at' : Nat} (h : (s.ctx n).merged.isSome = true ∨ (s.ctx n).loop.bgrp ≠ 0)
    (hat : 64000000 * s.boundaries = at') : exec (.beatMergeTimeout n) s =
      if (s.ctx n).merged = none then .next (s.missed n at')
      else if s.portsUp = 0 ∨ at' + 8000000 ≤ (s.toTime (at' + 4000000)).time then
        .next (((s.missed n at').modCtx n (fun y => { y with loop := y.loop.skip })).endMerge n)
      else .next (s.missed n at') := by
  have hports := (s.toTime_passes (at' + 4000000)).portsUp
  have hgo : ¬ ((!(s.ctx n).merged.isSome && decide ((s.ctx n).loop.bgrp = 0)) = true) := by
    rcases h with h | h
    · rw [h]; exact Bool.false_ne_true
    · rw [decide_eq_false h, Bool.and_false]; exact Bool.false_ne_true
  show execBeatMergeTimeout n s = _
  unfold execBeatMergeTimeout
  rw [if_neg hgo, hat]
  dsimp only
  unfold State.missed
  revert hports
  generalize s.toTime (at' + 4000000) = u
  generalize at' + 8000000 = late
  intro hports
  have hlate : ((u.modCtx n Ctx.missing).portsUp == 0 || decide (late ≤ (u.modCtx n Ctx.missing).time)) = true
      ↔ s.portsUp = 0 ∨ late ≤ u.time := by
    rw [Bool.or_eq_true, beq_iff_eq, decide_eq_true_iff, State.modCtx_portsUp, State.modCtx_time, hports]
  refine (ite_congr (c := (s.ctx n).merged = none) (by simp) (fun _ => rfl) fun _ => ?_)
  exact ite_congr (propext hlate) (fun _ => rfl) fun _ => rfl

theorem State.missed_ctx (s : State) (n at' : Nat) : (s.missed n at').ctx n = (s.ctx n).missing := by
  rw [State.missed, State.modCtx_eq, State.ctx_setCtx_self, (s.toTime_passes _).ctx]

/-- A context skips that waited for a count which does not come (log entry 41). -/
theorem State.missed_skips (s : State) (n : Nat) :
    let t := (s.modCtx n (fun y => { y with loop := y.loop.skip })).endMerge n
    (t.ctx n).bgstat = (s.ctx n).bgstat ∧ (t.ctx n).mergeMiss = (s.ctx n).mergeMiss ∧ (t.ctx n).merged = none
      ∧ (t.ctx n).loop.icount = (s.ctx n).loop.icount + 1 := by
  intro t
  have hy := ((s.modCtx n (fun y => { y with loop := y.loop.skip })).endMerge_works n).ctx n
  rw [State.unmerged, State.ctx_setCtx_self, State.modCtx_eq, State.ctx_setCtx_self] at hy
  change t.ctx n = _ at hy
  refine ⟨?_, ?_, State.endMerge_merged _ n, ?_⟩
  · rw [hy]
  · rw [hy]
  · rw [hy]
    rfl

/-- What a count that does not come leaves. -/
theorem beatMergeTimeout_results {s : State} {n at' : Nat} (h : (s.ctx n).merged.isSome = true ∨ (s.ctx n).loop.bgrp ≠ 0)
    (hat : 64000000 * s.boundaries = at') :
    let x := s.ctx n
    ∃ u t, exec (.beatMergeTimeout n) s = .next t ∧ TimePasses s u ∧ u.time = max s.time (at' + 4000000)
      ∧ (t.ctx n).bgstat = x.bgstat ||| onesAt 32 31 1 ∧ (t.ctx n).mergeMiss = true
      ∧ (x.merged = none ∨ s.portsUp ≠ 0 ∧ u.time < at' + 8000000 → t.ctx n = x.missing ∧ t = { u with ctxs := t.ctxs })
      ∧ (x.merged.isSome = true → s.portsUp = 0 ∨ at' + 8000000 ≤ u.time →
          (t.ctx n).merged = none ∧ (t.ctx n).loop.icount = x.loop.icount + 1) := by
  intro x
  have hctx := s.missed_ctx n at'
  by_cases hmerged : x.merged = none
  · refine ⟨s.toTime (at' + 4000000), s.missed n at', ?_, s.toTime_passes _, s.toTime_time _, ?_⟩
    · rw [exec_beatMergeTimeout h hat, if_pos hmerged]
    · rw [hctx, hmerged]
      exact ⟨rfl, rfl, fun _ => ⟨rfl, rfl⟩, fun h => absurd h (by decide)⟩
  · refine ⟨s.toTime (at' + 4000000), if s.portsUp = 0 ∨ at' + 8000000 ≤ (s.toTime (at' + 4000000)).time
        then ((s.missed n at').modCtx n (fun y => { y with loop := y.loop.skip })).endMerge n else s.missed n at', ?_,
        s.toTime_passes _, s.toTime_time _, ?_⟩
    · rw [exec_beatMergeTimeout h hat, if_neg hmerged]
      split <;> rfl
    · split
      · next hends =>
        obtain ⟨hbg, hmiss, hnone, hicount⟩ := (s.missed n at').missed_skips n
        rw [hctx] at hbg hmiss hicount
        refine ⟨hbg, hmiss, fun hwaits => ?_, fun _ _ => ⟨hnone, hicount⟩⟩
        obtain ⟨hup, hsoon⟩ := hwaits.resolve_left hmerged
        exact absurd (hends.resolve_left hup) (Nat.not_le.mpr hsoon)
      · next hends =>
        rw [hctx]
        exact ⟨rfl, rfl, fun _ => ⟨rfl, rfl⟩, fun _ h => absurd h hends⟩

end Sys2Proof.Machine
end

section
/-!
The obligation on the progress loop (R218, R220 to R224, R226, R228, R252, R329, R351, R352, R359, R389, R390, R406, R407), assembled.
-/
namespace Sys2Proof.Machine

/-- The count of a core that a context's interval reads, and of a core of another. -/
theorem Core.beatsTaken_beatAcc (n : Nat) (k : Core) : (k.beatsTaken n).beatAcc = if k.ctx = some n then 0 else k.beatAcc := by
  unfold Core.beatsTaken
  by_cases h : k.ctx = some n
  · rw [if_pos (by rw [h]; exact beq_self_eq_true _), if_pos h]
  · rw [if_neg (by rwa [beq_iff_eq]), if_neg h]

/-- One context at a boundary. -/
theorem boundary_results (s : State) (now n : Nat) :
    let x := s.ctx n
    let l := x.loop
    let beats := (s.takeBeats n).2
    let u := s.boundary now n
    let y := u.ctx n
    let steps := l.en = true ∧ x.firstStep ≤ now
    (now % l.interval ≠ 0 → u = s)
    ∧ (now % l.interval = 0 → y.beats = 0 ∧ (∀ c, (u.core c).beatAcc = if (s.core c).ctx = some n then 0 else (s.core c).beatAcc)
      ∧ y.mergeMiss = false ∧ y.ncFull = x.ncHeld ∧ y.ncHeld = s.ncHeldCores n ∧ y.heldCore = !(s.coresOf n).isEmpty
      ∧ (¬ steps → y.loop = l ∧ u.outbox = s.outbox ∧ u.loopPass = s.loopPass)
      ∧ (steps → x.heldCore = false → y.loop = l.skip ∧ u.outbox = s.outbox ∧ u.loopPass = s.loopPass)
      ∧ (steps → x.heldCore = true → l.bgrp = 0 → y.loop = l.step beats ∧ y.inForce = y.loop ∧ u.outbox = s.outbox ∧ u.loopPass = some true)
      ∧ (steps → x.heldCore = true → l.bgrp ≠ 0 → y.loop = l ∧ y.merged = some beats
        ∧ u.outbox = if s.portsUp = 0 then s.outbox else s.outbox ++ [(s.votePort 0, beatMsg s n beats)])
      ∧ u = { s with cores := u.cores, ctxs := u.ctxs, outbox := u.outbox, loopPass := u.loopPass }
      ∧ ∀ d, d ≠ n → Tbl.look u.ctxs d = Tbl.look s.ctxs d) := by
  intro x l beats u y steps
  refine ⟨State.boundary_between, fun hends => ?_⟩
  obtain ⟨hrest, hcore, hctx, hothers⟩ := State.boundary_ends hends
  have hmarks : y = _ := hctx
  refine ⟨by rw [hmarks], fun c => by rw [hcore c, Core.beatsTaken_beatAcc], by rw [hmarks], by rw [hmarks], by rw [hmarks], by rw [hmarks],
    fun hidle => ?_, fun hsteps hheld => ?_, fun hsteps hheld hgrp => ?_, fun hsteps hheld hgrp => ?_, hrest, hothers⟩
  · have hu : u = _ := State.boundary_idle hends hidle
    have hy : y = _ := (congrArg (·.ctx n) hu).trans (s.atBoundary_ctx n)
    rw [hy, hu]
    exact ⟨rfl, rfl, rfl⟩
  · have hu : u = _ := State.boundary_skips hends hsteps hheld
    have hy : y = _ := (congrArg (·.ctx n) hu).trans (State.ctx_setCtx_self _ n _)
    rw [hy, hu, s.atBoundary_ctx]
    exact ⟨rfl, rfl, rfl⟩
  · have hu : u = _ := State.boundary_alone hends hsteps hheld hgrp
    have hy : y = _ := (congrArg (·.ctx n) hu).trans (State.ctx_setCtx_self _ n _)
    rw [hy, hu, s.atBoundary_ctx]
    exact ⟨rfl, rfl, rfl, rfl⟩
  · have hu : u = _ := State.boundary_grouped hends hsteps hheld hgrp
    have hy : y = _ := (congrArg (·.ctx n) hu).trans (State.ctx_setCtx_self _ n _)
    rw [hy, hu, s.atBoundary_ctx]
    exact ⟨rfl, rfl, rfl⟩

/-! ## The loop's arithmetic -/

/-- The clock step goes down from CKSLOW, never below CKFAST. -/
theorem Loop.ladder_ck (l : Loop) (d : Nat) (h : l.ckFast ≤ l.ckSlow) :
    (l.ladder d).ck + min (d - l.nGS - l.nNC - l.nWY - l.nHB) l.nCK = l.ckSlow ∧ l.ckFast ≤ (l.ladder d).ck := by
  rw [Loop.ladder_eq]
  dsimp only [Loop.nCK]
  omega

/-- A step leaves the configuration, and clears SHORT. -/
theorem Loop.step_frame (l : Loop) (n : Nat) : l.step n = { l with
    ival := (l.step n).ival, meas := (l.step n).meas, elast := (l.step n).elast, uval := (l.step n).uval, demand := (l.step n).demand
    ltop := (l.step n).ltop, icount := (l.step n).icount, ctrl := l.ctrl &&& ~~~(onesAt 32 29 1) } := by
  rw [l.step_eq n rfl]

/-! ## Levels and clock steps, assembled -/

/-- The state from which the clock steps apply. -/
theorem State.assigned_frame (s : State) : s.levelsApplied.assignDue =
    { s with ctxs := s.levelsApplied.ctxs, dies := s.levelsApplied.assignDue.dies, waysDue := false } := by
  have happly := (State.applyEach_applies (Tbl.keys s.ctxs) s).1.rest
  change s.levelsApplied = _ at happly
  refine s.levelsApplied.assignDue_rest.1.trans ?_
  rw [happly]

/-- What the event that lets levels and clock steps apply leaves. -/
theorem actuatorLevelsApply_results {s : State} (hnodup : (Tbl.keys s.pendingSteps).Nodup) :
    ∃ t, exec .actuatorLevelsApply s = .next t
      ∧ (∀ n, (t.ctx n).loop = (s.ctx n).leveled ∧ (t.ctx n).pendingLevels = none)
      ∧ (∀ c n, Tbl.look s.pendingSteps (c / 2) = some n → s.pairSealed (c / 2) = false →
          (t.core c).step = if s.pairHot (c / 2) then 15 else n)
      ∧ (∀ c, Tbl.look s.pendingSteps (c / 2) = none ∨ s.pairSealed (c / 2) = true → t.core c = s.core c)
      ∧ (∀ c, t.core c = { s.core c with step := (t.core c).step })
      ∧ t = { s with cores := t.cores, ctxs := t.ctxs, dies := t.dies, pendingSteps := [], waysDue := false }
      ∧ (s.waysDue = false → t.dies = s.dies) := by
  have hframe := s.assigned_frame
  have hrun := exec_actuatorLevelsApply s
  have hdies : s.waysDue = false → s.levelsApplied.assignDue.dies = s.dies := fun hdue => by
    have happly := (State.applyEach_applies (Tbl.keys s.ctxs) s).1.rest
    change s.levelsApplied = _ at happly
    refine (s.levelsApplied.assignDue_rest.2 ?_).trans ?_
    · rw [happly, hdue]
    · rw [happly]
  have hctxs : s.levelsApplied.assignDue.ctxs = s.levelsApplied.ctxs := by rw [hframe]
  generalize s.levelsApplied.assignDue = m at hframe hrun hdies hctxs
  have hsteps : m.pendingSteps = s.pendingSteps := by rw [hframe]
  have hcores : m.core = s.core := by funext c; rw [State.core, hframe, State.core]
  have hsealed (p : Nat) : m.pairSealed p = s.pairSealed p := by
    have hparts : m.parts = s.parts := by rw [hframe]
    rw [State.pairSealed, State.partOfPair, hparts]
    rfl
  have hhot : m.pairHot = s.pairHot := by funext p; rw [State.pairHot, hcores, State.pairHot]
  have h := State.applySteps_apply (l := m.pendingSteps) (by rwa [hsteps]) m
  rw [hsteps] at h hrun
  generalize s.pendingSteps.foldl State.applyStep m = t at h hrun
  have hctx (n : Nat) : t.ctx n = s.levelsApplied.ctx n := by
    rw [State.ctx, h.rest]
    exact congrArg (Tbl.at · n {}) hctxs
  refine ⟨_, hrun, fun n => ?_, fun c n hn hopen => ?_, fun c hc => ?_, fun c => ?_, ?_, fun hdue => ?_⟩
  · show (t.ctx n).loop = _ ∧ (t.ctx n).pendingLevels = none
    rw [hctx]
    exact s.levelsApplied_ctx n
  · refine (h.taken c n (Tbl.mem_of_look hn) ((hsealed _).trans hopen)).trans ?_
    rw [hhot]
  · refine (h.kept c ?_).trans (by rw [hcores])
    rw [hsealed]
    refine hc.imp_left fun hno hmem => ?_
    obtain ⟨e, he, hpair⟩ := List.mem_map.mp hmem
    have hsome := Tbl.look_of_nodup hnodup he
    rw [show e.1 = c / 2 from hpair, hno] at hsome
    exact nomatch hsome
  · refine (h.core c).trans ?_
    rw [hcores]
    rfl
  · rw [h.rest, hframe]
  · show t.dies = s.dies
    rw [h.rest]
    exact hdies hdue

/-! ## The obligation -/

/-- Settles O50: the arithmetic, the passes and the merges of the loop, each by its own lemma. -/
theorem loopArithmeticAndBoundaryResults : Obligations.LoopArithmeticAndBoundaryResults := by
  unfold Obligations.LoopArithmeticAndBoundaryResults
  refine ⟨⟨fun l d hck => ?_, fun l n hn htarget _ => ?_, fun cs supply hnodup hclaims hfloors => ?_⟩,
    fun s hidle => ?_, boundary_results, fun s hnodup => ?_, fun s n m => ?_⟩
  · obtain ⟨hslow, hfast⟩ := l.ladder_ck d hck
    have hladder := l.ladder_eq d
    exact ⟨l.rungs_sum d, congrArg Levels.gs hladder, congrArg Levels.nc hladder, congrArg Levels.wy hladder, congrArg Levels.hb hladder,
      hslow, hfast, l.ladder_levels d⟩
  · obtain ⟨hmeas, helast, hival, huval, hdemand, hltop, hicount⟩ := l.step_results hn htarget
    exact ⟨hmeas, helast, hival, huval, hdemand, hltop, hicount, l.step_frame n⟩
  · obtain ⟨hbounds, hsum, hfirst⟩ := shed_results (supply := supply) hnodup hclaims (by rwa [List.sum_eq_foldl])
    rw [List.sum_eq_foldl, List.sum_eq_foldl] at hsum
    exact ⟨hbounds, hsum, hfirst⟩
  · obtain ⟨t, hrun, hworks, hpass⟩ := allocPass_results hidle
    obtain ⟨hnum, htime, hframe⟩ := State.pass_frame s.intervalsEnded_runs hworks
    refine ⟨t, hrun, hnum, ?_, ?_⟩
    · rw [htime]
      omega
    · obtain ⟨hmem, hteams, hgrids, hgangs, hcopies, hqueues⟩ := hframe
      exact ⟨hmem, hteams, hgrids, hgangs, hcopies, hqueues, hpass⟩
  · obtain ⟨t, hrun, hctx, htaken, hkept, hcore, hrest, hdies⟩ := actuatorLevelsApply_results hnodup
    have heven (p : Nat) : 2 * p / 2 = p := by omega
    have hodd (p : Nat) : (2 * p + 1) / 2 = p := by omega
    refine ⟨t, hrun, hctx, fun p n hn hopen => ⟨?_, ?_⟩, fun p hp => ⟨hkept _ ?_, hkept _ ?_⟩, hcore, hrest, hdies⟩
    · have hstep := htaken (2 * p) n
      rw [heven] at hstep
      exact hstep hn hopen
    · have hstep := htaken (2 * p + 1) n
      rw [hodd] at hstep
      exact hstep hn hopen
    · rwa [heven]
    · rwa [hodd]
  · have hmin : min m (2 ^ 24 - 1) < 2 ^ 24 := by omega
    refine ⟨fun p hp => exec_beatCount_moved m hp, fun hmoved harr => exec_beatCount_arriving m hmoved harr,
      fun hmoved hhere hmerged hgrp => ?_, fun hmoved hhere hmerged hgrp => ?_, fun hmoved hhere hmerged => ?_,
      exec_beatMergeTimeout_idle, fun h => beatMergeTimeout_results h rfl⟩
    · rw [exec_beatCount_skipped m hmoved hhere hmerged, if_pos hgrp]
    · refine ⟨_, bgWord_toNat (s.ctx n).mergeMiss hmin, ?_⟩
      rw [exec_beatCount_skipped m hmoved hhere hmerged, if_neg hgrp]
    · obtain ⟨b, hb⟩ := Option.isSome_iff_exists.mp hmerged
      exact ⟨_, exec_beatCount_merged m hmoved hhere hb, mergeStepped_results s n hmin⟩

end Sys2Proof.Machine
end

section
/-!
What the front end's accesses leave beside the bytes they name (R248), and how a packet begins or stops its queue (R202, R205, R207).
-/
namespace Sys2Proof.Machine

/-! ## The front end's accesses -/

theorem State.unitLines_side (s : State) (ctx : Nat) (n : Need) (va k : Nat) : MemSide s (s.unitLines ctx n va k) := by
  induction k generalizing s va with
  | zero => exact .refl s
  | succ k ih =>
    unfold State.unitLines
    split
    · exact .refl s
    · split
      · exact s.walkMet_side _ _ _
      · exact ((s.walkMet_side _ _ _).trans (State.settleLines_side _ _ _)).trans (ih _ _)

theorem State.unitMet_side (s : State) (ctx : Nat) (n : Need) (va k : Nat) : MemSide s (s.unitMet ctx n va k) := by
  unfold State.unitMet
  split
  · exact s.unitLines_side ctx n va _
  · exact .refl s

theorem State.unitMet_of_noneBad {s : State} (h : s.anyBad = false) (ctx : Nat) (n : Need) (va k : Nat) : s.unitMet ctx n va k = s :=
  if_neg (by rw [h, Bool.false_and]; exact Bool.false_ne_true)

theorem State.ownKey_side (s : State) (key line : Nat) : MemSide s (s.ownKey key line) := by
  unfold State.ownKey
  split
  · split
    · exact .refl s
    · exact s.evictL2_side line
  · exact .refl s

theorem State.unitWriteFrom_side {s t : State} {ctx : Nat} {n : Need} {last : Option Mapping} {va : Nat} {bs : List Byte}
    (h : s.unitWriteFrom ctx n last va bs = .ok t) : MemSide s t := by
  induction bs generalizing s last va with
  | nil => cases h; exact .refl _
  | cons b r ih =>
    unfold State.unitWriteFrom at h
    split at h
    · exact nomatch h
    · exact ((s.ownKey_side _ _).trans (State.physWrite_side _ _ _ _)).trans (ih h)

theorem State.unitWrite_side {s t : State} {ctx : Nat} {n : Need} {va : Nat} {bs : List Byte} (h : s.unitWrite ctx n va bs = .ok t) :
    MemSide s t := (s.unitMet_side ctx n va _).trans (State.unitWriteFrom_side h)

theorem State.signalsMet_side (s : State) (ctx : Nat) (as : List DWord) : MemSide s (s.signalsMet ctx as) :=
  .fold (fun u _ => u.unitMet_side _ _ _ _) as s

theorem State.serve_side (s : State) (slot n : Nat) : MemSide { s with lastSlot := slot } (s.serve slot n) := by
  unfold State.serve
  dsimp only
  split
  · exact .refl _
  · exact State.unitMet_side _ _ _ _ _

theorem State.serve_of_noneBad {s : State} (h : s.anyBad = false) (slot n : Nat) : s.serve slot n = { s with lastSlot := slot } := by
  unfold State.serve
  dsimp only
  split
  · rfl
  · exact State.unitMet_of_noneBad (s := { s with lastSlot := slot }) h _ _ _ _

/-! ## A packet begins, or its queue stops -/

section
variable {s : State} {slot q : Nat} (hnext : s.nextQueue = some (slot, q)) (ptype : Nat) (act : State → Nat → List Byte → Nat × State)
include hnext

theorem beginPacket_error {code : Nat} (h : s.headPacket q = .error code) :
    beginPacket s q ptype act = .next ((s.serve slot q).stopQueue q code).wakeFront := by
  unfold beginPacket
  simp only [hnext, h, bne_self_eq_false, Bool.false_eq_true, if_false]

variable {ptype act} {bs : List Byte} (h : s.headPacket q = .ok bs) (htype : packetType bs = ptype)
include h htype

theorem beginPacket_stops {code : Nat} {t : State} (hcode : code ≠ 0)
    (hact : act (s.serve slot q) (queueCtx (s.queue q)) bs = (code, t)) : beginPacket s q ptype act = .next (t.stopQueue q code).wakeFront := by
  obtain ⟨k, rfl⟩ := Nat.exists_eq_succ_of_ne_zero hcode
  unfold beginPacket
  simp only [hnext, h, htype, hact, bne_self_eq_false, Bool.false_eq_true, if_false]

theorem beginPacket_begins {t : State} (hact : act (s.serve slot q) (queueCtx (s.queue q)) bs = (0, t)) :
    beginPacket s q ptype act = .next (t.advance q).wakeFront := by
  unfold beginPacket
  simp only [hnext, h, htype, hact, bne_self_eq_false, Bool.false_eq_true, if_false]

end

/-- A queue has stopped with a status at the packet it was served for, and its interrupt is raised (R207). -/
def QueueStops (s u : State) (q code : Nat) (t : State) : Prop :=
  t.queue q = { u.queue q with qstat := BitVec.ofNat 32 code } ∧ (∀ j, j ≠ q → Tbl.look t.queues j = Tbl.look u.queues j)
    ∧ t.causes = (match u.vcpOfQueue q with | none => s.causes | some v => s.causes ++ [⟨v, 0, (u.vcp v).vfgen⟩])
    ∧ t = { u with queues := t.queues, causes := t.causes, agenda := t.agenda }

theorem stopQueue_stops {s u : State} (hcauses : u.causes = s.causes) (q code : Nat) :
    QueueStops s u q code (u.stopQueue q code).wakeFront := by
  obtain ⟨l, hl⟩ := State.wakeFront_follows (u.stopQueue q code)
  have hraise : u.stopQueue q code = { u with
      queues := Tbl.put u.queues q { u.queue q with qstat := BitVec.ofNat 32 code }, causes := (u.stopQueue q code).causes } :=
    State.raise_causes _ _ _
  have hraised : (u.stopQueue q code).causes
      = match u.vcpOfQueue q with | none => s.causes | some v => s.causes ++ [⟨v, 0, (u.vcp v).vfgen⟩] := by
    rw [← hcauses]
    unfold State.stopQueue State.raise
    cases u.vcpOfQueue q <;> rfl
  rw [hl]
  generalize u.stopQueue q code = t at hraise hraised
  refine ⟨?_, fun j hj => ?_, hraised, ?_⟩
  · rw [State.queue, hraise]
    exact Tbl.at_put_self _ _ _ _
  · rw [hraise]
    exact Tbl.look_put_ne _ _ hj
  · rw [hraise]

/-- A packet has begun whose effect leaves a state: RDIDX advances from there. -/
def PacketBegins (q slot : Nat) (w t : State) : Prop :=
  t.queue q = { w.queue q with rdidx := (w.queue q).rdidx + 1 } ∧ (∀ j, j ≠ q → Tbl.look t.queues j = Tbl.look w.queues j) ∧ t.lastSlot = slot

theorem advance_begins {w v : State} {slot : Nat} (hqueues : v.queues = w.queues) (hslot : v.lastSlot = slot) (q : Nat) :
    let t := (v.advance q).wakeFront
    PacketBegins q slot w t ∧ t = { v with queues := t.queues, agenda := t.agenda } := by
  intro t
  obtain ⟨l, hl⟩ := State.wakeFront_follows (v.advance q)
  have ht : t = _ := hl
  have hq : v.queue q = w.queue q := by rw [State.queue, hqueues, State.queue]
  have hput : t.queues = Tbl.put w.queues q { w.queue q with rdidx := (w.queue q).rdidx + 1 } := by
    rw [ht, ← hq, ← hqueues]
    rfl
  refine ⟨⟨?_, fun j hj => ?_, ?_⟩, ?_⟩
  · rw [State.queue, hput]
    exact Tbl.at_put_self _ _ _ _
  · rw [hput]
    exact Tbl.look_put_ne _ _ hj
  · rw [ht, ← hslot]
    rfl
  · rw [ht]
    rfl

end Sys2Proof.Machine
end

section
/-!
Packets that wait for signals, and packets that write one (R204 to R206).
-/
namespace Sys2Proof.Machine

theorem sx_toNat_eq_toInt (x : DWord) : sx x.toNat 64 = x.toInt := by
  unfold sx
  rw [BitVec.toInt_eq_toNat_cond, Nat.mod_eq_of_lt x.isLt]

theorem Follows.queues {s t : State} (h : Follows s t) : t.queues = s.queues := by rw [h.agenda]

theorem MemSide.readSlot {s u : State} {slot : Nat} (h : MemSide { s with lastSlot := slot } u) : u.lastSlot = slot := by rw [h.rest]

/-! ## The signals that a packet waits for -/

/-- The signals of a waiting packet that are not met. -/
def State.unmet (u : State) (ctx : Nat) (b : Begun) : List DWord := (u.recheck ctx b).left

theorem State.unmet_waitSignal (u : State) (ctx : Nat) {b : Begun} (htype : b.ptype = 2) : u.unmet ctx b
    = b.left.filter (fun a => decide ¬ ∃ v, u.readSignal ctx a = some v ∧ signalCond b.cond v b.cmp.toInt = true) := by
  unfold State.unmet State.recheck
  refine List.filter_congr fun a _ => ?_
  cases hread : u.readSignal ctx a with
  | none => simp
  | some v =>
    dsimp only
    rw [if_pos htype, sx_toNat_eq_toInt]
    cases hc : signalCond b.cond v b.cmp.toInt <;> simp [hc]

theorem State.unmet_barrier (u : State) (ctx : Nat) {b : Begun} (htype : b.ptype ≠ 2) :
    u.unmet ctx b = b.left.filter (fun a => u.readSignal ctx a != some 0) := by
  unfold State.unmet State.recheck
  refine List.filter_congr fun a _ => ?_
  cases hread : u.readSignal ctx a with
  | none => rfl
  | some v =>
    dsimp only
    rw [if_neg htype]
    simp [bne]

/-- A packet that waits begins: its signals are read, and it stays while one is not met. -/
theorem State.beginWait_eq (u : State) (ctx : Nat) (b : Begun) : u.beginWait ctx b =
    { u.signalsMet ctx b.left with
      begun := if u.unmet ctx b = [] then u.begun else u.begun ++ [{ b with left := u.unmet ctx b }] } := by
  have hbegun : (u.signalsMet ctx b.left).begun = u.begun := by rw [(u.signalsMet_side ctx b.left).rest]
  by_cases hnone : u.unmet ctx b = []
  · rw [if_pos hnone, ← hbegun]
    exact if_pos (List.isEmpty_iff.mpr hnone)
  · rw [if_neg hnone]
    exact if_neg (fun h => hnone (List.isEmpty_iff.mp h))

/-- A packet that waits for signals has begun on a state that the front end's reads have left. -/
theorem beginWait_begins {s u : State} {slot : Nat} (hside : MemSide { s with lastSlot := slot } u) (ctx q : Nat) (b : Begun) :
    let w := u.signalsMet ctx b.left
    let t := ((u.beginWait ctx b).advance q).wakeFront
    PacketBegins q slot w t ∧ t = { w with queues := t.queues, begun := t.begun, agenda := t.agenda }
      ∧ t.begun = if u.unmet ctx b = [] then s.begun else s.begun ++ [{ b with left := u.unmet ctx b }] := by
  intro w t
  have heq := u.beginWait_eq ctx b
  have hslot : w.lastSlot = slot := (hside.trans (u.signalsMet_side ctx b.left)).readSlot
  have hbegun : u.begun = s.begun := by rw [hside.rest]
  obtain ⟨hbegins, ht⟩ := advance_begins (w := w) (v := u.beginWait ctx b) (by rw [heq]) (slot := slot) (by rw [heq, ← hslot]) q
  change t = _ at ht
  refine ⟨hbegins, ?_, ?_⟩
  · rw [ht, heq]
  · rw [ht, heq, hbegun]

/-- The signal that a wait-signal packet names. -/
theorem namedSignal_eq (a : DWord) : (if a == 0 then [] else [a]) = [a].filter (fun b => b != 0) := by
  by_cases h : a = 0
  · simp [h]
  · rw [if_neg (by rwa [beq_iff_eq])]
    exact (List.filter_cons_of_pos (p := fun b => b != 0) (l := []) (bne_iff_ne.mpr h)).symm

/-- A packet of a wait-signal, as it waits. -/
def waitSignalPacket (q : Nat) (idx : DWord) (bs : List Byte) : Begun :=
  { queue := q, idx := idx, ptype := 2, grid := 0, left := [field64 bs 8].filter (fun a => a != 0), cmp := field64 bs 16, cond := field bs 24 1 }

/-- A packet of a barrier-and, as it waits. -/
def barrierPacket (q : Nat) (idx : DWord) (bs : List Byte) : Begun :=
  { queue := q, idx := idx, ptype := 4, grid := 0, left := ((List.range 5).map (fun i => field64 bs (8 + 8 * i))).filter (fun a => a != 0) }

section
variable {s : State} {slot q : Nat} (hnext : s.nextQueue = some (slot, q)) {bs : List Byte} (hhead : s.headPacket q = .ok bs)
include hnext hhead

/-! ## Wait-signal -/

/-- A wait-signal packet whose condition or whose reserved bytes are wrong. -/
theorem exec_waitSignal_malformed (htype : packetType bs = 2) (hbad : 3 < field bs 24 1 ∨ ¬ zeros (bs.drop 25) = true) :
    exec (.waitSignal q) s = .next ((s.serve slot q).stopQueue q 1).wakeFront := by
  show execWaitSignal q s = _
  refine beginPacket_stops hnext hhead htype (by decide) ?_
  dsimp only
  rw [if_pos (by simpa using hbad)]

variable (htype : packetType bs = 2) (hcond : field bs 24 1 ≤ 3) (hclean : zeros (bs.drop 25) = true)
include htype hcond hclean

theorem exec_waitSignal_unmapped (hbad : (s.serve slot q).signalOk (queueCtx (s.queue q)) false (field64 bs 8) = false) :
    exec (.waitSignal q) s = .next ((s.serve slot q).stopQueue q 2).wakeFront := by
  show execWaitSignal q s = _
  refine beginPacket_stops hnext hhead htype (by decide) ?_
  dsimp only
  rw [if_neg (by simp [hclean, hcond]), if_pos (by rw [hbad]; rfl)]

theorem exec_waitSignal_begins (hok : (s.serve slot q).signalOk (queueCtx (s.queue q)) false (field64 bs 8) = true) :
    exec (.waitSignal q) s = .next (((s.serve slot q).beginWait (queueCtx (s.queue q))
      (waitSignalPacket q ((s.serve slot q).queue q).rdidx bs)).advance q).wakeFront := by
  unfold waitSignalPacket
  rw [← namedSignal_eq]
  show execWaitSignal q s = _
  refine beginPacket_begins hnext hhead htype ?_
  dsimp only
  rw [if_neg (by simp [hclean, hcond]), if_neg (by rw [hok]; exact Bool.false_ne_true)]

end

section
variable {s : State} {slot q : Nat} (hnext : s.nextQueue = some (slot, q)) {bs : List Byte} (hhead : s.headPacket q = .ok bs)
include hnext hhead

/-! ## Barrier-and -/

theorem exec_barrierAnd_malformed (htype : packetType bs = 4) (hbad : zeros (bs.drop 48) = false) :
    exec (.barrierAnd q) s = .next ((s.serve slot q).stopQueue q 1).wakeFront := by
  show execBarrierAnd q s = _
  refine beginPacket_stops hnext hhead htype (by decide) ?_
  dsimp only
  rw [if_pos (by rw [hbad]; rfl)]

variable (htype : packetType bs = 4) (hclean : zeros (bs.drop 48) = true)
include htype hclean

theorem exec_barrierAnd_unmapped (hbad : ∃ b ∈ (List.range 5).map (fun i => field64 bs (8 + 8 * i)),
      (s.serve slot q).signalOk (queueCtx (s.queue q)) false b = false) :
    exec (.barrierAnd q) s = .next ((s.serve slot q).stopQueue q 2).wakeFront := by
  have hall : (((List.range 5).map (fun i => field64 bs (8 + 8 * i))).all ((s.serve slot q).signalOk (queueCtx (s.queue q)) false)) = false := by
    obtain ⟨b, hb, hno⟩ := hbad
    exact List.all_eq_false.mpr ⟨b, hb, by rw [hno]; exact Bool.false_ne_true⟩
  show execBarrierAnd q s = _
  refine beginPacket_stops hnext hhead htype (by decide) ?_
  dsimp only
  rw [if_neg (by rw [hclean]; exact Bool.false_ne_true), if_pos (by rw [hall]; rfl)]

theorem exec_barrierAnd_begins (hok : ∀ b ∈ (List.range 5).map (fun i => field64 bs (8 + 8 * i)),
      (s.serve slot q).signalOk (queueCtx (s.queue q)) false b = true) :
    exec (.barrierAnd q) s = .next (((s.serve slot q).beginWait (queueCtx (s.queue q))
      (barrierPacket q ((s.serve slot q).queue q).rdidx bs)).advance q).wakeFront := by
  have hall := List.all_eq_true.mpr hok
  show execBarrierAnd q s = _
  refine beginPacket_begins hnext hhead htype ?_
  dsimp only
  rw [if_neg (by rw [hclean]; exact Bool.false_ne_true), if_neg (by rw [hall]; exact Bool.false_ne_true)]
  rfl

end

/-- What a write-signal packet writes. -/
def signalWritten (bs : List Byte) (old : Int) : Int :=
  let x := (field64 bs 16).toInt
  if field bs 24 1 = 0 then x else if field bs 24 1 = 1 then old + x else old - x

section
variable {s : State} {slot q : Nat} (hnext : s.nextQueue = some (slot, q)) {bs : List Byte} (hhead : s.headPacket q = .ok bs)
include hnext hhead

/-! ## Write-signal -/

/-- A write-signal packet whose operation or whose reserved bytes are wrong. -/
theorem exec_writeSignal_malformed (htype : packetType bs = 3) (hbad : 2 < field bs 24 1 ∨ ¬ zeros (bs.drop 25) = true) :
    exec (.writeSignal q) s = .next ((s.serve slot q).stopQueue q 1).wakeFront := by
  show execWriteSignal q s = _
  refine beginPacket_stops hnext hhead htype (by decide) ?_
  dsimp only
  rw [if_pos (by simpa using hbad)]

variable (htype : packetType bs = 3) (hcond : field bs 24 1 ≤ 2) (hclean : zeros (bs.drop 25) = true)
include htype hcond hclean

theorem exec_writeSignal_unmapped (hbad : (s.serve slot q).signalOk (queueCtx (s.queue q)) true (field64 bs 8) = false) :
    exec (.writeSignal q) s = .next ((s.serve slot q).stopQueue q 2).wakeFront := by
  show execWriteSignal q s = _
  refine beginPacket_stops hnext hhead htype (by decide) ?_
  dsimp only
  rw [if_neg (by simp [hclean, hcond]), if_pos (by rw [hbad]; rfl)]

variable (hok : (s.serve slot q).signalOk (queueCtx (s.queue q)) true (field64 bs 8) = true)
include hok

theorem exec_writeSignal_none (hnone : field64 bs 8 = 0) :
    exec (.writeSignal q) s = .next ((s.serve slot q).advance q).wakeFront := by
  show execWriteSignal q s = _
  refine beginPacket_begins hnext hhead htype ?_
  dsimp only
  rw [if_neg (by simp [hclean, hcond]), if_neg (by rw [hok]; exact Bool.false_ne_true), if_pos (by rw [hnone]; rfl)]

theorem exec_writeSignal_writes {old : Int} {w : State} (hsome : field64 bs 8 ≠ 0)
    (hread : (s.serve slot q).readSignal (queueCtx (s.queue q)) (field64 bs 8) = some old)
    (hwrite : (s.serve slot q).unitWrite (queueCtx (s.queue q)) (feNeed true) (field64 bs 8).toNat
      (leBytes 8 (wrap (signalWritten bs old) 64)) = .ok w) :
    exec (.writeSignal q) s = .next ((w.wakeSignals).advance q).wakeFront := by
  have hwritten : (s.serve slot q).writeSignalAt (queueCtx (s.queue q)) (field64 bs 8) (signalWritten bs old) = w := by
    unfold State.writeSignalAt
    rw [hwrite]
  show execWriteSignal q s = _
  refine beginPacket_begins hnext hhead htype ?_
  dsimp only
  rw [if_neg (by simp [hclean, hcond]), if_neg (by rw [hok]; exact Bool.false_ne_true), if_neg (by rwa [beq_iff_eq]), ← hwritten, hread]
  refine congrArg (fun x => (0, ((s.serve slot q).writeSignalAt (queueCtx (s.queue q)) (field64 bs 8) x).wakeSignals)) ?_
  unfold signalWritten
  split
  · next h => rw [if_pos h]
  · next h => rw [if_neg (by rw [h]; decide), if_pos h, Option.getD_some]
  · next hstore hadd => rw [if_neg hstore, if_neg hadd, Option.getD_some]

end

end Sys2Proof.Machine
end

section
/-!
Loop-config packets (R226, R230, R359, R438, log entry 102).
-/
namespace Sys2Proof.Machine

/-! ## Settling -/

/-- Settling leaves a loop whose ladder is counted, and whose integral and demand were clamped before. -/
theorem Loop.settle_of_clamped {l : Loop} (hltop : l.ltop = BitVec.ofNat 16 l.top) {i : Int}
    (hival : l.ival = BitVec.ofInt 32 (min (max i l.imin.toInt) l.imax.toInt)) {d : Nat} (hdemand : l.demand = BitVec.ofNat 16 (min d l.top)) :
    l.settle = l := by
  have himin := Word.toInt_bounds l.imin
  have himax := Word.toInt_bounds l.imax
  have htop := l.top_lt
  have hi : min (max l.ival.toInt l.imin.toInt) l.imax.toInt = min (max i l.imin.toInt) l.imax.toInt := by
    rw [hival, Word.toInt_ofInt (by omega) (by omega)]
    omega
  have hd : min l.demand.toNat l.top = min d l.top := by
    rw [hdemand, BitVec.toNat_ofNat, Nat.mod_eq_of_lt (by omega), Nat.min_assoc, Nat.min_self]
  unfold Loop.settle
  rw [hi, hd, ← hival, ← hdemand, ← hltop]

theorem Loop.settle_settle (l : Loop) : l.settle.settle = l.settle := Loop.settle_of_clamped (l := l.settle) rfl rfl rfl

/-! ## What a packet gives the loop -/

/-- The loop with the configuration of a packet. -/
def Loop.configured (l : Loop) (bs : List Byte) : Loop :=
  { l with
    limits := BitVec.ofNat 64 (field bs 8 8), target := BitVec.ofNat 32 (field bs 16 4), kp := BitVec.ofNat 16 (field bs 20 2)
    ki := BitVec.ofNat 16 (field bs 22 2), imin := BitVec.ofNat 32 (field bs 24 4), imax := BitVec.ofNat 32 (field bs 28 4)
    ctrl := (l.ctrl &&& ~~~ctrlMask) ||| (BitVec.ofNat 32 (field bs 32 4) &&& ctrlMask) }

/-- The loop that a packet resets. -/
def Loop.restarted (l : Loop) (bs : List Byte) : Loop :=
  { l.settle with
    ival := BitVec.ofInt 32 (min (max 0 l.imin.toInt) l.imax.toInt), meas := 0, elast := 0, uval := 0
    demand := BitVec.ofNat 16 (min (field bs 36 2) l.top) }

/-- The loop whose levels follow its ladder, where they are set, and stay otherwise. -/
def Loop.followed (l : Loop) (sets : Bool) : Loop := { l with levels := if sets then (l.ladder l.demand.toNat).word else l.levels }

theorem Loop.leveled_eq (l : Loop) (fixed : Bool) : l.leveled fixed = l.followed !fixed := by cases fixed <;> rfl

theorem Loop.followed_true (l : Loop) : l.followed true = { l with levels := (l.ladder l.demand.toNat).word } := by
  unfold Loop.followed
  rw [if_pos rfl]

/-- The ladder does not read the levels that it gives. -/
theorem Loop.ladder_of_levels (l : Loop) (w : Word) (d : Nat) : ({ l with levels := w } : Loop).ladder d = l.ladder d := by
  rw [Loop.ladder_eq, Loop.ladder_eq]
  rfl

theorem Loop.followed_followed (l : Loop) (a : Bool) : (l.followed a).followed a = l.followed a := by
  cases a with
  | false => rfl
  | true =>
    rw [Loop.followed_true, Loop.followed_true]
    exact congrArg (fun v => { l with levels := Levels.word v }) (Loop.ladder_of_levels l _ _)

theorem Loop.top_followed (l : Loop) (a : Bool) : (l.followed a).top = l.top := rfl

theorem Loop.settle_followed {l : Loop} (h : l.settle = l) (a : Bool) : (l.followed a).settle = l.followed a :=
  Loop.settle_of_clamped (l := l.followed a) (i := l.ival.toInt) (d := l.demand.toNat)
    (by rw [Loop.top_followed]; exact (congrArg Loop.ltop h).symm) (congrArg Loop.ival h).symm
    (by rw [Loop.top_followed]; exact (congrArg Loop.demand h).symm)

theorem Loop.settle_restarted (l : Loop) (bs : List Byte) : (l.restarted bs).settle = l.restarted bs :=
  Loop.settle_of_clamped (l := l.restarted bs) rfl rfl rfl

/-- A loop-config packet has no bit or byte set that is reserved. -/
def loopSound (bs : List Byte) : Prop :=
  field bs 38 1 ≤ 1 ∧ (∀ b ∈ bs.drop 39, b = 0) ∧ bitsOf (BitVec.ofNat 32 (field bs 32 4) : Word).toNat 22 12 = 0

/-! ## The loop is installed -/

/-- A context takes the state of a packet, and waits for its beat group no more. -/
def State.installed (s : State) (n : Nat) (y : Ctx) : State := ((s.setCtx n y).endMerge n).refreshHeld n

theorem State.installLoop_packet (s : State) (n : Nat) (l : Loop) : ∃ y : Ctx, s.installLoop n l true = s.installed n y
    ∧ y.loop = (if l.en && !(s.ctx n).loop.en then l.settle.leveled (s.isSealed n) else l) ∧ y.inForce = y.loop := by
  have hen : (if l.en && !(s.ctx n).loop.en then l.settle.leveled (s.isSealed n) else l).en = l.en := by
    split
    · cases s.isSealed n <;> rfl
    · rfl
  unfold State.installLoop
  dsimp only
  rw [Bool.or_true, Bool.and_true, hen, Bool.and_not_self, if_neg Bool.false_ne_true]
  exact ⟨_, rfl, rfl, if_pos (by rw [Bool.or_true, Bool.true_or])⟩

/-- A packet's loop is installed for a context; while a pass is under way it may end with this, and SHORT may change. -/
structure LoopInstalls (s : State) (n : Nat) (a : Loop) (t : State) : Prop where
  rest : t = { s with
    ctxs := t.ctxs, agenda := t.agenda, cores := t.cores, loopPass := t.loopPass, pendingSteps := t.pendingSteps, waysDue := t.waysDue }
  merged : (t.ctx n).merged = none
  loop : (t.ctx n).loop = { a with ctrl := (t.ctx n).loop.ctrl }
  calm : s.loopPass = none → t = { s with ctxs := t.ctxs } ∧ (∀ d, d ≠ n → Tbl.look t.ctxs d = Tbl.look s.ctxs d)
    ∧ (t.ctx n).loop = a ∧ (t.ctx n).inForce = a

theorem State.passOn_of_calm {s : State} (h : s.loopPass = none) : s.passOn = s :=
  if_pos (by rw [h]; exact Bool.or_true _)

theorem State.installed_installs (s : State) (n : Nat) {y : Ctx} (hforce : y.inForce = y.loop) : LoopInstalls s n y.loop (s.installed n y) := by
  have hworks := (s.setCtx n y).endMerge_works n
  have hctx : ((s.setCtx n y).unmerged n).ctx n = { y with merged := none } := by
    rw [State.unmerged, State.ctx_setCtx_self, State.ctx_setCtx_self]
  have hheld := ((s.setCtx n y).endMerge n).refreshHeld_beside n
  have hmerged : ((s.installed n y).ctx n).merged = none := by
    rw [State.installed, hheld.ctx n]
    exact State.endMerge_merged _ n
  have hloop : ((s.installed n y).ctx n).loop = (((s.setCtx n y).endMerge n).ctx n).loop := by
    rw [State.installed, hheld.ctx n]
  refine ⟨?_, hmerged, ?_, fun hcalm => ?_⟩
  · show { (s.setCtx n y).endMerge n with ctxs := (s.installed n y).ctxs } = _
    rw [hworks.rest]
    rfl
  · have hworked := hworks.loop n
    rw [hctx] at hworked
    rw [hloop]
    exact hworked
  · have hends : (s.setCtx n y).endMerge n = (s.setCtx n y).unmerged n := State.passOn_of_calm hcalm
    refine ⟨?_, fun d hd => ?_, ?_, ?_⟩
    · rw [State.installed, hends]
      rfl
    · rw [State.installed, hends]
      exact ((Tbl.look_put_ne _ _ hd).trans (Tbl.look_put_ne _ _ hd)).trans (Tbl.look_put_ne _ _ hd)
    · rw [hloop, hends, hctx]
    · rw [State.installed, hheld.ctx n, hends, hctx, hforce]

theorem LoopInstalls.of_setCtx {s t : State} {n : Nat} {a : Loop} (x : Ctx) (h : LoopInstalls (s.setCtx n x) n a t) : LoopInstalls s n a t := by
  refine ⟨h.rest, h.merged, h.loop, fun hcalm => ?_⟩
  obtain ⟨hrest, hothers, hloop, hforce⟩ := h.calm hcalm
  exact ⟨hrest, fun d hd => (hothers d hd).trans (Tbl.look_put_ne _ _ hd), hloop, hforce⟩

end Sys2Proof.Machine
end

section
/-!
The obligation on packets (R202 to R207, R226, R248, R359, R438): the body of a loop-config packet, and the assembly.
-/
namespace Sys2Proof.Machine

/-! ## The body of a loop-config packet -/

/-- The context of a loop that a packet resets: no levels wait to apply. -/
def State.restarting (s : State) (n : Nat) : State := s.setCtx n { s.ctx n with pendingLevels := none }

theorem State.restarting_isSealed (s : State) (n : Nat) : (s.restarting n).isSealed n = s.isSealed n := by
  unfold State.isSealed State.restarting
  rw [State.ctx_setCtx_self]
  rfl

/-- A settled loop that is enabled follows its ladder, where its context is not sealed. -/
theorem Loop.leveled_where {l : Loop} (h : l.settle = l) (on fixed : Bool) :
    (if on then l.settle.leveled fixed else l) = l.followed (on && !fixed) := by
  rw [h, Loop.leveled_eq]
  cases on <;> rfl

theorem Loop.followed_again (l : Loop) (on follows : Bool) : (l.followed follows).followed (on && follows) = l.followed follows := by
  cases on with
  | false => rfl
  | true => exact l.followed_followed follows

section
variable {s : State} {n : Nat} {bs : List Byte}

theorem loopBody_unsound (h : ¬ loopSound bs) : s.loopBody n bs = (1, s) := by
  refine if_pos ?_
  simp only [Bool.or_eq_true, decide_eq_true_eq, List.any_eq_true, bne_iff_ne]
  by_contra hno
  simp only [not_or, not_exists, not_and, not_not, Nat.not_lt] at hno
  obtain ⟨⟨hreset, htail⟩, hctrl⟩ := hno
  exact h ⟨hreset, htail, hctrl⟩

variable (hsound : loopSound bs)
include hsound

theorem loopBody_sound : s.loopBody n bs =
    if !((s.ctx n).loop.configured bs).ranges (Tbl.at s.parts (s.ctx n).part {}).ncores then (9, s)
    else if !s.floorsFit n ((s.ctx n).loop.configured bs) then (10, s)
    else if field bs 38 1 % 2 == 1 then
      (0, (s.restarting n).installLoop n ((((s.ctx n).loop.configured bs).restarted bs).leveled ((s.restarting n).isSealed n)) true)
    else (0, s.installLoop n ((s.ctx n).loop.configured bs).settle true) := by
  obtain ⟨hreset, htail, hctrl⟩ := hsound
  refine if_neg ?_
  simp only [Bool.or_eq_true, decide_eq_true_eq, List.any_eq_true, bne_iff_ne]
  rintro ((hover | ⟨b, hb, hset⟩) | hbits)
  · exact absurd hreset (Nat.not_le.mpr hover)
  · exact hset (htail b hb)
  · exact hbits hctrl

variable (hranges : ((s.ctx n).loop.configured bs).ranges (Tbl.at s.parts (s.ctx n).part {}).ncores = true)

theorem loopBody_outOfRange (h : ((s.ctx n).loop.configured bs).ranges (Tbl.at s.parts (s.ctx n).part {}).ncores = false) :
    s.loopBody n bs = (9, s) := by
  rw [loopBody_sound hsound, if_pos (by rw [h]; rfl)]

include hranges

theorem loopBody_unfit (h : s.floorsFit n ((s.ctx n).loop.configured bs) = false) : s.loopBody n bs = (10, s) := by
  rw [loopBody_sound hsound, if_neg (by rw [hranges]; exact Bool.false_ne_true), if_pos (by rw [h]; rfl)]

variable (hfit : s.floorsFit n ((s.ctx n).loop.configured bs) = true)
include hfit

/-- A packet that resets nothing: the levels follow the ladder where it enables the loop of a context that is not sealed. -/
theorem loopBody_keeps (hkeep : field bs 38 1 = 0) : ∃ t, s.loopBody n bs = (0, t)
    ∧ LoopInstalls s n (((s.ctx n).loop.configured bs).settle.followed
        (((s.ctx n).loop.configured bs).en && !(s.ctx n).loop.en && !s.isSealed n)) t := by
  obtain ⟨y, hy, hloop, hforce⟩ := s.installLoop_packet n ((s.ctx n).loop.configured bs).settle
  rw [Loop.leveled_where (Loop.settle_settle _)] at hloop
  refine ⟨_, ?_, hloop ▸ s.installed_installs n hforce⟩
  rw [loopBody_sound hsound, if_neg (by rw [hranges]; exact Bool.false_ne_true), if_neg (by rw [hfit]; exact Bool.false_ne_true),
    if_neg (by rw [hkeep]; decide), hy]

/-- A packet that resets the loop: the levels follow the ladder of a context that is not sealed. -/
theorem loopBody_resets (hreset : field bs 38 1 = 1) : ∃ t, s.loopBody n bs = (0, t)
    ∧ LoopInstalls s n ((((s.ctx n).loop.configured bs).restarted bs).followed (!s.isSealed n)) t := by
  obtain ⟨y, hy, hloop, hforce⟩ := (s.restarting n).installLoop_packet n
    ((((s.ctx n).loop.configured bs).restarted bs).leveled ((s.restarting n).isSealed n))
  rw [s.restarting_isSealed, Loop.leveled_eq, Loop.leveled_where (Loop.settle_followed (Loop.settle_restarted _ _) _),
    Loop.followed_again] at hloop
  refine ⟨_, ?_, (hloop ▸ (s.restarting n).installed_installs n hforce).of_setCtx⟩
  rw [loopBody_sound hsound, if_neg (by rw [hranges]; exact Bool.false_ne_true), if_neg (by rw [hfit]; exact Bool.false_ne_true),
    if_pos (by rw [hreset]; decide), hy]

end

section
variable {s : State} {slot q : Nat} (hnext : s.nextQueue = some (slot, q)) {bs : List Byte} (hhead : s.headPacket q = .ok bs)
  (htype : packetType bs = 5)
include hnext hhead htype

theorem exec_loopConfig_stops {code : Nat} (hcode : code ≠ 0) {t : State}
    (h : (s.serve slot q).loopBody (queueCtx (s.queue q)) bs = (code, t)) : exec (.loopConfig q) s = .next (t.stopQueue q code).wakeFront :=
  beginPacket_stops hnext hhead htype hcode h

theorem exec_loopConfig_begins {t : State} (h : (s.serve slot q).loopBody (queueCtx (s.queue q)) bs = (0, t)) :
    exec (.loopConfig q) s = .next (t.advance q).wakeFront :=
  beginPacket_begins hnext hhead htype h

end

/-- A loop-config packet has begun on a state that the front end's reads have left. -/
theorem loopConfig_begins {s u t0 : State} {slot n : Nat} {a : Loop} (hside : MemSide { s with lastSlot := slot } u)
    (h : LoopInstalls u n a t0) (q : Nat) :
    let t := (t0.advance q).wakeFront
    PacketBegins q slot u t ∧ (t.ctx n).merged = none
      ∧ t = { u with
        queues := t.queues, ctxs := t.ctxs, agenda := t.agenda, cores := t.cores, loopPass := t.loopPass
        pendingSteps := t.pendingSteps, waysDue := t.waysDue }
      ∧ (s.loopPass = none → t = { u with queues := t.queues, ctxs := t.ctxs, agenda := t.agenda }
        ∧ (∀ d, d ≠ n → Tbl.look t.ctxs d = Tbl.look s.ctxs d) ∧ (t.ctx n).inForce = (t.ctx n).loop ∧ (t.ctx n).loop = a)
      ∧ (t.ctx n).loop = { a with ctrl := (t.ctx n).loop.ctrl } := by
  intro t
  have hslot : t0.lastSlot = slot := by rw [h.rest, hside.readSlot]
  have hctxs : u.ctxs = s.ctxs := by rw [hside.rest]
  obtain ⟨hbegins, ht⟩ := advance_begins (w := u) (v := t0) (by rw [h.rest]) hslot q
  change t = _ at ht
  have hctx : t.ctx n = t0.ctx n := by
    rw [State.ctx, ht]
    rfl
  rw [hctx]
  refine ⟨hbegins, h.merged, ?_, fun hcalm => ?_, h.loop⟩
  · rw [ht, h.rest]
  · obtain ⟨hrest, hothers, hloop, hforce⟩ := h.calm (by rw [hside.rest]; exact hcalm)
    refine ⟨?_, fun d hd => ?_, hforce.trans hloop.symm, hloop⟩
    · rw [ht, hrest]
    · rw [ht, ← hctxs]
      exact hothers d hd

end Sys2Proof.Machine
end

section
/-!
The obligation on packets (R202 to R207, R226, R248, R359, R438), assembled.
-/
namespace Sys2Proof.Machine

theorem State.unmet_waitSignalPacket (u : State) (cx q : Nat) (idx : DWord) (bs : List Byte) :
    u.unmet cx (waitSignalPacket q idx bs) = if field64 bs 8 = 0
        ∨ (∃ v, u.readSignal cx (field64 bs 8) = some v ∧ signalCond (field bs 24 1) v (field64 bs 16).toInt = true) then []
      else [field64 bs 8] := by
  rw [State.unmet_waitSignal u cx (b := waitSignalPacket q idx bs) rfl]
  unfold waitSignalPacket
  dsimp only
  generalize field64 bs 8 = a
  by_cases hzero : a = 0
  · rw [if_pos (Or.inl hzero), hzero]
    rfl
  · rw [← namedSignal_eq, if_neg (by rwa [beq_iff_eq])]
    by_cases hmet : ∃ v, u.readSignal cx a = some v ∧ signalCond (field bs 24 1) v (field64 bs 16).toInt = true
    · rw [if_pos (Or.inr hmet)]
      simp [hmet]
    · rw [if_neg (not_or.mpr ⟨hzero, hmet⟩)]
      refine List.filter_eq_self.mpr fun b hb => ?_
      rw [List.mem_singleton.mp hb]
      exact decide_eq_true hmet

section
variable {s u : State} {slot : Nat} (hside : MemSide { s with lastSlot := slot } u)
include hside

/-- The wait-signal packet that has begun stays while its condition is not met. -/
theorem waitSignal_begun (cx q : Nat) (bs : List Byte) :
    let a := field64 bs 8
    let w := u.signalsMet cx ([a].filter (fun b => b != 0))
    let t := ((u.beginWait cx (waitSignalPacket q (u.queue q).rdidx bs)).advance q).wakeFront
    PacketBegins q slot w t ∧ t = { w with queues := t.queues, begun := t.begun, agenda := t.agenda }
      ∧ t.begun = (if a = 0 ∨ (∃ v, u.readSignal cx a = some v ∧ signalCond (field bs 24 1) v (field64 bs 16).toInt = true) then s.begun
          else s.begun ++ [⟨q, (s.queue q).rdidx, 2, 0, [a], field64 bs 16, field bs 24 1⟩]) := by
  intro a w t
  obtain ⟨hbegins, ht, hbegun⟩ := beginWait_begins hside cx q (waitSignalPacket q (u.queue q).rdidx bs)
  have hrdidx : (u.queue q).rdidx = (s.queue q).rdidx := by rw [hside.queue q]; rfl
  refine ⟨hbegins, ht, hbegun.trans ?_⟩
  rw [u.unmet_waitSignalPacket, hrdidx]
  split
  · rw [if_pos rfl]
  · rw [if_neg (List.cons_ne_nil _ _)]
    rfl

/-- The barrier-and packet that has begun stays while a signal of it is not 0. -/
theorem barrierAnd_begun (cx q : Nat) (bs : List Byte) :
    let as := (List.range 5).map (fun i => field64 bs (8 + 8 * i))
    let w := u.signalsMet cx (as.filter (fun b => b != 0))
    let t := ((u.beginWait cx (barrierPacket q (u.queue q).rdidx bs)).advance q).wakeFront
    PacketBegins q slot w t ∧ t = { w with queues := t.queues, begun := t.begun, agenda := t.agenda }
      ∧ (let left := as.filter (fun b => b != 0 && u.readSignal cx b != some 0)
        t.begun = if left = [] then s.begun else s.begun ++ [⟨q, (s.queue q).rdidx, 4, 0, left, 0, 0⟩]) := by
  intro as w t
  obtain ⟨hbegins, ht, hbegun⟩ := beginWait_begins hside cx q (barrierPacket q (u.queue q).rdidx bs)
  have hrdidx : (u.queue q).rdidx = (s.queue q).rdidx := by rw [hside.queue q]; rfl
  have hleft : u.unmet cx (barrierPacket q (u.queue q).rdidx bs) = as.filter (fun b => b != 0 && u.readSignal cx b != some 0) := by
    rw [State.unmet_barrier u cx (b := barrierPacket q (u.queue q).rdidx bs) (show 4 ≠ 2 by decide)]
    exact List.filter_filter.trans (List.filter_congr fun b _ => Bool.and_comm _ _)
  refine ⟨hbegins, ht, hbegun.trans ?_⟩
  rw [hleft, hrdidx]
  rfl

end

/-- Whatever event the front end comes to, a head packet in error stops its queue. -/
theorem exec_packet_error {s : State} {slot q code : Nat} (hnext : s.nextQueue = some (slot, q)) (herror : s.headPacket q = .error code)
    {i : Instr} (hi : i ∈ [Instr.launchPacket q, .waitSignal q, .writeSignal q, .barrierAnd q, .loopConfig q]) :
    exec i s = .next ((s.serve slot q).stopQueue q code).wakeFront := by
  have hstop (ptype : Nat) (act : State → Nat → List Byte → Nat × State) := beginPacket_error hnext ptype act herror
  simp only [List.mem_cons, List.not_mem_nil, or_false] at hi
  rcases hi with rfl | rfl | rfl | rfl | rfl
  · show execLaunchPacket q s = _
    exact hstop _ _
  · show execWaitSignal q s = _
    exact hstop _ _
  · show execWriteSignal q s = _
    exact hstop _ _
  · show execBarrierAnd q s = _
    exact hstop _ _
  · show execLoopConfig q s = _
    exact hstop _ _

/-- Settles O48: each packet by what its body answers, on the state that the reads of the front end leave. -/
theorem packetResults : Obligations.PacketResults := by
  unfold Obligations.PacketResults
  intro s q slot hnext cx u packets stops begins reads
  have hside : MemSide { s with lastSlot := slot } u := s.serve_side slot q
  have hcauses : u.causes = s.causes := by rw [hside.rest]
  have hstops (code : Nat) : stops (u.stopQueue q code).wakeFront code := stopQueue_stops hcauses q code
  refine ⟨hside, fun hclean => State.serve_of_noneBad hclean slot q, fun as => u.signalsMet_side cx _, fun code herror i hi => ?_,
    fun bs hhead => ?_⟩
  · exact ⟨_, exec_packet_error hnext herror hi, hstops code⟩
  intro a cond clean
  refine ⟨fun htype => ?_, fun htype => ?_, fun htype as has => ?_, fun htype => ?_⟩
  · refine ⟨fun hbad => ⟨_, exec_waitSignal_malformed hnext hhead htype hbad, hstops 1⟩,
      fun hcond hzeros hbad => ⟨_, exec_waitSignal_unmapped hnext hhead htype hcond hzeros hbad, hstops 2⟩,
      fun hcond hzeros hok => ⟨_, exec_waitSignal_begins hnext hhead htype hcond hzeros hok, waitSignal_begun hside cx q bs⟩⟩
  · refine ⟨fun hbad => ⟨_, exec_writeSignal_malformed hnext hhead htype hbad, hstops 1⟩,
      fun hcond hzeros hbad => ⟨_, exec_writeSignal_unmapped hnext hhead htype hcond hzeros hbad, hstops 2⟩,
      fun hcond hzeros hok hnone => ⟨_, exec_writeSignal_none hnext hhead htype hcond hzeros hok hnone, advance_begins rfl hside.readSlot q⟩,
      fun old w hcond hzeros hok hsome hread => ?_⟩
    intro x new hwrite
    refine ⟨_, exec_writeSignal_writes hnext hhead htype hcond hzeros hok hsome hread hwrite, ?_⟩
    have hwakes := w.wakeSignals_follows
    have hslot : w.wakeSignals.lastSlot = slot := by
      rw [hwakes.agenda]
      exact (hside.trans (State.unitWrite_side hwrite)).readSlot
    obtain ⟨hbegins, ht⟩ := advance_begins hwakes.queues hslot q
    refine ⟨hbegins, ht.trans ?_⟩
    rw [hwakes.agenda]
  · subst has
    exact ⟨fun hbad => ⟨_, exec_barrierAnd_malformed hnext hhead htype hbad, hstops 1⟩,
      fun hzeros hbad => ⟨_, exec_barrierAnd_unmapped hnext hhead htype hzeros hbad, hstops 2⟩,
      fun hzeros hok => ⟨_, exec_barrierAnd_begins hnext hhead htype hzeros hok, barrierAnd_begun hside cx q bs⟩⟩
  · intro le ctrl x l sound
    have hctx : u.ctx cx = s.ctx cx := hside.ctx cx
    have hparts : u.parts = s.parts := by rw [hside.rest]
    have hsealed : u.isSealed cx = s.isSealed cx := by rw [State.isSealed, hctx, hparts, State.isSealed]
    have hranges : l.ranges (Tbl.at s.parts x.part {}).ncores
        = ((u.ctx cx).loop.configured bs).ranges (Tbl.at u.parts (u.ctx cx).part {}).ncores := by rw [hctx, hparts]; rfl
    have hfloors : u.floorsFit cx l = u.floorsFit cx ((u.ctx cx).loop.configured bs) := by rw [hctx]; rfl
    rw [hranges, hfloors]
    refine ⟨fun hbad => ⟨_, exec_loopConfig_stops hnext hhead htype (by decide) (loopBody_unsound hbad), hstops 1⟩,
      fun hsound hbad => ⟨_, exec_loopConfig_stops hnext hhead htype (by decide) (loopBody_outOfRange hsound hbad), hstops 9⟩,
      fun hsound hin hbad => ⟨_, exec_loopConfig_stops hnext hhead htype (by decide) (loopBody_unfit hsound hin hbad), hstops 10⟩,
      fun hsound hin hfit => ?_⟩
    intro on calm stepped held
    have hkeeps := loopBody_keeps hsound hin hfit
    have hresets := loopBody_resets hsound hin hfit
    rw [hctx, hsealed] at hkeeps hresets
    rcases Nat.le_one_iff_eq_zero_or_eq_one.mp hsound.1 with hkeep | hreset
    · obtain ⟨t0, hbody, hinstalls⟩ := hkeeps hkeep
      obtain ⟨hbegins, hmerged, hrest, hcalm, hloop⟩ := loopConfig_begins hside hinstalls q
      refine ⟨_, exec_loopConfig_begins hnext hhead htype hbody, hbegins, hmerged, hrest, fun h => ?_, fun _ => hloop, fun h => ?_⟩
      · obtain ⟨hrest', hothers, hforce, hloop'⟩ := hcalm h
        exact ⟨hrest', hothers, hforce, fun _ => hloop', fun h => absurd (hkeep.symm.trans h) Nat.zero_ne_one⟩
      · exact absurd (hkeep.symm.trans h) Nat.zero_ne_one
    · obtain ⟨t0, hbody, hinstalls⟩ := hresets hreset
      obtain ⟨hbegins, hmerged, hrest, hcalm, hloop⟩ := loopConfig_begins hside hinstalls q
      refine ⟨_, exec_loopConfig_begins hnext hhead htype hbody, hbegins, hmerged, hrest, fun h => ?_, fun h => ?_, fun _ => hloop⟩
      · obtain ⟨hrest', hothers, hforce, hloop'⟩ := hcalm h
        exact ⟨hrest', hothers, hforce, fun h => absurd (h.symm.trans hreset) Nat.zero_ne_one, fun _ => hloop'⟩
      · exact absurd (h.symm.trans hreset) Nat.zero_ne_one


end Sys2Proof.Machine
end
